-- ==== Sys2Proof/Word.lean ====
section
/-! DEFINITION. The words this hardware is made of (R17, R522): control-port registers are 64-bit,
the memory line is 64 bytes. -/
namespace Sys2Proof

/-- One byte. -/
abbrev Byte := BitVec 8

/-- One control-port register (R522). -/
abbrev Word := BitVec 64

/-- A 64-byte line, a link flit, a record or a descriptor: byte `k` in bits `8k+7..8k` (R17, R434). -/
abbrev Line := BitVec 512

/-- A control-port byte address (R522). -/
abbrev Addr24 := BitVec 24

end Sys2Proof
end

