-- ==== Sys2Proof/Syntax.lean ====
section
/-! DEFINITION. The commands the block takes: one constructor per row of the command table. A write of
a control register that the table gives a row of its own carries the whole word written. -/
namespace Sys2Proof

/-- A link of the instance (R396). -/
inductive Side where
  | east | west
  deriving DecidableEq, Repr

/-- Where a hierarchy message or a verdict record comes from: a link, the fabric message port, or this
instance itself, as a member of the node it also is (R217, R218). -/
inductive Source where
  | east | west | fmp | self
  deriving DecidableEq, Repr

/-- The transfers that have a NAK cycle of their own row (R297). -/
inductive NakKind where
  | memRead | memWrite | hostReturn | hostCompletion
  deriving DecidableEq, Repr

/-- The blocks of stage registers that a commit schedules for a window boundary (R20, R530). -/
inductive StagedBlock where
  | stepk | swp | memb | strm | xch | mp
  deriving DecidableEq, Repr

/-- The stream engine's issue streams (R324). -/
inductive IssueStream where
  | stackRead | stackWrite | farRead | farWrite
  deriving DecidableEq, Repr

/-- A read-back as it arrives: on a memory channel port or on the far port (R327). -/
inductive ReadBack where
  | stack (chan : BitVec 5) (tag : BitVec 10) (data : Line) (par : BitVec 66)
  | far (tag : BitVec 12) (resp : BitVec 2) (data : Line) (par : BitVec 66)
  deriving DecidableEq, Repr

/-- The reset pins, released (R461, R485). -/
inductive ResetPin where
  | warm | cold | pwrOk
  deriving DecidableEq, Repr

/-- A command. -/
inductive Instr where
  /-- SEAL (R34). A pulse on evt_in[0] seals the current step; it is checked for phase, epoch and step
  constants, then accepted or refused. -/
  | sealPulse
  /-- STEP_CTL_SEAL (R34). A STEP_CTL write with SEAL set seals step SEAL_STEP, after the checks of R24
  and R34. -/
  | stepCtlSeal (w : Word)
  /-- NORM_PASS_DONE (R207). The norm pass finishes reading every tensor, including re-reads, and sends
  the contribution. -/
  | normPassDone
  /-- ABORT_REQ (R28). A pulse on evt_in[1] raises ABORT for the current step. -/
  | abortReq
  /-- STEP_CTL_ABORT (R42). A STEP_CTL write with ABORT set ends the step before the gate, or stops FETCH
  and completes in-flight tiles toward HALTED. -/
  | stepCtlAbort (w : Word)
  /-- STEP_CTL_LOAD_STEP (R25). A STEP_CTL write with LOAD_STEP sets STEP_STATUS.STEP while PHASE is IDLE. -/
  | stepCtlLoadStep (w : Word)
  /-- STEP_CTL_CLEAR_HALT (R28). A STEP_CTL write with CLEAR_HALT moves PHASE from HALTED to IDLE. -/
  | stepCtlClearHalt (w : Word)
  /-- TONGUE_ARM (R212). A write of TONGUE_ARM.ARM is checked and, if accepted, starts clearing the
  gradient fields. -/
  | tongueArm (w : Word)
  /-- ARM_CLEAR_DONE (R212). The 256-cycle clear of an accepted arm ends and PHASE enters OBSERVE, or
  ARMED is set during a sweep. -/
  | armClearDone
  /-- HOST_READ_REQUEST (R277). A read request taken on a host channel port is parity-checked and routed
  to its memory channel by the hash. -/
  | hostReadRequest (port : BitVec 5) (tag : BitVec 12) (req : BitVec 52) (par : BitVec 8)
  /-- HOST_WRITE_REQUEST (R277). A write request taken on a host channel port is parity-checked and routed
  to its memory channel. -/
  | hostWriteRequest (port : BitVec 5) (tag : BitVec 12) (req : BitVec 52) (mask : BitVec 64) (data : Line) (par : BitVec 80)
  /-- HOST_WRITE_COMPLETION (R436). After the write's memory NAK cycle passes, the engine sends its
  completion on the host port. -/
  | hostWriteCompletion (port : BitVec 5) (tag : BitVec 12)
  /-- HOST_RETURN_NAK (R296). The host decode NAKs a read return and the engine replays it. -/
  | hostReturnNak (port : BitVec 5) (nakTag : BitVec 12) (nakPar : BitVec 2)
  /-- HOST_COMPLETION_NAK (R437). The host decode NAKs a write completion and the engine replays it, fatal
  after three failures. -/
  | hostCompletionNak (port : BitVec 5) (nakTag : BitVec 12) (nakPar : BitVec 2)
  /-- ARBITER_GRANT (R285). Each port cycle a channel's read or write arbiter grants a replay, the control
  slot, or a request by the mode's arbitration. -/
  | arbiterGrant (chan : BitVec 5) (write : Bool) (tag : BitVec 10)
  /-- MEMORY_READ_RETURN (R296). A read return on a memory channel port is parity-checked, reissued on
  failure, or delivered to its requester. -/
  | memoryReadReturn (chan : BitVec 5) (tag : BitVec 10) (data : Line) (par : BitVec 66)
  /-- MEMORY_READ_NAK (R296). The channel controller NAKs a read request and the engine reissues it. -/
  | memoryReadNak (chan : BitVec 5) (nakTag : BitVec 10) (nakPar : BitVec 2)
  /-- MEMORY_WRITE_NAK (R299). The channel controller NAKs a write; the engine replays it and discards any
  confirm read already issued. -/
  | memoryWriteNak (chan : BitVec 5) (nakTag : BitVec 10) (nakPar : BitVec 2)
  /-- NAK_CYCLE_END (R297). A transfer's NAK cycle passes without a NAK, so it is good and its retained
  data or tag is released. -/
  | nakCycleEnd (kind : NakKind) (port : BitVec 5) (tag : BitVec 12)
  /-- WCB_TIMEOUT (R301). A write-combining entry open for 16 port cycles is written to its channel. -/
  | wcbTimeout (line : BitVec 34)
  /-- TADPOLE_AGE_LIMIT (R304). A tadpole piece that has waited 2,048 port cycles goes next on its
  channel. -/
  | tadpoleAgeLimit (chan : BitVec 5)
  /-- REGULATOR_WINDOW_BOUNDARY (R289). At each 1,024-port-cycle boundary the partition counts restart and
  window results are published. -/
  | regulatorWindowBoundary
  /-- THERMAL_REPORT (R292). A thermal report is checked and, if good, sets the target throttle level and
  may start or end a pause. -/
  | thermalReport (temp : BitVec 8) (limit : BitVec 8) (par : BitVec 2)
  /-- THERMAL_STALE (R294). No good report for 1 ms sets STALE and acts as though TEMP equals LIMIT. -/
  | thermalStale
  /-- THROTTLE_DUTY_WINDOW (R512). A completed 24-hour window whose throttle duty exceeds CROAK_THROTTLE
  raises croak. -/
  | throttleDutyWindow
  /-- CONTRIB (R223). An aggregator checks a received CONTRIB and accepts, buffers, discards or holds on
  it. -/
  | contrib (src : Source) (m : Line)
  /-- SUM (R224). A node or the root checks and accepts a SUM from a child. -/
  | sum (src : Source) (m : Line)
  /-- SKIP_NOTICE (R225). A received SKIP_NOTICE is passed up, and with EARLY_SKIP the root issues a SKIP
  record. -/
  | skipNotice (src : Source) (m : Line)
  /-- HOLD_NOTICE (R223). A received HOLD_NOTICE makes the parent hold in turn. -/
  | holdNotice (src : Source) (m : Line)
  /-- ABORT_NOTICE (R229). A received ABORT_NOTICE is passed up; with ABORT_PROPAGATE the root sends an
  ABORT record. -/
  | abortNotice (src : Source) (m : Line)
  /-- JOIN (R221). A manager checks a JOIN and, once all ring members have joined, sends JOIN_SUM. -/
  | join (src : Source) (m : Line)
  /-- JOIN_SUM (R221). A node or root checks a JOIN_SUM and, when complete, passes it on or sends
  EPOCH_OPEN. -/
  | joinSum (src : Source) (m : Line)
  /-- EPOCH_OPEN (R221). An instance receiving EPOCH_OPEN of its epoch sets STATE OPEN and forwards it
  around the ring. -/
  | epochOpen (src : Source) (m : Line)
  /-- CONTRIB_TIMEOUT (R230). CONTRIB_TIMEOUT expires before all expected messages arrive, and the
  aggregator holds. -/
  | contribTimeout
  /-- JOIN_TIMEOUT (R221). JOIN_TIMEOUT expires without EPOCH_OPEN and membership becomes FAILED. -/
  | joinTimeout
  /-- VERDICT_RECORD_GO (R228). A GO record is checked and applied, opening the gate, or rejected. -/
  | verdictRecordGo (src : Source) (m : Line)
  /-- VERDICT_RECORD_SKIP (R38). A SKIP record is checked and applied, ending the step in IDLE with the
  loss-scale update. -/
  | verdictRecordSkip (src : Source) (m : Line)
  /-- VERDICT_RECORD_ABORT (R228). An ABORT record is checked and applied as an ABORT of the step. -/
  | verdictRecordAbort (src : Source) (m : Line)
  /-- FLASH_GO (R228). A qualified GO flash sets LAST_FLASH, powers up the fabric and is forwarded. -/
  | flashGo (side : Side)
  /-- FLASH_SKIP (R228). A qualified SKIP flash sets LAST_FLASH and is forwarded. -/
  | flashSkip (side : Side)
  /-- FLASH_HOLD (R228). A qualified HOLD flash sets LAST_FLASH and is forwarded. -/
  | flashHold (side : Side)
  /-- FLASH_ABORT (R228). A qualified ABORT flash is applied at once as an ABORT and forwarded. -/
  | flashAbort (side : Side)
  /-- GATE_OPEN (R170). Once no EMA pass, export, fill or ratio change holds it, the gate opens: journal
  lines written, marks set, VERDICT_GO pulsed. -/
  | gateOpen
  /-- LEASE_ACQUIRE (R235). LEASE_OP ACQUIRE grants a free or lapsed lease, or returns HELD. -/
  | leaseAcquire (w : Word)
  /-- LEASE_RENEW (R235). LEASE_OP RENEW extends a valid lease held by the requester with the matching
  generation. -/
  | leaseRenew (w : Word)
  /-- LEASE_RELEASE (R235). LEASE_OP RELEASE frees a valid lease held by the requester with the matching
  generation. -/
  | leaseRelease (w : Word)
  /-- LEASE_READ (R235). LEASE_OP READ returns the lease's owner, generation and expiry. -/
  | leaseRead (w : Word)
  /-- MEMB_COMMIT (R219). A write of MEMB_COMMIT.COMMIT checks and schedules the staged epoch. -/
  | membCommit (w : Word)
  /-- ROOT_LSN_WRITE (R239). A write of ROOT_LSN is applied in IDLE or ignored and reported as
  LSCALE_BUSY. -/
  | rootLsnWrite (w : Word)
  /-- MAP_BUILD_DONE (R198). The granule-map build ends, valid or failed with GRAD_RANGE or MAP_CONFLICT. -/
  | mapBuildDone
  /-- FETCH_ISSUE (R99). When the pond grants a tile's whole pad set, FETCH issues the tile's SWEEP reads
  in sweep order. -/
  | fetchIssue
  /-- TILE_ENTER_CHAIN (R102). A tile whose operands are in pads and whose constant bank is loaded enters
  the rank chain. -/
  | tileEnterChain
  /-- MOMENT_GROUP_HANDOVER (R174). A tile reaching COMMIT is encoded, checked for non-finite results and
  its moment group handed to the memory path. -/
  | momentGroupHandover
  /-- CONFIRM_READ_RETURN (R172). A confirm read returns and is compared with the bytes written. -/
  | confirmReadReturn (chan : BitVec 5) (tag : BitVec 10) (data : Line) (par : BitVec 66)
  /-- MOMENTS_CONFIRMED (R174). Every line of a tile's moment group is confirmed and the moment mark
  advances. -/
  | momentsConfirmed
  /-- WEIGHT_GROUP_HANDOVER (R174). Once its and all earlier tiles' moments are confirmed, the tile's
  weight group is handed over. -/
  | weightGroupHandover
  /-- WEIGHTS_CONFIRMED (R174). Every line of a tile's weight group is confirmed; the weight mark advances
  and EXPORT receives the tile. -/
  | weightsConfirmed
  /-- PASS1_DONE (R28). The first pass finishes; trust ratios or vectors are journalled and PHASE becomes
  SWEEP. -/
  | pass1Done
  /-- SWEEP_HALT (R41). After the tiles ahead of a fault or abort complete, the fault is journalled and
  PHASE enters HALTED. -/
  | sweepHalt
  /-- MARKS_LINE_WRITE (R178). The marks line is written at a state change or every 64 port cycles while a
  mark has moved. -/
  | marksLineWrite
  /-- RESIDUE_FAULT (R108). A residue mismatch latches FAB_FAULT, discards in-chain tiles, sheds the rank
  and starts the drain. -/
  | residueFault (rank : BitVec 5) (lane : BitVec 7) (unit : BitVec 2) (ord : BitVec 32)
  /-- SHED_DRAIN_DONE (R108). The drain and variant load end, and the discarded tiles are fetched again or
  the pass halts on NO_VARIANT. -/
  | shedDrainDone
  /-- CODEC_MISMATCH (R110). A decoder or encoder copy mismatch discards the tile for refetch, or halts
  with FAULT_CODEC on a second one. -/
  | codecMismatch (ord : BitVec 32)
  /-- GEN_MISMATCH (R380). A generator core copy mismatch is handled as a codec mismatch or regenerates a
  mask beat. -/
  | genMismatch (mask : Bool) (ord : BitVec 32)
  /-- STEPK_COMMIT (R121). A write of STEPK_COMMIT.COMMIT checks the staged step constants and schedules
  them. -/
  | stepkCommit (w : Word)
  /-- SWP_COMMIT (R162). A write of SWP_COMMIT.COMMIT checks the staged arena bases and schedules them. -/
  | swpCommit (w : Word)
  /-- STAGED_SET_APPLY (R530). At its window boundary a pending staged copy is re-checked if needed and
  applied whole. -/
  | stagedSetApply (blk : StagedBlock)
  /-- TTAB_LOAD (R167). A write of TTAB_CTL.LOAD is checked and starts loading the tensor table. -/
  | ttabLoad (w : Word)
  /-- TABLE_LOAD_DONE (R167). The table load ends, accepted or rejected at the lowest failing record, and
  a map build starts. -/
  | tableLoadDone
  /-- SWEEP_RESUME (R183). SWEEP_CTL.RESUME, optionally with SKIP_TILE, continues a HALTED pass from the
  weight mark or reruns PASS1. -/
  | sweepResume (w : Word)
  /-- SWEEP_RECOVER (R185). SWEEP_CTL.RECOVER classifies the in-flight tiles from the journal and
  continues the sweep. -/
  | sweepRecover (w : Word)
  /-- FAB_SHED_WRITE (R115). A write of FAB_SHED sheds ranks, or is ignored as SHED_BUSY while the fabric
  runs. -/
  | fabShedWrite (w : Word)
  /-- FAB_CNT_CLEAR (R105). FAB_CTL.CNT_CLEAR clears the fabric counters. -/
  | fabCntClear (w : Word)
  /-- EMA_START (R146). AUX_CTL.EMA_START is checked and starts the EMA pass. -/
  | emaStart (w : Word)
  /-- EMA_RESEED (R144). AUX_CTL.EMA_RESEED starts a pass that copies the master into every EMA copy. -/
  | emaReseed (w : Word)
  /-- EMA_PASS_DONE (R146). An EMA or reseed pass commits its last tile, sets EMA_STEP and VALID and
  pulses AUX_DONE. -/
  | emaPassDone
  /-- LSCALE_LOAD (R149). LSCALE.LOAD sets K and K_NEXT in IDLE, or is refused as LSCALE_BUSY or
  LSCALE_RANGE. -/
  | lscaleLoad (w : Word)
  /-- IMG_LOAD (R269). IMG_CTL.LOAD empties the shadow plane and reads the image into it, or is refused. -/
  | imgLoad (w : Word)
  /-- IMAGE_READ_DONE (R269). The image read ends, or fails with READ, and verification starts. -/
  | imageReadDone
  /-- IMAGE_VERIFY_DONE (R270). Verification ends with the shadow VERIFIED or REJECTED and IMAGE_CHECKED
  pulsed. -/
  | imageVerifyDone
  /-- IMG_MOLT (R271). IMG_CTL.MOLT is checked and swaps the planes, re-checks dependent sets and closes
  the epoch if needed. -/
  | imgMolt (w : Word)
  /-- MOLT_DONE (R272). The molt completes and MOLT_DONE is pulsed. -/
  | moltDone
  /-- PORT_PLAN_APPLY (R272). The new port plan takes effect at the next 1,024-port-cycle boundary. -/
  | portPlanApply
  /-- IMG_DISCARD (R276). IMG_CTL.DISCARD empties the shadow plane, abandoning any load. -/
  | imgDiscard (w : Word)
  /-- CH_TAIL_WRITE (R318). A write of CHn_TAIL hands descriptors to the channel and starts fetching them. -/
  | chTailWrite (n : BitVec 4) (w : Word)
  /-- DESCRIPTOR_FETCH_DONE (R322). A task's whole chain is fetched and validated; the task starts or is
  rejected. -/
  | descriptorFetchDone (n : BitVec 4)
  /-- CH_STOP (R329). CHn_CTL.STOP stops the channel at once or at the descriptor boundary. -/
  | chStop (n : BitVec 4) (w : Word)
  /-- CH_CANCEL (R330). CHn_CTL.CANCEL withdraws the task's remaining bursts and ends it with CANCELLED. -/
  | chCancel (n : BitVec 4) (w : Word)
  /-- CH_RESUME (R329). CHn_CTL.RESUME continues a stopped task, or refetches from HEAD after a reject or
  fault. -/
  | chResume (n : BitVec 4) (w : Word)
  /-- CH_RESET (R329). CHn_CTL.RESET drops the ring, frees the channel's pads and abandons a started task. -/
  | chReset (n : BitVec 4) (w : Word)
  /-- STREAM_BURST_GRANT (R324). An issue stream grants its next burst to an urgent, starving or highest-
  priority ready channel. -/
  | streamBurstGrant (issue : IssueStream)
  /-- FAR_BURST_GRANT (R326). A far-port direction grants the next burst to urgent, delta, or rotating
  stream and export requesters. -/
  | farBurstGrant (write : Bool) (tags : List (BitVec 12))
  /-- PIECE_WRITES_DONE (R323). Every write of a piece has passed or been acknowledged, and its pad is
  freed or pushed. -/
  | pieceWritesDone (n : BitVec 4) (piece : BitVec 32)
  /-- PQ_POP (R341). A consumer pops an entry and adopts, discards, writes it or aborts on it. -/
  | pqPop (n : BitVec 4)
  /-- STREAM_READBACK_RETURN (R327). A task's read-back returns and is compared, reissued once, or faults
  with READBACK. -/
  | streamReadbackReturn (n : BitVec 4) (ret : ReadBack)
  /-- DESCRIPTOR_WRITEBACK_DONE (R327). The task's last descriptor write-back is accepted and STREAM_DONE
  is pulsed. -/
  | descriptorWritebackDone (n : BitVec 4)
  /-- PAD_WATCHDOG (R342). A task without progress for PAD_WATCHDOG is aborted with STALL. -/
  | padWatchdog (n : BitVec 4)
  /-- POND_STALL (R342). FETCH waiting a whole interval with no pad freed aborts the stream task holding
  the most pads. -/
  | pondStall
  /-- PREFETCH_URGENT (R343). A channel-15 task becomes urgent when the ctrl time reaches DEADLINE minus
  its lead. -/
  | prefetchUrgent
  /-- DEADLINE_MISS (R344). The ctrl time passes a task's DEADLINE before completion; the miss is counted
  and reported. -/
  | deadlineMiss (n : BitVec 4)
  /-- POND_ALLOCATE (R334). Each fab cycle the pond allocator grants whole pad requests in rotating order
  within the floors. -/
  | pondAllocate (picks : List (BitVec 11))
  /-- PAD_FREE (R336). A free of a pad is checked by generation and owner and frees the pad or is reported
  invalid. -/
  | padFree (handle : BitVec 16) (freer : BitVec 6)
  /-- PQ_FLUSH (R349). PQ_CTL.FLUSH empties a queue and frees its pads, or is refused as QUEUE_BUSY. -/
  | pqFlush (w : Word)
  /-- STRM_COMMIT (R347). A write of STRM_COMMIT.COMMIT checks and schedules the staged ring
  configuration. -/
  | strmCommit (w : Word)
  /-- XCH_COMMIT (R370). A write of XCH_COMMIT.COMMIT checks and schedules the staged export and delta
  configuration. -/
  | xchCommit (w : Word)
  /-- XCH_START (R367). XCHk_CTL.START on an export channel is checked and starts copying an arena to far
  memory. -/
  | xchStart (k : BitVec 3) (w : Word)
  /-- XCH_STOP (R369). XCHk_CTL.STOP grants no further burst and returns the export channel to IDLE. -/
  | xchStop (k : BitVec 3) (w : Word)
  /-- REBASE (R356). XCHk_CTL.REBASE writes STEP_CANCEL if a step is open and clears BASE_VALID. -/
  | rebase (k : BitVec 3) (w : Word)
  /-- EXPORT_DONE (R369). An export's writes are acknowledged and read back, and its done line pulses. -/
  | exportDone (k : BitVec 3)
  /-- DELTA_STEP_END (R363). A delta channel that has sent every tile of the step writes STEP_END and
  pulses its done line. -/
  | deltaStepEnd (k : BitVec 3)
  /-- DOORBELL_WRITE (R360). After DOORBELL_LINES lines or 1 µs, or after STEP_END or STEP_CANCEL, the
  doorbell is written. -/
  | doorbellWrite (k : BitVec 3)
  /-- CREDIT_READ (R360). A channel whose ring is full reads the credit line at most every 240 ctrl
  cycles. -/
  | creditRead (k : BitVec 3)
  /-- FAR_READ_DATA (R451). Read data arrives on the far port with a response code and is checked and
  delivered or discarded. -/
  | farReadData (tag : BitVec 12) (resp : BitVec 2) (data : Line) (par : BitVec 66)
  /-- FAR_WRITE_RESPONSE (R451). A far write response arrives and acknowledges, or faults, the write. -/
  | farWriteResponse (tag : BitVec 12) (resp : BitVec 2) (par : BitVec 2)
  /-- FAR_REQUEST_NAK (R451). The bridge NAKs a far request and the engine replays it. -/
  | farRequestNak (write : Bool) (nakTag : BitVec 12) (nakPar : BitVec 2)
  /-- FAR_TIMEOUT (R452). A far request without response for 1 ms reaches its requester as FAR_ERROR and
  its tag is held. -/
  | farTimeout (write : Bool) (tag : BitVec 12)
  /-- MASK_START (R382). MASK_CTL.START is checked and starts a Bernoulli mask fill. -/
  | maskStart (w : Word)
  /-- MASK_STOP (R383). MASK_CTL.STOP grants no further write and the fill ends STOPPED. -/
  | maskStop (w : Word)
  /-- MASK_FILL_DONE (R383). A fill writes its last element, sets VALID and pulses MASK_DONE. -/
  | maskFillDone
  /-- RESEED_NOW (R389). RNG_CTL.RESEED_NOW requests a reseed of the lane LFSRs. -/
  | reseedNow (w : Word)
  /-- RESEED_INTERVAL (R389). The RESEED interval expires and a periodic reseed becomes due unless HOLD is
  set. -/
  | reseedInterval
  /-- RESEED (R389). A due reseed, once a set is ready and no FRESH fill runs, XORs the set into the
  lanes. -/
  | reseed
  /-- NOISE_RAW_BIT (R386). Every 40 ctrl cycles a raw noise bit is health-tested and may move the noise
  state. -/
  | noiseRawBit (bit : Bool)
  /-- CONDITIONED_BLOCK (R385). A conditioned block of 48 B is delivered and gathered toward a reseed set. -/
  | conditionedBlock
  /-- RNG_LANE_WRITE (R390). A write of RNG_LANEn sets a lane state, or is ignored as RNG_LANE_BUSY or
  RNG_ZERO_STATE. -/
  | rngLaneWrite (n : BitVec 7) (w : Word)
  /-- LINK_CLOCK_LOCK (R407). Training's CLOCK step locks to the forwarded clock or fails the attempt. -/
  | linkClockLock (side : Side) (locked : Bool)
  /-- PATTERN_DONE (R407). The PATTERN step ends and lanes with errors are failed. -/
  | patternDone (side : Side) (errors : BitVec 12)
  /-- MARGIN_DONE (R407). The MARGIN step ends, recording margins and failing lanes below 20 steps. -/
  | marginDone (side : Side) (margins : BitVec 96)
  /-- MAP_WORD (R408). A good map word is taken and the lane map and width are fixed, or the link goes
  DOWN. -/
  | mapWord (side : Side) (word : BitVec 24) (crc : BitVec 16)
  /-- IDENT (R409). An IDENT frame from the neighbour is received and recorded. -/
  | ident (side : Side) (frame : BitVec 576)
  /-- IDENTITY_DONE (R410). Identity exchange ends and the link enters RUN, QUARANTINE or DOWN. -/
  | identityDone (side : Side)
  /-- TRAIN_ATTEMPT_FAILED (R407). A training attempt fails and restarts, or after three the link goes
  DOWN. -/
  | trainAttemptFailed (side : Side)
  /-- LINK_RETRAIN (R417). XLn_CTL.RETRAIN starts a retrain of the link. -/
  | linkRetrain (side : Side) (w : Word)
  /-- HOLD_DOWN_WRITE (R423). A write of XLn_CTL.HOLD_DOWN forces or keeps the link DOWN. -/
  | holdDownWrite (side : Side) (w : Word)
  /-- XL_SLEEP_WRITE (R418). A write of XLn_CTL.SLEEP permits or forbids SLEEP, clearing it wakes the
  link. -/
  | xlSleepWrite (side : Side) (w : Word)
  /-- XL_TEST_WRITE (R419). A write of XLn_CTL.TEST starts or stops the test stream. -/
  | xlTestWrite (side : Side) (w : Word)
  /-- TRAIN_MARKER (R417). A TRAIN marker from the neighbour starts or joins a training. -/
  | trainMarker (side : Side)
  /-- RUN_MARKER (R401). A RUN marker sets the receive phase to RUN and restarts the scramblers. -/
  | runMarker (side : Side)
  /-- VERDICT_MARKER (R415). A VERDICT marker sets the receive phase to VERDICT at HOLD. -/
  | verdictMarker (side : Side)
  /-- SLEEP_MARKER (R418). A SLEEP marker passes and the lanes power down once both have passed. -/
  | sleepMarker (side : Side)
  /-- FORWARDED_CLOCK_LOST (R417). Loss of the forwarded clock makes the link retrain. -/
  | forwardedClockLost (side : Side)
  /-- FRAME_RECEIVE (R403). A received frame is CRC-checked, accepted in order or discarded, and its
  acknowledgement and credits are used. -/
  | frameReceive (side : Side) (frame : BitVec 576)
  /-- CHAMELEON_WORD (R402). A credit or acknowledgement word on a chameleon lane is checked and used. -/
  | chameleonWord (side : Side) (lane : Bool) (word : BitVec 24) (crc : BitVec 16)
  /-- REPLAY_TIMEOUT (R404). The replay timer expires and unacknowledged frames are resent go-back-N. -/
  | replayTimeout (side : Side)
  /-- CRC_WINDOW_END (R417). A 2^20-UI window ends and the CRC error count for retraining restarts. -/
  | crcWindowEnd (side : Side)
  /-- FRAME_SLOT (R406). In each frame slot the transmitter sends a replay, a VC0, VC1 or VC2 frame, a
  test flit or NULL. -/
  | frameSlot (side : Side)
  /-- LINK_STATE (R411). A link-state flit updates SEG_UP and may change the route to the manager. -/
  | linkState (side : Side) (m : Line)
  /-- LINK_STATE_TIMER (R411). Every 1 ms each instance broadcasts a link-state flit. -/
  | linkStateTimer
  /-- DOWN_RETRY (R417). Every 1 ms a DOWN link not held down tries a full training. -/
  | downRetry (side : Side)
  /-- WAKE_REQUEST (R418). A wake toggle on C0 wakes a sleeping link through a short training. -/
  | wakeRequest (side : Side)
  /-- TEST_FLIT (R419). A received test flit is checked and wrong ones are counted. -/
  | testFlit (side : Side) (m : Line)
  /-- FMP_DATA (R422). A DATA message on the fabric message port is checked, deduplicated, delivered and
  acknowledged. -/
  | fmpData (beats : List (BitVec 128 × BitVec 16))
  /-- FMP_ACK (R421). An ACK releases the acknowledged message from the sender's window. -/
  | fmpAck (beats : List (BitVec 128 × BitVec 16))
  /-- FMP_RESEND_TIMEOUT (R421). 200 µs without ACK resends a message, and after the third resend it is
  lost. -/
  | fmpResendTimeout (dest : BitVec 32) (seq : BitVec 16)
  /-- EVENT_EMIT (R448). The event queue emits its oldest event as a one-cycle pulse on its line. -/
  | eventEmit
  /-- KST_ACK (R459). kst_ack completes a key-store operation, checked for error and parity. -/
  | kstAck (rdata : BitVec 32) (err : Bool) (par : BitVec 5)
  /-- KST_TIMEOUT (R460). A key-store operation without ack in time fails, is repeated once, then reported
  as KST_ERROR. -/
  | kstTimeout
  /-- REGISTER_WRITE (R524). A control-port write to a register with no behaviour of its own applies its
  fields, or answers UNMAPPED or PARITY. -/
  | registerWrite (addr : Addr24) (w : Word) (par : BitVec 12)
  /-- PWR_OK_LOW (R461). pwr_ok falling acts as a cold reset. -/
  | pwrOkLow (ns : Nat)
  /-- COLD_RESET (R475). rst_cold_n low clears the instance as a cold reset. -/
  | coldReset (ns : Nat)
  /-- PLL_LOCK (R468). The PLL locks, the clocks start, TIME starts and vault initialisation begins. -/
  | pllLock
  /-- PLL_UNLOCK (R469). Loss of lock holds the engine in cold reset until it relocks. -/
  | pllUnlock
  /-- VAULT_INIT_DONE (R491). Vault initialisation ends and the vault state is set. -/
  | vaultInitDone
  /-- SRAM_SELFTEST_DONE (R484). SRAM self-test and repair end and the engine reaches READY, or BOOT
  FAILED. -/
  | sramSelftestDone (ok : Bool)
  /-- WARM_RESET (R476). rst_warm_n low starts a warm reset. -/
  | warmReset (ns : Nat)
  /-- GCTL_WARM_RESET (R473). GCTL.WARM_RESET with the correct key starts a warm reset in the next ctrl
  cycle. -/
  | gctlWarmReset (w : Word)
  /-- WARM_RESET_DRAIN_DONE (R476). The memory path has completed all accepted lines and the warm reset
  clears state and runs step 4. -/
  | warmResetDrainDone
  /-- LINK_RESET (R477). GCTL.LINK_RESET_E or LINK_RESET_W resets one link and starts full training. -/
  | linkReset (w : Word)
  /-- FABRIC_RESET (R478). GCTL.FABRIC_RESET stops EMA passes and fills and reloads the fabric, or is
  refused. -/
  | fabricReset (w : Word)
  /-- FABRIC_RESET_DONE (R478). The fabric-only reset ends with the variant loaded. -/
  | fabricResetDone
  /-- FAB_DIV_WRITE (R470). A GCTL write of FAB_DIV requests a new fab ratio, pending if the fabric runs. -/
  | fabDivWrite (w : Word)
  /-- FAB_DIV_APPLY (R470). With the fabric stopped, the pending ratio is applied over 64 ctrl cycles. -/
  | fabDivApply
  /-- POWER_WAKE_DONE (R481). Gated units become usable after an ACTIVE cause appears, and waiting work
  proceeds. -/
  | powerWakeDone
  /-- ACTIVE_EXIT (R481). After 20 µs without an ACTIVE cause the engine leaves ACTIVE for OBSERVE or
  IDLE. -/
  | activeExit
  /-- RETAIN_ENTRY (R482). With RETAIN permitted and its conditions held for 1 µs, the engine enters
  RETAIN. -/
  | retainEntry
  /-- RETAIN_WAKE (R482). A wake cause takes the engine from RETAIN back to IDLE. -/
  | retainWake
  /-- VAULT_KEYGEN (R495). VAULT_OP KEYGEN generates and programs the device key. -/
  | vaultKeygen (w : Word)
  /-- VAULT_PROGRAM (R494). VAULT_OP PROGRAM sets bits of a permitted key-store word. -/
  | vaultProgram (w : Word)
  /-- VAULT_LOCK (R494). VAULT_OP LOCK programs LIFECYCLE LOCKED. -/
  | vaultLock (w : Word)
  /-- VAULT_READ (R494). VAULT_OP READ returns a non-secret key-store word in VAULT_RESULT. -/
  | vaultRead (w : Word)
  /-- VAULT_QUOTE (R498). VAULT_OP QUOTE captures the quote fields and starts signing. -/
  | vaultQuote (w : Word)
  /-- QUOTE_DONE (R498). The quote record is signed and placed in QUOTE_OUT and BUSY clears. -/
  | quoteDone
  /-- SRAM_UE (R508). An uncorrectable SRAM error is handled by array, latched, reported and raises croak. -/
  | sramUe (array : BitVec 4) (word : BitVec 32) (scrub : Bool) (sfu : Option (Bool × BitVec 7 × BitVec 32))
  /-- SRAM_CE (R509). A correctable error is corrected, written back and counted. -/
  | sramCe (array : BitVec 4) (word : BitVec 32) (scrub : Bool)
  /-- SCRUB_INTERVAL (R509). A scrubber interval of 2^35 ctrl cycles completes. -/
  | scrubInterval
  /-- CROAK_ECC_WINDOW (R512). A 3,600 s correctable-error window ends and its count restarts. -/
  | croakEccWindow
  /-- CROAK_CAUSE_WRITE (R513). A write of 1 to a CROAK_STATUS.CAUSE bit clears it only if its condition
  no longer holds. -/
  | croakCauseWrite (w : Word)
  /-- ERR_POP (R507). ERR_POP.POP removes the oldest error-log entry. -/
  | errPop (w : Word)
  /-- SNAP_TAKE (R536). SNAP_CTL.TAKE copies every taking-part register into the mirror in one ctrl cycle. -/
  | snapTake (w : Word)
  /-- MP_COMMIT (R312). A write of MP_COMMIT.COMMIT copies and checks the staged regulator partitions and
  MP_THM_CFG, and schedules them for the next 1,024-port-cycle boundary or rejects them. -/
  | mpCommit (w : Word)
  /-- RESET_RELEASE (R485). The release of rst_warm_n or rst_cold_n, or the rise of pwr_ok, ends the held
  reset: a cold release starts PLL locking, a warm release reopens the control, far and fabric message
  ports as after a cold reset and lets event inputs be taken again. -/
  | resetRelease (pin : ResetPin)
  /-- FORWARDED_CLOCK_DETECTED (R417). A DOWN link end that HOLD_DOWN does not hold sees a forwarded clock
  appear on its receive side and joins the neighbour's training at its CLOCK step. -/
  | forwardedClockDetected (side : Side)
  deriving DecidableEq, Repr

end Sys2Proof
end

