-- ==== Sys2Proof/Config.lean ====
section
/-! DEFINITION. What the spec leaves open, as constants without a body: nothing in Lean can prove a
value of one, so a claim that holds of the model holds for every value they may have. Each is named in
the assumption log. -/
namespace Sys2Proof.Config

/-- The coefficient table of recip, 256 segments of (c0, c1, c2): in the delivery kit only (R6, R79). -/
opaque sfuRecip : Nat → BitVec 32 × BitVec 32 × BitVec 32

/-- The coefficient table of rsqrt, 512 segments (R6, R79). -/
opaque sfuRsqrt : Nat → BitVec 32 × BitVec 32 × BitVec 32

/-- The polynomial a1 to a3 of exp2 (R6, R79). -/
opaque sfuExp2Coeff : Nat → BitVec 32

/-- The significand bits of C[j] of log2 below its leading one, and Lh[j] (R6, R79). -/
opaque sfuLog2C : Nat → BitVec 8
opaque sfuLog2Hi : Nat → BitVec 32

/-- The polynomial a1 to a4 of log2 (R6, R79). -/
opaque sfuLog2Coeff : Nat → BitVec 32

/-- The tap masks of lanes 1 to 127: in the delivery kit only (R6, R388). -/
opaque laneTaps : Nat → BitVec 64

/-- The engine's own check of a placement body, whose form the spec does not print (R253, R254). -/
opaque placementBodyOk : BitVec 8 → BitVec 8 → List (BitVec 8) → Bool

/-- The live values of a graph, given as bytes, keep within R89 at every stage boundary of a placement for a variant at
a width of 128 / k: where its values are live follows from the placement, whose form the spec does not print. -/
opaque liveFits : List (BitVec 8) → Nat → Nat → Bool

/-- The physical cell rank's place among the live ones, or SFU rank, that runs an operation of a placed graph: by the
placement's body and the operation's index (R88, R253). -/
opaque placedRank : List (BitVec 8) → Nat → Nat

/-- Whether a reset pin's pulse of 20 to 100 ns is taken as a reset (R552): the n-th such pulse. -/
opaque shortPulseResets : Nat → Bool

/-- The register file of a placed graph's cells: the prepared constant that an entry (0 to 3) of the cells of a
live rank's slot holds, by the placement's body, whose form the spec does not print (R84, R253). -/
opaque cellConstant : List (BitVec 8) → Nat → Nat → Nat → BitVec 8

/-- Fab cycles of the n-th switch from the sparse graph to the dense one, before the bound of R153. -/
opaque switchCycles : Nat → Nat

/-- LOGIDX of an operand that is not positive and finite, for which R83 states no result. -/
opaque logIdxOpen : BitVec 32 → BitVec 32

/-- The n-th value that the spec leaves open in an event that goes on (the model's `freeCtr` picks n). -/
opaque freeValue : Nat → BitVec 64

end Sys2Proof.Config
end

