-- ==== Sys2Proof/Machine/Crypto.lean ====
section
/-! DEFINITION. The checks and signatures the spec names by their standards: CRC-32 of IEEE 802.3
(R179, R242), SHA-384 (R262, R263, R489), ECDSA on P-384 with the deterministic secret of RFC 6979
(R262, R500). The algorithms are those of the standards (FIPS 180-4, FIPS 186-5, RFC 6979, PRESUMED). -/
namespace Sys2Proof.Machine

/-! ### Byte strings -/

/-- A little-endian value of a byte string (R17). -/
def leNat : List Byte → Nat
  | [] => 0
  | b :: bs => b.toNat + 256 * leNat bs

/-- A most-significant-byte-first value of a byte string (R489). -/
def beNat (bs : List Byte) : Nat := bs.foldl (fun a b => a * 256 + b.toNat) 0

/-- `n` bytes of a value, little-endian. -/
def leBytes : Nat → Nat → List Byte
  | 0, _ => []
  | n + 1, v => BitVec.ofNat 8 v :: leBytes n (v / 256)

/-- `n` bytes of a value, most significant first. -/
def beBytes (n v : Nat) : List Byte := (leBytes n v).reverse

/-- `len` bytes from offset `off`, as a little-endian value. -/
def bytesAt (bs : List Byte) (off len : Nat) : Nat := leNat ((bs.drop off).take len)

/-- The 64 bytes of a line, lowest address first. -/
def lineBytes (l : Line) : List Byte := (List.range 64).map fun k => l.extractLsb' (8 * k) 8

/-- A line from its bytes; missing bytes are 0. -/
def lineOf (bs : List Byte) : Line := BitVec.ofNat 512 (leNat (bs.take 64))

/-! ### CRC-32 and CRC-16 -/

/-- One bit of a reflected CRC register. -/
def crcBit (poly : Nat) (c : Nat) : Nat := if c % 2 = 1 then (c / 2) ^^^ poly else c / 2

/-- One byte of a reflected CRC register. -/
def crcByte (poly : Nat) (c : Nat) (b : Byte) : Nat :=
  (List.range 8).foldl (fun a _ => crcBit poly a) (c ^^^ b.toNat)

/-- CRC-32 of IEEE 802.3: reflected, initial value and final complement all ones. -/
def crc32 (bs : List Byte) : BitVec 32 :=
  BitVec.ofNat 32 ((bs.foldl (crcByte 0xEDB88320) 0xFFFFFFFF) ^^^ 0xFFFFFFFF)

/-! ### SHA-384 -/

abbrev W64 := BitVec 64

/-- The largest x below 2^n, bit by bit from the top, with (acc + x)^k at most v. -/
def rootUp (k v : Nat) : Nat → Nat → Nat
  | 0, acc => acc
  | n + 1, acc => rootUp k v n (if (acc + 2 ^ n) ^ k ≤ v then acc + 2 ^ n else acc)

/-- The first 64 bits of the fractional part of the k-th root of p, for a p whose root is below 16. -/
def rootFraction (k p : Nat) : W64 := BitVec.ofNat 64 (rootUp k (p * 2 ^ (64 * k)) 68 0)

/-- The first eighty primes. -/
def primes80 : List Nat :=
  [2, 3, 5, 7, 11, 13, 17, 19, 23, 29, 31, 37, 41, 43, 47, 53, 59, 61, 67, 71,
   73, 79, 83, 89, 97, 101, 103, 107, 109, 113, 127, 131, 137, 139, 149, 151, 157, 163, 167, 173] ++
  [179, 181, 191, 193, 197, 199, 211, 223, 227, 229, 233, 239, 241, 251, 257, 263, 269, 271, 277, 281,
   283, 293, 307, 311, 313, 317, 331, 337, 347, 349, 353, 359, 367, 373, 379, 383, 389, 397, 401, 409]

/-- The round constants of SHA-512, from the cube roots of the first eighty primes (FIPS 180-4). -/
def sha512K : List W64 := primes80.map (rootFraction 3)

/-- The initial hash value of SHA-384, from the square roots of the ninth to the sixteenth prime (FIPS 180-4). -/
def sha384H0 : List W64 := ((primes80.drop 8).take 8).map (rootFraction 2)

def rotr64 (x : W64) (n : Nat) : W64 := x.rotateRight n

def shaBig0 (x : W64) : W64 := rotr64 x 28 ^^^ rotr64 x 34 ^^^ rotr64 x 39
def shaBig1 (x : W64) : W64 := rotr64 x 14 ^^^ rotr64 x 18 ^^^ rotr64 x 41
def shaSmall0 (x : W64) : W64 := rotr64 x 1 ^^^ rotr64 x 8 ^^^ (x >>> 7)
def shaSmall1 (x : W64) : W64 := rotr64 x 19 ^^^ rotr64 x 61 ^^^ (x >>> 6)
def shaCh (x y z : W64) : W64 := (x &&& y) ^^^ (~~~x &&& z)
def shaMaj (x y z : W64) : W64 := (x &&& y) ^^^ (x &&& z) ^^^ (y &&& z)

/-- The next word of the message schedule, from the last 16 (newest first). -/
def shaNextW (ws : List W64) : W64 :=
  shaSmall1 (ws.getD 1 0) + ws.getD 6 0 + shaSmall0 (ws.getD 14 0) + ws.getD 15 0

/-- The 80 schedule words, newest first, from the 16 of a block, newest first. -/
def shaSchedule : Nat → List W64 → List W64
  | 0, ws => ws
  | n + 1, ws => shaSchedule n (shaNextW ws :: ws)

/-- One round on the eight working words. -/
def shaRound (v : List W64) (kw : W64 × W64) : List W64 :=
  match v with
  | [a, b, c, d, e, f, g, h] =>
    let t1 := h + shaBig1 e + shaCh e f g + kw.1 + kw.2
    let t2 := shaBig0 a + shaMaj a b c
    [t1 + t2, a, b, c, d + t1, e, f, g]
  | _ => v

/-- The 16 big-endian words of a 128-byte block, newest first. -/
def shaWords : Nat → List Byte → List W64 → List W64
  | 0, _, acc => acc
  | n + 1, bs, acc => shaWords n (bs.drop 8) (BitVec.ofNat 64 (beNat (bs.take 8)) :: acc)

/-- One block of the compression function. -/
def shaBlock (h : List W64) (block : List Byte) : List W64 :=
  let ws := (shaSchedule 64 (shaWords 16 block [])).reverse
  let v := (List.zip sha512K ws).foldl shaRound h
  List.zipWith (· + ·) h v

def shaBlocks : Nat → List Byte → List W64 → List W64
  | 0, _, h => h
  | n + 1, bs, h => shaBlocks n (bs.drop 128) (shaBlock h (bs.take 128))

/-- SHA-384 of a byte string, as 48 bytes. -/
def sha384 (bs : List Byte) : List Byte :=
  let n := bs.length
  let zeros := (128 - (n + 17) % 128) % 128
  let msg := bs ++ (0x80#8 :: List.replicate zeros 0) ++ beBytes 16 (8 * n)
  ((shaBlocks (msg.length / 128) msg sha384H0).take 6).flatMap fun w => beBytes 8 w.toNat

/-- HMAC-SHA-384 (RFC 2104, used by RFC 6979). -/
def hmac384 (key msg : List Byte) : List Byte :=
  let k := (if key.length > 128 then sha384 key else key)
  let k := k ++ List.replicate (128 - k.length) 0
  sha384 (k.map (· ^^^ 0x5C#8) ++ sha384 (k.map (· ^^^ 0x36#8) ++ msg))

/-! ### P-384 -/

def p384P : Nat := 0xfffffffffffffffffffffffffffffffffffffffffffffffffffffffffffffffeffffffff0000000000000000ffffffff
def p384N : Nat := 0xffffffffffffffffffffffffffffffffffffffffffffffffc7634d81f4372ddf581a0db248b0a77aecec196accc52973
def p384B : Nat := 0xb3312fa7e23ee7e4988e056be3f82d19181d9c6efe8141120314088f5013875ac656398d8a2ed19d2a85c8edd3ec2aef
def p384G : Nat × Nat :=
  (0xaa87ca22be8b05378eb1c71ef320ad746e1d3b628ba79b9859f741e082542a385502f25dbf55296c3a545e3872760ab7,
   0x3617de4a96262c6f5d9e98bf9292dc29f8f41dbd289a147ce9da3113b5f0b8c00a60b1ce1d7e819d7a431d7c90ea0e5f)

/-- The binary digits of a number below 2^n, most significant first. -/
def bitsMsb (n v : Nat) : List Bool := (List.range n).reverse.map v.testBit

/-- `b ^ e mod m` for a 384-bit exponent. -/
def powMod (m b e : Nat) : Nat :=
  (bitsMsb 384 e).foldl (fun a bit => let s := a * a % m; if bit then s * b % m else s) 1

/-- The inverse modulo a prime. -/
def invMod (m a : Nat) : Nat := powMod m (a % m) (m - 2)

/-- A point of the curve; none is the point at infinity. -/
abbrev Point := Option (Nat × Nat)

def subMod (m a b : Nat) : Nat := (a + (m - b % m)) % m

/-- Addition of points. -/
def ptAdd : Point → Point → Point
  | none, q => q
  | p, none => p
  | some (x1, y1), some (x2, y2) =>
    if x1 = x2 ∧ (y1 + y2) % p384P = 0 then none
    else
      let l :=
        if x1 = x2 then (3 * x1 * x1 + (p384P - 3)) * invMod p384P (2 * y1) % p384P
        else subMod p384P y2 y1 * invMod p384P (subMod p384P x2 x1) % p384P
      let x := subMod p384P (l * l) (x1 + x2)
      some (x, subMod p384P (l * subMod p384P x1 x) y1)

/-- A point in projective form: (x, y, z) with z ≠ 0 stands for (x / z^2, y / z^3), z = 0 for the point at
infinity. -/
abbrev JPoint := Nat × Nat × Nat

def jDouble : JPoint → JPoint
  | (x, y, z) =>
    if y = 0 ∨ z = 0 then (1, 1, 0)
    else
      let zz := z * z % p384P
      let yy := y * y % p384P
      let s := 4 * x * yy % p384P
      let m := 3 * subMod p384P x zz * (x + zz) % p384P
      let x' := subMod p384P (m * m) (2 * s)
      (x', subMod p384P (m * subMod p384P s x') (8 * yy * yy), 2 * y * z % p384P)

/-- A point in projective form and one of the curve. -/
def jAdd : JPoint → Nat × Nat → JPoint
  | (x, y, z), (x2, y2) =>
    if z = 0 then (x2, y2, 1)
    else
      let zz := z * z % p384P
      let h := subMod p384P (x2 * zz) x
      let r := subMod p384P (y2 * (zz * z % p384P)) y
      if h = 0 then (if r = 0 then jDouble (x, y, z) else (1, 1, 0))
      else
        let hh := h * h % p384P
        let v := x * hh % p384P
        let x' := subMod p384P (r * r) (h * hh + 2 * v)
        (x', subMod p384P (r * subMod p384P v x') (y * (h * hh % p384P)), z * h % p384P)

def jAffine : JPoint → Point
  | (x, y, z) =>
    if z = 0 then none
    else
      let i := invMod p384P z
      let ii := i * i % p384P
      some (x * ii % p384P, y * (ii * i % p384P) % p384P)

/-- Scalar multiplication. -/
def ptMul (k : Nat) : Point → Point
  | none => none
  | some q =>
    jAffine ((bitsMsb 384 k).foldl (fun a bit => let d := jDouble a; if bit then jAdd d q else d) (1, 1, 0))

def onCurve (x y : Nat) : Bool :=
  x < p384P && y < p384P && y * y % p384P == (x * x % p384P * x + (p384P - 3) * x + p384B) % p384P

/-- ECDSA verification (FIPS 186-5) of (r, s) under the point Q over a SHA-384 value. -/
def ecdsaVerify (q : Nat × Nat) (hash : List Byte) (r s : Nat) : Bool :=
  if r = 0 ∨ s = 0 ∨ r ≥ p384N ∨ s ≥ p384N ∨ !onCurve q.1 q.2 then false
  else
    let w := invMod p384N s
    let u1 := beNat hash * w % p384N
    let u2 := r * w % p384N
    match ptAdd (ptMul u1 (some p384G)) (ptMul u2 (some q)) with
    | none => false
    | some (x, _) => x % p384N == r

/-- (K, V) of RFC 6979 after steps d to g. -/
def rfc6979Init (d : Nat) (hash : List Byte) : List Byte × List Byte :=
  let x := beBytes 48 d
  let h := beBytes 48 (beNat hash % p384N)
  let v := List.replicate 48 0x01#8
  let k := hmac384 (List.replicate 48 0#8) (v ++ [0x00#8] ++ x ++ h)
  let v := hmac384 k v
  let k := hmac384 k (v ++ [0x01#8] ++ x ++ h)
  (k, hmac384 k v)

/-- Step h of RFC 6979: the first candidate that gives a signature. The bound on tries is the model's;
a second try has a chance near 2^-190. -/
def rfc6979Sign (d e : Nat) : Nat → List Byte → List Byte → Nat × Nat
  | 0, _, _ => (0, 0)
  | n + 1, k, v =>
    let v := hmac384 k v
    let c := beNat v
    let r := match ptMul c (some p384G) with
      | some (x, _) => x % p384N
      | none => 0
    let s := invMod p384N c * ((e + r * d) % p384N) % p384N
    if c = 0 ∨ c ≥ p384N ∨ r = 0 ∨ s = 0 then
      let k := hmac384 k (v ++ [0x00#8])
      rfc6979Sign d e n k (hmac384 k v)
    else (r, s)

/-- The ECDSA signature of R500. -/
def ecdsaSign (d : Nat) (msg : List Byte) : Nat × Nat :=
  let hash := sha384 msg
  let (k, v) := rfc6979Init d hash
  rfc6979Sign d (beNat hash) 16 k v

end Sys2Proof.Machine
end

