-- ==== Sys2Proof/Machine/State.lean ====
section
/-! DEFINITION. The state of the block as plain data: every register, queue, buffer, counter, mode and
pin that the spec names, by the chapter that names it. INVENTORY.md lists them under '## State'. -/
namespace Sys2Proof.Machine

/-- Who asked for a memory or far transfer, and for which line: where its outcome goes. -/
inductive Who where
  /-- A host request: its port and tag (R277). -/
  | host (port : BitVec 5) (tag : BitVec 12)
  /-- A sweep operand of a tile: operand number and line index (R99, R100). -/
  | fetch (ord op idx : Nat)
  /-- A line of a tile's issue group, and its confirm read (R171, R172). -/
  | group (ord idx : Nat) (weights : Bool)
  | confirm (ord idx : Nat) (weights : Bool)
  /-- A journal line that the gate waits for, and its confirm read (R170, R178). -/
  | journal (idx : Nat)
  | journalConfirm (idx : Nat)
  /-- The marks line (R178). -/
  | marks
  /-- Any other control write whose outcome nothing waits for. -/
  | journalLine (idx : Nat)
  /-- A norm-pass read (R207). -/
  | norm (tensor line : Nat)
  /-- A tensor-record read, an image read, an index-list read (R167, R269, R192). -/
  | table (idx : Nat)
  | image (idx : Nat)
  | index (tensor line : Nat)
  /-- Stream data, descriptor fetch, descriptor write-back, read-back (R321-R327). -/
  | stream (chan piece line : Nat)
  | desc (chan idx : Nat)
  | descBack (chan idx : Nat)
  | readback (chan : Nat)
  /-- A record line, a doorbell, a credit read of a delta channel (R358-R360). -/
  | record (chan : Nat) (seq : BitVec 32) (line : Nat)
  | doorbell (chan : Nat)
  | credit (chan : Nat)
  /-- A read of a lagging delta channel; an export's reads and writes; its read-back (R363, R367-R369). -/
  | lag (chan ord line : Nat)
  | copy (chan idx : Nat)
  | copyBack (chan : Nat)
  /-- A mask fill's line (R381). -/
  | mask (idx : Nat)
  /-- A line of a factored tensor's new column vector (R142), or of its rows and columns written (R141). -/
  | vector (tensor idx : Nat)
  /-- A transfer whose requester has given it up: its outcome goes nowhere (R38, R108, R276). -/
  | dropped
  /-- A read into a pad of a pass that is over: the pad is free once the last of them is back (R337). -/
  | discarded (handle : BitVec 16)
  deriving DecidableEq, Repr

/-! ## Counters, clocks, start-up, power (R14, R106, R468-R486, R518) -/

/-- A 48-bit saturating counter with its sticky OVF bit (R106, R518). -/
structure Counter where
  count : Nat := 0
  ovf : Bool := false
  deriving DecidableEq, Repr

/-- The clock tree as far as state depends on it (R14, R468-R471): every time of the model is counted
from `port`, the port cycles since the PLL last locked. -/
structure Clocks where
  /-- Port cycles since PLL lock (cold reset). TIME.NOW is `3 * port / 10` (R14, R471). -/
  port : Nat := 0
  pllLocked : Bool := false
  /-- Fab cycles since PLL lock (R334 counts them). -/
  fab : Nat := 0
  /-- Root cycles since the last fab edge. -/
  fabRoot : Nat := 0
  /-- GSTATUS.FAB_DIV: the ratio in effect (R470). -/
  fabDiv : BitVec 2 := 0
  /-- GCTL.FAB_DIV: the ratio last written (R472). -/
  gctlDiv : BitVec 2 := 0
  divPending : Bool := false
  /-- A ratio change under way: the ctrl time at which its 64 cycles end, and the ratio (R470). -/
  divUntil : Option (Nat × BitVec 2) := none
  deriving DecidableEq, Repr

/-- The stages that start-up and resets pass through (R476, R484). -/
inductive BootStage where
  /-- Held in reset or waiting for PLL lock (step 2 and 3). -/
  | waitLock
  /-- Step 4, vault initialisation. -/
  | vault
  /-- Step 5, SRAM self-test and repair. -/
  | sram
  /-- Warm reset: the memory path drains (R476 item 2). -/
  | drain
  /-- READY or later. -/
  | ready
  /-- BOOT FAILED. -/
  | failed
  deriving DecidableEq, Repr

structure Boot where
  stage : BootStage := .waitLock
  /-- GSTATUS.BOOT code (R474). -/
  code : BitVec 4 := 0x2
  bootErr : BitVec 8 := 0
  /-- GSTATUS.ERR, the outcome of the last GCTL write (R474). -/
  gctlErr : BitVec 8 := 0
  /-- GSTATUS.RESET_CAUSE (R474). -/
  cause : BitVec 8 := 0x01
  pwrOk : Bool := true
  rstColdN : Bool := true
  rstWarmN : Bool := true
  /-- READY has been reached since the last cold reset or loss of lock (R479). -/
  seenReady : Bool := false
  /-- The vault initialisation under way belongs to a warm reset, so step 5 is skipped (R476). -/
  warm : Bool := false
  /-- Ctrl time at which the stage under way began. -/
  since : Nat := 0
  /-- GCTL.FABRIC_RESET: a fabric-only reset runs or waits for a shed drain (R472, R478, R479). -/
  fabricReset : Bool := false
  /-- The fab cycle at which the fabric-only reset has loaded the variant; none while it waits (R478). -/
  fabricUntil : Option Nat := none
  /-- GCTL.LINK_RESET_E / LINK_RESET_W: a link-only reset trains (R472). -/
  linkResetE : Bool := false
  linkResetW : Bool := false
  deriving DecidableEq, Repr

/-- The power states the engine chooses among (R480). OFF is pwr_ok low. -/
inductive PwrState where
  | active | observe | idle | retain
  deriving DecidableEq, Repr

structure Power where
  state : PwrState := .idle
  /-- GCTL.FORCE_ACTIVE and GCTL.RETAIN (R472). -/
  forceActive : Bool := false
  retainBit : Bool := false
  /-- Every unit gated outside ACTIVE is usable (R481). -/
  usable : Bool := false
  /-- Ctrl time at which the first of the 8 groups of gated units was ungated for the wake under way (R555). -/
  wakeFrom : Option Nat := none
  /-- Ctrl time of the last cycle in which an ACTIVE cause held (R481). -/
  lastCause : Nat := 0
  /-- Ctrl time since which the RETAIN conditions have held (R482). -/
  retainSince : Option Nat := none
  /-- How long they must hold: 480, or 480,000 after a wake other than the GCTL write (R482). -/
  retainHold : Nat := 480
  /-- A wake cause has come in RETAIN (R482). -/
  wakeDue : Bool := false
  deriving DecidableEq, Repr

/-! ## Error log, croak, SRAM health, snapshot (R504-R521, R533-R538) -/

/-- One entry of the error log (R505). -/
structure LogEntry where
  code : BitVec 16
  time : Word
  step : BitVec 32
  phase : BitVec 4
  rep : BitVec 16
  arg : Word
  deriving DecidableEq, Repr

structure ErrLog where
  /-- At most 64 entries, oldest first (R504). -/
  entries : List LogEntry := []
  lost : Bool := false
  lostCount : BitVec 32 := 0
  seen : BitVec 4 := 0
  /-- The ctrl cycle of the newest report; how many of its reports were lost, and their classes (R518, R525). -/
  lastAt : Word := 0
  lostNow : BitVec 32 := 0
  seenNow : BitVec 4 := 0
  deriving DecidableEq, Repr

/-- The first fault that a latch met in a ctrl cycle (R525). -/
structure FreshFault where
  at' : Nat
  bits : Word
  /-- A further one came in the same cycle. -/
  again : Bool
  /-- MORE was set in the cycle. -/
  more : Bool
  deriving DecidableEq, Repr

/-- A fault latch: VALID and MORE, and the register's bits 61:0 (R111, R309, R349, R511). -/
structure FaultLatch where
  valid : Bool := false
  more : Bool := false
  bits : Word := 0
  /-- What the last ctrl cycle with a fault brought. -/
  fresh : Option FreshFault := none
  deriving DecidableEq, Repr

/-- What the croak causes did in the last ctrl cycle in which one was set or cleared (R513). -/
structure CroakCycle where
  /-- That ctrl cycle. -/
  at' : Nat := 0
  /-- CAUSE as the cycle began. -/
  start : BitVec 8 := 0
  /-- The causes whose events occurred in it. -/
  hit : BitVec 8 := 0
  /-- The causes its CROAK report names. -/
  told : BitVec 8 := 0
  deriving DecidableEq, Repr

structure Health where
  /-- CROAK_STATUS.CAUSE (R512). -/
  cause : BitVec 8 := 0
  croakNow : CroakCycle := {}
  /-- CROAK_STATUS.FATAL (R510). -/
  fatal : Bool := false
  /-- SRAM_FAULT (R511). -/
  sram : FaultLatch := {}
  /-- Correctable errors in the current 3,600 s window (R512). -/
  ceWindow : Nat := 0
  /-- Number of the current 3,600 s window since TIME 0. -/
  ceIndex : Nat := 0
  /-- The last ctrl cycle with a correctable error, and the array and word of each found in it (R509). -/
  ceAt : Nat := 0
  ceFound : List (BitVec 4 × BitVec 32) := []
  /-- Cause 3 holds until its window ends (R512). -/
  ceHolds : Bool := false
  /-- Number of the current scrubber interval of 2^35 ctrl cycles (R509). -/
  scrubIndex : Nat := 0
  /-- HEALTH_CNT0 to 5 (R516). -/
  cnt : List Counter := List.replicate 6 {}
  log : ErrLog := {}
  deriving DecidableEq, Repr

/-- The snapshot block (R533-R538): the mirror as (offset, value) in the order of the register map. -/
structure Snapshot where
  seq : BitVec 32 := 0
  valid : Bool := false
  time : Word := 0
  mirror : List (Addr24 × Word) := []
  deriving DecidableEq, Repr

/-! ## Event port, control port, thermal input, key-store port (R443-R449, R458-R466) -/

structure EventPort where
  /-- The event queue of 256 entries, oldest first: (ctrl time, line) (R448). -/
  queue : List (Nat × BitVec 6) := []
  /-- Events whose sources wait because the queue is full (R448). -/
  waiting : List (Nat × BitVec 6) := []
  /-- The last pulse: its line and the port cycle in which it is 1 (R448). -/
  last : Option (BitVec 6 × Nat) := none
  deriving DecidableEq, Repr

structure CtlPort where
  /-- The last response driven on ctl_rsp; none before the first (R443). -/
  rsp : Option (BitVec 8) := none
  deriving DecidableEq, Repr

/-- What a key-store operation serves (R491, R494, R495). -/
inductive KstUse where
  | init | keygenWrite | keygenCheck (want : BitVec 32) | program | lock | read
  deriving DecidableEq, Repr

/-- One key-store operation (R458). -/
structure KstOp where
  we : Bool
  addr : BitVec 12
  wdata : BitVec 32
  use : KstUse
  deriving DecidableEq, Repr

structure KstPort where
  /-- The operation on the port (kst_req is 1), with the ctrl time it was raised. -/
  cur : Option (KstOp × Nat) := none
  /-- It, or the operation that comes next, is the one repetition of a failed operation (R460). -/
  repeated : Bool := false
  /-- Operations that follow, in order; the repetition of a failed one stands first. -/
  todo : List KstOp := []
  /-- The first port cycle in which kst_req may rise (R459). -/
  restAt : Nat := 0
  deriving DecidableEq, Repr

/-! ## Key vault (R489-R503) -/

/-- VAULT_STATUS.STATE (R501). -/
inductive VaultState where
  | init | blank | ok | degraded | failed
  deriving DecidableEq, Repr

/-- VAULT_OP's operations (R494). -/
inductive VaultOp where
  | keygen | program | lock | read | quote
  deriving DecidableEq, Repr

/-- The reason bits of VAULT_STATUS (R492, R501). -/
structure VaultReasons where
  noise : Bool := false
  pubRead : Bool := false
  idRead : Bool := false
  hashRead : Bool := false
  copyBBad : Bool := false
  copyABad : Bool := false
  deriving DecidableEq, Repr

structure Vault where
  state : VaultState := .init
  err : BitVec 8 := 0
  /-- The operation that runs: VAULT_STATUS.BUSY (R501). -/
  run : Option VaultOp := none
  locked : Bool := false
  keyed : Bool := false
  chainBytes : BitVec 16 := 0
  certs : BitVec 8 := 0
  why : VaultReasons := {}
  /-- VAULT_RESULT (R502). -/
  resOp : BitVec 3 := 0
  resAddr : BitVec 12 := 0
  resData : BitVec 32 := 0
  /-- The address and data of the operation under way. -/
  opAddr : BitVec 12 := 0
  instanceId : Word := 0
  /-- IMG_KEY_HASH0 to 5, VAULT_PUB0 to 11, QUOTE_NONCE0 to 5, QUOTE_SEL0 to 7, QUOTE_OUT0 to 45 (R503). -/
  keyHash : List Word := List.replicate 6 0
  pub : List Word := List.replicate 12 0
  nonce : List Word := List.replicate 6 0
  sel : List Word := List.replicate 8 0
  out : List Word := List.replicate 46 0
  /-- The private scalar d in use; 0 while no good copy is held (R491, R500). -/
  d : Nat := 0
  /-- Words read by the initialisation under way: (address, word), newest first (R491). -/
  words : List (BitVec 12 × BitVec 32) := []
  /-- Conditioned blocks the vault still waits for, and those it has drawn (R491, R493, R495). -/
  blocksDue : Nat := 0
  blocks : List (BitVec 384) := []
  /-- The quote record captured at acceptance, bytes 0x000 to 0x10F (R498). -/
  quote : List Byte := []
  deriving DecidableEq, Repr
/-! ## The inline memory path (R277-R316) -/

/-- The requester classes by their bit of R284. -/
inductive MemClass where
  | critRd | bulk | finalGrad | sweep | tadpole | stream | xport | normpass
  deriving DecidableEq, Repr

/-- A request for one line at a memory channel port (R284, R440). -/
structure MemReq where
  who : Who
  cls : MemClass
  /-- A control request of R284: no class, no partition. -/
  control : Bool := false
  /-- A confirm read of R172: the CONFIRM attribute. -/
  confirm : Bool := false
  /-- The second line of a tadpole piece that crosses a line boundary: with the first it is one piece (R303). -/
  tail : Bool := false
  write : Bool
  /-- Stack-local line address A[39:6]. -/
  line : BitVec 34
  /-- The bytes it writes; of a tadpole read those of its piece (R304). -/
  mask : BitVec 64 := 0
  data : Line := 0
  /-- Further requesters whose bytes the write-combining buffer merged into it (R301). -/
  also : List Who := []
  deriving DecidableEq, Repr

/-- A request that waits in arbitration, oldest first in its list. -/
structure Waiting where
  req : MemReq
  /-- Port cycle in which it entered; of a tadpole piece, in which it entered the reorder window (R304). -/
  since : Nat
  /-- A tadpole piece that has reached the age limit of R304. -/
  aged : Bool := false
  deriving DecidableEq, Repr

/-- A transfer accepted at a memory channel port and not yet finished (R286, R297, R298). -/
structure Flight where
  req : MemReq
  chan : BitVec 5
  tag : BitVec 10
  /-- Port cycle of its last acceptance. -/
  acc : Nat
  /-- Failures in a row (R298). -/
  fails : Nat := 0
  /-- It failed and waits to be issued again, no earlier than this port cycle (R298). -/
  replay : Option Nat := none
  /-- A read whose request has passed its NAK cycle, so that its tag waits for data only. -/
  settled : Bool := false
  /-- A confirm read whose result is void because its write was NAKed (R299). -/
  void : Bool := false
  deriving DecidableEq, Repr

/-- A host read return or write completion on its host port (R434-R437). -/
structure HostOut where
  port : BitVec 5
  tag : BitVec 12
  write : Bool
  err : Bool
  data : Line := 0
  line : BitVec 34
  cls : MemClass
  /-- Port cycle in which it was last driven. -/
  acc : Nat
  fails : Nat := 0
  deriving DecidableEq, Repr

/-- A NAK of the engine toward a host channel port: the direction, the host tag and the port cycle in which it is
asserted, the one after the failed request's (R296, R297). -/
structure HostNak where
  port : BitVec 5
  write : Bool
  tag : BitVec 12
  cycle : Nat
  deriving DecidableEq, Repr

/-- A host write whose memory NAK cycle has passed and whose completion is due (R436). -/
structure HostDone where
  port : BitVec 5
  tag : BitVec 12
  err : Bool
  cls : MemClass
  line : BitVec 34
  mask : BitVec 64
  data : Line
  deriving DecidableEq, Repr

/-- One entry of the write-combining buffer (R301): the union of the writes merged into a line. -/
structure WcbEntry where
  line : BitVec 34
  cls : MemClass
  mask : BitVec 64
  data : Line
  /-- Port cycle in which it was opened. -/
  opened : Nat
  /-- The requesters whose bytes it holds. -/
  whos : List Who
  deriving DecidableEq, Repr

/-- What one channel has done in the window under way, and in the last one (R315, R316). -/
structure ChanStat where
  lines : Nat := 0
  wait : Nat := 0
  /-- Lines by class, in the order of R284. -/
  byClass : List Nat := List.replicate 8 0
  /-- Lines by partition: u_pk of R289. -/
  byPart : List Nat := List.replicate 8 0
  linesLast : Nat := 0
  waitLast : Nat := 0
  waitMax : Nat := 0
  deriving DecidableEq, Repr

/-- One partition in effect (R289, R311). -/
structure Partition where
  classes : BitVec 8 := 0
  cap : BitVec 16 := 0
  guarantee : BitVec 16 := 0
  deriving DecidableEq, Repr

/-- The regulator's stage registers as they stand, and as a pending copy (R310, R311, R529). -/
structure RegSet where
  /-- MP_PART0 to 7. -/
  parts : List Partition := List.replicate 8 {}
  warnMargin : BitVec 8 := 0x08
  step : BitVec 4 := 0x1
  deriving DecidableEq, Repr

structure Thermal where
  valid : Bool := false
  stale : Bool := false
  temp : BitVec 8 := 0
  limit : BitVec 8 := 0
  /-- Ctrl time of the last good report (R294). -/
  lastGood : Nat := 0
  paused : Bool := false
  level : Nat := 0
  target : Nat := 0
  /-- Window index of the last change of the level, and one past that of the last report whose
  target was at or above it (R292). -/
  changedWin : Int := -64
  highWin : Int := -64
  /-- Port cycles at level 1 or more in the 24-hour window under way, and that window's number (R294). -/
  dutyCycles : Nat := 0
  dutyIndex : Nat := 0
  deriving DecidableEq, Repr

structure MemPath where
  /-- The last ctrl cycle in which an MP_PARTn was written, and those writes, oldest first (R526). -/
  partAt : Nat := 0
  partNow : List (Nat × Word) := []
  waiting : List Waiting := []
  flights : List Flight := []
  hostDone : List HostDone := []
  hostOut : List HostOut := []
  wcb : List WcbEntry := []
  /-- Consecutive parity failures of host requests by port, direction and tag (R298). -/
  hostFails : List ((BitVec 5 × Bool × BitVec 12) × Nat) := []
  /-- NAKs asserted on host ports in this port cycle or due in the next (R296). -/
  hostNaks : List HostNak := []
  /-- Confirm reads that have returned before the NAK cycle of their write has passed: nothing is made of them before
  (R299, R306). -/
  early : List (MemReq × Line) := []
  /-- Arbiters (channel, write) that have granted in the port cycle under way (R285). -/
  granted : List (BitVec 5 × Bool) := []
  /-- Control slots that a replay has moved: the arbiter and the port cycle it moved to (R306). -/
  slotMoved : List ((BitVec 5 × Bool) × Nat) := []
  /-- The class (priority mode) or partition (regulated mode) granted last by each arbiter,
  2 * channel + (1 for write) (R288, R289). -/
  lastTurn : List Nat := List.replicate 64 7
  /-- The row span whose group is being issued on each channel (R304). -/
  span : List (Option (BitVec 24)) := List.replicate 32 none
  chans : List ChanStat := List.replicate 32 {}
  /-- Windows closed so far: the next boundary is at 1,024 times one more (R289). -/
  window : Nat := 0
  /-- U_p of the window under way and USED of the last (R289, R313). -/
  used : List Nat := List.replicate 8 0
  usedLast : List Nat := List.replicate 8 0
  /-- Effective guarantees g_p (R291). -/
  effG : List Nat := List.replicate 8 0
  /-- Lines issued by the throttled classes in the window under way (R292). -/
  throttledUsed : Nat := 0
  shortfall : Bool := false
  imbalance : Bool := false
  /-- Imbalanced, and balanced, windows in a row (R316). -/
  imbRun : Nat := 0
  balRun : Nat := 0
  imbChannel : BitVec 5 := 0
  imbClass : BitVec 3 := 0
  hashPlan : BitVec 8 := 0
  regulated : Bool := false
  stackGib : BitVec 8 := 0x80
  partitions : BitVec 4 := 0
  /-- Stage registers, the set in effect, the pending copy with the port cycle of its boundary (R529). -/
  stage : RegSet := {}
  eff : RegSet := {}
  pending : Option (RegSet × Nat) := none
  err : BitVec 8 := 0
  errPart : BitVec 3 := 0
  /-- A molt's port plan waits for the next boundary (R272). -/
  planDue : Option Nat := none
  thermal : Thermal := {}
  /-- MP_FAULT (R309). -/
  fault : FaultLatch := {}
  /-- MP_CNT0 to 10 (R314). -/
  cnt : List Counter := List.replicate 11 {}
  deriving DecidableEq, Repr
/-! ## Structure images (R242-R276) -/

/-- An operation word of a graph or a constant program (R248). -/
structure GOp where
  opcode : BitVec 8
  dest : BitVec 8
  srcA : BitVec 8
  srcB : BitVec 8
  srcC : BitVec 8
  param : BitVec 16
  station : BitVec 8
  deriving DecidableEq, Repr

/-- A station entry (R247). -/
structure Station where
  name : List Byte
  kind : BitVec 8
  graph : BitVec 8
  cellSlots : BitVec 8
  sfuSlots : BitVec 8
  firstOp : BitVec 16
  ops : BitVec 16
  deriving DecidableEq, Repr

/-- One of the 8 graphs of the GRAPHS section (R247). -/
structure Graph where
  present : Bool := false
  firstOp : BitVec 16 := 0
  cellSlots : BitVec 8 := 0
  sfuSlots : BitVec 8 := 0
  trees : BitVec 8 := 0
  stations : List Station := []
  ops : List GOp := []
  deriving DecidableEq, Repr

/-- A constant program of the PREPARER section (R252). -/
structure Program where
  graph : BitVec 8
  row : Bool
  ops : List GOp
  deriving DecidableEq, Repr

/-- One entry of the PLACEMENT section (R253). -/
structure Placement where
  graph : BitVec 8
  variant : BitVec 8
  width : BitVec 8
  latency : BitVec 16
  body : List Byte := []
  deriving DecidableEq, Repr

/-- The range of one step-constant slot (R245, R246). -/
structure ConstRange where
  used : Bool := false
  lo : BitVec 32 := 0
  hi : BitVec 32 := 0
  deriving DecidableEq, Repr

/-- The RULE section (R245). -/
structure RuleSec where
  ruleId : BitVec 16 := 0
  passes : BitVec 8 := 1
  pass1Path : BitVec 8 := 0
  emaMode : BitVec 8 := 0
  flags : BitVec 8 := 0
  sr : BitVec 8 := 0
  gMask : BitVec 16 := 0
  m1Mask : BitVec 16 := 0
  m2Mask : BitVec 16 := 0
  wMask : BitVec 16 := 0
  genMask : BitVec 16 := 0
  emaMask : BitVec 16 := 0
  consts : List ConstRange := List.replicate 16 {}
  deriving DecidableEq, Repr

/-- The PORT section (R255). -/
structure PortPlan where
  hashPlan : BitVec 8 := 0
  arbMode : BitVec 8 := 0
  partitions : BitVec 8 := 0
  actMode : BitVec 8 := 0
  stackGib : BitVec 8 := 0x80
  parts : List Partition := List.replicate 8 {}
  deriving DecidableEq, Repr

/-- The HIER_JOB section (R257). -/
structure HierJob where
  jobId : BitVec 32
  jobInstances : BitVec 32
  contribTimeout : Word
  joinTimeout : Word
  maxNorm : BitVec 32
  clipEps : BitVec 32
  lsInterval : BitVec 16
  lsMin : BitVec 8
  lsMax : BitVec 8
  flags : BitVec 8
  deriving DecidableEq, Repr

/-- The HIER_INSTANCE section (R258). -/
structure HierInst where
  role : BitVec 8
  ringPos : BitVec 8
  managerPos : BitVec 8
  ringSize : BitVec 8
  contrib : BitVec 16
  eastContrib : BitVec 16
  westContrib : BitVec 16
  neighbours : BitVec 8
  members : BitVec 8
  childCount : BitVec 8
  parent : BitVec 32
  ringMembers : List (BitVec 16)
  children : List (BitVec 16 × BitVec 32)
  deriving DecidableEq, Repr

/-- The RNG section (R260). -/
structure RngPlan where
  seedLo : Word := 0
  seedHi : Word := 0
  reseed : Word := 0
  deriving DecidableEq, Repr

/-- The LIMITS section (R261). -/
structure Limits where
  padFloorSweep : BitVec 16 := 0
  padFloorStream : BitVec 16 := 0
  deltaChannels : BitVec 8 := 0
  padWatchdog : BitVec 32 := 4800
  croakThrottle : BitVec 16 := 0
  croakEcc : BitVec 32 := 0
  deriving DecidableEq, Repr

/-- A verified image, as the engine reads it (R242-R263). -/
structure Image where
  rule : RuleSec
  graphs : List Graph
  programs : List Program
  placement : List Placement
  port : PortPlan
  hier : Option (HierJob × HierInst)
  rng : RngPlan
  limits : Limits
  digest : BitVec 384
  /-- The bytes of HIER_INSTANCE, which a molt compares (R272). -/
  instBytes : List Byte := []
  deriving DecidableEq, Repr

/-- IMG_STATUS.SHADOW (R267). -/
inductive ShadowState where
  | empty | loading | verifying | verified | rejected
  deriving DecidableEq, Repr

structure ImageUnit where
  /-- IMG_ADDR bits 63:6, IMG_SIZE (R264, R265). -/
  addr : BitVec 58 := 0
  srcFar : Bool := false
  len : BitVec 20 := 0
  /-- The active plane (R274, R275). -/
  active : Option Image := none
  shadow : ShadowState := .empty
  /-- The verified image of the shadow plane. -/
  shadowImage : Option Image := none
  /-- The load under way: source, length, next line to request, and the lines that have come, by index. -/
  loadFar : Bool := false
  loadAddr : BitVec 58 := 0
  loadLen : Nat := 0
  loadNext : Nat := 0
  loadLines : List (Nat × Line) := []
  loadFailed : Bool := false
  err : BitVec 8 := 0
  errSection : BitVec 16 := 0
  moltErr : BitVec 8 := 0
  epochClosed : Bool := false
  stepkDropped : Bool := false
  basesDropped : Bool := false
  tableDropped : Bool := false
  /-- A molt is past step 1 of R272 and not complete: IMG_CTL.MOLT. -/
  molting : Bool := false
  /-- The hash plan fixed by the first molt (R274). -/
  hashFixed : Option (BitVec 8) := none
  deriving DecidableEq, Repr
/-! ## The step (R21-R45, R566) -/

/-- STEP_STATUS.PHASE (R22). -/
inductive Phase where
  | notReady | idle | observe | sealed | normPass | awaitVerdict | pass1 | sweep | halted
  deriving DecidableEq, Repr

/-- The flash codes (R21). -/
inductive Flash where
  | hold | go | skip | abort
  deriving DecidableEq, Repr

structure StepUnit where
  step : BitVec 32 := 0
  released : BitVec 16 := 0
  flash : Flash := .hold
  phase : Phase := .notReady
  /-- Ctrl time at which STEP_CTL's seal was accepted: a pulse on evt_in[0] in that cycle goes before it (R34). -/
  sealAt : Option Nat := none
  deriving DecidableEq, Repr

/-! ## Step constants, loss scale, EMA (R118-R151) -/

/-- A pending copy of the step constants: the staged words, FOR_STEP, the ctrl time of its boundary. -/
structure StepkCopy where
  words : List Word
  forStep : BitVec 32
  boundary : Nat
  deriving DecidableEq, Repr

structure Stepk where
  /-- STEPK0 to 7 (R118). -/
  stage : List Word := List.replicate 8 0
  /-- The set in effect: K0 to K15 (R120). -/
  set : List (BitVec 32) := List.replicate 16 0
  setStep : BitVec 32 := 0
  valid : Bool := false
  captured : Bool := false
  pending : Option StepkCopy := none
  err : BitVec 8 := 0
  errSlot : BitVec 4 := 0
  /-- The set that the seal captured (R32). -/
  capture : List (BitVec 32) := List.replicate 16 0
  deriving DecidableEq, Repr

structure Lscale where
  k : BitVec 6 := 0
  kNext : BitVec 6 := 0
  deriving DecidableEq, Repr

/-- AUX_STATUS (R145). -/
structure Aux where
  emaStep : BitVec 32 := 0
  err : BitVec 8 := 0
  valid : Bool := false
  gateWait : Bool := false
  running : Bool := false
  /-- AUX_CTL.EMA_RESEED: the pass that runs is a reseed (R144). -/
  reseeding : Bool := false
  deriving DecidableEq, Repr

/-! ## The tensor table and the sweep (R160-R197) -/

/-- A tensor record (R165). -/
structure TensorRec where
  valid : Bool := false
  ema : Bool := false
  lazyWd : Bool := false
  sparse : Bool := false
  unfactored : Bool := false
  noTrust : Bool := false
  shape2d : Bool := false
  elems : Nat := 0
  group : Nat := 0
  gradOff : Nat := 0
  elemBase : Nat := 0
  rows : Nat := 0
  cols : Nat := 0
  wdMult : BitVec 32 := 0
  lrMult : BitVec 32 := 0
  ov2 : BitVec 32 := 0
  ov3 : BitVec 32 := 0
  gscale : BitVec 32 := 0
  indexCount : Nat := 0
  auxOff : Nat := 0
  gfmt : BitVec 4 := 0
  m1fmt : BitVec 4 := 0
  m2fmt : BitVec 4 := 0
  wfmt : BitVec 4 := 0
  genfmt : BitVec 4 := 0
  emaBf16 : Bool := false
  deriving DecidableEq, Repr

structure Ttab where
  /-- TTAB_ADDR and TTAB_CTL (R166). -/
  addr : BitVec 34 := 0
  count : BitVec 15 := 0
  errIndex : BitVec 14 := 0
  err : BitVec 8 := 0
  loaded : Bool := false
  /-- TTAB_CTL.LOAD: a load is in progress. -/
  loading : Bool := false
  /-- The address and count the load under way took, and the records that have come, by index. -/
  loadAddr : BitVec 34 := 0
  loadCount : Nat := 0
  lines : List (Nat × Line) := []
  loadFailed : Bool := false
  /-- The table in effect, by tensor ID; records past its end are not VALID (R167). -/
  recs : List TensorRec := []
  deriving DecidableEq, Repr

/-- The SWP_BASE block (R160-R162). -/
structure Swp where
  stage : List (BitVec 34) := List.replicate 11 0
  set : List (BitVec 34) := List.replicate 11 0
  valid : Bool := false
  /-- The pending copy and the ctrl time of its boundary. -/
  pending : Option (List (BitVec 34) × Nat) := none
  err : BitVec 8 := 0
  errBase : BitVec 4 := 0
  deriving DecidableEq, Repr

/-- The journal's STATE (R179). -/
inductive JState where
  | empty | pass1 | sweep | done | halted | recovering
  deriving DecidableEq, Repr

/-- The journal's FAULT (R179). -/
inductive JFault where
  | none | nonfinite | codec | noVariant | confirm | port | abort
  deriving DecidableEq, Repr

/-- What the fabric runs: a step's pass, a recovery, an EMA pass. -/
inductive PassKind where
  /-- The first pass on the fabric (R134) or on the reduction path (R140). -/
  | pass1 | pass1Factored
  /-- The updating pass, and the same pass run by recovery (R185). -/
  | sweep
  /-- The EMA pass and the reseed pass (R143, R144). -/
  | ema | reseed
  deriving DecidableEq, Repr

/-- How COMMIT treats a tile: an ordinary update, or a class of R186, or a tile left behind (R183). -/
inductive TileClass where
  | ordinary | finish | tornKm8 | tornM | tornW | done | skip
  deriving DecidableEq, Repr

/-- Where a tile stands between FETCH and the confirm of its weights (R97-R101, R110, R174): `chain` while it has
beats before or in the rank chain, `past` once COMMIT's encoders have it. -/
inductive TileStage where
  | fetching | chain | past | moments | momentsOk | weights
  deriving DecidableEq, Repr

/-- One line of an issue group and its confirm state (R171, R172, R176). -/
structure GroupLine where
  line : BitVec 34
  mask : BitVec 64
  data : Line
  /-- Bytes that the confirm read compares: those written, or of a slot line the tile's own slot. -/
  cmp : BitVec 64
  /-- It goes through the tadpole path (R192). -/
  tadpole : Bool := false
  /-- The second line of a piece that crosses a line boundary (R303). -/
  tail : Bool := false
  /-- It is a slot line, which a rewrite takes from the engine's own view (R180). -/
  slot : Bool := false
  /-- Confirm mismatches so far. -/
  misses : Nat := 0
  confirmed : Bool := false
  failed : Bool := false
  deriving DecidableEq, Repr

/-- The pads of a tile: (slot n of Hn, handle) (R97). -/
abbrev PadSet := List (Nat × BitVec 16)

/-- What the fabric has made of a tile, from its last beat's entry until the encoders have put it into the tile's
pads (R91, R94, R100, R177, R210, R355). -/
structure TileOut where
  /-- The valid elements of the tile. -/
  n : Nat := 0
  /-- The lines that the encoders write into its pads: (handle slot, line index, line). -/
  pads : List (Nat × Nat × Line) := []
  /-- A result is not finite (R77). -/
  bad : Bool := false
  /-- Blocks repaired lossily, and the elements in them (R190). -/
  repaired : BitVec 32 := 0
  elemsRepaired : Nat := 0
  /-- Lion FINISH elements whose sign is uncertain (R569). -/
  uncertain : Nat := 0
  /-- Saturations in the working copy and the generator copy (R63). -/
  satW : Nat := 0
  satGen : Nat := 0
  /-- The tile's sums of squares of its new masters and of their changes (R210). -/
  sums : BitVec 64 × BitVec 64 := (0, 0)
  /-- The tile sums of its ACCUM operations: (accumulator, sum) (R93). -/
  accums : List (Nat × BitVec 64) := []
  deriving DecidableEq, Repr

/-- A tile in flight. -/
structure TileSt where
  ord : Nat
  tensor : Nat
  tile : Nat
  count : Nat
  cls : TileClass
  stage : TileStage
  pads : PadSet
  /-- The pad that holds its columns of a factored tensor's new column vector: its H6, which the tensor's
  tiles share (R142). -/
  colPad : Option (BitVec 16) := none
  /-- The tile header's SEQ, STEP, CSET, VARIANT, FIRST, LAST, PASS1 and DISCARD (R97). -/
  seq : BitVec 16
  step : BitVec 32 := 0
  cset : Bool
  variant : BitVec 8
  first : Bool := false
  last : Bool := false
  pass1 : Bool := false
  discard : Bool := false
  /-- Lines of its operands still to come, and those that have and lie in no pad of it: (operand, index, line). -/
  missing : Nat
  lines : List (Nat × Nat × Line) := []
  /-- Its beats at the width it runs at, and how many have entered the chain (R98). -/
  beats : Nat := 0
  beatsIn : Nat := 0
  /-- The chain's time at which its last beat reaches COMMIT's encoders (R90). -/
  exitAt : Nat := 0
  /-- Codec mismatches on this tile (R110). -/
  mismatches : Nat := 0
  out : TileOut := {}
  /-- Its issue group under confirmation (R171). -/
  group : List GroupLine := []
  deriving DecidableEq, Repr

/-- Why a pass will halt once the tiles ahead are through (R41, R42, R110, R114, R176). -/
structure HaltDue where
  fault : JFault
  /-- Position and ordinal of the faulting tile; for an ABORT the first tile not issued. -/
  pos : Word
  ord : Nat
  weights : Bool := false
  failedLines : Word := 0
  deriving DecidableEq, Repr

/-- A fabric or reduction-path pass that runs. -/
structure Pass where
  kind : PassKind
  /-- The pass is a recovery's, and what it found per in-flight ordinal (R185, R186). -/
  recovery : Bool := false
  classes : List (Nat × TileClass) := []
  seq : BitVec 16
  /-- STEP_STATUS.STEP at the start of the pass. -/
  step : BitVec 32
  /-- Next ordinal FETCH issues; ordinal past the last tile. -/
  next : Nat := 0
  tiles : Nat
  /-- The pad set that the pond has granted to FETCH for that tile (R99). -/
  granted : Option PadSet := none
  inflight : List TileSt := []
  wmark : Nat := 0
  mmark : Nat := 0
  halt : Option HaltDue := none
  /-- Journal lines that FETCH waits for, and those whose confirm read has mismatched once (R170, R135). -/
  gateLeft : Nat := 0
  gateMiss : List Nat := []
  /-- VERDICT_GO is pulsed and the marks line written when the gate's lines are confirmed (R170). -/
  gateOpening : Bool := false
  /-- Trust ratios are being confirmed; PASS1_DONE is written after them (R181). -/
  doneDue : Bool := false
  /-- A recovery keeps the fault of the halt it settles until the weight mark has passed it (R185). -/
  keepFault : Option Nat := none
  /-- Tiles discarded, to be fetched again: ordinal, class, codec mismatches (R108, R110). -/
  refetch : List (Nat × TileClass × Nat) := []
  /-- Constant set captured for the pass, the clip factor and the loss-scale exponent (R170). -/
  consts : List (BitVec 32)
  clip : BitVec 32
  lsK : BitVec 6
  /-- The rank chain's own time: fab cycles in which it has moved (R88). -/
  chainTime : Nat := 0
  /-- The graph that the fabric holds for the pass, and cycles that a switch to another still takes (R153). -/
  graph : Nat := 0
  switching : Option Nat := none
  /-- The preparer: the place in the walk of the tensor it works on, operations left of that tensor's program,
  and of the row programs of tiles: (ordinal, operations) (R126, R154). -/
  prepNext : Nat := 0
  prepLeft : Nat := 0
  rowPrep : List (Nat × Nat) := []
  /-- Cycles owed because COMMIT draws more words than the generator gives (R379). -/
  rngWait : Nat := 0
  /-- Index lists of the SPARSE tensors: the lines as read, (tensor, line index, line), and by tensor the
  row of each entry, none where the entry is skipped (R152, R192). -/
  indexRaw : List (Nat × Nat × Line) := []
  index : List (Nat × List (Option Nat)) := []
  /-- Column pads by tensor (R140, R142); the lines that have come of a tensor's old vectors (R141), and those
  that have come of its new columns and lie in its column pads (R142). -/
  qpads : List (Nat × PadSet) := []
  qvec : List (Nat × Nat × Line) := []
  qcols : List (Nat × Nat) := []
  /-- Lines of r' and q' handed over and not yet through: (tensor, index) (R141). -/
  vecOut : List (Nat × Nat) := []
  /-- Fab cycle from which FETCH's rate ramps up, the start of the pass or the end of a pause, and the tiles
  issued since (R555). -/
  rampFrom : Nat := 0
  rampIssued : Nat := 0
  deriving DecidableEq, Repr

structure SweepUnit where
  pass : Option Pass := none
  /-- The index lists that the last pass over the tables read, by tensor: a lagging channel needs them beyond it
  (R192, R363). -/
  index : List (Nat × List (Option Nat)) := []
  /-- An accepted RECOVER waits for exports that still run: none of them runs during a sweep (R354). -/
  recoverWaits : Bool := false
  seq : BitVec 16 := 0
  /-- SWEEP_STATUS (R194). -/
  ctlErr : BitVec 8 := 0
  state : JState := .empty
  /-- STATE as the marks line last carried it (R194). -/
  written : JState := .empty
  /-- The journal has been written since the last cold reset: by the engine, or restored by a host (R197). -/
  known : Bool := false
  /-- Tiles of the in-flight range that a halt has left behind (R194). -/
  leftInflight : Nat := 0
  fault : JFault := .none
  faultGroup : Bool := false
  repairs : BitVec 5 := 0
  /-- Next entry of the repair log (R190). -/
  logNext : Nat := 0
  /-- What the last recovery found of its in-flight range, by ordinal, and the FAILED_LINES it found with it
  (R186-R188): a RESUME of a halt inside the recovery still goes by them. -/
  settle : List (Nat × TileClass) := []
  settleLines : Word := 0
  /-- SWEEP_WMARK, SWEEP_MMARK, SWEEP_FPOS (R195) and their ordinals. -/
  wpos : Word := 0
  mpos : Word := 0
  fpos : Word := 0
  word : Nat := 0
  mord : Nat := 0
  failedLines : Word := 0
  lineSeq : BitVec 32 := 0
  /-- Step and tag that the marks line carries (R179). -/
  jStep : BitVec 32 := 0
  jTag : BitVec 32 := 0
  /-- A mark has moved since the marks line was last written, and when that was (R178). -/
  dirty : Bool := false
  lastMarks : Nat := 0
  /-- The engine's own view of the 16 slots (R180). -/
  slots : List Word := List.replicate 16 0
  /-- The pass information as last written (R181). -/
  passInfo : Line := 0
  /-- Trust ratios by tensor ID (R135). -/
  rho : List (Nat × BitVec 32) := []
  /-- ACCUM accumulators: (tensor, (word 0, word 1)) (R94). -/
  accum : List (Nat × BitVec 64 × BitVec 64) := []
  /-- The factored first pass of a tensor: sums of its finished rows in order, of the row under way, and of
  its columns (R140). -/
  rowSums : List (BitVec 64) := []
  rowAcc : BitVec 64 := 0
  colSums : List (BitVec 64) := []
  /-- SWEEP_CNT0 to 5 (R196). -/
  cnt : List Counter := List.replicate 6 {}
  deriving DecidableEq, Repr

/-! ## The fabric's own registers (R103-R116) -/

/-- One register-file entry: the graph and the prepared constant it holds, its value, the residue the value
carries (R84, R107). -/
structure RegEntry where
  graph : Nat
  ref : BitVec 8
  value : BitVec 32
  residue : BitVec 2
  deriving DecidableEq, Repr

/-- One of the two banks of the cells' register files, A or B (R84): the tensor whose constants it holds, the
entries of its cells together, and the fab cycle in which that tensor's last beat so far entered (R102). -/
structure ConstBank where
  tensor : Option Nat := none
  regs : List RegEntry := []
  lastBeat : Option Nat := none
  deriving DecidableEq, Repr

structure Fabric where
  bankA : ConstBank := {}
  bankB : ConstBank := {}
  /-- FAB_SHED (R115). -/
  rankShed : BitVec 24 := 0
  sfuShed : BitVec 2 := 0
  /-- FAB_FAULT (R111). -/
  fault : FaultLatch := {}
  variant : BitVec 8 := 0
  width : BitVec 2 := 0
  noVariant : Bool := false
  /-- A shed drain and variant load is in progress (R108). -/
  draining : Bool := false
  /-- Fab cycle at which the drain and load under way end (R108). -/
  drainUntil : Nat := 0
  /-- FAB_CNT0 to 7 (R106). -/
  cnt : List Counter := List.replicate 8 {}
  /-- The last ctrl cycle in which one of them counted, and what each counted in it (R518). -/
  cntAt : Nat := 0
  cntNow : List Counter := List.replicate 8 {}
  deriving DecidableEq, Repr

/-! ## Tongue, norm store, granule map (R198-R215) -/

/-- A norm-store record (R204). -/
structure NormRec where
  gacc : Nat := 0
  lsum : BitVec 32 := 0
  gmax : BitVec 32 := 0
  obs : Nat := 0
  overrange : Bool := false
  overcount : Bool := false
  partl : Bool := false
  late : Bool := false
  normpass : Bool := false
  complete : Bool := false
  sweepValid : Bool := false
  nonfin : Nat := 0
  wsq : BitVec 64 := 0
  usq : BitVec 64 := 0
  /-- Tiles added in the sweep under way (R210). -/
  swept : Nat := 0
  /-- The tensor's share of the instance totals: its exact sum, and its non-finite elements (R209). -/
  share : Nat := 0
  shareNonfin : Nat := 0
  deriving DecidableEq, Repr

/-- The state of the granule map (R198). -/
inductive MapState where
  | none | building | valid | gradRange | conflict
  deriving DecidableEq, Repr

/-- The norm pass (R207-R209). -/
structure NormPass where
  /-- Tensors it has yet to read, in order, then those to read again. -/
  todo : List Nat
  reread : List Nat := []
  /-- Tensors whose second read has begun. -/
  again : List Nat := []
  /-- The tensor it reads, with the lines still to come. -/
  cur : Option (Nat × Nat) := none
  /-- Tensors it has begun to read. -/
  begun : List Nat := []
  deriving DecidableEq, Repr

/-- A line that the tongue took in OBSERVE, and the port cycle of its completion; none once that has failed for good. -/
structure TakenLine where
  line : BitVec 34
  mask : BitVec 64
  data : Line
  port : BitVec 5
  tag : BitVec 12
  acc : Option Nat
  deriving DecidableEq, Repr

/-- The tongue before the oldest line whose completion a seal of now might still find open, and the lines since: a seal
makes those late whose completion has not passed its NAK cycle (R241, R438, R467). -/
structure TongueMark where
  recs : List (Nat × NormRec)
  acc : Nat
  nonfin : Nat
  gmax : BitVec 32
  cnt : List Counter
  lines : List TakenLine
  deriving DecidableEq, Repr

structure Tongue where
  armErr : BitVec 8 := 0
  armed : Bool := false
  /-- The 256-cycle clear of an accepted arm: the ctrl time it ends, and whether PHASE was IDLE (R212). -/
  clearing : Option (Nat × Bool) := none
  /-- Records by tensor ID; one not listed is clear (R204). -/
  recs : List (Nat × NormRec) := []
  /-- The instance totals (R202). -/
  acc : Nat := 0
  nonfin : Nat := 0
  gmax : BitVec 32 := 0
  taken : Option TongueMark := none
  norm : Option NormPass := none
  /-- NORMPASS statistics were used for this step's contribution (R218). -/
  usedNorm : Bool := false
  map : MapState := .none
  /-- Claims of the map: (first granule, count, tensor) (R198). -/
  claims : List (Nat × Nat × Nat) := []
  /-- TONGUE_CNT0 to 6 (R214). -/
  cnt : List Counter := List.replicate 7 {}
  deriving DecidableEq, Repr

/-! ## Membership, verdict, hierarchy, leases (R216-R241, R568) -/

/-- MEMB_STATUS.STATE (R220). -/
inductive MembState where
  | none | joining | opened | failed
  deriving DecidableEq, Repr

structure Memb where
  stage : BitVec 32 := 0
  epoch : BitVec 32 := 0
  state : MembState := .none
  /-- MEMB_STATUS.HOLD (R220). -/
  hold : BitVec 8 := 0
  pending : Option (BitVec 32 × Nat) := none
  err : BitVec 8 := 0
  /-- Ctrl time at which the epoch in effect was applied (R221). -/
  joinedAt : Nat := 0
  deriving DecidableEq, Repr

structure Verdict where
  /-- VERDICT_STATUS (R238). -/
  recStep : BitVec 32 := 0
  flashSeen : Bool := false
  lastFlash : Flash := .hold
  reject : BitVec 4 := 0
  holdCause : BitVec 8 := 0
  skipReason : BitVec 8 := 0
  holding : Bool := false
  applied : Bool := false
  /-- VERDICT_REC0 to 7 (R239). -/
  record : Line := 0
  rootLsn : BitVec 16 := 0
  /-- The instance's attempt count (R568). -/
  attempt : BitVec 8 := 0
  /-- A GO record is applied and its gate has not opened (R170). -/
  gateDue : Bool := false
  /-- The first record taken for the current step and attempt, and whether it was applied (R241). -/
  seen : Option Line := none
  /-- Good records of it that were ignored because the step had ended: their copies are duplicates (R241). -/
  ignored : List Line := []
  /-- GO or SKIP flash received since the step was armed and not yet answered by a record (R481). -/
  flashPending : Bool := false
  deriving DecidableEq, Repr

/-- A message that has arrived and waits to be taken: from where, on which virtual channel (R218). -/
structure InMsg where
  src : Source
  vc : BitVec 2
  m : Line
  deriving DecidableEq, Repr

/-- An aggregator's memory and the instance's own sending (R221-R230). -/
structure Hier where
  /-- Messages delivered by a link, the fabric message port or this instance itself, not yet taken. -/
  inbox : List InMsg := []
  /-- Messages accepted for the current step and attempt, and JOIN messages of the current epoch. -/
  got : List Line := []
  joins : List Line := []
  /-- Notices accepted for the current step and attempt (R223). -/
  notices : List Line := []
  /-- Messages kept for a later epoch, step or attempt (R223). -/
  kept : List Line := []
  /-- This instance's CONTRIB has left, and its SUM has left, for the step and attempt. -/
  contribSent : Bool := false
  sumSent : Bool := false
  joinSumSent : Bool := false
  skipSent : Bool := false
  /-- Ctrl time of the first accepted message of the step (R230). -/
  since : Option Nat := none
  /-- CONTRIB_TIMEOUT has expired for the step and attempt: it is counted once (R230). -/
  expired : Bool := false
  /-- The root has issued a record for the step and attempt (R225, R229). -/
  issued : Option (BitVec 32 × BitVec 8) := none
  /-- That record was an early one: the root discards what is left of the step (R225). -/
  early : Bool := false
  /-- Messages not yet resolved, which a route change resends (R413). -/
  unresolved : List Line := []
  /-- HIER_CNT0 to 5 (R240). -/
  cnt : List Counter := List.replicate 6 {}
  deriving DecidableEq, Repr

/-- One lease (R232). -/
structure Lease where
  owner : BitVec 16 := 0
  gen : BitVec 16 := 0
  expiry : Word := 0
  deriving DecidableEq, Repr

structure Leases where
  all : List Lease := List.replicate 256 {}
  /-- LEASE_RESULT and LEASE_EXPIRY (R234). -/
  result : Word := 0
  expiry : Word := 0
  deriving DecidableEq, Repr
/-! ## Streams, pond, pad queues (R318-R352) -/

/-- CHn_STATUS.STATE (R348). -/
inductive ChState where
  | disabled | idle | fetching | running | stopping | stopped | rejected | faulted | cancelling
  deriving DecidableEq, Repr

/-- CHn_RING_BASE and CHn_RING_CFG (R348). -/
structure RingCfg where
  /-- Stack address bits 39:9. -/
  base : BitVec 31 := 0
  enable : Bool := false
  lead : BitVec 16 := 0
  floor : BitVec 11 := 0
  prio : BitVec 2 := 0
  sizeLog2 : BitVec 5 := 3
  deriving DecidableEq, Repr

/-- A granted burst of a piece: its first line within the piece, its length, and the lines that have
not yet come back (reads) or have not yet passed their NAK cycle or been acknowledged (writes). -/
structure Burst where
  write : Bool
  first : Nat
  len : Nat
  left : Nat
  deriving DecidableEq, Repr

/-- A piece of a task's byte stream (R323). -/
structure Piece where
  index : Nat
  /-- Byte offset in the task's stream, and length. -/
  start : Nat
  bytes : Nat
  /-- Its pad; none for a zero source. -/
  handle : Option (BitVec 16)
  /-- Lines whose reads have been granted, and lines read with good parity. -/
  readNext : Nat := 0
  readDone : Nat := 0
  /-- Lines whose writes have been granted, and lines passed or acknowledged. -/
  writeNext : Nat := 0
  writeDone : Nat := 0
  bursts : List Burst := []
  deriving DecidableEq, Repr

/-- The stages of a started task (R327, R331). -/
inductive TaskStage where
  | run
  /-- Read-back under way: whether it is the second read, and whether the far port has it yet (a
  stack read-back always counts as issued). -/
  | readback (second issued : Bool)
  /-- Descriptor write-backs: descriptors not yet accepted. -/
  | writeback (left : Nat)
  /-- Ending with a fault of R331: code, descriptor, address; waiting for granted bursts. -/
  | ending (code : BitVec 8) (desc : BitVec 8) (addr : Word)
  deriving DecidableEq, Repr

structure Task where
  descs : List Line
  /-- Ring index of its first descriptor. -/
  head : Nat
  seq : BitVec 16
  stage : TaskStage := .run
  pieces : List Piece := []
  nextIndex : Nat := 0
  /-- Stream bytes covered by pieces made so far. -/
  cut : Nat := 0
  /-- Stream bytes written so far, per descriptor. -/
  written : List Nat
  /-- Pieces pushed into the destination queue. -/
  pushed : Nat := 0
  /-- The producer adopted (CHAN, SEQ), and whether its LAST entry has come (R341). -/
  adopted : Option (BitVec 4 × BitVec 16) := none
  sawLast : Bool := false
  /-- The last line of the stream as written: where, and what (R327). -/
  lastLine : Line := 0
  /-- Ctrl time of the last progress that R342 counts. -/
  progress : Nat
  /-- Its DEADLINE had passed before it started: a miss is counted only at its completion (R352). -/
  late : Bool := false
  /-- Ctrl time at which its last write-back was accepted (R327). -/
  backAt : Nat := 0
  deriving DecidableEq, Repr

structure StreamCh where
  stage : RingCfg := {}
  /-- The set in effect. -/
  eff : RingCfg := {}
  state : ChState := .disabled
  head : Nat := 0
  tail : Nat := 0
  seq : BitVec 16 := 0
  err : BitVec 8 := 0
  faultTask : BitVec 32 := 0
  faultCode : BitVec 8 := 0
  faultDesc : BitVec 8 := 0
  faultAddr : Word := 0
  /-- Descriptors fetched from HEAD on, in ring order (R321). -/
  fetched : List Line := []
  /-- Descriptor reads outstanding, those returned by ring index, and a failed one (R321, R322). -/
  fetchDue : Nat := 0
  /-- CHn_TAIL when the fetch under way was issued: descriptors from there on are fetched again. -/
  fetchTail : Nat := 0
  fetchGot : List (Nat × Line) := []
  fetchFailed : Bool := false
  /-- Ring index of the descriptor whose read failed first (R322, R348). -/
  fetchBad : Nat := 0
  task : Option Task := none
  /-- A task of this channel was stopped at a descriptor boundary or before its start (R329). -/
  stopAfter : Bool := false
  /-- The task is urgent (R343); its deadline has been counted as missed (R344). -/
  urgent : Bool := false
  missed : Bool := false
  /-- The pieces for which the channel has been ready through grants without being granted, by issue
  stream 0 to 3 (R324). -/
  passed : List Nat := [0, 0, 0, 0]
  deriving DecidableEq, Repr

/-- A burst that a far issue stream of the stream engine has granted and the far port has not (R324, R326). -/
structure FarBurst where
  chan : Nat
  piece : Nat
  first : Nat
  len : Nat
  deriving DecidableEq, Repr

structure Streams where
  chans : List StreamCh := List.replicate 16 {}
  /-- The channel granted last on each issue stream: stack reads, stack writes, far reads, far writes. -/
  last : List Nat := [15, 15, 15, 15]
  /-- The far bursts that wait for the far port: read and write direction. -/
  farRead : Option FarBurst := none
  farWrite : Option FarBurst := none
  /-- STRM_COMMIT (R346). -/
  pending : Option (List RingCfg × Nat) := none
  errCh : BitVec 4 := 0
  err : BitVec 8 := 0
  /-- STRM_STATUS.POND_STALL and the interval it counts from (R342, R345). -/
  pondStall : Bool := false
  spill : Bool := false
  /-- STRM_CNT0 to 10 (R351). -/
  cnt : List Counter := List.replicate 11 {}
  deriving DecidableEq, Repr

/-- A pad of the pond (R333), with the requester that allocated it (R334, R335). -/
structure Pad where
  gen : BitVec 5 := 0
  owner : BitVec 6 := 0
  requester : BitVec 5 := 0
  /-- The lines it holds, by index. -/
  lines : List (Nat × Line) := []
  deriving DecidableEq, Repr

structure Pond where
  pads : List Pad := List.replicate 2048 {}
  /-- POND_FAULT (R349). -/
  fault : FaultLatch := {}
  /-- PAD_FLOOR_SWEEP and PAD_FLOOR_STREAM in effect (R261). -/
  floorSweep : BitVec 12 := 0
  floorStream : BitVec 12 := 0
  /-- The later of the ctrl times at which FETCH began to wait for pads, the last free, and the last
  abort of R342; none while FETCH does not wait. -/
  stallSince : Option Nat := none
  /-- The fab cycle of the last allocation (R334). -/
  lastFab : Option Nat := none
  deriving DecidableEq, Repr

/-- An entry of a pad queue (R339). -/
structure PqEntry where
  chan : BitVec 4
  abort : Bool
  piece : BitVec 32
  seq : BitVec 16
  taskId : BitVec 32
  bytes : BitVec 13
  first : Bool
  last : Bool
  handle : BitVec 16
  deadline : Word
  deriving DecidableEq, Repr

structure PadQueue where
  entries : List PqEntry := []
  abortSeq : BitVec 16 := 0
  abortValid : Bool := false
  /-- ABORT entries of tasks ended by RESET that wait for room (R329, R331). -/
  waiting : List PqEntry := []
  deriving DecidableEq, Repr
/-! ## Exports, deltas, the far port (R353-R373, R450-R452, R465) -/

/-- XCHk_STATUS.STATE (R371). -/
inductive XState where
  | disabled | idle | changes | lagging | running | faulted
  deriving DecidableEq, Repr

/-- XCHk_FAR, XCHk_SYNC and XCHk_CFG (R371). -/
structure XCfg where
  far : BitVec 58 := 0
  sync : BitVec 57 := 0
  enable : Bool := false
  doorbellLines : BitVec 16 := 0x10
  sizeLog2 : BitVec 5 := 6
  arena : BitVec 4 := 0
  deriving DecidableEq, Repr

/-- A delta record: its header without RECORD_SEQ and CRC, which it takes when it is placed in the ring,
and its body (R358-R360, R362). -/
structure XRecord where
  header : Line
  body : List Line
  /-- RECORD_SEQ, once placed, and its ring position in lines since enable. -/
  seq : BitVec 32 := 0
  place : Option Nat := none
  /-- Ring lines it takes: for a PAD record the rest of the ring. -/
  span : Nat
  /-- Lines granted to the far port, and lines acknowledged. -/
  sent : Nat := 0
  acked : Nat := 0
  handle : Option (BitVec 16) := none
  deriving DecidableEq, Repr

/-- A tile that a lagging or recovering delta channel reads from the committed copy (R363, R365). -/
structure XRead where
  ord : Nat
  missing : Nat
  lines : List (Nat × Line) := []
  flags : BitVec 8
  handle : BitVec 16
  /-- It follows the lag cursor, which moves when it is through. -/
  cursor : Bool
  deriving DecidableEq, Repr

/-- A tile that EXPORT offers, until every channel in CHANGES has its record (R355, R357, R362). -/
structure XOffer where
  ord : Nat
  tensor : Nat
  tile : Nat
  count : Nat
  genfmt : BitVec 4
  dstOff : Nat
  groupEnd : Bool
  /-- Reference codes and scales, new codes and scales. -/
  old : List Byte
  new : List Byte
  handle : Option (BitVec 16)
  waiting : List Nat
  deriving DecidableEq, Repr

/-- A slice of an export image: its first line in the image, its first stack line, its bytes (R368). -/
structure XSlice where
  off : Nat
  line : BitVec 34
  bytes : Nat
  deriving DecidableEq, Repr

/-- The lines of an export that one pad carries (R359, R367). -/
structure XChunk where
  first : Nat
  len : Nat
  handle : BitVec 16
  lines : List (Nat × Line) := []
  sent : Nat := 0
  acked : Nat := 0
  deriving DecidableEq, Repr

/-- An export under way (R367-R369). -/
structure XExport where
  /-- The header and the directory, literally; then the slices. -/
  literal : List Line
  slices : List XSlice
  total : Nat
  next : Nat := 0
  chunks : List XChunk := []
  acked : Nat := 0
  /-- The last line written, for the read-back; how often that has been asked, and whether the far
  port has the request; its good outcome. -/
  lastLine : Line := 0
  readbacks : Nat := 0
  asked : Bool := false
  good : Bool := false
  stopping : Bool := false
  deriving DecidableEq, Repr

structure XChan where
  stage : XCfg := {}
  eff : XCfg := {}
  first : BitVec 14 := 0
  last : BitVec 14 := 0
  state : XState := .disabled
  err : BitVec 8 := 0
  baseValid : Bool := false
  baseStep : BitVec 32 := 0
  /-- Next RECORD_SEQ. -/
  seq : BitVec 32 := 0
  /-- Lag cursor, or next ordinal. -/
  ordinal : Nat := 0
  faultCode : BitVec 8 := 0
  faultLine : BitVec 56 := 0
  /-- Delta: the step whose STEP_END is open, with its tag (R356, R364). -/
  openStep : Option (BitVec 32 × BitVec 32) := none
  /-- NO_BASE of the records of this step (R358, R363). -/
  noBase : Bool := false
  /-- A tile of the step was left by SKIP_TILE (R356, R365). -/
  skipped : Bool := false
  /-- Tiles to be sent WHOLE after recovery or SKIP_TILE: (ordinal, FLAGS) (R365). -/
  whole : List (Nat × BitVec 8) := []
  /-- FLAGS that such tiles bring while the channel is LAGGING, by ordinal (R365). -/
  marked : List (Nat × BitVec 8) := []
  /-- The tag changes at STEP_END: a molt meant BASE_VALID to fall (R373). -/
  baseDrop : Bool := false
  /-- STEP_END of the open step is among the records, not yet written (R356, R363). -/
  ending : Bool := false
  /-- Records assembled and not yet wholly acknowledged, oldest first. -/
  records : List XRecord := []
  reading : Option XRead := none
  /-- Pads held for records to come (R334, R359). -/
  pads : List (BitVec 16) := []
  /-- Lines placed in the ring since enable, WRITTEN (acknowledged, in order), CONSUMED as last read. -/
  placed : Nat := 0
  written : Nat := 0
  consumed : Nat := 0
  /-- WRITTEN of the last doorbell, and the ctrl time from which the next is counted. -/
  rung : Nat := 0
  rungAt : Nat := 0
  /-- STEP_END or STEP_CANCEL asks for a doorbell; a doorbell that waits for the far port; one on it. -/
  bellDue : Bool := false
  bellWaits : Option Line := none
  bellOut : Bool := false
  /-- Ctrl time of the last credit read; one waits for the far port; one is on it. -/
  creditAt : Option Nat := none
  creditWaits : Bool := false
  creditOut : Bool := false
  /-- Counts for the STEP_END body (R358). -/
  tileRecords : Nat := 0
  elemsChanged : Nat := 0
  wholeRecords : Nat := 0
  /-- RECORD_SEQ and STEP of the last record written (R360). -/
  lastSeq : BitVec 32 := 0
  lastStep : BitVec 32 := 0
  job : Option XExport := none
  deriving DecidableEq, Repr

structure Exports where
  chans : List XChan := List.replicate 8 {}
  /-- Tiles offered by EXPORT and not yet freed (R362). -/
  offers : List XOffer := []
  pending : Option (List XCfg × Nat) := none
  errCh : BitVec 3 := 0
  err : BitVec 8 := 0
  /-- XCH_STATUS.GATE_WAIT (R367). -/
  gateWait : Bool := false
  /-- XCH_CNT0 to 7 (R372). -/
  cnt : List Counter := List.replicate 8 {}
  deriving DecidableEq, Repr

/-- A far request accepted and not yet answered (R450-R452). -/
structure FarReq where
  who : Who
  write : Bool
  /-- Far address bits 63:6. -/
  line : BitVec 58
  data : Line := 0
  tag : BitVec 12
  src : BitVec 6
  urgent : Bool := false
  /-- Port cycle of its last acceptance. -/
  acc : Nat
  fails : Nat := 0
  /-- Responses to it that have failed their parity in a row. -/
  respFails : Nat := 0
  deriving DecidableEq, Repr

structure FarPort where
  out : List FarReq := []
  /-- Tags kept out of use after a timeout: (write, tag) (R452). -/
  held : List (Bool × BitVec 12) := []
  timeout : Bool := false
  /-- The ctrl cycle that set TIMEOUT last (R525). -/
  timeoutAt : Nat := 0
  /-- Rotation between streams and exports, read and write direction: the owner ID granted last (R326). -/
  lastRead : BitVec 6 := 0
  lastWrite : BitVec 6 := 0
  /-- NAKs that the engine asserts toward the bridge: write direction, tag, port cycle (R433, R451). -/
  naks : List (Bool × BitVec 12 × Nat) := []
  /-- PORT_CNT0 to 10 (R466). -/
  cnt : List Counter := List.replicate 11 {}
  deriving DecidableEq, Repr
/-! ## Random bits (R374-R395) -/

/-- RNG_STATUS.NOISE_STATE (R387). -/
inductive NoiseState where
  | startup | ok | alarm | failed
  deriving DecidableEq, Repr

/-- MASK_DST, MASK_CFG, MASK_KEY, MASK_FIRST, MASK_THRESH (R384). -/
structure MaskRegs where
  dst : BitVec 34 := 0
  format : BitVec 2 := 0
  fresh : Bool := false
  scale : BitVec 16 := 0x3F80
  count : BitVec 36 := 0
  keyStep : BitVec 32 := 0
  tensor : BitVec 14 := 0
  purpose : BitVec 8 := 0x10
  first : BitVec 36 := 0
  thresh : BitVec 33 := 0
  deriving DecidableEq, Repr

/-- A mask fill that runs (R383). -/
structure MaskFill where
  regs : MaskRegs
  /-- Elements generated, and those that the line under construction holds, oldest first. -/
  made : Nat := 0
  part : List Bool := []
  /-- Lines handed over so far. -/
  lines : Nat := 0
  stopping : Bool := false
  /-- It ends for STOP or a core mismatch, which STOPPED shows; not so for a fabric-only reset (R384, R391). -/
  shown : Bool := true
  /-- The beat being generated has met a core mismatch (R380). -/
  mismatch : Bool := false
  deriving DecidableEq, Repr

structure Mask where
  regs : MaskRegs := {}
  run : Option MaskFill := none
  done : BitVec 36 := 0
  err : BitVec 8 := 0
  gateWait : Bool := false
  stopped : Bool := false
  valid : Bool := false
  deriving DecidableEq, Repr

structure Rng where
  noise : NoiseState := .startup
  hold : Bool := false
  seeded : Bool := false
  genFault : Bool := false
  /-- The ctrl cycle that set GEN_FAULT last (R525). -/
  genFaultAt : Nat := 0
  /-- RNG_CTL.RESEED_NOW. -/
  reseedNow : Bool := false
  /-- A reseed is due for another reason: reset, molt, interval (R389). -/
  reseedDue : Bool := true
  /-- Ctrl time from which the RESEED interval counts. -/
  reseedFrom : Nat := 0
  lanes : List Word := List.replicate 128 1
  /-- Blocks gathered toward the reseed set, oldest first: at most 22. -/
  blocks : List (BitVec 384) := []
  /-- Raw bits conditioned so far, oldest first: at most 1,024; and those of complete windows that
  wait for the conditioner. -/
  raw : List Bool := []
  ready : List (List Bool) := []
  /-- The repetition count test: the last bit and how often it has come. -/
  rep : Option (Bool × Nat) := none
  /-- The adaptive proportion test: the window's first bit, its count, bits so far. -/
  apt : Option (Bool × Nat × Nat) := none
  /-- Raw bits since reset, in the noise source's count, and those at which it failed in the last
  64 windows, newest first (R387). -/
  bitCount : Nat := 0
  failsAt : List Nat := []
  /-- A test failed in the window under way; good windows in a row in ALARM. -/
  windowFailed : Bool := false
  goodWindows : Nat := 0
  /-- Ctrl time of the next raw bit (R385). -/
  nextBit : Nat := 0
  mask : Mask := {}
  /-- RNG_CNT0 to 5 (R394). -/
  cnt : List Counter := List.replicate 6 {}
  deriving DecidableEq, Repr
/-! ## Xedar links and the fabric message port (R396-R429) -/

/-- XLn_STATUS.TX_PHASE and RX_PHASE (R423). -/
inductive LPhase where
  | off | train | run | verdict | sleep | quarantine | down
  deriving DecidableEq, Repr

/-- The steps of training (R407). -/
inductive TrainStep where
  | clock | pattern | margin | map | identity
  deriving DecidableEq, Repr

/-- A training under way (R407, R417, R418). -/
structure Training where
  step : TrainStep
  /-- Ctrl time at which the step began. -/
  since : Nat
  /-- A wake from SLEEP: a short PATTERN step on the stored map (R418). -/
  wake : Bool := false
  /-- A retrain keeps sequence numbers, buffers and credits; a full training does not (R417, R428). -/
  retrain : Bool := false
  /-- P0-P11 receive lanes good so far, by PATTERN and MARGIN. -/
  good : BitVec 12 := 0xFFF
  /-- A good map word has been taken; a good IDENT has been received; the far end has acknowledged ours. -/
  mapTaken : Bool := false
  identGot : Bool := false
  identAcked : Bool := false
  /-- Frame slots of the IDENTITY step so far: every 16th carries an IDENT (R409). -/
  slots : Nat := 0
  deriving DecidableEq, Repr

/-- A frame on its way (R398). -/
structure LFrame where
  vc : BitVec 2
  seq : BitVec 12 := 0
  payload : Line
  dest : BitVec 4
  src : BitVec 4
  bcast : Bool
  /-- It came in on the other link and is forwarded (R406). -/
  transit : Bool := false
  deriving DecidableEq, Repr

structure LinkEnd where
  txPhase : LPhase := .off
  rxPhase : LPhase := .off
  qCause : BitVec 8 := 0
  downCause : BitVec 8 := 0
  proto : BitVec 8 := 0
  txWidth4 : Bool := false
  rxWidth4 : Bool := false
  train : Option Training := none
  /-- Failed attempts in a row. -/
  failed : Nat := 0
  /-- XLn_CTL (R423). -/
  holdDown : Bool := false
  sleepOn : Bool := false
  test : Bool := false
  retrainBit : Bool := false
  /-- XLn_LANES (R423). -/
  rxC1 : BitVec 4 := 0xB
  rxC0 : BitVec 4 := 0xA
  txC1 : BitVec 4 := 0xB
  txC0 : BitVec 4 := 0xA
  txGood : BitVec 12 := 0
  rxGood : BitVec 12 := 0
  /-- Margins of P0 to P11 (R424). -/
  margins : List (BitVec 8) := List.replicate 12 0
  /-- The neighbour's last IDENT (R424). -/
  neighValid : Bool := false
  neigh : Line := 0
  /-- Transmit: next SEQ; frames unacknowledged, oldest first; how many of them are still to be sent again. -/
  txSeq : BitVec 12 := 0
  replay : List LFrame := []
  resend : List LFrame := []
  /-- Ctrl time at which the replay timer last started; timeouts in a row (R404, R417). -/
  timer : Nat := 0
  timeouts : Nat := 0
  /-- Frames sent on VC0 to VC2 and freed by the far end, cumulative (R405). -/
  sent : List Nat := [0, 0, 0]
  freed : List Nat := [0, 0, 0]
  /-- Receive: last SEQ in order; a NAK is outstanding; buffers freed, cumulative; frames held. -/
  ackSeq : BitVec 12 := 0xFFF
  nakDue : Bool := false
  nakOut : Bool := false
  gave : List Nat := [0, 0, 0]
  /-- The CR_VC that the next header carries (R402). -/
  crVc : BitVec 2 := 0
  /-- Frames waiting to be sent, per VC: transit, then own (R406). -/
  transit : List LFrame := []
  own : List LFrame := []
  /-- Slots VC2 has waited; the last slot carried a test flit (R406). -/
  vc2Wait : Nat := 0
  testLast : Bool := false
  /-- Test stream: next index to send, next index expected (R419). -/
  testTx : BitVec 32 := 0
  testRx : BitVec 32 := 0
  /-- CRC errors in the window under way, the window's number, and the port cycle in which the last training ended, from
  which windows count (R417). -/
  crcErrors : Nat := 0
  crcWindow : Nat := 0
  trainedAt : Nat := 0
  /-- The flash driven on the transmit side, the one due once the direction can carry it, and the one
  qualified last on the receive side (R415, R416). -/
  flashOut : Flash := .hold
  flashDue : Option Flash := none
  /-- The direction leaves VERDICT at the end of the port cycle, in which its code has been driven (R415, R416). -/
  runDue : Bool := false
  flashIn : Flash := .hold
  /-- SLEEP markers sent and received (R418). -/
  sleepSent : Bool := false
  sleepGot : Bool := false
  /-- Ctrl time at which the link last went DOWN or last tried (R417). -/
  downAt : Nat := 0
  /-- The frame last driven on the transmit lanes: 72 bytes (R398). -/
  lastTx : BitVec 576 := 0
  /-- What the physical lanes carried with it, scrambled, UI 0 as bit 0; the scramblers of P0 to P9, transmit and
  receive (R399, R400). -/
  lanesTx : List (BitVec 4 × BitVec 144) := []
  txScr : List (BitVec 23) := List.replicate 10 0
  rxScr : List (BitVec 23) := List.replicate 10 0
  /-- The marker last sent: C0's byte (R401). -/
  lastMarker : BitVec 8 := 0
  /-- XLn_CNT0 to 8 (R425). -/
  cnt : List Counter := List.replicate 9 {}
  deriving DecidableEq, Repr

/-- XL_RING and what lies behind it (R411, R426). -/
structure Ring where
  segUp : BitVec 16 := 0
  /-- Ctrl time of the last link-state broadcast. -/
  lastState : Nat := 0
  /-- The last record the manager flashed in the step, and the last EPOCH_OPEN of its epoch (R413). -/
  lastRecord : Option Line := none
  lastOpen : Option Line := none
  deriving DecidableEq, Repr

/-- A DATA message of the fabric message port (R420). -/
structure FmpMsg where
  dest : BitVec 32
  seq : BitVec 16
  tries : BitVec 8 := 0
  payload : Line
  /-- Ctrl time of its last send. -/
  sentAt : Nat
  deriving DecidableEq, Repr

/-- What the receiver keeps for a source (R422). -/
structure FmpPeer where
  src : BitVec 32
  session : BitVec 16
  high : BitVec 16
  bitmap : BitVec 64 := 0
  deriving DecidableEq, Repr

structure Fmp where
  self : BitVec 32 := 0
  session : BitVec 16 := 0
  /-- SESSION is still to be taken from the first conditioned block (R422). -/
  sessionDue : Bool := true
  lost : Bool := false
  /-- The ctrl cycle that set LOST last (R525). -/
  lostAt : Nat := 0
  lostDest : BitVec 32 := 0
  /-- Unacknowledged messages, and those held back, oldest first. -/
  out : List FmpMsg := []
  queue : List (BitVec 32 × Line) := []
  /-- Next SEQ by destination. -/
  seqs : List (BitVec 32 × BitVec 16) := []
  /-- Sources, most recently heard first: at most 128. -/
  peers : List FmpPeer := []
  /-- The message last driven on the transmit side: envelope, and payload for DATA. -/
  lastTx : Option (BitVec 128 × Option Line) := none
  /-- FMP_CNT0 to 5 (R427). -/
  cnt : List Counter := List.replicate 6 {}
  deriving DecidableEq, Repr
/-! ## Test access (R464) -/

/-- The 16 states of a TAP controller (R464: IEEE 1149.1; PRESUMED from that standard, log 73). -/
inductive TapState where
  | testLogicReset | runTestIdle
  | selectDr | captureDr | shiftDr | exit1Dr | pauseDr | exit2Dr | updateDr
  | selectIr | captureIr | shiftIr | exit1Ir | pauseIr | exit2Ir | updateIr
  deriving DecidableEq, Repr

/-- The instructions of the TAP: BYPASS and those that open the IEEE 1687 network; there is no IDCODE (R464). -/
inductive TapInstr where
  | bypass | access
  deriving DecidableEq, Repr

/-- The wrapper's instructions: WS_BYPASS, or another, which isolates the ports (R464). -/
inductive WrapInstr where
  | wsBypass | isolating
  deriving DecidableEq, Repr

structure TestAccess where
  /-- jtag_trst_n and wsp_wrstn: low in mission mode. -/
  trstN : Bool := false
  wrstN : Bool := false
  tap : TapState := .testLogicReset
  instr : TapInstr := .bypass
  /-- The bypass register of the TAP, and that of the wrapper. -/
  bypass : Bool := false
  wrap : WrapInstr := .wsBypass
  wrapBypass : Bool := false
  deriving DecidableEq, Repr

/-! ## The whole state -/

/-- Why an event cannot be given an effect: it contradicts what the surroundings owe the block, and the
spec says nothing of what the block then does. -/
inductive Fault where
  /-- Raised by the events that answer a transfer (a read return, a NAK, a key-store acknowledgement)
  when no such transfer is outstanding: R433, R441 and R459 forbid it, and no rule gives an effect. Safe. -/
  | unsolicited (what : String)
  deriving DecidableEq, Repr

/-- Why a command has no meaning here. -/
inductive Refusal where
  /-- Raised by exec for a command that the model gives no meaning yet. Safe. -/
  | notModelled (mnemonic : String)
  deriving DecidableEq, Repr

/-- The state of one instance. -/
structure State where
  clk : Clocks
  boot : Boot
  power : Power
  health : Health
  snap : Snapshot
  evt : EventPort
  ctl : CtlPort
  kst : KstPort
  vault : Vault
  mem : MemPath
  /-- The bytes of the stack as accepted writes have left them, in the canonical form of Memory.wf;
  a byte that is not listed reads as `unlistedByte`. -/
  stack : List Host.Cell
  image : ImageUnit
  step : StepUnit
  stepk : Stepk
  lscale : Lscale
  aux : Aux
  ttab : Ttab
  swp : Swp
  sweep : SweepUnit
  fab : Fabric
  tongue : Tongue
  memb : Memb
  verdict : Verdict
  hier : Hier
  lease : Leases
  strm : Streams
  pond : Pond
  /-- PQ0 to PQ15. -/
  queues : List PadQueue
  xch : Exports
  far : FarPort
  rng : Rng
  east : LinkEnd
  west : LinkEnd
  ring : Ring
  fmp : Fmp
  test : TestAccess
  /-- The model's own count of free values drawn so far: no piece of the spec's state. -/
  freeCtr : Nat
  /-- The commands that wait, first in, first out. -/
  pending : List Instr
  deriving DecidableEq, Repr

/-- The machine right after reset: power good, resets released, the PLL not yet locked (R475, R476). -/
def State.reset : State where
  clk := {}
  boot := {}
  power := {}
  health := {}
  snap := {}
  evt := {}
  ctl := {}
  kst := {}
  vault := {}
  mem := {}
  stack := []
  image := {}
  step := {}
  stepk := {}
  lscale := {}
  aux := {}
  ttab := {}
  swp := {}
  sweep := {}
  fab := {}
  tongue := {}
  memb := {}
  verdict := {}
  hier := {}
  lease := {}
  strm := {}
  pond := {}
  queues := List.replicate 16 {}
  xch := {}
  far := {}
  rng := {}
  east := {}
  west := {}
  ring := {}
  fmp := {}
  test := {}
  freeCtr := 0
  pending := []

end Sys2Proof.Machine
end

