-- ==== Sys2Proof/Machine/Operands.lean ====
section
/-! DEFINITION. The operand forms the spec gives: bit fields of words, requests and lines (R17),
odd parity (R432), the CRC of frames (R398), the fields of control-port addresses (R443, R522). -/
namespace Sys2Proof.Machine

/-- Bits hi..lo of a word, as a bit vector of n = hi - lo + 1 bits. -/
def field {m : Nat} (w : BitVec m) (lo n : Nat) : BitVec n := w.extractLsb' lo n

/-- A field as a number. -/
def fieldNat {m : Nat} (w : BitVec m) (lo n : Nat) : Nat := (w.extractLsb' lo n).toNat

/-- Puts a field into a word: value v at bit lo. Used to compose registers (R17). -/
def put {n : Nat} (lo : Nat) (v : BitVec n) : Word := (v.setWidth 64) <<< lo

/-- A one-bit field. -/
def putBit (lo : Nat) (b : Bool) : Word := if b then (1 : Word) <<< lo else 0

/-- A count as a field of n bits that saturates (R518). -/
def putSat (lo n v : Nat) : Word := (BitVec.ofNat 64 (min v (2 ^ n - 1))) <<< lo

/-- The number of ones among the low n bits. -/
def onesBelow {m : Nat} (w : BitVec m) : Nat → Nat
  | 0 => 0
  | n + 1 => onesBelow w n + (if w.getLsbD n then 1 else 0)

/-- The number of ones of a word. -/
def popCount {m : Nat} (w : BitVec m) : Nat := onesBelow w m

/-- Odd parity: bit k of `par` and byte k of the bundle together hold an odd number of ones (R432). -/
def parityOk {m n : Nat} (bundle : BitVec m) (par : BitVec n) : Bool :=
  (List.range n).all fun k =>
    (onesBelow (bundle.extractLsb' (8 * k) 8) 8 + (if par.getLsbD k then 1 else 0)) % 2 == 1

/-- Bytes lo, lo+1, ... of a line as a little-endian number of n bytes. -/
def lineField (l : Line) (off n : Nat) : BitVec (8 * n) := l.extractLsb' (8 * off) (8 * n)

/-- The same field placed into a line. -/
def putLine {m : Nat} (off : Nat) (v : BitVec m) : Line := (v.setWidth 512) <<< (8 * off)

/-- The next state of the CRC-16 register of R398 for one bit. -/
def crc16Bit (c : BitVec 16) (b : Bool) : BitVec 16 :=
  let f := xor (c.getLsbD 15) b
  if f then (c <<< 1) ^^^ 0x1021 else c <<< 1

/-- CRC-16 with polynomial x^16 + x^12 + x^5 + 1 and initial value 0xFFFF over bits in order (R398). -/
def crc16Bits (bs : List Bool) : BitVec 16 := bs.foldl crc16Bit 0xFFFF

/-- The bits of bytes 0 to n - 1 of a value, each byte from bit 7 down (R398). -/
def bitsMsbFirst {m : Nat} (v : BitVec m) (n : Nat) : List Bool :=
  (List.range n).flatMap fun k => (List.range 8).map fun i => v.getLsbD (8 * k + (7 - i))

/-- The CRC-16 of bytes 0 to n - 1 (R398, R420). -/
def crc16 {m : Nat} (v : BitVec m) (n : Nat) : BitVec 16 := crc16Bits (bitsMsbFirst v n)

/-- The CRC-16 of a chameleon or map word: its 24 payload bits from bit 23 down (R402, R408). -/
def crc16Word (v : BitVec 24) : BitVec 16 :=
  crc16Bits ((List.range 24).map fun i => v.getLsbD (23 - i))

/-- The bundle of a control-port write: ctl_req in bytes 0 to 3, ctl_wdata in bytes 4 to 11 (R443). -/
def ctlBundle (addr : Addr24) (w : Word) : BitVec 96 :=
  let req : BitVec 32 := (((addr.setWidth 32) >>> 3) <<< 3) ||| 1
  w ++ req

end Sys2Proof.Machine
end

