-- ==== Sys2Proof/Machine/Ops.lean ====
section
/-! DEFINITION. The operations every family uses: time, counters, reports and the error log, croak,
events, the control port's gate, the bytes of the stack, and requests to the memory path. -/
namespace Sys2Proof.Machine

abbrev Out := Host.Outcome State Fault Refusal

/-! ## Time (R14, R471) -/

/-- The port cycle under way, counted from PLL lock. -/
def portNow (s : State) : Nat := s.clk.port

/-- The ctrl time counter: the ctrl clock is the root divided by 20, the port clock by 6 (R14). -/
def now (s : State) : Nat := 3 * s.clk.port / 10

/-- TIME.NOW (R471, R519). -/
def time (s : State) : Word := BitVec.ofNat 64 (now s)

/-- The first multiple of w strictly after t (R530). -/
def nextBoundary (t w : Nat) : Nat := (t / w + 1) * w

/-! ## Counters (R106, R518) -/

/-- All-ones of a 48-bit counter. -/
def counterMax : Nat := 2 ^ 48 - 1

/-- An increment of n, saturating; OVF is set when all-ones is reached (R518). -/
def Counter.add (c : Counter) (n : Nat) : Counter :=
  if n = 0 then c
  else if c.count + n < counterMax then { c with count := c.count + n }
  else { count := counterMax, ovf := true }

/-- Adds n to the i-th counter of a group. -/
def bump (l : List Counter) (i n : Nat) : List Counter := l.modify i (·.add n)

/-- The layout of R106. -/
def Counter.word (c : Counter) : Word := putBit 63 c.ovf ||| putSat 0 48 c.count

def countMp (i n : Nat) (s : State) : State := { s with mem := { s.mem with cnt := bump s.mem.cnt i n } }
/-- FAB_CNT, with what this ctrl cycle has counted, which a clear in it leaves (R518). -/
def countFab (i n : Nat) (s : State) : State :=
  { s with fab := { s.fab with
    cnt := bump s.fab.cnt i n
    cntAt := now s
    cntNow := bump (if s.fab.cntAt = now s then s.fab.cntNow else List.replicate 8 {}) i n } }
def countSweep (i n : Nat) (s : State) : State :=
  { s with sweep := { s.sweep with cnt := bump s.sweep.cnt i n } }
def countTongue (i n : Nat) (s : State) : State :=
  { s with tongue := { s.tongue with cnt := bump s.tongue.cnt i n } }
def countHier (i n : Nat) (s : State) : State := { s with hier := { s.hier with cnt := bump s.hier.cnt i n } }
def countStrm (i n : Nat) (s : State) : State := { s with strm := { s.strm with cnt := bump s.strm.cnt i n } }
def countXch (i n : Nat) (s : State) : State := { s with xch := { s.xch with cnt := bump s.xch.cnt i n } }
def countPort (i n : Nat) (s : State) : State := { s with far := { s.far with cnt := bump s.far.cnt i n } }
def countRng (i n : Nat) (s : State) : State := { s with rng := { s.rng with cnt := bump s.rng.cnt i n } }
def countFmp (i n : Nat) (s : State) : State := { s with fmp := { s.fmp with cnt := bump s.fmp.cnt i n } }
def countHealth (i n : Nat) (s : State) : State :=
  { s with health := { s.health with cnt := bump s.health.cnt i n } }

/-! ## Codes of states (R22, R21) -/

/-- STEP_STATUS.PHASE (R22). -/
def Phase.code : Phase → BitVec 4
  | .notReady => 0 | .idle => 1 | .observe => 2 | .sealed => 3 | .normPass => 4
  | .awaitVerdict => 5 | .pass1 => 6 | .sweep => 7 | .halted => 8

/-- STEP_STATUS.FLASH (R21). -/
def Flash.code : Flash → BitVec 2
  | .hold => 0 | .go => 1 | .skip => 2 | .abort => 3

/-! ## Fault latches (R111, R309, R349, R511, R525) -/

/-- A fault of ctrl cycle t: the first since the latch was cleared is held, a further one sets MORE. -/
def FaultLatch.take (t : Nat) (bits : Word) (f : FaultLatch) : FaultLatch :=
  let fresh : FreshFault := match f.fresh with
    | some x => if x.at' = t then { x with again := true, more := true } else ⟨t, bits, false, f.valid⟩
    | none => ⟨t, bits, false, f.valid⟩
  if f.valid then { f with more := true, fresh := some fresh }
  else { valid := true, more := false, bits := bits, fresh := some fresh }

/-- A write of w to the latch's register in ctrl cycle t: 1 in VALID clears VALID and MORE, 1 in MORE clears MORE; a
fault of the same cycle is then the first, and what it set stays set. -/
def FaultLatch.clear (t : Nat) (w : Word) (f : FaultLatch) : FaultLatch :=
  match f.fresh.filter (·.at' == t) with
  | some x =>
    if w.getLsbD 63 then { valid := true, more := x.again, bits := x.bits, fresh := f.fresh }
    else { f with more := f.more && (!w.getLsbD 62 || x.more) }
  | none =>
    { f with
      valid := f.valid && !w.getLsbD 63
      more := f.more && !w.getLsbD 63 && !w.getLsbD 62 }

/-- The register of a latch. -/
def FaultLatch.word (f : FaultLatch) : Word := putBit 63 f.valid ||| putBit 62 f.more ||| f.bits

/-! ## Reports and the error log (R504-R507) -/

/-- The class of a report code (R505, R506). -/
def classOf (code : BitVec 16) : BitVec 2 :=
  if code ∈ ([0x0601, 0x0604, 0x0901, 0x0B04] : List (BitVec 16)) then 0
  else if code ∈ ([0x0201, 0x0801, 0x0802, 0x0903, 0x0904, 0x0A01, 0x0B01, 0x0B02, 0x0B03, 0x0B05] :
      List (BitVec 16)) then 3
  else if code ∈ ([0x0107, 0x0108, 0x0204, 0x0205, 0x0206, 0x0301, 0x0302, 0x0401, 0x0402, 0x0403,
      0x0404, 0x0405, 0x0406, 0x0410, 0x0602, 0x0603, 0x0702, 0x0703, 0x0704, 0x0705, 0x0902, 0x0905] :
      List (BitVec 16)) then 2
  else 1

/-- REPEAT grows by one and saturates (R504). -/
def LogEntry.again (e : LogEntry) : LogEntry :=
  { e with rep := if e.rep = 0xFFFF then e.rep else e.rep + 1 }

/-- A report that a full log discards (R504). -/
def ErrLog.lose (l : ErrLog) : ErrLog :=
  { l with
    lost := true
    lostCount := if l.lostCount = 0xFFFFFFFF then l.lostCount else l.lostCount + 1
    lostNow := l.lostNow + 1 }

/-- Enters a report: coalesced with the newest entry, entered, or discarded (R504). Reports of this ctrl cycle with a
larger CODE come after it. -/
def ErrLog.enter (l : ErrLog) (e : LogEntry) : ErrLog :=
  let cls : BitVec 4 := (1 : BitVec 4) <<< (classOf e.code).toNat
  let l := { l with
    seen := l.seen ||| cls
    lastAt := e.time
    lostNow := if l.lastAt = e.time then l.lostNow else 0
    seenNow := if l.lastAt = e.time then l.seenNow ||| cls else cls }
  let later := l.entries.reverse.takeWhile fun x => x.time == e.time && x.code > e.code
  let first := l.entries.take (l.entries.length - later.length)
  let full := 64 ≤ l.entries.length
  match first.getLast? with
  | some n =>
    if n.code = e.code ∧ n.arg = e.arg then
      { l with entries := first.dropLast ++ [n.again] ++ later.reverse }
    else if full then l.lose else { l with entries := first ++ [e] ++ later.reverse }
  | none => if full then l.lose else { l with entries := e :: later.reverse }

/-- A report of this ctrl cycle (R504, R505). -/
def report (code : BitVec 16) (arg : Word) (s : State) : State :=
  let e : LogEntry :=
    { code := code, time := time s, step := s.step.step, phase := s.step.phase.code, rep := 0, arg := arg }
  { s with health := { s.health with log := s.health.log.enter e } }

/-! ## Events (R447, R448) -/

/-- The order of events: by ctrl cycle, then by line (R448). -/
def eventBefore (a b : Nat × BitVec 6) : Bool := a.1 < b.1 || (a.1 == b.1 && a.2 ≤ b.2)

/-- Puts an event into the queue, after every event that is not later (R448). -/
def insertEvent : List (Nat × BitVec 6) → Nat × BitVec 6 → List (Nat × BitVec 6)
  | [], e => [e]
  | x :: xs, e => if eventBefore x e then x :: insertEvent xs e else e :: x :: xs

/-- An event of this ctrl cycle; while the queue is full, its source waits (R448). -/
def pulse (line : BitVec 6) (s : State) : State :=
  if s.evt.queue.length < 256 then
    { s with evt := { s.evt with queue := insertEvent s.evt.queue (now s, line) } }
  else { s with evt := { s.evt with waiting := s.evt.waiting ++ [(now s, line)] } }

/-! ## Croak (R512, R513) -/

/-- The log without the CROAK report that this ctrl cycle has made of the causes told (R513). -/
def ErrLog.untell (l : ErrLog) (t : Word) (told : BitVec 8) : ErrLog :=
  let mine := fun (e : LogEntry) => e.code == 0x0B03 && e.arg == told.setWidth 64
  match l.entries.findIdx? fun e => mine e && e.time == t && e.rep == 0 with
  | some i => { l with entries := l.entries.eraseIdx i }
  | none =>
    match l.entries.reverse.findIdx? mine with
    | some i => { l with entries := l.entries.modify (l.entries.length - 1 - i) fun e => { e with rep := e.rep - 1 } }
    | none => l

/-- The croak causes as this ctrl cycle has met them so far (R513). -/
def croakCycle (s : State) : CroakCycle :=
  if s.health.croakNow.at' = now s then s.health.croakNow else { at' := now s, start := s.health.cause }

/-- Causes newly set are named in the one CROAK report of the ctrl cycle (R513). -/
def croakReport (new : BitVec 8) (s : State) : State :=
  let c := croakCycle s
  let log := if c.told = 0 then s.health.log else s.health.log.untell (time s) c.told
  report 0x0B03 ((c.told ||| new).setWidth 64) { s with health := { s.health with
    log := log
    croakNow := { c with told := c.told ||| new } } }

/-- Sets croak causes (R512); newly set ones make a report, and a rise pulses CROAK_RAISED (R513). A cause that was
cleared earlier in the same ctrl cycle stays set: it is not newly set. -/
def croakSet (causes : BitVec 8) (s : State) : State :=
  let c := croakCycle s
  let rise := c.start = 0 ∧ s.health.cause = 0
  let new := causes &&& ~~~(s.health.cause ||| c.start)
  let s := { s with health := { s.health with
    cause := s.health.cause ||| causes
    croakNow := { c with hit := c.hit ||| causes } } }
  if new = 0 then s
  else
    let s' := croakReport new s
    if rise then pulse 14 (countHealth 5 1 s') else s'

/-! ## The control port (R443-R446, R485, R483, R510) -/

/-- The pins and clocks let the block run at all (R461, R468, R469). -/
def running (s : State) : Bool := s.boot.pwrOk && s.boot.rstColdN && s.clk.pllLocked

/-- ctl_ready may be 1 (R446, R485). -/
def portOpen (s : State) : Bool := running s && s.boot.rstWarmN

/-- The engine itself works: READY has been reached, no warm reset runs. -/
def ready (s : State) : Bool := portOpen s && s.boot.stage == .ready

/-- The links work: from step 4 of a warm reset on, otherwise from READY (R476, R485). -/
def linksOpen (s : State) : Bool :=
  portOpen s && (s.boot.stage == .ready || (s.boot.warm && s.boot.stage == .vault))

/-- A wake cause in RETAIN (R482). -/
def wakeFromRetain (s : State) : State :=
  if s.power.state == .retain then { s with power := { s.power with wakeDue := true } } else s

/-- The engine's own work may go on: READY and not in FATAL (R510). -/
def working (s : State) : Bool := ready s && !s.health.fatal

/-- The response to a write: OK 0x04, UNMAPPED 0x05, PARITY 0x06 (R443). -/
def respond (code : BitVec 8) (s : State) : State := { s with ctl := { rsp := some code } }

/-- An address without a register (R445, R523). -/
def unmapped (s : State) : State := respond 0x05 (countPort 5 1 s)

def gctlAddr : Addr24 := 0x000008
def vaultOpAddr : Addr24 := 0x0C0008

/-- The registers whose writes FATAL still applies (R510). -/
def fatalWritable (addr : Addr24) (w : Word) : Bool :=
  addr == gctlAddr || addr == 0x0B0000 || addr == 0x0B0008 || addr == 0x0B0010 || addr == 0x0B0038 ||
  (0x0C0100 ≤ addr && addr ≤ 0x0C0128) || (0x0C0140 ≤ addr && addr ≤ 0x0C0178) ||
  (addr == vaultOpAddr && fieldNat w 0 3 == 5)

/-- A control-port write of w to a register at addr whose own effect is `eff`: what the state of the
port makes of it (R444-R446, R483, R485, R510). -/
def ctlWrite (addr : Addr24) (w : Word) (eff : State → State) (s : State) : State :=
  if !portOpen s then s
  else if s.boot.stage != .ready then
    if addr == gctlAddr then respond 0x04 (eff s)
    else if addr == 0x000000 || addr == 0x000010 || addr == 0x000018 then respond 0x04 s
    else unmapped s
  else if s.health.fatal && !fatalWritable addr w then respond 0x04 s
  else if s.power.state == .retain && addr != gctlAddr then
    respond 0x04 (report 0x010B (addr.setWidth 64) s)
  else respond 0x04 (eff s)

/-! ## The bytes of the stack -/

/-- What a byte of the stack reads as that nothing has written: the spec gives no contents after
power-on. DESIGN CHOICE. -/
def unlistedByte : Byte := 0

/-- The byte at an address. -/
def cellRead : List Host.Cell → Nat → Byte
  | [], _ => unlistedByte
  | (a, b) :: r, k => if a = k then b else cellRead r k

/-- Writes one byte and keeps the canonical form. -/
def cellWrite : List Host.Cell → Nat → Byte → List Host.Cell
  | [], k, v => if v = unlistedByte then [] else [(k, v)]
  | (a, b) :: r, k, v =>
    if k < a then (if v = unlistedByte then (a, b) :: r else (k, v) :: (a, b) :: r)
    else if k = a then (if v = unlistedByte then r else (k, v) :: r)
    else (a, b) :: cellWrite r k v

/-- Every address of the list lies above a. -/
def cellsAbove (a : Nat) (m : List Host.Cell) : Bool := m.all fun c => a < c.1

/-- The canonical form: addresses strictly rising, no entry equal to what an unlisted address reads as. -/
def Memory.wf : List Host.Cell → Bool
  | [] => true
  | (a, b) :: r => b != unlistedByte && cellsAbove a r && Memory.wf r

/-- Writes the bytes of a line that the mask enables (R434). -/
def lineWrite (m : List Host.Cell) (line : BitVec 34) (mask : BitVec 64) (data : Line) : List Host.Cell :=
  (List.range 64).foldl (fun m k =>
    if mask.getLsbD k then cellWrite m (64 * line.toNat + k) (data.extractLsb' (8 * k) 8) else m) m

/-- The line at a stack-local line address. -/
def lineRead (m : List Host.Cell) (line : BitVec 34) : Line :=
  (List.range 64).foldl (fun l k =>
    l ||| putLine k (cellRead m (64 * line.toNat + k))) 0

/-- A line address at or above STACK_GIB (R282). -/
def beyondStack (s : State) (line : BitVec 34) : Bool :=
  s.mem.stackGib.toNat * 2 ^ 24 ≤ line.toNat

/-! ## Requests to the memory path and the far port -/

def setMem (f : MemPath → MemPath) (s : State) : State := { s with mem := f s.mem }

/-- A request enters arbitration at its memory channel port (R284, R285). -/
def arbitrate (r : MemReq) (s : State) : State :=
  setMem (fun m => { m with waiting := m.waiting ++ [{ req := r, since := portNow s }] }) s

/-- The bytes that a mask enables, over a line. -/
def overlay (l : Line) (mask : BitVec 64) (data : Line) : Line :=
  (List.range 64).foldl (fun (a : Line) k =>
    a ||| putLine k (field (if mask.getLsbD k then data else l) (8 * k) 8)) 0

/-- An entry of the write-combining buffer goes to its channel as one write (R301). -/
def wcbFlush (e : WcbEntry) (s : State) : State :=
  arbitrate { who := e.whos.headD .dropped, cls := e.cls, write := true, line := e.line, mask := e.mask, data := e.data
              also := e.whos.drop 1 }
    (setMem (fun m => { m with wcb := m.wcb.filter (·.line != e.line) }) s)

def wcbFlushLine (line : BitVec 34) (s : State) : State :=
  match s.mem.wcb.find? (·.line == line) with
  | some e => wcbFlush e s
  | none => s

/-- A write of less than a line passes through the buffer: merged into the entry of its line, or into a new
one, for which the oldest of 256 makes room (R301, R302). -/
def wcbWrite (r : MemReq) (s : State) : State :=
  match s.mem.wcb.find? (·.line == r.line) with
  | some e =>
    let e' := { e with mask := e.mask ||| r.mask, data := overlay e.data r.mask r.data, whos := e.whos ++ [r.who] }
    let s := countMp 7 1 (setMem (fun m => { m with wcb := m.wcb.map fun x => if x.line == r.line then e' else x }) s)
    if e'.mask = BitVec.allOnes 64 then wcbFlush e' s else s
  | none =>
    let s := match s.mem.wcb with
      | old :: _ => if 256 ≤ s.mem.wcb.length then wcbFlush old s else s
      | [] => s
    setMem (fun m => { m with wcb := m.wcb ++
      [{ line := r.line, cls := r.cls, mask := r.mask, data := r.data, opened := portNow s, whos := [r.who] }] }) s

/-- A request of the engine or of a host. In FATAL the engine issues none of its own (R510). A read, or a
whole-line write, of a line that the buffer holds lets the entry go first (R301, R306). -/
def enqueue (r : MemReq) (s : State) : State :=
  match r.who with
  | .host _ _ => arbitrate r s
  | _ =>
    if s.health.fatal then s
    else if r.write && !r.control && r.cls != .tadpole && r.mask != BitVec.allOnes 64 then wcbWrite r s
    else arbitrate r (wcbFlushLine r.line s)

/-- The reorder window of the tadpole path holds 4,096 pieces (R304); a piece that crosses a line is one. -/
def windowPieces : Nat := 4096
def MemReq.isPiece (r : MemReq) : Bool := r.cls == .tadpole && !r.tail
/-- A full window deasserts its requester's ready (R304). -/
def windowFull (s : State) : Bool := windowPieces ≤ s.mem.waiting.countP fun w => w.req.isPiece

/-- Several requests, in order. -/
def enqueueAll (rs : List MemReq) (s : State) : State := rs.foldl (fun s r => enqueue r s) s

/-- A control read or write of R284: journal, marks, descriptors, tables, images. -/
def controlRead (who : Who) (line : BitVec 34) : MemReq :=
  { who := who, cls := .bulk, control := true, write := false, line := line }

def controlWrite (who : Who) (line : BitVec 34) (data : Line) : MemReq :=
  { who := who, cls := .bulk, control := true, write := true, line := line, mask := BitVec.allOnes 64, data := data }

/-- Draws the next free value (AN UNDEFINED VALUE: nothing constrains it). -/
def drawFree (s : State) : Word × State :=
  (Config.freeValue s.freeCtr, { s with freeCtr := s.freeCtr + 1 })

/-- The active image, and the values it sets. -/
def activeImage (s : State) : Option Image := s.image.active

def croakEccOf (s : State) : Nat := (s.image.active.map (·.limits.croakEcc.toNat)).getD 0
def padWatchdogOf (s : State) : Nat := (s.image.active.map (·.limits.padWatchdog.toNat)).getD 4800

/-- The fabric can be used: its units are powered, no drain, no reset of it and no change of its ratio is
under way (R108, R470, R478, R481). -/
def fabricFree (s : State) : Bool :=
  s.power.usable && !s.fab.draining && !s.boot.fabricReset && s.clk.divUntil.isNone

/-- A pass, an EMA pass or a mask fill runs. -/
def passRunning (s : State) : Bool := s.sweep.pass.isSome || s.aux.running || s.rng.mask.run.isSome

/-- What runs is on the fabric: FAB_STATUS.RUNNING. The factored rule's PASS1 uses the reduction path (R104, R140, R383). -/
def fabRunning (s : State) : Bool :=
  (s.sweep.pass.map fun p => p.kind != .pass1Factored).getD false || s.aux.running || s.rng.mask.run.isSome

/-- The n-th element of a list of sub-states, changed. -/
def setChan (n : Nat) (f : StreamCh → StreamCh) (s : State) : State :=
  { s with strm := { s.strm with chans := s.strm.chans.modify n f } }
def setXch (k : Nat) (f : XChan → XChan) (s : State) : State :=
  { s with xch := { s.xch with chans := s.xch.chans.modify k f } }
def chan (s : State) (n : Nat) : StreamCh := s.strm.chans.getD n {}
def xchan (s : State) (k : Nat) : XChan := s.xch.chans.getD k {}
def queue (s : State) (q : Nat) : PadQueue := s.queues.getD q {}
def setQueue (q : Nat) (f : PadQueue → PadQueue) (s : State) : State :=
  { s with queues := s.queues.modify q f }

def link (s : State) : Side → LinkEnd
  | .east => s.east
  | .west => s.west
def setLink (d : Side) (f : LinkEnd → LinkEnd) (s : State) : State :=
  match d with
  | .east => { s with east := f s.east }
  | .west => { s with west := f s.west }
def Side.other : Side → Side
  | .east => .west
  | .west => .east
def countLink (d : Side) (i n : Nat) (s : State) : State :=
  setLink d (fun l => { l with cnt := bump l.cnt i n }) s

/-! ## Transfers given up (R38, R108, R276, R329) -/

/-- Reads of a requester that gives them up: those that wait go, those on the way deliver nothing. -/
def dropReads (p : Who → Bool) (s : State) : State :=
  { s with mem := { s.mem with
      waiting := s.mem.waiting.filter fun w => w.req.write || !p w.req.who
      flights := s.mem.flights.map fun f =>
        if !f.req.write && p f.req.who then { f with req := { f.req with who := .dropped } } else f } }

/-- Transfers of a requester that is over: reads as above, writes go on and answer to nobody. -/
def forgetMem (p : Who → Bool) (s : State) : State :=
  let drop (w : Who) : Who := if p w then .dropped else w
  let forget (r : MemReq) : MemReq := { r with who := drop r.who, also := r.also.map drop }
  let s := dropReads p s
  { s with mem := { s.mem with
      waiting := s.mem.waiting.map fun w => { w with req := forget w.req }
      flights := s.mem.flights.map fun f => { f with req := forget f.req } } }

end Sys2Proof.Machine
end

