-- ==== Sys2Proof/Machine/Pond.lean ====
section
/-! DEFINITION. The pond and the pad queues: ownership, floors, allocation, frees (R333-R341, R349). -/
namespace Sys2Proof.Machine

/-! ## Pads (R333) -/

/-- The index and the generation that a handle names (R97). -/
def handleIndex (h : BitVec 16) : Nat := fieldNat h 0 11
def handleGen (h : BitVec 16) : BitVec 5 := field h 11 5

/-- The handle of a pad. -/
def handleOf (gen : BitVec 5) (i : BitVec 11) : BitVec 16 := gen ++ i

def padAt (s : State) (i : Nat) : Pad := s.pond.pads.getD i {}
def setPad (i : Nat) (f : Pad → Pad) (s : State) : State :=
  { s with pond := { s.pond with pads := s.pond.pads.modify i f } }

/-- The owner IDs of R333. -/
def ownerSweep : BitVec 6 := 0x01
def ownerExport : BitVec 6 := 0x02
def ownerChan (n : Nat) : BitVec 6 := BitVec.ofNat 6 (0x10 + n)
def ownerQueue (q : Nat) : BitVec 6 := BitVec.ofNat 6 (0x20 + q)
def ownerXch (k : Nat) : BitVec 6 := BitVec.ofNat 6 (0x30 + k)

/-- F: free pads (R335). -/
def padsFree (s : State) : Nat := s.pond.pads.countP fun p => p.owner == 0
/-- H_sw and H_st: pads held in each group (R335). -/
def padsSweep (s : State) : Nat := s.pond.pads.countP fun p => p.owner != 0 && p.requester == 0
def padsStream (s : State) : Nat := s.pond.pads.countP fun p => p.owner != 0 && p.requester != 0
/-- h_q: pads held by a requester (R335). -/
def padsOf (s : State) (r : Nat) : Nat := s.pond.pads.countP fun p => p.owner != 0 && p.requester.toNat == r

/-- A free that is not honoured: reported and latched (R336). -/
def padFreeInvalid (reason : BitVec 2) (handle : BitVec 16) (freer : BitVec 6) (s : State) : State :=
  let p := padAt s (handleIndex handle)
  let bits : Word := put 60 reason ||| put 54 freer ||| put 48 p.owner ||| put 43 p.gen ||| put 0 handle
  let arg : Word := put 22 reason ||| put 16 freer ||| put 0 handle
  let s := { s with pond := { s.pond with fault := s.pond.fault.take (now s) bits } }
  report 0x0703 arg (countStrm (if reason = 3 then 7 else 6) 1 s)

/-- A free: checked by generation, then by owner (R336); a good one advances the generation (R333). -/
def padFree (handle : BitVec 16) (freer : BitVec 6) (s : State) : State :=
  let p := padAt s (handleIndex handle)
  if p.gen ≠ handleGen handle then padFreeInvalid 3 handle freer s
  else if p.owner = 0 then padFreeInvalid 1 handle freer s
  else if p.owner ≠ freer then padFreeInvalid 2 handle freer s
  else
    let s := setPad (handleIndex handle)
      (fun p => { gen := p.gen + 1, owner := 0, requester := 0, lines := [] }) s
    { s with pond := { s.pond with stallSince := s.pond.stallSince.map fun _ => now s } }

def padFreeAll (hs : List (BitVec 16)) (freer : BitVec 6) (s : State) : State :=
  hs.foldl (fun s h => padFree h freer s) s

/-- Ownership passes (R333). -/
def padGive (handle : BitVec 16) (owner : BitVec 6) (s : State) : State :=
  setPad (handleIndex handle) (fun p => { p with owner := owner }) s

/-- The line of a pad, and storing one. -/
def padLine (s : State) (handle : BitVec 16) (i : Nat) : Line :=
  ((padAt s (handleIndex handle)).lines.find? (·.1 == i)).map (·.2) |>.getD 0
def padStore (handle : BitVec 16) (i : Nat) (l : Line) (s : State) : State :=
  setPad (handleIndex handle) (fun p => { p with lines := (i, l) :: p.lines.filter (·.1 != i) }) s

/-! ## Floors (R335, R353) -/

/-- The pad floor of an export or delta channel when enabled (R353). -/
def xchFloor (k : Nat) (c : XCfg) : Nat := if c.enable then (if k < 4 then 8 else 4) else 0

/-- f_q of requester q: 1 to 16 stream channels, 17 to 24 export and delta channels (R335). -/
def floorOf (s : State) (q : Nat) : Nat :=
  if q = 0 then 0
  else if q ≤ 16 then (chan s (q - 1)).eff.floor.toNat
  else xchFloor (q - 17) (xchan s (q - 17)).eff

/-- The sum of the floors of the stream group (R335, R347, R370). -/
def streamFloors (rings : List RingCfg) (xs : List XCfg) : Nat :=
  (rings.map fun c => c.floor.toNat).sum +
  ((List.range 8).map fun k => xchFloor k (xs.getD k {})).sum

/-- Whether a request of requester r for k pads may be granted with these pads left (R335). -/
def grantAllowed (s : State) (r k : Nat) : Bool :=
  let f := padsFree s
  k ≤ f &&
  (if r = 0 then s.pond.floorStream.toNat - padsStream s ≤ f - k
   else
    let others := ((List.range 24).map fun i =>
      if i + 1 = r then 0 else floorOf s (i + 1) - padsOf s (i + 1)).sum
    (s.pond.floorSweep.toNat - padsSweep s) + others ≤ f - k)

/-- Hands the picked pads to a requester: the handles, if each pick names a free pad (R333, R334). -/
def takePads (owner : BitVec 6) (r : Nat) : List (BitVec 11) → State → Option (List (BitVec 16) × State)
  | [], s => some ([], s)
  | i :: is, s =>
    let p := padAt s i.toNat
    if p.owner = 0 then
      let s := setPad i.toNat
        (fun p => { p with owner := owner, requester := BitVec.ofNat 5 r, lines := [] }) s
      (takePads owner r is s).map fun (hs, s) => (handleOf p.gen i :: hs, s)
    else none

/-! ## Queues (R338-R341) -/

/-- Appends an entry to a queue; an ABORT entry records its SEQ (R338, R340). -/
def queuePush (q : Nat) (e : PqEntry) (s : State) : State :=
  setQueue q (fun u => { u with
    entries := u.entries ++ [e]
    abortSeq := if e.abort then e.seq else u.abortSeq
    abortValid := u.abortValid || e.abort }) s

/-- ABORT entries left by RESET go in as room appears (R329, R331). -/
def queueSettle (q : Nat) (s : State) : State :=
  match (queue s q).waiting with
  | e :: rest =>
    if (queue s q).entries.length < 64 then
      queuePush q e (setQueue q (fun u => { u with waiting := rest }) s)
    else s
  | [] => s

end Sys2Proof.Machine
end

