-- ==== Sys2Proof/Machine/FarOps.lean ====
section
/-! DEFINITION. The far port as its requesters use it: tags, acceptance, what is outstanding (R326, R450-R452). -/
namespace Sys2Proof.Machine

/-- A tag of one direction that names no outstanding request and is not kept out of use (R451, R452). -/
def farTagFree (s : State) (write : Bool) (tag : BitVec 12) : Bool :=
  !(s.far.out.any fun r => r.write == write && r.tag == tag) && !(s.far.held.contains (write, tag))

/-- The first port cycle in which a direction can take a further transfer: one a cycle (R431). -/
def farNextCycle (s : State) (write : Bool) : Nat :=
  s.far.out.foldl (fun m r => if r.write == write then max m (r.acc + 1) else m) (portNow s)

/-- One request crosses the far port under a free tag. -/
def farSend (who : Who) (write : Bool) (line : BitVec 58) (data : Line) (src : BitVec 6) (urgent : Bool)
    (tag : BitVec 12) (s : State) : State :=
  { s with far := { s.far with out := s.far.out ++
      [{ who := who, write := write, line := line, data := data, tag := tag, src := src, urgent := urgent,
         acc := farNextCycle s write }] } }

/-- The owner ID that far_rsrc carries for an image load (R450). -/
def srcImage : BitVec 6 := 0x3E

/-- Far reads of a requester that gives them up are answered to nobody. -/
def dropFar (p : Who → Bool) (s : State) : State :=
  let give (r : FarReq) : FarReq := if !r.write && p r.who then { r with who := .dropped } else r
  { s with far := { s.far with out := s.far.out.map give } }

/-- The same for reads and writes of a requester that is over. -/
def forgetFar (p : Who → Bool) (s : State) : State :=
  let give (r : FarReq) : FarReq := if p r.who then { r with who := .dropped } else r
  { s with far := { s.far with out := s.far.out.map give } }

end Sys2Proof.Machine
end

