-- ==== Sys2Proof/Machine/Layout.lean ====
section
/-! DEFINITION. Where the tensors of the table lie in the stack: tiles, counts, ordinals, operand
addresses (R48, R49, R71, R160, R163, R165, R168, R180, R191, R192). -/
namespace Sys2Proof.Machine

/-! ## Arenas (R160) -/

def arenaMaster : Nat := 0
def arenaGrad : Nat := 1
def arenaM1 : Nat := 2
def arenaM2 : Nat := 3
def arenaWork : Nat := 4
def arenaWorkScale : Nat := 5
def arenaGen : Nat := 6
def arenaGenScale : Nat := 7
def arenaEma : Nat := 8
def arenaAux : Nat := 9
def arenaJournal : Nat := 10

/-- The line address of an arena base in effect. -/
def baseLine (s : State) (n : Nat) : Nat := (s.swp.set.getD n 0).toNat

/-- A stack line address from a byte address. -/
def lineOfByte (a : Nat) : BitVec 34 := BitVec.ofNat 34 (a / 64)

/-- ceil(a / b). -/
def ceilDiv (a b : Nat) : Nat := (a + b - 1) / b

/-! ## Tensors and tiles (R168, R191) -/

def recOf (s : State) (tensor : Nat) : TensorRec := s.ttab.recs.getD tensor {}

/-- Rows of a row-sparse tensor that one sparse tile packs (R191). -/
def rowsPerTile (r : TensorRec) : Nat := if r.cols = 0 then 1 else 1024 / r.cols
/-- Sparse tiles that one long row forms (R191). -/
def tilesPerRow (r : TensorRec) : Nat := ceilDiv r.cols 1024

/-- Tiles of a tensor in the sweep (R168, R191). -/
def tilesOf (r : TensorRec) : Nat :=
  if r.sparse then
    (if r.cols ≤ 1024 then ceilDiv r.indexCount (max 1 (rowsPerTile r)) else r.indexCount * tilesPerRow r)
  else ceilDiv r.elems 1024

/-- COUNT of a dense tile, or the elements a sparse tile of the index list packs (R168, R191). -/
def countOf (r : TensorRec) (t : Nat) : Nat :=
  if r.sparse then
    (if r.cols ≤ 1024 then min (rowsPerTile r) (r.indexCount - rowsPerTile r * t) * r.cols
     else min 1024 (r.cols - 1024 * (t % tilesPerRow r)))
  else min 1024 (r.elems - 1024 * t)

/-- The valid tensors in sweep order: SPARSE records precede dense ones by R153, so it is the order of
the records (R168). -/
def validTensors (s : State) : List Nat :=
  (List.range s.ttab.recs.length).filter fun i => (recOf s i).valid

/-- The tile at a sweep ordinal: tensor and tile (R168). -/
def tileAtIn (s : State) : List Nat → Nat → Option (Nat × Nat)
  | [], _ => none
  | i :: is, o => if o < tilesOf (recOf s i) then some (i, o) else tileAtIn s is (o - tilesOf (recOf s i))

def tileAt (s : State) (ord : Nat) : Option (Nat × Nat) := tileAtIn s (validTensors s) ord

/-- TILES: the ordinal past the last tile (R181). -/
def tilesTotal (s : State) : Nat := ((validTensors s).map fun i => tilesOf (recOf s i)).sum

/-- The ordinal of a tensor's first tile. -/
def ordOf (s : State) (tensor tile : Nat) : Nat :=
  (((validTensors s).filter (· < tensor)).map fun i => tilesOf (recOf s i)).sum + tile

/-- A position (R180): the tile with this ordinal, or END past the last. -/
def positionOf (s : State) (ord : Nat) : Word :=
  match tileAt s ord with
  | some (tensor, tile) => putSat 50 14 tensor ||| putSat 16 32 tile
  | none => putBit 48 true

/-- The tile that ends its release group: the last tile of the group's highest record (R168). -/
def endsGroup (s : State) (tensor tile : Nat) : Bool :=
  tile + 1 == tilesOf (recOf s tensor) &&
  !((validTensors s).any fun i => tensor < i && (recOf s i).group == (recOf s tensor).group)

/-- Release groups of a pass: the distinct GROUP values of the valid records. -/
def groupCount (s : State) : Nat := (((validTensors s).map fun i => (recOf s i).group).eraseDups).length

/-! ## Formats of the copies (R165) -/

/-- Bits per element of a WFMT or GENFMT code. -/
def copyBits (f : BitVec 4) : Nat :=
  if f = 0 then 0 else if f ≤ 2 then 16 else if f ≤ 6 then 8 else if f ≤ 8 then 6
  else if f = 9 then 4 else if f = 0xA then 8 else 0

/-- A microscaling format: it has a scale array. -/
def copyMx (f : BitVec 4) : Bool := 5 ≤ f && f ≤ 0xA

/-! ## Operand addresses, in bytes (R163) -/

def addrIn (s : State) (n off : Nat) : Nat := 64 * baseLine s n + off

/-- Bytes per element of the gradient, of M1, M2 and EMA outside KM8 (R165). -/
def gradBytes (r : TensorRec) : Nat := if r.gfmt = 2 then 4 else if r.gfmt = 3 then 1 else 2

def masterAddr (s : State) (r : TensorRec) (i : Nat) : Nat := addrIn s arenaMaster (4 * (r.elemBase + i))
def gradAddr (s : State) (r : TensorRec) (i : Nat) : Nat :=
  addrIn s arenaGrad (64 * r.gradOff + gradBytes r * i)
def m1Addr (s : State) (r : TensorRec) (i : Nat) : Nat :=
  addrIn s arenaM1 (if r.m1fmt = 3 then 1088 * ((r.elemBase + i) / 1024) + 34 * ((r.elemBase + i) % 1024 / 32)
    else (if r.m1fmt = 2 then 2 else 4) * (r.elemBase + i))
def m2Addr (s : State) (r : TensorRec) (i : Nat) : Nat :=
  addrIn s arenaM2 (if r.m2fmt = 2 then 1088 * ((r.elemBase + i) / 1024) + 34 * ((r.elemBase + i) % 1024 / 32)
    else 4 * (r.elemBase + i))
def workAddr (s : State) (r : TensorRec) (i : Nat) : Nat :=
  addrIn s arenaWork (copyBits r.wfmt * (r.elemBase + i) / 8)
def workScaleAddr (s : State) (r : TensorRec) (i : Nat) : Nat :=
  addrIn s arenaWorkScale ((r.elemBase + i) / 32)
def genAddr (s : State) (r : TensorRec) (i : Nat) : Nat :=
  addrIn s arenaGen (copyBits r.genfmt * (r.elemBase + i) / 8)
def genScaleAddr (s : State) (r : TensorRec) (i : Nat) : Nat :=
  addrIn s arenaGenScale ((r.elemBase + i) / 32)
def emaAddr (s : State) (r : TensorRec) (i : Nat) : Nat :=
  addrIn s arenaEma ((if r.emaBf16 then 2 else 4) * (r.elemBase + i))
def auxAddr (s : State) (r : TensorRec) (off : Nat) : Nat := addrIn s arenaAux (64 * r.auxOff + off)
/-- Stamp of a row, and the index list that follows the stamps (R192). -/
def stampAddr (s : State) (r : TensorRec) (row : Nat) : Nat := auxAddr s r (4 * row)
def indexAddr (s : State) (r : TensorRec) (k : Nat) : Nat := auxAddr s r (64 * ceilDiv (4 * r.rows) 64 + 4 * k)

/-- The journal (R178-R181): its line at an offset. -/
def journalLine (s : State) (off : Nat) : BitVec 34 := BitVec.ofNat 34 (baseLine s arenaJournal + off / 64)

/-! ## Where a tile's elements lie (R163, R191) -/

/-- Consecutive elements of a tile: their row, where they start in the compact gradient and in the tensor. -/
structure Run where
  row : Nat
  grad : Nat
  elem : Nat
  n : Nat
  deriving DecidableEq, Repr

/-- A sparse tile holds the entries of the index list that the walk did not skip (R152, R191). -/
def tileRuns (r : TensorRec) (index : List (Option Nat)) (tile : Nat) : List Run :=
  if !r.sparse then
    [{ row := if r.cols = 0 then 0 else 1024 * tile / r.cols, grad := 1024 * tile, elem := 1024 * tile
       n := countOf r tile }]
  else if r.cols ≤ 1024 then
    let per := max 1 (rowsPerTile r)
    (List.range (min per (r.indexCount - per * tile))).filterMap fun i =>
      ((index.getD (per * tile + i) none).map fun row =>
        { row := row, grad := (per * tile + i) * r.cols, elem := row * r.cols, n := r.cols })
  else
    let k := tile / tilesPerRow r
    let off := 1024 * (tile % tilesPerRow r)
    match index.getD k none with
    | some row => [{ row := row, grad := k * r.cols + off, elem := row * r.cols + off, n := min 1024 (r.cols - off) }]
    | none => []

def runCount (rs : List Run) : Nat := (rs.map (·.n)).sum

/-- The lines a piece lies in. -/
def pieceLines (p : Nat × Nat) : List (BitVec 34) :=
  if p.2 = 0 then [] else
  (List.range ((p.1 + p.2 - 1) / 64 + 1 - p.1 / 64)).map fun i => BitVec.ofNat 34 (p.1 / 64 + i)

/-- The bytes of each piece, from the lines read for it in order. -/
def pieceBytes : List (Nat × Nat) → List Line → List Byte
  | [], _ => []
  | p :: ps, ls =>
    let n := (pieceLines p).length
    ((((ls.take n).flatMap lineBytes).drop (p.1 % 64)).take p.2) ++ pieceBytes ps (ls.drop n)

end Sys2Proof.Machine
end

