-- ==== Sys2Proof/Machine/Exports.lean ====
section
/-! DEFINITION. Export and delta channels (R353-R373). -/
namespace Sys2Proof.Machine

/-! ## Records (R358-R360) -/

/-- Splits bytes into lines, the last padded with zeros. -/
def linesOf (n : Nat) (bs : List Byte) : List Line :=
  (List.range n).map fun i => lineOf ((bs.drop (64 * i)).take 64)
def toLines (bs : List Byte) : List Line := linesOf (ceilDiv bs.length 64) bs

/-- The fields of a record header (R358). -/
structure RecordFields where
  kind : BitVec 8
  step : BitVec 32
  tag : BitVec 32
  ordinal : Nat := 0
  tile : Nat := 0
  tensor : Nat := 0
  count : Nat := 0
  genfmt : BitVec 4 := 0
  channel : Nat
  lines : Nat
  blocks : BitVec 32 := 0
  scaled : BitVec 32 := 0
  changed : Nat := 0
  flags : BitVec 8 := 0
  dstOff : Nat := 0
  bodyCrc : BitVec 32 := 0
  deriving DecidableEq, Repr

/-- The header line without RECORD_SEQ and CRC (R358). -/
def recordHeader (f : RecordFields) : Line :=
  putLine 0x00 (0x4452 : BitVec 16) ||| putLine 0x02 (0x01 : BitVec 8) ||| putLine 0x03 f.kind |||
  putLine 0x04 f.step ||| putLine 0x08 f.tag ||| putLine 0x10 (BitVec.ofNat 32 f.ordinal) |||
  putLine 0x14 (BitVec.ofNat 32 f.tile) ||| putLine 0x18 (BitVec.ofNat 14 f.tensor) |||
  putLine 0x1A (BitVec.ofNat 16 f.count) ||| putLine 0x1C f.genfmt |||
  putLine 0x1D (BitVec.ofNat 8 f.channel) ||| putLine 0x1E (BitVec.ofNat 16 f.lines) |||
  putLine 0x20 f.blocks ||| putLine 0x24 f.scaled ||| putLine 0x28 (BitVec.ofNat 16 f.changed) |||
  putLine 0x2A f.flags ||| putLine 0x2C (BitVec.ofNat 64 f.dstOff) ||| putLine 0x38 f.bodyCrc

/-- The CRC-32 over bytes 0x00 to 0x3B at 0x3C (R358, R360, R368). -/
def sealLine (l : Line) : Line := l ||| putLine 0x3C (crc32 ((lineBytes l).take 60))

/-- The header with its RECORD_SEQ and CRC. -/
def placedHeader (r : XRecord) : Line := sealLine (r.header ||| putLine 0x0C r.seq)

/-- The CRC over the body lines; 0 without a body (R358). -/
def bodyCrc (body : List Line) : BitVec 32 :=
  if body.isEmpty then 0 else crc32 (body.flatMap lineBytes)

/-- A record made of its fields and its body. -/
def mkRecord (f : RecordFields) (body : List Byte) (handle : Option (BitVec 16)) : XRecord :=
  let ls := toLines body
  { header := recordHeader { f with lines := 1 + ls.length, bodyCrc := bodyCrc ls }, body := ls,
    span := 1 + ls.length, handle := handle }

def recordKind (r : XRecord) : BitVec 8 := field r.header 24 8
def recordStep (r : XRecord) : BitVec 32 := field r.header 32 32
/-- Line i of a placed record: header, then body; a PAD record has nothing after its header. -/
def recordLine (r : XRecord) (i : Nat) : Line := if i = 0 then placedHeader r else r.body.getD (i - 1) 0
def recordLines (r : XRecord) : Nat := 1 + r.body.length

/-! ## Codes of a tile (R48, R357, R359) -/

/-- Code i of an array of w-bit elements (R48). -/
def codeAt (w : Nat) (bs : List Byte) (i : Nat) : Nat :=
  let lo := w * i
  let word := bytesAt bs (lo / 8) 4
  (word >>> (lo % 8)) % 2 ^ w

/-- Packs w-bit codes as R48 states, ending on a byte boundary. -/
def packCodes (w : Nat) (cs : List Nat) : List Byte :=
  let total := cs.foldr (fun c a => c % 2 ^ w + a * 2 ^ w) 0
  leBytes (ceilDiv (w * cs.length) 8) total

/-- Bytes of the codes of a tile. -/
def codeBytes (w count : Nat) : Nat := ceilDiv (w * count) 8

/-- The elements of block j among `count`. -/
def blockElems (count j : Nat) : List Nat := (List.range (min 32 (count - 32 * j))).map (32 * j + ·)

/-- Block j's entry in a CHANGES body, if the block has one: entry bytes, scaled, codes sent (R357, R359). -/
def changesBlock (o : XOffer) (j : Nat) : Option (List Byte × Bool × Nat) :=
  let w := copyBits o.genfmt
  let es := blockElems o.count j
  let sc := fun (bs : List Byte) => bs.getD (codeBytes w o.count + j) 0
  let scaled := copyMx o.genfmt && sc o.new != sc o.old
  let sent := es.filter fun i => scaled || codeAt w o.new i != codeAt w o.old i
  if sent.isEmpty then none
  else
    let mask := sent.foldl (fun m i => m + 2 ^ (i - 32 * j)) 0
    some (leBytes 4 mask ++ (if scaled then [sc o.new] else []) ++ packCodes w (sent.map (codeAt w o.new)),
      scaled, sent.length)

/-- The blocks of a tile and their entries. -/
def changesBlocks (o : XOffer) : List (Nat × List Byte × Bool × Nat) :=
  (List.range (ceilDiv o.count 32)).filterMap fun j => (changesBlock o j).map (j, ·)

/-- The CHANGES record of an offered tile: none where nothing changed and no group ends (R357). -/
def changesRecord (k : Nat) (c : XChan) (o : XOffer) (handle : BitVec 16) : Option (XRecord × Nat) :=
  let bs := changesBlocks o
  if o.genfmt = 0 then none
  else if bs.isEmpty && !o.groupEnd then none
  else
    let (st, tag) := c.openStep.getD (0, 0)
    let changed := (bs.map fun b => b.2.2.2).sum
    some (mkRecord
      { kind := 1, step := st, tag := tag, ordinal := o.ord, tile := o.tile, tensor := o.tensor
        count := o.count, genfmt := o.genfmt, channel := k, lines := 0
        blocks := BitVec.ofNat 32 (bs.map fun b => 2 ^ b.1).sum
        scaled := BitVec.ofNat 32 (bs.map fun b => if b.2.2.1 then 2 ^ b.1 else 0).sum
        changed := changed, flags := if o.groupEnd then 0x10 else 0, dstOff := o.dstOff }
      (bs.flatMap fun b => b.2.1) (some handle), changed)

/-- The byte offset of a tile's first element from the generator array's base (R358). -/
def deltaOffset (r : TensorRec) (tile : Nat) : Nat := copyBits r.genfmt * (r.elemBase + 1024 * tile) / 8

/-- The index list by which the walk of the sweep packed a tensor's sparse tiles (R191, R192). -/
def sweepIndex (s : State) (tensor : Nat) : List (Option Nat) :=
  let ofPass : Option (Nat × List (Option Nat)) := match s.sweep.pass with
    | some p => p.index.find? (·.1 == tensor)
    | none => none
  ((ofPass.or (s.sweep.index.find? (·.1 == tensor))).map (·.2)).getD []

/-- The rows of a tensor's tiles are known: it is dense, or its index list has been read. -/
def rowsKnown (s : State) (tensor : Nat) : Bool :=
  !(recOf s tensor).sparse || (recOf s tensor).indexCount == 0 || !(sweepIndex s tensor).isEmpty

/-- Where the generator codes of a tile lie, and where its scales: row by row for a sparse tile (R163, R191). -/
def genPieces (s : State) (r : TensorRec) (rs : List Run) : List (Nat × Nat) × List (Nat × Nat) :=
  (rs.map fun u => (genAddr s r u.elem, codeBytes (copyBits r.genfmt) u.n),
   if copyMx r.genfmt then rs.map fun u => (genScaleAddr s r u.elem, ceilDiv u.n 32) else [])

/-- The lines of a WHOLE record's read: those of the codes, then those of the scales (R359, R363). -/
def wholeReads (s : State) (tensor tile : Nat) : List (BitVec 34) :=
  let r := recOf s tensor
  let (codes, scales) := genPieces s r (tileRuns r (sweepIndex s tensor) tile)
  (codes ++ scales).flatMap pieceLines

/-- The WHOLE record of a tile as read (R359, R363, R365). -/
def wholeRecord (s : State) (k : Nat) (c : XChan) (x : XRead) : Option XRecord :=
  match tileAt s x.ord with
  | some (tensor, tile) =>
    let r := recOf s tensor
    let rs := tileRuns r (sweepIndex s tensor) tile
    let (codes, scales) := genPieces s r rs
    let n := ((codes ++ scales).map fun p => (pieceLines p).length).sum
    let lines := (List.range n).map fun i => ((x.lines.find? (·.1 == i)).map (·.2)).getD 0
    let count := runCount rs
    let (st, tag) := c.openStep.getD (0, 0)
    some (mkRecord
      { kind := 2, step := st, tag := tag, ordinal := x.ord, tile := tile, tensor := tensor, count := count
        genfmt := r.genfmt, channel := k, lines := 0
        blocks := BitVec.ofNat 32 (2 ^ ceilDiv count 32 - 1), changed := count
        flags := x.flags ||| (if c.noBase then 4 else 0) ||| (if endsGroup s tensor tile then 0x10 else 0)
        dstOff := deltaOffset r tile } (pieceBytes (codes ++ scales) lines) (some x.handle))
  | none => none

/-! ## The delta channel's life (R356, R362-R365) -/

/-- Adds a record to those that wait for the far port, and to the counts of STEP_END's body (R358). -/
def addRecord (k : Nat) (r : XRecord) (changed : Nat) (s : State) : State :=
  let kind := recordKind r
  setXch k (fun c => { c with
    records := c.records ++ [r]
    tileRecords := c.tileRecords + (if kind = 1 ∨ kind = 2 then 1 else 0)
    wholeRecords := c.wholeRecords + (if kind = 2 then 1 else 0)
    elemsChanged := c.elemsChanged + (if kind = 1 then changed else 0) }) s

/-- A written record in the counters (R372). -/
def countRecord (r : XRecord) (s : State) : State :=
  let kind := recordKind r
  if kind = 1 then countXch 4 (fieldNat r.header 320 16) (countXch 2 1 s)
  else if kind = 2 then countXch 3 1 s
  else if kind = 4 then countXch 6 1 s else s

/-- The front record has been written: its pad is free, WRITTEN advances over it (R359, R360, R362, R372). -/
def popRecord (k : Nat) (r : XRecord) (s : State) : State :=
  let s := match r.handle with
    | some h => padFree h (ownerXch k) s
    | none => s
  setXch k (fun c => { c with
    records := c.records.tail, written := c.written + r.span, lastSeq := r.seq, lastStep := recordStep r
    bellDue := c.bellDue || recordKind r == 3 || recordKind r == 4 }) (countRecord r s)

/-- Frees the pads of offers that no channel waits for any more (R362). -/
def settleOffers (s : State) : State :=
  let (done, rest) := s.xch.offers.partition fun o => o.waiting.isEmpty
  padFreeAll (done.filterMap (·.handle)) ownerExport { s with xch := { s.xch with offers := rest } }

/-- A channel waits for no offer any more. -/
def leaveOffers (k : Nat) (s : State) : State :=
  settleOffers { s with xch := { s.xch with offers := s.xch.offers.map fun o =>
    { o with waiting := o.waiting.filter (· != k) } } }

/-- A channel's lag read is given up: its pad is free, what comes back goes nowhere. -/
def dropLagRead (k : Nat) (s : State) : State :=
  let s := match (xchan s k).reading with
    | some x => padFree x.handle (ownerXch k) s
    | none => s
  let mine (w : Who) : Bool := match w with
    | .lag c _ _ => c == k
    | _ => false
  dropReads mine (setXch k (fun c => { c with reading := none }) s)

/-- The pads that a channel holds for records to come are free. -/
def dropPads (k : Nat) (s : State) : State :=
  setXch k (fun c => { c with pads := [] }) (padFreeAll (xchan s k).pads (ownerXch k) s)

/-- An export is over: its pads are free, nothing of it is awaited; the last one to end lets the gate go (R367, R369). -/
def endJob (k : Nat) (s : State) : State :=
  let pads := ((xchan s k).job.map fun j => j.chunks.map (·.handle)).getD []
  let mine (w : Who) : Bool := match w with
    | .copy c _ | .copyBack c => c == k
    | _ => false
  let s := forgetFar mine (dropReads mine (padFreeAll pads (ownerXch k) (setXch k (fun c => { c with job := none }) s)))
  { s with xch := { s.xch with gateWait := s.xch.gateWait && s.xch.chans.any (·.job.isSome) } }

/-- A STEP_CANCEL record with the ordinal it names (R364, R365). -/
def cancelRecord (k : Nat) (c : XChan) (ord : Nat) (handle : Option (BitVec 16)) : XRecord :=
  let (st, tag) := c.openStep.getD (0, 0)
  mkRecord { kind := 4, step := st, tag := tag, ordinal := ord, channel := k, lines := 0
             flags := if c.noBase then 4 else 0 } [] handle

/-- Writes STEP_CANCEL for the open step, with BASE_VALID 0 (R356, R364, R365). -/
def stepCancel (k ord : Nat) (discard : Bool) (s : State) : State :=
  let c := xchan s k
  if c.openStep.isNone then s
  else
    -- records not yet begun are discarded, and their pads are free; STEP_END is one of them
    let kept := c.records.filter fun r => r.place.isSome || !(discard || recordKind r == 3)
    let gone := c.records.filter fun r => r.place.isNone && (discard || recordKind r == 3)
    let s := padFreeAll (gone.filterMap (·.handle)) (ownerXch k) s
    let s := setXch k (fun c => { c with baseValid := false, ending := false, records := kept, pads := c.pads.tail }) s
    addRecord k (cancelRecord k c ord c.pads.head?) 0 s

/-- The next tile that EXPORT will offer: the weight mark (R363). -/
def exportNext (s : State) : Nat := s.sweep.word

/-- Every tile of the step has been sent (R363). -/
def deltaSent (s : State) (k : Nat) : Bool :=
  let c := xchan s k
  match c.openStep with
  | some (st, _) =>
    s.sweep.state == .done && s.sweep.jStep == st && c.reading.isNone &&
    c.whole.isEmpty && !(s.xch.offers.any fun o => o.waiting.contains k) &&
    (c.state == .changes || (c.state == .lagging && tilesTotal s ≤ c.ordinal))
  | none => false

/-- STEP_END of the open step is the next of a channel's records (R358, R363). -/
def queueStepEnd (k : Nat) (s : State) : State :=
  let c := xchan s k
  match c.openStep, c.pads with
  | some (st, tag), h :: hs =>
    let body := leBytes 8 c.tileRecords ++ leBytes 8 c.elemsChanged ++ leBytes 8 c.wholeRecords ++
      leBytes 2 (groupCount s)
    let r := mkRecord { kind := 3, step := st, tag := tag, ordinal := tilesTotal s, channel := k, lines := 0
                        flags := if c.noBase then 4 else 0 } body (some h)
    addRecord k r 0 (setXch k (fun c => { c with ending := true, pads := hs }) s)
  | _, _ => s

/-- The first ordinal from o on whose tensor has a generator copy, but no further than `lim`: the tiles between produce
no record (R357). Tensors are passed one by one. -/
def skipBare (s : State) (lim : Nat) : Nat → Nat → Nat
  | 0, o => o
  | n + 1, o =>
    if lim ≤ o then o
    else match tileAt s o with
      | some (tensor, tile) =>
        if (recOf s tensor).genfmt = 0 then skipBare s lim n (min lim (o - tile + tilesOf (recOf s tensor))) else o
      | none => o

/-- The cursor of a lagging channel, and the tiles it owes whole, pass what produces no record (R357, R363). -/
def skipBareTiles (k : Nat) (s : State) : State :=
  let sends := fun (x : Nat × BitVec 8) => match tileAt s x.1 with
    | some (tensor, _) => (recOf s tensor).genfmt != 0
    | none => false
  setXch k (fun c => { c with
    whole := c.whole.filter sends
    ordinal := if c.state == .lagging then skipBare s (exportNext s) (s.ttab.recs.length + 1) c.ordinal else c.ordinal }) s

/-- Records of a channel that wait for the far port, made or still to be made from an offer (R362, R363). -/
def waitingRecords (s : State) (k : Nat) : Nat :=
  (xchan s k).records.length + s.xch.offers.countP fun p => p.waiting.contains k

/-- A channel reads one committed tile into one of its pads, with class EXPORT (R363, R365). A tile of no element needs
no read. -/
def lagRead (k ord : Nat) (flags : BitVec 8) (cursor : Bool) (s : State) : State :=
  let c := xchan s k
  match tileAt s ord, c.pads with
  | some (tensor, tile), h :: hs =>
    if !rowsKnown s tensor then s
    else
    let ls := wholeReads s tensor tile
    let x : XRead := { ord := ord, missing := ls.length, flags := flags, handle := h, cursor := cursor }
    let s := setXch k (fun c => { c with
      pads := hs, whole := if cursor then c.whole else c.whole.tail
      ordinal := if cursor && ls.isEmpty then ord + 1 else c.ordinal
      reading := if ls.isEmpty then none else some x }) s
    if ls.isEmpty then
      (match wholeRecord s k c x with
       | some r => addRecord k r 0 s
       | none => s)
    else enqueueAll ((List.range ls.length).map fun i =>
      { who := .lag k ord i, cls := .xport, write := false, line := ls.getD i 0 }) s
  | _, _ => s

/-- What a delta channel does next, when it may: the tiles it owes whole, then those at its cursor below the weight
mark; it returns to CHANGES when it has caught up, and ends its step when all is sent (R363, R365). A channel without
a base stays in LAGGING. -/
def lagStart (k : Nat) (s : State) : State :=
  let s := skipBareTiles k s
  let c := xchan s k
  if c.reading.isSome || c.openStep.isNone || c.ending || c.state == .faulted || c.state == .disabled then s
  else if 8 ≤ c.records.length then s
  else
    match c.whole with
    | (ord, flags) :: _ => lagRead k ord flags false s
    | [] =>
      if deltaSent s k then queueStepEnd k s
      else if c.state != .lagging then s
      else if c.ordinal = exportNext s && waitingRecords s k < 8 && s.sweep.state != .done && !c.noBase then
        setXch k (fun c => { c with state := .changes }) s
      else if exportNext s ≤ c.ordinal then s
      else lagRead k c.ordinal (1 ||| ((c.marked.find? (·.1 == c.ordinal)).map (·.2)).getD 0) true s

def lagStartAll (s : State) : State := (List.range 4).foldl (fun s k => lagStart k s) s

/-- A fault of an export or delta channel (R365, R369, R371). What was placed in the ring and not written gives its
places and its RECORD_SEQ back. -/
def xchFault (k : Nat) (code : BitVec 8) (farLine : BitVec 56) (s : State) : State :=
  let s := padFreeAll ((xchan s k).records.filterMap (·.handle)) (ownerXch k) (endJob k (dropPads k (dropLagRead k s)))
  let mine (w : Who) : Bool := match w with
    | .record c _ _ | .doorbell c | .credit c => c == k
    | _ => false
  let s := setXch k (fun c => { c with
    state := .faulted, faultCode := code, faultLine := farLine, baseValid := false, openStep := none, ending := false
    placed := c.written, seq := ((c.records.find? (·.place.isSome)).map (·.seq)).getD c.seq
    records := [], whole := [], bellWaits := none, bellDue := false
    creditWaits := false, creditOut := false, bellOut := false }) (forgetFar mine s)
  pulse (BitVec.ofNat 6 (56 + k)) (leaveOffers k s)

/-- A read of a lagging channel returns (R363). -/
def lagReadDone (k ord i : Nat) (data : Option Line) (s : State) : State :=
  let c := xchan s k
  match c.reading with
  | some x =>
    if x.ord ≠ ord then s
    else match data with
      | none => xchFault k 0x12 0 s
      | some l =>
        let x := { x with missing := x.missing - 1, lines := (i, l) :: x.lines }
        if 0 < x.missing then setXch k (fun c => { c with reading := some x }) s
        else
          let s' := setXch k (fun c => { c with
            reading := none, ordinal := if x.cursor then ord + 1 else c.ordinal }) s
          match wholeRecord s k c x with
          | some r => lagStart k (addRecord k r 0 s')
          | none => s'
  | none => s

/-- STEP_END of the open step has been written: every line of it is acknowledged (R356, R363). -/
def deltaDone (s : State) (k : Nat) : Bool :=
  let c := xchan s k
  c.ending && c.openStep.isSome && (match c.records.head? with
    | some r => recordKind r == 3 && r.place.isSome && r.acked == recordLines r
    | none => false)

/-- The step ends on a channel whose STEP_END is written (R356, R358, R363). -/
def stepEnd (k : Nat) (s : State) : State :=
  let c := xchan s k
  match c.openStep, c.records with
  | some (st, _), r :: _ =>
    let s := setXch k (fun c => { c with
      openStep := none, state := .idle, ending := false
      baseValid := !c.skipped && !c.baseDrop
      baseStep := if c.skipped || c.baseDrop then c.baseStep else st }) (popRecord k r s)
    pulse (BitVec.ofNat 6 (48 + k)) (dropPads k s)
  | _, _ => s

/-- The gate opens for a step: each enabled delta channel starts it (R356, R364). A channel whose STEP_END is written
has ended the step before; any other cancels it and discards what it has not begun to send. -/
def deltaGate (step tag : BitVec 32) (k : Nat) (s : State) : State :=
  let c := xchan s k
  if c.state == .disabled || c.state == .faulted then s
  else
    let s := leaveOffers k (dropLagRead k (if deltaDone s k then stepEnd k s else stepCancel k c.ordinal true s))
    let c := xchan s k
    let good := c.baseValid && c.baseStep + 1 == step
    setXch k (fun c => { c with
      state := if good then .changes else .lagging, ordinal := 0, openStep := some (step, tag), noBase := !good
      skipped := false, whole := [], marked := [], baseDrop := false, ending := false, tileRecords := 0
      elemsChanged := 0, wholeRecords := 0 }) s

/-- The gate opens: deltas start (R356); the EXPORT station has nothing left over. -/
def exportsGate (step tag : BitVec 32) (s : State) : State :=
  (List.range 4).foldl (fun s k => deltaGate step tag k s) s

/-- BASE_VALID falls on every delta channel (R356). -/
def dropBases (s : State) : State :=
  (List.range 4).foldl (fun s k => setXch k (fun c => { c with baseValid := false }) s) s

/-- CLEAR_HALT ends the open step of every delta channel at the weight mark (R356, R365). Offers that a channel has not
taken yet, and a tile it still reads, come to no record any more. -/
def exportsClearHalt (s : State) : State :=
  (List.range 4).foldl (fun s k =>
    let s := stepCancel k s.sweep.word false s
    let s := leaveOffers k (dropPads k (dropLagRead k s))
    setXch k (fun c => { c with
      baseValid := false, openStep := none, whole := []
      state := if c.state == .changes || c.state == .lagging then .idle else c.state }) s) s

/-- A delta channel with BASE_VALID is enabled: COMMIT encodes the reference copy too (R355). -/
def deltaWanted (s : State) : Bool :=
  (List.range 4).any fun k => (xchan s k).eff.enable && (xchan s k).baseValid

/-- A channel makes the record it can from the first offer that waits for it, if it has a pad for it (R357, R362). The
ordinal of a channel in CHANGES is past the tile then. -/
def assembleOne (k : Nat) (s : State) : State :=
  let c := xchan s k
  match s.xch.offers.find? fun o => o.waiting.contains k with
  | some o =>
    let take := fun (s : State) =>
      setXch k (fun c => { c with ordinal := if c.state == .changes then max c.ordinal (o.ord + 1) else c.ordinal })
        { s with xch := { s.xch with offers := s.xch.offers.map fun p =>
          if p.ord = o.ord then { p with waiting := p.waiting.filter (· != k) } else p } }
    match changesRecord k c o (c.pads.headD 0), c.pads with
    | none, _ => take s
    | some (r, changed), _ :: hs => addRecord k r changed (take (setXch k (fun c => { c with pads := hs }) s))
    | some _, [] => s
  | none => s

def assembleAll (s : State) : State :=
  settleOffers ((List.range 4).foldl (fun s k =>
    (List.range 8).foldl (fun s _ => assembleOne k s) s) s)

/-- EXPORT offers a committed tile to the delta channels: to those in CHANGES, but one whose 8 records all wait falls
into LAGGING from this tile on (R357, R362, R363). -/
def exportOffer (o : XOffer) (s : State) : State :=
  let full := fun (k : Nat) => (xchan s k).state == .changes && o.genfmt != 0 && decide (8 ≤ waitingRecords s k)
  let s' := (List.range 4).foldl (fun s k =>
    if full k then countXch 5 1 (setXch k (fun c => { c with state := .lagging, ordinal := o.ord }) s)
    else if (xchan s k).state == .changes && o.genfmt == 0 then
      setXch k (fun c => { c with ordinal := max c.ordinal (o.ord + 1) }) s
    else s) s
  let takers := (List.range 4).filter fun k => (xchan s' k).state == .changes && o.genfmt != 0
  assembleAll { s' with xch := { s'.xch with offers := s'.xch.offers ++ [{ o with waiting := takers }] } }

/-- The pads an export or delta channel asks for now: up to its floor of 8 or 4 (R353, R359). -/
def xchWants (s : State) (k : Nat) : Bool :=
  let c := xchan s k
  if k < 4 then
    c.openStep.isSome && c.state != .faulted && !c.ending &&
      c.pads.length + c.records.length + (if c.reading.isSome then 1 else 0) < 8
  else match c.job with
    | some j => !j.stopping && j.chunks.length < 4 && j.next < j.total
    | none => false

/-! ## The ring (R360) -/

/-- The room rule for a record of n lines (R360). -/
def ringRoom (c : XChan) (n : Nat) : Bool := c.placed - c.consumed + n ≤ 2 ^ c.eff.sizeLog2.toNat

/-- Places the first record that has no place, with a PAD record ahead of it where it would straddle
the ring's end (R360). -/
def placeNext (k : Nat) (c : XChan) : XChan :=
  let size := 2 ^ c.eff.sizeLog2.toNat
  match c.records.findIdx? (·.place.isNone) with
  | some i =>
    let r := c.records.getD i { header := 0, body := [], span := 0 }
    let rest := size - c.placed % size
    if rest < r.span then
      if ringRoom c rest then
        let pad := mkRecord { kind := 5, step := recordStep r, tag := field r.header 64 32, channel := k, lines := 0 } [] none
        let pad := { pad with
          header := recordHeader { kind := 5, step := recordStep r, tag := field r.header 64 32, channel := k, lines := rest }
          span := rest, seq := c.seq, place := some c.placed }
        { c with records := c.records.take i ++ [pad] ++ c.records.drop i, placed := c.placed + rest, seq := c.seq + 1 }
      else c
    else if ringRoom c r.span then
      { c with records := c.records.set i { r with seq := c.seq, place := some c.placed }
               placed := c.placed + r.span, seq := c.seq + 1 }
    else c
  | none => c

/-- A record waits for room in the ring: the credit line is wanted (R360). -/
def creditWanted (c : XChan) : Bool :=
  match c.records.find? (·.place.isNone) with
  | some r =>
    let size := 2 ^ c.eff.sizeLog2.toNat
    let rest := size - c.placed % size
    !ringRoom c (if rest < r.span then rest else r.span)
  | none => false

/-- The placed record with lines still to send. -/
def nextRecord (c : XChan) : Option XRecord := c.records.find? fun r => r.place.isSome && r.sent < recordLines r

/-- The far line of line i of a placed record. -/
def recordFarLine (c : XChan) (r : XRecord) (i : Nat) : BitVec 58 :=
  c.eff.far + BitVec.ofNat 58 ((r.place.getD 0 + i) % 2 ^ c.eff.sizeLog2.toNat)

/-- Acknowledged records leave from the front; WRITTEN advances (R360, R362). A written STEP_END leaves with the event
that ends the step. -/
def settleRecords (k : Nat) : Nat → State → State
  | 0, s => s
  | n + 1, s =>
    match (xchan s k).records with
    | r :: _ =>
      if r.place.isSome && r.acked == recordLines r && !((xchan s k).ending && recordKind r == 3) then
        settleRecords k n (popRecord k r s)
      else s
    | [] => s

/-- A record line is acknowledged, or its write failed (R360, R365). -/
def recordAck (k : Nat) (seq : BitVec 32) (i : Nat) (ok : Bool) (code : BitVec 8) (s : State) : State :=
  let c := xchan s k
  match c.records.find? fun r => r.seq == seq && r.place.isSome with
  | some r =>
    if ok then
      let s := setXch k (fun c => { c with records := c.records.map fun x =>
        if x.seq == seq && x.place.isSome then { x with acked := x.acked + 1 } else x }) s
      lagStart k (assembleAll (settleRecords k c.records.length s))
    else xchFault k code ((recordFarLine c r i).setWidth 56) s
  | none => s

/-- The doorbell line (R360). -/
def doorbellLine (c : XChan) : Line :=
  sealLine (putLine 0 (BitVec.ofNat 64 c.written) ||| putLine 8 c.lastStep ||| putLine 12 c.lastSeq)

/-- The far line of the doorbell, and of the credit line that follows it (R360). -/
def syncLine (c : XChan) (i : Nat) : BitVec 58 := (c.eff.sync ++ (0 : BitVec 1)) + BitVec.ofNat 58 i

/-- A doorbell is due (R360). -/
def doorbellDue (s : State) (c : XChan) : Bool :=
  let n := if c.eff.doorbellLines = 0 then 16 else c.eff.doorbellLines.toNat
  c.bellWaits.isNone && !c.bellOut && c.rung < c.written &&
  (c.bellDue || n ≤ c.written - c.rung || c.rungAt + 480 ≤ now s)

/-- The credit line as read (R360). -/
def creditDone (k : Nat) (data : Option Line) (code : BitVec 8) (s : State) : State :=
  let c := xchan s k
  match data with
  | some l =>
    let v := fieldNat l 0 64
    if c.written < v then xchFault k 0x19 ((syncLine c 1).setWidth 56) s
    else setXch k (fun c => { c with creditOut := false, consumed := v }) s
  | none => if c.creditOut then xchFault k code ((syncLine c 1).setWidth 56) s else s

/-! ## Export channels (R367-R369) -/

/-- The format code of a record for an arena, and the bytes of its element slice and scale slice (R368). -/
def arenaSlice (s : State) (arena : Nat) (r : TensorRec) : Nat × (Nat × Nat) × (Nat × Nat) :=
  let n := r.elems
  match arena with
  | 0 => (2, (masterAddr s r 0, 4 * n), (0, 0))
  | 1 => if r.m1fmt = 0 then (0, (0, 0), (0, 0))
    else (r.m1fmt.toNat, (m1Addr s r 0, if r.m1fmt = 3 then 1088 * ceilDiv n 1024
      else (if r.m1fmt = 2 then 2 else 4) * n), (0, 0))
  | 2 => if r.m2fmt = 0 then (0, (0, 0), (0, 0))
    else (r.m2fmt.toNat, (m2Addr s r 0, if r.m2fmt = 2 then 1088 * ceilDiv n 1024 else 4 * n), (0, 0))
  | 3 => if r.wfmt = 0 then (0, (0, 0), (0, 0))
    else (r.wfmt.toNat, (workAddr s r 0, codeBytes (copyBits r.wfmt) n),
      if copyMx r.wfmt then (workScaleAddr s r 0, ceilDiv n 32) else (0, 0))
  | 4 => if r.genfmt = 0 then (0, (0, 0), (0, 0))
    else (r.genfmt.toNat, (genAddr s r 0, codeBytes (copyBits r.genfmt) n),
      if copyMx r.genfmt then (genScaleAddr s r 0, ceilDiv n 32) else (0, 0))
  | _ => if r.ema then (if r.emaBf16 then 1 else 0, (emaAddr s r 0, (if r.emaBf16 then 2 else 4) * n), (0, 0))
    else (0, (0, 0), (0, 0))

/-- The slices of an export in tensor order from an image offset (R368). -/
def exportSlices (s : State) (arena : Nat) : List Nat → Nat → List XSlice
  | [], _ => []
  | i :: is, off =>
    let r := recOf s i
    let (_, (a, n), (b, m)) := if r.valid then arenaSlice s arena r else (0, (0, 0), (0, 0))
    let ne := ceilDiv n 64
    let nm := ceilDiv m 64
    (if n = 0 then [] else [{ off := off, line := lineOfByte a, bytes := n }]) ++
    (if m = 0 then [] else [{ off := off + ne, line := lineOfByte b, bytes := m }]) ++
    exportSlices s arena is (off + ne + nm)

/-- The directory entries (R368). -/
def exportDir (s : State) (arena : Nat) : List Nat → Nat → List Byte
  | [], _ => []
  | i :: is, off =>
    let r := recOf s i
    let (fmt, (_, n), (_, m)) := if r.valid then arenaSlice s arena r else (0, (0, 0), (0, 0))
    let lines := ceilDiv n 64 + ceilDiv m 64
    leBytes 2 i ++ leBytes 1 fmt ++ [0] ++ leBytes 4 lines ++ leBytes 8 (if lines = 0 then 0 else off) ++
    exportDir s arena is (off + lines)

/-- The image of an export as START finds it (R368). -/
def exportPlan (s : State) (arena first last : Nat) (tag : BitVec 32) : XExport :=
  let ids := (List.range (last - first + 1)).map (first + ·)
  let dirLines := ceilDiv (16 * ids.length) 64
  let slices := exportSlices s arena ids (1 + dirLines)
  let total := slices.foldl (fun m x => max m (x.off + ceilDiv x.bytes 64)) (1 + dirLines)
  let header := sealLine (putLine 0 (0x5849 : BitVec 16) ||| putLine 2 (1 : BitVec 8) |||
    putLine 3 (BitVec.ofNat 8 arena) ||| putLine 4 s.step.step ||| putLine 8 tag |||
    putLine 12 (BitVec.ofNat 16 first) ||| putLine 14 (BitVec.ofNat 16 last) |||
    putLine 16 (BitVec.ofNat 64 total))
  { literal := header :: linesOf dirLines (exportDir s arena ids (1 + dirLines)), slices := slices, total := total }

/-- Line i of an export image: literal, or the slice line to copy with its valid bytes. -/
def exportLine (j : XExport) (i : Nat) : Line ⊕ (BitVec 34 × Nat) :=
  if i < j.literal.length then .inl (j.literal.getD i 0)
  else match j.slices.find? fun x => x.off ≤ i && i < x.off + ceilDiv x.bytes 64 with
    | some x => .inr (x.line + BitVec.ofNat 34 (i - x.off), x.bytes - 64 * (i - x.off))
    | none => .inl 0

/-- A pad takes the next 64 lines of an export; what must be read is asked for with class EXPORT (R367). -/
def startChunk (k : Nat) (h : BitVec 16) (s : State) : State :=
  match (xchan s k).job with
  | some j =>
    let len := min 64 (j.total - j.next)
    let idx := (List.range len).map (j.next + ·)
    let lits := idx.filterMap fun i => match exportLine j i with
      | .inl l => some (i, l)
      | .inr _ => none
    let reads := idx.filterMap fun i => match exportLine j i with
      | .inl _ => none
      | .inr (a, _) => some ({ who := .copy k i, cls := .xport, write := false, line := a } : MemReq)
    enqueueAll reads (setXch k (fun c => { c with
      job := c.job.map fun j => { j with
      next := j.next + len
      chunks := j.chunks ++ [{ first := (idx.headD 0), len := len, handle := h, lines := lits }] } }) s)
  | none => s

/-- Keeps the first n bytes of a line. -/
def keepBytes (n : Nat) (l : Line) : Line := if 64 ≤ n then l else l &&& BitVec.ofNat 512 (2 ^ (8 * n) - 1)

/-- An export's stack read returns (R367, R369). -/
def copyReadDone (k i : Nat) (data : Option Line) (s : State) : State :=
  match (xchan s k).job with
  | some j =>
    match data with
    | some l =>
      let l := match exportLine j i with
        | .inr (_, n) => keepBytes n l
        | .inl l => l
      setXch k (fun c => { c with job := c.job.map fun j => { j with chunks := j.chunks.map fun x =>
        if x.first ≤ i && i < x.first + x.len then { x with lines := (i, l) :: x.lines } else x } }) s
    | none => xchFault k 0x12 0 s
  | none => s

/-- A stopped export with nothing under way returns to IDLE (R369). -/
def settleStopX (k : Nat) (s : State) : State :=
  match (xchan s k).job with
  | some j =>
    if j.stopping && (j.chunks.all fun c => c.sent == c.acked) && !(j.asked && !j.good) then
      endJob k (setXch k (fun c => { c with state := .idle }) s)
    else s
  | none => s

/-- A far write of an export is acknowledged (R369). -/
def copyAck (k i : Nat) (ok : Bool) (code : BitVec 8) (s : State) : State :=
  match (xchan s k).job with
  | some j =>
    if ok then
      match j.chunks.find? fun c => c.first ≤ i && i < c.first + c.len with
      | some c =>
        let c := { c with acked := c.acked + 1 }
        let through := c.acked == c.len
        let s := if through then padFree c.handle (ownerXch k) s else s
        let s := setXch k (fun x => { x with
          ordinal := j.acked + 1
          job := x.job.map fun j => { j with
          acked := j.acked + 1
          lastLine := if i + 1 = j.total then ((c.lines.find? (·.1 == i)).map (·.2)).getD 0 else j.lastLine
          chunks := if through then j.chunks.filter (·.first != c.first)
            else j.chunks.map fun y => if y.first = c.first then c else y } }) s
        settleStopX k (countXch 7 1 s)
      | none => s
    else xchFault k code (((xchan s k).eff.far + BitVec.ofNat 58 i).setWidth 56) s
  | none => s

/-- The export's read-back (R327, R369). A stopped export ends with it whatever it shows. -/
def copyBackDone (k : Nat) (data : Option Line) (code : BitVec 8) (s : State) : State :=
  match (xchan s k).job with
  | some j =>
    let line := ((xchan s k).eff.far + BitVec.ofNat 58 (j.total - 1)).setWidth 56
    let back := fun (g : XExport → XExport) => setXch k (fun c => { c with job := c.job.map g }) s
    match data with
    | some l =>
      if j.stopping then settleStopX k (back fun j => { j with asked := false })
      else if l = j.lastLine then back fun j => { j with good := true }
      else if 2 ≤ j.readbacks then xchFault k 0x13 line s
      else back fun j => { j with asked := false }
    | none => xchFault k code line s
  | none => s

/-! ## Control writes (R367, R369, R370, R371) -/

def setXErr (k : Nat) (e : BitVec 8) (s : State) : State := setXch k (fun c => { c with err := e }) s

/-- An export may start in this PHASE (R367). -/
def exportPhase (p : Phase) : Bool :=
  p == .idle || p == .observe || p == .sealed || p == .normPass || p == .awaitVerdict

/-- START (R367, R371): the conditions in the order the rule lists them. -/
def xchStart (k : Nat) (tag : BitVec 32) (s : State) : State :=
  let c := xchan s k
  if k < 4 then setXErr k 5 s
  else if !exportPhase s.step.phase || s.aux.running then setXErr k 4 s
  else if c.state != .idle && c.state != .faulted then setXErr k 1 s
  else if c.last < c.first || 5 < c.eff.arena ||
      !((List.range (c.last.toNat - c.first.toNat + 1)).any fun i => (recOf s (c.first.toNat + i)).valid) then
    setXErr k 3 s
  else setXch k (fun c => { c with
    state := .running, err := 0, ordinal := 0, faultCode := 0, faultLine := 0
    job := some (exportPlan s c.eff.arena.toNat c.first.toNat c.last.toNat tag) }) s

/-- STOP (R369). -/
def xchStop (k : Nat) (s : State) : State :=
  let c := xchan s k
  if k < 4 then setXErr k 5 s
  else if c.state != .running then setXErr k 1 s
  else settleStopX k (setXch k (fun c => { c with err := 0, job := c.job.map fun j => { j with stopping := true } }) s)

/-- REBASE (R356, R371, R373). -/
def xchRebase (k : Nat) (s : State) : State :=
  let c := xchan s k
  if 4 ≤ k then setXErr k 5 s
  else if c.state == .disabled then setXErr k 1 s
  else
    let open' := c.openStep.isSome
    let s := leaveOffers k (stepCancel k c.ordinal false s)
    setXch k (fun c => { c with
      err := 0, baseValid := false
      noBase := c.noBase || open'
      state := if c.state == .faulted then .idle
        else if open' && (c.state == .changes || c.state == .lagging) then .lagging else c.state }) s

/-- XCHk_CTL takes one action per write (R371). -/
def writeXchCtl (k : Nat) (w : Word) (s : State) : State :=
  let a := field w 0 3
  let tag := (s.image.active.map fun i => field i.digest 0 32).getD 0
  if a = 0 then s
  else if 1 < popCount a then setXErr k 2 s
  else if a = 1 then xchStart k tag s
  else if a = 2 then xchStop k s
  else xchRebase k s

def firstXch (p : Nat → Bool) : Option Nat := (List.range 8).find? p

/-- The checks of R370 in the order of R567. -/
def xchCheck (s : State) (cs : List XCfg) : BitVec 8 × BitVec 3 :=
  match s.image.active with
  | none => (0x07, 0)
  | some im =>
    let cf := fun k => cs.getD k {}
    match firstXch fun k => k < 4 && fieldNat (cf k).far 0 6 != 0 with
    | some k => (0x01, BitVec.ofNat 3 k)
    | none =>
      match firstXch fun k => k < 4 && (cf k).enable && im.limits.deltaChannels.toNat ≤ k with
      | some k => (0x02, BitVec.ofNat 3 k)
      | none =>
        if s.pond.floorStream.toNat < streamFloors (s.strm.chans.map (·.eff)) cs then (0x04, 0)
        else match firstXch fun k => cf k != (xchan s k).eff &&
            !((xchan s k).state == .idle || (xchan s k).state == .disabled) with
          | some k => (0x05, BitVec.ofNat 3 k)
          | none =>
            match firstXch fun k => k < 4 && (cf k).enable && ((cf k).sizeLog2 < 6 || 24 < (cf k).sizeLog2) with
            | some k => (0x06, BitVec.ofNat 3 k)
            | none =>
              match firstXch fun k => 4 ≤ k && (cf k).enable && 5 < (cf k).arena with
              | some k => (0x08, BitVec.ofNat 3 k)
              | none => (0, 0)

/-- A write of XCH_COMMIT.COMMIT (R370, R529). -/
def writeXchCommit (w : Word) (s : State) : State :=
  if !w.getLsbD 0 then s
  else if s.image.active.isNone then { s with xch := { s.xch with err := 0x07, errCh := 0 } }
  else if s.xch.pending.isSome then { s with xch := { s.xch with err := 0x03, errCh := 0 } }
  else
    let cs := s.xch.chans.map (·.stage)
    let (e, ch) := xchCheck s cs
    let s := { s with xch := { s.xch with err := e, errCh := ch } }
    if e = 0 then { s with xch := { s.xch with pending := some (cs, nextBoundary (now s) 64) } } else s

/-- A channel takes its new configuration; an enable starts its counts afresh (R356, R358, R360). -/
def applyXch (c : XChan) (f : XCfg) : XChan :=
  if f = c.eff then c
  else if f.enable && !c.eff.enable then
    { c with eff := f, state := .idle, baseValid := false, seq := 0, placed := 0, written := 0, consumed := 0,
             rung := 0, records := [], ordinal := 0, bellDue := false, creditAt := none }
  else { c with eff := f, state := if f.enable then c.state else .disabled }

/-- What an enable finds of the channel's time before: pads, records, and far transfers that nobody awaits now. -/
def leaveXch (k : Nat) (f : XCfg) (s : State) : State :=
  let c := xchan s k
  if !f.enable || c.eff.enable then s
  else
    let mine (w : Who) : Bool := match w with
      | .record c _ _ | .doorbell c | .credit c => c == k
      | _ => false
    let s := padFreeAll (c.records.filterMap (·.handle)) (ownerXch k) (dropPads k s)
    setXch k (fun c => { c with
      records := [], bellWaits := none, bellOut := false, creditWaits := false, creditOut := false }) (forgetFar mine s)

/-- The boundary of a pending XCH_COMMIT (R530, R531). -/
def applyXchSet (s : State) : State :=
  match s.xch.pending with
  | some (cs, b) =>
    if now s < b then s
    else
      let s := { s with xch := { s.xch with pending := none } }
      let (e, ch) := xchCheck s cs
      if e = 0 then
        let s := (List.range 8).foldl (fun s k => leaveXch k (cs.getD k {}) s) s
        { s with xch := { s.xch with chans := (List.range 8).map fun k => applyXch (xchan s k) (cs.getD k {}) } }
      else { s with xch := { s.xch with err := e, errCh := ch } }
  | none => s

/-! ## The meanings -/

/-- The address of a channel register (R371). -/
def xchAddr (k : BitVec 3) (off : Nat) : Addr24 := BitVec.ofNat 24 (0x061000 + 0x40 * k.toNat + off)

/-- XCH_COMMIT (R370). -/
def execXchCommit (w : Word) (s : State) : Out := .next (ctlWrite 0x060000 w (writeXchCommit w) s)

/-- XCH_START (R367). -/
def execXchStart (k : BitVec 3) (w : Word) (s : State) : Out :=
  .next (ctlWrite (xchAddr k 0x20) w (writeXchCtl k.toNat w) s)

/-- XCH_STOP (R369). -/
def execXchStop (k : BitVec 3) (w : Word) (s : State) : Out :=
  .next (ctlWrite (xchAddr k 0x20) w (writeXchCtl k.toNat w) s)

/-- REBASE (R356). -/
def execRebase (k : BitVec 3) (w : Word) (s : State) : Out :=
  .next (ctlWrite (xchAddr k 0x20) w (writeXchCtl k.toNat w) s)

/-- EXPORT_DONE (R369). -/
def execExportDone (k : BitVec 3) (s : State) : Out :=
  .next (match (xchan s k.toNat).job with
    | some j =>
      if ready s && j.good then
        pulse (BitVec.ofNat 6 (48 + k.toNat))
          (endJob k.toNat (setXch k.toNat (fun c => { c with state := .idle, ordinal := j.acked }) s))
      else s
    | none => s)

/-- DELTA_STEP_END (R363). -/
def execDeltaStepEnd (k : BitVec 3) (s : State) : Out :=
  .next (if working s && deltaDone s k.toNat then stepEnd k.toNat s else s)

/-- DOORBELL_WRITE (R360). -/
def execDoorbellWrite (k : BitVec 3) (s : State) : Out :=
  .next (if working s && doorbellDue s (xchan s k.toNat) then
      setXch k.toNat (fun c => { c with
        bellWaits := some (doorbellLine c), rung := c.written, rungAt := now s, bellDue := false }) s
    else s)

/-- CREDIT_READ (R360). -/
def execCreditRead (k : BitVec 3) (s : State) : Out :=
  let c := xchan s k.toNat
  let rested := match c.creditAt with
    | some t => t + 240 ≤ now s
    | none => true
  .next (if working s && k.toNat < 4 && creditWanted c && !c.creditOut && !c.creditWaits && rested then
      setXch k.toNat (fun c => { c with creditWaits := true, creditAt := some (now s) }) s
    else s)

end Sys2Proof.Machine
end

