-- ==== Sys2Proof/Machine/LinkOps.lean ====
section
/-! DEFINITION. The Xedar links and the fabric message port as senders use them: frames, the ring and
its routes, messages between packages (R396-R427). -/
namespace Sys2Proof.Machine

/-! ## The hierarchy plan (R216, R258) -/

def planOf (s : State) : Option HierInst := (s.image.active.bind (·.hier)).map (·.2)
def jobOf (s : State) : Option HierJob := (s.image.active.bind (·.hier)).map (·.1)
def ringSize (s : State) : Nat := ((planOf s).map (·.ringSize.toNat)).getD 0
def ringPos (s : State) : Nat := ((planOf s).map (·.ringPos.toNat)).getD 0
def managerPos (s : State) : Nat := ((planOf s).map (·.managerPos.toNat)).getD 0
def contribOf (s : State) : BitVec 16 := ((planOf s).map (·.contrib)).getD 0
/-- MEMB_STATUS.ROLE: 0 WORKER, 1 MANAGER, 2 NODE, 3 ROOT (R258). -/
def roleOf (s : State) : Nat := ((planOf s).map (·.role.toNat)).getD 0
/-- This instance is the manager of its ring: every role but WORKER (R259). -/
def isManager (s : State) : Bool := (planOf s).isSome && roleOf s != 0

/-- ACTIVE_TAG: the first four bytes of the digest (R263). -/
def activeTag (s : State) : BitVec 32 := (s.image.active.map fun i => field i.digest 0 32).getD 0

/-- The plan expects a neighbour on a side (R258, R397). -/
def expected (s : State) (d : Side) : Bool :=
  ((planOf s).map fun p => p.neighbours.getLsbD (match d with
    | .east => 0
    | .west => 1)).getD false

/-! ## Segments and routes (R411, R412) -/

def LPhase.up : LPhase → Bool
  | .run | .verdict | .sleep => true
  | _ => false

/-- A segment is up while its link is in RUN, VERDICT or SLEEP in both directions (R411). -/
def linkUp (l : LinkEnd) : Bool := l.txPhase.up && l.rxPhase.up

/-- The number of the segment on a side of ring position p (R411). -/
def segOf (n p : Nat) : Side → Nat
  | .east => p
  | .west => (p + n - 1) % (max n 1)

/-- The segments on the way from p to m going east, and going west. -/
def eastPath (n p m : Nat) : List Nat := (List.range ((m + n - p) % max n 1)).map fun i => (p + i) % n
def westPath (n p m : Nat) : List Nat := (List.range ((p + n - m) % max n 1)).map fun i => (p + 2 * n - 1 - i) % n

/-- The direction of messages to a position, and the hops (R412): fewer hops when both are up, east on a tie. -/
def routeTo (s : State) (m : Nat) : Option (Side × Nat) :=
  let n := ringSize s
  let p := ringPos s
  let e := eastPath n p m
  let w := westPath n p m
  let up := fun (g : List Nat) => g.all fun i => s.ring.segUp.getLsbD i
  if up e && (!up w || e.length ≤ w.length) then some (.east, e.length)
  else if up w then some (.west, w.length) else none

/-- Manager only: every position of RING_MEMBERS can be reached (R414, R426). -/
def reachAll (s : State) : Bool :=
  isManager s && (List.range (ringSize s)).all fun m => (routeTo s m).isSome

/-! ## Sending on the ring (R400, R406, R412) -/

/-- MAGIC of a payload (R400). -/
def magicOf (m : Line) : BitVec 16 := field m 0 16
def magicHier : BitVec 16 := 0x4D48
def magicVerdict : BitVec 16 := 0x5644
def magicLinkState : BitVec 16 := 0x4C53
def magicTest : BitVec 16 := 0x5445
def magicIdent : BitVec 16 := 0x4944

/-- A wake of a sleeping link (R418). It sends no TRAIN marker, so that the phases stay SLEEP until the RUN
marker (R401). DEDUCED. -/
def linkWake (d : Side) (s : State) : State :=
  setLink d (fun l =>
    if l.txPhase == .sleep && l.train.isNone then
      { l with sleepSent := false, sleepGot := false
               train := some { step := .clock, since := now s, wake := true, retrain := true } }
    else l) s

/-- A frame of this instance joins its link's queue (R406); a link that cannot carry it keeps nothing. -/
def sendOn (d : Side) (vc : BitVec 2) (payload : Line) (dest : Nat) (bcast : Bool) (s : State) : State :=
  let l := link s d
  if l.txPhase == .off || l.txPhase == .down then s
  else if l.txPhase == .quarantine && magicOf payload != magicLinkState && magicOf payload != magicTest then s
  else
    linkWake d (setLink d (fun l => { l with own := l.own ++
      [{ vc := vc, payload := payload, dest := BitVec.ofNat 4 dest, src := BitVec.ofNat 4 (ringPos s)
         bcast := bcast }] }) s)

/-- A broadcast goes out in both directions (R412). -/
def broadcast (vc : BitVec 2) (payload : Line) (s : State) : State :=
  if ringSize s ≤ 1 then s
  else sendOn .west vc payload (ringPos s) true (sendOn .east vc payload (ringPos s) true s)

/-- A message arrives at this instance and waits to be taken. -/
def deliver (src : Source) (vc : BitVec 2) (m : Line) (s : State) : State :=
  { s with hier := { s.hier with inbox := s.hier.inbox ++ [{ src := src, vc := vc, m := m }] } }

/-- A message to the ring's manager; to itself if this instance is the manager (R412). -/
def sendToManager (vc : BitVec 2) (m : Line) (s : State) : State :=
  if isManager s then deliver .self vc m s
  else match routeTo s (managerPos s) with
    | some (d, _) => sendOn d vc m (managerPos s) false s
    | none => s

/-! ## The fabric message port (R420, R421) -/

/-- The envelope of a message, with its CHECK (R420). -/
def envelope (dest src : BitVec 32) (session seq : BitVec 16) (kind tries : BitVec 8) : BitVec 128 :=
  let e : BitVec 112 := tries ++ kind ++ seq ++ session ++ src ++ dest
  crc16 e 14 ++ e

def fmpTransmit (m : FmpMsg) (s : State) : State :=
  { s with fmp := { s.fmp with
      lastTx := some (envelope m.dest s.fmp.self s.fmp.session m.seq 1 m.tries, some m.payload) } }

/-- The next SEQ toward a destination (R420). -/
def fmpSeq (s : State) (dest : BitVec 32) : BitVec 16 :=
  ((s.fmp.seqs.find? (·.1 == dest)).map (·.2)).getD 0

/-- Sends what the window of four unacknowledged messages allows, oldest first (R421). -/
def fmpDrain : Nat → State → State
  | 0, s => s
  | n + 1, s =>
    match s.fmp.queue.find? fun q => (s.fmp.out.countP fun o => o.dest == q.1) < 4 with
    | some (dest, payload) =>
      let seq := fmpSeq s dest
      let m : FmpMsg := { dest := dest, seq := seq, payload := payload, sentAt := now s }
      let s := { s with fmp := { s.fmp with
        queue := s.fmp.queue.erase (dest, payload), out := s.fmp.out ++ [m]
        seqs := (dest, seq + 1) :: s.fmp.seqs.filter (·.1 != dest) } }
      fmpDrain n (countFmp 0 1 (fmpTransmit m s))
    | none => s

/-- A message to another package (R420, R421). -/
def fmpSend (dest : BitVec 32) (payload : Line) (s : State) : State :=
  fmpDrain (s.fmp.queue.length + 1) { s with fmp := { s.fmp with queue := s.fmp.queue ++ [(dest, payload)] } }

/-- To the tree parent, and to every child (R216, R228). -/
def sendToParent (m : Line) (s : State) : State :=
  match planOf s with
  | some p => fmpSend p.parent m s
  | none => s
def sendToChildren (m : Line) (s : State) : State :=
  match planOf s with
  | some p => p.children.foldl (fun s c => fmpSend c.2 m s) s
  | none => s

/-! ## Flash codes (R415, R416) -/

/-- A code is driven on, or due for, the transmit side of a link (R415, R416). -/
def flashSend (d : Side) (f : Flash) (s : State) : State :=
  let l := link s d
  match l.txPhase with
  | .verdict => countLink d 6 1 (setLink d (fun l => { l with flashOut := f, runDue := false }) s)
  | .run => countLink d 6 1 (setLink d (fun l => { l with txPhase := .verdict, lastMarker := 0x66, flashOut := f }) s)
  | .sleep => linkWake d (setLink d (fun l => { l with flashDue := some f }) s)
  | _ => s

/-- The seal: each transmit direction in RUN enters VERDICT at HOLD; one about to leave VERDICT stays (R415, R416). -/
def linksSeal (s : State) : State :=
  [Side.east, Side.west].foldl (fun s d => setLink d (fun l =>
    if l.txPhase == .run then { l with txPhase := .verdict, lastMarker := 0x66, flashOut := .hold }
    else if l.txPhase == .verdict && l.runDue then { l with flashOut := .hold, runDue := false } else l) s) s

/-- The record is applied or rejected, or PHASE has left: transmit directions are to return to RUN, but one whose last
code was ABORT only when the step's ABORT has been applied (R416). What the direction drives stays for the rest of the
port cycle, so that the far side can qualify it (R415; log 92). -/
def linksRun (aborted : Bool) (s : State) : State :=
  [Side.east, Side.west].foldl (fun s d => setLink d (fun l =>
    if l.txPhase == .verdict && (aborted || l.flashOut != .abort) then { l with runDue := true } else l) s) s

/-- The port cycle ends: directions that are to return to RUN do so, with its marker (R416). -/
def linksReturn (s : State) : State :=
  [Side.east, Side.west].foldl (fun s d => setLink d (fun l =>
    if l.txPhase == .verdict && l.runDue then
      { l with txPhase := .run, lastMarker := 0x5A, flashOut := .hold, runDue := false } else l) s) s

/-- GSTATUS.BOOT moves only forward (R474). -/
def bootTo (code : BitVec 4) (s : State) : State :=
  if s.boot.code < code && s.boot.code != 0xF then { s with boot := { s.boot with code := code } } else s

end Sys2Proof.Machine
end

