-- ==== Sys2Proof/Machine/Formats.lean ====
section
/-! DEFINITION. Number formats and rounding (R46-R77): the exact values behind the codes, the one
rounding of each result, and the encoders and decoders of every format a sweep may meet. -/
namespace Sys2Proof.Machine

/-- What a floating-point code stands for: a NaN, an infinity, or `(-1)^neg * m * 2^e`. -/
inductive Fp where
  | nan
  | inf (neg : Bool)
  | fin (neg : Bool) (m : Nat) (e : Int)
  deriving DecidableEq, Repr

/-- The place of the highest one bit; 0 for 0. -/
def topBit (m : Nat) : Nat := Nat.log2 m

/-- `m / 2^sh` rounded to nearest, ties to even (R50, R54). -/
def roundRne (m sh : Nat) : Nat :=
  let q := m >>> sh
  let r := m % 2 ^ sh
  if 2 * r > 2 ^ sh ∨ (2 * r = 2 ^ sh ∧ q % 2 = 1) then q + 1 else q

/-- `m / 2^sh` rounded stochastically: F is the first 16 fraction bits (R55). -/
def roundSr (m sh rnd : Nat) : Nat :=
  let q := m >>> sh
  let f := (m % 2 ^ sh) * 65536 / 2 ^ sh
  if f + rnd ≥ 65536 then q + 1 else q

/-- The rounding a conversion uses: to nearest even, or stochastic with its 16 random bits (R54-R56). -/
inductive Rounding where
  | rne
  | sr (rnd : BitVec 16)
  deriving DecidableEq, Repr

/-- `m * 2^-sh` (or `m * 2^n` for `sh = -n`) as a whole number under a rounding. -/
def roundShift (mode : Rounding) (m : Nat) (sh : Int) : Nat :=
  if sh ≤ 0 then m <<< sh.natAbs
  else match mode with
    | .rne => roundRne m sh.toNat
    | .sr rnd => roundSr m sh.toNat rnd.toNat

/-- The magnitude code of `m * 2^e` in a format of `mbits` mantissa bits and a bias, before any
overflow rule: encode_float (R61). A carry into the next binade carries into the exponent field. -/
def encodeMag (mbits : Nat) (bias : Int) (mode : Rounding) (m : Nat) (e : Int) : Nat :=
  if m = 0 then 0
  else
    let ex := max ((topBit m : Int) + e) (1 - bias)
    let n := roundShift mode m (ex - mbits - e)
    if n < 2 ^ mbits then n else (ex + bias).toNat * 2 ^ mbits + (n - 2 ^ mbits)

/-- Round `(-1)^neg * m * 2^e` once to nearest even into an IEEE format of `mb` mantissa and `eb`
exponent bits, overflowing to infinity (R50, R62). -/
def roundIeee (mb eb : Nat) (mode : Rounding) (neg : Bool) (m : Nat) (e : Int) : Nat :=
  let mag := encodeMag mb (2 ^ (eb - 1) - 1) mode m e
  let infMag := (2 ^ eb - 1) * 2 ^ mb
  (if neg then 2 ^ (mb + eb) else 0) + (if mag ≥ infMag then infMag else mag)

/-- The value of a code of an IEEE format (R61). -/
def unpackIeee (mb eb : Nat) (bits : Nat) : Fp :=
  let neg := bits / 2 ^ (mb + eb) % 2 = 1
  let ex := bits / 2 ^ mb % 2 ^ eb
  let f := bits % 2 ^ mb
  let bias : Int := 2 ^ (eb - 1) - 1
  if ex = 2 ^ eb - 1 then (if f = 0 then .inf neg else .nan)
  else if ex = 0 then .fin neg f (1 - bias - mb)
  else .fin neg (f + 2 ^ mb) (ex - bias - mb)

/-! ### FP32 (R50-R53) -/

abbrev F32 := BitVec 32

/-- The canonical quiet NaN (R52). -/
def f32NaN : F32 := 0x7FC00000#32

def f32Val (x : F32) : Fp := unpackIeee 23 8 x.toNat

/-- The FP32 value of an exact result, rounded once (R50); a NaN is the canonical one (R52). -/
def f32Of : Fp → F32
  | .nan => f32NaN
  | .inf neg => if neg then 0xFF800000#32 else 0x7F800000#32
  | .fin neg m e => BitVec.ofNat 32 (roundIeee 23 8 .rne neg m e)

def f32Neg (x : F32) : Bool := x.msb

def f32IsNaN (x : F32) : Bool := f32Val x == .nan

/-- An infinity or a NaN (R77). -/
def f32NonFinite (x : F32) : Bool := (x.toNat / 2 ^ 23) % 256 == 255

def f32IsZero (x : F32) : Bool := x.toNat % 2 ^ 31 == 0

def f32IsSubnormal (x : F32) : Bool := x.toNat / 2 ^ 23 % 256 == 0 && x.toNat % 2 ^ 23 != 0

/-- FTZ: a subnormal is read, or replaced, as a zero of its sign (R51). -/
def f32Flush (ftz : Bool) (x : F32) : F32 :=
  if ftz && f32IsSubnormal x then x &&& 0x80000000#32 else x

/-- A signed mantissa at a common exponent, for exact addition. -/
def scaled (neg : Bool) (m : Nat) (e low : Int) : Int :=
  let v : Int := (m <<< (e - low).toNat : Nat)
  if neg then -v else v

/-- The exact sum of two values; a zero sum of opposite signs is +0 (R53). -/
def fpAdd : Fp → Fp → Fp
  | .nan, _ => .nan
  | _, .nan => .nan
  | .inf a, .inf b => if a = b then .inf a else .nan
  | .inf a, .fin .. => .inf a
  | .fin .., .inf b => .inf b
  | .fin na ma ea, .fin nb mb eb =>
    if ma = 0 ∧ mb = 0 then .fin (na && nb) 0 0
    else
      let low := min ea eb
      let s := scaled na ma ea low + scaled nb mb eb low
      if s = 0 then .fin false 0 0 else .fin (s < 0) s.natAbs low

/-- The exact product of two values. -/
def fpMul : Fp → Fp → Fp
  | .nan, _ => .nan
  | _, .nan => .nan
  | .inf a, .inf b => .inf (a != b)
  | .inf a, .fin nb mb _ => if mb = 0 then .nan else .inf (a != nb)
  | .fin na ma _, .inf b => if ma = 0 then .nan else .inf (na != b)
  | .fin na ma ea, .fin nb mb eb => .fin (na != nb) (ma * mb) (ea + eb)

/-- A fused multiply-add on exact values: the product is exact, the sum is rounded by the caller (R50). -/
def fpFma (a b c : Fp) : Fp := fpAdd (fpMul a b) c

/-- FP32 fused multiply-add, rounded once (R50). -/
def f32Fma (a b c : F32) : F32 := f32Of (fpFma (f32Val a) (f32Val b) (f32Val c))

/-- Addition is the fused multiply-add with b = 1.0 (R50). -/
def f32Add (a c : F32) : F32 := f32Fma a 0x3F800000#32 c

/-- Multiplication is the fused multiply-add with c = -0.0 (R50). -/
def f32Mul (a b : F32) : F32 := f32Fma a b 0x80000000#32

/-- An order key that puts every non-NaN FP32 in IEEE order, with -0 below +0. -/
def f32Key (x : F32) : Int :=
  if x.msb then -((x.toNat % 2 ^ 31 : Nat) : Int) - 1 else (x.toNat : Int)

/-- minimum and maximum of IEEE 754-2019 (R53). -/
def f32Min (a b : F32) : F32 :=
  if f32IsNaN a || f32IsNaN b then f32NaN else if f32Key a ≤ f32Key b then a else b

def f32Max (a b : F32) : F32 :=
  if f32IsNaN a || f32IsNaN b then f32NaN else if f32Key a ≤ f32Key b then b else a

def f32Abs (x : F32) : F32 := x &&& 0x7FFFFFFF#32

/-- sign: +1.0 or -1.0 of a non-zero, non-NaN operand; a zero or NaN unchanged (R53). -/
def f32Sign (x : F32) : F32 :=
  if f32IsNaN x || f32IsZero x then x else if x.msb then 0xBF800000#32 else 0x3F800000#32

/-- Ordered less-than; false with a NaN, and -0 equals +0 (R53). -/
def f32Lt (a b : F32) : Bool :=
  !(f32IsNaN a || f32IsNaN b) && !(f32IsZero a && f32IsZero b) && f32Key a < f32Key b

def f32Eq (a b : F32) : Bool :=
  !(f32IsNaN a || f32IsNaN b) && ((f32IsZero a && f32IsZero b) || a == b)

/-! ### FP64, for the trees and the accumulators (R93, R94) -/

abbrev F64 := BitVec 64

def f64Val (x : F64) : Fp := unpackIeee 52 11 x.toNat

def f64Of : Fp → F64
  | .nan => 0x7FF8000000000000#64
  | .inf neg => if neg then 0xFFF0000000000000#64 else 0x7FF0000000000000#64
  | .fin neg m e => BitVec.ofNat 64 (roundIeee 52 11 .rne neg m e)

def f64Add (a b : F64) : F64 := f64Of (fpAdd (f64Val a) (f64Val b))
def f64Mul (a b : F64) : F64 := f64Of (fpMul (f64Val a) (f64Val b))

/-- FP32 to FP64, exact. -/
def f64OfF32 (x : F32) : F64 := f64Of (f32Val x)

/-- FP64 to FP32, rounded once. -/
def f32OfF64 (x : F64) : F32 := f32Of (f64Val x)

/-! ### The element formats (R61-R64) -/

/-- The formats of arrays of plain elements. -/
inductive ElemFmt where
  | fp32 | bf16 | fp16 | e5m2 | e4m3 | e3m2 | e2m3 | e2m1
  deriving DecidableEq, Repr

/-- (mantissa bits, bias, exponent bits) of a format (R61). -/
def ElemFmt.shape : ElemFmt → Nat × Nat × Nat
  | .fp32 => (23, 127, 8)
  | .bf16 => (7, 127, 8)
  | .fp16 => (10, 15, 5)
  | .e5m2 => (2, 15, 5)
  | .e4m3 => (3, 7, 4)
  | .e3m2 => (2, 3, 3)
  | .e2m3 => (3, 1, 2)
  | .e2m1 => (1, 1, 2)

/-- Bits per element. -/
def ElemFmt.bits (f : ElemFmt) : Nat := 1 + f.shape.1 + f.shape.2.2

/-- Magnitude code of the largest finite value of a saturating format (R61, R63). -/
def ElemFmt.maxMag : ElemFmt → Nat
  | .fp32 => 0x7F7FFFFF
  | .bf16 => 0x7F7F
  | .fp16 => 0x7BFF
  | .e5m2 => 0x7B
  | .e4m3 => 0x7E
  | .e3m2 => 0x1F
  | .e2m3 => 0x1F
  | .e2m1 => 0x7

/-- The result of encoding one value: its code, whether it saturated (R63), whether it became an
infinity (R62). -/
structure Encoded where
  code : Nat
  sat : Bool := false
  nonFinite : Bool := false
  deriving DecidableEq, Repr

/-- Encode an exact finite value (R61-R63). -/
def encodeFin (f : ElemFmt) (mode : Rounding) (neg : Bool) (m : Nat) (e : Int) : Encoded :=
  let mag := encodeMag f.shape.1 f.shape.2.1 mode m e
  let s := if neg then 2 ^ (f.bits - 1) else 0
  match f with
  | .fp32 | .bf16 | .fp16 =>
    if mag > f.maxMag then { code := s + f.maxMag + 1, nonFinite := true } else { code := s + mag }
  | _ => if mag > f.maxMag then { code := s + f.maxMag, sat := true } else { code := s + mag }

/-- Encode an FP32 value; an infinity or a NaN among COMMIT's values is a non-finite result (R77). -/
def encodeF32 (f : ElemFmt) (mode : Rounding) (x : F32) : Encoded :=
  match f, f32Val x with
  | .fp32, v => { code := x.toNat, nonFinite := match v with | .fin .. => false | _ => true }
  | _, .fin neg m e => encodeFin f mode neg m e
  | _, _ => { code := 0, nonFinite := true }

/-- The exact value of a narrow code, and for codes that are special the FP32 they decode to (R64). -/
def decodeElem (f : ElemFmt) (code : Nat) : F32 :=
  let c := code % 2 ^ f.bits
  match f with
  | .fp32 => BitVec.ofNat 32 c
  | .bf16 => BitVec.ofNat 32 (c * 65536)
  | _ =>
    let mb := f.shape.1
    let bias : Int := f.shape.2.1
    let eb := f.shape.2.2
    let neg := decide (c / 2 ^ (f.bits - 1) = 1)
    let ex := c / 2 ^ mb % 2 ^ eb
    let fr := c % 2 ^ mb
    let nan : F32 := if neg then 0xFFC00000#32 else 0x7FC00000#32
    let special := match f with
      | .fp16 | .e5m2 => decide (ex = 2 ^ eb - 1)
      | .e4m3 => decide (ex = 15 ∧ fr = 7)
      | _ => false
    if special then
      (if fr = 0 then f32Of (.inf neg) else nan)
    else if ex = 0 then f32Of (.fin neg fr (1 - bias - mb))
    else f32Of (.fin neg (fr + 2 ^ mb) (ex - bias - mb))

/-- A gradient element as FETCH, the tongue and the norm pass read it: FP16 is unscaled by the loss
scale 2^k, E5M2 is multiplied by the tensor's scale (R58-R60). -/
def decodeGrad (f : ElemFmt) (k : Nat) (scale : F32) (code : Nat) : F32 :=
  let x := decodeElem f code
  match f with
  | .fp16 =>
    match f32Val x with
    | .fin neg m e => f32Of (.fin neg m (e - k))
    | _ => x
  | .e5m2 =>
    match f32Val x with
    | .nan => x
    | .inf _ => x
    | .fin .. => f32Mul x scale
  | _ => x

/-! ### Microscaling (R65-R68) -/

/-- The element formats of a microscaling copy (R65). -/
inductive MxElem where
  | flt (f : ElemFmt)
  | int8
  deriving DecidableEq, Repr

def MxElem.bits : MxElem → Nat
  | .flt f => f.bits
  | .int8 => 8

/-- emax of the element format (R65). -/
def MxElem.emax : MxElem → Int
  | .flt .e4m3 => 8
  | .flt .e5m2 => 15
  | .flt .e3m2 => 4
  | .flt .e2m3 => 2
  | .flt .e2m1 => 2
  | _ => 0

/-- (mantissa, exponent) of a finite FP32 magnitude; (0, 0) otherwise. -/
def f32Mag (x : F32) : Nat × Int :=
  match f32Val x with
  | .fin _ m e => (m, e)
  | _ => (0, 0)

/-- Exponent of a non-zero FP32 magnitude, subnormals normalised. -/
def f32Exp (x : F32) : Int := (topBit (f32Mag x).1 : Int) + (f32Mag x).2

/-- The value of largest magnitude of a list; +0 of the empty one. -/
def maxMag (xs : List F32) : F32 :=
  xs.foldl (fun a x => if (f32Abs x).toNat > a.toNat then f32Abs x else a) 0

/-- The block scale exponent X (R66). -/
def mxScale (el : MxElem) (xs : List F32) : Int :=
  let m := maxMag xs
  if f32IsZero m then -127 else max (-127) (min 127 (f32Exp m - el.emax))

/-- One element of a block with scale exponent X (R67). -/
def mxEncodeElem (el : MxElem) (x : Int) (mode : Rounding) (v : F32) : Encoded :=
  match f32Val v with
  | .fin neg m e =>
    match el with
    | .flt f => encodeFin f mode neg m (e - x)
    | .int8 =>
      let n := roundShift mode m (x - 6 - e)
      let c := if n > 127 then 127 else n
      { code := if neg then (256 - c) % 256 else c, sat := n > 127 }
  | _ => { code := 0, nonFinite := true }

/-- A block of up to 32 values: the scale byte and the elements (R66, R67). -/
def mxEncode (el : MxElem) (vs : List (F32 × Rounding)) : Nat × List Encoded :=
  let x := mxScale el (vs.map (·.1))
  ((x + 127).toNat, vs.map fun (v, r) => mxEncodeElem el x r v)

/-- A microscaling element as FP32 (R68). -/
def mxDecode (el : MxElem) (scale code : Nat) : F32 :=
  if scale = 255 then f32NaN
  else
    let x : Int := (scale : Int) - 127
    match el with
    | .flt f =>
      match f32Val (decodeElem f code) with
      | .fin neg m e => f32Of (.fin neg m (e + x))
      | _ => decodeElem f code
    | .int8 =>
      let c := code % 256
      if c < 128 then f32Of (.fin false c (x - 6)) else f32Of (.fin true (256 - c) (x - 6))

/-! ### KM8S and KM8L (R69-R75) -/

/-- A block header (R69). -/
structure Km8Header where
  exp : BitVec 8 := 0
  tag : BitVec 4 := 0
  z : Bool := false
  sat : Bool := false
  rpr : Bool := false
  sr : Bool := false
  deriving DecidableEq, Repr

/-- The 16 bits of a header (R69). -/
def Km8Header.bits (h : Km8Header) : Nat :=
  h.exp.toNat * 256 + h.tag.toNat * 16 + h.z.toNat * 8 + h.sat.toNat * 4 + h.rpr.toNat * 2 + h.sr.toNat

def Km8Header.ofBits (n : Nat) : Km8Header :=
  { exp := BitVec.ofNat 8 (n / 256), tag := BitVec.ofNat 4 (n / 16), z := n.testBit 3,
    sat := n.testBit 2, rpr := n.testBit 1, sr := n.testBit 0 }

/-- A block: header and 32 codes. -/
structure Km8Block where
  hdr : Km8Header
  codes : List Nat
  deriving DecidableEq, Repr

/-- The block exponent s of R73; -127, the exponent of EXP 0, for a block of zeros. -/
def km8sExp (xs : List F32) : Int :=
  let m := maxMag xs
  if f32IsZero m then -127
  else
    let e := f32Exp m
    let mm := f32Mag m
    -- m > 127 * 2^(e-6), compared exactly
    let big := decide (scaled false mm.1 mm.2 (min mm.2 (e - 6)) > scaled false 127 (e - 6) (min mm.2 (e - 6)))
    max (if big then e - 5 else e - 6) (-127)

/-- The codes and header of a KM8S block (R73): s is the block exponent, `shift` the exponent at which the values
are rounded to integers, s itself or 0 where a station has divided by 2^s already (R130). -/
def km8sBlock (tag : BitVec 4) (rpr sr : Bool) (s shift : Int) (vs : List (F32 × Rounding)) : Km8Block :=
  let codes := vs.map fun (x, r) =>
    let (xm, xe) := f32Mag x
    let n := roundShift r xm (shift - xe) % 256
    if f32Neg x then (256 - n) % 256 else n
  { hdr := { exp := BitVec.ofInt 8 (s + 127), tag, z := codes.all (· == 0), rpr, sr }, codes }

/-- encode_km8s (R73). -/
def encodeKm8s (tag : BitVec 4) (rpr sr : Bool) (vs : List (F32 × Rounding)) : Km8Block :=
  let s := km8sExp (vs.map (·.1))
  km8sBlock tag rpr sr s s vs

/-- A KM8S element (R73). -/
def decodeKm8s (h : Km8Header) (code : Nat) : F32 :=
  if h.z then 0
  else
    let s : Int := (h.exp.toNat : Int) - 127
    let c := code % 256
    if c < 128 then f32Of (.fin false c s) else f32Of (.fin true (256 - c) s)

/-- T[k] = 2^(k/16) rounded to the nearest FP32 (R74), as 24-bit mantissas of 2^-23. -/
def km8lT : List Nat := [
  0x800000, 0x85aac3, 0x8b95c2, 0x91c3d3, 0x9837f0, 0x9ef532, 0xa5fed7, 0xad583f, 0xb504f3,
  0xbd08a4, 0xc5672a, 0xce248c, 0xd744fd, 0xe0ccdf, 0xeac0c7, 0xf5257d, 0x1000000 ]

def km8lTAt (k : Nat) : Nat := km8lT.getD k 0

/-- The exact (mantissa, exponent) of KM8L code `c` ≥ 1 with base exponent `b` (R74). -/
def km8lMag (b : Int) (c : Nat) : Nat × Int := (km8lTAt (c % 16), b - 16 + (c / 16 : Nat) - 23)

/-- A KM8L element (R74). -/
def decodeKm8l (h : Km8Header) (code : Nat) : F32 :=
  let c := code % 256
  if h.z || c == 0 then 0
  else
    let (m, e) := km8lMag ((h.exp.toNat : Int) - 127) c
    f32Of (.fin false m e)

/-- The largest k in 0 to 15 with mantissa m (24 bits, leading one) at least T[k] (R75). -/
def km8lK (m : Nat) : Nat :=
  (List.range 16).foldl (fun a k => if m ≥ km8lTAt k then k else a) 0

/-- A positive FP32 magnitude normalised to (24-bit mantissa, exponent of the value). -/
def f32Norm (x : F32) : Nat × Int :=
  let (m, e) := f32Mag x
  let t := topBit m
  (m <<< (23 - t), (t : Int) + e)

/-- A code of at least 1 from lo, D and W (R75): rounded, then clamped; and whether it saturated. -/
def km8lRound (lo : Nat) (d w : Nat) (r : Rounding) : Nat × Bool :=
  let up := match r with
    | .rne => decide (2 * d > w ∨ (2 * d = w ∧ lo % 2 = 1))
    | .sr rnd => decide (d * 65536 / w + rnd.toNat ≥ 65536)
  let code := lo + (if up then 1 else 0)
  if code > 255 then (255, true) else (code, false)

/-- The code of a value below the smallest code: 1 if 2v is at least decode(1), else 0 (R75). The values of
decode() are taken exactly, T[k] times a power of two, also where R74 would round them as subnormals (log 80). -/
def km8lBelow (b : Int) (m : Nat) (e : Int) : Nat :=
  let (dm, de) := km8lMag b 1
  let low := min e de
  if scaled false (2 * m) e low ≥ scaled false dm de low then 1 else 0

/-- One KM8L code for a positive value, and whether it saturated (R75). -/
def encodeKm8lElem (b : Int) (r : Rounding) (v : F32) : Nat × Bool :=
  let (m, ev) := f32Norm v
  let k := km8lK m
  let lo : Int := 16 * (ev - b + 16) + k
  if lo < 1 then (km8lBelow b m (ev - 23), false)
  -- D and W in units of 2^(ev - 23), from the exact values of decode (log 80)
  else km8lRound lo.toNat (m - km8lTAt k) (km8lTAt (k + 1) - km8lTAt k) r

/-- The same from what a station has prepared: n = LOGIDX(v), D and W (R130). -/
def km8lFromSinks (b : Int) (n d w : F32) (r : Rounding) (v : F32) : Nat × Bool :=
  let (m, ev) := f32Norm v
  let lo : Int := n.toInt - 16 * b + 256
  if lo < 1 then (km8lBelow b m (ev - 23), false)
  else
    let (dm, de) := f32Mag d
    let (wm, we) := f32Mag w
    let low := min de we
    km8lRound lo.toNat (scaled false dm de low).toNat (scaled false wm we low).toNat r

/-- The largest of a list of values as M of R75: negative values and zeros do not count. -/
def km8lMax (xs : List F32) : F32 :=
  xs.foldl (fun a x => if !f32Neg x && x.toNat > a.toNat then x else a) 0

/-- The base exponent b of R75; -127, the base of EXP 0, for a block without a positive value. -/
def km8lBase (xs : List F32) : Int :=
  let mx := km8lMax xs
  if f32IsZero mx then -127
  else
    let (m, e) := f32Norm mx
    min (max (if km8lK m < 15 then e + 1 else e + 2) (-127)) 128

/-- A KM8L block from its base exponent and a code for each positive value (R75). -/
def km8lBlock (tag : BitVec 4) (rpr sr : Bool) (b : Int) (vs : List (F32 × (Nat × Bool))) : Km8Block :=
  let enc := vs.map fun (x, c) => if f32Neg x || f32IsZero x then (0, f32Neg x && !f32IsZero x) else c
  let codes := enc.map (·.1)
  { hdr := { exp := BitVec.ofInt 8 (b + 127), tag, z := codes.all (· == 0), sat := enc.any (·.2), rpr, sr }, codes }

/-- encode_km8l (R75). -/
def encodeKm8l (tag : BitVec 4) (rpr sr : Bool) (vs : List (F32 × Rounding)) : Km8Block :=
  let b := km8lBase (vs.map (·.1))
  km8lBlock tag rpr sr b (vs.map fun (x, r) => (x, encodeKm8lElem b r x))

end Sys2Proof.Machine
end

