-- ==== Sys2Proof/Machine/Sfu.lean ====
section
/-! DEFINITION. The special functions (R78-R81). The coefficient tables stand in the delivery kit only and
are constants of Config; what R79 says of their entries is computed, and the bounds of R78 are held for every
table. sqrt is correctly rounded (R78), so it needs none. -/
namespace Sys2Proof.Machine

/-- An FP32 result scaled by a power of two, rounded once. -/
def f32Scale (x : F32) (n : Int) : F32 :=
  match f32Val x with
  | .fin neg m e => f32Of (.fin neg m (e + n))
  | _ => f32Of (f32Val x)

/-- p = fma(c2, t, c1); y = fma(p, t, c0) (R79). -/
def sfuQuad (c : F32 × F32 × F32) (t : F32) : F32 := f32Fma (f32Fma c.2.2 t c.2.1) t c.1

/-- The integer square root, by bits from b down. -/
def isqrtBits (n : Nat) : Nat → Nat → Nat
  | 0, r => r
  | b + 1, r => isqrtBits n b (if (r + 2 ^ b) * (r + 2 ^ b) ≤ n then r + 2 ^ b else r)

/-! ## Exact values, in units of 2^-160, and the bounds of R78 -/

/-- The unit of the exact values below is 2^-160; each of them is right to within 2^-100. -/
def sfuBits : Nat := 160

/-- The series of atanh (a - b) / (a + b), 40 terms. -/
def atanhFix (a b : Nat) : Nat :=
  let z := (a - b) * 2 ^ sfuBits / (a + b)
  let zz := z * z / 2 ^ sfuBits
  ((List.range 40).foldl (fun (acc : Nat × Nat) k => (acc.1 + acc.2 / (2 * k + 1), acc.2 * zz / 2 ^ sfuBits)) (0, z)).1

/-- ln 2 = 2 atanh (1/3). -/
def ln2Fix : Nat := 2 * atanhFix 2 1

/-- log2 (a / b) for b ≤ a < 2b. -/
def log2Fix (a b : Nat) : Nat := 2 * atanhFix a b * 2 ^ sfuBits / ln2Fix

/-- 2^(f / 2^149) for f of magnitude at most 2^148. -/
def exp2Fix (f : Int) : Nat :=
  let x := f.natAbs * ln2Fix / 2 ^ 149
  let sum := ((List.range 40).foldl (fun (acc : Nat × Nat) k =>
    (acc.1 + acc.2, acc.2 * x / 2 ^ sfuBits / (k + 1))) (0, 2 ^ sfuBits)).1
  if f < 0 then 2 ^ (2 * sfuBits) / sum else sum

/-- R78: a result stays within its bound, in ulps, of the exact value (-1)^neg * n * 2^-160; a table by which it
would not is no table of this part, and the nearest value stands in its place. -/
def sfuBounded (ulps : Nat) (neg : Bool) (n : Nat) (y : F32) : F32 :=
  let exact : Int := if neg then -(n : Int) else n
  let near := f32Of (.fin neg (2 * n + 1) (-(sfuBits : Int) - 1))
  match f32Val y with
  | .fin g m e =>
    if (scaled g m e (-(sfuBits : Int)) - exact).natAbs + 2 ^ 60 ≤ ulps * 2 ^ (topBit n - 23) then y else near
  | _ => near

/-! ## The functions (R79, R80) -/

/-- recip (R78-R80). -/
def f32Recip (x : F32) : F32 :=
  match f32Val x with
  | .nan => f32NaN
  | .inf neg => f32Of (.fin neg 0 0)
  | .fin neg m _ =>
    if m = 0 then f32Of (.inf neg)
    else
      let (n, e) := f32Norm (f32Abs x)
      let t := f32Of (.fin false (n % 2 ^ 15) (-23))
      let y := sfuBounded 1 false (2 ^ (sfuBits + 23) / n) (sfuQuad (Config.sfuRecip (n / 2 ^ 15 % 256)) t)
      let y := f32Scale y (-e)
      if neg then y ^^^ 0x80000000#32 else y

/-- rsqrt (R78-R80). -/
def f32Rsqrt (x : F32) : F32 :=
  match f32Val x with
  | .nan => f32NaN
  | .inf neg => if neg then f32NaN else 0
  | .fin neg m _ =>
    if m = 0 then f32Of (.inf neg)
    else if neg then f32NaN
    else
      let (n, e) := f32Norm x
      let odd := e % 2
      let t := f32Of (.fin false (n % 2 ^ 15) (odd - 23))
      let exact := isqrtBits (2 ^ (2 * sfuBits + 23) / (n * 2 ^ odd.toNat)) (sfuBits + 1) 0
      let y := sfuBounded 1 false exact (sfuQuad (Config.sfuRsqrt (odd.toNat * 256 + n / 2 ^ 15 % 256)) t)
      f32Scale y (-((e - odd) / 2))

/-- sqrt, correctly rounded to nearest even (R78, R80). -/
def f32Sqrt (x : F32) : F32 :=
  match f32Val x with
  | .nan => f32NaN
  | .inf neg => if neg then f32NaN else x
  | .fin neg m _ =>
    if m = 0 then x
    else if neg then f32NaN
    else
      let (n, e) := f32Norm x
      let e' := e - 23 - 40
      let odd := e' % 2
      let v := n <<< (40 + odd.toNat)
      let r := isqrtBits v 34 0
      let sticky := if r * r = v then 0 else 1
      f32Of (.fin false (2 * r + sticky) ((e' - odd) / 2 - 1))

/-- A signed number of units of 2^-149. -/
def f32Units (x : F32) : Int := scaled (f32Neg x) (f32Mag x).1 (f32Mag x).2 (-149)

/-- A signed number divided by 2^sh, rounded to nearest even. -/
def roundInt (v : Int) (sh : Nat) : Int :=
  if v < 0 then -(roundRne v.natAbs sh : Int) else roundRne v.natAbs sh

/-- The largest whole number below 2^24 whose 64th power is at most v, by bits from b down. -/
def root64Bits (v : Nat) : Nat → Nat → Nat
  | 0, r => r
  | b + 1, r => root64Bits v b (if (r + 2 ^ b) ^ 64 ≤ v then r + 2 ^ b else r)

/-- P[j] = 2^(j/64), the nearest FP32 value (R79). -/
def sfuExp2Entry (j : Int) : F32 :=
  let k := (j % 64).toNat
  let n := root64Bits (2 ^ (23 * 64 + k)) 24 0
  let n := if (2 * n + 1) ^ 64 ≤ 2 ^ (24 * 64 + k) then n + 1 else n
  f32Of (.fin false n (j / 64 - 23))

/-- exp2 (R78-R80). -/
def f32Exp2 (x : F32) : F32 :=
  match f32Val x with
  | .nan => f32NaN
  | .inf neg => if neg then 0 else x
  | .fin _ m _ =>
    if m = 0 then 0x3F800000#32
    else
      let v := f32Units x
      if (128 : Int) <<< 149 ≤ v then f32Of (.inf false)
      else if v < -((150 : Int) <<< 149) then 0
      else
        let n := roundInt v 149
        let f := v - n <<< 149
        let j := roundInt f 143
        let rest := f - j <<< 143
        let r := f32Of (.fin (rest < 0) rest.natAbs (-149))
        let p := sfuExp2Entry j
        let q := f32Fma (Config.sfuExp2Coeff 3) r (Config.sfuExp2Coeff 2)
        let q := f32Mul (f32Fma q r (Config.sfuExp2Coeff 1)) r
        f32Scale (sfuBounded 2 false (exp2Fix f) (f32Fma p q p)) n

/-- An integer as FP32, rounded to nearest even. -/
def f32OfInt (n : Int) : F32 := f32Of (.fin (n < 0) n.natAbs 0)

/-- The significand of C[j], at most 9 bits, in units of 2^-9 below j = 64 and of 2^-8 from there on (R79). -/
def sfuLog2Sig (j : Nat) : Nat := 256 + (Config.sfuLog2C j).toNat

/-- (C[j], Lh[j], Ll[j]): C is 1 at both ends and has at most 9 significant bits, and the two parts of
-log2 C make up its value (R79). -/
def sfuLog2Entry (j : Nat) : F32 × F32 × F32 :=
  if j = 0 || j = 128 then (0x3F800000#32, 0, 0)
  else
    let n := sfuLog2Sig j
    let l : Int := if j < 64 then (log2Fix 512 n : Int) else -(log2Fix n 256 : Int)
    let hi := Config.sfuLog2Hi j
    let rest := match f32Val hi with
      | .fin g m e => l - scaled g m e (-(sfuBits : Int))
      | _ => l
    (f32Of (.fin false n (if j < 64 then -9 else -8)), hi, f32Of (.fin (rest < 0) rest.natAbs (-(sfuBits : Int))))

/-- log2 (R78-R80). -/
def f32Log2 (x : F32) : F32 :=
  match f32Val x with
  | .nan => f32NaN
  | .inf neg => if neg then f32NaN else x
  | .fin neg m _ =>
    if m = 0 then f32Of (.inf true)
    else if neg then f32NaN
    else if x = 0x3F800000#32 then 0
    else
      let (n, e) := f32Norm x
      let j := (n / 2 ^ 15 % 256 + 1) / 2
      let high := 64 ≤ j
      let m' := f32Of (.fin false n (if high then -24 else -23))
      let e' := f32OfInt (if high then e + 1 else e)
      let c := sfuLog2Entry j
      let u := f32Fma m' c.1 0xBF800000#32
      let p := f32Fma (Config.sfuLog2Coeff 4) u (Config.sfuLog2Coeff 3)
      let p := f32Fma p u (Config.sfuLog2Coeff 2)
      let p := f32Mul (f32Fma p u (Config.sfuLog2Coeff 1)) u
      let exact : Int := e * 2 ^ sfuBits + log2Fix n (2 ^ 23)
      sfuBounded 2 (exact < 0) exact.natAbs (f32Add (f32Add e' c.2.1) (f32Add c.2.2 p))

/-- An unsigned integer as FP32 (R126). -/
def f32OfNat (n : Nat) : F32 := f32OfInt n

end Sys2Proof.Machine
end

