-- ==== Sys2Proof/Machine/Tongue.lean ====
section
/-! DEFINITION. The tongue: the granule map, the norm store, the norm pass, the arm (R30, R31, R35,
R198-R213). -/
namespace Sys2Proof.Machine

/-! ## Gradients of a tensor (R165, R205) -/

def gradFmt (r : TensorRec) : ElemFmt :=
  if r.gfmt = 1 then .fp16 else if r.gfmt = 2 then .fp32 else if r.gfmt = 3 then .e5m2 else .bf16

/-- Elements the tensor's gradient holds (R200). -/
def gradElems (r : TensorRec) : Nat := if r.sparse then r.indexCount * r.cols else r.elems

/-- E (R205). -/
def gradLines (r : TensorRec) : Nat := ceilDiv (gradElems r * gradBytes r) 64

/-- The expected LSUM (R205). -/
def gradLsum (r : TensorRec) : BitVec 32 := BitVec.ofNat 32 (gradLines r * (gradLines r - 1) / 2)

/-! ## The norm store (R204) -/

def normOf (s : State) (t : Nat) : NormRec := ((s.tongue.recs.find? (·.1 == t)).map (·.2)).getD {}

def setNorm (t : Nat) (f : NormRec → NormRec) (s : State) : State :=
  { s with tongue := { s.tongue with
      recs := (t, f (normOf s t)) :: s.tongue.recs.filter (·.1 != t) } }

/-- The sweep fields, which an arm and a norm pass leave (R204). -/
def NormRec.sweepPart (n : NormRec) : NormRec :=
  { wsq := n.wsq, usq := n.usq, sweepValid := n.sweepValid, swept := n.swept }

/-- COMPLETE, kept current (R205). -/
def NormRec.judged (r : TensorRec) (n : NormRec) : NormRec :=
  { n with complete := n.obs == gradLines r && n.lsum == gradLsum r && !n.overcount && !n.partl && !n.late }

/-- The gradient fields of every record, and the instance totals, cleared (R207, R212). A SPARSE tensor
without touched rows is complete from here (R205). -/
def clearGradients (s : State) : State :=
  let kept := s.tongue.recs.map fun e => (e.1, e.2.sweepPart)
  let s := { s with tongue := { s.tongue with recs := kept, acc := 0, nonfin := 0, gmax := 0, taken := none } }
  (validTensors s).foldl (fun s t => if gradLines (recOf s t) = 0 then setNorm t (·.judged (recOf s t)) s else s) s

/-! ## Accumulating a line (R200-R202, R205) -/

/-- floor(x^2 * 2^80) for a finite value (R201). -/
def squareUnits (m : Nat) (e : Int) : Nat :=
  let sh := 2 * e + 80
  if 0 ≤ sh then (m * m) <<< sh.toNat else (m * m) >>> (-sh).toNat

/-- One element in a record (R201). -/
def NormRec.element (n : NormRec) (x : F32) : NormRec :=
  match f32Val x with
  | .fin _ m e =>
    let q := squareUnits m e
    let excess := n.overrange || 2 ^ 128 ≤ n.gacc + q
    { n with
      gmax := if n.gmax.toNat < (f32Abs x).toNat then f32Abs x else n.gmax
      gacc := if excess then 2 ^ 128 - 1 else n.gacc + q
      overrange := excess
      share := n.share + q }
  | _ => { n with nonfin := min (n.nonfin + 1) (2 ^ 28 - 1), shareNonfin := n.shareNonfin + 1 }

/-- The same element in the instance totals (R202). -/
def Tongue.element (g : Tongue) (x : F32) : Tongue :=
  match f32Val x with
  | .fin _ m e =>
    { g with
      acc := g.acc + squareUnits m e
      gmax := if g.gmax.toNat < (f32Abs x).toNat then f32Abs x else g.gmax }
  | _ => { g with nonfin := min (g.nonfin + 1) (2 ^ 32 - 1) }

/-- The elements that line L of a tensor's gradient holds, decoded (R58, R200). -/
def lineElems (r : TensorRec) (k : Nat) (l : Nat) (data : Line) : List F32 :=
  let w := 8 * gradBytes r
  let per := 512 / w
  ((List.range per).filter fun j => l * per + j < gradElems r).map fun j =>
    decodeGrad (gradFmt r) k r.gscale (fieldNat data (w * j) w)

/-- Line L of tensor t accumulated into its record and the totals (R199-R202). -/
def accumulate (t l : Nat) (data : Line) (s : State) : State :=
  let r := recOf s t
  let xs := lineElems r s.lscale.k.toNat l data
  let s := { s with tongue := xs.foldl Tongue.element s.tongue }
  setNorm t (fun n =>
    let n := xs.foldl NormRec.element n
    let obs := min (n.obs + 1) (2 ^ 28 - 1)
    let n := { n with obs := obs, lsum := n.lsum + BitVec.ofNat 32 l }
    let excess := gradLines r < obs || (obs == gradLines r && n.lsum != gradLsum r)
    { n with overcount := n.overcount || excess }.judged r) s

/-! ## The granule map (R198) -/

/-- The granules a record claims. -/
def claimOf (s : State) (t : Nat) : Nat × Nat × Nat :=
  let r := recOf s t
  (r.gradOff / 1024, ceilDiv (gradLines r) 1024, t)

/-- The claims of the valid records; a record without expected lines claims no granule. -/
def claims (s : State) : List (Nat × Nat × Nat) := ((validTensors s).map (claimOf s)).filter fun c => 0 < c.2.1

/-- The first record whose claim meets one of an earlier record: (earlier, later). -/
def claimConflict : List (Nat × Nat × Nat) → List (Nat × Nat × Nat) → Option (Nat × Nat)
  | _, [] => none
  | before, (g, n, t) :: rest =>
    match before.find? fun c => c.1 < g + n && g < c.1 + c.2.1 with
    | some c => some (c.2.2, t)
    | none => claimConflict (before ++ [(g, n, t)]) rest

/-- A build starts once a table and a set of bases are in effect; while either is missing, no entry is
valid (R198). -/
def mapStart (s : State) : State :=
  { s with tongue := { s.tongue with
      map := if s.ttab.loaded && s.swp.valid then .building else .none, claims := [] } }

/-- The build ends (R198). Where both causes apply, GRAD_RANGE is the one reported: DESIGN CHOICE (log 89). -/
def mapBuildEnd (s : State) : State :=
  let cs := claims s
  match cs.find? fun c => 131072 < c.1 + c.2.1 with
  | some c => report 0x0411 (put 0 (BitVec.ofNat 14 c.2.2))
      { s with tongue := { s.tongue with map := .gradRange, claims := [] } }
  | none =>
    match claimConflict [] cs with
    | some (a, b) =>
      report 0x0412 (put 16 (BitVec.ofNat 14 a) ||| put 0 (BitVec.ofNat 14 b))
        { s with tongue := { s.tongue with map := .conflict, claims := [] } }
    | none => { s with tongue := { s.tongue with map := .valid, claims := cs } }

/-- The tensor of a granule, by the map. -/
def granuleTensor (s : State) (g : Nat) : Option Nat :=
  if s.tongue.map == .valid then
    (s.tongue.claims.find? fun c => c.1 ≤ g && g < c.1 + c.2.1).map (·.2.2)
  else none

/-- The tensor and the line index that a written line belongs to (R199). -/
def lineOwner (s : State) (line : BitVec 34) : Option (Nat × Nat) :=
  let base := baseLine s arenaGrad
  if line.toNat < base then none
  else
    match granuleTensor s ((line.toNat - base) / 1024) with
    | some t =>
      let l := line.toNat - base - (recOf s t).gradOff
      if l < gradLines (recOf s t) then some (t, l) else none
    | none => none

/-! ## The norm pass (R207-R209) -/

/-- A line of eight free values: what a read stands for that failed and whose effect the spec leaves open. -/
def freeLine (s : State) : Line × State :=
  ((List.range 8).foldl (fun l i => l ||| putLine (8 * i) (Config.freeValue (s.freeCtr + i))) (0 : Line),
   { s with freeCtr := s.freeCtr + 8 })

/-- The line that a read brought, or a free one where it failed for good. -/
def lineOrFree (data : Option Line) (s : State) : Line × State :=
  match data with
  | some l => (l, s)
  | none => freeLine s

def setNormPass (f : NormPass → NormPass) (s : State) : State :=
  { s with tongue := { s.tongue with norm := s.tongue.norm.map f } }

/-- The reads of a tensor's gradient, in ascending L, with class NORMPASS (R207). -/
def normReads (s : State) (t : Nat) : List MemReq :=
  (List.range (gradLines (recOf s t))).map fun l =>
    { who := .norm t l, cls := .normpass, write := false
      line := BitVec.ofNat 34 (baseLine s arenaGrad + (recOf s t).gradOff + l) }

/-- The tensor's last line is in (R207). A write that came late during a second read leaves LATE (R209). -/
def normTensorDone (t : Nat) (s : State) : State :=
  let again := (s.tongue.norm.map fun p => p.again.contains t).getD false
  setNorm t (fun n =>
    { n with overcount := false, partl := false, late := n.late && again, normpass := true }.judged (recOf s t)) s

/-- The totals without tensor t's share (R209). -/
def withoutShare (t : Nat) (s : State) : State :=
  let ns := (validTensors s).filterMap fun u => if u = t then none else some (normOf s u)
  { s with tongue := { s.tongue with
      acc := (ns.map (·.share)).sum
      nonfin := min (ns.map (·.shareNonfin)).sum (2 ^ 32 - 1)
      gmax := ns.foldl (fun m n => if m.toNat < n.gmax.toNat then n.gmax else m) 0 } }

/-- The norm pass begins its next tensor: first reads in record order, then re-reads (R207, R209). -/
def normNext : Nat → State → State
  | 0, s => s
  | fuel + 1, s =>
    match s.tongue.norm with
    | none => s
    | some p =>
      match p.todo, p.reread with
      | t :: rest, _ =>
        let s := setNormPass (fun p => { p with todo := rest, begun := p.begun ++ [t] }) s
        if gradLines (recOf s t) = 0 then normNext fuel (normTensorDone t s)
        else enqueueAll (normReads s t) (setNormPass (fun p => { p with cur := some (t, gradLines (recOf s t)) }) s)
      | [], t :: rest =>
        let s := withoutShare t (setNorm t (·.sweepPart) s)
        enqueueAll (normReads s t) (setNormPass (fun p =>
          { p with reread := rest, again := p.again ++ [t], cur := some (t, gradLines (recOf s t)) }) s)
      | [], [] => setNormPass (fun p => { p with cur := none }) s

/-- The seal starts the norm pass (R206, R207, R214, R447). -/
def normStart (s : State) : State :=
  let s := pulse 10 (countTongue 5 1 (clearGradients s))
  let s := { s with
    step := { s.step with phase := .normPass }
    tongue := { s.tongue with norm := some { todo := validTensors s }, usedNorm := true } }
  normNext (s.ttab.recs.length + 1) s

/-- A norm-pass read is in (R207); a failed one delivers a free line. -/
def normLineDone (t l : Nat) (data : Option Line) (s : State) : State :=
  match s.tongue.norm with
  | some p =>
    match p.cur with
    | some (u, left) =>
      if u ≠ t then s
      else
        let got := lineOrFree data s
        let line := got.1
        let s := got.2
        let s := accumulate t l line s
        if left ≤ 1 then normNext (s.ttab.recs.length + 1) (normTensorDone t s)
        else setNormPass (fun p => { p with cur := some (t, left - 1) }) s
    | none => s
  | none => s

def Who.isNorm : Who → Bool
  | .norm _ _ => true
  | _ => false

/-- The norm pass stops (R38). -/
def normStop (s : State) : State :=
  dropReads Who.isNorm { s with tongue := { s.tongue with norm := none } }

/-! ## Judging a FINAL_GRAD write (R30, R31, R35, R199, R209) -/

/-- OBSERVE (R199). -/
def observeWrite (line : BitVec 34) (mask : BitVec 64) (data : Line) (s : State) : State :=
  match lineOwner s line with
  | none => countTongue 1 1 s
  | some (t, l) =>
    if mask ≠ BitVec.allOnes 64 then
      countTongue 2 1 (setNorm t (fun n => { n with partl := true }.judged (recOf s t)) s)
    else countTongue 0 1 (accumulate t l data s)

/-- A tensor that the norm pass has begun is read again, once (R209). -/
def NormPass.noteLate (p : NormPass) (t : Nat) : NormPass :=
  if p.begun.contains t && !p.reread.contains t && !p.again.contains t then
    { p with reread := p.reread ++ [t] } else p

/-- After the seal and before the gate (R35, R209). -/
def lateWrite (line : BitVec 34) (s : State) : State :=
  match lineOwner s line with
  | none => s
  | some (t, _) =>
    let s := report 0x0107 (put 0 (BitVec.ofNat 14 t)) (countTongue 3 1 s)
    if s.step.phase == .awaitVerdict then s
    else
      let s := setNorm t (fun n => { n with late := true }.judged (recOf s t)) s
      let s := { s with tongue := { s.tongue with norm := s.tongue.norm.map fun (p : NormPass) => p.noteLate t } }
      -- a pass that has read its last tensor goes on with the re-read
      if (s.tongue.norm.map fun (p : NormPass) => p.cur.isNone).getD false then normNext (s.ttab.recs.length + 1) s else s

/-- The statistics of a mark in place of the tongue's own, and back: counters 3 to 6 go on. -/
def atMark (m : TongueMark) (s : State) : State :=
  { s with tongue := { s.tongue with
    recs := m.recs, acc := m.acc, nonfin := m.nonfin, gmax := m.gmax, cnt := m.cnt.take 3 ++ s.tongue.cnt.drop 3 } }
def markOf (s : State) (ls : List TakenLine) : TongueMark :=
  let g := s.tongue
  { recs := g.recs, acc := g.acc, nonfin := g.nonfin, gmax := g.gmax, cnt := g.cnt, lines := ls }

/-- The completion of a line has passed its NAK cycle before ctrl cycle t: port cycle acc + 1 has ended (R14, R438). -/
def TakenLine.passed (t : Nat) (x : TakenLine) : Bool := match x.acc with
  | some a => decide (3 * (a + 2) ≤ 10 * t)
  | none => false

/-- Lines at the front of a mark that are through become part of its statistics. -/
def settleTaken : List TakenLine → State → TongueMark
  | [], s => markOf s []
  | x :: xs, s => if x.passed (now s) then settleTaken xs (observeWrite x.line x.mask x.data s) else markOf s (x :: xs)

/-- A line that the tongue is about to take in OBSERVE, with the port cycle of its completion. -/
def noteTaken (x : TakenLine) (s : State) : State :=
  if !working s || s.step.phase != .observe then s
  else
    let m := match s.tongue.taken with
      | some m => settleTaken m.lines (atMark m s)
      | none => markOf s []
    { s with tongue := { s.tongue with taken := some { m with lines := m.lines ++ [x] } } }

/-- A completion is replayed in another port cycle, or has failed for good (R437). -/
def moveTaken (port : BitVec 5) (tag : BitVec 12) (old : Nat) (new : Option Nat) (s : State) : State :=
  let move (x : TakenLine) : TakenLine :=
    if x.port == port && x.tag == tag && x.acc == some old then { x with acc := new } else x
  { s with tongue := { s.tongue with
    taken := s.tongue.taken.map fun (m : TongueMark) => { m with lines := m.lines.map move } } }

/-- A seal is accepted: lines whose completion has not passed its NAK cycle count no more, and are late (R35, R241,
R467). -/
def unwindTaken (s : State) : State :=
  let gone := { s with tongue := { s.tongue with taken := none } }
  match s.tongue.taken with
  | some m =>
    if m.lines.all fun x => x.passed (now s) then gone
    else
      let (good, late) := m.lines.partition fun x => x.passed (now s)
      let s := good.foldl (fun s x => observeWrite x.line x.mask x.data s) (atMark m gone)
      late.foldl (fun s x => lateWrite x.line s) s
  | none => gone

/-- The tiles of a tensor that hold elements of line L of its gradient (R31, R163, R191). -/
def tileOfGradElem (r : TensorRec) (i : Nat) : Nat :=
  if r.sparse then
    (if r.cols ≤ 1024 then i / max 1 (rowsPerTile r * r.cols)
     else i / r.cols * tilesPerRow r + i % r.cols / 1024)
  else i / 1024

def tilesOfLine (r : TensorRec) (l : Nat) : List Nat :=
  let per := 64 / gradBytes r
  ((List.range per).filterMap fun j =>
    if l * per + j < gradElems r then some (tileOfGradElem r (l * per + j)) else none).eraseDups

/-- FETCH has issued the SWEEP reads of the tile's gradient in the updating pass (R31). -/
def tileFetched (s : State) (ord : Nat) : Bool :=
  match s.sweep.pass with
  | some p => p.kind == .sweep && ord < p.next && !(p.refetch.any (·.1 == ord))
  | none => false

/-- PASS1 and SWEEP (R31). -/
def earlyWrite (line : BitVec 34) (s : State) : State :=
  match lineOwner s line with
  | none => s
  | some (t, l) =>
    if (tilesOfLine (recOf s t) l).all fun k => tileFetched s (ordOf s t k) then s
    else report 0x0108 (put 0 (BitVec.ofNat 14 t)) (countTongue 4 1 s)

/-- The tongue takes a FINAL_GRAD write whose completion is sent without an error (R438); in FATAL it
has stopped (R510). -/
def tongueTake (line : BitVec 34) (mask : BitVec 64) (data : Line) (s : State) : State :=
  if !working s then s
  else match s.step.phase with
    | .observe => observeWrite line mask data s
    | .sealed | .normPass | .awaitVerdict => lateWrite line s
    | .pass1 | .sweep => earlyWrite line s
    | .notReady | .idle | .halted => s

/-- TONGUE_STATUS.INCOMPLETE (R205). -/
def incomplete (s : State) : Nat := (validTensors s).countP fun t => !(normOf s t).complete

/-! ## The arm (R211, R212) -/

/-- The first record that fails R138. -/
def shapeBad (s : State) : Option Nat :=
  if ((activeImage s).map (·.rule.pass1Path)) = some 2 then
    (validTensors s).find? fun t =>
      let r := recOf s t
      !r.unfactored && !(r.shape2d && r.cols % 1024 == 0 && 0 < r.cols && r.cols ≤ 16384)
  else none

/-- TONGUE_ARM.ERR of an arm for a step (R212). -/
def armError (s : State) (forStep : BitVec 32) : BitVec 8 :=
  let sweep := s.step.phase == .sweep
  if !(s.step.phase == .idle || sweep) then 1
  else if forStep ≠ (if sweep then s.step.step + 1 else s.step.step) then 2
  else if !(s.ttab.loaded && s.swp.valid) then 3
  else match s.tongue.map with
    | .none | .building => 4
    | .conflict => 5
    | .gradRange => 6
    | .valid => if (shapeBad s).isSome then 7 else 0

/-- PHASE enters OBSERVE (R28, R212, R566). -/
def enterObserve (s : State) : State :=
  { s with
    step := { s.step with phase := .observe, flash := .hold }
    tongue := { s.tongue with armed := true, usedNorm := false }
    verdict := { s.verdict with flashSeen := false }
    hier := { s.hier with contribSent := false } }

def tongueArmAddr : Addr24 := 0x010000

/-- A write of TONGUE_ARM (R211, R212, R24, R28, R138). -/
def writeArm (w : Word) (s : State) : State :=
  if !w.getLsbD 0 then s
  else
    let forStep : BitVec 32 := field w 32 32
    let e := armError s forStep
    let s := { s with tongue := { s.tongue with armErr := e } }
    if e = 0 then
      let s := clearGradients s
      let idle := s.step.phase == .idle
      { s with
        tongue := { s.tongue with clearing := some (now s + 256, idle), armed := false }
        step := { s.step with flash := if idle then .hold else s.step.flash } }
    else if e = 1 then report 0x0103 (tongueArmAddr.setWidth 64) s
    else if e = 2 then report 0x0101 (put 32 s.step.step ||| put 0 forStep) s
    else if e = 7 then
      match shapeBad s with
      | some t => report 0x0203 (put 0 (BitVec.ofNat 14 t)) s
      | none => s
    else s

/-- The clear of an accepted arm ends (R212). -/
def armCleared (s : State) : State :=
  match s.tongue.clearing with
  | some (t, idle) =>
    if now s < t then s
    else
      let s := { s with tongue := { s.tongue with clearing := none } }
      if s.step.phase == .idle then enterObserve s
      else if s.step.phase == .sweep && !idle then { s with tongue := { s.tongue with armed := true } }
      else s
  | none => s

/-- TONGUE_ARM (R211, R212). -/
def execTongueArm (w : Word) (s : State) : Out := .next (ctlWrite tongueArmAddr w (writeArm w) s)

/-- ARM_CLEAR_DONE (R212): not before the 256 ctrl cycles of the clear have passed. -/
def execArmClearDone (s : State) : Out := .next (if working s then armCleared s else s)

/-- MAP_BUILD_DONE (R198). -/
def execMapBuildDone (s : State) : Out :=
  .next (if working s && s.tongue.map == .building then mapBuildEnd s else s)

end Sys2Proof.Machine
end

