-- ==== Sys2Proof/Machine/Hierarchy.lean ====
section
/-! DEFINITION. Messages of the hierarchy, the aggregator, the root's record (R216-R231, R568). -/
namespace Sys2Proof.Machine

/-! ## Messages (R218) -/

def msgType (m : Line) : BitVec 8 := field m 16 8
def msgStep (m : Line) : BitVec 32 := field m 32 32
def msgEpoch (m : Line) : BitVec 32 := field m 64 32
def msgTag (m : Line) : BitVec 32 := field m 96 32
def msgGsq (m : Line) : F64 := field m 128 64
def msgGmax (m : Line) : BitVec 32 := field m 192 32
def msgNonfin (m : Line) : BitVec 32 := field m 224 32
def msgCount (m : Line) : BitVec 32 := field m 256 32
def msgSrc (m : Line) : BitVec 16 := field m 288 16
def msgLsK (m : Line) : BitVec 8 := field m 304 8
def msgFlags (m : Line) : BitVec 8 := field m 312 8
def msgCause (m : Line) : BitVec 8 := field m 320 8
def msgAttempt (m : Line) : BitVec 8 := field m 328 8

/-- The CRC of a message or a record holds (R218, R227). -/
def lineCrcOk (m : Line) : Bool := field m 480 32 == crc32 ((lineBytes m).take 60)

/-- The fields a message carries beside its sender's own. -/
structure MsgFields where
  type : BitVec 8
  gsq : F64 := 0
  gmax : BitVec 32 := 0
  nonfin : BitVec 32 := 0
  count : BitVec 32 := 0
  flags : BitVec 8 := 0
  cause : BitVec 8 := 0
  deriving DecidableEq, Repr

/-- JOIN, JOIN_SUM and EPOCH_OPEN carry 0 in ATTEMPT (R218). -/
def joinType (t : BitVec 8) : Bool := 6 ≤ t && t ≤ 8

/-- A message of this instance (R218). -/
def mkMsg (s : State) (f : MsgFields) : Line :=
  sealLine (putLine 0x00 magicHier ||| putLine 0x02 f.type ||| putLine 0x03 (1 : BitVec 8) |||
    putLine 0x04 s.step.step ||| putLine 0x08 s.memb.epoch ||| putLine 0x0C (activeTag s) |||
    putLine 0x10 f.gsq ||| putLine 0x18 f.gmax ||| putLine 0x1C f.nonfin ||| putLine 0x20 f.count |||
    putLine 0x24 (contribOf s) ||| putLine 0x26 s.lscale.k ||| putLine 0x27 f.flags |||
    putLine 0x28 f.cause ||| putLine 0x29 (if joinType f.type then 0 else s.verdict.attempt))

/-- The plan's members and children (R216, R258). An instance with children counts its own package sum
among them (R215, R224). -/
def membersOf (s : State) : List (BitVec 16) := ((planOf s).map (·.ringMembers)).getD []
def childrenOf (s : State) : List (BitVec 16) :=
  (((planOf s).map fun p => p.children.map (·.1)).getD [] ++ [contribOf s]).eraseDups
def isTreeNode (s : State) : Bool := 2 ≤ roleOf s
def isRoot (s : State) : Bool := roleOf s == 3
def jobFlag (s : State) (b : Nat) : Bool := ((jobOf s).map fun j => j.flags.getLsbD b).getD false

/-- To every child but this instance itself, which takes the message on its own (R228). -/
def sendBelow (m : Line) (s : State) : State :=
  match planOf s with
  | some p => p.children.foldl (fun s c => if c.1 = p.contrib then s else fmpSend c.2 m s) s
  | none => s

/-! ## Holding (R223, R231) -/

/-- A code on both transmit sides of the originator (R415). -/
def flashRing (f : Flash) (s : State) : State :=
  if isManager s then flashSend .west f (flashSend .east f s) else s

/-- HOLD_NOTICE to the parent (R223). -/
def holdNotice (cause : BitVec 8) (s : State) : State :=
  if isManager s && !isRoot s then sendToParent (mkMsg s { type := 4, cause := cause, count := 1 }) s else s

/-- Holds the step with a cause (R223, R231). A cause that lifts gives way to one that does not. -/
def holdStep (cause : BitVec 8) (hi : BitVec 32) (src : BitVec 16) (s : State) : State :=
  let s := report (0x0400 + cause.setWidth 16) (put 32 hi ||| put 0 src) s
  if s.verdict.holding && !(s.verdict.holdCause == 3 && cause != 3) then s
  else
    let s := if s.verdict.holding then s else pulse 7 s
    let s := { s with verdict := { s.verdict with holding := true, holdCause := cause } }
    holdNotice cause (flashRing .hold s)

/-- Holds the join with a cause (R221). -/
def holdJoin (cause : BitVec 8) (hi : BitVec 32) (src : BitVec 16) (s : State) : State :=
  let s := report (0x0400 + cause.setWidth 16) (put 32 hi ||| put 0 src) s
  if s.memb.hold ≠ 0 then s
  else holdNotice cause { s with memb := { s.memb with hold := cause } }

/-- The epoch fails at this instance (R231, R414). -/
def epochFail (s : State) : State :=
  match s.memb.state with
  | .joining | .opened =>
    let joining := s.memb.state == .joining
    let s := pulse 6 { s with memb := { s.memb with
      state := .failed, hold := if joining then 4 else s.memb.hold } }
    holdStep 4 s.step.step (contribOf s) (croakSet 0x04 s)
  | .none | .failed => s

/-! ## The verdict record (R226, R227) -/

structure RecordBody where
  code : BitVec 8
  gsq : F64 := 0
  norm : F32 := 0
  clip : F32 := 0
  nonfin : BitVec 32 := 0
  gmax : BitVec 32 := 0
  lsKNext : BitVec 8 := 0
  lsK : BitVec 8 := 0
  lsN : BitVec 16 := 0
  reason : BitVec 8 := 0
  contributors : BitVec 32 := 0
  deriving DecidableEq, Repr

def mkRecordLine (s : State) (f : RecordBody) : Line :=
  sealLine (putLine 0x00 magicVerdict ||| putLine 0x02 (1 : BitVec 8) ||| putLine 0x03 f.code |||
    putLine 0x04 s.step.step ||| putLine 0x08 s.memb.epoch ||| putLine 0x0C (activeTag s) |||
    putLine 0x10 f.gsq ||| putLine 0x18 f.norm ||| putLine 0x1C f.clip ||| putLine 0x20 f.nonfin |||
    putLine 0x24 f.gmax ||| putLine 0x28 f.lsKNext ||| putLine 0x29 f.lsK ||| putLine 0x2A f.lsN |||
    putLine 0x2C f.reason ||| putLine 0x2E (contribOf s) ||| putLine 0x30 f.contributors |||
    putLine 0x34 s.verdict.attempt)

/-- k' and n' (R151). -/
def lossScaleNext (j : HierJob) (k n : Nat) (skip : Bool) : Nat × Nat :=
  if !j.flags.getLsbD 3 then (k, 0)
  else if skip then (max (k - 1) j.lsMin.toNat, 0)
  else if n + 1 = j.lsInterval.toNat then (min (k + 1) j.lsMax.toNat, 0)
  else (k, n + 1)

/-- The root's computation (R226): from the full sum S, or early. -/
def rootVerdict (s : State) (j : HierJob) (early : Bool) (sum : F64) (nonfin gmax count : BitVec 32)
    (excess : Bool) : RecordBody :=
  let s32 := f32OfF64 sum
  let flagged := nonfin ≠ 0 || excess
  let overflow := !early && !flagged && s32 == 0x7F800000#32
  let skip := flagged || overflow
  let norm := f32Sqrt s32
  let clip := if j.flags.getLsbD 2
    then f32Min 0x3F800000#32 (f32Mul j.maxNorm (f32Recip (f32Add norm j.clipEps))) else 0x3F800000#32
  let (k, n) := lossScaleNext j s.lscale.k.toNat s.verdict.rootLsn.toNat skip
  { code := if skip then 2 else 1
    gsq := if early then 0 else sum
    norm := if early then 0 else norm
    clip := if skip then 0 else clip
    nonfin := nonfin
    gmax := gmax
    lsKNext := BitVec.ofNat 8 k
    lsK := s.lscale.k.setWidth 8
    lsN := BitVec.ofNat 16 n
    reason := (if nonfin ≠ 0 then 1 else 0) ||| (if excess then 2 else 0) ||| (if overflow then 4 else 0) |||
      (if early then 8 else 0)
    contributors := count }

/-- The root issues a record: it comes to this instance as to every other, and goes down from there. -/
def issueRecord (f : RecordBody) (s : State) : State :=
  if s.hier.issued = some (s.step.step, s.verdict.attempt) || (f.code ≠ 3 && s.verdict.holding) then s
  else
    let r := mkRecordLine s f
    deliver .self 0 r { s with hier := { s.hier with
      issued := some (s.step.step, s.verdict.attempt), early := f.reason.getLsbD 3 } }

/-- The forced ABORT record (R227, R229). -/
def issueAbort (s : State) : State := issueRecord { code := 3, reason := 0x10 } s

/-! ## Summing (R224, R225, R230) -/

def msgOver (m : Line) : Bool := (msgFlags m).getLsbD 0

/-- Messages of a type held for the step and attempt. -/
def heldOf (s : State) (t : BitVec 8) : List Line := s.hier.got.filter fun m => msgType m == t

/-- Every source of a list has a message. -/
def allIn (srcs : List (BitVec 16)) (ms : List Line) : Bool := srcs.all fun c => ms.any fun m => msgSrc m == c

/-- Insertion into ascending SRC. -/
def insertSrc (m : Line) : List Line → List Line
  | [] => [m]
  | x :: xs => if (msgSrc m).toNat ≤ (msgSrc x).toNat then m :: x :: xs else x :: insertSrc m xs

def bySrc (ms : List Line) : List Line := ms.foldl (fun l m => insertSrc m l) []

/-- The sum of messages in ascending SRC, left to right (R224). -/
def sumGsq (ms : List Line) : F64 :=
  match bySrc ms with
  | [] => 0
  | m :: rest => rest.foldl (fun a x => f64Add a (msgGsq x)) (msgGsq m)

def sumNonfin (ms : List Line) : BitVec 32 := BitVec.ofNat 32 (min ((ms.map fun m => (msgNonfin m).toNat).sum) (2 ^ 32 - 1))
def sumCount (ms : List Line) : BitVec 32 := BitVec.ofNat 32 ((ms.map fun m => (msgCount m).toNat).sum)
def sumGmax (ms : List Line) : BitVec 32 :=
  ms.foldl (fun a m => if a.toNat < (msgGmax m).toNat then msgGmax m else a) 0
def sumFlags (ms : List Line) : BitVec 8 := ms.foldl (fun a m => a ||| msgFlags m) 0

/-- A SUM of messages (R224). -/
def mkSum (s : State) (ms : List Line) : Line :=
  mkMsg s { type := 2, gsq := sumGsq ms, gmax := sumGmax ms, nonfin := sumNonfin ms, count := sumCount ms
            flags := sumFlags ms }

/-- A message goes up the tree and is kept until its outcome (R413). -/
def sendUp (m : Line) (s : State) : State :=
  sendToParent m { s with hier := { s.hier with unresolved := s.hier.unresolved ++ [m] } }

/-- A SKIP_NOTICE leaves at once, or the root decides early (R225). -/
def skipUp (m : Line) (s : State) : State :=
  if s.hier.skipSent || s.verdict.holding then s
  else
    let s := { s with hier := { s.hier with skipSent := true } }
    if isRoot s then
      match jobOf s with
      | some j =>
        if j.flags.getLsbD 0 then
          issueRecord (rootVerdict s j true 0 (msgNonfin m) (msgGmax m) 0 (msgOver m)) s
        else s
      | none => s
    else sendToParent (mkMsg s { type := 3, gmax := msgGmax m, nonfin := msgNonfin m, count := 1
                                 flags := msgFlags m &&& 1 }) s

/-- The hold of a timeout lifts once nothing is missing (R230). -/
def liftTimeout (s : State) : State :=
  if s.verdict.holding && s.verdict.holdCause == 3 then
    { s with verdict := { s.verdict with holding := false, holdCause := 0 } }
  else s

/-- The package sum of a ring that is whole joins a node's own children (R224). -/
def ringSum (s : State) : State :=
  if isTreeNode s && allIn (membersOf s) (heldOf s 1) &&
      !((heldOf s 2).any fun m => msgSrc m == contribOf s) then
    let m := mkSum s (heldOf s 1)
    let s := { s with hier := { s.hier with got := s.hier.got ++ [m] } }
    if msgNonfin m ≠ 0 || msgOver m then skipUp m s else s
  else s

/-- What a whole set of messages leads to: a SUM to the parent, or the root's record (R224, R226). -/
def sumIfWhole (s : State) : State :=
  let s := ringSum s
  let whole := if isTreeNode s then allIn (childrenOf s) (heldOf s 2) else allIn (membersOf s) (heldOf s 1)
  let ms := heldOf s (if isTreeNode s then 2 else 1)
  if !whole || s.hier.sumSent then s
  else
    let s := liftTimeout s
    if s.verdict.holding then s
    else
      let s := { s with hier := { s.hier with sumSent := true, since := none } }
      if isRoot s then
        match jobOf s with
        | some j => issueRecord (rootVerdict s j false (sumGsq ms) (sumNonfin ms) (sumGmax ms) (sumCount ms)
            ((sumFlags ms).getLsbD 0)) s
        | none => s
      else sendUp (mkSum s ms) s

/-! ## Joining (R221) -/

def joinsOf (s : State) (t : BitVec 8) : List Line := s.hier.joins.filter fun m => msgType m == t

/-- A ring or a subtree that has joined says so to its parent, or the root opens the epoch (R221). -/
def joinIfWhole (s : State) : State :=
  let ringIn := allIn (membersOf s) (joinsOf s 6)
  let own := mkMsg s { type := 7, count := sumCount (joinsOf s 6) }
  let s := if isTreeNode s && ringIn && !((joinsOf s 7).any fun m => msgSrc m == contribOf s) then
    { s with hier := { s.hier with joins := s.hier.joins ++ [own] } } else s
  let whole := if isTreeNode s then allIn (childrenOf s) (joinsOf s 7) else ringIn
  if !whole || s.hier.joinSumSent || s.memb.hold ≠ 0 then s
  else
    let s := { s with hier := { s.hier with joinSumSent := true } }
    if isRoot s then deliver .self 0 (mkMsg s { type := 8, count := sumCount (joinsOf s 7) }) s
    else if isTreeNode s then sendUp (mkMsg s { type := 7, count := sumCount (joinsOf s 7) }) s
    else sendUp own s

/-! ## Judging a message (R223) -/

inductive MsgFate where
  | discard | keep | hold (cause : BitVec 8) | dup | accept
  deriving DecidableEq, Repr

/-- One count against another (R568): their difference modulo 256. -/
def attemptLower (a b : BitVec 8) : Bool := 128 ≤ (a - b)
def attemptGreater (a b : BitVec 8) : Bool := 0 < (a - b) && (a - b) < 128

/-- Bytes 0x10 to 0x3B (R223). -/
def msgBody (m : Line) : BitVec 352 := field m 128 352

/-- The earlier message that decides whether one is a duplicate: the one accepted from its source with its type, among
those of the step and attempt, or among joins (R223). -/
def earlier (s : State) (m : Line) : Option Line :=
  let t := msgType m
  let held := if joinType t then s.hier.joins else s.hier.got ++ s.hier.notices
  held.find? fun g => msgSrc g == msgSrc m && msgType g == t

/-- SRC stands where the type expects it. -/
def srcKnown (s : State) (m : Line) : Bool :=
  (membersOf s).contains (msgSrc m) || (isTreeNode s && (childrenOf s).contains (msgSrc m))

/-- The first row of R223 that applies; joins differ in their step (R221). -/
def msgFate (s : State) (m : Line) : MsgFate :=
  let join := joinType (msgType m)
  if !lineCrcOk m || magicOf m != magicHier then .discard
  else if (msgEpoch m).toNat < s.memb.epoch.toNat then .discard
  else if s.memb.epoch.toNat < (msgEpoch m).toNat then .keep
  else if !join && (msgStep m).toNat < s.step.step.toNat then .discard
  else if !join && (msgStep m).toNat = s.step.step.toNat + 1 then .keep
  else if !join && msgStep m = s.step.step && attemptLower (msgAttempt m) s.verdict.attempt then .discard
  else if !join && msgStep m = s.step.step && attemptGreater (msgAttempt m) s.verdict.attempt then .keep
  else if msgStep m ≠ s.step.step then .hold 5
  else if msgTag m ≠ activeTag s then .hold 1
  else if msgLsK m ≠ s.lscale.k.setWidth 8 then .hold 6
  else match earlier s m with
    | some g => if msgBody g = msgBody m then .dup else .hold 2
    | none => if srcKnown s m then .accept else .hold 1

/-- A message kept for later (R223). Of a later epoch there is at most one for its source and type, the latest to come
(DESIGN CHOICE, log 93); those of a later step or attempt are checked against each other when their time comes. -/
def keepMsg (s : State) (m : Line) : State :=
  let later := fun (x : Line) => s.memb.epoch.toNat < (msgEpoch x).toNat
  let same := fun (x : Line) => msgSrc x == msgSrc m && msgType x == msgType m && later x && later m
  { s with hier := { s.hier with kept := s.hier.kept.filter (fun x => !same x) ++ [m] } }

/-- An ABORT_NOTICE passes up through any hold; the root may make it the job's (R223, R229). -/
def abortUp (s : State) : State :=
  if isRoot s then (if jobFlag s 1 then issueAbort s else s)
  else sendToParent (mkMsg s { type := 5, count := 1 }) s

/-- The first message accepted for a step starts CONTRIB_TIMEOUT, a notice too (R230). -/
def startTimeout (s : State) : State :=
  { s with hier := { s.hier with
    since := if s.hier.since.isSome || s.hier.sumSent then s.hier.since else some (now s) } }

/-- An accepted message (R221-R225, R229, R230). -/
def acceptMsg (m : Line) (s : State) : State :=
  let t := msgType m
  if t = 1 || t = 2 then
    let s := startTimeout { s with hier := { s.hier with got := s.hier.got ++ [m] } }
    let s := if msgNonfin m ≠ 0 || msgOver m then skipUp m s else s
    sumIfWhole s
  else if joinType t then joinIfWhole { s with hier := { s.hier with joins := s.hier.joins ++ [m] } }
  else
    let s := startTimeout { s with hier := { s.hier with notices := s.hier.notices ++ [m] } }
    if t = 3 then skipUp m s
    else if t = 4 then
      (if s.memb.state == .joining then holdJoin (msgCause m) (msgStep m) (msgSrc m) s
       else holdStep (msgCause m) (msgStep m) (msgSrc m) s)
    else if t = 5 then abortUp s
    else s

/-- The report field of a hold: the tag for CONFIG_DIVERGED, the step for the others (R506). -/
def holdArg (cause : BitVec 8) (m : Line) : BitVec 32 := if cause = 1 then msgTag m else msgStep m

/-- A message holds the step or the join; a foreign tag is counted where it is the cause (R223, R240). -/
def holdFor (cause : BitVec 8) (m : Line) (s : State) : State :=
  let s := if cause = 1 && msgTag m ≠ activeTag s then countHier 1 1 s else s
  if joinType (msgType m) then holdJoin cause (holdArg cause m) (msgSrc m) s
  else holdStep cause (holdArg cause m) (msgSrc m) s

/-- A message of the step for which the root has issued an early record (R225). -/
def afterEarly (s : State) (m : Line) : Bool :=
  isRoot s && s.hier.early && !joinType (msgType m) && msgStep m == s.step.step

/-- An aggregator takes a message from below (R221, R223). After its record the root takes no further
message of the step, and after an early one it discards them all (R225). -/
def aggregate (m : Line) (s : State) : State :=
  if !isManager s then s
  else match msgFate s m with
    | .discard => countHier 2 1 s
    | .keep => keepMsg s m
    | .dup => if afterEarly s m then s else countHier 0 1 s
    | .accept =>
      if isRoot s && !joinType (msgType m) && s.hier.issued = some (s.step.step, s.verdict.attempt) then s
      else acceptMsg m s
    | .hold cause => if afterEarly s m then s else holdFor cause m s

/-- Kept messages are checked again from the first row (R223). -/
def recheckKept (s : State) : State :=
  let ms := s.hier.kept
  ms.foldl (fun s m => aggregate m s) { s with hier := { s.hier with kept := [] } }

/-! ## Sending this instance's own (R223) -/

/-- GSQ of the contribution (R223): the accumulator times 2^-80, or infinity. -/
def ownGsq (s : State) (excess : Bool) : F64 :=
  if excess then f64Of (.inf false) else f64Of (.fin false s.tongue.acc (-80))

/-- The contribution leaves and PHASE becomes AWAIT_VERDICT (R223, R28). A manager's own is taken as any
other's. While this instance holds, nothing of it leaves. -/
def contribute (s : State) : State :=
  let excess := (validTensors s).any fun t => (normOf s t).overrange
  let m := mkMsg s { type := 1, gsq := ownGsq s excess, gmax := s.tongue.gmax
                     nonfin := BitVec.ofNat 32 s.tongue.nonfin, count := 1
                     flags := (if excess then 1 else 0) ||| (if s.tongue.usedNorm then 2 else 0) }
  let s := { s with step := { s.step with phase := .awaitVerdict }, tongue := { s.tongue with norm := none } }
  if s.verdict.holding && !isManager s then s
  else sendToManager 1 m { s with hier := { s.hier with
    contribSent := true, unresolved := s.hier.unresolved ++ [m] } }

/-- A join message leaves (R221). -/
def sendJoin (s : State) : State :=
  let m := mkMsg s { type := 6, count := 1 }
  sendToManager 0 m { s with hier := { s.hier with unresolved := s.hier.unresolved ++ [m] } }

/-! ## Attempts, steps, epochs (R568, R221) -/

/-- What the aggregator holds of an attempt goes with it. -/
def forgetAttempt (s : State) : State :=
  { s with
    hier := { s.hier with
      got := [], notices := [], sumSent := false, skipSent := false, since := none, expired := false, issued := none
      early := false, contribSent := false
      unresolved := s.hier.unresolved.filter fun m => joinType (msgType m) }
    verdict := { s.verdict with holding := false, holdCause := 0, seen := none, ignored := [] } }

/-- An applied SKIP or ABORT record raises the attempt count (R568). -/
def nextAttempt (s : State) : State :=
  let s := forgetAttempt s
  recheckKept { s with verdict := { s.verdict with attempt := s.verdict.attempt + 1 } }

/-- STEP takes a new value (R29, R568). -/
def setStep (n : BitVec 32) (s : State) : State :=
  let s := forgetAttempt { s with step := { s.step with step := n } }
  recheckKept { s with
    verdict := { s.verdict with attempt := 0, applied := false }
    ring := { s.ring with lastRecord := none } }

/-- A scheduled epoch is applied: JOINING, and JOIN leaves (R219, R221). -/
def applyMemb (s : State) : State :=
  match s.memb.pending with
  | some (e, _) =>
    let clear := s.step.phase == .idle
    let s := { s with
      memb := { s.memb with epoch := e, state := .joining, hold := 0, pending := none, joinedAt := now s }
      hier := { s.hier with
        got := [], joins := [], notices := [], joinSumSent := false, sumSent := false, skipSent := false
        since := none, expired := false
        unresolved := [], issued := none, early := false }
      ring := { s.ring with lastOpen := none }
      verdict := { s.verdict with
        seen := none, ignored := [], holding := s.verdict.holding && !clear
        holdCause := if clear then 0 else s.verdict.holdCause } }
    recheckKept (sendJoin s)
  | none => s

/-- A write of MEMB_COMMIT (R219). -/
def writeMembCommit (w : Word) (s : State) : State :=
  if !w.getLsbD 0 then s
  else
    let e : BitVec 8 := if (planOf s).isNone then 4 else if s.memb.pending.isSome then 3
      else if !(s.step.phase == .idle || s.step.phase == .observe) then 1
      else if s.memb.stage.toNat ≤ s.memb.epoch.toNat then 2 else 0
    let s := { s with memb := { s.memb with err := e } }
    if e = 0 then
      { s with memb := { s.memb with pending := some (s.memb.stage, nextBoundary (now s) 64) } }
    else s

/-- MEMB_COMMIT (R219). -/
def execMembCommit (w : Word) (s : State) : Out := .next (ctlWrite 0x010208 w (writeMembCommit w) s)

/-! ## Messages as they arrive (R218, R221, R228) -/

/-- A receive buffer of a link is freed (R405). -/
def freeBuffer (d : Side) (vc : BitVec 2) (s : State) : State :=
  setLink d (fun l => { l with gave := l.gave.modify vc.toNat (· + 1) }) s

/-- A message is taken from where it waits; a frame's buffer is free from then on. -/
def takeInbox (src : Source) (m : Line) (s : State) : State :=
  match s.hier.inbox.find? fun x => x.src == src && x.m == m with
  | some x =>
    let s := { s with hier := { s.hier with inbox := s.hier.inbox.erase x } }
    match src with
    | .east => freeBuffer .east x.vc s
    | .west => freeBuffer .west x.vc s
    | .fmp | .self => s
  | none => s

/-- A message from below, at an instance that works. -/
def fromBelow (src : Source) (m : Line) (s : State) : State :=
  let s := takeInbox src m s
  if working s then aggregate m s else s

/-- EPOCH_OPEN of the instance's own epoch (R221). A manager passes it down and around its ring. -/
def takeOpen (src : Source) (m : Line) (s : State) : State :=
  let s := takeInbox src m s
  if !working s then s
  else if !lineCrcOk m || magicOf m != magicHier then countHier 2 1 s
  else
    let s := if isManager s && (src == .fmp || src == .self) then
        broadcast 0 m (sendBelow m { s with ring := { s.ring with lastOpen := some m } })
      else s
    if msgEpoch m = s.memb.epoch && s.memb.state == .joining then
      let s := { s with
        memb := { s.memb with state := .opened, hold := 0 }
        hier := { s.hier with unresolved := s.hier.unresolved.filter fun x => !joinType (msgType x) }
        verdict := { s.verdict with attempt := 0 } }
      bootTo 8 (pulse 5 s)
    else s

/-- CONTRIB (R223). -/
def execContrib (src : Source) (m : Line) (s : State) : Out := .next (fromBelow src m s)
/-- SUM (R224). -/
def execSum (src : Source) (m : Line) (s : State) : Out := .next (fromBelow src m s)
/-- SKIP_NOTICE (R225). -/
def execSkipNotice (src : Source) (m : Line) (s : State) : Out := .next (fromBelow src m s)
/-- HOLD_NOTICE (R223). -/
def execHoldNotice (src : Source) (m : Line) (s : State) : Out := .next (fromBelow src m s)
/-- ABORT_NOTICE (R229). -/
def execAbortNotice (src : Source) (m : Line) (s : State) : Out := .next (fromBelow src m s)
/-- JOIN (R221). -/
def execJoin (src : Source) (m : Line) (s : State) : Out := .next (fromBelow src m s)
/-- JOIN_SUM (R221). -/
def execJoinSum (src : Source) (m : Line) (s : State) : Out := .next (fromBelow src m s)
/-- EPOCH_OPEN (R221). -/
def execEpochOpen (src : Source) (m : Line) (s : State) : Out := .next (takeOpen src m s)

/-- Something that an aggregator expects is still missing; after an early record the root waits for nothing. -/
def sumMissing (s : State) : Bool :=
  isManager s && s.hier.since.isSome && !s.hier.expired && !s.hier.sumSent && !(isRoot s && s.hier.early)

/-- CONTRIB_TIMEOUT (R230): not before the time has passed. -/
def execContribTimeout (s : State) : Out :=
  .next (match s.hier.since, jobOf s with
    | some t, some j =>
      if working s && sumMissing s && t + j.contribTimeout.toNat ≤ now s then
        let s := countHier 3 1 { s with hier := { s.hier with expired := true } }
        holdStep 3 s.step.step (contribOf s) s
      else s
    | _, _ => s)

/-- JOIN_TIMEOUT (R221, R231). -/
def execJoinTimeout (s : State) : Out :=
  .next (match jobOf s with
    | some j =>
      if working s && s.memb.state == .joining && s.memb.joinedAt + j.joinTimeout.toNat ≤ now s then epochFail s
      else s
    | none => s)

end Sys2Proof.Machine
end

