-- ==== Sys2Proof/Machine/Lanes.lean ====
section
/-! DEFINITION. The serial lanes of a Xedar link: which lane carries which bits of a frame, the scramblers, and what the
chameleon lanes carry in each phase (R396, R399-R402, R407, R408, R415, R418). -/
namespace Sys2Proof.Machine

/-! ## Frames on data lanes (R399) -/

/-- Data lanes of a width; UI that a frame takes on them. -/
def laneCount (w4 : Bool) : Nat := if w4 then 4 else 8
def frameUi (w4 : Bool) : Nat := if w4 then 144 else 72

/-- Byte k of a frame travels on this data lane, in this byte slot. -/
def laneOfByte (w4 : Bool) (k : Nat) : Nat := k % laneCount w4
def slotOfByte (w4 : Bool) (k : Nat) : Nat := k / laneCount w4

/-- The bits of data lane j while a frame passes, UI 0 as bit 0. -/
def laneBits (w4 : Bool) (f : BitVec 576) (j : Nat) : BitVec 144 :=
  (List.range (72 / laneCount w4)).foldl (fun b t =>
    b ||| ((field f (8 * (t * laneCount w4 + j)) 8 : BitVec 8).setWidth 144) <<< (8 * t)) 0

/-- The frame that data lanes bring, lane 0 first. -/
def frameOfLanes (w4 : Bool) (lanes : List (BitVec 144)) : BitVec 576 :=
  (List.range 72).foldl (fun f k =>
    f ||| ((field (lanes.getD (laneOfByte w4 k) 0) (8 * slotOfByte w4 k) 8 : BitVec 8).setWidth 576) <<< (8 * k)) 0

/-! ## Scramblers (R400) -/

/-- The seed of lane Pp. -/
def scramSeed (p : Nat) : BitVec 23 := 0x7FFFFF ^^^ BitVec.ofNat 23 (p * 0x010203)

/-- The bit that a scrambler puts out, and the register after it. -/
def scramBit (r : BitVec 23) : Bool := xor (r.getLsbD 22) (r.getLsbD 17)
def scramNext (r : BitVec 23) : BitVec 23 := (r <<< 1) ||| (BitVec.ofBool (scramBit r)).setWidth 23

/-- The register n UI later. -/
def scramAfter : Nat → BitVec 23 → BitVec 23
  | 0, r => r
  | n + 1, r => scramAfter n (scramNext r)

/-- n bits of a lane, XORed with its scrambler: the receiver's descrambling is the same. -/
def scramble : Nat → Nat → BitVec 23 → BitVec 144 → BitVec 144
  | 0, _, _, b => b
  | n + 1, i, r, b =>
    scramble n (i + 1) (scramNext r) (if scramBit r then b ^^^ ((1 : BitVec 144) <<< i) else b)

/-- The scramblers of P0 to P9 as they stand after a RUN marker. -/
def scramStart : List (BitVec 23) := (List.range 10).map scramSeed

def scramAll (n : Nat) (rs : List (BitVec 23)) : List (BitVec 23) := rs.map (scramAfter n)

/-! ## The lane map (R396, R408) -/

/-- Lanes of a mask, in the order given. -/
def lanesOf (good : BitVec 12) (l : List Nat) : List Nat := l.filter fun k => good.getLsbD k

/-- The physical lanes of data lanes 0, 1, … of a map. -/
def dataLanes (good : BitVec 12) (c0 c1 : BitVec 4) (w4 : Bool) : List Nat :=
  ((lanesOf good (List.range 10)).filter fun k => k != c0.toNat && k != c1.toNat).take (laneCount w4)

/-- The lanes of the stored receive map: roles, and the data lanes of its width. -/
def mapLanes (l : LinkEnd) : List Nat :=
  l.rxC0.toNat :: l.rxC1.toNat :: dataLanes l.rxGood l.rxC0 l.rxC1 l.rxWidth4

/-- The receiver's map (R408): C0, C1, and whether the width is 4; none where no map can be chosen. -/
def chooseMap (good : BitVec 12) : Option (BitVec 4 × BitVec 4 × Bool) :=
  let spares := lanesOf good [8, 9]
  let c0 := if good.getLsbD 10 then some 10 else spares.head?
  let rest := spares.filter fun k => some k != c0
  let c1 := if good.getLsbD 11 then some 11 else rest.head?
  match c0, c1 with
  | some a, some b =>
    let data := (lanesOf good (List.range 10)).filter fun k => k != a && k != b
    if 8 ≤ data.length then some (BitVec.ofNat 4 a, BitVec.ofNat 4 b, false)
    else if 4 ≤ data.length then some (BitVec.ofNat 4 a, BitVec.ofNat 4 b, true)
    else none
  | _, _ => none

/-- What the physical lanes carry while a frame is sent, and the scramblers after it (R399, R400). -/
def driveLanes (f : BitVec 576) (l : LinkEnd) : LinkEnd :=
  let lanes := dataLanes l.txGood l.txC0 l.txC1 l.txWidth4
  let n := frameUi l.txWidth4
  { l with
    lanesTx := (lanes.zipIdx).map fun (p, j) =>
      (BitVec.ofNat 4 p, scramble n 0 (l.txScr.getD p 0) (laneBits l.txWidth4 f j))
    txScr := scramAll n l.txScr }

/-- A frame has passed on the receive lanes (R400). -/
def rxAdvance (l : LinkEnd) : LinkEnd := { l with rxScr := scramAll (frameUi l.rxWidth4) l.rxScr }

/-! ## The chameleon lanes (R396, R401, R402, R407, R408, R415, R418) -/

/-- A word of 48 UI: preamble, 24 payload bits, CRC, the first UI as bit 0 (R402, R408). -/
def chameleonWordOf (preamble : BitVec 8) (payload : BitVec 24) : BitVec 48 := crc16Word payload ++ payload ++ preamble

/-- The payloads of the words on C0 and C1 in RUN (R402). -/
def creditPayload (l : LinkEnd) : BitVec 24 :=
  BitVec.ofNat 24 (l.gave.getD 0 0 % 64 + 64 * (l.gave.getD 1 0 % 64) + 4096 * (l.gave.getD 2 0 % 64))
def ackPayload (l : LinkEnd) : BitVec 24 := l.ackSeq.setWidth 24 ||| ((BitVec.ofBool l.nakDue).setWidth 24) <<< 12

/-- The map word of a receiver that has chosen its map: lanes good, width, roles (R408). -/
def mapPayload (good : BitVec 12) : BitVec 24 :=
  match chooseMap good with
  | some (c0, c1, w4) =>
    good.setWidth 24 ||| ((BitVec.ofBool w4).setWidth 24) <<< 12 ||| (c0.setWidth 24) <<< 13 ||| (c1.setWidth 24) <<< 17
  | none => good.setWidth 24

/-- A level held for 48 UI. -/
def steady (b : Bool) : BitVec 48 := if b then BitVec.allOnes 48 else 0

/-- A PATTERN step's bit of lane Pp in UI n: the lane's scrambler sequence, 4,096 UI long, repeated; C0's strobe (R407). -/
def patternBit (p n : Nat) : Bool := scramBit (scramAfter (n % 4096) (scramSeed p))
def strobeBit (n : Nat) : Bool := n % 4096 == 0

/-- 48 UI, from UI n of the step on, of C0 and of C1 as this end drives them; in RUN from a word boundary. -/
def chameleonOut (l : LinkEnd) (n : Nat) : BitVec 48 × BitVec 48 :=
  let bits (f : Nat → Bool) : BitVec 48 :=
    (List.range 48).foldl (fun b i => if f (n + i) then b ||| ((1 : BitVec 48) <<< i) else b) 0
  match l.train, l.txPhase with
  | some t, _ =>
    match t.step with
    | .clock => (0, 0)
    | .pattern => (bits strobeBit, bits (patternBit 11))
    | .margin => (bits strobeBit, bits (patternBit 11))
    | .map => let w := chameleonWordOf 0xF0 (mapPayload t.good); (w, w)
    | .identity => (0, 0)
  | none, .run | none, .quarantine => (chameleonWordOf 0x01 (creditPayload l), chameleonWordOf 0x01 (ackPayload l))
  | none, .verdict => (steady (l.flashOut.code.getLsbD 0), steady (l.flashOut.code.getLsbD 1))
  | none, _ => (0, 0)

/-- C0 and C1 while this end wakes a sleeping link: C0 toggles every UI for 64 UI (R418). -/
def wakeOut : BitVec 64 × BitVec 64 := ((0x5555555555555555 : BitVec 64), 0)

/-- The two bytes of a marker: C0's, and its complement on C1 (R401). -/
def markerOut (c0 : BitVec 8) : BitVec 8 × BitVec 8 := (c0, ~~~c0)

/-! ## Time in UI (R14, R396, R417) -/

/-- UI of a CRC window; a port cycle takes 12 UI. -/
def crcWindowUi : Nat := 2 ^ 20

/-- The number of the CRC window that the time lies in, counted from the last training (R16, R417). -/
def crcWindowOf (s : State) (l : LinkEnd) : Nat := 12 * (portNow s - l.trainedAt) / crcWindowUi

/-- CRC errors count anew in a new window (R16, R417). -/
def crcRoll (s : State) (l : LinkEnd) : LinkEnd :=
  if crcWindowOf s l = l.crcWindow then l else { l with crcWindow := crcWindowOf s l, crcErrors := 0 }

end Sys2Proof.Machine
end

