-- ==== Sys2Proof/Machine/Link.lean ====
section
/-! DEFINITION. The Xedar links and the fabric message port: training, identity, frames, replay, the ring,
sleep, messages between packages (R396-R429). -/
namespace Sys2Proof.Machine

/-! ## Segments and routes as they change (R411, R413, R414) -/

/-- The link-state flit of this instance (R411). -/
def linkStateFlit (s : State) : Line :=
  let n := ringSize s
  let p := ringPos s
  let bit := fun (d : Side) => if linkUp (link s d) then (1 : BitVec 16) <<< segOf n p d else 0
  putLine 0x00 magicLinkState ||| putLine 0x02 (1 : BitVec 8) ||| putLine 0x03 (BitVec.ofNat 8 p) |||
    putLine 0x04 (bit .east ||| bit .west)

/-- SEG_UP with this instance's own segments as it sees them. -/
def ownSegments (s : State) : BitVec 16 :=
  let n := ringSize s
  let p := ringPos s
  [Side.east, Side.west].foldl (fun g d =>
    let b : BitVec 16 := (1 : BitVec 16) <<< segOf n p d
    if linkUp (link s d) then g ||| b else g &&& ~~~b) s.ring.segUp

/-- JOIN, CONTRIB and SUM whose outcome has not come are sent again on the route that now holds (R413). -/
def resendUnresolved (s : State) : State :=
  s.hier.unresolved.foldl (fun s m => if isManager s then s
    else sendToManager (if joinType (msgType m) then 0 else 1) m s) s

/-- The manager sends its last record and its last EPOCH_OPEN again (R413). -/
def resendRing (s : State) : State :=
  let s := match s.ring.lastRecord with
    | some r => broadcast 0 r s
    | none => s
  match s.ring.lastOpen with
  | some m => broadcast 0 m s
  | none => s

/-- What a change of SEG_UP leads to (R413, R414). -/
def ringChanged (old : Option (Side × Nat)) (back : Bool) (s : State) : State :=
  if isManager s then (if reachAll s then resendRing s else epochFail (resendRing s))
  else match routeTo s (managerPos s) with
    | none => epochFail s
    | r => if r ≠ old || back then resendUnresolved s else s

/-- Takes note of a change of this instance's own segments (R411). -/
def segSettle (s : State) : State :=
  if (planOf s).isNone || ringSize s ≤ 1 then s
  else
    let g := ownSegments s
    if g = s.ring.segUp then s
    else
      let old := routeTo s (managerPos s)
      let back := g &&& ~~~s.ring.segUp ≠ 0
      let s := { s with ring := { s.ring with segUp := g, lastState := now s } }
      ringChanged old back (broadcast 0 (linkStateFlit s) s)

/-- Start-up step 7 is over once each expected link is in RUN, QUARANTINE or DOWN: BOOT shows JOIN (R484). -/
def bootLinks (s : State) : State :=
  let settled (d : Side) : Bool := !expected s d || (match (link s d).txPhase with
    | .off | .train => false
    | _ => true)
  if s.boot.code == 6 && settled .east && settled .west then bootTo 7 s else s

/-! ## Training (R407, R417, R428) -/

def sideBit (d : Side) : Nat := match d with
  | .east => 0
  | .west => 1

/-- Training begins at CLOCK (R407). A full training restarts SEQ, ACK_SEQ, buffers and credits; a retrain
keeps them (R417, R428). -/
def startTraining (d : Side) (retrain : Bool) (s : State) : State :=
  let t : Training := { step := .clock, since := now s, retrain := retrain }
  let s := countLink d 5 1 (setLink d (fun l =>
    let l := { l with
      txPhase := .train, rxPhase := .train, train := some t, lastMarker := 0x96
      flashOut := .hold, flashDue := none, sleepSent := false, sleepGot := false }
    if retrain then l
    else { l with
      txSeq := 0, replay := [], resend := [], ackSeq := 0xFFF, nakDue := false, nakOut := false
      sent := [0, 0, 0], freed := [0, 0, 0], gave := [0, 0, 0], own := [], transit := [] }) s)
  if retrain then s
  else { s with hier := { s.hier with inbox := s.hier.inbox.filter fun m =>
    m.src != (match d with
      | .east => Source.east
      | .west => Source.west) } }

/-- A training has ended: RETRAIN and GCTL's link reset read 0 again (R423, R472). -/
def trainingOver (d : Side) (s : State) : State :=
  let s := setLink d (fun l => { l with train := none, retrainBit := false }) s
  match d with
  | .east => { s with boot := { s.boot with linkResetE := false } }
  | .west => { s with boot := { s.boot with linkResetW := false } }

/-- The link goes DOWN with a cause (R407, R408, R410, R417, R423). -/
def goDown (d : Side) (cause : BitVec 8) (s : State) : State :=
  let s := trainingOver d (setLink d (fun l => { l with
    txPhase := .down, rxPhase := .down, downCause := cause, replay := [], resend := [], own := [], transit := []
    downAt := now s, flashOut := .hold, flashDue := none }) s)
  let s := report 0x0904 (putBit 8 (sideBit d == 1) ||| put 0 cause) s
  if expected s d then croakSet 0x02 s else s

/-- An attempt has failed: again from CLOCK, or DOWN after the third in a row (R407). A wake becomes a
retrain (R418). -/
def trainFail (d : Side) (s : State) : State :=
  match (link s d).train with
  | some t =>
    let s := setLink d (fun l => { l with failed := l.failed + 1 }) s
    if 3 ≤ (link s d).failed then goDown d 3 s
    else if t.wake then startTraining d true s
    else setLink d (fun l => { l with
      train := some { step := .clock, since := now s, retrain := t.retrain } }) s
  | none => s

/-- A link whose training starts anew from nothing, or stays OFF where no neighbour is expected (R397,
R428). -/
def linkRestart (d : Side) (s : State) : State :=
  if expected s d then
    (if (link s d).holdDown then goDown d 5 s else startTraining d false (setLink d (fun l => { l with failed := 0 }) s))
  else trainingOver d (setLink d (fun l => { l with
    txPhase := .off, rxPhase := .off, replay := [], resend := [], own := [], transit := [] }) s)

def setTraining (d : Side) (f : Training → Training) (s : State) : State :=
  setLink d (fun l => { l with train := l.train.map f }) s

def trainStep (s : State) (d : Side) : Option TrainStep := (link s d).train.map (·.step)

/-- CLOCK ends (R407). -/
def clockDone (d : Side) (locked : Bool) (s : State) : State :=
  if trainStep s d = some .clock then
    (if locked then setTraining d (fun t => { t with step := .pattern, since := now s }) s else trainFail d s)
  else s

/-- PATTERN ends (R407, R418). -/
def patternDone (d : Side) (errors : BitVec 12) (s : State) : State :=
  match (link s d).train with
  | some t =>
    if t.step != .pattern then s
    else if t.wake then
      (if (mapLanes (link s d)).any fun k => errors.getLsbD k then startTraining d true s
       else setTraining d (fun t => { t with step := .identity, since := now s }) s)
    else setTraining d (fun t => { t with step := .margin, since := now s, good := t.good &&& ~~~errors }) s
  | none => s

/-- MARGIN ends, and MAP begins with the receiver's choice (R407, R408, R424). -/
def marginDone (d : Side) (margins : BitVec 96) (s : State) : State :=
  match (link s d).train with
  | some t =>
    if t.step != .margin then s
    else
      let ms := (List.range 12).map fun k =>
        if t.good.getLsbD k then (field margins (8 * k) 8 : BitVec 8) else 0
      let good := (List.range 12).foldl (fun (g : BitVec 12) k =>
        if (ms.getD k 0).toNat < 20 then g &&& ~~~((1 : BitVec 12) <<< k) else g) t.good
      let s := setLink d (fun l => { l with
        margins := ms, train := some { t with step := .map, since := now s, good := good } }) s
      if (chooseMap good).isSome then s else goDown d 2 s
  | none => s

/-- A good map word is taken, and both maps are fixed (R408). A bad one is not taken. -/
def mapWordIn (d : Side) (word : BitVec 24) (crc : BitVec 16) (s : State) : State :=
  match (link s d).train with
  | some t =>
    if t.step != .map || crc16Word word != crc then s
    else match chooseMap t.good with
      | none => goDown d 2 s
      | some (c0, c1, w4) =>
        setLink d (fun l => { l with
          rxC0 := c0, rxC1 := c1, rxWidth4 := w4, rxGood := t.good
          txGood := field word 0 12, txWidth4 := word.getLsbD 12, txC0 := field word 13 4, txC1 := field word 17 4
          train := some { t with step := .identity, since := now s, mapTaken := true } }) s
  | none => s

/-! ## Frames (R398, R402, R403) -/

def frameHeader (f : BitVec 576) : BitVec 48 := field f 0 48
def framePayload (f : BitVec 576) : Line := field f 48 512
def frameCrcOk (f : BitVec 576) : Bool := field f 560 16 == crc16 (field f 0 560) 70
def hKind (h : BitVec 48) : BitVec 3 := field h 45 3
def hVc (h : BitVec 48) : BitVec 2 := field h 43 2
def hSeq (h : BitVec 48) : BitVec 12 := field h 31 12
def hAck (h : BitVec 48) : BitVec 12 := field h 19 12

/-- A frame of the fields of R398. -/
def mkFrame (kind : BitVec 3) (vc : BitVec 2) (seq ack : BitVec 12) (nak : Bool) (crVc : BitVec 2)
    (crCount : BitVec 6) (dest src : BitVec 4) (bcast : Bool) (payload : Line) : BitVec 576 :=
  let h : BitVec 48 := kind ++ vc ++ seq ++ ack ++ (BitVec.ofBool nak) ++ crVc ++ crCount ++ dest ++ src ++
    (BitVec.ofBool bcast) ++ (0 : BitVec 1)
  let body : BitVec 560 := payload ++ h
  crc16 body 70 ++ body

/-- An acknowledgement: frames up to it are released; a NAK asks for the rest again (R404). -/
def useAck (d : Side) (ack : BitVec 12) (nak : Bool) (s : State) : State :=
  setLink d (fun l =>
    let l := match l.replay.findIdx? fun f => f.seq == ack with
      | some i =>
        let gone := (l.replay.take (i + 1)).map (·.seq)
        { l with
          replay := l.replay.drop (i + 1)
          resend := l.resend.filter fun f => !gone.contains f.seq
          timer := now s, timeouts := 0 }
      | none => l
    if nak then { l with resend := l.replay } else l) s

/-- A cumulative count of freed buffers, modulo 64 (R402, R405). -/
def useCredit (d : Side) (vc : Nat) (count : BitVec 6) (s : State) : State :=
  setLink d (fun l =>
    let old := l.freed.getD vc 0
    let new := old + (count - BitVec.ofNat 6 old).toNat
    if vc < 3 && new ≤ l.sent.getD vc 0 then { l with freed := l.freed.set vc new } else l) s

/-- The next acknowledgement carries a NAK unless one is outstanding (R403). -/
def askNak (d : Side) (s : State) : State :=
  setLink d (fun l => if l.nakOut then l else { l with nakDue := true, nakOut := true }) s

/-- A direction that carries frames. -/
def LPhase.carries : LPhase → Bool
  | .run | .verdict | .quarantine => true
  | _ => false

/-- The link runs, so that a failure retrains it (R417). -/
def linkRuns (l : LinkEnd) : Bool :=
  l.txPhase == .run || l.txPhase == .verdict || l.rxPhase == .run || l.rxPhase == .verdict

/-- The position that a frame leaving on a side reaches next (R397). -/
def nextPos (s : State) (d : Side) : Nat :=
  let n := max (ringSize s) 1
  match d with
  | .east => (ringPos s + 1) % n
  | .west => (ringPos s + n - 1) % n

/-- A frame leaves onward on the other link; one that it cannot carry ends here (R412). -/
def forwardFrame (d : Side) (f : LFrame) (s : State) : State :=
  let o := Side.other d
  let l := link s o
  if l.txPhase == .off || l.txPhase == .down || l.txPhase == .quarantine then
    (if f.transit then freeBuffer d f.vc s else s)
  else linkWake o (setLink o (fun l => { l with transit := l.transit ++ [f] }) s)

def sourceOf : Side → Source
  | .east => .east
  | .west => .west

/-- A frame for this position, by its MAGIC (R400, R410, R412). -/
def deliverFrame (d : Side) (vc : BitVec 2) (m : Line) (s : State) : State :=
  let q := (link s d).rxPhase == .quarantine
  let g := magicOf m
  if g = magicLinkState || g = magicTest then deliver (sourceOf d) vc m s
  else if g = magicHier || g = magicVerdict then
    (if q then freeBuffer d vc s else deliver (sourceOf d) vc m s)
  else freeBuffer d vc (countLink d 8 1 s)

/-- An accepted DATA frame: delivered, forwarded, or both (R412, R419). -/
def routeFrame (d : Side) (h : BitVec 48) (m : Line) (s : State) : State :=
  let dest : BitVec 4 := field h 6 4
  let src : BitVec 4 := field h 2 4
  let bcast := h.getLsbD 1
  let f : LFrame := { vc := hVc h, payload := m, dest := dest, src := src, bcast := bcast, transit := !bcast }
  if bcast then
    let s := if nextPos s (Side.other d) = src.toNat then s else forwardFrame d f s
    deliverFrame d (hVc h) m s
  else if dest.toNat = ringPos s || magicOf m == magicTest then deliverFrame d (hVc h) m s
  else forwardFrame d f s

/-- A received frame (R403, R417); the receive scramblers advance by its UI (R400). -/
def frameIn (d : Side) (f : BitVec 576) (s : State) : State :=
  let l := link s d
  if !l.rxPhase.carries then s
  else
  let s := setLink d rxAdvance s
  if !frameCrcOk f then
    let s := setLink d (crcRoll s) s
    let s := askNak d (countLink d 0 1 (setLink d (fun l => { l with crcErrors := l.crcErrors + 1 }) s))
    if 16 ≤ (link s d).crcErrors && linkRuns l then startTraining d true s else s
  else
    let h := frameHeader f
    let s := useCredit d (fieldNat h 16 2) (field h 10 6) (useAck d (hAck h) (h.getLsbD 18) s)
    if hKind h = 1 then
      let ahead := hSeq h - (l.ackSeq + 1)
      if ahead = 0 then
        routeFrame d h (framePayload f)
          (setLink d (fun l => { l with ackSeq := hSeq h, nakDue := false, nakOut := false }) s)
      else if ahead < 2048 then askNak d s
      else countLink d 4 1 s
    else s

/-- A chameleon word: credits on C0, an acknowledgement on C1 (R402). -/
def chameleonIn (d : Side) (lane : Bool) (word : BitVec 24) (crc : BitVec 16) (s : State) : State :=
  if !((link s d).rxPhase == .run || (link s d).rxPhase == .quarantine) || crc16Word word != crc then s
  else if lane then useAck d (field word 0 12) (word.getLsbD 12) s
  else useCredit d 2 (field word 12 6) (useCredit d 1 (field word 6 6) (useCredit d 0 (field word 0 6) s))

/-! ## Sending (R404-R406) -/

/-- Buffers of the far receiver (R405). -/
def vcSize (v : Nat) : Nat := if v = 0 then 32 else if v = 1 then 96 else 128

def credits (l : LinkEnd) (v : Nat) : Nat := vcSize v - (l.sent.getD v 0 - l.freed.getD v 0)

/-- The frame that a queue may send on a VC: with its need of credits, and on a quarantined link only
link state and test (R406, R410). -/
def queueHead (l : LinkEnd) (q : List LFrame) (v need : Nat) : Option LFrame :=
  if credits l v < need then none
  else q.find? fun f => f.vc.toNat == v &&
    (l.txPhase != .quarantine || magicOf f.payload == magicLinkState || magicOf f.payload == magicTest)

/-- Transit before own, on one VC (R406). -/
def vcHead (l : LinkEnd) (v : Nat) : Option (Bool × LFrame) :=
  match queueHead l l.transit v 1 with
  | some f => some (true, f)
  | none => (queueHead l l.own v 2).map fun f => (false, f)

/-- The new frame of the slot (R406). -/
def pickFrame (l : LinkEnd) : Option (Bool × LFrame) :=
  if 256 ≤ l.replay.length then none
  else match vcHead l 0 with
    | some x => some x
    | none =>
      let late := 8 ≤ l.vc2Wait
      match (if late then vcHead l 2 else vcHead l 1) with
      | some x => some x
      | none => if late then vcHead l 1 else vcHead l 2

/-- A test flit (R419). -/
def testFlit (i : BitVec 32) : Line :=
  (List.range 56).foldl (fun l k => l ||| putLine (8 + k) (BitVec.ofNat 8 (i.toNat + 8 + k)))
    (putLine 0x00 magicTest ||| putLine 0x04 i)

/-- Whether a test flit may go in this slot (R406, R419). -/
def testWanted (l : LinkEnd) : Bool :=
  l.test && l.proto == 2 && !l.testLast && l.own.isEmpty && l.transit.isEmpty && l.replay.length < 256 && 2 ≤ credits l 2

/-- The IDENT payload of this instance (R409). -/
def identPayload (d : Side) (s : State) : Line :=
  let plan := (planOf s).isSome
  sealLine (putLine 0x00 magicIdent ||| putLine 0x02 (1 : BitVec 8) ||| putLine 0x03 (BitVec.ofNat 8 (sideBit d)) |||
    putLine 0x04 (1 : BitVec 8) ||| putLine 0x05 (2 : BitVec 8) |||
    putLine 0x06 (if plan then BitVec.ofNat 8 (ringPos s) else 0xFF) |||
    putLine 0x07 (if plan then BitVec.ofNat 8 (ringSize s) else 0) |||
    putLine 0x08 s.vault.instanceId ||| putLine 0x10 (0x03000000 : BitVec 32) ||| putLine 0x14 (activeTag s) |||
    putLine 0x18 (contribOf s) ||| putLine 0x1A (if plan then (1 : BitVec 8) else 0))

/-- Drives a frame of a kind with this instance's acknowledgement and credits in its header (R402). -/
def driveFrame (d : Side) (kind : BitVec 3) (vc : BitVec 2) (seq : BitVec 12) (dest src : BitVec 4) (bcast : Bool)
    (payload : Line) (s : State) : State :=
  let l := link s d
  let frame := mkFrame kind vc seq l.ackSeq l.nakDue l.crVc (BitVec.ofNat 6 (l.gave.getD l.crVc.toNat 0))
    dest src bcast payload
  let s := setLink d (fun l => driveLanes frame { l with
    lastTx := frame, nakDue := false, crVc := if l.crVc = 2 then 0 else l.crVc + 1 }) s
  if l.nakDue then countLink d 1 1 s else s

/-- A new DATA frame takes the next SEQ and stays in the replay buffer (R403, R404). -/
def sendData (d : Side) (f : LFrame) (s : State) : State :=
  let l := link s d
  let f := { f with seq := l.txSeq }
  let s := driveFrame d 1 f.vc f.seq f.dest f.src f.bcast f.payload s
  setLink d (fun l => { l with
    txSeq := l.txSeq + 1, replay := l.replay ++ [f]
    timer := if l.replay.isEmpty then now s else l.timer
    sent := l.sent.modify f.vc.toNat (· + 1), sleepSent := false }) s

/-- The link may sleep: this end permits it, or the engine is in RETAIN (R418, R482). -/
def sleepAllowed (s : State) (d : Side) : Bool :=
  let l := link s d
  (l.sleepOn || s.power.state == .retain) && l.txPhase == .run && l.own.isEmpty && l.transit.isEmpty &&
    l.replay.isEmpty && !(l.test && l.proto == 2)

/-- Both SLEEP markers have passed (R418). -/
def sleepIfBoth (d : Side) (s : State) : State :=
  setLink d (fun l => if l.sleepSent && l.sleepGot then { l with txPhase := .sleep, rxPhase := .sleep } else l) s

/-- A NULL frame, or the SLEEP marker where the link may sleep (R399, R418). -/
def sendIdle (d : Side) (s : State) : State :=
  if sleepAllowed s d then
    sleepIfBoth d (setLink d (fun l => { l with sleepSent := true, lastMarker := 0x6A }) s)
  else
    driveFrame d 0 0 (link s d).txSeq 0 (BitVec.ofNat 4 (ringPos s)) false 0 s

/-- One frame slot (R399, R406, R409). -/
def frameSlot (d : Side) (s : State) : State :=
  let l := link s d
  match l.train with
  | some t =>
    if t.step == .identity then
      let s := setTraining d (fun t => { t with slots := t.slots + 1 }) s
      let ident := t.slots % 16 = 0
      let f := mkFrame (if ident then 2 else 0) 0 l.txSeq (if t.identGot && ident then 0 else 0xFFF) false 3 0 0
        (BitVec.ofNat 4 (ringPos s)) false (if ident then identPayload d s else 0)
      setLink d (fun l => { l with lastTx := f }) s
    else s
  | none =>
    if !l.txPhase.carries then s
    else match l.resend with
      | f :: rest =>
        let s := driveFrame d 1 f.vc f.seq f.dest f.src f.bcast f.payload s
        countLink d 2 1 (setLink d (fun l => { l with resend := rest, testLast := false }) s)
      | [] =>
        match pickFrame l with
        | some (through, f) =>
          let wait := if f.vc ≠ 2 && ((vcHead l 2).isSome || l.test) then l.vc2Wait + 1 else 0
          let s := sendData d f s
          let s := setLink d (fun l => if through
            then { l with transit := l.transit.erase f, vc2Wait := wait, testLast := false }
            else { l with own := l.own.erase f, vc2Wait := wait, testLast := false }) s
          if through && f.transit then freeBuffer (Side.other d) f.vc s else s
        | none =>
          if testWanted l then
            let f : LFrame := { vc := 2, payload := testFlit l.testTx, dest := BitVec.ofNat 4 (nextPos s d)
                                src := BitVec.ofNat 4 (ringPos s), bcast := false }
            setLink d (fun l => { l with testTx := l.testTx + 1, testLast := true }) (sendData d f s)
          else sendIdle d (setLink d (fun l => { l with testLast := false }) s)

/-! ## Identity (R409, R410) -/

def identMin (m : Line) : BitVec 8 := field m 32 8
def identMax (m : Line) : BitVec 8 := field m 40 8
def identPos (m : Line) : BitVec 8 := field m 48 8
def identContrib (m : Line) : BitVec 16 := field m 0xC0 16

/-- The protocol version in use, if the two ends have one in common (R410). -/
def protoOf (m : Line) : Option (BitVec 8) :=
  let v := min (identMax m).toNat 2
  if max (identMin m).toNat 1 ≤ v then some (BitVec.ofNat 8 v) else none

/-- The neighbour on a side is the one the plan expects (R410). -/
def identMatches (s : State) (d : Side) (m : Line) : Bool :=
  match planOf s with
  | some p =>
    identContrib m == (match d with
      | .east => p.eastContrib
      | .west => p.westContrib) &&
    (identPos m).toNat == nextPos s d && (fieldNat m 24 8 == 1 - sideBit d) && (fieldNat m 56 8 == p.ringSize.toNat)
  | none => false

/-- An IDENT frame (R409): a good one is recorded; its header says whether the far end has ours. -/
def identIn (d : Side) (f : BitVec 576) (s : State) : State :=
  let m := framePayload f
  if !frameCrcOk f then countLink d 0 1 s
  else if hKind (frameHeader f) ≠ 2 || magicOf m ≠ magicIdent || !lineCrcOk m then s
  else
    let s := setLink d (fun l => { l with neighValid := true, neigh := m }) s
    if trainStep s d = some .identity then
      setTraining d (fun t => { t with
        identGot := true, identAcked := t.identAcked || hAck (frameHeader f) == 0 }) s
    else s

/-- Where WIRING_MISMATCH is found (R410, R506). -/
def reportWiring (d : Side) (m : Line) (s : State) : State :=
  report 0x0902 (putBit 32 (sideBit d == 1) ||| put 16 (identPos m) ||| put 0 (identContrib m)) s

/-- Into QUARANTINE with a cause (R410), after a training with the RUN marker: hierarchy traffic that waits has no way
on. -/
def quarantine (d : Side) (cause : BitVec 8) (s : State) : State :=
  setLink d (fun l => { l with
    txScr := if l.txPhase.up then l.txScr else scramStart
    lastMarker := if l.txPhase.up then l.lastMarker else 0x5A
    trainedAt := if l.txPhase.up then l.trainedAt else portNow s, crcWindow := if l.txPhase.up then l.crcWindow else 0
    crcErrors := if l.txPhase.up then l.crcErrors else 0
    txPhase := .quarantine, rxPhase := .quarantine, qCause := cause, replay := [], resend := [], own := [], transit := [] }) s

/-- Into RUN: the RUN marker goes out, go-back-N resumes, a flash that waited follows (R410, R416, R417). -/
def enterRun (d : Side) (s : State) : State :=
  let s := setLink d (fun l => { l with
    txScr := scramStart, trainedAt := portNow s, crcWindow := 0
    txPhase := .run, lastMarker := 0x5A, qCause := 0, downCause := 0, resend := l.replay, timer := now s, timeouts := 0
    crcErrors := 0, failed := 0, nakOut := false }) s
  match (link s d).flashDue with
  | some f => flashSend d f (setLink d (fun l => { l with flashDue := none }) s)
  | none => s

/-- IDENTITY ends, and the link's state is decided (R410). A RETRAIN that found the link in SLEEP follows the
wake (R429). -/
def identityEnd (d : Side) (s : State) : State :=
  match (link s d).train with
  | some t =>
    if t.step != .identity || !t.identGot || !t.identAcked then s
    else
      let l := link s d
      let m := l.neigh
      let w4 := l.rxWidth4 || l.txWidth4
      match protoOf m with
      | none => quarantine d 3 (trainingOver d (setLink d (fun l => { l with proto := 0, failed := 0 }) s))
      | some v =>
        let s := setLink d (fun l => { l with proto := v }) s
        let s := if v < 2 then report 0x0901 (putBit 8 (sideBit d == 1) ||| put 0 v) s else s
        if v = 1 && w4 then goDown d 4 s
        else
          let s := trainingOver d s
          let s := if w4 && !t.wake then
              let s := report 0x0903 (putBit 8 (sideBit d == 1) ||| putBit 0 l.rxWidth4 ||| putBit 1 l.txWidth4) s
              if expected s d then croakSet 0x02 s else s
            else s
          if (planOf s).isNone then quarantine d 2 s
          else if !identMatches s d m then reportWiring d m (quarantine d 1 s)
          else if t.wake && l.retrainBit then
            startTraining d true (setLink d (fun l => { l with retrainBit := true }) (enterRun d s))
          else enterRun d s
  | none => s

/-- A molt compares the identities again (R272, R410, R429). -/
def recompare (d : Side) (s : State) : State :=
  let l := link s d
  let s := if expected s d then (if l.txPhase == .off then linkRestart d s else s)
    else if l.txPhase == .off then s else linkRestart d s
  let l := link s d
  if l.txPhase == .quarantine && l.neighValid && (protoOf l.neigh).isSome then
    (if identMatches s d l.neigh then
      setLink d (fun l => { l with rxPhase := .run }) (enterRun d s)
     else quarantine d (if (planOf s).isNone then 2 else 1) s)
  else if l.txPhase.up && l.train.isNone && l.neighValid && !identMatches s d l.neigh then
    (if (planOf s).isNone then quarantine d 2 s else reportWiring d l.neigh (quarantine d 1 s))
  else s

/-! ## XLn_CTL (R423) -/

def xlCtlAddr (d : Side) : Addr24 := match d with
  | .east => 0x080008
  | .west => 0x081008

/-- HOLD_DOWN (R417, R423, R429). -/
def holdDown (d : Side) (on : Bool) (s : State) : State :=
  let s := setLink d (fun l => { l with holdDown := on }) s
  if !on || (link s d).txPhase == .off then s
  else if (link s d).txPhase == .down then setLink d (fun l => { l with downCause := 5 }) s
  else goDown d 5 s

/-- SLEEP (R418). -/
def sleepBit (d : Side) (on : Bool) (s : State) : State :=
  let s := setLink d (fun l => { l with sleepOn := on }) s
  if on then s else linkWake d s

/-- TEST (R419). -/
def testBit (d : Side) (on : Bool) (s : State) : State :=
  setLink d (fun l => { l with test := on, testTx := if on && !l.test then 0 else l.testTx }) s

/-- RETRAIN (R417, R423, R429). -/
def retrainBit (d : Side) (s : State) : State :=
  let l := link s d
  if l.txPhase == .off || l.holdDown then s
  else
    let s := if l.txPhase == .down then startTraining d false (setLink d (fun l => { l with failed := 0 }) s)
      else if l.txPhase == .train then s
      else if l.txPhase == .sleep then linkWake d s
      else startTraining d true s
    setLink d (fun l => { l with retrainBit := true }) s

/-- A write of XLn_CTL (R423). -/
def writeXlCtl (d : Side) (w : Word) (s : State) : State :=
  let l := link s d
  let s := if w.getLsbD 3 != l.holdDown then holdDown d (w.getLsbD 3) s else s
  let s := if w.getLsbD 2 != l.sleepOn then sleepBit d (w.getLsbD 2) s else s
  let s := testBit d (w.getLsbD 1) s
  bootLinks (segSettle (if w.getLsbD 0 then retrainBit d s else s))

/-! ## The fabric message port (R420-R422, R454) -/

def envDest (e : BitVec 128) : BitVec 32 := field e 0 32
def envSrc (e : BitVec 128) : BitVec 32 := field e 32 32
def envSession (e : BitVec 128) : BitVec 16 := field e 64 16
def envSeq (e : BitVec 128) : BitVec 16 := field e 80 16
def envKind (e : BitVec 128) : BitVec 8 := field e 96 8
def envCheckOk (e : BitVec 128) : Bool := field e 112 16 == crc16 (field e 0 112) 14

/-- What the receiver makes of a SEQ: whether it is new, and the state it keeps from then on (R422). -/
def peerJudge (p : FmpPeer) (seq : BitVec 16) : Bool × FmpPeer :=
  let ahead := (seq - p.high).toNat
  let behind := (p.high - seq).toNat
  if ahead = 0 then (false, p)
  else if ahead ≤ 0x7FFF then
    (true, { p with high := seq, bitmap := ((p.bitmap <<< ahead) ||| ((1 : BitVec 64) <<< (ahead - 1))) })
  else if behind ≤ 64 then
    (!p.bitmap.getLsbD (behind - 1), { p with bitmap := p.bitmap ||| ((1 : BitVec 64) <<< (behind - 1)) })
  else (false, p)

/-- The acknowledgement of a DATA message (R420). -/
def fmpAckSend (e : BitVec 128) (s : State) : State :=
  { s with fmp := { s.fmp with lastTx := some (envelope (envSrc e) s.fmp.self s.fmp.session (envSeq e) 2 0, none) } }

/-- A DATA message (R422). -/
def fmpDataIn (e : BitVec 128) (payload : Line) (s : State) : State :=
  let src := envSrc e
  let fresh : FmpPeer := { src := src, session := envSession e, high := envSeq e }
  let (new, p) := match s.fmp.peers.find? (·.src == src) with
    | some p => if p.session = envSession e then peerJudge p (envSeq e) else (true, fresh)
    | none => (true, fresh)
  let s := { s with fmp := { s.fmp with peers := (p :: s.fmp.peers.filter (·.src != src)).take 128 } }
  let s := fmpAckSend e s
  if new then countFmp 3 1 (deliver .fmp 0 payload s) else countFmp 4 1 s

/-- An ACK (R421). -/
def fmpAckIn (e : BitVec 128) (s : State) : State :=
  let s := { s with fmp := { s.fmp with
    out := s.fmp.out.filter fun m => !(m.dest == envSrc e && m.seq == envSeq e) } }
  fmpDrain (s.fmp.queue.length + 1) s

/-- A received message, by beats (R422, R454). -/
def fmpIn (beats : List (BitVec 128 × BitVec 16)) (s : State) : State :=
  if !ready s then s
  else
    let e := (beats.headD (0, 0)).1
    let len := if envKind e = 1 then 5 else if envKind e = 2 then 1 else 0
    if len = 0 || beats.length ≠ len || !(beats.all fun b => parityOk b.1 b.2) then countPort 9 1 s
    else if envDest e ≠ s.fmp.self || !envCheckOk e then countFmp 5 1 s
    else if envKind e = 1 then
      fmpDataIn e (((beats.drop 1).zipIdx).foldl (fun l b => l ||| putLine (16 * b.2) b.1.1) 0) s
    else fmpAckIn e s

/-- 200 us without an ACK (R421). -/
def fmpTimeout (dest : BitVec 32) (seq : BitVec 16) (s : State) : State :=
  match s.fmp.out.find? fun m => m.dest == dest && m.seq == seq with
  | some m =>
    if now s < m.sentAt + 96000 then s
    else if m.tries < 3 then
      let m' := { m with tries := m.tries + 1, sentAt := now s }
      let s := { s with fmp := { s.fmp with out := s.fmp.out.map fun x => if x = m then m' else x } }
      countFmp 1 1 (fmpTransmit m' s)
    else
      let s := { s with fmp := { s.fmp with
        out := s.fmp.out.filter (· != m), lost := true, lostAt := now s, lostDest := dest } }
      let s := report 0x0905 (put 0 dest) (countFmp 2 1 s)
      let s := fmpDrain (s.fmp.queue.length + 1) s
      if isManager s && !isRoot s && ((planOf s).map (·.parent)) = some dest then epochFail s else s
  | none => s

/-! ## The rows -/

/-- The links live from READY on (R484, R510: their link layer goes on in FATAL). -/
def linkRow (f : State → State) (s : State) : Out := .next (if linksOpen s then bootLinks (segSettle (f s)) else s)

/-- LINK_CLOCK_LOCK (R407). -/
def execLinkClockLock (side : Side) (locked : Bool) (s : State) : Out := linkRow (clockDone side locked) s
/-- PATTERN_DONE (R407). -/
def execPatternDone (side : Side) (errors : BitVec 12) (s : State) : Out := linkRow (patternDone side errors) s
/-- MARGIN_DONE (R407). -/
def execMarginDone (side : Side) (margins : BitVec 96) (s : State) : Out := linkRow (marginDone side margins) s
/-- MAP_WORD (R408). -/
def execMapWord (side : Side) (word : BitVec 24) (crc : BitVec 16) (s : State) : Out :=
  linkRow (mapWordIn side word crc) s
/-- IDENT (R409). -/
def execIdent (side : Side) (frame : BitVec 576) (s : State) : Out := linkRow (identIn side frame) s
/-- IDENTITY_DONE (R410). -/
def execIdentityDone (side : Side) (s : State) : Out := linkRow (identityEnd side) s
/-- TRAIN_ATTEMPT_FAILED (R407). -/
def execTrainAttemptFailed (side : Side) (s : State) : Out := linkRow (trainFail side) s
/-- LINK_RETRAIN (R417). -/
def execLinkRetrain (side : Side) (w : Word) (s : State) : Out :=
  .next (ctlWrite (xlCtlAddr side) w (writeXlCtl side w) s)
/-- HOLD_DOWN_WRITE (R423). -/
def execHoldDownWrite (side : Side) (w : Word) (s : State) : Out :=
  .next (ctlWrite (xlCtlAddr side) w (writeXlCtl side w) s)
/-- XL_SLEEP_WRITE (R418). -/
def execXlSleepWrite (side : Side) (w : Word) (s : State) : Out :=
  .next (ctlWrite (xlCtlAddr side) w (writeXlCtl side w) s)
/-- XL_TEST_WRITE (R419). -/
def execXlTestWrite (side : Side) (w : Word) (s : State) : Out :=
  .next (ctlWrite (xlCtlAddr side) w (writeXlCtl side w) s)

/-- TRAIN_MARKER (R417). -/
def execTrainMarker (side : Side) (s : State) : Out :=
  linkRow (fun s =>
    let l := link s side
    if l.txPhase == .off || l.txPhase == .train then s
    else if l.txPhase == .down then (if l.holdDown then s else startTraining side false s)
    else startTraining side true s) s

/-- RUN_MARKER (R401). -/
def execRunMarker (side : Side) (s : State) : Out :=
  linkRow (fun s =>
    let l := link s side
    let closing := trainStep s side = some .identity || (l.train.isNone && l.txPhase != .sleep)
    if l.rxPhase == .verdict || ((l.rxPhase == .train || l.rxPhase == .sleep) && closing) then
      setLink side (fun l => { l with rxPhase := .run, flashIn := .hold, rxScr := scramStart }) s
    else if l.rxPhase == .quarantine then setLink side (fun l => { l with rxScr := scramStart }) s
    else s) s

/-- VERDICT_MARKER (R415). -/
def execVerdictMarker (side : Side) (s : State) : Out :=
  linkRow (fun s => if (link s side).rxPhase == .run
    then setLink side (fun l => { l with rxPhase := .verdict, flashIn := .hold }) s else s) s

/-- SLEEP_MARKER (R418). -/
def execSleepMarker (side : Side) (s : State) : Out :=
  linkRow (fun s => if (link s side).rxPhase == .run
    then sleepIfBoth side (setLink side (fun l => { l with sleepGot := true }) s) else s) s

/-- FORWARDED_CLOCK_LOST (R417). -/
def execForwardedClockLost (side : Side) (s : State) : Out :=
  linkRow (fun s => if linkRuns (link s side) then startTraining side true s else s) s

/-- FORWARDED_CLOCK_DETECTED (R417). -/
def execForwardedClockDetected (side : Side) (s : State) : Out :=
  linkRow (fun s =>
    let l := link s side
    if l.txPhase == .down && !l.holdDown then startTraining side false s else s) s

/-- FRAME_RECEIVE (R403). -/
def execFrameReceive (side : Side) (frame : BitVec 576) (s : State) : Out := linkRow (frameIn side frame) s
/-- CHAMELEON_WORD (R402). -/
def execChameleonWord (side : Side) (lane : Bool) (word : BitVec 24) (crc : BitVec 16) (s : State) : Out :=
  linkRow (chameleonIn side lane word crc) s

/-- REPLAY_TIMEOUT (R404, R417): the timer is 500 ns, 240 ctrl cycles. -/
def execReplayTimeout (side : Side) (s : State) : Out :=
  linkRow (fun s =>
    let l := link s side
    if !l.txPhase.carries || l.replay.isEmpty || now s < l.timer + 240 then s
    else
      let s := countLink side 3 1 (setLink side (fun l => { l with
        resend := l.replay, timer := now s, timeouts := l.timeouts + 1 }) s)
      if 4 ≤ (link s side).timeouts && linkRuns l then startTraining side true s else s) s

/-- CRC_WINDOW_END (R16, R417). -/
def execCrcWindowEnd (side : Side) (s : State) : Out := linkRow (setLink side (crcRoll s)) s
/-- FRAME_SLOT (R406). -/
def execFrameSlot (side : Side) (s : State) : Out := linkRow (frameSlot side) s

/-- The segments that a link-state flit speaks for, in SEG_UP; an instance keeps its own view of its own (R411). -/
def linkStateIn (m : Line) (s : State) : State :=
  let n := ringSize s
  let q := fieldNat m 24 8
  if n ≤ 1 || n ≤ q || field m 16 8 ≠ (1 : BitVec 8) then s
  else
    let seen : BitVec 16 := field m 32 16
    let mine := [segOf n (ringPos s) .east, segOf n (ringPos s) .west]
    let theirs := [segOf n q .east, segOf n q .west].filter fun g => !mine.contains g
    let g := theirs.foldl (fun (g : BitVec 16) i =>
      if seen.getLsbD i then g ||| (1 : BitVec 16) <<< i else g &&& ~~~((1 : BitVec 16) <<< i)) s.ring.segUp
    if g = s.ring.segUp then s
    else
      let old := routeTo s (managerPos s)
      ringChanged old false { s with ring := { s.ring with segUp := g } }

/-- LINK_STATE (R411). -/
def execLinkState (side : Side) (m : Line) (s : State) : Out :=
  linkRow (fun s => linkStateIn m (takeInbox (sourceOf side) m s)) s

/-- LINK_STATE_TIMER (R411). -/
def execLinkStateTimer (s : State) : Out :=
  linkRow (fun s =>
    if (planOf s).isNone || s.power.state == .retain || now s < s.ring.lastState + 480000 then s
    else broadcast 0 (linkStateFlit s) { s with ring := { s.ring with lastState := now s } }) s

/-- DOWN_RETRY (R417). -/
def execDownRetry (side : Side) (s : State) : Out :=
  linkRow (fun s =>
    let l := link s side
    if l.txPhase == .down && !l.holdDown && l.downAt + 480000 ≤ now s then startTraining side false s else s) s

/-- WAKE_REQUEST (R418). -/
def execWakeRequest (side : Side) (s : State) : Out := linkRow (fun s => linkWake side (wakeFromRetain s)) s

/-- TEST_FLIT (R419): the stream's next index follows the one received. -/
def execTestFlit (side : Side) (m : Line) (s : State) : Out :=
  linkRow (fun s =>
    let s := takeInbox (sourceOf side) m s
    let i : BitVec 32 := field m 32 32
    let s := setLink side (fun l => { l with testRx := i + 1 }) s
    if m = testFlit i then s else countLink side 7 1 s) s

/-- FMP_DATA (R422). -/
def execFmpData (beats : List (BitVec 128 × BitVec 16)) (s : State) : Out := .next (fmpIn beats (wakeFromRetain s))
/-- FMP_ACK (R421). -/
def execFmpAck (beats : List (BitVec 128 × BitVec 16)) (s : State) : Out := .next (fmpIn beats (wakeFromRetain s))
/-- FMP_RESEND_TIMEOUT (R421). -/
def execFmpResendTimeout (dest : BitVec 32) (seq : BitVec 16) (s : State) : Out :=
  .next (if ready s then fmpTimeout dest seq s else s)

end Sys2Proof.Machine
end

