-- ==== Sys2Proof/Machine/Regulator.lean ====
section
/-! DEFINITION. The regulator: windows, guarantees and caps, the throttle level, reports of temperature, the
commit of its stage registers (R289-R294, R310-R316, R456, R457, R529-R531). -/
namespace Sys2Proof.Machine

/-- The derated peak, in lines per window (R290). -/
def deratedPeak : Nat := 30146
/-- The most that guarantees may sum to (R291). -/
def guaranteeMax : Nat := 27131

/-- S_T (R292). -/
def supplyAt (level : Nat) : Nat := deratedPeak * (8 - level) / 8

/-- Sum of the guarantees in effect. -/
def guaranteeSum (m : MemPath) : Nat := (m.eff.parts.map (·.guarantee.toNat)).sum

/-- The guarantees cannot all be met at the level in effect (R291). -/
def supplyShort (m : MemPath) : Bool := 0 < m.thermal.level && supplyAt m.thermal.level < guaranteeSum m

/-- The effective guarantees, and SHORTFALL with its report on entry (R291). -/
def rescale (s : State) : State :=
  let m := s.mem
  let sum := guaranteeSum m
  let short := supplyShort m
  let g := fun (p : Partition) =>
    if short then p.guarantee.toNat * supplyAt m.thermal.level / sum else p.guarantee.toNat
  let s := setMem (fun m => { m with effG := m.eff.parts.map g, shortfall := short }) s
  if short && !m.shortfall then report 0x0601 (putSat 16 16 sum ||| putSat 0 16 (supplyAt m.thermal.level)) s else s

/-! ## Thermal reports (R292-R294, R456, R457) -/

def setThermal (f : Thermal → Thermal) (s : State) : State := setMem (fun m => { m with thermal := f m.thermal }) s

/-- The warning threshold W. -/
def warnAt (s : State) (limit : BitVec 8) : Int := limit.toInt - s.mem.eff.warnMargin.toNat

/-- The target level of a report (R292); a pause holds level 7 (R293). -/
def targetLevel (s : State) (temp limit : BitVec 8) (paused : Bool) : Nat :=
  if paused then 7
  else if temp.toInt < warnAt s limit then 0
  else min 7 (1 + ((temp.toInt - warnAt s limit) / s.mem.eff.step.toNat).toNat)

/-- The pause changes, and says so (R293, R447). -/
def setPaused (p : Bool) (s : State) : State :=
  if s.mem.thermal.paused == p then s else pulse 13 (setThermal (fun t => { t with paused := p }) s)

/-- The target of a report; one at or above the level holds the level for 64 windows more (R292). -/
def setTarget (target : Nat) (s : State) : State :=
  setThermal (fun t => { t with
    target := target, highWin := if t.level ≤ target then Int.ofNat s.mem.window + 1 else t.highWin }) s

/-- A report that the engine uses (R457). -/
def reportGood (s : State) (temp limit : BitVec 8) (par : BitVec 2) : Bool :=
  parityOk (limit ++ temp) par && (-40 ≤ temp.toInt) && (40 ≤ limit.toInt) && (-40 ≤ warnAt s limit)

/-- A thermal report (R292-R294, R457). -/
def thermalReport (temp limit : BitVec 8) (par : BitVec 2) (s : State) : State :=
  if !reportGood s temp limit par then countPort 8 1 s
  else
    let s := setThermal (fun t => { t with valid := true, stale := false, temp := temp, limit := limit, lastGood := now s }) s
    let paused := if limit.toInt ≤ temp.toInt then true
      else if temp.toInt ≤ limit.toInt - 2 then false else s.mem.thermal.paused
    setTarget (targetLevel s temp limit paused) (setPaused paused s)

/-- 1 ms without a good report (R294). -/
def thermalStale (s : State) : State :=
  if !s.mem.thermal.stale && s.mem.thermal.lastGood + 480000 ≤ now s then
    setTarget 7 (setPaused true (report 0x0602 0 (setThermal (fun t => { t with stale := true }) s)))
  else s

/-- The level at a window boundary, the first of window w (R292). -/
def nextLevel (t : Thermal) (w : Int) : Nat :=
  if t.level < t.target then t.target
  else if 0 < t.level && t.target < t.level && !t.paused && t.changedWin + 64 ≤ w && t.highWin + 64 ≤ w then t.level - 1
  else t.level

/-! ## Window boundaries (R289, R291, R292, R313-R316) -/

/-- The first index of the largest number of a list. -/
def argMax (xs : List Nat) : Nat := xs.idxOf (xs.foldl max 0)

/-- A window is imbalanced (R316). -/
def imbalanced (waits : List Nat) : Bool := 512 ≤ waits.foldl max 0 && 4 * waits.sum ≤ 32 * waits.foldl max 0

/-- What a window leaves of a channel's counts (R315). -/
def ChanStat.close (c : ChanStat) : ChanStat :=
  { linesLast := c.lines, waitLast := c.wait, waitMax := max c.waitMax c.wait }

/-- CHANNEL_IMBALANCE, judged on the window that ends (R316). -/
def judgeImbalance (s : State) : State :=
  let m := s.mem
  let waits := m.chans.map (·.wait)
  if imbalanced waits then
    let ch := argMax waits
    let cl := argMax ((m.chans.getD ch {}).byClass)
    let s := countMp 5 1 (setMem (fun m => { m with
      imbRun := m.imbRun + 1, balRun := 0, imbChannel := BitVec.ofNat 5 ch, imbClass := BitVec.ofNat 3 cl }) s)
    if 16 ≤ m.imbRun + 1 && !m.imbalance then
      report 0x0604 (putSat 8 5 ch ||| putSat 0 3 cl) (setMem (fun m => { m with imbalance := true }) s)
    else s
  else setMem (fun m => { m with
    imbRun := 0, balRun := m.balRun + 1, imbalance := m.imbalance && m.balRun + 1 < 16 }) s

/-- The window that is under way ends; one with SHORTFALL set is counted as it ends (R291). -/
def windowEnd (s : State) : State :=
  let s := judgeImbalance (if s.mem.shortfall then countMp 4 1 s else s)
  let w : Int := Int.ofNat s.mem.window + 1
  let t := s.mem.thermal
  let level := nextLevel t w
  let s := setMem (fun m => { m with
    window := m.window + 1, usedLast := m.used, used := List.replicate 8 0, throttledUsed := 0
    chans := m.chans.map ChanStat.close
    thermal := { t with level := level, changedWin := if level = t.level then t.changedWin else w } }) s
  rescale s

/-! ## MP_COMMIT (R310-R312, R567) -/

/-- A write of MP_PARTi in the staged eight (R311). -/
def stagePart (ps : List Partition) (x : Nat × Word) : List Partition :=
  ps.modify x.1 fun p => { p with cap := field x.2 32 16, guarantee := field x.2 0 16 }

def mpCommitAddr : Addr24 := 0x030140

/-- The lowest partition with a property, of the staged eight. -/
def firstPart (parts : List Partition) (p : Partition → Nat → Bool) : Option Nat :=
  (List.range 8).find? fun i => p (parts.getD i {}) i

/-- The first cause that rejects a commit, with ERR_PART (R312). -/
def mpErr (s : State) : BitVec 8 × BitVec 3 :=
  let st := s.mem.stage
  let used := if s.mem.regulated then s.mem.partitions.toNat else 0
  if s.image.active.isNone then (7, 0)
  else if s.mem.pending.isSome then (4, 0)
  else match firstPart st.parts fun p _ => p.cap.toNat < p.guarantee.toNat with
    | some i => (1, BitVec.ofNat 3 i)
    | none => match firstPart st.parts fun p _ => 32768 < p.cap.toNat with
      | some i => (2, BitVec.ofNat 3 i)
      | none =>
        if guaranteeMax < (st.parts.map (·.guarantee.toNat)).sum then (3, 0)
        else match firstPart st.parts fun p i => used ≤ i && (p.guarantee != 0 || p.cap != 0) with
          | some i => (5, BitVec.ofNat 3 i)
          | none => if st.warnMargin = 0 || 64 < st.warnMargin.toNat || st.step = 0 then (6, 0) else (0, 0)

/-- A write of MP_COMMIT (R312). -/
def writeMpCommit (w : Word) (s : State) : State :=
  if !w.getLsbD 0 then s
  else
    let e := mpErr s
    setMem (fun m => { m with
      err := e.1, errPart := e.2
      pending := if e.1 = 0 then some (m.stage, nextBoundary (portNow s) 1024) else m.pending }) s

/-- The boundary of a pending copy (R291, R530). -/
def applyMp (s : State) : State :=
  match s.mem.pending with
  | some (c, b) =>
    if portNow s < b then s else rescale (setMem (fun m => { m with eff := c, pending := none }) s)
  | none => s

/-! ## The rows -/

/-- REGULATOR_WINDOW_BOUNDARY (R289). -/
def execRegulatorWindowBoundary (s : State) : Out :=
  .next (if running s && 1024 * (s.mem.window + 1) ≤ portNow s then windowEnd s else s)
/-- THERMAL_STALE (R294). -/
def execThermalStale (s : State) : Out := .next (if running s then thermalStale s else s)
/-- MP_COMMIT (R312). -/
def execMpCommit (w : Word) (s : State) : Out := .next (ctlWrite mpCommitAddr w (writeMpCommit w) s)

end Sys2Proof.Machine
end

