-- ==== Sys2Proof/Machine/ImageParse.lean ====
section
/-! DEFINITION. The bytes of a structure image: its sections as the engine reads them, the checks of
verification, the configuration digest (R242-R263, R269). -/
namespace Sys2Proof.Machine

/-! ## Header and directory (R242-R244) -/

/-- A directory entry (R243). -/
structure DirEntry where
  kind : Nat
  off : Nat
  len : Nat
  crc : Nat
  deriving DecidableEq, Repr

def dirEntries (b : List Byte) : List DirEntry :=
  (List.range (bytesAt b 5 1)).map fun i =>
    let o := 0x40 + 16 * i
    { kind := bytesAt b o 2, off := bytesAt b (o + 4) 4, len := bytesAt b (o + 8) 4, crc := bytesAt b (o + 12) 4 }

def sectionBytes (b : List Byte) (e : DirEntry) : List Byte := (b.drop e.off).take e.len

/-- A section by its type; empty where the image has none. -/
def sectionOf (b : List Byte) (kind : Nat) : List Byte :=
  match (dirEntries b).find? (·.kind == kind) with
  | some e => sectionBytes b e
  | none => []

def hasSection (b : List Byte) (kind : Nat) : Bool := (dirEntries b).any (·.kind == kind)

/-- The sections' fixed lengths (R243). -/
def sectionLen : Nat → Option Nat
  | 1 => some 512 | 5 => some 128 | 6 => some 64 | 7 => some 576 | 8 => some 64 | 9 => some 64
  | 0xFF => some 256 | _ => none

/-- A relation between neighbours of a list. -/
def chainOk {α : Type} (r : α → α → Bool) : List α → Bool
  | a :: b :: l => r a b && chainOk r (b :: l)
  | _ => true

/-- The bytes between two offsets are zero. -/
def zeroBytes (b : List Byte) (lo hi : Nat) : Bool := ((b.drop lo).take (hi - lo)).all (· == 0)

/-- The directory is as R242, R243 and R244 state. -/
def directoryOk (b : List Byte) : Bool :=
  let n := bytesAt b 5 1
  let es := dirEntries b
  let len := b.length
  8 ≤ n && n ≤ 11 &&
  chainOk (fun a c => a.kind < c.kind) es &&
  es.all (fun e => (1 ≤ e.kind && e.kind ≤ 0xA || e.kind = 0xFF) && e.off % 64 = 0 && 0x140 ≤ e.off &&
    e.off + e.len ≤ len && (sectionLen e.kind).all (· = e.len)) &&
  chainOk (fun a c => a.off + a.len ≤ c.off && zeroBytes b (a.off + a.len) c.off) es &&
  [1, 2, 3, 4, 5, 8, 9, 0xFF].all (fun k => es.any (·.kind == k)) &&
  (es.any (·.kind == 6)) == (es.any (·.kind == 7)) &&
  (match es.getLast? with
   | some e => e.kind == 0xFF && e.off + 256 == len
   | none => false)

/-! ## RULE (R245, R246) -/

def parseRule (b : List Byte) : RuleSec :=
  { ruleId := BitVec.ofNat 16 (bytesAt b 0 2)
    passes := BitVec.ofNat 8 (bytesAt b 2 1)
    pass1Path := BitVec.ofNat 8 (bytesAt b 3 1)
    emaMode := BitVec.ofNat 8 (bytesAt b 4 1)
    flags := BitVec.ofNat 8 (bytesAt b 5 1)
    sr := BitVec.ofNat 8 (bytesAt b 6 1)
    gMask := BitVec.ofNat 16 (bytesAt b 8 2)
    m1Mask := BitVec.ofNat 16 (bytesAt b 10 2)
    m2Mask := BitVec.ofNat 16 (bytesAt b 12 2)
    wMask := BitVec.ofNat 16 (bytesAt b 14 2)
    genMask := BitVec.ofNat 16 (bytesAt b 16 2)
    emaMask := BitVec.ofNat 16 (bytesAt b 18 2)
    consts := (List.range 16).map fun i =>
      let o := 0x20 + 12 * i
      { used := bytesAt b o 4 % 2 == 1
        lo := BitVec.ofNat 32 (bytesAt b (o + 4) 4)
        hi := BitVec.ofNat 32 (bytesAt b (o + 8) 4) } }

def ruleFtz (r : RuleSec) : Bool := r.flags.getLsbD 0
def ruleSparse (r : RuleSec) : Bool := r.flags.getLsbD 1
def ruleFinish (r : RuleSec) : Bool := r.flags.getLsbD 2
def ruleSparseFinish (r : RuleSec) : Bool := r.flags.getLsbD 3
/-- Stochastic rounding for purpose n (R54, R245). -/
def ruleSr (r : RuleSec) (n : Nat) : Bool := r.sr.getLsbD (n - 1)

/-- No bit of a mask lies outside the codes that the role accepts. -/
def maskWithin (m allowed : BitVec 16) : Bool := m &&& ~~~allowed == 0

def ruleOk (r : RuleSec) : Bool :=
  maskWithin r.gMask 0x000F && maskWithin r.m1Mask 0x000F && maskWithin r.m2Mask 0x0007 &&
  maskWithin r.wMask 0x07FF && maskWithin r.genMask 0x07FF && maskWithin r.emaMask 0x0003 &&
  (r.passes == 1 || r.passes == 2) && r.pass1Path ≤ 2 && r.emaMode ≤ 2 &&
  ((r.passes == 1) == (r.pass1Path == 0)) &&
  !(ruleSparse r && r.passes == 2) && field r.flags 4 4 == 0 && field r.sr 5 3 == 0 &&
  !(r.emaMode != 0 && r.emaMask == 0) &&
  r.consts.all fun c => !c.used || (!f32NonFinite c.lo && !f32NonFinite c.hi && !f32Lt c.hi c.lo)

/-! ## GRAPHS (R247-R251) -/

def parseOp (b : List Byte) (o : Nat) : GOp :=
  let w : BitVec 64 := BitVec.ofNat 64 (bytesAt b o 8)
  { opcode := field w 56 8, dest := field w 48 8, srcA := field w 40 8, srcB := field w 32 8
    srcC := field w 24 8, param := field w 8 16, station := field w 0 8 }

def parseOps (b : List Byte) (base first n : Nat) : List GOp :=
  (List.range n).map fun i => parseOp b (base + 8 * (first + i))

def parseStation (b : List Byte) (i : Nat) : Station :=
  let o := 0x80 + 32 * i
  { name := (b.drop o).take 16
    kind := BitVec.ofNat 8 (bytesAt b (o + 0x10) 1)
    graph := BitVec.ofNat 8 (bytesAt b (o + 0x11) 1)
    cellSlots := BitVec.ofNat 8 (bytesAt b (o + 0x12) 1)
    sfuSlots := BitVec.ofNat 8 (bytesAt b (o + 0x13) 1)
    firstOp := BitVec.ofNat 16 (bytesAt b (o + 0x14) 2)
    ops := BitVec.ofNat 16 (bytesAt b (o + 0x16) 2) }

/-- Entries of the station table: as many as the graphs present name (R247). -/
def stationCount (b : List Byte) : Nat :=
  (List.range 8).foldl (fun m g =>
    if bytesAt b (16 * g) 1 = 1 then max m (bytesAt b (16 * g + 4) 2 + bytesAt b (16 * g + 1) 1) else m) 0

def opListAt (b : List Byte) : Nat := 0x80 + 32 * stationCount b

def parseGraph (b : List Byte) (g : Nat) : Graph :=
  let o := 16 * g
  if bytesAt b o 1 ≠ 1 then {}
  else
    { present := true
      firstOp := BitVec.ofNat 16 (bytesAt b (o + 8) 2)
      cellSlots := BitVec.ofNat 8 (bytesAt b (o + 0xC) 1)
      sfuSlots := BitVec.ofNat 8 (bytesAt b (o + 0xD) 1)
      trees := BitVec.ofNat 8 (bytesAt b (o + 0xE) 1)
      stations := (List.range (bytesAt b (o + 1) 1)).map fun i => parseStation b (bytesAt b (o + 4) 2 + i)
      ops := parseOps b (opListAt b) (bytesAt b (o + 8) 2) (bytesAt b (o + 0xA) 2) }

def parseGraphs (b : List Byte) : List Graph := (List.range 8).map (parseGraph b)

/-- Operands that an opcode reads (R83, R85, R91, R250); none for a code that is not used. -/
def opArity (c : BitVec 8) : Option Nat :=
  if c = 0x01 || c = 0x03 then some 3
  else if c = 0x02 || c = 0x04 || c = 0x05 || c = 0x08 || c = 0x09 || c = 0x0E || c = 0x0F then some 2
  else if c = 0x06 || c = 0x07 || (0x0A ≤ c && c ≤ 0x0D) || c = 0x10 || c = 0x11 then some 1
  else if (0x20 ≤ c && c ≤ 0x24) || c = 0x30 || c = 0x31 || c = 0x40 then some 1
  else none

def isSfuOp (c : BitVec 8) : Bool := 0x20 ≤ c && c ≤ 0x24
def isBlockOp (c : BitVec 8) : Bool := c == 0x30
def isAccumOp (c : BitVec 8) : Bool := c == 0x31

/-- The operands of an operation. A multiplication is FMA without its third operand (R50, R248). -/
def opSources (o : GOp) : List (BitVec 8) :=
  match opArity o.opcode with
  | some 3 => if o.opcode == 0x01 && o.srcC == 0xFF then [o.srcA, o.srcB] else [o.srcA, o.srcB, o.srcC]
  | some 2 => [o.srcA, o.srcB]
  | _ => [o.srcA]

/-- A field that names no operand may hold any code in use, or 0xFF (R248, R249). -/
def refUsed (r : BitVec 8) : Bool := r == 0xFF || r ≤ 0x94 || (0xA0 ≤ r && r ≤ 0xCA) || (0xD0 ≤ r && r ≤ 0xDD)

def immediateRef (r : BitVec 8) : Bool := (0x90 ≤ r && r ≤ 0x94) || (0xA0 ≤ r && r ≤ 0xBF)
def graphSource (r : BitVec 8) : Bool := r ≤ 0x8F || immediateRef r || (0xC0 ≤ r && r ≤ 0xCA)
def sinkRef (r : BitVec 8) : Bool := 0xD0 ≤ r && r ≤ 0xDD
def graphDest (o : GOp) : Bool := if isAccumOp o.opcode then o.dest == 0xFF else o.dest ≤ 0x7F || sinkRef o.dest

/-- Each operation reads only values that an earlier one wrote, and no value is written twice (R251). -/
def orderOk : List GOp → List (BitVec 8) → Bool
  | [], _ => true
  | o :: os, seen =>
    (opSources o).all (fun r => 0x7F < r || seen.contains r) && !seen.contains o.dest &&
    orderOk os (if o.dest = 0xFF then seen else o.dest :: seen)

/-- A station's KIND agrees with its operations (R91, R251). -/
def stationOk (g : Graph) (i : Nat) (st : Station) : Bool :=
  let os := (g.ops.filter (·.station.toNat == i)).map (·.opcode)
  st.kind ≤ 3 && !os.isEmpty &&
  (st.kind == 1) == os.any isSfuOp && (st.kind == 2) == os.any isBlockOp && (st.kind == 3) == os.any isAccumOp

/-- The sinks that the format masks need (R249, R251). -/
def sinksNeeded (r : RuleSec) : List (BitVec 8) :=
  let mx := fun (m : BitVec 16) => field m 5 6 != 0
  [0xD0] ++ (if field r.m1Mask 1 2 != 0 then [0xD1] else []) ++ (if r.m1Mask.getLsbD 3 then [0xD4, 0xD5] else []) ++
  (if r.m2Mask.getLsbD 1 then [0xD2] else []) ++ (if r.m2Mask.getLsbD 2 then [0xD6, 0xD7, 0xD8, 0xD9] else []) ++
  (if r.emaMode = 1 then [0xD3] else []) ++ (if mx r.wMask then [0xDA, 0xDB] else []) ++
  (if mx r.genMask then [0xDC, 0xDD] else [])

def cellCost (g : Graph) : Nat := g.ops.countP fun o => !isSfuOp o.opcode
def sfuCost (g : Graph) : Nat := g.ops.countP fun o => isSfuOp o.opcode
def treeCost (g : Graph) : Nat := g.ops.countP fun o => isBlockOp o.opcode || isAccumOp o.opcode

/-- A first pass writes nothing to masters, their copies or moments (R97, R158). -/
def passiveSink (r : BitVec 8) : Bool := !sinkRef r || r == 0xD3

def graphOk (r : RuleSec) (i : Nat) (g : Graph) : Bool :=
  !g.present ||
  (1 ≤ g.stations.length && g.stations.length ≤ 32 &&
   g.ops.all (fun o => (opArity o.opcode).isSome && o.opcode != 0x40 && (opSources o).all graphSource &&
     refUsed o.srcA && refUsed o.srcB && refUsed o.srcC && (i != 1 || passiveSink o.dest) &&
      graphDest o && o.station.toNat < g.stations.length && (i == 1 || !isAccumOp o.opcode)) &&
   orderOk g.ops [] &&
   (g.stations.zipIdx).all (fun (st, k) => stationOk g k st) &&
   cellCost g == g.cellSlots.toNat && sfuCost g == g.sfuSlots.toNat && treeCost g == g.trees.toNat &&
   (g.ops.all fun o => !sinkRef o.dest || (sinksNeeded r).contains o.dest || (i == 5 && o.dest == 0xD3)) &&
   (i != 0 || (sinksNeeded r).all fun k => g.ops.countP (·.dest == k) == 1))

def graphAt (gs : List Graph) (i : Nat) : Graph := gs.getD i {}

/-- The directory's PRESENT bytes are 0 or 1 and its lists lie within the section. -/
def graphBounds (b : List Byte) : Bool :=
  0x80 ≤ b.length && (List.range 8).all fun g =>
    bytesAt b (16 * g) 1 == 0 || (bytesAt b (16 * g) 1 == 1 &&
      opListAt b + 8 * (bytesAt b (16 * g + 8) 2 + bytesAt b (16 * g + 0xA) 2) ≤ b.length)

def graphsOk (r : RuleSec) (b : List Byte) : Bool :=
  let gs := parseGraphs b
  graphBounds b && (gs.zipIdx).all (fun (g, i) => graphOk r i g) &&
  (graphAt gs 0).present && ((graphAt gs 1).present == (r.pass1Path == 1)) &&
  (graphAt gs 2).present == ruleSparse r && (graphAt gs 3).present == ruleFinish r &&
  (graphAt gs 4).present == ruleSparseFinish r && !(graphAt gs 6).present && !(graphAt gs 7).present

/-! ## PREPARER (R252) -/

def parseProgram (b : List Byte) (i : Nat) : Option Program :=
  let o := 8 * i
  if bytesAt b o 8 = 0 then none
  else some
    { graph := BitVec.ofNat 8 (bytesAt b o 1), row := bytesAt b (o + 1) 1 == 1
      ops := parseOps b 96 (bytesAt b (o + 4) 2) (bytesAt b (o + 6) 2) }

def parsePrograms (b : List Byte) : List Program := (List.range 12).filterMap (parseProgram b)

/-- A code of R252's table. -/
def programRef (row : Bool) (r : BitVec 8) : Bool :=
  r ≤ 0x1F || (0x40 ≤ r && r ≤ 0x5B) || (row && r == 0x5C) || (0x80 ≤ r && r ≤ 0x8F) || immediateRef r

/-- What the program of a graph may read (R252), within the limits of R158: step constants with a declared range
only, and ACCUM results in a second pass only. -/
def programSource (rule : RuleSec) (graph : BitVec 8) (row : Bool) (r : BitVec 8) : Bool :=
  programRef row r &&
  (if 0x40 ≤ r && r ≤ 0x4F then (rule.consts.getD (r.toNat - 0x40) {}).used
   else if r = 0x59 || r = 0x5A then rule.passes == 2 && graph != 1 && graph != 5
   else true)
def programDest (row : Bool) (r : BitVec 8) : Bool :=
  r ≤ 0x1F || (0x80 ≤ r && r ≤ 0x8F) || (row && 0xC0 ≤ r && r ≤ 0xC3)

def programOk (rule : RuleSec) (p : Program) : Bool :=
  p.graph ≤ 5 && (!p.row || p.graph = 2 || p.graph = 4) && p.ops.length ≤ (if p.row then 8 else 32) &&
  p.ops.all fun o => (opArity o.opcode).isSome && !isBlockOp o.opcode && !isAccumOp o.opcode &&
    (opSources o).all (programSource rule p.graph p.row) && [o.srcB, o.srcC].all (fun r => r == 0xFF || programRef p.row r) &&
    programDest p.row o.dest

/-- Every P and ROWV that a graph reads is written by one of its programs (R252). -/
def constsWritten (ps : List Program) (i : Nat) (g : Graph) : Bool :=
  let mine := ps.filter (·.graph.toNat == i)
  g.ops.all fun o => (opSources o).all fun r =>
    if 0x80 ≤ r && r ≤ 0x8F then mine.any fun p => p.ops.any (·.dest == r)
    else if 0xC7 ≤ r && r ≤ 0xCA then mine.any fun p => p.row && p.ops.any (·.dest == r - 7)
    else true

def programsOk (rule : RuleSec) (gs : List Graph) (b : List Byte) : Bool :=
  let ps := parsePrograms b
  96 ≤ b.length &&
  (List.range 12).all (fun i => 96 + 8 * (bytesAt b (8 * i + 4) 2 + bytesAt b (8 * i + 6) 2) ≤ b.length &&
    bytesAt b (8 * i + 1) 1 ≤ 1) &&
  ps.all (programOk rule) && (gs.zipIdx).all fun (g, i) => constsWritten ps i g

/-! ## PLACEMENT (R253, R254) -/

/-- The variant numbers 4s + c (R112). -/
def variantNumbers : List Nat := [0, 1, 2, 3, 4, 5, 6, 8, 9]

/-- The pairs that PLACEMENT holds, in its order (R253). -/
def placementPairs (gs : List Graph) : List (Nat × Nat) :=
  ((List.range 6).filter fun g => (graphAt gs g).present).flatMap fun g => variantNumbers.map fun v => (g, v)

def parsePlacement (b : List Byte) (i : Nat) : Placement :=
  let o := 16 * i
  { graph := BitVec.ofNat 8 (bytesAt b o 1), variant := BitVec.ofNat 8 (bytesAt b (o + 1) 1)
    width := BitVec.ofNat 8 (bytesAt b (o + 2) 1), latency := BitVec.ofNat 16 (bytesAt b (o + 4) 2)
    body := (b.drop (bytesAt b (o + 8) 4)).take (bytesAt b (o + 12) 4) }

def parsePlacements (gs : List Graph) (b : List Byte) : List Placement :=
  (List.range (placementPairs gs).length).map (parsePlacement b)

/-- The conditions of R113 for L and S of a variant at a width of 128 / k. -/
def widthFits (g : Graph) (variant k : Nat) : Bool :=
  g.cellSlots.toNat ≤ (24 - variant % 4) * k && g.sfuSlots.toNat ≤ (2 - variant / 4) * k

/-- How many lanes serve an element: 1, 2, 4 (R86, R253). -/
def widthLanes (w : BitVec 8) : Nat := if w = 0 then 1 else if w = 1 then 2 else 4

/-- A graph as bytes, for what depends on all of its operations. -/
def graphCode (g : Graph) : List Byte := g.ops.flatMap fun o => [o.opcode, o.dest, o.srcA, o.srcB, o.srcC]

/-- A graph fits a width of 128 / k in a variant (R113): its slots do, and its live values do (R89). -/
def placeFits (g : Graph) (variant k : Nat) : Bool := widthFits g variant k && Config.liveFits (graphCode g) variant k

/-- The widest width is the one with fewest lanes per element (R113). -/
def widestFits (g : Graph) (variant k : Nat) : Bool :=
  placeFits g variant k && [1, 2, 4].all fun j => k ≤ j || !placeFits g variant j

def placementOk (gs : List Graph) (b : List Byte) : Bool :=
  let ps := parsePlacements gs b
  16 * (placementPairs gs).length ≤ b.length &&
  (ps.map fun p => (p.graph.toNat, p.variant.toNat)) == placementPairs gs &&
  (ps.zipIdx).all fun (p, i) =>
    let g := graphAt gs p.graph.toNat
    let v := p.variant.toNat
    if p.width = 0xFF then
      v ≠ 0 && !([1, 2, 4].any (placeFits g v)) && bytesAt b (16 * i + 12) 4 == 0
    else
      p.width ≤ 2 && widestFits g v (widthLanes p.width) && bytesAt b (16 * i + 8) 4 % 64 == 0 &&
      bytesAt b (16 * i + 8) 4 + bytesAt b (16 * i + 12) 4 ≤ b.length &&
      Config.placementBodyOk p.graph p.variant p.body

/-! ## PORT (R255, R256) -/

def parsePart (b : List Byte) (o : Nat) : Partition :=
  { classes := BitVec.ofNat 8 (bytesAt b o 1), guarantee := BitVec.ofNat 16 (bytesAt b (o + 2) 2)
    cap := BitVec.ofNat 16 (bytesAt b (o + 4) 2) }

def parsePort (b : List Byte) : PortPlan :=
  { hashPlan := BitVec.ofNat 8 (bytesAt b 0 1), arbMode := BitVec.ofNat 8 (bytesAt b 1 1)
    partitions := BitVec.ofNat 8 (bytesAt b 2 1), actMode := BitVec.ofNat 8 (bytesAt b 3 1)
    stackGib := BitVec.ofNat 8 (bytesAt b 4 1)
    parts := (List.range 8).map fun i => parsePart b (0x10 + 8 * i) }

/-- 90 % of the derated peak, in lines per window (R291). -/
def guaranteeLimit : Nat := 27131

/-- `b` is the section: an entry past the partitions in use is zero in every byte. -/
def portOk (p : PortPlan) (b : List Byte) (hier : Option (HierJob × HierInst)) : Bool :=
  p.hashPlan ≤ 2 && 1 ≤ p.stackGib && p.stackGib ≤ 128 && p.arbMode ≤ 1 && p.actMode ≤ 1 &&
  (if p.arbMode = 1 then
    let n := p.partitions.toNat
    1 ≤ n && n ≤ 8 && zeroBytes b (0x10 + 8 * n) 0x50 &&
    (List.range 8).all (fun c => (p.parts.take n).countP (·.classes.getLsbD c) == 1) &&
    (p.parts.take n).all (fun x => x.guarantee ≤ x.cap && x.cap ≤ 32768) &&
    ((p.parts.take n).map (·.guarantee.toNat)).sum ≤ guaranteeLimit
  else
    p.partitions = 0 && zeroBytes b 0x10 0x50 && hier.all fun h => h.1.jobInstances ≤ 8)

/-! ## HIER_JOB and HIER_INSTANCE (R257-R259) -/

def parseJob (b : List Byte) : HierJob :=
  { jobId := BitVec.ofNat 32 (bytesAt b 0 4), jobInstances := BitVec.ofNat 32 (bytesAt b 4 4)
    contribTimeout := BitVec.ofNat 64 (bytesAt b 8 8), joinTimeout := BitVec.ofNat 64 (bytesAt b 0x10 8)
    maxNorm := BitVec.ofNat 32 (bytesAt b 0x18 4), clipEps := BitVec.ofNat 32 (bytesAt b 0x1C 4)
    lsInterval := BitVec.ofNat 16 (bytesAt b 0x20 2), lsMin := BitVec.ofNat 8 (bytesAt b 0x22 1)
    lsMax := BitVec.ofNat 8 (bytesAt b 0x23 1), flags := BitVec.ofNat 8 (bytesAt b 0x24 1) }

def parseInst (b : List Byte) : HierInst :=
  { role := BitVec.ofNat 8 (bytesAt b 0 1), ringPos := BitVec.ofNat 8 (bytesAt b 1 1)
    managerPos := BitVec.ofNat 8 (bytesAt b 2 1), ringSize := BitVec.ofNat 8 (bytesAt b 3 1)
    contrib := BitVec.ofNat 16 (bytesAt b 4 2), eastContrib := BitVec.ofNat 16 (bytesAt b 6 2)
    westContrib := BitVec.ofNat 16 (bytesAt b 8 2), neighbours := BitVec.ofNat 8 (bytesAt b 0xA 1)
    members := BitVec.ofNat 8 (bytesAt b 0xB 1), childCount := BitVec.ofNat 8 (bytesAt b 0xC 1)
    parent := BitVec.ofNat 32 (bytesAt b 0x10 4)
    ringMembers := (List.range (bytesAt b 0xB 1)).map fun i => BitVec.ofNat 16 (bytesAt b (0x20 + 2 * i) 2)
    children := (List.range (bytesAt b 0xC 1)).map fun i =>
      (BitVec.ofNat 16 (bytesAt b (0x40 + 8 * i) 2), BitVec.ofNat 32 (bytesAt b (0x44 + 8 * i) 4)) }

def positiveFinite (x : BitVec 32) : Bool := !f32NonFinite x && !f32IsZero x && !f32Neg x

def jobOk (j : HierJob) : Bool :=
  1 ≤ j.jobInstances && j.jobInstances ≤ 65536 &&
  4800 ≤ j.contribTimeout && j.contribTimeout.toNat ≤ 2 ^ 40 && 4800 ≤ j.joinTimeout && j.joinTimeout.toNat ≤ 2 ^ 40 &&
  positiveFinite j.maxNorm && positiveFinite j.clipEps && 1 ≤ j.lsInterval &&
  j.lsMin ≤ j.lsMax && j.lsMax ≤ 32 && field j.flags 4 4 == 0

def allDistinct {α : Type} [DecidableEq α] : List α → Bool
  | [] => true
  | a :: l => !l.contains a && allDistinct l

/-- The conditions of R259 by role; the section's bytes show that unused entries are zero. -/
def instOk (j : HierJob) (h : HierInst) (b : List Byte) : Bool :=
  h.role ≤ 3 && 1 ≤ h.ringSize && h.ringSize ≤ 16 && h.ringPos < h.ringSize && h.managerPos < h.ringSize &&
  h.ringSize.toNat ≤ j.jobInstances.toNat && h.neighbours ≤ 3 && !(h.ringSize == 1 && h.neighbours != 0) &&
  h.members ≤ 16 && h.childCount ≤ 64 &&
  zeroBytes b (0x20 + 2 * h.members.toNat) 0x40 && zeroBytes b (0x40 + 8 * h.childCount.toNat) 0x240 &&
  (if h.role = 0 then h.managerPos != h.ringPos && h.members == 0 && h.childCount == 0 && h.parent == 0
   else
    h.managerPos == h.ringPos && h.members == h.ringSize && allDistinct h.ringMembers &&
    h.ringMembers.contains h.contrib &&
    (if h.role = 1 then h.childCount == 0 && h.parent != 0
     else 1 ≤ h.childCount && allDistinct (h.children.map (·.1)) && ((h.parent == 0) == (h.role == 3))))

/-! ## RNG and LIMITS (R260, R261) -/

def parseRng (b : List Byte) : RngPlan :=
  { seedLo := BitVec.ofNat 64 (bytesAt b 0 8), seedHi := BitVec.ofNat 64 (bytesAt b 8 8)
    reseed := BitVec.ofNat 64 (bytesAt b 0x10 8) }

def parseLimits (b : List Byte) : Limits :=
  { padFloorSweep := BitVec.ofNat 16 (bytesAt b 0 2), padFloorStream := BitVec.ofNat 16 (bytesAt b 2 2)
    deltaChannels := BitVec.ofNat 8 (bytesAt b 4 1), padWatchdog := BitVec.ofNat 32 (bytesAt b 8 4)
    croakThrottle := BitVec.ofNat 16 (bytesAt b 0xC 2), croakEcc := BitVec.ofNat 32 (bytesAt b 0x10 4) }

/-- The largest pad set of a tile, counted from the image alone (R261). -/
def padSetBound (r : RuleSec) (gs : List Graph) : Nat :=
  let role := fun (m : BitVec 16) => if field m 1 15 != 0 then 1 else 0
  let tile := 2 + role r.m1Mask + role r.m2Mask + role r.wMask + role r.genMask + (if r.emaMode = 1 then 1 else 0)
  let sets := [tile + (if r.pass1Path = 2 then 16 else 0)] ++
    ([1, 2, 3, 4].filter fun g => (graphAt gs g).present).map (fun _ => tile) ++
    (if (graphAt gs 5).present then [2] else []) ++ (if r.pass1Path = 2 then [32] else [])
  sets.foldl max 0

def limitsOk (r : RuleSec) (gs : List Graph) (l : Limits) : Bool :=
  l.padFloorSweep.toNat + l.padFloorStream.toNat ≤ 2048 && padSetBound r gs ≤ l.padFloorSweep.toNat &&
  l.deltaChannels ≤ 4 && 4800 ≤ l.padWatchdog

/-! ## Signature and digest (R262, R263) -/

def keyBytes (b : List Byte) : List Byte :=
  let g := sectionOf b 0xFF
  [0x04] ++ (g.drop 0x10).take 48 ++ (g.drop 0x40).take 48

/-- The fused key hash as bytes, from IMG_KEY_HASH0 to 5. -/
def fusedHash (s : State) : List Byte := s.vault.keyHash.flatMap fun w => leBytes 8 w.toNat

def keyOk (s : State) (b : List Byte) : Bool :=
  !((fusedHash s).all (· == 0)) && sha384 (keyBytes b) == fusedHash s

def signatureOk (b : List Byte) : Bool :=
  let g := sectionOf b 0xFF
  bytesAt g 0 2 == 0x4753 && bytesAt g 2 1 == 1 &&
  ecdsaVerify (beNat ((g.drop 0x10).take 48), beNat ((g.drop 0x40).take 48)) (sha384 (b.take (b.length - 256)))
    (beNat ((g.drop 0x70).take 48)) (beNat ((g.drop 0xA0).take 48))

/-- The sections that the digest covers, in ascending TYPE (R243). -/
def digestKinds : List Nat := [1, 2, 3, 5, 6, 8, 9]

/-- The configuration digest, byte 0 in bits 7:0 (R263). -/
def digestOf (b : List Byte) : BitVec 384 :=
  let parts := (digestKinds.filter (hasSection b)).flatMap fun k =>
    let s := sectionOf b k
    leBytes 2 k ++ leBytes 4 s.length ++ s
  BitVec.ofNat 384 (leNat (sha384 ([0x50, 0x59, 0x33, 0x44] ++ [BitVec.ofNat 8 (bytesAt b 3 1)] ++ parts)))

/-- The image as the engine reads it. -/
def parseImage (b : List Byte) : Image :=
  let gs := parseGraphs (sectionOf b 2)
  { rule := parseRule (sectionOf b 1)
    graphs := gs
    programs := parsePrograms (sectionOf b 3)
    placement := parsePlacements gs (sectionOf b 4)
    port := parsePort (sectionOf b 5)
    hier := if hasSection b 6 then some (parseJob (sectionOf b 6), parseInst (sectionOf b 7)) else none
    rng := parseRng (sectionOf b 8)
    limits := parseLimits (sectionOf b 9)
    digest := digestOf b
    instBytes := sectionOf b 7 }

/-! ## Verification (R269) -/

/-- The checks in the order of R269: each fails with its ERR and ERR_SECTION. -/
def verifyChecks (s : State) (len : Nat) (b : List Byte) : List (Bool × BitVec 8 × BitVec 16) :=
  let im := parseImage b
  [ (bytesAt b 0 2 == 0x5349 && bytesAt b 2 1 == 1 && bytesAt b 0x3C 4 == (crc32 (b.take 0x3C)).toNat, 0x01, 0),
    (bytesAt b 3 1 == 3 && bytesAt b 4 1 == 0, 0x02, 0),
    (bytesAt b 8 4 == len, 0x03, 0),
    (directoryOk b, 0x04, 0) ] ++
  (dirEntries b).map (fun e =>
    (e.crc == (crc32 (sectionBytes b e)).toNat, (0x05 : BitVec 8), BitVec.ofNat 16 e.kind)) ++
  [ (keyOk s b, 0x06, 0xFF),
    (signatureOk b, 0x07, 0xFF),
    (ruleOk im.rule, 0x08, 1),
    (graphsOk im.rule (sectionOf b 2), 0x09, 2),
    (programsOk im.rule im.graphs (sectionOf b 3), 0x0A, 3),
    (placementOk im.graphs (sectionOf b 4), 0x0B, 4),
    (portOk im.port (sectionOf b 5) im.hier, 0x0C, 5),
    (s.image.hashFixed.all (· == im.port.hashPlan), 0x10, 5),
    (im.hier.all (fun h => jobOk h.1), 0x0D, 6),
    (im.hier.all (fun h => instOk h.1 h.2 (sectionOf b 7)), 0x0D, 7),
    (zeroBytes (sectionOf b 8) 0x18 0x40, 0x0E, 8),
    (limitsOk im.rule im.graphs im.limits, 0x0F, 9) ]

/-- The first check that fails. -/
def firstFailed : List (Bool × BitVec 8 × BitVec 16) → Option (BitVec 8 × BitVec 16)
  | [] => none
  | (ok, e, k) :: cs => if ok then firstFailed cs else some (e, k)

/-- The bytes that a load has brought. -/
def loadedBytes (u : ImageUnit) : List Byte :=
  (List.range (u.loadLen / 64)).flatMap fun i => lineBytes (((u.loadLines.find? (·.1 == i)).map (·.2)).getD 0)

end Sys2Proof.Machine
end

