-- ==== Sys2Proof/Machine/Staged.lean ====
section
/-! DEFINITION. The step constants, the arena bases and the tensor table: their checks, their commits and
loads (R118-R122, R159-R167, R529-R531). -/
namespace Sys2Proof.Machine

/-! ## Step constants (R118-R122) -/

/-- K0 to K15 from the stage registers (R118). -/
def stepkSlots (ws : List Word) : List (BitVec 32) := ws.flatMap fun w => [field w 0 32, field w 32 32]

/-- The code of a slot against its range: NONFINITE, then RANGE (R121). -/
def slotErr (c : ConstRange) (x : BitVec 32) : BitVec 8 :=
  if !c.used then 0
  else if f32NonFinite x then 1
  else if f32Lt x c.lo || f32Lt c.hi x then 2
  else 0

/-- The lowest failing slot, with its code (R121); (0, 0) when the set passes. -/
def stepkCheck (im : Image) (ks : List (BitVec 32)) : BitVec 8 × BitVec 4 :=
  match (List.range 16).find? fun i => slotErr (im.rule.consts.getD i {}) (ks.getD i 0) != 0 with
  | some i => (slotErr (im.rule.consts.getD i {}) (ks.getD i 0), BitVec.ofNat 4 i)
  | none => (0, 0)

def setStepk (f : Stepk → Stepk) (s : State) : State := { s with stepk := f s.stepk }

/-- A write of STEPK_COMMIT (R119, R121, R529). -/
def writeStepkCommit (w : Word) (s : State) : State :=
  if !w.getLsbD 0 then s
  else match activeImage s with
    | none => setStepk (fun k => { k with err := 4, errSlot := 0 }) s
    | some im =>
      if s.stepk.pending.isSome then setStepk (fun k => { k with err := 3, errSlot := 0 }) s
      else
        let (e, slot) := stepkCheck im (stepkSlots s.stepk.stage)
        let copy : StepkCopy :=
          { words := s.stepk.stage, forStep := field w 32 32, boundary := nextBoundary (now s) 64 }
        setStepk (fun k => { k with
          err := e, errSlot := slot, pending := if e = 0 then some copy else none }) s

/-- The boundary of a pending copy (R121, R530, R531). -/
def applyStepk (s : State) : State :=
  match s.stepk.pending with
  | some c =>
    if now s < c.boundary then s
    else
      let (e, slot) := match activeImage s with
        | some im => stepkCheck im (stepkSlots c.words)
        | none => (4, 0)
      if e = 0 then
        setStepk (fun k => { k with
          pending := none, set := stepkSlots c.words, setStep := c.forStep, valid := true, captured := false }) s
      else setStepk (fun k => { k with pending := none, err := e, errSlot := slot }) s
  | none => s

/-- A molt checks the set in effect against the new table (R159, R272). -/
def recheckStepk (s : State) : State :=
  match activeImage s with
  | some im =>
    let (e, slot) := stepkCheck im s.stepk.set
    if s.stepk.valid && e != 0 then
      { (setStepk (fun k => { k with valid := false, err := e, errSlot := slot }) s) with
        image := { s.image with stepkDropped := true } }
    else s
  | none => s

/-! ## Arena bases (R160-R162) -/

/-- STACK_GIB of the active image, 128 before the first molt, as a number of lines (R162, R282). -/
def stackLines (s : State) : Nat := ((activeImage s).map (·.port.stackGib.toNat)).getD 128 * 2 ^ 24

/-- ALIGN, then RANGE, with the lowest failing base (R162). -/
def swpCheck (s : State) (bs : List (BitVec 34)) : BitVec 8 × BitVec 4 :=
  if (bs.getD arenaGrad 0).toNat % 1024 ≠ 0 then (1, BitVec.ofNat 4 arenaGrad)
  else if (bs.getD arenaJournal 0).toNat % 64 ≠ 0 then (1, BitVec.ofNat 4 arenaJournal)
  else match (List.range 11).find? fun n => stackLines s ≤ (bs.getD n 0).toNat with
    | some n => (2, BitVec.ofNat 4 n)
    | none => (0, 0)

def setSwp (f : Swp → Swp) (s : State) : State := { s with swp := f s.swp }

/-- A write of SWP_COMMIT (R161, R162, R529). -/
def writeSwpCommit (w : Word) (s : State) : State :=
  if !w.getLsbD 0 then s
  else if s.swp.pending.isSome then setSwp (fun b => { b with err := 3, errBase := 0 }) s
  else if s.step.phase != .idle then setSwp (fun b => { b with err := 4, errBase := 0 }) s
  else
    let (e, n) := swpCheck s s.swp.stage
    setSwp (fun b => { b with
      err := e, errBase := n, pending := if e = 0 then some (b.stage, nextBoundary (now s) 64) else none }) s

/-- The boundary of a pending set of bases; a build of the granule map follows (R162, R198, R530, R531). -/
def applySwp (s : State) : State :=
  match s.swp.pending with
  | some (bs, b) =>
    if now s < b then s
    else
      let (e, n) := swpCheck s bs
      if e = 0 then mapStart (setSwp (fun u => { u with pending := none, set := bs, valid := true }) s)
      else setSwp (fun u => { u with pending := none, err := e, errBase := n }) s
  | none => s

/-- A molt checks the bases in effect against the new STACK_GIB (R162, R272). -/
def recheckSwp (s : State) : State :=
  if s.swp.valid && s.swp.set.any (fun b => stackLines s ≤ b.toNat) then
    let s := setSwp (fun b => { b with valid := false }) s
    { s with image := { s.image with basesDropped := true }, tongue := { s.tongue with map := .none, claims := [] } }
  else s

/-! ## The tensor table (R165-R167) -/

/-- A record from its line (R165). -/
def parseRecord (l : Line) : TensorRec :=
  { valid := l.getLsbD 7, ema := l.getLsbD 6, lazyWd := l.getLsbD 5, sparse := l.getLsbD 4
    unfactored := l.getLsbD 3, noTrust := l.getLsbD 2, shape2d := l.getLsbD 1
    elems := fieldNat l 24 36, group := fieldNat l 8 16
    gradOff := fieldNat l (64 + 36) 28, elemBase := fieldNat l 64 36
    rows := fieldNat l (128 + 32) 32, cols := fieldNat l 128 32
    wdMult := field l (192 + 32) 32, lrMult := field l 192 32
    ov3 := field l (256 + 32) 32, ov2 := field l 256 32
    gscale := field l (320 + 32) 32, indexCount := fieldNat l 320 32
    auxOff := fieldNat l (384 + 30) 34
    gfmt := field l (448 + 20) 4, m1fmt := field l (448 + 16) 4, m2fmt := field l (448 + 12) 4
    wfmt := field l (448 + 8) 4, genfmt := field l (448 + 4) 4, emaBf16 := l.getLsbD (448 + 3) }

def codeIn (m : BitVec 16) (c : BitVec 4) : Bool := m.getLsbD c.toNat

/-- Every format code is accepted by the active image's rule, whose masks hold only codes that R46 and R165
accept (R167, R246). Without an image no code is. -/
def formatsOk (im : Option Image) (r : TensorRec) : Bool :=
  match im with
  | none => false
  | some im =>
    codeIn im.rule.gMask r.gfmt && codeIn im.rule.m1Mask r.m1fmt && codeIn im.rule.m2Mask r.m2fmt &&
    codeIn im.rule.wMask r.wfmt && codeIn im.rule.genMask r.genfmt &&
    (!r.ema || codeIn im.rule.emaMask (if r.emaBf16 then 1 else 0))

/-- R164's multiples. -/
def recordAligned (r : TensorRec) : Bool :=
  r.elemBase % (if copyMx r.wfmt || copyMx r.genfmt then 2048 else 1024) = 0 && r.gradOff % 1024 = 0

/-- The first cause that a valid record fails, given the valid record before it (R167). -/
def recordErr (im : Option Image) (prev : Option TensorRec) (r : TensorRec) : BitVec 8 :=
  if !formatsOk im r then 1
  else if !recordAligned r then 2
  else if (match prev with
    | none => r.group != 0
    | some p => r.group != p.group && r.group != p.group + 1) then 3
  else if r.sparse && (prev.map (!·.sparse)).getD false then 4
  else if r.elems = 0 || (r.sparse && (r.cols = 0 || r.cols % 32 ≠ 0)) then 5
  else 0

/-- The lowest failing valid record: its code and index (R167). -/
def tableErr (im : Option Image) : Option TensorRec → Nat → List TensorRec → Option (BitVec 8 × Nat)
  | _, _, [] => none
  | prev, i, r :: rs =>
    if !r.valid then tableErr im prev (i + 1) rs
    else
      let e := recordErr im prev r
      if e = 0 then tableErr im (some r) (i + 1) rs else some (e, i)

def setTtab (f : Ttab → Ttab) (s : State) : State := { s with ttab := f s.ttab }

def Who.isTable : Who → Bool
  | .table _ => true
  | _ => false

/-- An accepted load begins to read COUNT records. -/
def startTableLoad (s : State) : State :=
  let n := s.ttab.count.toNat
  let a := s.ttab.addr
  let s := dropReads Who.isTable (setTtab (fun t => { t with
    loading := true, loaded := false, loadAddr := a, loadCount := n, lines := [], loadFailed := false
    err := 0, errIndex := 0 }) s)
  let s := { s with tongue := { s.tongue with map := .none, claims := [] } }
  enqueueAll ((List.range n).map fun i =>
    { who := .table i, cls := .stream, write := false, line := a + BitVec.ofNat 34 i }) s

/-- A write of TTAB_CTL (R166, R167). LOAD written while a load runs leaves that load alone (R525). -/
def writeTtabCtl (w : Word) (s : State) : State :=
  let s := setTtab (fun t => { t with count := field w 32 15 }) s
  if !w.getLsbD 0 || s.ttab.loading then s
  else if s.step.phase != .idle then setTtab (fun t => { t with err := 6 }) s
  else if s.ttab.count = 0 || 16384 < s.ttab.count.toNat then setTtab (fun t => { t with err := 7 }) s
  else startTableLoad s

/-- A record's line has come; one whose read failed fatally holds a value that the spec leaves open. -/
def tableLine (i : Nat) (data : Option Line) (s : State) : State :=
  if !s.ttab.loading then s
  else
    let got := lineOrFree data s
    let l := got.1
    let s := got.2
    setTtab (fun t => { t with lines := (i, l) :: t.lines }) s

/-- Every record has come: the table takes effect, or is rejected at its lowest failing record (R167). -/
def tableEnd (s : State) : State :=
  let rs := (List.range s.ttab.loadCount).map fun i =>
    parseRecord (((s.ttab.lines.find? (·.1 == i)).map (·.2)).getD 0)
  match tableErr (activeImage s) none 0 rs with
  | none => mapStart (setTtab (fun t => { t with
      loading := false, loaded := true, recs := rs, lines := [], err := 0, errIndex := 0 }) s)
  | some (e, i) => setTtab (fun t => { t with
      loading := false, loaded := false, recs := [], lines := [], err := e, errIndex := BitVec.ofNat 14 i }) s

/-- A molt checks the table against the new masks and graphs (R167, R272): a SPARSE record needs the sparse
graph. -/
def recheckTable (s : State) : State :=
  match activeImage s with
  | some im =>
    let bad := (validTensors s).any fun t =>
      !formatsOk (some im) (recOf s t) || ((recOf s t).sparse && !ruleSparse im.rule)
    if s.ttab.loaded && bad then
      { (setTtab (fun t => { t with loaded := false, recs := [] }) s) with
        image := { s.image with tableDropped := true }, tongue := { s.tongue with map := .none, claims := [] } }
    else s
  | none => s

/-! ## The rows -/

/-- STEPK_COMMIT (R121, R529). -/
def execStepkCommit (w : Word) (s : State) : Out := .next (ctlWrite 0x000240 w (writeStepkCommit w) s)

/-- SWP_COMMIT (R162, R529). -/
def execSwpCommit (w : Word) (s : State) : Out := .next (ctlWrite 0x000460 w (writeSwpCommit w) s)

/-- TTAB_LOAD (R167). -/
def execTtabLoad (w : Word) (s : State) : Out := .next (ctlWrite 0x000470 w (writeTtabCtl w) s)

/-- TABLE_LOAD_DONE (R167): due once every record has come. -/
def execTableLoadDone (s : State) : Out :=
  .next (if working s && s.ttab.loading && s.ttab.lines.length == s.ttab.loadCount then tableEnd s else s)

end Sys2Proof.Machine
end

