-- ==== Sys2Proof/Machine/Images.lean ====
section
/-! DEFINITION. Loading, verifying and molting structure images; which placement variant the live ranks
have (R112, R114, R264-R276). -/
namespace Sys2Proof.Machine

/-! ## Placement variants (R112, R114) -/

/-- The variant of the live counts; none once a fourth rank is lost. -/
def liveVariant (s : State) : Option Nat :=
  let c := popCount s.fab.rankShed
  let t := popCount s.fab.sfuShed
  if c + t ≤ 3 then some (4 * t + c) else none

/-- The placement of a graph for the live ranks, if it can be placed. -/
def placementFor (s : State) (g : Nat) : Option Placement :=
  match activeImage s, liveVariant s with
  | some im, some v => im.placement.find? fun p => p.graph.toNat == g && p.variant.toNat == v && p.width != 0xFF
  | _, _ => none

def placeable (s : State) (g : Nat) : Bool := (placementFor s g).isSome

/-- The graphs of the active image. -/
def graphsPresent (s : State) : List Nat :=
  match activeImage s with
  | some im => (List.range 8).filter fun g => (graphAt im.graphs g).present
  | none => []

/-- A graph of the active image cannot be placed, or a fourth rank is lost (R114). -/
def noVariantNow (s : State) : Bool := (liveVariant s).isNone || (graphsPresent s).any fun g => !placeable s g

/-! ## Loads (R266, R269, R276) -/

def setImage (f : ImageUnit → ImageUnit) (s : State) : State := { s with image := f s.image }

def Who.isImage : Who → Bool
  | .image _ => true
  | _ => false

/-- The load under way, if any, is abandoned and the shadow plane emptied (R275, R276). -/
def emptyShadow (s : State) : State :=
  dropFar Who.isImage (dropReads Who.isImage (setImage (fun u => { u with
    shadow := .empty, shadowImage := none, loadLines := [], loadNext := 0, loadLen := 0, loadFailed := false }) s))

/-- An accepted LOAD: the shadow plane is emptied and the image is read into it (R269). -/
def startLoad (s : State) : State :=
  let u := s.image
  let n := u.len.toNat / 64
  let outside := !u.srcFar && field u.addr 34 24 != 0
  let s := bootTo 5 (setImage (fun v => { v with
    shadow := .loading, loadFar := u.srcFar, loadAddr := u.addr, loadLen := u.len.toNat
    loadNext := if u.srcFar then 0 else n, loadFailed := outside }) (emptyShadow s))
  if u.srcFar || outside then s
  else enqueueAll ((List.range n).map fun i =>
    { who := .image i, cls := .stream, write := false, line := field u.addr 0 34 + BitVec.ofNat 34 i }) s

def lenOk (n : Nat) : Bool := n % 64 = 0 && 1024 ≤ n && n ≤ 786432

/-- LOAD (R269). -/
def imgLoad (s : State) : State :=
  if s.image.shadow == .loading || s.image.shadow == .verifying || s.image.molting then
    setImage (fun u => { u with err := 0x12 }) s
  else if !lenOk s.image.len.toNat then setImage (fun u => { u with err := 0x13 }) s
  else startLoad s

/-- DISCARD (R266, R276). -/
def imgDiscard (s : State) : State := emptyShadow s

/-- A line of the image has come (R269). -/
def imageLine (i : Nat) (data : Option Line) (s : State) : State :=
  if s.image.shadow != .loading then s
  else match data with
    | some l => setImage (fun u => { u with loadLines := (i, l) :: u.loadLines }) s
    | none => setImage (fun u => { u with loadFailed := true }) s

/-- The shadow plane is REJECTED, and that is reported (R269). -/
def rejectImage (e : BitVec 8) (kind : BitVec 16) (s : State) : State :=
  let s := emptyShadow s
  let s := setImage (fun u => { u with shadow := .rejected, err := e, errSection := kind }) s
  pulse 11 (report 0x0501 (put 16 kind ||| put 0 e) s)

/-- The read is over (R269). -/
def imageReadEnd (s : State) : State :=
  if s.image.shadow != .loading then s
  else if s.image.loadFailed then rejectImage 0x11 0 s
  else if s.image.loadLines.length * 64 == s.image.loadLen then setImage (fun u => { u with shadow := .verifying }) s
  else s

/-- Verification ends (R269, R270). -/
def verifyEnd (s : State) : State :=
  if s.image.shadow != .verifying then s
  else
    let b := loadedBytes s.image
    match firstFailed (verifyChecks s s.image.loadLen b) with
    | some (e, k) => rejectImage e k s
    | none => pulse 11 (setImage (fun u => { u with
        shadow := .verified, shadowImage := some (parseImage b), err := 0, errSection := 0, loadLines := [] }) s)

/-! ## Molts (R271-R273) -/

/-- SHADOW_TAG (R268). -/
def shadowTag (s : State) : BitVec 32 := (s.image.shadowImage.map fun i => field i.digest 0 32).getD 0

/-- The first condition of R271 that fails; while a molt runs, BUSY (R525, R550). -/
def moltErr (s : State) (expect : BitVec 32) : BitVec 8 :=
  if s.image.molting then 5
  else if s.step.phase != .idle || s.tongue.clearing.isSome then 1
  else if s.image.shadow != .verified then 2
  else if expect ≠ shadowTag s then 3
  else if passRunning s || s.fab.draining then 4
  else if s.ttab.loading || s.swp.pending.isSome || s.tongue.map == .building then 5
  else 0

/-- A channel that a molt takes out of use (R373). Its STEP_CANCEL is still written. -/
def xchDisable (k : Nat) (s : State) : State :=
  let s := endJob k (leaveOffers k (dropLagRead k (stepCancel k (xchan s k).ordinal true s)))
  dropPads k (setXch k (fun c => { c with
    state := .disabled, eff := { c.eff with enable := false }, openStep := none, baseValid := false, whole := [] }) s)

/-- The floors of the stream group against PAD_FLOOR_STREAM (R353). -/
def floorsOver (s : State) : Bool :=
  s.pond.floorStream.toNat < streamFloors (s.strm.chans.map (·.eff)) (s.xch.chans.map (·.eff))

/-- The channels that the new limits no longer allow are disabled (R373). -/
def moltChannels (n : Nat) (s : State) : State :=
  let s := (List.range 4).foldl (fun s k =>
    if n ≤ k && (xchan s k).eff.enable then xchDisable k s else s) s
  [7, 6, 5, 4, 3, 2, 1, 0].foldl (fun s k => if floorsOver s && (xchan s k).eff.enable then xchDisable k s else s) s

/-- BASE_VALID falls where the tag changed: at once, or at STEP_END on a channel that still drains (R356, R373). -/
def moltBases (s : State) : State :=
  let drop (c : XChan) : XChan := if c.openStep.isSome then { c with baseDrop := true } else { c with baseValid := false }
  { s with xch := { s.xch with chans := s.xch.chans.zipIdx.map fun (c, k) => if 4 ≤ k then c else drop c } }

/-- Step 1 of R272, and what follows of it at once: the limits of the new image (R273), the hash plan
that the first molt fixes (R274), and a pending regulator copy that is dropped (R531). -/
def swapPlanes (im : Image) (s : State) : State :=
  let first := s.image.active.isNone
  let s := setImage (fun u => { u with
    active := some im, shadow := .empty, shadowImage := none, molting := true, moltErr := 0
    epochClosed := false, stepkDropped := false, basesDropped := false, tableDropped := false
    hashFixed := if first then some im.port.hashPlan else u.hashFixed }) s
  let s := { s with
    pond := { s.pond with
      floorSweep := im.limits.padFloorSweep.setWidth 12, floorStream := im.limits.padFloorStream.setWidth 12 }
    strm := { s.strm with
      spill := im.port.actMode == 1
      chans := s.strm.chans.map fun c => { c with urgent := c.urgent && im.port.actMode == 1 } }
    mem := { s.mem with
      planDue := some (nextBoundary (portNow s) 1024), pending := none
      err := if s.mem.pending.isSome then 8 else s.mem.err
      errPart := if s.mem.pending.isSome then 0 else s.mem.errPart } }
  moltChannels im.limits.deltaChannels.toNat s

/-- Step 4: the epoch closes when the tag or any byte of HIER_INSTANCE changed (R272). -/
def moltEpoch (old : Option Image) (im : Image) (s : State) : State :=
  let tag := fun (i : Image) => (field i.digest 0 32 : BitVec 32)
  let changed := old.map tag ≠ some (tag im)
  let s := if changed then moltBases s else s
  if changed || old.map (·.instBytes) ≠ some im.instBytes then
    setImage (fun u => { u with epochClosed := true }) { s with memb := { s.memb with state := .none } }
  else s

/-- MOLT (R271, R272). -/
def imgMolt (expect : BitVec 32) (s : State) : State :=
  let e := moltErr s expect
  match s.image.shadowImage with
  | some im =>
    if e ≠ 0 then setImage (fun u => { u with moltErr := e }) s
    else
      let old := s.image.active
      let s := recheckTable (recheckSwp (recheckStepk (swapPlanes im s)))
      let s := recompare .west (recompare .east (moltEpoch old im s))
      let s := { s with rng := { s.rng with reseedDue := true, reseedFrom := now s } }
      let s := { s with fab := { s.fab with noVariant := noVariantNow s } }
      bootLinks (segSettle (if im.hier.isSome then bootTo 6 s else s))
  | none => setImage (fun u => { u with moltErr := if e = 0 then 2 else e }) s

/-- A write of IMG_CTL: one action per write (R266). -/
def writeImgCtl (w : Word) (s : State) : State :=
  if 1 < popCount (field w 0 3) then setImage (fun u => { u with moltErr := 5 }) s
  else if w.getLsbD 0 then imgLoad s
  else if w.getLsbD 1 then imgMolt (field w 32 32) s
  else if w.getLsbD 2 then imgDiscard s
  else s

/-- The new port plan takes effect at a window boundary, where the counts restart (R272, R291, R311). A stage write of
the same ctrl cycle is applied after it (R526). -/
def applyPlan (s : State) : State :=
  match s.mem.planDue, activeImage s with
  | some b, some im =>
    if portNow s < b then s
    else
      let p := im.port
      rescale (setMem (fun m => { m with
        planDue := none
        hashPlan := p.hashPlan, regulated := p.arbMode == 1, partitions := p.partitions.setWidth 4, stackGib := p.stackGib
        stage := { m.stage with
          parts := (if m.partAt = now s then m.partNow else []).foldl stagePart p.parts }
        eff := { m.eff with parts := p.parts }
        used := List.replicate 8 0, throttledUsed := 0
        chans := m.chans.map fun c => { c with byPart := List.replicate 8 0 } }) s)
  | _, _ => s

/-! ## The rows -/

def imgCtlAddr : Addr24 := 0x020010

/-- IMG_LOAD (R266, R269). -/
def execImgLoad (w : Word) (s : State) : Out := .next (ctlWrite imgCtlAddr w (writeImgCtl w) s)

/-- IMG_MOLT (R266, R271, R272). -/
def execImgMolt (w : Word) (s : State) : Out := .next (ctlWrite imgCtlAddr w (writeImgCtl w) s)

/-- IMG_DISCARD (R266, R276). -/
def execImgDiscard (w : Word) (s : State) : Out := .next (ctlWrite imgCtlAddr w (writeImgCtl w) s)

/-- IMAGE_READ_DONE (R269). -/
def execImageReadDone (s : State) : Out := .next (if working s then imageReadEnd s else s)

/-- IMAGE_VERIFY_DONE (R269, R270). -/
def execImageVerifyDone (s : State) : Out := .next (if working s then verifyEnd s else s)

/-- MOLT_DONE (R272): the port plan is the last of a molt's effects. -/
def execMoltDone (s : State) : Out :=
  .next (if working s && s.image.molting && s.mem.planDue.isNone then
    pulse 12 (setImage (fun u => { u with molting := false }) s) else s)

/-- PORT_PLAN_APPLY (R272). -/
def execPortPlanApply (s : State) : Out := .next (if ready s then applyPlan s else s)

end Sys2Proof.Machine
end

