-- ==== Sys2Proof/Machine/Vault.lean ====
section
/-! DEFINITION. The key vault and the key-store port (R458-R460, R489-R503). -/
namespace Sys2Proof.Machine

/-! ## The key-store port (R459, R460) -/

/-- Raises the next key-store operation when the port is free and kst_req has been 0 for a port cycle. -/
def kstNext (s : State) : State :=
  match s.kst.cur, s.kst.todo with
  | none, o :: rest =>
    if s.kst.restAt ≤ portNow s then { s with kst := { s.kst with cur := some (o, now s), todo := rest } } else s
  | _, _ => s

/-- The operation on the port ends: kst_req falls in the next port cycle and may rise one port cycle after that. -/
def kstLower (repeated : Bool) (s : State) : State :=
  { s with kst := { s.kst with
    cur := none
    repeated := repeated
    restAt := portNow s + 2 } }

def kstQueue (os : List KstOp) (s : State) : State :=
  kstNext { s with kst := { s.kst with todo := s.kst.todo ++ os } }

/-- What a reset leaves of the port: a write that has begun, the repetition that it waits for included (R460). -/
def KstPort.begun (k : KstPort) : KstPort :=
  match k.cur, k.todo with
  | some (o, _), _ =>
    if o.we then { k with todo := [] } else { k with cur := none, repeated := false, todo := [] }
  | none, o :: _ => if k.repeated && o.we then { k with todo := [o] } else { k with repeated := false, todo := [] }
  | none, [] => k

/-- The timeout of an operation, in ctrl cycles (R460). -/
def kstBound (o : KstOp) : Nat := if o.we then 4800000 else 48000

/-! ## What initialisation finds (R489, R491, R492) -/

def vaultWord (v : Vault) (a : Nat) : Option (BitVec 32) :=
  (v.words.find? fun w => w.1.toNat == a).map (·.2)

/-- n words from a on, if all of them have been read. -/
def vaultWords (v : Vault) (a n : Nat) : Option (List (BitVec 32)) := (List.range n).mapM fun i => vaultWord v (a + i)

/-- The bytes of a multi-word value (R489). -/
def wordBytes (ws : List (BitVec 32)) : List Byte := ws.flatMap fun w => leBytes 4 w.toNat

/-- The public point, if PUBLIC was read. -/
def vaultPublic (v : Vault) : Option (Nat × Nat) :=
  (vaultWords v 0x40 24).map fun ws =>
    let bs := wordBytes ws
    (beNat (bs.take 48), beNat (bs.drop 48))

/-- The scalar of a key copy at a, if the copy is good (R491). -/
def goodCopy (v : Vault) (a : Nat) : Option Nat :=
  match vaultWords v a 16 with
  | some ws =>
    let bs := wordBytes ws
    let d := beNat (bs.take 48)
    let fits := match vaultPublic v with
      | some q => ptMul d (some p384G) == some q
      | none => true
    if 1 ≤ d && d < p384N && (sha384 (bs.take 48)).take 16 == bs.drop 48 && fits then some d else none
  | none => none

/-- VAULT_STATUS.STATE (R501). -/
def VaultState.code : VaultState → BitVec 3
  | .init => 0 | .blank => 1 | .ok => 2 | .degraded => 3 | .failed => 4

/-- The reason bits in their places of VAULT_STATUS (R501). -/
def VaultReasons.word (y : VaultReasons) : Word :=
  putBit 14 y.noise ||| putBit 13 y.pubRead ||| putBit 12 y.idRead ||| putBit 11 y.hashRead |||
  putBit 10 y.copyBBad ||| putBit 9 y.copyABad

def VaultReasons.any (y : VaultReasons) : Bool :=
  y.noise || y.pubRead || y.idRead || y.hashRead || y.copyBBad || y.copyABad

/-- Entering DEGRADED or FAILED is reported and croaks (R492, R506, R512). -/
def vaultEnter (st : VaultState) (s : State) : State :=
  let s' := { s with vault := { s.vault with state := st } }
  if (st == .degraded || st == .failed) && s.vault.state != st then
    croakSet 0x20 (report 0x0B05 (s'.vault.why.word ||| put 0 st.code) s')
  else s'

/-- The words of a byte string as 64-bit registers, byte 8n in bits 7:0 (R503). -/
def regBytes (n : Nat) (bs : List Byte) : List Word :=
  (List.range n).map fun i => BitVec.ofNat 64 (bytesAt bs (8 * i) 8)

/-- The end of initialisation: the first row of R492 that applies, and what the registers show. -/
def vaultJudge (s : State) : State :=
  let v := s.vault
  let keyed := ((vaultWord v 0x12).map fun w => w.getLsbD 0).getD false
  let locked := ((vaultWord v 0x12).map fun w => w.getLsbD 1).getD false
  let a := goodCopy v 0x20
  let b := goodCopy v 0x30
  let blank := (List.range 0x38).all fun i => vaultWord v (0x20 + i) == some 0
  let hash := vaultWords v 0 12
  let id := vaultWords v 0x10 2
  let chain := (vaultWord v 0x100).getD 0
  let why : VaultReasons :=
    { noise := s.rng.noise == .failed, pubRead := (vaultPublic v).isNone && a.isSome && a == b, idRead := id.isNone
      hashRead := hash.isNone, copyBBad := b.isNone, copyABad := a.isNone }
  let d := (a.or b).getD 0
  let st : VaultState :=
    if (vaultWord v 0x12).isNone then .failed
    else if !keyed then (if blank then .blank else .failed)
    else if a.isNone && b.isNone then .failed
    else if a.isSome && b.isSome && a != b then .failed
    else if why.any then .degraded else .ok
  let use := st == .ok || st == .degraded
  let q := ((vaultPublic v).or (ptMul d (some p384G))).getD (0, 0)
  let v := { v with
    locked := locked, keyed := keyed, why := why, words := []
    chainBytes := field chain 0 16, certs := field chain 16 8
    instanceId := (id.map fun ws => BitVec.ofNat 64 (leNat (wordBytes ws))).getD 0
    keyHash := (hash.map fun ws => regBytes 6 (wordBytes ws)).getD (List.replicate 6 0)
    d := if use then d else 0
    pub := if use then regBytes 12 (beBytes 48 q.1 ++ beBytes 48 q.2) else List.replicate 12 0 }
  vaultEnter st { s with vault := v }

/-- Start-up step 4 begins (R491): reads of words 0x000 to 0x057 and 0x100, one block as blinding seed.
A key-store write that has begun completes first (R460). -/
def vaultInitBegin (s : State) : State :=
  let reads := ((List.range 0x58) ++ [0x100]).map fun a =>
    ({ we := false, addr := BitVec.ofNat 12 a, wdata := 0, use := .init } : KstOp)
  let s := { s with
    kst := { s.kst.begun with todo := s.kst.begun.todo ++ reads }
    vault := { nonce := s.vault.nonce, sel := s.vault.sel, blocksDue := 1 } }
  kstNext s

/-- An operation ends with ERR (R494). -/
def vaultErr (e : BitVec 8) (s : State) : State := { s with vault := { s.vault with err := e, run := none } }

/-- A noise source that becomes FAILED degrades a vault that is OK (R492, R517). -/
def vaultNoiseFailed (s : State) : State :=
  if s.vault.state == .init then s
  else
    let s := { s with vault := { s.vault with why := { s.vault.why with noise := true } } }
    -- a quote has its block already; a KEYGEN that still waits for one has failed
    let s := match s.vault.run with
      | some .quote => { s with vault := { s.vault with blocksDue := 0 } }
      | some .keygen => if 0 < s.vault.blocksDue then vaultErr 5 { s with vault := { s.vault with blocksDue := 0 } } else s
      | _ => s
    if s.vault.state == .ok then vaultEnter .degraded s else s

/-! ## Operations (R494-R498) -/

/-- The end of an operation with its result (R502). -/
def vaultResult (op : BitVec 3) (addr : BitVec 12) (data : BitVec 32) (s : State) : State :=
  { s with vault := { s.vault with err := 0, run := none, resOp := op, resAddr := addr, resData := data } }

/-- The words KEYGEN programs, in order (R489, R495). -/
def keygenWords (d : Nat) : List (BitVec 12 × BitVec 32) :=
  let db := beBytes 48 d
  let copy := db ++ (sha384 db).take 16
  let q := (ptMul d (some p384G)).getD (0, 0)
  let words := fun (a n : Nat) (bs : List Byte) =>
    (List.range n).map fun i => (BitVec.ofNat 12 (a + i), BitVec.ofNat 32 (bytesAt bs (4 * i) 4))
  words 0x20 16 copy ++ words 0x30 16 copy ++ words 0x40 24 (beBytes 48 q.1 ++ beBytes 48 q.2) ++ [(0x12, 1)]

/-- The key that two conditioned blocks give (R495). -/
def keygenScalar (b1 b2 : BitVec 384) : Nat :=
  let bytes := leBytes 48 b1.toNat ++ leBytes 48 b2.toNat
  beNat (bytes.take 56) % (p384N - 1) + 1

/-- The vault takes a conditioned block that it waits for (R491, R493, R495). -/
def vaultTakeBlock (b : BitVec 384) (s : State) : State :=
  let left := s.vault.blocksDue - 1
  let blocks := s.vault.blocks ++ [b]
  let s := { s with vault := { s.vault with blocksDue := left, blocks := blocks } }
  if left = 0 && s.vault.run == some .keygen then
    let d := keygenScalar (blocks.getD 1 0) (blocks.getD 2 0)
    let ws := keygenWords d
    kstQueue (ws.map (fun w => { we := true, addr := w.1, wdata := w.2, use := .keygenWrite }) ++
      ws.map fun w => { we := false, addr := w.1, wdata := 0, use := .keygenCheck w.2 })
      { s with vault := { s.vault with d := d, blocks := [] } }
  else if left = 0 && s.vault.run != some .quote then { s with vault := { s.vault with blocks := [] } }
  else s

/-- KEYGEN's last word has been read back: both copies are good and the key is in use (R495). DEDUCED. -/
def keygenEnd (s : State) : State :=
  let q := (ptMul s.vault.d (some p384G)).getD (0, 0)
  let s := { s with vault := { s.vault with
    keyed := true, why := { s.vault.why with copyABad := false, copyBBad := false }
    pub := regBytes 12 (beBytes 48 q.1 ++ beBytes 48 q.2) } }
  vaultEnter (if s.vault.why.any then .degraded else .ok) (vaultResult 1 0 0 s)

/-- What a finished key-store operation means to the vault; none is a failure after its repetition (R460). -/
def vaultKst (o : KstOp) (w : Option (BitVec 32)) (s : State) : State :=
  match o.use, w with
  | .init, some x => { s with vault := { s.vault with words := (o.addr, x) :: s.vault.words } }
  | .init, none => s
  | .keygenWrite, some _ => s
  | .keygenCheck want, some x =>
    if s.vault.run != some .keygen then s
    else if x ≠ want then vaultErr 5 { s with kst := { s.kst with todo := [] } }
    else if s.kst.todo.isEmpty then keygenEnd s else s
  | .keygenWrite, none | .keygenCheck _, none =>
    if s.vault.run == some .keygen then vaultErr 5 { s with kst := { s.kst with todo := [] } } else s
  | .program, some x => if s.vault.run == some .program then vaultResult 2 o.addr x s else s
  | .lock, some x =>
    if s.vault.run == some .lock then
      vaultResult 3 o.addr x { s with vault := { s.vault with locked := true } }
    else s
  | .read, some x => if s.vault.run == some .read then vaultResult 4 o.addr x s else s
  | .program, none | .lock, none | .read, none => if s.vault.run.isSome then vaultErr 5 s else s

/-- A failed operation: repeated once, then reported (R460). -/
def kstFailed (o : KstOp) (s : State) : State :=
  if s.kst.repeated then
    vaultKst o none (report 0x0A01 (put 0 o.addr ||| putBit 16 o.we) (kstLower false s))
  else
    let s := countPort 10 1 (kstLower true s)
    { s with kst := { s.kst with todo := o :: s.kst.todo } }

/-- The refusals of R494, in their order: OP, BUSY, STATE, LOCKED, ADDRESS, NOISE. -/
def vaultRefusal (s : State) (op addr : Nat) : Option (BitVec 8) :=
  let v := s.vault
  let live := v.state == .ok || v.state == .degraded
  if op < 1 || 5 < op then some 8
  else if v.run.isSome then some 2
  else if (op == 1 && v.state != .blank) || ((op == 3 || op == 5) && !live) ||
      (op == 3 && (v.chainBytes == 0 || v.certs == 0)) then some 1
  else if (op == 2 || op == 3) && v.locked then some 7
  else if (op == 2 && !(addr ≤ 0x11 || (0x100 ≤ addr && addr ≤ 0x8FF))) ||
      (op == 4 && !(addr < 0x900 && !(0x20 ≤ addr && addr ≤ 0x3F))) then some 3
  else if (op == 1 || op == 5) && s.rng.noise != .ok then some 4
  else none

/-- The bytes of the quote record that are signed (R499). -/
def quoteBytes (s : State) (read : Addr24 → Option Word) (croakWord mstate : Word) (step : BitVec 32)
    (idVersion : Word) (digest : Option (BitVec 384)) : List Byte :=
  let sel := s.vault.sel.flatMap fun w =>
    let val := if w.getLsbD 31 then (read (field w 0 24)).getD 0 else 0
    leBytes 4 (fieldNat w 0 32) ++ leBytes 4 0 ++ leBytes 8 val.toNat
  leBytes 2 0x5451 ++ [0x01, 0x01] ++
  leBytes 4 ((if digest.isSome then 1 else 0) + (if s.vault.state == .degraded then 2 else 0) +
    (if s.health.fatal then 4 else 0)) ++
  leBytes 8 idVersion.toNat ++ leBytes 8 s.vault.instanceId.toNat ++ leBytes 4 s.memb.epoch.toNat ++
  leBytes 4 step.toNat ++ leBytes 8 (time s).toNat ++ leBytes 2 (fieldNat croakWord 0 16) ++
  leBytes 1 mstate.toNat ++ leBytes 1 s.step.phase.code.toNat ++ leBytes 4 0 ++
  s.vault.nonce.flatMap (fun w => leBytes 8 w.toNat) ++
  leBytes 48 (digest.getD 0).toNat ++ sel

/-- A QUOTE_SEL entry names no register (R498). -/
def selectBad (s : State) (read : Addr24 → Option Word) : Bool :=
  s.vault.sel.any fun w => w.getLsbD 31 && (fieldNat w 0 3 != 0 || (read (field w 0 24)).isNone)

/-- A write of VAULT_OP (R494); a QUOTE takes the bytes captured in this cycle. -/
def writeVaultOp (w : Word) (quote : State → Option (List Byte)) (s : State) : State :=
  let op := fieldNat w 0 3
  let addr : BitVec 12 := field w 8 12
  let data : BitVec 32 := field w 32 32
  match vaultRefusal s op addr.toNat with
  | some e =>
    -- a BUSY refusal leaves the operation that runs alone
    { s with vault := { s.vault with err := e } }
  | none =>
    let go := fun (r : VaultOp) (s : State) => { s with vault := { s.vault with
      run := some r, err := 0, opAddr := addr } }
    if op = 1 then
      let s := go .keygen s
      { s with vault := { s.vault with blocksDue := 3, blocks := [] } }
    else if op = 2 then kstQueue [{ we := true, addr := addr, wdata := data, use := .program }] (go .program s)
    else if op = 3 then kstQueue [{ we := true, addr := 0x12, wdata := 2, use := .lock }] (go .lock s)
    else if op = 4 then kstQueue [{ we := false, addr := addr, wdata := 0, use := .read }] (go .read s)
    else
      let taken := go .quote s
      let taken := { taken with vault := { taken.vault with blocksDue := 1, blocks := [], out := List.replicate 46 0 } }
      match quote taken with
      | none => { s with vault := { s.vault with err := 6 } }
      | some bs => { taken with vault := { taken.vault with quote := bs } }

/-- The quote is signed and placed in QUOTE_OUT (R498-R500). -/
def quoteEnd (s : State) : State :=
  let sign := ecdsaSign s.vault.d s.vault.quote
  let bs := s.vault.quote ++ beBytes 48 sign.1 ++ beBytes 48 sign.2
  countHealth 4 1 { s with vault := { s.vault with
    run := none, err := 0, resOp := 5, blocks := [], quote := [], out := regBytes 46 bs } }

/-! ## The meanings -/

/-- KST_ACK (R459, R460). -/
def execKstAck (rdata : BitVec 32) (err : Bool) (par : BitVec 5) (s : State) : Out :=
  match s.kst.cur with
  | none => .fault (.unsolicited "kst_ack")
  | some (o, _) =>
    let bundle : BitVec 40 := (if err then (1 : BitVec 8) else 0) ++ rdata
    .next (if err || !parityOk bundle par then kstFailed o s
      else vaultKst o (some rdata) (kstLower false s))

/-- KST_TIMEOUT (R460). -/
def execKstTimeout (s : State) : Out :=
  .next (match s.kst.cur with
    | some (o, t) => if t + kstBound o ≤ now s then kstFailed o s else s
    | none => s)

/-- VAULT_PROGRAM (R494). -/
def execVaultProgram (w : Word) (s : State) : Out :=
  .next (ctlWrite vaultOpAddr w (writeVaultOp w fun _ => none) s)

/-- VAULT_KEYGEN (R495). -/
def execVaultKeygen (w : Word) (s : State) : Out :=
  .next (ctlWrite vaultOpAddr w (writeVaultOp w fun _ => none) s)

/-- VAULT_LOCK (R494, R496). -/
def execVaultLock (w : Word) (s : State) : Out :=
  .next (ctlWrite vaultOpAddr w (writeVaultOp w fun _ => none) s)

/-- VAULT_READ (R494). -/
def execVaultRead (w : Word) (s : State) : Out :=
  .next (ctlWrite vaultOpAddr w (writeVaultOp w fun _ => none) s)

/-- QUOTE_DONE (R498): due once the blinding block has been drawn. -/
def execQuoteDone (s : State) : Out :=
  .next (if ready s && s.vault.run == some .quote && s.vault.blocksDue == 0 then quoteEnd s else s)

end Sys2Proof.Machine
end

