-- ==== Sys2Proof/Machine/Random.lean ====
section
/-! DEFINITION. Random bits: the counter-based generator, mask fills, the noise source, the lanes
(R374-R395). -/
namespace Sys2Proof.Machine

/-! ## The counter-based generator (R375, R377) -/

/-- One round of rng_word on (X0, X1, X2, X3) (R375). -/
def rngRound (seed : BitVec 128) (x : BitVec 32 × BitVec 32 × BitVec 32 × BitVec 32) (r : Nat) :
    BitVec 32 × BitVec 32 × BitVec 32 × BitVec 32 :=
  let sj := fun (j : Nat) => (field seed (32 * (j % 4)) 32 : BitVec 32)
  let (x0, x1, x2, x3) := x
  let x0 := x0 + sj r
  let x1 := x1 ^^^ sj (r + 2)
  let x0 := x0 + x1
  let x3 := (x3 ^^^ x0).rotateLeft 16
  let x2 := x2 + x3
  let x1 := (x1 ^^^ x2).rotateLeft 12
  let x0 := x0 + x1
  let x3 := (x3 ^^^ x0).rotateLeft 8
  let x2 := x2 + x3
  let x1 := (x1 ^^^ x2).rotateLeft 7
  (x1, x2, x3, x0 + BitVec.ofNat 32 r + 1)

/-- rng_word (R375). -/
def rngWord (seed : BitVec 128) (step : BitVec 32) (tensor : BitVec 14) (elem : BitVec 36) (purpose : BitVec 8) :
    BitVec 32 :=
  let x1 : BitVec 32 := (purpose.setWidth 32 <<< 18) ||| (tensor.setWidth 32 <<< 4) ||| (field elem 32 4).setWidth 32
  let (x0, x1, x2, x3) := (List.range 10).foldl (rngRound seed) ((field elem 0 32 : BitVec 32), x1, step, 0x4B524E47)
  (x0 ^^^ x2) ^^^ (x1 + x3)

/-- The seed of the active image: SEED_HI above SEED_LO (R260, R375). -/
def seedOf (s : State) : BitVec 128 :=
  match s.image.active with
  | some im => im.rng.seedHi ++ im.rng.seedLo
  | none => 0

/-! ## Lanes (R388, R389) -/

/-- TAPS[n]; the spec prints TAPS[0] only. -/
def laneTap (n : Nat) : Word := if n = 0 then 0xD800000000000000 else Config.laneTaps n

/-- One step of a lane: its next state and the bit out (R388). -/
def laneStep (n : Nat) (st : Word) : Word × Bool :=
  let out := st.getLsbD 0
  let st := st >>> 1
  (if out then st ^^^ laneTap n else st, out)

/-- 32 steps: the next state and the word, the first step's bit in bit 0 (R388). -/
def laneWord (n : Nat) (st : Word) : Word × BitVec 32 :=
  (List.range 32).foldl (fun (a : Word × BitVec 32) i =>
    let (st, b) := laneStep n a.1
    (st, if b then a.2 ||| ((1 : BitVec 32) <<< i) else a.2)) (st, 0)

/-- A reseed XORs the set into the lanes; a zero result becomes 1 (R389). -/
def reseedLanes (blocks : List (BitVec 384)) (lanes : List Word) : List Word :=
  let bytes := blocks.flatMap fun b => leBytes 48 b.toNat
  (List.range lanes.length).map fun n =>
    let v := lanes.getD n 1 ^^^ BitVec.ofNat 64 (bytesAt bytes (8 * n) 8)
    if v = 0 then 1 else v

/-- A FRESH fill runs. -/
def freshRuns (s : State) : Bool := match s.rng.mask.run with
  | some f => f.regs.fresh
  | none => false

/-! ## Mask fills (R381-R384) -/

/-- Bits that one mask element takes in a FORMAT (R381). -/
def maskBits (format : BitVec 2) : Nat := if format = 0 then 1 else if format = 1 then 8 else 16

/-- Elements in a line (R381). -/
def maskPerLine (format : BitVec 2) : Nat := 512 / maskBits format

/-- Lines of a fill (R381, R382). -/
def maskLines (r : MaskRegs) : Nat := ceilDivN r.count.toNat (maskPerLine r.format)
where
  /-- ceil(a / b). -/
  ceilDivN (a b : Nat) : Nat := (a + b - 1) / b

/-- A line of a mask from its elements in order (R381). -/
def maskLine (r : MaskRegs) (keep : List Bool) : Line :=
  (List.range keep.length).foldl (fun (l : Line) i =>
    if keep.getD i false then
      l ||| (if r.format = 0 then (1 : Line) <<< i
        else if r.format = 1 then (1 : Line) <<< (8 * i)
        else (r.scale.setWidth 512 : Line) <<< (16 * i))
    else l) 0

/-- The word that element i of a fill draws, and the lanes after it (R381, R388). -/
def maskWord (s : State) (r : MaskRegs) (i : Nat) (lanes : List Word) : BitVec 32 × List Word :=
  if r.fresh then
    let n := i % 128
    let (st, w) := laneWord n (lanes.getD n 1)
    (w, lanes.set n st)
  else (rngWord (seedOf s) r.keyStep r.tensor (r.first + BitVec.ofNat 36 i) r.purpose, lanes)

/-- Kept if the word is below THRESHOLD, as unsigned 33-bit integers (R381). -/
def maskKeep (r : MaskRegs) (w : BitVec 32) : Bool := w.toNat < r.thresh.toNat

/-- The elements of a beat from i on, with the lanes after them. -/
def maskElems (s : State) (r : MaskRegs) : Nat → Nat → List Word → List Bool × List Word
  | 0, _, lanes => ([], lanes)
  | n + 1, i, lanes =>
    let (w, lanes) := maskWord s r i lanes
    let (ks, lanes) := maskElems s r n (i + 1) lanes
    (maskKeep r w :: ks, lanes)

/-- Hands over the lines that are complete, and at the fill's end the last one (R381, R383). -/
def maskFlush : Nat → State → State
  | 0, s => s
  | fuel + 1, s =>
    match s.rng.mask.run with
    | some f =>
      let n := maskPerLine f.regs.format
      if n ≤ f.part.length || (f.made == f.regs.count.toNat && !f.part.isEmpty) then
        let line := f.regs.dst + BitVec.ofNat 34 f.lines
        let f' := { f with part := f.part.drop n, lines := f.lines + 1 }
        let s' := { s with rng := { s.rng with mask := { s.rng.mask with run := some f' } } }
        maskFlush fuel (enqueue { who := .mask f.lines, cls := .sweep, write := true, line := line
                                  mask := BitVec.allOnes 64, data := maskLine f.regs (f.part.take n) } s')
      else s
    | none => s

/-- One fab cycle of a fill: up to 256 elements, or 128 of a FRESH one. A COUNTER fill has the words of the generator
that an EMA pass leaves it (R383). -/
def maskBeat (words : Nat) (s : State) : State :=
  match s.rng.mask.run with
  | some f =>
    if f.stopping || s.mem.thermal.paused || !fabricFree s || !working s then s
    else
      let n := min (if f.regs.fresh then 128 else min 256 words) (f.regs.count.toNat - f.made)
      if n = 0 then s
      else
        let (ks, lanes) := maskElems s f.regs n f.made s.rng.lanes
        let f' := { f with made := f.made + n, part := f.part ++ ks, mismatch := false }
        let s' := { s with rng := { s.rng with
          lanes := lanes
          mask := { s.rng.mask with run := some f' } } }
        maskFlush 10 s'
  | none => s

/-- Lines of the fill still in the memory path. -/
def maskOut (s : State) : Bool :=
  (s.mem.waiting.any fun w => isMask w.req.who) || (s.mem.flights.any fun f => isMask f.req.who) ||
  (s.mem.wcb.any fun e => e.whos.any isMask)
where
  /-- A requester that is a mask fill. -/
  isMask : Who → Bool
    | .mask _ => true
    | _ => false

/-- The fill ends: RUNNING falls and MASK_DONE is pulsed (R383, R384, R447). -/
def maskEnd (valid stopped : Bool) (s : State) : State :=
  let s := { s with rng := { s.rng with mask := { s.rng.mask with
    run := none, valid := valid, stopped := stopped, gateWait := false } } }
  pulse 9 s

/-- A stopped fill ends with its last line (R383). -/
def maskSettle (s : State) : State :=
  match s.rng.mask.run with
  | some f => if f.stopping && !maskOut s then maskEnd false f.shown s else s
  | none => s

/-- The fill grants no further write; lines already handed over complete (R380, R383, R391). -/
def maskStop (shown : Bool) (s : State) : State :=
  match s.rng.mask.run with
  | some f =>
    maskSettle { s with rng := { s.rng with mask := { s.rng.mask with
      run := some { f with stopping := true, shown := shown } } } }
  | none => s

/-- A line of the fill has left the memory path: its elements are written if the write is good (R383, R384, R394). -/
def maskWriteDone (i : Nat) (ok : Bool) (s : State) : State :=
  match s.rng.mask.run with
  | some f =>
    let per := maskPerLine f.regs.format
    let n := if ok then min per (f.regs.count.toNat - per * i) else 0
    maskSettle (countRng 5 n { s with rng := { s.rng with mask := { s.rng.mask with
      done := s.rng.mask.done + BitVec.ofNat 36 n } } })
  | none => s

/-- The checks of a START in the order of R382. -/
def maskErr (s : State) (w : Word) : BitVec 8 :=
  let r := s.rng.mask.regs
  if w.getLsbD 1 then 8
  else if s.image.active.isNone then 7
  else if s.step.phase != .idle && s.step.phase != .observe then 1
  else if s.rng.mask.run.isSome then 2
  else if r.format = 3 || r.count = 0 then 5
  else if !r.fresh && (r.purpose < 0x10 || 0x1F < r.purpose) then 4
  else if s.mem.stackGib.toNat * 2 ^ 24 < r.dst.toNat + maskLines r || 2 ^ 36 < r.first.toNat + r.count.toNat then 3
  else if r.fresh && !s.rng.seeded then 6
  else 0

/-- A write of MASK_CTL (R382, R383). -/
def writeMaskCtl (w : Word) (s : State) : State :=
  if w.getLsbD 0 then
    let e := maskErr s w
    let m := s.rng.mask
    if e = 0 then
      { s with rng := { s.rng with mask := { m with
          err := 0, valid := false, stopped := false, done := 0, run := some { regs := m.regs } } } }
    else { s with rng := { s.rng with mask := { m with err := e } } }
  else if w.getLsbD 1 then
    maskStop true s
  else s

/-- A core mismatch in a mask beat: generated again, and on a second one the fill ends (R380). -/
def maskMismatch (s : State) : State :=
  match s.rng.mask.run with
  | some f =>
    if f.mismatch then
      maskStop true { s with rng := { s.rng with mask := { s.rng.mask with err := 9 } } }
    else { s with rng := { s.rng with mask := { s.rng.mask with run := some { f with mismatch := true } } } }
  | none => s

/-! ## The noise source (R385-R387) -/

/-- A failure of a health test: the block being conditioned is discarded, the state moves (R386, R387). In
STARTUP the test begins anew, and its failures count toward no later four; FAILED lasts. DEDUCED. -/
def noiseFail (rct : Bool) (s : State) : State :=
  let win := (s.rng.bitCount - 1) / 1024
  let recent := (win :: s.rng.failsAt).filter fun f => win < f + 64
  let failed := (s.rng.noise == .ok || s.rng.noise == .alarm) && 4 ≤ recent.length
  let st : NoiseState := match s.rng.noise with
    | .startup => .startup
    | .failed => .failed
    | _ => if failed then .failed else .alarm
  let s := countRng (if rct then 0 else 1) 1 s
  let s := report 0x0801 (if rct then 1 else 2) s
  let s := { s with rng := { s.rng with
    noise := st, raw := [], failsAt := if st == .startup then [] else recent
    windowFailed := st != .startup, goodWindows := 0
    bitCount := if st == .startup then 0 else s.rng.bitCount
    rep := if rct || st == .startup then none else s.rng.rep, apt := if st == .startup then none else s.rng.apt } }
  if failed then vaultNoiseFailed (report 0x0802 0 s) else s

/-- The end of a window of 1,024 raw bits (R387). -/
def noiseWindowEnd (s : State) : State :=
  let good := !s.rng.windowFailed
  let n := if good then s.rng.goodWindows + 1 else 0
  let st : NoiseState :=
    match s.rng.noise with
    | .startup => if good then .ok else .startup
    | .alarm => if 64 ≤ n then .ok else .alarm
    | x => x
  { s with rng := { s.rng with noise := st, goodWindows := n, windowFailed := false, apt := none } }

/-- A raw bit that passed both tests joins the block being gathered, in OK and ALARM (R385). -/
def gatherBit (b : Bool) (s : State) : State :=
  let r := s.rng
  if r.noise == .ok || r.noise == .alarm then
    let raw := r.raw ++ [b]
    { s with rng := if raw.length == 1024 then { r with raw := [], ready := r.ready ++ [raw] } else { r with raw := raw } }
  else s

/-- One raw bit: put to both tests; the bit that fails one is not conditioned (R385, R386). -/
def noiseBit (b : Bool) (s : State) : State :=
  let r := s.rng
  let rep := match r.rep with
    | some (x, n) => if x == b then n + 1 else 1
    | none => 1
  let (first, cnt, seen) := match r.apt with
    | some (x, c, n) => (x, if x == b then c + 1 else c, n + 1)
    | none => (b, 1, 1)
  let rct := rep == 26
  let apt := cnt == 672 && first == b
  let s := { s with rng := { r with
    bitCount := r.bitCount + 1, nextBit := now s + 40, rep := some (b, rep), apt := some (first, cnt, seen) } }
  let s := if rct || apt then s else gatherBit b s
  let s := if rct then noiseFail true s else s
  let s := if apt then noiseFail false s else s
  if seen == 1024 && s.rng.apt.isSome then noiseWindowEnd s else s

/-- The conditioner: SHA-384 over the bits in order (R385). -/
def conditioned (raw : List Bool) : BitVec 384 :=
  let bytes := (List.range 128).map fun k =>
    (List.range 8).foldl (fun (a : Byte) i => (a <<< 1) ||| (if raw.getD (8 * k + i) false then 1 else 0)) 0
  BitVec.ofNat 384 (leNat (sha384 bytes))

/-- A conditioned block goes to the message port's SESSION if it is the first after a cold reset (R422),
to the vault if it waits (R491), else toward the reseed set (R389). -/
def takeBlock (b : BitVec 384) (s : State) : State :=
  let s := if s.fmp.sessionDue then
      let got := drawFree s
      let s := got.2
      { s with fmp := { s.fmp with sessionDue := false, session := field got.1 0 16 } }
    else s
  if 0 < s.vault.blocksDue then vaultTakeBlock b s
  else if s.rng.blocks.length < 22 then { s with rng := { s.rng with blocks := s.rng.blocks ++ [b] } }
  else s

/-- The noise source and what it feeds run, except in RETAIN (R385, R480). -/
def sourcesRun (s : State) : Bool := running s && s.power.state != .retain

/-! ## The meanings -/

/-- MASK_START (R382). -/
def execMaskStart (w : Word) (s : State) : Out := .next (ctlWrite 0x070228 w (writeMaskCtl w) s)

/-- MASK_STOP (R383). -/
def execMaskStop (w : Word) (s : State) : Out := .next (ctlWrite 0x070228 w (writeMaskCtl w) s)

/-- MASK_FILL_DONE (R383): due once every line of the fill is through. -/
def execMaskFillDone (s : State) : Out :=
  .next (match s.rng.mask.run with
    | some f =>
      if ready s && f.made == f.regs.count.toNat && f.part.isEmpty && !maskOut s then
        maskEnd (s.rng.mask.done.toNat == f.regs.count.toNat) false s else s
    | none => s)

/-- A write of RNG_CTL (R389, R393). -/
def writeRngCtl (w : Word) (s : State) : State :=
  { s with rng := { s.rng with hold := w.getLsbD 1, reseedNow := s.rng.reseedNow || w.getLsbD 0 } }

/-- RESEED_NOW (R389). -/
def execReseedNow (w : Word) (s : State) : Out := .next (ctlWrite 0x070008 w (writeRngCtl w) s)

/-- RESEED_INTERVAL (R389). -/
def execReseedInterval (s : State) : Out :=
  .next (match s.image.active with
    | some im =>
      let n := im.rng.reseed.toNat
      if ready s && 0 < n && s.rng.reseedFrom + n ≤ now s then
        { s with rng := { s.rng with
            reseedFrom := s.rng.reseedFrom + n, reseedDue := s.rng.reseedDue || !s.rng.hold } }
      else s
    | none => s)

/-- RESEED (R389). -/
def execReseed (s : State) : Out :=
  .next (if sourcesRun s && (s.rng.reseedDue || s.rng.reseedNow) && s.rng.blocks.length == 22 && !freshRuns s &&
      s.rng.noise != .failed then
      countRng 2 1 { s with rng := { s.rng with
        lanes := reseedLanes s.rng.blocks s.rng.lanes, blocks := [], seeded := true, reseedDue := false
        reseedNow := false } }
    else s)

/-- NOISE_RAW_BIT (R385-R387): the tests run in FAILED too. -/
def execNoiseRawBit (bit : Bool) (s : State) : Out :=
  .next (if sourcesRun s && s.rng.nextBit ≤ now s then noiseBit bit s else s)

/-- CONDITIONED_BLOCK (R385, R389). -/
def execConditionedBlock (s : State) : Out :=
  .next (match s.rng.ready with
    | raw :: rest =>
      if sourcesRun s && s.rng.noise != .failed then
        takeBlock (conditioned raw) { s with rng := { s.rng with ready := rest } }
      else s
    | [] => s)

/-- A write of RNG_LANEn (R390). -/
def writeLane (n : Nat) (w : Word) (s : State) : State :=
  if freshRuns s then report 0x0803 (putSat 0 7 n) s
  else if w = 0 then report 0x0804 (putSat 0 7 n) s
  else { s with rng := { s.rng with lanes := s.rng.lanes.set n w } }

/-- RNG_LANE_WRITE (R390). -/
def execRngLaneWrite (n : BitVec 7) (w : Word) (s : State) : Out :=
  .next (ctlWrite (BitVec.ofNat 24 (0x071000 + 8 * n.toNat)) w (writeLane n.toNat w) s)

end Sys2Proof.Machine
end

