-- ==== Sys2Proof/Machine/Graphs.lean ====
section
/-! DEFINITION. What the operations of a station graph and of a constant program compute: cells, special
functions, trees, prepared constants, row values, trust ratios (R83-R95, R126-R142, R154, R248-R252). -/
namespace Sys2Proof.Machine

/-! ## One operation on one element (R83, R85, R250) -/

/-- The opcodes whose operands and results are FP32 values that FTZ flushes (R51, R53). -/
def flushes (c : BitVec 8) : Bool :=
  c == 0x01 || c == 0x02 || (0x04 ≤ c && c ≤ 0x07) || (0x0F ≤ c && c ≤ 0x11) || (0x20 ≤ c && c ≤ 0x24) || c == 0x30

/-- CMP (R53, R83): EQ, LT, LE, UN. -/
def cmpOp (cond : Nat) (a b : F32) : Bool :=
  match cond with
  | 0 => f32Eq a b
  | 1 => f32Lt a b
  | 2 => f32Lt a b || f32Eq a b
  | _ => f32IsNaN a || f32IsNaN b

/-- BFX: w bits at bit p, zero-extended (R83). -/
def bfx (a : F32) (p w : Nat) : F32 := BitVec.ofNat 32 (a.toNat / 2 ^ p % 2 ^ w)

/-- BFI: the low w bits of b take the place of bits p up of a (R83). -/
def bfi (a b : F32) (p w : Nat) : F32 :=
  let m : BitVec 32 := BitVec.ofNat 32 (2 ^ w - 1) <<< p
  (a &&& ~~~m) ||| ((b <<< p) &&& m)

/-- LOGIDX (R75, R83). -/
def logIdx (a : F32) : F32 :=
  if f32Neg a || f32IsZero a || f32NonFinite a then Config.logIdxOpen a
  else
    let (m, e) := f32Norm a
    BitVec.ofInt 32 (16 * e + km8lK m)

/-- LOGVAL (R74, R83). Past the range of FP32 the exponent's value no longer matters. -/
def logVal (n : F32) : F32 :=
  let k := n.toInt % 16
  let e := max (-400) (min 400 (n.toInt / 16))
  f32Of (.fin false (km8lTAt k.toNat) (e - 23))

/-- EXPADD (R83): a scale beyond every FP32 exponent acts as the nearest such one. -/
def expAdd (a k : F32) : F32 := f32Scale a (max (-400) (min 400 k.toInt))

/-- The result of an operation without FTZ (R83, R85, R126, R250). -/
def rawOp (o : GOp) (a b c : F32) : F32 :=
  let k := fieldNat o.param 0 5
  let w := fieldNat o.param 5 6
  match o.opcode.toNat with
  | 0x01 => f32Fma a b (if o.srcC = 0xFF then 0x80000000#32 else c)
  | 0x02 => if cmpOp (fieldNat o.param 0 2) a b then 1 else 0
  | 0x03 => if a ≠ 0 then b else c
  | 0x04 => f32Min a b
  | 0x05 => f32Max a b
  | 0x06 => f32Abs a
  | 0x07 => f32Sign a
  | 0x08 => a + b
  | 0x09 => a - b
  | 0x0A => a <<< k
  | 0x0B => a >>> k
  | 0x0C => a.sshiftRight k
  | 0x0D => bfx a k w
  | 0x0E => bfi a b k w
  | 0x0F => expAdd a b
  | 0x10 => logIdx a
  | 0x11 => logVal a
  | 0x20 => f32Recip a
  | 0x21 => f32Rsqrt a
  | 0x22 => f32Sqrt a
  | 0x23 => f32Exp2 a
  | 0x24 => f32Log2 a
  | 0x40 => f32OfNat a.toNat
  | _ => a

/-- The operands that are FP32 values: EXPADD's k and LOGVAL's n are integers. -/
def inA (ftz : Bool) (o : GOp) (a : F32) : F32 := f32Flush (ftz && flushes o.opcode && o.opcode != 0x11) a
def inB (ftz : Bool) (o : GOp) (b : F32) : F32 := f32Flush (ftz && flushes o.opcode && o.opcode != 0x0F) b
/-- The results that are FP32 values: CMP's and LOGIDX's are integers. -/
def outOp (ftz : Bool) (o : GOp) (r : F32) : F32 :=
  f32Flush (ftz && flushes o.opcode && o.opcode != 0x02 && o.opcode != 0x10) r

/-- The same under the rule's FTZ flag (R51). -/
def cellOp (ftz : Bool) (o : GOp) (a b c : F32) : F32 :=
  outOp ftz o (rawOp o (inA ftz o a) (inB ftz o b) (inA ftz o c))

/-! ## Trees (R87, R91, R93) -/

/-- One level: adjacent pairs. -/
def pairSums : List F64 → List F64
  | a :: b :: r => f64Add a b :: pairSums r
  | l => l

/-- The five levels over 32 values; masked lanes are +0. -/
def treeSum (xs : List F64) : F64 :=
  let l := xs ++ List.replicate (32 - xs.length) 0
  ((List.range 5).foldl (fun l _ => pairSums l) l).headD 0

def blockSum (xs : List F32) : F64 := treeSum (xs.map f64OfF32)

/-- BLOCK on the valid elements of one block (R91, R93). -/
def blockOp (kind : Nat) (xs : List F32) : F32 :=
  match kind with
  | 0 => f32OfF64 (blockSum xs)
  | 1 => match xs with
    | x :: r => r.foldl f32Max x
    | [] => 0
  | 2 => match xs with
    | x :: r => r.foldl f32Min x
    | [] => 0
  | _ => xs.foldl (fun a x => f32Max a (f32Abs x)) 0

/-- Splits into blocks of 32. -/
def blocksOf {α : Type} (xs : List α) : List (List α) :=
  (List.range ((xs.length + 31) / 32)).map fun j => (xs.drop (32 * j)).take 32

/-- The FP64 sum of a list in order. -/
def sumInOrder : List F64 → F64
  | [] => 0
  | x :: r => r.foldl f64Add x

/-- A tile sum: the block sums in ascending order (R93). A block past the tile's end is all masked. -/
def tileSum (xs : List F32) : F64 :=
  let bs := (blocksOf xs).map blockSum
  sumInOrder (bs ++ List.replicate (32 - bs.length) 0)

/-! ## Graphs over a tile (R89, R92, R249) -/

/-- Values by reference: one pattern per element of the tile. -/
abbrev Env := List (BitVec 8 × List F32)

/-- The immediates of R249. -/
def immediate (r : BitVec 8) : F32 :=
  match r.toNat with
  | 0x90 => 0
  | 0x91 => 0x3F800000#32
  | 0x92 => 0xBF800000#32
  | 0x93 => 0x3F000000#32
  | 0x94 => 0xBF000000#32
  | n => BitVec.ofInt 32 ((n : Int) - 0xA0 - 16)

def envGet (n : Nat) (env : Env) (r : BitVec 8) : List F32 :=
  if immediateRef r then List.replicate n (immediate r)
  else ((env.find? (·.1 == r)).map (·.2)).getD (List.replicate n 0)

/-- One operation over the tile's elements. -/
def runOp (ftz : Bool) (n : Nat) (env : Env) (o : GOp) : List F32 :=
  let a := envGet n env o.srcA
  if isBlockOp o.opcode then
    (blocksOf (a.map (inA ftz o))).flatMap fun b =>
      List.replicate b.length (outOp ftz o (blockOp (fieldNat o.param 0 2) b))
  else
    let b := envGet n env o.srcB
    let c := envGet n env o.srcC
    (List.range n).map fun i => cellOp ftz o (a.getD i 0) (b.getD i 0) (c.getD i 0)

/-- The graph's values, sinks included; ACCUM operations leave none. -/
def runGraph (ftz : Bool) (n : Nat) (ops : List GOp) (env : Env) : Env :=
  ops.foldl (fun env o => if isAccumOp o.opcode then env else (o.dest, runOp ftz n env o) :: env) env

/-- The tile sums that a graph's ACCUM operations form: (accumulator, sum). -/
def graphAccums (ftz : Bool) (n : Nat) (ops : List GOp) (env : Env) : List (Nat × F64) :=
  (ops.filter fun o => isAccumOp o.opcode).map fun o =>
    (fieldNat o.param 0 1, tileSum ((envGet n env o.srcA).map (f32Flush ftz)))

/-- The graph reads a reference. -/
def graphReads (ops : List GOp) (r : BitVec 8) : Bool := ops.any fun o => (opSources o).contains r

/-- A sink's values, if the graph writes it. -/
def sinkOf (env : Env) (r : BitVec 8) : Option (List F32) := (env.find? (·.1 == r)).map (·.2)

/-- The moment that COMMIT encodes: the sink of its value, or what the encoder's station was computed from:
the operand of the operation that writes the quotient or the index (R130, R249). -/
def momentOf (ops : List GOp) (n : Nat) (env : Env) (sink enc : BitVec 8) : List F32 :=
  match sinkOf env sink, ops.find? (·.dest == enc) with
  | some v, _ => v
  | none, some o => envGet n env o.srcA
  | none, none => List.replicate n 0

/-! ## Constant programs (R126, R154, R252) -/

/-- Runs a scalar program; FTZ is a flag of stations and does not reach it. -/
def runProgram (ops : List GOp) (env : Env) : Env :=
  ops.foldl (fun env o => (o.dest, runOp false 1 env o) :: env) env

def scalarOf (env : Env) (r : BitVec 8) : F32 := (envGet 1 env r).headD 0

/-- The inputs of a tensor's program (R252). -/
def programInputs (consts : List (BitVec 32)) (clip : F32) (r : TensorRec) (acc : F64 × F64) : Env :=
  let flag := fun (b : Bool) (v : Nat) => if b then v else 0
  let flags := flag r.noTrust 1 + flag r.unfactored 2 + flag r.lazyWd 4 + flag r.ema 8
  ((List.range 16).map fun i => (BitVec.ofNat 8 (0x40 + i), [consts.getD i 0])) ++
  [(0x50, [clip]), (0x51, [r.lrMult]), (0x52, [r.wdMult]), (0x53, [r.ov2]), (0x54, [r.ov3]), (0x55, [r.gscale]),
   (0x56, [BitVec.ofNat 32 r.elems]), (0x57, [BitVec.ofNat 32 r.rows]), (0x58, [BitVec.ofNat 32 r.cols]),
   (0x59, [f32OfF64 acc.1]), (0x5A, [f32OfF64 acc.2]), (0x5B, [BitVec.ofNat 32 flags])]

/-- The program of a graph. -/
def programOf (ps : List Program) (g : Nat) (row : Bool) : List GOp :=
  ((ps.find? fun p => p.graph.toNat == g && p.row == row).map (·.ops)).getD []

/-- The values P0 to P15 that a tensor's program leaves. -/
def preparedOf (env : Env) : Env := env.filter fun e => 0x80 ≤ e.1 && e.1 ≤ 0x8F

/-- P8 of a second pass of LAMB (R135). -/
def lambP8 (consts : List (BitVec 32)) (r : TensorRec) (rho : F32) : F32 :=
  f32Mul (f32Mul (consts.getD 0 0) r.lrMult) rho ^^^ 0x80000000#32

/-- The trust ratio (R135). -/
def trustRatio (consts : List (BitVec 32)) (r : TensorRec) (su sw : F32) : F32 :=
  let rho := if r.noTrust || f32IsZero su || f32IsZero sw then 0x3F800000#32 else f32Mul (f32Sqrt sw) (f32Rsqrt su)
  let k8 := consts.getD 8 0
  if f32Lt 0 k8 then f32Min rho k8 else rho

/-- Delta of a row (R154): missed steps, and whether the stamp is at or above STEP. -/
def rowDelta (step stamp : BitVec 32) : Nat :=
  if step.toNat ≤ stamp.toNat then 0 else min (step.toNat - 1 - stamp.toNat) (2 ^ 24 - 1)

/-- ROWV0 to ROWV3 of a row, as the graph's references 0xC7 to 0xCA (R249, R252). -/
def rowValues (ops : List GOp) (tensor : Env) (delta : Nat) : List (BitVec 8 × F32) :=
  let env := runProgram ops ((0x5C, [BitVec.ofNat 32 delta]) :: tensor)
  [0, 1, 2, 3].map fun i => (BitVec.ofNat 8 (0xC7 + i), scalarOf env (BitVec.ofNat 8 (0xC0 + i)))

end Sys2Proof.Machine
end

