-- ==== Sys2Proof/Machine/Residue.lean ====
section
/-! DEFINITION. Residue checking (R85, R107): the 2-bit residue that every value carries, what each unit predicts of
its result's residue from its operands, and the lanes that a tile's elements travel on (R86). -/
namespace Sys2Proof.Machine

/-- The residue that a value carries: its bits, as an unsigned integer, mod 3 (R107). -/
def residueOf {n : Nat} (x : BitVec n) : BitVec 2 := BitVec.ofNat 2 (x.toNat % 3)

/-- An integer mod 3, as a residue. -/
def residueInt (x : Int) : BitVec 2 := BitVec.ofNat 2 (x % 3).toNat

/-- A shift by k multiplies a residue by (-1)^k (R107). -/
def residueShift (x : Int) (k : Int) : Int := if k % 2 = 0 then x else -x

/-- The bits that rounding discards from a magnitude, the increment, and the place of the last bit kept, for a format
of `mb` mantissa bits whose lowest place is `low` (R50). -/
def roundingParts (mb : Nat) (low : Int) (m : Nat) (e : Int) : Nat × Nat × Int :=
  let place := max ((topBit m : Int) + e - mb) low
  if place ≤ e then (0, 0, e)
  else
    let k := (place - e).toNat
    let d := m % 2 ^ k
    (d, roundRne m k - m / 2 ^ k, place)

/-- The residue that an adder predicts of its rounded significand, in units of the last place kept: the residues of
the aligned terms combine to the sum's, from which the discarded bits go and to which the increment comes (R107). -/
def sumPredicted (mb : Nat) (low : Int) (terms : List (Int × Int)) : Int × Int :=
  let base := (terms.map (·.2)).foldl min ((terms.head?.map (·.2)).getD 0)
  let exact : Int := (terms.map fun t => t.1 * ((2 ^ (t.2 - base).toNat : Nat) : Int)).sum
  let res : Int := (terms.map fun t => residueShift (t.1 % 3) (t.2 - base)).sum
  let (d, inc, place) := roundingParts mb low exact.natAbs base
  let sign : Int := if exact < 0 then -1 else 1
  (residueShift (sign * res - d) (place - base) + inc, place)

/-- A signed significand. -/
def signedMag (x : F32) : Int × Int :=
  let (m, e) := f32Mag x
  (if f32Neg x then -(m : Int) else m, e)

/-- The result's significand, in units of a place, mod 3. -/
def sigResidue (m : Nat) (e place : Int) : BitVec 2 := residueInt (residueShift (m % 3 : Nat) (e - place))

/-- The check of a fused multiply-add on its result (R107): the product's residue is the product of the operands', the
sum's follows from its aligned terms, the rounded significand's from the sum. Infinities and NaNs carry no
significand. -/
def fmaChecked (a b c r : F32) : Bool :=
  if f32NonFinite a || f32NonFinite b || f32NonFinite c || f32NonFinite r then true
  else
    let (ma, ea) := signedMag a
    let (mb, eb) := signedMag b
    let (res, place) := sumPredicted 23 (-149) [(ma * mb, ea + eb), signedMag c]
    let (mr, er) := f32Mag r
    residueInt (ma * mb) == residueInt ((ma % 3) * (mb % 3)) && sigResidue mr er place == residueInt res

/-- The check of a tree's FP64 adder (R93, R107). -/
def addChecked (a b r : F64) : Bool :=
  match f64Val a, f64Val b, f64Val r with
  | .fin na ma ea, .fin nb mb eb, .fin _ mr er =>
    let sg := fun (n : Bool) (m : Nat) => if n then -(m : Int) else (m : Int)
    let (res, place) := sumPredicted 52 (-1074) [(sg na ma, ea), (sg nb mb, eb)]
    sigResidue mr er place == residueInt res
  | _, _, _ => true

/-- The residue that a side unit predicts of an integer or bit operation's result, from the operands' residues, the
carry-out and the shifted-out bits (R107); 2^32 mod 3 is 1. -/
def sidePredicted (o : GOp) (a b : F32) : Option Int :=
  let k := fieldNat o.param 0 5
  let w := fieldNat o.param 5 6
  let ra : Int := a.toNat % 3
  let rb : Int := b.toNat % 3
  match o.opcode.toNat with
  | 0x08 => some (ra + rb - (a.toNat + b.toNat) / 2 ^ 32)
  | 0x09 => some (ra - rb + (if a.toNat < b.toNat then 1 else 0))
  | 0x0A => some (residueShift ra k - (a.toNat * 2 ^ k / 2 ^ 32 : Nat))
  | 0x0B => some (residueShift (ra - (a.toNat % 2 ^ k : Nat)) k)
  | 0x0C => some (residueShift (ra - (a.toNat % 2 ^ k : Nat)) k +
      (if a.msb then ((2 ^ 32 - 2 ^ (32 - k) : Nat) : Int) else 0))
  | 0x0D => some (residueShift (ra - (a.toNat % 2 ^ k : Nat) - (a.toNat / 2 ^ (k + w) * 2 ^ (k + w) : Nat)) k)
  | 0x0E =>
    let place : Nat := min 32 (k + w)
    some (ra - (a.toNat / 2 ^ k % 2 ^ (place - k) * 2 ^ k : Nat) +
      residueShift (rb - (b.toNat / 2 ^ (place - k) * 2 ^ (place - k) : Nat)) k)
  | _ => none

/-- The check of one operation on its result (R85, R107). Compares are computed twice; a select, a minimum or a
maximum carries the residue of the operand it selects; SFU results are checked in their multiply-adds. -/
def opChecked (o : GOp) (a b c r : F32) : Bool :=
  match o.opcode.toNat with
  | 0x01 => fmaChecked a b (if o.srcC = 0xFF then 0x80000000#32 else c) r
  | 0x03 => residueOf r == residueOf (if a ≠ 0 then b else c)
  | 0x04 => f32IsNaN a || f32IsNaN b || residueOf r == residueOf (if f32Key a ≤ f32Key b then a else b)
  | 0x05 => f32IsNaN a || f32IsNaN b || residueOf r == residueOf (if f32Key a ≤ f32Key b then b else a)
  | _ => match sidePredicted o a b with
    | some x => residueOf r == residueInt x
    | none => true

/-- UNIT of FAB_FAULT for an operation (R111). -/
def unitOf (opcode : BitVec 8) : BitVec 2 :=
  if opcode = 0x01 then 0 else if opcode = 0x30 || opcode = 0x31 then 2
  else if 0x20 ≤ opcode && opcode ≤ 0x24 then 3 else 1

/-! ## Graphs checked operation by operation (R93, R107) -/

/-- The checks of one level of a tree's adders. -/
def pairsChecked : List F64 → Bool
  | a :: b :: r => addChecked a b (f64Add a b) && pairsChecked r
  | _ => true

/-- A tree's nodes over a block: adders for SUM, selects for MAX, MIN and MAXABS (R107). -/
def treeChecked (sum : Bool) (xs : List F32) (result : F32) : Bool :=
  if sum then
    let l := xs.map f64OfF32 ++ List.replicate (32 - xs.length) 0
    (List.range 5).all fun k => pairsChecked ((List.range k).foldl (fun l _ => pairSums l) l)
  else f32IsNaN result || xs.any fun x => residueOf x == residueOf result || residueOf (f32Abs x) == residueOf result

/-- The first element of a tile on which the checks of an operation fail. -/
def opFault (ftz : Bool) (n : Nat) (env : Env) (o : GOp) : Option Nat :=
  let a := (envGet n env o.srcA).map (inA ftz o)
  if isBlockOp o.opcode || isAccumOp o.opcode then
    let kind := fieldNat o.param 0 2
    ((blocksOf a).findIdx? fun b => !treeChecked (isAccumOp o.opcode || kind == 0) b (blockOp kind b)).map (32 * ·)
  else
    let b := (envGet n env o.srcB).map (inB ftz o)
    let c := (envGet n env o.srcC).map (inA ftz o)
    (List.range n).find? fun i =>
      let (x, y, z) := (a.getD i 0, b.getD i 0, c.getD i 0)
      !opChecked o x y z (rawOp o x y z)

/-- The first operation of a graph whose check fails, by its index, and the element. -/
def graphFault (ftz : Bool) (n : Nat) : List GOp → Nat → Env → Option (Nat × Nat)
  | [], _, _ => none
  | o :: os, k, env =>
    match opFault ftz n env o with
    | some i => some (k, i)
    | none => graphFault ftz n os (k + 1) (if isAccumOp o.opcode then env else (o.dest, runOp ftz n env o) :: env)

/-! ## Lanes (R86, R87) -/

/-- Lanes that serve one element at a width (R86). -/
def lanesPerElem (width : Nat) : Nat := 128 / width

/-- The lanes of element e of a beat (R86). -/
def elemLanes (width e : Nat) : List Nat := (List.range (lanesPerElem width)).map (lanesPerElem width * e + ·)

/-- The tile element that a lane carries in a beat (R86). -/
def elementOn (width beat lane : Nat) : Nat := width * beat + lane / lanesPerElem width

/-- The first lane of a tile element, in its own beat (R86). -/
def laneOfElement (width i : Nat) : BitVec 7 := BitVec.ofNat 7 ((elemLanes width (i % width)).headD 0)

end Sys2Proof.Machine
end

