-- ==== Sys2Proof/Machine/Codec.lean ====
section
/-! DEFINITION. One tile between memory and the fabric: where its operands lie, what FETCH decodes, what the
rule computes of it, what COMMIT encodes (R54-R77, R91, R98, R163, R171, R177, R186-R193, R355, R569). -/
namespace Sys2Proof.Machine

/-! ## Where a tile's elements lie (R163, R191) -/

/-- The tensor's second moment is factored (R138). -/
def isFactored (im : Image) (r : TensorRec) : Bool := im.rule.pass1Path == 2 && !r.unfactored

/-- EMA passes walk every tensor as a dense one (R143, R377). -/
def PassKind.isEma : PassKind → Bool
  | .ema | .reseed => true
  | _ => false

def passRec (k : PassKind) (r : TensorRec) : TensorRec := if k.isEma then { r with sparse := false } else r

/-- A tile holds the first elements of its rows, or the last: a row of more than 1,024 elements spans several. -/
def firstOfRows (r : TensorRec) (tile : Nat) : Bool := r.cols ≤ 1024 || tile % tilesPerRow r == 0
def lastOfRows (r : TensorRec) (tile : Nat) : Bool := r.cols ≤ 1024 || tile % tilesPerRow r + 1 == tilesPerRow r

/-- The index of each element within its tensor (R56, R377). -/
def runElems (rs : List Run) : List Nat := rs.flatMap fun u => (List.range u.n).map (u.elem + ·)

/-! ## Operands as pieces of memory: (byte address, bytes) (R163, R191-R193) -/

/-- Operands by number: 0 master, 1 gradient, 2 and 3 first and second moment, 4 and 5 working copy and its
scales, 6 EMA copy, 7 row value of a factored tensor, 8 stamps, 9 and 10 generator copy and its scales. -/
abbrev Operand := Nat

/-- The padded lengths of a factored tensor's vectors, and their places in its AUX slice (R139, R192). -/
def rowVecBytes (r : TensorRec) : Nat := 64 * ceilDiv (4 * r.rows) 64
def colVecBytes (r : TensorRec) : Nat := 64 * ceilDiv (4 * r.cols) 64
def rowVecAddr (s : State) (r : TensorRec) (copy : Nat) : Nat :=
  auxAddr s r (copy * (rowVecBytes r + colVecBytes r))
def colVecAddr (s : State) (r : TensorRec) (copy : Nat) : Nat := rowVecAddr s r copy + rowVecBytes r

/-- The KM8 blocks of a run: a dense tile's whole record, or block by block through the tadpole path (R71, R192, R193). -/
def km8Pieces (r : TensorRec) (a : Nat) (u : Run) : List (Nat × Nat) :=
  if r.sparse then (List.range (u.n / 32)).map fun j => (a + 34 * j, 34) else [(a, 1088)]

def pieceOf (s : State) (step : BitVec 32) (r : TensorRec) (op : Operand) (u : Run) : List (Nat × Nat) :=
  match op with
  | 0 => [(masterAddr s r u.elem, 4 * u.n)]
  | 1 => [(gradAddr s r u.grad, gradBytes r * u.n)]
  | 2 => if r.m1fmt = 0 then [] else
      if r.m1fmt = 3 then km8Pieces r (m1Addr s r u.elem) u else [(m1Addr s r u.elem, (if r.m1fmt = 2 then 2 else 4) * u.n)]
  | 3 => if r.m2fmt = 0 then [] else
      if r.m2fmt = 2 then km8Pieces r (m2Addr s r u.elem) u else [(m2Addr s r u.elem, 4 * u.n)]
  | 4 => if r.wfmt = 0 then [] else [(workAddr s r u.elem, codeBytes (copyBits r.wfmt) u.n)]
  | 5 => if copyMx r.wfmt then [(workScaleAddr s r u.elem, ceilDiv u.n 32)] else []
  | 6 => [(emaAddr s r u.elem, (if r.emaBf16 then 2 else 4) * u.n)]
  | 7 => [(rowVecAddr s r (step.toNat % 2) + 4 * u.row, 4)]
  | 8 => [(stampAddr s r u.row, 4)]
  | 9 => if r.genfmt = 0 then [] else [(genAddr s r u.elem, codeBytes (copyBits r.genfmt) u.n)]
  | _ => if copyMx r.genfmt then [(genScaleAddr s r u.elem, ceilDiv u.n 32)] else []

/-- The operand goes through the tadpole path in narrow pieces (R192, R193). -/
def isTadpole (r : TensorRec) (op : Operand) : Bool :=
  r.sparse && (op == 8 || (op == 2 && r.m1fmt == 3) || (op == 3 && r.m2fmt == 2))

def opPieces (s : State) (step : BitVec 32) (r : TensorRec) (op : Operand) (rs : List Run) : List (Nat × Nat) :=
  rs.flatMap (pieceOf s step r op)

/-! ## Decoding (R58, R64, R68, R73, R74) -/

/-- The element format of a WFMT or GENFMT code (R165). -/
def copyElem (f : BitVec 4) : MxElem :=
  match f.toNat with
  | 1 => .flt .bf16
  | 2 => .flt .fp16
  | 3 => .flt .e4m3
  | 4 => .flt .e5m2
  | 5 => .flt .e4m3
  | 6 => .flt .e5m2
  | 7 => .flt .e3m2
  | 8 => .flt .e2m3
  | 9 => .flt .e2m1
  | _ => .int8

/-- n codes of w bits from bytes, as elements. -/
def decodeWith (w n : Nat) (f : Nat → F32) (bs : List Byte) : List F32 := (List.range n).map fun i => f (codeAt w bs i)

/-- A copy's elements (R64, R68). -/
def decodeCopy (fmt : BitVec 4) (n : Nat) (codes scales : List Byte) : List F32 :=
  (List.range n).map fun i =>
    let c := codeAt (copyBits fmt) codes i
    if copyMx fmt then mxDecode (copyElem fmt) (bytesAt scales (i / 32) 1) c
    else match copyElem fmt with
      | .flt f => decodeElem f c
      | .int8 => 0

/-- KM8 blocks as stored. -/
def km8Blocks (bs : List Byte) : List Km8Block :=
  (List.range (bs.length / 34)).map fun j =>
    let b := (bs.drop (34 * j)).take 34
    { hdr := Km8Header.ofBits (bytesAt b 0 2), codes := (b.drop 2).map (·.toNat) }

def km8Elems (dec : Km8Header → Nat → F32) (n : Nat) (bs : List Km8Block) : List F32 :=
  (bs.flatMap fun b => b.codes.map (dec b.hdr)).take n

def decodeM1 (r : TensorRec) (n : Nat) (bs : List Byte) : List F32 :=
  match r.m1fmt.toNat with
  | 1 => decodeWith 32 n (decodeElem .fp32) bs
  | 2 => decodeWith 16 n (decodeElem .bf16) bs
  | 3 => km8Elems decodeKm8s n (km8Blocks bs)
  | _ => List.replicate n 0

def decodeM2 (r : TensorRec) (n : Nat) (bs : List Byte) : List F32 :=
  match r.m2fmt.toNat with
  | 1 => decodeWith 32 n (decodeElem .fp32) bs
  | 2 => km8Elems decodeKm8l n (km8Blocks bs)
  | _ => List.replicate n 0

/-- What FETCH has of a tile. -/
structure TileData where
  runs : List Run
  n : Nat
  w : List F32
  g : List F32
  m : List F32
  v : List F32
  e : List F32
  work : List F32
  row : F32
  stamps : List (BitVec 32)
  m1Blocks : List Km8Block
  m2Blocks : List Km8Block
  deriving DecidableEq, Repr

def indexOf (p : Pass) (tensor : Nat) : List (Option Nat) := ((p.index.find? (·.1 == tensor)).map (·.2)).getD []

/-- The slot of the EMA copy's pad: H6, or H7 where H6 names a column pad (R97, R142). -/
def emaSlot (k : PassKind) (factored : Bool) : Nat := if k == .sweep && factored then 7 else 6

/-- The handle slot whose pad holds an operand (R97); none for row values and stamps, which no pad holds. -/
def operandSlot (k : PassKind) (factored : Bool) (op : Operand) : Option Nat :=
  match op with
  | 0 => some 0
  | 1 => some 1
  | 2 => some 2
  | 3 => some 3
  | 4 | 5 => some 4
  | 6 => some (emaSlot k factored)
  | 9 | 10 => some 5
  | _ => none

/-- Lines that an operand's pieces lie in. -/
def opLineCount (s : State) (p : Pass) (r : TensorRec) (rs : List Run) (op : Operand) : Nat :=
  ((opPieces s p.step r op rs).map fun x => (pieceLines x).length).sum

/-- Where an operand's first line lies in its pad: scales follow their codes. -/
def firstLine (s : State) (p : Pass) (r : TensorRec) (rs : List Run) (op : Operand) : Nat :=
  if op = 5 then opLineCount s p r rs 4 else 0

/-- The handle of a tile's pad (R97). -/
def padOf (t : TileSt) (slot : Nat) : Option (BitVec 16) := (t.pads.find? (·.1 == slot)).map (·.2)

/-- The pad of a tile that holds an operand. -/
def opPad (p : Pass) (factored : Bool) (t : TileSt) (op : Operand) : Option (BitVec 16) :=
  (operandSlot p.kind factored op).bind (padOf t)

/-- The lines of an operand, in order, from its pad or as they came. -/
def opLines (s : State) (pad : Option (BitVec 16)) (t : TileSt) (op : Operand) (first n : Nat) : List Line :=
  (List.range n).map fun i => match pad with
    | some h => padLine s h (first + i)
    | none => ((t.lines.find? fun l => l.1 == op && l.2.1 == i).map (·.2.2)).getD 0

def opBytes (s : State) (p : Pass) (factored : Bool) (r : TensorRec) (t : TileSt) (rs : List Run) (op : Operand) :
    List Byte :=
  let ps := opPieces s p.step r op rs
  pieceBytes ps (opLines s (opPad p factored t op) t op (firstLine s p r rs op) (opLineCount s p r rs op))

def tileData (s : State) (im : Image) (p : Pass) (t : TileSt) : TileData :=
  let r := passRec p.kind (recOf s t.tensor)
  let rs := tileRuns r (indexOf p t.tensor) t.tile
  let n := runCount rs
  let b := opBytes s p (isFactored im r) r t rs
  let gw := 8 * gradBytes r
  { runs := rs, n := n
    w := decodeWith 32 n (decodeElem .fp32) (b 0)
    g := decodeWith gw n (decodeGrad (gradFmt r) p.lsK.toNat r.gscale) (b 1)
    m := decodeM1 r n (b 2)
    v := decodeM2 r n (b 3)
    e := if r.emaBf16 then decodeWith 16 n (decodeElem .bf16) (b 6) else decodeWith 32 n (decodeElem .fp32) (b 6)
    work := decodeCopy r.wfmt n (b 4) (b 5)
    row := BitVec.ofNat 32 (bytesAt (b 7) 0 4)
    stamps := (List.range rs.length).map fun i => BitVec.ofNat 32 (bytesAt (b 8) (4 * i) 4)
    m1Blocks := km8Blocks (b 2)
    m2Blocks := km8Blocks (b 3) }

/-! ## Constants and graphs of a tile (R84, R126, R135, R142, R154) -/

def accumOf (s : State) (tensor : Nat) : F64 × F64 :=
  ((s.sweep.accum.find? (·.1 == tensor)).map (·.2)).getD (0, 0)

def rhoOf (s : State) (tensor : Nat) : F32 := ((s.sweep.rho.find? (·.1 == tensor)).map (·.2)).getD 0x3F800000#32

/-- The prepared constants of a tensor for a graph. In the second pass of a rule whose first ran on the fabric, P8
follows from the trust ratio, which recovery has from the journal (R135, R185). -/
def prepared (s : State) (im : Image) (p : Pass) (tensor g : Nat) : Env :=
  let r := recOf s tensor
  let inp := programInputs p.consts p.clip r (accumOf s tensor)
  let ps := preparedOf (runProgram (programOf im.programs g false) inp)
  if im.rule.pass1Path = 1 && p.kind == .sweep then (0x88, [lambP8 p.consts r (rhoOf s tensor)]) :: ps else ps

/-- The bank that a tile's CSET selects: 0 is A, 1 is B (R84). -/
def bankOf (s : State) (cset : Bool) : ConstBank := if cset then s.fab.bankB else s.fab.bankA

/-- The entries of a graph's prepared constants, each with its residue (R84, R107). -/
def regsOf (s : State) (im : Image) (p : Pass) (tensor g : Nat) : List RegEntry :=
  (prepared s im p tensor g).map fun e =>
    { graph := g, ref := e.1, value := e.2.headD 0, residue := residueOf (e.2.headD 0) }

/-- The constants that the passing tile's bank gives a graph (R84). -/
def bankEnv (b : ConstBank) (g : Nat) : Env :=
  (b.regs.filter (·.graph == g)).map fun e => (e.ref, [e.value])

/-- Every entry that a read of the bank meets carries the residue of its bits (R107). -/
def bankResidues (b : ConstBank) : Bool := b.regs.all fun e => e.residue == residueOf e.value

/-- The 8 entries of one cell's register file, bank A in 0 to 3 and bank B in 4 to 7: each entry holds the constant
that the placement gives it (R82, R84, R253). -/
def cellRegisters (s : State) (body : List Byte) (g rank slot : Nat) : List F32 :=
  (List.range 8).map fun i =>
    let ref := Config.cellConstant body rank slot (i % 4)
    (((bankOf s (4 ≤ i)).regs.find? fun e => e.graph == g && e.ref == ref).map (·.value)).getD 0

/-- The row values of a sparse tile, one list per reference. -/
def rowEnv (s : State) (im : Image) (p : Pass) (t : TileSt) (d : TileData) (g : Nat) : Env :=
  let r := recOf s t.tensor
  let ops := programOf im.programs g true
  if !r.sparse || ops.isEmpty then []
  else
    let tens := programInputs p.consts p.clip r (accumOf s t.tensor) ++ prepared s im p t.tensor g
    let per := (d.runs.zip d.stamps).map fun (u, st) => (u.n, rowValues ops tens (rowDelta p.step st))
    [0xC7, 0xC8, 0xC9, 0xCA].map fun ref =>
      (ref, per.flatMap fun (n, vs) => List.replicate n (((vs.find? (·.1 == ref)).map (·.2)).getD 0))

/-- The new column values of a tile's elements, from the column pad that its H6 names (R142). -/
def colValues (s : State) (t : TileSt) (r : TensorRec) (elems : List Nat) : List F32 :=
  match t.colPad with
  | some h => elems.map fun e =>
      if r.cols = 0 then 0 else field (padLine s h (e % r.cols % 1024 / 16)) (32 * (e % 16)) 32
  | none => elems.map fun _ => 0

/-- Everything that a graph may read of a tile (R249). -/
def tileEnv (s : State) (im : Image) (p : Pass) (t : TileSt) (d : TileData) (g : Nat) (m v : List F32) : Env :=
  let r := recOf s t.tensor
  let fac := isFactored im r
  [(0xC0, d.w), (0xC1, d.g), (0xC2, m), (0xC3, v), (0xC4, d.e),
   (0xC5, List.replicate d.n (if fac then d.row else 0)),
   (0xC6, if fac then colValues s t r (runElems d.runs) else List.replicate d.n 0)] ++
  rowEnv s im p t d g ++ (bankEnv (bankOf s t.cset) g).map fun e => (e.1, List.replicate d.n (e.2.headD 0))

def graphRun (s : State) (im : Image) (p : Pass) (t : TileSt) (d : TileData) (g : Nat) (m v : List F32) : Env :=
  runGraph (ruleFtz im.rule) d.n (graphAt im.graphs g).ops (tileEnv s im p t d g m v)

def mainGraph (r : TensorRec) : Nat := if r.sparse then 2 else 0
def finishGraph (r : TensorRec) : Nat := if r.sparse then 4 else 3
def hasFinish (im : Image) (r : TensorRec) : Bool := (graphAt im.graphs (finishGraph r)).present

/-! ## Encoding (R54-R57, R61-R75, R177, R355) -/

/-- The rounding of one conversion of one element (R54-R57, R377). -/
def roundingOf (seed : BitVec 128) (sr : Bool) (purpose : BitVec 8) (step : BitVec 32) (tensor elem : Nat) : Rounding :=
  if sr then
    .sr (field (rngWord seed step (BitVec.ofNat 14 tensor) (BitVec.ofNat 36 elem) purpose) 0 16)
  else .rne

/-- Bytes of an encoded array, with its saturations and whether a result became non-finite (R62, R63). -/
structure Coded where
  bytes : List Byte
  scales : List Byte := []
  sats : Nat := 0
  bad : Bool := false
  deriving DecidableEq, Repr

def codedOf (w : Nat) (es : List Encoded) (scales : List Byte) : Coded :=
  { bytes := packCodes w (es.map (·.code)), scales := scales, sats := es.countP (·.sat), bad := es.any (·.nonFinite) }

def encodePlain (f : ElemFmt) (vs : List (F32 × Rounding)) : Coded :=
  codedOf f.bits (vs.map fun (x, r) => encodeF32 f r x) []

/-- A working or generator copy (R62, R63, R66, R67). -/
def encodeCopy (fmt : BitVec 4) (vs : List (F32 × Rounding)) : Coded :=
  if fmt = 0 then { bytes := [] }
  else if copyMx fmt then
    let bs := (blocksOf vs).map (mxEncode (copyElem fmt))
    codedOf (copyBits fmt) (bs.flatMap (·.2)) (bs.map fun b => BitVec.ofNat 8 b.1)
  else match copyElem fmt with
    | .flt f => encodePlain f vs
    | .int8 => { bytes := [] }

/-- A KM8 block's 34 bytes; codes past the tensor's end are 0 (R71). -/
def km8BlockBytes (b : Km8Block) : List Byte :=
  leBytes 2 b.hdr.bits ++ (b.codes ++ List.replicate (32 - b.codes.length) 0).map (BitVec.ofNat 8)

/-- KM8 blocks of a tile by index, from an encoder of one block; a dense tile has 32 whatever its COUNT (R70-R75). -/
def encodeKm8 (enc : Nat → List (F32 × Rounding) → Km8Block) (dense : Bool) (vs : List (F32 × Rounding)) : Coded :=
  let bs := blocksOf vs
  let bs := if dense then bs ++ List.replicate (32 - bs.length) [] else bs
  { bytes := (bs.zipIdx).flatMap fun (b, j) => km8BlockBytes (enc j b)
    bad := vs.any fun x => f32NonFinite x.1 }

/-- What the stations M1_ENC and M2_ENC have prepared: the encoder sinks by element (R130, R249). A block exponent
written by a BLOCK operation is the one that belongs to the block's maximum, any other value is the exponent itself. -/
structure EncSinks where
  q : Option (List F32) := none
  s : Option (Bool × List F32) := none
  index : Option (List F32 × List F32 × List F32) := none
  b : Option (Bool × List F32) := none

/-- A sink's values, with whether a BLOCK operation wrote it. -/
def exponentSink (ops : List GOp) (env : Env) (r : BitVec 8) : Option (Bool × List F32) :=
  (sinkOf env r).map fun v => (ops.any fun o => o.dest == r && isBlockOp o.opcode, v)

def encSinks (ops : List GOp) (env : Env) : EncSinks :=
  { q := sinkOf env 0xD4, s := exponentSink ops env 0xD5
    index := (sinkOf env 0xD6).bind fun n => (sinkOf env 0xD7).bind fun d => (sinkOf env 0xD8).map fun w => (n, d, w)
    b := exponentSink ops env 0xD9 }

/-- One KM8S block of a tile: completed from the quotient and the exponent where a station prepared them (R73, R130). -/
def completeKm8s (p : EncSinks) (tag : BitVec 4) (rpr sr : Bool) (j : Nat) (vs : List (F32 × Rounding)) : Km8Block :=
  match p.q, p.s with
  | some q, some (blk, s) =>
    if vs.isEmpty then encodeKm8s tag rpr sr vs
    else
      let e := s.getD (32 * j) 0
      km8sBlock tag rpr sr (if blk then km8sExp [e] else e.toInt) 0
        ((vs.zipIdx).map fun (v, i) => (q.getD (32 * j + i) 0, v.2))
  | _, _ => encodeKm8s tag rpr sr vs

/-- One KM8L block of a tile: completed from n, D, W and b where a station prepared them (R75, R130). -/
def completeKm8l (p : EncSinks) (tag : BitVec 4) (rpr sr : Bool) (j : Nat) (vs : List (F32 × Rounding)) : Km8Block :=
  match p.index, p.b with
  | some (n, d, w), some (blk, b) =>
    if vs.isEmpty then encodeKm8l tag rpr sr vs
    else
      let e := b.getD (32 * j) 0
      let base := if blk then km8lBase [e] else e.toInt
      km8lBlock tag rpr sr base ((vs.zipIdx).map fun (v, i) =>
        let k := 32 * j + i
        (v.1, km8lFromSinks base (n.getD k 0) (d.getD k 0) (w.getD k 0) v.2 v.1))
  | _, _ => encodeKm8l tag rpr sr vs

/-! ## The lines of an issue group (R171, R192) -/

/-- The lines that bytes at an address cover, with their masks. -/
def coverLines (a : Nat) (bs : List Byte) : List (BitVec 34 × BitVec 64 × Line) :=
  let all := List.replicate (a % 64) 0 ++ bs
  (List.range (ceilDiv all.length 64)).map fun i =>
    let part := (all.drop (64 * i)).take 64
    let lo := if i = 0 then a % 64 else 0
    (BitVec.ofNat 34 (a / 64 + i), BitVec.ofNat 64 (2 ^ part.length - 2 ^ lo), lineOf part)

/-- The lines of a piece, with their masks, and whether each but the first is a piece's second line. -/
def pieceCover (p : Nat × Nat) : List (BitVec 34 × BitVec 64 × Bool) :=
  if p.2 = 0 then []
  else ((coverLines p.1 (List.replicate p.2 0)).zipIdx).map fun (c, i) => (c.1, c.2.1, 0 < i)

/-- The lines that write bytes to pieces. -/
def linesFor (tadpole : Bool) : List (Nat × Nat) → List Byte → List GroupLine
  | [], _ => []
  | p :: ps, bs =>
    (((coverLines p.1 (bs.take p.2)).zipIdx).map fun ((l, m, d), i) =>
      { line := l, mask := m, data := d, cmp := m, tadpole := tadpole, tail := tadpole && 0 < i }) ++
      linesFor tadpole ps (bs.drop p.2)

/-- The lines of a tile's pad after COMMIT's encoder has written new bytes into the places that the old ones were
read from (R100). -/
def overPieces : List (Nat × Nat) → List Line → List Byte → List Line
  | [], _, _ => []
  | p :: ps, ls, bs =>
    let n := (pieceLines p).length
    (ls.take n).zipWith (fun l c => overlay l c.2.1 c.2.2) (coverLines p.1 (bs.take p.2)) ++
      overPieces ps (ls.drop n) (bs.drop p.2)

/-- The lines of a group for pieces whose bytes stand in a pad's lines. -/
def groupOf (tadpole : Bool) (ps : List (Nat × Nat)) (ls : List Line) : List GroupLine :=
  ((ps.flatMap pieceCover).zip ls).map fun (c, l) =>
    { line := c.1, mask := c.2.1, data := l, cmp := c.2.1, tadpole := tadpole, tail := tadpole && c.2.2 }

/-! ## What the rule makes of a tile (R77, R171, R174, R177, R183-R190) -/

/-- Values that go to the encoders. -/
structure Results where
  w : List F32
  m : List F32
  v : List F32
  e : List F32
  /-- Blocks repaired lossily (R189). -/
  rpr : Nat → Bool
  /-- What the encoders' stations have prepared, and the blocks of each moment that it serves. -/
  enc : EncSinks := {}
  prepared1 : Nat → Bool := fun _ => false
  prepared2 : Nat → Bool := fun _ => false

/-- The ordinary update (R174). -/
def ordinaryResults (s : State) (im : Image) (p : Pass) (t : TileSt) (d : TileData) : Results :=
  let r := recOf s t.tensor
  let g := mainGraph r
  let ops := (graphAt im.graphs g).ops
  let env := graphRun s im p t d g d.m d.v
  { w := (sinkOf env 0xD0).getD d.w, m := momentOf ops d.n env 0xD1 0xD4, v := momentOf ops d.n env 0xD2 0xD6
    e := (sinkOf env 0xD3).getD d.e, rpr := fun _ => false
    enc := encSinks ops env, prepared1 := fun _ => true, prepared2 := fun _ => true }

/-- FINISH from moments (R156). -/
def finishResults (s : State) (im : Image) (p : Pass) (t : TileSt) (d : TileData) (m v : List F32) : Results :=
  let env := graphRun s im p t d (finishGraph (recOf s t.tensor)) m v
  { w := (sinkOf env 0xD0).getD d.w, m := m, v := v, e := (sinkOf env 0xD3).getD d.e, rpr := fun _ => false }

/-- Lossy repair of the whole tile (R189). -/
def lossyResults (r : TensorRec) (d : TileData) : Results :=
  let w := if r.wfmt = 0 then d.w else d.work
  { w := w, m := List.replicate d.n 0, v := List.replicate d.n 0, e := w, rpr := fun _ => true }

/-- Group lines that hold block j of a moment whose pieces begin at line `first` of the group (R187). -/
def blockLines : List (Nat × Nat) → Nat → Nat → List Nat
  | [], _, _ => []
  | p :: ps, first, j =>
    if j < p.2 / 34 then
      let lo := p.1 % 64 + 34 * j
      (List.range ((lo + 33) / 64 + 1 - lo / 64)).map fun i => first + lo / 64 + i
    else blockLines ps (first + (pieceLines p).length) (j - p.2 / 34)

/-- How a block of a TORN_KM8 tile is taken. -/
inductive BlockFate where
  | torn | new | old
  deriving DecidableEq, Repr

/-- R187 and R188. -/
def blockFate (s : State) (p : Pass) (ambiguous : Bool) (lines : List Nat) (tag : BitVec 4) : BlockFate :=
  let failed := lines.any fun i => s.sweep.settleLines.getLsbD i
  if failed then .torn
  else if ambiguous then (if lines.all (· < 64) then .new else .torn)
  else if tag = field p.step 0 4 then .new else .old

/-- Block j belongs to a row whose stamp leaves its tag ambiguous (R188). -/
def blockAmbiguous (p : Pass) (r : TensorRec) (d : TileData) (j : Nat) : Bool :=
  let stamps := (d.runs.zip d.stamps).flatMap fun (u, st) => List.replicate (u.n / 32) st
  let st := stamps.getD j p.step
  r.sparse && st.toNat < p.step.toNat && (p.step.toNat - st.toNat) % 16 == 0

/-- TORN_KM8, resolved block by block (R187). -/
def tornResults (s : State) (im : Image) (p : Pass) (t : TileSt) (d : TileData) : Results :=
  let r := recOf s t.tensor
  let p1 := opPieces s p.step r 2 d.runs
  let p2 := opPieces s p.step r 3 d.runs
  let n1 := (p1.map fun x => (pieceLines x).length).sum
  let fate1 := fun j => if r.m1fmt = 0 then BlockFate.new else
    blockFate s p (blockAmbiguous p r d j) (blockLines p1 0 j) (((d.m1Blocks.getD j { hdr := {}, codes := [] }).hdr).tag)
  let fate2 := fun j => if r.m2fmt = 0 then BlockFate.new else
    blockFate s p (blockAmbiguous p r d j) (blockLines p2 n1 j) (((d.m2Blocks.getD j { hdr := {}, codes := [] }).hdr).tag)
  let torn := fun j => fate1 j == .torn || fate2 j == .torn
  let upd := ordinaryResults s im p t d
  let pick := fun (fate : Nat → BlockFate) (old new : List F32) => (List.range d.n).map fun i =>
    if fate (i / 32) == .old then new.getD i 0 else old.getD i 0
  let m := pick fate1 d.m upd.m
  let v := pick fate2 d.v upd.v
  let fin := finishResults s im p t d m v
  let bad := lossyResults r d
  let mix := fun (a b : List F32) => (List.range d.n).map fun i => if torn (i / 32) then a.getD i 0 else b.getD i 0
  let w := mix bad.w fin.w
  { w := w, m := mix bad.m m, v := mix bad.v v, e := mix bad.e fin.e, rpr := torn, enc := upd.enc
    prepared1 := fun j => fate1 j == .old && !torn j, prepared2 := fun j => fate2 j == .old && !torn j }

/-- Elements of a Lion FINISH whose sign is uncertain (R569). -/
def lionUncertain (p : Pass) (d : TileData) : Nat :=
  let one : F32 := 0x3F800000#32
  let neg := fun (x : F32) => x ^^^ 0x80000000#32
  let k2 := p.consts.getD 2 0
  let k3 := p.consts.getD 3 0
  if f32IsZero k3 && !f32IsZero k2 then d.n
  else
    let q1 := f32Add one (neg k3)
    let q2 := if f32IsZero k3 then 0 else f32Mul k2 (f32Recip k3)
    let q3 := f32Add one (neg k2)
    (List.range d.n).countP fun i =>
      let g := f32Mul (d.g.getD i 0) p.clip
      let t := f32Fma (neg q1) g (d.m.getD i 0)
      let b := f32Mul q3 g
      let k := f32Fma q2 t b
      let e := expAdd (f32Fma (f32Abs q2) (f32Abs t) (f32Abs b)) (BitVec.ofInt 32 (-20))
      !f32Lt e (f32Abs k)

/-- The copy beside a master: codes, then scales (R177, R355). -/
def Coded.all (c : Coded) : List Byte := c.bytes ++ c.scales

/-- The class as it can be carried out: a tile that cannot be finished is repaired lossily (R158). -/
def TileClass.effective (im : Image) (r : TensorRec) : TileClass → TileClass
  | .finish => if hasFinish im r then .finish else .tornM
  | .tornKm8 => if hasFinish im r then .tornKm8 else .tornM
  | c => c

/-- The results of a tile of an updating pass by its class (R186). -/
def sweepResults (s : State) (im : Image) (p : Pass) (t : TileSt) (d : TileData) (c : TileClass) : Results :=
  match c with
  | .finish => finishResults s im p t d d.m d.v
  | .tornKm8 => tornResults s im p t d
  | .tornM | .tornW => lossyResults (recOf s t.tensor) d
  | _ => ordinaryResults s im p t d

/-- A tile's sums for WSQ and USQ: its new masters, and what was added to the old ones (R210). -/
def siblingSums (old new : List F32) : F64 × F64 :=
  let sq := fun (x : F32) => f64Mul (f64OfF32 x) (f64OfF32 x)
  let tile := fun (xs : List F32) =>
    let bs := (blocksOf (xs.map sq)).map treeSum
    sumInOrder (bs ++ List.replicate (32 - bs.length) 0)
  (tile new, tile ((new.zip old).map fun (a, b) => f32Add a (b ^^^ 0x80000000#32)))

/-- Lines for a pad slot, from a line on. -/
def slotLines (slot first : Nat) (ls : List Line) : List (Nat × Nat × Line) :=
  (ls.zipIdx).map fun (l, i) => (slot, first + i, l)

/-- Bytes packed into a pad from a line on (R355). -/
def packLines (bs : List Byte) : List Line :=
  (List.range (ceilDiv bs.length 64)).map fun i => lineOf ((bs.drop (64 * i)).take 64)

/-- COMMIT's work on a tile of an updating pass: every value encoded, and what goes into which pad (R100, R171, R177,
R355). -/
def commitSweep (s : State) (im : Image) (p : Pass) (t : TileSt) : TileOut :=
  let r := recOf s t.tensor
  let fac := isFactored im r
  let d := tileData s im p t
  let c := t.cls.effective im r
  let x := sweepResults s im p t d c
  let es := runElems d.runs
  let seed := im.rng.seedHi ++ im.rng.seedLo
  let keyed := fun (purpose : Nat) (vs : List F32) => (vs.zip es).map fun (v, e) =>
    (v, roundingOf seed (ruleSr im.rule purpose) (BitVec.ofNat 8 purpose) p.step t.tensor e)
  let tag : BitVec 4 := field p.step 0 4
  let sr1 := ruleSr im.rule 3
  let sr2 := ruleSr im.rule 4
  let m1 : Coded :=
    if r.m1fmt = 3 then encodeKm8 (fun j b =>
        completeKm8s (if x.prepared1 j then x.enc else {}) tag (x.rpr j) sr1 j b) (!r.sparse) (keyed 3 x.m)
    else if r.m1fmt = 0 then { bytes := [] }
    else encodePlain (if r.m1fmt = 2 then .bf16 else .fp32) (keyed 3 x.m)
  let hasM2 := r.m2fmt != 0 && !fac
  let m2 : Coded :=
    if !hasM2 then { bytes := [] }
    else if r.m2fmt = 2 then encodeKm8 (fun j b =>
        completeKm8l (if x.prepared2 j then x.enc else {}) tag (x.rpr j) sr2 j b) (!r.sparse) (keyed 4 x.v)
    else encodePlain .fp32 (keyed 4 x.v)
  let withMoments := c != .finish
  let ema := im.rule.emaMode == 1 && r.ema
  let ec : Coded := if ema then encodePlain (if r.emaBf16 then .bf16 else .fp32) (keyed 5 x.e) else { bytes := [] }
  let wc := encodeCopy r.wfmt (keyed 1 x.w)
  let gc := encodeCopy r.genfmt (keyed 2 x.w)
  let refStep := (d.runs.zipIdx).flatMap fun (u, i) =>
    List.replicate u.n (if r.sparse then d.stamps.getD i 0 else p.step - 1)
  let gref := encodeCopy r.genfmt (((d.w.zip es).zip refStep).map fun ((v, e), st) =>
    (v, roundingOf seed (ruleSr im.rule 2) 2 st t.tensor e))
  let inPlace := fun (op : Operand) (bs : List Byte) =>
    let ps := opPieces s p.step r op d.runs
    let first := firstLine s p r d.runs op
    slotLines ((operandSlot p.kind fac op).getD 0) first
      (overPieces ps (opLines s (opPad p fac t op) t op first (opLineCount s p r d.runs op)) bs)
  { n := d.n
    pads := inPlace 0 (packCodes 32 (x.w.map (·.toNat))) ++ (if withMoments then inPlace 2 m1.bytes else []) ++
      (if withMoments && hasM2 then inPlace 3 m2.bytes else []) ++ (if ema then inPlace 6 ec.bytes else []) ++
      inPlace 4 wc.bytes ++ inPlace 5 wc.scales ++
      slotLines 5 0 (packLines gc.all) ++ (if deltaWanted s then slotLines 5 32 (packLines gref.all) else [])
    bad := x.w.any f32NonFinite || (withMoments && (m1.bad || (r.m1fmt != 0 && x.m.any f32NonFinite) ||
        m2.bad || (hasM2 && x.v.any f32NonFinite))) ||
      (ema && (ec.bad || x.e.any f32NonFinite)) || wc.bad || gc.bad
    repaired := BitVec.ofNat 32 (((List.range 32).map fun j => if x.rpr j then 2 ^ j else 0).sum)
    elemsRepaired := (List.range d.n).countP fun i => x.rpr (i / 32)
    -- RULE_ID is informational (R245); it is what tells a Lion FINISH from another rule's (log 29)
    uncertain := if c == .finish && im.rule.ruleId == 3 then lionUncertain p d else 0
    satW := wc.sats, satGen := gc.sats
    sums := siblingSums d.w x.w }

/-- COMMIT's work on a tile of an EMA or reseed pass (R143, R144). -/
def commitEma (s : State) (im : Image) (p : Pass) (t : TileSt) : TileOut :=
  let r := passRec p.kind (recOf s t.tensor)
  let d := tileData s im p t
  let e := if p.kind == .reseed then d.w
    else (sinkOf (graphRun s im p t d 5 d.m d.v) 0xD3).getD d.e
  let seed := im.rng.seedHi ++ im.rng.seedLo
  let ec := encodePlain (if r.emaBf16 then .bf16 else .fp32) ((e.zip (runElems d.runs)).map fun (v, i) =>
    (v, roundingOf seed (ruleSr im.rule 5) 5 p.step t.tensor i))
  { n := d.n
    pads := slotLines 6 0 (overPieces (opPieces s p.step r 6 d.runs)
      (opLines s (padOf t 6) t 6 0 (opLineCount s p r d.runs 6)) ec.bytes)
    bad := ec.bad || e.any f32NonFinite }

/-- The tile sums of a tile of PASS1 on the fabric (R93, R134). -/
def commitPass1 (s : State) (im : Image) (p : Pass) (t : TileSt) : TileOut :=
  let d := tileData s im p t
  let ops := (graphAt im.graphs 1).ops
  { n := d.n, accums := graphAccums (ruleFtz im.rule) d.n ops (graphRun s im p t d 1 d.m d.v) }

/-- What the fabric and COMMIT's encoders make of a tile. -/
def tileOut (s : State) (im : Image) (p : Pass) (t : TileSt) : TileOut :=
  match p.kind with
  | .pass1 => commitPass1 s im p t
  | .ema | .reseed => commitEma s im p t
  | _ => commitSweep s im p t

/-- The encoders' lines go into the tile's pads (R100). -/
def storeOut (t : TileSt) (o : TileOut) (s : State) : State :=
  o.pads.foldl (fun s x => match padOf t x.1 with
    | some h => padStore h x.2.1 x.2.2 s
    | none => s) s

/-! ## The issue groups, from the pads (R171, R192, R193) -/

/-- The lines of an operand as its pad holds them. -/
def operandGroup (s : State) (im : Image) (p : Pass) (t : TileSt) (rs : List Run) (op : Operand) : List GroupLine :=
  let r := passRec p.kind (recOf s t.tensor)
  let fac := isFactored im r
  groupOf (isTadpole r op) (opPieces s p.step r op rs)
    (opLines s (opPad p fac t op) t op (firstLine s p r rs op) (opLineCount s p r rs op))

def tileRunsOf (s : State) (p : Pass) (t : TileSt) : List Run :=
  tileRuns (passRec p.kind (recOf s t.tensor)) (indexOf p t.tensor) t.tile

/-- The moment group of a tile, but for the slot. -/
def momentGroup (s : State) (im : Image) (p : Pass) (t : TileSt) : List GroupLine :=
  let r := recOf s t.tensor
  let rs := tileRunsOf s p t
  operandGroup s im p t rs 2 ++ (if isFactored im r then [] else operandGroup s im p t rs 3)

/-- The generator copy's codes and scales as its pad holds them from byte 0 on (R355). -/
def genBytes (s : State) (r : TensorRec) (t : TileSt) (n first : Nat) : List Byte :=
  let len := codeBytes (copyBits r.genfmt) n + (if copyMx r.genfmt then ceilDiv n 32 else 0)
  match padOf t 5 with
  | some h => ((List.range (ceilDiv len 64)).flatMap fun i => lineBytes (padLine s h (first + i))).take len
  | none => []

/-- The weight group of a tile, but for the slot: masters, EMA copy, copies, and with a row's last elements its stamp
(R152, R171, R193). -/
def weightGroup (s : State) (im : Image) (p : Pass) (t : TileSt) : List GroupLine :=
  let r := passRec p.kind (recOf s t.tensor)
  let rs := tileRunsOf s p t
  if p.kind.isEma then operandGroup s im p t rs 6
  else
    let ema := im.rule.emaMode == 1 && r.ema
    let pieces := fun op => opPieces s p.step r op rs
    let gen := genBytes s r t (runCount rs) 0
    let codes := codeBytes (copyBits r.genfmt) (runCount rs)
    operandGroup s im p t rs 0 ++ (if ema then operandGroup s im p t rs 6 else []) ++
      operandGroup s im p t rs 4 ++ operandGroup s im p t rs 5 ++
      linesFor false (pieces 9) (gen.take codes) ++ linesFor false (pieces 10) (gen.drop codes) ++
      (if r.sparse && lastOfRows r t.tile then linesFor true (pieces 8) (rs.flatMap fun _ => leBytes 4 p.step.toNat) else [])

/-- Narrow pieces in the operands of a group (R303). -/
def tadpolePieces (s : State) (p : Pass) (t : TileSt) (ops : List Operand) : Nat :=
  let r := passRec p.kind (recOf s t.tensor)
  let rs := tileRunsOf s p t
  ((ops.filter (isTadpole r)).map fun op => (opPieces s p.step r op rs).length).sum

/-! ## The checks of the fabric's residues (R107) -/

/-- The graphs that a tile runs through. -/
def tileGraphs (im : Image) (p : Pass) (r : TensorRec) (c : TileClass) : List Nat :=
  match p.kind with
  | .pass1 => [1]
  | .pass1Factored | .reseed => []
  | .ema => [5]
  | .sweep => match c.effective im r with
    | .finish => [finishGraph r]
    | .tornKm8 => [mainGraph r, finishGraph r]
    | .ordinary => [mainGraph r]
    | _ => []

/-- The first check that fails on a tile: graph, operation and element; a register-file read counts as operation 0's. -/
def tileFault (s : State) (im : Image) (p : Pass) (t : TileSt) : Option (Nat × Nat × Nat) :=
  let d := tileData s im p t
  let gs := tileGraphs im p (passRec p.kind (recOf s t.tensor)) t.cls
  if !bankResidues (bankOf s t.cset) then (gs.head?).map fun g => (g, 0, 0)
  else gs.findSome? fun g =>
    (graphFault (ruleFtz im.rule) d.n (graphAt im.graphs g).ops 0 (tileEnv s im p t d g d.m d.v)).map fun x => (g, x.1, x.2)

/-! ## The tile header (R97) -/

/-- The 32 bytes of a tile's header. -/
def tileHeader (t : TileSt) : BitVec 256 :=
  let handle := fun (n : Nat) => ((if n = 6 then (padOf t 6).or t.colPad else padOf t n).getD 0 : BitVec 16)
  let valid : BitVec 8 := (List.range 8).foldl (fun (v : BitVec 8) n =>
    if (padOf t n).isSome || (n == 6 && t.colPad.isSome) then v ||| ((1 : BitVec 8) <<< n) else v) 0
  let w0 : Word := putSat 50 14 t.tensor ||| putSat 16 32 t.tile ||| put 0 t.seq
  let w1 : Word := put 32 t.step ||| putSat 21 11 t.count ||| put 17 (t.variant.setWidth 4 : BitVec 4) ||| putBit 16 t.cset |||
    putBit 15 t.first ||| putBit 14 t.last ||| putBit 13 t.pass1 ||| putBit 12 t.discard ||| put 4 valid
  (handle 7 ++ handle 6 ++ handle 5 ++ handle 4) ++ (handle 3 ++ handle 2 ++ handle 1 ++ handle 0) ++ w1 ++ w0

/-! ## What FETCH reads of a tile (R91, R100, R142, R156, R189, R192) -/

/-- The operands of a tile by pass and class. -/
def tileReads (im : Image) (p : Pass) (r : TensorRec) (c : TileClass) : List Operand :=
  let refs := fun (g : Nat) (op : Nat) => graphReads (graphAt im.graphs g).ops (BitVec.ofNat 8 (0xC0 + op))
  let m2 := r.m2fmt != 0 && !isFactored im r
  let ema := im.rule.emaMode == 1 && r.ema
  let sparse := if r.sparse then [8] else []
  let row := if isFactored im r then [7] else []
  let main := [0, 1] ++ (if r.m1fmt != 0 then [2] else []) ++ (if m2 then [3] else []) ++
    (if ema then [6] else []) ++ row ++ sparse
  match p.kind with
  | .pass1 => ([0, 1] ++ (if r.m1fmt != 0 then [2] else []) ++ (if m2 then [3] else [])).filter (refs 1)
  | .pass1Factored => [1]
  | .ema => [0, 6]
  | .reseed => [0]
  | .sweep => match c.effective im r with
    | .done => []
    | .skip => []
    | .tornM | .tornW => [0] ++ (if r.wfmt != 0 then [4, 5] else []) ++ sparse
    | .tornKm8 => main ++ (if r.wfmt != 0 then [4, 5] else [])
    | .finish => main.filter fun op => op = 0 || 6 ≤ op || refs (finishGraph r) op
    | .ordinary => main

/-- The handle slots of a tile (R97, R101). -/
def tilePads (im : Image) (p : Pass) (r : TensorRec) (c : TileClass) : List Nat :=
  let m2 := r.m2fmt != 0 && !isFactored im r
  match p.kind with
  | .pass1 => [0, 1] ++ (if r.m1fmt != 0 then [2] else []) ++ (if m2 then [3] else [])
  | .pass1Factored => []
  | .ema | .reseed => [0, 6]
  | .sweep => if c == .done || c == .skip then [] else
      [0, 1] ++ (if r.m1fmt != 0 then [2] else []) ++ (if m2 then [3] else []) ++ (if r.wfmt != 0 then [4] else []) ++
      (if r.genfmt != 0 then [5] else []) ++
      (if im.rule.emaMode == 1 && r.ema then [emaSlot p.kind (isFactored im r)] else [])

end Sys2Proof.Machine
end

