-- ==== Sys2Proof/Machine/Journal.lean ====
section
/-! DEFINITION. The sweep journal: positions, slots, the marks line, pass information, what recovery reads of
it; the walk of a pass; release events (R39, R168, R178-R181, R190, R194, R195). -/
namespace Sys2Proof.Machine

def setPass (f : Pass → Pass) (s : State) : State := { s with sweep := { s.sweep with pass := s.sweep.pass.map f } }
def setSweep (f : SweepUnit → SweepUnit) (s : State) : State := { s with sweep := f s.sweep }

/-- The rise of FETCH's rate begins anew: at the start of a pass, at the end of a pause, and once the last group of a
wake is ungated (R555, R565). -/
def rampStart (s : State) : State := setPass (fun p => { p with rampFrom := s.clk.fab, rampIssued := 0 }) s

/-! ## The walk of a pass (R140, R143, R168) -/

/-- The tensors a pass walks, in order. -/
def passTensors (s : State) (k : PassKind) : List Nat :=
  (validTensors s).filter fun t => match k with
    | .pass1Factored => !(recOf s t).unfactored
    | .ema | .reseed => (recOf s t).ema
    | _ => true

/-- The tensors that have a tile in the walk, and the constant bank of each: the opposite one to the tensor before
it (R102). -/
def walkTensors (s : State) (k : PassKind) : List Nat :=
  (passTensors s k).filter fun t => tilesOf (passRec k (recOf s t)) != 0
def walkIndex (s : State) (k : PassKind) (tensor : Nat) : Nat := (walkTensors s k).idxOf tensor
def csetOf (s : State) (k : PassKind) (tensor : Nat) : Bool := walkIndex s k tensor % 2 == 1

def tileIn (f : Nat → TensorRec) : List Nat → Nat → Option (Nat × Nat)
  | [], _ => none
  | i :: is, o => if o < tilesOf (f i) then some (i, o) else tileIn f is (o - tilesOf (f i))

/-- The tile at an ordinal of a pass. -/
def passTile (s : State) (k : PassKind) (ord : Nat) : Option (Nat × Nat) :=
  tileIn (fun t => passRec k (recOf s t)) (passTensors s k) ord

def passTiles (s : State) (k : PassKind) : Nat :=
  ((passTensors s k).map fun t => tilesOf (passRec k (recOf s t))).sum

/-- A position (R180). -/
def posWord (x : Option (Nat × Nat)) : Word :=
  match x with
  | some (tensor, tile) => putSat 50 14 tensor ||| putSat 16 32 tile
  | none => putBit 48 true

def passPos (s : State) (k : PassKind) (ord : Nat) : Word := posWord (passTile s k ord)

/-! ## Slots (R180) -/

/-- A slot's content. -/
def slotWord (tensor tile : Nat) (m w : Bool) (step : BitVec 32) : Word :=
  posWord (some (tensor, tile)) ||| putBit 49 m ||| putBit 48 w ||| put 0 (field step 0 16)

/-- The slot of an ordinal changes in the engine's own view. -/
def setSlot (ord : Nat) (x : Word) (s : State) : State :=
  setSweep (fun w => { w with slots := w.slots.set (ord % 16) x }) s

/-- The line that holds the slot of an ordinal, whole from the engine's own view of its 8 slots (R180). -/
def slotLine (s : State) (ord : Nat) : GroupLine :=
  let n := ord % 16 / 8
  let data := (List.range 8).foldl (fun (l : Line) i => l ||| putLine (8 * i) (s.sweep.slots.getD (8 * n + i) 0)) 0
  { line := journalLine s (0x100 + 64 * n), mask := BitVec.allOnes 64, data := data
    cmp := BitVec.allOnes 64, slot := true }

/-- Slot i of a slot line, and the same with W set or clear: what the engine may have written of it between its
hand-over and a confirm read (R175, R180). -/
def slotIn (l : Line) (i : Nat) : Word := field l (64 * i) 64
def slotPlain (x : Word) : Word := x &&& ~~~putBit 48 true
def slotFull (x : Word) : Word := x ||| putBit 48 true

/-- The confirm of a slot line compares all 64 B: the tile's own slot with what was written, and each other slot with
what the engine has written of it since (R172, R180). -/
def slotLineOk (s : State) (ord : Nat) (written got : Line) : Bool :=
  let now := (slotLine s ord).data
  (List.range 8).all fun i =>
    let x := slotIn got i
    let a := slotIn written i
    let c := slotIn now i
    if i = ord % 8 then x == a else x == a || x == c || x == slotFull a || x == slotPlain c

/-! ## The marks line (R178, R179) -/

def JState.code : JState → BitVec 8
  | .empty => 0 | .pass1 => 1 | .sweep => 2 | .done => 3 | .halted => 4 | .recovering => 5

def JFault.code : JFault → BitVec 8
  | .none => 0 | .nonfinite => 1 | .codec => 2 | .noVariant => 3 | .confirm => 4 | .port => 5 | .abort => 6

def JFault.ofCode (n : Nat) : JFault :=
  match n with
  | 1 => .nonfinite | 2 => .codec | 3 => .noVariant | 4 => .confirm | 5 => .port | 6 => .abort | _ => .none

/-- A fault that may leave its tile torn (R176). -/
def JFault.tears : JFault → Bool
  | .confirm | .port => true
  | _ => false

/-- The marks line as the engine would write it now. -/
def marksLine (s : State) : Line :=
  let w := s.sweep
  let l := putLine 0x00 (0x4A4E : BitVec 16) ||| putLine 0x02 (0x01 : BitVec 8) ||| putLine 0x03 w.state.code |||
    putLine 0x04 w.jStep ||| putLine 0x08 w.jTag ||| putLine 0x0C s.step.released ||| putLine 0x0E w.fault.code |||
    putLine 0x0F (BitVec.ofNat 8 w.faultGroup.toNat) ||| putLine 0x10 w.wpos ||| putLine 0x18 w.mpos |||
    putLine 0x20 w.fpos ||| putLine 0x28 (BitVec.ofNat 32 w.word) ||| putLine 0x2C (BitVec.ofNat 32 w.mord) |||
    putLine 0x30 w.failedLines ||| putLine 0x38 w.lineSeq
  sealLine l

/-- Writes the marks line (R178). LINE_SEQ counts from 0 again after a warm reset, and goes on from the journal's when
a pass continues from it (log 81). -/
def writeMarks (s : State) : State :=
  let s := setSweep (fun w => { w with
    lineSeq := w.lineSeq + 1, dirty := false, lastMarks := portNow s, written := w.state, known := true }) s
  enqueue (controlWrite .marks (journalLine s 0) (marksLine s)) s

/-- SWEEP_WMARK and SWEEP_MMARK follow the marks of an updating pass (R195). -/
def syncMarks (s : State) : State :=
  match s.sweep.pass with
  | some p =>
    if p.kind == .sweep then
      setSweep (fun w => { w with
        wpos := passPos s .sweep p.wmark, mpos := passPos s .sweep p.mmark, word := p.wmark, mord := p.mmark
        dirty := w.dirty || w.word != p.wmark || w.mord != p.mmark }) s
    else s
  | none => s

/-! ## Pass information, and the other lines of the gate (R170, R178, R181, R135) -/

def passInfoLine (im : Image) (done1 : Bool) (k : BitVec 6) (tiles : Nat) (sparse : Bool) : Line :=
  putLine 0 im.rule.passes ||| putLine 1 (BitVec.ofNat 8 done1.toNat) ||| putLine 2 (k.setWidth 8 : BitVec 8) |||
  putLine 3 (BitVec.ofNat 8 ((if im.rule.emaMode = 1 then 1 else 0) + (if sparse then 2 else 0))) |||
  putLine 4 (BitVec.ofNat 32 tiles)

def constsLine (ks : List (BitVec 32)) : Line :=
  (List.range 16).foldl (fun (l : Line) i => l ||| putLine (4 * i) (ks.getD i 0)) 0

/-- What line `idx` of the journal holds, of those that FETCH waits for. -/
def journalData (s : State) (p : Pass) (idx : Nat) : Line :=
  if idx = 1 then constsLine p.consts
  else if idx = 2 then s.verdict.record
  else if idx = 3 then s.sweep.passInfo
  else (List.range 16).foldl (fun (l : Line) i => l ||| putLine (4 * i)
    (((s.sweep.rho.find? (·.1 == 16 * (idx - 64) + i)).map (·.2)).getD 0)) 0

def writeJournalLine (idx : Nat) (s : State) : State :=
  match s.sweep.pass with
  | some p =>
    enqueue { who := .journal idx, cls := .sweep, write := true, line := journalLine s (64 * idx)
              mask := BitVec.allOnes 64, data := journalData s p idx } s
  | none => s

/-- Several lines that FETCH waits for. -/
def writeJournal (idxs : List Nat) (s : State) : State :=
  idxs.foldl (fun s i => writeJournalLine i s)
    (setPass (fun p => { p with gateLeft := p.gateLeft + idxs.length, gateMiss := [] }) s)

/-! ## Releases (R27, R39, R168, and "Release events") -/

/-- The ordinal past the last tile of a release group. -/
def groupEnd (s : State) (g : Nat) : Nat :=
  ((validTensors s).filter fun t => (recOf s t).group ≤ g).map (fun t => tilesOf (recOf s t)) |>.sum

def groupsOf (s : State) : List Nat := ((validTensors s).map fun t => (recOf s t).group).eraseDups

/-- Groups whose every tile lies below an ordinal. -/
def groupsBelow (s : State) (ord : Nat) : Nat := (groupsOf s).countP fun g => groupEnd s g ≤ ord

/-- One group is released: the journal first, then the count, then the pulse. -/
def releaseOne (s : State) : State :=
  pulse 2 (writeMarks { s with step := { s.step with released := s.step.released + 1 } })

/-- Every group that the weight mark has passed is released, in order; a thermal pause holds the pulses back (R197). -/
def releaseDue (s : State) : State :=
  if s.mem.thermal.paused then s
  else (List.range (groupsBelow s s.sweep.word - s.step.released.toNat)).foldl (fun s _ => releaseOne s) s

/-! ## Reading the journal (R183-R187) -/

/-- The line as the memory path would answer a read once it has taken every write it holds: accepted
transfers, write-combining entries, then what waits, in order. -/
def journalView (s : State) (line : BitVec 34) : Line :=
  let l := lineRead s.stack line
  let l := s.mem.flights.foldl (fun l f =>
    if f.req.write && f.req.line == line then overlay l f.req.mask f.req.data else l) l
  let l := s.mem.wcb.foldl (fun l e => if e.line == line then overlay l e.mask e.data else l) l
  s.mem.waiting.foldl (fun l w =>
    if w.req.write && w.req.line == line then overlay l w.req.mask w.req.data else l) l

/-- The marks line as read. -/
structure Marks where
  good : Bool
  state : Nat
  step : BitVec 32
  tag : BitVec 32
  released : BitVec 16
  fault : JFault
  faultGroup : Bool
  fpos : Word
  word : Nat
  mord : Nat
  failedLines : Word
  lineSeq : BitVec 32
  deriving DecidableEq, Repr

/-- MAGIC, FORMAT and CRC of a marks line. -/
def marksGood (l : Line) : Bool := field l 0 16 == (0x4A4E : BitVec 16) && field l 16 8 == (1 : BitVec 8) && lineCrcOk l

def readMarks (s : State) : Marks :=
  let l := journalView s (journalLine s 0)
  { good := marksGood l
    state := fieldNat l 24 8, step := field l 32 32, tag := field l 64 32, released := field l 96 16
    fault := JFault.ofCode (fieldNat l 112 8), faultGroup := l.getLsbD 120
    fpos := field l 256 64, word := fieldNat l 320 32, mord := fieldNat l 352 32
    failedLines := field l 384 64, lineSeq := field l 448 32 }

/-- The pass information as read: PASSES, PASS1_DONE, LS_K. -/
def readPassInfo (s : State) : Nat × Bool × BitVec 6 :=
  let l := journalView s (journalLine s 0xC0)
  (fieldNat l 0 8, l.getLsbD 8, field l 16 6)

def readConsts (s : State) : List (BitVec 32) :=
  let l := journalView s (journalLine s 0x40)
  (List.range 16).map fun i => field l (32 * i) 32

def readRecord (s : State) : Line := journalView s (journalLine s 0x80)

def readSlots (s : State) : List Word :=
  (List.range 16).map fun i => field (journalView s (journalLine s (0x100 + 64 * (i / 8)))) (64 * (i % 8)) 64

def readRho (s : State) : List (Nat × BitVec 32) :=
  (validTensors s).map fun t => (t, field (journalView s (journalLine s (0x1000 + 64 * (t / 16)))) (32 * (t % 16)) 32)

/-! ## The repair log (R190) -/

/-- An entry of 16 B goes to its place; the line's other bytes stay. Past the 16th entry, which restarted recoveries
can reach, the repair is still reported and counted, but nothing is written (log 82). -/
def logRepair (pos : Word) (blocks : BitVec 32) (kind : BitVec 8) (s : State) : State :=
  let n := s.sweep.logNext
  let off := 16 * (n % 4)
  let data := putLine off pos ||| putLine (off + 8) blocks ||| putLine (off + 12) kind
  let req : MemReq :=
    { who := .journalLine n, cls := .sweep, write := true, line := journalLine s (0x180 + 16 * n)
      mask := (0xFFFF : BitVec 64) <<< off, data := data }
  report 0x0301 pos (setSweep (fun w => { w with logNext := n + 1, repairs := if n < 16 then w.repairs + 1 else w.repairs })
    (if n < 16 then enqueue req s else s))

/-- Unused entries are zero: the log is cleared (R190). -/
def clearRepairs (s : State) : State :=
  enqueueAll ((List.range 4).map fun i =>
    { who := .journalLine (16 + i), cls := .sweep, write := true, line := journalLine s (0x180 + 64 * i)
      mask := BitVec.allOnes 64, data := 0 }) (setSweep (fun w => { w with logNext := 0 }) s)

/-- Entries in use as the journal holds them. -/
def usedRepairs (s : State) : Nat :=
  (List.range 16).countP fun i => fieldNat (journalView s (journalLine s (0x180 + 64 * (i / 4)))) (128 * (i % 4) + 96) 8 != 0

end Sys2Proof.Machine
end

