-- ==== Sys2Proof/Machine/Sweep.lean ====
section
/-! DEFINITION. The passes on the fabric: the gate, FETCH, the chain, COMMIT's two groups and their confirms, the
marks, the end of a pass and its halts; EMA passes (R41, R42, R97-R110, R133-R147, R168-R197, R210). -/
namespace Sys2Proof.Machine

/-! ## What FETCH does next (R99, R108, R169, R185) -/

def curPass (s : State) : Option Pass := s.sweep.pass

/-- The class that a pass gives an ordinal. -/
def classAt (p : Pass) (ord : Nat) : TileClass := ((p.classes.find? (·.1 == ord)).map (·.2)).getD .ordinary

/-- A halt leaves this tile to be worked on: it lies ahead of a clean fault, or an ABORT found it fetched
(R41, R42, R176). -/
def beforeHalt (p : Pass) (ord : Nat) : Bool :=
  match p.halt with
  | some h => !h.fault.tears && ord < h.ord
  | none => true

/-- The next tile FETCH issues: discarded tiles first, then the walk (R108). -/
def nextFetch (p : Pass) : Option (Nat × TileClass × Nat) :=
  match p.refetch with
  | (o, c, n) :: _ => if beforeHalt p o then some (o, c, n) else none
  | [] => if p.halt.isNone && p.next < p.tiles then some (p.next, classAt p p.next, 0) else none

/-- The pass has been opened and its units are usable: the gate's lines are confirmed, nothing drains. -/
def passOpen (s : State) (p : Pass) : Bool :=
  working s && p.gateLeft == 0 && !p.gateOpening && !p.doneDue && fabricFree s

/-- FETCH may work: a thermal pause stops FETCH and nothing else of the pass (R293); a recovery waits for exports and
fills that still run, as the gate does (R354, R383; log 90). -/
def passFree (s : State) (p : Pass) : Bool :=
  passOpen s p && !s.mem.thermal.paused &&
  (p.kind.isEma || !(s.rng.mask.run.isSome || s.xch.chans.any fun c => c.job.isSome))

/-- The column pads that a tensor's first tile asks for as well (R140, R142). -/
def columnPads (im : Image) (p : Pass) (r : TensorRec) (tensor : Nat) : Nat :=
  if p.qpads.any (·.1 == tensor) then 0
  else if p.kind == .pass1Factored then r.cols / 512
  else if p.kind == .sweep && isFactored im r then r.cols / 1024
  else 0

/-- The pads FETCH needs for its next tile: column pads as slot 8, then the tile's handle slots (R99, R334). -/
def fetchWants (s : State) : Option (List Nat) :=
  match activeImage s, curPass s with
  | some im, some p =>
    if !passFree s p then none
    else (nextFetch p).bind fun (o, c, _) => (passTile s p.kind o).map fun (tensor, _) =>
      let r := passRec p.kind (recOf s tensor)
      List.replicate (columnPads im p r tensor) 8 ++ tilePads im p r c
  | _, _ => none

/-- The request FETCH has posted: column pads by at most 8, then a tile's whole set (R99, R103, R334). -/
def fetchAsks (s : State) : Option Nat :=
  match curPass s, fetchWants s with
  | some p, some w =>
    let n := (p.granted.getD []).length
    let cols := w.countP (· == 8)
    if n < cols then some (min 8 (cols - n)) else if n < w.length then some (w.length - n) else none
  | _, _ => none

/-- The pond's grant (R334). -/
def fetchGranted (hs : List (BitVec 16)) (s : State) : State :=
  match fetchWants s with
  | some w => setPass (fun p =>
      let g := p.granted.getD []
      { p with granted := some (g ++ (w.drop g.length).zip hs) }) s
  | none => s

/-- The reads of a tile, operand by operand (R100, R191, R192). -/
def tileReqs (s : State) (im : Image) (p : Pass) (t : TileSt) : List MemReq :=
  let r := passRec p.kind (recOf s t.tensor)
  let rs := tileRuns r (indexOf p t.tensor) t.tile
  (tileReads im p r t.cls).flatMap fun op =>
    let tp := isTadpole r op
    let ls := (opPieces s p.step r op rs).flatMap pieceCover
    (ls.zipIdx).map fun ((line, mask, second), i) =>
      { who := .fetch t.ord op i, cls := if tp then .tadpole else .sweep, write := false, line := line
        mask := if tp then mask else 0, tail := tp && second }

/-- Lines of the vectors that a tensor's first tile reads: the new columns of a second pass, the old rows
and columns of a first one (R139, R141, R142). -/
def vectorReqs (s : State) (p : Pass) (r : TensorRec) (tensor : Nat) : List MemReq :=
  let lines := if p.kind == .pass1Factored then
      pieceLines (rowVecAddr s r ((p.step.toNat + 1) % 2), rowVecBytes r) ++
      pieceLines (colVecAddr s r ((p.step.toNat + 1) % 2), colVecBytes r)
    else pieceLines (colVecAddr s r (p.step.toNat % 2), colVecBytes r)
  (List.range lines.length).map fun i =>
    { who := .vector tensor i, cls := .sweep, write := false, line := lines.getD i 0 }

/-- The tensor's vectors are in, if its tiles need them. -/
def vectorsIn (s : State) (im : Image) (p : Pass) (tensor : Nat) : Bool :=
  let r := recOf s tensor
  let need := (vectorReqs s p r tensor).length
  if p.kind == .pass1Factored then (p.qvec.countP (·.1 == tensor)) == need
  else if p.kind == .sweep && isFactored im r then (p.qcols.countP (·.1 == tensor)) == need
  else true

/-- The index list of a tensor is in, if its tiles need it (R192). -/
def indexIn (p : Pass) (r : TensorRec) (tensor : Nat) : Bool :=
  !r.sparse || r.indexCount == 0 || p.index.any (·.1 == tensor)

/-- Puts a tile in among those in flight, by ordinal. -/
def insertTile (t : TileSt) : List TileSt → List TileSt
  | [] => [t]
  | x :: xs => if x.ord < t.ord then x :: insertTile t xs else t :: x :: xs

def setTile (ord : Nat) (f : TileSt → TileSt) (s : State) : State :=
  setPass (fun p => { p with inflight := p.inflight.map fun t => if t.ord = ord then f t else t }) s

/-- Beats of a tile on a graph at the width in use (R86, R98). -/
def widthOf (s : State) (g : Nat) : Nat := 128 / ((placementFor s g).map fun pl => widthLanes pl.width).getD 1
def tileBeats (s : State) (g count : Nat) : Nat := ceilDiv count (widthOf s g)

/-- The graph that a tile's beats pass through: of a torn tile the one that finishes it (R187). -/
def tileGraph (im : Image) (p : Pass) (r : TensorRec) (c : TileClass) : Nat :=
  match (tileGraphs im p r c).getLast? with
  | some g => g
  | none => if p.kind.isEma then 5 else mainGraph r

/-- Fab cycles over which FETCH's rate rises (R555). -/
def rampCycles : Nat := 1920

/-- The rate at which FETCH issues rises linearly, from zero to a full tile every `full` fab cycles: t cycles into the
rise it has issued fewer than t^2 / (2 * 1920 * full) tiles before this one (R555, log 83). -/
def rampAllows (full t issued : Nat) : Bool := rampCycles ≤ t || 2 * rampCycles * full * issued < t * t

/-- FETCH issues a tile (R97, R99, R142, R168). -/
def issueTile (s : State) (im : Image) (p : Pass) (o : Nat) (c : TileClass) (miss tensor tile : Nat) : State :=
  let r := passRec p.kind (recOf s tensor)
  let pads := p.granted.getD []
  let vectors := p.kind == .pass1Factored || (p.kind == .sweep && isFactored im r)
  let first := vectors && !(p.qpads.any (·.1 == tensor))
  let qpads := if first then p.qpads ++ [(tensor, pads.filter (·.1 == 8))] else p.qpads
  let cols := ((qpads.find? (·.1 == tensor)).map (·.2)).getD []
  let t : TileSt :=
    { ord := o, tensor := tensor, tile := tile, count := runCount (tileRuns r (indexOf p tensor) tile), cls := c
      stage := .fetching, pads := pads.filter (·.1 < 8)
      colPad := if p.kind == .sweep && vectors then (cols[tile % (r.cols / 1024)]?).map (·.2) else none
      seq := p.seq, step := p.step, cset := csetOf s p.kind tensor, variant := s.fab.variant
      first := tile == 0, last := tile + 1 == tilesOf r, pass1 := p.kind == .pass1 || p.kind == .pass1Factored
      missing := 0, mismatches := miss }
  let reqs := tileReqs s im p t
  let s := setPass (fun p => { p with
    granted := none
    next := if p.refetch.isEmpty then o + 1 else p.next
    refetch := p.refetch.drop 1
    qpads := qpads
    rampIssued := p.rampIssued + 1
    inflight := insertTile { t with missing := reqs.length } p.inflight }) s
  let s := countMp 6 (tadpolePieces s p t (tileReads im p r c)) s
  enqueueAll reqs (if first then enqueueAll (vectorReqs s p r tensor) s else s)

/-- FETCH_ISSUE's effect (R99, R169, R192, R555). -/
def fetchIssue (s : State) : State :=
  match activeImage s, curPass s, fetchWants s with
  | some im, some p, some w =>
    if (p.granted.getD []).length < w.length then s
    else match nextFetch p with
      | some (o, c, miss) =>
        match passTile s p.kind o with
        | some (tensor, tile) =>
          let r := passRec p.kind (recOf s tensor)
          if indexIn p r tensor && rampAllows (tileBeats s (tileGraph im p r c) 1024) (s.clk.fab - p.rampFrom) p.rampIssued
          && !(r.sparse && windowFull s) then issueTile s im p o c miss tensor tile else s
        | none => s
      | none => s
  | _, _, _ => s

/-! ## Index lists (R152, R192) -/

/-- Parses a tensor's index list: an entry not above its predecessor, or at or beyond the row count, is
skipped and reported. The predecessor is the entry before it in the list. -/
def parseIndex (tensor rows : Nat) : Option Nat → List Nat → State → List (Option Nat) × State
  | _, [], s => ([], s)
  | prev, x :: xs, s =>
    let arg : Word := putSat 32 32 x ||| putSat 0 14 tensor
    let order := (prev.map fun p => decide (x ≤ p)).getD false
    let bad := order || rows ≤ x
    let s := if order then report 0x0204 arg s else if rows ≤ x then report 0x0205 arg s else s
    let (ys, s) := parseIndex tensor rows (some x) xs s
    ((if bad then none else some x) :: ys, s)

/-- A line of an index list has come. -/
def indexLine (tensor i : Nat) (data : Option Line) (s : State) : State :=
  match curPass s with
  | some p =>
    let got := lineOrFree data s
    let l := got.1
    let s := got.2
    let raw := (tensor, i, l) :: p.indexRaw
    let r := recOf s tensor
    let n := ceilDiv (4 * r.indexCount) 64
    let mine := raw.filter (·.1 == tensor)
    if mine.length < n then setPass (fun p => { p with indexRaw := raw }) s
    else
      let bytes := (List.range n).flatMap fun k => lineBytes (((mine.find? (·.2.1 == k)).map (·.2.2)).getD 0)
      let got := parseIndex tensor r.rows none ((List.range r.indexCount).map fun k => bytesAt bytes (4 * k) 4) s
      lagStartAll (setPass (fun p => { p with
        indexRaw := raw.filter (·.1 != tensor), index := (tensor, got.1) :: p.index }) got.2)
  | none => s

/-- FETCH reads the index lists ahead of the tiles, with class STREAM (R192). -/
def readIndexes (s : State) : State :=
  let ts := (validTensors s).filter fun t => (recOf s t).sparse
  enqueueAll (ts.flatMap fun t =>
    let r := recOf s t
    let ls := pieceLines (indexAddr s r 0, 4 * r.indexCount)
    (List.range ls.length).map fun i => { who := .index t i, cls := .stream, write := false, line := ls.getD i 0 }) s

/-! ## The gate (R147, R170, R367, R383) -/

/-- Graphs that a pass uses (R114). -/
def passGraphs (s : State) (im : Image) (k : PassKind) (recovery : Bool) : List Nat :=
  let sparse := (validTensors s).any fun t => (recOf s t).sparse
  match k with
  | .ema => [5]
  | .reseed => []
  | .pass1Factored => [0] ++ (if sparse then [2] else [])
  | .pass1 => [1, 0] ++ (if sparse then [2] else [])
  | .sweep => [0] ++ (if sparse then [2] else []) ++
      (if recovery then (if ruleFinish im.rule then [3] else []) ++ (if ruleSparseFinish im.rule && sparse then [4] else [])
       else [])

def passPlaceable (s : State) (im : Image) (k : PassKind) (recovery : Bool) : Bool :=
  (liveVariant s).isSome && (passGraphs s im k recovery).all (placeable s)

/-- FAB_STATUS.VARIANT and WIDTH follow the graph that the fabric holds (R104, R114, R153). -/
def chooseVariant (g : Nat) (s : State) : State :=
  match placementFor s g with
  | some pl => { s with fab := { s.fab with variant := pl.variant, width := pl.width.setWidth 2 } }
  | none => s

/-- The graphs that a tensor's constants are prepared for (R114, R126). -/
def constGraphs (im : Image) (p : Pass) (r : TensorRec) : List Nat :=
  match p.kind with
  | .pass1 => [1]
  | .pass1Factored | .reseed => []
  | .ema => [5]
  | .sweep => [mainGraph r] ++
      (if (p.recovery || p.classes.any fun c => c.2 != .ordinary) && hasFinish im r then [finishGraph r] else [])

/-- Operations that the preparer spends on the i-th tensor of the walk: one per fab cycle (R126). -/
def prepCost (s : State) (im : Image) (p : Pass) (i : Nat) : Nat :=
  match (walkTensors s p.kind)[i]? with
  | some tensor =>
    ((constGraphs im p (passRec p.kind (recOf s tensor))).map fun g => (programOf im.programs g false).length).sum
  | none => 0

/-- The graph that the first tile of a pass runs on. -/
def firstGraph (s : State) (k : PassKind) (ord : Nat) : Nat :=
  match passTile s k ord with
  | some (tensor, _) => if k == .pass1 then 1 else if k.isEma then 5 else mainGraph (passRec k (recOf s tensor))
  | none => if k == .pass1 then 1 else if k.isEma then 5 else 0

/-- A pass begins. An unplaceable graph stops it at its first tile (R114). The banks are empty, and the preparer
starts with the tensor of that tile (R102, R126). -/
def beginPass (k : PassKind) (recovery : Bool) (im : Image) (consts : List (BitVec 32)) (clip : F32) (lsK : BitVec 6)
    (first : Nat) (s : State) : State :=
  let tiles := passTiles s k
  let halt : Option HaltDue :=
    if passPlaceable s im k recovery then none
    else some { fault := .noVariant, pos := passPos s k first, ord := first }
  let g := firstGraph s k first
  let at0 := ((passTile s k first).map fun x => walkIndex s k x.1).getD 0
  let s := if k == .pass1Factored then s else chooseVariant g s
  let s := { s with fab := { s.fab with bankA := {}, bankB := {} } }
  let s := setSweep (fun w => { w with
    seq := w.seq + 1, leftInflight := 0
    pass := some { kind := k, recovery := recovery, seq := w.seq + 1, step := s.step.step, tiles := tiles
                   next := first, wmark := first, mmark := first, consts := consts, clip := clip, lsK := lsK
                   halt := halt, graph := g, prepNext := at0, rampFrom := s.clk.fab } }) s
  setPass (fun p => { p with prepLeft := prepCost s im p at0 }) s

/-- FETCH begins: index lists are read ahead of the tiles, and the rate starts to rise (R170, R192, R555). -/
def fetchBegins (s : State) : State :=
  match curPass s with
  | some p =>
    let s := rampStart s
    if p.kind == .sweep || p.kind == .pass1 then readIndexes s else s
  | none => s

/-- The kind of a rule's first pass, if it has one. -/
def firstPass (im : Image) : Option PassKind :=
  if im.rule.pass1Path = 1 then some .pass1 else if im.rule.pass1Path = 2 then some .pass1Factored else none

/-- The pass information of a step. -/
def setPassInfo (im : Image) (done1 : Bool) (k : BitVec 6) (s : State) : State :=
  let sparse := (validTensors s).any fun t => (recOf s t).sparse
  setSweep (fun w => { w with passInfo := passInfoLine im done1 k (tilesTotal s) sparse }) s

/-- Nothing holds the gate any more (R147, R170, R367, R383, R470). -/
def gateClear (s : State) : Bool :=
  !s.aux.running && s.sweep.pass.isNone && s.rng.mask.run.isNone && !(s.xch.chans.any fun c => c.job.isSome) &&
  !s.clk.divPending && fabricFree s

/-- The gate opens (R28, R170): journal lines 1 to 3 are written and confirmed first. -/
def openGate (im : Image) (s : State) : State :=
  let k := (firstPass im).getD .sweep
  let rec8 := s.verdict.record
  let s := { s with
    step := { s.step with phase := if k == .sweep then .sweep else .pass1, released := 0 }
    verdict := { s.verdict with gateDue := false }
    tongue := { s.tongue with armed := false }
    aux := { s.aux with gateWait := false }
    xch := { s.xch with gateWait := false }
    rng := { s.rng with mask := { s.rng.mask with gateWait := false } } }
  let s := setSweep (fun w => { w with
    state := if k == .sweep then .sweep else .pass1, fault := .none, faultGroup := false, fpos := 0, failedLines := 0
    repairs := 0, logNext := 0, jStep := s.step.step, jTag := activeTag s, wpos := positionOf s 0
    mpos := positionOf s 0, word := 0, mord := 0, rho := [], settle := [], settleLines := 0 }) s
  let s := beginPass k false im s.stepk.capture (field rec8 0xE0 32) s.lscale.k 0 s
  let s := setPassInfo im false s.lscale.k s
  let s := exportsGate s.step.step (activeTag s) s
  writeJournal [1, 2, 3] (setPass (fun p => { p with gateOpening := true }) s)

/-! ## Halts and faults (R41, R42, R110, R114, R176, R197) -/

/-- A fault comes: a torn one replaces any that is not; a clean one an ABORT, or a clean one behind it. -/
def raiseHalt (h : HaltDue) (s : State) : State :=
  setPass (fun p =>
    let take : Bool := match p.halt with
      | none => true
      | some q => !q.fault.tears && (h.fault.tears || q.fault == .abort || decide (h.ord < q.ord))
    { p with halt := if take then some h else p.halt }) s

/-- A line of a group failed for good: it joins the failed lines of its tile and group (R176, R179). -/
def raiseTear (fault : JFault) (t : TileSt) (idx : Nat) (weights : Bool) (s : State) : State :=
  let bit : Word := if idx < 64 then (1 : Word) <<< idx else 0
  match curPass s with
  | some p =>
    match p.halt with
    | some q =>
      if q.fault.tears then
        (if q.ord = t.ord && q.weights == weights then
          setPass (fun p => { p with halt := some { q with failedLines := q.failedLines ||| bit } }) s
         else s)
      else raiseHalt { fault := fault, pos := posWord (some (t.tensor, t.tile)), ord := t.ord, weights := weights
                       failedLines := bit } s
    | none => raiseHalt { fault := fault, pos := posWord (some (t.tensor, t.tile)), ord := t.ord, weights := weights
                          failedLines := bit } s
  | none => s

/-- Frees what a pass holds. -/
def passPads (p : Pass) : List (BitVec 16) :=
  ((p.granted.getD []).map (·.2)) ++ p.inflight.flatMap (fun t => t.pads.map (·.2)) ++
  p.qpads.flatMap fun q => q.2.map (·.2)

def Who.isPass : Who → Bool
  | .fetch _ _ _ | .index _ _ | .vector _ _ | .group _ _ _ | .confirm _ _ _ | .journal _ | .journalConfirm _ => true
  | _ => false

/-- The pad that a read of the pass fills (R97, R100, R142). -/
def readPad (s : State) (p : Pass) : Who → Option (BitVec 16)
  | .fetch o op _ =>
    match s.image.active, p.inflight.find? (·.ord == o) with
    | some im, some t => opPad p (isFactored im (passRec p.kind (recOf s t.tensor))) t op
    | _, _ => none
  | .vector t i =>
    if p.kind == .pass1Factored then none
    else (((p.qpads.find? (·.1 == t)).map (·.2)).bind fun pads => pads[i / 64]?).map (·.2)
  | _ => none

/-- Reads on their way into pads are marked: their data are discarded, their pads freed after them (R337). -/
def discardReads (drops : Who → Bool) (p : Pass) (s : State) : State :=
  { s with mem := { s.mem with
      flights := s.mem.flights.map fun f => if !f.req.write && drops f.req.who then
        { f with req := { f.req with who := ((readPad s p f.req.who).map Who.discarded).getD f.req.who } }
      else f } }

/-- A read into the pad is still on its way. -/
def readsInto (s : State) (h : BitVec 16) : Bool := s.mem.flights.any fun f => f.req.who == .discarded h

/-- Pads of the sweep stations that are given up; one that a read is on its way to is freed after it (R101, R337). -/
def giveUpPads (hs : List (BitVec 16)) (s : State) : State :=
  padFreeAll (hs.filter fun h => !readsInto s h) ownerSweep s

/-- A discarded read is back, or has failed for good: the pad is free after the last of them (R337). -/
def discardedDone (h : BitVec 16) (s : State) : State := if readsInto s h then s else padFree h ownerSweep s

/-- The pass is over: reads on their way go to nobody, its pads are freed after them. -/
def endPass (s : State) : State :=
  match curPass s with
  | some p =>
    giveUpPads (passPads p) (dropReads Who.isPass (setSweep (fun w => { w with
      pass := none, index := if p.kind.isEma then w.index else p.index })
      (discardReads Who.isPass p s)))
  | none => s

/-- Every line of a group has been confirmed or has failed. -/
def groupSettled (t : TileSt) : Bool := t.group.all fun l => l.confirmed || l.failed
def groupConfirmed (t : TileSt) : Bool := t.group.all (·.confirmed)

/-- No tile can still move: what was handed over has completed, the tiles ahead of a clean fault are
through (R41, R42, R176). -/
def haltReached (p : Pass) (h : HaltDue) : Bool :=
  let handed := p.inflight.filter fun t => t.stage == .moments || t.stage == .weights
  handed.all groupSettled &&
  !(p.inflight.any fun t => (t.stage == .weights && t.ord == p.wmark || t.stage == .moments) && groupConfirmed t) &&
  (h.fault.tears ||
    (!(p.inflight.any fun t => t.ord < h.ord) && !(p.refetch.any fun x => x.1 < h.ord)))

/-- A pass of a step or a recovery stops (R28, R41, R42, R146, R176, R178, R212). -/
def haltStep (p : Pass) (h : HaltDue) (s : State) : State :=
  let pos := if h.fault == .abort then passPos s p.kind h.ord else h.pos
  let s := syncMarks s
  let left := (p.inflight.filter fun t => t.stage == .moments || t.stage == .momentsOk || t.stage == .weights).length
  let s := { s with
    step := { s.step with phase := .halted }
    tongue := { s.tongue with armed := false, clearing := none }
    aux := { s.aux with valid := false } }
  let s := setSweep (fun w => { w with
    state := .halted, fault := h.fault, faultGroup := h.weights, fpos := pos, failedLines := h.failedLines
    leftInflight := left }) s
  pulse 4 (report 0x0302 ((pos &&& 0xFFFFFFFFFFFF0000) ||| put 0 h.fault.code) (writeMarks (endPass s)))

/-- An EMA pass stops at a tile boundary: the copy is no longer known (R114, R146); RUNNING falls (R447). -/
def haltEma (s : State) : State :=
  pulse 8 (endPass { s with aux := { s.aux with
    running := false, valid := false, reseeding := false, gateWait := false } })

def sweepHalt (s : State) : State :=
  match curPass s with
  | some p =>
    match p.halt with
    | some h => if !haltReached p h then s else if p.kind.isEma then haltEma s else haltStep p h s
    | none => s
  | none => s

/-! ## The chain (R88, R97, R101-R103, R126, R153, R154, R210) -/

/-- Stamps at or above STEP, reported with the first elements of their rows (R154, R159). -/
def reportStamps (s : State) (im : Image) (p : Pass) (t : TileSt) : State :=
  let r := passRec p.kind (recOf s t.tensor)
  if !r.sparse || !firstOfRows r t.tile then s
  else
    let d := tileData s im p t
    (d.runs.zip d.stamps).foldl (fun s (u, st) =>
      if p.step.toNat ≤ st.toNat then report 0x0206 (putSat 32 32 u.row ||| putSat 0 14 t.tensor) s else s) s

/-- A tensor's first tile enters: its accumulators, or its sweep fields, are cleared (R94, R210). A tile left behind by
SKIP_TILE enters the sweep like any other. -/
def clearTensor (p : Pass) (t : TileSt) (s : State) : State :=
  if t.tile ≠ 0 || t.cls == .done then s
  else if p.kind == .pass1 then
    setSweep (fun w => { w with accum := (t.tensor, 0, 0) :: w.accum.filter (·.1 != t.tensor) }) s
  else if p.kind == .sweep then
    setNorm t.tensor (fun n => { n with wsq := 0, usq := 0, sweepValid := false, swept := 0 }) s
  else s

/-- A free of some of a tile's pads. -/
def freeSlots (slots : List Nat) (ord : Nat) (s : State) : State :=
  match curPass s with
  | some p =>
    match p.inflight.find? (·.ord == ord) with
    | some t =>
      let (gone, rest) := t.pads.partition fun h => slots.contains h.1
      setTile ord (fun t => { t with pads := rest }) (padFreeAll (gone.map (·.2)) ownerSweep s)
    | none => s
  | none => s

/-- A tile that recovery leaves alone passes without entering the chain. -/
def TileClass.passes : TileClass → Bool
  | .done | .skip => true
  | _ => false

/-- Operations that the preparer spends on the rows of a tile (R154). -/
def rowCost (s : State) (im : Image) (p : Pass) (t : TileSt) : Nat :=
  let r := passRec p.kind (recOf s t.tensor)
  if r.sparse then
    (tileRunsOf s p t).length * ((tileGraphs im p r t.cls).map fun g => (programOf im.programs g true).length).sum
  else 0

/-- The constants that a tile reads are prepared: its tensor's, and those of its rows (R126, R154). -/
def constsReady (s : State) (im : Image) (p : Pass) (t : TileSt) : Bool :=
  walkIndex s p.kind t.tensor < p.prepNext && (rowCost s im p t == 0 || p.rowPrep.any fun x => x.1 == t.ord && x.2 == 0)

/-- The tile's bank can take its beats: it holds the tensor's constants, or 17 fab cycles lie between the beats of the
tensor that it held and the next one (R102). -/
def bankReady (s : State) (t : TileSt) : Bool :=
  let b := bankOf s t.cset
  b.tensor == some t.tensor || (match b.lastBeat with
    | some f => f + 17 ≤ s.clk.fab + 1
    | none => true)

/-- The bank takes a tensor's constants. -/
def loadBank (im : Image) (p : Pass) (t : TileSt) (s : State) : State :=
  if (bankOf s t.cset).tensor == some t.tensor then s
  else
    let regs := (constGraphs im p (passRec p.kind (recOf s t.tensor))).flatMap (regsOf s im p t.tensor)
    let b : ConstBank := { tensor := some t.tensor, regs := regs, lastBeat := (bankOf s t.cset).lastBeat }
    { s with fab := if t.cset then { s.fab with bankB := b } else { s.fab with bankA := b } }

/-- The tile that enters the chain next: the first still being fetched, once every tile before it has its beats in the
chain (R88, R102, R109). -/
def nextTile (p : Pass) : Option TileSt :=
  if p.inflight.any fun t => t.stage == .chain && t.beatsIn < t.beats then none
  else (p.inflight.find? (·.stage == .fetching)).filter fun t => t.missing == 0 && !(p.refetch.any fun x => x.1 < t.ord)

/-- The switch from the sparse graph to the dense one (R153): begun by the first dense tile, it takes at most 256 fab
cycles. -/
def switchDue (p : Pass) (r : TensorRec) : Bool := p.kind == .sweep && !r.sparse && p.graph == 2

def beginSwitch (s : State) : State :=
  { setPass (fun p => { p with switching := some (min 256 (Config.switchCycles s.freeCtr)) }) s with freeCtr := s.freeCtr + 1 }

/-- The tile's beats begin to enter: its bank, the placement variant and its beats are fixed, its tensor is cleared if
it is the first (R84, R97, R98, R102, R104, R210). -/
def enterTile (im : Image) (p : Pass) (t : TileSt) (s : State) : State :=
  let r := passRec p.kind (recOf s t.tensor)
  let g := tileGraph im p r t.cls
  let s := loadBank im p t (chooseVariant g s)
  let n := if (tileGraphs im p r t.cls).isEmpty && !p.kind.isEma then tileBeats s (mainGraph r) t.count
    else tileBeats s g t.count
  let s := setPass (fun p => { p with graph := g, switching := none }) s
  let variant := BitVec.ofNat 8 ((liveVariant s).getD 0)
  let s := setTile t.ord (fun t => { t with stage := .chain, variant := variant, beats := n, beatsIn := 0 }) s
  clearTensor p t (reportStamps s im p t)

/-- TILE_ENTER_CHAIN's effect (R102, R126, R153). A tile that no graph works on passes it by. -/
def enterChain (s : State) : State :=
  match activeImage s, curPass s with
  | some im, some p =>
    if !passOpen s p || p.kind == .pass1Factored then s
    else match nextTile p with
      | some t =>
        if !beforeHalt p t.ord then s
        else if t.cls.passes then setTile t.ord (fun t => { t with stage := .past }) (clearTensor p t s)
        else if !vectorsIn s im p t.tensor || !constsReady s im p t || !bankReady s t then s
        else if switchDue p (recOf s t.tensor) && p.switching != some 0 then
          (if p.switching.isNone then beginSwitch s else s)
        else enterTile im p t s
      | none => s
  | _, _ => s

/-! ## COMMIT (R94, R171-R176) -/

/-- The tile whose turn at COMMIT it is, once it has come through the chain (R169, R174). -/
def commitTurn (p : Pass) : Option TileSt :=
  match p.inflight.find? fun t => t.stage == .fetching || t.stage == .chain || t.stage == .past with
  | some t =>
    if t.stage == .past && !(p.refetch.any fun x => x.1 < t.ord) && beforeHalt p t.ord then some t else none
  | none => none

/-- Hands a group to the memory path, whole (R171). -/
def handGroup (t : TileSt) (weights : Bool) (ls : List GroupLine) (s : State) : State :=
  let s := setTile t.ord (fun t => { t with group := ls, stage := if weights then .weights else .moments }) s
  enqueueAll ((ls.zipIdx).map fun (l, i) =>
    { who := .group t.ord i weights, cls := if l.tadpole then .tadpole else .sweep, write := true
      line := l.line, mask := l.mask, data := l.data, tail := l.tail }) s

/-- Adds a tile's sums to the tensor's accumulators (R93, R94). -/
def addAccums (tensor : Nat) (as : List (Nat × F64)) (s : State) : State :=
  let (a, b) := accumOf s tensor
  let sum := fun (i : Nat) (x : F64) => (as.filter (·.1 == i)).foldl (fun x e => f64Add x e.2) x
  setSweep (fun w => { w with accum := (tensor, sum 0 a, sum 1 b) :: w.accum.filter (·.1 != tensor) }) s

/-- A tile of PASS1 is accepted: nothing is written (R94, R97, R101). -/
def acceptPass1 (t : TileSt) (s : State) : State :=
  let s := padFreeAll (t.pads.map (·.2)) ownerSweep (addAccums t.tensor t.out.accums s)
  setPass (fun p => { p with
    inflight := p.inflight.filter (·.ord != t.ord), wmark := t.ord + 1, mmark := t.ord + 1 }) s

/-- KIND of a repair-log entry (R190). -/
def repairKind : TileClass → BitVec 8
  | .tornW => 2
  | .tornKm8 => 3
  | _ => 1

/-- The tile's moment group is handed over (R171, R174, R187-R190). -/
def handMoments (im : Image) (p : Pass) (t : TileSt) (s : State) : State :=
  if t.cls.passes then setTile t.ord (fun t => { t with stage := .moments, group := [] }) s
  else if t.out.bad then raiseHalt { fault := .nonfinite, pos := posWord (some (t.tensor, t.tile)), ord := t.ord } s
  else
    let eff := t.cls.effective im (recOf s t.tensor)
    let s := if t.out.repaired = 0 || p.kind.isEma then s else
      countSweep 3 t.out.elemsRepaired (logRepair (posWord (some (t.tensor, t.tile))) t.out.repaired (repairKind eff) s)
    if eff == .finish && !p.kind.isEma then setTile t.ord (fun t => { t with stage := .moments, group := [] }) s
    else
      let ls := if p.kind.isEma then [] else momentGroup s im p t
      let s := countMp 6 (if p.kind.isEma then 0 else tadpolePieces s p t [2, 3]) s
      let s := setSlot t.ord (slotWord t.tensor t.tile true false p.step) s
      handGroup t false (ls ++ [slotLine s t.ord]) s

/-- MOMENT_GROUP_HANDOVER's effect (R77, R94, R174, R175). -/
def momentHandover (s : State) : State :=
  match activeImage s, curPass s with
  | some im, some p =>
    if !working s then s
    else match commitTurn p with
      | some t =>
        if p.kind == .pass1 then acceptPass1 t s
        else if t.ord < p.wmark + 16 && !((recOf s t.tensor).sparse && windowFull s) then handMoments im p t s
        else s
      | none => s
  | _, _ => s

/-- The moment mark: the first tile whose moments are not confirmed (R174). -/
def momentMark (p : Pass) : Nat :=
  let ahead := (p.inflight.filter fun t => t.stage == .fetching || t.stage == .chain || t.stage == .past ||
    t.stage == .moments).map (·.ord)
  (ahead ++ p.refetch.map (·.1)).foldl min p.next

def advanceMoments (s : State) : State := syncMarks (setPass (fun p => { p with mmark := momentMark p }) s)

/-- MOMENTS_CONFIRMED's effect (R101, R174). -/
def momentsConfirmed (s : State) : State :=
  match curPass s with
  | some p =>
    match p.inflight.find? fun t => t.stage == .moments && groupConfirmed t with
    | some t =>
      let s := freeSlots [2, 3] t.ord s
      advanceMoments (setTile t.ord (fun t => { t with stage := .momentsOk, group := [] }) s)
    | none => s
  | none => s

/-- WEIGHT_GROUP_HANDOVER's effect (R171, R174). A tile left behind by SKIP_TILE hands over its slot alone (R183). -/
def weightHandover (s : State) : State :=
  match activeImage s, curPass s with
  | some im, some p =>
    let torn := (p.halt.map (·.fault.tears)).getD false
    match p.inflight.find? (·.stage == .momentsOk) with
    | some t =>
      if !working s || torn || p.mmark ≤ t.ord || ((recOf s t.tensor).sparse && windowFull s) then s
      else if t.cls == .done then setTile t.ord (fun t => { t with stage := .weights, group := [] }) s
      else
        let ls := if t.cls.passes then [] else weightGroup s im p t
        let stamps := !t.cls.passes && !p.kind.isEma && lastOfRows (recOf s t.tensor) t.tile
        let s := setSlot t.ord (slotWord t.tensor t.tile true true p.step) s
        let s := countMp 6 (if stamps then tadpolePieces s p t [8] else 0) s
        handGroup t true (ls ++ [slotLine s t.ord]) s
    | none => s
  | _, _ => s

/-! ## Weights confirmed (R101, R174, R177, R196, R210, R365) -/

def addSiblings (t : TileSt) (s : State) : State :=
  let (a, b) := t.out.sums
  let r := recOf s t.tensor
  setNorm t.tensor (fun n => { n with
    wsq := f64Add n.wsq a, usq := f64Add n.usq b, swept := n.swept + 1
    sweepValid := n.swept + 1 == tilesOf r && t.tile + 1 == tilesOf r }) s

/-- The codes that EXPORT takes from a tile's generator pad: new ones at byte 0, reference ones at byte 2,048 (R355). -/
def exportBytes (s : State) (r : TensorRec) (t : TileSt) : List Byte × List Byte :=
  (genBytes s r t t.out.n 0, if deltaWanted s then genBytes s r t t.out.n 32 else [])

/-- The tile goes to EXPORT: to channels in CHANGES as an offer, or WHOLE where a recovery has committed it or
SKIP_TILE left it (R177, R197, R357, R362, R363, R365; log 84). -/
def exportTile (p : Pass) (t : TileSt) (s : State) : State :=
  let r := recOf s t.tensor
  let handle := padOf t 5
  if t.cls == .ordinary && !p.recovery then
    let (new, old) := exportBytes s r t
    let s := match handle with
      | some h => padGive h ownerExport s
      | none => s
    let s := setTile t.ord (fun t => { t with pads := t.pads.filter (·.1 != 5) }) s
    exportOffer { ord := t.ord, tensor := t.tensor, tile := t.tile, count := t.out.n, genfmt := r.genfmt
                  dstOff := deltaOffset r t.tile, groupEnd := endsGroup s t.tensor t.tile, old := old
                  new := new, handle := handle, waiting := [] } s
  else
    let flag : BitVec 8 := if t.cls == .skip then 8 else 2
    (List.range 4).foldl (fun s k => setXch k (fun c =>
      if c.openStep.isNone then c
      else
        let c := { c with skipped := c.skipped || t.cls == .skip }
        if c.state == .changes then { c with whole := c.whole ++ [(t.ord, flag)], ordinal := t.ord + 1 }
        else if c.state == .lagging then { c with marked := (t.ord, flag) :: c.marked } else c) s) s

/-- The counts that a committed tile brings (R63, R196, R372). -/
def countTile (t : TileSt) (s : State) : State :=
  let s := countXch 1 t.out.satGen (countXch 0 t.out.satW s)
  if t.cls == .finish && t.out.repaired = 0 then countSweep 5 t.out.uncertain (countSweep 1 1 s)
  else if t.cls == .skip then countSweep 2 1 s else s

/-- A settled fault leaves the journal once the weight mark has passed it (R185). -/
def dropFault (s : State) : State :=
  match curPass s with
  | some p =>
    match p.keepFault with
    | some o =>
      if o < p.wmark then
        setSweep (fun w => { w with fault := .none, faultGroup := false, fpos := 0, failedLines := 0, dirty := true })
          (setPass (fun p => { p with keepFault := none }) s)
      else s
    | none => s
  | none => s

/-- The sweep's last weight mark is written (R28, R29, R146, R150, R212). EMA_STEP takes STEP as SWEEP_DONE leaves it,
one higher than the sweep's own (R145, R146; log 85). -/
def endSweep (s : State) : State :=
  let ema := ((activeImage s).map fun im => im.rule.emaMode == 1).getD false
  let s := writeMarks (setSweep (fun w => { w with
    state := .done, fault := .none, faultGroup := false, fpos := 0, failedLines := 0 }) (endPass s))
  let s := setStep (s.step.step + 1) { s with lscale := { s.lscale with k := s.lscale.kNext } }
  let s := if ema then { s with aux := { s.aux with emaStep := s.step.step, valid := true } } else s
  let s := if s.tongue.armed then enterObserve s else { s with step := { s.step with phase := .idle } }
  lagStartAll (pulse 3 s)

/-- The tensor's column pads are free once its last tile is through (R142). -/
def freeColumns (p : Pass) (t : TileSt) (s : State) : State :=
  if t.tile + 1 = tilesOf (recOf s t.tensor) then
    let mine := (p.qpads.filter (·.1 == t.tensor)).flatMap (·.2)
    setPass (fun p => { p with
      qpads := p.qpads.filter (·.1 != t.tensor), qcols := p.qcols.filter (·.1 != t.tensor) })
      (padFreeAll (mine.map (·.2)) ownerSweep s)
  else s

/-- The weight mark passes a tile of an updating pass. -/
def tileCommitted (p : Pass) (t : TileSt) (s : State) : State :=
  let s := if t.cls.passes then s else addSiblings t s
  let s := exportTile p t (countTile t s)
  let left : PadSet := match curPass s with
    | some p => ((p.inflight.find? (fun (x : TileSt) => x.ord == t.ord)).map (fun (x : TileSt) => x.pads)).getD []
    | none => []
  let s := freeColumns p t (padFreeAll (left.map (·.2)) ownerSweep s)
  let s := setPass (fun p => { p with inflight := p.inflight.filter (·.ord != t.ord), wmark := t.ord + 1 }) s
  lagStartAll (dropFault (syncMarks s))

/-- A tile of an EMA pass is through. -/
def emaCommitted (t : TileSt) (s : State) : State :=
  setPass (fun p => { p with inflight := p.inflight.filter (·.ord != t.ord), wmark := t.ord + 1 })
    (padFreeAll (t.pads.map (·.2)) ownerSweep s)

/-- What follows once the weight mark has moved: releases, and the sweep's end after the last of them. A thermal pause
holds both back (R197). -/
def settleSweep (s : State) : State :=
  let s := releaseDue s
  match curPass s with
  | some p =>
    if p.kind == .sweep && p.tiles ≤ p.wmark && p.halt.isNone && p.gateLeft == 0 && !p.gateOpening && !p.doneDue &&
        !s.mem.thermal.paused && working s then endSweep s else s
  | none => s

/-- WEIGHTS_CONFIRMED's effect; the sweep ends with its last tile (R174). -/
def weightsConfirmed (s : State) : State :=
  match curPass s with
  | some p =>
    if !working s || 0 < p.gateLeft then s
    else settleSweep (match p.inflight.find? fun t => t.stage == .weights && t.ord == p.wmark && groupConfirmed t with
      | some t => if p.kind.isEma then emaCommitted t s else tileCommitted p t s
      | none => s)
  | none => s

/-- The gate's lines are confirmed: the marks line is written, VERDICT_GO is pulsed, FETCH begins (R170). -/
def gateConfirmed (s : State) : State :=
  match curPass s with
  | some p =>
    let s := if p.gateOpening then pulse 0 (writeMarks (setPass (fun p => { p with gateOpening := false }) s)) else s
    fetchBegins (if p.kind == .sweep then releaseDue s else s)
  | none => s

/-- The trust ratios are confirmed: PASS1_DONE is written, then FETCH of the second pass may begin (R181). -/
def pass1Written (s : State) : State :=
  match activeImage s, curPass s with
  | some im, some p =>
    let s := setPassInfo im true p.lsK (setPass (fun p => { p with doneDue := false }) s)
    writeJournal [3] (writeMarks (setSweep (fun w => { w with state := .sweep }) s))
  | _, _ => s

/-- A good report ends a pause: FETCH's rate rises anew, releases that were due go out (R197, R293, R555). -/
def pauseEnded (s : State) : State :=
  settleSweep (rampStart s)

/-! ## Outcomes that the memory path brings (R172, R174, R176, R298) -/

/-- A write has been accepted: its confirm read is issued, if it has one, with class SWEEP (R172). -/
def confirmIssue (who : Who) (line : BitVec 34) (s : State) : State :=
  match who with
  | .group o i w =>
    (match curPass s with
     | some p => if p.inflight.any (·.ord == o) then
        enqueue { who := .confirm o i w, cls := .sweep, confirm := true, write := false, line := line } s else s
     | none => s)
  | .journal i =>
    if s.sweep.pass.isSome then
      enqueue { who := .journalConfirm i, cls := .sweep, confirm := true, write := false, line := line } s
    else s
  | _ => s

/-- A line of a group. -/
def setLine (ord idx : Nat) (f : GroupLine → GroupLine) (s : State) : State :=
  setTile ord (fun t => { t with group := t.group.modify idx f }) s

/-- Two lines agree in the bytes that a mask names. -/
def sameBytes (mask : BitVec 64) (a b : Line) : Bool :=
  (List.range 64).all fun k => !mask.getLsbD k || (field a (8 * k) 8 : BitVec 8) == field b (8 * k) 8

/-- The tile and group line that a transfer belongs to, while it is under confirmation. -/
def groupLineOf (s : State) (ord idx : Nat) (weights : Bool) : Option (TileSt × GroupLine) :=
  (curPass s).bind fun p =>
    (p.inflight.find? fun t => t.ord == ord && t.stage == (if weights then .weights else .moments)).bind fun t =>
      (t.group[idx]?).map (t, ·)

/-- A group line's write failed for good (R176, R298). -/
def groupFailed (ord idx : Nat) (weights : Bool) (s : State) : State :=
  match groupLineOf s ord idx weights with
  | some (t, _) => raiseTear .port t idx weights (setLine ord idx (fun l => { l with failed := true }) s)
  | none => s

/-- The data that a rewrite of a group's line carries: of a slot line, the engine's view as it is now (R180). -/
def rewriteData (s : State) (ord : Nat) (l : GroupLine) : Line := if l.slot then (slotLine s ord).data else l.data

/-- What a confirm read returned agrees with what was written (R172, R180). -/
def confirmOk (s : State) (ord : Nat) (l : GroupLine) (d : Line) : Bool :=
  if l.slot then slotLineOk s ord l.data d else sameBytes l.cmp d l.data

/-- A confirm read is in (R172, R176). -/
def confirmDone (ord idx : Nat) (weights : Bool) (data : Option Line) (s : State) : State :=
  match groupLineOf s ord idx weights, data with
  | some (t, l), some d =>
    if l.confirmed || l.failed then s
    else if confirmOk s ord l d then setLine ord idx (fun l => { l with confirmed := true }) s
    else if l.misses = 0 then
      let new := rewriteData s ord l
      enqueue { who := .group ord idx weights, cls := if l.tadpole then .tadpole else .sweep, write := true
                line := l.line, mask := l.mask, data := new, tail := l.tail }
        (countSweep 0 1 (setLine ord idx (fun l => { l with misses := 1, data := new }) s))
    else raiseTear .confirm t idx weights (setLine ord idx (fun l => { l with failed := true }) s)
  | some _, none => groupFailed ord idx weights s
  | none, _ => s

/-- A journal line that FETCH waits for failed for good: the pass stops at its first tile. -/
def journalFailed (fault : JFault) (s : State) : State :=
  match curPass s with
  | some p => raiseHalt { fault := fault, pos := passPos s p.kind p.next, ord := p.next }
      (setPass (fun p => { p with gateLeft := 0, gateOpening := false, doneDue := false }) s)
  | none => s

/-- The confirm of such a line (R170): rewritten once, as a group's line is. -/
def journalConfirmed (idx : Nat) (data : Option Line) (s : State) : State :=
  match curPass s, data with
  | some p, some d =>
    if p.gateLeft = 0 then s
    else
      if d = journalData s p idx then
        let s := setPass (fun p => { p with gateLeft := p.gateLeft - 1 }) s
        if p.gateLeft ≠ 1 then s else if p.doneDue then pass1Written s else gateConfirmed s
      else if p.gateMiss.contains idx then journalFailed .confirm s
      else writeJournalLine idx (countSweep 0 1 (setPass (fun p => { p with gateMiss := idx :: p.gateMiss }) s))
  | some _, none => journalFailed .port s
  | none, _ => s

/-! ## The factored first pass (R138-R141) -/

/-- 1/n as recip gives it. -/
def recipOf (n : Nat) : F32 := f32Recip (f32OfNat n)

/-- The line sums of s = fma(g·c, g·c, K9) over a gradient line's elements (R140). -/
def factoredSquares (p : Pass) (g : List F32) : List F32 :=
  g.map fun x => let y := f32Mul x p.clip; f32Fma y y (p.consts.getD 9 0)

/-- One new vector element (R141). -/
def decayed (p : Pass) (old : F32) (sum : F64) (n : Nat) : F32 :=
  let a := f32Add 0x3F800000#32 (p.consts.getD 3 0 ^^^ 0x80000000#32)
  f32Fma (p.consts.getD 3 0) old (f32Mul a (f32Mul (f32OfF64 sum) (recipOf n)))

/-- A vector's old elements from the lines read, `first` lines in. -/
def oldVector (p : Pass) (tensor first n : Nat) : List F32 :=
  let bytes := (List.range (ceilDiv (4 * n) 64)).flatMap fun i =>
    lineBytes (((p.qvec.find? fun q => q.1 == tensor && q.2.1 == first + i).map (·.2.2)).getD 0)
  (List.range n).map fun i => BitVec.ofNat 32 (bytesAt bytes (4 * i) 4)

/-- The tensor's last row is in: r' and q' are formed and written, and the sum of r' becomes its first ACCUM result. The
lines of r' all go then, not row by row as the rows end, and neither vector is checked for values that are not finite
(R77, R141; log 86). Its column pads stay until the lines of q' are written (R140). -/
def factoredEnd (p : Pass) (tensor : Nat) (s : State) : State :=
  let r := recOf s tensor
  let rows := (oldVector p tensor 0 r.rows).zipWith (fun o x => decayed p o x r.cols) s.sweep.rowSums
  let cols := (oldVector p tensor (rowVecBytes r / 64) r.cols).zipWith (fun o x => decayed p o x r.rows) s.sweep.colSums
  let copy := p.step.toNat % 2
  let bytes := fun (xs : List F32) => xs.flatMap fun x => leBytes 4 x.toNat
  let ls := linesFor false [(rowVecAddr s r copy, 4 * r.rows)] (bytes rows) ++
    linesFor false [(colVecAddr s r copy, 4 * r.cols)] (bytes cols)
  let sum := sumInOrder (rows.map f64OfF32)
  let s := setSweep (fun w => { w with
    accum := (tensor, sum, 0) :: w.accum.filter (·.1 != tensor), rowSums := [], rowAcc := 0, colSums := [] }) s
  let s := setPass (fun p => { p with
    qvec := p.qvec.filter (·.1 != tensor), vecOut := p.vecOut ++ (List.range ls.length).map fun i => (tensor, i) }) s
  enqueueAll ((ls.zipIdx).map fun (l, i) =>
    { who := .vector tensor i, cls := .sweep, write := true, line := l.line, mask := l.mask, data := l.data }) s

/-- The reduction path takes the tiles of a tensor in order (R140). -/
def factoredTake : Nat → State → State
  | 0, s => s
  | fuel + 1, s =>
    match activeImage s, curPass s with
    | some im, some p =>
      match p.inflight.head? with
      | some t =>
        if p.kind != .pass1Factored || t.missing ≠ 0 || (p.refetch.any fun x => x.1 < t.ord) ||
          !vectorsIn s im p t.tensor || !beforeHalt p t.ord then s
        else
          let r := recOf s t.tensor
          let sq := factoredSquares p (tileData s im p t).g
          let per := 64 / gradBytes r
          let lineSums := (List.range (ceilDiv sq.length per)).map fun i =>
            let xs := (sq.drop (per * i)).take per
            sumInOrder ((blocksOf xs).map blockSum)
          let first := t.tile % (r.cols / 1024) = 0
          let acc := lineSums.foldl f64Add (if first then 0 else s.sweep.rowAcc)
          let last := (t.tile + 1) % (r.cols / 1024) = 0
          let col := 1024 * (t.tile % (r.cols / 1024))
          let cols := if t.tile = 0 then List.replicate r.cols 0 else s.sweep.colSums
          let cols := (cols.zipIdx).map fun (x, j) =>
            if col ≤ j && j < col + sq.length then f64Add x (f64OfF32 (sq.getD (j - col) 0)) else x
          let s := setSweep (fun w => { w with
            rowSums := (if t.tile = 0 then [] else w.rowSums) ++ (if last then [acc] else [])
            rowAcc := acc, colSums := cols }) s
          let s := setPass (fun p => { p with inflight := p.inflight.drop 1, wmark := t.ord + 1, mmark := t.ord + 1 }) s
          factoredTake fuel (if t.tile + 1 = tilesOf r then factoredEnd p t.tensor s else s)
      | none => s
    | _, _ => s

/-! ## Reads come back -/

/-- A read of a tile's operand is in, and goes into its pad; one that failed for good holds a value the spec leaves
open (R100). -/
def fetchDone (ord op idx : Nat) (data : Option Line) (s : State) : State :=
  match activeImage s, curPass s with
  | some im, some p =>
    match p.inflight.find? fun t => t.ord == ord && t.stage == .fetching with
    | some t =>
      let r := passRec p.kind (recOf s t.tensor)
      let at0 := firstLine s p r (tileRunsOf s p t) op
      let got := lineOrFree data s
      let l := got.1
      let s := got.2
      let s := match opPad p (isFactored im r) t op with
        | some h => padStore h (at0 + idx) l (setTile ord (fun t => { t with missing := t.missing - 1 }) s)
        | none => setTile ord (fun t => { t with missing := t.missing - 1, lines := (op, idx, l) :: t.lines }) s
      if p.kind == .pass1Factored then factoredTake (p.inflight.length + 1) s else s
    | none => s
  | _, _ => s

/-- A line of a factored tensor's vectors is in: of a first pass the old ones (R141), of a second pass the new columns,
which go into the column pads (R142). -/
def vectorDone (tensor idx : Nat) (data : Option Line) (s : State) : State :=
  match curPass s with
  | some p =>
    let got := lineOrFree data s
    let l := got.1
    let s := got.2
    if p.kind == .pass1Factored then
      let s := setPass (fun p => { p with
        qvec := (tensor, idx, l) :: p.qvec.filter fun q => q.1 != tensor || q.2.1 != idx }) s
      factoredTake (p.inflight.length + 1) s
    else
      let pads := ((p.qpads.find? (·.1 == tensor)).map (·.2)).getD []
      let s := setPass (fun p => { p with qcols := (tensor, idx) :: p.qcols.filter (· != (tensor, idx)) }) s
      match pads[idx / 64]? with
      | some h => padStore h.2 (idx % 64) l s
      | none => s
  | none => s

/-- A line of r' or q' is written, or failed for good; with the last of q' the tensor's column pads are free (R140). -/
def vectorWritten (tensor idx : Nat) (ok : Bool) (s : State) : State :=
  match curPass s with
  | some p =>
    let rows := rowVecBytes (recOf s tensor) / 64
    let out := p.vecOut.filter (· != (tensor, idx))
    let s := setPass (fun p => { p with vecOut := out }) s
    let s := if out.any fun x => x.1 == tensor && rows ≤ x.2 then s
      else
        let mine := (p.qpads.filter (·.1 == tensor)).flatMap (·.2)
        setPass (fun p => { p with qpads := p.qpads.filter (·.1 != tensor) })
          (if p.vecOut.contains (tensor, idx) then padFreeAll (mine.map (·.2)) ownerSweep s else s)
    if ok then s else journalFailed .port s
  | none => s

/-! ## The end of PASS1 (R28, R135, R178, R181) -/

/-- Trust ratios of every tensor from its accumulators (R135). -/
def trustRatios (s : State) (p : Pass) : List (Nat × BitVec 32) :=
  (validTensors s).map fun t =>
    let (su, sw) := accumOf s t
    (t, trustRatio p.consts (recOf s t) (f32OfF64 su) (f32OfF64 sw))

/-- PASS1 goes over into the second pass (R28, R135, R181): the trust ratios are written and confirmed, then PASS1_DONE
and STATE, and only then does FETCH begin. -/
def pass1End (im : Image) (p : Pass) (s : State) : State :=
  let s := setSweep (fun w => { w with rho := if p.kind == .pass1 then trustRatios s p else [] }) (endPass s)
  let s := { s with step := { s.step with phase := .sweep } }
  let s := beginPass .sweep false im p.consts p.clip p.lsK 0 s
  let rhoLines := if p.kind == .pass1 then
      ((validTensors s).map fun t => 64 + t / 16).eraseDups else []
  if rhoLines.isEmpty then pass1Written s
  else writeJournal rhoLines (setPass (fun p => { p with doneDue := true }) s)

/-- PASS1_DONE's effect. -/
def pass1Done (s : State) : State :=
  match activeImage s, curPass s with
  | some im, some p =>
    if working s && (p.kind == .pass1 || p.kind == .pass1Factored) && p.halt.isNone && p.gateLeft == 0 && !p.gateOpening &&
        p.next == p.tiles && p.inflight.isEmpty && p.refetch.isEmpty && p.vecOut.isEmpty then pass1End im p s
    else s
  | _, _ => s

/-! ## EMA passes (R143-R147) -/

/-- The EMA pass of the active image can be placed for the live ranks; a reseed uses no graph (R114). -/
def emaPlaceable (s : State) (reseed : Bool) : Bool :=
  ((activeImage s).map fun im => passPlaceable s im (if reseed then .reseed else .ema) false).getD false

/-- The first refusal of a start, in the order of R146's table. R114 refuses a pass whose graph cannot be placed, and
names no code: NO_EMA, as for an image without the graph. A start while a pass runs is a CONFLICT (log 41). -/
def emaErr (s : State) (reseed both : Bool) : BitVec 8 :=
  let hasGraph := ((activeImage s).map fun im => (graphAt im.graphs 5).present).getD false
  if s.step.phase != .idle && s.step.phase != .observe then 2
  else if !hasGraph || !emaPlaceable s reseed then 3
  else if both then 4
  else if !reseed && s.aux.valid && s.aux.emaStep == s.step.step then 1
  else if !reseed && !s.aux.valid then 5
  else if s.sweep.pass.isSome then 4
  else 0

/-- A write of AUX_CTL (R144, R146). A start while a pass runs is refused as CONFLICT. -/
def writeAuxCtl (w : Word) (s : State) : State :=
  if !w.getLsbD 0 && !w.getLsbD 1 then s
  else
    let reseed := w.getLsbD 1
    let e := emaErr s reseed (w.getLsbD 0 && w.getLsbD 1)
    let s := { s with aux := { s.aux with err := e } }
    match activeImage s with
    | some im =>
      if e ≠ 0 then s
      else
        let k : PassKind := if reseed then .reseed else .ema
        beginPass k false im s.stepk.set 0x3F800000#32 0 0
          { s with aux := { s.aux with running := true, reseeding := reseed } }
    | none => s

/-- EMA_PASS_DONE's effect: the last tile is committed (R146, R447). -/
def emaDone (s : State) : State :=
  match curPass s with
  | some p =>
    if working s && p.kind.isEma && p.halt.isNone && p.tiles ≤ p.wmark then
      let s := endPass s
      pulse 8 { s with aux := { s.aux with
        running := false, reseeding := false, valid := true, emaStep := s.step.step, gateWait := false } }
    else s
  | none => s

/-! ## The rows -/

/-- THERMAL_REPORT (R457). -/
def execThermalReport (temp limit : BitVec 8) (par : BitVec 2) (s : State) : Out :=
  .next (if running s then
    let t := thermalReport temp limit par s
    if s.mem.thermal.paused && !t.mem.thermal.paused then pauseEnded t else t
  else s)
/-- GATE_OPEN (R170). -/
def execGateOpen (s : State) : Out :=
  .next (match activeImage s with
    | some im => if working s && s.verdict.gateDue && gateClear s then openGate im s else s
    | none => s)
/-- FETCH_ISSUE (R99). -/
def execFetchIssue (s : State) : Out := .next (fetchIssue s)
/-- TILE_ENTER_CHAIN (R102). -/
def execTileEnterChain (s : State) : Out := .next (enterChain s)
/-- MOMENT_GROUP_HANDOVER (R174). -/
def execMomentGroupHandover (s : State) : Out := .next (momentHandover s)
/-- MOMENTS_CONFIRMED (R174). -/
def execMomentsConfirmed (s : State) : Out := .next (if working s then momentsConfirmed s else s)
/-- WEIGHT_GROUP_HANDOVER (R174). -/
def execWeightGroupHandover (s : State) : Out := .next (weightHandover s)
/-- WEIGHTS_CONFIRMED (R174). -/
def execWeightsConfirmed (s : State) : Out := .next (weightsConfirmed s)
/-- PASS1_DONE (R28). -/
def execPass1Done (s : State) : Out := .next (pass1Done s)
/-- SWEEP_HALT (R41, R42, R176). -/
def execSweepHalt (s : State) : Out := .next (if working s then sweepHalt s else s)
/-- MARKS_LINE_WRITE (R178): due every 64 port cycles while a mark has moved. -/
def execMarksLineWrite (s : State) : Out :=
  .next (if working s && s.sweep.dirty && s.sweep.lastMarks + 64 ≤ portNow s then writeMarks s else s)

def auxCtlAddr : Addr24 := 0x000300
/-- EMA_START (R146). -/
def execEmaStart (w : Word) (s : State) : Out := .next (ctlWrite auxCtlAddr w (writeAuxCtl w) s)
/-- EMA_RESEED (R144). -/
def execEmaReseed (w : Word) (s : State) : Out := .next (ctlWrite auxCtlAddr w (writeAuxCtl w) s)
/-- EMA_PASS_DONE (R146). -/
def execEmaPassDone (s : State) : Out := .next (emaDone s)

end Sys2Proof.Machine
end

