-- ==== Sys2Proof/Machine/Verdict.lean ====
section
/-! DEFINITION. The step as the engine tracks it: the seal, the abort, verdict records, flashes, leases
(R21-R45, R148-R151, R228-R241, R566). -/
namespace Sys2Proof.Machine

/-! ## Ends of a step (R28, R38, R42, R150) -/

/-- A step that ends before its sweep, by an ABORT or not: the norm pass stops, PHASE becomes IDLE (R28, R38). -/
def endToIdle (aborted : Bool) (s : State) : State :=
  let s := normStop s
  linksRun aborted { s with
    step := { s.step with phase := .idle }
    tongue := { s.tongue with armed := false }
    verdict := { s.verdict with gateDue := false, flashPending := false }
    aux := { s.aux with gateWait := false }
    xch := { s.xch with gateWait := false }
    rng := { s.rng with mask := { s.rng.mask with gateWait := false } }
    hier := { s.hier with unresolved := s.hier.unresolved.filter fun m => joinType (msgType m) } }

/-- A phase that ABORT or SKIP ends in IDLE (R28). -/
def Phase.beforeGate : Phase → Bool
  | .observe | .sealed | .normPass | .awaitVerdict => true
  | _ => false

/-- ABORT stops FETCH at once; the tiles already fetched complete (R42). -/
def passAbort (s : State) : State :=
  match s.sweep.pass with
  | some p =>
    if p.halt.isSome then s
    else { s with sweep := { s.sweep with
      pass := some { p with halt := some { fault := .abort, pos := positionOf s p.next, ord := p.next } } } }
  | none => s

/-- The effect of an ABORT on the step under way, and whether there was one (R28, R42, R566). -/
def abortStep (s : State) : State :=
  if s.step.phase.beforeGate then
    pulse 4 (endToIdle true { s with
      step := { s.step with flash := .abort }
      lscale := { s.lscale with kNext := s.lscale.k } })
  else if s.step.phase == .pass1 || s.step.phase == .sweep then
    linksRun true (passAbort { s with step := { s.step with flash := .abort } })
  else s

def abortable (s : State) : Bool := s.step.phase.beforeGate || s.step.phase == .pass1 || s.step.phase == .sweep

/-- ABORT_NOTICE goes up from where the ABORT was raised (R229); the root's own always makes a record. -/
def abortNotice (s : State) : State :=
  if (planOf s).isNone then s
  else if isRoot s then issueAbort s
  else if isManager s then sendToParent (mkMsg s { type := 5, count := 1 }) s
  else sendToManager 0 (mkMsg s { type := 5, count := 1 }) s

/-- ABORT raised here (R28, R42, R229); `arg` says where a refused one came from (R506). -/
def raiseAbort (arg : Word) (s : State) : State :=
  if abortable s then abortNotice (abortStep s) else report 0x0103 arg s

/-! ## The seal (R34, R122, R206, R222) -/

/-- A refused seal is counted once, whichever check refused it (R34). -/
def sealRefused (code : BitVec 16) (arg : Word) (s : State) : State := report code arg (countTongue 6 1 s)

/-- The seal of the current step (R32, R34, R206, R416). Where both come in one ctrl cycle the seal on evt_in[0] is the
accepted one: the report names the other. -/
def takeSeal (evt : Bool) (s : State) : State :=
  if s.step.phase != .observe then
    sealRefused 0x0104 (put 0 s.step.step ||| putBit 32 (evt && s.step.sealAt != some (now s))) s
  else if s.memb.state != .opened then
    sealRefused 0x0105 (match s.memb.state with
      | .none => 0 | .joining => 1 | .opened => 2 | .failed => 3) s
  else if !(s.stepk.valid && s.stepk.setStep == s.step.step) then
    sealRefused 0x0106 (put 32 s.stepk.setStep ||| put 0 s.step.step) s
  else
    let s := linksSeal { s with
      step := { s.step with phase := .sealed, sealAt := if evt then none else some (now s) }
      stepk := { s.stepk with capture := s.stepk.set, captured := true } }
    let s := unwindTaken s
    if incomplete s = 0 then contribute s else normStart s

/-! ## STEP_CTL (R23-R25, R28) -/

def stepCtlAddr : Addr24 := 0x000028

/-- CLEAR_HALT (R28, R150). -/
def clearHalt (s : State) : State :=
  if s.step.phase == .halted then
    exportsClearHalt { s with
      step := { s.step with phase := .idle }
      sweep := { s.sweep with pass := none }
      lscale := { s.lscale with kNext := s.lscale.k } }
  else report 0x0103 (stepCtlAddr.setWidth 64) s

/-- A write of STEP_CTL (R23, R24). -/
def writeStepCtl (w : Word) (s : State) : State :=
  let n : BitVec 32 := field w 32 32
  let bits := fieldNat w 0 4
  if bits = 0 then s
  else if popCount (field w 0 4) > 1 then report 0x0102 (put 0 n) s
  else if bits = 4 then
    (if s.step.phase == .idle then dropBases (setStep n s) else report 0x0103 (stepCtlAddr.setWidth 64) s)
  else if n ≠ s.step.step then report 0x0101 (put 32 s.step.step ||| put 0 n) s
  else if bits = 1 then takeSeal false s
  else if bits = 2 then raiseAbort (stepCtlAddr.setWidth 64) s
  else clearHalt s

/-! ## Verdict records (R37, R227, R228, R241) -/

def recCode (r : Line) : BitVec 8 := field r 24 8
def recStepOf (r : Line) : BitVec 32 := field r 32 32
def recAttempt (r : Line) : BitVec 8 := field r 0x1A0 8
def recLsKNext (r : Line) : BitVec 6 := field r 0x140 6
def recLsN (r : Line) : BitVec 16 := field r 0x150 16
def recReason (r : Line) : BitVec 8 := field r 0x160 8
def recClip (r : Line) : F32 := field r 0xE0 32
def recRoot (r : Line) : BitVec 16 := field r 0x170 16

/-- VERDICT_STATUS.REJECT of a record: 0 for none (R37, R228, R238). -/
def rejectCode (s : State) (r : Line) : BitVec 4 :=
  if !lineCrcOk r then 4
  else if magicOf r != magicVerdict || field r 16 8 != (1 : BitVec 8) || recCode r = 0 || 3 < recCode r then 5
  else if recStepOf r ≠ s.step.step || recAttempt r ≠ s.verdict.attempt then 1
  else if msgEpoch r ≠ s.memb.epoch then 2
  else if msgTag r ≠ activeTag s then 3
  else 0

def codeFlash (c : BitVec 8) : Flash := if c = 1 then .go else if c = 2 then .skip else if c = 3 then .abort else .hold

/-- What every applied record does (R228, R238, R566). -/
def recordApplied (r : Line) (s : State) : State :=
  { s with
    step := { s.step with flash := codeFlash (recCode r) }
    verdict := { s.verdict with
      applied := true, record := r, recStep := recStepOf r, skipReason := recReason r, seen := some r
      flashPending := false } }

/-- The root keeps n' of its own GO or SKIP (R226). -/
def rootKeepsLsn (r : Line) (s : State) : State :=
  if isRoot s then { s with verdict := { s.verdict with rootLsn := recLsN r } } else s

/-- GO: the gate is due; what holds it shows in its GATE_WAIT (R147, R170, R367, R383). -/
def applyGo (r : Line) (s : State) : State :=
  let s := rootKeepsLsn r (recordApplied r s)
  let exporting := s.xch.chans.any fun c => c.job.isSome
  { s with
    lscale := { s.lscale with kNext := recLsKNext r }
    verdict := { s.verdict with gateDue := true }
    aux := { s.aux with gateWait := s.aux.running }
    xch := { s.xch with gateWait := exporting }
    rng := { s.rng with mask := { s.rng.mask with gateWait := s.rng.mask.run.isSome } }
    hier := { s.hier with unresolved := s.hier.unresolved.filter fun m => joinType (msgType m) } }

/-- SKIP: the step ends in IDLE, K takes K_NEXT (R28, R38, R150). -/
def applySkip (r : Line) (s : State) : State :=
  let s := pulse 1 (endToIdle false (rootKeepsLsn r (recordApplied r s)))
  let s := nextAttempt { s with lscale := { k := recLsKNext r, kNext := recLsKNext r } }
  s

/-- ABORT: as an ABORT of the step; a step that has ended here by its own abort still takes the record,
so that the counts of the job agree (R228, R568). -/
def applyAbort (r : Line) (s : State) : State :=
  let s := recordApplied r (abortStep s)
  nextAttempt { s with lscale := { s.lscale with kNext := s.lscale.k } }

/-- A good record that comes too late: the step has ended, or is past it (R241). -/
def ignoreRecord (r : Line) (s : State) : State :=
  countHier 2 1 { s with verdict := { s.verdict with ignored := r :: s.verdict.ignored } }

/-- A record is checked and applied, or rejected (R37, R228, R241). Either way the links leave VERDICT. -/
def judgeRecord (r : Line) (s : State) : State :=
  let e := rejectCode s r
  let late := countHier 2 1 s
  let s' :=
    if e ≠ 0 then
      let s := report 0x0410 (put 32 (recStepOf r) ||| put 0 e) late
      { s with verdict := { s.verdict with reject := e } }
    else match s.verdict.seen with
      | some q =>
        if q = r then countHier 0 1 s
        else holdStep 2 (recStepOf r) (recRoot r) late
      | none =>
        if s.verdict.ignored.contains r then countHier 0 1 s
        else if recCode r = 1 then
          (if s.step.phase == .awaitVerdict && !s.verdict.gateDue then applyGo r s else ignoreRecord r s)
        else if recCode r = 2 then (if s.step.phase.beforeGate then applySkip r s else ignoreRecord r s)
        else applyAbort r s
  let s' := if recStepOf r = s.step.step then { s' with verdict := { s'.verdict with flashPending := false } } else s'
  linksRun (e == 0 && recCode r == 3) s'

/-- A record arrives (R228). A manager passes it to its children, flashes its code and sends the record
around its ring before it acts on it. -/
def takeRecord (src : Source) (r : Line) (s : State) : State :=
  let s := takeInbox src r s
  if !working s then s
  else
    let s := if isManager s && (src == .fmp || src == .self) then
        let s := sendBelow r { s with ring := { s.ring with lastRecord := some r } }
        broadcast 0 r (flashRing (codeFlash (recCode r)) s)
      else s
    judgeRecord r s

/-! ## Flashes (R228, R415) -/

/-- A qualified code on a side: it shows, it is counted, and all but the manager forward it. Codes on a
link that is not in VERDICT, or is quarantined, are ignored (R415). DESIGN CHOICE (log 91): an ABORT code that comes in
IDLE, HALTED or NOT_READY is passed on and counted, finds no step to end, and is reported nowhere: R506 gives
PHASE_REFUSED no ARG for a flash. -/
def takeFlash (d : Side) (f : Flash) (s : State) : State :=
  if !working s || (link s d).rxPhase != .verdict then s
  else
    let s := setLink d (fun l => { l with flashIn := f }) (countHier 4 1 s)
    let s := if isManager s then s else flashSend (Side.other d) f s
    let s := { s with verdict := { s.verdict with
      flashSeen := true, lastFlash := f
      flashPending := s.verdict.flashPending || ((f == .go || f == .skip) && s.step.phase.beforeGate) } }
    if f == .abort then abortStep s else s

/-! ## Leases (R232-R235) -/

/-- The result codes of R234. -/
def leaseResult (op : Nat) (owner gen : BitVec 16) (term : Nat) (t : Nat) (l : Lease) : BitVec 8 :=
  let valid := t < l.expiry.toNat
  if op = 4 then 0
  else if op = 0 || 4 < op || owner = 0 || (op ≠ 3 && term = 0) then 5
  else if op = 1 then (if l.owner = 0 || !valid then 0 else 1)
  else if l.owner ≠ owner then 3
  else if l.gen ≠ gen then 2
  else if !valid then 4
  else 0

def leaseEffect (op : Nat) (owner : BitVec 16) (term t : Nat) (l : Lease) : Lease :=
  let expiry : Word := BitVec.ofNat 64 (t + term * 65536)
  if op = 1 then { owner := owner, gen := l.gen + 1, expiry := expiry }
  else if op = 2 then { l with expiry := expiry }
  else if op = 3 then { l with owner := 0 }
  else l

def leaseOpAddr : Addr24 := 0x010400

/-- A write of LEASE_OP (R233-R235). -/
def writeLease (w : Word) (s : State) : State :=
  let op := fieldNat w 0 3
  let i := fieldNat w 8 8
  let owner : BitVec 16 := field w 48 16
  let l := s.lease.all.getD i {}
  let r := leaseResult op owner (field w 32 16) (fieldNat w 16 16) (now s) l
  let l' := if r = 0 then leaseEffect op owner (fieldNat w 16 16) (now s) l else l
  let s := if r = 0 then s else countHier 5 1 s
  { s with lease := {
      all := s.lease.all.set i l'
      result := put 48 l'.owner ||| put 32 l'.gen ||| put 16 (field w 8 8) ||| put 8 r
      expiry := l'.expiry } }

/-! ## ROOT_LSN (R239) -/

def rootLsnAddr : Addr24 := 0x010318

def writeRootLsn (w : Word) (s : State) : State :=
  if s.step.phase == .idle then { s with verdict := { s.verdict with rootLsn := field w 0 16 } }
  else report 0x0109 (rootLsnAddr.setWidth 64) s

/-! ## LSCALE (R148-R150) -/

def lscaleAddr : Addr24 := 0x000250

/-- A write of LSCALE (R148, R149). -/
def writeLscale (w : Word) (s : State) : State :=
  if !w.getLsbD 40 then s
  else if s.step.phase != .idle then report 0x0109 (lscaleAddr.setWidth 64) s
  else
    let k : BitVec 6 := field w 32 6
    if 32 < k then report 0x010A (put 0 k) s
    else { s with lscale := { k := k, kNext := k } }

/-! ## The rows -/

/-- SEAL (R34). -/
def execSealPulse (s : State) : Out := .next (if working s then takeSeal true (wakeFromRetain s) else s)
/-- STEP_CTL_SEAL (R34). -/
def execStepCtlSeal (w : Word) (s : State) : Out := .next (ctlWrite stepCtlAddr w (writeStepCtl w) s)
/-- NORM_PASS_DONE (R207): once every tensor is read, re-reads included. -/
def execNormPassDone (s : State) : Out :=
  .next (match s.tongue.norm with
    | some p => if working s && p.cur.isNone && p.todo.isEmpty && p.reread.isEmpty then contribute s else s
    | none => s)
/-- ABORT_REQ (R28). -/
def execAbortReq (s : State) : Out := .next (if working s then raiseAbort 0x80000001 (wakeFromRetain s) else s)
/-- STEP_CTL_ABORT (R42). -/
def execStepCtlAbort (w : Word) (s : State) : Out := .next (ctlWrite stepCtlAddr w (writeStepCtl w) s)
/-- STEP_CTL_LOAD_STEP (R25). -/
def execStepCtlLoadStep (w : Word) (s : State) : Out := .next (ctlWrite stepCtlAddr w (writeStepCtl w) s)
/-- STEP_CTL_CLEAR_HALT (R28). -/
def execStepCtlClearHalt (w : Word) (s : State) : Out := .next (ctlWrite stepCtlAddr w (writeStepCtl w) s)
/-- VERDICT_RECORD_GO (R228). -/
def execVerdictRecordGo (src : Source) (m : Line) (s : State) : Out := .next (takeRecord src m s)
/-- VERDICT_RECORD_SKIP (R38). -/
def execVerdictRecordSkip (src : Source) (m : Line) (s : State) : Out := .next (takeRecord src m s)
/-- VERDICT_RECORD_ABORT (R228). -/
def execVerdictRecordAbort (src : Source) (m : Line) (s : State) : Out := .next (takeRecord src m s)
/-- FLASH_GO (R228). -/
def execFlashGo (side : Side) (s : State) : Out := .next (takeFlash side .go s)
/-- FLASH_SKIP (R228). -/
def execFlashSkip (side : Side) (s : State) : Out := .next (takeFlash side .skip s)
/-- FLASH_HOLD (R228). -/
def execFlashHold (side : Side) (s : State) : Out := .next (takeFlash side .hold s)
/-- FLASH_ABORT (R228). -/
def execFlashAbort (side : Side) (s : State) : Out := .next (takeFlash side .abort s)
/-- LEASE_ACQUIRE (R235). -/
def execLeaseAcquire (w : Word) (s : State) : Out := .next (ctlWrite leaseOpAddr w (writeLease w) s)
/-- LEASE_RENEW (R235). -/
def execLeaseRenew (w : Word) (s : State) : Out := .next (ctlWrite leaseOpAddr w (writeLease w) s)
/-- LEASE_RELEASE (R235). -/
def execLeaseRelease (w : Word) (s : State) : Out := .next (ctlWrite leaseOpAddr w (writeLease w) s)
/-- LEASE_READ (R235). -/
def execLeaseRead (w : Word) (s : State) : Out := .next (ctlWrite leaseOpAddr w (writeLease w) s)
/-- ROOT_LSN_WRITE (R239). -/
def execRootLsnWrite (w : Word) (s : State) : Out := .next (ctlWrite rootLsnAddr w (writeRootLsn w) s)
/-- LSCALE_LOAD (R149). -/
def execLscaleLoad (w : Word) (s : State) : Out := .next (ctlWrite lscaleAddr w (writeLscale w) s)

end Sys2Proof.Machine
end

