-- ==== Sys2Proof/Machine/Recover.lean ====
section
/-! DEFINITION. SWEEP_CTL: RESUME of a halted pass, and recovery from the journal (R182-R190, R194, R365). -/
namespace Sys2Proof.Machine

def sweepCtlAddr : Addr24 := 0x000478

/-- A tensor table and an SWP_BASE set are in effect. -/
def tablesIn (s : State) : Bool := s.ttab.loaded && s.swp.valid

/-- A fault whose halt RESUME continues (R183). -/
def JFault.resumes : JFault → Bool
  | .nonfinite | .codec | .noVariant | .abort => true
  | _ => false

/-- The halt came in PASS1, by the journal: PASSES 2 and PASS1_DONE 0 (R183, R185). -/
def journalInPass1 (s : State) : Bool :=
  let i := readPassInfo s
  i.1 == 2 && !i.2.1

/-- The pass that a RESUME or a RECOVER runs. -/
def passToRun (im : Image) (first : Bool) : PassKind :=
  if first then (firstPass im).getD .pass1 else .sweep

/-- The first check of R183 that fails: SWEEP_STATUS.ERR (R194). -/
def resumeErr (s : State) (forStep : BitVec 32) : BitVec 8 :=
  if s.step.phase != .halted then 1
  else if !tablesIn s then 5
  else
    let m := readMarks s
    if !m.good then 4
    else if forStep ≠ m.step then 2
    else if !m.fault.resumes then 6
    else if m.fault == .noVariant && !((activeImage s).map fun im =>
        passPlaceable s im (passToRun im (journalInPass1 s)) false).getD false then 6
    else 0

/-- The first check of R184 that fails. -/
def recoverErr (s : State) (forStep : BitVec 32) : BitVec 8 :=
  if s.step.phase != .idle && s.step.phase != .halted then 1
  else if !tablesIn s then 5
  else
    let m := readMarks s
    if !s.sweep.known || !m.good || !([1, 2, 4, 5].contains m.state) then 4
    else if s.image.active.isNone || activeTag s ≠ m.tag then 3
    else if s.step.step ≠ m.step || forStep ≠ m.step then 2
    else 0

/-! ## Classes (R186) -/

/-- A slot's TENSOR, TILE, M, W and STEP. -/
def slotTensor (x : Word) : Nat := fieldNat x 50 14
def slotTile (x : Word) : Nat := fieldNat x 16 32
def slotM (x : Word) : Bool := x.getLsbD 49
def slotW (x : Word) : Bool := x.getLsbD 48

/-- A slot names the tile, or a later one, of this step. -/
def slotNames (x : Word) (step : BitVec 32) (tensor tile : Nat) : Bool :=
  field x 0 16 == (field step 0 16 : BitVec 16) && slotTensor x == tensor && slotTile x == tile
def slotLater (x : Word) (step : BitVec 32) (tensor tile : Nat) : Bool :=
  field x 0 16 == (field step 0 16 : BitVec 16) &&
  (tensor < slotTensor x || (slotTensor x == tensor && tile < slotTile x))

/-- Every moment of the tensor's tiles is in KM8S or KM8L. -/
def allKm8 (im : Image) (r : TensorRec) : Bool :=
  (r.m1fmt == 0 || r.m1fmt == 3) && (r.m2fmt == 0 || r.m2fmt == 2 || isFactored im r)

/-- The class of a tile of the in-flight range: the first row of R186 that applies. REPLAY is `ordinary`. -/
def classify (im : Image) (m : Marks) (r : TensorRec) (slot : Word) (tensor tile : Nat) : TileClass :=
  let faulty := m.fault.tears && (m.fpos == posWord (some (tensor, tile)))
  if faulty && m.faultGroup then .tornW
  else if faulty && allKm8 im r then .tornKm8
  else if faulty then .tornM
  else if slotLater slot m.step tensor tile || (slotNames slot m.step tensor tile && slotW slot) then .done
  else if slotNames slot m.step tensor tile && slotM slot then .finish
  else .ordinary

/-- The classes of the 16 ordinals from WEIGHT_ORD on (R185). -/
def classesOf (s : State) (im : Image) (m : Marks) : List (Nat × TileClass) :=
  (List.range 16).filterMap fun i =>
    (tileAt s (m.word + i)).map fun (tensor, tile) =>
      (m.word + i, classify im m (recOf s tensor) ((readSlots s).getD ((m.word + i) % 16) 0) tensor tile)

/-- The ordinal of the tile that FAULT_POS names. -/
def faultOrd (s : State) (m : Marks) : Nat :=
  if m.fpos.getLsbD 48 then tilesTotal s else ordOf s (slotTensor m.fpos) (slotTile m.fpos)

/-! ## The pass starts again -/

/-- The sums of r' that a factored second pass takes as its accumulators, from the vectors in the stack (R141). -/
def factoredAccums (s : State) (im : Image) (step : BitVec 32) : List (Nat × BitVec 64 × BitVec 64) :=
  ((validTensors s).filter fun t => isFactored im (recOf s t)).map fun t =>
    let r := recOf s t
    let a := rowVecAddr s r (step.toNat % 2)
    let bytes := (pieceLines (a, 4 * r.rows)).flatMap fun l => lineBytes (journalView s l)
    (t, sumInOrder ((List.range r.rows).map fun i => f64OfF32 (BitVec.ofNat 32 (bytesAt bytes (4 * i) 4))), 0)

/-- PASS1 runs again from its first tile (R183, R185). -/
def rerunPass1 (im : Image) (m : Marks) (k : PassKind) (s : State) : State :=
  let s := { s with step := { s.step with phase := .pass1, released := 0 } }
  let s := setSweep (fun w => { w with
    state := .pass1, fault := .none, faultGroup := false, fpos := 0, failedLines := 0, lineSeq := m.lineSeq
    jStep := m.step, jTag := m.tag, wpos := positionOf s 0, mpos := positionOf s 0, word := 0, mord := 0, rho := []
    settle := [], settleLines := 0, passInfo := journalView s (journalLine s 0xC0) }) s
  fetchBegins (beginPass k false im (readConsts s) (recClip (readRecord s)) (readPassInfo s).2.2 0 s)

/-- The updating pass runs again from the weight mark, under what the journal holds (R183, R185). -/
def rerunSweep (im : Image) (m : Marks) (recovery : Bool) (classes : List (Nat × TileClass)) (s : State) : State :=
  let s := { s with step := { s.step with phase := .sweep, released := m.released } }
  let s := setSweep (fun w => { w with
    lineSeq := m.lineSeq, jStep := m.step, jTag := m.tag, word := m.word, mord := m.word
    wpos := positionOf s m.word, mpos := positionOf s m.word, slots := readSlots s
    passInfo := journalView s (journalLine s 0xC0)
    rho := if im.rule.pass1Path = 1 then readRho s else []
    accum := if im.rule.pass1Path = 2 then factoredAccums s im m.step else w.accum }) s
  let s := beginPass .sweep recovery im (readConsts s) (recClip (readRecord s)) (readPassInfo s).2.2 m.word s
  fetchBegins (setPass (fun p => { p with classes := classes }) s)

/-- Delta channels that are enabled and have no step open start it, LAGGING at ordinal 0 (R365). -/
def deltasAgain (m : Marks) (s : State) : State :=
  (List.range 4).foldl (fun s k =>
    if (xchan s k).openStep.isNone then deltaGate m.step m.tag k s else s) s

/-- An accepted RESUME (R183). With SKIP_TILE the tile at the weight mark is left behind. -/
def resumeSweep (skip : Bool) (im : Image) (s : State) : State :=
  let m := readMarks s
  if journalInPass1 s then writeMarks (rerunPass1 im m (passToRun im true) s)
  else
    let left := s.sweep.settle.filter fun c => m.word ≤ c.1 && !(skip && c.1 == m.word)
    let classes := if skip then (m.word, .skip) :: left else left
    let s := rerunSweep im m (left.any fun c => c.2 != .ordinary) classes s
    let s := setSweep (fun w => { w with
      state := .sweep, fault := .none, faultGroup := false, fpos := 0, failedLines := 0 }) s
    lagStartAll (releaseDue (writeMarks s))

/-- An accepted RECOVER (R185). An EMA pass that still runs is interrupted (R146). -/
def recoverSweep (im : Image) (s : State) : State :=
  let m := readMarks s
  let s := if s.aux.running then haltEma s else s
  let s := setSweep (fun w => { w with repairs := 0 }) s
  if journalInPass1 s || ((readPassInfo s).1 == 2 && m.state == 1) then
    deltasAgain m (writeMarks (rerunPass1 im m (passToRun im true) s))
  else
    let classes := classesOf s im m
    let used := if m.state == 5 then usedRepairs s else 0
    let s := if m.state == 5 then s else clearRepairs s
    let s := rerunSweep im m true classes s
    let s := setSweep (fun w => { w with
      state := .recovering, fault := m.fault, faultGroup := m.faultGroup, fpos := m.fpos, failedLines := m.failedLines
      settle := classes, settleLines := m.failedLines, logNext := used }) s
    let s := if m.fault == .none then s else setPass (fun p => { p with keepFault := some (faultOrd s m) }) s
    lagStartAll (releaseDue (writeMarks (deltasAgain m s)))

/-- An accepted RECOVER: its sweep begins at once, or once the exports that still run have ended (R354; log 90). -/
def startRecovery (im : Image) (s : State) : State :=
  let wait := s.xch.chans.any fun c => c.job.isSome
  let s := setSweep (fun w => { w with recoverWaits := wait }) s
  if wait then s else recoverSweep im s

/-- A RECOVER that waited for exports: the last of them has ended. What R184 asks for must hold then too. -/
def recoverDue (s : State) : State :=
  match activeImage s with
  | some im =>
    if s.sweep.recoverWaits && !(s.xch.chans.any fun c => c.job.isSome) then
      let e := recoverErr s (readMarks s).step
      let s := setSweep (fun w => { w with recoverWaits := false, ctlErr := e }) s
      if e = 0 then recoverSweep im s else s
    else s
  | none => s

/-- A write of SWEEP_CTL (R182-R184). RESUME's action is complete when it is accepted, so the bit never reads 1;
RECOVER reads 1 until the recovery ends (R18; log 87). -/
def writeSweepCtl (w : Word) (s : State) : State :=
  let recover := w.getLsbD 0
  let resume := w.getLsbD 1
  let skip := w.getLsbD 2
  let forStep : BitVec 32 := field w 32 32
  let err := fun (e : BitVec 8) => setSweep (fun w => { w with ctlErr := e }) s
  if (recover && resume) || (skip && !resume) then err 7
  else if !recover && !resume then s
  else
    let e := if resume then resumeErr s forStep else recoverErr s forStep
    match activeImage s with
    | some im => if e ≠ 0 then err e else if resume then resumeSweep skip im (err 0) else startRecovery im (err 0)
    | none => err e

/-- SWEEP_RESUME (R183). -/
def execSweepResume (w : Word) (s : State) : Out := .next (ctlWrite sweepCtlAddr w (writeSweepCtl w) s)
/-- SWEEP_RECOVER (R185). -/
def execSweepRecover (w : Word) (s : State) : Out := .next (ctlWrite sweepCtlAddr w (writeSweepCtl w) s)

end Sys2Proof.Machine
end

