-- ==== Sys2Proof/Machine/Fabric.lean ====
section
/-! DEFINITION. Faults of the fabric: residue faults and the drain that follows, mismatches of codecs and of
generator cores, shed ranks, the fabric's own registers (R103-R116, R380). -/
namespace Sys2Proof.Machine

def setFab (f : Fabric → Fabric) (s : State) : State := { s with fab := f s.fab }

/-- Tiles that FETCH must fetch again, by ordinal. -/
def insertRefetch (x : Nat × TileClass × Nat) : List (Nat × TileClass × Nat) → List (Nat × TileClass × Nat)
  | [] => [x]
  | y :: ys => if x.1 < y.1 then x :: y :: ys else y :: insertRefetch x ys

/-- COMMIT drops a tile, which will be fetched again: its pads are free, and those granted for a later tile (R101, R108,
R109). -/
def dropTile (t : TileSt) (misses : Nat) (s : State) : State :=
  let given := ((curPass s).map fun p => (p.granted.getD []).map (·.2)).getD []
  let s := countFab 7 1 (giveUpPads (t.pads.map (·.2) ++ given) s)
  setPass (fun p => { p with
    granted := none
    inflight := p.inflight.filter (·.ord != t.ord), rowPrep := p.rowPrep.filter (·.1 != t.ord)
    refetch := insertRefetch (t.ord, t.cls, misses) p.refetch }) s

/-- The ranks shed: 0 to 23 cells, 24 and 25 SFU. -/
def shedMask (rank : BitVec 5) : BitVec 26 := if rank.toNat < 26 then (1 : BitVec 26) <<< rank.toNat else 0

/-- Ranks are shed; NO_VARIANT follows the live counts (R114, R115). -/
def shedRanks (mask : BitVec 26) (s : State) : State :=
  let s := setFab (fun f => { f with
    rankShed := f.rankShed ||| field mask 0 24, sfuShed := f.sfuShed ||| field mask 24 2 }) s
  setFab (fun f => { f with noVariant := f.noVariant || noVariantNow s }) s

/-- Fab cycles of the drain and the variant load (R108). -/
def drainCycles : Nat := 4096

/-- A tile has a beat in the chain (R108). -/
def TileSt.inChain (t : TileSt) : Bool := t.stage == .chain && 0 < t.beatsIn

/-- The tile that a fault names, while it has beats in the chain or they drain (R108, R116). -/
def faultTile (s : State) (ord : Nat) : Option TileSt :=
  (curPass s).bind fun p => p.inflight.find? fun t => t.ord == ord && t.inChain

/-- DISCARD is set on every tile that has a beat in the chain (R97, R108). -/
def discardChain (s : State) : State :=
  setPass (fun p => { p with
    rngWait := 0, inflight := p.inflight.map fun t => if t.inChain then { t with discard := true } else t }) s

/-- COMMIT drops the tiles with DISCARD set that have left the chain (R109). -/
def dropDiscarded (s : State) : State :=
  let gone := ((curPass s).map fun p => p.inflight.filter (·.discard)).getD []
  gone.foldl (fun s t => dropTile t t.mismatches s) s

/-- A rank of the fabric fails: FAB_FAULT takes it (R111), it is shed, the chain drains, the variant for the live
ranks is loaded. A
further fault restarts the drain (R108, R116). -/
def residueFault (rank : BitVec 5) (lane : BitVec 7) (unit : BitVec 2) (t : TileSt) (s : State) : State :=
  let arg : Word := put 57 rank ||| put 50 lane ||| put 48 unit ||| putSat 34 14 t.tensor ||| putSat 0 32 t.tile
  let s := shedRanks (shedMask rank) (discardChain (setFab (fun f => { f with fault := f.fault.take (now s) arg }) s))
  let shed : Word := put 24 s.fab.sfuShed ||| put 0 s.fab.rankShed
  let s := setFab (fun f => { f with draining := true, drainUntil := s.clk.fab + drainCycles }) s
  croakSet 1 (report 0x0B01 arg (report 0x0201 shed s))

/-- The first tile that is not past the chain (R114). -/
def firstUnpast (p : Pass) : Nat :=
  ((p.inflight.filter fun t => t.stage == .fetching || t.stage == .chain || t.discard).map (·.ord) ++
    p.refetch.map (·.1)).foldl min p.next

/-- The drain and the load end: COMMIT has dropped the discarded tiles, the pass goes on with the new variant, or stops
with NO_VARIANT (R108, R114). A tile whose beats had not begun to enter enters anew. -/
def drainEnd (s : State) : State :=
  let s := dropDiscarded (setFab (fun f => { f with draining := false }) s)
  match activeImage s, curPass s with
  | some im, some p =>
    if passPlaceable s im p.kind (p.recovery || p.classes.any fun c => c.2 != .ordinary) then
      let s := setPass (fun p => { p with inflight := p.inflight.map fun t =>
        if t.stage == .chain && t.beatsIn == 0 then { t with stage := .fetching, beats := 0 } else t }) s
      if p.kind == .pass1Factored then s else chooseVariant p.graph s
    else
      let o := firstUnpast p
      let done : Bool := (p.halt.map fun h => decide (h.ord ≤ o)).getD false
      if done then s else raiseHalt { fault := .noVariant, pos := passPos s p.kind o, ord := o } s
  | _, _ => chooseVariant 0 s

/-- A fabric-only reset runs (R478): an EMA pass and a mask fill stop, the constant banks are cleared, the variant for
the live ranks is loaded. -/
def fabricResetBegin (s : State) : State :=
  let s := if s.aux.running then haltEma s else s
  let s := maskStop false s
  let s := setFab (fun f => { f with bankA := {}, bankB := {} }) s
  { s with boot := { s.boot with fabricUntil := some (s.clk.fab + drainCycles) } }

/-- It ends with the variant loaded (R478). -/
def fabricResetEnd (s : State) : State :=
  chooseVariant 0 { s with boot := { s.boot with fabricReset := false, fabricUntil := none } }

/-- The drain ends; a fabric-only reset that waited for it then runs (R479). -/
def drainDone (s : State) : State :=
  let s := drainEnd s
  if s.boot.fabricReset then fabricResetBegin s else s

/-- Reads of a tile on their way go to nobody. -/
def Who.fetches (ord : Nat) : Who → Bool
  | .fetch o _ _ => o == ord
  | _ => false

/-- The tile that a mismatch names, while its decoders or encoders still work on it. -/
def codecTile (s : State) (ord : Nat) : Option TileSt :=
  (curPass s).bind fun p => p.inflight.find? fun t =>
    t.ord == ord && !t.discard && (t.stage == .fetching || t.stage == .chain || t.stage == .past)

/-- The two copies of a decoder or an encoder differ on a tile: it is fetched once more, and dropped at once unless its
beats are in the chain; the second time the pass stops with FAULT_CODEC (R101, R110). -/
def codecMismatch (t : TileSt) (s : State) : State :=
  if t.mismatches ≠ 0 then raiseHalt { fault := .codec, pos := posWord (some (t.tensor, t.tile)), ord := t.ord } s
  else if t.inChain then setTile t.ord (fun t => { t with discard := true, mismatches := 1 }) s
  else
    let s := match curPass s with
      | some p => discardReads (Who.fetches t.ord) p s
      | none => s
    dropTile t 1 (dropReads (Who.fetches t.ord) s)

/-! ## The rank chain, cycle by cycle (R84-R90, R97-R103, R107, R126, R153, R379) -/

/-- COMMIT cannot take the tile at the end of the chain (R103, R174, R448). -/
def commitBlocked (s : State) : Bool :=
  match curPass s with
  | some p =>
    match commitTurn p with
    | some t => p.wmark + 16 ≤ t.ord || !s.evt.waiting.isEmpty
    | none => false
  | none => false

/-- The chain stands still, all of it: COMMIT cannot accept the beat at its end (R88, R379). -/
def chainFrozen (s : State) (p : Pass) : Bool := p.rngWait != 0 || commitBlocked s

/-- The chain latency of the graph that a tile runs on, in fab cycles (R90, R253). -/
def latencyOf (s : State) (g : Nat) : Nat := ((placementFor s g).map fun pl => pl.latency.toNat).getD 9

/-- D: the words that COMMIT draws for an element of a tile (R379). A FINISH encodes no moments (R156). -/
def wordsDrawn (s : State) (im : Image) (k : PassKind) (r : TensorRec) (c : TileClass) : Nat :=
  let one := fun (b : Bool) => if b then 1 else 0
  let sr := ruleSr im.rule
  match k with
  | .pass1 | .pass1Factored => 0
  | .ema | .reseed => one (sr 5 && r.emaBf16)
  | _ =>
    let moments := c != .finish
    one (sr 1 && r.wfmt != 0) + one (sr 2 && r.genfmt != 0) + one (sr 2 && r.genfmt != 0 && deltaWanted s) +
    one (moments && sr 3 && (r.m1fmt == 2 || r.m1fmt == 3)) + one (moments && sr 4 && r.m2fmt == 2 && !isFactored im r) +
    one (sr 5 && im.rule.emaMode == 1 && r.ema && r.emaBf16)

/-- A check of R107 has failed on a tile: the rank that the placement gives the operation, the element's lane in the beat
that carries it, and the unit (R86, R111). -/
def checkFailed (im : Image) (t : TileSt) (x : Nat × Nat × Nat) (s : State) : State :=
  let (g, op, elem) := x
  let o := (graphAt im.graphs g).ops.getD op { opcode := 0, dest := 0, srcA := 0, srcB := 0, srcC := 0, param := 0, station := 0 }
  let body := ((placementFor s g).map (·.body)).getD []
  residueFault (BitVec.ofNat 5 (Config.placedRank body op)) (laneOfElement (widthOf s g) elem) (unitOf o.opcode) t s

/-- The last beat of a tile enters: the decoder has read the gradient pad, and what the chain and COMMIT's encoders
make of the tile is fixed (R90, R101, R102, R107). -/
def lastBeat (im : Image) (p : Pass) (t : TileSt) (s : State) : State :=
  let g := tileGraph im p (passRec p.kind (recOf s t.tensor)) t.cls
  let out := tileOut s im p t
  let fault := tileFault s im p t
  let at0 := s.clk.fab
  let mark (b : ConstBank) : ConstBank := { b with lastBeat := some at0 }
  let s := { s with fab :=
    if t.cset then { s.fab with bankB := mark s.fab.bankB } else { s.fab with bankA := mark s.fab.bankA } }
  let done := p.chainTime + latencyOf s g
  let s := setTile t.ord (fun t => { t with out := out, exitAt := done }) s
  let s := freeSlots [1] t.ord s
  match fault with
  | some x => checkFailed im t x s
  | none => s

/-- One beat of the tile at the chain's input enters, if there is one (R86, R98). -/
def beatIn (im : Image) (p : Pass) (s : State) : Bool × State :=
  match p.inflight.find? fun t => t.stage == .chain && t.beatsIn < t.beats with
  | some t =>
    let s := setTile t.ord (fun t => { t with beatsIn := t.beatsIn + 1 }) s
    (true, if t.beatsIn + 1 = t.beats then lastBeat im p { t with beatsIn := t.beatsIn + 1 } s else s)
  | none => (false, s)

/-- A tile whose last beat has reached COMMIT leaves the chain: the encoders write its pads, and the words that they draw
beyond 256 a beat hold the chain up; with DISCARD set it is dropped (R97, R100, R109, R379). -/
def leaveChain (im : Image) (p : Pass) (t : TileSt) (s : State) : State :=
  if t.discard then dropTile t t.mismatches s
  else
    let d := wordsDrawn s im p.kind (passRec p.kind (recOf s t.tensor)) t.cls
    let s := storeOut t t.out (setTile t.ord (fun t => { t with stage := .past }) s)
    setPass (fun p => { p with rngWait := p.rngWait + (ceilDiv (d * t.out.n) 256 - t.beats) }) s

/-- The tiles that leave the chain at its present time. -/
def leaveAll (im : Image) (s : State) : State :=
  match curPass s with
  | some p =>
    let out := p.inflight.filter fun t => t.stage == .chain && t.beats ≤ t.beatsIn && t.exitAt ≤ p.chainTime
    out.foldl (fun s t => leaveChain im p t s) s
  | none => s

/-- The row programs that the preparer works on: the first tile with its stamps in hand that has not its rows' values
(R154). -/
def rowDue (s : State) (im : Image) (p : Pass) : Option TileSt :=
  (p.inflight.find? fun t => t.stage == .fetching && !(p.rowPrep.any fun x => x.1 == t.ord && x.2 == 0)).filter fun t =>
    t.missing == 0 && rowCost s im p t != 0

/-- The tensor whose beats enter next, in the walk. -/
def chainTensor (s : State) (p : Pass) : Nat :=
  match p.inflight.find? fun t => t.stage == .fetching with
  | some t => walkIndex s p.kind t.tensor
  | none => ((passTile s p.kind p.next).map fun x => walkIndex s p.kind x.1).getD 0

/-- One operation of the preparer: for the rows of a tile, else for the next tensor, up to 4 ahead (R126, R154). -/
def prepareCycle (s : State) : State :=
  match activeImage s, curPass s with
  | some im, some p =>
    match rowDue s im p with
    | some t =>
      let left := ((p.rowPrep.find? (·.1 == t.ord)).map (·.2)).getD (rowCost s im p t)
      setPass (fun p => { p with rowPrep := (t.ord, left - 1) :: p.rowPrep.filter (·.1 != t.ord) }) s
    | none =>
      if chainTensor s p + 4 < p.prepNext then s
      else if 1 < p.prepLeft then setPass (fun p => { p with prepLeft := p.prepLeft - 1 }) s
      else setPass (fun p => { p with prepNext := p.prepNext + 1, prepLeft := prepCost s im p (p.prepNext + 1) }) s
  | _, _ => s

/-- The next tile has its operands and waits for constants: for the preparer, its bank, or the switch of graphs
(R102, R126, R153). -/
def waitsConstants (s : State) (im : Image) (p : Pass) : Bool :=
  match nextTile p with
  | some t => !t.cls.passes && vectorsIn s im p t.tensor &&
      (!constsReady s im p t || !bankReady s t || (switchDue p (recOf s t.tensor) && p.switching != some 0))
  | none => false

/-- The cause of a fab cycle's loss, the first of R103's table that applies; `beat` says that a beat of the pass or of a
fill entered. A fill's cycle without a beat counts as FETCH_STARVED (log 19). -/
def fabCause (s : State) (beat : Bool) : Nat :=
  if s.fab.draining then 6
  else if s.mem.thermal.paused then 5
  else if beat then 0
  else match activeImage s, curPass s with
    | some im, some p =>
      if chainFrozen s p then 2
      else if waitsConstants s im p then 4
      else if (fetchAsks s).isSome then 3
      else 1
    | _, _ => 1

/-- The rank chain's cycle: frozen, or one beat in and what has come through out (R88). -/
def chainCycle (s : State) : Bool × State :=
  match activeImage s, curPass s with
  | some im, some p =>
    if p.kind == .pass1Factored || s.fab.draining || !working s then (false, s)
    else if chainFrozen s p then
      (false, if p.rngWait != 0 then countRng 4 1 (setPass (fun p => { p with rngWait := p.rngWait - 1 }) s) else s)
    else
      let p := { p with chainTime := p.chainTime + 1 }
      let s := setPass (fun p => { p with
        chainTime := p.chainTime + 1, switching := p.switching.map (· - 1) }) s
      let (beat, s) := beatIn im p s
      (beat, leaveAll im s)
  | _, _ => (false, s)

/-- A mismatch between the two copies of a generator core (R380). -/
def genFault (s : State) : State :=
  countRng 3 1 { s with rng := { s.rng with genFault := true, genFaultAt := now s } }

def fabShedAddr : Addr24 := 0x040008
def fabCtlAddr : Addr24 := 0x040018

/-- A write of FAB_SHED (R115). -/
def writeFabShed (w : Word) (s : State) : State :=
  let bits : BitVec 26 := field w 0 26
  let old : BitVec 26 := s.fab.sfuShed ++ s.fab.rankShed
  if bits = 0 then s
  else if fabRunning s then report 0x0202 (put 0 bits) s
  else if bits &&& ~~~old = 0 then s
  else
    let s := shedRanks bits s
    croakSet 1 (report 0x0201 (putBit 32 true ||| put 24 s.fab.sfuShed ||| put 0 s.fab.rankShed) (chooseVariant 0 s))

/-- A write of FAB_CTL: the counters keep what this ctrl cycle counts (R105, R518). -/
def writeFabCtl (w : Word) (s : State) : State :=
  if w.getLsbD 0 then
    setFab (fun f => { f with cnt := if f.cntAt = now s then f.cntNow else List.replicate 8 {} }) s
  else s

/-! ## The rows -/

/-- RESIDUE_FAULT (R108). -/
def execResidueFault (rank : BitVec 5) (lane : BitVec 7) (unit : BitVec 2) (ord : BitVec 32) (s : State) : Out :=
  .next (match faultTile s ord.toNat with
    | some t => if working s then residueFault rank lane unit t s else s
    | none => s)
/-- SHED_DRAIN_DONE (R108). -/
def execShedDrainDone (s : State) : Out :=
  .next (if working s && s.fab.draining && s.fab.drainUntil ≤ s.clk.fab then drainDone s else s)
/-- CODEC_MISMATCH (R110). -/
def execCodecMismatch (ord : BitVec 32) (s : State) : Out :=
  .next (match codecTile s ord.toNat with
    | some t => if working s then codecMismatch t s else s
    | none => s)
/-- GEN_MISMATCH (R380). -/
def execGenMismatch (mask : Bool) (ord : BitVec 32) (s : State) : Out :=
  .next (if !working s then s
    else if mask then (if s.rng.mask.run.isSome then maskMismatch (genFault s) else s)
    else match codecTile s ord.toNat with
      | some t => codecMismatch t (genFault s)
      | none => s)
/-- FAB_SHED_WRITE (R115). -/
def execFabShedWrite (w : Word) (s : State) : Out := .next (ctlWrite fabShedAddr w (writeFabShed w) s)
/-- FAB_CNT_CLEAR (R105). -/
def execFabCntClear (w : Word) (s : State) : Out := .next (ctlWrite fabCtlAddr w (writeFabCtl w) s)

end Sys2Proof.Machine
end

