-- ==== Sys2Proof/Machine/Streams.lean ====
section
/-! DEFINITION. The stream engine: descriptors, tasks, bursts, completion, faults (R318-R352). -/
namespace Sys2Proof.Machine

/-! ## Descriptors (R319) -/

def descOwn (d : Line) : Bool := d.getLsbD 63
def descChain (d : Line) : Bool := d.getLsbD 62
def descSwap (d : Line) : BitVec 2 := field d 60 2
def descSrcKind (d : Line) : Nat := fieldNat d 57 3
def descDstKind (d : Line) : Nat := fieldNat d 54 3
def descSrcFixed (d : Line) : Bool := d.getLsbD 53
def descDstFixed (d : Line) : Bool := d.getLsbD 52
def descTaskId (d : Line) : BitVec 32 := field d 0 32
def descSrc (d : Line) : Word := field d 64 64
def descDst (d : Line) : Word := field d 128 64
def descLen (d : Line) : Nat := fieldNat d 192 32
def descDeadline (d : Line) : Word := field d 256 64

/-- The descriptor as it is written back: OWN is 0 (R320). -/
def descDone (d : Line) : Line := d &&& ~~~((1 : Line) <<< 63)

/-- ALIGN, R322. -/
def descAlignBad (d : Line) : Bool :=
  ((descSrcKind d == 0 || descSrcKind d == 1) && fieldNat (descSrc d) 0 6 != 0) ||
  ((descDstKind d == 0 || descDstKind d == 1) && fieldNat (descDst d) 0 6 != 0) || descLen d % 64 != 0

/-- The bytes a side of a descriptor covers: one line where its address is fixed (R325). -/
def descExtent (d : Line) (fixed : Bool) : Nat := if fixed then 64 else descLen d

/-- The stack address of a side: bits 39:0 (R319). -/
def stackAddr (a : Word) : Nat := fieldNat a 0 40

/-- RANGE, R322. -/
def descRangeBad (s : State) (d : Line) : Bool :=
  let top := s.mem.stackGib.toNat * 2 ^ 30
  (descSrcKind d == 0 && top < stackAddr (descSrc d) + descExtent d (descSrcFixed d)) ||
  (descDstKind d == 0 && top < stackAddr (descDst d) + descExtent d (descDstFixed d)) ||
  (descSrcKind d == 1 && 2 ^ 64 < (descSrc d).toNat + descExtent d (descSrcFixed d)) ||
  (descDstKind d == 1 && 2 ^ 64 < (descDst d).toNat + descExtent d (descDstFixed d))

/-- FORMAT, R322: unused kinds, FIXED on a queue or the zero source, queue numbers, reserved fields and
unused address bits. -/
def descFormatBad (d : Line) : Bool :=
  3 < descSrcKind d || 2 < descDstKind d ||
  (descSrcFixed d && (descSrcKind d == 2 || descSrcKind d == 3)) || (descDstFixed d && descDstKind d == 2) ||
  (descSrcKind d == 2 && 15 < (descSrc d).toNat) || (descDstKind d == 2 && 15 < (descDst d).toNat) ||
  (descSrcKind d == 3 && (descSrc d).toNat != 0) ||
  (descSrcKind d == 0 && 2 ^ 40 ≤ (descSrc d).toNat) || (descDstKind d == 0 && 2 ^ 40 ≤ (descDst d).toNat) ||
  fieldNat d 32 20 != 0 || fieldNat d 224 32 != 0 || fieldNat d 320 192 != 0

/-- The queue that a side of a descriptor names. -/
def descSrcQueue (d : Line) : Option Nat := if descSrcKind d = 2 then some ((descSrc d).toNat % 16) else none
def descDstQueue (d : Line) : Option Nat := if descDstKind d = 2 then some ((descDst d).toNat % 16) else none

/-! ## Tasks and their streams (R323) -/

def taskLens (t : Task) : List Nat := t.descs.map descLen
def taskTotal (t : Task) : Nat := (taskLens t).sum
def taskFirst (t : Task) : Line := t.descs.headD 0
def taskId (t : Task) : BitVec 32 := descTaskId (taskFirst t)
def taskDeadline (t : Task) : Nat := (descDeadline (taskFirst t)).toNat
def taskSrcQueue (t : Task) : Option Nat := descSrcQueue (taskFirst t)
def taskDstQueue (t : Task) : Option Nat := descDstQueue (taskFirst t)

/-- The descriptor that holds a stream offset, and the offset within it. -/
def locate : List Nat → Nat → Nat × Nat
  | [], o => (0, o)
  | l :: ls, o => if o < l then (0, o) else let (i, r) := locate ls (o - l); (i + 1, r)

def taskDesc (t : Task) (o : Nat) : Line := t.descs.getD (locate (taskLens t) o).1 0

/-- The line address (in lines) of a stream offset on the source and on the destination side (R325). -/
def srcLineAt (t : Task) (o : Nat) : Nat :=
  let d := taskDesc t o
  (descSrc d).toNat / 64 + (if descSrcFixed d then 0 else (locate (taskLens t) o).2 / 64)
def dstLineAt (t : Task) (o : Nat) : Nat :=
  let d := taskDesc t o
  (descDst d).toNat / 64 + (if descDstFixed d then 0 else (locate (taskLens t) o).2 / 64)

/-- The address by which bursts are cut: the stack side's, else the source's (R323). For a stack to
stack move each direction is cut by its own side. -/
def burstAddr (t : Task) (write : Bool) (o : Nat) : Nat :=
  let d := taskDesc t o
  if write then
    (if descDstKind d = 0 then dstLineAt t o else if descSrcKind d = 0 then srcLineAt t o
     else if descSrcKind d = 1 then srcLineAt t o else o / 64)
  else
    (if descSrcKind d = 0 then srcLineAt t o else if descDstKind d = 0 then dstLineAt t o else srcLineAt t o)

/-- The kind of a side at a stream offset. -/
def kindAt (t : Task) (write : Bool) (o : Nat) : Nat :=
  if write then descDstKind (taskDesc t o) else descSrcKind (taskDesc t o)

/-- How many lines from `o` on, of at most n, lie in the aligned 2 KiB block of the first and go the same way (R323). -/
def burstLen (t : Task) (write : Bool) (o : Nat) (n : Nat) : Nat :=
  ((List.range (min n 32)).takeWhile fun k =>
    kindAt t write (o + 64 * k) == kindAt t write o &&
    burstAddr t write (o + 64 * k) / 32 == burstAddr t write o / 32).length

def pieceLen (p : Piece) : Nat := p.bytes / 64

/-- SWAP on a line (R325): byte k of the result is byte k xor m of the line. -/
def swapLine (swap : BitVec 2) (l : Line) : Line :=
  let m : Nat := if swap = 1 then 1 else if swap = 2 then 3 else if swap = 3 then 2 else 0
  if m = 0 then l
  else (List.range 64).foldl (fun (a : Line) k =>
    a ||| putLine k (l.extractLsb' (8 * (k ^^^ m)) 8)) 0

/-- Line k of a piece as it reaches the destination (R325). -/
def pieceOut (s : State) (t : Task) (p : Piece) (k : Nat) : Line :=
  match p.handle with
  | some h => swapLine (descSwap (taskDesc t (p.start + 64 * k))) (padLine s h k)
  | none => 0

/-- The descriptor within the task whose pieces are being written (R329). -/
def taskCurrent (t : Task) : Nat :=
  ((List.range t.descs.length).find? fun i => t.written.getD i 0 < (taskLens t).getD i 0).getD t.descs.length

/-- The descriptor within the task that a fault without a line of its own names (R348). -/
def taskDescNow (t : Task) : Nat := min (taskCurrent t) (t.descs.length - 1)

/-- DESC_DONE (R348). -/
def taskDescsDone (t : Task) : Nat :=
  ((List.range t.descs.length).filter fun i => (taskLens t).getD i 0 ≤ t.written.getD i 0).length

/-- Bursts granted and not complete. -/
def taskInFlight (t : Task) : Nat := (t.pieces.map fun p => p.bursts.countP fun b => 0 < b.left).sum

/-- The pads a task holds. -/
def taskPads (t : Task) : List (BitVec 16) := t.pieces.filterMap (·.handle)

def setTask (n : Nat) (f : Task → Task) (s : State) : State :=
  setChan n (fun c => { c with task := c.task.map f }) s
def setPiece (n i : Nat) (f : Piece → Piece) (s : State) : State :=
  setTask n (fun t => { t with pieces := t.pieces.map fun p => if p.index = i then f p else p }) s

/-- The stream channel, if any, whose started task produces into, or consumes from, a queue (R338). -/
def queueProducer (s : State) (q : Nat) : Option Nat :=
  (List.range 16).find? fun n => match (chan s n).task with
    | some t => taskDstQueue t == some q
    | none => false
def queueConsumer (s : State) (q : Nat) : Option Nat :=
  (List.range 16).find? fun n => match (chan s n).task with
    | some t => taskSrcQueue t == some q
    | none => false

/-! ## Fetching and validating (R321, R322) -/

/-- Issues the control reads of the aligned group that holds the next descriptor not yet held, if
there is one below TAIL and no fetch is under way (R321). -/
def fetchMore (n : Nat) (s : State) : State :=
  let c := chan s n
  let size := 2 ^ c.eff.sizeLog2.toNat
  let next := (c.head + c.fetched.length) % size
  if 0 < c.fetchDue || c.fetched.length ≥ 64 || next == c.tail then s
  else
    let g := next / 8 * 8
    let s := setChan n (fun c => { c with fetchDue := 8, fetchTail := c.tail, fetchGot := [] }) s
    enqueueAll ((List.range 8).map fun i =>
      controlRead (.desc n (g + i)) (BitVec.ofNat 34 (c.eff.base.toNat * 8 + g + i))) s

def Who.isDesc (n : Nat) : Who → Bool
  | .desc m _ => m == n
  | _ => false

/-- Descriptor reads on their way and descriptors held are given up: what is still to run is fetched again (R321, R329). -/
def dropFetch (n : Nat) (s : State) : State :=
  dropReads (Who.isDesc n) (setChan n (fun c => { c with
    fetched := [], fetchDue := 0, fetchGot := [], fetchFailed := false }) s)

/-- Where a channel with no task goes: it fetches what lies between HEAD and TAIL, or is IDLE (R318). -/
def fetchOrIdle (n : Nat) (s : State) : State :=
  let c := chan s n
  if c.head = c.tail then setChan n (fun c => { c with state := .idle }) s
  else fetchMore n (setChan n (fun c => { c with state := .fetching }) s)

/-- A rejected task (R322): nothing moves, HEAD stays. -/
def rejectTask (n : Nat) (code : BitVec 8) (desc : Nat) (addr : Word) (id : BitVec 32) (s : State) : State :=
  let s := setChan n (fun c => { c with
    state := .rejected, faultTask := id, faultCode := code, faultDesc := BitVec.ofNat 8 desc, faultAddr := addr
    fetched := [] }) s
  report 0x0701 (put 32 id ||| putSat 8 4 n ||| put 0 code) (countStrm 1 1 s)

/-- The index of the first descriptor that fails a check. -/
def firstBad (ds : List Line) (p : Line → Bool) : Option Nat := ds.findIdx? p

/-- The first check of R322 that a chain fails, in the order of its table: code and descriptor. -/
def chainFault (s : State) (n : Nat) (ds : List Line) : Option (BitVec 8 × Nat) :=
  match firstBad ds (fun d => !descOwn d) with
  | some i => some (0x05, i)
  | none =>
  match firstBad ds descAlignBad with
  | some i => some (0x01, i)
  | none =>
  match firstBad ds (fun d => descLen d == 0) with
  | some i => some (0x02, i)
  | none =>
  match firstBad ds (descRangeBad s) with
  | some i => some (0x03, i)
  | none =>
  match firstBad ds descFormatBad with
  | some i => some (0x04, i)
  | none =>
  match firstBad ds (fun d => descSrcQueue d != descSrcQueue (ds.headD 0) ||
      descDstQueue d != descDstQueue (ds.headD 0)) with
  | some i => some (0x07, i)
  | none =>
  let busySrc := match descSrcQueue (ds.headD 0) with
    | some q => (queueConsumer s q).isSome && queueConsumer s q != some n
    | none => false
  let busyDst := match descDstQueue (ds.headD 0) with
    | some q => (queueProducer s q).isSome && queueProducer s q != some n
    | none => false
  if busySrc || busyDst then some (0x08, 0) else none

/-- Starts a validated task under the next SEQ (R322, R332). -/
def startTask (n : Nat) (ds : List Line) (s : State) : State :=
  setChan n (fun c =>
    let dl := (descDeadline (ds.headD 0)).toNat
    { c with
      state := .running, seq := c.seq + 1, fetched := c.fetched.drop ds.length, missed := false
      urgent := false
      task := some { descs := ds, head := c.head, seq := c.seq + 1, written := ds.map fun _ => 0
                     progress := now s, late := dl != 0 && dl < now s } }) s

/-- What the channel does once the descriptors it asked for have come (R321, R322). -/
def afterFetch (n : Nat) (s : State) : State :=
  let c := chan s n
  if c.fetchFailed then
    let size := 2 ^ c.eff.sizeLog2.toNat
    rejectTask n 0x09 ((c.fetchBad + size - c.head) % size) (BitVec.ofNat 64 (64 * (c.eff.base.toNat * 8 + c.fetchBad))) 0
      (setChan n (fun c => { c with fetchFailed := false, fetchGot := [] }) s)
  else
    let size := 2 ^ c.eff.sizeLog2.toNat
    -- the descriptors of the group that lie below the TAIL of the fetch, in ring order
    let rec take (k : Nat) (i : Nat) : List Line :=
      match k with
      | 0 => []
      | k + 1 =>
        if i = c.fetchTail then []
        else match c.fetchGot.find? (·.1 == i) with
          | some (_, d) => d :: take k ((i + 1) % size)
          | none => []
    -- the buffer holds 64; what does not fit is fetched again
    let got := take (min 8 (64 - c.fetched.length)) ((c.head + c.fetched.length) % size)
    let fetched := c.fetched ++ got
    let s := setChan n (fun c => { c with fetched := fetched, fetchGot := [] }) s
    match fetched.findIdx? fun d => !descChain d || !descOwn d with
    | some i =>
      let ds := fetched.take (i + 1)
      match chainFault s n ds with
      | some (code, k) => rejectTask n code k 0 (descTaskId (ds.headD 0)) s
      | none => startTask n ds s
    | none =>
      if 64 ≤ fetched.length then rejectTask n 0x06 64 0 (descTaskId (fetched.headD 0)) s
      else fetchMore n s

/-! ## Ending a task (R327, R330, R331) -/

/-- The task's ABORT entry (R339). -/
def abortEntry (n : Nat) (t : Task) : PqEntry :=
  { chan := BitVec.ofNat 4 n, abort := true, piece := BitVec.ofNat 32 t.pushed, seq := t.seq
    taskId := taskId t, bytes := 0, first := false, last := true, handle := 0
    deadline := descDeadline (taskFirst t) }

/-- Steps 5 and 6 of R331 with the pads already free. -/
def latchFault (n : Nat) (code desc : BitVec 8) (addr : Word) (id : BitVec 32) (s : State) : State :=
  let s := setChan n (fun c => { c with
    state := .faulted, faultTask := id, faultCode := code, faultDesc := desc, faultAddr := addr
    task := none, urgent := false, stopAfter := false }) (dropFetch n s)
  let s := report 0x0702 (put 32 id ||| putSat 8 4 n ||| put 0 code) s
  pulse (BitVec.ofNat 6 (32 + n)) (countStrm 2 1 s)

/-- Ends a faulted task once its granted bursts are complete and its ABORT entry has room (R331). -/
def settleEnding (n : Nat) (s : State) : State :=
  match (chan s n).task with
  | some t =>
    match t.stage with
    | .ending code desc addr =>
      if 0 < taskInFlight t then s
      else
        let s' := padFreeAll (taskPads t) (ownerChan n) s
        let s' := setTask n (fun t => { t with pieces := [] }) s'
        match taskDstQueue t with
        | some q =>
          if (queue s' q).entries.length < 64 then
            latchFault n code desc addr (taskId t) (queuePush q (abortEntry n t) s')
          else s'
        | none => latchFault n code desc addr (taskId t) s'
    | _ => s
  | none => s

/-- A fault of a task in a descriptor, at an address (R331, R348), unless one already ends it. -/
def taskFault (n : Nat) (code : BitVec 8) (desc : Nat) (addr : Word) (s : State) : State :=
  match (chan s n).task with
  | some t =>
    match t.stage with
    | .ending _ _ _ => s
    | _ => settleEnding n (setTask n (fun t => { t with
        stage := .ending code (BitVec.ofNat 8 desc) addr }) s)
  | none => s

/-- A fault that concerns no line (R331, R348). -/
def abortTask (n : Nat) (code : BitVec 8) (s : State) : State :=
  match (chan s n).task with
  | some t => taskFault n code (taskDescNow t) 0 s
  | none => s

/-- The task's last destination line (R327). -/
def taskLastDst (t : Task) : Nat := dstLineAt t (taskTotal t - 64)

/-- Issues the read-back of step 2 of R327; a far one waits for the far port. -/
def issueReadback (n : Nat) (second : Bool) (s : State) : State :=
  match (chan s n).task with
  | some t =>
    if descDstKind (taskDesc t (taskTotal t - 64)) = 0 then
      enqueue { who := .readback n, cls := .stream, write := false
                line := BitVec.ofNat 34 (taskLastDst t) }
        (setTask n (fun t => { t with stage := .readback second true }) s)
    else setTask n (fun t => { t with stage := .readback second false }) s
  | none => s

/-- The write-back of the next descriptor in ring order (R320, R327). -/
def issueWriteback (n : Nat) (s : State) : State :=
  let c := chan s n
  match c.task with
  | some t =>
    match t.stage with
    | .writeback (k + 1) =>
      let i := t.descs.length - (k + 1)
      let slot := (t.head + i) % 2 ^ c.eff.sizeLog2.toNat
      enqueue (controlWrite (.descBack n i) (BitVec.ofNat 34 (c.eff.base.toNat * 8 + slot))
        (descDone (t.descs.getD i 0))) s
    | _ => s
  | none => s

def beginWriteback (n : Nat) (s : State) : State :=
  issueWriteback n (setTask n (fun t => { t with stage := .writeback t.descs.length }) s)

/-- Every piece of the task has been written or pushed (R327). -/
def taskThrough (t : Task) : Bool := t.stage = .run && t.pieces.isEmpty && t.cut == taskTotal t

/-- The task's completion begins once every piece is through (R327); a stopped one waits for RESUME (R329). -/
def afterPiece (n : Nat) (s : State) : State :=
  match (chan s n).task with
  | some t =>
    if taskThrough t && (chan s n).state != .stopped then
      (if (taskDstQueue t).isSome then beginWriteback n s else issueReadback n false s)
    else s
  | none => s

/-- In STOPPING, every piece of the current descriptor is written: STOPPED, unless it was the task's last (R329). -/
def settleStop (before : Nat) (n : Nat) (s : State) : State :=
  match (chan s n).task with
  | some t =>
    if (chan s n).state = .stopping && !(chan s n).stopAfter && before < taskCurrent t then
      setChan n (fun c => { c with state := .stopped }) s
    else s
  | none => s

/-- The read-back as it came: compared, asked again once, or READBACK (R327). -/
def readbackDone (n : Nat) (data : Option Line) (code : BitVec 8) (s : State) : State :=
  match (chan s n).task with
  | some t =>
    match t.stage with
    | .readback second _ =>
      (match data with
       | some l =>
         if l = t.lastLine then beginWriteback n s
         else if second then taskFault n 0x13 (t.descs.length - 1) (BitVec.ofNat 64 (64 * taskLastDst t)) s
         else issueReadback n true s
       | none => taskFault n code (t.descs.length - 1) (BitVec.ofNat 64 (64 * taskLastDst t)) s)
    | _ => s
  | none => s

/-- A descriptor write-back has been accepted, or has failed fatally (R320, R331). -/
def descBackDone (n : Nat) (ok : Bool) (s : State) : State :=
  match (chan s n).task with
  | some t =>
    match t.stage with
    | .writeback (k + 1) =>
      if ok then issueWriteback n (setTask n (fun t => { t with stage := .writeback k, backAt := now s }) s)
      else taskFault n 0x18 (t.descs.length - (k + 1)) (BitVec.ofNat 64 (64 * ((chan s n).eff.base.toNat * 8 +
        (t.head + (t.descs.length - (k + 1))) % 2 ^ (chan s n).eff.sizeLog2.toNat))) s
    | _ => s
  | none => s

/-- One line of a burst has come to its end. -/
def burstLineDone (write : Bool) (k : Nat) (p : Piece) : Piece :=
  { p with
    bursts := (p.bursts.map fun b =>
      if b.write == write && b.first ≤ k && k < b.first + b.len then { b with left := b.left - 1 } else b).filter
        (fun b => 0 < b.left)
    readDone := if write then p.readDone else p.readDone + 1
    writeDone := if write then p.writeDone + 1 else p.writeDone }

/-- A data read of a task returns: kept in its pad, dropped in an ending task, or a fault (R323, R331). -/
def streamReadDone (n i k : Nat) (data : Option Line) (code : BitVec 8) (s : State) : State :=
  match (chan s n).task with
  | some t =>
    match t.pieces.find? (·.index == i) with
    | some p =>
      let s' := setPiece n i (burstLineDone false k) s
      (match t.stage with
       | .ending _ _ _ => settleEnding n s'
       | _ => match data with
         | some l => (match p.handle with
             | some h => padStore h k l s'
             | none => s')
         | none => taskFault n code (locate (taskLens t) (p.start + 64 * k)).1
           (BitVec.ofNat 64 (64 * srcLineAt t (p.start + 64 * k))) s')
    | none => s
  | none => s

/-- A data write of a task has passed its NAK cycle or been acknowledged, or has failed (R323, R331). -/
def streamWriteDone (n i k : Nat) (ok : Bool) (code : BitVec 8) (s : State) : State :=
  match (chan s n).task with
  | some t =>
    match t.pieces.find? (·.index == i) with
    | some p =>
      let s' := setPiece n i (burstLineDone true k) s
      let s' := if ok then countStrm 9 1 s' else s'
      (match t.stage with
       | .ending _ _ _ => settleEnding n s'
       | _ => if ok then s'
         else taskFault n code (locate (taskLens t) (p.start + 64 * k)).1
           (BitVec.ofNat 64 (64 * dstLineAt t (p.start + 64 * k))) s')
    | none => s
  | none => s

/-- A descriptor read returns (R321, R322). -/
def descReadDone (n i : Nat) (data : Option Line) (s : State) : State :=
  setChan n (fun c => match data with
    | some l => { c with fetchDue := c.fetchDue - 1, fetchGot := (i, l) :: c.fetchGot.filter (·.1 != i) }
    | none => { c with
        fetchDue := c.fetchDue - 1, fetchFailed := true, fetchBad := if c.fetchFailed then c.fetchBad else i }) s

/-! ## Grants (R324, R326, R343) -/

/-- The stream engine may move data: usable, not in FATAL, no warm reset (R476, R481, R510). -/
def streamsGo (s : State) : Bool := working s && s.power.usable

/-- A piece may still be granted bursts under the channel's STATE (R329, R330). -/
def pieceOpen (c : StreamCh) (t : Task) (p : Piece) : Bool :=
  t.stage = .run && (c.state = .running || (c.state = .stopping && (locate (taskLens t) p.start).1 ≤ taskCurrent t))

/-- The piece whose next read burst the channel would issue from this kind of source. -/
def readPiece (c : StreamCh) (kind : Nat) : Option Piece :=
  match c.task with
  | some t => t.pieces.find? fun p =>
      pieceOpen c t p && p.handle.isSome && p.readNext < pieceLen p &&
      kindAt t false (p.start + 64 * p.readNext) == kind
  | none => none

/-- The piece may write its next line: lines to one fixed address go in order (R325). -/
def writeTurn (t : Task) (p : Piece) : Bool :=
  !descDstFixed (taskDesc t (p.start + 64 * p.writeNext)) ||
  t.pieces.all fun q => p.index ≤ q.index || q.writeNext == pieceLen q

/-- The piece whose next write burst the channel would issue to this kind of destination. -/
def writePiece (c : StreamCh) (kind : Nat) : Option Piece :=
  match c.task with
  | some t => t.pieces.find? fun p =>
      pieceOpen c t p && p.readDone == pieceLen p && p.writeNext < pieceLen p && writeTurn t p &&
      kindAt t true (p.start + 64 * p.writeNext) == kind
  | none => none

/-- The number of an issue stream, and what it moves (R324). -/
def issueIndex : IssueStream → Nat
  | .stackRead => 0 | .stackWrite => 1 | .farRead => 2 | .farWrite => 3
def issueWrite : IssueStream → Bool
  | .stackRead => false | .stackWrite => true | .farRead => false | .farWrite => true
def issueKind : IssueStream → Nat
  | .stackRead => 0 | .stackWrite => 0 | .farRead => 1 | .farWrite => 1

/-- The piece a channel is ready with on an issue stream. -/
def readyPiece (q : IssueStream) (c : StreamCh) : Option Piece :=
  if issueWrite q then writePiece c (issueKind q) else readPiece c (issueKind q)

/-- The pads a stream channel asks the pond for: one for its next piece (R323, R338). -/
def streamWants (s : State) (n : Nat) : Bool :=
  let c := chan s n
  match c.task with
  | some t =>
    let d := taskDesc t t.cut
    t.stage = .run && t.cut < taskTotal t &&
    (c.state = .running || (c.state = .stopping && (locate (taskLens t) t.cut).1 ≤ taskCurrent t)) &&
    (descSrcKind d == 0 || descSrcKind d == 1 || (descSrcKind d == 3 && descDstKind d == 2)) &&
    (match taskDstQueue t with
     | some q => (queue s q).entries.length + t.pieces.length < 64
     | none => true)
  | none => false

/-- The channel's next piece, a read from this kind of source, can be given a pad now (R324). -/
def padNear (s : State) (q : IssueStream) (n : Nat) : Bool :=
  match (chan s n).task with
  | some t => !issueWrite q && streamWants s n && kindAt t false t.cut == issueKind q && grantAllowed s (n + 1) 1
  | none => false

/-- A channel is ready on an issue stream: with a piece it holds, or with one that can be given its pad (R324). -/
def chanReady (s : State) (q : IssueStream) (n : Nat) : Bool := (readyPiece q (chan s n)).isSome || padNear s q n

/-- The channel granted next: urgent, then starving, then by PRIO with rotation (R324). A channel whose next piece has
still to be given its pad is granted when it has it. -/
def pickChannel (s : State) (q : IssueStream) : Option Nat :=
  let last := s.strm.last.getD (issueIndex q) 15
  let order := (List.range 16).map fun i => (last + 1 + i) % 16
  let ready := order.filter fun n => chanReady s q n
  match ready.find? fun n => (chan s n).urgent with
  | some n => some n
  | none =>
    match ready.find? fun n => 16 ≤ (chan s n).passed.getD (issueIndex q) 0 with
    | some n => some n
    | none =>
      let best := ready.foldl (fun m n => max m (chan s n).eff.prio.toNat) 0
      ready.find? fun n => (chan s n).eff.prio.toNat == best

/-- A line of the stream's last burst on a stack issue stream still waits in arbitration, or its burst
still waits for the far port: the next burst is not granted yet (R324). -/
def issueBusy (s : State) : IssueStream → Bool
  | .stackRead => s.mem.waiting.any fun w => match w.req.who with
      | .stream _ _ _ => !w.req.write
      | _ => false
  | .stackWrite => s.mem.waiting.any fun w => match w.req.who with
      | .stream _ _ _ => w.req.write
      | _ => false
  | .farRead => s.strm.farRead.isSome
  | .farWrite => s.strm.farWrite.isSome

/-- Grants the burst: its lines enter the memory path, or the burst waits for the far port (R324, R326). -/
def grantBurst (q : IssueStream) (n : Nat) (t : Task) (p : Piece) (s : State) : State :=
  let wr := issueWrite q
  let first := if wr then p.writeNext else p.readNext
  let len := burstLen t wr (p.start + 64 * first) (pieceLen p - first)
  let s := setPiece n p.index (fun p => { p with
    readNext := if wr then p.readNext else first + len
    writeNext := if wr then first + len else p.writeNext
    bursts := p.bursts ++ [{ write := wr, first := first, len := len, left := len }] }) s
  let s := setTask n (fun t => { t with progress := now s }) s
  match q with
  | .stackRead => enqueueAll ((List.range len).map fun k =>
      { who := .stream n p.index (first + k), cls := .stream, write := false
        line := BitVec.ofNat 34 (srcLineAt t (p.start + 64 * (first + k))) }) s
  | .stackWrite => enqueueAll ((List.range len).map fun k =>
      { who := .stream n p.index (first + k), cls := .stream, write := true
        line := BitVec.ofNat 34 (dstLineAt t (p.start + 64 * (first + k))), mask := BitVec.allOnes 64
        data := pieceOut s t p (first + k) }) s
  | .farRead => { s with strm := { s.strm with farRead := some { chan := n, piece := p.index, first, len } } }
  | .farWrite => { s with strm := { s.strm with farWrite := some { chan := n, piece := p.index, first, len } } }

/-- The counts of grants passed over while ready (R324). -/
def notePassed (q : IssueStream) (granted : Nat) (s : State) : State :=
  let i := issueIndex q
  let chans := (List.range 16).map fun n =>
    let c := chan s n
    if n = granted then { c with passed := c.passed.set i 0 }
    else if chanReady s q n then { c with passed := c.passed.set i (c.passed.getD i 0 + 1) }
    else { c with passed := c.passed.set i 0 }
  { s with strm := { s.strm with chans := chans, last := s.strm.last.set i granted } }

/-- A zero source needs no read and no pad: its next piece exists as soon as it is wanted (R323, R325). -/
def cutZeroPiece (n : Nat) (s : State) : State :=
  match (chan s n).task with
  | some t =>
    let d := taskDesc t t.cut
    if t.stage = .run && t.pieces.isEmpty && t.cut < taskTotal t && descSrcKind d = 3 &&
        descDstKind d != 2 &&
        ((chan s n).state = .running ||
          ((chan s n).state = .stopping && (locate (taskLens t) t.cut).1 ≤ taskCurrent t)) then
      let (i, r) := locate (taskLens t) t.cut
      let bytes := min 4096 ((taskLens t).getD i 0 - r)
      setTask n (fun t => { t with
        pieces := [{ index := t.nextIndex, start := t.cut, bytes := bytes, handle := none
                     readNext := bytes / 64, readDone := bytes / 64 }]
        nextIndex := t.nextIndex + 1, cut := t.cut + bytes }) s
    else s
  | none => s

/-- STREAM_BURST_GRANT (R324). -/
def streamBurstGrant (q : IssueStream) (s : State) : State :=
  let s := if issueWrite q then (List.range 16).foldl (fun s n => cutZeroPiece n s) s else s
  if !streamsGo s || issueBusy s q then s
  else
    match pickChannel s q with
    | some n =>
      (match (chan s n).task, readyPiece q (chan s n) with
       | some t, some p => grantBurst q n t p (notePassed q n s)
       | _, _ => s)
    | none => s

/-! ## Pieces, pads and pops (R323, R334, R338, R341) -/

/-- The piece that a granted pad serves. -/
def addPiece (n : Nat) (h : BitVec 16) (s : State) : State :=
  setTask n (fun t =>
    let (i, r) := locate (taskLens t) t.cut
    let bytes := min 4096 ((taskLens t).getD i 0 - r)
    let zero := descSrcKind (taskDesc t t.cut) = 3
    { t with
      pieces := t.pieces ++ [{ index := t.nextIndex, start := t.cut, bytes := bytes, handle := some h
                               readNext := if zero then bytes / 64 else 0
                               readDone := if zero then bytes / 64 else 0 }]
      nextIndex := t.nextIndex + 1, cut := t.cut + bytes }) s

/-- Adds the bytes of a piece to the descriptors they belong to. -/
def addWritten : List Nat → List Nat → Nat → Nat → List Nat
  | _, [], _, _ => []
  | lens, w :: ws, start, bytes =>
    let l := lens.headD 0
    if start < l then
      let n := min bytes (l - start)
      (w + n) :: addWritten lens.tail ws 0 (bytes - n)
    else w :: addWritten lens.tail ws (start - l) bytes

/-- A piece that every write has left, and that may go: its pad is freed or pushed (R323, R338). -/
def pieceThrough (n i : Nat) (s : State) : State :=
  match (chan s n).task with
  | some t =>
    match t.pieces.find? (·.index == i) with
    | some p =>
      let lens := taskLens t
      let before := taskCurrent t
      let drop := fun (t : Task) => { t with
        pieces := t.pieces.filter (·.index != i)
        written := addWritten lens t.written p.start p.bytes
        lastLine := if p.start + p.bytes = taskTotal t then pieceOut s t p (pieceLen p - 1) else t.lastLine }
      if t.stage != .run then s
      else match taskDstQueue t with
        | some q =>
          if p.readDone == pieceLen p && p.index == t.pushed && (queue s q).entries.length < 64 then
            match p.handle with
            | some h =>
              -- SWAP is applied on the way into the pad (R325)
              let s1 := (List.range (pieceLen p)).foldl (fun a k => padStore h k (pieceOut s t p k) a) s
              let e : PqEntry := {
                chan := BitVec.ofNat 4 n, abort := false, piece := BitVec.ofNat 32 p.index, seq := t.seq
                taskId := taskId t, bytes := BitVec.ofNat 13 p.bytes, first := p.index == 0
                last := p.start + p.bytes == taskTotal t, handle := h, deadline := descDeadline (taskFirst t) }
              let s2 := queuePush q e (padGive h (ownerQueue q) s1)
              let s3 := setTask n (fun t => { drop t with pushed := t.pushed + 1, progress := now s }) s2
              afterPiece n (settleStop before n (countStrm 9 (pieceLen p) s3))
            | none => s
          else s
        | none =>
          if p.writeDone == pieceLen p then
            let s1 := match p.handle with
              | some h => padFree h (ownerChan n) s
              | none => s
            afterPiece n (settleStop before n (setTask n drop s1))
          else s
    | none => s
  | none => s

/-- The consumer discards an entry: its pad is freed by the consumer (R341). -/
def discardEntry (n : Nat) (e : PqEntry) (s : State) : State :=
  let s := if e.abort then s else padFree e.handle (ownerChan n) (padGive e.handle (ownerChan n) s)
  countStrm 5 1 s

/-- A DATA entry of the adopted task becomes a piece; LAST and the total LEN must agree (R331, R341). -/
def consumeEntry (n : Nat) (t : Task) (e : PqEntry) (s : State) : State :=
  let bytes := e.bytes.toNat
  let s := padGive e.handle (ownerChan n) s
  let excess := taskTotal t < t.cut + bytes
  let short := e.last && t.cut + bytes < taskTotal t
  let long := !e.last && t.cut + bytes == taskTotal t
  let s := setTask n (fun t => { t with
    sawLast := t.sawLast || e.last
    pieces := t.pieces ++ [{ index := t.nextIndex, start := t.cut, bytes := min bytes (taskTotal t - t.cut)
                             handle := some e.handle, readNext := bytes / 64, readDone := bytes / 64 }]
    nextIndex := t.nextIndex + 1, cut := min (taskTotal t) (t.cut + bytes) }) s
  if excess || short || long then abortTask n 0x15 s else s

/-- A consumer pops an entry of its source queue (R341). -/
def popEntry (n : Nat) (s : State) : State :=
  let c := chan s n
  match c.task with
  | some t =>
    match taskSrcQueue t with
    | some q =>
      if t.stage = .run && t.cut < taskTotal t &&
          (c.state = .running || (c.state = .stopping && (locate (taskLens t) t.cut).1 ≤ taskCurrent t)) then
        match (queue s q).entries with
        | e :: rest =>
          let s := setQueue q (fun u => { u with entries := rest }) s
          let s := setTask n (fun t => { t with progress := now s }) s
          let s := queueSettle q s
          let s := match queueProducer s q with
            | some m => settleEnding m s
            | none => s
          (match t.adopted with
           | none =>
             if !e.abort && e.first then
               consumeEntry n t e (setTask n (fun t => { t with adopted := some (e.chan, e.seq) }) s)
             else discardEntry n e s
           | some (ch, sq) =>
             if e.chan ≠ ch ∨ e.seq ≠ sq then discardEntry n e s
             else if e.abort then abortTask n 0x14 s
             else consumeEntry n t e s)
        | [] => s
      else s
    | none => s
  | none => s

/-! ## Completion (R327, R344) -/

/-- Its last write-back is accepted; the ctrl cycle after it is the task's completion stamp (R327). -/
def taskStamp (t : Task) : Nat := t.backAt + 1

/-- The ctrl cycle after the last write-back: the pulse, the count, the ring moves on (R318, R327). A task whose stamp is
past its DEADLINE is a miss, if it has not been counted as one (R16, R344, R352). -/
def completeTask (n : Nat) (s : State) : State :=
  let c := chan s n
  match c.task with
  | some t =>
    if t.stage = .writeback 0 && taskStamp t ≤ now s then
      let missed := taskDeadline t != 0 && taskDeadline t < taskStamp t && !c.missed
      let s := if missed then
          report 0x0705 (put 32 (taskId t) ||| putSat 0 4 n) (countStrm 4 1 s) else s
      let stopped := c.state == .stopping || c.stopAfter
      let s := setChan n (fun c => { c with
        task := none, urgent := false, stopAfter := false
        head := (t.head + t.descs.length) % 2 ^ c.eff.sizeLog2.toNat
        state := if stopped then .stopped else .idle }) s
      let s := pulse (BitVec.ofNat 6 (16 + n)) (countStrm 0 1 s)
      if stopped then s else
        -- what has been fetched already is looked at as after a fetch
        (if (chan s n).fetched.isEmpty then fetchOrIdle n s
         else afterFetch n (setChan n (fun c => { c with state := .fetching, fetchGot := [] }) s))
    else s
  | none => s

/-- The task waits for room in its destination queue: with a piece that it could push, or for its next piece (R338, R342). -/
def waitsForRoom (s : State) (t : Task) : Bool :=
  match taskDstQueue t with
  | some q =>
    (64 ≤ (queue s q).entries.length && t.pieces.any fun p => p.index == t.pushed && p.readDone == pieceLen p) ||
    ((taskSrcQueue t).isNone && t.cut < taskTotal t && 64 ≤ (queue s q).entries.length + t.pieces.length)
  | none => false

/-- The watchdog of a task: it waits for a pad or for room; waiting on an empty source queue alone is no stall (R342). -/
def taskStalled (s : State) (n : Nat) : Bool :=
  match (chan s n).task with
  | some t =>
    let runs := (chan s n).state == .running || (chan s n).state == .stopping
    t.stage = .run && runs && (streamWants s n || waitsForRoom s t) && t.progress + padWatchdogOf s ≤ now s
  | none => false

/-- The started stream task that holds the most pads, the lowest channel on a tie (R342). -/
def biggestTask (s : State) : Option Nat :=
  let held (n : Nat) : Nat := ((chan s n).task.map fun t => (taskPads t).length).getD 0
  let started := (List.range 16).filter fun n => (chan s n).task.isSome
  let best := started.foldl (fun m n => max m (held n)) 0
  started.find? fun n => held n == best

/-! ## Control writes (R329, R330, R348) -/

/-- CHn_TAIL (R318, R348). -/
def writeTail (n : Nat) (w : Word) (s : State) : State :=
  let c := chan s n
  let v := fieldNat w 0 16
  if 2 ^ c.eff.sizeLog2.toNat ≤ v then report 0x0706 (putSat 16 4 n ||| putSat 0 16 v) s
  else
    let s := setChan n (fun c => { c with tail := v }) s
    match c.state with
    | .idle => fetchOrIdle n s
    | .fetching => fetchMore n s
    | _ => s

def setChErr (n : Nat) (e : BitVec 8) (s : State) : State := setChan n (fun c => { c with err := e }) s

def chStop (n : Nat) (s : State) : State :=
  match (chan s n).state with
  | .disabled | .idle | .fetching => setChan n (fun c => { c with state := .stopped, err := 0 }) s
  | .running => setChan n (fun c => { c with state := .stopping, err := 0
                                             stopAfter := match c.task with
                                               | some t => decide (t.descs.length ≤ taskCurrent t + 1)
                                               | none => false }) s
  | _ => setChErr n 1 s

/-- Every burst of the task has been granted, and it completes (R330). -/
def allGranted (t : Task) : Bool :=
  match t.stage with
  | .run => t.cut == taskTotal t && t.pieces.all fun p => p.readNext == pieceLen p &&
      ((taskDstQueue t).isSome || p.writeNext == pieceLen p)
  | .ending _ _ _ => false
  | _ => true

/-- The task ends with CANCELLED; one that a fault was ending ends with it as well (R329, R330). -/
def cancelTask (n : Nat) (s : State) : State :=
  settleEnding n (setTask n (fun t => { t with stage := .ending 0x17 (BitVec.ofNat 8 (taskDescNow t)) 0 }) s)

def chCancel (n : Nat) (s : State) : State :=
  let c := chan s n
  match c.state with
  | .running | .stopping | .stopped =>
    (match c.task with
     | some t =>
       if allGranted t then setChErr n 3 s
       else
         cancelTask n (countStrm 3 (taskInFlight t) (setChan n (fun c => { c with state := .cancelling, err := 0 }) s))
     | none => latchFault n 0x17 0 0 0 (setChErr n 0 s))
  | _ => setChErr n 1 s

def chResume (n : Nat) (s : State) : State :=
  let c := chan s n
  match c.state with
  | .stopped =>
    let s := setChErr n 0 s
    (match c.task with
     | some _ => afterPiece n (setChan n (fun c => { c with state := .running }) s)
     | none =>
       if !c.eff.enable then setChan n (fun c => { c with state := .disabled }) s
       else if 0 < c.fetchDue then setChan n (fun c => { c with state := .fetching }) s
       else if c.fetched.isEmpty then fetchOrIdle n s
       else afterFetch n (setChan n (fun c => { c with state := .fetching, fetchGot := [] }) s))
  | .rejected | .faulted => fetchOrIdle n (dropFetch n (setChan n (fun c => { c with err := 0 }) s))
  | _ => setChErr n 1 s

def Who.isStream (n : Nat) : Who → Bool
  | .stream m _ _ | .readback m | .descBack m _ => m == n
  | _ => false

/-- What a channel has under way goes on without it: granted bursts that the far port has not taken are withdrawn (R329). -/
def forgetTask (n : Nat) (s : State) : State :=
  let mine (b : Option FarBurst) : Option FarBurst := b.filter fun x => x.chan != n
  forgetFar (Who.isStream n) (forgetMem (Who.isStream n)
    { s with strm := { s.strm with farRead := mine s.strm.farRead, farWrite := mine s.strm.farWrite } })

def chReset (n : Nat) (s : State) : State :=
  let c := chan s n
  match c.state with
  | .disabled | .idle | .stopped | .rejected | .faulted =>
    let s := match c.task with
      | some t =>
        let s := padFreeAll (taskPads t) (ownerChan n) s
        let s := match taskDstQueue t with
          | some q => queueSettle q (setQueue q (fun u => { u with waiting := u.waiting ++ [abortEntry n t] }) s)
          | none => s
        latchFault n 0x17 (BitVec.ofNat 8 (taskDescNow t)) 0 (taskId t) (forgetTask n s)
      | none => s
    setChan n (fun c => { c with
      head := c.tail, err := 0
      state := if c.eff.enable then .idle else .disabled }) (dropFetch n s)
  | _ => setChErr n 1 s

/-- CHn_CTL takes one action per write (R329). -/
def writeChCtl (n : Nat) (w : Word) (s : State) : State :=
  let a := field w 0 4
  if a = 0 then s
  else if 1 < popCount a then setChErr n 2 s
  else if a = 1 then chStop n s
  else if a = 2 then chCancel n s
  else if a = 4 then chResume n s
  else chReset n s

/-! ## STRM_COMMIT and PQ_CTL (R346, R347, R349) -/

def ringCfgChanged (a b : RingCfg) : Bool := a.base != b.base || a.sizeLog2 != b.sizeLog2 || a.enable != b.enable

def firstChan (p : Nat → Bool) : Option Nat := (List.range 16).find? p

/-- The checks of R347 in the order of R567: the code and the channel. -/
def strmCheck (s : State) (cs : List RingCfg) : BitVec 8 × BitVec 4 :=
  match s.image.active with
  | none => (0x07, 0)
  | some _ =>
    let at' := fun n => cs.getD n {}
    match firstChan fun n => (at' n).enable &&
        s.mem.stackGib.toNat * 2 ^ 30 < (at' n).base.toNat * 512 + 64 * 2 ^ (at' n).sizeLog2.toNat with
    | some n => (0x02, BitVec.ofNat 4 n)
    | none =>
      if s.pond.floorStream.toNat < streamFloors cs (s.xch.chans.map (·.eff)) then (0x04, 0)
      else match firstChan fun n => ringCfgChanged (at' n) (chan s n).eff &&
          !((chan s n).state == .disabled || ((chan s n).state == .idle && (chan s n).head == (chan s n).tail)) with
        | some n => (0x05, BitVec.ofNat 4 n)
        | none =>
          match firstChan fun n => (at' n).sizeLog2 < 3 || 16 < (at' n).sizeLog2 with
          | some n => (0x06, BitVec.ofNat 4 n)
          | none => (0, 0)

/-- A write of STRM_COMMIT.COMMIT (R346, R347, R529). -/
def writeStrmCommit (w : Word) (s : State) : State :=
  if !w.getLsbD 0 then s
  else if s.image.active.isNone then { s with strm := { s.strm with err := 0x07, errCh := 0 } }
  else if s.strm.pending.isSome then { s with strm := { s.strm with err := 0x03, errCh := 0 } }
  else
    let cs := s.strm.chans.map (·.stage)
    let (e, ch) := strmCheck s cs
    let s := { s with strm := { s.strm with err := e, errCh := ch } }
    if e = 0 then { s with strm := { s.strm with pending := some (cs, nextBoundary (now s) 64) } } else s

/-- A channel takes its new configuration (R347). -/
def applyRing (c : StreamCh) (r : RingCfg) : StreamCh :=
  if ringCfgChanged r c.eff then
    { c with eff := r, head := 0, tail := 0, fetched := [], state := if r.enable then .idle else .disabled }
  else { c with eff := r }

/-- The boundary of a pending STRM_COMMIT: checked again, then applied whole (R530, R531). -/
def applyStrm (s : State) : State :=
  match s.strm.pending with
  | some (cs, b) =>
    if now s < b then s
    else
      let s := { s with strm := { s.strm with pending := none } }
      let (e, ch) := strmCheck s cs
      if e = 0 then
        { s with strm := { s.strm with
            chans := (List.range 16).map fun n => applyRing (chan s n) (cs.getD n {}) } }
      else { s with strm := { s.strm with err := e, errCh := ch } }
  | none => s

/-- PQ_CTL.FLUSH of one queue (R349). -/
def flushQueue (q : Nat) (s : State) : State :=
  if (queueProducer s q).isSome || (queueConsumer s q).isSome then report 0x0707 (putSat 0 4 q) s
  else
    let s := padFreeAll ((queue s q).entries.filterMap fun e => if e.abort then none else some e.handle)
      (ownerQueue q) s
    -- ABORT entries that still waited for room have it now (R340)
    (queue s q).waiting.foldl (fun s _ => queueSettle q s) (setQueue q (fun u => { u with entries := [] }) s)

def writePqCtl (w : Word) (s : State) : State :=
  (List.range 16).foldl (fun s q => if w.getLsbD q then flushQueue q s else s) s

/-! ## The meanings -/

/-- The address of a channel register (R345). -/
def chAddr (n : BitVec 4) (off : Nat) : Addr24 := BitVec.ofNat 24 (0x051000 + 0x40 * n.toNat + off)

/-- CH_TAIL_WRITE (R318, R348). -/
def execChTailWrite (n : BitVec 4) (w : Word) (s : State) : Out :=
  .next (ctlWrite (chAddr n 0x10) w (writeTail n.toNat w) s)

/-- DESCRIPTOR_FETCH_DONE (R321, R322): due once every descriptor asked for has come. -/
def execDescriptorFetchDone (n : BitVec 4) (s : State) : Out :=
  let c := chan s n.toNat
  .next (if working s && c.state == .fetching && c.fetchDue == 0 && (!c.fetchGot.isEmpty || c.fetchFailed)
    then afterFetch n.toNat s else s)

/-- CH_STOP (R329). -/
def execChStop (n : BitVec 4) (w : Word) (s : State) : Out :=
  .next (ctlWrite (chAddr n 0x18) w (writeChCtl n.toNat w) s)

/-- CH_CANCEL (R330). -/
def execChCancel (n : BitVec 4) (w : Word) (s : State) : Out :=
  .next (ctlWrite (chAddr n 0x18) w (writeChCtl n.toNat w) s)

/-- CH_RESUME (R329). -/
def execChResume (n : BitVec 4) (w : Word) (s : State) : Out :=
  .next (ctlWrite (chAddr n 0x18) w (writeChCtl n.toNat w) s)

/-- CH_RESET (R329). -/
def execChReset (n : BitVec 4) (w : Word) (s : State) : Out :=
  .next (ctlWrite (chAddr n 0x18) w (writeChCtl n.toNat w) s)

/-- STREAM_BURST_GRANT (R324). -/
def execStreamBurstGrant (issue : IssueStream) (s : State) : Out := .next (streamBurstGrant issue s)

/-- PIECE_WRITES_DONE (R323, R338). -/
def execPieceWritesDone (n : BitVec 4) (piece : BitVec 32) (s : State) : Out :=
  .next (if working s then pieceThrough n.toNat piece.toNat s else s)

/-- PQ_POP (R341). -/
def execPqPop (n : BitVec 4) (s : State) : Out :=
  .next (if streamsGo s then popEntry n.toNat s else s)

/-- DESCRIPTOR_WRITEBACK_DONE (R327). -/
def execDescriptorWritebackDone (n : BitVec 4) (s : State) : Out :=
  .next (if working s then completeTask n.toNat s else s)

/-- PAD_WATCHDOG (R342). -/
def execPadWatchdog (n : BitVec 4) (s : State) : Out :=
  .next (if working s && taskStalled s n.toNat then abortTask n.toNat 0x16 (countStrm 8 1 s) else s)

/-- PREFETCH_URGENT (R343). -/
def execPrefetchUrgent (s : State) : Out :=
  let c := chan s 15
  .next (match c.task with
    | some t =>
      if working s && s.strm.spill && taskDeadline t != 0 && taskDeadline t - 480 * c.eff.lead.toNat ≤ now s
      then setChan 15 (fun c => { c with urgent := true }) s else s
    | none => s)

/-- DEADLINE_MISS (R344). -/
def execDeadlineMiss (n : BitVec 4) (s : State) : Out :=
  let c := chan s n.toNat
  .next (match c.task with
    | some t =>
      if working s && taskDeadline t != 0 && taskDeadline t < now s && !c.missed && !t.late &&
          (t.stage != .writeback 0 || taskDeadline t < taskStamp t) then
        report 0x0705 (put 32 (taskId t) ||| put 0 n)
          (countStrm 4 1 (setChan n.toNat (fun c => { c with missed := true }) s))
      else s
    | none => s)

/-- PAD_FREE (R336). -/
def execPadFree (handle : BitVec 16) (freer : BitVec 6) (s : State) : Out :=
  .next (if working s then padFree handle freer s else s)

/-- PQ_FLUSH (R349). -/
def execPqFlush (w : Word) (s : State) : Out := .next (ctlWrite 0x050080 w (writePqCtl w) s)

/-- STRM_COMMIT (R346, R347). -/
def execStrmCommit (w : Word) (s : State) : Out := .next (ctlWrite 0x050008 w (writeStrmCommit w) s)

end Sys2Proof.Machine
end

