-- ==== Sys2Proof/Machine/MemPath.lean ====
section
/-! DEFINITION. The inline memory path: the host and the memory channel ports, the channel hash, arbitration,
parity and replay, write combining, the tadpole path (R277-R306, R430-R442). -/
namespace Sys2Proof.Machine

/-! ## Addresses (R281, R282) -/

/-- Five bits of a line address from bit n of the byte address. -/
def addrBits (line : BitVec 34) (n : Nat) : BitVec 5 := field line (n - 6) 5

/-- F(A) of a hash plan (R281). -/
def hashFold (plan : BitVec 8) (line : BitVec 34) : BitVec 5 :=
  let top : BitVec 5 := (field line 30 4 : BitVec 4).setWidth 5
  if plan = 1 then addrBits line 11 ^^^ addrBits line 16 ^^^ addrBits line 21 ^^^ addrBits line 26 ^^^ addrBits line 31 ^^^ top
  else if plan = 2 then addrBits line 12 ^^^ addrBits line 18 ^^^ addrBits line 24 ^^^ addrBits line 30 ^^^ top
  else 0

/-- The channel of a line (R281). -/
def channelOf (s : State) (line : BitVec 34) : BitVec 5 := addrBits line 6 ^^^ hashFold s.mem.hashPlan line

/-- The row span of a line: 32 consecutive channel-local lines (R283). -/
def spanOf (line : BitVec 34) : BitVec 24 := field line 10 24

/-! ## Fatal transfers (R298, R309) -/

/-- The class by its bit of R284. -/
def MemClass.code : MemClass → BitVec 3
  | .critRd => 0 | .bulk => 1 | .finalGrad => 2 | .sweep => 3 | .tadpole => 4 | .stream => 5 | .xport => 6 | .normpass => 7

/-- The transfer a fatal failure names: bits 61:0 of MP_FAULT. -/
structure FatalXfer where
  host : Bool
  port : BitVec 5
  cls : BitVec 3
  write : Bool
  tag : BitVec 12
  line : BitVec 34

def FatalXfer.word (f : FatalXfer) : Word :=
  putBit 61 f.host ||| put 56 f.port ||| put 53 f.cls ||| putBit 52 f.write ||| put 40 f.tag ||| put 0 f.line

/-- A fatal transfer is counted, reported and latched. -/
def portFatal (f : FatalXfer) (s : State) : State :=
  let s := report 0x0603 f.word (countMp 1 1 s)
  setMem (fun m => { m with fault := m.fault.take (now s) f.word }) s

/-- A NAK tag that fails its parity or names another tag is counted, and changes nothing (R433). -/
def nakTag {n : Nat} (want got : BitVec n) (par : BitVec 2) (s : State) : State :=
  if want = got && parityOk got par then s else countPort 6 1 s

/-! ## Host channel ports (R277-R282, R434-R438) -/

/-- Host traffic passes: from READY on, through warm resets too (R280, R462, R485). -/
def hostOpen (s : State) : Bool := running s && s.boot.seenReady

/-- The first port cycle in which a host port can drive a further transfer of a direction. -/
def hostNextCycle (s : State) (port : BitVec 5) (write : Bool) : Nat :=
  s.mem.hostOut.foldl (fun n h => if h.port == port && h.write == write then max n (h.acc + 1) else n) (portNow s)

/-- A read return or a write completion is driven. -/
def hostSend (h : HostOut) (s : State) : State :=
  setMem (fun m => { m with hostOut := m.hostOut ++ [{ h with acc := hostNextCycle s h.port h.write }] }) s

/-- The fields of a host request (R278, R435): its line, the class it is served as, and whether its code was 0b11. -/
def hostLine (req : BitVec 52) : BitVec 34 := field req 6 34
def hostClass (req : BitVec 52) (write : Bool) : MemClass × Bool :=
  let c : BitVec 2 := field req 40 2
  if c = 1 then (if write then .bulk else .critRd, false)
  else if c = 2 then (if write then .finalGrad else .bulk, false)
  else (.bulk, c = 3)

/-- Failures in a row of a request at a host port, by direction and tag: the request that comes again with the tag is
the replay (R296, R298). -/
def hostFailsOf (s : State) (port : BitVec 5) (write : Bool) (tag : BitVec 12) : Nat :=
  ((s.mem.hostFails.find? (·.1 == (port, write, tag))).map (·.2)).getD 0
def setHostFails (port : BitVec 5) (write : Bool) (tag : BitVec 12) (n : Nat) (s : State) : State :=
  setMem (fun m => { m with hostFails :=
    let rest := m.hostFails.filter (·.1 != (port, write, tag))
    if n = 0 then rest else ((port, write, tag), n) :: rest }) s

/-- Read tags in use on a channel: all, and all but those of control requests; tags in use of either kind (R286). -/
def readsOut (s : State) (ch : BitVec 5) : Nat := s.mem.flights.countP fun f => f.chan == ch && !f.req.write
def plainReadsOut (s : State) (ch : BitVec 5) : Nat :=
  s.mem.flights.countP fun f => f.chan == ch && !f.req.write && !f.req.control
def tagsOut (s : State) (ch : BitVec 5) : Nat := s.mem.flights.countP fun f => f.chan == ch

/-- A tag is to be had for a request: of the 768 reads of a channel, 16 are kept for control requests (R286). -/
def tagLeft (s : State) (ch : BitVec 5) (r : MemReq) : Bool :=
  tagsOut s ch < 1024 &&
  (r.write || (readsOut s ch < 768 && (s.mem.flights.countP fun f => !f.req.write) < 24576 &&
    (r.control || plainReadsOut s ch < 752)))

def Who.onPort (port : BitVec 5) : Who → Bool
  | .host p _ => p == port
  | _ => false

/-- The ready of a host channel port in a direction: low while a request of it waits for a tag (R286, R306). -/
def hostReady (s : State) (port : BitVec 5) (write : Bool) : Bool :=
  !(s.mem.waiting.any fun w => w.req.who.onPort port && w.req.write == write && !tagLeft s (channelOf s w.req.line) w.req)

/-- A host request arrives while the port is ready: accepted, or with bad parity NAKed with its tag in the next port
cycle, and given up after the third failure (R277, R278, R282, R296-R298). -/
def hostRequest (port : BitVec 5) (tag : BitVec 12) (req : BitVec 52) (write : Bool) (mask : BitVec 64) (data : Line)
    (parity : Bool) (s : State) : State :=
  let fails := hostFailsOf s port write tag
  let (cls, odd) := hostClass req write
  let line := hostLine req
  if !hostReady s port write then s
  else
    let s := if fails = 0 then s else countMp 0 1 s
    if !parity then
      let s := setMem (fun m => { m with hostNaks := m.hostNaks ++
        [{ port := port, write := write, tag := tag, cycle := portNow s + 1 }] }) s
      if 3 ≤ fails + 1 then
        portFatal { host := true, port := port, cls := cls.code, write := write, tag := tag, line := line }
          (setHostFails port write tag 0 s)
      else setHostFails port write tag (fails + 1) s
    else
      let s := setHostFails port write tag 0 s
      let s := if odd then countMp 9 1 s else s
      if beyondStack s line then
        hostSend { port := port, tag := tag, write := write, err := true, line := line, cls := cls, acc := 0 } (countMp 8 1 s)
      else
        enqueue { who := .host port tag, cls := cls, write := write, line := line, mask := mask, data := data } s

/-- The write completion that is due (R436); a good FINAL_GRAD write goes to the tongue with it (R438). -/
def hostComplete (d : HostDone) (s : State) : State :=
  let s := setMem (fun m => { m with hostDone := m.hostDone.filter fun x => x.port != d.port || x.tag != d.tag }) s
  let s := hostSend { port := d.port, tag := d.tag, write := true, err := d.err, line := d.line, cls := d.cls, acc := 0 } s
  if d.err || d.cls != .finalGrad || !working s then s
  else
    let sent := (s.mem.hostOut.find? fun h => h.port == d.port && h.write && h.tag == d.tag).map (·.acc)
    tongueTake d.line d.mask d.data
      (noteTaken { line := d.line, mask := d.mask, data := d.data, port := d.port, tag := d.tag, acc := sent } s)

/-- The transfer of a host port that a NAK of this port cycle answers. -/
def hostNaked (s : State) (port : BitVec 5) (write : Bool) : Option HostOut :=
  s.mem.hostOut.find? fun h => h.port == port && h.write == write && h.acc + 1 == portNow s

def dropHostOut (h : HostOut) (s : State) : State :=
  setMem (fun m => { m with hostOut := m.hostOut.filter fun x =>
    x.port != h.port || x.write != h.write || x.tag != h.tag || x.acc != h.acc }) s

/-- Transfers of a host port and direction that are still to be driven make way for a replay (R298). -/
def makeWay (h : HostOut) (from' : Nat) (s : State) : State :=
  let moved (x : HostOut) : Bool := x.port == h.port && x.write == h.write && from' ≤ x.acc
  let s := s.mem.hostOut.reverse.foldl (fun s x =>
    if moved x && x.write then moveTaken x.port x.tag x.acc (some (x.acc + 1)) s else s) s
  setMem (fun m => { m with hostOut := m.hostOut.map fun x => if moved x then { x with acc := x.acc + 1 } else x }) s

/-- A return or a completion is NAKed: replayed 2 port cycles after it, ahead of every new transfer of its port and
direction, and after three failures fatal; a return then becomes an error completion, a completion or an error return is
not sent again (R298, R437). -/
def hostNak (h : HostOut) (s : State) : State :=
  let s := dropHostOut h s
  let at2 := portNow s + 1
  if h.fails + 1 < 3 then
    let s := makeWay h at2 s
    let s := if h.write then moveTaken h.port h.tag h.acc (some at2) s else s
    countMp 0 1 (setMem (fun m => { m with hostOut := m.hostOut ++ [{ h with fails := h.fails + 1, acc := at2 }] }) s)
  else
    let s := portFatal { host := true, port := h.port, cls := h.cls.code, write := h.write, tag := h.tag, line := h.line } s
    let s := if h.write then moveTaken h.port h.tag h.acc none s else s
    if h.write || h.err then s else hostSend { h with err := true, data := 0, fails := 0 } s

/-! ## Where outcomes go -/

/-- A read has its data, or has failed for good. -/
def deliverRead (r : MemReq) (data : Option Line) (s : State) : State :=
  match r.who with
  | .host port tag => hostSend { port := port, tag := tag, write := false, err := data.isNone, data := data.getD 0
                                 line := r.line, cls := r.cls, acc := 0 } s
  | .fetch o op i => fetchDone o op i data s
  | .confirm o i w => confirmDone o i w data s
  | .journalConfirm i => journalConfirmed i data s
  | .norm t l => normLineDone t l data s
  | .table i => tableLine i data s
  | .image i => imageLine i data s
  | .index t i => indexLine t i data s
  | .stream c p l => streamReadDone c p l data 0x12 s
  | .desc c i => descReadDone c i data s
  | .readback c => readbackDone c data 0x12 s
  | .lag k o i => lagReadDone k o i data s
  | .copy k i => copyReadDone k i data s
  | .vector t i => vectorDone t i data s
  | .discarded h => discardedDone h s
  | _ => s

/-- A write is good, or has failed for good, for one of its requesters. -/
def deliverWrite (r : MemReq) (ok : Bool) (who : Who) (s : State) : State :=
  match who with
  | .host port tag => setMem (fun m => { m with hostDone := m.hostDone ++
      [{ port := port, tag := tag, err := !ok, cls := r.cls, line := r.line, mask := r.mask, data := r.data }] }) s
  | .group o i w => if ok then s else groupFailed o i w s
  | .journal _ => if ok then s else journalFailed .port s
  | .stream c p l => streamWriteDone c p l ok 0x12 s
  | .descBack c _ => descBackDone c ok s
  | .mask i => maskWriteDone i ok s
  | .vector t i => vectorWritten t i ok s
  | _ => s

def deliverWrites (r : MemReq) (ok : Bool) (s : State) : State :=
  (r.who :: r.also).foldl (fun s w => deliverWrite r ok w s) s

/-! ## Arbitration (R284-R292, R303-R306) -/

def Who.isHost : Who → Bool
  | .host _ _ => true
  | _ => false

/-- A class is throttled (R284). -/
def throttled (s : State) : MemClass → Bool
  | .critRd | .finalGrad => false
  | .bulk => s.mem.regulated
  | _ => true

/-- A request that window, partition and budget count (R287, R289). -/
def MemReq.counts (r : MemReq) : Bool := !r.control && !r.confirm

/-- Two requests whose order must hold: of one host port to one line, whatever they do (R277); of the engine to one line
where one of them writes (R441); of the tadpole path where their pieces share a byte (R304). -/
def ordered (a b : MemReq) : Bool :=
  a.line == b.line &&
  match a.who, b.who with
  | .host p _, .host q _ => p == q
  | .host _ _, _ => false
  | _, .host _ _ => false
  | _, _ => a.write || b.write || (a.cls == .tadpole && b.cls == .tadpole && a.mask &&& b.mask != 0)

/-- A transfer on its way holds back what must follow it: a write or a replay until it is good, a read of the same host
port or of an overlapping tadpole piece until its data are in. -/
def holdsBack (f : Flight) (r : MemReq) : Bool :=
  ordered f.req r && (f.req.write || f.replay.isSome || f.req.who.isHost || (f.req.cls == .tadpole && !f.req.write && !r.write))

/-- Nothing accepted or waiting ahead of a waiting request must come before it. A confirm read may follow
its own write at once (R299, R300). -/
def unblocked (s : State) (ahead : List Waiting) (r : MemReq) : Bool :=
  !(ahead.any fun w => ordered w.req r) && (r.confirm || !(s.mem.flights.any fun f => holdsBack f r))

/-- The tag that the arbiter takes is free, and one may be taken (R286). -/
def tagFor (s : State) (ch : BitVec 5) (tag : BitVec 10) (r : MemReq) : Bool :=
  !(s.mem.flights.any fun f => f.chan == ch && f.tag == tag) && tagLeft s ch r

/-- The i-th waiting request is a piece within the reorder window of the tadpole path (R304). -/
def inReorder (s : State) (i : Nat) : Bool := (s.mem.waiting.take i).countP (fun w => w.req.isPiece) < windowPieces

/-- Lines that a partition is still owed on a channel (R289). -/
def owedLines (s : State) (p k : Nat) : Nat :=
  (s.mem.effG.getD p 0 + 31) / 32 - (s.mem.chans.getD k {}).byPart.getD p 0

/-- Lines owed to the partitions of throttled classes with a request waiting for the channel: what the joint budget keeps
for them (R290, R292; log 88). -/
def owedReserve (s : State) : Nat :=
  let wants := fun (p k : Nat) => s.mem.waiting.any fun w => throttled s w.req.cls && w.req.counts &&
    (channelOf s w.req.line).toNat == k && ((s.mem.eff.parts.getD p {}).classes).getLsbD w.req.cls.code.toNat
  ((List.range 8).map fun p => ((List.range 32).map fun k => if wants p k then owedLines s p k else 0).sum).sum

/-- The budget lets a request of no owed partition go (R290, R292). -/
def budgetAllows (s : State) (r : MemReq) : Bool :=
  !(throttled s r.cls && r.counts && 0 < s.mem.thermal.level) ||
  s.mem.throttledUsed + (if s.mem.regulated then owedReserve s else 0) < supplyAt s.mem.thermal.level

/-- The waiting requests of an arbiter that could go now, oldest first, with their places in the queue. -/
def candidates (s : State) (ch : BitVec 5) (write : Bool) (tag : BitVec 10) : List (Nat × Waiting) :=
  (s.mem.waiting.zipIdx).filterMap fun (w, i) =>
    if w.req.write == write && channelOf s w.req.line == ch && tagFor s ch tag w.req &&
        unblocked s (s.mem.waiting.take i) w.req && (w.req.cls != .tadpole || inReorder s i) then some (i, w) else none

/-- The tadpole piece that goes next: one at its age limit, one of the group under way, the oldest (R304). -/
def pickTadpole (s : State) (ch : BitVec 5) (xs : List (Nat × Waiting)) : Option (Nat × Waiting) :=
  match xs.find? fun x => x.2.aged with
  | some x => some x
  | none => match xs.find? fun x => s.mem.span.getD ch.toNat none == some (spanOf x.2.req.line) with
    | some x => some x
    | none => xs.head?

/-- The oldest request of a class, or the tadpole path's choice. -/
def pickOfClass (s : State) (ch : BitVec 5) (c : MemClass) (xs : List (Nat × Waiting)) : Option (Nat × Waiting) :=
  let mine := xs.filter fun x => x.2.req.cls == c
  if c == .tadpole then pickTadpole s ch mine else mine.head?

def allClasses : List MemClass := [.critRd, .bulk, .finalGrad, .sweep, .tadpole, .stream, .xport, .normpass]

/-- n numbers in rotation, starting after the one granted last. -/
def rotation (n last : Nat) : List Nat := (List.range n).map fun i => (last + 1 + i) % n

/-- Priority mode (R288, R292): the request and the turn it takes. CRIT_RD takes no turn. DEDUCED. -/
def pickPriority (s : State) (ch : BitVec 5) (last : Nat) (xs : List (Nat × Waiting)) : Option (Nat × Waiting × Nat) :=
  let xs := xs.filter fun x => budgetAllows s x.2.req
  match xs.find? fun x => x.2.req.cls == .critRd with
  | some x => some (x.1, x.2, last)
  | none => (rotation 8 last).findSome? fun i =>
      (pickOfClass s ch (allClasses.getD i .bulk) xs).map fun x => (x.1, x.2, i)

/-- The candidates of a partition (R289). -/
def ofPartition (s : State) (p : Nat) (xs : List (Nat × Waiting)) : List (Nat × Waiting) :=
  xs.filter fun x => ((s.mem.eff.parts.getD p {}).classes).getLsbD x.2.req.cls.code.toNat

/-- The request a partition puts forward: a CRIT_RD one, otherwise its oldest, a tadpole piece in the order
of R304. -/
def pickOfPartition (s : State) (ch : BitVec 5) (xs : List (Nat × Waiting)) : Option (Nat × Waiting) :=
  match xs.find? fun x => x.2.req.cls == .critRd with
  | some x => some x
  | none => match xs.head? with
    | some x => if x.2.req.cls == .tadpole then pickOfClass s ch .tadpole xs else some x
    | none => none

/-- Regulated mode (R289, R290): an owed partition below its cap, else an eligible one within the joint budget. Confirm
reads count against no partition, so neither cap nor budget holds them (R287). -/
def pickRegulated (s : State) (ch : BitVec 5) (last : Nat) (xs : List (Nat × Waiting)) : Option (Nat × Waiting × Nat) :=
  let free := fun (p : Nat) => s.mem.used.getD p 0 < (s.mem.eff.parts.getD p {}).cap.toNat
  let openTo := fun (p : Nat) => (ofPartition s p xs).filter fun x => free p || !x.2.req.counts
  let turn := rotation 8 last
  let grant := fun (of : Nat → List (Nat × Waiting)) =>
    let crit := turn.filter fun p => (of p).any fun x => x.2.req.cls == .critRd
    (crit ++ turn).findSome? fun p => (pickOfPartition s ch (of p)).map fun x => (x.1, x.2, p)
  match grant fun p => if 0 < owedLines s p ch.toNat then openTo p else [] with
  | some x => some x
  | none => grant fun p => (openTo p).filter fun x => budgetAllows s x.2.req

/-- The slot is a control slot of this arbiter: the first port cycle of 64, or the one a replay moved it to
(R285, R306). -/
def controlSlot (s : State) (ch : BitVec 5) (write : Bool) : Bool :=
  portNow s % 64 == 0 || s.mem.slotMoved.contains ((ch, write), portNow s)

/-- An index list updated by one more of something. -/
def addAt (xs : List Nat) (i : Nat) : List Nat := xs.modify i (· + 1)

/-- What a grant counts (R289, R292, R315). -/
def countGrant (ch : BitVec 5) (r : MemReq) (s : State) : State :=
  let parts := (List.range 8).filter fun p => ((s.mem.eff.parts.getD p {}).classes).getLsbD r.cls.code.toNat
  let part := parts.headD 8
  let inPart := r.counts && s.mem.regulated
  setMem (fun m => { m with
    used := if inPart then addAt m.used part else m.used
    throttledUsed := if r.counts && throttled s r.cls then m.throttledUsed + 1 else m.throttledUsed
    chans := m.chans.modify ch.toNat fun c => { c with
      lines := c.lines + 1
      byClass := if r.control then c.byClass else addAt c.byClass r.cls.code.toNat
      byPart := if inPart then addAt c.byPart part else c.byPart } }) s

/-- A write has been accepted: the confirm reads of its requesters issue (R172, R299). -/
def writeAccepted (r : MemReq) (s : State) : State :=
  (r.who :: r.also).foldl (fun s w => confirmIssue w r.line s) s

/-- A waiting request is granted and crosses its port. -/
def grantRequest (ch : BitVec 5) (tag : BitVec 10) (i : Nat) (w : Waiting) (s : State) : State :=
  let s := setMem (fun m => { m with
    waiting := m.waiting.eraseIdx i
    flights := m.flights ++ [{ req := w.req, chan := ch, tag := tag, acc := portNow s }]
    granted := (ch, w.req.write) :: m.granted
    span := if w.req.cls == .tadpole then m.span.set ch.toNat (some (spanOf w.req.line)) else m.span }) s
  let s := countGrant ch w.req s
  if w.req.write then writeAccepted w.req s else s

/-- A replay crosses its port again; a control slot it takes moves on (R285, R298, R306). -/
def grantReplay (f : Flight) (s : State) : State :=
  let moved := controlSlot s f.chan f.req.write
  let s := setMem (fun m => { m with
    flights := m.flights.map fun x =>
      if x.chan == f.chan && x.tag == f.tag then { x with acc := portNow s, replay := none, settled := false } else x
    granted := (f.chan, f.req.write) :: m.granted
    slotMoved := if moved then ((f.chan, f.req.write), portNow s + 1) :: m.slotMoved else m.slotMoved
    chans := m.chans.modify f.chan.toNat fun c => { c with lines := c.lines + 1 } }) s
  let s := countMp 0 1 s
  if f.req.write then writeAccepted f.req s else s

/-- The replay that an arbiter owes first (R285, R298). -/
def replayDue (s : State) (ch : BitVec 5) (write : Bool) : Option Flight :=
  s.mem.flights.find? fun f => f.chan == ch && f.req.write == write && match f.replay with
    | some t => decide (t ≤ portNow s)
    | none => false

/-- A window boundary that has come and not been taken yet is taken first: what happens at the closing instant belongs
to the window that begins (R16, R289). -/
def windowCatchUp (s : State) : State :=
  if 1024 * (s.mem.window + 1) ≤ portNow s then applyPlan (applyMp (windowEnd s)) else s

/-- One grant of an arbiter: a replay, the control slot, the mode's arbitration (R285). -/
def arbiterGrant (ch : BitVec 5) (write : Bool) (tag : BitVec 10) (s : State) : State :=
  let s := windowCatchUp s
  if s.mem.granted.contains (ch, write) then s
  else match replayDue s ch write with
    | some f => grantReplay f s
    | none =>
      let xs := candidates s ch write tag
      match (if controlSlot s ch write then xs.find? fun x => x.2.req.control else none) with
      | some (i, w) => grantRequest ch tag i w s
      | none =>
        let ys := xs.filter fun x => !x.2.req.control
        let at' := 2 * ch.toNat + (if write then 1 else 0)
        let last := s.mem.lastTurn.getD at' 7
        match (if s.mem.regulated then pickRegulated s ch last ys else pickPriority s ch last ys) with
        | some (i, w, turn) =>
          grantRequest ch tag i w (setMem (fun m => { m with lastTurn := m.lastTurn.set at' turn }) s)
        | none => s

/-! ## Failures and returns at a memory channel port (R296-R300) -/

/-- The fatal transfer that a flight is. -/
def fatalOf (f : Flight) : FatalXfer :=
  { host := false, port := f.chan, cls := if f.req.control then 0 else f.req.cls.code, write := f.req.write
    tag := f.tag.setWidth 12, line := f.req.line }

def dropFlight (f : Flight) (s : State) : State :=
  setMem (fun m => { m with flights := m.flights.filter fun x => x.chan != f.chan || x.tag != f.tag }) s

/-- A transfer of the engine's failed: it will be issued again from port cycle `from'`, or is fatal (R298). -/
def flightFailed (f : Flight) (from' : Nat) (s : State) : State :=
  if f.fails + 1 < 3 then
    setMem (fun m => { m with flights := m.flights.map fun x =>
      if x.chan == f.chan && x.tag == f.tag then { x with fails := x.fails + 1, replay := some from' } else x }) s
  else
    let s := portFatal (fatalOf f) (dropFlight f s)
    if f.req.write then deliverWrites f.req false s else deliverRead f.req none s

/-- The flight that a return names. -/
def flightOf (s : State) (ch : BitVec 5) (tag : BitVec 10) (write : Bool) : Option Flight :=
  s.mem.flights.find? fun f => f.chan == ch && f.tag == tag && f.req.write == write && f.replay.isNone

/-- The flight that a NAK of this port cycle answers (R297, R433). -/
def flightNaked (s : State) (ch : BitVec 5) (write : Bool) : Option Flight :=
  s.mem.flights.find? fun f => f.chan == ch && f.req.write == write && f.replay.isNone && f.acc + 1 == portNow s

/-- The confirm read of a requester. -/
def Who.confirms : Who → Who → Bool
  | .group o i w, .confirm o' i' w' => o == o' && i == i' && w == w'
  | .journal i, .journalConfirm i' => i == i'
  | _, _ => false

/-- The write that a confirm read confirms has not passed its NAK cycle. -/
def confirmEarly (s : State) (r : MemReq) : Bool :=
  s.mem.flights.any fun f => f.req.write && (f.req.who :: f.req.also).any fun w => w.confirms r.who

/-- Read data arrives: discarded and asked again on a parity failure, otherwise delivered; a confirm read that returns
before the NAK cycle of its write has passed waits for it. Every confirm read's 64 B count (R172, R196, R296, R299). -/
def memReadReturn (f : Flight) (data : Line) (par : BitVec 66) (s : State) : State :=
  let bundle : BitVec 528 := data ++ (f.tag.setWidth 16 : BitVec 16)
  let good := parityOk bundle par
  let s := if good && f.req.confirm then countSweep 4 64 s else s
  if f.void then dropFlight f s
  else if !good then flightFailed f (portNow s + 2) s
  else if f.req.confirm && confirmEarly s f.req then
    setMem (fun m => { m with early := m.early ++ [(f.req, data)] }) (dropFlight f s)
  else deliverRead f.req (some data) (dropFlight f s)

/-- The confirm reads of a write that have returned early are taken, once the write is good. -/
def takeEarly (who : Who) (s : State) : State :=
  let mine := s.mem.early.filter fun e => who.confirms e.1.who
  let s := setMem (fun m => { m with early := m.early.filter fun e => !who.confirms e.1.who }) s
  mine.foldl (fun s e => deliverRead e.1 (some e.2) s) s

/-- A NAKed write takes its confirm read with it: one that waits goes, one on its way is void, a result already in is
discarded; it is asked again after the replay (R299, R306). -/
def voidConfirm (who : Who) (s : State) : State :=
  let issued := (s.mem.flights.any fun f => who.confirms f.req.who) || s.mem.early.any fun e => who.confirms e.1.who
  let s := setMem (fun m => { m with
    waiting := m.waiting.filter fun w => !who.confirms w.req.who
    early := m.early.filter fun e => !who.confirms e.1.who
    flights := m.flights.map fun f => if who.confirms f.req.who then { f with void := true } else f }) s
  if issued then countMp 10 1 s else s

/-- A NAK of a request of this port cycle before (R296, R298, R299). -/
def memNak (f : Flight) (tag : BitVec 10) (par : BitVec 2) (s : State) : State :=
  let s := nakTag f.tag tag par s
  let s := if f.req.write then (f.req.who :: f.req.also).foldl (fun s w => voidConfirm w s) s else s
  if f.void then dropFlight f s else flightFailed f (portNow s + 1) s

/-- A memory transfer's NAK cycle passes: a write is good and in the stack, a read waits for data only. A host that writes
a marks line has restored the journal (R197; log 12). -/
def memSettled (f : Flight) (s : State) : State :=
  if f.req.write then
    let s := { (dropFlight f s) with stack := lineWrite s.stack f.req.line f.req.mask f.req.data }
    let s := if f.req.who.isHost && marksGood (lineRead s.stack f.req.line) then
      setSweep (fun w => { w with known := true }) s else s
    let s := deliverWrites f.req true s
    (f.req.who :: f.req.also).foldl (fun s w => takeEarly w s) s
  else setMem (fun m => { m with flights := m.flights.map fun x =>
    if x.chan == f.chan && x.tag == f.tag then { x with settled := true } else x }) s

/-- NAK_CYCLE_END's effect (R297): due from the port cycle after the transfer. -/
def nakCycleEnd (kind : NakKind) (port : BitVec 5) (tag : BitVec 12) (s : State) : State :=
  let host := fun (write : Bool) =>
    match s.mem.hostOut.find? fun h => h.port == port && h.write == write && h.tag == tag && h.acc + 1 ≤ portNow s with
    | some h => dropHostOut h s
    | none => s
  let mem := fun (write : Bool) =>
    match flightOf s port (tag.setWidth 10) write with
    | some f => if f.acc + 1 ≤ portNow s && !f.settled then memSettled f s else s
    | none => s
  match kind with
  | .memRead => mem false
  | .memWrite => mem true
  | .hostReturn => host false
  | .hostCompletion => host true

/-! ## Ages (R301, R304) -/

/-- An entry's 16 port cycles have passed (R301). -/
def wcbTimeout (line : BitVec 34) (s : State) : State :=
  match s.mem.wcb.find? (·.line == line) with
  | some e => if e.opened + 16 ≤ portNow s then wcbFlush e s else s
  | none => s

/-- Pieces of a channel that have waited 2,048 port cycles (R304). -/
def tadpoleAge (ch : BitVec 5) (s : State) : State :=
  setMem (fun m => { m with waiting := m.waiting.map fun w =>
    if w.req.cls == .tadpole && w.since ≤ portNow s && channelOf s w.req.line == ch && w.since + 2048 ≤ portNow s then
      { w with aged := true }
    else w }) s

/-! ## The rows -/

/-- HOST_READ_REQUEST (R277). -/
def execHostReadRequest (port : BitVec 5) (tag : BitVec 12) (req : BitVec 52) (par : BitVec 8) (s : State) : Out :=
  .next (if hostOpen s then hostRequest port tag req false 0 0 (parityOk (req ++ tag) par) s else s)
/-- HOST_WRITE_REQUEST (R277). -/
def execHostWriteRequest (port : BitVec 5) (tag : BitVec 12) (req : BitVec 52) (mask : BitVec 64) (data : Line)
    (par : BitVec 80) (s : State) : Out :=
  .next (if hostOpen s then hostRequest port tag req true mask data (parityOk (data ++ mask ++ (req ++ tag)) par) s else s)
/-- HOST_WRITE_COMPLETION (R436). -/
def execHostWriteCompletion (port : BitVec 5) (tag : BitVec 12) (s : State) : Out :=
  .next (match s.mem.hostDone.find? fun d => d.port == port && d.tag == tag with
    | some d => if hostOpen s then hostComplete d s else s
    | none => s)
/-- HOST_RETURN_NAK (R296). -/
def execHostReturnNak (port : BitVec 5) (nakTag' : BitVec 12) (nakPar : BitVec 2) (s : State) : Out :=
  match hostNaked s port false with
  | some h => .next (hostNak h (nakTag h.tag nakTag' nakPar s))
  | none => .fault (.unsolicited "host return NAK")
/-- HOST_COMPLETION_NAK (R437). -/
def execHostCompletionNak (port : BitVec 5) (nakTag' : BitVec 12) (nakPar : BitVec 2) (s : State) : Out :=
  match hostNaked s port true with
  | some h => .next (hostNak h (nakTag h.tag nakTag' nakPar s))
  | none => .fault (.unsolicited "host completion NAK")
/-- ARBITER_GRANT (R285). -/
def execArbiterGrant (chan : BitVec 5) (write : Bool) (tag : BitVec 10) (s : State) : Out :=
  .next (if running s then arbiterGrant chan write tag s else s)
/-- MEMORY_READ_RETURN (R296). -/
def execMemoryReadReturn (chan : BitVec 5) (tag : BitVec 10) (data : Line) (par : BitVec 66) (s : State) : Out :=
  match flightOf s chan tag false with
  | some f => .next (memReadReturn f data par s)
  | none => .fault (.unsolicited "memory read return")
/-- CONFIRM_READ_RETURN (R172). -/
def execConfirmReadReturn (chan : BitVec 5) (tag : BitVec 10) (data : Line) (par : BitVec 66) (s : State) : Out :=
  match flightOf s chan tag false with
  | some f => .next (memReadReturn f data par s)
  | none => .fault (.unsolicited "confirm read return")
/-- MEMORY_READ_NAK (R296). -/
def execMemoryReadNak (chan : BitVec 5) (nakTag' : BitVec 10) (nakPar : BitVec 2) (s : State) : Out :=
  match flightNaked s chan false with
  | some f => .next (memNak f nakTag' nakPar s)
  | none => .fault (.unsolicited "memory read NAK")
/-- MEMORY_WRITE_NAK (R299). -/
def execMemoryWriteNak (chan : BitVec 5) (nakTag' : BitVec 10) (nakPar : BitVec 2) (s : State) : Out :=
  match flightNaked s chan true with
  | some f => .next (memNak f nakTag' nakPar s)
  | none => .fault (.unsolicited "memory write NAK")
/-- NAK_CYCLE_END (R297). -/
def execNakCycleEnd (kind : NakKind) (port : BitVec 5) (tag : BitVec 12) (s : State) : Out :=
  .next (nakCycleEnd kind port tag s)
/-- WCB_TIMEOUT (R301). -/
def execWcbTimeout (line : BitVec 34) (s : State) : Out := .next (if running s then wcbTimeout line s else s)
/-- TADPOLE_AGE_LIMIT (R304). -/
def execTadpoleAgeLimit (chan : BitVec 5) (s : State) : Out := .next (if running s then tadpoleAge chan s else s)

end Sys2Proof.Machine
end

