-- ==== Sys2Proof/Machine/Ports.lean ====
section
/-! DEFINITION. The far port: bursts, responses, replays, timeouts (R326, R450-R452); the pond's allocator
(R334, R342); the read-back of a stream task (R327); the event port (R447, R448). -/
namespace Sys2Proof.Machine

/-! ## What waits for the far port (R324, R326, R359, R360, R367) -/

/-- What issuing a burst changes at its requester. -/
inductive FarAct where
  | burst (write : Bool)
  | readback (n : Nat) (second : Bool)
  | bell (k : Nat)
  | record (k : Nat) (seq : BitVec 32) (place : Option Nat) (n : Nat)
  | credit (k : Nat)
  | chunk (k first n : Nat)
  | copyBack (k : Nat)
  | image (n : Nat)
  deriving DecidableEq, Repr

/-- A delta channel with its first record placed (R360). -/
def placedChan (k : Nat) (c : XChan) : XChan := if (nextRecord c).isSome then c else placeNext k c

def FarAct.run (a : FarAct) (s : State) : State :=
  match a with
  | .burst write =>
    { s with strm := if write then { s.strm with farWrite := none } else { s.strm with farRead := none } }
  | .readback n second => setTask n (fun t => { t with stage := .readback second true }) s
  | .bell k => setXch k (fun c => { c with bellWaits := none, bellOut := true }) s
  | .record k seq place n =>
    setXch k (fun c => { placedChan k c with records := (placedChan k c).records.map fun x =>
      if x.seq == seq && x.place == place then { x with sent := x.sent + n } else x }) s
  | .credit k => setXch k (fun c => { c with creditWaits := false, creditOut := true }) s
  | .chunk k first n =>
    setXch k (fun x => { x with job := x.job.map fun j => { j with chunks := j.chunks.map fun y =>
      if y.first == first then { y with sent := y.sent + n } else y } }) s
  | .copyBack k =>
    setXch k (fun x => { x with job := x.job.map fun j => { j with asked := true, readbacks := j.readbacks + 1 } }) s
  | .image n => setImage (fun u => { u with loadNext := u.loadNext + n }) s

/-- A burst that a requester offers: its source ID, its lines, and what issuing it changes. -/
structure FarOffer where
  src : BitVec 6
  urgent : Bool := false
  lines : List (Who × BitVec 58 × Line)
  act : FarAct

/-- The lines of a stream burst that the stream engine has granted (R324). -/
def streamOffer (s : State) (write : Bool) : List FarOffer :=
  match (if write then s.strm.farWrite else s.strm.farRead) with
  | some b =>
    match (chan s b.chan).task with
    | some t =>
      let p := (t.pieces.find? (·.index == b.piece)).getD { index := 0, start := 0, bytes := 0, handle := none }
      let addr := fun (k : Nat) => if write then dstLineAt t (p.start + 64 * k) else srcLineAt t (p.start + 64 * k)
      [{ src := ownerChan b.chan, urgent := (chan s b.chan).urgent
         lines := (List.range b.len).map fun i => (.stream b.chan b.piece (b.first + i),
           BitVec.ofNat 58 (addr (b.first + i)), if write then pieceOut s t p (b.first + i) else 0)
         act := .burst write }]
    | none => []
  | none => []

/-- A far read-back of a stream task (R327). -/
def readbackOffers (s : State) : List FarOffer :=
  (List.range 16).filterMap fun n =>
    match (chan s n).task with
    | some t => match t.stage with
      | .readback second false => some { src := ownerChan n, urgent := (chan s n).urgent
                                         lines := [(.readback n, BitVec.ofNat 58 (taskLastDst t), 0)]
                                         act := .readback n second }
      | _ => none
    | none => none

/-- A delta channel's doorbell, or the lines of its next record (R359, R360). -/
def deltaWrites (s : State) : List FarOffer :=
  (List.range 4).filterMap fun k =>
    let c := xchan s k
    match c.bellWaits with
    | some l => some { src := ownerXch k, lines := [(.doorbell k, syncLine c 0, l)]
                       act := .bell k }
    | none =>
      let c := placedChan k c
      (nextRecord c).map fun r =>
        let n := min 32 (recordLines r - r.sent)
        { src := ownerXch k
          lines := (List.range n).map fun i =>
            (.record k r.seq (r.sent + i), recordFarLine c r (r.sent + i), recordLine r (r.sent + i))
          act := .record k r.seq r.place n }

/-- A delta channel's credit read (R360). -/
def deltaReads (s : State) : List FarOffer :=
  (List.range 4).filterMap fun k =>
    let c := xchan s k
    if c.creditWaits then some { src := ownerXch k, lines := [(.credit k, syncLine c 1, 0)]
                                 act := .credit k }
    else none

/-- The export channels' bursts: of a pad whose lines are all in (R359, R367). -/
def exportWrites (s : State) : List FarOffer :=
  [4, 5, 6, 7].filterMap fun k =>
    (xchan s k).job.bind fun j =>
      if j.stopping then none
      else (j.chunks.find? fun c => c.sent < c.len && c.lines.length == c.len).map fun c =>
        let n := min 32 (c.len - c.sent)
        { src := ownerXch k
          lines := (List.range n).map fun i =>
            let l := c.first + c.sent + i
            (.copy k l, (xchan s k).eff.far + BitVec.ofNat 58 l, ((c.lines.find? (·.1 == l)).map (·.2)).getD 0)
          act := .chunk k c.first n }

/-- The export channels' read-backs (R369). -/
def exportReads (s : State) : List FarOffer :=
  [4, 5, 6, 7].filterMap fun k =>
    (xchan s k).job.bind fun j =>
      if !j.stopping && !j.asked && j.acked == j.total then
        some { src := ownerXch k, lines := [(.copyBack k, (xchan s k).eff.far + BitVec.ofNat 58 (j.total - 1), 0)]
               act := .copyBack k }
      else none

/-- An image load from far memory (R265, R269): up to 32 lines a turn. -/
def imageReads (s : State) : List FarOffer :=
  let u := s.image
  let n := min 32 (u.loadLen / 64 - u.loadNext)
  if u.shadow == .loading && u.loadFar && !u.loadFailed && 0 < n then
    [{ src := srcImage
       lines := (List.range n).map fun i => (.image (u.loadNext + i), u.loadAddr + BitVec.ofNat 58 (u.loadNext + i), 0)
       act := .image n }]
  else []

/-- In rotation by source ID, after the one granted last. -/
def nextOffer (last : BitVec 6) (os : List FarOffer) : Option FarOffer :=
  let least := fun (xs : List FarOffer) => xs.foldl (fun (m : Option FarOffer) x => match m with
    | some y => if x.src.toNat < y.src.toNat then some x else m
    | none => some x) none
  match least (os.filter fun o => last.toNat < o.src.toNat) with
  | some o => some o
  | none => least os

/-- The offer that a direction grants next: urgent, delta, then the rest in rotation (R326). Image loads
rotate with the streams and exports. -/
def pickOffer (s : State) (write : Bool) : Option (FarOffer × Bool) :=
  let usable := s.power.usable
  let streams := if usable then streamOffer s write ++ (if write then [] else readbackOffers s) else []
  let deltas := if usable then (if write then deltaWrites s else deltaReads s) else []
  let exports := if usable then (if write then exportWrites s else exportReads s) else []
  let images := if write then [] else imageReads s
  match streams.find? (·.urgent) with
  | some o => some (o, false)
  | none => match deltas.head? with
    | some o => some (o, false)
    | none => (nextOffer (if write then s.far.lastWrite else s.far.lastRead) (streams ++ exports ++ images)).map (·, true)

/-- Every tag of a list is free, and no two are the same. -/
def tagsFree (s : State) (write : Bool) : List (BitVec 12) → Bool
  | [] => true
  | t :: ts => farTagFree s write t && !ts.contains t && tagsFree s write ts

/-- FAR_BURST_GRANT's effect: the burst's lines cross one after another, under tags the engine picks. -/
def farBurstGrant (write : Bool) (tags : List (BitVec 12)) (s : State) : State :=
  match pickOffer s write with
  | some (o, turn) =>
    let tags := tags.take o.lines.length
    if tags.length < o.lines.length || !tagsFree s write tags then s
    else
      let s := (o.lines.zip tags).foldl (fun s ((who, line, data), tag) =>
        farSend who write line data o.src o.urgent tag s) (o.act.run s)
      if !turn then s
      else { s with far := if write then { s.far with lastWrite := o.src } else { s.far with lastRead := o.src } }
  | none => s

/-! ## Answers (R331, R451, R452) -/

/-- The codes by which a requester learns of a far failure (R331). -/
def farTranslation : BitVec 8 := 0x10
def farError : BitVec 8 := 0x11

/-- The outcome of a far transfer goes to its requester. -/
def deliverFar (r : FarReq) (data : Option Line) (code : BitVec 8) (s : State) : State :=
  match r.who with
  | .stream c p l => if r.write then streamWriteDone c p l data.isSome code s else streamReadDone c p l data code s
  | .readback c => readbackDone c data code s
  | .record k seq i => recordAck k seq i data.isSome code s
  | .doorbell k => if data.isSome then setXch k (fun c => { c with bellOut := false }) s
      else if (xchan s k).bellOut then xchFault k code ((syncLine (xchan s k) 0).setWidth 56) s else s
  | .credit k => creditDone k data code s
  | .copy k i => copyAck k i data.isSome code s
  | .copyBack k => copyBackDone k data code s
  | .image i => imageLine i data s
  | _ => s

def farFind (s : State) (write : Bool) (tag : BitVec 12) : Option FarReq :=
  s.far.out.find? fun r => r.write == write && r.tag == tag

def setFar (f : FarPort → FarPort) (s : State) : State := { s with far := f s.far }

def farDrop (r : FarReq) (s : State) : State :=
  setFar (fun f => { f with out := f.out.filter fun x => x.write != r.write || x.tag != r.tag }) s
def farModify (r : FarReq) (g : FarReq → FarReq) (s : State) : State :=
  setFar (fun f => { f with out := f.out.map fun x => if x.write == r.write && x.tag == r.tag then g x else x }) s

/-- A transfer is fatal after three failures: its requester receives FAR_ERROR (R451). -/
def farFatal (r : FarReq) (s : State) : State := deliverFar r none farError (countPort 3 1 (farDrop r s))

/-- A response with the tag of no outstanding request: discarded and counted; a held tag is free again (R452). -/
def farLate (write : Bool) (tag : BitVec 12) (s : State) : State :=
  countPort 1 1 (setFar (fun f => { f with held := f.held.filter (· != (write, tag)) }) s)

/-- A response arrives: NAKed where its parity fails, delivered otherwise (R451). -/
def farResponse (write : Bool) (tag : BitVec 12) (resp : BitVec 2) (data : Line) (good : Bool) (s : State) : State :=
  match farFind s write tag with
  | some r =>
    if !good then
      let s := setFar (fun f => { f with naks :=
        (f.naks.filter fun x => portNow s ≤ x.2.2) ++ [(write, tag, portNow s + 1)] }) s
      (if r.respFails + 1 < 3 then countPort 2 1 (farModify r (fun x => { x with respFails := x.respFails + 1 }) s)
       else farFatal r s)
    else deliverFar r (if resp = 0 then some data else none) (if resp = 1 then farTranslation else farError) (farDrop r s)
  | none => if good then farLate write tag s else s

/-- Read data's parity: tag and response code in the first two bytes (R450). -/
def farReadGood (tag : BitVec 12) (resp : BitVec 2) (data : Line) (par : BitVec 66) : Bool :=
  parityOk (data ++ ((0 : BitVec 2) ++ resp ++ tag)) par

/-- The bridge NAKs the request of the port cycle before: it goes again ahead of new ones (R298, R433, R451). -/
def farNak (r : FarReq) (tag : BitVec 12) (par : BitVec 2) (s : State) : State :=
  let s := nakTag r.tag tag par s
  if r.fails + 1 < 3 then
    let at' := portNow s + 1
    let s := setFar (fun f => { f with out := f.out.map fun x =>
      if x.write == r.write && at' ≤ x.acc then { x with acc := x.acc + 1 } else x }) s
    countPort 2 1 (farModify r (fun x => { x with fails := x.fails + 1, acc := at' }) s)
  else farFatal r s

/-- 1 ms has passed since a request's acceptance (R452). -/
def farTimeout (r : FarReq) (s : State) : State :=
  let s := setFar (fun f => { f with held := f.held ++ [(r.write, r.tag)], timeout := true, timeoutAt := now s }) (farDrop r s)
  deliverFar r none farError (countPort 0 1 s)

/-! ## The pond's allocator (R334, R335, R342) -/

/-- The request that requester r has posted: how many pads. -/
def padAsk (s : State) (r : Nat) : Option Nat :=
  if r = 0 then fetchAsks s
  else if r ≤ 16 then (if streamsGo s && streamWants s (r - 1) then some 1 else none)
  else if r ≤ 24 then (if streamsGo s && xchWants s (r - 17) then some 1 else none)
  else none

def requesterOwner (r : Nat) : BitVec 6 :=
  if r = 0 then ownerSweep else if r ≤ 16 then ownerChan (r - 1) else ownerXch (r - 17)

/-- A requester has its pads. -/
def padsGiven (r : Nat) (hs : List (BitVec 16)) (s : State) : State :=
  if r = 0 then fetchGranted hs s
  else if r ≤ 16 then addPiece (r - 1) (hs.headD 0) s
  else if r ≤ 20 then
    let k := r - 17
    lagStart k (assembleAll (setXch k (fun c => { c with pads := c.pads ++ hs }) s))
  else startChunk (r - 17) (hs.headD 0) s

/-- One requester's turn: the picks left, requests and pads granted so far; none if a pick is not free. -/
def allocTurn (s0 : State) (r : Nat) (a : List (BitVec 11) × Nat × Nat × State) :
    Option (List (BitVec 11) × Nat × Nat × State) :=
  let (picks, reqs, pads, s) := a
  match padAsk s0 r with
  | none => some a
  | some k =>
    if 4 ≤ reqs || 16 < pads + k then some a
    else if !grantAllowed s r k then
      some (picks, reqs, pads, if grantAllowed s0 r k then countStrm 10 1 s else s)
    else if picks.length < k then none
    else (takePads (requesterOwner r) r (picks.take k) s).map fun (hs, s) =>
      (picks.drop k, reqs + 1, pads + k, padsGiven r hs s)

/-- The allocator's work of one fab cycle (R334). -/
def pondAllocate (picks : List (BitVec 11)) (s : State) : State :=
  if s.pond.lastFab == some s.clk.fab then s
  else
    let order := (List.range 32).map fun i => (s.clk.fab + i) % 32
    let start : Option (List (BitVec 11) × Nat × Nat × State) := some (picks, 0, 0, s)
    match order.foldl (fun a r => a.bind (allocTurn s r)) start with
    | some (_, _, _, t) => { t with pond := { t.pond with lastFab := some s.clk.fab } }
    | none => s

/-- FETCH has waited a whole watchdog interval with no pad freed (R342); the report names channel 0 where no task is
started. -/
def pondStall (s : State) : State :=
  match s.pond.stallSince, fetchAsks s with
  | some t, some _ =>
    if now s < t + padWatchdogOf s then s
    else
      let s := { s with strm := { s.strm with pondStall := true }, pond := { s.pond with stallSince := some (now s) } }
      match biggestTask s with
      | some n => abortTask n 0x16 (countStrm 8 1 (report 0x0704 (putSat 0 4 n) s))
      | none => report 0x0704 0 s
  | _, _ => s

/-! ## Events (R448) -/

/-- The next pulse may go out: none in this port cycle, and its line has been low for one. -/
def eventReady (s : State) (line : BitVec 6) : Bool :=
  match s.evt.last with
  | some (l, t) => t < portNow s && (l != line || t + 1 < portNow s)
  | none => true

/-- The oldest event goes out as a pulse; events whose sources wait take the room (R448). -/
def eventEmit (s : State) : State :=
  match s.evt.queue with
  | (t, line) :: rest =>
    if !eventReady s line || now s < t then s
    else
      let s := { s with evt := { s.evt with queue := rest, last := some (line, portNow s) } }
      match s.evt.waiting with
      | (_, w) :: ws => { s with evt := { s.evt with
          waiting := ws, queue := insertEvent s.evt.queue (now s, w) } }
      | [] => s
  | [] => s

/-! ## The rows -/

/-- FAR_BURST_GRANT (R326). -/
def execFarBurstGrant (write : Bool) (tags : List (BitVec 12)) (s : State) : Out :=
  .next (if working s then farBurstGrant write tags s else s)
/-- FAR_READ_DATA (R451). -/
def execFarReadData (tag : BitVec 12) (resp : BitVec 2) (data : Line) (par : BitVec 66) (s : State) : Out :=
  .next (if running s then farResponse false tag resp data (farReadGood tag resp data par) s else s)
/-- FAR_WRITE_RESPONSE (R451). -/
def execFarWriteResponse (tag : BitVec 12) (resp : BitVec 2) (par : BitVec 2) (s : State) : Out :=
  .next (if running s then farResponse true tag resp 0 (parityOk ((0 : BitVec 2) ++ resp ++ tag) par) s else s)
/-- FAR_REQUEST_NAK (R451). -/
def execFarRequestNak (write : Bool) (nakTag' : BitVec 12) (nakPar : BitVec 2) (s : State) : Out :=
  match s.far.out.find? fun r => r.write == write && r.acc + 1 == portNow s with
  | some r => .next (farNak r nakTag' nakPar s)
  | none => .fault (.unsolicited "far request NAK")
/-- FAR_TIMEOUT (R452). -/
def execFarTimeout (write : Bool) (tag : BitVec 12) (s : State) : Out :=
  .next (match farFind s write tag with
    | some r => if running s && 3 * r.acc / 10 + 480000 ≤ now s then farTimeout r s else s
    | none => s)
/-- STREAM_READBACK_RETURN (R327). -/
def execStreamReadbackReturn (n : BitVec 4) (ret : ReadBack) (s : State) : Out :=
  match ret with
  | .stack ch tag data par =>
    match flightOf s ch tag false with
    | some f => if f.req.who == .readback n.toNat || f.req.who == .dropped then .next (memReadReturn f data par s)
        else .fault (.unsolicited "stream read-back")
    | none => .fault (.unsolicited "stream read-back")
  | .far tag resp data par =>
    .next (if running s then farResponse false tag resp data (farReadGood tag resp data par) s else s)
/-- POND_ALLOCATE (R334). -/
def execPondAllocate (picks : List (BitVec 11)) (s : State) : Out :=
  .next (if working s then pondAllocate picks s else s)
/-- POND_STALL (R342). -/
def execPondStall (s : State) : Out := .next (if working s then pondStall s else s)
/-- EVENT_EMIT (R448). -/
def execEventEmit (s : State) : Out := .next (if ready s then eventEmit s else s)

end Sys2Proof.Machine
end

