-- ==== Sys2Proof/Machine/Health.lean ====
section
/-! DEFINITION. SRAM errors, FATAL, the croak causes that windows raise, the error log's own registers
(R294, R504-R517). -/
namespace Sys2Proof.Machine

def setHealth (f : Health → Health) (s : State) : State := { s with health := f s.health }

/-! ## FATAL (R510) -/

/-- A request that FATAL and a warm reset leave standing: host traffic, and every write handed over (R171,
R302, R476, R510). -/
def MemReq.stays (r : MemReq) : Bool := r.write || r.who.isHost

/-- Reads of the engine that no memory channel has accepted are given up. -/
def dropUnissued (s : State) : State := setMem (fun m => { m with waiting := m.waiting.filter (·.req.stays) }) s

/-- The instance enters FATAL (R510). -/
def enterFatal (s : State) : State := dropUnissued (setHealth (fun h => { h with fatal := true }) s)

/-! ## Uncorrectable errors (R508, R511) -/

/-- The pad that a word of the pond lies in: 512 words of 64 bits each (R333). -/
def padOfWord (word : BitVec 32) : Nat := word.toNat / 512 % 2048

/-- The tile one of whose pads, its columns' pad among them, FETCH's decoder reads (R97, R142, R508). -/
def tileOfPad (s : State) (i : Nat) : Option TileSt :=
  (curPass s).bind fun p => p.inflight.find? fun t =>
    (t.stage == .fetching || t.stage == .chain) && (t.pads.map (·.2) ++ t.colPad.toList).any fun h => handleIndex h == i

/-- A word of 64 bits of a pad, rewritten with zero. -/
def padZero (i : Nat) (word : Nat) (s : State) : State :=
  setPad i (fun p => { p with lines := p.lines.map fun (k, l) =>
    if k = word / 8 then (k, l &&& ~~~putLine (8 * (word % 8)) (BitVec.allOnes 64)) else (k, l) }) s

/-- What a word of the pond that cannot be corrected means (R508). -/
def pondUe (word : BitVec 32) (s : State) : State :=
  let i := padOfWord word
  if (padAt s i).owner == 0 then padZero i (word.toNat % 512) s
  else match tileOfPad s i with
    | some t => codecMismatch t s
    | none => enterFatal s

/-- A word of the norm store: 6 words a record (R204). The record reads 0; what the model keeps beside it for
the instance totals stays. -/
def normUe (word : BitVec 32) (s : State) : State :=
  setNorm (word.toNat / 6) (fun n => { share := n.share, shareNonfin := n.shareNonfin }) s

/-- A link-only reset of one link (R428, R477). -/
def linkOnlyReset (d : Side) (s : State) : State :=
  let s := match d with
    | .east => { s with boot := { s.boot with linkResetE := true } }
    | .west => { s with boot := { s.boot with linkResetW := true } }
  segSettle (linkRestart d s)

/-- The handling of an uncorrectable error by array (R508, R511). In array 0x8 an SFU table is named by its
rank, the lane and the tile that read it. -/
def handleUe (array : BitVec 4) (word : BitVec 32) (sfu : Option (Bool × BitVec 7 × BitVec 32)) (s : State) : State :=
  match array.toNat with
  | 0 => pondUe word s
  | 2 => normUe word s
  | 3 => mapStart s
  | 5 => emptyShadow s
  | 6 => linkOnlyReset .east s
  | 7 => linkOnlyReset .west s
  | 8 =>
    match sfu with
    | some (second, lane, ord) =>
      match faultTile s ord.toNat with
      | some t => residueFault (if second then 25 else 24) lane 3 t s
      | none => s
    | none => enterFatal s
  | _ => enterFatal s

/-- An uncorrectable error: handled, latched, reported, counted, croaked (R508). -/
def sramUe (array : BitVec 4) (word : BitVec 32) (scrub : Bool) (sfu : Option (Bool × BitVec 7 × BitVec 32)) (s : State) :
    State :=
  let was := s.health.fatal
  let s := handleUe array word sfu s
  let fatal := s.health.fatal && !was
  let bits : Word := put 58 array ||| putBit 57 scrub ||| putBit 56 fatal ||| put 0 word
  let s := countHealth 1 1 (setHealth (fun h => { h with sram := h.sram.take (now s) bits }) s)
  croakSet 0x40 (report 0x0B02 bits s)

/-! ## Correctable errors and windows (R509, R512) -/

/-- Ctrl cycles of the window of SRAM_CE: 3,600 s (R512). -/
def eccWindow : Nat := 1728000000000
/-- Ctrl cycles of a scrubber interval (R509). -/
def scrubCycles : Nat := 2 ^ 35
/-- Ctrl cycles of 24 hours (R294). -/
def dutyWindow : Nat := 41472000000000

/-- The window of the correctable errors that the ctrl time lies in; a later one starts from 0 (R16, R512). -/
def eccRoll (s : State) : State :=
  let w := now s / eccWindow
  if s.health.ceIndex = w then s
  else setHealth (fun h => { h with ceIndex := w, ceWindow := 0, ceHolds := false }) s

/-- A correctable error (R509, R512). One that an access and the scrubber find in one ctrl cycle counts once. -/
def sramCe (array : BitVec 4) (word : BitVec 32) (scrub : Bool) (s : State) : State :=
  let found := if s.health.ceAt = now s then s.health.ceFound else []
  if (array, word) ∈ found then s else
  let s := eccRoll (setHealth (fun h => { h with ceAt := now s, ceFound := (array, word) :: found }) s)
  let s := countHealth 2 (if scrub then 1 else 0) (countHealth 0 1 s)
  let s := setHealth (fun h => { h with ceWindow := h.ceWindow + 1 }) s
  if croakEccOf s ≠ 0 && croakEccOf s ≤ s.health.ceWindow then
    croakSet 0x08 (setHealth (fun h => { h with ceHolds := true }) s)
  else s

/-- A scrubber interval ends (R509). -/
def scrubEnd (s : State) : State :=
  if (s.health.scrubIndex + 1) * scrubCycles ≤ now s then
    countHealth 3 1 (setHealth (fun h => { h with scrubIndex := h.scrubIndex + 1 }) s)
  else s

/-- CROAK_THROTTLE of the active image (R261). -/
def croakThrottleOf (s : State) : Nat := (s.image.active.map (·.limits.croakThrottle.toNat)).getD 0

/-- A 24-hour window ends: its duty in units of 1/65,536 of its port cycles (R294). -/
def dutyEnd (s : State) : State :=
  let t := s.mem.thermal
  if (t.dutyIndex + 1) * dutyWindow ≤ now s then
    let s := setThermal (fun t => { t with dutyIndex := t.dutyIndex + 1, dutyCycles := 0 }) s
    if croakThrottleOf s ≠ 0 && croakThrottleOf s * (dutyWindow / 3 * 10) < t.dutyCycles * 65536 then
      croakSet 0x10 s
    else s
  else s

/-! ## CROAK_STATUS, ERR_STATUS, ERR_POP, SRAM_FAULT (R507, R511-R515) -/

/-- A link the plan expects that is at width 4 or DOWN (R512). -/
def linkDegraded (s : State) (d : Side) : Bool :=
  let l := link s d
  expected s d && (l.txPhase == .down || l.rxPhase == .down || l.txWidth4 || l.rxWidth4)

/-- The causes whose condition holds (R512). -/
def croakHolding (s : State) : BitVec 8 :=
  let bit (n : Nat) (b : Bool) : BitVec 8 := if b then (1 : BitVec 8) <<< n else 0
  bit 0 (s.fab.rankShed != 0 || s.fab.sfuShed != 0) ||| bit 1 (linkDegraded s .east || linkDegraded s .west) |||
  bit 2 (s.memb.state == .failed) ||| bit 3 (s.health.ceHolds && s.health.ceIndex == now s / eccWindow) |||
  bit 5 (s.vault.state == .degraded || s.vault.state == .failed) ||| bit 6 s.health.fatal |||
  bit 7 (s.boot.stage == .failed)

def croakAddr : Addr24 := 0x0B0000
def errPopAddr : Addr24 := 0x0B0038

/-- A write of CROAK_STATUS; a cause set in this ctrl cycle stays set (R513). -/
def writeCroak (w : Word) (s : State) : State :=
  let c := croakCycle s
  let clear : BitVec 8 := field w 0 8 &&& ~~~(croakHolding s ||| c.hit)
  setHealth (fun h => { h with
    cause := h.cause &&& ~~~clear
    croakNow := c }) s

/-- A write of SRAM_FAULT (R511). -/
def writeSramFault (w : Word) (s : State) : State :=
  setHealth (fun h => { h with sram := h.sram.clear (now s) w }) s

/-- ERR_STATUS after a write in the ctrl cycle t: what its reports set stays set (R507, R518, R525). -/
def ErrLog.clear (t w : Word) (l : ErrLog) : ErrLog :=
  let here := l.lastAt == t
  let lostNow := if here then l.lostNow else 0
  let seenNow := if here then l.seenNow else 0
  { l with
    lost := if w.getLsbD 63 then lostNow != 0 else l.lost
    lostCount := if w.getLsbD 63 then lostNow else l.lostCount
    seen := l.seen &&& ~~~((field w 12 4 : BitVec 4) &&& ~~~seenNow) }

/-- A write of ERR_STATUS (R507). -/
def writeErrStatus (w : Word) (s : State) : State :=
  setHealth (fun h => { h with log := h.log.clear (time s) w }) s

/-- A write of ERR_POP (R507). -/
def writeErrPop (w : Word) (s : State) : State :=
  if w.getLsbD 0 then setHealth (fun h => { h with log := { h.log with entries := h.log.entries.drop 1 } }) s else s

/-! ## The rows -/

/-- The arrays are in use: READY has been reached (R484, R508). -/
def arraysLive (s : State) : Bool := hostOpen s

/-- SRAM_UE (R508). -/
def execSramUe (array : BitVec 4) (word : BitVec 32) (scrub : Bool) (sfu : Option (Bool × BitVec 7 × BitVec 32))
    (s : State) : Out := .next (if arraysLive s then sramUe array word scrub sfu s else s)
/-- SRAM_CE (R509). -/
def execSramCe (array : BitVec 4) (word : BitVec 32) (scrub : Bool) (s : State) : Out :=
  .next (if arraysLive s then sramCe array word scrub s else s)
/-- SCRUB_INTERVAL (R509). -/
def execScrubInterval (s : State) : Out := .next (if running s then scrubEnd s else s)
/-- CROAK_ECC_WINDOW (R512). -/
def execCroakEccWindow (s : State) : Out := .next (if running s then eccRoll s else s)
/-- THROTTLE_DUTY_WINDOW (R294, R512). -/
def execThrottleDutyWindow (s : State) : Out := .next (if running s then dutyEnd s else s)
/-- CROAK_CAUSE_WRITE (R513). -/
def execCroakCauseWrite (w : Word) (s : State) : Out := .next (ctlWrite croakAddr w (writeCroak w) s)
/-- ERR_POP (R507). -/
def execErrPop (w : Word) (s : State) : Out := .next (ctlWrite errPopAddr w (writeErrPop w) s)

end Sys2Proof.Machine
end

