-- ==== Sys2Proof/Machine/Flags.lean ====
section
/-! DEFINITION. Every register as the control port reads it: the status flags and fields that the state adds
up to, by block of the register map (R522-R524, R533-R549). -/
namespace Sys2Proof.Machine

/-- The index of an address in an array of n registers from base on. -/
def slotOf (base n a : Nat) : Option Nat :=
  if base ≤ a && a < base + 8 * n && (a - base) % 8 == 0 then some ((a - base) / 8) else none

/-- The i-th counter of a group (R106). -/
def cntWord (cs : List Counter) (i : Nat) : Word := (cs.getD i {}).word

/-- Bit n of a map of flags. -/
def bitMap (lo n : Nat) (p : Nat → Bool) : Word := (List.range n).foldl (fun w i => w ||| putBit (lo + i) (p i)) 0

/-! ## Global control, step, constants, sweep (R539) -/

/-- ID_VERSION of IP version 3.0.0 (R7). -/
def idVersion : Word := 0x4B4C010303000000

/-- GSTATUS.PWR (R474). -/
def PwrState.code : PwrState → BitVec 3
  | .active => 0 | .observe => 1 | .idle => 2 | .retain => 3

/-- GCTL (R472). -/
def gctlWord (s : State) : Word :=
  put 10 s.clk.gctlDiv ||| putBit 9 s.power.forceActive ||| putBit 8 s.power.retainBit |||
  putBit 3 s.boot.fabricReset ||| putBit 2 s.boot.linkResetW ||| putBit 1 s.boot.linkResetE

/-- GSTATUS (R474). -/
def gstatusWord (s : State) : Word :=
  put 56 s.boot.cause ||| put 48 s.boot.bootErr ||| put 40 s.boot.gctlErr ||| putBit 19 s.clk.divPending |||
  put 16 s.clk.fabDiv ||| put 8 s.power.state.code ||| put 0 s.boot.code

/-- STEP_STATUS (R21). -/
def stepStatusWord (s : State) : Word :=
  put 32 s.step.step ||| put 16 s.step.released ||| put 8 s.step.flash.code ||| put 0 s.step.phase.code

/-- Tiles handed over and not yet past both marks, the in-flight range, or those that a halt left in it (R180, R194). -/
def inflightCount (s : State) : Nat :=
  match curPass s with
  | some p => p.inflight.countP fun t => t.stage == .moments || t.stage == .momentsOk || t.stage == .weights
  | none => s.sweep.leftInflight

/-- SWEEP_STATUS (R194). -/
def sweepStatusWord (s : State) : Word :=
  put 40 s.sweep.ctlErr ||| put 32 s.sweep.fault.code ||| putSat 27 5 (inflightCount s) ||| put 22 s.sweep.repairs |||
  put 0 s.sweep.written.code

/-- A recovery runs (R182). -/
def recovering (s : State) : Bool := ((curPass s).map (·.recovery)).getD false

/-- The global group's registers. SWEEP_CTL.RESUME always reads 0: its action is complete when it is accepted. RECOVER
reads 1 from its acceptance to the end of the recovery's pass (R18, R182: DESIGN CHOICE, log 87). -/
def readGlobal (s : State) (a : Nat) : Option Word :=
  if a = 0x00 then some idVersion
  else if a = 0x08 then some (gctlWord s)
  else if a = 0x10 then some (gstatusWord s)
  else if a = 0x18 then some (time s)
  else if a = 0x20 then some (stepStatusWord s)
  else if a = 0x28 then some 0
  else if a = 0x100 then some 0
  else if a = 0x108 then some (put 32 s.snap.seq ||| putBit 0 s.snap.valid)
  else if a = 0x110 then some s.snap.time
  else if a = 0x240 then some (putBit 0 s.stepk.pending.isSome)
  else if a = 0x248 then
    some (put 32 s.stepk.setStep ||| put 20 s.stepk.errSlot ||| put 8 s.stepk.err ||| putBit 2 s.stepk.captured |||
      putBit 1 s.stepk.pending.isSome ||| putBit 0 s.stepk.valid)
  else if a = 0x250 then some (put 8 s.lscale.kNext ||| put 0 s.lscale.k)
  else if a = 0x300 then some (putBit 1 (s.aux.running && s.aux.reseeding) ||| putBit 0 (s.aux.running && !s.aux.reseeding))
  else if a = 0x308 then
    some (put 32 s.aux.emaStep ||| put 8 s.aux.err ||| putBit 2 s.aux.valid ||| putBit 1 s.aux.gateWait |||
      putBit 0 s.aux.running)
  else if a = 0x460 then
    some (put 16 s.swp.errBase ||| put 8 s.swp.err ||| putBit 2 s.swp.valid ||| putBit 1 s.swp.pending.isSome |||
      putBit 0 s.swp.pending.isSome)
  else if a = 0x468 then some (put 6 s.ttab.addr)
  else if a = 0x470 then
    some (put 32 s.ttab.count ||| put 16 s.ttab.errIndex ||| put 8 s.ttab.err ||| putBit 1 s.ttab.loaded |||
      putBit 0 s.ttab.loading)
  else if a = 0x478 then some (putBit 0 (s.sweep.recoverWaits || recovering s))
  else if a = 0x480 then some (sweepStatusWord s)
  else if a = 0x488 then some s.sweep.wpos
  else if a = 0x490 then some s.sweep.mpos
  else if a = 0x498 then some s.sweep.fpos
  else ((slotOf 0x200 8 a).map fun i => s.stepk.stage.getD i 0) <|>
    ((slotOf 0x400 11 a).map fun i => put 6 (s.swp.stage.getD i 0)) <|>
    ((slotOf 0x4A0 6 a).map fun i => cntWord s.sweep.cnt i)

/-! ## Tongue, membership, verdict, leases (R540) -/

/-- MEMB_STATUS.STATE (R220). -/
def MembState.code : MembState → BitVec 4
  | .none => 0 | .joining => 1 | .opened => 2 | .failed => 3

/-- TONGUE_STATUS (R213). -/
def tongueStatusWord (s : State) : Word :=
  let ts := validTensors s
  putSat 32 15 (incomplete s) |||
  putSat 16 15 (ts.countP fun t => let n := normOf s t; n.overcount || n.partl || n.late) |||
  putBit 4 (ts.any fun t => (normOf s t).overrange) ||| putBit 3 (s.tongue.map == .building) |||
  putBit 2 (s.tongue.map == .valid) ||| putBit 1 s.tongue.norm.isSome ||| putBit 0 s.tongue.armed

/-- MEMB_STATUS (R220). -/
def membStatusWord (s : State) : Word :=
  put 32 s.memb.epoch ||| put 16 (contribOf s) ||| putSat 14 2 (roleOf s) ||| put 8 s.memb.state.code ||| put 0 s.memb.hold

/-- VERDICT_STATUS (R238). -/
def verdictStatusWord (s : State) : Word :=
  let v := s.verdict
  put 32 v.recStep ||| putBit 30 v.flashSeen ||| put 28 v.lastFlash.code ||| put 24 v.reject ||| put 16 v.holdCause |||
  put 8 v.skipReason ||| putBit 1 v.holding ||| putBit 0 v.applied

def readTongue (s : State) (a : Nat) : Option Word :=
  if a = 0x010000 then some (put 8 s.tongue.armErr)
  else if a = 0x010008 then some (tongueStatusWord s)
  else if a = 0x010200 then some (put 0 s.memb.stage)
  else if a = 0x010208 then
    some (put 8 s.memb.err ||| putBit 1 s.memb.pending.isSome ||| putBit 0 s.memb.pending.isSome)
  else if a = 0x010210 then some (membStatusWord s)
  else if a = 0x010300 then some (verdictStatusWord s)
  else if a = 0x010318 then some (put 0 s.verdict.rootLsn)
  else if a = 0x010400 then some 0
  else if a = 0x010408 then some s.lease.result
  else if a = 0x010410 then some s.lease.expiry
  else ((slotOf 0x010100 7 a).map fun i => cntWord s.tongue.cnt i) <|>
    ((slotOf 0x010340 8 a).map fun i => field s.verdict.record (64 * i) 64) <|>
    ((slotOf 0x010500 6 a).map fun i => cntWord s.hier.cnt i)

/-! ## Structure images (R541) -/

/-- IMG_STATUS.SHADOW (R267). -/
def ShadowState.code : ShadowState → BitVec 3
  | .empty => 0 | .loading => 1 | .verifying => 2 | .verified => 3 | .rejected => 4

/-- IMG_STATUS (R267). -/
def imgStatusWord (s : State) : Word :=
  let u := s.image
  put 56 u.moltErr ||| put 48 u.err ||| put 32 u.errSection ||| putBit 11 u.epochClosed ||| putBit 10 u.stepkDropped |||
  putBit 9 u.basesDropped ||| putBit 8 u.tableDropped ||| putBit 4 u.hashFixed.isSome ||| putBit 3 u.active.isSome |||
  put 0 u.shadow.code

def readImage (s : State) (a : Nat) : Option Word :=
  let u := s.image
  if a = 0x020000 then some (put 6 u.addr)
  else if a = 0x020008 then some (putBit 32 u.srcFar ||| put 0 u.len)
  else if a = 0x020010 then some (putBit 1 u.molting ||| putBit 0 (u.shadow == .loading || u.shadow == .verifying))
  else if a = 0x020018 then some (imgStatusWord s)
  else if a = 0x020020 then some (put 32 (activeTag s) ||| put 0 (shadowTag s))
  else ((slotOf 0x020040 6 a).map fun i => ((u.active.map fun im => field im.digest (64 * i) 64).getD 0)) <|>
    ((slotOf 0x020080 6 a).map fun i => ((u.shadowImage.map fun im => field im.digest (64 * i) 64).getD 0))

/-! ## The memory path (R542) -/

/-- MP_STATUS (R307). -/
def mpStatusWord (s : State) : Word :=
  let m := s.mem
  put 56 m.hashPlan ||| putBit 55 m.regulated ||| putSat 52 3 m.thermal.level ||| putBit 51 m.thermal.paused |||
  putBit 50 m.shortfall ||| putBit 49 m.imbalance ||| put 44 m.imbChannel ||| put 41 m.imbClass ||| put 24 m.stackGib |||
  put 0 m.partitions

/-- MP_THERMAL (R308): WARN reads 0 until the first good report (R294). -/
def mpThermalWord (s : State) : Word :=
  let t := s.mem.thermal
  put 32 t.temp ||| put 24 t.limit ||| (if t.valid then put 16 (t.limit - s.mem.eff.warnMargin) else 0) |||
  putBit 1 t.stale ||| putBit 0 t.valid

def partWord (p : Partition) : Word := put 56 p.classes ||| put 32 p.cap ||| put 0 p.guarantee
def chanStatWord (c : ChanStat) : Word := putSat 32 12 c.linesLast ||| putSat 16 11 c.waitMax ||| putSat 0 11 c.waitLast

def readMemPath (s : State) (a : Nat) : Option Word :=
  let m := s.mem
  if a = 0x030000 then some (mpStatusWord s)
  else if a = 0x030008 then some (mpThermalWord s)
  else if a = 0x030010 then some s.mem.fault.word
  else if a = 0x030018 then some (put 8 m.stage.warnMargin ||| put 0 m.stage.step)
  else if a = 0x030140 then
    some (put 16 m.errPart ||| put 8 m.err ||| putBit 1 m.pending.isSome ||| putBit 0 m.pending.isSome)
  else ((slotOf 0x030100 8 a).map fun i => partWord (m.stage.parts.getD i {})) <|>
    ((slotOf 0x030180 8 a).map fun i => putSat 32 16 (m.effG.getD i 0) ||| putSat 0 16 (m.usedLast.getD i 0)) <|>
    ((slotOf 0x030200 11 a).map fun i => cntWord m.cnt i) <|>
    ((slotOf 0x030400 32 a).map fun i => chanStatWord (m.chans.getD i {}))

/-! ## The fabric (R543) -/

/-- FAB_STATUS (R104). -/
def fabStatusWord (s : State) : Word :=
  let f := s.fab
  put 32 f.variant ||| putSat 24 8 (24 - popCount f.rankShed) ||| putSat 22 2 (2 - popCount f.sfuShed) ||| put 20 f.width |||
  putBit 3 f.noVariant ||| putBit 2 f.draining ||| putBit 1 (fabRunning s) ||| putBit 0 s.image.active.isSome

def readFabric (s : State) (a : Nat) : Option Word :=
  if a = 0x040000 then some (fabStatusWord s)
  else if a = 0x040008 then some (put 24 s.fab.sfuShed ||| put 0 s.fab.rankShed)
  else if a = 0x040010 then some s.fab.fault.word
  else if a = 0x040018 then some 0
  else (slotOf 0x040100 8 a).map fun i => cntWord s.fab.cnt i

/-! ## Streams, pond, pad queues (R544) -/

/-- CHn_STATUS.STATE (R348). -/
def ChState.code : ChState → BitVec 4
  | .disabled => 0 | .idle => 1 | .fetching => 2 | .running => 3 | .stopping => 4 | .stopped => 5 | .rejected => 6
  | .faulted => 7 | .cancelling => 8

/-- STRM_STATUS (R345). -/
def strmStatusWord (s : State) : Word :=
  bitMap 32 16 (fun n => (chan s n).state == .rejected || (chan s n).state == .faulted) |||
  bitMap 16 16 (fun n => (chan s n).task.isSome) |||
  putBit 2 (s.strm.chans.any fun c => c.urgent && c.task.isSome) ||| putBit 1 s.strm.pondStall ||| putBit 0 s.strm.spill

def ringBaseWord (r : RingCfg) : Word := put 9 r.base
def ringCfgWord (r : RingCfg) : Word :=
  putBit 63 r.enable ||| put 32 r.lead ||| put 16 r.floor ||| put 8 r.prio ||| put 0 r.sizeLog2

/-- CHn_STATUS (R348). -/
def chStatusWord (c : StreamCh) : Word :=
  putSat 48 16 c.head ||| put 32 c.seq ||| putSat 24 8 ((c.task.map fun t => t.descs.length).getD 0) |||
  putSat 16 8 ((c.task.map taskDescsDone).getD 0) ||| put 12 c.state.code ||| put 0 c.err

/-- PQn_STATUS (R350). -/
def pqStatusWord (s : State) (q : Nat) : Word :=
  let x := queue s q
  put 56 (((queueProducer s q).map ownerChan).getD 0) ||| put 48 (((queueConsumer s q).map ownerChan).getD 0) |||
  put 32 x.abortSeq ||| putBit 31 x.abortValid ||| putSat 0 7 x.entries.length

/-- A channel register by its offset (R544). -/
def readChannel (c : StreamCh) (off : Nat) : Option Word :=
  if off = 0x00 then some (ringBaseWord c.stage)
  else if off = 0x08 then some (ringCfgWord c.stage)
  else if off = 0x10 then some (putSat 0 16 c.tail)
  else if off = 0x18 then some (putBit 1 (c.state == .cancelling) ||| putBit 0 (c.state == .stopping))
  else if off = 0x20 then some (chStatusWord c)
  else if off = 0x28 then some (put 32 c.faultTask ||| put 24 c.faultCode ||| put 16 c.faultDesc)
  else if off = 0x30 then some c.faultAddr
  else none

def readStreams (s : State) (a : Nat) : Option Word :=
  if a = 0x050000 then some (strmStatusWord s)
  else if a = 0x050008 then
    some (put 16 s.strm.errCh ||| put 8 s.strm.err ||| putBit 1 s.strm.pending.isSome ||| putBit 0 s.strm.pending.isSome)
  else if a = 0x050010 then
    some (putSat 48 12 (padsFree s) ||| putSat 32 12 (padsSweep s) ||| putSat 16 12 (padsStream s))
  else if a = 0x050018 then some s.pond.fault.word
  else if a = 0x050020 then some (put 16 s.pond.floorStream ||| put 0 s.pond.floorSweep)
  else if a = 0x050080 then some 0
  else if 0x051000 ≤ a && a < 0x051400 then readChannel (chan s ((a - 0x051000) / 0x40)) ((a - 0x051000) % 0x40)
  else ((slotOf 0x050100 11 a).map fun i => cntWord s.strm.cnt i) <|>
    ((slotOf 0x052000 16 a).map fun q => pqStatusWord s q)

/-! ## Exports and deltas (R545) -/

/-- XCHk_STATUS.STATE (R371). -/
def XState.code : XState → BitVec 4
  | .disabled => 0 | .idle => 1 | .changes => 2 | .lagging => 3 | .running => 4 | .faulted => 5

/-- A channel that works: ACTIVE (R370). -/
def XState.active : XState → Bool
  | .changes | .lagging | .running => true
  | _ => false

/-- XCH_STATUS (R370). -/
def xchStatusWord (s : State) : Word :=
  bitMap 56 8 (fun k => (xchan s k).eff.enable) ||| bitMap 48 8 (fun k => (xchan s k).state.active) |||
  bitMap 40 8 (fun k => (xchan s k).state == .lagging) ||| bitMap 32 8 (fun k => (xchan s k).baseValid) |||
  bitMap 24 8 (fun k => (xchan s k).state == .faulted) ||| putBit 0 s.xch.gateWait

def xcfgWord (c : XCfg) : Word :=
  putBit 63 c.enable ||| put 32 (if c.doorbellLines = 0 then 16 else c.doorbellLines) ||| put 24 c.sizeLog2 ||| put 0 c.arena

/-- A channel register by its offset (R545). -/
def readXchan (k : Nat) (c : XChan) (off : Nat) : Option Word :=
  if off = 0x00 then some (put 6 c.stage.far)
  else if off = 0x08 then some (put 7 c.stage.sync)
  else if off = 0x10 then some (xcfgWord c.stage)
  else if off = 0x18 then some (put 32 c.last ||| put 0 c.first)
  else if off = 0x20 then
    some (putBit 1 ((c.job.map (·.stopping)).getD false) ||| putBit 0 ((c.job.map fun j => !j.stopping).getD false))
  else if off = 0x28 then some (put 32 c.baseStep ||| put 28 c.state.code ||| put 16 c.err ||| putBit 0 c.baseValid)
  else if off = 0x30 then some ((if k < 4 then put 32 c.seq else 0) ||| putSat 0 32 c.ordinal)
  else if off = 0x38 then some (put 56 c.faultCode ||| put 0 c.faultLine)
  else none

def readExports (s : State) (a : Nat) : Option Word :=
  if a = 0x060000 then
    some (put 16 s.xch.errCh ||| put 8 s.xch.err ||| putBit 1 s.xch.pending.isSome ||| putBit 0 s.xch.pending.isSome)
  else if a = 0x060008 then some (xchStatusWord s)
  else if 0x061000 ≤ a && a < 0x061200 then
    readXchan ((a - 0x061000) / 0x40) (xchan s ((a - 0x061000) / 0x40)) ((a - 0x061000) % 0x40)
  else (slotOf 0x060100 8 a).map fun i => cntWord s.xch.cnt i

/-! ## Random bits (R546) -/

/-- RNG_STATUS.NOISE_STATE (R387). -/
def NoiseState.code : NoiseState → BitVec 2
  | .startup => 0 | .ok => 1 | .alarm => 2 | .failed => 3

/-- RNG_STATUS (R393). -/
def rngStatusWord (s : State) : Word :=
  let r := s.rng
  putSat 32 8 r.blocks.length ||| putBit 4 r.genFault ||| putBit 3 r.hold ||| putBit 2 r.seeded ||| put 0 r.noise.code

/-- MASK_STATUS (R384). -/
def maskStatusWord (s : State) : Word :=
  let m := s.rng.mask
  put 24 m.done ||| put 16 m.err ||| putBit 3 m.gateWait ||| putBit 2 m.stopped ||| putBit 1 m.valid ||| putBit 0 m.run.isSome

def readRandom (s : State) (a : Nat) : Option Word :=
  let r := s.rng.mask.regs
  if a = 0x070000 then some (rngStatusWord s)
  else if a = 0x070008 then some (putBit 1 s.rng.hold ||| putBit 0 s.rng.reseedNow)
  else if a = 0x070010 then some (field (seedOf s) 0 64)
  else if a = 0x070018 then some (field (seedOf s) 64 64)
  else if a = 0x070200 then some (put 6 r.dst)
  else if a = 0x070208 then some (put 62 r.format ||| putBit 61 r.fresh ||| put 36 r.scale ||| put 0 r.count)
  else if a = 0x070210 then some (put 32 r.keyStep ||| put 16 r.tensor ||| put 0 r.purpose)
  else if a = 0x070218 then some (put 0 r.first)
  else if a = 0x070220 then some (put 0 r.thresh)
  else if a = 0x070228 then
    some (putBit 1 ((s.rng.mask.run.map (·.stopping)).getD false) ||| putBit 0 s.rng.mask.run.isSome)
  else if a = 0x070230 then some (maskStatusWord s)
  else ((slotOf 0x070100 6 a).map fun i => cntWord s.rng.cnt i) <|>
    ((slotOf 0x071000 128 a).map fun i => s.rng.lanes.getD i 1)

/-! ## Links, fabric message port, far port (R547, R548) -/

/-- XLn_STATUS.TX_PHASE and RX_PHASE (R423). -/
def LPhase.code : LPhase → BitVec 4
  | .off => 0 | .train => 1 | .run => 2 | .verdict => 3 | .sleep => 4 | .quarantine => 5 | .down => 6

/-- XLn_STATUS (R423). -/
def linkStatusWord (s : State) (d : Side) : Word :=
  let l := link s d
  put 40 l.qCause ||| put 32 l.downCause ||| put 24 l.proto ||| putBit 19 l.rxWidth4 ||| putBit 18 l.txWidth4 |||
  put 12 l.rxPhase.code ||| put 8 l.txPhase.code ||| putBit 1 (expected s d) ||| putBit 0 (linkUp l)

/-- XLn_NEIGH0 (R409, R424). -/
def neighWord (l : LinkEnd) : Word :=
  let m := l.neigh
  if l.neighValid then
    put 32 (field m 0xA0 32) ||| put 16 (identContrib m) ||| put 12 (field (identMax m) 0 4) |||
    put 8 (field (identMin m) 0 4) |||
    put 4 (field (identPos m) 0 4) ||| put 3 (field m 24 1) ||| put 2 (field m 0xD0 1) ||| putBit 0 true
  else 0

/-- Eight margins from lane k on (R424). -/
def marginWord (ms : List (BitVec 8)) (k n : Nat) : Word :=
  (List.range n).foldl (fun w i => w ||| put (8 * i) (ms.getD (k + i) 0)) 0

/-- A link register by its offset (R547). -/
def readLink (s : State) (d : Side) (off : Nat) : Option Word :=
  let l := link s d
  if off = 0x00 then some (linkStatusWord s d)
  else if off = 0x08 then
    some (putBit 3 l.holdDown ||| putBit 2 l.sleepOn ||| putBit 1 l.test ||| putBit 0 l.retrainBit)
  else if off = 0x10 then
    some (put 52 l.rxC1 ||| put 48 l.rxC0 ||| put 44 l.txC1 ||| put 40 l.txC0 ||| put 24 l.txGood ||| put 0 l.rxGood)
  else if off = 0x18 then some (marginWord l.margins 0 8)
  else if off = 0x20 then some (marginWord l.margins 8 4)
  else if off = 0x28 then some (neighWord l)
  else if off = 0x30 then some (if l.neighValid then field l.neigh 0x40 64 else 0)
  else if off = 0x38 then some (if l.neighValid then put 0 (field l.neigh 0x80 32) else 0)
  else (slotOf 0x100 9 off).map fun i => cntWord l.cnt i

/-- XL_RING (R426). -/
def ringWord (s : State) : Word :=
  let route := routeTo s (managerPos s)
  let code : BitVec 2 := if isManager s then 3 else match route with
    | some (.east, _) => 1
    | some (.west, _) => 2
    | none => 0
  put 32 s.ring.segUp ||| (if isManager s then 0 else putSat 20 4 ((route.map (·.2)).getD 0)) |||
  (if (planOf s).isSome then put 16 code else 0) ||| putBit 0 (reachAll s)

/-- FAR_STATUS (R465). -/
def farStatusWord (s : State) : Word :=
  let f := s.far
  putSat 48 13 (f.out.countP fun r => !r.write) ||| putSat 32 13 (f.out.countP (·.write)) ||| putSat 16 13 f.held.length |||
  putBit 0 f.timeout

def readLinks (s : State) (a : Nat) : Option Word :=
  if 0x080000 ≤ a && a < 0x081000 then readLink s .east (a - 0x080000)
  else if 0x081000 ≤ a && a < 0x082000 then readLink s .west (a - 0x081000)
  else if a = 0x082000 then some (ringWord s)
  else if a = 0x090000 then some (put 0 s.fmp.self)
  else if a = 0x090008 then some (put 48 s.fmp.session ||| putBit 32 s.fmp.lost ||| put 0 s.fmp.lostDest)
  else if a = 0x0A0000 then some (farStatusWord s)
  else ((slotOf 0x090100 6 a).map fun i => cntWord s.fmp.cnt i) <|>
    ((slotOf 0x0A0100 11 a).map fun i => cntWord s.far.cnt i)

/-! ## Health and vault (R548) -/

/-- CROAK_STATUS (R515). -/
def croakWord (s : State) : Word :=
  putBit 63 (s.health.cause != 0) ||| putBit 62 s.health.fatal ||| put 8 (croakHolding s) ||| put 0 s.health.cause

/-- ERR_STATUS (R507). -/
def errStatusWord (s : State) : Word :=
  let l := s.health.log
  putBit 63 l.lost ||| put 16 l.lostCount ||| put 12 l.seen ||| putSat 0 7 l.entries.length

/-- ERR_ENTRY0 to 3 of the oldest entry (R507). -/
def errEntry (s : State) (i : Nat) : Word :=
  match s.health.log.entries with
  | e :: _ =>
    if i = 0 then e.time
    else if i = 1 then put 48 e.code ||| put 32 e.rep ||| put 0 e.step
    else if i = 2 then e.arg
    else put 4 e.phase ||| put 0 (classOf e.code)
  | [] => 0

/-- VAULT_STATUS (R501). -/
def vaultStatusWord (s : State) : Word :=
  let v := s.vault
  put 40 v.err ||| putBit 35 v.run.isSome ||| putBit 34 v.locked ||| putBit 33 v.keyed ||| put 16 v.chainBytes |||
  v.why.word ||| put 0 v.state.code

def readHealth (s : State) (a : Nat) : Option Word :=
  let v := s.vault
  if a = 0x0B0000 then some (croakWord s)
  else if a = 0x0B0008 then some s.health.sram.word
  else if a = 0x0B0010 then some (errStatusWord s)
  else if a = 0x0B0038 then some 0
  else if a = 0x0C0000 then some (vaultStatusWord s)
  else if a = 0x0C0008 then some 0
  else if a = 0x0C0010 then some (put 32 v.resData ||| put 8 v.resAddr ||| put 0 v.resOp)
  else if a = 0x0C0018 then some v.instanceId
  else ((slotOf 0x0B0018 4 a).map fun i => errEntry s i) <|>
    ((slotOf 0x0B0100 6 a).map fun i => cntWord s.health.cnt i) <|>
    ((slotOf 0x0C0040 12 a).map fun i => v.pub.getD i 0) <|>
    ((slotOf 0x0C00A0 6 a).map fun i => v.keyHash.getD i 0) <|>
    ((slotOf 0x0C0100 6 a).map fun i => v.nonce.getD i 0) <|>
    ((slotOf 0x0C0140 8 a).map fun i => v.sel.getD i 0) <|>
    ((slotOf 0x0C0200 46 a).map fun i => v.out.getD i 0)

/-! ## The windows and the mirror (R204, R215, R536) -/

/-- Word i of a norm-store record (R204). -/
def NormRec.word (n : NormRec) (i : Nat) : Word :=
  if i = 0 then BitVec.ofNat 64 n.gacc
  else if i = 1 then BitVec.ofNat 64 (n.gacc / 2 ^ 64)
  else if i = 2 then put 32 n.lsum ||| put 0 n.gmax
  else if i = 3 then
    putSat 36 28 n.obs ||| putBit 35 n.overrange ||| putBit 34 n.overcount ||| putBit 33 n.partl ||| putBit 32 n.late |||
    putBit 31 n.normpass ||| putBit 30 n.complete ||| putBit 29 n.sweepValid ||| putSat 0 28 n.nonfin
  else if i = 4 then n.wsq else n.usq

/-- Entry g of the granule map (R198). -/
def mapEntry (s : State) (g : Nat) : BitVec 16 :=
  match granuleTensor s g with
  | some t => 0x8000 ||| BitVec.ofNat 16 (t % 16384)
  | none => 0

def readWindows (s : State) (a : Nat) : Option Word :=
  if 0x600000 ≤ a && a < 0x6C0000 then
    let w := (a - 0x600000) / 8
    some ((normOf s (w / 6)).word (w % 6))
  else if 0x6C0000 ≤ a && a < 0x700000 then
    let g := (a - 0x6C0000) / 8 * 4
    some (put 48 (mapEntry s (g + 3)) ||| put 32 (mapEntry s (g + 2)) ||| put 16 (mapEntry s (g + 1)) ||| put 0 (mapEntry s g))
  else none

/-- The live registers: what a read of the address returns; none where no register is (R522, R523). -/
def readLive (s : State) (a : Nat) : Option Word :=
  if a % 8 ≠ 0 then none
  else if a < 0x010000 then readGlobal s a
  else if a < 0x020000 then readTongue s a
  else if a < 0x030000 then readImage s a
  else if a < 0x040000 then readMemPath s a
  else if a < 0x050000 then readFabric s a
  else if a < 0x060000 then readStreams s a
  else if a < 0x070000 then readExports s a
  else if a < 0x080000 then readRandom s a
  else if a < 0x0B0000 then readLinks s a
  else if a < 0x0D0000 then readHealth s a
  else readWindows s a

/-! ## Snapshots (R533-R538) -/

/-- n registers from base on. -/
def spanOfRegs (base n : Nat) : List Nat := (List.range n).map fun i => base + 8 * i

/-- The 169 registers that take part (R537). -/
def snapAddrs : List Nat :=
  [0x20, 0x480, 0x488, 0x490, 0x498] ++ spanOfRegs 0x4A0 6 ++
  [0x010008] ++ spanOfRegs 0x010100 7 ++ [0x010210, 0x010300] ++ spanOfRegs 0x010340 8 ++ spanOfRegs 0x010500 6 ++
  [0x020020] ++ spanOfRegs 0x020040 6 ++
  [0x030000] ++ spanOfRegs 0x030180 8 ++ spanOfRegs 0x030200 11 ++ spanOfRegs 0x030400 32 ++
  [0x040000] ++ spanOfRegs 0x040100 8 ++
  spanOfRegs 0x050100 11 ++ spanOfRegs 0x060100 8 ++ spanOfRegs 0x070100 6 ++
  spanOfRegs 0x080100 9 ++ spanOfRegs 0x081100 9 ++ spanOfRegs 0x090100 6 ++ spanOfRegs 0x0A0100 11 ++
  spanOfRegs 0x0B0100 6

/-- A read of the control port (R523, R524); a mirror register reads 0 while no snapshot is held (R536). -/
def readReg (s : State) (addr : Addr24) : Option Word :=
  let a := addr.toNat
  if 0x800000 ≤ a && a < 0x900000 then
    if a - 0x800000 ∈ snapAddrs then
      some (if s.snap.valid then ((s.snap.mirror.find? (·.1 == addr)).map (·.2)).getD 0 else 0)
    else none
  else readLive s a

end Sys2Proof.Machine
end

