-- ==== Sys2Proof/Machine/Resets.lean ====
section
/-! DEFINITION. Pins, clocks, start-up, the reset levels and the power states (R461, R462, R468-R486, R527,
R532, R552, and the reset rules of each chapter). -/
namespace Sys2Proof.Machine

def setBoot (f : Boot → Boot) (s : State) : State := { s with boot := f s.boot }
def setClk (f : Clocks → Clocks) (s : State) : State := { s with clk := f s.clk }
def setPower (f : Power → Power) (s : State) : State := { s with power := f s.power }

/-! ## Cold reset (R275, R337, R391, R428, R475, R527) -/

/-- Everything as after a cold reset. Only the pins, the contents of the stack and what waits at the block's door
stay. A warm reset before the first READY acts like this too, but keeps PLL lock and TIME (R479). -/
def coldClear (cause : BitVec 8) (keepClock : Bool) (s : State) : State :=
  let c := s.clk
  let r := State.reset
  let t := now s
  { r with
    clk := if keepClock then { port := c.port, pllLocked := c.pllLocked, fab := c.fab, fabRoot := c.fabRoot } else {}
    boot := { cause := cause, pwrOk := s.boot.pwrOk, rstColdN := s.boot.rstColdN, rstWarmN := s.boot.rstWarmN }
    mem := { r.mem with
      window := if keepClock then c.port / 1024 else 0
      thermal := { r.mem.thermal with dutyIndex := if keepClock then t / dutyWindow else 0 } }
    health := { r.health with
      ceIndex := if keepClock then t / eccWindow else 0, scrubIndex := if keepClock then t / scrubCycles else 0 }
    stack := s.stack, freeCtr := s.freeCtr, pending := s.pending }

/-! ## Start-up (R476, R484) -/

/-- Step 4 begins, once rst_warm_n is high; in a warm reset the links begin full training with it (R476). -/
def startBoot (s : State) : State :=
  if !portOpen s then s
  else
    let s := vaultInitBegin (setBoot (fun b => { b with stage := .vault, code := 0x2, since := now s }) s)
    if s.boot.warm then segSettle (linkRestart .west (linkRestart .east s)) else s

/-- READY (R484, R486, R504): PHASE becomes IDLE; a kept image with a hierarchy plan moves BOOT on to LINKS. -/
def reachReady (s : State) : State :=
  let s := setBoot (fun b => { b with stage := .ready, code := 0x4, warm := false, seenReady := true }) s
  let s := { s with step := { s.step with phase := .idle } }
  let s := report 0x0B04 (put 0 s.boot.cause) s
  bootLinks (if (planOf s).isSome then bootTo 6 s else s)

/-! ## Warm reset (R475, R476, R479, R532) -/

/-- The pads are free and their generations one further (R337). -/
def Pond.warm (p : Pond) : Pond :=
  { p with
    pads := p.pads.map fun x => { gen := x.gen + 1 }
    stallSince := none, lastFab := none }

/-- The tensor table: kept, unless a load of it is under way (R167). -/
def Ttab.warm (t : Ttab) : Ttab :=
  if t.loading then
    { t with loading := false, loaded := false, err := 0, recs := [], lines := [], loadFailed := false, loadCount := 0 }
  else t

/-- The memory path keeps host traffic; the regulator takes the active port plan again (R475, R532). -/
def MemPath.warm (m : MemPath) (im : Option Image) : MemPath :=
  let m := { m with
    waiting := m.waiting.filter (·.req.who.isHost), flights := m.flights.filter (·.req.who.isHost), wcb := []
    pending := none, planDue := none, cnt := List.replicate 11 {}
    chans := m.chans.map fun c => { lines := c.lines, wait := c.wait, byClass := c.byClass, byPart := c.byPart } }
  match im with
  | some i =>
    { m with
      hashPlan := i.port.hashPlan, regulated := i.port.arbMode == 1, partitions := i.port.partitions.setWidth 4
      stackGib := i.port.stackGib
      stage := { m.stage with parts := i.port.parts }, eff := { m.eff with parts := i.port.parts } }
  | none => m

/-- The random-bit sources (R391). -/
def Rng.warm (r : Rng) : Rng :=
  { lanes := r.lanes, genFault := r.genFault, genFaultAt := r.genFaultAt, nextBit := r.nextBit, reseedFrom := r.reseedFrom
    mask := { regs := r.mask.regs, done := r.mask.done, err := r.mask.err, stopped := r.mask.stopped || r.mask.run.isSome } }

/-- What R475 lists as cleared by a warm reset is cleared, and the generations it names increase. -/
def warmFields (s : State) : State :=
  let loading := s.ttab.loading
  { s with
    power := {}
    health := { s.health with fatal := false, cnt := List.replicate 6 {} }
    snap := {}, evt := {}
    mem := s.mem.warm s.image.active
    image := { s.image with
      shadow := .empty, shadowImage := none, loadLines := []
      loadNext := 0, loadLen := 0, loadFailed := false, molting := false }
    step := {}
    stepk := { stage := s.stepk.stage }
    lscale := {}, aux := {}
    ttab := s.ttab.warm
    swp := { s.swp with pending := none }
    sweep := { known := s.sweep.known }
    fab := { rankShed := s.fab.rankShed, sfuShed := s.fab.sfuShed, fault := s.fab.fault, noVariant := s.fab.noVariant
             variant := s.fab.variant, width := s.fab.width }
    tongue := { map := if loading then .none else s.tongue.map, claims := if loading then [] else s.tongue.claims }
    memb := { stage := s.memb.stage, err := s.memb.err }
    verdict := {}, hier := {}
    lease := { all := s.lease.all.map fun l => { l with gen := l.gen + 1 } }
    strm := { spill := s.strm.spill, errCh := s.strm.errCh, err := s.strm.err }
    pond := s.pond.warm
    queues := State.reset.queues
    xch := { errCh := s.xch.errCh, err := s.xch.err }
    far := { s.far with
      out := s.far.out.map (fun q => { q with who := .dropped }), held := [], cnt := List.replicate 11 {} }
    rng := s.rng.warm
    east := { holdDown := s.east.holdDown }, west := { holdDown := s.west.holdDown }, ring := {}
    fmp := { self := s.fmp.self, session := s.fmp.session + 1, sessionDue := s.fmp.sessionDue
             lost := s.fmp.lost, lostAt := s.fmp.lostAt
             lostDest := s.fmp.lostDest, peers := s.fmp.peers } }

/-- Step 3 of R476. -/
def warmClear (s : State) : State :=
  let molting := s.image.molting
  let s1 := rescale (chooseVariant 0 (warmFields s))
  -- a molt that was past step 1 runs the re-checks of its step 3 again (R275)
  let s1 := if molting then recheckTable (recheckSwp s1) else s1
  setBoot (fun b => { b with
    stage := .waitLock, code := 0x2, bootErr := 0, gctlErr := 0, warm := true, fabricReset := false, fabricUntil := none
    linkResetE := false, linkResetW := false }) s1

/-- A key-store read, and every operation that has not begun, ends with the reset; a write completes (R460). -/
def kstQuiet (s : State) : State :=
  { s with
    kst := s.kst.begun
    vault := { s.vault with run := none, blocksDue := 0, blocks := [], quote := [] } }

/-- The event port falls silent and the gated units lose their power (R448, R476, R481). -/
def silence (s : State) : State :=
  { s with evt := {}, power := { s.power with state := .idle, usable := false, wakeFrom := none, wakeDue := false } }

/-- A warm reset begins (R476 item 1, R479): no new work; what the memory path has accepted goes on. -/
def warmBegin (cause : BitVec 8) (s : State) : State :=
  if !s.boot.seenReady then startBoot (coldClear cause true s)
  else
    let s := setBoot (fun b => { b with
      stage := .drain, code := 0x2, warm := true, cause := cause, since := now s }) s
    let s := dropUnissued (kstQuiet (silence s))
    s.mem.wcb.foldl (fun s e => wcbFlush e s) s

/-- Nothing of the engine's own is left in the memory path (R476 item 2). -/
def memDrained (s : State) : Bool :=
  s.mem.wcb.isEmpty && (s.mem.waiting.all fun w => w.req.who.isHost) && (s.mem.flights.all fun f => f.req.who.isHost)

/-! ## The pins (R461, R485, R552) -/

/-- Whether a low pulse of so many ns acts: not below 20 ns, always from 100 ns on, between them as the part
pleases (R552). -/
def pulseActs (ns : Nat) (s : State) : Bool × State :=
  if ns < 20 then (false, s)
  else if ns < 100 then (Config.shortPulseResets s.freeCtr, { s with freeCtr := s.freeCtr + 1 })
  else (true, s)

/-- pwr_ok or rst_cold_n goes low: a cold reset (R461, R475). -/
def coldPin (pin : Boot → Boot) (cause : BitVec 8) (ns : Nat) (s : State) : State :=
  let got := pulseActs ns s
  let s := got.2
  if got.1 then coldClear cause false (setBoot pin s) else s

/-- rst_warm_n goes low (R476, R479). -/
def warmPin (ns : Nat) (s : State) : State :=
  let got := pulseActs ns s
  let s := got.2
  if !got.1 then s
  else
    let s := setBoot (fun b => { b with rstWarmN := false }) s
    if running s then warmBegin 0x04 s else s

/-- A reset pin is released (R485). -/
def release (pin : ResetPin) (s : State) : State :=
  let s := setBoot (fun b => match pin with
    | .warm => { b with rstWarmN := true }
    | .cold => { b with rstColdN := true }
    | .pwrOk => { b with pwrOk := true }) s
  if s.boot.stage == .waitLock then startBoot s else s

/-! ## Fab clock ratio, link-only and fabric-only resets, GCTL (R470, R472, R473, R477, R478) -/

/-- The fabric stands still as far as a change of its ratio goes (R470). -/
def fabStopped (s : State) : Bool := !fabRunning s && !s.fab.draining && !s.boot.fabricReset

/-- The change begins; it takes 64 ctrl cycles (R470). -/
def divBegin (s : State) : State :=
  setClk (fun c => { c with divPending := false, divUntil := some (now s + 64, c.gctlDiv) }) s

/-- A ratio is written (R470). -/
def divWrite (d : BitVec 2) (s : State) : State :=
  let due := (s.clk.divUntil.map (·.2)).getD s.clk.fabDiv
  let s := setClk (fun c => { c with gctlDiv := d, divPending := d != due }) s
  if s.clk.divPending && s.clk.divUntil.isNone && fabStopped s then divBegin s else s

/-- A change under way ends, or a pending ratio begins to be applied (R470). -/
def divApply (s : State) : State :=
  match s.clk.divUntil with
  | some (t, d) => if t ≤ now s then setClk (fun c => { c with fabDiv := d, divUntil := none }) s else s
  | none => if s.clk.divPending && fabStopped s then divBegin s else s

/-- A fabric-only reset; one that meets a drain waits for it (R478, R479). -/
def fabricResetStart (s : State) : State :=
  let s := setBoot (fun b => { b with fabricReset := true }) s
  if s.fab.draining then s else fabricResetBegin s

def gctlErr (e : BitVec 8) (s : State) : State := setBoot (fun b => { b with gctlErr := e }) s

/-- GCTL's RW fields (R472, R473). RETAIN 0 is a wake cause (R482). -/
def gctlFields (w : Word) (s : State) : State :=
  let s := setPower (fun p => { p with
    forceActive := w.getLsbD 9, retainBit := w.getLsbD 8
    wakeDue := p.wakeDue || (p.state == .retain && !w.getLsbD 8) }) s
  if (field w 10 2 : BitVec 2) = 3 then s else divWrite (field w 10 2) s

/-- A fabric-only reset is refused while PASS1, SWEEP or recovery runs (R473). -/
def fabricBusyPhase (s : State) : Bool := s.step.phase == .pass1 || s.step.phase == .sweep || recovering s

/-- A write of GCTL (R473). Before READY it accepts WARM_RESET only (R485). -/
def writeGctl (w : Word) (s : State) : State :=
  let keyBad := w.getLsbD 0 && (field w 48 16 : BitVec 16) != 0x5752
  if 1 < popCount (field w 0 4) then gctlErr 1 s
  else if s.boot.stage != .ready then
    if !w.getLsbD 0 then s
    else if keyBad then gctlErr 2 s
    else if s.boot.warm then gctlErr 5 s
    else warmBegin 0x05 (gctlErr 0 s)
  else
    let s := gctlFields w s
    if keyBad then gctlErr 2 s
    else if (field w 10 2 : BitVec 2) = 3 then gctlErr 3 s
    else if w.getLsbD 3 && fabricBusyPhase s then gctlErr 4 s
    else if (w.getLsbD 3 && s.boot.fabricReset) || (w.getLsbD 2 && s.boot.linkResetW) ||
        (w.getLsbD 1 && s.boot.linkResetE) then gctlErr 5 s
    else
      let s := gctlErr 0 s
      if w.getLsbD 3 then fabricResetStart s
      else if w.getLsbD 2 then linkOnlyReset .west s
      else if w.getLsbD 1 then linkOnlyReset .east s
      else if w.getLsbD 0 then warmBegin 0x05 s
      else s

/-! ## Power states (R480-R483) -/

/-- An ACTIVE cause holds (R481). -/
def activeCause (s : State) : Bool :=
  (match s.step.phase with
    | .sealed | .normPass | .awaitVerdict | .pass1 | .sweep => true
    | _ => false) ||
  s.verdict.flashPending || (s.strm.chans.any fun c => c.task.isSome) || (s.xch.chans.any fun c => c.state.active) ||
  passRunning s || s.image.shadow == .loading || s.image.shadow == .verifying || s.image.molting ||
  s.ttab.loading || s.tongue.map == .building || s.fab.draining || s.boot.fabricReset || s.clk.divUntil.isSome

/-- The state that PHASE asks for while no ACTIVE cause holds (R480). -/
def restState (s : State) : PwrState := if s.step.phase == .observe then .observe else .idle

/-- Nothing is queued or unacknowledged on a link (R482). -/
def linkQuiet (l : LinkEnd) : Bool := l.own.isEmpty && l.transit.isEmpty && l.replay.isEmpty && l.resend.isEmpty

/-- The conditions of RETAIN (R482). -/
def retainOk (s : State) : Bool :=
  s.power.retainBit && s.power.state == .idle && linkQuiet s.east && linkQuiet s.west && s.fmp.out.isEmpty &&
  s.far.out.isEmpty

/-- The units gated outside ACTIVE are ungated in 8 groups, 120 ctrl cycles apart (R555). -/
def wakeGroups : Nat := 8
def wakeSpacing : Nat := 120

/-- Groups that the wake under way has ungated so far (R555). -/
def groupsUngated (s : State) : Nat :=
  match s.power.wakeFrom with
  | some t => min wakeGroups (1 + (now s - t) / wakeSpacing)
  | none => 0

/-- ACTIVE is entered, and its first group of units ungated, unless they are usable already (R481, R555). -/
def wakeBegin (s : State) : State :=
  setPower (fun p => { p with
    state := .active, lastCause := now s
    wakeFrom := if p.usable then none else some (p.wakeFrom.getD (now s)) }) s

/-- The gated units are usable once the last group is ungated, and FETCH's rise begins then (R481, R555, R565). -/
def powerWake (s : State) : State :=
  let s := if activeCause s || s.power.forceActive then wakeBegin s else s
  if groupsUngated s = wakeGroups then
    rampStart (setPower (fun p => { p with usable := true, wakeFrom := none }) s)
  else s

/-- ACTIVE is left after 9,600 ctrl cycles without a cause (R481). -/
def activeExit (s : State) : State :=
  if s.power.state == .active && !activeCause s && !s.power.forceActive && s.power.lastCause + 9600 ≤ now s then
    setPower (fun p => { p with state := restState s, usable := false, wakeFrom := none }) s
  else s

/-- RETAIN is entered once its conditions have held long enough (R482). -/
def retainEnter (s : State) : State :=
  match s.power.retainSince with
  | some t =>
    if retainOk s && t + s.power.retainHold ≤ now s then
      setPower (fun p => { p with state := .retain, retainSince := none, wakeDue := false }) s
    else s
  | none => s

/-- RETAIN is left; any cause but the write makes the next entry wait 1 ms (R482). -/
def retainLeave (s : State) : State :=
  if s.power.state == .retain && s.power.wakeDue then
    setPower (fun p => { p with
      state := .idle, wakeDue := false, retainSince := none, retainHold := if p.retainBit then 480000 else 480 }) s
  else s

/-! ## The rows -/

/-- PWR_OK_LOW (R461). -/
def execPwrOkLow (ns : Nat) (s : State) : Out := .next (coldPin (fun b => { b with pwrOk := false }) 0x01 ns s)
/-- COLD_RESET (R475). -/
def execColdReset (ns : Nat) (s : State) : Out := .next (coldPin (fun b => { b with rstColdN := false }) 0x02 ns s)
/-- PLL_LOCK (R468). -/
def execPllLock (s : State) : Out :=
  .next (if s.boot.pwrOk && s.boot.rstColdN && !s.clk.pllLocked then startBoot { s with clk := { pllLocked := true } } else s)
/-- PLL_UNLOCK (R469). -/
def execPllUnlock (s : State) : Out := .next (if s.clk.pllLocked then coldClear 0x03 false s else s)
/-- VAULT_INIT_DONE (R484, R491): every word is read and the block drawn, or the bound of 480,000 cycles is over. -/
def execVaultInitDone (s : State) : Out :=
  .next (
    let busy := (match s.kst.cur with
      | some (o, _) => o.use == .init
      | none => false) || !s.kst.todo.isEmpty || 0 < s.vault.blocksDue
    if portOpen s && s.boot.stage == .vault && (!busy || s.boot.since + 480000 ≤ now s) then
      let s := vaultJudge { s with
        kst := s.kst.begun, vault := { s.vault with blocksDue := 0 } }
      if s.boot.warm then reachReady s
      else setBoot (fun b => { b with stage := .sram, code := 0x3, since := now s }) s
    else s)
/-- SRAM_SELFTEST_DONE (R484): READY, or BOOT FAILED with SRAM_UNREPAIRABLE and croak. -/
def execSramSelftestDone (ok : Bool) (s : State) : Out :=
  .next (
    if portOpen s && s.boot.stage == .sram then
      if ok then reachReady s
      else croakSet 0x80 (setBoot (fun b => { b with stage := .failed, code := 0xF, bootErr := 1 }) s)
    else s)
/-- WARM_RESET (R476). -/
def execWarmReset (ns : Nat) (s : State) : Out := .next (warmPin ns s)
/-- GCTL_WARM_RESET (R473). -/
def execGctlWarmReset (w : Word) (s : State) : Out := .next (ctlWrite gctlAddr w (writeGctl w) s)
/-- WARM_RESET_DRAIN_DONE (R476). -/
def execWarmResetDrainDone (s : State) : Out :=
  .next (if running s && s.boot.stage == .drain && memDrained s then startBoot (warmClear s) else s)
/-- LINK_RESET (R477). -/
def execLinkReset (w : Word) (s : State) : Out := .next (ctlWrite gctlAddr w (writeGctl w) s)
/-- FABRIC_RESET (R478). -/
def execFabricReset (w : Word) (s : State) : Out := .next (ctlWrite gctlAddr w (writeGctl w) s)
/-- FABRIC_RESET_DONE (R478). -/
def execFabricResetDone (s : State) : Out :=
  .next (match s.boot.fabricUntil with
    | some t => if ready s && t ≤ s.clk.fab then fabricResetEnd s else s
    | none => s)
/-- FAB_DIV_WRITE (R470). -/
def execFabDivWrite (w : Word) (s : State) : Out := .next (ctlWrite gctlAddr w (writeGctl w) s)
/-- FAB_DIV_APPLY (R470). -/
def execFabDivApply (s : State) : Out := .next (if ready s then divApply s else s)
/-- POWER_WAKE_DONE (R481). -/
def execPowerWakeDone (s : State) : Out := .next (if ready s then powerWake s else s)
/-- ACTIVE_EXIT (R481). -/
def execActiveExit (s : State) : Out := .next (if ready s then activeExit s else s)
/-- RETAIN_ENTRY (R482). -/
def execRetainEntry (s : State) : Out := .next (if ready s then retainEnter s else s)
/-- RETAIN_WAKE (R482). -/
def execRetainWake (s : State) : Out := .next (if ready s then retainLeave s else s)
/-- RESET_RELEASE (R485). -/
def execResetRelease (pin : ResetPin) (s : State) : Out := .next (release pin s)

end Sys2Proof.Machine
end

