-- ==== Sys2Proof/Machine/Control.lean ====
section
/-! DEFINITION. The control port's plain writes, register by register; commits at their boundaries; snapshots;
quotes (R443-R446, R498, R524-R531, R536). -/
namespace Sys2Proof.Machine

/-! ## Staged sets at their boundaries (R530, R531) -/

/-- A pending epoch at its boundary; a plan that a molt took away rejects it there (R219, R531). -/
def applyEpoch (s : State) : State :=
  match s.memb.pending with
  | some (_, b) =>
    if now s < b then s
    else if (planOf s).isNone then { s with memb := { s.memb with pending := none, err := 4 } }
    else applyMemb s
  | none => s

def applyStaged (b : StagedBlock) (s : State) : State :=
  match b with
  | .stepk => applyStepk s
  | .swp => applySwp s
  | .memb => applyEpoch s
  | .strm => applyStrm s
  | .xch => applyXchSet s
  | .mp => applyMp s

/-! ## Snapshots (R536) -/

/-- A write of SNAP_CTL. -/
def writeSnapCtl (w : Word) (s : State) : State :=
  if w.getLsbD 0 then
    { s with snap := { seq := s.snap.seq + 1, valid := true, time := time s
                       mirror := snapAddrs.map fun a => (BitVec.ofNat 24 a, (readLive s a).getD 0) } }
  else s

/-! ## Quotes (R498, R499) -/

/-- The record captured at acceptance; none where a selected offset names no register. -/
def quoteCapture (s : State) : Option (List Byte) :=
  if selectBad s (readReg s) then none
  else some (quoteBytes s (readReg s) (croakWord s) (put 0 s.memb.state.code) s.step.step idVersion
    ((activeImage s).map (·.digest)))

/-! ## Writes of registers without an action (R524) -/

def writeStepk (i : Nat) (w : Word) (s : State) : State := setStepk (fun k => { k with stage := k.stage.set i w }) s
def writeSwpBase (i : Nat) (w : Word) (s : State) : State :=
  setSwp (fun b => { b with stage := b.stage.set i (field w 6 34) }) s

/-- MP_PARTn: CAP and GUARANTEE; CLASSES is the plan's (R311). The writes of a ctrl cycle are kept for a port plan that
is loaded in it (R526). -/
def writeMpPart (i : Nat) (w : Word) (s : State) : State :=
  setMem (fun m => { m with
    stage := { m.stage with parts := stagePart m.stage.parts (i, w) }
    partAt := now s
    partNow := (if m.partAt = now s then m.partNow else []) ++ [(i, w)] }) s

def writeThmCfg (w : Word) (s : State) : State :=
  setMem (fun m => { m with stage := { m.stage with warnMargin := field w 8 8, step := field w 0 4 } }) s

def writeMpFault (w : Word) (s : State) : State := setMem (fun m => { m with fault := m.fault.clear (now s) w }) s
def writeFabFault (w : Word) (s : State) : State := setFab (fun f => { f with fault := f.fault.clear (now s) w }) s
def writePondFault (w : Word) (s : State) : State :=
  { s with pond := { s.pond with fault := s.pond.fault.clear (now s) w } }

/-- A W1C bit after a write of 1: one set in the same ctrl cycle stays set (R525). -/
def w1c (b : Bool) (setAt : Nat) (s : State) : Bool := b && setAt == now s

/-- CHn_RING_BASE and CHn_RING_CFG (R348). -/
def writeRingBase (n : Nat) (w : Word) (s : State) : State :=
  setChan n (fun c => { c with stage := { c.stage with base := field w 9 31 } }) s
def writeRingCfg (n : Nat) (w : Word) (s : State) : State :=
  setChan n (fun c => { c with stage := { c.stage with
    enable := w.getLsbD 63, lead := field w 32 16, floor := field w 16 11, prio := field w 8 2, sizeLog2 := field w 0 5 } }) s

/-- A stream channel's registers by offset (R348). -/
def writeChannel (n off : Nat) (w : Word) (s : State) : State :=
  if off = 0x00 then writeRingBase n w s
  else if off = 0x08 then writeRingCfg n w s
  else if off = 0x10 then writeTail n w s
  else if off = 0x18 then writeChCtl n w s
  else s

/-- An export or delta channel's registers by offset (R371). -/
def writeXchReg (k off : Nat) (w : Word) (s : State) : State :=
  if off = 0x00 then setXch k (fun c => { c with stage := { c.stage with far := field w 6 58 } }) s
  else if off = 0x08 then setXch k (fun c => { c with stage := { c.stage with sync := field w 7 57 } }) s
  else if off = 0x10 then
    setXch k (fun c => { c with stage := { c.stage with
      enable := w.getLsbD 63, doorbellLines := field w 32 16, sizeLog2 := field w 24 5, arena := field w 0 4 } }) s
  else if off = 0x18 then setXch k (fun c => { c with last := field w 32 14, first := field w 0 14 }) s
  else if off = 0x20 then writeXchCtl k w s
  else s

def setMaskRegs (f : MaskRegs → MaskRegs) (s : State) : State :=
  { s with rng := { s.rng with mask := { s.rng.mask with regs := f s.rng.mask.regs } } }

/-- The random-bit block (R384, R390, R393). -/
def writeRandom (a : Nat) (w : Word) (s : State) : State :=
  if a = 0x070000 then
    (if w.getLsbD 4 then { s with rng := { s.rng with genFault := w1c s.rng.genFault s.rng.genFaultAt s } } else s)
  else if a = 0x070008 then writeRngCtl w s
  else if a = 0x070200 then setMaskRegs (fun r => { r with dst := field w 6 34 }) s
  else if a = 0x070208 then
    setMaskRegs (fun r => { r with
      format := field w 62 2, fresh := w.getLsbD 61, scale := field w 36 16, count := field w 0 36 }) s
  else if a = 0x070210 then
    setMaskRegs (fun r => { r with keyStep := field w 32 32, tensor := field w 16 14, purpose := field w 0 8 }) s
  else if a = 0x070218 then setMaskRegs (fun r => { r with first := field w 0 36 }) s
  else if a = 0x070220 then setMaskRegs (fun r => { r with thresh := field w 0 33 }) s
  else if a = 0x070228 then writeMaskCtl w s
  else match slotOf 0x071000 128 a with
    | some n => writeLane n w s
    | none => s

/-- QUOTE_NONCE and QUOTE_SEL (R503). -/
def writeQuoteRegs (a : Nat) (w : Word) (s : State) : State :=
  match slotOf 0x0C0100 6 a, slotOf 0x0C0140 8 a with
  | some i, _ => { s with vault := { s.vault with nonce := s.vault.nonce.set i w } }
  | none, some i =>
    { s with vault := { s.vault with sel := s.vault.sel.set i (putBit 31 (w.getLsbD 31) ||| put 0 (field w 0 24)) } }
  | none, none => s

/-- Blocks 0x00 and 0x01. -/
def writeGlobal (a : Nat) (w : Word) (s : State) : State :=
  if a = 0x08 then writeGctl w s
  else if a = 0x28 then writeStepCtl w s
  else if a = 0x100 then writeSnapCtl w s
  else if a = 0x240 then writeStepkCommit w s
  else if a = 0x250 then writeLscale w s
  else if a = 0x300 then writeAuxCtl w s
  else if a = 0x460 then writeSwpCommit w s
  else if a = 0x468 then setTtab (fun t => { t with addr := field w 6 34 }) s
  else if a = 0x470 then writeTtabCtl w s
  else if a = 0x478 then writeSweepCtl w s
  else if a = 0x010000 then writeArm w s
  else if a = 0x010200 then { s with memb := { s.memb with stage := field w 0 32 } }
  else if a = 0x010208 then writeMembCommit w s
  else if a = 0x010318 then writeRootLsn w s
  else if a = 0x010400 then writeLease w s
  else match slotOf 0x200 8 a, slotOf 0x400 11 a with
    | some i, _ => writeStepk i w s
    | none, some i => writeSwpBase i w s
    | none, none => s

/-- Blocks 0x02 to 0x06. -/
def writeMiddle (a : Nat) (w : Word) (s : State) : State :=
  if a = 0x020000 then setImage (fun u => { u with addr := field w 6 58 }) s
  else if a = 0x020008 then setImage (fun u => { u with srcFar := w.getLsbD 32, len := field w 0 20 }) s
  else if a = 0x020010 then writeImgCtl w s
  else if a = 0x030010 then writeMpFault w s
  else if a = 0x030018 then writeThmCfg w s
  else if a = 0x030140 then writeMpCommit w s
  else if a = 0x040008 then writeFabShed w s
  else if a = 0x040010 then writeFabFault w s
  else if a = 0x040018 then writeFabCtl w s
  else if a = 0x050008 then writeStrmCommit w s
  else if a = 0x050018 then writePondFault w s
  else if a = 0x050080 then writePqCtl w s
  else if a = 0x060000 then writeXchCommit w s
  else if 0x051000 ≤ a && a < 0x051400 then writeChannel ((a - 0x051000) / 0x40) ((a - 0x051000) % 0x40) w s
  else if 0x061000 ≤ a && a < 0x061200 then writeXchReg ((a - 0x061000) / 0x40) ((a - 0x061000) % 0x40) w s
  else match slotOf 0x030100 8 a with
    | some i => writeMpPart i w s
    | none => s

/-- Blocks 0x07 to 0x0C. -/
def writeHigh (a : Nat) (w : Word) (s : State) : State :=
  if a < 0x080000 then writeRandom a w s
  else if a = 0x080008 then writeXlCtl .east w s
  else if a = 0x081008 then writeXlCtl .west w s
  else if a = 0x090000 then { s with fmp := { s.fmp with self := field w 0 32 } }
  else if a = 0x090008 then
    (if w.getLsbD 32 then { s with fmp := { s.fmp with lost := w1c s.fmp.lost s.fmp.lostAt s } } else s)
  else if a = 0x0A0000 then
    (if w.getLsbD 0 then { s with far := { s.far with timeout := w1c s.far.timeout s.far.timeoutAt s } } else s)
  else if a = 0x0B0000 then writeCroak w s
  else if a = 0x0B0008 then writeSramFault w s
  else if a = 0x0B0010 then writeErrStatus w s
  else if a = 0x0B0038 then writeErrPop w s
  else if a = 0x0C0008 then writeVaultOp w quoteCapture s
  else writeQuoteRegs a w s

/-- What a write of a register does; one that holds only RO fields changes nothing (R524). -/
def writeReg (a : Nat) (w : Word) (s : State) : State :=
  if a < 0x020000 then writeGlobal a w s
  else if a < 0x070000 then writeMiddle a w s
  else if a < 0x0D0000 then writeHigh a w s
  else s

/-- The address as the port carries it: bits 23:3 (R443). -/
def portAddr (a : Addr24) : Addr24 := (a >>> 3) <<< 3

/-- A write request on the control port: PARITY, UNMAPPED, or the register's own effect (R443, R445, R523, R524). -/
def portWrite (addr : Addr24) (w : Word) (par : BitVec 12) (s : State) : State :=
  let a := portAddr addr
  if !portOpen s then s
  else if !parityOk (ctlBundle addr w) par then respond 0x06 (countPort 4 1 s)
  else if (readReg s a).isNone then unmapped s
  else ctlWrite a w (writeReg a.toNat w) s

/-! ## The rows -/

/-- STAGED_SET_APPLY (R530). -/
def execStagedSetApply (blk : StagedBlock) (s : State) : Out := .next (if ready s then applyStaged blk s else s)
/-- REGISTER_WRITE (R524). -/
def execRegisterWrite (addr : Addr24) (w : Word) (par : BitVec 12) (s : State) : Out := .next (portWrite addr w par s)
/-- SNAP_TAKE (R536). -/
def execSnapTake (w : Word) (s : State) : Out := .next (ctlWrite 0x000100 w (writeSnapCtl w) s)
/-- VAULT_QUOTE (R498). -/
def execVaultQuote (w : Word) (s : State) : Out := .next (ctlWrite vaultOpAddr w (writeVaultOp w quoteCapture) s)

end Sys2Proof.Machine
end

