-- ==== Sys2Proof/Machine/Dispatch.lean ====
section
/-! DEFINITION. One arm per command: its meaning. -/
namespace Sys2Proof.Machine

def exec (i : Instr) (s : State) : Host.Outcome State Fault Refusal :=
  match i with
  | .sealPulse => Sys2Proof.Machine.execSealPulse s
  | .stepCtlSeal w => Sys2Proof.Machine.execStepCtlSeal w s
  | .normPassDone => Sys2Proof.Machine.execNormPassDone s
  | .abortReq => Sys2Proof.Machine.execAbortReq s
  | .stepCtlAbort w => Sys2Proof.Machine.execStepCtlAbort w s
  | .stepCtlLoadStep w => Sys2Proof.Machine.execStepCtlLoadStep w s
  | .stepCtlClearHalt w => Sys2Proof.Machine.execStepCtlClearHalt w s
  | .tongueArm w => Sys2Proof.Machine.execTongueArm w s
  | .armClearDone => Sys2Proof.Machine.execArmClearDone s
  | .hostReadRequest port tag req par => Sys2Proof.Machine.execHostReadRequest port tag req par s
  | .hostWriteRequest port tag req mask data par => Sys2Proof.Machine.execHostWriteRequest port tag req mask data par s
  | .hostWriteCompletion port tag => Sys2Proof.Machine.execHostWriteCompletion port tag s
  | .hostReturnNak port nakTag nakPar => Sys2Proof.Machine.execHostReturnNak port nakTag nakPar s
  | .hostCompletionNak port nakTag nakPar => Sys2Proof.Machine.execHostCompletionNak port nakTag nakPar s
  | .arbiterGrant chan write tag => Sys2Proof.Machine.execArbiterGrant chan write tag s
  | .memoryReadReturn chan tag data par => Sys2Proof.Machine.execMemoryReadReturn chan tag data par s
  | .memoryReadNak chan nakTag nakPar => Sys2Proof.Machine.execMemoryReadNak chan nakTag nakPar s
  | .memoryWriteNak chan nakTag nakPar => Sys2Proof.Machine.execMemoryWriteNak chan nakTag nakPar s
  | .nakCycleEnd kind port tag => Sys2Proof.Machine.execNakCycleEnd kind port tag s
  | .wcbTimeout line => Sys2Proof.Machine.execWcbTimeout line s
  | .tadpoleAgeLimit chan => Sys2Proof.Machine.execTadpoleAgeLimit chan s
  | .regulatorWindowBoundary => Sys2Proof.Machine.execRegulatorWindowBoundary s
  | .thermalReport temp limit par => Sys2Proof.Machine.execThermalReport temp limit par s
  | .thermalStale => Sys2Proof.Machine.execThermalStale s
  | .throttleDutyWindow => Sys2Proof.Machine.execThrottleDutyWindow s
  | .contrib src m => Sys2Proof.Machine.execContrib src m s
  | .sum src m => Sys2Proof.Machine.execSum src m s
  | .skipNotice src m => Sys2Proof.Machine.execSkipNotice src m s
  | .holdNotice src m => Sys2Proof.Machine.execHoldNotice src m s
  | .abortNotice src m => Sys2Proof.Machine.execAbortNotice src m s
  | .join src m => Sys2Proof.Machine.execJoin src m s
  | .joinSum src m => Sys2Proof.Machine.execJoinSum src m s
  | .epochOpen src m => Sys2Proof.Machine.execEpochOpen src m s
  | .contribTimeout => Sys2Proof.Machine.execContribTimeout s
  | .joinTimeout => Sys2Proof.Machine.execJoinTimeout s
  | .verdictRecordGo src m => Sys2Proof.Machine.execVerdictRecordGo src m s
  | .verdictRecordSkip src m => Sys2Proof.Machine.execVerdictRecordSkip src m s
  | .verdictRecordAbort src m => Sys2Proof.Machine.execVerdictRecordAbort src m s
  | .flashGo side => Sys2Proof.Machine.execFlashGo side s
  | .flashSkip side => Sys2Proof.Machine.execFlashSkip side s
  | .flashHold side => Sys2Proof.Machine.execFlashHold side s
  | .flashAbort side => Sys2Proof.Machine.execFlashAbort side s
  | .gateOpen => Sys2Proof.Machine.execGateOpen s
  | .leaseAcquire w => Sys2Proof.Machine.execLeaseAcquire w s
  | .leaseRenew w => Sys2Proof.Machine.execLeaseRenew w s
  | .leaseRelease w => Sys2Proof.Machine.execLeaseRelease w s
  | .leaseRead w => Sys2Proof.Machine.execLeaseRead w s
  | .membCommit w => Sys2Proof.Machine.execMembCommit w s
  | .rootLsnWrite w => Sys2Proof.Machine.execRootLsnWrite w s
  | .mapBuildDone => Sys2Proof.Machine.execMapBuildDone s
  | .fetchIssue => Sys2Proof.Machine.execFetchIssue s
  | .tileEnterChain => Sys2Proof.Machine.execTileEnterChain s
  | .momentGroupHandover => Sys2Proof.Machine.execMomentGroupHandover s
  | .confirmReadReturn chan tag data par => Sys2Proof.Machine.execConfirmReadReturn chan tag data par s
  | .momentsConfirmed => Sys2Proof.Machine.execMomentsConfirmed s
  | .weightGroupHandover => Sys2Proof.Machine.execWeightGroupHandover s
  | .weightsConfirmed => Sys2Proof.Machine.execWeightsConfirmed s
  | .pass1Done => Sys2Proof.Machine.execPass1Done s
  | .sweepHalt => Sys2Proof.Machine.execSweepHalt s
  | .marksLineWrite => Sys2Proof.Machine.execMarksLineWrite s
  | .residueFault rank lane unit ord => Sys2Proof.Machine.execResidueFault rank lane unit ord s
  | .shedDrainDone => Sys2Proof.Machine.execShedDrainDone s
  | .codecMismatch ord => Sys2Proof.Machine.execCodecMismatch ord s
  | .genMismatch mask ord => Sys2Proof.Machine.execGenMismatch mask ord s
  | .stepkCommit w => Sys2Proof.Machine.execStepkCommit w s
  | .swpCommit w => Sys2Proof.Machine.execSwpCommit w s
  | .stagedSetApply blk => Sys2Proof.Machine.execStagedSetApply blk s
  | .ttabLoad w => Sys2Proof.Machine.execTtabLoad w s
  | .tableLoadDone => Sys2Proof.Machine.execTableLoadDone s
  | .sweepResume w => Sys2Proof.Machine.execSweepResume w s
  | .sweepRecover w => Sys2Proof.Machine.execSweepRecover w s
  | .fabShedWrite w => Sys2Proof.Machine.execFabShedWrite w s
  | .fabCntClear w => Sys2Proof.Machine.execFabCntClear w s
  | .emaStart w => Sys2Proof.Machine.execEmaStart w s
  | .emaReseed w => Sys2Proof.Machine.execEmaReseed w s
  | .emaPassDone => Sys2Proof.Machine.execEmaPassDone s
  | .lscaleLoad w => Sys2Proof.Machine.execLscaleLoad w s
  | .imgLoad w => Sys2Proof.Machine.execImgLoad w s
  | .imageReadDone => Sys2Proof.Machine.execImageReadDone s
  | .imageVerifyDone => Sys2Proof.Machine.execImageVerifyDone s
  | .imgMolt w => Sys2Proof.Machine.execImgMolt w s
  | .moltDone => Sys2Proof.Machine.execMoltDone s
  | .portPlanApply => Sys2Proof.Machine.execPortPlanApply s
  | .imgDiscard w => Sys2Proof.Machine.execImgDiscard w s
  | .chTailWrite n w => Sys2Proof.Machine.execChTailWrite n w s
  | .descriptorFetchDone n => Sys2Proof.Machine.execDescriptorFetchDone n s
  | .chStop n w => Sys2Proof.Machine.execChStop n w s
  | .chCancel n w => Sys2Proof.Machine.execChCancel n w s
  | .chResume n w => Sys2Proof.Machine.execChResume n w s
  | .chReset n w => Sys2Proof.Machine.execChReset n w s
  | .streamBurstGrant issue => Sys2Proof.Machine.execStreamBurstGrant issue s
  | .farBurstGrant write tags => Sys2Proof.Machine.execFarBurstGrant write tags s
  | .pieceWritesDone n piece => Sys2Proof.Machine.execPieceWritesDone n piece s
  | .pqPop n => Sys2Proof.Machine.execPqPop n s
  | .streamReadbackReturn n ret => Sys2Proof.Machine.execStreamReadbackReturn n ret s
  | .descriptorWritebackDone n => Sys2Proof.Machine.execDescriptorWritebackDone n s
  | .padWatchdog n => Sys2Proof.Machine.execPadWatchdog n s
  | .pondStall => Sys2Proof.Machine.execPondStall s
  | .prefetchUrgent => Sys2Proof.Machine.execPrefetchUrgent s
  | .deadlineMiss n => Sys2Proof.Machine.execDeadlineMiss n s
  | .pondAllocate picks => Sys2Proof.Machine.execPondAllocate picks s
  | .padFree handle freer => Sys2Proof.Machine.execPadFree handle freer s
  | .pqFlush w => Sys2Proof.Machine.execPqFlush w s
  | .strmCommit w => Sys2Proof.Machine.execStrmCommit w s
  | .xchCommit w => Sys2Proof.Machine.execXchCommit w s
  | .xchStart k w => Sys2Proof.Machine.execXchStart k w s
  | .xchStop k w => Sys2Proof.Machine.execXchStop k w s
  | .rebase k w => Sys2Proof.Machine.execRebase k w s
  | .exportDone k => Sys2Proof.Machine.execExportDone k s
  | .deltaStepEnd k => Sys2Proof.Machine.execDeltaStepEnd k s
  | .doorbellWrite k => Sys2Proof.Machine.execDoorbellWrite k s
  | .creditRead k => Sys2Proof.Machine.execCreditRead k s
  | .farReadData tag resp data par => Sys2Proof.Machine.execFarReadData tag resp data par s
  | .farWriteResponse tag resp par => Sys2Proof.Machine.execFarWriteResponse tag resp par s
  | .farRequestNak write nakTag nakPar => Sys2Proof.Machine.execFarRequestNak write nakTag nakPar s
  | .farTimeout write tag => Sys2Proof.Machine.execFarTimeout write tag s
  | .maskStart w => Sys2Proof.Machine.execMaskStart w s
  | .maskStop w => Sys2Proof.Machine.execMaskStop w s
  | .maskFillDone => Sys2Proof.Machine.execMaskFillDone s
  | .reseedNow w => Sys2Proof.Machine.execReseedNow w s
  | .reseedInterval => Sys2Proof.Machine.execReseedInterval s
  | .reseed => Sys2Proof.Machine.execReseed s
  | .noiseRawBit bit => Sys2Proof.Machine.execNoiseRawBit bit s
  | .conditionedBlock => Sys2Proof.Machine.execConditionedBlock s
  | .rngLaneWrite n w => Sys2Proof.Machine.execRngLaneWrite n w s
  | .linkClockLock side locked => Sys2Proof.Machine.execLinkClockLock side locked s
  | .patternDone side errors => Sys2Proof.Machine.execPatternDone side errors s
  | .marginDone side margins => Sys2Proof.Machine.execMarginDone side margins s
  | .mapWord side word crc => Sys2Proof.Machine.execMapWord side word crc s
  | .ident side frame => Sys2Proof.Machine.execIdent side frame s
  | .identityDone side => Sys2Proof.Machine.execIdentityDone side s
  | .trainAttemptFailed side => Sys2Proof.Machine.execTrainAttemptFailed side s
  | .linkRetrain side w => Sys2Proof.Machine.execLinkRetrain side w s
  | .holdDownWrite side w => Sys2Proof.Machine.execHoldDownWrite side w s
  | .xlSleepWrite side w => Sys2Proof.Machine.execXlSleepWrite side w s
  | .xlTestWrite side w => Sys2Proof.Machine.execXlTestWrite side w s
  | .trainMarker side => Sys2Proof.Machine.execTrainMarker side s
  | .runMarker side => Sys2Proof.Machine.execRunMarker side s
  | .verdictMarker side => Sys2Proof.Machine.execVerdictMarker side s
  | .sleepMarker side => Sys2Proof.Machine.execSleepMarker side s
  | .forwardedClockLost side => Sys2Proof.Machine.execForwardedClockLost side s
  | .frameReceive side frame => Sys2Proof.Machine.execFrameReceive side frame s
  | .chameleonWord side lane word crc => Sys2Proof.Machine.execChameleonWord side lane word crc s
  | .replayTimeout side => Sys2Proof.Machine.execReplayTimeout side s
  | .crcWindowEnd side => Sys2Proof.Machine.execCrcWindowEnd side s
  | .frameSlot side => Sys2Proof.Machine.execFrameSlot side s
  | .linkState side m => Sys2Proof.Machine.execLinkState side m s
  | .linkStateTimer => Sys2Proof.Machine.execLinkStateTimer s
  | .downRetry side => Sys2Proof.Machine.execDownRetry side s
  | .wakeRequest side => Sys2Proof.Machine.execWakeRequest side s
  | .testFlit side m => Sys2Proof.Machine.execTestFlit side m s
  | .fmpData beats => Sys2Proof.Machine.execFmpData beats s
  | .fmpAck beats => Sys2Proof.Machine.execFmpAck beats s
  | .fmpResendTimeout dest seq => Sys2Proof.Machine.execFmpResendTimeout dest seq s
  | .eventEmit => Sys2Proof.Machine.execEventEmit s
  | .kstAck rdata err par => Sys2Proof.Machine.execKstAck rdata err par s
  | .kstTimeout => Sys2Proof.Machine.execKstTimeout s
  | .registerWrite addr w par => Sys2Proof.Machine.execRegisterWrite addr w par s
  | .pwrOkLow ns => Sys2Proof.Machine.execPwrOkLow ns s
  | .coldReset ns => Sys2Proof.Machine.execColdReset ns s
  | .pllLock => Sys2Proof.Machine.execPllLock s
  | .pllUnlock => Sys2Proof.Machine.execPllUnlock s
  | .vaultInitDone => Sys2Proof.Machine.execVaultInitDone s
  | .sramSelftestDone ok => Sys2Proof.Machine.execSramSelftestDone ok s
  | .warmReset ns => Sys2Proof.Machine.execWarmReset ns s
  | .gctlWarmReset w => Sys2Proof.Machine.execGctlWarmReset w s
  | .warmResetDrainDone => Sys2Proof.Machine.execWarmResetDrainDone s
  | .linkReset w => Sys2Proof.Machine.execLinkReset w s
  | .fabricReset w => Sys2Proof.Machine.execFabricReset w s
  | .fabricResetDone => Sys2Proof.Machine.execFabricResetDone s
  | .fabDivWrite w => Sys2Proof.Machine.execFabDivWrite w s
  | .fabDivApply => Sys2Proof.Machine.execFabDivApply s
  | .powerWakeDone => Sys2Proof.Machine.execPowerWakeDone s
  | .activeExit => Sys2Proof.Machine.execActiveExit s
  | .retainEntry => Sys2Proof.Machine.execRetainEntry s
  | .retainWake => Sys2Proof.Machine.execRetainWake s
  | .vaultKeygen w => Sys2Proof.Machine.execVaultKeygen w s
  | .vaultProgram w => Sys2Proof.Machine.execVaultProgram w s
  | .vaultLock w => Sys2Proof.Machine.execVaultLock w s
  | .vaultRead w => Sys2Proof.Machine.execVaultRead w s
  | .vaultQuote w => Sys2Proof.Machine.execVaultQuote w s
  | .quoteDone => Sys2Proof.Machine.execQuoteDone s
  | .sramUe array word scrub sfu => Sys2Proof.Machine.execSramUe array word scrub sfu s
  | .sramCe array word scrub => Sys2Proof.Machine.execSramCe array word scrub s
  | .scrubInterval => Sys2Proof.Machine.execScrubInterval s
  | .croakEccWindow => Sys2Proof.Machine.execCroakEccWindow s
  | .croakCauseWrite w => Sys2Proof.Machine.execCroakCauseWrite w s
  | .errPop w => Sys2Proof.Machine.execErrPop w s
  | .snapTake w => Sys2Proof.Machine.execSnapTake w s
  | .mpCommit w => Sys2Proof.Machine.execMpCommit w s
  | .resetRelease pin => Sys2Proof.Machine.execResetRelease pin s
  | .forwardedClockDetected side => Sys2Proof.Machine.execForwardedClockDetected side s

end Sys2Proof.Machine
end

