-- ==== Sys2Proof/Machine/Tick.lean ====
section
/-! DEFINITION. One port cycle without a command: what the spec says happens at a clock edge whatever is
commanded (the counters of cycles, the chain's beats, the power state that PHASE asks for). The table has
no row for the clock: DESIGN CHOICE. -/
namespace Sys2Proof.Machine

/-- Root cycles per fab cycle, by FAB_DIV (R14, R470). -/
def fabRatio (d : BitVec 2) : Nat := if d = 0 then 5 else if d = 1 then 6 else 8

/-- A request waits for channel k and has not been granted in the cycle (R315). -/
def channelWaits (s : State) (k : Nat) : Bool := s.mem.waiting.any fun w => (channelOf s w.req.line).toNat == k

/-- Pieces that still wait for room in the reorder window have not entered it (R304). -/
def windowEntry (s : State) : State :=
  if (s.mem.waiting.countP fun w => w.req.isPiece) ≤ windowPieces then s
  else setMem (fun m => { m with waiting := (m.waiting.zipIdx).map fun (w, i) =>
    if w.req.cls == .tadpole && !inReorder s i then { w with since := portNow s + 1 } else w }) s

/-- The port cycle under way ends in the memory path: waits, grants, THROTTLE_CYCLES, PAUSE_CYCLES and the duty of R294
(R16, R285, R314, R315). -/
def tickMem (s : State) : State :=
  let s := windowEntry (windowCatchUp s)
  let hot := s.mem.thermal.level != 0
  let chans := (s.mem.chans.zipIdx).map fun (c, k) => if channelWaits s k then { c with wait := c.wait + 1 } else c
  let duty := if hot then s.mem.thermal.dutyCycles + 1 else s.mem.thermal.dutyCycles
  let s := setMem (fun m => { m with
    chans := chans
    granted := []
    slotMoved := m.slotMoved.filter fun x => portNow s < x.2
    hostNaks := m.hostNaks.filter fun x => portNow s < x.cycle
    thermal := { m.thermal with dutyCycles := duty } }) s
  countMp 3 (if s.mem.thermal.paused then 1 else 0) (countMp 2 (if hot then 1 else 0) s)

/-- EVT_QUEUE_FULL: the port cycles with the event queue full (R448, R466). -/
def tickEvents (s : State) : State := countPort 7 (if s.evt.queue.length < 256 then 0 else 1) s

/-- Words of the counter-based generator that the pass draws in a cycle: the beat that entered, if one did, or all of
them while the chain waits for words (R379, R383). -/
def passDraws (s : State) (beat : Bool) : Nat :=
  match activeImage s, curPass s with
  | some im, some p =>
    if p.rngWait != 0 then 256
    else if beat then
      match p.inflight.find? fun t => t.stage == .chain with
      | some t => min 256 (wordsDrawn s im p.kind (passRec p.kind (recOf s t.tensor)) t.cls * widthOf s p.graph)
      | none => 0
    else 0
  | _, _ => 0

/-- One fab cycle: the preparer, the chain, then a mask fill with the words that the pass leaves it; the cycle counts
under one cause while the fabric runs (R103, R126, R383). -/
def fabCycle (s : State) : State :=
  let s := { s with clk := { s.clk with fab := s.clk.fab + 1 } }
  let runs := fabRunning s
  let idle := fabCause s false
  let (beat, u) := chainCycle (prepareCycle s)
  let t := maskBeat (256 - passDraws u beat) u
  let fill := t.rng.mask.run.map (·.made) != u.rng.mask.run.map (·.made)
  if runs then
    countFab (if beat || fill then fabCause s true else idle) 1 t
  else t

/-- The fab clock's edges in a port cycle: six root cycles (R14, R470). -/
def tickFab (s : State) : State :=
  let root := s.clk.fabRoot + 6
  let r := fabRatio s.clk.fabDiv
  let s := { s with clk := { s.clk with fabRoot := root % r } }
  (List.range (root / r)).foldl (fun s _ => fabCycle s) s

/-- The power state follows its causes and PHASE (R480-R482). -/
def tickPower (s : State) : State :=
  if s.power.state == .retain then s
  else
    let s := if activeCause s || s.power.forceActive then
        wakeBegin s
      else if s.power.state == .active then s
      else setPower (fun p => { p with state := restState s }) s
    setPower (fun p => { p with
      retainSince := if retainOk s then some (p.retainSince.getD (now s)) else none }) s

/-- FETCH's wait for pads, as the watchdog of R342 times it. -/
def tickPond (s : State) : State :=
  if (fetchAsks s).isSome then
    { s with pond := { s.pond with stallSince := some (s.pond.stallSince.getD (now s)) } }
  else { s with pond := { s.pond with stallSince := none }, strm := { s.strm with pondStall := false } }

/-- The pending copies whose boundary has come take effect with the first cycle of their window (R16, R530). -/
def stagedDue (s : State) : State :=
  if ready s then [StagedBlock.stepk, .swp, .memb, .strm, .xch].foldl (fun s b => applyStaged b s) s else s

/-- One port cycle. In reset, without power or without PLL lock no clock runs (R461, R468, R475). -/
def tick (s : State) : State :=
  if running s then
    let s := kstNext (tickMem (recoverDue s))
    tickPond (tickPower (tickFab (tickEvents (stagedDue (linksReturn
      { s with clk := { s.clk with port := s.clk.port + 1 } })))))
  else s

end Sys2Proof.Machine
end

