-- ==== Sys2Proof/Machine/TestAccess.lean ====
section
/-! DEFINITION. Test access: the TAP and the wrapper's serial port at their pins (R464). No row of the opcode table
drives a test pin: a run of this model is one in mission mode, with both held in reset (log 73). -/
namespace Sys2Proof.Machine

/-- The next state of the TAP controller at a rising edge of jtag_tck (IEEE 1149.1: PRESUMED, log 73). -/
def tapNext (tms : Bool) : TapState → TapState
  | .testLogicReset => if tms then .testLogicReset else .runTestIdle
  | .runTestIdle | .updateDr | .updateIr => if tms then .selectDr else .runTestIdle
  | .selectDr => if tms then .selectIr else .captureDr
  | .captureDr | .shiftDr => if tms then .exit1Dr else .shiftDr
  | .exit1Dr => if tms then .updateDr else .pauseDr
  | .pauseDr => if tms then .exit2Dr else .pauseDr
  | .exit2Dr => if tms then .updateDr else .shiftDr
  | .selectIr => if tms then .testLogicReset else .captureIr
  | .captureIr | .shiftIr => if tms then .exit1Ir else .shiftIr
  | .exit1Ir => if tms then .updateIr else .pauseIr
  | .pauseIr => if tms then .exit2Ir else .pauseIr
  | .exit2Ir => if tms then .updateIr else .shiftIr

/-- The TAP while jtag_trst_n is low, and in Test-Logic-Reset: without an IDCODE the instruction there is BYPASS. -/
def tapReset (t : TestAccess) : TestAccess := { t with tap := .testLogicReset, instr := .bypass }

/-- The wrapper while wsp_wrstn is low: WS_BYPASS. -/
def wrapReset (t : TestAccess) : TestAccess := { t with wrap := .wsBypass }

/-- A rising edge of jtag_tck: the bypass register loads 0 in Capture-DR and takes jtag_tdi in Shift-DR; Update-IR takes
the instruction that has been shifted in, which `loaded` names (R464 gives the instruction register no layout). -/
def tapClock (tms tdi : Bool) (loaded : TapInstr) (t : TestAccess) : TestAccess :=
  if !t.trstN then tapReset t
  else
    let shifted := match t.tap, t.instr with
      | .captureDr, .bypass => false
      | .shiftDr, .bypass => tdi
      | _, _ => t.bypass
    let next := tapNext tms t.tap
    let t := { t with tap := next, bypass := shifted, instr := if next == .updateIr then loaded else t.instr }
    if next == .testLogicReset then tapReset t else t

/-- jtag_tdo while BYPASS is selected: the bypass register in Shift-DR, no bit driven otherwise. -/
def tapOut (t : TestAccess) : Option Bool :=
  if t.trstN && t.tap == .shiftDr && t.instr == .bypass then some t.bypass else none

/-- A rising edge of wsp_wrck: with wsp_selectwir the wrapper's instruction is updated, else its bypass register shifts
(IEEE 1500: PRESUMED, log 73). -/
def wrapClock (selectWir updateWr shiftWr wsi : Bool) (loaded : WrapInstr) (t : TestAccess) : TestAccess :=
  if !t.wrstN then wrapReset t
  else if selectWir then (if updateWr then { t with wrap := loaded } else t)
  else if shiftWr && t.wrap == .wsBypass then { t with wrapBypass := wsi }
  else t

/-- Mission mode: both resets held low; the wrapper leaves the ports alone (R464). -/
def missionMode (s : State) : Bool := !s.test.trstN && !s.test.wrstN

/-- A wrapper instruction other than WS_BYPASS isolates the ports (R464). -/
def portsIsolated (s : State) : Bool := s.test.wrap != .wsBypass

end Sys2Proof.Machine
end

