-- ==== Sys2Proof/Machine/Pins.lean ====
section
/-! DEFINITION. What the engine drives on its pins, by the state it is in: returns, requests, NAKs, responses, events,
with their parity (R432-R441, R443, R447-R454, R458, R461-R463). No step depends on them. -/
namespace Sys2Proof.Machine

/-- The parity that goes with a bundle of n bytes: each byte and its bit hold an odd number of ones (R432). -/
def parityOf {m : Nat} (n : Nat) (bundle : BitVec m) : BitVec n :=
  BitVec.ofNat n ((List.range n).map fun k =>
    if onesBelow (bundle.extractLsb' (8 * k) 8) 8 % 2 = 0 then 2 ^ k else 0).sum

/-- A bundle and the parity driven beside it. -/
structure Driven (m n : Nat) where
  bundle : BitVec m
  par : BitVec n
  deriving DecidableEq, Repr

def drive {m : Nat} (n : Nat) (b : BitVec m) : Driven m n := { bundle := b, par := parityOf n b }

/-! ## Host channel ports (R434, R462) -/

/-- hcpN_rready and hcpN_wready. -/
def hcpReady (s : State) (port : BitVec 5) (write : Bool) : Bool := hostOpen s && hostReady s port write

/-- The return word: tag in bits 11:0, error in bit 12. -/
def returnWord (h : HostOut) : BitVec 16 := (h.tag.setWidth 16) ||| ((BitVec.ofBool h.err).setWidth 16 <<< 12)

/-- A read return: the return word in bytes 0 and 1, the line in bytes 2 to 65; the line is zero with an error. -/
def hcpReturn (s : State) (port : BitVec 5) : Option (Driven 528 66) :=
  (s.mem.hostOut.find? fun h => h.port == port && !h.write && h.acc == portNow s).map fun h =>
    drive 66 ((if h.err then 0 else h.data) ++ returnWord h)

/-- A write completion. -/
def hcpCompletion (s : State) (port : BitVec 5) : Option (Driven 16 2) :=
  (s.mem.hostOut.find? fun h => h.port == port && h.write && h.acc == portNow s).map fun h => drive 2 (returnWord h)

/-- A NAK tag of 12 bits with its parity of 2 (R433). -/
def nakPins (tag : BitVec 12) : Driven 16 2 := drive 2 (tag.setWidth 16)

/-- The NAK of the request of the port cycle before (R296, R433). -/
def hcpNak (s : State) (port : BitVec 5) (write : Bool) : Option (Driven 16 2) :=
  (s.mem.hostNaks.find? fun n => n.port == port && n.write == write && n.cycle == portNow s).map fun n => nakPins n.tag

/-! ## Memory channel ports (R439, R440) -/

/-- The channel-local line address A[39:11] (R281). -/
def localLine (line : BitVec 34) : BitVec 29 := field line 5 29

/-- The request bundle: tag in bits 9:0, LINE, CLASS, CONFIRM, CONTROL, RETRY above (R439, R440). A control request
carries CLASS 0; a stream's read-back and a confirm read carry CONFIRM. -/
def mcpBundle (f : Flight) : BitVec 64 :=
  let readback := match f.req.who with
    | .readback _ => true
    | _ => false
  put 0 f.tag ||| put 10 (localLine f.req.line) ||| put 39 (if f.req.control then (0 : BitVec 3) else f.req.cls.code) |||
  putBit 42 (f.req.confirm || readback) ||| putBit 43 f.req.control ||| putBit 44 (f.fails != 0)

/-- The flight that crosses a channel port in this port cycle. -/
def mcpFlight (s : State) (ch : BitVec 5) (write : Bool) : Option Flight :=
  s.mem.flights.find? fun f => f.chan == ch && f.req.write == write && f.replay.isNone && f.acc == portNow s

/-- A read request. -/
def mcpRead (s : State) (ch : BitVec 5) : Option (Driven 64 8) := (mcpFlight s ch false).map fun f => drive 8 (mcpBundle f)

/-- A write: the request bundle in bytes 0 to 7, the mask in bytes 8 to 15, the line in bytes 16 to 79. -/
def mcpWrite (s : State) (ch : BitVec 5) : Option (Driven 640 80) :=
  (mcpFlight s ch true).map fun f => drive 80 (f.req.data ++ f.req.mask ++ mcpBundle f)

/-! ## Control port (R443, R445) -/

/-- ctl_ready: a request is answered at once in this model, so 8 are never open (R444, R446; log 3). -/
def ctlReady (s : State) : Bool := portOpen s

/-- The response to a read: STATUS and the register; 0 with any status but OK. Before READY three registers answer
besides GCTL (R485). -/
def ctlReadResponse (s : State) (addr : Addr24) : BitVec 8 × Word :=
  let early := [0x000000, 0x000008, 0x000010, 0x000018]
  match readReg s ((addr >>> 3) <<< 3) with
  | some w => if s.boot.stage == .ready || early.contains (((addr >>> 3) <<< 3).toNat) then (0x00, w) else (0x01, 0)
  | none => (0x01, 0)

/-- ctl_rsp in byte 0, ctl_rdata in bytes 1 to 8. -/
def ctlPins (rsp : BitVec 8) (data : Word) : Driven 72 9 := drive 9 (data ++ rsp)

/-! ## Event port, croak (R447, R448, R461, R462) -/

/-- evt_out: the line of the pulse of this port cycle. -/
def evtOut (s : State) : Word :=
  match s.evt.last with
  | some (l, t) => if t = portNow s && portOpen s then (1 : Word) <<< l.toNat else 0
  | none => 0

/-- croak: 1 while a cause is set. -/
def croakPin (s : State) : Bool := running s && s.health.cause != 0

/-! ## Far port (R450) -/

/-- The request bundle: address in bits 63:6, tag in bits 75:64, source in bits 81:76, urgency in bit 82. -/
def farBundle (r : FarReq) : BitVec 128 :=
  ((r.line.setWidth 128) <<< 6) ||| ((r.tag.setWidth 128) <<< 64) ||| ((r.src.setWidth 128) <<< 76) |||
  (((BitVec.ofBool (r.urgent && !r.write)).setWidth 128) <<< 82)

def farCrossing (s : State) (write : Bool) : Option FarReq :=
  s.far.out.find? fun r => r.write == write && r.acc == portNow s

def farReadPins (s : State) : Option (Driven 128 16) := (farCrossing s false).map fun r => drive 16 (farBundle r)

/-- A write: the bundle in bytes 0 to 15, the line in bytes 16 to 79. -/
def farWritePins (s : State) : Option (Driven 640 80) :=
  (farCrossing s true).map fun r => drive 80 (r.data ++ farBundle r)

/-- The NAK of read data or of a write response. -/
def farNakPins (s : State) (write : Bool) : Option (Driven 16 2) :=
  (s.far.naks.find? fun x => x.1 == write && x.2.2 == portNow s).map fun x => nakPins x.2.1

/-! ## Fabric message port (R420, R453, R454) -/

/-- The beats of a message: data, LAST, parity. Beat 0 is the envelope; a DATA message has four more. -/
def fmpBeats (m : BitVec 128 × Option Line) : List (Driven 128 16 × Bool) :=
  match m.2 with
  | none => [(drive 16 m.1, true)]
  | some p => (drive 16 m.1, false) ::
      (List.range 4).map fun i => (drive 16 (field p (128 * i) 128 : BitVec 128), i == 3)

/-- fmp_rxready (R454). -/
def fmpReady (s : State) : Bool := portOpen s

/-! ## Key-store port (R458) -/

/-- kst_addr, kst_we and kst_wdata with kst_opar, while kst_req is 1. -/
def kstPins (s : State) : Option (Driven 48 6) :=
  s.kst.cur.map fun (o, _) =>
    drive 6 (o.wdata ++ ((o.addr.setWidth 16 : BitVec 16) ||| ((BitVec.ofBool o.we).setWidth 16 <<< 12)))

/-! ## Clock pin (R461) -/

/-- clk_port_out runs from PLL lock on; before it, and without power, it is held at 0. -/
def portClockRuns (s : State) : Bool := running s

end Sys2Proof.Machine
end

