-- ==== Sys2Proof/Safety.lean ====
section
/-! DEFINITION. What counts as a sound state and a sound run: the bounds that the spec puts on the machine's
own stores, the form in which the model keeps the stack, and the croak cause that goes with FATAL. -/
namespace Sys2Proof.Machine

/-- A sound state: the stack is in its canonical form; the event queue holds at most 256 events (R448); the
error log holds at most 64 entries (R504); an instance in FATAL has croak cause 6 set (R508, R512, R513). -/
structure State.Sound (s : State) : Prop where
  memory : Memory.wf s.stack = true
  events : s.evt.queue.length ≤ 256
  log : s.health.log.entries.length ≤ 64
  croaks : s.health.fatal = true → s.health.cause.getLsbD 6 = true

/-- The parts of the state, one for each of its fields. -/
inductive Part where
  | clk | boot | power | health | snap | evt | ctl | kst | vault | mem | stack | image | step |
  stepk | lscale | aux | ttab | swp | sweep | fab | tongue | memb | verdict | hier | lease | strm |
  pond | queues | xch | far | rng | east | west | ring | fmp | test | freeCtr | pending
  deriving DecidableEq, Repr

/-- Two states agree on a part. -/
def Part.same (p : Part) (s t : State) : Prop :=
  match p with
  | .clk => t.clk = s.clk
  | .boot => t.boot = s.boot
  | .power => t.power = s.power
  | .health => t.health = s.health
  | .snap => t.snap = s.snap
  | .evt => t.evt = s.evt
  | .ctl => t.ctl = s.ctl
  | .kst => t.kst = s.kst
  | .vault => t.vault = s.vault
  | .mem => t.mem = s.mem
  | .stack => t.stack = s.stack
  | .image => t.image = s.image
  | .step => t.step = s.step
  | .stepk => t.stepk = s.stepk
  | .lscale => t.lscale = s.lscale
  | .aux => t.aux = s.aux
  | .ttab => t.ttab = s.ttab
  | .swp => t.swp = s.swp
  | .sweep => t.sweep = s.sweep
  | .fab => t.fab = s.fab
  | .tongue => t.tongue = s.tongue
  | .memb => t.memb = s.memb
  | .verdict => t.verdict = s.verdict
  | .hier => t.hier = s.hier
  | .lease => t.lease = s.lease
  | .strm => t.strm = s.strm
  | .pond => t.pond = s.pond
  | .queues => t.queues = s.queues
  | .xch => t.xch = s.xch
  | .far => t.far = s.far
  | .rng => t.rng = s.rng
  | .east => t.east = s.east
  | .west => t.west = s.west
  | .ring => t.ring = s.ring
  | .fmp => t.fmp = s.fmp
  | .test => t.test = s.test
  | .freeCtr => t.freeCtr = s.freeCtr
  | .pending => t.pending = s.pending

/-- From s to t nothing has changed but the parts of L: the frame of a command. -/
def OnlyChanges (L : List Part) (s t : State) : Prop := ∀ p, p ∉ L → p.same s t

/-- A command completes: it answers a next state, no fault and no refusal. -/
def Completes (o : Out) (t : State) : Prop := o = .next t

/-- A run of n steps, every one of which completes, ends in t. -/
def runsTo : Nat → State → State → Prop
  | 0, s, t => s = t
  | n + 1, s, t => ∃ u, Completes (step s) u ∧ runsTo n u t

/-! ## The terms in which the statements speak -/

/-- A control-port write has its own effect: in READY, outside FATAL and RETAIN (R443, R483, R485, R510). -/
abbrev Applies (s : State) : Prop := ready s = true ∧ s.health.fatal = false ∧ s.power.state ≠ .retain

/-- What a host request of good parity leaves (R277, R278, R282): it waits in arbitration, dated with this
port cycle; or, beyond the end of the stack, an error completion is driven and nothing is forwarded. -/
def HostTaken (port : BitVec 5) (tag : BitVec 12) (req : BitVec 52) (write : Bool) (mask : BitVec 64) (data : Line)
    (s t : State) : Prop :=
  (beyondStack s (hostLine req) = false →
    t.mem.waiting = s.mem.waiting ++ [{
      req := { who := .host port tag, cls := (hostClass req write).1, write := write, line := hostLine req
               mask := mask, data := data }
      since := portNow s }] ∧
    t.mem.hostOut = s.mem.hostOut) ∧
  (beyondStack s (hostLine req) = true →
    t.mem.waiting = s.mem.waiting ∧
    t.mem.hostOut = s.mem.hostOut ++ [{
      port := port, tag := tag, write := write, err := true, line := hostLine req
      cls := (hostClass req write).1, acc := hostNextCycle s port write }]) ∧
  OnlyChanges [.mem] s t

/-- What a host request of bad parity leaves (R296, R297, R298): it is NAKed with its tag in the next port cycle, and its
third failure in a row is fatal. -/
def HostRefused (port : BitVec 5) (tag : BitVec 12) (write : Bool) (s t : State) : Prop :=
  t.mem.waiting = s.mem.waiting ∧ t.mem.hostOut = s.mem.hostOut ∧
  t.mem.hostNaks = s.mem.hostNaks ++ [{ port := port, write := write, tag := tag, cycle := portNow s + 1 }] ∧
  (hostFailsOf s port write tag + 1 < 3 → hostFailsOf t port write tag = hostFailsOf s port write tag + 1) ∧
  (3 ≤ hostFailsOf s port write tag + 1 → hostFailsOf t port write tag = 0 ∧ t.mem.fault.valid = true) ∧
  OnlyChanges [.mem, .health] s t

/-- What a LEASE_OP that passes its checks leaves (R234, R235): the lease as it then stands, and the result. -/
def leaseDone (w : Word) (l : Lease) (s : State) : State :=
  { s with lease := { s.lease with
      all := s.lease.all.set (fieldNat w 8 8) l
      result := put 48 l.owner ||| put 32 l.gen ||| put 16 (field w 8 8 : BitVec 8) ||| put 8 (0 : BitVec 8)
      expiry := l.expiry } }

/-- Counter i of a group, where the group has it, has risen by one (R106, R518). -/
def bumpedAt (before after : List Counter) (i : Nat) : Prop :=
  i < before.length → after.getD i {} = (before.getD i {}).add 1

/-- What every event of a link ends with: this instance's own segments and start-up step 7 are settled
(R411, R413, R484). -/
def settleLinks (s : State) : State := bootLinks (segSettle s)

end Sys2Proof.Machine

namespace Sys2Proof
open Machine

/-- The parts of the state that a command may change, whatever it meets. -/
def Instr.touches : Instr → List Part
  | .sealPulse => [.power, .health, .evt, .mem, .step, .stepk, .tongue, .hier, .east, .west]
  | .stepCtlSeal .. =>
    [.health, .evt, .ctl, .mem, .step, .stepk, .lscale, .aux, .sweep, .tongue, .memb, .verdict, .hier,
     .strm, .pond, .xch, .far, .rng, .east, .west, .ring, .fmp]
  | .normPassDone => [.step, .tongue, .hier, .east, .west]
  | .abortReq =>
    [.power, .health, .evt, .mem, .step, .lscale, .aux, .sweep, .tongue, .verdict, .hier, .xch, .rng, .east,
     .west, .fmp]
  | .stepCtlAbort .. =>
    [.health, .evt, .ctl, .mem, .step, .stepk, .lscale, .aux, .sweep, .tongue, .memb, .verdict, .hier,
     .strm, .pond, .xch, .far, .rng, .east, .west, .ring, .fmp]
  | .stepCtlLoadStep .. =>
    [.health, .evt, .ctl, .mem, .step, .stepk, .lscale, .aux, .sweep, .tongue, .memb, .verdict, .hier,
     .strm, .pond, .xch, .far, .rng, .east, .west, .ring, .fmp]
  | .stepCtlClearHalt .. =>
    [.health, .evt, .ctl, .mem, .step, .stepk, .lscale, .aux, .sweep, .tongue, .memb, .verdict, .hier,
     .strm, .pond, .xch, .far, .rng, .east, .west, .ring, .fmp]
  | .tongueArm .. => [.health, .ctl, .step, .tongue, .far]
  | .armClearDone => [.step, .tongue, .verdict, .hier]
  | .hostReadRequest .. => [.health, .mem]
  | .hostWriteRequest .. => [.health, .mem]
  | .hostWriteCompletion .. => [.health, .mem, .tongue]
  | .hostReturnNak .. => [.health, .mem, .tongue, .far]
  | .hostCompletionNak .. => [.health, .mem, .tongue, .far]
  | .arbiterGrant .. => [.health, .mem]
  | .memoryReadReturn .. =>
    [.health, .evt, .mem, .image, .step, .ttab, .sweep, .tongue, .strm, .pond, .queues, .xch, .far, .rng,
     .freeCtr]
  | .memoryReadNak .. =>
    [.health, .evt, .mem, .image, .step, .ttab, .sweep, .tongue, .strm, .pond, .queues, .xch, .far, .rng,
     .freeCtr]
  | .memoryWriteNak .. =>
    [.health, .evt, .mem, .image, .step, .ttab, .sweep, .tongue, .strm, .pond, .queues, .xch, .far, .rng,
     .freeCtr]
  | .nakCycleEnd .. =>
    [.health, .evt, .mem, .stack, .image, .step, .ttab, .sweep, .tongue, .strm, .pond, .queues, .xch, .far,
     .rng, .freeCtr]
  | .wcbTimeout .. => [.mem]
  | .tadpoleAgeLimit .. => [.mem]
  | .regulatorWindowBoundary => [.health, .mem]
  | .thermalReport .. =>
    [.health, .evt, .mem, .step, .lscale, .aux, .sweep, .tongue, .memb, .verdict, .hier, .strm, .pond, .xch,
     .far, .east, .west, .ring, .fmp]
  | .thermalStale => [.health, .evt, .mem]
  | .throttleDutyWindow => [.health, .evt, .mem]
  | .contrib .. => [.health, .evt, .memb, .verdict, .hier, .east, .west, .fmp]
  | .sum .. => [.health, .evt, .memb, .verdict, .hier, .east, .west, .fmp]
  | .skipNotice .. => [.health, .evt, .memb, .verdict, .hier, .east, .west, .fmp]
  | .holdNotice .. => [.health, .evt, .memb, .verdict, .hier, .east, .west, .fmp]
  | .abortNotice .. => [.health, .evt, .memb, .verdict, .hier, .east, .west, .fmp]
  | .join .. => [.health, .evt, .memb, .verdict, .hier, .east, .west, .fmp]
  | .joinSum .. => [.health, .evt, .memb, .verdict, .hier, .east, .west, .fmp]
  | .epochOpen .. => [.boot, .evt, .memb, .verdict, .hier, .east, .west, .ring, .fmp]
  | .contribTimeout => [.health, .evt, .verdict, .hier, .east, .west, .fmp]
  | .joinTimeout => [.health, .evt, .memb, .verdict, .east, .west, .fmp]
  | .verdictRecordGo .. =>
    [.health, .evt, .mem, .step, .lscale, .aux, .sweep, .tongue, .memb, .verdict, .hier, .xch, .rng, .east,
     .west, .ring, .fmp]
  | .verdictRecordSkip .. =>
    [.health, .evt, .mem, .step, .lscale, .aux, .sweep, .tongue, .memb, .verdict, .hier, .xch, .rng, .east,
     .west, .ring, .fmp]
  | .verdictRecordAbort .. =>
    [.health, .evt, .mem, .step, .lscale, .aux, .sweep, .tongue, .memb, .verdict, .hier, .xch, .rng, .east,
     .west, .ring, .fmp]
  | .flashGo .. =>
    [.evt, .mem, .step, .lscale, .aux, .sweep, .tongue, .verdict, .hier, .xch, .rng, .east, .west]
  | .flashSkip .. =>
    [.evt, .mem, .step, .lscale, .aux, .sweep, .tongue, .verdict, .hier, .xch, .rng, .east, .west]
  | .flashHold .. =>
    [.evt, .mem, .step, .lscale, .aux, .sweep, .tongue, .verdict, .hier, .xch, .rng, .east, .west]
  | .flashAbort .. =>
    [.evt, .mem, .step, .lscale, .aux, .sweep, .tongue, .verdict, .hier, .xch, .rng, .east, .west]
  | .gateOpen => [.health, .evt, .mem, .step, .aux, .sweep, .fab, .tongue, .verdict, .strm, .pond, .xch, .rng]
  | .leaseAcquire .. => [.health, .ctl, .hier, .lease, .far]
  | .leaseRenew .. => [.health, .ctl, .hier, .lease, .far]
  | .leaseRelease .. => [.health, .ctl, .hier, .lease, .far]
  | .leaseRead .. => [.health, .ctl, .hier, .lease, .far]
  | .membCommit .. => [.health, .ctl, .memb, .far]
  | .rootLsnWrite .. => [.health, .ctl, .verdict, .far]
  | .mapBuildDone => [.health, .tongue]
  | .fetchIssue => [.mem, .sweep]
  | .tileEnterChain => [.health, .sweep, .fab, .tongue, .freeCtr]
  | .momentGroupHandover => [.health, .mem, .sweep, .strm, .pond]
  | .confirmReadReturn .. =>
    [.health, .evt, .mem, .image, .step, .ttab, .sweep, .tongue, .strm, .pond, .queues, .xch, .far, .rng,
     .freeCtr]
  | .momentsConfirmed => [.health, .sweep, .strm, .pond]
  | .weightGroupHandover => [.mem, .sweep]
  | .weightsConfirmed =>
    [.health, .evt, .mem, .step, .lscale, .aux, .sweep, .tongue, .memb, .verdict, .hier, .strm, .pond, .xch,
     .east, .west, .ring, .fmp]
  | .pass1Done => [.health, .mem, .step, .sweep, .fab, .strm, .pond]
  | .sweepHalt => [.health, .evt, .mem, .step, .aux, .sweep, .tongue, .strm, .pond]
  | .marksLineWrite => [.mem, .sweep]
  | .residueFault .. => [.health, .evt, .sweep, .fab]
  | .shedDrainDone => [.boot, .health, .evt, .mem, .aux, .sweep, .fab, .strm, .pond, .rng]
  | .codecMismatch .. => [.health, .mem, .sweep, .fab, .strm, .pond]
  | .genMismatch .. => [.health, .evt, .mem, .sweep, .fab, .strm, .pond, .rng]
  | .stepkCommit .. => [.health, .ctl, .stepk, .far]
  | .swpCommit .. => [.health, .ctl, .swp, .far]
  | .stagedSetApply .. =>
    [.health, .evt, .mem, .stepk, .swp, .tongue, .memb, .verdict, .hier, .strm, .pond, .xch, .far, .east,
     .west, .ring, .fmp]
  | .ttabLoad .. => [.health, .ctl, .mem, .ttab, .tongue, .far]
  | .tableLoadDone => [.ttab, .tongue]
  | .sweepResume .. => [.health, .evt, .ctl, .mem, .step, .aux, .sweep, .fab, .strm, .pond, .xch, .far]
  | .sweepRecover .. => [.health, .evt, .ctl, .mem, .step, .aux, .sweep, .fab, .strm, .pond, .xch, .far]
  | .fabShedWrite .. => [.health, .evt, .ctl, .fab, .far]
  | .fabCntClear .. => [.health, .ctl, .fab, .far]
  | .emaStart .. => [.health, .ctl, .aux, .sweep, .fab, .far]
  | .emaReseed .. => [.health, .ctl, .aux, .sweep, .fab, .far]
  | .emaPassDone => [.health, .evt, .mem, .aux, .sweep, .strm, .pond]
  | .lscaleLoad .. => [.health, .ctl, .lscale, .far]
  | .imgLoad .. =>
    [.boot, .health, .evt, .ctl, .mem, .image, .stepk, .ttab, .swp, .fab, .tongue, .memb, .verdict, .hier,
     .strm, .pond, .xch, .far, .rng, .east, .west, .ring, .fmp]
  | .imageReadDone => [.health, .evt, .mem, .image, .far]
  | .imageVerifyDone => [.health, .evt, .mem, .image, .far]
  | .imgMolt .. =>
    [.boot, .health, .evt, .ctl, .mem, .image, .stepk, .ttab, .swp, .fab, .tongue, .memb, .verdict, .hier,
     .strm, .pond, .xch, .far, .rng, .east, .west, .ring, .fmp]
  | .moltDone => [.evt, .image]
  | .portPlanApply => [.health, .mem]
  | .imgDiscard .. =>
    [.boot, .health, .evt, .ctl, .mem, .image, .stepk, .ttab, .swp, .fab, .tongue, .memb, .verdict, .hier,
     .strm, .pond, .xch, .far, .rng, .east, .west, .ring, .fmp]
  | .chTailWrite .. => [.health, .ctl, .mem, .strm, .far]
  | .descriptorFetchDone .. => [.health, .mem, .strm]
  | .chStop .. => [.health, .evt, .ctl, .mem, .strm, .pond, .queues, .far]
  | .chCancel .. => [.health, .evt, .ctl, .mem, .strm, .pond, .queues, .far]
  | .chResume .. => [.health, .evt, .ctl, .mem, .strm, .pond, .queues, .far]
  | .chReset .. => [.health, .evt, .ctl, .mem, .strm, .pond, .queues, .far]
  | .streamBurstGrant .. => [.mem, .strm]
  | .farBurstGrant .. => [.image, .strm, .xch, .far]
  | .pieceWritesDone .. => [.health, .mem, .strm, .pond, .queues]
  | .pqPop .. => [.health, .evt, .mem, .strm, .pond, .queues]
  | .streamReadbackReturn .. =>
    [.health, .evt, .mem, .image, .step, .ttab, .sweep, .tongue, .strm, .pond, .queues, .xch, .far, .rng,
     .freeCtr]
  | .descriptorWritebackDone .. => [.health, .evt, .mem, .strm]
  | .padWatchdog .. => [.health, .evt, .mem, .strm, .pond, .queues]
  | .pondStall => [.health, .evt, .mem, .strm, .pond, .queues]
  | .prefetchUrgent => [.strm]
  | .deadlineMiss .. => [.health, .strm]
  | .pondAllocate .. => [.health, .mem, .sweep, .strm, .pond, .xch]
  | .padFree .. => [.health, .strm, .pond]
  | .pqFlush .. => [.health, .ctl, .strm, .pond, .queues, .far]
  | .strmCommit .. => [.health, .ctl, .strm, .far]
  | .xchCommit .. => [.health, .ctl, .xch, .far]
  | .xchStart .. => [.health, .ctl, .mem, .strm, .pond, .xch, .far]
  | .xchStop .. => [.health, .ctl, .mem, .strm, .pond, .xch, .far]
  | .rebase .. => [.health, .ctl, .mem, .strm, .pond, .xch, .far]
  | .exportDone .. => [.health, .evt, .mem, .strm, .pond, .xch, .far]
  | .deltaStepEnd .. => [.health, .evt, .strm, .pond, .xch]
  | .doorbellWrite .. => [.xch]
  | .creditRead .. => [.xch]
  | .farReadData .. => [.health, .evt, .mem, .image, .strm, .pond, .queues, .xch, .far]
  | .farWriteResponse .. => [.health, .evt, .mem, .image, .strm, .pond, .queues, .xch, .far]
  | .farRequestNak .. => [.health, .evt, .mem, .image, .strm, .pond, .queues, .xch, .far]
  | .farTimeout .. => [.health, .evt, .mem, .image, .strm, .pond, .queues, .xch, .far]
  | .maskStart .. => [.health, .evt, .ctl, .far, .rng]
  | .maskStop .. => [.health, .evt, .ctl, .far, .rng]
  | .maskFillDone => [.evt, .rng]
  | .reseedNow .. => [.health, .ctl, .far, .rng]
  | .reseedInterval => [.rng]
  | .reseed => [.rng]
  | .noiseRawBit .. => [.health, .evt, .vault, .rng]
  | .conditionedBlock => [.kst, .vault, .rng, .fmp, .freeCtr]
  | .rngLaneWrite .. => [.health, .ctl, .far, .rng]
  | .linkClockLock .. => [.boot, .health, .evt, .memb, .verdict, .hier, .east, .west, .ring, .fmp]
  | .patternDone .. => [.boot, .health, .evt, .memb, .verdict, .hier, .east, .west, .ring, .fmp]
  | .marginDone .. => [.boot, .health, .evt, .memb, .verdict, .hier, .east, .west, .ring, .fmp]
  | .mapWord .. => [.boot, .health, .evt, .memb, .verdict, .hier, .east, .west, .ring, .fmp]
  | .ident .. => [.boot, .health, .evt, .memb, .verdict, .hier, .east, .west, .ring, .fmp]
  | .identityDone .. => [.boot, .health, .evt, .memb, .verdict, .hier, .east, .west, .ring, .fmp]
  | .trainAttemptFailed .. => [.boot, .health, .evt, .memb, .verdict, .hier, .east, .west, .ring, .fmp]
  | .linkRetrain .. => [.boot, .health, .evt, .ctl, .memb, .verdict, .hier, .far, .east, .west, .ring, .fmp]
  | .holdDownWrite .. => [.boot, .health, .evt, .ctl, .memb, .verdict, .hier, .far, .east, .west, .ring, .fmp]
  | .xlSleepWrite .. => [.boot, .health, .evt, .ctl, .memb, .verdict, .hier, .far, .east, .west, .ring, .fmp]
  | .xlTestWrite .. => [.boot, .health, .evt, .ctl, .memb, .verdict, .hier, .far, .east, .west, .ring, .fmp]
  | .trainMarker .. => [.boot, .health, .evt, .memb, .verdict, .hier, .east, .west, .ring, .fmp]
  | .runMarker .. => [.boot, .health, .evt, .memb, .verdict, .hier, .east, .west, .ring, .fmp]
  | .verdictMarker .. => [.boot, .health, .evt, .memb, .verdict, .hier, .east, .west, .ring, .fmp]
  | .sleepMarker .. => [.boot, .health, .evt, .memb, .verdict, .hier, .east, .west, .ring, .fmp]
  | .forwardedClockLost .. => [.boot, .health, .evt, .memb, .verdict, .hier, .east, .west, .ring, .fmp]
  | .frameReceive .. => [.boot, .health, .evt, .memb, .verdict, .hier, .east, .west, .ring, .fmp]
  | .chameleonWord .. => [.boot, .health, .evt, .memb, .verdict, .hier, .east, .west, .ring, .fmp]
  | .replayTimeout .. => [.boot, .health, .evt, .memb, .verdict, .hier, .east, .west, .ring, .fmp]
  | .crcWindowEnd .. => [.boot, .health, .evt, .memb, .verdict, .hier, .east, .west, .ring, .fmp]
  | .frameSlot .. => [.boot, .health, .evt, .memb, .verdict, .hier, .east, .west, .ring, .fmp]
  | .linkState .. => [.boot, .health, .evt, .memb, .verdict, .hier, .east, .west, .ring, .fmp]
  | .linkStateTimer => [.boot, .health, .evt, .memb, .verdict, .hier, .east, .west, .ring, .fmp]
  | .downRetry .. => [.boot, .health, .evt, .memb, .verdict, .hier, .east, .west, .ring, .fmp]
  | .wakeRequest .. => [.boot, .power, .health, .evt, .memb, .verdict, .hier, .east, .west, .ring, .fmp]
  | .testFlit .. => [.boot, .health, .evt, .memb, .verdict, .hier, .east, .west, .ring, .fmp]
  | .fmpData .. => [.power, .hier, .far, .fmp]
  | .fmpAck .. => [.power, .hier, .far, .fmp]
  | .fmpResendTimeout .. => [.health, .evt, .memb, .verdict, .east, .west, .fmp]
  | .eventEmit => [.evt]
  | .kstAck .. => [.health, .evt, .kst, .vault, .far]
  | .kstTimeout => [.health, .evt, .kst, .vault, .far]
  | .registerWrite .. =>
    [.clk, .boot, .power, .health, .snap, .evt, .ctl, .kst, .vault, .mem, .image, .step, .stepk, .lscale,
     .aux, .ttab, .swp, .sweep, .fab, .tongue, .memb, .verdict, .hier, .lease, .strm, .pond, .queues, .xch,
     .far, .rng, .east, .west, .ring, .fmp, .test]
  | .pwrOkLow .. =>
    [.clk, .boot, .power, .health, .snap, .evt, .ctl, .kst, .vault, .mem, .image, .step, .stepk, .lscale,
     .aux, .ttab, .swp, .sweep, .fab, .tongue, .memb, .verdict, .hier, .lease, .strm, .pond, .queues, .xch,
     .far, .rng, .east, .west, .ring, .fmp, .test, .freeCtr]
  | .coldReset .. =>
    [.clk, .boot, .power, .health, .snap, .evt, .ctl, .kst, .vault, .mem, .image, .step, .stepk, .lscale,
     .aux, .ttab, .swp, .sweep, .fab, .tongue, .memb, .verdict, .hier, .lease, .strm, .pond, .queues, .xch,
     .far, .rng, .east, .west, .ring, .fmp, .test, .freeCtr]
  | .pllLock => [.clk, .boot, .health, .evt, .kst, .vault, .memb, .verdict, .hier, .east, .west, .ring, .fmp]
  | .pllUnlock =>
    [.clk, .boot, .power, .health, .snap, .evt, .ctl, .kst, .vault, .mem, .image, .step, .stepk, .lscale,
     .aux, .ttab, .swp, .sweep, .fab, .tongue, .memb, .verdict, .hier, .lease, .strm, .pond, .queues, .xch,
     .far, .rng, .east, .west, .ring, .fmp, .test]
  | .vaultInitDone => [.boot, .health, .evt, .kst, .vault, .step]
  | .sramSelftestDone .. => [.boot, .health, .evt, .step]
  | .warmReset .. =>
    [.clk, .boot, .power, .health, .snap, .evt, .ctl, .kst, .vault, .mem, .image, .step, .stepk, .lscale,
     .aux, .ttab, .swp, .sweep, .fab, .tongue, .memb, .verdict, .hier, .lease, .strm, .pond, .queues, .xch,
     .far, .rng, .east, .west, .ring, .fmp, .test, .freeCtr]
  | .gctlWarmReset .. =>
    [.clk, .boot, .power, .health, .snap, .evt, .ctl, .kst, .vault, .mem, .image, .step, .stepk, .lscale,
     .aux, .ttab, .swp, .sweep, .fab, .tongue, .memb, .verdict, .hier, .lease, .strm, .pond, .queues, .xch,
     .far, .rng, .east, .west, .ring, .fmp, .test]
  | .warmResetDrainDone =>
    [.boot, .power, .health, .snap, .evt, .kst, .vault, .mem, .image, .step, .stepk, .lscale, .aux, .ttab,
     .swp, .sweep, .fab, .tongue, .memb, .verdict, .hier, .lease, .strm, .pond, .queues, .xch, .far, .rng,
     .east, .west, .ring, .fmp]
  | .linkReset .. =>
    [.clk, .boot, .power, .health, .snap, .evt, .ctl, .kst, .vault, .mem, .image, .step, .stepk, .lscale,
     .aux, .ttab, .swp, .sweep, .fab, .tongue, .memb, .verdict, .hier, .lease, .strm, .pond, .queues, .xch,
     .far, .rng, .east, .west, .ring, .fmp, .test]
  | .fabricReset .. =>
    [.clk, .boot, .power, .health, .snap, .evt, .ctl, .kst, .vault, .mem, .image, .step, .stepk, .lscale,
     .aux, .ttab, .swp, .sweep, .fab, .tongue, .memb, .verdict, .hier, .lease, .strm, .pond, .queues, .xch,
     .far, .rng, .east, .west, .ring, .fmp, .test]
  | .fabricResetDone => [.boot, .fab]
  | .fabDivWrite .. =>
    [.clk, .boot, .power, .health, .snap, .evt, .ctl, .kst, .vault, .mem, .image, .step, .stepk, .lscale,
     .aux, .ttab, .swp, .sweep, .fab, .tongue, .memb, .verdict, .hier, .lease, .strm, .pond, .queues, .xch,
     .far, .rng, .east, .west, .ring, .fmp, .test]
  | .fabDivApply => [.clk]
  | .powerWakeDone => [.power, .sweep]
  | .activeExit => [.power]
  | .retainEntry => [.power]
  | .retainWake => [.power]
  | .vaultKeygen .. => [.health, .ctl, .kst, .vault, .far]
  | .vaultProgram .. => [.health, .ctl, .kst, .vault, .far]
  | .vaultLock .. => [.health, .ctl, .kst, .vault, .far]
  | .vaultRead .. => [.health, .ctl, .kst, .vault, .far]
  | .vaultQuote .. => [.health, .ctl, .kst, .vault, .far]
  | .quoteDone => [.health, .vault]
  | .sramUe .. =>
    [.boot, .health, .evt, .mem, .image, .sweep, .fab, .tongue, .memb, .verdict, .hier, .strm, .pond, .far,
     .east, .west, .ring, .fmp]
  | .sramCe .. => [.health, .evt]
  | .scrubInterval => [.health]
  | .croakEccWindow => [.health]
  | .croakCauseWrite .. => [.health, .ctl, .far]
  | .errPop .. => [.health, .ctl, .far]
  | .snapTake .. => [.health, .snap, .ctl, .far]
  | .mpCommit .. => [.health, .ctl, .mem, .far]
  | .resetRelease .. =>
    [.boot, .health, .evt, .kst, .vault, .memb, .verdict, .hier, .east, .west, .ring, .fmp]
  | .forwardedClockDetected .. => [.boot, .health, .evt, .memb, .verdict, .hier, .east, .west, .ring, .fmp]

end Sys2Proof
end

