-- ==== Sys2Proof/Certificates/Slice0/Obligations.lean ====
section
/-! DEFINITION. The statements for the provers: what the commands do by the rules of the spec, by family. Each
cites its rules; OBLIGATIONS.json lists them. A statement of several rules is the conjunction of its parts, each a
proposition of its own under Rules. -/
open Sys2Proof Sys2Proof.Machine

/-- Every step keeps the state sound: memory form, queue bounds, FATAL with its croak cause (R448, R504, R508,
R512). -/
def Obligations.StepKeepsSound : Prop :=
  ∀ s t : State, s.Sound → step s = .next t → t.Sound

/-- The machine right after reset is sound (R448, R504, R508). -/
def Obligations.ResetSound : Prop := State.reset.Sound

/-- A step runs the command at the front of the queue (13_ports.md, 95_what_each_step_holds.md). -/
def Obligations.StepRunsFrontCommand : Prop :=
  ∀ (c : Instr) (q : List Instr) (s : State),
    step { s with pending := c :: q } = exec c { s with pending := q } ∧
    step { s with pending := [] } = .next (tick { s with pending := [] })

/-- No command changes a part of the machine beyond those its rules name (R28, R443, R524, 16_registers.md). -/
def Obligations.CommandsKeepTheRest : Prop :=
  ∀ (c : Instr) (s t : State), exec c s = .next t → OnlyChanges c.touches s t

/-- Only the end of a write's NAK cycle changes the bytes of the stack (R297, R299, R433). -/
def Rules.OnlyGoodWritesChangeBytes : Prop :=
  ∀ (c : Instr) (s t : State), (∀ kind port tag, c ≠ .nakCycleEnd kind port tag) →
    exec c s = .next t → (∀ a, cellRead t.stack a = cellRead s.stack a) ∧ t.pending = s.pending

/-- A write that passes its NAK cycle un-NAKed puts its enabled bytes into the stack, and no others (R297, R434,
R440). -/
def Rules.GoodWriteReachesStack : Prop :=
  ∀ (s : State) (port : BitVec 5) (tag : BitVec 12) (f : Flight),
    Memory.wf s.stack = true → flightOf s port (tag.setWidth 10) true = some f →
    f.acc + 1 ≤ portNow s → f.settled = false →
    ∃ t, exec (.nakCycleEnd .memWrite port tag) s = .next t ∧
      (∀ x ∈ t.mem.flights, x.chan ≠ port ∨ x.tag ≠ tag.setWidth 10) ∧
      ∀ a : Nat, cellRead t.stack a =
        if a / 64 = f.req.line.toNat ∧ f.req.mask.getLsbD (a % 64) = true
        then f.req.data.extractLsb' (8 * (a % 64)) 8 else cellRead s.stack a

/-- Only a write that has passed its NAK cycle changes the stack, and then exactly its enabled bytes (R297, R299,
R433, R434, R440). -/
def Obligations.StackBytes : Prop :=
  Rules.OnlyGoodWritesChangeBytes ∧ Rules.GoodWriteReachesStack

/-- A read that passes its NAK cycle waits for data only; a host transfer that does is good and forgotten (R297,
R436, R437). -/
def Rules.NakCycleEndsOfOtherTransfers : Prop :=
  ∀ (s : State) (port : BitVec 5) (tag : BitVec 12),
    (∀ f, flightOf s port (tag.setWidth 10) false = some f → f.acc + 1 ≤ portNow s → f.settled = false →
      exec (.nakCycleEnd .memRead port tag) s = .next (setMem (fun m => { m with
        flights := m.flights.map fun x =>
          if x.chan == f.chan && x.tag == f.tag then { x with settled := true } else x }) s)) ∧
    (∀ h, s.mem.hostOut.find? (fun h => h.port == port && h.write == false && h.tag == tag &&
        h.acc + 1 ≤ portNow s) = some h →
      exec (.nakCycleEnd .hostReturn port tag) s = .next (setMem (fun m => { m with
        hostOut := m.hostOut.filter fun x =>
          x.port != h.port || x.write != h.write || x.tag != h.tag || x.acc != h.acc }) s)) ∧
    (∀ h, s.mem.hostOut.find? (fun h => h.port == port && h.write == true && h.tag == tag &&
        h.acc + 1 ≤ portNow s) = some h →
      exec (.nakCycleEnd .hostCompletion port tag) s = .next (setMem (fun m => { m with
        hostOut := m.hostOut.filter fun x =>
          x.port != h.port || x.write != h.write || x.tag != h.tag || x.acc != h.acc }) s))

/-- Where a NAKed host transfer stands after its NAK: out of its place, driven again in the port cycle after the NAK, and
what was still to be driven of its port and direction one port cycle later (R298). -/
def Rules.DrivenAgain (s : State) (h : HostOut) : List HostOut :=
  ((s.mem.hostOut.filter fun x => x.port != h.port || x.write != h.write || x.tag != h.tag || x.acc != h.acc).map
    fun x => if x.port == h.port && x.write == h.write && decide (portNow s + 1 ≤ x.acc) then { x with acc := x.acc + 1 } else x) ++
  [{ h with fails := h.fails + 1, acc := portNow s + 1 }]

/-- A NAKed host return or completion is driven again, whatever tag the NAK names; a tag that is wrong, or fails its
parity, is counted (R296, R297, R298, R433, R437). -/
def Rules.HostNakReplays : Prop :=
  ∀ (s : State) (port : BitVec 5) (h : HostOut) (got : BitVec 12) (nakPar : BitVec 2), h.fails + 1 < 3 →
    (hostNaked s port false = some h →
      ∃ t, exec (.hostReturnNak port got nakPar) s = .next t ∧ t.mem.hostOut = Rules.DrivenAgain s h ∧
        bumpedAt s.mem.cnt t.mem.cnt 0 ∧
        t.far = (if h.tag = got ∧ parityOk got nakPar = true then s else countPort 6 1 s).far ∧
        OnlyChanges [.mem, .far] s t) ∧
    (hostNaked s port true = some h →
      ∃ t, exec (.hostCompletionNak port got nakPar) s = .next t ∧ t.mem.hostOut = Rules.DrivenAgain s h ∧
        bumpedAt s.mem.cnt t.mem.cnt 0 ∧
        t.far = (if h.tag = got ∧ parityOk got nakPar = true then s else countPort 6 1 s).far ∧
        OnlyChanges [.mem, .tongue, .far] s t)

/-- The third failure of a host transfer is fatal: a return becomes an error completion, a write completion is not sent
again (R298, R309). -/
def Rules.HostNakFatal : Prop :=
  ∀ (s : State) (port : BitVec 5) (h : HostOut) (got : BitVec 12) (nakPar : BitVec 2), 3 ≤ h.fails + 1 →
    (hostNaked s port false = some h →
      ∃ t, exec (.hostReturnNak port got nakPar) s = .next t ∧ t.mem.fault.valid = true ∧ bumpedAt s.mem.cnt t.mem.cnt 1 ∧
        (h.err = false → ∃ g ∈ t.mem.hostOut, g.port = h.port ∧ g.tag = h.tag ∧ g.write = h.write ∧ g.err = true ∧
          g.fails = 0)) ∧
    (hostNaked s port true = some h →
      ∃ t, exec (.hostCompletionNak port got nakPar) s = .next t ∧ t.mem.fault.valid = true ∧
        bumpedAt s.mem.cnt t.mem.cnt 1 ∧
        t.mem.hostOut = s.mem.hostOut.filter fun x =>
          x.port != h.port || x.write != h.write || x.tag != h.tag || x.acc != h.acc)

/-- A NAKed memory transfer is to be issued again from the next port cycle, whatever tag the NAK names; a NAKed write
voids its confirm reads (R296, R298, R299, R433). -/
def Rules.MemoryNaksReplay : Prop :=
  ∀ (s : State) (ch : BitVec 5) (f : Flight) (got : BitVec 10) (par : BitVec 2), f.void = false → f.fails + 1 < 3 →
    (flightNaked s ch false = some f →
      exec (.memoryReadNak ch got par) s = .next (setMem (fun m => { m with
        flights := m.flights.map fun x => if x.chan == f.chan && x.tag == f.tag
          then { x with fails := x.fails + 1, replay := some (portNow s + 1) } else x })
        (if f.tag = got && parityOk got par then s else countPort 6 1 s))) ∧
    (flightNaked s ch true = some f →
      ∃ t, exec (.memoryWriteNak ch got par) s = .next t ∧
        (∃ g ∈ t.mem.flights, g.chan = f.chan ∧ g.tag = f.tag ∧ g.replay = some (portNow s + 1) ∧
          g.fails = f.fails + 1) ∧
        (∀ g ∈ t.mem.flights, f.req.who.confirms g.req.who = true → g.void = true) ∧
        (∀ w ∈ t.mem.waiting, f.req.who.confirms w.req.who = false) ∧ t.stack = s.stack)

/-- A transfer that is NAKed goes again, one whose NAK cycle passes is good (R296, R297, R298, R299, R436, R437). -/
def Obligations.NaksAndNakCycles : Prop :=
  Rules.NakCycleEndsOfOtherTransfers ∧ Rules.HostNakReplays ∧ Rules.HostNakFatal ∧ Rules.MemoryNaksReplay

/-- A host request that meets a ready port enters arbitration, or is turned back beyond the end of the stack (R277, R278,
R282, R435). -/
def Rules.HostRequestsEnter : Prop :=
  ∀ (s : State) (port : BitVec 5) (tag : BitVec 12) (req : BitVec 52) (mask : BitVec 64) (data : Line)
    (rpar : BitVec 8) (wpar : BitVec 80), hostOpen s = true →
    (hostReady s port false = true → parityOk (req ++ tag) rpar = true →
      ∃ t, exec (.hostReadRequest port tag req rpar) s = .next t ∧ HostTaken port tag req false 0 0 s t) ∧
    (hostReady s port true = true → parityOk (data ++ mask ++ (req ++ tag)) wpar = true →
      ∃ t, exec (.hostWriteRequest port tag req mask data wpar) s = .next t ∧
        HostTaken port tag req true mask data s t)

/-- A host request that fails its parity is not forwarded; the third failure in a row is fatal (R296, R298, R309). -/
def Rules.HostRequestParityFailure : Prop :=
  ∀ (s : State) (port : BitVec 5) (tag : BitVec 12) (req : BitVec 52) (mask : BitVec 64) (data : Line)
    (rpar : BitVec 8) (wpar : BitVec 80), hostOpen s = true →
    (hostReady s port false = true → parityOk (req ++ tag) rpar = false →
      ∃ t, exec (.hostReadRequest port tag req rpar) s = .next t ∧ HostRefused port tag false s t) ∧
    (hostReady s port true = true → parityOk (data ++ mask ++ (req ++ tag)) wpar = false →
      ∃ t, exec (.hostWriteRequest port tag req mask data wpar) s = .next t ∧ HostRefused port tag true s t)

/-- While a request of the port waits for a tag, the port's ready is low and nothing is taken (R286, R306). -/
def Rules.HostPortNotReady : Prop :=
  ∀ (s : State) (port : BitVec 5) (tag : BitVec 12) (req : BitVec 52) (mask : BitVec 64) (data : Line)
    (rpar : BitVec 8) (wpar : BitVec 80), hostOpen s = true →
    (hostReady s port false = false → exec (.hostReadRequest port tag req rpar) s = .next s) ∧
    (hostReady s port true = false → exec (.hostWriteRequest port tag req mask data wpar) s = .next s)

/-- A host request enters arbitration, is turned back, or fails its parity (R277, R278, R282, R296, R298, R309,
R435). -/
def Obligations.HostRequests : Prop :=
  Rules.HostRequestsEnter ∧ Rules.HostRequestParityFailure ∧ Rules.HostPortNotReady

/-- A write completion is driven, and a good final gradient reaches the tongue with it (R436, R438, R199, R30). -/
def Obligations.WriteCompletionReachesTongue : Prop :=
  ∀ (s : State) (port : BitVec 5) (tag : BitVec 12) (d : HostDone), hostOpen s = true →
    s.mem.hostDone.find? (fun d => d.port == port && d.tag == tag) = some d →
    ∃ t, exec (.hostWriteCompletion port tag) s = .next t ∧
      t.mem.hostOut = s.mem.hostOut ++ [{ port := d.port, tag := d.tag, write := true, err := d.err, line := d.line
                                          cls := d.cls, acc := hostNextCycle s d.port true }] ∧
      t.mem.hostDone = s.mem.hostDone.filter (fun x => x.port != d.port || x.tag != d.tag) ∧
      (d.err = true ∨ d.cls ≠ .finalGrad → t.tongue = s.tongue) ∧
      (d.err = false → d.cls = .finalGrad → working s = true → s.step.phase = .observe →
        d.mask = BitVec.allOnes 64 → ∀ x l, lineOwner s d.line = some (x, l) →
        (normOf t x).obs = min ((normOf s x).obs + 1) (2 ^ 28 - 1))

/-- An arbiter that has not granted this cycle gives its slot to a replay first, then to a control request (R285,
R298, R306), in a window whose boundary has been taken (R16, R289). -/
def Rules.ArbiterOrder : Prop :=
  ∀ (s : State) (ch : BitVec 5) (write : Bool) (tag : BitVec 10), running s = true →
    portNow s < 1024 * (s.mem.window + 1) → s.mem.granted.contains (ch, write) = false →
    (∀ f, replayDue s ch write = some f → ∃ t, exec (.arbiterGrant ch write tag) s = .next t ∧
      t.mem.flights = s.mem.flights.map (fun x => if x.chan == f.chan && x.tag == f.tag
        then { x with acc := portNow s, replay := none, settled := false } else x) ∧
      (write = false → t.mem.waiting = s.mem.waiting)) ∧
    (∀ i w, replayDue s ch write = none → controlSlot s ch write = true →
      (candidates s ch write tag).find? (fun x => x.2.req.control) = some (i, w) →
      ∃ t, exec (.arbiterGrant ch write tag) s = .next t ∧
        t.mem.flights = s.mem.flights ++ [{ req := w.req, chan := ch, tag := tag, acc := portNow s }] ∧
        (ch, write) ∈ t.mem.granted)

/-- In priority mode a CRIT_RD request goes before every other class (R288, R285). -/
def Rules.CriticalReadsFirst : Prop :=
  ∀ (s : State) (ch : BitVec 5) (write : Bool) (tag : BitVec 10) (i : Nat) (w : Waiting), running s = true →
    portNow s < 1024 * (s.mem.window + 1) → s.mem.granted.contains (ch, write) = false → replayDue s ch write = none →
    s.mem.regulated = false →
    controlSlot s ch write = false →
    ((candidates s ch write tag).filter fun x => !x.2.req.control).find? (fun x => x.2.req.cls == .critRd) =
      some (i, w) →
    ∃ t, exec (.arbiterGrant ch write tag) s = .next t ∧
      t.mem.flights = s.mem.flights ++ [{ req := w.req, chan := ch, tag := tag, acc := portNow s }]

/-- A grant that meets a window boundary not taken yet takes it first: it counts in the window that begins (R16, R289). -/
def Rules.GrantAfterBoundary : Prop :=
  ∀ (s : State) (ch : BitVec 5) (write : Bool) (tag : BitVec 10), running s = true →
    1024 * (s.mem.window + 1) ≤ portNow s → portNow s < 1024 * (s.mem.window + 2) →
    exec (.arbiterGrant ch write tag) s = exec (.arbiterGrant ch write tag) (applyPlan (applyMp (windowEnd s)))

/-- A free arbiter serves a replay, then the control slot, then CRIT_RD before the other classes (R285, R288, R298,
R306). -/
def Obligations.Arbitration : Prop :=
  Rules.ArbiterOrder ∧ Rules.CriticalReadsFirst ∧ Rules.GrantAfterBoundary

/-- Read data of good parity ends its read; data of bad parity makes the read go out again (R296, R298). -/
def Rules.MemoryReadReturns : Prop :=
  ∀ (s : State) (ch : BitVec 5) (tag : BitVec 10) (data : Line) (par : BitVec 66) (f : Flight),
    flightOf s ch tag false = some f → f.void = false →
    (∀ port htag, f.req.who = .host port htag → f.req.confirm = false →
      parityOk (data ++ (f.tag.setWidth 16 : BitVec 16) : BitVec 528) par = true →
      exec (.memoryReadReturn ch tag data par) s = .next (hostSend
        { port := port, tag := htag, write := false, err := false, data := data, line := f.req.line
          cls := f.req.cls, acc := 0 } (dropFlight f s))) ∧
    (parityOk (data ++ (f.tag.setWidth 16 : BitVec 16) : BitVec 528) par = false → f.fails + 1 < 3 →
      exec (.memoryReadReturn ch tag data par) s = .next (setMem (fun m => { m with
        flights := m.flights.map fun x => if x.chan == f.chan && x.tag == f.tag
          then { x with fails := x.fails + 1, replay := some (portNow s + 2) } else x }) s))

/-- A confirm read compares the bytes written: a match confirms the line, a first mismatch rewrites it, a second halts
the pass (R172, R176). -/
def Rules.ConfirmReadsCompare : Prop :=
  ∀ (s : State) (ch : BitVec 5) (tag : BitVec 10) (data : Line) (par : BitVec 66) (f : Flight)
    (o i : Nat) (w : Bool) (tile : TileSt) (l : GroupLine),
    flightOf s ch tag false = some f → f.void = false → f.req.who = .confirm o i w → f.req.confirm = true →
    confirmEarly s f.req = false →
    parityOk (data ++ (f.tag.setWidth 16 : BitVec 16) : BitVec 528) par = true →
    groupLineOf s o i w = some (tile, l) → l.confirmed = false → l.failed = false →
    let u := dropFlight f (countSweep 4 64 s)
    let old := l
    (confirmOk s o l data = true →
      exec (.confirmReadReturn ch tag data par) s = .next (setLine o i (fun l => { l with confirmed := true }) u)) ∧
    (confirmOk s o l data = false → l.misses = 0 →
      exec (.confirmReadReturn ch tag data par) s =
        .next (enqueue { who := .group o i w, cls := if l.tadpole then .tadpole else .sweep, write := true
                         line := l.line, mask := l.mask, data := rewriteData s o l, tail := l.tail }
          (countSweep 0 1 (setLine o i (fun l => { l with misses := 1, data := rewriteData s o old }) u)))) ∧
    (confirmOk s o l data = false → l.misses ≠ 0 →
      exec (.confirmReadReturn ch tag data par) s =
        .next (raiseTear .confirm tile i w (setLine o i (fun l => { l with failed := true }) u)))

/-- A read return is delivered, asked again, or compared with what was written (R172, R176, R296, R298). -/
def Obligations.ReadReturns : Prop :=
  Rules.MemoryReadReturns ∧ Rules.ConfirmReadsCompare

/-- An entry of the write-combining buffer leaves after 16 port cycles (R301). -/
def Rules.WcbEntryLeaves : Prop :=
  ∀ (s : State) (line : BitVec 34) (e : WcbEntry), running s = true → s.mem.wcb.find? (·.line == line) = some e →
    (e.opened + 16 ≤ portNow s → ∃ t, exec (.wcbTimeout line) s = .next t ∧
      t.mem.wcb = s.mem.wcb.filter (·.line != e.line) ∧
      (∃ w, t.mem.waiting = s.mem.waiting ++ [w] ∧ w.req.line = e.line ∧ w.req.mask = e.mask ∧ w.req.data = e.data ∧
        w.req.write = true ∧ w.req.cls = e.cls) ∧ OnlyChanges [.mem] s t) ∧
    (portNow s < e.opened + 16 → exec (.wcbTimeout line) s = .next s)

/-- Tadpole pieces that have waited 2,048 port cycles are marked, and no others (R304). -/
def Rules.TadpoleAges : Prop :=
  ∀ (s : State) (ch : BitVec 5), running s = true →
    exec (.tadpoleAgeLimit ch) s = .next { s with mem := { s.mem with
      waiting := s.mem.waiting.map fun w =>
        { w with aged := w.aged || (w.req.cls == .tadpole && channelOf s w.req.line == ch &&
            decide (w.since + 2048 ≤ portNow s)) } } }

/-- A window boundary closes the window, and the throttle level follows its target by the rule (R289, R291, R292,
R313, R315). -/
def Rules.WindowBoundary : Prop :=
  ∀ s : State, running s = true → 1024 * (s.mem.window + 1) ≤ portNow s →
    ∃ t, exec .regulatorWindowBoundary s = .next t ∧ t.mem.window = s.mem.window + 1 ∧
      t.mem.usedLast = s.mem.used ∧ t.mem.used = List.replicate 8 0 ∧ t.mem.throttledUsed = 0 ∧
      t.mem.chans = s.mem.chans.map ChanStat.close ∧
      t.mem.thermal.level = nextLevel s.mem.thermal (Int.ofNat s.mem.window + 1) ∧
      t.mem.waiting = s.mem.waiting ∧ t.mem.flights = s.mem.flights

/-- What the memory path does in time: merged writes, tadpole pieces, regulator windows (R289, R291, R292, R301,
R304, R313, R315). -/
def Obligations.MemoryTimers : Prop :=
  Rules.WcbEntryLeaves ∧ Rules.TadpoleAges ∧ Rules.WindowBoundary

/-- A thermal report sets temperature, limit, pause and target level, and what a pause held back goes on with its end;
a bad report is only counted (R292, R293, R294, R457). -/
def Obligations.ThermalReports : Prop :=
  ∀ (s : State) (temp limit : BitVec 8) (par : BitVec 2), running s = true →
    (reportGood s temp limit par = true → ∃ t, exec (.thermalReport temp limit par) s =
        .next (if s.mem.thermal.paused && !t.mem.thermal.paused then pauseEnded t else t) ∧
      t.mem.thermal.valid = true ∧ t.mem.thermal.stale = false ∧ t.mem.thermal.temp = temp ∧
      t.mem.thermal.limit = limit ∧ t.mem.thermal.lastGood = now s ∧
      t.mem.thermal.paused = (decide (limit.toInt ≤ temp.toInt) ||
        (s.mem.thermal.paused && decide (limit.toInt - 2 < temp.toInt))) ∧
      t.mem.thermal.target = targetLevel s temp limit t.mem.thermal.paused ∧
      t.mem.thermal.level = s.mem.thermal.level ∧ OnlyChanges [.mem, .evt] s t) ∧
    (reportGood s temp limit par = false → exec (.thermalReport temp limit par) s = .next (countPort 8 1 s)) ∧
    (s.mem.thermal.stale = false → s.mem.thermal.lastGood + 480000 ≤ now s →
      ∃ t, exec .thermalStale s = .next t ∧ t.mem.thermal.stale = true ∧ t.mem.thermal.paused = true ∧
        t.mem.thermal.target = 7)

/-- A cold reset leaves everything at its reset value but the pins and the bytes of the stack (R461, R469, R475,
R552). -/
def Rules.ColdResets : Prop :=
  ∀ (s : State) (ns : Nat),
    (100 ≤ ns →
      exec (.pwrOkLow ns) s = .next { State.reset with
        boot := { cause := 0x01, pwrOk := false, rstColdN := s.boot.rstColdN, rstWarmN := s.boot.rstWarmN }
        stack := s.stack, freeCtr := s.freeCtr, pending := s.pending } ∧
      exec (.coldReset ns) s = .next { State.reset with
        boot := { cause := 0x02, pwrOk := s.boot.pwrOk, rstColdN := false, rstWarmN := s.boot.rstWarmN }
        stack := s.stack, freeCtr := s.freeCtr, pending := s.pending }) ∧
    (s.clk.pllLocked = true → exec .pllUnlock s = .next { State.reset with
        boot := { cause := 0x03, pwrOk := s.boot.pwrOk, rstColdN := s.boot.rstColdN, rstWarmN := s.boot.rstWarmN }
        stack := s.stack, freeCtr := s.freeCtr, pending := s.pending }) ∧
    (ns < 20 → exec (.pwrOkLow ns) s = .next s ∧ exec (.coldReset ns) s = .next s ∧ exec (.warmReset ns) s = .next s)

/-- Start-up goes from PLL lock through the vault and the SRAM self-test to READY (R468, R474, R484, R486, R491,
R512). -/
def Rules.StartUpStages : Prop :=
  ∀ s : State,
    (s.boot.pwrOk = true → s.boot.rstColdN = true → s.boot.rstWarmN = true → s.clk.pllLocked = false →
      ∃ t, exec .pllLock s = .next t ∧ t.clk = { pllLocked := true } ∧ t.boot.stage = .vault ∧ t.boot.code = 0x2 ∧
        (s.kst = {} → t.kst.cur = some ({ we := false, addr := 0, wdata := 0, use := .init }, 0)) ∧
        t.stack = s.stack) ∧
    (portOpen s = true → s.boot.stage = .vault → (∀ o, s.kst.cur = some o → o.1.use ≠ .init) → s.kst.todo = [] →
      s.vault.blocksDue = 0 → ∃ t, exec .vaultInitDone s = .next t ∧ t.vault.state ≠ .init ∧
        (s.boot.warm = false → t.boot.stage = .sram ∧ t.boot.code = 0x3) ∧
        (s.boot.warm = true → t.boot.stage = .ready ∧ t.step.phase = .idle ∧ t.boot.warm = false)) ∧
    (portOpen s = true → s.boot.stage = .sram →
      (∃ t, exec (.sramSelftestDone true) s = .next t ∧ t.boot.stage = .ready ∧ t.boot.seenReady = true ∧
        t.step.phase = .idle) ∧
      (∃ t, exec (.sramSelftestDone false) s = .next t ∧ t.boot.stage = .failed ∧ t.boot.code = 0xF ∧
        t.boot.bootErr = 1 ∧ t.health.cause.getLsbD 7 = true))

/-- A cold reset clears all but the stack, and start-up passes through its stages to READY (R461, R468, R469, R474,
R475, R484, R486, R491, R512, R552). -/
def Obligations.ColdResetAndStartUp : Prop :=
  Rules.ColdResets ∧ Rules.StartUpStages

/-- A warm reset stops the engine's new work, lets accepted memory traffic finish, then clears what R475 lists
(R475, R476, R479, R532). -/
def Rules.WarmReset : Prop :=
  ∀ (s : State) (ns : Nat) (w : Word),
    (100 ≤ ns → running s = true → s.boot.seenReady = true →
      ∃ t, exec (.warmReset ns) s = .next t ∧ t.boot.stage = .drain ∧ t.boot.code = 0x2 ∧ t.boot.cause = 0x04 ∧
        t.boot.rstWarmN = false ∧ t.mem.flights = s.mem.flights ∧ t.stack = s.stack) ∧
    (ready s = true → s.boot.seenReady = true → (field w 0 4 : BitVec 4) = 1 →
      (field w 48 16 : BitVec 16) = 0x5752 → (field w 10 2 : BitVec 2) ≠ 3 →
      ∃ t, exec (.gctlWarmReset w) s = .next t ∧ t.boot.stage = .drain ∧ t.boot.code = 0x2 ∧ t.boot.cause = 0x05 ∧
        t.boot.gctlErr = 0 ∧ t.mem.flights = s.mem.flights ∧ t.stack = s.stack ∧ t.ctl.rsp = some 0x04) ∧
    (running s = true → s.boot.stage = .drain → memDrained s = true →
      ∃ t, exec .warmResetDrainDone s = .next t ∧ t.step = {} ∧ t.sweep = { known := s.sweep.known } ∧
        t.snap = {} ∧ t.lscale = {} ∧
        t.health.fatal = false ∧ t.image.active = s.image.active ∧ t.stepk.stage = s.stepk.stage ∧
        t.rng.lanes = s.rng.lanes ∧ t.lease.all = s.lease.all.map (fun l => { l with gen := l.gen + 1 }) ∧
        t.stack = s.stack ∧ t.boot.warm = true ∧
        t.boot.stage = (if s.boot.rstWarmN then .vault else .waitLock))

/-- Releasing a reset pin raises it, and starts the boot that waited for it (R461, R476, R485). -/
def Rules.ResetRelease : Prop :=
  ∀ (s : State), s.boot.stage ≠ .waitLock →
    exec (.resetRelease .warm) s = .next { s with boot := { s.boot with rstWarmN := true } } ∧
    exec (.resetRelease .cold) s = .next { s with boot := { s.boot with rstColdN := true } } ∧
    exec (.resetRelease .pwrOk) s = .next { s with boot := { s.boot with pwrOk := true } } ∧
    (running s = true → ∃ t, exec (.resetRelease .warm) { s with boot := { s.boot with stage := .waitLock } } = .next t ∧
      t.boot.stage = .vault ∧ t.boot.rstWarmN = true)

/-- A warm reset drains, clears what it must, keeps the rest; a released pin lets start-up go on (R461, R475, R476,
R479, R485, R532). -/
def Obligations.WarmResetAndRelease : Prop :=
  Rules.WarmReset ∧ Rules.ResetRelease

/-- A fabric-only reset runs for its drain's length and then loads the variant (R473, R478, R479). -/
def Rules.FabricOnlyReset : Prop :=
  ∀ (s : State) (w : Word), ready s = true →
    ((field w 0 4 : BitVec 4) = 8 → (field w 10 2 : BitVec 2) ≠ 3 → fabricBusyPhase s = false →
      s.boot.fabricReset = false → ∃ t, exec (.fabricReset w) s = .next t ∧ t.boot.fabricReset = true ∧
        t.boot.gctlErr = 0 ∧ t.ctl.rsp = some 0x04 ∧ t.step = s.step ∧ t.east = s.east ∧ t.west = s.west ∧
        (s.fab.draining = false → t.boot.fabricUntil = some (s.clk.fab + 4096) ∧ t.aux.running = false ∧
          ∀ f, t.rng.mask.run = some f → f.stopping = true ∧ f.shown = false)) ∧
    (∀ u, s.boot.fabricUntil = some u → u ≤ s.clk.fab →
      ∃ t, exec .fabricResetDone s = .next t ∧ t.boot = { s.boot with fabricReset := false, fabricUntil := none } ∧
        OnlyChanges [.boot, .fab] s t)

/-- A link-only reset restarts training of its link alone (R428, R472, R473, R477). -/
def Rules.LinkOnlyReset : Prop :=
  ∀ (s : State) (w : Word), ready s = true → (field w 10 2 : BitVec 2) ≠ 3 →
    ((field w 0 4 : BitVec 4) = 2 → s.boot.linkResetE = false → expected s .east = true → s.east.holdDown = false →
      ∃ u, u.boot.linkResetE = true ∧ u.boot.gctlErr = 0 ∧ OnlyChanges [.boot, .clk, .power, .east] s u ∧
        exec (.linkReset w) s = .next (respond 0x04 (segSettle (startTraining .east false u)))) ∧
    ((field w 0 4 : BitVec 4) = 4 → s.boot.linkResetW = false → expected s .west = true → s.west.holdDown = false →
      ∃ u, u.boot.linkResetW = true ∧ u.boot.gctlErr = 0 ∧ OnlyChanges [.boot, .clk, .power, .west] s u ∧
        exec (.linkReset w) s = .next (respond 0x04 (segSettle (startTraining .west false u))))

/-- A fabric-only reset and a link-only reset touch their unit and nothing else of the step (R428, R472, R473, R477,
R478, R479). -/
def Obligations.PartialResets : Prop :=
  Rules.FabricOnlyReset ∧ Rules.LinkOnlyReset

/-- A new fab clock ratio is applied while the fabric stands still, and takes 64 ctrl cycles (R470, R472). -/
def Rules.FabClockRatio : Prop :=
  ∀ (s : State) (w : Word), ready s = true →
    ((field w 0 4 : BitVec 4) = 0 → (field w 10 2 : BitVec 2) ≠ 3 → s.clk.divUntil = none →
      ∃ t, exec (.fabDivWrite w) s = .next t ∧ t.clk.gctlDiv = field w 10 2 ∧ t.boot.gctlErr = 0 ∧
        t.ctl.rsp = some 0x04 ∧ t.clk.fabDiv = s.clk.fabDiv ∧
        (s.clk.fabDiv ≠ field w 10 2 → fabStopped s = true →
          t.clk.divUntil = some (now s + 64, field w 10 2) ∧ t.clk.divPending = false) ∧
        (s.clk.fabDiv ≠ field w 10 2 → fabStopped s = false → t.clk.divUntil = none ∧ t.clk.divPending = true)) ∧
    (∀ u d, s.clk.divUntil = some (u, d) → u ≤ now s →
      exec .fabDivApply s = .next { s with clk := { s.clk with fabDiv := d, divUntil := none } }) ∧
    (s.clk.divUntil = none → s.clk.divPending = true → fabStopped s = true →
      exec .fabDivApply s = .next { s with clk := { s.clk with
        divPending := false, divUntil := some (now s + 64, s.clk.gctlDiv) } })

/-- ACTIVE is entered and left, its units ungated in 8 groups 120 ctrl cycles apart, after the last of which FETCH's rate
rises from zero, RETAIN entered and left, by the times of the rules (R480, R481, R482, R555, R565). -/
def Rules.PowerStates : Prop :=
  (∀ s : State, (rampStart s).sweep.pass = s.sweep.pass.map fun p => { p with rampFrom := s.clk.fab, rampIssued := 0 }) ∧
  ∀ s : State, ready s = true →
    (activeCause s = true ∨ s.power.forceActive = true →
      (s.power.usable = true → exec .powerWakeDone s = .next { s with power := { s.power with
        state := .active, lastCause := now s, wakeFrom := none } }) ∧
      (s.power.usable = false → s.power.wakeFrom.getD (now s) + 840 ≤ now s →
        exec .powerWakeDone s = .next (rampStart { s with power := { s.power with
          state := .active, usable := true, lastCause := now s, wakeFrom := none } })) ∧
      (s.power.usable = false → now s < s.power.wakeFrom.getD (now s) + 840 →
        exec .powerWakeDone s = .next { s with power := { s.power with
          state := .active, lastCause := now s, wakeFrom := some (s.power.wakeFrom.getD (now s)) } })) ∧
    (activeCause s = false → s.power.forceActive = false → ∀ u, s.power.wakeFrom = some u → u + 840 ≤ now s →
      exec .powerWakeDone s = .next (rampStart { s with power := { s.power with usable := true, wakeFrom := none } })) ∧
    (s.power.state = .active → activeCause s = false → s.power.forceActive = false →
      s.power.lastCause + 9600 ≤ now s → exec .activeExit s = .next { s with power := { s.power with
        state := if s.step.phase = .observe then .observe else .idle, usable := false, wakeFrom := none } }) ∧
    (∀ u, s.power.retainSince = some u → retainOk s = true → u + s.power.retainHold ≤ now s →
      exec .retainEntry s = .next { s with power := { s.power with
        state := .retain, retainSince := none, wakeDue := false } }) ∧
    (s.power.state = .retain → s.power.wakeDue = true → exec .retainWake s = .next { s with power := { s.power with
        state := .idle, wakeDue := false, retainSince := none
        retainHold := if s.power.retainBit then 480000 else 480 } })

/-- The fabric clock ratio and the power states change by their rules (R470, R472, R480, R481, R482, R555). -/
def Obligations.ClockAndPower : Prop :=
  Rules.FabClockRatio ∧ Rules.PowerStates

/-- An accepted vault operation begins: KEYGEN, PROGRAM, LOCK, READ, QUOTE (R494, R495, R496, R498). -/
def Rules.VaultOperationsBegin : Prop :=
  ∀ (s : State) (w : Word), Applies s →
    (∀ e, vaultRefusal s (fieldNat w 0 3) (fieldNat w 8 12) = some e →
      exec (.vaultKeygen w) s = .next (respond 0x04 { s with vault := { s.vault with err := e } })) ∧
    (vaultRefusal s (fieldNat w 0 3) (fieldNat w 8 12) = none →
      (fieldNat w 0 3 = 1 → exec (.vaultKeygen w) s = .next (respond 0x04 { s with vault := { s.vault with
        run := some .keygen, err := 0, opAddr := field w 8 12, blocksDue := 3, blocks := [] } })) ∧
      (s.kst.cur = none → s.kst.todo = [] → s.kst.restAt ≤ portNow s →
        (fieldNat w 0 3 = 2 → ∃ t, exec (.vaultProgram w) s = .next t ∧ t.vault.run = some .program ∧ t.vault.err = 0 ∧
          t.kst.cur = some ({ we := true, addr := field w 8 12, wdata := field w 32 32, use := .program }, now s)) ∧
        (fieldNat w 0 3 = 3 → ∃ t, exec (.vaultLock w) s = .next t ∧ t.vault.run = some .lock ∧ t.vault.err = 0 ∧
          t.kst.cur = some ({ we := true, addr := 0x12, wdata := 2, use := .lock }, now s)) ∧
        (fieldNat w 0 3 = 4 → ∃ t, exec (.vaultRead w) s = .next t ∧ t.vault.run = some .read ∧ t.vault.err = 0 ∧
          t.kst.cur = some ({ we := false, addr := field w 8 12, wdata := 0, use := .read }, now s))) ∧
      (fieldNat w 0 3 = 5 → ∀ bs, quoteCapture { s with vault := { s.vault with
          run := some .quote, err := 0, opAddr := field w 8 12, blocksDue := 1, blocks := []
          out := List.replicate 46 0 } } = some bs →
        ∃ t, exec (.vaultQuote w) s = .next t ∧ t.vault.run = some .quote ∧ t.vault.quote = bs ∧
          t.vault.blocksDue = 1 ∧ OnlyChanges [.vault, .ctl] s t))

/-- Key-store answers finish the vault's operation; a failed one is repeated once (R459, R460, R491, R502). -/
def Rules.KeyStoreAnswers : Prop :=
  ∀ (s : State) (o : KstOp) (t0 : Nat) (rdata : BitVec 32) (par : BitVec 5), s.kst.cur = some (o, t0) →
    (parityOk ((0 : BitVec 8) ++ rdata) par = true → s.kst.todo = [] →
      (o.use = .read → s.vault.run = some .read → exec (.kstAck rdata false par) s = .next { s with
        kst := { cur := none, repeated := false, todo := [], restAt := portNow s + 2 }
        vault := { s.vault with err := 0, run := none, resOp := 4, resAddr := o.addr, resData := rdata } }) ∧
      (o.use = .program → s.vault.run = some .program → exec (.kstAck rdata false par) s = .next { s with
        kst := { cur := none, repeated := false, todo := [], restAt := portNow s + 2 }
        vault := { s.vault with err := 0, run := none, resOp := 2, resAddr := o.addr, resData := rdata } }) ∧
      (o.use = .lock → s.vault.run = some .lock → exec (.kstAck rdata false par) s = .next { s with
        kst := { cur := none, repeated := false, todo := [], restAt := portNow s + 2 }
        vault := { s.vault with locked := true, err := 0, run := none, resOp := 3, resAddr := o.addr
                                resData := rdata } }) ∧
      (o.use = .init → exec (.kstAck rdata false par) s = .next { s with
        kst := { cur := none, repeated := false, todo := [], restAt := portNow s + 2 }
        vault := { s.vault with words := (o.addr, rdata) :: s.vault.words } })) ∧
    (s.kst.repeated = false →
      (exec (.kstAck rdata true par) s =
        .next (countPort 10 1 { s with kst :=
          { cur := none, repeated := true, todo := o :: s.kst.todo, restAt := portNow s + 2 } })) ∧
      (parityOk ((0 : BitVec 8) ++ rdata) par = false → exec (.kstAck rdata false par) s =
        .next (countPort 10 1 { s with kst :=
          { cur := none, repeated := true, todo := o :: s.kst.todo, restAt := portNow s + 2 } })) ∧
      (t0 + kstBound o ≤ now s → exec .kstTimeout s =
        .next (countPort 10 1 { s with kst :=
          { cur := none, repeated := true, todo := o :: s.kst.todo, restAt := portNow s + 2 } })))

/-- A finished quote is the captured bytes and their signature (R498, R499, R500). -/
def Rules.QuoteIsSigned : Prop :=
  ∀ s : State, ready s = true → s.vault.run = some .quote → s.vault.blocksDue = 0 →
    exec .quoteDone s = .next (countHealth 4 1 { s with vault := { s.vault with
      run := none, err := 0, resOp := 5, blocks := [], quote := []
      out := regBytes 46 (s.vault.quote ++ beBytes 48 (ecdsaSign s.vault.d s.vault.quote).1 ++
        beBytes 48 (ecdsaSign s.vault.d s.vault.quote).2) } })

/-- The vault's operations begin, go through the key store, and end; a quote is signed (R459, R460, R491, R494,
R495, R496, R498, R499, R500, R502). -/
def Obligations.VaultAndKeyStore : Prop :=
  Rules.VaultOperationsBegin ∧ Rules.KeyStoreAnswers ∧ Rules.QuoteIsSigned

/-- A mask fill starts, stops and ends by the rule (R382, R383, R384, R447). -/
def Rules.MaskFills : Prop :=
  ∀ (s : State) (w : Word),
    (Applies s → w.getLsbD 0 = true →
      (maskErr s w = 0 → exec (.maskStart w) s = .next (respond 0x04 { s with rng := { s.rng with
        mask := { s.rng.mask with err := 0, valid := false, stopped := false, done := 0
                                  run := some { regs := s.rng.mask.regs } } } })) ∧
      (maskErr s w ≠ 0 → exec (.maskStart w) s = .next (respond 0x04 { s with rng := { s.rng with
        mask := { s.rng.mask with err := maskErr s w } } }))) ∧
    (∀ f, Applies s → w.getLsbD 0 = false → w.getLsbD 1 = true → s.rng.mask.run = some f →
      (maskOut s = true → exec (.maskStop w) s = .next (respond 0x04 { s with rng := { s.rng with
        mask := { s.rng.mask with run := some { f with stopping := true, shown := true } } } })) ∧
      (maskOut s = false → ∃ t, exec (.maskStop w) s = .next t ∧ t.rng.mask.run = none ∧ t.rng.mask.stopped = true ∧
        t.rng.mask.valid = false ∧ OnlyChanges [.rng, .evt, .ctl] s t)) ∧
    (∀ f, ready s = true → s.rng.mask.run = some f → f.made = f.regs.count.toNat → f.part = [] → maskOut s = false →
      exec .maskFillDone s = .next (pulse 9 { s with rng := { s.rng with mask := { s.rng.mask with
        run := none, valid := s.rng.mask.done.toNat == f.regs.count.toNat, stopped := false, gateWait := false } } }))

/-- Reseeding: the write asks for it, the interval asks for it, 22 blocks carry it out (R389, R391, R393). -/
def Rules.Reseeding : Prop :=
  ∀ (s : State) (w : Word),
    (Applies s → exec (.reseedNow w) s = .next (respond 0x04 { s with rng := { s.rng with
      hold := w.getLsbD 1, reseedNow := s.rng.reseedNow || w.getLsbD 0 } })) ∧
    (∀ im, s.image.active = some im → ready s = true → 0 < im.rng.reseed.toNat →
      s.rng.reseedFrom + im.rng.reseed.toNat ≤ now s →
      exec .reseedInterval s = .next { s with rng := { s.rng with
        reseedFrom := s.rng.reseedFrom + im.rng.reseed.toNat, reseedDue := s.rng.reseedDue || !s.rng.hold } }) ∧
    (sourcesRun s = true → s.rng.reseedDue = true ∨ s.rng.reseedNow = true → s.rng.blocks.length = 22 →
      freshRuns s = false → s.rng.noise ≠ .failed →
      exec .reseed s = .next (countRng 2 1 { s with rng := { s.rng with
        lanes := reseedLanes s.rng.blocks s.rng.lanes, blocks := [], seeded := true, reseedDue := false
        reseedNow := false } }))

/-- Mask fills and reseeds begin and end by their rules (R382, R383, R384, R389, R391, R393, R447). -/
def Obligations.FillsAndReseeds : Prop :=
  Rules.MaskFills ∧ Rules.Reseeding

/-- A raw bit feeds the tests and the conditioner; a conditioned block goes where it is waited for (R385, R386,
R389, R422, R491). -/
def Obligations.NoiseSource : Prop :=
  ∀ (s : State),
    (∀ (b x y : Bool) (n c k : Nat), sourcesRun s = true → s.rng.nextBit ≤ now s →
      s.rng.noise = .ok ∨ s.rng.noise = .alarm → s.rng.rep = some (x, n) → s.rng.apt = some (y, c, k) →
      n < 25 → c < 671 → k < 1023 → s.rng.raw.length < 1023 →
      exec (.noiseRawBit b) s = .next { s with rng := { s.rng with
        raw := s.rng.raw ++ [b], bitCount := s.rng.bitCount + 1, nextBit := now s + 40
        rep := some (b, if x == b then n + 1 else 1), apt := some (y, (if y == b then c + 1 else c), k + 1) } }) ∧
    (∀ raw rest, s.rng.ready = raw :: rest → sourcesRun s = true → s.rng.noise ≠ .failed → s.fmp.sessionDue = false →
      (s.vault.blocksDue = 0 → s.rng.blocks.length < 22 → exec .conditionedBlock s = .next { s with
        rng := { s.rng with ready := rest, blocks := s.rng.blocks ++ [conditioned raw] } }) ∧
      (0 < s.vault.blocksDue → exec .conditionedBlock s =
        .next (vaultTakeBlock (conditioned raw) { s with rng := { s.rng with ready := rest } })))

/-- A lane takes a written nonzero value unless a FRESH fill draws on it, and reads as it stands (R390). -/
def Obligations.LaneWrites : Prop :=
  (∀ n : BitVec 7, State.reset.rng.lanes[n.toNat]? = some 1) ∧
  ∀ (s : State) (n : BitVec 7) (w : Word),
    (∀ v, s.rng.lanes[n.toNat]? = some v → readReg s (BitVec.ofNat 24 (0x071000 + 8 * n.toNat)) = some v) ∧
    (Applies s →
      (freshRuns s = false → w ≠ 0 → exec (.rngLaneWrite n w) s =
        .next (respond 0x04 { s with rng := { s.rng with lanes := s.rng.lanes.set n.toNat w } })) ∧
      (freshRuns s = false → w = 0 → exec (.rngLaneWrite n w) s =
        .next (respond 0x04 (report 0x0804 (putSat 0 7 n.toNat) s))) ∧
      (freshRuns s = true → exec (.rngLaneWrite n w) s =
        .next (respond 0x04 (report 0x0803 (putSat 0 7 n.toNat) s))))

/-- The port answers every write: PARITY, UNMAPPED, or the register's own effect (R443, R445, R510, R523, R524). -/
def Obligations.RegisterWrites : Prop :=
  ∀ (s : State) (addr : Addr24) (w : Word) (par : BitVec 12), portOpen s = true →
    (parityOk (ctlBundle addr w) par = false →
      exec (.registerWrite addr w par) s = .next (respond 0x06 (countPort 4 1 s))) ∧
    (parityOk (ctlBundle addr w) par = true →
      (readReg s (portAddr addr) = none → exec (.registerWrite addr w par) s =
        .next (respond 0x05 (countPort 5 1 s))) ∧
      ((readReg s (portAddr addr)).isSome = true → s.boot.stage = .ready →
        (s.health.fatal = true → fatalWritable (portAddr addr) w = false →
          exec (.registerWrite addr w par) s = .next (respond 0x04 s)) ∧
        (s.health.fatal = false → s.power.state ≠ .retain →
          exec (.registerWrite addr w par) s = .next (respond 0x04 (writeReg (portAddr addr).toNat w s)) ∧
          (portAddr addr = 0x0C0100 → exec (.registerWrite addr w par) s =
            .next (respond 0x04 { s with vault := { s.vault with nonce := s.vault.nonce.set 0 w } })))))

/-- STEP_CTL: no action bit does nothing, two conflict, LOAD_STEP ignores SEAL_STEP, the rest must match it (R24). -/
def Obligations.StepCtlChecks : Prop :=
  ∀ (s : State) (w : Word), Applies s →
    ∀ c ∈ [Instr.stepCtlSeal w, .stepCtlAbort w, .stepCtlLoadStep w, .stepCtlClearHalt w],
    (fieldNat w 0 4 = 0 → exec c s = .next (respond 0x04 s)) ∧
    (1 < popCount (field w 0 4 : BitVec 4) →
      exec c s = .next (respond 0x04 (report 0x0102 (put 0 (field w 32 32 : BitVec 32)) s))) ∧
    (fieldNat w 0 4 = 4 → s.step.phase = .idle → ∃ t, exec c s = .next t ∧ t.step.step = field w 32 32) ∧
    (fieldNat w 0 4 = 1 ∨ fieldNat w 0 4 = 2 ∨ fieldNat w 0 4 = 8 → (field w 32 32 : BitVec 32) ≠ s.step.step →
      exec c s = .next (respond 0x04 (report 0x0101
        (put 32 s.step.step ||| put 0 (field w 32 32 : BitVec 32)) s)))

/-- The oldest event goes out as one pulse, and a waiting source takes the room (R448). -/
def Rules.EventsGoOut : Prop :=
  ∀ (s : State) (t0 : Nat) (line : BitVec 6) (rest : List (Nat × BitVec 6)), ready s = true →
    s.evt.queue = (t0, line) :: rest → eventReady s line = true → t0 ≤ now s →
    (s.evt.waiting = [] → exec .eventEmit s = .next { s with evt := { s.evt with
      queue := rest, last := some (line, portNow s) } }) ∧
    (∀ x ws, s.evt.waiting = x :: ws → exec .eventEmit s = .next { s with evt := {
      queue := insertEvent rest (now s, x.2), waiting := ws, last := some (line, portNow s) } })

/-- Croak causes clear only when their condition is over and no event of this ctrl cycle set them; POP removes the
oldest log entry (R507, R510, R513). -/
def Rules.CroakAndLogWrites : Prop :=
  ∀ (s : State) (w : Word), ready s = true → s.power.state ≠ .retain →
    exec (.croakCauseWrite w) s = .next (respond 0x04 { s with health := { s.health with
      cause := s.health.cause &&& ~~~((field w 0 8 : BitVec 8) &&& ~~~(croakHolding s ||| (croakCycle s).hit))
      croakNow := croakCycle s } }) ∧
    (w.getLsbD 0 = true → exec (.errPop w) s = .next (respond 0x04 { s with health := { s.health with
      log := { s.health.log with entries := s.health.log.entries.drop 1 } } })) ∧
    (w.getLsbD 0 = false → exec (.errPop w) s = .next (respond 0x04 s))

/-- A snapshot takes every register of the mirror at one moment (R533, R536, R537). -/
def Rules.SnapshotTakes : Prop :=
  ∀ (s : State) (w : Word), Applies s → w.getLsbD 0 = true →
    exec (.snapTake w) s = .next (respond 0x04 { s with snap := {
      seq := s.snap.seq + 1, valid := true, time := time s
      mirror := snapAddrs.map fun a => (BitVec.ofNat 24 a, (readLive s a).getD 0) } })

/-- Events go out, log entries are popped, croak causes cleared, snapshots taken (R448, R507, R510, R513, R533,
R536, R537). -/
def Obligations.EventsLogSnapshot : Prop :=
  Rules.EventsGoOut ∧ Rules.CroakAndLogWrites ∧ Rules.SnapshotTakes

/-- An uncorrectable error is handled by its array, latched, counted and croaked (R508, R511, R512). -/
def Rules.UncorrectableErrors : Prop :=
  ∀ (s : State) (array : BitVec 4) (word : BitVec 32) (scrub : Bool), arraysLive s = true →
    s.health.cnt.length = 6 →
    ∃ t, exec (.sramUe array word scrub none) s = .next t ∧ t.health.sram.valid = true ∧
      (s.health.sram.valid = true → t.health.sram.more = true ∧ t.health.sram.bits = s.health.sram.bits) ∧
      (s.health.sram.valid = false → t.health.sram.more = false ∧ t.health.sram.bits =
        (put 58 array ||| putBit 57 scrub ||| putBit 56 (t.health.fatal && !s.health.fatal) ||| put 0 word)) ∧
      t.health.cnt.getD 1 {} = (s.health.cnt.getD 1 {}).add 1 ∧ t.health.cause.getLsbD 6 = true ∧
      (array = 1 ∨ array = 4 ∨ array = 8 → t.health.fatal = true) ∧
      (array = 2 ∨ array = 3 ∨ array = 5 → t.health.fatal = s.health.fatal) ∧
      (array = 5 → t.image.shadow = .empty)

/-- Correctable errors, scrubber intervals and the long windows count by their rules (R294, R509, R512, R516). -/
def Rules.HealthWindows : Prop :=
  ∀ (s : State) (array : BitVec 4) (word : BitVec 32) (scrub : Bool),
    (arraysLive s = true → s.health.ceAt = now s → (array, word) ∈ s.health.ceFound →
      exec (.sramCe array word scrub) s = .next s) ∧
    (∀ found, found = (if s.health.ceAt = now s then s.health.ceFound else []) → arraysLive s = true →
      (array, word) ∉ found → s.health.ceIndex = now s / eccWindow →
      (croakEccOf s = 0 ∨ s.health.ceWindow + 1 < croakEccOf s → exec (.sramCe array word scrub) s = .next { s with
        health := { s.health with ceAt := now s, ceFound := (array, word) :: found
                                  ceWindow := s.health.ceWindow + 1
                                  cnt := bump (bump s.health.cnt 0 1) 2 (if scrub then 1 else 0) } }) ∧
      (croakEccOf s ≠ 0 → croakEccOf s ≤ s.health.ceWindow + 1 → ∃ t, exec (.sramCe array word scrub) s = .next t ∧
        t.health.cause.getLsbD 3 = true ∧ t.health.ceWindow = s.health.ceWindow + 1 ∧
        OnlyChanges [.health, .evt] s t)) ∧
    (running s = true →
      ((s.health.scrubIndex + 1) * 2 ^ 35 ≤ now s → exec .scrubInterval s = .next { s with health := { s.health with
        scrubIndex := s.health.scrubIndex + 1, cnt := bump s.health.cnt 3 1 } }) ∧
      (s.health.ceIndex ≠ now s / 1728000000000 → exec .croakEccWindow s = .next { s with health := { s.health with
        ceIndex := now s / 1728000000000, ceWindow := 0, ceHolds := false } }) ∧
      ((s.mem.thermal.dutyIndex + 1) * 41472000000000 ≤ now s → ∃ t, exec .throttleDutyWindow s = .next t ∧
        t.mem.thermal.dutyIndex = s.mem.thermal.dutyIndex + 1 ∧ t.mem.thermal.dutyCycles = 0 ∧
        (croakThrottleOf s ≠ 0 → croakThrottleOf s * 138240000000000 < s.mem.thermal.dutyCycles * 65536 →
          t.health.cause.getLsbD 4 = true) ∧
        (croakThrottleOf s = 0 → t.health = s.health)))

/-- SRAM errors are handled, latched, counted and croaked; the long windows count (R294, R508, R509, R511, R512,
R516). -/
def Obligations.SramHealth : Prop :=
  Rules.UncorrectableErrors ∧ Rules.HealthWindows

/-- STEP_STATUS reads the step's block, with PHASE in the codes of the table and no other (R21, R22). -/
def Obligations.StepStatusReads : Prop :=
  ∀ s : State, ∃ v, readReg s 0x000020 = some v ∧ (field v 32 32 : BitVec 32) = s.step.step ∧
    (field v 16 16 : BitVec 16) = s.step.released ∧ (field v 8 2 : BitVec 2) = s.step.flash.code ∧
    fieldNat v 0 4 ≤ 8 ∧
    (∀ p k, (p, k) ∈ [(Phase.notReady, 0), (.idle, 1), (.observe, 2), (.sealed, 3), (.normPass, 4),
      (.awaitVerdict, 5), (.pass1, 6), (.sweep, 7), (.halted, 8)] → (s.step.phase = p ↔ fieldNat v 0 4 = k))

/-- A host request at or above STACK_GIB is not forwarded: an error completion, counted (R282). -/
def Obligations.AddressesBeyondTheStack : Prop :=
  State.reset.mem.stackGib = 128 ∧
  ∀ (s : State) (port : BitVec 5) (tag : BitVec 12) (req : BitVec 52) (mask : BitVec 64) (data : Line)
    (rpar : BitVec 8) (wpar : BitVec 80), hostOpen s = true → s.mem.stackGib.toNat * 2 ^ 30 ≤ 64 * (hostLine req).toNat →
    ∀ c write, (c, write) ∈ [(Instr.hostReadRequest port tag req rpar, false),
        (.hostWriteRequest port tag req mask data wpar, true)] →
      (write = false → parityOk (req ++ tag) rpar = true) →
      (write = true → parityOk (data ++ mask ++ (req ++ tag)) wpar = true) →
      ∃ t, exec c s = .next t ∧ t.mem.waiting = s.mem.waiting ∧ bumpedAt s.mem.cnt t.mem.cnt 8 ∧
        ∃ h, t.mem.hostOut = s.mem.hostOut ++ [h] ∧ h.port = port ∧ h.tag = tag ∧ h.write = write ∧ h.err = true

/-- An accepted seal captures the step constants and sends the contribution or starts the norm pass (R28, R32, R34,
R206, R415). -/
def Rules.SealAccepted : Prop :=
  ∀ (s : State) (w : Word), Applies s → s.step.phase = .observe → s.memb.state = .opened → s.stepk.valid = true →
    s.stepk.setStep = s.step.step → fieldNat w 0 4 = 1 → (field w 32 32 : BitVec 32) = s.step.step →
    ∀ c ∈ [Instr.sealPulse, .stepCtlSeal w], ∃ t, exec c s = .next t ∧ t.stepk.capture = s.stepk.set ∧
      t.stepk.captured = true ∧ t.step.step = s.step.step ∧
      (s.east.txPhase = .run → t.east.txPhase = .verdict ∧ t.east.flashOut = .hold) ∧
      (s.west.txPhase = .run → t.west.txPhase = .verdict ∧ t.west.flashOut = .hold) ∧
      ((∀ k, s.tongue.taken = some k → k.lines.all (fun x => x.passed (now s)) = true) →
        (incomplete s = 0 → t.step.phase = .awaitVerdict) ∧
        (incomplete s ≠ 0 → t.step.phase = .normPass ∧ t.tongue.usedNorm = true)) ∧
      (t.step.phase = .awaitVerdict ∨ t.step.phase = .normPass)

/-- A refused seal makes the report of its first failing check and counts once in TONGUE_CNT6; of two seals of one ctrl
cycle the STEP_CTL one is the refused one, whichever came first (R34, R122, R222). -/
def Rules.SealRefused : Prop :=
  ∀ (s : State) (w : Word), Applies s →
    (s.step.phase ≠ .observe →
      exec .sealPulse s = .next (report 0x0104
        (put 0 s.step.step ||| putBit 32 (s.step.sealAt != some (now s))) (countTongue 6 1 s)) ∧
      (fieldNat w 0 4 = 1 → (field w 32 32 : BitVec 32) = s.step.step → exec (.stepCtlSeal w) s =
        .next (respond 0x04 (report 0x0104 (put 0 s.step.step ||| putBit 32 false) (countTongue 6 1 s))))) ∧
    (s.step.phase = .observe → s.memb.state ≠ .opened →
      ∃ arg, exec .sealPulse s = .next (report 0x0105 arg (countTongue 6 1 s))) ∧
    (s.step.phase = .observe → s.memb.state = .opened → s.stepk.valid = false ∨ s.stepk.setStep ≠ s.step.step →
      exec .sealPulse s = .next (report 0x0106 (put 32 s.stepk.setStep ||| put 0 s.step.step) (countTongue 6 1 s)))

/-- A seal that passes its checks moves the step on; a refused one only reports and counts (R28, R32, R34, R122,
R206, R222, R415). -/
def Obligations.Seals : Prop :=
  Rules.SealAccepted ∧ Rules.SealRefused

/-- An accepted arm clears the gradient statistics, and 256 cycles later the tongue is armed (R28, R31, R211, R212,
R566). -/
def Rules.ArmAndClear : Prop :=
  ∀ (s : State) (w : Word),
    (Applies s → w.getLsbD 0 = true →
      (armError s (field w 32 32) = 0 → ∃ t, exec (.tongueArm w) s = .next t ∧ t.tongue.armErr = 0 ∧
        t.tongue.clearing = some (now s + 256, s.step.phase == .idle) ∧ t.tongue.acc = 0 ∧ t.tongue.nonfin = 0 ∧
        t.tongue.gmax = 0 ∧ t.tongue.armed = false ∧
        t.step = { s.step with flash := if s.step.phase = .idle then .hold else s.step.flash }) ∧
      (armError s (field w 32 32) ≠ 0 → ∃ t, exec (.tongueArm w) s = .next t ∧
        t.tongue = { s.tongue with armErr := armError s (field w 32 32) } ∧ t.step = s.step)) ∧
    (∀ u idle, working s = true → s.tongue.clearing = some (u, idle) → u ≤ now s →
      (s.step.phase = .idle → ∃ t, exec .armClearDone s = .next t ∧
        t.step = { s.step with phase := .observe, flash := .hold } ∧ t.tongue.armed = true ∧
        t.tongue.clearing = none) ∧
      (s.step.phase = .sweep → idle = false → exec .armClearDone s =
        .next { s with tongue := { s.tongue with clearing := none, armed := true } }))

/-- The end of the norm pass sends the contribution (R28, R207, R223). -/
def Rules.NormPassEnds : Prop :=
  ∀ (s : State) (p : NormPass), working s = true → s.tongue.norm = some p → p.cur = none → p.todo = [] →
    p.reread = [] → ∃ t, exec .normPassDone s = .next t ∧ t.step = { s.step with phase := .awaitVerdict } ∧
      t.tongue.norm = none ∧ (s.verdict.holding = false ∨ isManager s = true →
        t.hier.contribSent = true ∧ ∃ m, t.hier.unresolved = s.hier.unresolved ++ [m])

/-- Arming the tongue, and the norm pass that ends the observation (R28, R31, R207, R211, R212, R223, R566). -/
def Obligations.ArmsAndNormPass : Prop :=
  Rules.ArmAndClear ∧ Rules.NormPassEnds

/-- ABORT ends the step before the gate, stops FETCH after it, and is refused elsewhere (R28, R38, R42, R566). -/
def Rules.AbortEffects : Prop :=
  ∀ (s : State) (w : Word), Applies s → fieldNat w 0 4 = 2 → (field w 32 32 : BitVec 32) = s.step.step →
    (∀ c ∈ [Instr.abortReq, .stepCtlAbort w], ∃ t, exec c s = .next t ∧ t.step.step = s.step.step ∧
      (s.step.phase.beforeGate = true → t.step.phase = .idle ∧ t.step.flash = .abort ∧
        t.lscale.kNext = s.lscale.k ∧ t.tongue.armed = false ∧ t.tongue.norm = none ∧ t.verdict.gateDue = false) ∧
      (s.step.phase = .pass1 ∨ s.step.phase = .sweep → ∀ p, s.sweep.pass = some p → p.halt = none →
        t.step.phase = s.step.phase ∧ t.step.flash = .abort ∧
        t.sweep.pass = some { p with halt := some { fault := .abort, pos := positionOf s p.next, ord := p.next } })) ∧
    (abortable s = false → exec .abortReq s = .next (report 0x0103 0x80000001 s) ∧
      exec (.stepCtlAbort w) s = .next (respond 0x04 (report 0x0103 0x28 s)))

/-- CLEAR_HALT leaves HALTED for IDLE (R28, R150, R566, R356). -/
def Rules.ClearHalt : Prop :=
  ∀ (s : State) (w : Word), Applies s → fieldNat w 0 4 = 8 → (field w 32 32 : BitVec 32) = s.step.step →
    (s.step.phase = .halted → ∃ t, exec (.stepCtlClearHalt w) s = .next t ∧
      t.step = { s.step with phase := .idle } ∧ t.sweep.pass = none ∧ t.lscale.kNext = s.lscale.k ∧
      t.lscale.k = s.lscale.k ∧ (∀ k < 4, (xchan t k).openStep = none ∧ (xchan t k).baseValid = false)) ∧
    (s.step.phase ≠ .halted → exec (.stepCtlClearHalt w) s = .next (respond 0x04 (report 0x0103 0x28 s)))

/-- ABORT and CLEAR_HALT act in their phases and are refused in the others (R28, R38, R42, R150, R356, R566). -/
def Obligations.AbortAndClearHalt : Prop :=
  Rules.AbortEffects ∧ Rules.ClearHalt

/-- LOAD_STEP sets STEP in IDLE only, whatever SEAL_STEP matches (R25, R568, R356). -/
def Rules.LoadStep : Prop :=
  ∀ (s : State) (w : Word), Applies s → fieldNat w 0 4 = 4 →
    (s.step.phase = .idle → ∃ t, exec (.stepCtlLoadStep w) s = .next t ∧
      t.step = { s.step with step := field w 32 32 } ∧ t.verdict.attempt = 0 ∧ t.ctl.rsp = some 0x04 ∧
      (∀ k < 4, (xchan t k).baseValid = false)) ∧
    (s.step.phase ≠ .idle → exec (.stepCtlLoadStep w) s = .next (respond 0x04 (report 0x0103 0x28 s)))

/-- ROOT_LSN, LSCALE and MEMB_COMMIT apply in their phases and are refused outside them (R148, R149, R219, R239,
R530). -/
def Rules.JobWrites : Prop :=
  ∀ (s : State) (w : Word), Applies s →
    (s.step.phase = .idle → exec (.rootLsnWrite w) s =
      .next (respond 0x04 { s with verdict := { s.verdict with rootLsn := field w 0 16 } })) ∧
    (s.step.phase ≠ .idle → exec (.rootLsnWrite w) s = .next (respond 0x04 (report 0x0109 0x010318 s))) ∧
    (w.getLsbD 40 = true → s.step.phase = .idle → (field w 32 6 : BitVec 6) ≤ 32 →
      exec (.lscaleLoad w) s = .next (respond 0x04 { s with lscale := { k := field w 32 6, kNext := field w 32 6 } })) ∧
    (w.getLsbD 40 = true → s.step.phase ≠ .idle →
      exec (.lscaleLoad w) s = .next (respond 0x04 (report 0x0109 0x000250 s))) ∧
    (w.getLsbD 0 = true → planOf s ≠ none → s.memb.pending = none →
      s.step.phase = .idle ∨ s.step.phase = .observe → s.memb.epoch.toNat < s.memb.stage.toNat →
      exec (.membCommit w) s = .next (respond 0x04 { s with memb := { s.memb with
        err := 0, pending := some (s.memb.stage, nextBoundary (now s) 64) } }))

/-- LOAD_STEP, ROOT_LSN, LSCALE and MEMB_COMMIT apply in their phases only (R25, R148, R149, R219, R239, R356, R530,
R568). -/
def Obligations.LoadsInIdle : Prop :=
  Rules.LoadStep ∧ Rules.JobWrites

/-- The gate opens into the rule's first pass under the captured constants (R28, R32, R170, R179). -/
def Rules.GateOpens : Prop :=
  ∀ (s : State) (im : Image), working s = true → activeImage s = some im → s.verdict.gateDue = true →
    gateClear s = true → ∃ t, exec .gateOpen s = .next t ∧
      t.step = { s.step with phase := if firstPass im = none then .sweep else .pass1, released := 0 } ∧
      t.verdict.gateDue = false ∧ t.sweep.jStep = s.step.step ∧ t.lscale = s.lscale ∧
      ((∀ k < 4, deltaDone s k = false) → t.evt = s.evt) ∧
      ∃ p, t.sweep.pass = some p ∧ p.kind = (firstPass im).getD .sweep ∧ p.gateOpening = true ∧ p.gateLeft = 3 ∧
        p.consts = s.stepk.capture ∧ p.clip = field s.verdict.record 0xE0 32 ∧ p.lsK = s.lscale.k ∧ p.next = 0

/-- A finished first pass goes over into the updating pass under the same constants; trust ratios are written first, and
PASS1_DONE waits for them (R28, R135, R178, R181). -/
def Rules.FirstPassEnds : Prop :=
  ∀ (s : State) (im : Image) (p : Pass), working s = true → activeImage s = some im → s.sweep.pass = some p →
    p.kind = .pass1 ∨ p.kind = .pass1Factored → p.halt = none → p.gateLeft = 0 → p.gateOpening = false →
    p.next = p.tiles → p.inflight = [] → p.refetch = [] → p.vecOut = [] →
    ∃ t q, exec .pass1Done s = .next t ∧ t.step = { s.step with phase := .sweep } ∧
      (p.kind = .pass1Factored ∨ validTensors s = [] → q.doneDue = false ∧ q.gateLeft = 1 ∧ t.sweep.state = .sweep) ∧
      (p.kind = .pass1 → validTensors s ≠ [] → q.doneDue = true ∧ t.sweep.state = s.sweep.state ∧
        t.sweep.rho = trustRatios s p) ∧
      t.sweep.pass = some q ∧ q.kind = .sweep ∧ q.consts = p.consts ∧ q.clip = p.clip ∧ q.lsK = p.lsK ∧
      q.next = 0 ∧ q.wmark = 0 ∧ 0 < q.gateLeft ∧ t.sweep.seq = s.sweep.seq + 1

/-- The gate opens into the first pass, and a finished first pass into the updating pass (R28, R32, R135, R170,
R178, R179, R181). -/
def Obligations.PassesBegin : Prop :=
  Rules.GateOpens ∧ Rules.FirstPassEnds

/-- A verdict record that passes its checks is applied: GO, SKIP and ABORT (R28, R37, R38, R150, R228, R566, R568). -/
def Obligations.RecordsApplied : Prop :=
  ∀ (s : State) (src : Source) (m : Line), working s = true → rejectCode s m = 0 → s.verdict.seen = none →
    m ∉ s.verdict.ignored →
    (recCode m = 1 → s.step.phase = .awaitVerdict → s.verdict.gateDue = false →
      ∃ t, exec (.verdictRecordGo src m) s = .next t ∧ t.step = { s.step with flash := .go } ∧
        t.verdict.gateDue = true ∧ t.verdict.applied = true ∧ t.verdict.record = m ∧
        t.lscale = { s.lscale with kNext := recLsKNext m }) ∧
    (recCode m = 2 → s.step.phase.beforeGate = true →
      ∃ t, exec (.verdictRecordSkip src m) s = .next t ∧ t.step = { s.step with phase := .idle, flash := .skip } ∧
        t.verdict.attempt = s.verdict.attempt + 1 ∧ t.verdict.record = m ∧
        t.lscale = { k := recLsKNext m, kNext := recLsKNext m }) ∧
    (recCode m = 3 → s.step.phase.beforeGate = true →
      ∃ t, exec (.verdictRecordAbort src m) s = .next t ∧ t.step = { s.step with phase := .idle, flash := .abort } ∧
        t.verdict.attempt = s.verdict.attempt + 1 ∧ t.verdict.record = m ∧
        t.lscale = { s.lscale with kNext := s.lscale.k })

/-- A verdict record of another step, attempt, epoch or digest is rejected: reported, counted, FLASH as it was
(R37). -/
def Obligations.RecordsRejected : Prop :=
  ∀ (s : State) (src : Source) (m : Line), working s = true →
    recStepOf m ≠ s.step.step ∨ recAttempt m ≠ s.verdict.attempt ∨ msgEpoch m ≠ s.memb.epoch ∨
      msgTag m ≠ activeTag s ∨ rejectCode s m ≠ 0 →
    ∀ c ∈ [Instr.verdictRecordGo src m, .verdictRecordSkip src m, .verdictRecordAbort src m],
      ∃ t, exec c s = .next t ∧ t.step = s.step ∧ t.lscale = s.lscale ∧ t.verdict.reject = rejectCode s m ∧
        rejectCode s m ≠ 0 ∧ t.verdict.record = s.verdict.record ∧ t.verdict.applied = s.verdict.applied ∧
        t.health = (report 0x0410 (put 32 (recStepOf m) ||| put 0 (rejectCode s m)) s).health ∧
        t.hier.cnt = bump s.hier.cnt 2 1

/-- A qualified flash shows and is counted; only ABORT acts on the step (R228, R415, R566). -/
def Obligations.FlashesShow : Prop :=
  ∀ (s : State) (d : Side), working s = true →
    (∀ c f, (c, f) ∈ [(Instr.flashGo d, Flash.go), (.flashSkip d, .skip), (.flashHold d, .hold), (.flashAbort d, .abort)] →
      ((link s d).rxPhase = .verdict → ∃ t, exec c s = .next t ∧ t.verdict.flashSeen = true ∧ t.verdict.lastFlash = f ∧
        (link t d).flashIn = f ∧ t.hier.cnt = bump s.hier.cnt 4 1 ∧
        (f ≠ .abort → t.step = s.step) ∧
        (f = .abort → s.step.phase.beforeGate = true → t.step = { s.step with phase := .idle, flash := .abort })) ∧
      ((link s d).rxPhase ≠ .verdict → exec c s = .next s))

/-- Leases are acquired, renewed, released and read by the operation's checks (R232, R233, R234, R235). -/
def Obligations.LeaseOperations : Prop :=
  ∀ (s : State) (w : Word), Applies s → ∀ l, l = s.lease.all.getD (fieldNat w 8 8) {} →
    (fieldNat w 0 3 = 1 → (field w 48 16 : BitVec 16) ≠ 0 → fieldNat w 16 16 ≠ 0 →
      l.owner = 0 ∨ l.expiry.toNat ≤ now s → exec (.leaseAcquire w) s = .next (respond 0x04 (leaseDone w
        { owner := field w 48 16, gen := l.gen + 1, expiry := BitVec.ofNat 64 (now s + fieldNat w 16 16 * 65536) } s))) ∧
    (fieldNat w 0 3 = 2 → (field w 48 16 : BitVec 16) ≠ 0 → fieldNat w 16 16 ≠ 0 → l.owner = field w 48 16 →
      l.gen = field w 32 16 → now s < l.expiry.toNat → exec (.leaseRenew w) s = .next (respond 0x04 (leaseDone w
        { l with expiry := BitVec.ofNat 64 (now s + fieldNat w 16 16 * 65536) } s))) ∧
    (fieldNat w 0 3 = 3 → (field w 48 16 : BitVec 16) ≠ 0 → l.owner = field w 48 16 → l.gen = field w 32 16 →
      now s < l.expiry.toNat → exec (.leaseRelease w) s = .next (respond 0x04 (leaseDone w { l with owner := 0 } s))) ∧
    (fieldNat w 0 3 = 4 → exec (.leaseRead w) s = .next (respond 0x04 (leaseDone w l s))) ∧
    (fieldNat w 0 3 = 1 → l.owner ≠ 0 → now s < l.expiry.toNat → ∃ t, exec (.leaseAcquire w) s = .next t ∧
      t.lease.all = s.lease.all.set (fieldNat w 8 8) l ∧ t.hier.cnt = bump s.hier.cnt 5 1)

/-- A manager keeps what it accepts: contributions, sums and joins; notices act (R221, R223, R224, R225, R229). -/
def Rules.ManagerTakesMessages : Prop :=
  ∀ (s : State) (src : Source) (m : Line), working s = true → isManager s = true → msgFate s m = .accept →
    s.hier.issued ≠ some (s.step.step, s.verdict.attempt) →
    (msgType m = 1 → ∃ t, exec (.contrib src m) s = .next t ∧ m ∈ t.hier.got ∧ t.step = s.step) ∧
    (msgType m = 2 → ∃ t, exec (.sum src m) s = .next t ∧ m ∈ t.hier.got ∧ t.step = s.step) ∧
    (msgType m = 6 → ∃ t, exec (.join src m) s = .next t ∧ m ∈ t.hier.joins ∧ t.step = s.step) ∧
    (msgType m = 7 → ∃ t, exec (.joinSum src m) s = .next t ∧ m ∈ t.hier.joins ∧ t.step = s.step) ∧
    (msgType m = 3 → s.verdict.holding = false → ∃ t, exec (.skipNotice src m) s = .next t ∧
      t.hier.skipSent = true ∧ t.step = s.step) ∧
    (msgType m = 4 → s.memb.state ≠ .joining → ∃ t, exec (.holdNotice src m) s = .next t ∧
      t.verdict.holding = true ∧ (s.verdict.holding = false → t.verdict.holdCause = msgCause m)) ∧
    (msgType m = 5 → ∃ t, exec (.abortNotice src m) s = .next t ∧ m ∈ t.hier.notices ∧ t.step = s.step)

/-- The state with a contribution or a sum taken and kept (R223, R230). -/
def Rules.Held (src : Source) (m : Line) (s : State) : State :=
  startTimeout { takeInbox src m s with
    hier := { (takeInbox src m s).hier with got := (takeInbox src m s).hier.got ++ [m] } }

/-- The state of a sum that is complete: it is marked as sent and waits for nothing more (R224, R230). -/
def Rules.Summed (u : State) : State := { u with hier := { u.hier with sumSent := true, since := none } }

/-- A finite contribution or sum is kept while another is missing; with the last contribution a ring's manager sends the SUM
to its parent, and a node takes its package's sum among its children's; with the last of those a node sends the SUM on, and
the root makes the record (R223, R224, R226). -/
def Rules.ContributionsSum : Prop :=
  ∀ (s : State) (src : Source) (m : Line), working s = true → isManager s = true → msgFate s m = .accept →
    s.hier.issued ≠ some (s.step.step, s.verdict.attempt) → msgNonfin m = 0 → msgOver m = false →
    ∀ u, u = Rules.Held src m s →
    (∀ c t, (c, t) ∈ [(Instr.contrib src m, (1 : BitVec 8)), (.sum src m, 2)] → msgType m = t →
      allIn (membersOf s) (heldOf u 1) = false →
      (isTreeNode s = true → allIn (childrenOf s) (heldOf u 2) = false) → exec c s = .next u) ∧
    (msgType m = 1 → isTreeNode s = false → allIn (membersOf s) (heldOf u 1) = true → s.hier.sumSent = false →
      s.verdict.holding = false →
      exec (.contrib src m) s = .next (sendUp (mkSum (Rules.Summed u) (heldOf u 1)) (Rules.Summed u))) ∧
    (∀ x v, msgType m = 1 → isTreeNode s = true → allIn (membersOf s) (heldOf u 1) = true →
      (heldOf u 2).any (fun y => msgSrc y == contribOf s) = false → x = mkSum u (heldOf u 1) → msgNonfin x = 0 →
      msgOver x = false → v = { u with hier := { u.hier with got := u.hier.got ++ [x] } } →
      allIn (childrenOf s) (heldOf v 2) = false → exec (.contrib src m) s = .next v) ∧
    (msgType m = 2 → isTreeNode s = true → isRoot s = false → s.hier.sumSent = false → s.verdict.holding = false →
      (heldOf u 2).any (fun x => msgSrc x == contribOf s) = true → allIn (childrenOf s) (heldOf u 2) = true →
      exec (.sum src m) s = .next (sendUp (mkSum (Rules.Summed u) (heldOf u 2)) (Rules.Summed u))) ∧
    (∀ j, msgType m = 2 → isRoot s = true → jobOf s = some j → s.hier.sumSent = false → s.verdict.holding = false →
      (heldOf u 2).any (fun x => msgSrc x == contribOf s) = true → allIn (childrenOf s) (heldOf u 2) = true →
      exec (.sum src m) s = .next (issueRecord (rootVerdict (Rules.Summed u) j false (sumGsq (heldOf u 2))
        (sumNonfin (heldOf u 2)) (sumGmax (heldOf u 2)) (sumCount (heldOf u 2)) ((sumFlags (heldOf u 2)).getLsbD 0))
        (Rules.Summed u)))

/-- The state with a join taken and kept (R221). -/
def Rules.Joined (src : Source) (m : Line) (s : State) : State :=
  { takeInbox src m s with hier := { (takeInbox src m s).hier with joins := (takeInbox src m s).hier.joins ++ [m] } }

/-- The state of joins that are complete: they have been passed on (R221). -/
def Rules.Passed (u : State) : State := { u with hier := { u.hier with joinSumSent := true } }

/-- A join is kept while another is missing; with the last one a ring's manager and a node send a JOIN_SUM with the count
of what has joined, and the root opens the epoch (R221). -/
def Rules.JoinsCollect : Prop :=
  ∀ (s : State) (src : Source) (m : Line), working s = true → isManager s = true → msgFate s m = .accept →
    ∀ u, u = Rules.Joined src m s →
    (∀ c t, (c, t) ∈ [(Instr.join src m, (6 : BitVec 8)), (.joinSum src m, 7)] → msgType m = t →
      allIn (membersOf s) (joinsOf u 6) = false →
      (isTreeNode s = true → allIn (childrenOf s) (joinsOf u 7) = false) → exec c s = .next u) ∧
    (msgType m = 6 → isTreeNode s = false → allIn (membersOf s) (joinsOf u 6) = true → s.hier.joinSumSent = false →
      s.memb.hold = 0 → exec (.join src m) s =
        .next (sendUp (mkMsg u { type := 7, count := sumCount (joinsOf u 6) }) (Rules.Passed u))) ∧
    (msgType m = 7 → isTreeNode s = true → s.hier.joinSumSent = false → s.memb.hold = 0 →
      (joinsOf u 7).any (fun x => msgSrc x == contribOf s) = true → allIn (childrenOf s) (joinsOf u 7) = true →
      (isRoot s = false → exec (.joinSum src m) s =
        .next (sendUp (mkMsg (Rules.Passed u) { type := 7, count := sumCount (joinsOf u 7) }) (Rules.Passed u))) ∧
      (isRoot s = true → exec (.joinSum src m) s = .next (deliver .self 0
        (mkMsg (Rules.Passed u) { type := 8, count := sumCount (joinsOf u 7) }) (Rules.Passed u))))

/-- The state with a notice taken and kept (R223, R230). -/
def Rules.Noticed (src : Source) (m : Line) (s : State) : State :=
  startTimeout { takeInbox src m s with
    hier := { (takeInbox src m s).hier with notices := (takeInbox src m s).hier.notices ++ [m] } }

/-- A SKIP_NOTICE goes on to the parent, or the root decides early; a HOLD_NOTICE holds the step; an ABORT_NOTICE goes on to
the parent, or the root aborts as its job says (R225, R226, R228, R229). -/
def Rules.NoticesAct : Prop :=
  ∀ (s : State) (src : Source) (m : Line), working s = true → isManager s = true → msgFate s m = .accept →
    s.hier.issued ≠ some (s.step.step, s.verdict.attempt) → ∀ u, u = Rules.Noticed src m s →
    (∀ v, msgType m = 3 → s.hier.skipSent = false → s.verdict.holding = false →
      v = { u with hier := { u.hier with skipSent := true } } →
      (∀ n, n = mkMsg v { type := 3, gmax := msgGmax m, nonfin := msgNonfin m, count := 1, flags := msgFlags m &&& 1 } →
        isRoot s = false → exec (.skipNotice src m) s = .next (sendToParent n v)) ∧
      (∀ j, isRoot s = true → jobOf s = some j → exec (.skipNotice src m) s = .next (if j.flags.getLsbD 0
        then issueRecord (rootVerdict v j true 0 (msgNonfin m) (msgGmax m) 0 (msgOver m)) v else v))) ∧
    (msgType m = 4 → s.memb.state ≠ .joining → exec (.holdNotice src m) s =
      .next (holdStep (msgCause m) (msgStep m) (msgSrc m) u)) ∧
    (msgType m = 4 → s.memb.state = .joining → exec (.holdNotice src m) s =
      .next (holdJoin (msgCause m) (msgStep m) (msgSrc m) u)) ∧
    (msgType m = 5 → isRoot s = false → exec (.abortNotice src m) s =
      .next (sendToParent (mkMsg u { type := 5, count := 1 }) u)) ∧
    (∀ j, msgType m = 5 → isRoot s = true → jobOf s = some j → exec (.abortNotice src m) s =
      .next (if j.flags.getLsbD 1 then issueAbort u else u))

/-- A message from below is discarded, kept for later, counted as a repeat, or holds the step, by the first row that applies (R221,
R223, R231, R240). -/
def Rules.ManagerTurnsMessagesAway : Prop :=
  ∀ (s : State) (src : Source) (m : Line), working s = true →
    ∀ c ∈ [Instr.contrib src m, .sum src m, .join src m, .joinSum src m, .skipNotice src m, .holdNotice src m,
        .abortNotice src m],
      (isManager s = false → exec c s = .next (takeInbox src m s)) ∧
      (isManager s = true → msgFate s m = .discard → exec c s = .next (countHier 2 1 (takeInbox src m s))) ∧
      (isManager s = true → msgFate s m = .keep → exec c s = .next (keepMsg (takeInbox src m s) m)) ∧
      (isManager s = true → msgFate s m = .dup → afterEarly s m = false →
        exec c s = .next (countHier 0 1 (takeInbox src m s))) ∧
      (∀ h, isManager s = true → msgFate s m = .hold h → afterEarly s m = false → joinType (msgType m) = false →
        ∃ t, exec c s = .next t ∧ t.verdict.holding = true ∧ t.step = s.step ∧
          (s.verdict.holding = false → t.verdict.holdCause = h))

/-- An aggregator takes, keeps, discards or holds on the messages of its children (R221, R223, R224, R225, R229,
R231, R240). -/
def Obligations.ManagerMessages : Prop :=
  Rules.ManagerTakesMessages ∧ Rules.ContributionsSum ∧ Rules.JoinsCollect ∧ Rules.NoticesAct ∧
    Rules.ManagerTurnsMessagesAway

/-- EPOCH_OPEN opens the epoch that this instance is joining (R221, R447, R568). -/
def Rules.EpochOpens : Prop :=
  ∀ (s : State) (src : Source) (m : Line), working s = true →
    (lineCrcOk m = true → magicOf m = magicHier → msgEpoch m = s.memb.epoch → s.memb.state = .joining →
      ∃ t, exec (.epochOpen src m) s = .next t ∧ t.memb = { s.memb with state := .opened, hold := 0 } ∧
        t.verdict.attempt = 0 ∧ t.step = s.step ∧
        t.hier.unresolved = s.hier.unresolved.filter (fun x => !joinType (msgType x)) ∧
        (s.evt.queue.length < 256 → (now s, 5) ∈ t.evt.queue)) ∧
    (lineCrcOk m = false → exec (.epochOpen src m) s = .next (countHier 2 1 (takeInbox src m s)))

/-- A contribution that stays away holds the step; a join that stays away fails the epoch (R221, R230, R231, R512). -/
def Rules.HierarchyTimeouts : Prop :=
  ∀ (s : State) (j : HierJob), working s = true → jobOf s = some j →
    (∀ u, s.hier.since = some u → sumMissing s = true → u + j.contribTimeout.toNat ≤ now s →
      ∃ t, exec .contribTimeout s = .next t ∧ t.verdict.holding = true ∧ t.hier.expired = true ∧
        t.hier.since = s.hier.since ∧
        t.hier.cnt = bump s.hier.cnt 3 1 ∧ t.step = s.step ∧ (s.verdict.holding = false → t.verdict.holdCause = 3)) ∧
    (s.memb.state = .joining → s.memb.joinedAt + j.joinTimeout.toNat ≤ now s →
      ∃ t, exec .joinTimeout s = .next t ∧ t.memb = { s.memb with state := .failed, hold := 4 } ∧
        t.health.cause.getLsbD 2 = true ∧ t.verdict.holding = true ∧ t.step = s.step)

/-- An epoch opens by its message, and the hierarchy's timeouts hold or fail (R221, R230, R231, R447, R512, R568). -/
def Obligations.EpochsAndTimeouts : Prop :=
  Rules.EpochOpens ∧ Rules.HierarchyTimeouts

/-- A tensor table is read, checked record by record, and takes effect or is rejected (R165, R166, R167, R198). -/
def Rules.TableLoads : Prop :=
  ∀ (s : State) (w : Word),
    (Applies s → w.getLsbD 0 = true → s.ttab.loading = false → s.step.phase = .idle →
      (field w 32 15 : BitVec 15) ≠ 0 → (field w 32 15 : BitVec 15).toNat ≤ 16384 →
      ∃ t, exec (.ttabLoad w) s = .next t ∧ t.ttab.loading = true ∧ t.ttab.loaded = false ∧
        t.ttab.loadCount = (field w 32 15 : BitVec 15).toNat ∧ t.ttab.err = 0 ∧ t.tongue.map = .none ∧
        t.step = s.step) ∧
    (working s = true → s.ttab.loading = true → s.ttab.lines.length = s.ttab.loadCount →
      ∀ rs, rs = (List.range s.ttab.loadCount).map (fun i =>
        parseRecord (((s.ttab.lines.find? (·.1 == i)).map (·.2)).getD 0)) →
      (tableErr (activeImage s) none 0 rs = none → ∃ t, exec .tableLoadDone s = .next t ∧ t.ttab.loaded = true ∧
        t.ttab.loading = false ∧ t.ttab.recs = rs ∧ t.ttab.err = 0 ∧ OnlyChanges [.ttab, .tongue] s t) ∧
      (∀ e i, tableErr (activeImage s) none 0 rs = some (e, i) → exec .tableLoadDone s = .next { s with
        ttab := { s.ttab with loading := false, loaded := false, recs := [], lines := [], err := e
                              errIndex := BitVec.ofNat 14 i } }))

/-- The granule map is built from the records' claims, or refused where they overrun or meet (R198). -/
def Rules.MapBuild : Prop :=
  ∀ s : State, working s = true → s.tongue.map = .building → ∃ t, exec .mapBuildDone s = .next t ∧
    OnlyChanges [.tongue, .health] s t ∧
    ((∃ c ∈ claims s, 131072 < c.1 + c.2.1) → t.tongue.map = .gradRange ∧ t.tongue.claims = []) ∧
    ((∀ c ∈ claims s, c.1 + c.2.1 ≤ 131072) →
      (claimConflict [] (claims s) ≠ none → t.tongue.map = .conflict ∧ t.tongue.claims = []) ∧
      (claimConflict [] (claims s) = none → t.tongue = { s.tongue with map := .valid, claims := claims s }))

/-- A tensor table is loaded and checked, and its granule map is built (R165, R166, R167, R198). -/
def Obligations.TablesAndMaps : Prop :=
  Rules.TableLoads ∧ Rules.MapBuild

/-- FETCH issues the next tile of the walk once its pads are granted and its index list is in, at the rate it has risen to
(R97, R99, R108, R168, R192, R555). -/
def Rules.FetchIssues : Prop :=
  ∀ (s : State) (im : Image) (p : Pass) (w : List Nat) (o miss tensor tile : Nat) (c : TileClass),
    activeImage s = some im → s.sweep.pass = some p → fetchWants s = some w → w.length ≤ (p.granted.getD []).length →
    nextFetch p = some (o, c, miss) → passTile s p.kind o = some (tensor, tile) →
    indexIn p (passRec p.kind (recOf s tensor)) tensor = true →
    rampAllows (tileBeats s (tileGraph im p (passRec p.kind (recOf s tensor)) c) 1024) (s.clk.fab - p.rampFrom)
      p.rampIssued = true →
    (passRec p.kind (recOf s tensor)).sparse = false ∨ windowFull s = false →
    ∃ t q, exec .fetchIssue s = .next t ∧ t.sweep.pass = some q ∧ OnlyChanges [.mem, .sweep] s t ∧
      (∃ x ∈ q.inflight, x.ord = o ∧ x.tensor = tensor ∧ x.tile = tile ∧ x.cls = c ∧ x.stage = .fetching ∧
        x.pads = (p.granted.getD []).filter (·.1 < 8)) ∧
      q.granted = none ∧ q.rampIssued = p.rampIssued + 1 ∧ q.next = (if p.refetch.isEmpty then o + 1 else p.next) ∧
      q.refetch = p.refetch.drop 1 ∧
      q.wmark = p.wmark

/-- The next tile enters the chain once its operands, its vectors and its constants are in, ahead of a halt; a tile that
recovery leaves alone passes it by; the switch from the sparse graph comes first (R88, R102, R126, R153, R169, R186). -/
def Rules.TileEntersChain : Prop :=
  ∀ (s : State) (im : Image) (p : Pass) (x : TileSt), activeImage s = some im → s.sweep.pass = some p →
    passOpen s p = true → p.kind ≠ .pass1Factored → nextTile p = some x → beforeHalt p x.ord = true →
    (x.cls.passes = true → ∃ t q, exec .tileEnterChain s = .next t ∧ t.sweep.pass = some q ∧
      (∃ y ∈ q.inflight, y.ord = x.ord ∧ y.stage = .past) ∧ q.wmark = p.wmark ∧ q.mmark = p.mmark ∧
      q.next = p.next ∧ t.step = s.step) ∧
    (x.cls.passes = false → vectorsIn s im p x.tensor = true → constsReady s im p x = true → bankReady s x = true →
      (switchDue p (recOf s x.tensor) = false ∨ p.switching = some 0 →
        ∃ t q, exec .tileEnterChain s = .next t ∧ t.sweep.pass = some q ∧
          (∃ y ∈ q.inflight, y.ord = x.ord ∧ y.stage = .chain ∧ y.beatsIn = 0) ∧
          (bankOf t x.cset).tensor = some x.tensor ∧
          q.wmark = p.wmark ∧ q.mmark = p.mmark ∧ q.next = p.next ∧ t.step = s.step) ∧
      (switchDue p (recOf s x.tensor) = true → p.switching = none → exec .tileEnterChain s = .next (beginSwitch s)))

/-- A tile's reads issue with its pads, and it enters the chain when they are in (R88, R97, R99, R102, R108, R126, R153,
R168, R169, R186, R192, R555). -/
def Obligations.TilesFetched : Prop :=
  Rules.FetchIssues ∧ Rules.TileEntersChain

/-- COMMIT takes tiles in order: PASS1 writes nothing, an updating pass hands over the moments (R77, R94, R171,
R174). -/
def Rules.MomentsHandedOver : Prop :=
  ∀ (s : State) (im : Image) (p : Pass) (x : TileSt), working s = true → activeImage s = some im →
    s.sweep.pass = some p → commitTurn p = some x →
    (p.kind = .pass1 → ∃ t q, exec .momentGroupHandover s = .next t ∧ t.sweep.pass = some q ∧
      q.wmark = x.ord + 1 ∧ q.mmark = x.ord + 1 ∧ (∀ y ∈ q.inflight, y.ord ≠ x.ord) ∧ t.mem = s.mem ∧
      t.stack = s.stack) ∧
    (p.kind ≠ .pass1 → x.ord < p.wmark + 16 → (recOf s x.tensor).sparse = false ∨ windowFull s = false →
      (x.cls.passes = true ∨ x.out.bad = false →
        ∃ t q, exec .momentGroupHandover s = .next t ∧ t.sweep.pass = some q ∧ q.wmark = p.wmark ∧
          ∃ y ∈ q.inflight, y.ord = x.ord ∧ y.stage = .moments) ∧
      (x.cls.passes = false → x.out.bad = true →
        ∃ t q, exec .momentGroupHandover s = .next t ∧ t.sweep.pass = some q ∧ q.inflight = p.inflight ∧
          t.mem = s.mem ∧ (p.halt = none → q.halt = some
            { fault := .nonfinite, pos := posWord (some (x.tensor, x.tile)), ord := x.ord })))

/-- Confirmed moments advance the moment mark and let the weights go; confirmed weights advance the weight mark
(R101, R174, R177, R197). -/
def Rules.ConfirmsAdvanceMarks : Prop :=
  ∀ (s : State) (im : Image) (p : Pass) (x : TileSt), working s = true → activeImage s = some im →
    s.sweep.pass = some p →
    (p.inflight.find? (fun t => t.stage == .moments && groupConfirmed t) = some x →
      ∃ t q, exec .momentsConfirmed s = .next t ∧ t.sweep.pass = some q ∧
        (∃ y ∈ q.inflight, y.ord = x.ord ∧ y.stage = .momentsOk) ∧ q.wmark = p.wmark ∧ t.step = s.step) ∧
    (p.inflight.find? (·.stage == .momentsOk) = some x → ((p.halt.map (·.fault.tears)).getD false) = false →
      x.ord < p.mmark → (recOf s x.tensor).sparse = false ∨ windowFull s = false →
      ∃ t q, exec .weightGroupHandover s = .next t ∧ t.sweep.pass = some q ∧
        (∃ y ∈ q.inflight, y.ord = x.ord ∧ y.stage = .weights) ∧ q.wmark = p.wmark ∧ OnlyChanges [.sweep, .mem] s t) ∧
    (p.gateLeft = 0 →
      p.inflight.find? (fun t => t.stage == .weights && t.ord == p.wmark && groupConfirmed t) = some x →
      p.kind.isEma = true ∨ p.wmark + 1 < p.tiles → ∃ t q, exec .weightsConfirmed s = .next t ∧
        t.sweep.pass = some q ∧ q.wmark = p.wmark + 1 ∧ (∀ y ∈ q.inflight, y.ord ≠ x.ord) ∧
        t.step.step = s.step.step)

/-- A tile's moments and weights are handed over and confirmed, and the marks follow (R77, R94, R101, R171, R174,
R177, R197). -/
def Obligations.TilesCommitted : Prop :=
  Rules.MomentsHandedOver ∧ Rules.ConfirmsAdvanceMarks

/-- With the last weight mark the sweep ends: STEP one higher, K takes K_NEXT, IDLE or OBSERVE (R28, R29, R150,
R212, R566). -/
def Rules.SweepEnds : Prop :=
  ∀ (s : State) (p : Pass), working s = true → s.mem.thermal.paused = false → s.sweep.pass = some p → p.gateLeft = 0 →
    p.gateOpening = false → p.doneDue = false → p.kind = .sweep → p.inflight = [] → p.tiles ≤ p.wmark → p.halt = none →
    ∃ t, exec .weightsConfirmed s = .next t ∧ t.sweep.pass = none ∧ t.sweep.state = .done ∧ t.sweep.fault = .none ∧
      t.step.step = s.step.step + 1 ∧ t.lscale.k = s.lscale.kNext ∧
      (s.tongue.armed = true → t.step.phase = .observe ∧ t.step.flash = .hold) ∧
      (s.tongue.armed = false → t.step.phase = .idle ∧ t.step.flash = s.step.flash)

/-- A pass that is due to halt and can move no further stops in HALTED with its fault recorded (R28, R41, R42, R146,
R176, R179). -/
def Rules.SweepHalts : Prop :=
  ∀ (s : State) (p : Pass) (h : HaltDue), working s = true → s.sweep.pass = some p → p.halt = some h →
    haltReached p h = true →
    (p.kind.isEma = false → ∃ t, exec .sweepHalt s = .next t ∧ t.step = { s.step with phase := .halted } ∧
      t.sweep.pass = none ∧ t.sweep.state = .halted ∧ t.sweep.fault = h.fault ∧ t.sweep.faultGroup = h.weights ∧
      t.sweep.failedLines = h.failedLines ∧ t.tongue.armed = false ∧ t.tongue.clearing = none ∧ t.aux.valid = false) ∧
    (p.kind.isEma = true → ∃ t, exec .sweepHalt s = .next t ∧ t.step = s.step ∧ t.sweep.pass = none ∧
      t.aux.running = false ∧ t.aux.valid = false)

/-- The marks line goes out 64 port cycles after the last when a mark has moved (R178, R179, R284). -/
def Rules.MarksLineWritten : Prop :=
  ∀ s : State, working s = true → s.sweep.dirty = true → s.sweep.lastMarks + 64 ≤ portNow s →
    ∃ t, exec .marksLineWrite s = .next t ∧
      t.sweep = { s.sweep with lineSeq := s.sweep.lineSeq + 1, dirty := false, lastMarks := portNow s
                               written := s.sweep.state, known := true } ∧
      OnlyChanges [.sweep, .mem] s t ∧
      ∃ w ∈ t.mem.waiting, w.req.who = .marks ∧ w.req.control = true ∧ w.req.write = true ∧
        w.req.line = journalLine s 0 ∧ w.req.data = marksLine t

/-- A pass ends, halts with its fault, and writes its marks line (R28, R29, R41, R42, R146, R150, R176, R178, R179,
R212, R284, R566). -/
def Obligations.PassesEnd : Prop :=
  Rules.SweepEnds ∧ Rules.SweepHalts ∧ Rules.MarksLineWritten

/-- A residue fault sheds the rank, sets DISCARD on the tiles with beats in the chain, drains it and croaks; with the
drain's end the discarded tiles are dropped (R97, R108, R109, R111, R114, R116, R512). -/
def Rules.ResidueFaults : Prop :=
  ∀ (s : State) (rank : BitVec 5) (lane : BitVec 7) (unit : BitVec 2) (ord : BitVec 32), working s = true →
    (∀ x, faultTile s ord.toNat = some x → ∃ t, exec (.residueFault rank lane unit ord) s = .next t ∧
      t.fab.draining = true ∧ t.fab.drainUntil = s.clk.fab + 4096 ∧ t.fab.fault.valid = true ∧
      t.fab.rankShed = s.fab.rankShed ||| field (shedMask rank) 0 24 ∧
      t.fab.sfuShed = s.fab.sfuShed ||| field (shedMask rank) 24 2 ∧
      (∀ p, s.sweep.pass = some p → ∃ q, t.sweep.pass = some q ∧ q.rngWait = 0 ∧
        q.inflight = p.inflight.map (fun y => if y.inChain then { y with discard := true } else y)) ∧
      t.health.cause.getLsbD 0 = true) ∧
    (s.fab.draining = true → s.fab.drainUntil ≤ s.clk.fab → ∃ t, exec .shedDrainDone s = .next t ∧
      t.fab.draining = false ∧ t.fab.rankShed = s.fab.rankShed ∧ t.step = s.step ∧
      ∀ q, t.sweep.pass = some q → ∀ y ∈ q.inflight, y.discard = false)

/-- A mismatched tile is fetched once more, dropped at once unless it has beats in the chain; the second mismatch halts the
pass with FAULT_CODEC (R109, R110, R380). -/
def Rules.Mismatches : Prop :=
  ∀ (s : State) (ord : BitVec 32), working s = true →
    (∀ p x, s.sweep.pass = some p → codecTile s ord.toNat = some x →
      ∀ c ∈ [Instr.codecMismatch ord, .genMismatch false ord], ∃ t q, exec c s = .next t ∧ t.sweep.pass = some q ∧
        (x.mismatches = 0 → x.inChain = true →
          ∃ y ∈ q.inflight, y.ord = x.ord ∧ y.discard = true ∧ y.mismatches = 1) ∧
        (x.mismatches = 0 → x.inChain = false → (∀ y ∈ q.inflight, y.ord ≠ x.ord) ∧
          (x.ord, x.cls, 1) ∈ q.refetch ∧ q.granted = none) ∧
        (x.mismatches ≠ 0 → q.inflight = p.inflight ∧ (p.halt = none → q.halt = some
          { fault := .codec, pos := posWord (some (x.tensor, x.tile)), ord := x.ord })) ∧
        (c = .genMismatch false ord → t.rng.genFault = true)) ∧
    (∀ f, s.rng.mask.run = some f → f.mismatch = false → exec (.genMismatch true ord) s =
      .next { s with rng := { s.rng with genFault := true, genFaultAt := now s, cnt := bump s.rng.cnt 3 1
                                         mask := { s.rng.mask with run := some { f with mismatch := true } } } })

/-- Residue faults shed, codec and generator mismatches refetch or halt (R97, R108, R109, R110, R111, R114, R116, R380,
R512). -/
def Obligations.FabricFaults : Prop :=
  Rules.ResidueFaults ∧ Rules.Mismatches

/-- Stage registers are committed, and take effect at their boundary (R119, R121, R161, R162, R312, R529, R530). -/
def Obligations.CommitsAndBoundaries : Prop :=
  ∀ (s : State) (w : Word),
    (Applies s → w.getLsbD 0 = true →
      (∀ im, activeImage s = some im → s.stepk.pending = none → stepkCheck im (stepkSlots s.stepk.stage) = (0, 0) →
        exec (.stepkCommit w) s = .next (respond 0x04 { s with stepk := { s.stepk with
          err := 0, errSlot := 0, pending := some { words := s.stepk.stage, forStep := field w 32 32
                                                    boundary := nextBoundary (now s) 64 } } })) ∧
      (s.swp.pending = none → s.step.phase = .idle → swpCheck s s.swp.stage = (0, 0) →
        exec (.swpCommit w) s = .next (respond 0x04 { s with swp := { s.swp with
          err := 0, errBase := 0, pending := some (s.swp.stage, nextBoundary (now s) 64) } })) ∧
      (mpErr s = (0, 0) → exec (.mpCommit w) s = .next (respond 0x04 { s with mem := { s.mem with
          err := 0, errPart := 0, pending := some (s.mem.stage, nextBoundary (portNow s) 1024) } }))) ∧
    (∀ im c, ready s = true → activeImage s = some im → s.stepk.pending = some c → c.boundary ≤ now s →
      stepkCheck im (stepkSlots c.words) = (0, 0) → exec (.stagedSetApply .stepk) s = .next { s with
        stepk := { s.stepk with pending := none, set := stepkSlots c.words, setStep := c.forStep, valid := true
                                captured := false } }) ∧
    (∀ bs b, ready s = true → s.swp.pending = some (bs, b) → b ≤ now s → swpCheck s bs = (0, 0) →
      ∃ t, exec (.stagedSetApply .swp) s = .next t ∧ t.swp = { s.swp with pending := none, set := bs, valid := true } ∧
        OnlyChanges [.swp, .tongue] s t)

/-- RESUME and RECOVER run the pass again, or show the first check that fails; that a RECOVER waits for running exports is
the model's choice (log 90; R182, R183, R184, R185, R194, R354, R566). -/
def Obligations.ResumeAndRecover : Prop :=
  ∀ (s : State) (w : Word) (im : Image), Applies s → activeImage s = some im →
    (w.getLsbD 1 = true → w.getLsbD 0 = false →
      (resumeErr s (field w 32 32) ≠ 0 → exec (.sweepResume w) s =
        .next (respond 0x04 { s with sweep := { s.sweep with ctlErr := resumeErr s (field w 32 32) } })) ∧
      (resumeErr s (field w 32 32) = 0 → ∃ t, exec (.sweepResume w) s = .next t ∧ t.sweep.ctlErr = 0 ∧
        (t.step.phase = .pass1 ∨ t.step.phase = .sweep) ∧ t.step.step = s.step.step ∧ t.step.flash = s.step.flash ∧
        t.sweep.pass.isSome = true)) ∧
    (w.getLsbD 0 = true → w.getLsbD 1 = false → w.getLsbD 2 = false →
      (recoverErr s (field w 32 32) ≠ 0 → exec (.sweepRecover w) s =
        .next (respond 0x04 { s with sweep := { s.sweep with ctlErr := recoverErr s (field w 32 32) } })) ∧
      (recoverErr s (field w 32 32) = 0 → (∃ c ∈ s.xch.chans, c.job.isSome = true) → exec (.sweepRecover w) s =
        .next (respond 0x04 { s with sweep := { s.sweep with ctlErr := 0, recoverWaits := true } })) ∧
      (recoverErr s (field w 32 32) = 0 → (∀ c ∈ s.xch.chans, c.job = none) →
        ∃ t, exec (.sweepRecover w) s = .next t ∧ t.sweep.ctlErr = 0 ∧
        (t.step.phase = .pass1 ∨ t.step.phase = .sweep) ∧ t.step.step = s.step.step ∧ t.step.flash = s.step.flash ∧
        t.sweep.pass.isSome = true))

/-- FAB_SHED sheds further ranks while the fabric is idle; FAB_CTL clears the fabric's counters of all but what this
ctrl cycle counts (R105, R115, R512,
R518). -/
def Rules.ShedWrites : Prop :=
  ∀ (s : State) (w : Word), Applies s →
    ((field w 0 26 : BitVec 26) ≠ 0 → fabRunning s = true → exec (.fabShedWrite w) s =
      .next (respond 0x04 (report 0x0202 (put 0 (field w 0 26 : BitVec 26)) s))) ∧
    (fabRunning s = false → (field w 0 26 : BitVec 26) &&& ~~~(s.fab.sfuShed ++ s.fab.rankShed) ≠ 0 →
      ∃ t, exec (.fabShedWrite w) s = .next t ∧
        t.fab.rankShed = s.fab.rankShed ||| field (field w 0 26 : BitVec 26) 0 24 ∧
        t.fab.sfuShed = s.fab.sfuShed ||| field (field w 0 26 : BitVec 26) 24 2 ∧ t.health.cause.getLsbD 0 = true) ∧
    (w.getLsbD 0 = true → exec (.fabCntClear w) s =
      .next (respond 0x04 { s with fab := { s.fab with
        cnt := if s.fab.cntAt = now s then s.fab.cntNow else List.replicate 8 {} } }))

/-- EMA passes start by R146's table and end with the copy valid for this step (R143, R144, R145, R146, R147). -/
def Rules.EmaPasses : Prop :=
  ∀ (s : State) (w : Word) (im : Image), activeImage s = some im →
    (Applies s → w.getLsbD 0 = true → w.getLsbD 1 = false →
      (emaErr s false false = 0 → ∃ t q, exec (.emaStart w) s = .next t ∧ t.aux.running = true ∧ t.aux.err = 0 ∧
        t.sweep.pass = some q ∧ q.kind = .ema ∧ q.consts = s.stepk.set ∧ t.step = s.step) ∧
      (emaErr s false false ≠ 0 → exec (.emaStart w) s =
        .next (respond 0x04 { s with aux := { s.aux with err := emaErr s false false } }))) ∧
    (Applies s → w.getLsbD 0 = false → w.getLsbD 1 = true →
      (emaErr s true false = 0 → ∃ t q, exec (.emaReseed w) s = .next t ∧ t.aux.running = true ∧
        t.aux.reseeding = true ∧ t.aux.err = 0 ∧ t.sweep.pass = some q ∧ q.kind = .reseed ∧ t.step = s.step) ∧
      (emaErr s true false ≠ 0 → exec (.emaReseed w) s =
        .next (respond 0x04 { s with aux := { s.aux with err := emaErr s true false } }))) ∧
    (∀ p, working s = true → s.sweep.pass = some p → p.kind.isEma = true → p.halt = none → p.tiles ≤ p.wmark →
      ∃ t, exec .emaPassDone s = .next t ∧ t.sweep.pass = none ∧ t.step = s.step ∧ t.aux = { s.aux with
        running := false, reseeding := false, valid := true, emaStep := s.step.step, gateWait := false })

/-- Shedding ranks, clearing fabric counters, and EMA passes (R105, R115, R143, R144, R145, R146, R147, R512). -/
def Obligations.ShedsAndEma : Prop :=
  Rules.ShedWrites ∧ Rules.EmaPasses

/-- An image is read into the shadow plane, verified, or discarded; the active image stays (R266, R269, R270, R276). -/
def Rules.ImageLoads : Prop :=
  ∀ (s : State) (w : Word),
    (Applies s → fieldNat w 0 3 = 1 → ∀ n, n = s.image.len.toNat →
      ((s.image.shadow = .loading ∨ s.image.shadow = .verifying ∨ s.image.molting = true) →
        exec (.imgLoad w) s = .next (respond 0x04 { s with image := { s.image with err := 0x12 } })) ∧
      (s.image.shadow ≠ .loading → s.image.shadow ≠ .verifying → s.image.molting = false →
        (¬(n % 64 = 0 ∧ 1024 ≤ n ∧ n ≤ 786432) →
          exec (.imgLoad w) s = .next (respond 0x04 { s with image := { s.image with err := 0x13 } })) ∧
        (n % 64 = 0 → 1024 ≤ n → n ≤ 786432 → ∃ t, exec (.imgLoad w) s = .next t ∧ t.image.shadow = .loading ∧
          t.image.active = s.image.active ∧ t.image.loadLen = n ∧ t.image.loadAddr = s.image.addr ∧
          (s.image.srcFar = false → field s.image.addr 34 24 = (0 : BitVec 24) → ∀ i < n / 64,
            ∃ x ∈ t.mem.waiting, x.req.who = .image i ∧ x.req.write = false ∧
              x.req.line = field s.image.addr 0 34 + BitVec.ofNat 34 i)))) ∧
    (Applies s → fieldNat w 0 3 = 4 → ∃ t, exec (.imgDiscard w) s = .next t ∧ t.image.shadow = .empty ∧
      t.image.shadowImage = none ∧ t.image.active = s.image.active ∧ OnlyChanges [.image, .mem, .far, .ctl] s t) ∧
    (working s = true → s.image.shadow = .loading →
      (s.image.loadFailed = false → s.image.loadLines.length * 64 = s.image.loadLen →
        exec .imageReadDone s = .next { s with image := { s.image with shadow := .verifying } }) ∧
      (s.image.loadFailed = true → ∃ t, exec .imageReadDone s = .next t ∧ t.image.shadow = .rejected ∧
        t.image.err = 0x11 ∧ t.image.active = s.image.active)) ∧
    (working s = true → s.image.shadow = .verifying → ∀ b, b = loadedBytes s.image →
      (firstFailed (verifyChecks s s.image.loadLen b) = none → exec .imageVerifyDone s = .next (pulse 11 { s with
        image := { s.image with
          shadow := .verified, shadowImage := some (parseImage b), err := 0, errSection := 0, loadLines := [] } })) ∧
      (∀ e k, firstFailed (verifyChecks s s.image.loadLen b) = some (e, k) → ∃ t,
        exec .imageVerifyDone s = .next t ∧ t.image.shadow = .rejected ∧ t.image.err = e ∧ t.image.errSection = k ∧
        t.image.shadowImage = none ∧ t.image.active = s.image.active))

/-- A molt swaps the planes, a port plan follows at a window boundary, and MOLT_DONE ends it (R271, R272, R273,
R389). -/
def Rules.Molts : Prop :=
  ∀ (s : State) (w : Word) (im : Image),
    (Applies s → fieldNat w 0 3 = 2 → s.image.shadowImage = some im →
      (moltErr s (field w 32 32) ≠ 0 → exec (.imgMolt w) s =
        .next (respond 0x04 { s with image := { s.image with moltErr := moltErr s (field w 32 32) } })) ∧
      (moltErr s (field w 32 32) = 0 → ∃ t, exec (.imgMolt w) s = .next t ∧ t.image.active = some im ∧
        t.image.shadow = .empty ∧ t.image.molting = true ∧ t.image.moltErr = 0 ∧
        t.mem.planDue = some (nextBoundary (portNow s) 1024) ∧ t.rng.reseedDue = true ∧
        t.pond.floorSweep = im.limits.padFloorSweep.setWidth 12 ∧ t.step = s.step ∧
        (activeTag t ≠ activeTag s → t.image.epochClosed = true))) ∧
    (∀ b, ready s = true → s.mem.planDue = some b → b ≤ portNow s → s.image.active = some im →
      ∃ t, exec .portPlanApply s = .next t ∧ t.mem.planDue = none ∧ t.mem.hashPlan = im.port.hashPlan ∧
        t.mem.regulated = (im.port.arbMode == 1) ∧ t.mem.stackGib = im.port.stackGib ∧
        t.mem.eff.parts = im.port.parts ∧ OnlyChanges [.mem, .health] s t) ∧
    (working s = true → s.image.molting = true → s.mem.planDue = none →
      exec .moltDone s = .next (pulse 12 { s with image := { s.image with molting := false } }))

/-- Images are loaded, verified, discarded and molted (R266, R269, R270, R271, R272, R273, R276, R389). -/
def Obligations.ImagesAndMolts : Prop :=
  Rules.ImageLoads ∧ Rules.Molts

/-- A TAIL write hands descriptors over and fetches them; a whole chain starts its task or is rejected (R318, R321,
R322, R348). -/
def Obligations.DescriptorFetch : Prop :=
  ∀ (s : State) (n : BitVec 4) (w : Word) (c : StreamCh), c = chan s n.toNat → s.strm.chans.length = 16 →
    (Applies s → ∀ v, v = fieldNat w 0 16 →
      (2 ^ c.eff.sizeLog2.toNat ≤ v → exec (.chTailWrite n w) s =
        .next (respond 0x04 (report 0x0706 (putSat 16 4 n.toNat ||| putSat 0 16 v) s))) ∧
      (v < 2 ^ c.eff.sizeLog2.toNat → c.state = .idle → c.head < 2 ^ c.eff.sizeLog2.toNat → v ≠ c.head →
        c.fetched = [] → c.fetchDue = 0 → ∃ t, exec (.chTailWrite n w) s = .next t ∧ (chan t n.toNat).tail = v ∧
          (chan t n.toNat).state = .fetching ∧ (chan t n.toNat).fetchDue = 8 ∧ ∀ i < 8, ∃ x ∈ t.mem.waiting,
            x.req.who = .desc n.toNat (c.head / 8 * 8 + i) ∧ x.req.control = true ∧ x.req.write = false ∧
            x.req.line = BitVec.ofNat 34 (c.eff.base.toNat * 8 + (c.head / 8 * 8 + i)))) ∧
    (working s = true → c.state = .fetching → c.fetchDue = 0 →
      (c.fetchFailed = true → ∃ t, exec (.descriptorFetchDone n) s = .next t ∧ (chan t n.toNat).state = .rejected ∧
        (chan t n.toNat).faultCode = 9 ∧ (chan t n.toNat).head = c.head) ∧
      (∀ d, c.fetchFailed = false → c.fetched = [] → c.head < 2 ^ c.eff.sizeLog2.toNat → c.fetchTail ≠ c.head →
        c.fetchGot.find? (·.1 == c.head) = some (c.head, d) → descOwn d = true → descChain d = false →
        (chainFault s n.toNat [d] = none → ∃ t u, exec (.descriptorFetchDone n) s = .next t ∧
          (chan t n.toNat).state = .running ∧ (chan t n.toNat).seq = c.seq + 1 ∧ (chan t n.toNat).task = some u ∧
          u.descs = [d] ∧ u.head = c.head ∧ u.stage = .run ∧ u.cut = 0) ∧
        (∀ code k, chainFault s n.toNat [d] = some (code, k) → ∃ t, exec (.descriptorFetchDone n) s = .next t ∧
          (chan t n.toNat).state = .rejected ∧ (chan t n.toNat).faultCode = code ∧
          (chan t n.toNat).faultTask = descTaskId d ∧ (chan t n.toNat).head = c.head)))

/-- STOP, RESUME, CANCEL and RESET move a channel by its state (R329, R330, R331, R348). -/
def Obligations.ChannelControl : Prop :=
  ∀ (s : State) (n : BitVec 4) (w : Word) (c : StreamCh), c = chan s n.toNat → Applies s → s.strm.chans.length = 16 →
    (fieldNat w 0 4 = 1 →
      (c.state = .idle ∨ c.state = .disabled ∨ c.state = .fetching → exec (.chStop n w) s =
        .next (respond 0x04 (setChan n.toNat (fun c => { c with state := .stopped, err := 0 }) s))) ∧
      (c.state = .running → ∃ t, exec (.chStop n w) s = .next t ∧ (chan t n.toNat).state = .stopping ∧
        (chan t n.toNat).task = c.task ∧ (chan t n.toNat).err = 0)) ∧
    (fieldNat w 0 4 = 4 →
      (∀ u, c.state = .stopped → c.task = some u →
        (taskThrough u = false → exec (.chResume n w) s =
          .next (respond 0x04 (setChan n.toNat (fun c => { c with state := .running, err := 0 }) s))) ∧
        (taskThrough u = true → ∃ t v, exec (.chResume n w) s = .next t ∧ (chan t n.toNat).state = .running ∧
          (chan t n.toNat).err = 0 ∧ (chan t n.toNat).task = some v ∧ v.stage ≠ .run)) ∧
      (c.state = .rejected ∨ c.state = .faulted → c.head = c.tail → ∃ t, exec (.chResume n w) s = .next t ∧
        (chan t n.toNat).state = .idle ∧ (chan t n.toNat).err = 0 ∧ (chan t n.toNat).fetched = [] ∧
        (chan t n.toNat).head = c.head ∧ OnlyChanges [.strm, .mem, .ctl] s t)) ∧
    (fieldNat w 0 4 = 2 → ∀ u, c.state = .running ∨ c.state = .stopping ∨ c.state = .stopped → c.task = some u →
      (allGranted u = true → exec (.chCancel n w) s =
        .next (respond 0x04 (setChan n.toNat (fun c => { c with err := 3 }) s))) ∧
      (allGranted u = false → taskInFlight u = 0 → taskDstQueue u = none → ∃ t, exec (.chCancel n w) s = .next t ∧
        (chan t n.toNat).state = .faulted ∧ (chan t n.toNat).faultCode = 0x17 ∧
        (chan t n.toNat).faultTask = taskId u ∧ (chan t n.toNat).task = none)) ∧
    (fieldNat w 0 4 = 8 → c.state ∈ [ChState.disabled, .idle, .stopped, .rejected, .faulted] →
      ∃ t, exec (.chReset n w) s = .next t ∧ (chan t n.toNat).head = c.tail ∧ (chan t n.toNat).fetched = [] ∧
        (chan t n.toNat).err = 0 ∧ (chan t n.toNat).task = none ∧
        (chan t n.toNat).state = (if c.eff.enable then .idle else .disabled)) ∧
    (∀ a, a = fieldNat w 0 4 → (a = 1 ∧ c.state ∈ [ChState.stopping, .stopped, .rejected, .cancelling, .faulted]) ∨
        (a = 2 ∧ c.state ∉ [ChState.running, .stopping, .stopped]) ∨
        (a = 4 ∧ c.state ∉ [ChState.stopped, .rejected, .faulted]) ∨
        (a = 8 ∧ c.state ∉ [ChState.disabled, .idle, .stopped, .rejected, .faulted]) →
      ∀ i ∈ [Instr.chStop n w, .chCancel n w, .chResume n w, .chReset n w], exec i s =
        .next (respond 0x04 (setChan n.toNat (fun c => { c with err := 1 }) s))) ∧
    (1 < popCount (field w 0 4 : BitVec 4) → ∀ i ∈ [Instr.chStop n w, .chCancel n w, .chResume n w, .chReset n w],
      exec i s = .next (respond 0x04 (setChan n.toNat (fun c => { c with err := 2 }) s)))

/-- A stream burst is granted to an urgent channel first, and its lines go where the stream goes (R323, R324, R326,
R343). -/
def Obligations.BurstsAndPieces : Prop :=
  ∀ (s : State) (q : IssueStream) (n : Nat) (u : Task) (p : Piece), s.strm.chans.length = 16 →
    (streamsGo s = true → issueWrite q = false → issueBusy s q = false → pickChannel s q = some n →
      (chan s n).task = some u → readyPiece q (chan s n) = some p →
      ((∃ m < 16, (readyPiece q (chan s m)).isSome ∧ (chan s m).urgent = true) → (chan s n).urgent = true) ∧
      ∀ len, len = burstLen u false (p.start + 64 * p.readNext) (pieceLen p - p.readNext) →
        ∃ t, exec (.streamBurstGrant q) s = .next t ∧ t.strm.last = s.strm.last.set (issueIndex q) n ∧
          (q = .stackRead → ∀ k < len, ∃ x ∈ t.mem.waiting, x.req.who = .stream n p.index (p.readNext + k) ∧
            x.req.cls = .stream ∧ x.req.write = false ∧
            x.req.line = BitVec.ofNat 34 (srcLineAt u (p.start + 64 * (p.readNext + k)))) ∧
          (q = .farRead → t.strm.farRead = some { chan := n, piece := p.index, first := p.readNext, len := len })) ∧
    (∀ s', s' = (List.range 16).foldl (fun s n => cutZeroPiece n s) s → streamsGo s' = true → issueWrite q = true →
      issueBusy s' q = false → pickChannel s' q = some n → (chan s' n).task = some u →
      readyPiece q (chan s' n) = some p →
      exec (.streamBurstGrant q) s = .next (grantBurst q n u p (notePassed q n s'))) ∧
    (∀ (m : BitVec 4) (pc : BitVec 32), working s = true → (chan s m.toNat).task = some u → u.stage = .run →
      taskDstQueue u = none → u.pieces.find? (·.index == pc.toNat) = some p → p.writeDone = pieceLen p →
      ∃ t, exec (.pieceWritesDone m pc) s = .next t ∧
        (∀ u', (chan t m.toNat).task = some u' → ∀ y ∈ u'.pieces, y.index ≠ pc.toNat) ∧
        (∀ h, p.handle = some h → (padAt s (handleIndex h)).gen = handleGen h →
          (padAt s (handleIndex h)).owner = ownerChan m.toNat → handleIndex h < s.pond.pads.length →
          (padAt t (handleIndex h)).owner = 0))

/-- A consumer takes the entries of its producer's task and discards what belongs to none (R333, R338, R341). -/
def Rules.QueuePops : Prop :=
  ∀ (s : State) (n : BitVec 4) (u : Task) (q : Nat) (e : PqEntry) (rest : List PqEntry),
    streamsGo s = true → s.strm.chans.length = 16 → s.queues.length = 16 → (chan s n.toNat).task = some u →
    (chan s n.toNat).state = .running → u.stage = .run → u.cut < taskTotal u → taskSrcQueue u = some q →
    (queue s q).entries = e :: rest → (queue s q).waiting = [] → queueProducer s q = none → u.adopted = none →
    (e.abort = false → e.first = true → u.cut + e.bytes.toNat ≤ taskTotal u →
      (e.last = true ↔ u.cut + e.bytes.toNat = taskTotal u) →
      ∃ t v x, exec (.pqPop n) s = .next t ∧ (queue t q).entries = rest ∧ (chan t n.toNat).task = some v ∧
        v.pieces = u.pieces ++ [x] ∧ x.start = u.cut ∧ x.bytes = e.bytes.toNat ∧ x.handle = some e.handle ∧
        v.cut = u.cut + e.bytes.toNat ∧ v.adopted = some (e.chan, e.seq) ∧
        (handleIndex e.handle < s.pond.pads.length →
          (padAt t (handleIndex e.handle)).owner = ownerChan n.toNat)) ∧
    (e.abort = true ∨ e.first = false → ∃ t v, exec (.pqPop n) s = .next t ∧ (queue t q).entries = rest ∧
      (chan t n.toNat).task = some v ∧ v.pieces = u.pieces ∧ v.adopted = none ∧ bumpedAt s.strm.cnt t.strm.cnt 5)

/-- The read-back decides a task's last write, and the last write-back completes the task (R318, R320, R327, R331). -/
def Rules.TasksComplete : Prop :=
  ∀ (s : State) (n : BitVec 4) (c : StreamCh) (u : Task), c = chan s n.toNat → c.task = some u →
    s.strm.chans.length = 16 →
    (∀ (ch : BitVec 5) (tag : BitVec 10) (data : Line) (par : BitVec 66) (f : Flight) (second sent : Bool),
      flightOf s ch tag false = some f → f.void = false → f.req.confirm = false → f.req.who = .readback n.toNat →
      parityOk (data ++ (f.tag.setWidth 16 : BitVec 16) : BitVec 528) par = true → u.stage = .readback second sent →
      (data = u.lastLine → ∃ t v, exec (.streamReadbackReturn n (.stack ch tag data par)) s = .next t ∧
        (chan t n.toNat).task = some v ∧ v.stage = .writeback u.descs.length) ∧
      (data ≠ u.lastLine → second = false → ∃ t v b, exec (.streamReadbackReturn n (.stack ch tag data par)) s =
        .next t ∧ (chan t n.toNat).task = some v ∧ v.stage = .readback true b) ∧
      (data ≠ u.lastLine → second = true → taskInFlight u = 0 → taskDstQueue u = none →
        ∃ t, exec (.streamReadbackReturn n (.stack ch tag data par)) s = .next t ∧
          (chan t n.toNat).state = .faulted ∧ (chan t n.toNat).faultCode = 0x13)) ∧
    (working s = true → u.stage = .writeback 0 → u.backAt < now s →
      (c.state = .stopping ∨ c.stopAfter = true → ∃ t, exec (.descriptorWritebackDone n) s = .next t ∧
        (chan t n.toNat).state = .stopped ∧ (chan t n.toNat).task = none ∧
        (chan t n.toNat).head = (u.head + u.descs.length) % 2 ^ c.eff.sizeLog2.toNat) ∧
      (c.state = .running → c.stopAfter = false → c.fetched = [] →
        (u.head + u.descs.length) % 2 ^ c.eff.sizeLog2.toNat = c.tail →
        ∃ t, exec (.descriptorWritebackDone n) s = .next t ∧ (chan t n.toNat).state = .idle ∧
          (chan t n.toNat).task = none ∧ (chan t n.toNat).head = c.tail ∧
          (s.evt.queue.length < 256 → (now s, BitVec.ofNat 6 (16 + n.toNat)) ∈ t.evt.queue)))

/-- Watchdog, urgency and deadline of a task (R331, R342, R343, R344). -/
def Rules.TaskTimers : Prop :=
  ∀ (s : State) (n : BitVec 4) (u : Task), working s = true → s.strm.chans.length = 16 →
    ((chan s n.toNat).task = some u → taskStalled s n.toNat = true → taskInFlight u = 0 → taskDstQueue u = none →
      ∃ t, exec (.padWatchdog n) s = .next t ∧ (chan t n.toNat).state = .faulted ∧
        (chan t n.toNat).faultCode = 0x16 ∧ (chan t n.toNat).task = none ∧ bumpedAt s.strm.cnt t.strm.cnt 8) ∧
    ((chan s 15).task = some u → s.strm.spill = true → taskDeadline u ≠ 0 →
      taskDeadline u - 480 * (chan s 15).eff.lead.toNat ≤ now s →
      exec .prefetchUrgent s = .next (setChan 15 (fun c => { c with urgent := true }) s)) ∧
    ((chan s n.toNat).task = some u → taskDeadline u ≠ 0 → taskDeadline u < now s → u.late = false →
      u.stage ≠ .writeback 0 ∨ taskDeadline u < taskStamp u → (chan s n.toNat).missed = false →
      exec (.deadlineMiss n) s = .next (report 0x0705 (put 32 (taskId u) ||| put 0 n)
        (countStrm 4 1 (setChan n.toNat (fun c => { c with missed := true }) s))))

/-- Stream tasks pop, complete and time out by their rules (R318, R320, R327, R331, R333, R338, R341, R342, R343,
R344). -/
def Obligations.StreamTasks : Prop :=
  Rules.QueuePops ∧ Rules.TasksComplete ∧ Rules.TaskTimers

/-- The pond grants free pads within the floors, and frees only to their owner under their generation (R333, R334,
R335, R336). -/
def Rules.PondPads : Prop :=
  ∀ (s : State), working s = true → s.pond.pads.length = 2048 →
    (s.pond.lastFab ≠ some s.clk.fab → (∀ r < 32, padAsk s r = none) → ∀ picks,
      exec (.pondAllocate picks) s = .next { s with pond := { s.pond with lastFab := some s.clk.fab } }) ∧
    (∀ (n : BitVec 4) (i : BitVec 11) (u : Task), s.strm.chans.length = 16 → s.pond.lastFab ≠ some s.clk.fab →
      (∀ r < 32, r ≠ n.toNat + 1 → padAsk s r = none) → padAsk s (n.toNat + 1) = some 1 →
      grantAllowed s (n.toNat + 1) 1 = true → (padAt s i.toNat).owner = 0 → (chan s n.toNat).task = some u →
      ∃ t v x, exec (.pondAllocate [i]) s = .next t ∧ (padAt t i.toNat).owner = ownerChan n.toNat ∧
        (chan t n.toNat).task = some v ∧ v.pieces = u.pieces ++ [x] ∧
        x.handle = some (handleOf (padAt s i.toNat).gen i) ∧ x.start = u.cut ∧
        (∀ j < 2048, j ≠ i.toNat → padAt t j = padAt s j)) ∧
    (∀ (h : BitVec 16) (freer : BitVec 6), ∀ p, p = padAt s (handleIndex h) →
      (p.gen = handleGen h → p.owner = freer → freer ≠ 0 → ∃ t, exec (.padFree h freer) s = .next t ∧
        (padAt t (handleIndex h)).owner = 0 ∧ (padAt t (handleIndex h)).gen = p.gen + 1 ∧
        OnlyChanges [.pond] s t) ∧
      (p.gen ≠ handleGen h ∨ p.owner ≠ freer ∨ freer = 0 → ∃ t, exec (.padFree h freer) s = .next t ∧
        t.pond.pads = s.pond.pads ∧ t.pond.fault.valid = true ∧ OnlyChanges [.pond, .health, .strm] s t))

/-- A stalled pond makes its largest task give way; queues flush; stream set-ups commit (R342, R346, R347, R349,
R529). -/
def Rules.PondStallFlushCommit : Prop :=
  ∀ (s : State) (w : Word),
    (∀ t0 k s', working s = true → s.pond.stallSince = some t0 → fetchAsks s = some k → t0 + padWatchdogOf s ≤ now s →
      s' = { s with strm := { s.strm with pondStall := true }, pond := { s.pond with stallSince := some (now s) } } →
      (biggestTask s = none → exec .pondStall s = .next (report 0x0704 0 s')) ∧
      (∀ n u, biggestTask s = some n → (chan s n).task = some u → taskInFlight u = 0 → taskDstQueue u = none →
        (∀ code desc addr, u.stage ≠ .ending code desc addr) → s.strm.chans.length = 16 →
        ((∀ m < 16, ∀ v, (chan s m).task = some v → (taskPads v).length ≤ (taskPads u).length) ∧
        ∃ t, exec .pondStall s = .next t ∧ t.strm.pondStall = true ∧ (chan t n).state = .faulted ∧
          (chan t n).faultCode = 0x16 ∧ (chan t n).task = none ∧ bumpedAt s.strm.cnt t.strm.cnt 8))) ∧
    (∀ q < 16, Applies s → s.queues.length = 16 → (∀ j < 16, w.getLsbD j = decide (j = q)) →
      (queueProducer s q = none → queueConsumer s q = none → ∃ t, exec (.pqFlush w) s = .next t ∧
        (queue t q).entries = (queue s q).waiting.take 64 ∧ (queue t q).waiting = (queue s q).waiting.drop 64 ∧
        (∀ j, j ≠ q → queue t j = queue s j) ∧ t.strm.chans = s.strm.chans) ∧
      (queueProducer s q ≠ none ∨ queueConsumer s q ≠ none →
        exec (.pqFlush w) s = .next (respond 0x04 (report 0x0707 (putSat 0 4 q) s)))) ∧
    (Applies s → w.getLsbD 0 = true → s.image.active ≠ none → s.strm.pending = none →
      strmCheck s (s.strm.chans.map (·.stage)) = (0, 0) → exec (.strmCommit w) s = .next (respond 0x04 { s with
        strm := { s.strm with err := 0, errCh := 0
                              pending := some (s.strm.chans.map (·.stage), nextBoundary (now s) 64) } }))

/-- The pond grants and frees pads; queues flush and stream set-ups commit (R333, R334, R335, R336, R342, R346,
R347, R349, R529). -/
def Obligations.PondAndQueues : Prop :=
  Rules.PondPads ∧ Rules.PondStallFlushCommit

/-- Export channels start, stop and end; delta channels rebase (R356, R367, R369, R371). -/
def Rules.ExportControl : Prop :=
  ∀ (s : State) (k : BitVec 3) (w : Word) (c : XChan), c = xchan s k.toNat → s.xch.chans.length = 8 →
    (Applies s → fieldNat w 0 3 = 1 →
      (k.toNat < 4 → exec (.xchStart k w) s =
        .next (respond 0x04 (setXch k.toNat (fun c => { c with err := 5 }) s))) ∧
      (4 ≤ k.toNat → exportPhase s.step.phase = true → s.aux.running = false →
        c.state = .idle ∨ c.state = .faulted → c.first ≤ c.last → c.eff.arena ≤ 5 →
        (∃ i, c.first.toNat ≤ i ∧ i ≤ c.last.toNat ∧ (recOf s i).valid = true) →
        exec (.xchStart k w) s = .next (respond 0x04 (setXch k.toNat (fun c => { c with
          state := .running, err := 0, ordinal := 0, faultCode := 0, faultLine := 0
          job := some (exportPlan s c.eff.arena.toNat c.first.toNat c.last.toNat (activeTag s)) }) s)))) ∧
    (Applies s → fieldNat w 0 3 = 2 →
      (k.toNat < 4 → exec (.xchStop k w) s =
        .next (respond 0x04 (setXch k.toNat (fun c => { c with err := 5 }) s))) ∧
      (∀ j, 4 ≤ k.toNat → c.state = .running → c.job = some j → (∀ x ∈ j.chunks, x.sent = x.acked) →
      j.asked = false →
        ∃ t, exec (.xchStop k w) s = .next t ∧ (xchan t k.toNat).state = .idle ∧ (xchan t k.toNat).job = none ∧
          (xchan t k.toNat).err = 0)) ∧
    (Applies s → fieldNat w 0 3 = 4 →
      (4 ≤ k.toNat → exec (.rebase k w) s =
        .next (respond 0x04 (setXch k.toNat (fun c => { c with err := 5 }) s))) ∧
      (k.toNat < 4 → c.state ≠ .disabled → ∃ t, exec (.rebase k w) s = .next t ∧
        (xchan t k.toNat).baseValid = false ∧ (xchan t k.toNat).err = 0)) ∧
    (∀ j, ready s = true → c.job = some j → j.good = true → ∃ t, exec (.exportDone k) s = .next t ∧
      (xchan t k.toNat).state = .idle ∧ (xchan t k.toNat).job = none ∧ (xchan t k.toNat).ordinal = j.acked ∧
      (∀ i, i ≠ k.toNat → xchan t i = xchan s i) ∧ (∀ x ∈ j.chunks, ∀ i, i = handleIndex x.handle →
        i < s.pond.pads.length → (padAt s i).gen = handleGen x.handle → (padAt s i).owner = ownerXch k.toNat →
        (padAt t i).owner = 0) ∧
      (s.evt.queue.length < 256 → (now s, BitVec.ofNat 6 (48 + k.toNat)) ∈ t.evt.queue))

/-- A delta channel ends its step, rings its doorbell, reads its credit; set-ups commit (R356, R358, R360, R363,
R370, R529). -/
def Rules.DeltaChannels : Prop :=
  ∀ (s : State) (k : BitVec 3) (w : Word) (c : XChan), c = xchan s k.toNat → s.xch.chans.length = 8 →
    (∀ st tag, working s = true → deltaDone s k.toNat = true → c.openStep = some (st, tag) →
      ∃ t, exec (.deltaStepEnd k) s = .next t ∧ (xchan t k.toNat).records = c.records.tail ∧
        (xchan t k.toNat).openStep = none ∧ (xchan t k.toNat).state = .idle ∧ (xchan t k.toNat).pads = [] ∧
        (∀ r, c.records.head? = some r → (xchan t k.toNat).written = c.written + r.span) ∧
        (s.evt.queue.length < 256 → (now s, BitVec.ofNat 6 (48 + k.toNat)) ∈ t.evt.queue) ∧
        ((xchan t k.toNat).baseValid = true ↔ c.skipped = false ∧ c.baseDrop = false) ∧
        (c.skipped = false → c.baseDrop = false → (xchan t k.toNat).baseStep = st)) ∧
    (working s = true → doorbellDue s c = true → exec (.doorbellWrite k) s = .next (setXch k.toNat (fun c => { c with
      bellWaits := some (doorbellLine c), rung := c.written, rungAt := now s, bellDue := false }) s)) ∧
    (working s = true → k.toNat < 4 → creditWanted c = true → c.creditOut = false → c.creditWaits = false →
      (∀ t0, c.creditAt = some t0 → t0 + 240 ≤ now s) → exec (.creditRead k) s =
      .next (setXch k.toNat (fun c => { c with creditWaits := true, creditAt := some (now s) }) s)) ∧
    (Applies s → w.getLsbD 0 = true → s.image.active ≠ none → s.xch.pending = none →
      xchCheck s (s.xch.chans.map (·.stage)) = (0, 0) → exec (.xchCommit w) s = .next (respond 0x04 { s with
        xch := { s.xch with err := 0, errCh := 0
                            pending := some (s.xch.chans.map (·.stage), nextBoundary (now s) 64) } }))

/-- Export and delta channels start, stop, ring, read and end by their rules (R356, R358, R360, R363, R367, R369,
R370, R371, R529). -/
def Obligations.ExportsAndDeltas : Prop :=
  Rules.ExportControl ∧ Rules.DeltaChannels

/-- A far burst crosses whole under free tags; delta traffic goes before exports and loads (R326, R359, R450, R451). -/
def Rules.FarBursts : Prop :=
  ∀ (s : State) (write : Bool) (tags : List (BitVec 12)), working s = true →
    (∀ o turn, pickOffer s write = some (o, turn) → tags.length = o.lines.length → tagsFree s write tags = true →
      ∃ t, exec (.farBurstGrant write tags) s = .next t ∧
        t.far.out.length = s.far.out.length + o.lines.length ∧ t.far.out.take s.far.out.length = s.far.out ∧
        ∀ i < o.lines.length, ∃ r ∈ t.far.out, r.tag = tags.getD i 0 ∧ r.write = write ∧ r.src = o.src ∧
          r.urgent = o.urgent ∧ (r.who, r.line, r.data) = o.lines.getD i (.dropped, 0, 0)) ∧
    (∀ o turn, pickOffer s write = some (o, turn) → tags.length < o.lines.length →
      exec (.farBurstGrant write tags) s = .next s) ∧
    (∀ d ds, s.power.usable = true → (∀ o ∈ streamOffer s write ++ (if write then [] else readbackOffers s),
        o.urgent = false) → (if write then deltaWrites s else deltaReads s) = d :: ds →
      pickOffer s write = some (d, false))

/-- Far answers reach their requester once; bad parity and timeouts are handled by the rule (R331, R433, R451,
R452). -/
def Rules.FarAnswers : Prop :=
  ∀ (s : State) (tag : BitVec 12) (resp : BitVec 2) (data : Line) (rpar : BitVec 66) (wpar : BitVec 2),
    (running s = true →
      (∀ r, farFind s false tag = some r → farReadGood tag resp data rpar = true →
        exec (.farReadData tag resp data rpar) s = .next (deliverFar r (if resp = 0 then some data else none)
          (if resp = 1 then 0x10 else 0x11) (farDrop r s))) ∧
      (∀ r, farFind s true tag = some r → parityOk ((0 : BitVec 2) ++ resp ++ tag) wpar = true →
        exec (.farWriteResponse tag resp wpar) s = .next (deliverFar r (if resp = 0 then some 0 else none)
          (if resp = 1 then 0x10 else 0x11) (farDrop r s))) ∧
      (∀ r n, farFind s false tag = some r → farReadGood tag resp data rpar = false →
        n = (s.far.naks.filter fun x => portNow s ≤ x.2.2) ++ [(false, tag, portNow s + 1)] →
        (r.respFails + 1 < 3 → exec (.farReadData tag resp data rpar) s = .next (countPort 2 1
          (farModify r (fun x => { x with respFails := x.respFails + 1 }) { s with far := { s.far with naks := n } }))) ∧
        (3 ≤ r.respFails + 1 → exec (.farReadData tag resp data rpar) s = .next (deliverFar r none 0x11
          (countPort 3 1 (farDrop r { s with far := { s.far with naks := n } }))))) ∧
      (farFind s false tag = none → farReadGood tag resp data rpar = true →
        exec (.farReadData tag resp data rpar) s = .next (countPort 1 1 { s with far := { s.far with
          held := s.far.held.filter (· != (false, tag)) } }))) ∧
    (∀ r write, s.far.out.find? (fun r => r.write == write && r.acc + 1 == portNow s) = some r →
      (r.fails + 1 < 3 → ∃ t, exec (.farRequestNak write tag wpar) s = .next t ∧
        t.far.out.length = s.far.out.length ∧
        (∃ x ∈ t.far.out, x.tag = r.tag ∧ x.who = r.who ∧ x.fails = r.fails + 1 ∧ x.acc = portNow s + 1) ∧
        (∀ x ∈ t.far.out, x.write = write → x.tag ≠ r.tag → x.acc ≠ portNow s + 1) ∧ OnlyChanges [.far] s t) ∧
      (3 ≤ r.fails + 1 → exec (.farRequestNak write tag wpar) s =
        .next (deliverFar r none 0x11 (countPort 3 1 (farDrop r (nakTag r.tag tag wpar s)))))) ∧
    (∀ write, (∀ r ∈ s.far.out, r.write = write → r.acc + 1 ≠ portNow s) →
      exec (.farRequestNak write tag wpar) s = .fault (.unsolicited "far request NAK")) ∧
    (∀ r write, farFind s write tag = some r → running s = true → 3 * r.acc / 10 + 480000 ≤ now s →
      ∃ t, exec (.farTimeout write tag) s = .next t ∧ t.far.timeout = true ∧ (write, tag) ∈ t.far.held ∧
        (∀ x ∈ t.far.out, x.write ≠ write ∨ x.tag ≠ tag) ∧ bumpedAt s.far.cnt t.far.cnt 0)

/-- Far bursts cross whole under free tags, and each answer is used once (R326, R331, R359, R433, R450, R451, R452). -/
def Obligations.FarPort : Prop :=
  Rules.FarBursts ∧ Rules.FarAnswers

/-- An answer that no transfer waits for is a fault, never an effect (R297, R433, R441, R459). -/
def Obligations.UnsolicitedAnswers : Prop :=
  ∀ (s : State) (port : BitVec 5) (tag : BitVec 10) (htag : BitVec 12) (data : Line) (par : BitVec 66) (npar : BitVec 2)
    (n : BitVec 4) (rd : BitVec 32) (err : Bool) (kpar : BitVec 5),
    (hostNaked s port false = none → ∃ m, exec (.hostReturnNak port htag npar) s = .fault (.unsolicited m)) ∧
    (hostNaked s port true = none → ∃ m, exec (.hostCompletionNak port htag npar) s = .fault (.unsolicited m)) ∧
    (flightOf s port tag false = none →
      (∃ m, exec (.memoryReadReturn port tag data par) s = .fault (.unsolicited m)) ∧
      (∃ m, exec (.confirmReadReturn port tag data par) s = .fault (.unsolicited m)) ∧
      (∃ m, exec (.streamReadbackReturn n (.stack port tag data par)) s = .fault (.unsolicited m))) ∧
    (flightNaked s port false = none → ∃ m, exec (.memoryReadNak port tag npar) s = .fault (.unsolicited m)) ∧
    (flightNaked s port true = none → ∃ m, exec (.memoryWriteNak port tag npar) s = .fault (.unsolicited m)) ∧
    (∀ write, s.far.out.find? (fun r => r.write == write && r.acc + 1 == portNow s) = none →
      ∃ m, exec (.farRequestNak write htag npar) s = .fault (.unsolicited m)) ∧
    (s.kst.cur = none → ∃ m, exec (.kstAck rd err kpar) s = .fault (.unsolicited m))

/-- Training goes clock, pattern, margin, map, identity, and a failed attempt starts over (R407, R418, R424). -/
def Rules.TrainingSteps : Prop :=
  ∀ (s : State) (d : Side) (t : Training) (errors : BitVec 12) (margins : BitVec 96), linksOpen s = true →
    (link s d).train = some t →
    (t.step = .clock → exec (.linkClockLock d true) s = .next (settleLinks (setLink d (fun l => { l with
      train := some { t with step := .pattern, since := now s } }) s))) ∧
    (t.step = .pattern → t.wake = false → exec (.patternDone d errors) s = .next (settleLinks (setLink d (fun l =>
      { l with train := some { t with step := .margin, since := now s, good := t.good &&& ~~~errors } }) s))) ∧
    (t.step = .pattern → t.wake = true → (∀ k ∈ mapLanes (link s d), errors.getLsbD k = false) →
      exec (.patternDone d errors) s = .next (settleLinks (setLink d (fun l => { l with
        train := some { t with step := .identity, since := now s } }) s))) ∧
    (t.step = .margin → ∃ ms good u, u = setLink d (fun l => { l with
        margins := ms, train := some { t with step := .map, since := now s, good := good } }) s ∧
      (∀ k < 12, good.getLsbD k = (t.good.getLsbD k && decide (20 ≤ fieldNat margins (8 * k) 8))) ∧
      (∀ k < 12, t.good.getLsbD k = true → ms.getD k 0 = field margins (8 * k) 8) ∧
      ((chooseMap good).isSome = true → exec (.marginDone d margins) s = .next (settleLinks u)) ∧
      (chooseMap good = none → exec (.marginDone d margins) s = .next (settleLinks (goDown d 2 u)))) ∧
    (t.wake = false → (link s d).failed + 1 < 3 →
      (t.step = .clock → exec (.linkClockLock d false) s = exec (.trainAttemptFailed d) s) ∧
      exec (.trainAttemptFailed d) s = .next (settleLinks (setLink d (fun l => { l with
        failed := l.failed + 1, train := some { step := .clock, since := now s, retrain := t.retrain } }) s)))

/-- The map word fixes both maps, and identity decides where the link goes (R408, R409, R410). -/
def Rules.MapAndIdentity : Prop :=
  ∀ (s : State) (d : Side) (t : Training) (word : BitVec 24) (crc : BitVec 16) (frame : BitVec 576), linksOpen s = true →
    (link s d).train = some t →
    (∀ c0 c1 w4, t.step = .map → crc16Word word = crc → chooseMap t.good = some (c0, c1, w4) →
      exec (.mapWord d word crc) s = .next (settleLinks (setLink d (fun l => { l with
        rxC0 := c0, rxC1 := c1, rxWidth4 := w4, rxGood := t.good
        txGood := field word 0 12, txWidth4 := word.getLsbD 12, txC0 := field word 13 4, txC1 := field word 17 4
        train := some { t with step := .identity, since := now s, mapTaken := true } }) s))) ∧
    (crc16Word word ≠ crc → exec (.mapWord d word crc) s = .next (settleLinks s)) ∧
    (t.step = .identity → frameCrcOk frame = true → hKind (frameHeader frame) = 2 →
      magicOf (framePayload frame) = magicIdent → lineCrcOk (framePayload frame) = true →
      exec (.ident d frame) s = .next (settleLinks (setLink d (fun l => { l with
        neighValid := true, neigh := framePayload frame
        train := some { t with identGot := true, identAcked := t.identAcked || hAck (frameHeader frame) == 0 } }) s))) ∧
    (t.step = .identity → t.identGot = true → t.identAcked = true → protoOf (link s d).neigh = some 2 →
      (link s d).rxWidth4 = false → (link s d).txWidth4 = false → ∃ u, exec (.identityDone d) s = .next u ∧
        (link u d).proto = 2 ∧
        (planOf s = none → (link u d).train = none ∧ (link u d).txPhase = .quarantine ∧ (link u d).qCause = 2) ∧
        (planOf s ≠ none → identMatches s d (link s d).neigh = false →
          (link u d).train = none ∧ (link u d).txPhase = .quarantine ∧ (link u d).qCause = 1) ∧
        (identMatches s d (link s d).neigh = true → t.wake = false ∨ (link s d).retrainBit = false →
          (link u d).train = none ∧ ((link u d).txPhase = .run ∨ (link u d).txPhase = .verdict)) ∧
        (identMatches s d (link s d).neigh = true → t.wake = true → (link s d).retrainBit = true →
          ∃ v, (link u d).train = some v ∧ v.step = .clock ∧ v.retrain = true ∧ v.wake = false))

/-- A link trains through its steps, and identity decides its state (R407, R408, R409, R410, R418, R424). -/
def Obligations.LinkTraining : Prop :=
  Rules.TrainingSteps ∧ Rules.MapAndIdentity

/-- XLn_CTL: holding down, retraining, sleep and the test stream (R417, R418, R419, R423, R428). -/
def Rules.LinkControl : Prop :=
  ∀ (s : State) (d : Side) (w : Word), Applies s →
    ∀ c ∈ [Instr.linkRetrain d w, .holdDownWrite d w, .xlSleepWrite d w, .xlTestWrite d w],
    ((link s d).txPhase = .off → ∃ t, exec c s = .next t ∧ (link t d).txPhase = .off ∧
      (link t d).holdDown = w.getLsbD 3 ∧ (link t d).sleepOn = w.getLsbD 2 ∧ (link t d).test = w.getLsbD 1) ∧
    ((link s d).txPhase = .run → (link s d).holdDown = false → w.getLsbD 3 = true → ∃ t, exec c s = .next t ∧
      (link t d).txPhase = .down ∧ (link t d).downCause = 5 ∧ (link t d).holdDown = true) ∧
    ((link s d).txPhase = .run → (link s d).holdDown = false → w.getLsbD 3 = false → w.getLsbD 0 = true →
      ∃ t u, exec c s = .next t ∧ (link t d).txPhase = .train ∧ (link t d).train = some u ∧ u.step = .clock ∧
        u.retrain = true ∧ (link t d).retrainBit = true ∧ (link t d).replay = (link s d).replay ∧
        (link t d).txSeq = (link s d).txSeq ∧ (link t d).ackSeq = (link s d).ackSeq) ∧
    ((link s d).txPhase = .sleep → (link s d).train = none → (link s d).holdDown = false → w.getLsbD 3 = false →
      (w.getLsbD 0 = true ∨ ((link s d).sleepOn = true ∧ w.getLsbD 2 = false)) → ∃ t u, exec c s = .next t ∧
        (link t d).train = some u ∧ u.step = .clock ∧ u.wake = true ∧ (link t d).sleepOn = w.getLsbD 2) ∧
    ((link s d).test = false → w.getLsbD 1 = true → ∃ t, exec c s = .next t ∧ (link t d).test = true ∧
      (link t d).testTx = 0)

/-- Markers move the receive side; a lost or a new clock starts training (R401, R407, R415, R417, R418). -/
def Rules.MarkersAndClocks : Prop :=
  ∀ (s : State) (d : Side), linksOpen s = true →
    ((link s d).rxPhase = .verdict ∨ ((link s d).rxPhase = .train ∧ trainStep s d = some .identity) →
      exec (.runMarker d) s = .next (settleLinks (setLink d (fun l => { l with
        rxPhase := .run, flashIn := .hold, rxScr := scramStart }) s))) ∧
    ((link s d).rxPhase = .quarantine → exec (.runMarker d) s =
      .next (settleLinks (setLink d (fun l => { l with rxScr := scramStart }) s))) ∧
    ((link s d).rxPhase = .run → exec (.verdictMarker d) s = .next (settleLinks (setLink d (fun l => { l with
      rxPhase := .verdict, flashIn := .hold }) s))) ∧
    ((link s d).rxPhase = .run → (link s d).sleepSent = true → exec (.sleepMarker d) s =
      .next (settleLinks (setLink d (fun l => { l with sleepGot := true, txPhase := .sleep, rxPhase := .sleep }) s))) ∧
    ((link s d).rxPhase = .run → (link s d).sleepSent = false → exec (.sleepMarker d) s =
      .next (settleLinks (setLink d (fun l => { l with sleepGot := true }) s))) ∧
    ((link s d).txPhase = .run → exec (.trainMarker d) s = .next (settleLinks (startTraining d true s)) ∧
      exec (.forwardedClockLost d) s = .next (settleLinks (startTraining d true s))) ∧
    ((link s d).txPhase = .down → (link s d).holdDown = false →
      exec (.trainMarker d) s = .next (settleLinks (startTraining d false s)) ∧
      exec (.forwardedClockDetected d) s = .next (settleLinks (startTraining d false s)) ∧
      ((link s d).downAt + 480000 ≤ now s →
        exec (.downRetry d) s = .next (settleLinks (startTraining d false s)))) ∧
    (∀ retrain, ∃ u, (link (startTraining d retrain s) d).train = some u ∧ u.step = .clock ∧ u.since = now s ∧
      u.retrain = retrain ∧ u.wake = false ∧ (link (startTraining d retrain s) d).txPhase = .train ∧
      (link (startTraining d retrain s) d).cnt = bump (link s d).cnt 5 1 ∧
      (retrain = true → (link (startTraining d retrain s) d).replay = (link s d).replay) ∧
      (retrain = false → (link (startTraining d retrain s) d).replay = [] ∧
        (link (startTraining d retrain s) d).txSeq = 0 ∧ (link (startTraining d retrain s) d).ackSeq = 0xFFF))

/-- Link control bits, markers and clocks move the link's phases (R401, R407, R415, R417, R418, R419, R423, R428). -/
def Obligations.LinkEvents : Prop :=
  Rules.LinkControl ∧ Rules.MarkersAndClocks

/-- A frame is taken in order, refused or repeated by its CRC and SEQ; words carry acks and credits (R402, R403,
R404, R412, R417). -/
def Rules.FramesReceived : Prop :=
  ∀ (s : State) (d : Side) (f : BitVec 576) (word : BitVec 24) (crc : BitVec 16), linksOpen s = true →
    ((link s d).rxPhase.carries = true →
      (∀ l u, l = crcRoll s (rxAdvance (link s d)) → u = setLink d (fun _ => { l with
          crcErrors := l.crcErrors + 1, cnt := bump l.cnt 0 1
          nakDue := l.nakDue || !l.nakOut, nakOut := true }) s → frameCrcOk f = false →
        (l.crcErrors + 1 < 16 → exec (.frameReceive d f) s = .next (settleLinks u)) ∧
        (16 ≤ l.crcErrors + 1 → linkRuns (link s d) = true →
          exec (.frameReceive d f) s = .next (settleLinks (startTraining d true u)))) ∧
      (frameCrcOk f = true → hKind (frameHeader f) = 1 → hSeq (frameHeader f) = (link s d).ackSeq + 1 →
        (frameHeader f).getLsbD 1 = false → (field (frameHeader f) 6 4 : BitVec 4).toNat = ringPos s →
        magicOf (framePayload f) = magicLinkState → ∃ t, exec (.frameReceive d f) s = .next t ∧
          (link t d).ackSeq = hSeq (frameHeader f) ∧
          ({ src := sourceOf d, vc := hVc (frameHeader f), m := framePayload f } : InMsg) ∈ t.hier.inbox) ∧
      (frameCrcOk f = true → hKind (frameHeader f) = 1 → hSeq (frameHeader f) = (link s d).ackSeq →
        exec (.frameReceive d f) s = .next (settleLinks (countLink d 4 1
          (useCredit d (fieldNat (frameHeader f) 16 2) (field (frameHeader f) 10 6)
            (useAck d (hAck (frameHeader f)) ((frameHeader f).getLsbD 18) (setLink d rxAdvance s))))))) ∧
    (crc16Word word ≠ crc → ∀ lane, exec (.chameleonWord d lane word crc) s = .next (settleLinks s)) ∧
    (crc16Word word = crc → (link s d).rxPhase = .run ∨ (link s d).rxPhase = .quarantine →
      exec (.chameleonWord d true word crc) s =
        .next (settleLinks (useAck d (field word 0 12) (word.getLsbD 12) s)) ∧
      exec (.chameleonWord d false word crc) s = .next (settleLinks (useCredit d 2 (field word 12 6)
        (useCredit d 1 (field word 6 6) (useCredit d 0 (field word 0 6) s)))))

/-- What a link sends in a slot, and when it sends again (R403, R404, R405, R406, R417). -/
def Rules.FramesSent : Prop :=
  ∀ (s : State) (d : Side), linksOpen s = true →
    ((link s d).train = none → (link s d).txPhase.carries = true →
      (∀ f rest, (link s d).resend = f :: rest → exec (.frameSlot d) s = .next (settleLinks (countLink d 2 1
        (setLink d (fun l => { l with resend := rest, testLast := false })
          (driveFrame d 1 f.vc f.seq f.dest f.src f.bcast f.payload s))))) ∧
      (∀ through f, (link s d).resend = [] → (link s d).replay.length < 256 → vcHead (link s d) 0 = some (through, f) →
        ∃ t g, exec (.frameSlot d) s = .next t ∧ (link t d).replay = (link s d).replay ++ [g] ∧
          g.payload = f.payload ∧ g.vc = f.vc ∧ g.seq = (link s d).txSeq ∧ (link t d).txSeq = (link s d).txSeq + 1) ∧
      ((link s d).resend = [] → pickFrame (link s d) = none → testWanted (link s d) = false →
        sleepAllowed s d = false → exec (.frameSlot d) s = .next (settleLinks
          (driveFrame d 0 0 (link s d).txSeq 0 (BitVec.ofNat 4 (ringPos s)) false 0
            (setLink d (fun l => { l with testLast := false }) s))))) ∧
    ((link s d).txPhase.carries = true → (link s d).replay ≠ [] → (link s d).timer + 240 ≤ now s →
      ∀ u, u = countLink d 3 1 (setLink d (fun l => { l with
        resend := l.replay, timer := now s, timeouts := l.timeouts + 1 }) s) →
      ((link s d).timeouts + 1 < 4 → exec (.replayTimeout d) s = .next (settleLinks u)) ∧
      (4 ≤ (link s d).timeouts + 1 → linkRuns (link s d) = true →
        exec (.replayTimeout d) s = .next (settleLinks (startTraining d true u)))) ∧
    exec (.crcWindowEnd d) s = .next (settleLinks (setLink d (fun l =>
      if crcWindowOf s l = l.crcWindow then l else { l with crcWindow := crcWindowOf s l, crcErrors := 0 }) s))

/-- Frames are received in order, acknowledged, sent and sent again (R402, R403, R404, R405, R406, R412, R417). -/
def Obligations.LinkFrames : Prop :=
  Rules.FramesReceived ∧ Rules.FramesSent

/-- Link-state flits, test flits and wakes (R411, R418, R419). That a waking link still reads SLEEP is the model's
reading (DEDUCED, log entry 75). -/
def Obligations.RingUpkeep : Prop :=
  ∀ (s : State) (d : Side) (m : Line), linksOpen s = true →
    exec (.linkState d m) s = .next (settleLinks (linkStateIn m (takeInbox (sourceOf d) m s))) ∧
    (∀ q, q = fieldNat m 24 8 → q < ringSize s → 1 < ringSize s → (field m 16 8 : BitVec 8) = 1 →
      ∀ side, segOf (ringSize s) q side ≠ segOf (ringSize s) (ringPos s) .east →
        segOf (ringSize s) q side ≠ segOf (ringSize s) (ringPos s) .west →
        (linkStateIn m s).ring.segUp.getLsbD (segOf (ringSize s) q side) =
          (field m 32 16 : BitVec 16).getLsbD (segOf (ringSize s) q side)) ∧
    (planOf s ≠ none → s.power.state ≠ .retain → s.ring.lastState + 480000 ≤ now s → exec .linkStateTimer s =
      .next (settleLinks (broadcast 0 (linkStateFlit s) { s with ring := { s.ring with lastState := now s } }))) ∧
    (∀ u, u = setLink d (fun l => { l with testRx := (field m 32 32 : BitVec 32) + 1 }) (takeInbox (sourceOf d) m s) →
      (m = testFlit (field m 32 32) → exec (.testFlit d m) s = .next (settleLinks u)) ∧
      (m ≠ testFlit (field m 32 32) → exec (.testFlit d m) s = .next (settleLinks (countLink d 7 1 u)))) ∧
    ((link s d).txPhase = .sleep → (link s d).train = none → s.power.state ≠ .retain → exec (.wakeRequest d) s =
      .next (settleLinks (setLink d (fun l => { l with
        sleepSent := false, sleepGot := false
        train := some { step := .clock, since := now s, wake := true, retrain := true } }) s)))

/-- A message of the fabric port is acknowledged, delivered once, and released by its ACK (R420, R421, R422, R454). -/
def Rules.FabricMessages : Prop :=
  ∀ (s : State) (e : BitVec 128) (beats : List (BitVec 128 × BitVec 16)), ready s = true → s.power.state ≠ .retain →
    beats.head?.map (·.1) = some e → ∀ c ∈ [Instr.fmpData beats, .fmpAck beats],
    (∀ good, good = beats.all (fun b => parityOk b.1 b.2) →
      (good = false → exec c s = .next (countPort 9 1 s)) ∧
      (envKind e = 1 → beats.length ≠ 5 → exec c s = .next (countPort 9 1 s)) ∧
      (good = true → envKind e = 1 → beats.length = 5 →
        (envDest e ≠ s.fmp.self ∨ envCheckOk e = false → exec c s = .next (countFmp 5 1 s)) ∧
        (envDest e = s.fmp.self → envCheckOk e = true →
          (s.fmp.peers.find? (·.src == envSrc e) = none → ∃ t, exec c s = .next t ∧
            t.hier.inbox.length = s.hier.inbox.length + 1 ∧ t.fmp.cnt = bump s.fmp.cnt 3 1 ∧
            t.fmp.lastTx = some (envelope (envSrc e) s.fmp.self s.fmp.session (envSeq e) 2 0, none) ∧
            OnlyChanges [.hier, .fmp] s t) ∧
          (∀ p, s.fmp.peers.find? (·.src == envSrc e) = some p → p.session = envSession e → p.high = envSeq e →
            ∃ t, exec c s = .next t ∧ t.fmp.cnt = bump s.fmp.cnt 4 1 ∧
              t.fmp.lastTx = some (envelope (envSrc e) s.fmp.self s.fmp.session (envSeq e) 2 0, none) ∧
              OnlyChanges [.fmp] s t))) ∧
      (good = true → envKind e = 2 → beats.length = 1 → envDest e = s.fmp.self → envCheckOk e = true →
        s.fmp.queue = [] → ∃ t, exec c s = .next t ∧ t.fmp.out = s.fmp.out.filter (fun m =>
          !(m.dest == envSrc e && m.seq == envSeq e)) ∧ OnlyChanges [.fmp] s t))

/-- An unanswered message goes out again three times, then it is lost (R421, R427). -/
def Rules.MessageResends : Prop :=
  ∀ (s : State) (dest : BitVec 32) (seq : BitVec 16) (m : FmpMsg), ready s = true →
    s.fmp.out.find? (fun m => m.dest == dest && m.seq == seq) = some m →
    (now s < m.sentAt + 96000 → exec (.fmpResendTimeout dest seq) s = .next s) ∧
    (m.sentAt + 96000 ≤ now s → m.tries < 3 → exec (.fmpResendTimeout dest seq) s = .next (countFmp 1 1 { s with
      fmp := { s.fmp with
        out := s.fmp.out.map fun x => if x = m then { m with tries := m.tries + 1, sentAt := now s } else x
        lastTx := some (envelope m.dest s.fmp.self s.fmp.session m.seq 1 (m.tries + 1), some m.payload) } })) ∧
    (m.sentAt + 96000 ≤ now s → 3 ≤ m.tries → ∃ t, exec (.fmpResendTimeout dest seq) s = .next t ∧
      t.fmp.lost = true ∧ t.fmp.lostDest = dest ∧
      (isManager s = false → s.fmp.queue = [] → t.fmp.out = s.fmp.out.filter (· != m)))

/-- Fabric messages are acknowledged, delivered once, released or given up (R420, R421, R422, R427, R454). -/
def Obligations.FabricMessagePort : Prop :=
  Rules.FabricMessages ∧ Rules.MessageResends

/-- What the engine drives passes the parity check of its receiver (R432). -/
def Rules.DrivenParity : Prop :=
  ∀ (n : Nat) (b : BitVec (8 * n)), parityOk (drive n b).bundle (drive n b).par = true

/-- The data lanes of a frame bring the frame back, and a lane that is scrambled twice by one register is as it was; a
scrambler starts from its lane's seed (R399, R400). -/
def Rules.LanesCarryFrames : Prop :=
  (∀ (w4 : Bool) (f : BitVec 576), frameOfLanes w4 ((List.range (laneCount w4)).map (laneBits w4 f)) = f) ∧
  (∀ (n i : Nat) (r : BitVec 23) (b : BitVec 144), scramble n i r (scramble n i r b) = b) ∧
  (∀ p < 10, scramStart.getD p 0 = 0x7FFFFF ^^^ BitVec.ofNat 23 (p * 0x010203))

/-- The TAP without an IDCODE: held in reset it selects BYPASS, and BYPASS delays jtag_tdi by one clock; five clocks with
jtag_tms 1 end in Test-Logic-Reset. The states are IEEE 1149.1's, which the spec names only (PRESUMED, log 73; R464). -/
def Rules.TestAccessPort : Prop :=
  ∀ (t : TestAccess) (tms tdi : Bool) (i : TapInstr),
    (t.trstN = false → (tapClock tms tdi i t).tap = .testLogicReset ∧ (tapClock tms tdi i t).instr = .bypass) ∧
    (t.trstN = true → t.tap = .shiftDr → t.instr = .bypass → tapOut (tapClock false tdi i t) = some tdi) ∧
    (∀ u, u = (List.range 5).foldl (fun u _ => tapClock true tdi i u) t → u.tap = .testLogicReset ∧ u.instr = .bypass)

/-- Parity at the pins, frames on the lanes, and the test access port (R399, R400, R432, R464). -/
def Obligations.PinsAndLanes : Prop :=
  Rules.DrivenParity ∧ Rules.LanesCarryFrames ∧ Rules.TestAccessPort
end

