-- ==== Sys2Proof/Laws/Control.lean ====
section
/-! SUPPORT. A control-port write with its own effect, and the gates that the meanings ask about. -/
namespace Sys2Proof.Machine

/-- Where a write applies, it has its own effect and is answered OK. -/
theorem ctlWrite_applies {s : State} (h : Applies s) (addr : Addr24) (w : Word) (eff : State → State) :
    ctlWrite addr w eff s = respond 0x04 (eff s) := by
  obtain ⟨hr, hf, hp⟩ := h
  simp only [ready, Bool.and_eq_true, beq_iff_eq] at hr
  simp [ctlWrite, hr.1, hr.2, hf, hp]

/-- With the port closed a write changes nothing. -/
theorem ctlWrite_closed {s : State} (h : portOpen s = false) (addr : Addr24) (w : Word) (eff : State → State) :
    ctlWrite addr w eff s = s := by simp [ctlWrite, h]

/-- In FATAL a write that R510 does not name is answered OK without effect. -/
theorem ctlWrite_fatal {s : State} (h : ready s = true) (hf : s.health.fatal = true) {addr : Addr24} {w : Word}
    (ha : fatalWritable addr w = false) (eff : State → State) : ctlWrite addr w eff s = respond 0x04 s := by
  simp only [ready, Bool.and_eq_true, beq_iff_eq] at h
  simp [ctlWrite, h.1, h.2, hf, ha]

theorem Applies.ready {s : State} (h : Applies s) : ready s = true := h.1
theorem Applies.fatal {s : State} (h : Applies s) : s.health.fatal = false := h.2.1
theorem Applies.working {s : State} (h : Applies s) : working s = true := by simp [Machine.working, h.1, h.2.1]
theorem Applies.stage {s : State} (h : Applies s) : s.boot.stage = .ready := by
  have := h.1; simp only [Machine.ready, Bool.and_eq_true, beq_iff_eq] at this; exact this.2
theorem Applies.portOpen {s : State} (h : Applies s) : portOpen s = true := by
  have := h.1; simp only [Machine.ready, Bool.and_eq_true, beq_iff_eq] at this; exact this.1
theorem Applies.wake {s : State} (h : Applies s) : wakeFromRetain s = s := by simp [wakeFromRetain, h.2.2]

theorem working_ready {s : State} (h : working s = true) : ready s = true := by
  simp only [working, Bool.and_eq_true] at h; exact h.1
theorem working_fatal {s : State} (h : working s = true) : s.health.fatal = false := by
  simp only [working, Bool.and_eq_true, Bool.not_eq_true'] at h; exact h.2
theorem ready_running {s : State} (h : ready s = true) : running s = true := by
  simp only [ready, portOpen, Bool.and_eq_true] at h; exact h.1.1

end Sys2Proof.Machine
end

