-- ==== Sys2Proof/Laws/Keep.lean ====
section
/-! SUPPORT. What every operation keeps, whatever else it does: the bytes of the stack, the queue of waiting
commands, the bounds of the event queue and of the error log, and the croak cause that goes with FATAL. One
lemma `keep_<operation>` per operation stands in the files Laws/Keep<Module>.lean. -/
namespace Sys2Proof.Machine

-- the proofs below are one script for many operations, of which each uses its own part
set_option linter.unusedTactic false
set_option linter.unreachableTactic false

/-- The stack is m, the queue is q, and the bounds hold. -/
structure Held (m : List Host.Cell) (q : List Instr) (s : State) : Prop where
  stack : s.stack = m
  pending : s.pending = q
  events : s.evt.queue.length ≤ 256
  log : s.health.log.entries.length ≤ 64

/-- Held, and an instance in FATAL has croak cause 6. -/
structure Good (m : List Host.Cell) (q : List Instr) (s : State) : Prop extends Held m q s where
  croaks : s.health.fatal = true → s.health.cause.getLsbD 6 = true

theorem keep_ite {m : List Host.Cell} {q : List Instr} {c : Prop} [Decidable c] {a b : State}
    (ha : Good m q a) (hb : Good m q b) : Good m q (if c then a else b) := by
  split <;> assumption

theorem keep_foldl {m : List Host.Cell} {q : List Instr} {α : Type} {f : State → α → State} {l : List α} {s : State}
    (h : Good m q s) (hf : ∀ x a, Good m q x → Good m q (f x a)) : Good m q (l.foldl f s) := by
  induction l generalizing s with
  | nil => exact h
  | cons a l ih => exact ih (hf s a h)

/-- A state that differs in other fields only, its fields written out. -/
theorem keep_mk {m : List Host.Cell} {q : List Instr} {s : State} {clk' : Clocks} {boot' : Boot} {power' : Power}
    {health' : Health} {snap' : Snapshot} {evt' : EventPort} {ctl' : CtlPort} {kst' : KstPort} {vault' : Vault}
    {mem' : MemPath} {stack' : List Host.Cell} {image' : ImageUnit} {step' : StepUnit} {stepk' : Stepk} {lscale' :
    Lscale} {aux' : Aux} {ttab' : Ttab} {swp' : Swp} {sweep' : SweepUnit} {fab' : Fabric} {tongue' : Tongue} {memb'
    : Memb} {verdict' : Verdict} {hier' : Hier} {lease' : Leases} {strm' : Streams} {pond' : Pond} {queues' : List
    PadQueue} {xch' : Exports} {far' : FarPort} {rng' : Rng} {east' : LinkEnd} {west' : LinkEnd} {ring' : Ring}
    {fmp' : Fmp} {test' : TestAccess} {freeCtr' : Nat} {pending' : List Instr}
    (h1 : s.stack = stack') (h2 : s.pending = pending') (h3 : s.evt.queue = evt'.queue)
    (h4 : s.health.log = health'.log) (h5 : s.health.fatal = health'.fatal)
    (h6 : s.health.cause = health'.cause) (h : Good m q s) : Good m q
    (State.mk clk' boot' power' health' snap' evt' ctl' kst' vault' mem' stack' image' step' stepk' lscale' aux' ttab' swp' sweep' fab' tongue' memb' verdict' hier' lease' strm' pond' queues' xch' far' rng' east' west' ring' fmp' test' freeCtr' pending') := by
  refine ⟨⟨?_, ?_, ?_, ?_⟩, ?_⟩
  · exact h1 ▸ h.stack
  · exact h2 ▸ h.pending
  · exact h3 ▸ h.events
  · exact h4 ▸ h.log
  · intro hf; exact h6 ▸ h.croaks (h5 ▸ hf)

/-- Whatever state a command answers is Good. -/
def GoodOut (m : List Host.Cell) (q : List Instr) (o : Out) : Prop := ∀ t, o = .next t → Good m q t

theorem goodOut_next {m : List Host.Cell} {q : List Instr} {t : State} (h : Good m q t) : GoodOut m q (.next t) := by
  intro u hu
  injection hu with hu
  exact hu ▸ h

theorem goodOut_fault {m : List Host.Cell} {q : List Instr} (r : Fault) : GoodOut m q (.fault r) :=
  fun _ hu => nomatch hu

end Sys2Proof.Machine
end

