-- ==== Sys2Proof/Laws/State.lean ====
section
/-! SUPPORT. The small laws of State: for each operation that updates one group of the state, the value of the
group after it and the equality of every other group, each true by rfl; the counters; the requests to the memory
path; and what events and reports keep. -/
namespace Sys2Proof.Machine
variable (s : State)


/-! ### countMp -/

@[simp] theorem countMp_clk (i n : Nat) : (countMp i n s).clk = s.clk := rfl
@[simp] theorem countMp_boot (i n : Nat) : (countMp i n s).boot = s.boot := rfl
@[simp] theorem countMp_power (i n : Nat) : (countMp i n s).power = s.power := rfl
@[simp] theorem countMp_health (i n : Nat) : (countMp i n s).health = s.health := rfl
@[simp] theorem countMp_snap (i n : Nat) : (countMp i n s).snap = s.snap := rfl
@[simp] theorem countMp_evt (i n : Nat) : (countMp i n s).evt = s.evt := rfl
@[simp] theorem countMp_ctl (i n : Nat) : (countMp i n s).ctl = s.ctl := rfl
@[simp] theorem countMp_kst (i n : Nat) : (countMp i n s).kst = s.kst := rfl
@[simp] theorem countMp_vault (i n : Nat) : (countMp i n s).vault = s.vault := rfl
@[simp] theorem countMp_mem (i n : Nat) : (countMp i n s).mem = { s.mem with cnt := bump s.mem.cnt i n } := rfl
@[simp] theorem countMp_stack (i n : Nat) : (countMp i n s).stack = s.stack := rfl
@[simp] theorem countMp_image (i n : Nat) : (countMp i n s).image = s.image := rfl
@[simp] theorem countMp_step (i n : Nat) : (countMp i n s).step = s.step := rfl
@[simp] theorem countMp_stepk (i n : Nat) : (countMp i n s).stepk = s.stepk := rfl
@[simp] theorem countMp_lscale (i n : Nat) : (countMp i n s).lscale = s.lscale := rfl
@[simp] theorem countMp_aux (i n : Nat) : (countMp i n s).aux = s.aux := rfl
@[simp] theorem countMp_ttab (i n : Nat) : (countMp i n s).ttab = s.ttab := rfl
@[simp] theorem countMp_swp (i n : Nat) : (countMp i n s).swp = s.swp := rfl
@[simp] theorem countMp_sweep (i n : Nat) : (countMp i n s).sweep = s.sweep := rfl
@[simp] theorem countMp_fab (i n : Nat) : (countMp i n s).fab = s.fab := rfl
@[simp] theorem countMp_tongue (i n : Nat) : (countMp i n s).tongue = s.tongue := rfl
@[simp] theorem countMp_memb (i n : Nat) : (countMp i n s).memb = s.memb := rfl
@[simp] theorem countMp_verdict (i n : Nat) : (countMp i n s).verdict = s.verdict := rfl
@[simp] theorem countMp_hier (i n : Nat) : (countMp i n s).hier = s.hier := rfl
@[simp] theorem countMp_lease (i n : Nat) : (countMp i n s).lease = s.lease := rfl
@[simp] theorem countMp_strm (i n : Nat) : (countMp i n s).strm = s.strm := rfl
@[simp] theorem countMp_pond (i n : Nat) : (countMp i n s).pond = s.pond := rfl
@[simp] theorem countMp_queues (i n : Nat) : (countMp i n s).queues = s.queues := rfl
@[simp] theorem countMp_xch (i n : Nat) : (countMp i n s).xch = s.xch := rfl
@[simp] theorem countMp_far (i n : Nat) : (countMp i n s).far = s.far := rfl
@[simp] theorem countMp_rng (i n : Nat) : (countMp i n s).rng = s.rng := rfl
@[simp] theorem countMp_east (i n : Nat) : (countMp i n s).east = s.east := rfl
@[simp] theorem countMp_west (i n : Nat) : (countMp i n s).west = s.west := rfl
@[simp] theorem countMp_ring (i n : Nat) : (countMp i n s).ring = s.ring := rfl
@[simp] theorem countMp_fmp (i n : Nat) : (countMp i n s).fmp = s.fmp := rfl
@[simp] theorem countMp_test (i n : Nat) : (countMp i n s).test = s.test := rfl
@[simp] theorem countMp_freeCtr (i n : Nat) : (countMp i n s).freeCtr = s.freeCtr := rfl
@[simp] theorem countMp_pending (i n : Nat) : (countMp i n s).pending = s.pending := rfl

/-! ### countFab -/

@[simp] theorem countFab_clk (i n : Nat) : (countFab i n s).clk = s.clk := rfl
@[simp] theorem countFab_boot (i n : Nat) : (countFab i n s).boot = s.boot := rfl
@[simp] theorem countFab_power (i n : Nat) : (countFab i n s).power = s.power := rfl
@[simp] theorem countFab_health (i n : Nat) : (countFab i n s).health = s.health := rfl
@[simp] theorem countFab_snap (i n : Nat) : (countFab i n s).snap = s.snap := rfl
@[simp] theorem countFab_evt (i n : Nat) : (countFab i n s).evt = s.evt := rfl
@[simp] theorem countFab_ctl (i n : Nat) : (countFab i n s).ctl = s.ctl := rfl
@[simp] theorem countFab_kst (i n : Nat) : (countFab i n s).kst = s.kst := rfl
@[simp] theorem countFab_vault (i n : Nat) : (countFab i n s).vault = s.vault := rfl
@[simp] theorem countFab_mem (i n : Nat) : (countFab i n s).mem = s.mem := rfl
@[simp] theorem countFab_stack (i n : Nat) : (countFab i n s).stack = s.stack := rfl
@[simp] theorem countFab_image (i n : Nat) : (countFab i n s).image = s.image := rfl
@[simp] theorem countFab_step (i n : Nat) : (countFab i n s).step = s.step := rfl
@[simp] theorem countFab_stepk (i n : Nat) : (countFab i n s).stepk = s.stepk := rfl
@[simp] theorem countFab_lscale (i n : Nat) : (countFab i n s).lscale = s.lscale := rfl
@[simp] theorem countFab_aux (i n : Nat) : (countFab i n s).aux = s.aux := rfl
@[simp] theorem countFab_ttab (i n : Nat) : (countFab i n s).ttab = s.ttab := rfl
@[simp] theorem countFab_swp (i n : Nat) : (countFab i n s).swp = s.swp := rfl
@[simp] theorem countFab_sweep (i n : Nat) : (countFab i n s).sweep = s.sweep := rfl
@[simp] theorem countFab_fab (i n : Nat) : (countFab i n s).fab = { s.fab with
    cnt := bump s.fab.cnt i n
    cntAt := now s
    cntNow := bump (if s.fab.cntAt = now s then s.fab.cntNow else List.replicate 8 {}) i n } := rfl
@[simp] theorem countFab_tongue (i n : Nat) : (countFab i n s).tongue = s.tongue := rfl
@[simp] theorem countFab_memb (i n : Nat) : (countFab i n s).memb = s.memb := rfl
@[simp] theorem countFab_verdict (i n : Nat) : (countFab i n s).verdict = s.verdict := rfl
@[simp] theorem countFab_hier (i n : Nat) : (countFab i n s).hier = s.hier := rfl
@[simp] theorem countFab_lease (i n : Nat) : (countFab i n s).lease = s.lease := rfl
@[simp] theorem countFab_strm (i n : Nat) : (countFab i n s).strm = s.strm := rfl
@[simp] theorem countFab_pond (i n : Nat) : (countFab i n s).pond = s.pond := rfl
@[simp] theorem countFab_queues (i n : Nat) : (countFab i n s).queues = s.queues := rfl
@[simp] theorem countFab_xch (i n : Nat) : (countFab i n s).xch = s.xch := rfl
@[simp] theorem countFab_far (i n : Nat) : (countFab i n s).far = s.far := rfl
@[simp] theorem countFab_rng (i n : Nat) : (countFab i n s).rng = s.rng := rfl
@[simp] theorem countFab_east (i n : Nat) : (countFab i n s).east = s.east := rfl
@[simp] theorem countFab_west (i n : Nat) : (countFab i n s).west = s.west := rfl
@[simp] theorem countFab_ring (i n : Nat) : (countFab i n s).ring = s.ring := rfl
@[simp] theorem countFab_fmp (i n : Nat) : (countFab i n s).fmp = s.fmp := rfl
@[simp] theorem countFab_test (i n : Nat) : (countFab i n s).test = s.test := rfl
@[simp] theorem countFab_freeCtr (i n : Nat) : (countFab i n s).freeCtr = s.freeCtr := rfl
@[simp] theorem countFab_pending (i n : Nat) : (countFab i n s).pending = s.pending := rfl

/-! ### countSweep -/

@[simp] theorem countSweep_clk (i n : Nat) : (countSweep i n s).clk = s.clk := rfl
@[simp] theorem countSweep_boot (i n : Nat) : (countSweep i n s).boot = s.boot := rfl
@[simp] theorem countSweep_power (i n : Nat) : (countSweep i n s).power = s.power := rfl
@[simp] theorem countSweep_health (i n : Nat) : (countSweep i n s).health = s.health := rfl
@[simp] theorem countSweep_snap (i n : Nat) : (countSweep i n s).snap = s.snap := rfl
@[simp] theorem countSweep_evt (i n : Nat) : (countSweep i n s).evt = s.evt := rfl
@[simp] theorem countSweep_ctl (i n : Nat) : (countSweep i n s).ctl = s.ctl := rfl
@[simp] theorem countSweep_kst (i n : Nat) : (countSweep i n s).kst = s.kst := rfl
@[simp] theorem countSweep_vault (i n : Nat) : (countSweep i n s).vault = s.vault := rfl
@[simp] theorem countSweep_mem (i n : Nat) : (countSweep i n s).mem = s.mem := rfl
@[simp] theorem countSweep_stack (i n : Nat) : (countSweep i n s).stack = s.stack := rfl
@[simp] theorem countSweep_image (i n : Nat) : (countSweep i n s).image = s.image := rfl
@[simp] theorem countSweep_step (i n : Nat) : (countSweep i n s).step = s.step := rfl
@[simp] theorem countSweep_stepk (i n : Nat) : (countSweep i n s).stepk = s.stepk := rfl
@[simp] theorem countSweep_lscale (i n : Nat) : (countSweep i n s).lscale = s.lscale := rfl
@[simp] theorem countSweep_aux (i n : Nat) : (countSweep i n s).aux = s.aux := rfl
@[simp] theorem countSweep_ttab (i n : Nat) : (countSweep i n s).ttab = s.ttab := rfl
@[simp] theorem countSweep_swp (i n : Nat) : (countSweep i n s).swp = s.swp := rfl
@[simp] theorem countSweep_sweep (i n : Nat) : (countSweep i n s).sweep = { s.sweep with cnt := bump s.sweep.cnt i n } := rfl
@[simp] theorem countSweep_fab (i n : Nat) : (countSweep i n s).fab = s.fab := rfl
@[simp] theorem countSweep_tongue (i n : Nat) : (countSweep i n s).tongue = s.tongue := rfl
@[simp] theorem countSweep_memb (i n : Nat) : (countSweep i n s).memb = s.memb := rfl
@[simp] theorem countSweep_verdict (i n : Nat) : (countSweep i n s).verdict = s.verdict := rfl
@[simp] theorem countSweep_hier (i n : Nat) : (countSweep i n s).hier = s.hier := rfl
@[simp] theorem countSweep_lease (i n : Nat) : (countSweep i n s).lease = s.lease := rfl
@[simp] theorem countSweep_strm (i n : Nat) : (countSweep i n s).strm = s.strm := rfl
@[simp] theorem countSweep_pond (i n : Nat) : (countSweep i n s).pond = s.pond := rfl
@[simp] theorem countSweep_queues (i n : Nat) : (countSweep i n s).queues = s.queues := rfl
@[simp] theorem countSweep_xch (i n : Nat) : (countSweep i n s).xch = s.xch := rfl
@[simp] theorem countSweep_far (i n : Nat) : (countSweep i n s).far = s.far := rfl
@[simp] theorem countSweep_rng (i n : Nat) : (countSweep i n s).rng = s.rng := rfl
@[simp] theorem countSweep_east (i n : Nat) : (countSweep i n s).east = s.east := rfl
@[simp] theorem countSweep_west (i n : Nat) : (countSweep i n s).west = s.west := rfl
@[simp] theorem countSweep_ring (i n : Nat) : (countSweep i n s).ring = s.ring := rfl
@[simp] theorem countSweep_fmp (i n : Nat) : (countSweep i n s).fmp = s.fmp := rfl
@[simp] theorem countSweep_test (i n : Nat) : (countSweep i n s).test = s.test := rfl
@[simp] theorem countSweep_freeCtr (i n : Nat) : (countSweep i n s).freeCtr = s.freeCtr := rfl
@[simp] theorem countSweep_pending (i n : Nat) : (countSweep i n s).pending = s.pending := rfl

/-! ### countTongue -/

@[simp] theorem countTongue_clk (i n : Nat) : (countTongue i n s).clk = s.clk := rfl
@[simp] theorem countTongue_boot (i n : Nat) : (countTongue i n s).boot = s.boot := rfl
@[simp] theorem countTongue_power (i n : Nat) : (countTongue i n s).power = s.power := rfl
@[simp] theorem countTongue_health (i n : Nat) : (countTongue i n s).health = s.health := rfl
@[simp] theorem countTongue_snap (i n : Nat) : (countTongue i n s).snap = s.snap := rfl
@[simp] theorem countTongue_evt (i n : Nat) : (countTongue i n s).evt = s.evt := rfl
@[simp] theorem countTongue_ctl (i n : Nat) : (countTongue i n s).ctl = s.ctl := rfl
@[simp] theorem countTongue_kst (i n : Nat) : (countTongue i n s).kst = s.kst := rfl
@[simp] theorem countTongue_vault (i n : Nat) : (countTongue i n s).vault = s.vault := rfl
@[simp] theorem countTongue_mem (i n : Nat) : (countTongue i n s).mem = s.mem := rfl
@[simp] theorem countTongue_stack (i n : Nat) : (countTongue i n s).stack = s.stack := rfl
@[simp] theorem countTongue_image (i n : Nat) : (countTongue i n s).image = s.image := rfl
@[simp] theorem countTongue_step (i n : Nat) : (countTongue i n s).step = s.step := rfl
@[simp] theorem countTongue_stepk (i n : Nat) : (countTongue i n s).stepk = s.stepk := rfl
@[simp] theorem countTongue_lscale (i n : Nat) : (countTongue i n s).lscale = s.lscale := rfl
@[simp] theorem countTongue_aux (i n : Nat) : (countTongue i n s).aux = s.aux := rfl
@[simp] theorem countTongue_ttab (i n : Nat) : (countTongue i n s).ttab = s.ttab := rfl
@[simp] theorem countTongue_swp (i n : Nat) : (countTongue i n s).swp = s.swp := rfl
@[simp] theorem countTongue_sweep (i n : Nat) : (countTongue i n s).sweep = s.sweep := rfl
@[simp] theorem countTongue_fab (i n : Nat) : (countTongue i n s).fab = s.fab := rfl
@[simp] theorem countTongue_tongue (i n : Nat) : (countTongue i n s).tongue = { s.tongue with cnt := bump s.tongue.cnt i n } := rfl
@[simp] theorem countTongue_memb (i n : Nat) : (countTongue i n s).memb = s.memb := rfl
@[simp] theorem countTongue_verdict (i n : Nat) : (countTongue i n s).verdict = s.verdict := rfl
@[simp] theorem countTongue_hier (i n : Nat) : (countTongue i n s).hier = s.hier := rfl
@[simp] theorem countTongue_lease (i n : Nat) : (countTongue i n s).lease = s.lease := rfl
@[simp] theorem countTongue_strm (i n : Nat) : (countTongue i n s).strm = s.strm := rfl
@[simp] theorem countTongue_pond (i n : Nat) : (countTongue i n s).pond = s.pond := rfl
@[simp] theorem countTongue_queues (i n : Nat) : (countTongue i n s).queues = s.queues := rfl
@[simp] theorem countTongue_xch (i n : Nat) : (countTongue i n s).xch = s.xch := rfl
@[simp] theorem countTongue_far (i n : Nat) : (countTongue i n s).far = s.far := rfl
@[simp] theorem countTongue_rng (i n : Nat) : (countTongue i n s).rng = s.rng := rfl
@[simp] theorem countTongue_east (i n : Nat) : (countTongue i n s).east = s.east := rfl
@[simp] theorem countTongue_west (i n : Nat) : (countTongue i n s).west = s.west := rfl
@[simp] theorem countTongue_ring (i n : Nat) : (countTongue i n s).ring = s.ring := rfl
@[simp] theorem countTongue_fmp (i n : Nat) : (countTongue i n s).fmp = s.fmp := rfl
@[simp] theorem countTongue_test (i n : Nat) : (countTongue i n s).test = s.test := rfl
@[simp] theorem countTongue_freeCtr (i n : Nat) : (countTongue i n s).freeCtr = s.freeCtr := rfl
@[simp] theorem countTongue_pending (i n : Nat) : (countTongue i n s).pending = s.pending := rfl

/-! ### countHier -/

@[simp] theorem countHier_clk (i n : Nat) : (countHier i n s).clk = s.clk := rfl
@[simp] theorem countHier_boot (i n : Nat) : (countHier i n s).boot = s.boot := rfl
@[simp] theorem countHier_power (i n : Nat) : (countHier i n s).power = s.power := rfl
@[simp] theorem countHier_health (i n : Nat) : (countHier i n s).health = s.health := rfl
@[simp] theorem countHier_snap (i n : Nat) : (countHier i n s).snap = s.snap := rfl
@[simp] theorem countHier_evt (i n : Nat) : (countHier i n s).evt = s.evt := rfl
@[simp] theorem countHier_ctl (i n : Nat) : (countHier i n s).ctl = s.ctl := rfl
@[simp] theorem countHier_kst (i n : Nat) : (countHier i n s).kst = s.kst := rfl
@[simp] theorem countHier_vault (i n : Nat) : (countHier i n s).vault = s.vault := rfl
@[simp] theorem countHier_mem (i n : Nat) : (countHier i n s).mem = s.mem := rfl
@[simp] theorem countHier_stack (i n : Nat) : (countHier i n s).stack = s.stack := rfl
@[simp] theorem countHier_image (i n : Nat) : (countHier i n s).image = s.image := rfl
@[simp] theorem countHier_step (i n : Nat) : (countHier i n s).step = s.step := rfl
@[simp] theorem countHier_stepk (i n : Nat) : (countHier i n s).stepk = s.stepk := rfl
@[simp] theorem countHier_lscale (i n : Nat) : (countHier i n s).lscale = s.lscale := rfl
@[simp] theorem countHier_aux (i n : Nat) : (countHier i n s).aux = s.aux := rfl
@[simp] theorem countHier_ttab (i n : Nat) : (countHier i n s).ttab = s.ttab := rfl
@[simp] theorem countHier_swp (i n : Nat) : (countHier i n s).swp = s.swp := rfl
@[simp] theorem countHier_sweep (i n : Nat) : (countHier i n s).sweep = s.sweep := rfl
@[simp] theorem countHier_fab (i n : Nat) : (countHier i n s).fab = s.fab := rfl
@[simp] theorem countHier_tongue (i n : Nat) : (countHier i n s).tongue = s.tongue := rfl
@[simp] theorem countHier_memb (i n : Nat) : (countHier i n s).memb = s.memb := rfl
@[simp] theorem countHier_verdict (i n : Nat) : (countHier i n s).verdict = s.verdict := rfl
@[simp] theorem countHier_hier (i n : Nat) : (countHier i n s).hier = { s.hier with cnt := bump s.hier.cnt i n } := rfl
@[simp] theorem countHier_lease (i n : Nat) : (countHier i n s).lease = s.lease := rfl
@[simp] theorem countHier_strm (i n : Nat) : (countHier i n s).strm = s.strm := rfl
@[simp] theorem countHier_pond (i n : Nat) : (countHier i n s).pond = s.pond := rfl
@[simp] theorem countHier_queues (i n : Nat) : (countHier i n s).queues = s.queues := rfl
@[simp] theorem countHier_xch (i n : Nat) : (countHier i n s).xch = s.xch := rfl
@[simp] theorem countHier_far (i n : Nat) : (countHier i n s).far = s.far := rfl
@[simp] theorem countHier_rng (i n : Nat) : (countHier i n s).rng = s.rng := rfl
@[simp] theorem countHier_east (i n : Nat) : (countHier i n s).east = s.east := rfl
@[simp] theorem countHier_west (i n : Nat) : (countHier i n s).west = s.west := rfl
@[simp] theorem countHier_ring (i n : Nat) : (countHier i n s).ring = s.ring := rfl
@[simp] theorem countHier_fmp (i n : Nat) : (countHier i n s).fmp = s.fmp := rfl
@[simp] theorem countHier_test (i n : Nat) : (countHier i n s).test = s.test := rfl
@[simp] theorem countHier_freeCtr (i n : Nat) : (countHier i n s).freeCtr = s.freeCtr := rfl
@[simp] theorem countHier_pending (i n : Nat) : (countHier i n s).pending = s.pending := rfl

/-! ### countStrm -/

@[simp] theorem countStrm_clk (i n : Nat) : (countStrm i n s).clk = s.clk := rfl
@[simp] theorem countStrm_boot (i n : Nat) : (countStrm i n s).boot = s.boot := rfl
@[simp] theorem countStrm_power (i n : Nat) : (countStrm i n s).power = s.power := rfl
@[simp] theorem countStrm_health (i n : Nat) : (countStrm i n s).health = s.health := rfl
@[simp] theorem countStrm_snap (i n : Nat) : (countStrm i n s).snap = s.snap := rfl
@[simp] theorem countStrm_evt (i n : Nat) : (countStrm i n s).evt = s.evt := rfl
@[simp] theorem countStrm_ctl (i n : Nat) : (countStrm i n s).ctl = s.ctl := rfl
@[simp] theorem countStrm_kst (i n : Nat) : (countStrm i n s).kst = s.kst := rfl
@[simp] theorem countStrm_vault (i n : Nat) : (countStrm i n s).vault = s.vault := rfl
@[simp] theorem countStrm_mem (i n : Nat) : (countStrm i n s).mem = s.mem := rfl
@[simp] theorem countStrm_stack (i n : Nat) : (countStrm i n s).stack = s.stack := rfl
@[simp] theorem countStrm_image (i n : Nat) : (countStrm i n s).image = s.image := rfl
@[simp] theorem countStrm_step (i n : Nat) : (countStrm i n s).step = s.step := rfl
@[simp] theorem countStrm_stepk (i n : Nat) : (countStrm i n s).stepk = s.stepk := rfl
@[simp] theorem countStrm_lscale (i n : Nat) : (countStrm i n s).lscale = s.lscale := rfl
@[simp] theorem countStrm_aux (i n : Nat) : (countStrm i n s).aux = s.aux := rfl
@[simp] theorem countStrm_ttab (i n : Nat) : (countStrm i n s).ttab = s.ttab := rfl
@[simp] theorem countStrm_swp (i n : Nat) : (countStrm i n s).swp = s.swp := rfl
@[simp] theorem countStrm_sweep (i n : Nat) : (countStrm i n s).sweep = s.sweep := rfl
@[simp] theorem countStrm_fab (i n : Nat) : (countStrm i n s).fab = s.fab := rfl
@[simp] theorem countStrm_tongue (i n : Nat) : (countStrm i n s).tongue = s.tongue := rfl
@[simp] theorem countStrm_memb (i n : Nat) : (countStrm i n s).memb = s.memb := rfl
@[simp] theorem countStrm_verdict (i n : Nat) : (countStrm i n s).verdict = s.verdict := rfl
@[simp] theorem countStrm_hier (i n : Nat) : (countStrm i n s).hier = s.hier := rfl
@[simp] theorem countStrm_lease (i n : Nat) : (countStrm i n s).lease = s.lease := rfl
@[simp] theorem countStrm_strm (i n : Nat) : (countStrm i n s).strm = { s.strm with cnt := bump s.strm.cnt i n } := rfl
@[simp] theorem countStrm_pond (i n : Nat) : (countStrm i n s).pond = s.pond := rfl
@[simp] theorem countStrm_queues (i n : Nat) : (countStrm i n s).queues = s.queues := rfl
@[simp] theorem countStrm_xch (i n : Nat) : (countStrm i n s).xch = s.xch := rfl
@[simp] theorem countStrm_far (i n : Nat) : (countStrm i n s).far = s.far := rfl
@[simp] theorem countStrm_rng (i n : Nat) : (countStrm i n s).rng = s.rng := rfl
@[simp] theorem countStrm_east (i n : Nat) : (countStrm i n s).east = s.east := rfl
@[simp] theorem countStrm_west (i n : Nat) : (countStrm i n s).west = s.west := rfl
@[simp] theorem countStrm_ring (i n : Nat) : (countStrm i n s).ring = s.ring := rfl
@[simp] theorem countStrm_fmp (i n : Nat) : (countStrm i n s).fmp = s.fmp := rfl
@[simp] theorem countStrm_test (i n : Nat) : (countStrm i n s).test = s.test := rfl
@[simp] theorem countStrm_freeCtr (i n : Nat) : (countStrm i n s).freeCtr = s.freeCtr := rfl
@[simp] theorem countStrm_pending (i n : Nat) : (countStrm i n s).pending = s.pending := rfl

/-! ### countXch -/

@[simp] theorem countXch_clk (i n : Nat) : (countXch i n s).clk = s.clk := rfl
@[simp] theorem countXch_boot (i n : Nat) : (countXch i n s).boot = s.boot := rfl
@[simp] theorem countXch_power (i n : Nat) : (countXch i n s).power = s.power := rfl
@[simp] theorem countXch_health (i n : Nat) : (countXch i n s).health = s.health := rfl
@[simp] theorem countXch_snap (i n : Nat) : (countXch i n s).snap = s.snap := rfl
@[simp] theorem countXch_evt (i n : Nat) : (countXch i n s).evt = s.evt := rfl
@[simp] theorem countXch_ctl (i n : Nat) : (countXch i n s).ctl = s.ctl := rfl
@[simp] theorem countXch_kst (i n : Nat) : (countXch i n s).kst = s.kst := rfl
@[simp] theorem countXch_vault (i n : Nat) : (countXch i n s).vault = s.vault := rfl
@[simp] theorem countXch_mem (i n : Nat) : (countXch i n s).mem = s.mem := rfl
@[simp] theorem countXch_stack (i n : Nat) : (countXch i n s).stack = s.stack := rfl
@[simp] theorem countXch_image (i n : Nat) : (countXch i n s).image = s.image := rfl
@[simp] theorem countXch_step (i n : Nat) : (countXch i n s).step = s.step := rfl
@[simp] theorem countXch_stepk (i n : Nat) : (countXch i n s).stepk = s.stepk := rfl
@[simp] theorem countXch_lscale (i n : Nat) : (countXch i n s).lscale = s.lscale := rfl
@[simp] theorem countXch_aux (i n : Nat) : (countXch i n s).aux = s.aux := rfl
@[simp] theorem countXch_ttab (i n : Nat) : (countXch i n s).ttab = s.ttab := rfl
@[simp] theorem countXch_swp (i n : Nat) : (countXch i n s).swp = s.swp := rfl
@[simp] theorem countXch_sweep (i n : Nat) : (countXch i n s).sweep = s.sweep := rfl
@[simp] theorem countXch_fab (i n : Nat) : (countXch i n s).fab = s.fab := rfl
@[simp] theorem countXch_tongue (i n : Nat) : (countXch i n s).tongue = s.tongue := rfl
@[simp] theorem countXch_memb (i n : Nat) : (countXch i n s).memb = s.memb := rfl
@[simp] theorem countXch_verdict (i n : Nat) : (countXch i n s).verdict = s.verdict := rfl
@[simp] theorem countXch_hier (i n : Nat) : (countXch i n s).hier = s.hier := rfl
@[simp] theorem countXch_lease (i n : Nat) : (countXch i n s).lease = s.lease := rfl
@[simp] theorem countXch_strm (i n : Nat) : (countXch i n s).strm = s.strm := rfl
@[simp] theorem countXch_pond (i n : Nat) : (countXch i n s).pond = s.pond := rfl
@[simp] theorem countXch_queues (i n : Nat) : (countXch i n s).queues = s.queues := rfl
@[simp] theorem countXch_xch (i n : Nat) : (countXch i n s).xch = { s.xch with cnt := bump s.xch.cnt i n } := rfl
@[simp] theorem countXch_far (i n : Nat) : (countXch i n s).far = s.far := rfl
@[simp] theorem countXch_rng (i n : Nat) : (countXch i n s).rng = s.rng := rfl
@[simp] theorem countXch_east (i n : Nat) : (countXch i n s).east = s.east := rfl
@[simp] theorem countXch_west (i n : Nat) : (countXch i n s).west = s.west := rfl
@[simp] theorem countXch_ring (i n : Nat) : (countXch i n s).ring = s.ring := rfl
@[simp] theorem countXch_fmp (i n : Nat) : (countXch i n s).fmp = s.fmp := rfl
@[simp] theorem countXch_test (i n : Nat) : (countXch i n s).test = s.test := rfl
@[simp] theorem countXch_freeCtr (i n : Nat) : (countXch i n s).freeCtr = s.freeCtr := rfl
@[simp] theorem countXch_pending (i n : Nat) : (countXch i n s).pending = s.pending := rfl

/-! ### countPort -/

@[simp] theorem countPort_clk (i n : Nat) : (countPort i n s).clk = s.clk := rfl
@[simp] theorem countPort_boot (i n : Nat) : (countPort i n s).boot = s.boot := rfl
@[simp] theorem countPort_power (i n : Nat) : (countPort i n s).power = s.power := rfl
@[simp] theorem countPort_health (i n : Nat) : (countPort i n s).health = s.health := rfl
@[simp] theorem countPort_snap (i n : Nat) : (countPort i n s).snap = s.snap := rfl
@[simp] theorem countPort_evt (i n : Nat) : (countPort i n s).evt = s.evt := rfl
@[simp] theorem countPort_ctl (i n : Nat) : (countPort i n s).ctl = s.ctl := rfl
@[simp] theorem countPort_kst (i n : Nat) : (countPort i n s).kst = s.kst := rfl
@[simp] theorem countPort_vault (i n : Nat) : (countPort i n s).vault = s.vault := rfl
@[simp] theorem countPort_mem (i n : Nat) : (countPort i n s).mem = s.mem := rfl
@[simp] theorem countPort_stack (i n : Nat) : (countPort i n s).stack = s.stack := rfl
@[simp] theorem countPort_image (i n : Nat) : (countPort i n s).image = s.image := rfl
@[simp] theorem countPort_step (i n : Nat) : (countPort i n s).step = s.step := rfl
@[simp] theorem countPort_stepk (i n : Nat) : (countPort i n s).stepk = s.stepk := rfl
@[simp] theorem countPort_lscale (i n : Nat) : (countPort i n s).lscale = s.lscale := rfl
@[simp] theorem countPort_aux (i n : Nat) : (countPort i n s).aux = s.aux := rfl
@[simp] theorem countPort_ttab (i n : Nat) : (countPort i n s).ttab = s.ttab := rfl
@[simp] theorem countPort_swp (i n : Nat) : (countPort i n s).swp = s.swp := rfl
@[simp] theorem countPort_sweep (i n : Nat) : (countPort i n s).sweep = s.sweep := rfl
@[simp] theorem countPort_fab (i n : Nat) : (countPort i n s).fab = s.fab := rfl
@[simp] theorem countPort_tongue (i n : Nat) : (countPort i n s).tongue = s.tongue := rfl
@[simp] theorem countPort_memb (i n : Nat) : (countPort i n s).memb = s.memb := rfl
@[simp] theorem countPort_verdict (i n : Nat) : (countPort i n s).verdict = s.verdict := rfl
@[simp] theorem countPort_hier (i n : Nat) : (countPort i n s).hier = s.hier := rfl
@[simp] theorem countPort_lease (i n : Nat) : (countPort i n s).lease = s.lease := rfl
@[simp] theorem countPort_strm (i n : Nat) : (countPort i n s).strm = s.strm := rfl
@[simp] theorem countPort_pond (i n : Nat) : (countPort i n s).pond = s.pond := rfl
@[simp] theorem countPort_queues (i n : Nat) : (countPort i n s).queues = s.queues := rfl
@[simp] theorem countPort_xch (i n : Nat) : (countPort i n s).xch = s.xch := rfl
@[simp] theorem countPort_far (i n : Nat) : (countPort i n s).far = { s.far with cnt := bump s.far.cnt i n } := rfl
@[simp] theorem countPort_rng (i n : Nat) : (countPort i n s).rng = s.rng := rfl
@[simp] theorem countPort_east (i n : Nat) : (countPort i n s).east = s.east := rfl
@[simp] theorem countPort_west (i n : Nat) : (countPort i n s).west = s.west := rfl
@[simp] theorem countPort_ring (i n : Nat) : (countPort i n s).ring = s.ring := rfl
@[simp] theorem countPort_fmp (i n : Nat) : (countPort i n s).fmp = s.fmp := rfl
@[simp] theorem countPort_test (i n : Nat) : (countPort i n s).test = s.test := rfl
@[simp] theorem countPort_freeCtr (i n : Nat) : (countPort i n s).freeCtr = s.freeCtr := rfl
@[simp] theorem countPort_pending (i n : Nat) : (countPort i n s).pending = s.pending := rfl

/-! ### countRng -/

@[simp] theorem countRng_clk (i n : Nat) : (countRng i n s).clk = s.clk := rfl
@[simp] theorem countRng_boot (i n : Nat) : (countRng i n s).boot = s.boot := rfl
@[simp] theorem countRng_power (i n : Nat) : (countRng i n s).power = s.power := rfl
@[simp] theorem countRng_health (i n : Nat) : (countRng i n s).health = s.health := rfl
@[simp] theorem countRng_snap (i n : Nat) : (countRng i n s).snap = s.snap := rfl
@[simp] theorem countRng_evt (i n : Nat) : (countRng i n s).evt = s.evt := rfl
@[simp] theorem countRng_ctl (i n : Nat) : (countRng i n s).ctl = s.ctl := rfl
@[simp] theorem countRng_kst (i n : Nat) : (countRng i n s).kst = s.kst := rfl
@[simp] theorem countRng_vault (i n : Nat) : (countRng i n s).vault = s.vault := rfl
@[simp] theorem countRng_mem (i n : Nat) : (countRng i n s).mem = s.mem := rfl
@[simp] theorem countRng_stack (i n : Nat) : (countRng i n s).stack = s.stack := rfl
@[simp] theorem countRng_image (i n : Nat) : (countRng i n s).image = s.image := rfl
@[simp] theorem countRng_step (i n : Nat) : (countRng i n s).step = s.step := rfl
@[simp] theorem countRng_stepk (i n : Nat) : (countRng i n s).stepk = s.stepk := rfl
@[simp] theorem countRng_lscale (i n : Nat) : (countRng i n s).lscale = s.lscale := rfl
@[simp] theorem countRng_aux (i n : Nat) : (countRng i n s).aux = s.aux := rfl
@[simp] theorem countRng_ttab (i n : Nat) : (countRng i n s).ttab = s.ttab := rfl
@[simp] theorem countRng_swp (i n : Nat) : (countRng i n s).swp = s.swp := rfl
@[simp] theorem countRng_sweep (i n : Nat) : (countRng i n s).sweep = s.sweep := rfl
@[simp] theorem countRng_fab (i n : Nat) : (countRng i n s).fab = s.fab := rfl
@[simp] theorem countRng_tongue (i n : Nat) : (countRng i n s).tongue = s.tongue := rfl
@[simp] theorem countRng_memb (i n : Nat) : (countRng i n s).memb = s.memb := rfl
@[simp] theorem countRng_verdict (i n : Nat) : (countRng i n s).verdict = s.verdict := rfl
@[simp] theorem countRng_hier (i n : Nat) : (countRng i n s).hier = s.hier := rfl
@[simp] theorem countRng_lease (i n : Nat) : (countRng i n s).lease = s.lease := rfl
@[simp] theorem countRng_strm (i n : Nat) : (countRng i n s).strm = s.strm := rfl
@[simp] theorem countRng_pond (i n : Nat) : (countRng i n s).pond = s.pond := rfl
@[simp] theorem countRng_queues (i n : Nat) : (countRng i n s).queues = s.queues := rfl
@[simp] theorem countRng_xch (i n : Nat) : (countRng i n s).xch = s.xch := rfl
@[simp] theorem countRng_far (i n : Nat) : (countRng i n s).far = s.far := rfl
@[simp] theorem countRng_rng (i n : Nat) : (countRng i n s).rng = { s.rng with cnt := bump s.rng.cnt i n } := rfl
@[simp] theorem countRng_east (i n : Nat) : (countRng i n s).east = s.east := rfl
@[simp] theorem countRng_west (i n : Nat) : (countRng i n s).west = s.west := rfl
@[simp] theorem countRng_ring (i n : Nat) : (countRng i n s).ring = s.ring := rfl
@[simp] theorem countRng_fmp (i n : Nat) : (countRng i n s).fmp = s.fmp := rfl
@[simp] theorem countRng_test (i n : Nat) : (countRng i n s).test = s.test := rfl
@[simp] theorem countRng_freeCtr (i n : Nat) : (countRng i n s).freeCtr = s.freeCtr := rfl
@[simp] theorem countRng_pending (i n : Nat) : (countRng i n s).pending = s.pending := rfl

/-! ### countFmp -/

@[simp] theorem countFmp_clk (i n : Nat) : (countFmp i n s).clk = s.clk := rfl
@[simp] theorem countFmp_boot (i n : Nat) : (countFmp i n s).boot = s.boot := rfl
@[simp] theorem countFmp_power (i n : Nat) : (countFmp i n s).power = s.power := rfl
@[simp] theorem countFmp_health (i n : Nat) : (countFmp i n s).health = s.health := rfl
@[simp] theorem countFmp_snap (i n : Nat) : (countFmp i n s).snap = s.snap := rfl
@[simp] theorem countFmp_evt (i n : Nat) : (countFmp i n s).evt = s.evt := rfl
@[simp] theorem countFmp_ctl (i n : Nat) : (countFmp i n s).ctl = s.ctl := rfl
@[simp] theorem countFmp_kst (i n : Nat) : (countFmp i n s).kst = s.kst := rfl
@[simp] theorem countFmp_vault (i n : Nat) : (countFmp i n s).vault = s.vault := rfl
@[simp] theorem countFmp_mem (i n : Nat) : (countFmp i n s).mem = s.mem := rfl
@[simp] theorem countFmp_stack (i n : Nat) : (countFmp i n s).stack = s.stack := rfl
@[simp] theorem countFmp_image (i n : Nat) : (countFmp i n s).image = s.image := rfl
@[simp] theorem countFmp_step (i n : Nat) : (countFmp i n s).step = s.step := rfl
@[simp] theorem countFmp_stepk (i n : Nat) : (countFmp i n s).stepk = s.stepk := rfl
@[simp] theorem countFmp_lscale (i n : Nat) : (countFmp i n s).lscale = s.lscale := rfl
@[simp] theorem countFmp_aux (i n : Nat) : (countFmp i n s).aux = s.aux := rfl
@[simp] theorem countFmp_ttab (i n : Nat) : (countFmp i n s).ttab = s.ttab := rfl
@[simp] theorem countFmp_swp (i n : Nat) : (countFmp i n s).swp = s.swp := rfl
@[simp] theorem countFmp_sweep (i n : Nat) : (countFmp i n s).sweep = s.sweep := rfl
@[simp] theorem countFmp_fab (i n : Nat) : (countFmp i n s).fab = s.fab := rfl
@[simp] theorem countFmp_tongue (i n : Nat) : (countFmp i n s).tongue = s.tongue := rfl
@[simp] theorem countFmp_memb (i n : Nat) : (countFmp i n s).memb = s.memb := rfl
@[simp] theorem countFmp_verdict (i n : Nat) : (countFmp i n s).verdict = s.verdict := rfl
@[simp] theorem countFmp_hier (i n : Nat) : (countFmp i n s).hier = s.hier := rfl
@[simp] theorem countFmp_lease (i n : Nat) : (countFmp i n s).lease = s.lease := rfl
@[simp] theorem countFmp_strm (i n : Nat) : (countFmp i n s).strm = s.strm := rfl
@[simp] theorem countFmp_pond (i n : Nat) : (countFmp i n s).pond = s.pond := rfl
@[simp] theorem countFmp_queues (i n : Nat) : (countFmp i n s).queues = s.queues := rfl
@[simp] theorem countFmp_xch (i n : Nat) : (countFmp i n s).xch = s.xch := rfl
@[simp] theorem countFmp_far (i n : Nat) : (countFmp i n s).far = s.far := rfl
@[simp] theorem countFmp_rng (i n : Nat) : (countFmp i n s).rng = s.rng := rfl
@[simp] theorem countFmp_east (i n : Nat) : (countFmp i n s).east = s.east := rfl
@[simp] theorem countFmp_west (i n : Nat) : (countFmp i n s).west = s.west := rfl
@[simp] theorem countFmp_ring (i n : Nat) : (countFmp i n s).ring = s.ring := rfl
@[simp] theorem countFmp_fmp (i n : Nat) : (countFmp i n s).fmp = { s.fmp with cnt := bump s.fmp.cnt i n } := rfl
@[simp] theorem countFmp_test (i n : Nat) : (countFmp i n s).test = s.test := rfl
@[simp] theorem countFmp_freeCtr (i n : Nat) : (countFmp i n s).freeCtr = s.freeCtr := rfl
@[simp] theorem countFmp_pending (i n : Nat) : (countFmp i n s).pending = s.pending := rfl

/-! ### countHealth -/

@[simp] theorem countHealth_clk (i n : Nat) : (countHealth i n s).clk = s.clk := rfl
@[simp] theorem countHealth_boot (i n : Nat) : (countHealth i n s).boot = s.boot := rfl
@[simp] theorem countHealth_power (i n : Nat) : (countHealth i n s).power = s.power := rfl
@[simp] theorem countHealth_health (i n : Nat) : (countHealth i n s).health = { s.health with cnt := bump s.health.cnt i n } := rfl
@[simp] theorem countHealth_snap (i n : Nat) : (countHealth i n s).snap = s.snap := rfl
@[simp] theorem countHealth_evt (i n : Nat) : (countHealth i n s).evt = s.evt := rfl
@[simp] theorem countHealth_ctl (i n : Nat) : (countHealth i n s).ctl = s.ctl := rfl
@[simp] theorem countHealth_kst (i n : Nat) : (countHealth i n s).kst = s.kst := rfl
@[simp] theorem countHealth_vault (i n : Nat) : (countHealth i n s).vault = s.vault := rfl
@[simp] theorem countHealth_mem (i n : Nat) : (countHealth i n s).mem = s.mem := rfl
@[simp] theorem countHealth_stack (i n : Nat) : (countHealth i n s).stack = s.stack := rfl
@[simp] theorem countHealth_image (i n : Nat) : (countHealth i n s).image = s.image := rfl
@[simp] theorem countHealth_step (i n : Nat) : (countHealth i n s).step = s.step := rfl
@[simp] theorem countHealth_stepk (i n : Nat) : (countHealth i n s).stepk = s.stepk := rfl
@[simp] theorem countHealth_lscale (i n : Nat) : (countHealth i n s).lscale = s.lscale := rfl
@[simp] theorem countHealth_aux (i n : Nat) : (countHealth i n s).aux = s.aux := rfl
@[simp] theorem countHealth_ttab (i n : Nat) : (countHealth i n s).ttab = s.ttab := rfl
@[simp] theorem countHealth_swp (i n : Nat) : (countHealth i n s).swp = s.swp := rfl
@[simp] theorem countHealth_sweep (i n : Nat) : (countHealth i n s).sweep = s.sweep := rfl
@[simp] theorem countHealth_fab (i n : Nat) : (countHealth i n s).fab = s.fab := rfl
@[simp] theorem countHealth_tongue (i n : Nat) : (countHealth i n s).tongue = s.tongue := rfl
@[simp] theorem countHealth_memb (i n : Nat) : (countHealth i n s).memb = s.memb := rfl
@[simp] theorem countHealth_verdict (i n : Nat) : (countHealth i n s).verdict = s.verdict := rfl
@[simp] theorem countHealth_hier (i n : Nat) : (countHealth i n s).hier = s.hier := rfl
@[simp] theorem countHealth_lease (i n : Nat) : (countHealth i n s).lease = s.lease := rfl
@[simp] theorem countHealth_strm (i n : Nat) : (countHealth i n s).strm = s.strm := rfl
@[simp] theorem countHealth_pond (i n : Nat) : (countHealth i n s).pond = s.pond := rfl
@[simp] theorem countHealth_queues (i n : Nat) : (countHealth i n s).queues = s.queues := rfl
@[simp] theorem countHealth_xch (i n : Nat) : (countHealth i n s).xch = s.xch := rfl
@[simp] theorem countHealth_far (i n : Nat) : (countHealth i n s).far = s.far := rfl
@[simp] theorem countHealth_rng (i n : Nat) : (countHealth i n s).rng = s.rng := rfl
@[simp] theorem countHealth_east (i n : Nat) : (countHealth i n s).east = s.east := rfl
@[simp] theorem countHealth_west (i n : Nat) : (countHealth i n s).west = s.west := rfl
@[simp] theorem countHealth_ring (i n : Nat) : (countHealth i n s).ring = s.ring := rfl
@[simp] theorem countHealth_fmp (i n : Nat) : (countHealth i n s).fmp = s.fmp := rfl
@[simp] theorem countHealth_test (i n : Nat) : (countHealth i n s).test = s.test := rfl
@[simp] theorem countHealth_freeCtr (i n : Nat) : (countHealth i n s).freeCtr = s.freeCtr := rfl
@[simp] theorem countHealth_pending (i n : Nat) : (countHealth i n s).pending = s.pending := rfl

/-! ### respond -/

@[simp] theorem respond_clk (code : BitVec 8) : (respond code s).clk = s.clk := rfl
@[simp] theorem respond_boot (code : BitVec 8) : (respond code s).boot = s.boot := rfl
@[simp] theorem respond_power (code : BitVec 8) : (respond code s).power = s.power := rfl
@[simp] theorem respond_health (code : BitVec 8) : (respond code s).health = s.health := rfl
@[simp] theorem respond_snap (code : BitVec 8) : (respond code s).snap = s.snap := rfl
@[simp] theorem respond_evt (code : BitVec 8) : (respond code s).evt = s.evt := rfl
@[simp] theorem respond_ctl (code : BitVec 8) : (respond code s).ctl = { rsp := some code } := rfl
@[simp] theorem respond_kst (code : BitVec 8) : (respond code s).kst = s.kst := rfl
@[simp] theorem respond_vault (code : BitVec 8) : (respond code s).vault = s.vault := rfl
@[simp] theorem respond_mem (code : BitVec 8) : (respond code s).mem = s.mem := rfl
@[simp] theorem respond_stack (code : BitVec 8) : (respond code s).stack = s.stack := rfl
@[simp] theorem respond_image (code : BitVec 8) : (respond code s).image = s.image := rfl
@[simp] theorem respond_step (code : BitVec 8) : (respond code s).step = s.step := rfl
@[simp] theorem respond_stepk (code : BitVec 8) : (respond code s).stepk = s.stepk := rfl
@[simp] theorem respond_lscale (code : BitVec 8) : (respond code s).lscale = s.lscale := rfl
@[simp] theorem respond_aux (code : BitVec 8) : (respond code s).aux = s.aux := rfl
@[simp] theorem respond_ttab (code : BitVec 8) : (respond code s).ttab = s.ttab := rfl
@[simp] theorem respond_swp (code : BitVec 8) : (respond code s).swp = s.swp := rfl
@[simp] theorem respond_sweep (code : BitVec 8) : (respond code s).sweep = s.sweep := rfl
@[simp] theorem respond_fab (code : BitVec 8) : (respond code s).fab = s.fab := rfl
@[simp] theorem respond_tongue (code : BitVec 8) : (respond code s).tongue = s.tongue := rfl
@[simp] theorem respond_memb (code : BitVec 8) : (respond code s).memb = s.memb := rfl
@[simp] theorem respond_verdict (code : BitVec 8) : (respond code s).verdict = s.verdict := rfl
@[simp] theorem respond_hier (code : BitVec 8) : (respond code s).hier = s.hier := rfl
@[simp] theorem respond_lease (code : BitVec 8) : (respond code s).lease = s.lease := rfl
@[simp] theorem respond_strm (code : BitVec 8) : (respond code s).strm = s.strm := rfl
@[simp] theorem respond_pond (code : BitVec 8) : (respond code s).pond = s.pond := rfl
@[simp] theorem respond_queues (code : BitVec 8) : (respond code s).queues = s.queues := rfl
@[simp] theorem respond_xch (code : BitVec 8) : (respond code s).xch = s.xch := rfl
@[simp] theorem respond_far (code : BitVec 8) : (respond code s).far = s.far := rfl
@[simp] theorem respond_rng (code : BitVec 8) : (respond code s).rng = s.rng := rfl
@[simp] theorem respond_east (code : BitVec 8) : (respond code s).east = s.east := rfl
@[simp] theorem respond_west (code : BitVec 8) : (respond code s).west = s.west := rfl
@[simp] theorem respond_ring (code : BitVec 8) : (respond code s).ring = s.ring := rfl
@[simp] theorem respond_fmp (code : BitVec 8) : (respond code s).fmp = s.fmp := rfl
@[simp] theorem respond_test (code : BitVec 8) : (respond code s).test = s.test := rfl
@[simp] theorem respond_freeCtr (code : BitVec 8) : (respond code s).freeCtr = s.freeCtr := rfl
@[simp] theorem respond_pending (code : BitVec 8) : (respond code s).pending = s.pending := rfl

/-! ### unmapped -/

@[simp] theorem unmapped_clk : (unmapped s).clk = s.clk := rfl
@[simp] theorem unmapped_boot : (unmapped s).boot = s.boot := rfl
@[simp] theorem unmapped_power : (unmapped s).power = s.power := rfl
@[simp] theorem unmapped_health : (unmapped s).health = s.health := rfl
@[simp] theorem unmapped_snap : (unmapped s).snap = s.snap := rfl
@[simp] theorem unmapped_evt : (unmapped s).evt = s.evt := rfl
@[simp] theorem unmapped_ctl : (unmapped s).ctl = { rsp := some 0x05 } := rfl
@[simp] theorem unmapped_kst : (unmapped s).kst = s.kst := rfl
@[simp] theorem unmapped_vault : (unmapped s).vault = s.vault := rfl
@[simp] theorem unmapped_mem : (unmapped s).mem = s.mem := rfl
@[simp] theorem unmapped_stack : (unmapped s).stack = s.stack := rfl
@[simp] theorem unmapped_image : (unmapped s).image = s.image := rfl
@[simp] theorem unmapped_step : (unmapped s).step = s.step := rfl
@[simp] theorem unmapped_stepk : (unmapped s).stepk = s.stepk := rfl
@[simp] theorem unmapped_lscale : (unmapped s).lscale = s.lscale := rfl
@[simp] theorem unmapped_aux : (unmapped s).aux = s.aux := rfl
@[simp] theorem unmapped_ttab : (unmapped s).ttab = s.ttab := rfl
@[simp] theorem unmapped_swp : (unmapped s).swp = s.swp := rfl
@[simp] theorem unmapped_sweep : (unmapped s).sweep = s.sweep := rfl
@[simp] theorem unmapped_fab : (unmapped s).fab = s.fab := rfl
@[simp] theorem unmapped_tongue : (unmapped s).tongue = s.tongue := rfl
@[simp] theorem unmapped_memb : (unmapped s).memb = s.memb := rfl
@[simp] theorem unmapped_verdict : (unmapped s).verdict = s.verdict := rfl
@[simp] theorem unmapped_hier : (unmapped s).hier = s.hier := rfl
@[simp] theorem unmapped_lease : (unmapped s).lease = s.lease := rfl
@[simp] theorem unmapped_strm : (unmapped s).strm = s.strm := rfl
@[simp] theorem unmapped_pond : (unmapped s).pond = s.pond := rfl
@[simp] theorem unmapped_queues : (unmapped s).queues = s.queues := rfl
@[simp] theorem unmapped_xch : (unmapped s).xch = s.xch := rfl
@[simp] theorem unmapped_far : (unmapped s).far = { s.far with cnt := bump s.far.cnt 5 1 } := rfl
@[simp] theorem unmapped_rng : (unmapped s).rng = s.rng := rfl
@[simp] theorem unmapped_east : (unmapped s).east = s.east := rfl
@[simp] theorem unmapped_west : (unmapped s).west = s.west := rfl
@[simp] theorem unmapped_ring : (unmapped s).ring = s.ring := rfl
@[simp] theorem unmapped_fmp : (unmapped s).fmp = s.fmp := rfl
@[simp] theorem unmapped_test : (unmapped s).test = s.test := rfl
@[simp] theorem unmapped_freeCtr  : (unmapped s).freeCtr = s.freeCtr := rfl
@[simp] theorem unmapped_pending : (unmapped s).pending = s.pending := rfl

/-! ### report -/

@[simp] theorem report_clk (code : BitVec 16) (arg : Word) : (report code arg s).clk = s.clk := rfl
@[simp] theorem report_boot (code : BitVec 16) (arg : Word) : (report code arg s).boot = s.boot := rfl
@[simp] theorem report_power (code : BitVec 16) (arg : Word) : (report code arg s).power = s.power := rfl
@[simp] theorem report_health (code : BitVec 16) (arg : Word) : (report code arg s).health = { s.health with log := s.health.log.enter (LogEntry.mk
        code (time s) s.step.step s.step.phase.code 0 arg) } := rfl
@[simp] theorem report_snap (code : BitVec 16) (arg : Word) : (report code arg s).snap = s.snap := rfl
@[simp] theorem report_evt (code : BitVec 16) (arg : Word) : (report code arg s).evt = s.evt := rfl
@[simp] theorem report_ctl (code : BitVec 16) (arg : Word) : (report code arg s).ctl = s.ctl := rfl
@[simp] theorem report_kst (code : BitVec 16) (arg : Word) : (report code arg s).kst = s.kst := rfl
@[simp] theorem report_vault (code : BitVec 16) (arg : Word) : (report code arg s).vault = s.vault := rfl
@[simp] theorem report_mem (code : BitVec 16) (arg : Word) : (report code arg s).mem = s.mem := rfl
@[simp] theorem report_stack (code : BitVec 16) (arg : Word) : (report code arg s).stack = s.stack := rfl
@[simp] theorem report_image (code : BitVec 16) (arg : Word) : (report code arg s).image = s.image := rfl
@[simp] theorem report_step (code : BitVec 16) (arg : Word) : (report code arg s).step = s.step := rfl
@[simp] theorem report_stepk (code : BitVec 16) (arg : Word) : (report code arg s).stepk = s.stepk := rfl
@[simp] theorem report_lscale (code : BitVec 16) (arg : Word) : (report code arg s).lscale = s.lscale := rfl
@[simp] theorem report_aux (code : BitVec 16) (arg : Word) : (report code arg s).aux = s.aux := rfl
@[simp] theorem report_ttab (code : BitVec 16) (arg : Word) : (report code arg s).ttab = s.ttab := rfl
@[simp] theorem report_swp (code : BitVec 16) (arg : Word) : (report code arg s).swp = s.swp := rfl
@[simp] theorem report_sweep (code : BitVec 16) (arg : Word) : (report code arg s).sweep = s.sweep := rfl
@[simp] theorem report_fab (code : BitVec 16) (arg : Word) : (report code arg s).fab = s.fab := rfl
@[simp] theorem report_tongue (code : BitVec 16) (arg : Word) : (report code arg s).tongue = s.tongue := rfl
@[simp] theorem report_memb (code : BitVec 16) (arg : Word) : (report code arg s).memb = s.memb := rfl
@[simp] theorem report_verdict (code : BitVec 16) (arg : Word) : (report code arg s).verdict = s.verdict := rfl
@[simp] theorem report_hier (code : BitVec 16) (arg : Word) : (report code arg s).hier = s.hier := rfl
@[simp] theorem report_lease (code : BitVec 16) (arg : Word) : (report code arg s).lease = s.lease := rfl
@[simp] theorem report_strm (code : BitVec 16) (arg : Word) : (report code arg s).strm = s.strm := rfl
@[simp] theorem report_pond (code : BitVec 16) (arg : Word) : (report code arg s).pond = s.pond := rfl
@[simp] theorem report_queues (code : BitVec 16) (arg : Word) : (report code arg s).queues = s.queues := rfl
@[simp] theorem report_xch (code : BitVec 16) (arg : Word) : (report code arg s).xch = s.xch := rfl
@[simp] theorem report_far (code : BitVec 16) (arg : Word) : (report code arg s).far = s.far := rfl
@[simp] theorem report_rng (code : BitVec 16) (arg : Word) : (report code arg s).rng = s.rng := rfl
@[simp] theorem report_east (code : BitVec 16) (arg : Word) : (report code arg s).east = s.east := rfl
@[simp] theorem report_west (code : BitVec 16) (arg : Word) : (report code arg s).west = s.west := rfl
@[simp] theorem report_ring (code : BitVec 16) (arg : Word) : (report code arg s).ring = s.ring := rfl
@[simp] theorem report_fmp (code : BitVec 16) (arg : Word) : (report code arg s).fmp = s.fmp := rfl
@[simp] theorem report_test (code : BitVec 16) (arg : Word) : (report code arg s).test = s.test := rfl
@[simp] theorem report_freeCtr (code : BitVec 16) (arg : Word) : (report code arg s).freeCtr = s.freeCtr := rfl
@[simp] theorem report_pending (code : BitVec 16) (arg : Word) : (report code arg s).pending = s.pending := rfl

/-! ### setMem -/

@[simp] theorem setMem_clk (f : MemPath → MemPath) : (setMem f s).clk = s.clk := rfl
@[simp] theorem setMem_boot (f : MemPath → MemPath) : (setMem f s).boot = s.boot := rfl
@[simp] theorem setMem_power (f : MemPath → MemPath) : (setMem f s).power = s.power := rfl
@[simp] theorem setMem_health (f : MemPath → MemPath) : (setMem f s).health = s.health := rfl
@[simp] theorem setMem_snap (f : MemPath → MemPath) : (setMem f s).snap = s.snap := rfl
@[simp] theorem setMem_evt (f : MemPath → MemPath) : (setMem f s).evt = s.evt := rfl
@[simp] theorem setMem_ctl (f : MemPath → MemPath) : (setMem f s).ctl = s.ctl := rfl
@[simp] theorem setMem_kst (f : MemPath → MemPath) : (setMem f s).kst = s.kst := rfl
@[simp] theorem setMem_vault (f : MemPath → MemPath) : (setMem f s).vault = s.vault := rfl
@[simp] theorem setMem_mem (f : MemPath → MemPath) : (setMem f s).mem = f s.mem := rfl
@[simp] theorem setMem_stack (f : MemPath → MemPath) : (setMem f s).stack = s.stack := rfl
@[simp] theorem setMem_image (f : MemPath → MemPath) : (setMem f s).image = s.image := rfl
@[simp] theorem setMem_step (f : MemPath → MemPath) : (setMem f s).step = s.step := rfl
@[simp] theorem setMem_stepk (f : MemPath → MemPath) : (setMem f s).stepk = s.stepk := rfl
@[simp] theorem setMem_lscale (f : MemPath → MemPath) : (setMem f s).lscale = s.lscale := rfl
@[simp] theorem setMem_aux (f : MemPath → MemPath) : (setMem f s).aux = s.aux := rfl
@[simp] theorem setMem_ttab (f : MemPath → MemPath) : (setMem f s).ttab = s.ttab := rfl
@[simp] theorem setMem_swp (f : MemPath → MemPath) : (setMem f s).swp = s.swp := rfl
@[simp] theorem setMem_sweep (f : MemPath → MemPath) : (setMem f s).sweep = s.sweep := rfl
@[simp] theorem setMem_fab (f : MemPath → MemPath) : (setMem f s).fab = s.fab := rfl
@[simp] theorem setMem_tongue (f : MemPath → MemPath) : (setMem f s).tongue = s.tongue := rfl
@[simp] theorem setMem_memb (f : MemPath → MemPath) : (setMem f s).memb = s.memb := rfl
@[simp] theorem setMem_verdict (f : MemPath → MemPath) : (setMem f s).verdict = s.verdict := rfl
@[simp] theorem setMem_hier (f : MemPath → MemPath) : (setMem f s).hier = s.hier := rfl
@[simp] theorem setMem_lease (f : MemPath → MemPath) : (setMem f s).lease = s.lease := rfl
@[simp] theorem setMem_strm (f : MemPath → MemPath) : (setMem f s).strm = s.strm := rfl
@[simp] theorem setMem_pond (f : MemPath → MemPath) : (setMem f s).pond = s.pond := rfl
@[simp] theorem setMem_queues (f : MemPath → MemPath) : (setMem f s).queues = s.queues := rfl
@[simp] theorem setMem_xch (f : MemPath → MemPath) : (setMem f s).xch = s.xch := rfl
@[simp] theorem setMem_far (f : MemPath → MemPath) : (setMem f s).far = s.far := rfl
@[simp] theorem setMem_rng (f : MemPath → MemPath) : (setMem f s).rng = s.rng := rfl
@[simp] theorem setMem_east (f : MemPath → MemPath) : (setMem f s).east = s.east := rfl
@[simp] theorem setMem_west (f : MemPath → MemPath) : (setMem f s).west = s.west := rfl
@[simp] theorem setMem_ring (f : MemPath → MemPath) : (setMem f s).ring = s.ring := rfl
@[simp] theorem setMem_fmp (f : MemPath → MemPath) : (setMem f s).fmp = s.fmp := rfl
@[simp] theorem setMem_test (f : MemPath → MemPath) : (setMem f s).test = s.test := rfl
@[simp] theorem setMem_freeCtr (f : MemPath → MemPath) : (setMem f s).freeCtr = s.freeCtr := rfl
@[simp] theorem setMem_pending (f : MemPath → MemPath) : (setMem f s).pending = s.pending := rfl

/-! ### arbitrate -/

@[simp] theorem arbitrate_clk (r : MemReq) : (arbitrate r s).clk = s.clk := rfl
@[simp] theorem arbitrate_boot (r : MemReq) : (arbitrate r s).boot = s.boot := rfl
@[simp] theorem arbitrate_power (r : MemReq) : (arbitrate r s).power = s.power := rfl
@[simp] theorem arbitrate_health (r : MemReq) : (arbitrate r s).health = s.health := rfl
@[simp] theorem arbitrate_snap (r : MemReq) : (arbitrate r s).snap = s.snap := rfl
@[simp] theorem arbitrate_evt (r : MemReq) : (arbitrate r s).evt = s.evt := rfl
@[simp] theorem arbitrate_ctl (r : MemReq) : (arbitrate r s).ctl = s.ctl := rfl
@[simp] theorem arbitrate_kst (r : MemReq) : (arbitrate r s).kst = s.kst := rfl
@[simp] theorem arbitrate_vault (r : MemReq) : (arbitrate r s).vault = s.vault := rfl
@[simp] theorem arbitrate_mem (r : MemReq) : (arbitrate r s).mem = { s.mem with waiting := s.mem.waiting ++ [{ req := r, since := portNow s }] } := rfl
@[simp] theorem arbitrate_stack (r : MemReq) : (arbitrate r s).stack = s.stack := rfl
@[simp] theorem arbitrate_image (r : MemReq) : (arbitrate r s).image = s.image := rfl
@[simp] theorem arbitrate_step (r : MemReq) : (arbitrate r s).step = s.step := rfl
@[simp] theorem arbitrate_stepk (r : MemReq) : (arbitrate r s).stepk = s.stepk := rfl
@[simp] theorem arbitrate_lscale (r : MemReq) : (arbitrate r s).lscale = s.lscale := rfl
@[simp] theorem arbitrate_aux (r : MemReq) : (arbitrate r s).aux = s.aux := rfl
@[simp] theorem arbitrate_ttab (r : MemReq) : (arbitrate r s).ttab = s.ttab := rfl
@[simp] theorem arbitrate_swp (r : MemReq) : (arbitrate r s).swp = s.swp := rfl
@[simp] theorem arbitrate_sweep (r : MemReq) : (arbitrate r s).sweep = s.sweep := rfl
@[simp] theorem arbitrate_fab (r : MemReq) : (arbitrate r s).fab = s.fab := rfl
@[simp] theorem arbitrate_tongue (r : MemReq) : (arbitrate r s).tongue = s.tongue := rfl
@[simp] theorem arbitrate_memb (r : MemReq) : (arbitrate r s).memb = s.memb := rfl
@[simp] theorem arbitrate_verdict (r : MemReq) : (arbitrate r s).verdict = s.verdict := rfl
@[simp] theorem arbitrate_hier (r : MemReq) : (arbitrate r s).hier = s.hier := rfl
@[simp] theorem arbitrate_lease (r : MemReq) : (arbitrate r s).lease = s.lease := rfl
@[simp] theorem arbitrate_strm (r : MemReq) : (arbitrate r s).strm = s.strm := rfl
@[simp] theorem arbitrate_pond (r : MemReq) : (arbitrate r s).pond = s.pond := rfl
@[simp] theorem arbitrate_queues (r : MemReq) : (arbitrate r s).queues = s.queues := rfl
@[simp] theorem arbitrate_xch (r : MemReq) : (arbitrate r s).xch = s.xch := rfl
@[simp] theorem arbitrate_far (r : MemReq) : (arbitrate r s).far = s.far := rfl
@[simp] theorem arbitrate_rng (r : MemReq) : (arbitrate r s).rng = s.rng := rfl
@[simp] theorem arbitrate_east (r : MemReq) : (arbitrate r s).east = s.east := rfl
@[simp] theorem arbitrate_west (r : MemReq) : (arbitrate r s).west = s.west := rfl
@[simp] theorem arbitrate_ring (r : MemReq) : (arbitrate r s).ring = s.ring := rfl
@[simp] theorem arbitrate_fmp (r : MemReq) : (arbitrate r s).fmp = s.fmp := rfl
@[simp] theorem arbitrate_test (r : MemReq) : (arbitrate r s).test = s.test := rfl
@[simp] theorem arbitrate_freeCtr (r : MemReq) : (arbitrate r s).freeCtr = s.freeCtr := rfl
@[simp] theorem arbitrate_pending (r : MemReq) : (arbitrate r s).pending = s.pending := rfl

/-! ### setChan -/

@[simp] theorem setChan_clk (n : Nat) (f : StreamCh → StreamCh) : (setChan n f s).clk = s.clk := rfl
@[simp] theorem setChan_boot (n : Nat) (f : StreamCh → StreamCh) : (setChan n f s).boot = s.boot := rfl
@[simp] theorem setChan_power (n : Nat) (f : StreamCh → StreamCh) : (setChan n f s).power = s.power := rfl
@[simp] theorem setChan_health (n : Nat) (f : StreamCh → StreamCh) : (setChan n f s).health = s.health := rfl
@[simp] theorem setChan_snap (n : Nat) (f : StreamCh → StreamCh) : (setChan n f s).snap = s.snap := rfl
@[simp] theorem setChan_evt (n : Nat) (f : StreamCh → StreamCh) : (setChan n f s).evt = s.evt := rfl
@[simp] theorem setChan_ctl (n : Nat) (f : StreamCh → StreamCh) : (setChan n f s).ctl = s.ctl := rfl
@[simp] theorem setChan_kst (n : Nat) (f : StreamCh → StreamCh) : (setChan n f s).kst = s.kst := rfl
@[simp] theorem setChan_vault (n : Nat) (f : StreamCh → StreamCh) : (setChan n f s).vault = s.vault := rfl
@[simp] theorem setChan_mem (n : Nat) (f : StreamCh → StreamCh) : (setChan n f s).mem = s.mem := rfl
@[simp] theorem setChan_stack (n : Nat) (f : StreamCh → StreamCh) : (setChan n f s).stack = s.stack := rfl
@[simp] theorem setChan_image (n : Nat) (f : StreamCh → StreamCh) : (setChan n f s).image = s.image := rfl
@[simp] theorem setChan_step (n : Nat) (f : StreamCh → StreamCh) : (setChan n f s).step = s.step := rfl
@[simp] theorem setChan_stepk (n : Nat) (f : StreamCh → StreamCh) : (setChan n f s).stepk = s.stepk := rfl
@[simp] theorem setChan_lscale (n : Nat) (f : StreamCh → StreamCh) : (setChan n f s).lscale = s.lscale := rfl
@[simp] theorem setChan_aux (n : Nat) (f : StreamCh → StreamCh) : (setChan n f s).aux = s.aux := rfl
@[simp] theorem setChan_ttab (n : Nat) (f : StreamCh → StreamCh) : (setChan n f s).ttab = s.ttab := rfl
@[simp] theorem setChan_swp (n : Nat) (f : StreamCh → StreamCh) : (setChan n f s).swp = s.swp := rfl
@[simp] theorem setChan_sweep (n : Nat) (f : StreamCh → StreamCh) : (setChan n f s).sweep = s.sweep := rfl
@[simp] theorem setChan_fab (n : Nat) (f : StreamCh → StreamCh) : (setChan n f s).fab = s.fab := rfl
@[simp] theorem setChan_tongue (n : Nat) (f : StreamCh → StreamCh) : (setChan n f s).tongue = s.tongue := rfl
@[simp] theorem setChan_memb (n : Nat) (f : StreamCh → StreamCh) : (setChan n f s).memb = s.memb := rfl
@[simp] theorem setChan_verdict (n : Nat) (f : StreamCh → StreamCh) : (setChan n f s).verdict = s.verdict := rfl
@[simp] theorem setChan_hier (n : Nat) (f : StreamCh → StreamCh) : (setChan n f s).hier = s.hier := rfl
@[simp] theorem setChan_lease (n : Nat) (f : StreamCh → StreamCh) : (setChan n f s).lease = s.lease := rfl
@[simp] theorem setChan_strm (n : Nat) (f : StreamCh → StreamCh) : (setChan n f s).strm = { s.strm with chans := s.strm.chans.modify n f } := rfl
@[simp] theorem setChan_pond (n : Nat) (f : StreamCh → StreamCh) : (setChan n f s).pond = s.pond := rfl
@[simp] theorem setChan_queues (n : Nat) (f : StreamCh → StreamCh) : (setChan n f s).queues = s.queues := rfl
@[simp] theorem setChan_xch (n : Nat) (f : StreamCh → StreamCh) : (setChan n f s).xch = s.xch := rfl
@[simp] theorem setChan_far (n : Nat) (f : StreamCh → StreamCh) : (setChan n f s).far = s.far := rfl
@[simp] theorem setChan_rng (n : Nat) (f : StreamCh → StreamCh) : (setChan n f s).rng = s.rng := rfl
@[simp] theorem setChan_east (n : Nat) (f : StreamCh → StreamCh) : (setChan n f s).east = s.east := rfl
@[simp] theorem setChan_west (n : Nat) (f : StreamCh → StreamCh) : (setChan n f s).west = s.west := rfl
@[simp] theorem setChan_ring (n : Nat) (f : StreamCh → StreamCh) : (setChan n f s).ring = s.ring := rfl
@[simp] theorem setChan_fmp (n : Nat) (f : StreamCh → StreamCh) : (setChan n f s).fmp = s.fmp := rfl
@[simp] theorem setChan_test (n : Nat) (f : StreamCh → StreamCh) : (setChan n f s).test = s.test := rfl
@[simp] theorem setChan_freeCtr (n : Nat) (f : StreamCh → StreamCh) : (setChan n f s).freeCtr = s.freeCtr := rfl
@[simp] theorem setChan_pending (n : Nat) (f : StreamCh → StreamCh) : (setChan n f s).pending = s.pending := rfl

/-! ### setXch -/

@[simp] theorem setXch_clk (k : Nat) (f : XChan → XChan) : (setXch k f s).clk = s.clk := rfl
@[simp] theorem setXch_boot (k : Nat) (f : XChan → XChan) : (setXch k f s).boot = s.boot := rfl
@[simp] theorem setXch_power (k : Nat) (f : XChan → XChan) : (setXch k f s).power = s.power := rfl
@[simp] theorem setXch_health (k : Nat) (f : XChan → XChan) : (setXch k f s).health = s.health := rfl
@[simp] theorem setXch_snap (k : Nat) (f : XChan → XChan) : (setXch k f s).snap = s.snap := rfl
@[simp] theorem setXch_evt (k : Nat) (f : XChan → XChan) : (setXch k f s).evt = s.evt := rfl
@[simp] theorem setXch_ctl (k : Nat) (f : XChan → XChan) : (setXch k f s).ctl = s.ctl := rfl
@[simp] theorem setXch_kst (k : Nat) (f : XChan → XChan) : (setXch k f s).kst = s.kst := rfl
@[simp] theorem setXch_vault (k : Nat) (f : XChan → XChan) : (setXch k f s).vault = s.vault := rfl
@[simp] theorem setXch_mem (k : Nat) (f : XChan → XChan) : (setXch k f s).mem = s.mem := rfl
@[simp] theorem setXch_stack (k : Nat) (f : XChan → XChan) : (setXch k f s).stack = s.stack := rfl
@[simp] theorem setXch_image (k : Nat) (f : XChan → XChan) : (setXch k f s).image = s.image := rfl
@[simp] theorem setXch_step (k : Nat) (f : XChan → XChan) : (setXch k f s).step = s.step := rfl
@[simp] theorem setXch_stepk (k : Nat) (f : XChan → XChan) : (setXch k f s).stepk = s.stepk := rfl
@[simp] theorem setXch_lscale (k : Nat) (f : XChan → XChan) : (setXch k f s).lscale = s.lscale := rfl
@[simp] theorem setXch_aux (k : Nat) (f : XChan → XChan) : (setXch k f s).aux = s.aux := rfl
@[simp] theorem setXch_ttab (k : Nat) (f : XChan → XChan) : (setXch k f s).ttab = s.ttab := rfl
@[simp] theorem setXch_swp (k : Nat) (f : XChan → XChan) : (setXch k f s).swp = s.swp := rfl
@[simp] theorem setXch_sweep (k : Nat) (f : XChan → XChan) : (setXch k f s).sweep = s.sweep := rfl
@[simp] theorem setXch_fab (k : Nat) (f : XChan → XChan) : (setXch k f s).fab = s.fab := rfl
@[simp] theorem setXch_tongue (k : Nat) (f : XChan → XChan) : (setXch k f s).tongue = s.tongue := rfl
@[simp] theorem setXch_memb (k : Nat) (f : XChan → XChan) : (setXch k f s).memb = s.memb := rfl
@[simp] theorem setXch_verdict (k : Nat) (f : XChan → XChan) : (setXch k f s).verdict = s.verdict := rfl
@[simp] theorem setXch_hier (k : Nat) (f : XChan → XChan) : (setXch k f s).hier = s.hier := rfl
@[simp] theorem setXch_lease (k : Nat) (f : XChan → XChan) : (setXch k f s).lease = s.lease := rfl
@[simp] theorem setXch_strm (k : Nat) (f : XChan → XChan) : (setXch k f s).strm = s.strm := rfl
@[simp] theorem setXch_pond (k : Nat) (f : XChan → XChan) : (setXch k f s).pond = s.pond := rfl
@[simp] theorem setXch_queues (k : Nat) (f : XChan → XChan) : (setXch k f s).queues = s.queues := rfl
@[simp] theorem setXch_xch (k : Nat) (f : XChan → XChan) : (setXch k f s).xch = { s.xch with chans := s.xch.chans.modify k f } := rfl
@[simp] theorem setXch_far (k : Nat) (f : XChan → XChan) : (setXch k f s).far = s.far := rfl
@[simp] theorem setXch_rng (k : Nat) (f : XChan → XChan) : (setXch k f s).rng = s.rng := rfl
@[simp] theorem setXch_east (k : Nat) (f : XChan → XChan) : (setXch k f s).east = s.east := rfl
@[simp] theorem setXch_west (k : Nat) (f : XChan → XChan) : (setXch k f s).west = s.west := rfl
@[simp] theorem setXch_ring (k : Nat) (f : XChan → XChan) : (setXch k f s).ring = s.ring := rfl
@[simp] theorem setXch_fmp (k : Nat) (f : XChan → XChan) : (setXch k f s).fmp = s.fmp := rfl
@[simp] theorem setXch_test (k : Nat) (f : XChan → XChan) : (setXch k f s).test = s.test := rfl
@[simp] theorem setXch_freeCtr (k : Nat) (f : XChan → XChan) : (setXch k f s).freeCtr = s.freeCtr := rfl
@[simp] theorem setXch_pending (k : Nat) (f : XChan → XChan) : (setXch k f s).pending = s.pending := rfl

/-! ### setQueue -/

@[simp] theorem setQueue_clk (q : Nat) (f : PadQueue → PadQueue) : (setQueue q f s).clk = s.clk := rfl
@[simp] theorem setQueue_boot (q : Nat) (f : PadQueue → PadQueue) : (setQueue q f s).boot = s.boot := rfl
@[simp] theorem setQueue_power (q : Nat) (f : PadQueue → PadQueue) : (setQueue q f s).power = s.power := rfl
@[simp] theorem setQueue_health (q : Nat) (f : PadQueue → PadQueue) : (setQueue q f s).health = s.health := rfl
@[simp] theorem setQueue_snap (q : Nat) (f : PadQueue → PadQueue) : (setQueue q f s).snap = s.snap := rfl
@[simp] theorem setQueue_evt (q : Nat) (f : PadQueue → PadQueue) : (setQueue q f s).evt = s.evt := rfl
@[simp] theorem setQueue_ctl (q : Nat) (f : PadQueue → PadQueue) : (setQueue q f s).ctl = s.ctl := rfl
@[simp] theorem setQueue_kst (q : Nat) (f : PadQueue → PadQueue) : (setQueue q f s).kst = s.kst := rfl
@[simp] theorem setQueue_vault (q : Nat) (f : PadQueue → PadQueue) : (setQueue q f s).vault = s.vault := rfl
@[simp] theorem setQueue_mem (q : Nat) (f : PadQueue → PadQueue) : (setQueue q f s).mem = s.mem := rfl
@[simp] theorem setQueue_stack (q : Nat) (f : PadQueue → PadQueue) : (setQueue q f s).stack = s.stack := rfl
@[simp] theorem setQueue_image (q : Nat) (f : PadQueue → PadQueue) : (setQueue q f s).image = s.image := rfl
@[simp] theorem setQueue_step (q : Nat) (f : PadQueue → PadQueue) : (setQueue q f s).step = s.step := rfl
@[simp] theorem setQueue_stepk (q : Nat) (f : PadQueue → PadQueue) : (setQueue q f s).stepk = s.stepk := rfl
@[simp] theorem setQueue_lscale (q : Nat) (f : PadQueue → PadQueue) : (setQueue q f s).lscale = s.lscale := rfl
@[simp] theorem setQueue_aux (q : Nat) (f : PadQueue → PadQueue) : (setQueue q f s).aux = s.aux := rfl
@[simp] theorem setQueue_ttab (q : Nat) (f : PadQueue → PadQueue) : (setQueue q f s).ttab = s.ttab := rfl
@[simp] theorem setQueue_swp (q : Nat) (f : PadQueue → PadQueue) : (setQueue q f s).swp = s.swp := rfl
@[simp] theorem setQueue_sweep (q : Nat) (f : PadQueue → PadQueue) : (setQueue q f s).sweep = s.sweep := rfl
@[simp] theorem setQueue_fab (q : Nat) (f : PadQueue → PadQueue) : (setQueue q f s).fab = s.fab := rfl
@[simp] theorem setQueue_tongue (q : Nat) (f : PadQueue → PadQueue) : (setQueue q f s).tongue = s.tongue := rfl
@[simp] theorem setQueue_memb (q : Nat) (f : PadQueue → PadQueue) : (setQueue q f s).memb = s.memb := rfl
@[simp] theorem setQueue_verdict (q : Nat) (f : PadQueue → PadQueue) : (setQueue q f s).verdict = s.verdict := rfl
@[simp] theorem setQueue_hier (q : Nat) (f : PadQueue → PadQueue) : (setQueue q f s).hier = s.hier := rfl
@[simp] theorem setQueue_lease (q : Nat) (f : PadQueue → PadQueue) : (setQueue q f s).lease = s.lease := rfl
@[simp] theorem setQueue_strm (q : Nat) (f : PadQueue → PadQueue) : (setQueue q f s).strm = s.strm := rfl
@[simp] theorem setQueue_pond (q : Nat) (f : PadQueue → PadQueue) : (setQueue q f s).pond = s.pond := rfl
@[simp] theorem setQueue_queues (q : Nat) (f : PadQueue → PadQueue) : (setQueue q f s).queues = s.queues.modify q f := rfl
@[simp] theorem setQueue_xch (q : Nat) (f : PadQueue → PadQueue) : (setQueue q f s).xch = s.xch := rfl
@[simp] theorem setQueue_far (q : Nat) (f : PadQueue → PadQueue) : (setQueue q f s).far = s.far := rfl
@[simp] theorem setQueue_rng (q : Nat) (f : PadQueue → PadQueue) : (setQueue q f s).rng = s.rng := rfl
@[simp] theorem setQueue_east (q : Nat) (f : PadQueue → PadQueue) : (setQueue q f s).east = s.east := rfl
@[simp] theorem setQueue_west (q : Nat) (f : PadQueue → PadQueue) : (setQueue q f s).west = s.west := rfl
@[simp] theorem setQueue_ring (q : Nat) (f : PadQueue → PadQueue) : (setQueue q f s).ring = s.ring := rfl
@[simp] theorem setQueue_fmp (q : Nat) (f : PadQueue → PadQueue) : (setQueue q f s).fmp = s.fmp := rfl
@[simp] theorem setQueue_test (q : Nat) (f : PadQueue → PadQueue) : (setQueue q f s).test = s.test := rfl
@[simp] theorem setQueue_freeCtr (q : Nat) (f : PadQueue → PadQueue) : (setQueue q f s).freeCtr = s.freeCtr := rfl
@[simp] theorem setQueue_pending (q : Nat) (f : PadQueue → PadQueue) : (setQueue q f s).pending = s.pending := rfl

/-! ### drawFree -/

@[simp] theorem drawFree_clk : ((drawFree s).2).clk = s.clk := rfl
@[simp] theorem drawFree_boot : ((drawFree s).2).boot = s.boot := rfl
@[simp] theorem drawFree_power : ((drawFree s).2).power = s.power := rfl
@[simp] theorem drawFree_health : ((drawFree s).2).health = s.health := rfl
@[simp] theorem drawFree_snap : ((drawFree s).2).snap = s.snap := rfl
@[simp] theorem drawFree_evt : ((drawFree s).2).evt = s.evt := rfl
@[simp] theorem drawFree_ctl : ((drawFree s).2).ctl = s.ctl := rfl
@[simp] theorem drawFree_kst : ((drawFree s).2).kst = s.kst := rfl
@[simp] theorem drawFree_vault : ((drawFree s).2).vault = s.vault := rfl
@[simp] theorem drawFree_mem : ((drawFree s).2).mem = s.mem := rfl
@[simp] theorem drawFree_stack : ((drawFree s).2).stack = s.stack := rfl
@[simp] theorem drawFree_image : ((drawFree s).2).image = s.image := rfl
@[simp] theorem drawFree_step : ((drawFree s).2).step = s.step := rfl
@[simp] theorem drawFree_stepk : ((drawFree s).2).stepk = s.stepk := rfl
@[simp] theorem drawFree_lscale : ((drawFree s).2).lscale = s.lscale := rfl
@[simp] theorem drawFree_aux : ((drawFree s).2).aux = s.aux := rfl
@[simp] theorem drawFree_ttab : ((drawFree s).2).ttab = s.ttab := rfl
@[simp] theorem drawFree_swp : ((drawFree s).2).swp = s.swp := rfl
@[simp] theorem drawFree_sweep : ((drawFree s).2).sweep = s.sweep := rfl
@[simp] theorem drawFree_fab : ((drawFree s).2).fab = s.fab := rfl
@[simp] theorem drawFree_tongue : ((drawFree s).2).tongue = s.tongue := rfl
@[simp] theorem drawFree_memb : ((drawFree s).2).memb = s.memb := rfl
@[simp] theorem drawFree_verdict : ((drawFree s).2).verdict = s.verdict := rfl
@[simp] theorem drawFree_hier : ((drawFree s).2).hier = s.hier := rfl
@[simp] theorem drawFree_lease : ((drawFree s).2).lease = s.lease := rfl
@[simp] theorem drawFree_strm : ((drawFree s).2).strm = s.strm := rfl
@[simp] theorem drawFree_pond : ((drawFree s).2).pond = s.pond := rfl
@[simp] theorem drawFree_queues : ((drawFree s).2).queues = s.queues := rfl
@[simp] theorem drawFree_xch : ((drawFree s).2).xch = s.xch := rfl
@[simp] theorem drawFree_far : ((drawFree s).2).far = s.far := rfl
@[simp] theorem drawFree_rng : ((drawFree s).2).rng = s.rng := rfl
@[simp] theorem drawFree_east : ((drawFree s).2).east = s.east := rfl
@[simp] theorem drawFree_west : ((drawFree s).2).west = s.west := rfl
@[simp] theorem drawFree_ring : ((drawFree s).2).ring = s.ring := rfl
@[simp] theorem drawFree_fmp : ((drawFree s).2).fmp = s.fmp := rfl
@[simp] theorem drawFree_test : ((drawFree s).2).test = s.test := rfl
@[simp] theorem drawFree_freeCtr  : ((drawFree s).2).freeCtr = s.freeCtr + 1 := rfl
@[simp] theorem drawFree_pending : ((drawFree s).2).pending = s.pending := rfl

/-! ### setLink, by the side -/

@[simp] theorem setLink_east_clk (f : LinkEnd → LinkEnd) : (setLink .east f s).clk = s.clk := rfl
@[simp] theorem setLink_east_boot (f : LinkEnd → LinkEnd) : (setLink .east f s).boot = s.boot := rfl
@[simp] theorem setLink_east_power (f : LinkEnd → LinkEnd) : (setLink .east f s).power = s.power := rfl
@[simp] theorem setLink_east_health (f : LinkEnd → LinkEnd) : (setLink .east f s).health = s.health := rfl
@[simp] theorem setLink_east_snap (f : LinkEnd → LinkEnd) : (setLink .east f s).snap = s.snap := rfl
@[simp] theorem setLink_east_evt (f : LinkEnd → LinkEnd) : (setLink .east f s).evt = s.evt := rfl
@[simp] theorem setLink_east_ctl (f : LinkEnd → LinkEnd) : (setLink .east f s).ctl = s.ctl := rfl
@[simp] theorem setLink_east_kst (f : LinkEnd → LinkEnd) : (setLink .east f s).kst = s.kst := rfl
@[simp] theorem setLink_east_vault (f : LinkEnd → LinkEnd) : (setLink .east f s).vault = s.vault := rfl
@[simp] theorem setLink_east_mem (f : LinkEnd → LinkEnd) : (setLink .east f s).mem = s.mem := rfl
@[simp] theorem setLink_east_stack (f : LinkEnd → LinkEnd) : (setLink .east f s).stack = s.stack := rfl
@[simp] theorem setLink_east_image (f : LinkEnd → LinkEnd) : (setLink .east f s).image = s.image := rfl
@[simp] theorem setLink_east_step (f : LinkEnd → LinkEnd) : (setLink .east f s).step = s.step := rfl
@[simp] theorem setLink_east_stepk (f : LinkEnd → LinkEnd) : (setLink .east f s).stepk = s.stepk := rfl
@[simp] theorem setLink_east_lscale (f : LinkEnd → LinkEnd) : (setLink .east f s).lscale = s.lscale := rfl
@[simp] theorem setLink_east_aux (f : LinkEnd → LinkEnd) : (setLink .east f s).aux = s.aux := rfl
@[simp] theorem setLink_east_ttab (f : LinkEnd → LinkEnd) : (setLink .east f s).ttab = s.ttab := rfl
@[simp] theorem setLink_east_swp (f : LinkEnd → LinkEnd) : (setLink .east f s).swp = s.swp := rfl
@[simp] theorem setLink_east_sweep (f : LinkEnd → LinkEnd) : (setLink .east f s).sweep = s.sweep := rfl
@[simp] theorem setLink_east_fab (f : LinkEnd → LinkEnd) : (setLink .east f s).fab = s.fab := rfl
@[simp] theorem setLink_east_tongue (f : LinkEnd → LinkEnd) : (setLink .east f s).tongue = s.tongue := rfl
@[simp] theorem setLink_east_memb (f : LinkEnd → LinkEnd) : (setLink .east f s).memb = s.memb := rfl
@[simp] theorem setLink_east_verdict (f : LinkEnd → LinkEnd) : (setLink .east f s).verdict = s.verdict := rfl
@[simp] theorem setLink_east_hier (f : LinkEnd → LinkEnd) : (setLink .east f s).hier = s.hier := rfl
@[simp] theorem setLink_east_lease (f : LinkEnd → LinkEnd) : (setLink .east f s).lease = s.lease := rfl
@[simp] theorem setLink_east_strm (f : LinkEnd → LinkEnd) : (setLink .east f s).strm = s.strm := rfl
@[simp] theorem setLink_east_pond (f : LinkEnd → LinkEnd) : (setLink .east f s).pond = s.pond := rfl
@[simp] theorem setLink_east_queues (f : LinkEnd → LinkEnd) : (setLink .east f s).queues = s.queues := rfl
@[simp] theorem setLink_east_xch (f : LinkEnd → LinkEnd) : (setLink .east f s).xch = s.xch := rfl
@[simp] theorem setLink_east_far (f : LinkEnd → LinkEnd) : (setLink .east f s).far = s.far := rfl
@[simp] theorem setLink_east_rng (f : LinkEnd → LinkEnd) : (setLink .east f s).rng = s.rng := rfl
@[simp] theorem setLink_east_east (f : LinkEnd → LinkEnd) : (setLink .east f s).east = f s.east := rfl
@[simp] theorem setLink_east_west (f : LinkEnd → LinkEnd) : (setLink .east f s).west = s.west := rfl
@[simp] theorem setLink_east_ring (f : LinkEnd → LinkEnd) : (setLink .east f s).ring = s.ring := rfl
@[simp] theorem setLink_east_fmp (f : LinkEnd → LinkEnd) : (setLink .east f s).fmp = s.fmp := rfl
@[simp] theorem setLink_east_test (f : LinkEnd → LinkEnd) : (setLink .east f s).test = s.test := rfl
@[simp] theorem setLink_east_freeCtr (f : LinkEnd → LinkEnd) : (setLink .east f s).freeCtr = s.freeCtr := rfl
@[simp] theorem setLink_east_pending (f : LinkEnd → LinkEnd) : (setLink .east f s).pending = s.pending := rfl
@[simp] theorem setLink_west_clk (f : LinkEnd → LinkEnd) : (setLink .west f s).clk = s.clk := rfl
@[simp] theorem setLink_west_boot (f : LinkEnd → LinkEnd) : (setLink .west f s).boot = s.boot := rfl
@[simp] theorem setLink_west_power (f : LinkEnd → LinkEnd) : (setLink .west f s).power = s.power := rfl
@[simp] theorem setLink_west_health (f : LinkEnd → LinkEnd) : (setLink .west f s).health = s.health := rfl
@[simp] theorem setLink_west_snap (f : LinkEnd → LinkEnd) : (setLink .west f s).snap = s.snap := rfl
@[simp] theorem setLink_west_evt (f : LinkEnd → LinkEnd) : (setLink .west f s).evt = s.evt := rfl
@[simp] theorem setLink_west_ctl (f : LinkEnd → LinkEnd) : (setLink .west f s).ctl = s.ctl := rfl
@[simp] theorem setLink_west_kst (f : LinkEnd → LinkEnd) : (setLink .west f s).kst = s.kst := rfl
@[simp] theorem setLink_west_vault (f : LinkEnd → LinkEnd) : (setLink .west f s).vault = s.vault := rfl
@[simp] theorem setLink_west_mem (f : LinkEnd → LinkEnd) : (setLink .west f s).mem = s.mem := rfl
@[simp] theorem setLink_west_stack (f : LinkEnd → LinkEnd) : (setLink .west f s).stack = s.stack := rfl
@[simp] theorem setLink_west_image (f : LinkEnd → LinkEnd) : (setLink .west f s).image = s.image := rfl
@[simp] theorem setLink_west_step (f : LinkEnd → LinkEnd) : (setLink .west f s).step = s.step := rfl
@[simp] theorem setLink_west_stepk (f : LinkEnd → LinkEnd) : (setLink .west f s).stepk = s.stepk := rfl
@[simp] theorem setLink_west_lscale (f : LinkEnd → LinkEnd) : (setLink .west f s).lscale = s.lscale := rfl
@[simp] theorem setLink_west_aux (f : LinkEnd → LinkEnd) : (setLink .west f s).aux = s.aux := rfl
@[simp] theorem setLink_west_ttab (f : LinkEnd → LinkEnd) : (setLink .west f s).ttab = s.ttab := rfl
@[simp] theorem setLink_west_swp (f : LinkEnd → LinkEnd) : (setLink .west f s).swp = s.swp := rfl
@[simp] theorem setLink_west_sweep (f : LinkEnd → LinkEnd) : (setLink .west f s).sweep = s.sweep := rfl
@[simp] theorem setLink_west_fab (f : LinkEnd → LinkEnd) : (setLink .west f s).fab = s.fab := rfl
@[simp] theorem setLink_west_tongue (f : LinkEnd → LinkEnd) : (setLink .west f s).tongue = s.tongue := rfl
@[simp] theorem setLink_west_memb (f : LinkEnd → LinkEnd) : (setLink .west f s).memb = s.memb := rfl
@[simp] theorem setLink_west_verdict (f : LinkEnd → LinkEnd) : (setLink .west f s).verdict = s.verdict := rfl
@[simp] theorem setLink_west_hier (f : LinkEnd → LinkEnd) : (setLink .west f s).hier = s.hier := rfl
@[simp] theorem setLink_west_lease (f : LinkEnd → LinkEnd) : (setLink .west f s).lease = s.lease := rfl
@[simp] theorem setLink_west_strm (f : LinkEnd → LinkEnd) : (setLink .west f s).strm = s.strm := rfl
@[simp] theorem setLink_west_pond (f : LinkEnd → LinkEnd) : (setLink .west f s).pond = s.pond := rfl
@[simp] theorem setLink_west_queues (f : LinkEnd → LinkEnd) : (setLink .west f s).queues = s.queues := rfl
@[simp] theorem setLink_west_xch (f : LinkEnd → LinkEnd) : (setLink .west f s).xch = s.xch := rfl
@[simp] theorem setLink_west_far (f : LinkEnd → LinkEnd) : (setLink .west f s).far = s.far := rfl
@[simp] theorem setLink_west_rng (f : LinkEnd → LinkEnd) : (setLink .west f s).rng = s.rng := rfl
@[simp] theorem setLink_west_east (f : LinkEnd → LinkEnd) : (setLink .west f s).east = s.east := rfl
@[simp] theorem setLink_west_west (f : LinkEnd → LinkEnd) : (setLink .west f s).west = f s.west := rfl
@[simp] theorem setLink_west_ring (f : LinkEnd → LinkEnd) : (setLink .west f s).ring = s.ring := rfl
@[simp] theorem setLink_west_fmp (f : LinkEnd → LinkEnd) : (setLink .west f s).fmp = s.fmp := rfl
@[simp] theorem setLink_west_test (f : LinkEnd → LinkEnd) : (setLink .west f s).test = s.test := rfl
@[simp] theorem setLink_west_freeCtr (f : LinkEnd → LinkEnd) : (setLink .west f s).freeCtr = s.freeCtr := rfl
@[simp] theorem setLink_west_pending (f : LinkEnd → LinkEnd) : (setLink .west f s).pending = s.pending := rfl

/-! ### Counters (R518) -/

@[simp] theorem Counter.add_zero (c : Counter) : c.add 0 = c := by simp [Counter.add]
/-- An increment that stays below all-ones adds. -/
theorem Counter.add_below {c : Counter} {n : Nat} (hn : n ≠ 0) (h : c.count + n < counterMax) :
    c.add n = { c with count := c.count + n } := by simp [Counter.add, hn, h]
/-- An increment that reaches all-ones saturates and sets OVF. -/
theorem Counter.add_saturates {c : Counter} {n : Nat} (hn : n ≠ 0) (h : counterMax ≤ c.count + n) :
    c.add n = { count := counterMax, ovf := true } := by
  have : ¬ c.count + n < counterMax := by omega
  simp [Counter.add, hn, this]
/-- No counter passes all-ones. -/
theorem Counter.add_le {c : Counter} (n : Nat) (h : c.count ≤ counterMax) : (c.add n).count ≤ counterMax := by
  simp only [Counter.add]
  split
  · exact h
  · split
    · simp only; omega
    · simp
@[simp] theorem bump_length (l : List Counter) (i n : Nat) : (bump l i n).length = l.length := by simp [bump]

/-! ### Events (R448) -/

@[simp] theorem insertEvent_length (q : List (Nat × BitVec 6)) (e : Nat × BitVec 6) :
    (insertEvent q e).length = q.length + 1 := by
  induction q with
  | nil => rfl
  | cons x xs ih => simp only [insertEvent]; split <;> simp [ih]

/-- An event changes the event port alone. -/
theorem pulse_frame (line : BitVec 6) : ∃ e, pulse line s = { s with evt := e } := by
  simp only [pulse]; split <;> exact ⟨_, rfl⟩
/-- With room, the event is in the queue. -/
theorem pulse_room (line : BitVec 6) (h : s.evt.queue.length < 256) :
    (pulse line s).evt.queue = insertEvent s.evt.queue (now s, line) := by simp [pulse, h]
/-- Without room, it waits at its source. -/
theorem pulse_full (line : BitVec 6) (h : 256 ≤ s.evt.queue.length) :
    (pulse line s).evt = { s.evt with waiting := s.evt.waiting ++ [(now s, line)] } := by
  have : ¬ s.evt.queue.length < 256 := by omega
  simp [pulse, this]

@[simp] theorem pulse_clk (line : BitVec 6) : (pulse line s).clk = s.clk := by simp only [pulse]; split <;> rfl
@[simp] theorem pulse_boot (line : BitVec 6) : (pulse line s).boot = s.boot := by simp only [pulse]; split <;> rfl
@[simp] theorem pulse_power (line : BitVec 6) : (pulse line s).power = s.power := by simp only [pulse]; split <;> rfl
@[simp] theorem pulse_health (line : BitVec 6) : (pulse line s).health = s.health := by simp only [pulse]; split <;> rfl
@[simp] theorem pulse_snap (line : BitVec 6) : (pulse line s).snap = s.snap := by simp only [pulse]; split <;> rfl
@[simp] theorem pulse_ctl (line : BitVec 6) : (pulse line s).ctl = s.ctl := by simp only [pulse]; split <;> rfl
@[simp] theorem pulse_kst (line : BitVec 6) : (pulse line s).kst = s.kst := by simp only [pulse]; split <;> rfl
@[simp] theorem pulse_vault (line : BitVec 6) : (pulse line s).vault = s.vault := by simp only [pulse]; split <;> rfl
@[simp] theorem pulse_mem (line : BitVec 6) : (pulse line s).mem = s.mem := by simp only [pulse]; split <;> rfl
@[simp] theorem pulse_stack (line : BitVec 6) : (pulse line s).stack = s.stack := by simp only [pulse]; split <;> rfl
@[simp] theorem pulse_image (line : BitVec 6) : (pulse line s).image = s.image := by simp only [pulse]; split <;> rfl
@[simp] theorem pulse_step (line : BitVec 6) : (pulse line s).step = s.step := by simp only [pulse]; split <;> rfl
@[simp] theorem pulse_stepk (line : BitVec 6) : (pulse line s).stepk = s.stepk := by simp only [pulse]; split <;> rfl
@[simp] theorem pulse_lscale (line : BitVec 6) : (pulse line s).lscale = s.lscale := by simp only [pulse]; split <;> rfl
@[simp] theorem pulse_aux (line : BitVec 6) : (pulse line s).aux = s.aux := by simp only [pulse]; split <;> rfl
@[simp] theorem pulse_ttab (line : BitVec 6) : (pulse line s).ttab = s.ttab := by simp only [pulse]; split <;> rfl
@[simp] theorem pulse_swp (line : BitVec 6) : (pulse line s).swp = s.swp := by simp only [pulse]; split <;> rfl
@[simp] theorem pulse_sweep (line : BitVec 6) : (pulse line s).sweep = s.sweep := by simp only [pulse]; split <;> rfl
@[simp] theorem pulse_fab (line : BitVec 6) : (pulse line s).fab = s.fab := by simp only [pulse]; split <;> rfl
@[simp] theorem pulse_tongue (line : BitVec 6) : (pulse line s).tongue = s.tongue := by simp only [pulse]; split <;> rfl
@[simp] theorem pulse_memb (line : BitVec 6) : (pulse line s).memb = s.memb := by simp only [pulse]; split <;> rfl
@[simp] theorem pulse_verdict (line : BitVec 6) : (pulse line s).verdict = s.verdict := by simp only [pulse]; split <;> rfl
@[simp] theorem pulse_hier (line : BitVec 6) : (pulse line s).hier = s.hier := by simp only [pulse]; split <;> rfl
@[simp] theorem pulse_lease (line : BitVec 6) : (pulse line s).lease = s.lease := by simp only [pulse]; split <;> rfl
@[simp] theorem pulse_strm (line : BitVec 6) : (pulse line s).strm = s.strm := by simp only [pulse]; split <;> rfl
@[simp] theorem pulse_pond (line : BitVec 6) : (pulse line s).pond = s.pond := by simp only [pulse]; split <;> rfl
@[simp] theorem pulse_queues (line : BitVec 6) : (pulse line s).queues = s.queues := by simp only [pulse]; split <;> rfl
@[simp] theorem pulse_xch (line : BitVec 6) : (pulse line s).xch = s.xch := by simp only [pulse]; split <;> rfl
@[simp] theorem pulse_far (line : BitVec 6) : (pulse line s).far = s.far := by simp only [pulse]; split <;> rfl
@[simp] theorem pulse_rng (line : BitVec 6) : (pulse line s).rng = s.rng := by simp only [pulse]; split <;> rfl
@[simp] theorem pulse_east (line : BitVec 6) : (pulse line s).east = s.east := by simp only [pulse]; split <;> rfl
@[simp] theorem pulse_west (line : BitVec 6) : (pulse line s).west = s.west := by simp only [pulse]; split <;> rfl
@[simp] theorem pulse_ring (line : BitVec 6) : (pulse line s).ring = s.ring := by simp only [pulse]; split <;> rfl
@[simp] theorem pulse_fmp (line : BitVec 6) : (pulse line s).fmp = s.fmp := by simp only [pulse]; split <;> rfl
@[simp] theorem pulse_test (line : BitVec 6) : (pulse line s).test = s.test := by simp only [pulse]; split <;> rfl
@[simp] theorem pulse_freeCtr (line : BitVec 6) : (pulse line s).freeCtr = s.freeCtr := by simp only [pulse]; split <;> rfl
@[simp] theorem pulse_pending (line : BitVec 6) : (pulse line s).pending = s.pending := by simp only [pulse]; split <;> rfl

end Sys2Proof.Machine
end

