-- ==== Sys2Proof/Laws/KeepOps.lean ====
section
/-! SUPPORT. What each operation of Machine/Ops.lean keeps (Laws/Keep.lean). -/
namespace Sys2Proof.Machine

-- the proofs below are one script for many operations, of which each uses its own part
set_option linter.unusedTactic false
set_option linter.unreachableTactic false

theorem keep_countMp {M : List Host.Cell} {Q : List Instr} {s : State} (i n : Nat)
    (hgood : Good M Q s) : Good M Q (countMp i n s) := keep_mk (s := s) rfl rfl rfl rfl rfl rfl hgood

theorem keep_countFab {M : List Host.Cell} {Q : List Instr} {s : State} (i n : Nat)
    (hgood : Good M Q s) : Good M Q (countFab i n s) := by
  unfold countFab
  try dsimp only
  repeat' first
    | with_reducible assumption
    | with_reducible apply keep_ite
    | (fail_if_no_progress with_reducible refine keep_mk rfl rfl rfl rfl rfl rfl ?_)
    | split

theorem keep_countSweep {M : List Host.Cell} {Q : List Instr} {s : State} (i n : Nat)
    (hgood : Good M Q s) : Good M Q (countSweep i n s) := keep_mk (s := s) rfl rfl rfl rfl rfl rfl hgood

theorem keep_countTongue {M : List Host.Cell} {Q : List Instr} {s : State} (i n : Nat)
    (hgood : Good M Q s) : Good M Q (countTongue i n s) := keep_mk (s := s) rfl rfl rfl rfl rfl rfl hgood

theorem keep_countHier {M : List Host.Cell} {Q : List Instr} {s : State} (i n : Nat)
    (hgood : Good M Q s) : Good M Q (countHier i n s) := keep_mk (s := s) rfl rfl rfl rfl rfl rfl hgood

theorem keep_countStrm {M : List Host.Cell} {Q : List Instr} {s : State} (i n : Nat)
    (hgood : Good M Q s) : Good M Q (countStrm i n s) := keep_mk (s := s) rfl rfl rfl rfl rfl rfl hgood

theorem keep_countXch {M : List Host.Cell} {Q : List Instr} {s : State} (i n : Nat)
    (hgood : Good M Q s) : Good M Q (countXch i n s) := keep_mk (s := s) rfl rfl rfl rfl rfl rfl hgood

theorem keep_countPort {M : List Host.Cell} {Q : List Instr} {s : State} (i n : Nat)
    (hgood : Good M Q s) : Good M Q (countPort i n s) := keep_mk (s := s) rfl rfl rfl rfl rfl rfl hgood

theorem keep_countRng {M : List Host.Cell} {Q : List Instr} {s : State} (i n : Nat)
    (hgood : Good M Q s) : Good M Q (countRng i n s) := keep_mk (s := s) rfl rfl rfl rfl rfl rfl hgood

theorem keep_countFmp {M : List Host.Cell} {Q : List Instr} {s : State} (i n : Nat)
    (hgood : Good M Q s) : Good M Q (countFmp i n s) := keep_mk (s := s) rfl rfl rfl rfl rfl rfl hgood

theorem keep_countHealth {M : List Host.Cell} {Q : List Instr} {s : State} (i n : Nat)
    (hgood : Good M Q s) : Good M Q (countHealth i n s) := keep_mk (s := s) rfl rfl rfl rfl rfl rfl hgood

/-- A report adds at most one entry, and none to a full log (R504). -/
theorem ErrLog.enter_length (l : ErrLog) (e : LogEntry) (h : l.entries.length ≤ 64) : (l.enter e).entries.length ≤ 64 := by
  have hl : (l.entries.reverse.takeWhile fun x => x.time == e.time && x.code > e.code).length ≤ l.entries.length := by
    simpa using (List.takeWhile_sublist (p := fun x : LogEntry => x.time == e.time && x.code > e.code)
      (l := l.entries.reverse)).length_le
  unfold ErrLog.enter
  dsimp only
  split
  · rename_i n hn
    have h0 : l.entries.take (l.entries.length -
        (l.entries.reverse.takeWhile fun x => x.time == e.time && x.code > e.code).length) ≠ [] := by
      intro hc; simp [hc] at hn
    have h1 := List.length_pos_iff.mpr h0
    simp only [List.length_take] at h1
    split
    · simp only [List.length_append, List.length_dropLast, List.length_take, List.length_cons, List.length_nil,
        List.length_reverse]
      omega
    · split
      · exact h
      · simp only [List.length_append, List.length_take, List.length_cons, List.length_nil, List.length_reverse]
        omega
  · split
    · exact h
    · simp only [List.length_cons, List.length_reverse]
      omega

theorem keep_report {M : List Host.Cell} {Q : List Instr} {s : State} (code : BitVec 16) (arg : Word)
    (h : Good M Q s) : Good M Q (report code arg s) :=
  ⟨⟨h.stack, h.pending, h.events, ErrLog.enter_length _ _ h.log⟩, h.croaks⟩

theorem keep_pulse {M : List Host.Cell} {Q : List Instr} {s : State} (line : BitVec 6)
    (h : Good M Q s) : Good M Q (pulse line s) := by
  unfold pulse
  split
  · refine ⟨⟨h.stack, h.pending, ?_, h.log⟩, h.croaks⟩
    simp only [insertEvent_length]; omega
  · exact ⟨⟨h.stack, h.pending, h.events, h.log⟩, h.croaks⟩

/-- Taking this ctrl cycle's CROAK report back adds no entry. -/
theorem ErrLog.untell_length (l : ErrLog) (t : Word) (told : BitVec 8) : (l.untell t told).entries.length ≤ l.entries.length := by
  unfold ErrLog.untell
  dsimp only
  split
  · exact List.length_eraseIdx_le _ _
  · split
    · simp
    · exact Nat.le_refl _

/-- The log as it stands before a CROAK report of this ctrl cycle. -/
theorem told_length (s : State) (h : s.health.log.entries.length ≤ 64) :
    (if (croakCycle s).told = 0 then s.health.log
      else s.health.log.untell (time s) (croakCycle s).told).entries.length ≤ 64 := by
  split
  · exact h
  · exact Nat.le_trans (ErrLog.untell_length _ _ _) h

theorem keep_croakReport {M : List Host.Cell} {Q : List Instr} {s : State} (new : BitVec 8)
    (h : Good M Q s) : Good M Q (croakReport new s) := by
  unfold croakReport
  exact keep_report _ _ ⟨⟨h.stack, h.pending, h.events, told_length s h.log⟩, h.croaks⟩

theorem keep_croakSet {M : List Host.Cell} {Q : List Instr} {s : State} (causes : BitVec 8)
    (h : Good M Q s) : Good M Q (croakSet causes s) := by
  have h1 : ∀ c : CroakCycle, Good M Q { s with health := { s.health with
      cause := s.health.cause ||| causes
      croakNow := c } } :=
    fun c => ⟨⟨h.stack, h.pending, h.events, h.log⟩, fun hf => by simp [h.croaks hf]⟩
  unfold croakSet
  dsimp only
  split
  · exact h1 _
  · split
    · exact keep_pulse _ (keep_countHealth _ _ (keep_croakReport _ (h1 _)))
    · exact keep_croakReport _ (h1 _)

theorem keep_wakeFromRetain {M : List Host.Cell} {Q : List Instr} {s : State} 
    (hgood : Good M Q s) : Good M Q (wakeFromRetain s) := by
  unfold wakeFromRetain
  try dsimp only
  repeat' first
    | with_reducible assumption
    | with_reducible apply keep_ite
    | (fail_if_no_progress with_reducible refine keep_mk rfl rfl rfl rfl rfl rfl ?_)
    | split

theorem keep_respond {M : List Host.Cell} {Q : List Instr} {s : State} (code : BitVec 8)
    (hgood : Good M Q s) : Good M Q (respond code s) := keep_mk (s := s) rfl rfl rfl rfl rfl rfl hgood

theorem keep_unmapped {M : List Host.Cell} {Q : List Instr} {s : State} 
    (hgood : Good M Q s) : Good M Q (unmapped s) := by
  unfold unmapped
  try dsimp only
  repeat' first
    | with_reducible assumption
    | with_reducible apply keep_respond
    | with_reducible apply keep_countPort

theorem keep_ctlWrite {M : List Host.Cell} {Q : List Instr} {s : State} (addr : Addr24) (w : Word) (eff : State → State) (heff : ∀ x, Good M Q x → Good M Q (eff x))
    (hgood : Good M Q s) : Good M Q (ctlWrite addr w eff s) := by
  unfold ctlWrite
  try dsimp only
  repeat' first
    | with_reducible assumption
    | with_reducible apply keep_unmapped
    | with_reducible apply keep_respond
    | with_reducible apply keep_report
    | apply heff
    | with_reducible apply keep_ite
    | split

theorem keep_setMem {M : List Host.Cell} {Q : List Instr} {s : State} (f : MemPath → MemPath)
    (hgood : Good M Q s) : Good M Q (setMem f s) := keep_mk (s := s) rfl rfl rfl rfl rfl rfl hgood

theorem keep_arbitrate {M : List Host.Cell} {Q : List Instr} {s : State} (r : MemReq)
    (hgood : Good M Q s) : Good M Q (arbitrate r s) := by
  unfold arbitrate
  try dsimp only
  repeat' first
    | with_reducible assumption
    | with_reducible apply keep_setMem

theorem keep_wcbFlush {M : List Host.Cell} {Q : List Instr} {s : State} (e : WcbEntry)
    (hgood : Good M Q s) : Good M Q (wcbFlush e s) := by
  unfold wcbFlush
  try dsimp only
  repeat' first
    | with_reducible assumption
    | with_reducible apply keep_arbitrate
    | with_reducible apply keep_setMem

theorem keep_wcbFlushLine {M : List Host.Cell} {Q : List Instr} {s : State} (line : BitVec 34)
    (hgood : Good M Q s) : Good M Q (wcbFlushLine line s) := by
  unfold wcbFlushLine
  try dsimp only
  repeat' first
    | with_reducible assumption
    | with_reducible apply keep_wcbFlush
    | split

theorem keep_wcbWrite {M : List Host.Cell} {Q : List Instr} {s : State} (r : MemReq)
    (hgood : Good M Q s) : Good M Q (wcbWrite r s) := by
  unfold wcbWrite
  try dsimp only
  repeat' first
    | with_reducible assumption
    | with_reducible apply keep_wcbFlush
    | with_reducible apply keep_setMem
    | with_reducible apply keep_countMp
    | with_reducible apply keep_ite
    | split

theorem keep_enqueue {M : List Host.Cell} {Q : List Instr} {s : State} (r : MemReq)
    (hgood : Good M Q s) : Good M Q (enqueue r s) := by
  unfold enqueue
  try dsimp only
  repeat' first
    | with_reducible assumption
    | with_reducible apply keep_wcbWrite
    | with_reducible apply keep_wcbFlushLine
    | with_reducible apply keep_arbitrate
    | with_reducible apply keep_ite
    | split

theorem keep_enqueueAll {M : List Host.Cell} {Q : List Instr} {s : State} (rs : List MemReq)
    (hgood : Good M Q s) : Good M Q (enqueueAll rs s) := by
  unfold enqueueAll
  try dsimp only
  repeat' first
    | with_reducible assumption
    | with_reducible apply keep_enqueue
    | intro _ _ _
    | with_reducible apply keep_foldl

theorem keep_drawFree {M : List Host.Cell} {Q : List Instr} {s : State} 
    (hgood : Good M Q s) : Good M Q (drawFree s).2 := by
  unfold drawFree
  try dsimp only
  repeat' first
    | with_reducible assumption
    | (fail_if_no_progress with_reducible refine keep_mk rfl rfl rfl rfl rfl rfl ?_)

theorem keep_drawFree_eq {M : List Host.Cell} {Q : List Instr} {s t : State} {a : Word} 
    (heq : drawFree s = (a, t)) (hgood : Good M Q s) : Good M Q t := by
  have h := keep_drawFree (M := M) (Q := Q)  hgood
  rw [heq] at h
  exact h

theorem keep_setChan {M : List Host.Cell} {Q : List Instr} {s : State} (n : Nat) (f : StreamCh → StreamCh)
    (hgood : Good M Q s) : Good M Q (setChan n f s) := keep_mk (s := s) rfl rfl rfl rfl rfl rfl hgood

theorem keep_setXch {M : List Host.Cell} {Q : List Instr} {s : State} (k : Nat) (f : XChan → XChan)
    (hgood : Good M Q s) : Good M Q (setXch k f s) := keep_mk (s := s) rfl rfl rfl rfl rfl rfl hgood

theorem keep_setQueue {M : List Host.Cell} {Q : List Instr} {s : State} (q : Nat) (f : PadQueue → PadQueue)
    (hgood : Good M Q s) : Good M Q (setQueue q f s) := keep_mk (s := s) rfl rfl rfl rfl rfl rfl hgood

theorem keep_setLink {M : List Host.Cell} {Q : List Instr} {s : State} (d : Side) (f : LinkEnd → LinkEnd)
    (hgood : Good M Q s) : Good M Q (setLink d f s) := by
  unfold setLink
  try dsimp only
  repeat' first
    | with_reducible assumption
    | (fail_if_no_progress with_reducible refine keep_mk rfl rfl rfl rfl rfl rfl ?_)
    | split

theorem keep_countLink {M : List Host.Cell} {Q : List Instr} {s : State} (d : Side) (i n : Nat)
    (hgood : Good M Q s) : Good M Q (countLink d i n s) := by
  unfold countLink
  try dsimp only
  repeat' first
    | with_reducible assumption
    | with_reducible apply keep_setLink

theorem keep_dropReads {M : List Host.Cell} {Q : List Instr} {s : State} (p : Who → Bool)
    (hgood : Good M Q s) : Good M Q (dropReads p s) := by
  unfold dropReads
  try dsimp only
  repeat' first
    | with_reducible assumption
    | with_reducible apply keep_ite
    | (fail_if_no_progress with_reducible refine keep_mk rfl rfl rfl rfl rfl rfl ?_)
    | split

theorem keep_forgetMem {M : List Host.Cell} {Q : List Instr} {s : State} (p : Who → Bool)
    (hgood : Good M Q s) : Good M Q (forgetMem p s) := by
  unfold forgetMem
  try dsimp only
  repeat' first
    | with_reducible assumption
    | with_reducible apply keep_dropReads
    | with_reducible apply keep_ite
    | (fail_if_no_progress with_reducible refine keep_mk rfl rfl rfl rfl rfl rfl ?_)
    | split

end Sys2Proof.Machine
end

