-- ==== Sys2Proof/Laws/KeepPond.lean ====
section
/-! SUPPORT. What each operation of Machine/Pond.lean keeps (Laws/Keep.lean). -/
namespace Sys2Proof.Machine

-- the proofs below are one script for many operations, of which each uses its own part
set_option linter.unusedTactic false
set_option linter.unreachableTactic false

theorem keep_setPad {M : List Host.Cell} {Q : List Instr} {s : State} (i : Nat) (f : Pad → Pad)
    (hgood : Good M Q s) : Good M Q (setPad i f s) := keep_mk (s := s) rfl rfl rfl rfl rfl rfl hgood

theorem keep_padFreeInvalid {M : List Host.Cell} {Q : List Instr} {s : State} (reason : BitVec 2) (handle : BitVec 16) (freer : BitVec 6)
    (hgood : Good M Q s) : Good M Q (padFreeInvalid reason handle freer s) := by
  unfold padFreeInvalid
  try dsimp only
  repeat' first
    | with_reducible assumption
    | with_reducible apply keep_report
    | with_reducible apply keep_countStrm
    | with_reducible apply keep_ite
    | (fail_if_no_progress with_reducible refine keep_mk rfl rfl rfl rfl rfl rfl ?_)
    | split

theorem keep_padFree {M : List Host.Cell} {Q : List Instr} {s : State} (handle : BitVec 16) (freer : BitVec 6)
    (hgood : Good M Q s) : Good M Q (padFree handle freer s) := by
  unfold padFree
  try dsimp only
  repeat' first
    | with_reducible assumption
    | with_reducible apply keep_padFreeInvalid
    | with_reducible apply keep_setPad
    | with_reducible apply keep_ite
    | (fail_if_no_progress with_reducible refine keep_mk rfl rfl rfl rfl rfl rfl ?_)
    | split

theorem keep_padFreeAll {M : List Host.Cell} {Q : List Instr} {s : State} (hs : List (BitVec 16)) (freer : BitVec 6)
    (hgood : Good M Q s) : Good M Q (padFreeAll hs freer s) := by
  unfold padFreeAll
  try dsimp only
  repeat' first
    | with_reducible assumption
    | with_reducible apply keep_padFree
    | intro _ _ _
    | with_reducible apply keep_foldl

theorem keep_padGive {M : List Host.Cell} {Q : List Instr} {s : State} (handle : BitVec 16) (owner : BitVec 6)
    (hgood : Good M Q s) : Good M Q (padGive handle owner s) := by
  unfold padGive
  try dsimp only
  repeat' first
    | with_reducible assumption
    | with_reducible apply keep_setPad

theorem keep_padStore {M : List Host.Cell} {Q : List Instr} {s : State} (handle : BitVec 16) (i : Nat) (l : Line)
    (hgood : Good M Q s) : Good M Q (padStore handle i l s) := by
  unfold padStore
  try dsimp only
  repeat' first
    | with_reducible assumption
    | with_reducible apply keep_setPad

theorem keep_takePads {M : List Host.Cell} {Q : List Instr} (owner : BitVec 6) (r : Nat) (l : List (BitVec 11))
    {s : State} (h : Good M Q s) : ∀ x ∈ takePads owner r l s, Good M Q x.2 := by
  induction l generalizing s with
  | nil => intro x hx; simp only [takePads, Option.mem_def, Option.some.injEq] at hx; subst hx; exact h
  | cons i l ih =>
    intro x hx
    unfold takePads at hx
    dsimp only at hx
    split at hx
    · simp only [Option.map_eq_some_iff, Option.mem_def] at hx
      obtain ⟨⟨hs, u⟩, hu, rfl⟩ := hx
      exact ih (keep_setPad _ _ h) (hs, u) hu
    · exact absurd hx (by simp)

theorem keep_queuePush {M : List Host.Cell} {Q : List Instr} {s : State} (q : Nat) (e : PqEntry)
    (hgood : Good M Q s) : Good M Q (queuePush q e s) := by
  unfold queuePush
  try dsimp only
  repeat' first
    | with_reducible assumption
    | with_reducible apply keep_setQueue
    | with_reducible apply keep_ite
    | split

theorem keep_queueSettle {M : List Host.Cell} {Q : List Instr} {s : State} (q : Nat)
    (hgood : Good M Q s) : Good M Q (queueSettle q s) := by
  unfold queueSettle
  try dsimp only
  repeat' first
    | with_reducible assumption
    | with_reducible apply keep_queuePush
    | with_reducible apply keep_setQueue
    | with_reducible apply keep_ite
    | split

end Sys2Proof.Machine
end

