-- ==== Sys2Proof/Laws/KeepCodec.lean ====
section
/-! SUPPORT. What each operation of Machine/Codec.lean keeps (Laws/Keep.lean). -/
namespace Sys2Proof.Machine

-- the proofs below are one script for many operations, of which each uses its own part
set_option linter.unusedTactic false
set_option linter.unreachableTactic false

theorem keep_storeOut {M : List Host.Cell} {Q : List Instr} {s : State} (t : TileSt) (o : TileOut)
    (hgood : Good M Q s) : Good M Q (storeOut t o s) := by
  unfold storeOut
  try dsimp only
  repeat' first
    | with_reducible assumption
    | with_reducible apply keep_padStore
    | intro _ _ _
    | with_reducible apply keep_foldl
    | split

end Sys2Proof.Machine
end

