-- ==== Sys2Proof/Laws/KeepFarOps.lean ====
section
/-! SUPPORT. What each operation of Machine/FarOps.lean keeps (Laws/Keep.lean). -/
namespace Sys2Proof.Machine

-- the proofs below are one script for many operations, of which each uses its own part
set_option linter.unusedTactic false
set_option linter.unreachableTactic false

theorem keep_farSend {M : List Host.Cell} {Q : List Instr} {s : State} (who : Who) (write : Bool) (line : BitVec 58) (data : Line) (src : BitVec 6) (urgent : Bool) (tag : BitVec 12)
    (hgood : Good M Q s) : Good M Q (farSend who write line data src urgent tag s) := keep_mk (s := s) rfl rfl rfl rfl rfl rfl hgood

theorem keep_dropFar {M : List Host.Cell} {Q : List Instr} {s : State} (p : Who → Bool)
    (hgood : Good M Q s) : Good M Q (dropFar p s) := by
  unfold dropFar
  try dsimp only
  repeat' first
    | with_reducible assumption
    | with_reducible apply keep_ite
    | (fail_if_no_progress with_reducible refine keep_mk rfl rfl rfl rfl rfl rfl ?_)
    | split

theorem keep_forgetFar {M : List Host.Cell} {Q : List Instr} {s : State} (p : Who → Bool)
    (hgood : Good M Q s) : Good M Q (forgetFar p s) := by
  unfold forgetFar
  try dsimp only
  repeat' first
    | with_reducible assumption
    | with_reducible apply keep_ite
    | (fail_if_no_progress with_reducible refine keep_mk rfl rfl rfl rfl rfl rfl ?_)
    | split

end Sys2Proof.Machine
end

