-- ==== Sys2Proof/Laws/KeepExports.lean ====
section
/-! SUPPORT. What each operation of Machine/Exports.lean keeps (Laws/Keep.lean). -/
namespace Sys2Proof.Machine

-- the proofs below are one script for many operations, of which each uses its own part
set_option linter.unusedTactic false
set_option linter.unreachableTactic false

theorem keep_addRecord {M : List Host.Cell} {Q : List Instr} {s : State} (k : Nat) (r : XRecord) (changed : Nat)
    (hgood : Good M Q s) : Good M Q (addRecord k r changed s) := by
  unfold addRecord
  try dsimp only
  repeat' first
    | with_reducible assumption
    | with_reducible apply keep_setXch
    | with_reducible apply keep_ite
    | split

theorem keep_countRecord {M : List Host.Cell} {Q : List Instr} {s : State} (r : XRecord)
    (hgood : Good M Q s) : Good M Q (countRecord r s) := by
  unfold countRecord
  try dsimp only
  repeat' first
    | with_reducible assumption
    | with_reducible apply keep_countXch
    | with_reducible apply keep_ite
    | split

theorem keep_popRecord {M : List Host.Cell} {Q : List Instr} {s : State} (k : Nat) (r : XRecord)
    (hgood : Good M Q s) : Good M Q (popRecord k r s) := by
  unfold popRecord
  try dsimp only
  repeat' first
    | with_reducible assumption
    | with_reducible apply keep_countRecord
    | with_reducible apply keep_padFree
    | with_reducible apply keep_setXch
    | split

theorem keep_settleOffers {M : List Host.Cell} {Q : List Instr} {s : State} 
    (hgood : Good M Q s) : Good M Q (settleOffers s) := by
  unfold settleOffers
  try dsimp only
  repeat' first
    | with_reducible assumption
    | with_reducible apply keep_padFreeAll
    | (fail_if_no_progress with_reducible refine keep_mk rfl rfl rfl rfl rfl rfl ?_)
    | split

theorem keep_leaveOffers {M : List Host.Cell} {Q : List Instr} {s : State} (k : Nat)
    (hgood : Good M Q s) : Good M Q (leaveOffers k s) := by
  unfold leaveOffers
  try dsimp only
  repeat' first
    | with_reducible assumption
    | with_reducible apply keep_settleOffers
    | (fail_if_no_progress with_reducible refine keep_mk rfl rfl rfl rfl rfl rfl ?_)

theorem keep_dropLagRead {M : List Host.Cell} {Q : List Instr} {s : State} (k : Nat)
    (hgood : Good M Q s) : Good M Q (dropLagRead k s) := by
  unfold dropLagRead
  try dsimp only
  repeat' first
    | with_reducible assumption
    | with_reducible apply keep_padFree
    | with_reducible apply keep_dropReads
    | with_reducible apply keep_setXch
    | split

theorem keep_dropPads {M : List Host.Cell} {Q : List Instr} {s : State} (k : Nat)
    (hgood : Good M Q s) : Good M Q (dropPads k s) := by
  unfold dropPads
  try dsimp only
  repeat' first
    | with_reducible assumption
    | with_reducible apply keep_padFreeAll
    | with_reducible apply keep_setXch

theorem keep_endJob {M : List Host.Cell} {Q : List Instr} {s : State} (k : Nat)
    (hgood : Good M Q s) : Good M Q (endJob k s) := by
  unfold endJob
  try dsimp only
  repeat' first
    | with_reducible assumption
    | with_reducible apply keep_forgetFar
    | with_reducible apply keep_padFreeAll
    | with_reducible apply keep_dropReads
    | with_reducible apply keep_setXch
    | (fail_if_no_progress with_reducible refine keep_mk rfl rfl rfl rfl rfl rfl ?_)
    | split

theorem keep_stepCancel {M : List Host.Cell} {Q : List Instr} {s : State} (k ord : Nat) (discard : Bool)
    (hgood : Good M Q s) : Good M Q (stepCancel k ord discard s) := by
  unfold stepCancel
  try dsimp only
  repeat' first
    | with_reducible assumption
    | with_reducible apply keep_addRecord
    | with_reducible apply keep_padFreeAll
    | with_reducible apply keep_setXch
    | with_reducible apply keep_ite
    | split

theorem keep_queueStepEnd {M : List Host.Cell} {Q : List Instr} {s : State} (k : Nat)
    (hgood : Good M Q s) : Good M Q (queueStepEnd k s) := by
  unfold queueStepEnd
  try dsimp only
  repeat' first
    | with_reducible assumption
    | with_reducible apply keep_addRecord
    | with_reducible apply keep_setXch
    | with_reducible apply keep_ite
    | split

theorem keep_skipBareTiles {M : List Host.Cell} {Q : List Instr} {s : State} (k : Nat)
    (hgood : Good M Q s) : Good M Q (skipBareTiles k s) := by
  unfold skipBareTiles
  try dsimp only
  repeat' first
    | with_reducible assumption
    | with_reducible apply keep_setXch
    | with_reducible apply keep_ite
    | split

theorem keep_lagRead {M : List Host.Cell} {Q : List Instr} {s : State} (k ord : Nat) (flags : BitVec 8) (cursor : Bool)
    (hgood : Good M Q s) : Good M Q (lagRead k ord flags cursor s) := by
  unfold lagRead
  try dsimp only
  repeat' first
    | with_reducible assumption
    | with_reducible apply keep_addRecord
    | with_reducible apply keep_setXch
    | with_reducible apply keep_enqueueAll
    | with_reducible apply keep_ite
    | split

theorem keep_lagStart {M : List Host.Cell} {Q : List Instr} {s : State} (k : Nat)
    (hgood : Good M Q s) : Good M Q (lagStart k s) := by
  unfold lagStart
  try dsimp only
  repeat' first
    | with_reducible assumption
    | with_reducible apply keep_lagRead
    | with_reducible apply keep_skipBareTiles
    | with_reducible apply keep_queueStepEnd
    | with_reducible apply keep_setXch
    | with_reducible apply keep_ite
    | split

theorem keep_lagStartAll {M : List Host.Cell} {Q : List Instr} {s : State} 
    (hgood : Good M Q s) : Good M Q (lagStartAll s) := by
  unfold lagStartAll
  try dsimp only
  repeat' first
    | with_reducible assumption
    | with_reducible apply keep_lagStart
    | intro _ _ _
    | with_reducible apply keep_foldl

theorem keep_xchFault {M : List Host.Cell} {Q : List Instr} {s : State} (k : Nat) (code : BitVec 8) (farLine : BitVec 56)
    (hgood : Good M Q s) : Good M Q (xchFault k code farLine s) := by
  unfold xchFault
  try dsimp only
  repeat' first
    | with_reducible assumption
    | with_reducible apply keep_endJob
    | with_reducible apply keep_dropPads
    | with_reducible apply keep_dropLagRead
    | with_reducible apply keep_leaveOffers
    | with_reducible apply keep_forgetFar
    | with_reducible apply keep_padFreeAll
    | with_reducible apply keep_setXch
    | with_reducible apply keep_pulse
    | split

theorem keep_lagReadDone {M : List Host.Cell} {Q : List Instr} {s : State} (k ord i : Nat) (data : Option Line)
    (hgood : Good M Q s) : Good M Q (lagReadDone k ord i data s) := by
  unfold lagReadDone
  try dsimp only
  repeat' first
    | with_reducible assumption
    | with_reducible apply keep_xchFault
    | with_reducible apply keep_lagStart
    | with_reducible apply keep_addRecord
    | with_reducible apply keep_setXch
    | with_reducible apply keep_ite
    | split

theorem keep_stepEnd {M : List Host.Cell} {Q : List Instr} {s : State} (k : Nat)
    (hgood : Good M Q s) : Good M Q (stepEnd k s) := by
  unfold stepEnd
  try dsimp only
  repeat' first
    | with_reducible assumption
    | with_reducible apply keep_dropPads
    | with_reducible apply keep_popRecord
    | with_reducible apply keep_setXch
    | with_reducible apply keep_pulse
    | with_reducible apply keep_ite
    | split

theorem keep_deltaGate {M : List Host.Cell} {Q : List Instr} {s : State} (step tag : BitVec 32) (k : Nat)
    (hgood : Good M Q s) : Good M Q (deltaGate step tag k s) := by
  unfold deltaGate
  try dsimp only
  repeat' first
    | with_reducible assumption
    | with_reducible apply keep_stepEnd
    | with_reducible apply keep_stepCancel
    | with_reducible apply keep_dropLagRead
    | with_reducible apply keep_leaveOffers
    | with_reducible apply keep_setXch
    | with_reducible apply keep_ite
    | split

theorem keep_exportsGate {M : List Host.Cell} {Q : List Instr} {s : State} (step tag : BitVec 32)
    (hgood : Good M Q s) : Good M Q (exportsGate step tag s) := by
  unfold exportsGate
  try dsimp only
  repeat' first
    | with_reducible assumption
    | with_reducible apply keep_deltaGate
    | intro _ _ _
    | with_reducible apply keep_foldl

theorem keep_dropBases {M : List Host.Cell} {Q : List Instr} {s : State} 
    (hgood : Good M Q s) : Good M Q (dropBases s) := by
  unfold dropBases
  try dsimp only
  repeat' first
    | with_reducible assumption
    | with_reducible apply keep_setXch
    | intro _ _ _
    | with_reducible apply keep_foldl

theorem keep_exportsClearHalt {M : List Host.Cell} {Q : List Instr} {s : State} 
    (hgood : Good M Q s) : Good M Q (exportsClearHalt s) := by
  unfold exportsClearHalt
  try dsimp only
  repeat' first
    | with_reducible assumption
    | with_reducible apply keep_stepCancel
    | with_reducible apply keep_dropPads
    | with_reducible apply keep_dropLagRead
    | with_reducible apply keep_leaveOffers
    | with_reducible apply keep_setXch
    | intro _ _ _
    | with_reducible apply keep_foldl
    | with_reducible apply keep_ite
    | split

theorem keep_assembleOne {M : List Host.Cell} {Q : List Instr} {s : State} (k : Nat)
    (hgood : Good M Q s) : Good M Q (assembleOne k s) := by
  unfold assembleOne
  try dsimp only
  repeat' first
    | with_reducible assumption
    | with_reducible apply keep_addRecord
    | with_reducible apply keep_setXch
    | with_reducible apply keep_ite
    | (fail_if_no_progress with_reducible refine keep_mk rfl rfl rfl rfl rfl rfl ?_)
    | split

theorem keep_assembleAll {M : List Host.Cell} {Q : List Instr} {s : State} 
    (hgood : Good M Q s) : Good M Q (assembleAll s) := by
  unfold assembleAll
  try dsimp only
  repeat' first
    | with_reducible assumption
    | with_reducible apply keep_assembleOne
    | with_reducible apply keep_settleOffers
    | intro _ _ _
    | with_reducible apply keep_foldl

theorem keep_exportOffer {M : List Host.Cell} {Q : List Instr} {s : State} (o : XOffer)
    (hgood : Good M Q s) : Good M Q (exportOffer o s) := by
  unfold exportOffer
  try dsimp only
  repeat' first
    | with_reducible assumption
    | with_reducible apply keep_assembleAll
    | with_reducible apply keep_setXch
    | with_reducible apply keep_countXch
    | intro _ _ _
    | with_reducible apply keep_foldl
    | with_reducible apply keep_ite
    | (fail_if_no_progress with_reducible refine keep_mk rfl rfl rfl rfl rfl rfl ?_)
    | split

theorem keep_settleRecords {M : List Host.Cell} {Q : List Instr} (k : Nat) (n : Nat) {s : State} (h : Good M Q s) :
    Good M Q (settleRecords k n s) := by
  induction n generalizing s with
  | zero => exact h
  | succ n ih =>
    unfold settleRecords
    try dsimp only
    repeat' first
      | with_reducible assumption
      | apply ih
      | with_reducible apply keep_popRecord
      | with_reducible apply keep_ite
      | split

theorem keep_recordAck {M : List Host.Cell} {Q : List Instr} {s : State} (k : Nat) (seq : BitVec 32) (i : Nat) (ok : Bool) (code : BitVec 8)
    (hgood : Good M Q s) : Good M Q (recordAck k seq i ok code s) := by
  unfold recordAck
  try dsimp only
  repeat' first
    | with_reducible assumption
    | with_reducible apply keep_settleRecords
    | with_reducible apply keep_assembleAll
    | with_reducible apply keep_xchFault
    | with_reducible apply keep_lagStart
    | with_reducible apply keep_setXch
    | with_reducible apply keep_ite
    | split

theorem keep_creditDone {M : List Host.Cell} {Q : List Instr} {s : State} (k : Nat) (data : Option Line) (code : BitVec 8)
    (hgood : Good M Q s) : Good M Q (creditDone k data code s) := by
  unfold creditDone
  try dsimp only
  repeat' first
    | with_reducible assumption
    | with_reducible apply keep_xchFault
    | with_reducible apply keep_setXch
    | with_reducible apply keep_ite
    | split

theorem keep_startChunk {M : List Host.Cell} {Q : List Instr} {s : State} (k : Nat) (h : BitVec 16)
    (hgood : Good M Q s) : Good M Q (startChunk k h s) := by
  unfold startChunk
  try dsimp only
  repeat' first
    | with_reducible assumption
    | with_reducible apply keep_setXch
    | with_reducible apply keep_enqueueAll
    | split

theorem keep_copyReadDone {M : List Host.Cell} {Q : List Instr} {s : State} (k i : Nat) (data : Option Line)
    (hgood : Good M Q s) : Good M Q (copyReadDone k i data s) := by
  unfold copyReadDone
  try dsimp only
  repeat' first
    | with_reducible assumption
    | with_reducible apply keep_xchFault
    | with_reducible apply keep_setXch
    | with_reducible apply keep_ite
    | split

theorem keep_settleStopX {M : List Host.Cell} {Q : List Instr} {s : State} (k : Nat)
    (hgood : Good M Q s) : Good M Q (settleStopX k s) := by
  unfold settleStopX
  try dsimp only
  repeat' first
    | with_reducible assumption
    | with_reducible apply keep_endJob
    | with_reducible apply keep_setXch
    | with_reducible apply keep_ite
    | split

theorem keep_copyAck {M : List Host.Cell} {Q : List Instr} {s : State} (k i : Nat) (ok : Bool) (code : BitVec 8)
    (hgood : Good M Q s) : Good M Q (copyAck k i ok code s) := by
  unfold copyAck
  try dsimp only
  repeat' first
    | with_reducible assumption
    | with_reducible apply keep_settleStopX
    | with_reducible apply keep_xchFault
    | with_reducible apply keep_padFree
    | with_reducible apply keep_setXch
    | with_reducible apply keep_countXch
    | with_reducible apply keep_ite
    | split

theorem keep_copyBackDone {M : List Host.Cell} {Q : List Instr} {s : State} (k : Nat) (data : Option Line) (code : BitVec 8)
    (hgood : Good M Q s) : Good M Q (copyBackDone k data code s) := by
  unfold copyBackDone
  try dsimp only
  repeat' first
    | with_reducible assumption
    | with_reducible apply keep_settleStopX
    | with_reducible apply keep_xchFault
    | with_reducible apply keep_setXch
    | with_reducible apply keep_ite
    | split

theorem keep_setXErr {M : List Host.Cell} {Q : List Instr} {s : State} (k : Nat) (e : BitVec 8)
    (hgood : Good M Q s) : Good M Q (setXErr k e s) := by
  unfold setXErr
  try dsimp only
  repeat' first
    | with_reducible assumption
    | with_reducible apply keep_setXch

theorem keep_xchStart {M : List Host.Cell} {Q : List Instr} {s : State} (k : Nat) (tag : BitVec 32)
    (hgood : Good M Q s) : Good M Q (xchStart k tag s) := by
  unfold xchStart
  try dsimp only
  repeat' first
    | with_reducible assumption
    | with_reducible apply keep_setXErr
    | with_reducible apply keep_setXch
    | with_reducible apply keep_ite
    | split

theorem keep_xchStop {M : List Host.Cell} {Q : List Instr} {s : State} (k : Nat)
    (hgood : Good M Q s) : Good M Q (xchStop k s) := by
  unfold xchStop
  try dsimp only
  repeat' first
    | with_reducible assumption
    | with_reducible apply keep_setXErr
    | with_reducible apply keep_settleStopX
    | with_reducible apply keep_setXch
    | with_reducible apply keep_ite
    | split

theorem keep_xchRebase {M : List Host.Cell} {Q : List Instr} {s : State} (k : Nat)
    (hgood : Good M Q s) : Good M Q (xchRebase k s) := by
  unfold xchRebase
  try dsimp only
  repeat' first
    | with_reducible assumption
    | with_reducible apply keep_setXErr
    | with_reducible apply keep_stepCancel
    | with_reducible apply keep_leaveOffers
    | with_reducible apply keep_setXch
    | with_reducible apply keep_ite
    | split

theorem keep_writeXchCtl {M : List Host.Cell} {Q : List Instr} {s : State} (k : Nat) (w : Word)
    (hgood : Good M Q s) : Good M Q (writeXchCtl k w s) := by
  unfold writeXchCtl
  try dsimp only
  repeat' first
    | with_reducible assumption
    | with_reducible apply keep_xchRebase
    | with_reducible apply keep_xchStop
    | with_reducible apply keep_xchStart
    | with_reducible apply keep_setXErr
    | with_reducible apply keep_ite
    | split

theorem keep_writeXchCommit {M : List Host.Cell} {Q : List Instr} {s : State} (w : Word)
    (hgood : Good M Q s) : Good M Q (writeXchCommit w s) := by
  unfold writeXchCommit
  try dsimp only
  repeat' first
    | with_reducible assumption
    | with_reducible apply keep_ite
    | (fail_if_no_progress with_reducible refine keep_mk rfl rfl rfl rfl rfl rfl ?_)
    | split

theorem keep_leaveXch {M : List Host.Cell} {Q : List Instr} {s : State} (k : Nat) (f : XCfg)
    (hgood : Good M Q s) : Good M Q (leaveXch k f s) := by
  unfold leaveXch
  try dsimp only
  repeat' first
    | with_reducible assumption
    | with_reducible apply keep_dropPads
    | with_reducible apply keep_forgetFar
    | with_reducible apply keep_padFreeAll
    | with_reducible apply keep_setXch
    | with_reducible apply keep_ite
    | split

theorem keep_applyXchSet {M : List Host.Cell} {Q : List Instr} {s : State} 
    (hgood : Good M Q s) : Good M Q (applyXchSet s) := by
  unfold applyXchSet
  try dsimp only
  repeat' first
    | with_reducible assumption
    | with_reducible apply keep_leaveXch
    | intro _ _ _
    | with_reducible apply keep_foldl
    | with_reducible apply keep_ite
    | (fail_if_no_progress with_reducible refine keep_mk rfl rfl rfl rfl rfl rfl ?_)
    | split

theorem keep_execXchCommit {M : List Host.Cell} {Q : List Instr} {s : State} (w : Word)
    (hgood : Good M Q s) : GoodOut M Q (execXchCommit w s) := by
  unfold execXchCommit
  try dsimp only
  repeat' first
    | with_reducible assumption
    | with_reducible apply keep_writeXchCommit
    | with_reducible apply keep_ctlWrite
    | with_reducible apply goodOut_next
    | intro _ _

theorem keep_execXchStart {M : List Host.Cell} {Q : List Instr} {s : State} (k : BitVec 3) (w : Word)
    (hgood : Good M Q s) : GoodOut M Q (execXchStart k w s) := by
  unfold execXchStart
  try dsimp only
  repeat' first
    | with_reducible assumption
    | with_reducible apply keep_writeXchCtl
    | with_reducible apply keep_ctlWrite
    | with_reducible apply goodOut_next
    | intro _ _

theorem keep_execXchStop {M : List Host.Cell} {Q : List Instr} {s : State} (k : BitVec 3) (w : Word)
    (hgood : Good M Q s) : GoodOut M Q (execXchStop k w s) := by
  unfold execXchStop
  try dsimp only
  repeat' first
    | with_reducible assumption
    | with_reducible apply keep_writeXchCtl
    | with_reducible apply keep_ctlWrite
    | with_reducible apply goodOut_next
    | intro _ _

theorem keep_execRebase {M : List Host.Cell} {Q : List Instr} {s : State} (k : BitVec 3) (w : Word)
    (hgood : Good M Q s) : GoodOut M Q (execRebase k w s) := by
  unfold execRebase
  try dsimp only
  repeat' first
    | with_reducible assumption
    | with_reducible apply keep_writeXchCtl
    | with_reducible apply keep_ctlWrite
    | with_reducible apply goodOut_next
    | intro _ _

theorem keep_execExportDone {M : List Host.Cell} {Q : List Instr} {s : State} (k : BitVec 3)
    (hgood : Good M Q s) : GoodOut M Q (execExportDone k s) := by
  unfold execExportDone
  try dsimp only
  repeat' first
    | with_reducible assumption
    | with_reducible apply keep_endJob
    | with_reducible apply keep_setXch
    | with_reducible apply keep_pulse
    | with_reducible apply goodOut_next
    | with_reducible apply keep_ite
    | split

theorem keep_execDeltaStepEnd {M : List Host.Cell} {Q : List Instr} {s : State} (k : BitVec 3)
    (hgood : Good M Q s) : GoodOut M Q (execDeltaStepEnd k s) := by
  unfold execDeltaStepEnd
  try dsimp only
  repeat' first
    | with_reducible assumption
    | with_reducible apply keep_stepEnd
    | with_reducible apply goodOut_next
    | with_reducible apply keep_ite
    | split

theorem keep_execDoorbellWrite {M : List Host.Cell} {Q : List Instr} {s : State} (k : BitVec 3)
    (hgood : Good M Q s) : GoodOut M Q (execDoorbellWrite k s) := by
  unfold execDoorbellWrite
  try dsimp only
  repeat' first
    | with_reducible assumption
    | with_reducible apply keep_setXch
    | with_reducible apply goodOut_next
    | with_reducible apply keep_ite
    | split

theorem keep_execCreditRead {M : List Host.Cell} {Q : List Instr} {s : State} (k : BitVec 3)
    (hgood : Good M Q s) : GoodOut M Q (execCreditRead k s) := by
  unfold execCreditRead
  try dsimp only
  repeat' first
    | with_reducible assumption
    | with_reducible apply keep_setXch
    | with_reducible apply goodOut_next
    | with_reducible apply keep_ite
    | split

end Sys2Proof.Machine
end

