-- ==== Sys2Proof/Laws/KeepLinkOps.lean ====
section
/-! SUPPORT. What each operation of Machine/LinkOps.lean keeps (Laws/Keep.lean). -/
namespace Sys2Proof.Machine

-- the proofs below are one script for many operations, of which each uses its own part
set_option linter.unusedTactic false
set_option linter.unreachableTactic false

theorem keep_linkWake {M : List Host.Cell} {Q : List Instr} {s : State} (d : Side)
    (hgood : Good M Q s) : Good M Q (linkWake d s) := by
  unfold linkWake
  try dsimp only
  repeat' first
    | with_reducible assumption
    | with_reducible apply keep_setLink
    | with_reducible apply keep_ite
    | split

theorem keep_sendOn {M : List Host.Cell} {Q : List Instr} {s : State} (d : Side) (vc : BitVec 2) (payload : Line) (dest : Nat) (bcast : Bool)
    (hgood : Good M Q s) : Good M Q (sendOn d vc payload dest bcast s) := by
  unfold sendOn
  try dsimp only
  repeat' first
    | with_reducible assumption
    | with_reducible apply keep_linkWake
    | with_reducible apply keep_setLink
    | with_reducible apply keep_ite
    | split

theorem keep_broadcast {M : List Host.Cell} {Q : List Instr} {s : State} (vc : BitVec 2) (payload : Line)
    (hgood : Good M Q s) : Good M Q (broadcast vc payload s) := by
  unfold broadcast
  try dsimp only
  repeat' first
    | with_reducible assumption
    | with_reducible apply keep_sendOn
    | with_reducible apply keep_ite
    | split

theorem keep_deliver {M : List Host.Cell} {Q : List Instr} {s : State} (src : Source) (vc : BitVec 2) (m : Line)
    (hgood : Good M Q s) : Good M Q (deliver src vc m s) := keep_mk (s := s) rfl rfl rfl rfl rfl rfl hgood

theorem keep_sendToManager {M : List Host.Cell} {Q : List Instr} {s : State} (vc : BitVec 2) (m : Line)
    (hgood : Good M Q s) : Good M Q (sendToManager vc m s) := by
  unfold sendToManager
  try dsimp only
  repeat' first
    | with_reducible assumption
    | with_reducible apply keep_deliver
    | with_reducible apply keep_sendOn
    | with_reducible apply keep_ite
    | split

theorem keep_fmpTransmit {M : List Host.Cell} {Q : List Instr} {s : State} (m : FmpMsg)
    (hgood : Good M Q s) : Good M Q (fmpTransmit m s) := keep_mk (s := s) rfl rfl rfl rfl rfl rfl hgood

theorem keep_fmpDrain {M : List Host.Cell} {Q : List Instr} (n : Nat) {s : State} (h : Good M Q s) :
    Good M Q (fmpDrain n s) := by
  induction n generalizing s with
  | zero => exact h
  | succ n ih =>
    unfold fmpDrain
    try dsimp only
    repeat' first
      | with_reducible assumption
      | apply ih
      | with_reducible apply keep_fmpTransmit
      | with_reducible apply keep_countFmp
      | (fail_if_no_progress with_reducible refine keep_mk rfl rfl rfl rfl rfl rfl ?_)
      | split

theorem keep_fmpSend {M : List Host.Cell} {Q : List Instr} {s : State} (dest : BitVec 32) (payload : Line)
    (hgood : Good M Q s) : Good M Q (fmpSend dest payload s) := by
  unfold fmpSend
  try dsimp only
  repeat' first
    | with_reducible assumption
    | with_reducible apply keep_fmpDrain
    | (fail_if_no_progress with_reducible refine keep_mk rfl rfl rfl rfl rfl rfl ?_)

theorem keep_sendToParent {M : List Host.Cell} {Q : List Instr} {s : State} (m : Line)
    (hgood : Good M Q s) : Good M Q (sendToParent m s) := by
  unfold sendToParent
  try dsimp only
  repeat' first
    | with_reducible assumption
    | with_reducible apply keep_fmpSend
    | split

theorem keep_sendToChildren {M : List Host.Cell} {Q : List Instr} {s : State} (m : Line)
    (hgood : Good M Q s) : Good M Q (sendToChildren m s) := by
  unfold sendToChildren
  try dsimp only
  repeat' first
    | with_reducible assumption
    | with_reducible apply keep_fmpSend
    | intro _ _ _
    | with_reducible apply keep_foldl
    | split

theorem keep_flashSend {M : List Host.Cell} {Q : List Instr} {s : State} (d : Side) (f : Flash)
    (hgood : Good M Q s) : Good M Q (flashSend d f s) := by
  unfold flashSend
  try dsimp only
  repeat' first
    | with_reducible assumption
    | with_reducible apply keep_linkWake
    | with_reducible apply keep_countLink
    | with_reducible apply keep_setLink
    | split

theorem keep_linksSeal {M : List Host.Cell} {Q : List Instr} {s : State} 
    (hgood : Good M Q s) : Good M Q (linksSeal s) := by
  unfold linksSeal
  try dsimp only
  repeat' first
    | with_reducible assumption
    | with_reducible apply keep_setLink
    | intro _ _ _
    | with_reducible apply keep_foldl
    | with_reducible apply keep_ite
    | split

theorem keep_linksRun {M : List Host.Cell} {Q : List Instr} {s : State} (aborted : Bool)
    (hgood : Good M Q s) : Good M Q (linksRun aborted s) := by
  unfold linksRun
  try dsimp only
  repeat' first
    | with_reducible assumption
    | with_reducible apply keep_setLink
    | intro _ _ _
    | with_reducible apply keep_foldl
    | with_reducible apply keep_ite
    | split

theorem keep_linksReturn {M : List Host.Cell} {Q : List Instr} {s : State} 
    (hgood : Good M Q s) : Good M Q (linksReturn s) := by
  unfold linksReturn
  try dsimp only
  repeat' first
    | with_reducible assumption
    | with_reducible apply keep_setLink
    | intro _ _ _
    | with_reducible apply keep_foldl
    | with_reducible apply keep_ite
    | split

theorem keep_bootTo {M : List Host.Cell} {Q : List Instr} {s : State} (code : BitVec 4)
    (hgood : Good M Q s) : Good M Q (bootTo code s) := by
  unfold bootTo
  try dsimp only
  repeat' first
    | with_reducible assumption
    | with_reducible apply keep_ite
    | (fail_if_no_progress with_reducible refine keep_mk rfl rfl rfl rfl rfl rfl ?_)
    | split

end Sys2Proof.Machine
end

