-- ==== Sys2Proof/Laws/KeepHierarchy.lean ====
section
/-! SUPPORT. What each operation of Machine/Hierarchy.lean keeps (Laws/Keep.lean). -/
namespace Sys2Proof.Machine

-- the proofs below are one script for many operations, of which each uses its own part
set_option linter.unusedTactic false
set_option linter.unreachableTactic false

theorem keep_sendBelow {M : List Host.Cell} {Q : List Instr} {s : State} (m : Line)
    (hgood : Good M Q s) : Good M Q (sendBelow m s) := by
  unfold sendBelow
  try dsimp only
  repeat' first
    | with_reducible assumption
    | with_reducible apply keep_fmpSend
    | intro _ _ _
    | with_reducible apply keep_foldl
    | with_reducible apply keep_ite
    | split

theorem keep_flashRing {M : List Host.Cell} {Q : List Instr} {s : State} (f : Flash)
    (hgood : Good M Q s) : Good M Q (flashRing f s) := by
  unfold flashRing
  try dsimp only
  repeat' first
    | with_reducible assumption
    | with_reducible apply keep_flashSend
    | with_reducible apply keep_ite
    | split

theorem keep_holdNotice {M : List Host.Cell} {Q : List Instr} {s : State} (cause : BitVec 8)
    (hgood : Good M Q s) : Good M Q (holdNotice cause s) := by
  unfold holdNotice
  try dsimp only
  repeat' first
    | with_reducible assumption
    | with_reducible apply keep_sendToParent
    | with_reducible apply keep_ite
    | split

theorem keep_holdStep {M : List Host.Cell} {Q : List Instr} {s : State} (cause : BitVec 8) (hi : BitVec 32) (src : BitVec 16)
    (hgood : Good M Q s) : Good M Q (holdStep cause hi src s) := by
  unfold holdStep
  try dsimp only
  repeat' first
    | with_reducible assumption
    | with_reducible apply keep_holdNotice
    | with_reducible apply keep_flashRing
    | with_reducible apply keep_pulse
    | with_reducible apply keep_report
    | with_reducible apply keep_ite
    | (fail_if_no_progress with_reducible refine keep_mk rfl rfl rfl rfl rfl rfl ?_)
    | split

theorem keep_holdJoin {M : List Host.Cell} {Q : List Instr} {s : State} (cause : BitVec 8) (hi : BitVec 32) (src : BitVec 16)
    (hgood : Good M Q s) : Good M Q (holdJoin cause hi src s) := by
  unfold holdJoin
  try dsimp only
  repeat' first
    | with_reducible assumption
    | with_reducible apply keep_holdNotice
    | with_reducible apply keep_report
    | with_reducible apply keep_ite
    | (fail_if_no_progress with_reducible refine keep_mk rfl rfl rfl rfl rfl rfl ?_)
    | split

theorem keep_epochFail {M : List Host.Cell} {Q : List Instr} {s : State} 
    (hgood : Good M Q s) : Good M Q (epochFail s) := by
  unfold epochFail
  try dsimp only
  repeat' first
    | with_reducible assumption
    | with_reducible apply keep_holdStep
    | with_reducible apply keep_croakSet
    | with_reducible apply keep_pulse
    | with_reducible apply keep_ite
    | (fail_if_no_progress with_reducible refine keep_mk rfl rfl rfl rfl rfl rfl ?_)
    | split

theorem keep_issueRecord {M : List Host.Cell} {Q : List Instr} {s : State} (f : RecordBody)
    (hgood : Good M Q s) : Good M Q (issueRecord f s) := by
  unfold issueRecord
  try dsimp only
  repeat' first
    | with_reducible assumption
    | with_reducible apply keep_deliver
    | with_reducible apply keep_ite
    | (fail_if_no_progress with_reducible refine keep_mk rfl rfl rfl rfl rfl rfl ?_)
    | split

theorem keep_issueAbort {M : List Host.Cell} {Q : List Instr} {s : State} 
    (hgood : Good M Q s) : Good M Q (issueAbort s) := by
  unfold issueAbort
  try dsimp only
  repeat' first
    | with_reducible assumption
    | with_reducible apply keep_issueRecord

theorem keep_sendUp {M : List Host.Cell} {Q : List Instr} {s : State} (m : Line)
    (hgood : Good M Q s) : Good M Q (sendUp m s) := by
  unfold sendUp
  try dsimp only
  repeat' first
    | with_reducible assumption
    | with_reducible apply keep_sendToParent
    | (fail_if_no_progress with_reducible refine keep_mk rfl rfl rfl rfl rfl rfl ?_)

theorem keep_skipUp {M : List Host.Cell} {Q : List Instr} {s : State} (m : Line)
    (hgood : Good M Q s) : Good M Q (skipUp m s) := by
  unfold skipUp
  try dsimp only
  repeat' first
    | with_reducible assumption
    | with_reducible apply keep_issueRecord
    | with_reducible apply keep_sendToParent
    | with_reducible apply keep_ite
    | (fail_if_no_progress with_reducible refine keep_mk rfl rfl rfl rfl rfl rfl ?_)
    | split

theorem keep_liftTimeout {M : List Host.Cell} {Q : List Instr} {s : State} 
    (hgood : Good M Q s) : Good M Q (liftTimeout s) := by
  unfold liftTimeout
  try dsimp only
  repeat' first
    | with_reducible assumption
    | with_reducible apply keep_ite
    | (fail_if_no_progress with_reducible refine keep_mk rfl rfl rfl rfl rfl rfl ?_)
    | split

theorem keep_ringSum {M : List Host.Cell} {Q : List Instr} {s : State} 
    (hgood : Good M Q s) : Good M Q (ringSum s) := by
  unfold ringSum
  try dsimp only
  repeat' first
    | with_reducible assumption
    | with_reducible apply keep_skipUp
    | with_reducible apply keep_ite
    | (fail_if_no_progress with_reducible refine keep_mk rfl rfl rfl rfl rfl rfl ?_)
    | split

theorem keep_sumIfWhole {M : List Host.Cell} {Q : List Instr} {s : State} 
    (hgood : Good M Q s) : Good M Q (sumIfWhole s) := by
  unfold sumIfWhole
  try dsimp only
  repeat' first
    | with_reducible assumption
    | with_reducible apply keep_ringSum
    | with_reducible apply keep_liftTimeout
    | with_reducible apply keep_sendUp
    | with_reducible apply keep_issueRecord
    | with_reducible apply keep_ite
    | (fail_if_no_progress with_reducible refine keep_mk rfl rfl rfl rfl rfl rfl ?_)
    | split

theorem keep_joinIfWhole {M : List Host.Cell} {Q : List Instr} {s : State} 
    (hgood : Good M Q s) : Good M Q (joinIfWhole s) := by
  unfold joinIfWhole
  try dsimp only
  repeat' first
    | with_reducible assumption
    | with_reducible apply keep_sendUp
    | with_reducible apply keep_deliver
    | with_reducible apply keep_ite
    | (fail_if_no_progress with_reducible refine keep_mk rfl rfl rfl rfl rfl rfl ?_)
    | split

theorem keep_keepMsg {M : List Host.Cell} {Q : List Instr} {s : State} (m : Line)
    (hgood : Good M Q s) : Good M Q (keepMsg s m) := by
  unfold keepMsg
  try dsimp only
  repeat' first
    | with_reducible assumption
    | (fail_if_no_progress with_reducible refine keep_mk rfl rfl rfl rfl rfl rfl ?_)

theorem keep_abortUp {M : List Host.Cell} {Q : List Instr} {s : State} 
    (hgood : Good M Q s) : Good M Q (abortUp s) := by
  unfold abortUp
  try dsimp only
  repeat' first
    | with_reducible assumption
    | with_reducible apply keep_issueAbort
    | with_reducible apply keep_sendToParent
    | with_reducible apply keep_ite
    | split

theorem keep_startTimeout {M : List Host.Cell} {Q : List Instr} {s : State} 
    (hgood : Good M Q s) : Good M Q (startTimeout s) := by
  unfold startTimeout
  try dsimp only
  repeat' first
    | with_reducible assumption
    | with_reducible apply keep_ite
    | (fail_if_no_progress with_reducible refine keep_mk rfl rfl rfl rfl rfl rfl ?_)
    | split

theorem keep_acceptMsg {M : List Host.Cell} {Q : List Instr} {s : State} (m : Line)
    (hgood : Good M Q s) : Good M Q (acceptMsg m s) := by
  unfold acceptMsg
  try dsimp only
  repeat' first
    | with_reducible assumption
    | with_reducible apply keep_startTimeout
    | with_reducible apply keep_abortUp
    | with_reducible apply keep_joinIfWhole
    | with_reducible apply keep_sumIfWhole
    | with_reducible apply keep_skipUp
    | with_reducible apply keep_holdJoin
    | with_reducible apply keep_holdStep
    | with_reducible apply keep_ite
    | (fail_if_no_progress with_reducible refine keep_mk rfl rfl rfl rfl rfl rfl ?_)
    | split

theorem keep_holdFor {M : List Host.Cell} {Q : List Instr} {s : State} (cause : BitVec 8) (m : Line)
    (hgood : Good M Q s) : Good M Q (holdFor cause m s) := by
  unfold holdFor
  try dsimp only
  repeat' first
    | with_reducible assumption
    | with_reducible apply keep_holdJoin
    | with_reducible apply keep_holdStep
    | with_reducible apply keep_countHier
    | with_reducible apply keep_ite
    | split

theorem keep_aggregate {M : List Host.Cell} {Q : List Instr} {s : State} (m : Line)
    (hgood : Good M Q s) : Good M Q (aggregate m s) := by
  unfold aggregate
  try dsimp only
  repeat' first
    | with_reducible assumption
    | with_reducible apply keep_holdFor
    | with_reducible apply keep_acceptMsg
    | with_reducible apply keep_keepMsg
    | with_reducible apply keep_countHier
    | with_reducible apply keep_ite
    | split

theorem keep_recheckKept {M : List Host.Cell} {Q : List Instr} {s : State} 
    (hgood : Good M Q s) : Good M Q (recheckKept s) := by
  unfold recheckKept
  try dsimp only
  repeat' first
    | with_reducible assumption
    | with_reducible apply keep_aggregate
    | intro _ _ _
    | with_reducible apply keep_foldl
    | (fail_if_no_progress with_reducible refine keep_mk rfl rfl rfl rfl rfl rfl ?_)

theorem keep_contribute {M : List Host.Cell} {Q : List Instr} {s : State} 
    (hgood : Good M Q s) : Good M Q (contribute s) := by
  unfold contribute
  try dsimp only
  repeat' first
    | with_reducible assumption
    | with_reducible apply keep_sendToManager
    | with_reducible apply keep_ite
    | (fail_if_no_progress with_reducible refine keep_mk rfl rfl rfl rfl rfl rfl ?_)
    | split

theorem keep_sendJoin {M : List Host.Cell} {Q : List Instr} {s : State} 
    (hgood : Good M Q s) : Good M Q (sendJoin s) := by
  unfold sendJoin
  try dsimp only
  repeat' first
    | with_reducible assumption
    | with_reducible apply keep_sendToManager
    | (fail_if_no_progress with_reducible refine keep_mk rfl rfl rfl rfl rfl rfl ?_)

theorem keep_forgetAttempt {M : List Host.Cell} {Q : List Instr} {s : State} 
    (hgood : Good M Q s) : Good M Q (forgetAttempt s) := keep_mk (s := s) rfl rfl rfl rfl rfl rfl hgood

theorem keep_nextAttempt {M : List Host.Cell} {Q : List Instr} {s : State} 
    (hgood : Good M Q s) : Good M Q (nextAttempt s) := by
  unfold nextAttempt
  try dsimp only
  repeat' first
    | with_reducible assumption
    | with_reducible apply keep_forgetAttempt
    | with_reducible apply keep_recheckKept
    | (fail_if_no_progress with_reducible refine keep_mk rfl rfl rfl rfl rfl rfl ?_)

theorem keep_setStep {M : List Host.Cell} {Q : List Instr} {s : State} (n : BitVec 32)
    (hgood : Good M Q s) : Good M Q (setStep n s) := by
  unfold setStep
  try dsimp only
  repeat' first
    | with_reducible assumption
    | with_reducible apply keep_forgetAttempt
    | with_reducible apply keep_recheckKept
    | (fail_if_no_progress with_reducible refine keep_mk rfl rfl rfl rfl rfl rfl ?_)

theorem keep_applyMemb {M : List Host.Cell} {Q : List Instr} {s : State} 
    (hgood : Good M Q s) : Good M Q (applyMemb s) := by
  unfold applyMemb
  try dsimp only
  repeat' first
    | with_reducible assumption
    | with_reducible apply keep_sendJoin
    | with_reducible apply keep_recheckKept
    | with_reducible apply keep_ite
    | (fail_if_no_progress with_reducible refine keep_mk rfl rfl rfl rfl rfl rfl ?_)
    | split

theorem keep_writeMembCommit {M : List Host.Cell} {Q : List Instr} {s : State} (w : Word)
    (hgood : Good M Q s) : Good M Q (writeMembCommit w s) := by
  unfold writeMembCommit
  try dsimp only
  repeat' first
    | with_reducible assumption
    | with_reducible apply keep_ite
    | (fail_if_no_progress with_reducible refine keep_mk rfl rfl rfl rfl rfl rfl ?_)
    | split

theorem keep_execMembCommit {M : List Host.Cell} {Q : List Instr} {s : State} (w : Word)
    (hgood : Good M Q s) : GoodOut M Q (execMembCommit w s) := by
  unfold execMembCommit
  try dsimp only
  repeat' first
    | with_reducible assumption
    | with_reducible apply keep_writeMembCommit
    | with_reducible apply keep_ctlWrite
    | with_reducible apply goodOut_next
    | intro _ _

theorem keep_freeBuffer {M : List Host.Cell} {Q : List Instr} {s : State} (d : Side) (vc : BitVec 2)
    (hgood : Good M Q s) : Good M Q (freeBuffer d vc s) := by
  unfold freeBuffer
  try dsimp only
  repeat' first
    | with_reducible assumption
    | with_reducible apply keep_setLink

theorem keep_takeInbox {M : List Host.Cell} {Q : List Instr} {s : State} (src : Source) (m : Line)
    (hgood : Good M Q s) : Good M Q (takeInbox src m s) := by
  unfold takeInbox
  try dsimp only
  repeat' first
    | with_reducible assumption
    | with_reducible apply keep_freeBuffer
    | (fail_if_no_progress with_reducible refine keep_mk rfl rfl rfl rfl rfl rfl ?_)
    | split

theorem keep_fromBelow {M : List Host.Cell} {Q : List Instr} {s : State} (src : Source) (m : Line)
    (hgood : Good M Q s) : Good M Q (fromBelow src m s) := by
  unfold fromBelow
  try dsimp only
  repeat' first
    | with_reducible assumption
    | with_reducible apply keep_takeInbox
    | with_reducible apply keep_aggregate
    | with_reducible apply keep_ite
    | split

theorem keep_takeOpen {M : List Host.Cell} {Q : List Instr} {s : State} (src : Source) (m : Line)
    (hgood : Good M Q s) : Good M Q (takeOpen src m s) := by
  unfold takeOpen
  try dsimp only
  repeat' first
    | with_reducible assumption
    | with_reducible apply keep_takeInbox
    | with_reducible apply keep_sendBelow
    | with_reducible apply keep_bootTo
    | with_reducible apply keep_broadcast
    | with_reducible apply keep_pulse
    | with_reducible apply keep_countHier
    | with_reducible apply keep_ite
    | (fail_if_no_progress with_reducible refine keep_mk rfl rfl rfl rfl rfl rfl ?_)
    | split

theorem keep_execContrib {M : List Host.Cell} {Q : List Instr} {s : State} (src : Source) (m : Line)
    (hgood : Good M Q s) : GoodOut M Q (execContrib src m s) := by
  unfold execContrib
  try dsimp only
  repeat' first
    | with_reducible assumption
    | with_reducible apply keep_fromBelow
    | with_reducible apply goodOut_next

theorem keep_execSum {M : List Host.Cell} {Q : List Instr} {s : State} (src : Source) (m : Line)
    (hgood : Good M Q s) : GoodOut M Q (execSum src m s) := by
  unfold execSum
  try dsimp only
  repeat' first
    | with_reducible assumption
    | with_reducible apply keep_fromBelow
    | with_reducible apply goodOut_next

theorem keep_execSkipNotice {M : List Host.Cell} {Q : List Instr} {s : State} (src : Source) (m : Line)
    (hgood : Good M Q s) : GoodOut M Q (execSkipNotice src m s) := by
  unfold execSkipNotice
  try dsimp only
  repeat' first
    | with_reducible assumption
    | with_reducible apply keep_fromBelow
    | with_reducible apply goodOut_next

theorem keep_execHoldNotice {M : List Host.Cell} {Q : List Instr} {s : State} (src : Source) (m : Line)
    (hgood : Good M Q s) : GoodOut M Q (execHoldNotice src m s) := by
  unfold execHoldNotice
  try dsimp only
  repeat' first
    | with_reducible assumption
    | with_reducible apply keep_fromBelow
    | with_reducible apply goodOut_next

theorem keep_execAbortNotice {M : List Host.Cell} {Q : List Instr} {s : State} (src : Source) (m : Line)
    (hgood : Good M Q s) : GoodOut M Q (execAbortNotice src m s) := by
  unfold execAbortNotice
  try dsimp only
  repeat' first
    | with_reducible assumption
    | with_reducible apply keep_fromBelow
    | with_reducible apply goodOut_next

theorem keep_execJoin {M : List Host.Cell} {Q : List Instr} {s : State} (src : Source) (m : Line)
    (hgood : Good M Q s) : GoodOut M Q (execJoin src m s) := by
  unfold execJoin
  try dsimp only
  repeat' first
    | with_reducible assumption
    | with_reducible apply keep_fromBelow
    | with_reducible apply goodOut_next

theorem keep_execJoinSum {M : List Host.Cell} {Q : List Instr} {s : State} (src : Source) (m : Line)
    (hgood : Good M Q s) : GoodOut M Q (execJoinSum src m s) := by
  unfold execJoinSum
  try dsimp only
  repeat' first
    | with_reducible assumption
    | with_reducible apply keep_fromBelow
    | with_reducible apply goodOut_next

theorem keep_execEpochOpen {M : List Host.Cell} {Q : List Instr} {s : State} (src : Source) (m : Line)
    (hgood : Good M Q s) : GoodOut M Q (execEpochOpen src m s) := by
  unfold execEpochOpen
  try dsimp only
  repeat' first
    | with_reducible assumption
    | with_reducible apply keep_takeOpen
    | with_reducible apply goodOut_next

theorem keep_execContribTimeout {M : List Host.Cell} {Q : List Instr} {s : State} 
    (hgood : Good M Q s) : GoodOut M Q (execContribTimeout s) := by
  unfold execContribTimeout
  try dsimp only
  repeat' first
    | with_reducible assumption
    | with_reducible apply keep_holdStep
    | with_reducible apply keep_countHier
    | with_reducible apply goodOut_next
    | with_reducible apply keep_ite
    | (fail_if_no_progress with_reducible refine keep_mk rfl rfl rfl rfl rfl rfl ?_)
    | split

theorem keep_execJoinTimeout {M : List Host.Cell} {Q : List Instr} {s : State} 
    (hgood : Good M Q s) : GoodOut M Q (execJoinTimeout s) := by
  unfold execJoinTimeout
  try dsimp only
  repeat' first
    | with_reducible assumption
    | with_reducible apply keep_epochFail
    | with_reducible apply goodOut_next
    | with_reducible apply keep_ite
    | split

end Sys2Proof.Machine
end

