-- ==== Sys2Proof/Laws/KeepJournal.lean ====
section
/-! SUPPORT. What each operation of Machine/Journal.lean keeps (Laws/Keep.lean). -/
namespace Sys2Proof.Machine

-- the proofs below are one script for many operations, of which each uses its own part
set_option linter.unusedTactic false
set_option linter.unreachableTactic false

theorem keep_setPass {M : List Host.Cell} {Q : List Instr} {s : State} (f : Pass → Pass)
    (hgood : Good M Q s) : Good M Q (setPass f s) := keep_mk (s := s) rfl rfl rfl rfl rfl rfl hgood

theorem keep_setSweep {M : List Host.Cell} {Q : List Instr} {s : State} (f : SweepUnit → SweepUnit)
    (hgood : Good M Q s) : Good M Q (setSweep f s) := keep_mk (s := s) rfl rfl rfl rfl rfl rfl hgood

theorem keep_rampStart {M : List Host.Cell} {Q : List Instr} {s : State}
    (hgood : Good M Q s) : Good M Q (rampStart s) := keep_setPass _ hgood

theorem keep_setSlot {M : List Host.Cell} {Q : List Instr} {s : State} (ord : Nat) (x : Word)
    (hgood : Good M Q s) : Good M Q (setSlot ord x s) := by
  unfold setSlot
  try dsimp only
  repeat' first
    | with_reducible assumption
    | with_reducible apply keep_setSweep

theorem keep_writeMarks {M : List Host.Cell} {Q : List Instr} {s : State} 
    (hgood : Good M Q s) : Good M Q (writeMarks s) := by
  unfold writeMarks
  try dsimp only
  repeat' first
    | with_reducible assumption
    | with_reducible apply keep_setSweep
    | with_reducible apply keep_enqueue

theorem keep_syncMarks {M : List Host.Cell} {Q : List Instr} {s : State} 
    (hgood : Good M Q s) : Good M Q (syncMarks s) := by
  unfold syncMarks
  try dsimp only
  repeat' first
    | with_reducible assumption
    | with_reducible apply keep_setSweep
    | with_reducible apply keep_ite
    | split

theorem keep_writeJournalLine {M : List Host.Cell} {Q : List Instr} {s : State} (idx : Nat)
    (hgood : Good M Q s) : Good M Q (writeJournalLine idx s) := by
  unfold writeJournalLine
  try dsimp only
  repeat' first
    | with_reducible assumption
    | with_reducible apply keep_enqueue
    | split

theorem keep_writeJournal {M : List Host.Cell} {Q : List Instr} {s : State} (idxs : List Nat)
    (hgood : Good M Q s) : Good M Q (writeJournal idxs s) := by
  unfold writeJournal
  try dsimp only
  repeat' first
    | with_reducible assumption
    | with_reducible apply keep_writeJournalLine
    | with_reducible apply keep_setPass
    | intro _ _ _
    | with_reducible apply keep_foldl

theorem keep_releaseOne {M : List Host.Cell} {Q : List Instr} {s : State} 
    (hgood : Good M Q s) : Good M Q (releaseOne s) := by
  unfold releaseOne
  try dsimp only
  repeat' first
    | with_reducible assumption
    | with_reducible apply keep_writeMarks
    | with_reducible apply keep_pulse
    | (fail_if_no_progress with_reducible refine keep_mk rfl rfl rfl rfl rfl rfl ?_)

theorem keep_releaseDue {M : List Host.Cell} {Q : List Instr} {s : State} 
    (hgood : Good M Q s) : Good M Q (releaseDue s) := by
  unfold releaseDue
  try dsimp only
  repeat' first
    | with_reducible assumption
    | with_reducible apply keep_releaseOne
    | intro _ _ _
    | with_reducible apply keep_foldl
    | with_reducible apply keep_ite
    | split

theorem keep_logRepair {M : List Host.Cell} {Q : List Instr} {s : State} (pos : Word) (blocks : BitVec 32) (kind : BitVec 8)
    (hgood : Good M Q s) : Good M Q (logRepair pos blocks kind s) := by
  unfold logRepair
  try dsimp only
  repeat' first
    | with_reducible assumption
    | with_reducible apply keep_setSweep
    | with_reducible apply keep_enqueue
    | with_reducible apply keep_report
    | with_reducible apply keep_ite
    | split

theorem keep_clearRepairs {M : List Host.Cell} {Q : List Instr} {s : State} 
    (hgood : Good M Q s) : Good M Q (clearRepairs s) := by
  unfold clearRepairs
  try dsimp only
  repeat' first
    | with_reducible assumption
    | with_reducible apply keep_setSweep
    | with_reducible apply keep_enqueueAll

end Sys2Proof.Machine
end

