-- ==== Sys2Proof/Laws/KeepRegulator.lean ====
section
/-! SUPPORT. What each operation of Machine/Regulator.lean keeps (Laws/Keep.lean). -/
namespace Sys2Proof.Machine

-- the proofs below are one script for many operations, of which each uses its own part
set_option linter.unusedTactic false
set_option linter.unreachableTactic false

theorem keep_rescale {M : List Host.Cell} {Q : List Instr} {s : State} 
    (hgood : Good M Q s) : Good M Q (rescale s) := by
  unfold rescale
  try dsimp only
  repeat' first
    | with_reducible assumption
    | with_reducible apply keep_setMem
    | with_reducible apply keep_report
    | with_reducible apply keep_ite
    | split

theorem keep_setThermal {M : List Host.Cell} {Q : List Instr} {s : State} (f : Thermal → Thermal)
    (hgood : Good M Q s) : Good M Q (setThermal f s) := by
  unfold setThermal
  try dsimp only
  repeat' first
    | with_reducible assumption
    | with_reducible apply keep_setMem

theorem keep_setPaused {M : List Host.Cell} {Q : List Instr} {s : State} (p : Bool)
    (hgood : Good M Q s) : Good M Q (setPaused p s) := by
  unfold setPaused
  try dsimp only
  repeat' first
    | with_reducible assumption
    | with_reducible apply keep_setThermal
    | with_reducible apply keep_pulse
    | with_reducible apply keep_ite
    | split

theorem keep_setTarget {M : List Host.Cell} {Q : List Instr} {s : State} (target : Nat)
    (hgood : Good M Q s) : Good M Q (setTarget target s) := by
  unfold setTarget
  try dsimp only
  repeat' first
    | with_reducible assumption
    | with_reducible apply keep_setThermal
    | with_reducible apply keep_ite
    | split

theorem keep_thermalReport {M : List Host.Cell} {Q : List Instr} {s : State} (temp limit : BitVec 8) (par : BitVec 2)
    (hgood : Good M Q s) : Good M Q (thermalReport temp limit par s) := by
  unfold thermalReport
  try dsimp only
  repeat' first
    | with_reducible assumption
    | with_reducible apply keep_setTarget
    | with_reducible apply keep_setPaused
    | with_reducible apply keep_setThermal
    | with_reducible apply keep_countPort
    | with_reducible apply keep_ite
    | split

theorem keep_thermalStale {M : List Host.Cell} {Q : List Instr} {s : State} 
    (hgood : Good M Q s) : Good M Q (thermalStale s) := by
  unfold thermalStale
  try dsimp only
  repeat' first
    | with_reducible assumption
    | with_reducible apply keep_setTarget
    | with_reducible apply keep_setPaused
    | with_reducible apply keep_setThermal
    | with_reducible apply keep_report
    | with_reducible apply keep_ite
    | split

theorem keep_judgeImbalance {M : List Host.Cell} {Q : List Instr} {s : State} 
    (hgood : Good M Q s) : Good M Q (judgeImbalance s) := by
  unfold judgeImbalance
  try dsimp only
  repeat' first
    | with_reducible assumption
    | with_reducible apply keep_setMem
    | with_reducible apply keep_report
    | with_reducible apply keep_countMp
    | with_reducible apply keep_ite
    | split

theorem keep_windowEnd {M : List Host.Cell} {Q : List Instr} {s : State} 
    (hgood : Good M Q s) : Good M Q (windowEnd s) := by
  unfold windowEnd
  try dsimp only
  repeat' first
    | with_reducible assumption
    | with_reducible apply keep_judgeImbalance
    | with_reducible apply keep_rescale
    | with_reducible apply keep_setMem
    | with_reducible apply keep_countMp
    | with_reducible apply keep_ite
    | split

theorem keep_writeMpCommit {M : List Host.Cell} {Q : List Instr} {s : State} (w : Word)
    (hgood : Good M Q s) : Good M Q (writeMpCommit w s) := by
  unfold writeMpCommit
  try dsimp only
  repeat' first
    | with_reducible assumption
    | with_reducible apply keep_setMem
    | with_reducible apply keep_ite
    | split

theorem keep_applyMp {M : List Host.Cell} {Q : List Instr} {s : State} 
    (hgood : Good M Q s) : Good M Q (applyMp s) := by
  unfold applyMp
  try dsimp only
  repeat' first
    | with_reducible assumption
    | with_reducible apply keep_rescale
    | with_reducible apply keep_setMem
    | with_reducible apply keep_ite
    | split

theorem keep_execRegulatorWindowBoundary {M : List Host.Cell} {Q : List Instr} {s : State} 
    (hgood : Good M Q s) : GoodOut M Q (execRegulatorWindowBoundary s) := by
  unfold execRegulatorWindowBoundary
  try dsimp only
  repeat' first
    | with_reducible assumption
    | with_reducible apply keep_windowEnd
    | with_reducible apply goodOut_next
    | with_reducible apply keep_ite
    | split

theorem keep_execThermalStale {M : List Host.Cell} {Q : List Instr} {s : State} 
    (hgood : Good M Q s) : GoodOut M Q (execThermalStale s) := by
  unfold execThermalStale
  try dsimp only
  repeat' first
    | with_reducible assumption
    | with_reducible apply keep_thermalStale
    | with_reducible apply goodOut_next
    | with_reducible apply keep_ite
    | split

theorem keep_execMpCommit {M : List Host.Cell} {Q : List Instr} {s : State} (w : Word)
    (hgood : Good M Q s) : GoodOut M Q (execMpCommit w s) := by
  unfold execMpCommit
  try dsimp only
  repeat' first
    | with_reducible assumption
    | with_reducible apply keep_writeMpCommit
    | with_reducible apply keep_ctlWrite
    | with_reducible apply goodOut_next
    | intro _ _

end Sys2Proof.Machine
end

