-- ==== Sys2Proof/Laws/KeepTongue.lean ====
section
/-! SUPPORT. What each operation of Machine/Tongue.lean keeps (Laws/Keep.lean). -/
namespace Sys2Proof.Machine

-- the proofs below are one script for many operations, of which each uses its own part
set_option linter.unusedTactic false
set_option linter.unreachableTactic false

theorem keep_setNorm {M : List Host.Cell} {Q : List Instr} {s : State} (t : Nat) (f : NormRec → NormRec)
    (hgood : Good M Q s) : Good M Q (setNorm t f s) := keep_mk (s := s) rfl rfl rfl rfl rfl rfl hgood

theorem keep_clearGradients {M : List Host.Cell} {Q : List Instr} {s : State} 
    (hgood : Good M Q s) : Good M Q (clearGradients s) := by
  unfold clearGradients
  try dsimp only
  repeat' first
    | with_reducible assumption
    | with_reducible apply keep_setNorm
    | intro _ _ _
    | with_reducible apply keep_foldl
    | with_reducible apply keep_ite
    | (fail_if_no_progress with_reducible refine keep_mk rfl rfl rfl rfl rfl rfl ?_)
    | split

theorem keep_accumulate {M : List Host.Cell} {Q : List Instr} {s : State} (t l : Nat) (data : Line)
    (hgood : Good M Q s) : Good M Q (accumulate t l data s) := by
  unfold accumulate
  try dsimp only
  repeat' first
    | with_reducible assumption
    | with_reducible apply keep_setNorm
    | intro _ _ _
    | with_reducible apply keep_foldl
    | (fail_if_no_progress with_reducible refine keep_mk rfl rfl rfl rfl rfl rfl ?_)

theorem keep_mapStart {M : List Host.Cell} {Q : List Instr} {s : State} 
    (hgood : Good M Q s) : Good M Q (mapStart s) := by
  unfold mapStart
  try dsimp only
  repeat' first
    | with_reducible assumption
    | with_reducible apply keep_ite
    | (fail_if_no_progress with_reducible refine keep_mk rfl rfl rfl rfl rfl rfl ?_)
    | split

theorem keep_mapBuildEnd {M : List Host.Cell} {Q : List Instr} {s : State} 
    (hgood : Good M Q s) : Good M Q (mapBuildEnd s) := by
  unfold mapBuildEnd
  try dsimp only
  repeat' first
    | with_reducible assumption
    | with_reducible apply keep_report
    | (fail_if_no_progress with_reducible refine keep_mk rfl rfl rfl rfl rfl rfl ?_)
    | split

theorem keep_freeLine {M : List Host.Cell} {Q : List Instr} {s : State} 
    (hgood : Good M Q s) : Good M Q (freeLine s).2 := by
  unfold freeLine
  try dsimp only
  repeat' first
    | with_reducible assumption
    | intro _ _ _
    | with_reducible apply keep_foldl
    | (fail_if_no_progress with_reducible refine keep_mk rfl rfl rfl rfl rfl rfl ?_)

theorem keep_freeLine_eq {M : List Host.Cell} {Q : List Instr} {s t : State} {a : Line} 
    (heq : freeLine s = (a, t)) (hgood : Good M Q s) : Good M Q t := by
  have h := keep_freeLine (M := M) (Q := Q)  hgood
  rw [heq] at h
  exact h

theorem keep_lineOrFree {M : List Host.Cell} {Q : List Instr} {s : State} (data : Option Line)
    (h : Good M Q s) : Good M Q (lineOrFree data s).2 := by
  cases data with
  | some l => exact h
  | none => exact keep_freeLine h

theorem keep_setNormPass {M : List Host.Cell} {Q : List Instr} {s : State} (f : NormPass → NormPass)
    (hgood : Good M Q s) : Good M Q (setNormPass f s) := keep_mk (s := s) rfl rfl rfl rfl rfl rfl hgood

theorem keep_normTensorDone {M : List Host.Cell} {Q : List Instr} {s : State} (t : Nat)
    (hgood : Good M Q s) : Good M Q (normTensorDone t s) := by
  unfold normTensorDone
  try dsimp only
  repeat' first
    | with_reducible assumption
    | with_reducible apply keep_setNorm

theorem keep_withoutShare {M : List Host.Cell} {Q : List Instr} {s : State} (t : Nat)
    (hgood : Good M Q s) : Good M Q (withoutShare t s) := by
  unfold withoutShare
  try dsimp only
  repeat' first
    | with_reducible assumption
    | intro _ _ _
    | with_reducible apply keep_foldl
    | with_reducible apply keep_ite
    | (fail_if_no_progress with_reducible refine keep_mk rfl rfl rfl rfl rfl rfl ?_)
    | split

theorem keep_normNext {M : List Host.Cell} {Q : List Instr} (n : Nat) {s : State} (h : Good M Q s) :
    Good M Q (normNext n s) := by
  induction n generalizing s with
  | zero => exact h
  | succ n ih =>
    unfold normNext
    try dsimp only
    repeat' first
      | with_reducible assumption
      | apply ih
      | with_reducible apply keep_withoutShare
      | with_reducible apply keep_normTensorDone
      | with_reducible apply keep_setNormPass
      | with_reducible apply keep_setNorm
      | with_reducible apply keep_enqueueAll
      | with_reducible apply keep_ite
      | split

theorem keep_normStart {M : List Host.Cell} {Q : List Instr} {s : State} 
    (hgood : Good M Q s) : Good M Q (normStart s) := by
  unfold normStart
  try dsimp only
  repeat' first
    | with_reducible assumption
    | with_reducible apply keep_normNext
    | with_reducible apply keep_clearGradients
    | with_reducible apply keep_pulse
    | with_reducible apply keep_countTongue
    | (fail_if_no_progress with_reducible refine keep_mk rfl rfl rfl rfl rfl rfl ?_)

theorem keep_normLineDone {M : List Host.Cell} {Q : List Instr} {s : State} (t l : Nat) (data : Option Line)
    (hgood : Good M Q s) : Good M Q (normLineDone t l data s) := by
  unfold normLineDone
  try dsimp only
  repeat' first
    | with_reducible assumption
    | with_reducible apply keep_normNext
    | with_reducible apply keep_normTensorDone
    | with_reducible apply keep_setNormPass
    | with_reducible apply keep_lineOrFree
    | (with_reducible refine keep_lineOrFree_eq ‹_› ?_)
    | with_reducible apply keep_accumulate
    | with_reducible apply keep_ite
    | split

theorem keep_normStop {M : List Host.Cell} {Q : List Instr} {s : State} 
    (hgood : Good M Q s) : Good M Q (normStop s) := by
  unfold normStop
  try dsimp only
  repeat' first
    | with_reducible assumption
    | with_reducible apply keep_dropReads
    | (fail_if_no_progress with_reducible refine keep_mk rfl rfl rfl rfl rfl rfl ?_)

theorem keep_observeWrite {M : List Host.Cell} {Q : List Instr} {s : State} (line : BitVec 34) (mask : BitVec 64) (data : Line)
    (hgood : Good M Q s) : Good M Q (observeWrite line mask data s) := by
  unfold observeWrite
  try dsimp only
  repeat' first
    | with_reducible assumption
    | with_reducible apply keep_accumulate
    | with_reducible apply keep_setNorm
    | with_reducible apply keep_countTongue
    | with_reducible apply keep_ite
    | split

theorem keep_lateWrite {M : List Host.Cell} {Q : List Instr} {s : State} (line : BitVec 34)
    (hgood : Good M Q s) : Good M Q (lateWrite line s) := by
  unfold lateWrite
  try dsimp only
  repeat' first
    | with_reducible assumption
    | with_reducible apply keep_normNext
    | with_reducible apply keep_setNorm
    | with_reducible apply keep_report
    | with_reducible apply keep_countTongue
    | with_reducible apply keep_ite
    | (fail_if_no_progress with_reducible refine keep_mk rfl rfl rfl rfl rfl rfl ?_)
    | split

theorem keep_atMark {M : List Host.Cell} {Q : List Instr} {s : State} (m : TongueMark)
    (hgood : Good M Q s) : Good M Q (atMark m s) := keep_mk (s := s) rfl rfl rfl rfl rfl rfl hgood

theorem keep_noteTaken {M : List Host.Cell} {Q : List Instr} {s : State} (x : TakenLine)
    (hgood : Good M Q s) : Good M Q (noteTaken x s) := by
  unfold noteTaken
  try dsimp only
  repeat' first
    | with_reducible assumption
    | with_reducible apply keep_atMark
    | with_reducible apply keep_ite
    | (fail_if_no_progress with_reducible refine keep_mk rfl rfl rfl rfl rfl rfl ?_)
    | split

theorem keep_moveTaken {M : List Host.Cell} {Q : List Instr} {s : State} (port : BitVec 5) (tag : BitVec 12) (old : Nat) (new : Option Nat)
    (hgood : Good M Q s) : Good M Q (moveTaken port tag old new s) := by
  unfold moveTaken
  try dsimp only
  repeat' first
    | with_reducible assumption
    | with_reducible apply keep_ite
    | (fail_if_no_progress with_reducible refine keep_mk rfl rfl rfl rfl rfl rfl ?_)
    | split

theorem keep_unwindTaken {M : List Host.Cell} {Q : List Instr} {s : State} 
    (hgood : Good M Q s) : Good M Q (unwindTaken s) := by
  unfold unwindTaken
  try dsimp only
  repeat' first
    | with_reducible assumption
    | with_reducible apply keep_atMark
    | with_reducible apply keep_lateWrite
    | with_reducible apply keep_observeWrite
    | intro _ _ _
    | with_reducible apply keep_foldl
    | with_reducible apply keep_ite
    | (fail_if_no_progress with_reducible refine keep_mk rfl rfl rfl rfl rfl rfl ?_)
    | split

theorem keep_earlyWrite {M : List Host.Cell} {Q : List Instr} {s : State} (line : BitVec 34)
    (hgood : Good M Q s) : Good M Q (earlyWrite line s) := by
  unfold earlyWrite
  try dsimp only
  repeat' first
    | with_reducible assumption
    | with_reducible apply keep_report
    | with_reducible apply keep_countTongue
    | with_reducible apply keep_ite
    | split

theorem keep_tongueTake {M : List Host.Cell} {Q : List Instr} {s : State} (line : BitVec 34) (mask : BitVec 64) (data : Line)
    (hgood : Good M Q s) : Good M Q (tongueTake line mask data s) := by
  unfold tongueTake
  try dsimp only
  repeat' first
    | with_reducible assumption
    | with_reducible apply keep_earlyWrite
    | with_reducible apply keep_lateWrite
    | with_reducible apply keep_observeWrite
    | with_reducible apply keep_ite
    | split

theorem keep_enterObserve {M : List Host.Cell} {Q : List Instr} {s : State} 
    (hgood : Good M Q s) : Good M Q (enterObserve s) := keep_mk (s := s) rfl rfl rfl rfl rfl rfl hgood

theorem keep_writeArm {M : List Host.Cell} {Q : List Instr} {s : State} (w : Word)
    (hgood : Good M Q s) : Good M Q (writeArm w s) := by
  unfold writeArm
  try dsimp only
  repeat' first
    | with_reducible assumption
    | with_reducible apply keep_clearGradients
    | with_reducible apply keep_report
    | with_reducible apply keep_ite
    | (fail_if_no_progress with_reducible refine keep_mk rfl rfl rfl rfl rfl rfl ?_)
    | split

theorem keep_armCleared {M : List Host.Cell} {Q : List Instr} {s : State} 
    (hgood : Good M Q s) : Good M Q (armCleared s) := by
  unfold armCleared
  try dsimp only
  repeat' first
    | with_reducible assumption
    | with_reducible apply keep_enterObserve
    | with_reducible apply keep_ite
    | (fail_if_no_progress with_reducible refine keep_mk rfl rfl rfl rfl rfl rfl ?_)
    | split

theorem keep_execTongueArm {M : List Host.Cell} {Q : List Instr} {s : State} (w : Word)
    (hgood : Good M Q s) : GoodOut M Q (execTongueArm w s) := by
  unfold execTongueArm
  try dsimp only
  repeat' first
    | with_reducible assumption
    | with_reducible apply keep_writeArm
    | with_reducible apply keep_ctlWrite
    | with_reducible apply goodOut_next
    | intro _ _

theorem keep_execArmClearDone {M : List Host.Cell} {Q : List Instr} {s : State} 
    (hgood : Good M Q s) : GoodOut M Q (execArmClearDone s) := by
  unfold execArmClearDone
  try dsimp only
  repeat' first
    | with_reducible assumption
    | with_reducible apply keep_armCleared
    | with_reducible apply goodOut_next
    | with_reducible apply keep_ite
    | split

theorem keep_execMapBuildDone {M : List Host.Cell} {Q : List Instr} {s : State} 
    (hgood : Good M Q s) : GoodOut M Q (execMapBuildDone s) := by
  unfold execMapBuildDone
  try dsimp only
  repeat' first
    | with_reducible assumption
    | with_reducible apply keep_mapBuildEnd
    | with_reducible apply goodOut_next
    | with_reducible apply keep_ite
    | split

end Sys2Proof.Machine
end

