-- ==== Sys2Proof/Laws/KeepSweep.lean ====
section
/-! SUPPORT. What each operation of Machine/Sweep.lean keeps (Laws/Keep.lean). -/
namespace Sys2Proof.Machine

-- the proofs below are one script for many operations, of which each uses its own part
set_option linter.unusedTactic false
set_option linter.unreachableTactic false

theorem keep_fetchGranted {M : List Host.Cell} {Q : List Instr} {s : State} (hs : List (BitVec 16))
    (hgood : Good M Q s) : Good M Q (fetchGranted hs s) := by
  unfold fetchGranted
  try dsimp only
  repeat' first
    | with_reducible assumption
    | with_reducible apply keep_setPass
    | split

theorem keep_setTile {M : List Host.Cell} {Q : List Instr} {s : State} (ord : Nat) (f : TileSt → TileSt)
    (hgood : Good M Q s) : Good M Q (setTile ord f s) := by
  unfold setTile
  try dsimp only
  repeat' first
    | with_reducible assumption
    | with_reducible apply keep_setPass
    | with_reducible apply keep_ite
    | split

theorem keep_issueTile {M : List Host.Cell} {Q : List Instr} {s : State} (im : Image) (p : Pass) (o : Nat) (c : TileClass) (miss tensor tile : Nat)
    (hgood : Good M Q s) : Good M Q (issueTile s im p o c miss tensor tile) := by
  unfold issueTile
  try dsimp only
  repeat' first
    | with_reducible assumption
    | with_reducible apply keep_setPass
    | with_reducible apply keep_enqueueAll
    | with_reducible apply keep_countMp
    | with_reducible apply keep_ite
    | split

theorem keep_fetchIssue {M : List Host.Cell} {Q : List Instr} {s : State} 
    (hgood : Good M Q s) : Good M Q (fetchIssue s) := by
  unfold fetchIssue
  try dsimp only
  repeat' first
    | with_reducible assumption
    | with_reducible apply keep_issueTile
    | with_reducible apply keep_ite
    | split

theorem keep_parseIndex {M : List Host.Cell} {Q : List Instr} (tensor rows : Nat) (prev : Option Nat) (l : List Nat)
    {s : State} (h : Good M Q s) : Good M Q (parseIndex tensor rows prev l s).2 := by
  induction l generalizing s prev with
  | nil => exact h
  | cons x l ih =>
    unfold parseIndex
    dsimp only
    apply ih
    split
    · exact keep_report _ _ h
    · split
      · exact keep_report _ _ h
      · exact h

theorem keep_indexLine {M : List Host.Cell} {Q : List Instr} {s : State} (tensor i : Nat) (data : Option Line)
    (hgood : Good M Q s) : Good M Q (indexLine tensor i data s) := by
  unfold indexLine
  try dsimp only
  repeat' first
    | with_reducible assumption
    | with_reducible apply keep_parseIndex
    | (with_reducible refine keep_parseIndex_eq ‹_› ?_)
    | with_reducible apply keep_setPass
    | with_reducible apply keep_lagStartAll
    | with_reducible apply keep_lineOrFree
    | (with_reducible refine keep_lineOrFree_eq ‹_› ?_)
    | with_reducible apply keep_ite
    | split

theorem keep_readIndexes {M : List Host.Cell} {Q : List Instr} {s : State} 
    (hgood : Good M Q s) : Good M Q (readIndexes s) := by
  unfold readIndexes
  try dsimp only
  repeat' first
    | with_reducible assumption
    | with_reducible apply keep_enqueueAll

theorem keep_chooseVariant {M : List Host.Cell} {Q : List Instr} {s : State} (g : Nat)
    (hgood : Good M Q s) : Good M Q (chooseVariant g s) := by
  unfold chooseVariant
  try dsimp only
  repeat' first
    | with_reducible assumption
    | (fail_if_no_progress with_reducible refine keep_mk rfl rfl rfl rfl rfl rfl ?_)
    | split

theorem keep_beginPass {M : List Host.Cell} {Q : List Instr} {s : State} (k : PassKind) (recovery : Bool) (im : Image) (consts : List (BitVec 32)) (clip : F32) (lsK : BitVec 6) (first : Nat)
    (hgood : Good M Q s) : Good M Q (beginPass k recovery im consts clip lsK first s) := by
  unfold beginPass
  try dsimp only
  repeat' first
    | with_reducible assumption
    | with_reducible apply keep_chooseVariant
    | with_reducible apply keep_setSweep
    | with_reducible apply keep_setPass
    | with_reducible apply keep_ite
    | (fail_if_no_progress with_reducible refine keep_mk rfl rfl rfl rfl rfl rfl ?_)
    | split

theorem keep_fetchBegins {M : List Host.Cell} {Q : List Instr} {s : State} 
    (hgood : Good M Q s) : Good M Q (fetchBegins s) := by
  unfold fetchBegins
  try dsimp only
  repeat' first
    | with_reducible assumption
    | with_reducible apply keep_readIndexes
    | with_reducible apply keep_rampStart
    | with_reducible apply keep_ite
    | split

theorem keep_setPassInfo {M : List Host.Cell} {Q : List Instr} {s : State} (im : Image) (done1 : Bool) (k : BitVec 6)
    (hgood : Good M Q s) : Good M Q (setPassInfo im done1 k s) := by
  unfold setPassInfo
  try dsimp only
  repeat' first
    | with_reducible assumption
    | with_reducible apply keep_setSweep

theorem keep_openGate {M : List Host.Cell} {Q : List Instr} {s : State} (im : Image)
    (hgood : Good M Q s) : Good M Q (openGate im s) := by
  unfold openGate
  try dsimp only
  repeat' first
    | with_reducible assumption
    | with_reducible apply keep_setPassInfo
    | with_reducible apply keep_beginPass
    | with_reducible apply keep_writeJournal
    | with_reducible apply keep_setSweep
    | with_reducible apply keep_setPass
    | with_reducible apply keep_exportsGate
    | with_reducible apply keep_ite
    | (fail_if_no_progress with_reducible refine keep_mk rfl rfl rfl rfl rfl rfl ?_)
    | split

theorem keep_raiseHalt {M : List Host.Cell} {Q : List Instr} {s : State} (h : HaltDue)
    (hgood : Good M Q s) : Good M Q (raiseHalt h s) := by
  unfold raiseHalt
  try dsimp only
  repeat' first
    | with_reducible assumption
    | with_reducible apply keep_setPass
    | with_reducible apply keep_ite
    | split

theorem keep_raiseTear {M : List Host.Cell} {Q : List Instr} {s : State} (fault : JFault) (t : TileSt) (idx : Nat) (weights : Bool)
    (hgood : Good M Q s) : Good M Q (raiseTear fault t idx weights s) := by
  unfold raiseTear
  try dsimp only
  repeat' first
    | with_reducible assumption
    | with_reducible apply keep_raiseHalt
    | with_reducible apply keep_setPass
    | with_reducible apply keep_ite
    | split

theorem keep_discardReads {M : List Host.Cell} {Q : List Instr} {s : State} (drops : Who → Bool) (p : Pass)
    (hgood : Good M Q s) : Good M Q (discardReads drops p s) := by
  unfold discardReads
  try dsimp only
  repeat' first
    | with_reducible assumption
    | with_reducible apply keep_ite
    | (fail_if_no_progress with_reducible refine keep_mk rfl rfl rfl rfl rfl rfl ?_)
    | split

theorem keep_giveUpPads {M : List Host.Cell} {Q : List Instr} {s : State} (hs : List (BitVec 16))
    (hgood : Good M Q s) : Good M Q (giveUpPads hs s) := by
  unfold giveUpPads
  try dsimp only
  repeat' first
    | with_reducible assumption
    | with_reducible apply keep_padFreeAll

theorem keep_discardedDone {M : List Host.Cell} {Q : List Instr} {s : State} (h : BitVec 16)
    (hgood : Good M Q s) : Good M Q (discardedDone h s) := by
  unfold discardedDone
  try dsimp only
  repeat' first
    | with_reducible assumption
    | with_reducible apply keep_padFree
    | with_reducible apply keep_ite
    | split

theorem keep_endPass {M : List Host.Cell} {Q : List Instr} {s : State} 
    (hgood : Good M Q s) : Good M Q (endPass s) := by
  unfold endPass
  try dsimp only
  repeat' first
    | with_reducible assumption
    | with_reducible apply keep_giveUpPads
    | with_reducible apply keep_discardReads
    | with_reducible apply keep_setSweep
    | with_reducible apply keep_dropReads
    | with_reducible apply keep_ite
    | split

theorem keep_haltStep {M : List Host.Cell} {Q : List Instr} {s : State} (p : Pass) (h : HaltDue)
    (hgood : Good M Q s) : Good M Q (haltStep p h s) := by
  unfold haltStep
  try dsimp only
  repeat' first
    | with_reducible assumption
    | with_reducible apply keep_endPass
    | with_reducible apply keep_syncMarks
    | with_reducible apply keep_writeMarks
    | with_reducible apply keep_setSweep
    | with_reducible apply keep_pulse
    | with_reducible apply keep_report
    | with_reducible apply keep_ite
    | (fail_if_no_progress with_reducible refine keep_mk rfl rfl rfl rfl rfl rfl ?_)
    | split

theorem keep_haltEma {M : List Host.Cell} {Q : List Instr} {s : State} 
    (hgood : Good M Q s) : Good M Q (haltEma s) := by
  unfold haltEma
  try dsimp only
  repeat' first
    | with_reducible assumption
    | with_reducible apply keep_endPass
    | with_reducible apply keep_pulse
    | (fail_if_no_progress with_reducible refine keep_mk rfl rfl rfl rfl rfl rfl ?_)

theorem keep_sweepHalt {M : List Host.Cell} {Q : List Instr} {s : State} 
    (hgood : Good M Q s) : Good M Q (sweepHalt s) := by
  unfold sweepHalt
  try dsimp only
  repeat' first
    | with_reducible assumption
    | with_reducible apply keep_haltEma
    | with_reducible apply keep_haltStep
    | with_reducible apply keep_ite
    | split

theorem keep_reportStamps {M : List Host.Cell} {Q : List Instr} {s : State} (im : Image) (p : Pass) (t : TileSt)
    (hgood : Good M Q s) : Good M Q (reportStamps s im p t) := by
  unfold reportStamps
  try dsimp only
  repeat' first
    | with_reducible assumption
    | with_reducible apply keep_report
    | intro _ _ _
    | with_reducible apply keep_foldl
    | with_reducible apply keep_ite
    | split

theorem keep_clearTensor {M : List Host.Cell} {Q : List Instr} {s : State} (p : Pass) (t : TileSt)
    (hgood : Good M Q s) : Good M Q (clearTensor p t s) := by
  unfold clearTensor
  try dsimp only
  repeat' first
    | with_reducible assumption
    | with_reducible apply keep_setSweep
    | with_reducible apply keep_setNorm
    | with_reducible apply keep_ite
    | split

theorem keep_freeSlots {M : List Host.Cell} {Q : List Instr} {s : State} (slots : List Nat) (ord : Nat)
    (hgood : Good M Q s) : Good M Q (freeSlots slots ord s) := by
  unfold freeSlots
  try dsimp only
  repeat' first
    | with_reducible assumption
    | with_reducible apply keep_setTile
    | with_reducible apply keep_padFreeAll
    | split

theorem keep_loadBank {M : List Host.Cell} {Q : List Instr} {s : State} (im : Image) (p : Pass) (t : TileSt)
    (hgood : Good M Q s) : Good M Q (loadBank im p t s) := by
  unfold loadBank
  try dsimp only
  repeat' first
    | with_reducible assumption
    | with_reducible apply keep_ite
    | (fail_if_no_progress with_reducible refine keep_mk rfl rfl rfl rfl rfl rfl ?_)
    | split

theorem keep_beginSwitch {M : List Host.Cell} {Q : List Instr} {s : State} 
    (hgood : Good M Q s) : Good M Q (beginSwitch s) := by
  unfold beginSwitch
  try dsimp only
  repeat' first
    | with_reducible assumption
    | with_reducible apply keep_setPass
    | (fail_if_no_progress with_reducible refine keep_mk rfl rfl rfl rfl rfl rfl ?_)

theorem keep_enterTile {M : List Host.Cell} {Q : List Instr} {s : State} (im : Image) (p : Pass) (t : TileSt)
    (hgood : Good M Q s) : Good M Q (enterTile im p t s) := by
  unfold enterTile
  try dsimp only
  repeat' first
    | with_reducible assumption
    | with_reducible apply keep_loadBank
    | with_reducible apply keep_clearTensor
    | with_reducible apply keep_reportStamps
    | with_reducible apply keep_chooseVariant
    | with_reducible apply keep_setTile
    | with_reducible apply keep_setPass
    | with_reducible apply keep_ite
    | split

theorem keep_enterChain {M : List Host.Cell} {Q : List Instr} {s : State} 
    (hgood : Good M Q s) : Good M Q (enterChain s) := by
  unfold enterChain
  try dsimp only
  repeat' first
    | with_reducible assumption
    | with_reducible apply keep_enterTile
    | with_reducible apply keep_beginSwitch
    | with_reducible apply keep_clearTensor
    | with_reducible apply keep_setTile
    | with_reducible apply keep_ite
    | split

theorem keep_handGroup {M : List Host.Cell} {Q : List Instr} {s : State} (t : TileSt) (weights : Bool) (ls : List GroupLine)
    (hgood : Good M Q s) : Good M Q (handGroup t weights ls s) := by
  unfold handGroup
  try dsimp only
  repeat' first
    | with_reducible assumption
    | with_reducible apply keep_setTile
    | with_reducible apply keep_enqueueAll
    | with_reducible apply keep_ite
    | split

theorem keep_addAccums {M : List Host.Cell} {Q : List Instr} {s : State} (tensor : Nat) (as : List (Nat × F64))
    (hgood : Good M Q s) : Good M Q (addAccums tensor as s) := by
  unfold addAccums
  try dsimp only
  repeat' first
    | with_reducible assumption
    | with_reducible apply keep_setSweep
    | intro _ _ _
    | with_reducible apply keep_foldl
    | split

theorem keep_acceptPass1 {M : List Host.Cell} {Q : List Instr} {s : State} (t : TileSt)
    (hgood : Good M Q s) : Good M Q (acceptPass1 t s) := by
  unfold acceptPass1
  try dsimp only
  repeat' first
    | with_reducible assumption
    | with_reducible apply keep_addAccums
    | with_reducible apply keep_setPass
    | with_reducible apply keep_padFreeAll

theorem keep_handMoments {M : List Host.Cell} {Q : List Instr} {s : State} (im : Image) (p : Pass) (t : TileSt)
    (hgood : Good M Q s) : Good M Q (handMoments im p t s) := by
  unfold handMoments
  try dsimp only
  repeat' first
    | with_reducible assumption
    | with_reducible apply keep_handGroup
    | with_reducible apply keep_raiseHalt
    | with_reducible apply keep_setTile
    | with_reducible apply keep_logRepair
    | with_reducible apply keep_setSlot
    | with_reducible apply keep_countSweep
    | with_reducible apply keep_countMp
    | with_reducible apply keep_ite
    | split

theorem keep_momentHandover {M : List Host.Cell} {Q : List Instr} {s : State} 
    (hgood : Good M Q s) : Good M Q (momentHandover s) := by
  unfold momentHandover
  try dsimp only
  repeat' first
    | with_reducible assumption
    | with_reducible apply keep_handMoments
    | with_reducible apply keep_acceptPass1
    | with_reducible apply keep_ite
    | split

theorem keep_advanceMoments {M : List Host.Cell} {Q : List Instr} {s : State} 
    (hgood : Good M Q s) : Good M Q (advanceMoments s) := by
  unfold advanceMoments
  try dsimp only
  repeat' first
    | with_reducible assumption
    | with_reducible apply keep_syncMarks
    | with_reducible apply keep_setPass

theorem keep_momentsConfirmed {M : List Host.Cell} {Q : List Instr} {s : State} 
    (hgood : Good M Q s) : Good M Q (momentsConfirmed s) := by
  unfold momentsConfirmed
  try dsimp only
  repeat' first
    | with_reducible assumption
    | with_reducible apply keep_advanceMoments
    | with_reducible apply keep_freeSlots
    | with_reducible apply keep_setTile
    | split

theorem keep_weightHandover {M : List Host.Cell} {Q : List Instr} {s : State} 
    (hgood : Good M Q s) : Good M Q (weightHandover s) := by
  unfold weightHandover
  try dsimp only
  repeat' first
    | with_reducible assumption
    | with_reducible apply keep_handGroup
    | with_reducible apply keep_setTile
    | with_reducible apply keep_setSlot
    | with_reducible apply keep_countMp
    | with_reducible apply keep_ite
    | split

theorem keep_addSiblings {M : List Host.Cell} {Q : List Instr} {s : State} (t : TileSt)
    (hgood : Good M Q s) : Good M Q (addSiblings t s) := by
  unfold addSiblings
  try dsimp only
  repeat' first
    | with_reducible assumption
    | with_reducible apply keep_setNorm
    | split

theorem keep_exportTile {M : List Host.Cell} {Q : List Instr} {s : State} (p : Pass) (t : TileSt)
    (hgood : Good M Q s) : Good M Q (exportTile p t s) := by
  unfold exportTile
  try dsimp only
  repeat' first
    | with_reducible assumption
    | with_reducible apply keep_setTile
    | with_reducible apply keep_exportOffer
    | with_reducible apply keep_padGive
    | with_reducible apply keep_setXch
    | intro _ _ _
    | with_reducible apply keep_foldl
    | with_reducible apply keep_ite
    | split

theorem keep_countTile {M : List Host.Cell} {Q : List Instr} {s : State} (t : TileSt)
    (hgood : Good M Q s) : Good M Q (countTile t s) := by
  unfold countTile
  try dsimp only
  repeat' first
    | with_reducible assumption
    | with_reducible apply keep_countXch
    | with_reducible apply keep_countSweep
    | with_reducible apply keep_ite
    | split

theorem keep_dropFault {M : List Host.Cell} {Q : List Instr} {s : State} 
    (hgood : Good M Q s) : Good M Q (dropFault s) := by
  unfold dropFault
  try dsimp only
  repeat' first
    | with_reducible assumption
    | with_reducible apply keep_setSweep
    | with_reducible apply keep_setPass
    | with_reducible apply keep_ite
    | split

theorem keep_endSweep {M : List Host.Cell} {Q : List Instr} {s : State} 
    (hgood : Good M Q s) : Good M Q (endSweep s) := by
  unfold endSweep
  try dsimp only
  repeat' first
    | with_reducible assumption
    | with_reducible apply keep_endPass
    | with_reducible apply keep_writeMarks
    | with_reducible apply keep_setSweep
    | with_reducible apply keep_setStep
    | with_reducible apply keep_lagStartAll
    | with_reducible apply keep_enterObserve
    | with_reducible apply keep_pulse
    | with_reducible apply keep_ite
    | (fail_if_no_progress with_reducible refine keep_mk rfl rfl rfl rfl rfl rfl ?_)
    | split

theorem keep_freeColumns {M : List Host.Cell} {Q : List Instr} {s : State} (p : Pass) (t : TileSt)
    (hgood : Good M Q s) : Good M Q (freeColumns p t s) := by
  unfold freeColumns
  try dsimp only
  repeat' first
    | with_reducible assumption
    | with_reducible apply keep_setPass
    | with_reducible apply keep_padFreeAll
    | with_reducible apply keep_ite
    | split

theorem keep_tileCommitted {M : List Host.Cell} {Q : List Instr} {s : State} (p : Pass) (t : TileSt)
    (hgood : Good M Q s) : Good M Q (tileCommitted p t s) := by
  unfold tileCommitted
  try dsimp only
  repeat' first
    | with_reducible assumption
    | with_reducible apply keep_freeColumns
    | with_reducible apply keep_dropFault
    | with_reducible apply keep_countTile
    | with_reducible apply keep_exportTile
    | with_reducible apply keep_addSiblings
    | with_reducible apply keep_syncMarks
    | with_reducible apply keep_setPass
    | with_reducible apply keep_lagStartAll
    | with_reducible apply keep_padFreeAll
    | with_reducible apply keep_ite
    | split

theorem keep_emaCommitted {M : List Host.Cell} {Q : List Instr} {s : State} (t : TileSt)
    (hgood : Good M Q s) : Good M Q (emaCommitted t s) := by
  unfold emaCommitted
  try dsimp only
  repeat' first
    | with_reducible assumption
    | with_reducible apply keep_setPass
    | with_reducible apply keep_padFreeAll

theorem keep_settleSweep {M : List Host.Cell} {Q : List Instr} {s : State} 
    (hgood : Good M Q s) : Good M Q (settleSweep s) := by
  unfold settleSweep
  try dsimp only
  repeat' first
    | with_reducible assumption
    | with_reducible apply keep_endSweep
    | with_reducible apply keep_releaseDue
    | with_reducible apply keep_ite
    | split

theorem keep_weightsConfirmed {M : List Host.Cell} {Q : List Instr} {s : State} 
    (hgood : Good M Q s) : Good M Q (weightsConfirmed s) := by
  unfold weightsConfirmed
  try dsimp only
  repeat' first
    | with_reducible assumption
    | with_reducible apply keep_settleSweep
    | with_reducible apply keep_emaCommitted
    | with_reducible apply keep_tileCommitted
    | with_reducible apply keep_ite
    | split

theorem keep_gateConfirmed {M : List Host.Cell} {Q : List Instr} {s : State} 
    (hgood : Good M Q s) : Good M Q (gateConfirmed s) := by
  unfold gateConfirmed
  try dsimp only
  repeat' first
    | with_reducible assumption
    | with_reducible apply keep_fetchBegins
    | with_reducible apply keep_releaseDue
    | with_reducible apply keep_writeMarks
    | with_reducible apply keep_setPass
    | with_reducible apply keep_pulse
    | with_reducible apply keep_ite
    | split

theorem keep_pass1Written {M : List Host.Cell} {Q : List Instr} {s : State} 
    (hgood : Good M Q s) : Good M Q (pass1Written s) := by
  unfold pass1Written
  try dsimp only
  repeat' first
    | with_reducible assumption
    | with_reducible apply keep_setPassInfo
    | with_reducible apply keep_writeJournal
    | with_reducible apply keep_writeMarks
    | with_reducible apply keep_setSweep
    | with_reducible apply keep_setPass
    | split

theorem keep_pauseEnded {M : List Host.Cell} {Q : List Instr} {s : State} 
    (hgood : Good M Q s) : Good M Q (pauseEnded s) := by
  unfold pauseEnded
  try dsimp only
  repeat' first
    | with_reducible assumption
    | with_reducible apply keep_settleSweep
    | with_reducible apply keep_rampStart

theorem keep_confirmIssue {M : List Host.Cell} {Q : List Instr} {s : State} (who : Who) (line : BitVec 34)
    (hgood : Good M Q s) : Good M Q (confirmIssue who line s) := by
  unfold confirmIssue
  try dsimp only
  repeat' first
    | with_reducible assumption
    | with_reducible apply keep_enqueue
    | with_reducible apply keep_ite
    | split

theorem keep_setLine {M : List Host.Cell} {Q : List Instr} {s : State} (ord idx : Nat) (f : GroupLine → GroupLine)
    (hgood : Good M Q s) : Good M Q (setLine ord idx f s) := by
  unfold setLine
  try dsimp only
  repeat' first
    | with_reducible assumption
    | with_reducible apply keep_setTile

theorem keep_groupFailed {M : List Host.Cell} {Q : List Instr} {s : State} (ord idx : Nat) (weights : Bool)
    (hgood : Good M Q s) : Good M Q (groupFailed ord idx weights s) := by
  unfold groupFailed
  try dsimp only
  repeat' first
    | with_reducible assumption
    | with_reducible apply keep_setLine
    | with_reducible apply keep_raiseTear
    | split

theorem keep_confirmDone {M : List Host.Cell} {Q : List Instr} {s : State} (ord idx : Nat) (weights : Bool) (data : Option Line)
    (hgood : Good M Q s) : Good M Q (confirmDone ord idx weights data s) := by
  unfold confirmDone
  try dsimp only
  repeat' first
    | with_reducible assumption
    | with_reducible apply keep_groupFailed
    | with_reducible apply keep_setLine
    | with_reducible apply keep_raiseTear
    | with_reducible apply keep_enqueue
    | with_reducible apply keep_countSweep
    | with_reducible apply keep_ite
    | split

theorem keep_journalFailed {M : List Host.Cell} {Q : List Instr} {s : State} (fault : JFault)
    (hgood : Good M Q s) : Good M Q (journalFailed fault s) := by
  unfold journalFailed
  try dsimp only
  repeat' first
    | with_reducible assumption
    | with_reducible apply keep_raiseHalt
    | with_reducible apply keep_setPass
    | split

theorem keep_journalConfirmed {M : List Host.Cell} {Q : List Instr} {s : State} (idx : Nat) (data : Option Line)
    (hgood : Good M Q s) : Good M Q (journalConfirmed idx data s) := by
  unfold journalConfirmed
  try dsimp only
  repeat' first
    | with_reducible assumption
    | with_reducible apply keep_journalFailed
    | with_reducible apply keep_pass1Written
    | with_reducible apply keep_gateConfirmed
    | with_reducible apply keep_writeJournalLine
    | with_reducible apply keep_setPass
    | with_reducible apply keep_countSweep
    | with_reducible apply keep_ite
    | split

theorem keep_factoredEnd {M : List Host.Cell} {Q : List Instr} {s : State} (p : Pass) (tensor : Nat)
    (hgood : Good M Q s) : Good M Q (factoredEnd p tensor s) := by
  unfold factoredEnd
  try dsimp only
  repeat' first
    | with_reducible assumption
    | with_reducible apply keep_setSweep
    | with_reducible apply keep_setPass
    | with_reducible apply keep_enqueueAll

theorem keep_factoredTake {M : List Host.Cell} {Q : List Instr} (n : Nat) {s : State} (h : Good M Q s) :
    Good M Q (factoredTake n s) := by
  induction n generalizing s with
  | zero => exact h
  | succ n ih =>
    unfold factoredTake
    try dsimp only
    repeat' first
      | with_reducible assumption
      | apply ih
      | with_reducible apply keep_factoredEnd
      | with_reducible apply keep_setSweep
      | with_reducible apply keep_setPass
      | intro _ _ _
      | with_reducible apply keep_foldl
      | with_reducible apply keep_ite
      | split

theorem keep_fetchDone {M : List Host.Cell} {Q : List Instr} {s : State} (ord op idx : Nat) (data : Option Line)
    (hgood : Good M Q s) : Good M Q (fetchDone ord op idx data s) := by
  unfold fetchDone
  try dsimp only
  repeat' first
    | with_reducible assumption
    | with_reducible apply keep_factoredTake
    | with_reducible apply keep_setTile
    | with_reducible apply keep_lineOrFree
    | (with_reducible refine keep_lineOrFree_eq ‹_› ?_)
    | with_reducible apply keep_padStore
    | with_reducible apply keep_ite
    | split

theorem keep_vectorDone {M : List Host.Cell} {Q : List Instr} {s : State} (tensor idx : Nat) (data : Option Line)
    (hgood : Good M Q s) : Good M Q (vectorDone tensor idx data s) := by
  unfold vectorDone
  try dsimp only
  repeat' first
    | with_reducible assumption
    | with_reducible apply keep_factoredTake
    | with_reducible apply keep_setPass
    | with_reducible apply keep_lineOrFree
    | (with_reducible refine keep_lineOrFree_eq ‹_› ?_)
    | with_reducible apply keep_padStore
    | with_reducible apply keep_ite
    | split

theorem keep_vectorWritten {M : List Host.Cell} {Q : List Instr} {s : State} (tensor idx : Nat) (ok : Bool)
    (hgood : Good M Q s) : Good M Q (vectorWritten tensor idx ok s) := by
  unfold vectorWritten
  try dsimp only
  repeat' first
    | with_reducible assumption
    | with_reducible apply keep_journalFailed
    | with_reducible apply keep_setPass
    | with_reducible apply keep_padFreeAll
    | with_reducible apply keep_ite
    | split

theorem keep_pass1End {M : List Host.Cell} {Q : List Instr} {s : State} (im : Image) (p : Pass)
    (hgood : Good M Q s) : Good M Q (pass1End im p s) := by
  unfold pass1End
  try dsimp only
  repeat' first
    | with_reducible assumption
    | with_reducible apply keep_pass1Written
    | with_reducible apply keep_endPass
    | with_reducible apply keep_beginPass
    | with_reducible apply keep_writeJournal
    | with_reducible apply keep_setSweep
    | with_reducible apply keep_setPass
    | with_reducible apply keep_ite
    | (fail_if_no_progress with_reducible refine keep_mk rfl rfl rfl rfl rfl rfl ?_)
    | split

theorem keep_pass1Done {M : List Host.Cell} {Q : List Instr} {s : State} 
    (hgood : Good M Q s) : Good M Q (pass1Done s) := by
  unfold pass1Done
  try dsimp only
  repeat' first
    | with_reducible assumption
    | with_reducible apply keep_pass1End
    | with_reducible apply keep_ite
    | split

theorem keep_writeAuxCtl {M : List Host.Cell} {Q : List Instr} {s : State} (w : Word)
    (hgood : Good M Q s) : Good M Q (writeAuxCtl w s) := by
  unfold writeAuxCtl
  try dsimp only
  repeat' first
    | with_reducible assumption
    | with_reducible apply keep_beginPass
    | with_reducible apply keep_ite
    | (fail_if_no_progress with_reducible refine keep_mk rfl rfl rfl rfl rfl rfl ?_)
    | split

theorem keep_emaDone {M : List Host.Cell} {Q : List Instr} {s : State} 
    (hgood : Good M Q s) : Good M Q (emaDone s) := by
  unfold emaDone
  try dsimp only
  repeat' first
    | with_reducible assumption
    | with_reducible apply keep_endPass
    | with_reducible apply keep_pulse
    | with_reducible apply keep_ite
    | (fail_if_no_progress with_reducible refine keep_mk rfl rfl rfl rfl rfl rfl ?_)
    | split

theorem keep_execThermalReport {M : List Host.Cell} {Q : List Instr} {s : State} (temp limit : BitVec 8) (par : BitVec 2)
    (hgood : Good M Q s) : GoodOut M Q (execThermalReport temp limit par s) := by
  unfold execThermalReport
  try dsimp only
  repeat' first
    | with_reducible assumption
    | with_reducible apply keep_pauseEnded
    | with_reducible apply keep_thermalReport
    | with_reducible apply goodOut_next
    | with_reducible apply keep_ite
    | split

theorem keep_execGateOpen {M : List Host.Cell} {Q : List Instr} {s : State} 
    (hgood : Good M Q s) : GoodOut M Q (execGateOpen s) := by
  unfold execGateOpen
  try dsimp only
  repeat' first
    | with_reducible assumption
    | with_reducible apply keep_openGate
    | with_reducible apply goodOut_next
    | with_reducible apply keep_ite
    | split

theorem keep_execFetchIssue {M : List Host.Cell} {Q : List Instr} {s : State} 
    (hgood : Good M Q s) : GoodOut M Q (execFetchIssue s) := by
  unfold execFetchIssue
  try dsimp only
  repeat' first
    | with_reducible assumption
    | with_reducible apply keep_fetchIssue
    | with_reducible apply goodOut_next

theorem keep_execTileEnterChain {M : List Host.Cell} {Q : List Instr} {s : State} 
    (hgood : Good M Q s) : GoodOut M Q (execTileEnterChain s) := by
  unfold execTileEnterChain
  try dsimp only
  repeat' first
    | with_reducible assumption
    | with_reducible apply keep_enterChain
    | with_reducible apply goodOut_next

theorem keep_execMomentGroupHandover {M : List Host.Cell} {Q : List Instr} {s : State} 
    (hgood : Good M Q s) : GoodOut M Q (execMomentGroupHandover s) := by
  unfold execMomentGroupHandover
  try dsimp only
  repeat' first
    | with_reducible assumption
    | with_reducible apply keep_momentHandover
    | with_reducible apply goodOut_next

theorem keep_execMomentsConfirmed {M : List Host.Cell} {Q : List Instr} {s : State} 
    (hgood : Good M Q s) : GoodOut M Q (execMomentsConfirmed s) := by
  unfold execMomentsConfirmed
  try dsimp only
  repeat' first
    | with_reducible assumption
    | with_reducible apply keep_momentsConfirmed
    | with_reducible apply goodOut_next
    | with_reducible apply keep_ite
    | split

theorem keep_execWeightGroupHandover {M : List Host.Cell} {Q : List Instr} {s : State} 
    (hgood : Good M Q s) : GoodOut M Q (execWeightGroupHandover s) := by
  unfold execWeightGroupHandover
  try dsimp only
  repeat' first
    | with_reducible assumption
    | with_reducible apply keep_weightHandover
    | with_reducible apply goodOut_next

theorem keep_execWeightsConfirmed {M : List Host.Cell} {Q : List Instr} {s : State} 
    (hgood : Good M Q s) : GoodOut M Q (execWeightsConfirmed s) := by
  unfold execWeightsConfirmed
  try dsimp only
  repeat' first
    | with_reducible assumption
    | with_reducible apply keep_weightsConfirmed
    | with_reducible apply goodOut_next

theorem keep_execPass1Done {M : List Host.Cell} {Q : List Instr} {s : State} 
    (hgood : Good M Q s) : GoodOut M Q (execPass1Done s) := by
  unfold execPass1Done
  try dsimp only
  repeat' first
    | with_reducible assumption
    | with_reducible apply keep_pass1Done
    | with_reducible apply goodOut_next

theorem keep_execSweepHalt {M : List Host.Cell} {Q : List Instr} {s : State} 
    (hgood : Good M Q s) : GoodOut M Q (execSweepHalt s) := by
  unfold execSweepHalt
  try dsimp only
  repeat' first
    | with_reducible assumption
    | with_reducible apply keep_sweepHalt
    | with_reducible apply goodOut_next
    | with_reducible apply keep_ite
    | split

theorem keep_execMarksLineWrite {M : List Host.Cell} {Q : List Instr} {s : State} 
    (hgood : Good M Q s) : GoodOut M Q (execMarksLineWrite s) := by
  unfold execMarksLineWrite
  try dsimp only
  repeat' first
    | with_reducible assumption
    | with_reducible apply keep_writeMarks
    | with_reducible apply goodOut_next
    | with_reducible apply keep_ite
    | split

theorem keep_execEmaStart {M : List Host.Cell} {Q : List Instr} {s : State} (w : Word)
    (hgood : Good M Q s) : GoodOut M Q (execEmaStart w s) := by
  unfold execEmaStart
  try dsimp only
  repeat' first
    | with_reducible assumption
    | with_reducible apply keep_writeAuxCtl
    | with_reducible apply keep_ctlWrite
    | with_reducible apply goodOut_next
    | intro _ _

theorem keep_execEmaReseed {M : List Host.Cell} {Q : List Instr} {s : State} (w : Word)
    (hgood : Good M Q s) : GoodOut M Q (execEmaReseed w s) := by
  unfold execEmaReseed
  try dsimp only
  repeat' first
    | with_reducible assumption
    | with_reducible apply keep_writeAuxCtl
    | with_reducible apply keep_ctlWrite
    | with_reducible apply goodOut_next
    | intro _ _

theorem keep_execEmaPassDone {M : List Host.Cell} {Q : List Instr} {s : State} 
    (hgood : Good M Q s) : GoodOut M Q (execEmaPassDone s) := by
  unfold execEmaPassDone
  try dsimp only
  repeat' first
    | with_reducible assumption
    | with_reducible apply keep_emaDone
    | with_reducible apply goodOut_next

end Sys2Proof.Machine
end

