-- ==== Sys2Proof/Laws/KeepRecover.lean ====
section
/-! SUPPORT. What each operation of Machine/Recover.lean keeps (Laws/Keep.lean). -/
namespace Sys2Proof.Machine

-- the proofs below are one script for many operations, of which each uses its own part
set_option linter.unusedTactic false
set_option linter.unreachableTactic false

theorem keep_rerunPass1 {M : List Host.Cell} {Q : List Instr} {s : State} (im : Image) (m : Marks) (k : PassKind)
    (hgood : Good M Q s) : Good M Q (rerunPass1 im m k s) := by
  unfold rerunPass1
  try dsimp only
  repeat' first
    | with_reducible assumption
    | with_reducible apply keep_fetchBegins
    | with_reducible apply keep_beginPass
    | with_reducible apply keep_setSweep
    | (fail_if_no_progress with_reducible refine keep_mk rfl rfl rfl rfl rfl rfl ?_)

theorem keep_rerunSweep {M : List Host.Cell} {Q : List Instr} {s : State} (im : Image) (m : Marks) (recovery : Bool) (classes : List (Nat × TileClass))
    (hgood : Good M Q s) : Good M Q (rerunSweep im m recovery classes s) := by
  unfold rerunSweep
  try dsimp only
  repeat' first
    | with_reducible assumption
    | with_reducible apply keep_fetchBegins
    | with_reducible apply keep_beginPass
    | with_reducible apply keep_setSweep
    | with_reducible apply keep_setPass
    | with_reducible apply keep_ite
    | (fail_if_no_progress with_reducible refine keep_mk rfl rfl rfl rfl rfl rfl ?_)
    | split

theorem keep_deltasAgain {M : List Host.Cell} {Q : List Instr} {s : State} (m : Marks)
    (hgood : Good M Q s) : Good M Q (deltasAgain m s) := by
  unfold deltasAgain
  try dsimp only
  repeat' first
    | with_reducible assumption
    | with_reducible apply keep_deltaGate
    | intro _ _ _
    | with_reducible apply keep_foldl
    | with_reducible apply keep_ite
    | split

theorem keep_resumeSweep {M : List Host.Cell} {Q : List Instr} {s : State} (skip : Bool) (im : Image)
    (hgood : Good M Q s) : Good M Q (resumeSweep skip im s) := by
  unfold resumeSweep
  try dsimp only
  repeat' first
    | with_reducible assumption
    | with_reducible apply keep_rerunSweep
    | with_reducible apply keep_rerunPass1
    | with_reducible apply keep_releaseDue
    | with_reducible apply keep_writeMarks
    | with_reducible apply keep_setSweep
    | with_reducible apply keep_lagStartAll
    | with_reducible apply keep_ite
    | split

theorem keep_recoverSweep {M : List Host.Cell} {Q : List Instr} {s : State} (im : Image)
    (hgood : Good M Q s) : Good M Q (recoverSweep im s) := by
  unfold recoverSweep
  try dsimp only
  repeat' first
    | with_reducible assumption
    | with_reducible apply keep_deltasAgain
    | with_reducible apply keep_rerunSweep
    | with_reducible apply keep_rerunPass1
    | with_reducible apply keep_haltEma
    | with_reducible apply keep_clearRepairs
    | with_reducible apply keep_releaseDue
    | with_reducible apply keep_writeMarks
    | with_reducible apply keep_setSweep
    | with_reducible apply keep_setPass
    | with_reducible apply keep_lagStartAll
    | with_reducible apply keep_ite
    | split

theorem keep_startRecovery {M : List Host.Cell} {Q : List Instr} {s : State} (im : Image)
    (hgood : Good M Q s) : Good M Q (startRecovery im s) := by
  unfold startRecovery
  try dsimp only
  repeat' first
    | with_reducible assumption
    | with_reducible apply keep_recoverSweep
    | with_reducible apply keep_setSweep
    | with_reducible apply keep_ite
    | split

theorem keep_recoverDue {M : List Host.Cell} {Q : List Instr} {s : State} 
    (hgood : Good M Q s) : Good M Q (recoverDue s) := by
  unfold recoverDue
  try dsimp only
  repeat' first
    | with_reducible assumption
    | with_reducible apply keep_recoverSweep
    | with_reducible apply keep_setSweep
    | with_reducible apply keep_ite
    | split

theorem keep_writeSweepCtl {M : List Host.Cell} {Q : List Instr} {s : State} (w : Word)
    (hgood : Good M Q s) : Good M Q (writeSweepCtl w s) := by
  unfold writeSweepCtl
  try dsimp only
  repeat' first
    | with_reducible assumption
    | with_reducible apply keep_startRecovery
    | with_reducible apply keep_resumeSweep
    | with_reducible apply keep_setSweep
    | with_reducible apply keep_ite
    | split

theorem keep_execSweepResume {M : List Host.Cell} {Q : List Instr} {s : State} (w : Word)
    (hgood : Good M Q s) : GoodOut M Q (execSweepResume w s) := by
  unfold execSweepResume
  try dsimp only
  repeat' first
    | with_reducible assumption
    | with_reducible apply keep_writeSweepCtl
    | with_reducible apply keep_ctlWrite
    | with_reducible apply goodOut_next
    | intro _ _

theorem keep_execSweepRecover {M : List Host.Cell} {Q : List Instr} {s : State} (w : Word)
    (hgood : Good M Q s) : GoodOut M Q (execSweepRecover w s) := by
  unfold execSweepRecover
  try dsimp only
  repeat' first
    | with_reducible assumption
    | with_reducible apply keep_writeSweepCtl
    | with_reducible apply keep_ctlWrite
    | with_reducible apply goodOut_next
    | intro _ _

end Sys2Proof.Machine
end

