-- ==== Sys2Proof/Laws/KeepVault.lean ====
section
/-! SUPPORT. What each operation of Machine/Vault.lean keeps (Laws/Keep.lean). -/
namespace Sys2Proof.Machine

-- the proofs below are one script for many operations, of which each uses its own part
set_option linter.unusedTactic false
set_option linter.unreachableTactic false

theorem keep_kstNext {M : List Host.Cell} {Q : List Instr} {s : State} 
    (hgood : Good M Q s) : Good M Q (kstNext s) := by
  unfold kstNext
  try dsimp only
  repeat' first
    | with_reducible assumption
    | with_reducible apply keep_ite
    | (fail_if_no_progress with_reducible refine keep_mk rfl rfl rfl rfl rfl rfl ?_)
    | split

theorem keep_kstLower {M : List Host.Cell} {Q : List Instr} {s : State} (repeated : Bool)
    (hgood : Good M Q s) : Good M Q (kstLower repeated s) := keep_mk (s := s) rfl rfl rfl rfl rfl rfl hgood

theorem keep_kstQueue {M : List Host.Cell} {Q : List Instr} {s : State} (os : List KstOp)
    (hgood : Good M Q s) : Good M Q (kstQueue os s) := by
  unfold kstQueue
  try dsimp only
  repeat' first
    | with_reducible assumption
    | with_reducible apply keep_kstNext
    | (fail_if_no_progress with_reducible refine keep_mk rfl rfl rfl rfl rfl rfl ?_)

theorem keep_vaultEnter {M : List Host.Cell} {Q : List Instr} {s : State} (st : VaultState)
    (hgood : Good M Q s) : Good M Q (vaultEnter st s) := by
  unfold vaultEnter
  try dsimp only
  repeat' first
    | with_reducible assumption
    | with_reducible apply keep_croakSet
    | with_reducible apply keep_report
    | with_reducible apply keep_ite
    | (fail_if_no_progress with_reducible refine keep_mk rfl rfl rfl rfl rfl rfl ?_)
    | split

theorem keep_vaultJudge {M : List Host.Cell} {Q : List Instr} {s : State} 
    (hgood : Good M Q s) : Good M Q (vaultJudge s) := by
  unfold vaultJudge
  try dsimp only
  repeat' first
    | with_reducible assumption
    | with_reducible apply keep_vaultEnter
    | with_reducible apply keep_ite
    | (fail_if_no_progress with_reducible refine keep_mk rfl rfl rfl rfl rfl rfl ?_)
    | split

theorem keep_vaultInitBegin {M : List Host.Cell} {Q : List Instr} {s : State} 
    (hgood : Good M Q s) : Good M Q (vaultInitBegin s) := by
  unfold vaultInitBegin
  try dsimp only
  repeat' first
    | with_reducible assumption
    | with_reducible apply keep_kstNext
    | (fail_if_no_progress with_reducible refine keep_mk rfl rfl rfl rfl rfl rfl ?_)

theorem keep_vaultErr {M : List Host.Cell} {Q : List Instr} {s : State} (e : BitVec 8)
    (hgood : Good M Q s) : Good M Q (vaultErr e s) := keep_mk (s := s) rfl rfl rfl rfl rfl rfl hgood

theorem keep_vaultNoiseFailed {M : List Host.Cell} {Q : List Instr} {s : State} 
    (hgood : Good M Q s) : Good M Q (vaultNoiseFailed s) := by
  unfold vaultNoiseFailed
  try dsimp only
  repeat' first
    | with_reducible assumption
    | with_reducible apply keep_vaultErr
    | with_reducible apply keep_vaultEnter
    | with_reducible apply keep_ite
    | (fail_if_no_progress with_reducible refine keep_mk rfl rfl rfl rfl rfl rfl ?_)
    | split

theorem keep_vaultResult {M : List Host.Cell} {Q : List Instr} {s : State} (op : BitVec 3) (addr : BitVec 12) (data : BitVec 32)
    (hgood : Good M Q s) : Good M Q (vaultResult op addr data s) := keep_mk (s := s) rfl rfl rfl rfl rfl rfl hgood

theorem keep_vaultTakeBlock {M : List Host.Cell} {Q : List Instr} {s : State} (b : BitVec 384)
    (hgood : Good M Q s) : Good M Q (vaultTakeBlock b s) := by
  unfold vaultTakeBlock
  try dsimp only
  repeat' first
    | with_reducible assumption
    | with_reducible apply keep_kstQueue
    | with_reducible apply keep_ite
    | (fail_if_no_progress with_reducible refine keep_mk rfl rfl rfl rfl rfl rfl ?_)
    | split

theorem keep_keygenEnd {M : List Host.Cell} {Q : List Instr} {s : State} 
    (hgood : Good M Q s) : Good M Q (keygenEnd s) := by
  unfold keygenEnd
  try dsimp only
  repeat' first
    | with_reducible assumption
    | with_reducible apply keep_vaultResult
    | with_reducible apply keep_vaultEnter
    | with_reducible apply keep_ite
    | (fail_if_no_progress with_reducible refine keep_mk rfl rfl rfl rfl rfl rfl ?_)
    | split

theorem keep_vaultKst {M : List Host.Cell} {Q : List Instr} {s : State} (o : KstOp) (w : Option (BitVec 32))
    (hgood : Good M Q s) : Good M Q (vaultKst o w s) := by
  unfold vaultKst
  try dsimp only
  repeat' first
    | with_reducible assumption
    | with_reducible apply keep_keygenEnd
    | with_reducible apply keep_vaultResult
    | with_reducible apply keep_vaultErr
    | with_reducible apply keep_ite
    | (fail_if_no_progress with_reducible refine keep_mk rfl rfl rfl rfl rfl rfl ?_)
    | split

theorem keep_kstFailed {M : List Host.Cell} {Q : List Instr} {s : State} (o : KstOp)
    (hgood : Good M Q s) : Good M Q (kstFailed o s) := by
  unfold kstFailed
  try dsimp only
  repeat' first
    | with_reducible assumption
    | with_reducible apply keep_vaultKst
    | with_reducible apply keep_kstLower
    | with_reducible apply keep_report
    | with_reducible apply keep_countPort
    | with_reducible apply keep_ite
    | (fail_if_no_progress with_reducible refine keep_mk rfl rfl rfl rfl rfl rfl ?_)
    | split

theorem keep_writeVaultOp {M : List Host.Cell} {Q : List Instr} {s : State} (w : Word) (quote : State → Option (List Byte))
    (hgood : Good M Q s) : Good M Q (writeVaultOp w quote s) := by
  unfold writeVaultOp
  try dsimp only
  repeat' first
    | with_reducible assumption
    | with_reducible apply keep_kstQueue
    | with_reducible apply keep_ite
    | (fail_if_no_progress with_reducible refine keep_mk rfl rfl rfl rfl rfl rfl ?_)
    | split

theorem keep_quoteEnd {M : List Host.Cell} {Q : List Instr} {s : State} 
    (hgood : Good M Q s) : Good M Q (quoteEnd s) := by
  unfold quoteEnd
  try dsimp only
  repeat' first
    | with_reducible assumption
    | with_reducible apply keep_countHealth
    | (fail_if_no_progress with_reducible refine keep_mk rfl rfl rfl rfl rfl rfl ?_)

theorem keep_execKstAck {M : List Host.Cell} {Q : List Instr} {s : State} (rdata : BitVec 32) (err : Bool) (par : BitVec 5)
    (hgood : Good M Q s) : GoodOut M Q (execKstAck rdata err par s) := by
  unfold execKstAck
  try dsimp only
  repeat' first
    | with_reducible assumption
    | with_reducible apply keep_kstFailed
    | with_reducible apply keep_vaultKst
    | with_reducible apply keep_kstLower
    | with_reducible apply goodOut_next
    | exact goodOut_fault _
    | with_reducible apply keep_ite
    | split

theorem keep_execKstTimeout {M : List Host.Cell} {Q : List Instr} {s : State} 
    (hgood : Good M Q s) : GoodOut M Q (execKstTimeout s) := by
  unfold execKstTimeout
  try dsimp only
  repeat' first
    | with_reducible assumption
    | with_reducible apply keep_kstFailed
    | with_reducible apply goodOut_next
    | with_reducible apply keep_ite
    | split

theorem keep_execVaultProgram {M : List Host.Cell} {Q : List Instr} {s : State} (w : Word)
    (hgood : Good M Q s) : GoodOut M Q (execVaultProgram w s) := by
  unfold execVaultProgram
  try dsimp only
  repeat' first
    | with_reducible assumption
    | with_reducible apply keep_writeVaultOp
    | with_reducible apply keep_ctlWrite
    | with_reducible apply goodOut_next
    | intro _ _

theorem keep_execVaultKeygen {M : List Host.Cell} {Q : List Instr} {s : State} (w : Word)
    (hgood : Good M Q s) : GoodOut M Q (execVaultKeygen w s) := by
  unfold execVaultKeygen
  try dsimp only
  repeat' first
    | with_reducible assumption
    | with_reducible apply keep_writeVaultOp
    | with_reducible apply keep_ctlWrite
    | with_reducible apply goodOut_next
    | intro _ _

theorem keep_execVaultLock {M : List Host.Cell} {Q : List Instr} {s : State} (w : Word)
    (hgood : Good M Q s) : GoodOut M Q (execVaultLock w s) := by
  unfold execVaultLock
  try dsimp only
  repeat' first
    | with_reducible assumption
    | with_reducible apply keep_writeVaultOp
    | with_reducible apply keep_ctlWrite
    | with_reducible apply goodOut_next
    | intro _ _

theorem keep_execVaultRead {M : List Host.Cell} {Q : List Instr} {s : State} (w : Word)
    (hgood : Good M Q s) : GoodOut M Q (execVaultRead w s) := by
  unfold execVaultRead
  try dsimp only
  repeat' first
    | with_reducible assumption
    | with_reducible apply keep_writeVaultOp
    | with_reducible apply keep_ctlWrite
    | with_reducible apply goodOut_next
    | intro _ _

theorem keep_execQuoteDone {M : List Host.Cell} {Q : List Instr} {s : State} 
    (hgood : Good M Q s) : GoodOut M Q (execQuoteDone s) := by
  unfold execQuoteDone
  try dsimp only
  repeat' first
    | with_reducible assumption
    | with_reducible apply keep_quoteEnd
    | with_reducible apply goodOut_next
    | with_reducible apply keep_ite
    | split

end Sys2Proof.Machine
end

