-- ==== Sys2Proof/Laws/KeepRandom.lean ====
section
/-! SUPPORT. What each operation of Machine/Random.lean keeps (Laws/Keep.lean). -/
namespace Sys2Proof.Machine

-- the proofs below are one script for many operations, of which each uses its own part
set_option linter.unusedTactic false
set_option linter.unreachableTactic false

theorem keep_maskFlush {M : List Host.Cell} {Q : List Instr} (n : Nat) {s : State} (h : Good M Q s) :
    Good M Q (maskFlush n s) := by
  induction n generalizing s with
  | zero => exact h
  | succ n ih =>
    unfold maskFlush
    try dsimp only
    repeat' first
      | with_reducible assumption
      | apply ih
      | with_reducible apply keep_enqueue
      | with_reducible apply keep_ite
      | (fail_if_no_progress with_reducible refine keep_mk rfl rfl rfl rfl rfl rfl ?_)
      | split

theorem keep_maskBeat {M : List Host.Cell} {Q : List Instr} {s : State} (words : Nat)
    (hgood : Good M Q s) : Good M Q (maskBeat words s) := by
  unfold maskBeat
  try dsimp only
  repeat' first
    | with_reducible assumption
    | with_reducible apply keep_maskFlush
    | with_reducible apply keep_ite
    | (fail_if_no_progress with_reducible refine keep_mk rfl rfl rfl rfl rfl rfl ?_)
    | split

theorem keep_maskEnd {M : List Host.Cell} {Q : List Instr} {s : State} (valid stopped : Bool)
    (hgood : Good M Q s) : Good M Q (maskEnd valid stopped s) := by
  unfold maskEnd
  try dsimp only
  repeat' first
    | with_reducible assumption
    | with_reducible apply keep_pulse
    | (fail_if_no_progress with_reducible refine keep_mk rfl rfl rfl rfl rfl rfl ?_)

theorem keep_maskSettle {M : List Host.Cell} {Q : List Instr} {s : State} 
    (hgood : Good M Q s) : Good M Q (maskSettle s) := by
  unfold maskSettle
  try dsimp only
  repeat' first
    | with_reducible assumption
    | with_reducible apply keep_maskEnd
    | with_reducible apply keep_ite
    | split

theorem keep_maskStop {M : List Host.Cell} {Q : List Instr} {s : State} (shown : Bool)
    (hgood : Good M Q s) : Good M Q (maskStop shown s) := by
  unfold maskStop
  try dsimp only
  repeat' first
    | with_reducible assumption
    | with_reducible apply keep_maskSettle
    | (fail_if_no_progress with_reducible refine keep_mk rfl rfl rfl rfl rfl rfl ?_)
    | split

theorem keep_maskWriteDone {M : List Host.Cell} {Q : List Instr} {s : State} (i : Nat) (ok : Bool)
    (hgood : Good M Q s) : Good M Q (maskWriteDone i ok s) := by
  unfold maskWriteDone
  try dsimp only
  repeat' first
    | with_reducible assumption
    | with_reducible apply keep_maskSettle
    | with_reducible apply keep_countRng
    | with_reducible apply keep_ite
    | (fail_if_no_progress with_reducible refine keep_mk rfl rfl rfl rfl rfl rfl ?_)
    | split

theorem keep_writeMaskCtl {M : List Host.Cell} {Q : List Instr} {s : State} (w : Word)
    (hgood : Good M Q s) : Good M Q (writeMaskCtl w s) := by
  unfold writeMaskCtl
  try dsimp only
  repeat' first
    | with_reducible assumption
    | with_reducible apply keep_maskStop
    | with_reducible apply keep_ite
    | (fail_if_no_progress with_reducible refine keep_mk rfl rfl rfl rfl rfl rfl ?_)
    | split

theorem keep_maskMismatch {M : List Host.Cell} {Q : List Instr} {s : State} 
    (hgood : Good M Q s) : Good M Q (maskMismatch s) := by
  unfold maskMismatch
  try dsimp only
  repeat' first
    | with_reducible assumption
    | with_reducible apply keep_maskStop
    | with_reducible apply keep_ite
    | (fail_if_no_progress with_reducible refine keep_mk rfl rfl rfl rfl rfl rfl ?_)
    | split

theorem keep_noiseFail {M : List Host.Cell} {Q : List Instr} {s : State} (rct : Bool)
    (hgood : Good M Q s) : Good M Q (noiseFail rct s) := by
  unfold noiseFail
  try dsimp only
  repeat' first
    | with_reducible assumption
    | with_reducible apply keep_vaultNoiseFailed
    | with_reducible apply keep_report
    | with_reducible apply keep_countRng
    | with_reducible apply keep_ite
    | (fail_if_no_progress with_reducible refine keep_mk rfl rfl rfl rfl rfl rfl ?_)
    | split

theorem keep_noiseWindowEnd {M : List Host.Cell} {Q : List Instr} {s : State} 
    (hgood : Good M Q s) : Good M Q (noiseWindowEnd s) := by
  unfold noiseWindowEnd
  try dsimp only
  repeat' first
    | with_reducible assumption
    | with_reducible apply keep_ite
    | (fail_if_no_progress with_reducible refine keep_mk rfl rfl rfl rfl rfl rfl ?_)
    | split

theorem keep_gatherBit {M : List Host.Cell} {Q : List Instr} {s : State} (b : Bool)
    (hgood : Good M Q s) : Good M Q (gatherBit b s) := by
  unfold gatherBit
  try dsimp only
  repeat' first
    | with_reducible assumption
    | with_reducible apply keep_ite
    | (fail_if_no_progress with_reducible refine keep_mk rfl rfl rfl rfl rfl rfl ?_)
    | split

theorem keep_noiseBit {M : List Host.Cell} {Q : List Instr} {s : State} (b : Bool)
    (hgood : Good M Q s) : Good M Q (noiseBit b s) := by
  unfold noiseBit
  try dsimp only
  repeat' first
    | with_reducible assumption
    | with_reducible apply keep_gatherBit
    | with_reducible apply keep_noiseWindowEnd
    | with_reducible apply keep_noiseFail
    | with_reducible apply keep_ite
    | (fail_if_no_progress with_reducible refine keep_mk rfl rfl rfl rfl rfl rfl ?_)
    | split

theorem keep_takeBlock {M : List Host.Cell} {Q : List Instr} {s : State} (b : BitVec 384)
    (hgood : Good M Q s) : Good M Q (takeBlock b s) := by
  unfold takeBlock
  try dsimp only
  repeat' first
    | with_reducible assumption
    | with_reducible apply keep_vaultTakeBlock
    | with_reducible apply keep_drawFree
    | (with_reducible refine keep_drawFree_eq ‹_› ?_)
    | with_reducible apply keep_ite
    | (fail_if_no_progress with_reducible refine keep_mk rfl rfl rfl rfl rfl rfl ?_)
    | split

theorem keep_execMaskStart {M : List Host.Cell} {Q : List Instr} {s : State} (w : Word)
    (hgood : Good M Q s) : GoodOut M Q (execMaskStart w s) := by
  unfold execMaskStart
  try dsimp only
  repeat' first
    | with_reducible assumption
    | with_reducible apply keep_writeMaskCtl
    | with_reducible apply keep_ctlWrite
    | with_reducible apply goodOut_next
    | intro _ _

theorem keep_execMaskStop {M : List Host.Cell} {Q : List Instr} {s : State} (w : Word)
    (hgood : Good M Q s) : GoodOut M Q (execMaskStop w s) := by
  unfold execMaskStop
  try dsimp only
  repeat' first
    | with_reducible assumption
    | with_reducible apply keep_writeMaskCtl
    | with_reducible apply keep_ctlWrite
    | with_reducible apply goodOut_next
    | intro _ _

theorem keep_execMaskFillDone {M : List Host.Cell} {Q : List Instr} {s : State} 
    (hgood : Good M Q s) : GoodOut M Q (execMaskFillDone s) := by
  unfold execMaskFillDone
  try dsimp only
  repeat' first
    | with_reducible assumption
    | with_reducible apply keep_maskEnd
    | with_reducible apply goodOut_next
    | with_reducible apply keep_ite
    | split

theorem keep_writeRngCtl {M : List Host.Cell} {Q : List Instr} {s : State} (w : Word)
    (hgood : Good M Q s) : Good M Q (writeRngCtl w s) := keep_mk (s := s) rfl rfl rfl rfl rfl rfl hgood

theorem keep_execReseedNow {M : List Host.Cell} {Q : List Instr} {s : State} (w : Word)
    (hgood : Good M Q s) : GoodOut M Q (execReseedNow w s) := by
  unfold execReseedNow
  try dsimp only
  repeat' first
    | with_reducible assumption
    | with_reducible apply keep_writeRngCtl
    | with_reducible apply keep_ctlWrite
    | with_reducible apply goodOut_next
    | intro _ _

theorem keep_execReseedInterval {M : List Host.Cell} {Q : List Instr} {s : State} 
    (hgood : Good M Q s) : GoodOut M Q (execReseedInterval s) := by
  unfold execReseedInterval
  try dsimp only
  repeat' first
    | with_reducible assumption
    | with_reducible apply goodOut_next
    | with_reducible apply keep_ite
    | (fail_if_no_progress with_reducible refine keep_mk rfl rfl rfl rfl rfl rfl ?_)
    | split

theorem keep_execReseed {M : List Host.Cell} {Q : List Instr} {s : State} 
    (hgood : Good M Q s) : GoodOut M Q (execReseed s) := by
  unfold execReseed
  try dsimp only
  repeat' first
    | with_reducible assumption
    | with_reducible apply keep_countRng
    | with_reducible apply goodOut_next
    | with_reducible apply keep_ite
    | (fail_if_no_progress with_reducible refine keep_mk rfl rfl rfl rfl rfl rfl ?_)
    | split

theorem keep_execNoiseRawBit {M : List Host.Cell} {Q : List Instr} {s : State} (bit : Bool)
    (hgood : Good M Q s) : GoodOut M Q (execNoiseRawBit bit s) := by
  unfold execNoiseRawBit
  try dsimp only
  repeat' first
    | with_reducible assumption
    | with_reducible apply keep_noiseBit
    | with_reducible apply goodOut_next
    | with_reducible apply keep_ite
    | split

theorem keep_execConditionedBlock {M : List Host.Cell} {Q : List Instr} {s : State} 
    (hgood : Good M Q s) : GoodOut M Q (execConditionedBlock s) := by
  unfold execConditionedBlock
  try dsimp only
  repeat' first
    | with_reducible assumption
    | with_reducible apply keep_takeBlock
    | with_reducible apply goodOut_next
    | with_reducible apply keep_ite
    | (fail_if_no_progress with_reducible refine keep_mk rfl rfl rfl rfl rfl rfl ?_)
    | split

theorem keep_writeLane {M : List Host.Cell} {Q : List Instr} {s : State} (n : Nat) (w : Word)
    (hgood : Good M Q s) : Good M Q (writeLane n w s) := by
  unfold writeLane
  try dsimp only
  repeat' first
    | with_reducible assumption
    | with_reducible apply keep_report
    | with_reducible apply keep_ite
    | (fail_if_no_progress with_reducible refine keep_mk rfl rfl rfl rfl rfl rfl ?_)
    | split

theorem keep_execRngLaneWrite {M : List Host.Cell} {Q : List Instr} {s : State} (n : BitVec 7) (w : Word)
    (hgood : Good M Q s) : GoodOut M Q (execRngLaneWrite n w s) := by
  unfold execRngLaneWrite
  try dsimp only
  repeat' first
    | with_reducible assumption
    | with_reducible apply keep_writeLane
    | with_reducible apply keep_ctlWrite
    | with_reducible apply goodOut_next
    | intro _ _

end Sys2Proof.Machine
end

