-- ==== Sys2Proof/Laws/KeepFabric.lean ====
section
/-! SUPPORT. What each operation of Machine/Fabric.lean keeps (Laws/Keep.lean). -/
namespace Sys2Proof.Machine

-- the proofs below are one script for many operations, of which each uses its own part
set_option linter.unusedTactic false
set_option linter.unreachableTactic false

theorem keep_setFab {M : List Host.Cell} {Q : List Instr} {s : State} (f : Fabric → Fabric)
    (hgood : Good M Q s) : Good M Q (setFab f s) := keep_mk (s := s) rfl rfl rfl rfl rfl rfl hgood

theorem keep_dropTile {M : List Host.Cell} {Q : List Instr} {s : State} (t : TileSt) (misses : Nat)
    (hgood : Good M Q s) : Good M Q (dropTile t misses s) := by
  unfold dropTile
  try dsimp only
  repeat' first
    | with_reducible assumption
    | with_reducible apply keep_giveUpPads
    | with_reducible apply keep_setPass
    | with_reducible apply keep_countFab

theorem keep_shedRanks {M : List Host.Cell} {Q : List Instr} {s : State} (mask : BitVec 26)
    (hgood : Good M Q s) : Good M Q (shedRanks mask s) := by
  unfold shedRanks
  try dsimp only
  repeat' first
    | with_reducible assumption
    | with_reducible apply keep_setFab

theorem keep_discardChain {M : List Host.Cell} {Q : List Instr} {s : State} 
    (hgood : Good M Q s) : Good M Q (discardChain s) := by
  unfold discardChain
  try dsimp only
  repeat' first
    | with_reducible assumption
    | with_reducible apply keep_setPass
    | with_reducible apply keep_ite
    | split

theorem keep_dropDiscarded {M : List Host.Cell} {Q : List Instr} {s : State} 
    (hgood : Good M Q s) : Good M Q (dropDiscarded s) := by
  unfold dropDiscarded
  try dsimp only
  repeat' first
    | with_reducible assumption
    | with_reducible apply keep_dropTile
    | intro _ _ _
    | with_reducible apply keep_foldl

theorem keep_residueFault {M : List Host.Cell} {Q : List Instr} {s : State} (rank : BitVec 5) (lane : BitVec 7) (unit : BitVec 2) (t : TileSt)
    (hgood : Good M Q s) : Good M Q (residueFault rank lane unit t s) := by
  unfold residueFault
  try dsimp only
  repeat' first
    | with_reducible assumption
    | with_reducible apply keep_discardChain
    | with_reducible apply keep_shedRanks
    | with_reducible apply keep_setFab
    | with_reducible apply keep_croakSet
    | with_reducible apply keep_report

theorem keep_drainEnd {M : List Host.Cell} {Q : List Instr} {s : State} 
    (hgood : Good M Q s) : Good M Q (drainEnd s) := by
  unfold drainEnd
  try dsimp only
  repeat' first
    | with_reducible assumption
    | with_reducible apply keep_dropDiscarded
    | with_reducible apply keep_setFab
    | with_reducible apply keep_raiseHalt
    | with_reducible apply keep_chooseVariant
    | with_reducible apply keep_setPass
    | with_reducible apply keep_ite
    | split

theorem keep_fabricResetBegin {M : List Host.Cell} {Q : List Instr} {s : State} 
    (hgood : Good M Q s) : Good M Q (fabricResetBegin s) := by
  unfold fabricResetBegin
  try dsimp only
  repeat' first
    | with_reducible assumption
    | with_reducible apply keep_setFab
    | with_reducible apply keep_haltEma
    | with_reducible apply keep_maskStop
    | with_reducible apply keep_ite
    | (fail_if_no_progress with_reducible refine keep_mk rfl rfl rfl rfl rfl rfl ?_)
    | split

theorem keep_fabricResetEnd {M : List Host.Cell} {Q : List Instr} {s : State} 
    (hgood : Good M Q s) : Good M Q (fabricResetEnd s) := by
  unfold fabricResetEnd
  try dsimp only
  repeat' first
    | with_reducible assumption
    | with_reducible apply keep_chooseVariant
    | (fail_if_no_progress with_reducible refine keep_mk rfl rfl rfl rfl rfl rfl ?_)

theorem keep_drainDone {M : List Host.Cell} {Q : List Instr} {s : State} 
    (hgood : Good M Q s) : Good M Q (drainDone s) := by
  unfold drainDone
  try dsimp only
  repeat' first
    | with_reducible assumption
    | with_reducible apply keep_fabricResetBegin
    | with_reducible apply keep_drainEnd
    | with_reducible apply keep_ite
    | split

theorem keep_codecMismatch {M : List Host.Cell} {Q : List Instr} {s : State} (t : TileSt)
    (hgood : Good M Q s) : Good M Q (codecMismatch t s) := by
  unfold codecMismatch
  try dsimp only
  repeat' first
    | with_reducible assumption
    | with_reducible apply keep_dropTile
    | with_reducible apply keep_discardReads
    | with_reducible apply keep_raiseHalt
    | with_reducible apply keep_setTile
    | with_reducible apply keep_dropReads
    | with_reducible apply keep_ite
    | split

theorem keep_checkFailed {M : List Host.Cell} {Q : List Instr} {s : State} (im : Image) (t : TileSt) (x : Nat × Nat × Nat)
    (hgood : Good M Q s) : Good M Q (checkFailed im t x s) := by
  unfold checkFailed
  try dsimp only
  repeat' first
    | with_reducible assumption
    | with_reducible apply keep_residueFault
    | split

theorem keep_lastBeat {M : List Host.Cell} {Q : List Instr} {s : State} (im : Image) (p : Pass) (t : TileSt)
    (hgood : Good M Q s) : Good M Q (lastBeat im p t s) := by
  unfold lastBeat
  try dsimp only
  repeat' first
    | with_reducible assumption
    | with_reducible apply keep_checkFailed
    | with_reducible apply keep_freeSlots
    | with_reducible apply keep_setTile
    | with_reducible apply keep_ite
    | (fail_if_no_progress with_reducible refine keep_mk rfl rfl rfl rfl rfl rfl ?_)
    | split

theorem keep_beatIn {M : List Host.Cell} {Q : List Instr} {s : State} (im : Image) (p : Pass)
    (hgood : Good M Q s) : Good M Q (beatIn im p s).2 := by
  unfold beatIn
  try dsimp only
  repeat' first
    | with_reducible assumption
    | with_reducible apply keep_lastBeat
    | with_reducible apply keep_setTile
    | with_reducible apply keep_ite
    | split

theorem keep_beatIn_eq {M : List Host.Cell} {Q : List Instr} {s t : State} {a : Bool} {im : Image} {p : Pass}
    (heq : beatIn im p s = (a, t)) (hgood : Good M Q s) : Good M Q t := by
  have h := keep_beatIn (M := M) (Q := Q) im p hgood
  rw [heq] at h
  exact h

theorem keep_leaveChain {M : List Host.Cell} {Q : List Instr} {s : State} (im : Image) (p : Pass) (t : TileSt)
    (hgood : Good M Q s) : Good M Q (leaveChain im p t s) := by
  unfold leaveChain
  try dsimp only
  repeat' first
    | with_reducible assumption
    | with_reducible apply keep_dropTile
    | with_reducible apply keep_setTile
    | with_reducible apply keep_setPass
    | with_reducible apply keep_storeOut
    | with_reducible apply keep_ite
    | split

theorem keep_leaveAll {M : List Host.Cell} {Q : List Instr} {s : State} (im : Image)
    (hgood : Good M Q s) : Good M Q (leaveAll im s) := by
  unfold leaveAll
  try dsimp only
  repeat' first
    | with_reducible assumption
    | with_reducible apply keep_leaveChain
    | intro _ _ _
    | with_reducible apply keep_foldl
    | split

theorem keep_prepareCycle {M : List Host.Cell} {Q : List Instr} {s : State} 
    (hgood : Good M Q s) : Good M Q (prepareCycle s) := by
  unfold prepareCycle
  try dsimp only
  repeat' first
    | with_reducible assumption
    | with_reducible apply keep_setPass
    | with_reducible apply keep_ite
    | split

theorem keep_chainCycle {M : List Host.Cell} {Q : List Instr} {s : State} 
    (hgood : Good M Q s) : Good M Q (chainCycle s).2 := by
  unfold chainCycle
  try dsimp only
  repeat' first
    | with_reducible assumption
    | with_reducible apply keep_leaveAll
    | with_reducible apply keep_beatIn
    | (with_reducible refine keep_beatIn_eq ‹_› ?_)
    | with_reducible apply keep_setPass
    | with_reducible apply keep_countRng
    | with_reducible apply keep_ite
    | split

theorem keep_chainCycle_eq {M : List Host.Cell} {Q : List Instr} {s t : State} {a : Bool} 
    (heq : chainCycle s = (a, t)) (hgood : Good M Q s) : Good M Q t := by
  have h := keep_chainCycle (M := M) (Q := Q)  hgood
  rw [heq] at h
  exact h

theorem keep_genFault {M : List Host.Cell} {Q : List Instr} {s : State} 
    (hgood : Good M Q s) : Good M Q (genFault s) := by
  unfold genFault
  try dsimp only
  repeat' first
    | with_reducible assumption
    | with_reducible apply keep_countRng
    | (fail_if_no_progress with_reducible refine keep_mk rfl rfl rfl rfl rfl rfl ?_)

theorem keep_writeFabShed {M : List Host.Cell} {Q : List Instr} {s : State} (w : Word)
    (hgood : Good M Q s) : Good M Q (writeFabShed w s) := by
  unfold writeFabShed
  try dsimp only
  repeat' first
    | with_reducible assumption
    | with_reducible apply keep_shedRanks
    | with_reducible apply keep_chooseVariant
    | with_reducible apply keep_croakSet
    | with_reducible apply keep_report
    | with_reducible apply keep_ite
    | split

theorem keep_writeFabCtl {M : List Host.Cell} {Q : List Instr} {s : State} (w : Word)
    (hgood : Good M Q s) : Good M Q (writeFabCtl w s) := by
  unfold writeFabCtl
  try dsimp only
  repeat' first
    | with_reducible assumption
    | with_reducible apply keep_setFab
    | with_reducible apply keep_ite
    | split

theorem keep_execResidueFault {M : List Host.Cell} {Q : List Instr} {s : State} (rank : BitVec 5) (lane : BitVec 7) (unit : BitVec 2) (ord : BitVec 32)
    (hgood : Good M Q s) : GoodOut M Q (execResidueFault rank lane unit ord s) := by
  unfold execResidueFault
  try dsimp only
  repeat' first
    | with_reducible assumption
    | with_reducible apply keep_residueFault
    | with_reducible apply goodOut_next
    | with_reducible apply keep_ite
    | split

theorem keep_execShedDrainDone {M : List Host.Cell} {Q : List Instr} {s : State} 
    (hgood : Good M Q s) : GoodOut M Q (execShedDrainDone s) := by
  unfold execShedDrainDone
  try dsimp only
  repeat' first
    | with_reducible assumption
    | with_reducible apply keep_drainDone
    | with_reducible apply goodOut_next
    | with_reducible apply keep_ite
    | split

theorem keep_execCodecMismatch {M : List Host.Cell} {Q : List Instr} {s : State} (ord : BitVec 32)
    (hgood : Good M Q s) : GoodOut M Q (execCodecMismatch ord s) := by
  unfold execCodecMismatch
  try dsimp only
  repeat' first
    | with_reducible assumption
    | with_reducible apply keep_codecMismatch
    | with_reducible apply goodOut_next
    | with_reducible apply keep_ite
    | split

theorem keep_execGenMismatch {M : List Host.Cell} {Q : List Instr} {s : State} (mask : Bool) (ord : BitVec 32)
    (hgood : Good M Q s) : GoodOut M Q (execGenMismatch mask ord s) := by
  unfold execGenMismatch
  try dsimp only
  repeat' first
    | with_reducible assumption
    | with_reducible apply keep_genFault
    | with_reducible apply keep_codecMismatch
    | with_reducible apply keep_maskMismatch
    | with_reducible apply goodOut_next
    | with_reducible apply keep_ite
    | split

theorem keep_execFabShedWrite {M : List Host.Cell} {Q : List Instr} {s : State} (w : Word)
    (hgood : Good M Q s) : GoodOut M Q (execFabShedWrite w s) := by
  unfold execFabShedWrite
  try dsimp only
  repeat' first
    | with_reducible assumption
    | with_reducible apply keep_writeFabShed
    | with_reducible apply keep_ctlWrite
    | with_reducible apply goodOut_next
    | intro _ _

theorem keep_execFabCntClear {M : List Host.Cell} {Q : List Instr} {s : State} (w : Word)
    (hgood : Good M Q s) : GoodOut M Q (execFabCntClear w s) := by
  unfold execFabCntClear
  try dsimp only
  repeat' first
    | with_reducible assumption
    | with_reducible apply keep_writeFabCtl
    | with_reducible apply keep_ctlWrite
    | with_reducible apply goodOut_next
    | intro _ _

end Sys2Proof.Machine
end

