-- ==== Sys2Proof/Laws/KeepLink.lean ====
section
/-! SUPPORT. What each operation of Machine/Link.lean keeps (Laws/Keep.lean). -/
namespace Sys2Proof.Machine

-- the proofs below are one script for many operations, of which each uses its own part
set_option linter.unusedTactic false
set_option linter.unreachableTactic false

theorem keep_resendUnresolved {M : List Host.Cell} {Q : List Instr} {s : State} 
    (hgood : Good M Q s) : Good M Q (resendUnresolved s) := by
  unfold resendUnresolved
  try dsimp only
  repeat' first
    | with_reducible assumption
    | with_reducible apply keep_sendToManager
    | intro _ _ _
    | with_reducible apply keep_foldl
    | with_reducible apply keep_ite
    | split

theorem keep_resendRing {M : List Host.Cell} {Q : List Instr} {s : State} 
    (hgood : Good M Q s) : Good M Q (resendRing s) := by
  unfold resendRing
  try dsimp only
  repeat' first
    | with_reducible assumption
    | with_reducible apply keep_broadcast
    | split

theorem keep_ringChanged {M : List Host.Cell} {Q : List Instr} {s : State} (old : Option (Side × Nat)) (back : Bool)
    (hgood : Good M Q s) : Good M Q (ringChanged old back s) := by
  unfold ringChanged
  try dsimp only
  repeat' first
    | with_reducible assumption
    | with_reducible apply keep_resendRing
    | with_reducible apply keep_resendUnresolved
    | with_reducible apply keep_epochFail
    | with_reducible apply keep_ite
    | split

theorem keep_segSettle {M : List Host.Cell} {Q : List Instr} {s : State} 
    (hgood : Good M Q s) : Good M Q (segSettle s) := by
  unfold segSettle
  try dsimp only
  repeat' first
    | with_reducible assumption
    | with_reducible apply keep_ringChanged
    | with_reducible apply keep_broadcast
    | with_reducible apply keep_ite
    | (fail_if_no_progress with_reducible refine keep_mk rfl rfl rfl rfl rfl rfl ?_)
    | split

theorem keep_bootLinks {M : List Host.Cell} {Q : List Instr} {s : State} 
    (hgood : Good M Q s) : Good M Q (bootLinks s) := by
  unfold bootLinks
  try dsimp only
  repeat' first
    | with_reducible assumption
    | with_reducible apply keep_bootTo
    | with_reducible apply keep_ite
    | split

theorem keep_startTraining {M : List Host.Cell} {Q : List Instr} {s : State} (d : Side) (retrain : Bool)
    (hgood : Good M Q s) : Good M Q (startTraining d retrain s) := by
  unfold startTraining
  try dsimp only
  repeat' first
    | with_reducible assumption
    | with_reducible apply keep_countLink
    | with_reducible apply keep_setLink
    | with_reducible apply keep_ite
    | (fail_if_no_progress with_reducible refine keep_mk rfl rfl rfl rfl rfl rfl ?_)
    | split

theorem keep_trainingOver {M : List Host.Cell} {Q : List Instr} {s : State} (d : Side)
    (hgood : Good M Q s) : Good M Q (trainingOver d s) := by
  unfold trainingOver
  try dsimp only
  repeat' first
    | with_reducible assumption
    | with_reducible apply keep_setLink
    | (fail_if_no_progress with_reducible refine keep_mk rfl rfl rfl rfl rfl rfl ?_)
    | split

theorem keep_goDown {M : List Host.Cell} {Q : List Instr} {s : State} (d : Side) (cause : BitVec 8)
    (hgood : Good M Q s) : Good M Q (goDown d cause s) := by
  unfold goDown
  try dsimp only
  repeat' first
    | with_reducible assumption
    | with_reducible apply keep_trainingOver
    | with_reducible apply keep_setLink
    | with_reducible apply keep_croakSet
    | with_reducible apply keep_report
    | with_reducible apply keep_ite
    | split

theorem keep_trainFail {M : List Host.Cell} {Q : List Instr} {s : State} (d : Side)
    (hgood : Good M Q s) : Good M Q (trainFail d s) := by
  unfold trainFail
  try dsimp only
  repeat' first
    | with_reducible assumption
    | with_reducible apply keep_goDown
    | with_reducible apply keep_startTraining
    | with_reducible apply keep_setLink
    | with_reducible apply keep_ite
    | split

theorem keep_linkRestart {M : List Host.Cell} {Q : List Instr} {s : State} (d : Side)
    (hgood : Good M Q s) : Good M Q (linkRestart d s) := by
  unfold linkRestart
  try dsimp only
  repeat' first
    | with_reducible assumption
    | with_reducible apply keep_goDown
    | with_reducible apply keep_trainingOver
    | with_reducible apply keep_startTraining
    | with_reducible apply keep_setLink
    | with_reducible apply keep_ite
    | split

theorem keep_setTraining {M : List Host.Cell} {Q : List Instr} {s : State} (d : Side) (f : Training → Training)
    (hgood : Good M Q s) : Good M Q (setTraining d f s) := by
  unfold setTraining
  try dsimp only
  repeat' first
    | with_reducible assumption
    | with_reducible apply keep_setLink

theorem keep_clockDone {M : List Host.Cell} {Q : List Instr} {s : State} (d : Side) (locked : Bool)
    (hgood : Good M Q s) : Good M Q (clockDone d locked s) := by
  unfold clockDone
  try dsimp only
  repeat' first
    | with_reducible assumption
    | with_reducible apply keep_setTraining
    | with_reducible apply keep_trainFail
    | with_reducible apply keep_ite
    | split

theorem keep_patternDone {M : List Host.Cell} {Q : List Instr} {s : State} (d : Side) (errors : BitVec 12)
    (hgood : Good M Q s) : Good M Q (patternDone d errors s) := by
  unfold patternDone
  try dsimp only
  repeat' first
    | with_reducible assumption
    | with_reducible apply keep_setTraining
    | with_reducible apply keep_startTraining
    | with_reducible apply keep_ite
    | split

theorem keep_marginDone {M : List Host.Cell} {Q : List Instr} {s : State} (d : Side) (margins : BitVec 96)
    (hgood : Good M Q s) : Good M Q (marginDone d margins s) := by
  unfold marginDone
  try dsimp only
  repeat' first
    | with_reducible assumption
    | with_reducible apply keep_goDown
    | with_reducible apply keep_setLink
    | intro _ _ _
    | with_reducible apply keep_foldl
    | with_reducible apply keep_ite
    | split

theorem keep_mapWordIn {M : List Host.Cell} {Q : List Instr} {s : State} (d : Side) (word : BitVec 24) (crc : BitVec 16)
    (hgood : Good M Q s) : Good M Q (mapWordIn d word crc s) := by
  unfold mapWordIn
  try dsimp only
  repeat' first
    | with_reducible assumption
    | with_reducible apply keep_goDown
    | with_reducible apply keep_setLink
    | with_reducible apply keep_ite
    | split

theorem keep_useAck {M : List Host.Cell} {Q : List Instr} {s : State} (d : Side) (ack : BitVec 12) (nak : Bool)
    (hgood : Good M Q s) : Good M Q (useAck d ack nak s) := by
  unfold useAck
  try dsimp only
  repeat' first
    | with_reducible assumption
    | with_reducible apply keep_setLink
    | with_reducible apply keep_ite
    | split

theorem keep_useCredit {M : List Host.Cell} {Q : List Instr} {s : State} (d : Side) (vc : Nat) (count : BitVec 6)
    (hgood : Good M Q s) : Good M Q (useCredit d vc count s) := by
  unfold useCredit
  try dsimp only
  repeat' first
    | with_reducible assumption
    | with_reducible apply keep_setLink
    | with_reducible apply keep_ite
    | split

theorem keep_askNak {M : List Host.Cell} {Q : List Instr} {s : State} (d : Side)
    (hgood : Good M Q s) : Good M Q (askNak d s) := by
  unfold askNak
  try dsimp only
  repeat' first
    | with_reducible assumption
    | with_reducible apply keep_setLink
    | with_reducible apply keep_ite
    | split

theorem keep_forwardFrame {M : List Host.Cell} {Q : List Instr} {s : State} (d : Side) (f : LFrame)
    (hgood : Good M Q s) : Good M Q (forwardFrame d f s) := by
  unfold forwardFrame
  try dsimp only
  repeat' first
    | with_reducible assumption
    | with_reducible apply keep_freeBuffer
    | with_reducible apply keep_linkWake
    | with_reducible apply keep_setLink
    | with_reducible apply keep_ite
    | split

theorem keep_deliverFrame {M : List Host.Cell} {Q : List Instr} {s : State} (d : Side) (vc : BitVec 2) (m : Line)
    (hgood : Good M Q s) : Good M Q (deliverFrame d vc m s) := by
  unfold deliverFrame
  try dsimp only
  repeat' first
    | with_reducible assumption
    | with_reducible apply keep_freeBuffer
    | with_reducible apply keep_deliver
    | with_reducible apply keep_countLink
    | with_reducible apply keep_ite
    | split

theorem keep_routeFrame {M : List Host.Cell} {Q : List Instr} {s : State} (d : Side) (h : BitVec 48) (m : Line)
    (hgood : Good M Q s) : Good M Q (routeFrame d h m s) := by
  unfold routeFrame
  try dsimp only
  repeat' first
    | with_reducible assumption
    | with_reducible apply keep_deliverFrame
    | with_reducible apply keep_forwardFrame
    | with_reducible apply keep_ite
    | split

theorem keep_frameIn {M : List Host.Cell} {Q : List Instr} {s : State} (d : Side) (f : BitVec 576)
    (hgood : Good M Q s) : Good M Q (frameIn d f s) := by
  unfold frameIn
  try dsimp only
  repeat' first
    | with_reducible assumption
    | with_reducible apply keep_routeFrame
    | with_reducible apply keep_askNak
    | with_reducible apply keep_useCredit
    | with_reducible apply keep_useAck
    | with_reducible apply keep_startTraining
    | with_reducible apply keep_countLink
    | with_reducible apply keep_setLink
    | with_reducible apply keep_ite
    | split

theorem keep_chameleonIn {M : List Host.Cell} {Q : List Instr} {s : State} (d : Side) (lane : Bool) (word : BitVec 24) (crc : BitVec 16)
    (hgood : Good M Q s) : Good M Q (chameleonIn d lane word crc s) := by
  unfold chameleonIn
  try dsimp only
  repeat' first
    | with_reducible assumption
    | with_reducible apply keep_useCredit
    | with_reducible apply keep_useAck
    | with_reducible apply keep_ite
    | split

theorem keep_driveFrame {M : List Host.Cell} {Q : List Instr} {s : State} (d : Side) (kind : BitVec 3) (vc : BitVec 2) (seq : BitVec 12) (dest src : BitVec 4) (bcast : Bool) (payload : Line)
    (hgood : Good M Q s) : Good M Q (driveFrame d kind vc seq dest src bcast payload s) := by
  unfold driveFrame
  try dsimp only
  repeat' first
    | with_reducible assumption
    | with_reducible apply keep_countLink
    | with_reducible apply keep_setLink
    | with_reducible apply keep_ite
    | split

theorem keep_sendData {M : List Host.Cell} {Q : List Instr} {s : State} (d : Side) (f : LFrame)
    (hgood : Good M Q s) : Good M Q (sendData d f s) := by
  unfold sendData
  try dsimp only
  repeat' first
    | with_reducible assumption
    | with_reducible apply keep_driveFrame
    | with_reducible apply keep_setLink
    | with_reducible apply keep_ite
    | split

theorem keep_sleepIfBoth {M : List Host.Cell} {Q : List Instr} {s : State} (d : Side)
    (hgood : Good M Q s) : Good M Q (sleepIfBoth d s) := by
  unfold sleepIfBoth
  try dsimp only
  repeat' first
    | with_reducible assumption
    | with_reducible apply keep_setLink
    | with_reducible apply keep_ite
    | split

theorem keep_sendIdle {M : List Host.Cell} {Q : List Instr} {s : State} (d : Side)
    (hgood : Good M Q s) : Good M Q (sendIdle d s) := by
  unfold sendIdle
  try dsimp only
  repeat' first
    | with_reducible assumption
    | with_reducible apply keep_sleepIfBoth
    | with_reducible apply keep_driveFrame
    | with_reducible apply keep_setLink
    | with_reducible apply keep_ite
    | split

theorem keep_frameSlot {M : List Host.Cell} {Q : List Instr} {s : State} (d : Side)
    (hgood : Good M Q s) : Good M Q (frameSlot d s) := by
  unfold frameSlot
  try dsimp only
  repeat' first
    | with_reducible assumption
    | with_reducible apply keep_sendIdle
    | with_reducible apply keep_sendData
    | with_reducible apply keep_driveFrame
    | with_reducible apply keep_setTraining
    | with_reducible apply keep_freeBuffer
    | with_reducible apply keep_countLink
    | with_reducible apply keep_setLink
    | with_reducible apply keep_ite
    | split

theorem keep_identIn {M : List Host.Cell} {Q : List Instr} {s : State} (d : Side) (f : BitVec 576)
    (hgood : Good M Q s) : Good M Q (identIn d f s) := by
  unfold identIn
  try dsimp only
  repeat' first
    | with_reducible assumption
    | with_reducible apply keep_setTraining
    | with_reducible apply keep_countLink
    | with_reducible apply keep_setLink
    | with_reducible apply keep_ite
    | split

theorem keep_reportWiring {M : List Host.Cell} {Q : List Instr} {s : State} (d : Side) (m : Line)
    (hgood : Good M Q s) : Good M Q (reportWiring d m s) := by
  unfold reportWiring
  try dsimp only
  repeat' first
    | with_reducible assumption
    | with_reducible apply keep_report

theorem keep_quarantine {M : List Host.Cell} {Q : List Instr} {s : State} (d : Side) (cause : BitVec 8)
    (hgood : Good M Q s) : Good M Q (quarantine d cause s) := by
  unfold quarantine
  try dsimp only
  repeat' first
    | with_reducible assumption
    | with_reducible apply keep_setLink
    | with_reducible apply keep_ite
    | split

theorem keep_enterRun {M : List Host.Cell} {Q : List Instr} {s : State} (d : Side)
    (hgood : Good M Q s) : Good M Q (enterRun d s) := by
  unfold enterRun
  try dsimp only
  repeat' first
    | with_reducible assumption
    | with_reducible apply keep_flashSend
    | with_reducible apply keep_setLink
    | split

theorem keep_identityEnd {M : List Host.Cell} {Q : List Instr} {s : State} (d : Side)
    (hgood : Good M Q s) : Good M Q (identityEnd d s) := by
  unfold identityEnd
  try dsimp only
  repeat' first
    | with_reducible assumption
    | with_reducible apply keep_enterRun
    | with_reducible apply keep_quarantine
    | with_reducible apply keep_reportWiring
    | with_reducible apply keep_goDown
    | with_reducible apply keep_trainingOver
    | with_reducible apply keep_startTraining
    | with_reducible apply keep_setLink
    | with_reducible apply keep_croakSet
    | with_reducible apply keep_report
    | with_reducible apply keep_ite
    | split

theorem keep_recompare {M : List Host.Cell} {Q : List Instr} {s : State} (d : Side)
    (hgood : Good M Q s) : Good M Q (recompare d s) := by
  unfold recompare
  try dsimp only
  repeat' first
    | with_reducible assumption
    | with_reducible apply keep_enterRun
    | with_reducible apply keep_quarantine
    | with_reducible apply keep_reportWiring
    | with_reducible apply keep_linkRestart
    | with_reducible apply keep_setLink
    | with_reducible apply keep_ite
    | split

theorem keep_holdDown {M : List Host.Cell} {Q : List Instr} {s : State} (d : Side) (on : Bool)
    (hgood : Good M Q s) : Good M Q (holdDown d on s) := by
  unfold holdDown
  try dsimp only
  repeat' first
    | with_reducible assumption
    | with_reducible apply keep_goDown
    | with_reducible apply keep_setLink
    | with_reducible apply keep_ite
    | split

theorem keep_sleepBit {M : List Host.Cell} {Q : List Instr} {s : State} (d : Side) (on : Bool)
    (hgood : Good M Q s) : Good M Q (sleepBit d on s) := by
  unfold sleepBit
  try dsimp only
  repeat' first
    | with_reducible assumption
    | with_reducible apply keep_linkWake
    | with_reducible apply keep_setLink
    | with_reducible apply keep_ite
    | split

theorem keep_testBit {M : List Host.Cell} {Q : List Instr} {s : State} (d : Side) (on : Bool)
    (hgood : Good M Q s) : Good M Q (testBit d on s) := by
  unfold testBit
  try dsimp only
  repeat' first
    | with_reducible assumption
    | with_reducible apply keep_setLink
    | with_reducible apply keep_ite
    | split

theorem keep_retrainBit {M : List Host.Cell} {Q : List Instr} {s : State} (d : Side)
    (hgood : Good M Q s) : Good M Q (retrainBit d s) := by
  unfold retrainBit
  try dsimp only
  repeat' first
    | with_reducible assumption
    | with_reducible apply keep_startTraining
    | with_reducible apply keep_linkWake
    | with_reducible apply keep_setLink
    | with_reducible apply keep_ite
    | split

theorem keep_writeXlCtl {M : List Host.Cell} {Q : List Instr} {s : State} (d : Side) (w : Word)
    (hgood : Good M Q s) : Good M Q (writeXlCtl d w s) := by
  unfold writeXlCtl
  try dsimp only
  repeat' first
    | with_reducible assumption
    | with_reducible apply keep_retrainBit
    | with_reducible apply keep_testBit
    | with_reducible apply keep_sleepBit
    | with_reducible apply keep_holdDown
    | with_reducible apply keep_bootLinks
    | with_reducible apply keep_segSettle
    | with_reducible apply keep_ite
    | split

theorem keep_fmpAckSend {M : List Host.Cell} {Q : List Instr} {s : State} (e : BitVec 128)
    (hgood : Good M Q s) : Good M Q (fmpAckSend e s) := keep_mk (s := s) rfl rfl rfl rfl rfl rfl hgood

theorem keep_fmpDataIn {M : List Host.Cell} {Q : List Instr} {s : State} (e : BitVec 128) (payload : Line)
    (hgood : Good M Q s) : Good M Q (fmpDataIn e payload s) := by
  unfold fmpDataIn
  try dsimp only
  repeat' first
    | with_reducible assumption
    | with_reducible apply keep_fmpAckSend
    | with_reducible apply keep_deliver
    | with_reducible apply keep_countFmp
    | with_reducible apply keep_ite
    | (fail_if_no_progress with_reducible refine keep_mk rfl rfl rfl rfl rfl rfl ?_)
    | split

theorem keep_fmpAckIn {M : List Host.Cell} {Q : List Instr} {s : State} (e : BitVec 128)
    (hgood : Good M Q s) : Good M Q (fmpAckIn e s) := by
  unfold fmpAckIn
  try dsimp only
  repeat' first
    | with_reducible assumption
    | with_reducible apply keep_fmpDrain
    | (fail_if_no_progress with_reducible refine keep_mk rfl rfl rfl rfl rfl rfl ?_)

theorem keep_fmpIn {M : List Host.Cell} {Q : List Instr} {s : State} (beats : List (BitVec 128 × BitVec 16))
    (hgood : Good M Q s) : Good M Q (fmpIn beats s) := by
  unfold fmpIn
  try dsimp only
  repeat' first
    | with_reducible assumption
    | with_reducible apply keep_fmpAckIn
    | with_reducible apply keep_fmpDataIn
    | with_reducible apply keep_countFmp
    | with_reducible apply keep_countPort
    | intro _ _ _
    | with_reducible apply keep_foldl
    | with_reducible apply keep_ite
    | split

theorem keep_fmpTimeout {M : List Host.Cell} {Q : List Instr} {s : State} (dest : BitVec 32) (seq : BitVec 16)
    (hgood : Good M Q s) : Good M Q (fmpTimeout dest seq s) := by
  unfold fmpTimeout
  try dsimp only
  repeat' first
    | with_reducible assumption
    | with_reducible apply keep_epochFail
    | with_reducible apply keep_fmpDrain
    | with_reducible apply keep_fmpTransmit
    | with_reducible apply keep_report
    | with_reducible apply keep_countFmp
    | with_reducible apply keep_ite
    | (fail_if_no_progress with_reducible refine keep_mk rfl rfl rfl rfl rfl rfl ?_)
    | split

theorem keep_linkRow {M : List Host.Cell} {Q : List Instr} {s : State} (f : State → State) (hf : ∀ x, Good M Q x → Good M Q (f x))
    (hgood : Good M Q s) : GoodOut M Q (linkRow f s) := by
  unfold linkRow
  try dsimp only
  repeat' first
    | with_reducible assumption
    | with_reducible apply keep_bootLinks
    | with_reducible apply keep_segSettle
    | apply hf
    | with_reducible apply goodOut_next
    | with_reducible apply keep_ite
    | split

theorem keep_execLinkClockLock {M : List Host.Cell} {Q : List Instr} {s : State} (side : Side) (locked : Bool)
    (hgood : Good M Q s) : GoodOut M Q (execLinkClockLock side locked s) := by
  unfold execLinkClockLock
  try dsimp only
  repeat' first
    | with_reducible assumption
    | with_reducible apply keep_linkRow
    | with_reducible apply keep_clockDone
    | with_reducible apply goodOut_next
    | intro _ _

theorem keep_execPatternDone {M : List Host.Cell} {Q : List Instr} {s : State} (side : Side) (errors : BitVec 12)
    (hgood : Good M Q s) : GoodOut M Q (execPatternDone side errors s) := by
  unfold execPatternDone
  try dsimp only
  repeat' first
    | with_reducible assumption
    | with_reducible apply keep_linkRow
    | with_reducible apply keep_patternDone
    | with_reducible apply goodOut_next
    | intro _ _

theorem keep_execMarginDone {M : List Host.Cell} {Q : List Instr} {s : State} (side : Side) (margins : BitVec 96)
    (hgood : Good M Q s) : GoodOut M Q (execMarginDone side margins s) := by
  unfold execMarginDone
  try dsimp only
  repeat' first
    | with_reducible assumption
    | with_reducible apply keep_linkRow
    | with_reducible apply keep_marginDone
    | with_reducible apply goodOut_next
    | intro _ _

theorem keep_execMapWord {M : List Host.Cell} {Q : List Instr} {s : State} (side : Side) (word : BitVec 24) (crc : BitVec 16)
    (hgood : Good M Q s) : GoodOut M Q (execMapWord side word crc s) := by
  unfold execMapWord
  try dsimp only
  repeat' first
    | with_reducible assumption
    | with_reducible apply keep_linkRow
    | with_reducible apply keep_mapWordIn
    | with_reducible apply goodOut_next
    | intro _ _

theorem keep_execIdent {M : List Host.Cell} {Q : List Instr} {s : State} (side : Side) (frame : BitVec 576)
    (hgood : Good M Q s) : GoodOut M Q (execIdent side frame s) := by
  unfold execIdent
  try dsimp only
  repeat' first
    | with_reducible assumption
    | with_reducible apply keep_linkRow
    | with_reducible apply keep_identIn
    | with_reducible apply goodOut_next
    | intro _ _

theorem keep_execIdentityDone {M : List Host.Cell} {Q : List Instr} {s : State} (side : Side)
    (hgood : Good M Q s) : GoodOut M Q (execIdentityDone side s) := by
  unfold execIdentityDone
  try dsimp only
  repeat' first
    | with_reducible assumption
    | with_reducible apply keep_linkRow
    | with_reducible apply keep_identityEnd
    | with_reducible apply goodOut_next
    | intro _ _

theorem keep_execTrainAttemptFailed {M : List Host.Cell} {Q : List Instr} {s : State} (side : Side)
    (hgood : Good M Q s) : GoodOut M Q (execTrainAttemptFailed side s) := by
  unfold execTrainAttemptFailed
  try dsimp only
  repeat' first
    | with_reducible assumption
    | with_reducible apply keep_linkRow
    | with_reducible apply keep_trainFail
    | with_reducible apply goodOut_next
    | intro _ _

theorem keep_execLinkRetrain {M : List Host.Cell} {Q : List Instr} {s : State} (side : Side) (w : Word)
    (hgood : Good M Q s) : GoodOut M Q (execLinkRetrain side w s) := by
  unfold execLinkRetrain
  try dsimp only
  repeat' first
    | with_reducible assumption
    | with_reducible apply keep_writeXlCtl
    | with_reducible apply keep_ctlWrite
    | with_reducible apply goodOut_next
    | intro _ _

theorem keep_execHoldDownWrite {M : List Host.Cell} {Q : List Instr} {s : State} (side : Side) (w : Word)
    (hgood : Good M Q s) : GoodOut M Q (execHoldDownWrite side w s) := by
  unfold execHoldDownWrite
  try dsimp only
  repeat' first
    | with_reducible assumption
    | with_reducible apply keep_writeXlCtl
    | with_reducible apply keep_ctlWrite
    | with_reducible apply goodOut_next
    | intro _ _

theorem keep_execXlSleepWrite {M : List Host.Cell} {Q : List Instr} {s : State} (side : Side) (w : Word)
    (hgood : Good M Q s) : GoodOut M Q (execXlSleepWrite side w s) := by
  unfold execXlSleepWrite
  try dsimp only
  repeat' first
    | with_reducible assumption
    | with_reducible apply keep_writeXlCtl
    | with_reducible apply keep_ctlWrite
    | with_reducible apply goodOut_next
    | intro _ _

theorem keep_execXlTestWrite {M : List Host.Cell} {Q : List Instr} {s : State} (side : Side) (w : Word)
    (hgood : Good M Q s) : GoodOut M Q (execXlTestWrite side w s) := by
  unfold execXlTestWrite
  try dsimp only
  repeat' first
    | with_reducible assumption
    | with_reducible apply keep_writeXlCtl
    | with_reducible apply keep_ctlWrite
    | with_reducible apply goodOut_next
    | intro _ _

theorem keep_execTrainMarker {M : List Host.Cell} {Q : List Instr} {s : State} (side : Side)
    (hgood : Good M Q s) : GoodOut M Q (execTrainMarker side s) := by
  unfold execTrainMarker
  try dsimp only
  repeat' first
    | with_reducible assumption
    | with_reducible apply keep_linkRow
    | with_reducible apply keep_startTraining
    | with_reducible apply goodOut_next
    | intro _ _
    | with_reducible apply keep_ite
    | split

theorem keep_execRunMarker {M : List Host.Cell} {Q : List Instr} {s : State} (side : Side)
    (hgood : Good M Q s) : GoodOut M Q (execRunMarker side s) := by
  unfold execRunMarker
  try dsimp only
  repeat' first
    | with_reducible assumption
    | with_reducible apply keep_linkRow
    | with_reducible apply keep_setLink
    | with_reducible apply goodOut_next
    | intro _ _
    | with_reducible apply keep_ite
    | split

theorem keep_execVerdictMarker {M : List Host.Cell} {Q : List Instr} {s : State} (side : Side)
    (hgood : Good M Q s) : GoodOut M Q (execVerdictMarker side s) := by
  unfold execVerdictMarker
  try dsimp only
  repeat' first
    | with_reducible assumption
    | with_reducible apply keep_linkRow
    | with_reducible apply keep_setLink
    | with_reducible apply goodOut_next
    | intro _ _
    | with_reducible apply keep_ite
    | split

theorem keep_execSleepMarker {M : List Host.Cell} {Q : List Instr} {s : State} (side : Side)
    (hgood : Good M Q s) : GoodOut M Q (execSleepMarker side s) := by
  unfold execSleepMarker
  try dsimp only
  repeat' first
    | with_reducible assumption
    | with_reducible apply keep_linkRow
    | with_reducible apply keep_sleepIfBoth
    | with_reducible apply keep_setLink
    | with_reducible apply goodOut_next
    | intro _ _
    | with_reducible apply keep_ite
    | split

theorem keep_execForwardedClockLost {M : List Host.Cell} {Q : List Instr} {s : State} (side : Side)
    (hgood : Good M Q s) : GoodOut M Q (execForwardedClockLost side s) := by
  unfold execForwardedClockLost
  try dsimp only
  repeat' first
    | with_reducible assumption
    | with_reducible apply keep_linkRow
    | with_reducible apply keep_startTraining
    | with_reducible apply goodOut_next
    | intro _ _
    | with_reducible apply keep_ite
    | split

theorem keep_execForwardedClockDetected {M : List Host.Cell} {Q : List Instr} {s : State} (side : Side)
    (hgood : Good M Q s) : GoodOut M Q (execForwardedClockDetected side s) := by
  unfold execForwardedClockDetected
  try dsimp only
  repeat' first
    | with_reducible assumption
    | with_reducible apply keep_linkRow
    | with_reducible apply keep_startTraining
    | with_reducible apply goodOut_next
    | intro _ _
    | with_reducible apply keep_ite
    | split

theorem keep_execFrameReceive {M : List Host.Cell} {Q : List Instr} {s : State} (side : Side) (frame : BitVec 576)
    (hgood : Good M Q s) : GoodOut M Q (execFrameReceive side frame s) := by
  unfold execFrameReceive
  try dsimp only
  repeat' first
    | with_reducible assumption
    | with_reducible apply keep_linkRow
    | with_reducible apply keep_frameIn
    | with_reducible apply goodOut_next
    | intro _ _

theorem keep_execChameleonWord {M : List Host.Cell} {Q : List Instr} {s : State} (side : Side) (lane : Bool) (word : BitVec 24) (crc : BitVec 16)
    (hgood : Good M Q s) : GoodOut M Q (execChameleonWord side lane word crc s) := by
  unfold execChameleonWord
  try dsimp only
  repeat' first
    | with_reducible assumption
    | with_reducible apply keep_linkRow
    | with_reducible apply keep_chameleonIn
    | with_reducible apply goodOut_next
    | intro _ _

theorem keep_execReplayTimeout {M : List Host.Cell} {Q : List Instr} {s : State} (side : Side)
    (hgood : Good M Q s) : GoodOut M Q (execReplayTimeout side s) := by
  unfold execReplayTimeout
  try dsimp only
  repeat' first
    | with_reducible assumption
    | with_reducible apply keep_linkRow
    | with_reducible apply keep_startTraining
    | with_reducible apply keep_countLink
    | with_reducible apply keep_setLink
    | with_reducible apply goodOut_next
    | intro _ _
    | with_reducible apply keep_ite
    | split

theorem keep_execCrcWindowEnd {M : List Host.Cell} {Q : List Instr} {s : State} (side : Side)
    (hgood : Good M Q s) : GoodOut M Q (execCrcWindowEnd side s) := by
  unfold execCrcWindowEnd
  try dsimp only
  repeat' first
    | with_reducible assumption
    | with_reducible apply keep_linkRow
    | with_reducible apply keep_setLink
    | with_reducible apply goodOut_next
    | intro _ _

theorem keep_execFrameSlot {M : List Host.Cell} {Q : List Instr} {s : State} (side : Side)
    (hgood : Good M Q s) : GoodOut M Q (execFrameSlot side s) := by
  unfold execFrameSlot
  try dsimp only
  repeat' first
    | with_reducible assumption
    | with_reducible apply keep_linkRow
    | with_reducible apply keep_frameSlot
    | with_reducible apply goodOut_next
    | intro _ _

theorem keep_linkStateIn {M : List Host.Cell} {Q : List Instr} {s : State} (m : Line)
    (hgood : Good M Q s) : Good M Q (linkStateIn m s) := by
  unfold linkStateIn
  try dsimp only
  repeat' first
    | with_reducible assumption
    | with_reducible apply keep_ringChanged
    | intro _ _ _
    | with_reducible apply keep_foldl
    | with_reducible apply keep_ite
    | (fail_if_no_progress with_reducible refine keep_mk rfl rfl rfl rfl rfl rfl ?_)
    | split

theorem keep_execLinkState {M : List Host.Cell} {Q : List Instr} {s : State} (side : Side) (m : Line)
    (hgood : Good M Q s) : GoodOut M Q (execLinkState side m s) := by
  unfold execLinkState
  try dsimp only
  repeat' first
    | with_reducible assumption
    | with_reducible apply keep_linkStateIn
    | with_reducible apply keep_linkRow
    | with_reducible apply keep_takeInbox
    | with_reducible apply goodOut_next
    | intro _ _

theorem keep_execLinkStateTimer {M : List Host.Cell} {Q : List Instr} {s : State} 
    (hgood : Good M Q s) : GoodOut M Q (execLinkStateTimer s) := by
  unfold execLinkStateTimer
  try dsimp only
  repeat' first
    | with_reducible assumption
    | with_reducible apply keep_linkRow
    | with_reducible apply keep_broadcast
    | with_reducible apply goodOut_next
    | intro _ _
    | with_reducible apply keep_ite
    | (fail_if_no_progress with_reducible refine keep_mk rfl rfl rfl rfl rfl rfl ?_)
    | split

theorem keep_execDownRetry {M : List Host.Cell} {Q : List Instr} {s : State} (side : Side)
    (hgood : Good M Q s) : GoodOut M Q (execDownRetry side s) := by
  unfold execDownRetry
  try dsimp only
  repeat' first
    | with_reducible assumption
    | with_reducible apply keep_linkRow
    | with_reducible apply keep_startTraining
    | with_reducible apply goodOut_next
    | intro _ _
    | with_reducible apply keep_ite
    | split

theorem keep_execWakeRequest {M : List Host.Cell} {Q : List Instr} {s : State} (side : Side)
    (hgood : Good M Q s) : GoodOut M Q (execWakeRequest side s) := by
  unfold execWakeRequest
  try dsimp only
  repeat' first
    | with_reducible assumption
    | with_reducible apply keep_linkRow
    | with_reducible apply keep_linkWake
    | with_reducible apply keep_wakeFromRetain
    | with_reducible apply goodOut_next
    | intro _ _

theorem keep_execTestFlit {M : List Host.Cell} {Q : List Instr} {s : State} (side : Side) (m : Line)
    (hgood : Good M Q s) : GoodOut M Q (execTestFlit side m s) := by
  unfold execTestFlit
  try dsimp only
  repeat' first
    | with_reducible assumption
    | with_reducible apply keep_linkRow
    | with_reducible apply keep_takeInbox
    | with_reducible apply keep_countLink
    | with_reducible apply keep_setLink
    | with_reducible apply goodOut_next
    | intro _ _
    | with_reducible apply keep_ite
    | split

theorem keep_execFmpData {M : List Host.Cell} {Q : List Instr} {s : State} (beats : List (BitVec 128 × BitVec 16))
    (hgood : Good M Q s) : GoodOut M Q (execFmpData beats s) := by
  unfold execFmpData
  try dsimp only
  repeat' first
    | with_reducible assumption
    | with_reducible apply keep_fmpIn
    | with_reducible apply keep_wakeFromRetain
    | with_reducible apply goodOut_next

theorem keep_execFmpAck {M : List Host.Cell} {Q : List Instr} {s : State} (beats : List (BitVec 128 × BitVec 16))
    (hgood : Good M Q s) : GoodOut M Q (execFmpAck beats s) := by
  unfold execFmpAck
  try dsimp only
  repeat' first
    | with_reducible assumption
    | with_reducible apply keep_fmpIn
    | with_reducible apply keep_wakeFromRetain
    | with_reducible apply goodOut_next

theorem keep_execFmpResendTimeout {M : List Host.Cell} {Q : List Instr} {s : State} (dest : BitVec 32) (seq : BitVec 16)
    (hgood : Good M Q s) : GoodOut M Q (execFmpResendTimeout dest seq s) := by
  unfold execFmpResendTimeout
  try dsimp only
  repeat' first
    | with_reducible assumption
    | with_reducible apply keep_fmpTimeout
    | with_reducible apply goodOut_next
    | with_reducible apply keep_ite
    | split

end Sys2Proof.Machine
end

