-- ==== Sys2Proof/Laws/KeepStaged.lean ====
section
/-! SUPPORT. What each operation of Machine/Staged.lean keeps (Laws/Keep.lean). -/
namespace Sys2Proof.Machine

-- the proofs below are one script for many operations, of which each uses its own part
set_option linter.unusedTactic false
set_option linter.unreachableTactic false

theorem keep_setStepk {M : List Host.Cell} {Q : List Instr} {s : State} (f : Stepk → Stepk)
    (hgood : Good M Q s) : Good M Q (setStepk f s) := keep_mk (s := s) rfl rfl rfl rfl rfl rfl hgood

theorem keep_writeStepkCommit {M : List Host.Cell} {Q : List Instr} {s : State} (w : Word)
    (hgood : Good M Q s) : Good M Q (writeStepkCommit w s) := by
  unfold writeStepkCommit
  try dsimp only
  repeat' first
    | with_reducible assumption
    | with_reducible apply keep_setStepk
    | with_reducible apply keep_ite
    | split

theorem keep_applyStepk {M : List Host.Cell} {Q : List Instr} {s : State} 
    (hgood : Good M Q s) : Good M Q (applyStepk s) := by
  unfold applyStepk
  try dsimp only
  repeat' first
    | with_reducible assumption
    | with_reducible apply keep_setStepk
    | with_reducible apply keep_ite
    | split

theorem keep_recheckStepk {M : List Host.Cell} {Q : List Instr} {s : State} 
    (hgood : Good M Q s) : Good M Q (recheckStepk s) := by
  unfold recheckStepk
  try dsimp only
  repeat' first
    | with_reducible assumption
    | with_reducible apply keep_setStepk
    | with_reducible apply keep_ite
    | (fail_if_no_progress with_reducible refine keep_mk rfl rfl rfl rfl rfl rfl ?_)
    | split

theorem keep_setSwp {M : List Host.Cell} {Q : List Instr} {s : State} (f : Swp → Swp)
    (hgood : Good M Q s) : Good M Q (setSwp f s) := keep_mk (s := s) rfl rfl rfl rfl rfl rfl hgood

theorem keep_writeSwpCommit {M : List Host.Cell} {Q : List Instr} {s : State} (w : Word)
    (hgood : Good M Q s) : Good M Q (writeSwpCommit w s) := by
  unfold writeSwpCommit
  try dsimp only
  repeat' first
    | with_reducible assumption
    | with_reducible apply keep_setSwp
    | with_reducible apply keep_ite
    | split

theorem keep_applySwp {M : List Host.Cell} {Q : List Instr} {s : State} 
    (hgood : Good M Q s) : Good M Q (applySwp s) := by
  unfold applySwp
  try dsimp only
  repeat' first
    | with_reducible assumption
    | with_reducible apply keep_setSwp
    | with_reducible apply keep_mapStart
    | with_reducible apply keep_ite
    | split

theorem keep_recheckSwp {M : List Host.Cell} {Q : List Instr} {s : State} 
    (hgood : Good M Q s) : Good M Q (recheckSwp s) := by
  unfold recheckSwp
  try dsimp only
  repeat' first
    | with_reducible assumption
    | with_reducible apply keep_setSwp
    | with_reducible apply keep_ite
    | (fail_if_no_progress with_reducible refine keep_mk rfl rfl rfl rfl rfl rfl ?_)
    | split

theorem keep_setTtab {M : List Host.Cell} {Q : List Instr} {s : State} (f : Ttab → Ttab)
    (hgood : Good M Q s) : Good M Q (setTtab f s) := keep_mk (s := s) rfl rfl rfl rfl rfl rfl hgood

theorem keep_startTableLoad {M : List Host.Cell} {Q : List Instr} {s : State} 
    (hgood : Good M Q s) : Good M Q (startTableLoad s) := by
  unfold startTableLoad
  try dsimp only
  repeat' first
    | with_reducible assumption
    | with_reducible apply keep_setTtab
    | with_reducible apply keep_dropReads
    | with_reducible apply keep_enqueueAll
    | (fail_if_no_progress with_reducible refine keep_mk rfl rfl rfl rfl rfl rfl ?_)

theorem keep_writeTtabCtl {M : List Host.Cell} {Q : List Instr} {s : State} (w : Word)
    (hgood : Good M Q s) : Good M Q (writeTtabCtl w s) := by
  unfold writeTtabCtl
  try dsimp only
  repeat' first
    | with_reducible assumption
    | with_reducible apply keep_startTableLoad
    | with_reducible apply keep_setTtab
    | with_reducible apply keep_ite
    | split

theorem keep_tableLine {M : List Host.Cell} {Q : List Instr} {s : State} (i : Nat) (data : Option Line)
    (hgood : Good M Q s) : Good M Q (tableLine i data s) := by
  unfold tableLine
  try dsimp only
  repeat' first
    | with_reducible assumption
    | with_reducible apply keep_setTtab
    | with_reducible apply keep_lineOrFree
    | (with_reducible refine keep_lineOrFree_eq ‹_› ?_)
    | with_reducible apply keep_ite
    | split

theorem keep_tableEnd {M : List Host.Cell} {Q : List Instr} {s : State} 
    (hgood : Good M Q s) : Good M Q (tableEnd s) := by
  unfold tableEnd
  try dsimp only
  repeat' first
    | with_reducible assumption
    | with_reducible apply keep_setTtab
    | with_reducible apply keep_mapStart
    | split

theorem keep_recheckTable {M : List Host.Cell} {Q : List Instr} {s : State} 
    (hgood : Good M Q s) : Good M Q (recheckTable s) := by
  unfold recheckTable
  try dsimp only
  repeat' first
    | with_reducible assumption
    | with_reducible apply keep_setTtab
    | with_reducible apply keep_ite
    | (fail_if_no_progress with_reducible refine keep_mk rfl rfl rfl rfl rfl rfl ?_)
    | split

theorem keep_execStepkCommit {M : List Host.Cell} {Q : List Instr} {s : State} (w : Word)
    (hgood : Good M Q s) : GoodOut M Q (execStepkCommit w s) := by
  unfold execStepkCommit
  try dsimp only
  repeat' first
    | with_reducible assumption
    | with_reducible apply keep_writeStepkCommit
    | with_reducible apply keep_ctlWrite
    | with_reducible apply goodOut_next
    | intro _ _

theorem keep_execSwpCommit {M : List Host.Cell} {Q : List Instr} {s : State} (w : Word)
    (hgood : Good M Q s) : GoodOut M Q (execSwpCommit w s) := by
  unfold execSwpCommit
  try dsimp only
  repeat' first
    | with_reducible assumption
    | with_reducible apply keep_writeSwpCommit
    | with_reducible apply keep_ctlWrite
    | with_reducible apply goodOut_next
    | intro _ _

theorem keep_execTtabLoad {M : List Host.Cell} {Q : List Instr} {s : State} (w : Word)
    (hgood : Good M Q s) : GoodOut M Q (execTtabLoad w s) := by
  unfold execTtabLoad
  try dsimp only
  repeat' first
    | with_reducible assumption
    | with_reducible apply keep_writeTtabCtl
    | with_reducible apply keep_ctlWrite
    | with_reducible apply goodOut_next
    | intro _ _

theorem keep_execTableLoadDone {M : List Host.Cell} {Q : List Instr} {s : State} 
    (hgood : Good M Q s) : GoodOut M Q (execTableLoadDone s) := by
  unfold execTableLoadDone
  try dsimp only
  repeat' first
    | with_reducible assumption
    | with_reducible apply keep_tableEnd
    | with_reducible apply goodOut_next
    | with_reducible apply keep_ite
    | split

end Sys2Proof.Machine
end

