-- ==== Sys2Proof/Laws/KeepImages.lean ====
section
/-! SUPPORT. What each operation of Machine/Images.lean keeps (Laws/Keep.lean). -/
namespace Sys2Proof.Machine

-- the proofs below are one script for many operations, of which each uses its own part
set_option linter.unusedTactic false
set_option linter.unreachableTactic false

theorem keep_setImage {M : List Host.Cell} {Q : List Instr} {s : State} (f : ImageUnit → ImageUnit)
    (hgood : Good M Q s) : Good M Q (setImage f s) := keep_mk (s := s) rfl rfl rfl rfl rfl rfl hgood

theorem keep_emptyShadow {M : List Host.Cell} {Q : List Instr} {s : State} 
    (hgood : Good M Q s) : Good M Q (emptyShadow s) := by
  unfold emptyShadow
  try dsimp only
  repeat' first
    | with_reducible assumption
    | with_reducible apply keep_setImage
    | with_reducible apply keep_dropFar
    | with_reducible apply keep_dropReads

theorem keep_startLoad {M : List Host.Cell} {Q : List Instr} {s : State} 
    (hgood : Good M Q s) : Good M Q (startLoad s) := by
  unfold startLoad
  try dsimp only
  repeat' first
    | with_reducible assumption
    | with_reducible apply keep_emptyShadow
    | with_reducible apply keep_setImage
    | with_reducible apply keep_bootTo
    | with_reducible apply keep_enqueueAll
    | with_reducible apply keep_ite
    | split

theorem keep_imgLoad {M : List Host.Cell} {Q : List Instr} {s : State} 
    (hgood : Good M Q s) : Good M Q (imgLoad s) := by
  unfold imgLoad
  try dsimp only
  repeat' first
    | with_reducible assumption
    | with_reducible apply keep_startLoad
    | with_reducible apply keep_setImage
    | with_reducible apply keep_ite
    | split

theorem keep_imgDiscard {M : List Host.Cell} {Q : List Instr} {s : State} 
    (hgood : Good M Q s) : Good M Q (imgDiscard s) := by
  unfold imgDiscard
  try dsimp only
  repeat' first
    | with_reducible assumption
    | with_reducible apply keep_emptyShadow

theorem keep_imageLine {M : List Host.Cell} {Q : List Instr} {s : State} (i : Nat) (data : Option Line)
    (hgood : Good M Q s) : Good M Q (imageLine i data s) := by
  unfold imageLine
  try dsimp only
  repeat' first
    | with_reducible assumption
    | with_reducible apply keep_setImage
    | with_reducible apply keep_ite
    | split

theorem keep_rejectImage {M : List Host.Cell} {Q : List Instr} {s : State} (e : BitVec 8) (kind : BitVec 16)
    (hgood : Good M Q s) : Good M Q (rejectImage e kind s) := by
  unfold rejectImage
  try dsimp only
  repeat' first
    | with_reducible assumption
    | with_reducible apply keep_emptyShadow
    | with_reducible apply keep_setImage
    | with_reducible apply keep_pulse
    | with_reducible apply keep_report

theorem keep_imageReadEnd {M : List Host.Cell} {Q : List Instr} {s : State} 
    (hgood : Good M Q s) : Good M Q (imageReadEnd s) := by
  unfold imageReadEnd
  try dsimp only
  repeat' first
    | with_reducible assumption
    | with_reducible apply keep_rejectImage
    | with_reducible apply keep_setImage
    | with_reducible apply keep_ite
    | split

theorem keep_verifyEnd {M : List Host.Cell} {Q : List Instr} {s : State} 
    (hgood : Good M Q s) : Good M Q (verifyEnd s) := by
  unfold verifyEnd
  try dsimp only
  repeat' first
    | with_reducible assumption
    | with_reducible apply keep_rejectImage
    | with_reducible apply keep_setImage
    | with_reducible apply keep_pulse
    | with_reducible apply keep_ite
    | split

theorem keep_xchDisable {M : List Host.Cell} {Q : List Instr} {s : State} (k : Nat)
    (hgood : Good M Q s) : Good M Q (xchDisable k s) := by
  unfold xchDisable
  try dsimp only
  repeat' first
    | with_reducible assumption
    | with_reducible apply keep_stepCancel
    | with_reducible apply keep_endJob
    | with_reducible apply keep_dropPads
    | with_reducible apply keep_dropLagRead
    | with_reducible apply keep_leaveOffers
    | with_reducible apply keep_setXch

theorem keep_moltChannels {M : List Host.Cell} {Q : List Instr} {s : State} (n : Nat)
    (hgood : Good M Q s) : Good M Q (moltChannels n s) := by
  unfold moltChannels
  try dsimp only
  repeat' first
    | with_reducible assumption
    | with_reducible apply keep_xchDisable
    | intro _ _ _
    | with_reducible apply keep_foldl
    | with_reducible apply keep_ite
    | split

theorem keep_moltBases {M : List Host.Cell} {Q : List Instr} {s : State} 
    (hgood : Good M Q s) : Good M Q (moltBases s) := by
  unfold moltBases
  try dsimp only
  repeat' first
    | with_reducible assumption
    | with_reducible apply keep_ite
    | (fail_if_no_progress with_reducible refine keep_mk rfl rfl rfl rfl rfl rfl ?_)
    | split

theorem keep_swapPlanes {M : List Host.Cell} {Q : List Instr} {s : State} (im : Image)
    (hgood : Good M Q s) : Good M Q (swapPlanes im s) := by
  unfold swapPlanes
  try dsimp only
  repeat' first
    | with_reducible assumption
    | with_reducible apply keep_moltChannels
    | with_reducible apply keep_setImage
    | with_reducible apply keep_ite
    | (fail_if_no_progress with_reducible refine keep_mk rfl rfl rfl rfl rfl rfl ?_)
    | split

theorem keep_moltEpoch {M : List Host.Cell} {Q : List Instr} {s : State} (old : Option Image) (im : Image)
    (hgood : Good M Q s) : Good M Q (moltEpoch old im s) := by
  unfold moltEpoch
  try dsimp only
  repeat' first
    | with_reducible assumption
    | with_reducible apply keep_moltBases
    | with_reducible apply keep_setImage
    | with_reducible apply keep_ite
    | (fail_if_no_progress with_reducible refine keep_mk rfl rfl rfl rfl rfl rfl ?_)
    | split

theorem keep_imgMolt {M : List Host.Cell} {Q : List Instr} {s : State} (expect : BitVec 32)
    (hgood : Good M Q s) : Good M Q (imgMolt expect s) := by
  unfold imgMolt
  try dsimp only
  repeat' first
    | with_reducible assumption
    | with_reducible apply keep_moltEpoch
    | with_reducible apply keep_swapPlanes
    | with_reducible apply keep_setImage
    | with_reducible apply keep_recompare
    | with_reducible apply keep_bootLinks
    | with_reducible apply keep_segSettle
    | with_reducible apply keep_recheckTable
    | with_reducible apply keep_recheckSwp
    | with_reducible apply keep_recheckStepk
    | with_reducible apply keep_bootTo
    | with_reducible apply keep_ite
    | (fail_if_no_progress with_reducible refine keep_mk rfl rfl rfl rfl rfl rfl ?_)
    | split

theorem keep_writeImgCtl {M : List Host.Cell} {Q : List Instr} {s : State} (w : Word)
    (hgood : Good M Q s) : Good M Q (writeImgCtl w s) := by
  unfold writeImgCtl
  try dsimp only
  repeat' first
    | with_reducible assumption
    | with_reducible apply keep_imgMolt
    | with_reducible apply keep_imgDiscard
    | with_reducible apply keep_imgLoad
    | with_reducible apply keep_setImage
    | with_reducible apply keep_ite
    | split

theorem keep_applyPlan {M : List Host.Cell} {Q : List Instr} {s : State} 
    (hgood : Good M Q s) : Good M Q (applyPlan s) := by
  unfold applyPlan
  try dsimp only
  repeat' first
    | with_reducible assumption
    | with_reducible apply keep_rescale
    | with_reducible apply keep_setMem
    | intro _ _ _
    | with_reducible apply keep_foldl
    | with_reducible apply keep_ite
    | split

theorem keep_execImgLoad {M : List Host.Cell} {Q : List Instr} {s : State} (w : Word)
    (hgood : Good M Q s) : GoodOut M Q (execImgLoad w s) := by
  unfold execImgLoad
  try dsimp only
  repeat' first
    | with_reducible assumption
    | with_reducible apply keep_writeImgCtl
    | with_reducible apply keep_ctlWrite
    | with_reducible apply goodOut_next
    | intro _ _

theorem keep_execImgMolt {M : List Host.Cell} {Q : List Instr} {s : State} (w : Word)
    (hgood : Good M Q s) : GoodOut M Q (execImgMolt w s) := by
  unfold execImgMolt
  try dsimp only
  repeat' first
    | with_reducible assumption
    | with_reducible apply keep_writeImgCtl
    | with_reducible apply keep_ctlWrite
    | with_reducible apply goodOut_next
    | intro _ _

theorem keep_execImgDiscard {M : List Host.Cell} {Q : List Instr} {s : State} (w : Word)
    (hgood : Good M Q s) : GoodOut M Q (execImgDiscard w s) := by
  unfold execImgDiscard
  try dsimp only
  repeat' first
    | with_reducible assumption
    | with_reducible apply keep_writeImgCtl
    | with_reducible apply keep_ctlWrite
    | with_reducible apply goodOut_next
    | intro _ _

theorem keep_execImageReadDone {M : List Host.Cell} {Q : List Instr} {s : State} 
    (hgood : Good M Q s) : GoodOut M Q (execImageReadDone s) := by
  unfold execImageReadDone
  try dsimp only
  repeat' first
    | with_reducible assumption
    | with_reducible apply keep_imageReadEnd
    | with_reducible apply goodOut_next
    | with_reducible apply keep_ite
    | split

theorem keep_execImageVerifyDone {M : List Host.Cell} {Q : List Instr} {s : State} 
    (hgood : Good M Q s) : GoodOut M Q (execImageVerifyDone s) := by
  unfold execImageVerifyDone
  try dsimp only
  repeat' first
    | with_reducible assumption
    | with_reducible apply keep_verifyEnd
    | with_reducible apply goodOut_next
    | with_reducible apply keep_ite
    | split

theorem keep_execMoltDone {M : List Host.Cell} {Q : List Instr} {s : State} 
    (hgood : Good M Q s) : GoodOut M Q (execMoltDone s) := by
  unfold execMoltDone
  try dsimp only
  repeat' first
    | with_reducible assumption
    | with_reducible apply keep_setImage
    | with_reducible apply keep_pulse
    | with_reducible apply goodOut_next
    | with_reducible apply keep_ite
    | split

theorem keep_execPortPlanApply {M : List Host.Cell} {Q : List Instr} {s : State} 
    (hgood : Good M Q s) : GoodOut M Q (execPortPlanApply s) := by
  unfold execPortPlanApply
  try dsimp only
  repeat' first
    | with_reducible assumption
    | with_reducible apply keep_applyPlan
    | with_reducible apply goodOut_next
    | with_reducible apply keep_ite
    | split

end Sys2Proof.Machine
end

