-- ==== Sys2Proof/Laws/KeepHealth.lean ====
section
/-! SUPPORT. What each operation of Machine/Health.lean keeps (Laws/Keep.lean). -/
namespace Sys2Proof.Machine

-- the proofs below are one script for many operations, of which each uses its own part
set_option linter.unusedTactic false
set_option linter.unreachableTactic false

/-- What changes the health group but its log, FATAL and the causes. -/
theorem keep_setHealth {M : List Host.Cell} {Q : List Instr} {s : State} {f : Health → Health}
    (h1 : s.health.log = (f s.health).log) (h2 : s.health.fatal = (f s.health).fatal)
    (h3 : s.health.cause = (f s.health).cause) (h : Good M Q s) : Good M Q (setHealth f s) :=
  keep_mk (s := s) rfl rfl rfl h1 h2 h3 h

theorem keep_dropUnissued {M : List Host.Cell} {Q : List Instr} {s : State} 
    (hgood : Good M Q s) : Good M Q (dropUnissued s) := by
  unfold dropUnissued
  repeat' first
    | with_reducible assumption
    | with_reducible apply keep_setMem
    | (fail_if_no_progress with_reducible refine keep_mk rfl rfl rfl rfl rfl rfl ?_)

/-- FATAL is entered here only, and sramUe sets its croak cause. -/
theorem keep_enterFatal {M : List Host.Cell} {Q : List Instr} {s : State} (h : Held M Q s) : Held M Q (enterFatal s) :=
  ⟨h.stack, h.pending, h.events, h.log⟩

theorem keep_padZero {M : List Host.Cell} {Q : List Instr} {s : State} (i : Nat) (word : Nat)
    (hgood : Good M Q s) : Good M Q (padZero i word s) := by
  unfold padZero
  try dsimp only
  repeat' first
    | with_reducible assumption
    | with_reducible apply keep_setPad
    | with_reducible apply keep_ite
    | split

theorem keep_pondUe {M : List Host.Cell} {Q : List Instr} {s : State} (word : BitVec 32)
    (h : Good M Q s) : Held M Q (pondUe word s) := by
  unfold pondUe
  dsimp only
  split
  · exact (keep_padZero _ _ h).toHeld
  · split
    · exact (keep_codecMismatch _ h).toHeld
    · exact keep_enterFatal h.toHeld

theorem keep_normUe {M : List Host.Cell} {Q : List Instr} {s : State} (word : BitVec 32)
    (hgood : Good M Q s) : Good M Q (normUe word s) := by
  unfold normUe
  try dsimp only
  repeat' first
    | with_reducible assumption
    | with_reducible apply keep_setNorm

theorem keep_linkOnlyReset {M : List Host.Cell} {Q : List Instr} {s : State} (d : Side)
    (hgood : Good M Q s) : Good M Q (linkOnlyReset d s) := by
  unfold linkOnlyReset
  try dsimp only
  repeat' first
    | with_reducible assumption
    | with_reducible apply keep_linkRestart
    | with_reducible apply keep_segSettle
    | (fail_if_no_progress with_reducible refine keep_mk rfl rfl rfl rfl rfl rfl ?_)
    | split

theorem keep_handleUe {M : List Host.Cell} {Q : List Instr} {s : State} (array : BitVec 4) (word : BitVec 32)
    (sfu : Option (Bool × BitVec 7 × BitVec 32)) (h : Good M Q s) : Held M Q (handleUe array word sfu s) := by
  unfold handleUe
  split
  · exact keep_pondUe _ h
  · exact (keep_normUe _ h).toHeld
  · exact (keep_mapStart h).toHeld
  · exact (keep_emptyShadow h).toHeld
  · exact (keep_linkOnlyReset _ h).toHeld
  · exact (keep_linkOnlyReset _ h).toHeld
  · split
    · split
      · exact (keep_residueFault _ _ _ _ h).toHeld
      · exact h.toHeld
    · exact keep_enterFatal h.toHeld
  · exact keep_enterFatal h.toHeld

theorem held_report {M : List Host.Cell} {Q : List Instr} {s : State} (code : BitVec 16) (arg : Word)
    (h : Held M Q s) : Held M Q (report code arg s) :=
  ⟨h.stack, h.pending, h.events, ErrLog.enter_length _ _ h.log⟩

theorem held_croakReport {M : List Host.Cell} {Q : List Instr} {s : State} (new : BitVec 8)
    (h : Held M Q s) : Held M Q (croakReport new s) := by
  unfold croakReport
  exact held_report _ _ ⟨h.stack, h.pending, h.events, told_length s h.log⟩

theorem held_pulse {M : List Host.Cell} {Q : List Instr} {s : State} (line : BitVec 6)
    (h : Held M Q s) : Held M Q (pulse line s) := by
  unfold pulse
  split
  · refine ⟨h.stack, h.pending, ?_, h.log⟩
    simp only [insertEvent_length]; omega
  · exact ⟨h.stack, h.pending, h.events, h.log⟩

/-- croak never clears a cause, and sets those it is given. -/
theorem croakSet_cause (causes : BitVec 8) (s : State) :
    (croakSet causes s).health.cause = s.health.cause ||| causes := by
  have hp : ∀ (l : BitVec 6) (x : State), (pulse l x).health.cause = x.health.cause := by
    intro l x; unfold pulse; split <;> rfl
  unfold croakSet
  dsimp only
  split
  · rfl
  · split
    · exact hp _ _
    · rfl

theorem held_croakSet {M : List Host.Cell} {Q : List Instr} {s : State} (causes : BitVec 8)
    (h : Held M Q s) : Held M Q (croakSet causes s) := by
  unfold croakSet
  dsimp only
  split
  · exact ⟨h.stack, h.pending, h.events, h.log⟩
  · split
    · have hc : ∀ x : State, Held M Q x → Held M Q (countHealth 5 1 x) :=
        fun x hx => ⟨hx.stack, hx.pending, hx.events, hx.log⟩
      exact held_pulse _ (hc _ (held_croakReport _ ⟨h.stack, h.pending, h.events, h.log⟩))
    · exact held_croakReport _ ⟨h.stack, h.pending, h.events, h.log⟩

theorem keep_sramUe {M : List Host.Cell} {Q : List Instr} {s : State} (array : BitVec 4) (word : BitVec 32) (scrub : Bool)
    (sfu : Option (Bool × BitVec 7 × BitVec 32)) (h : Good M Q s) : Good M Q (sramUe array word scrub sfu s) := by
  have h1 := keep_handleUe array word sfu h
  refine ⟨held_croakSet _ (held_report _ _ ⟨h1.stack, h1.pending, h1.events, h1.log⟩), fun _ => ?_⟩
  show (croakSet 0x40 _).health.cause.getLsbD 6 = true
  rw [croakSet_cause]
  simp

theorem keep_eccRoll {M : List Host.Cell} {Q : List Instr} {s : State} 
    (hgood : Good M Q s) : Good M Q (eccRoll s) := by
  unfold eccRoll
  try dsimp only
  repeat' first
    | with_reducible assumption
    | (with_reducible refine keep_setHealth rfl rfl rfl ?_)
    | with_reducible apply keep_ite
    | split

theorem keep_sramCe {M : List Host.Cell} {Q : List Instr} {s : State} (array : BitVec 4) (word : BitVec 32) (scrub : Bool)
    (hgood : Good M Q s) : Good M Q (sramCe array word scrub s) := by
  unfold sramCe
  try dsimp only
  repeat' first
    | with_reducible assumption
    | with_reducible apply keep_eccRoll
    | (with_reducible refine keep_setHealth rfl rfl rfl ?_)
    | with_reducible apply keep_croakSet
    | with_reducible apply keep_countHealth
    | with_reducible apply keep_ite
    | split

theorem keep_scrubEnd {M : List Host.Cell} {Q : List Instr} {s : State} 
    (hgood : Good M Q s) : Good M Q (scrubEnd s) := by
  unfold scrubEnd
  try dsimp only
  repeat' first
    | with_reducible assumption
    | (with_reducible refine keep_setHealth rfl rfl rfl ?_)
    | with_reducible apply keep_countHealth
    | with_reducible apply keep_ite
    | split

theorem keep_dutyEnd {M : List Host.Cell} {Q : List Instr} {s : State} 
    (hgood : Good M Q s) : Good M Q (dutyEnd s) := by
  unfold dutyEnd
  try dsimp only
  repeat' first
    | with_reducible assumption
    | with_reducible apply keep_setThermal
    | with_reducible apply keep_croakSet
    | with_reducible apply keep_ite
    | split

theorem croakHolding_fatal (s : State) (h : s.health.fatal = true) : (croakHolding s).getLsbD 6 = true := by
  unfold croakHolding
  simp [h]

theorem keep_writeCroak {M : List Host.Cell} {Q : List Instr} {s : State} (w : Word)
    (h : Good M Q s) : Good M Q (writeCroak w s) := by
  refine ⟨⟨h.stack, h.pending, h.events, h.log⟩, fun hf => ?_⟩
  have h1 : s.health.cause.getLsbD 6 = true := h.croaks hf
  have h2 := croakHolding_fatal s hf
  show (s.health.cause &&& ~~~(field w 0 8 &&& ~~~(croakHolding s ||| (croakCycle s).hit))).getLsbD 6 = true
  simp [h1, h2]

theorem keep_writeSramFault {M : List Host.Cell} {Q : List Instr} {s : State} (w : Word)
    (hgood : Good M Q s) : Good M Q (writeSramFault w s) := by
  unfold writeSramFault
  try dsimp only
  repeat' first
    | with_reducible assumption
    | (with_reducible refine keep_setHealth rfl rfl rfl ?_)

theorem keep_writeErrStatus {M : List Host.Cell} {Q : List Instr} {s : State} (w : Word)
    (h : Good M Q s) : Good M Q (writeErrStatus w s) :=
  ⟨⟨h.stack, h.pending, h.events, h.log⟩, h.croaks⟩

theorem keep_writeErrPop {M : List Host.Cell} {Q : List Instr} {s : State} (w : Word)
    (h : Good M Q s) : Good M Q (writeErrPop w s) := by
  unfold writeErrPop setHealth
  dsimp only
  split
  · exact ⟨⟨h.stack, h.pending, h.events, by simpa using Nat.le_succ_of_le h.log⟩, h.croaks⟩
  · exact h

theorem keep_execSramUe {M : List Host.Cell} {Q : List Instr} {s : State} (array : BitVec 4) (word : BitVec 32) (scrub : Bool) (sfu : Option (Bool × BitVec 7 × BitVec 32))
    (hgood : Good M Q s) : GoodOut M Q (execSramUe array word scrub sfu s) := by
  unfold execSramUe
  try dsimp only
  repeat' first
    | with_reducible assumption
    | with_reducible apply keep_sramUe
    | with_reducible apply goodOut_next
    | with_reducible apply keep_ite
    | split

theorem keep_execSramCe {M : List Host.Cell} {Q : List Instr} {s : State} (array : BitVec 4) (word : BitVec 32) (scrub : Bool)
    (hgood : Good M Q s) : GoodOut M Q (execSramCe array word scrub s) := by
  unfold execSramCe
  try dsimp only
  repeat' first
    | with_reducible assumption
    | with_reducible apply keep_sramCe
    | with_reducible apply goodOut_next
    | with_reducible apply keep_ite
    | split

theorem keep_execScrubInterval {M : List Host.Cell} {Q : List Instr} {s : State} 
    (hgood : Good M Q s) : GoodOut M Q (execScrubInterval s) := by
  unfold execScrubInterval
  try dsimp only
  repeat' first
    | with_reducible assumption
    | with_reducible apply keep_scrubEnd
    | with_reducible apply goodOut_next
    | with_reducible apply keep_ite
    | split

theorem keep_execCroakEccWindow {M : List Host.Cell} {Q : List Instr} {s : State} 
    (hgood : Good M Q s) : GoodOut M Q (execCroakEccWindow s) := by
  unfold execCroakEccWindow
  try dsimp only
  repeat' first
    | with_reducible assumption
    | with_reducible apply keep_eccRoll
    | with_reducible apply goodOut_next
    | with_reducible apply keep_ite
    | split

theorem keep_execThrottleDutyWindow {M : List Host.Cell} {Q : List Instr} {s : State} 
    (hgood : Good M Q s) : GoodOut M Q (execThrottleDutyWindow s) := by
  unfold execThrottleDutyWindow
  try dsimp only
  repeat' first
    | with_reducible assumption
    | with_reducible apply keep_dutyEnd
    | with_reducible apply goodOut_next
    | with_reducible apply keep_ite
    | split

theorem keep_execCroakCauseWrite {M : List Host.Cell} {Q : List Instr} {s : State} (w : Word)
    (hgood : Good M Q s) : GoodOut M Q (execCroakCauseWrite w s) := by
  unfold execCroakCauseWrite
  try dsimp only
  repeat' first
    | with_reducible assumption
    | with_reducible apply keep_writeCroak
    | with_reducible apply keep_ctlWrite
    | with_reducible apply goodOut_next
    | intro _ _

theorem keep_execErrPop {M : List Host.Cell} {Q : List Instr} {s : State} (w : Word)
    (hgood : Good M Q s) : GoodOut M Q (execErrPop w s) := by
  unfold execErrPop
  try dsimp only
  repeat' first
    | with_reducible assumption
    | with_reducible apply keep_writeErrPop
    | with_reducible apply keep_ctlWrite
    | with_reducible apply goodOut_next
    | intro _ _

end Sys2Proof.Machine
end

