-- ==== Sys2Proof/Laws/KeepResets.lean ====
section
/-! SUPPORT. What each operation of Machine/Resets.lean keeps (Laws/Keep.lean). -/
namespace Sys2Proof.Machine

-- the proofs below are one script for many operations, of which each uses its own part
set_option linter.unusedTactic false
set_option linter.unreachableTactic false

theorem keep_setBoot {M : List Host.Cell} {Q : List Instr} {s : State} (f : Boot → Boot)
    (hgood : Good M Q s) : Good M Q (setBoot f s) := keep_mk (s := s) rfl rfl rfl rfl rfl rfl hgood

theorem keep_setClk {M : List Host.Cell} {Q : List Instr} {s : State} (f : Clocks → Clocks)
    (hgood : Good M Q s) : Good M Q (setClk f s) := keep_mk (s := s) rfl rfl rfl rfl rfl rfl hgood

theorem keep_setPower {M : List Host.Cell} {Q : List Instr} {s : State} (f : Power → Power)
    (hgood : Good M Q s) : Good M Q (setPower f s) := keep_mk (s := s) rfl rfl rfl rfl rfl rfl hgood

theorem keep_coldClear {M : List Host.Cell} {Q : List Instr} {s : State} (cause : BitVec 8) (keepClock : Bool)
    (h : Good M Q s) : Good M Q (coldClear cause keepClock s) :=
  ⟨⟨h.stack, h.pending, Nat.zero_le _, Nat.zero_le _⟩, fun hf => nomatch hf⟩

theorem keep_startBoot {M : List Host.Cell} {Q : List Instr} {s : State} 
    (hgood : Good M Q s) : Good M Q (startBoot s) := by
  unfold startBoot
  try dsimp only
  repeat' first
    | with_reducible assumption
    | with_reducible apply keep_setBoot
    | with_reducible apply keep_linkRestart
    | with_reducible apply keep_segSettle
    | with_reducible apply keep_vaultInitBegin
    | with_reducible apply keep_ite
    | split

theorem keep_reachReady {M : List Host.Cell} {Q : List Instr} {s : State} 
    (hgood : Good M Q s) : Good M Q (reachReady s) := by
  unfold reachReady
  try dsimp only
  repeat' first
    | with_reducible assumption
    | with_reducible apply keep_setBoot
    | with_reducible apply keep_bootLinks
    | with_reducible apply keep_bootTo
    | with_reducible apply keep_report
    | with_reducible apply keep_ite
    | (fail_if_no_progress with_reducible refine keep_mk rfl rfl rfl rfl rfl rfl ?_)
    | split

theorem keep_warmFields {M : List Host.Cell} {Q : List Instr} {s : State}
    (h : Good M Q s) : Good M Q (warmFields s) := ⟨⟨h.stack, h.pending, Nat.zero_le _, h.log⟩, fun hf => nomatch hf⟩

theorem keep_warmClear {M : List Host.Cell} {Q : List Instr} {s : State} 
    (hgood : Good M Q s) : Good M Q (warmClear s) := by
  unfold warmClear
  try dsimp only
  repeat' first
    | with_reducible assumption
    | with_reducible apply keep_warmFields
    | with_reducible apply keep_setBoot
    | with_reducible apply keep_chooseVariant
    | with_reducible apply keep_recheckTable
    | with_reducible apply keep_recheckSwp
    | with_reducible apply keep_rescale
    | with_reducible apply keep_ite
    | split

theorem keep_kstQuiet {M : List Host.Cell} {Q : List Instr} {s : State} 
    (hgood : Good M Q s) : Good M Q (kstQuiet s) := keep_mk (s := s) rfl rfl rfl rfl rfl rfl hgood

theorem keep_silence {M : List Host.Cell} {Q : List Instr} {s : State} (h : Good M Q s) : Good M Q (silence s) :=
  ⟨⟨h.stack, h.pending, Nat.zero_le _, h.log⟩, h.croaks⟩

theorem keep_warmBegin {M : List Host.Cell} {Q : List Instr} {s : State} (cause : BitVec 8)
    (hgood : Good M Q s) : Good M Q (warmBegin cause s) := by
  unfold warmBegin
  try dsimp only
  repeat' first
    | with_reducible assumption
    | with_reducible apply keep_silence
    | with_reducible apply keep_kstQuiet
    | with_reducible apply keep_startBoot
    | with_reducible apply keep_coldClear
    | with_reducible apply keep_setBoot
    | with_reducible apply keep_dropUnissued
    | with_reducible apply keep_wcbFlush
    | intro _ _ _
    | with_reducible apply keep_foldl
    | with_reducible apply keep_ite
    | split

theorem keep_pulseActs {M : List Host.Cell} {Q : List Instr} {s : State} (ns : Nat)
    (hgood : Good M Q s) : Good M Q (pulseActs ns s).2 := by
  unfold pulseActs
  try dsimp only
  repeat' first
    | with_reducible assumption
    | with_reducible apply keep_ite
    | (fail_if_no_progress with_reducible refine keep_mk rfl rfl rfl rfl rfl rfl ?_)
    | split

theorem keep_pulseActs_eq {M : List Host.Cell} {Q : List Instr} {s t : State} {a : Bool} {ns : Nat}
    (heq : pulseActs ns s = (a, t)) (hgood : Good M Q s) : Good M Q t := by
  have h := keep_pulseActs (M := M) (Q := Q) ns hgood
  rw [heq] at h
  exact h

theorem keep_coldPin {M : List Host.Cell} {Q : List Instr} {s : State} (pin : Boot → Boot) (cause : BitVec 8) (ns : Nat)
    (hgood : Good M Q s) : Good M Q (coldPin pin cause ns s) := by
  unfold coldPin
  try dsimp only
  repeat' first
    | with_reducible assumption
    | with_reducible apply keep_pulseActs
    | (with_reducible refine keep_pulseActs_eq ‹_› ?_)
    | with_reducible apply keep_coldClear
    | with_reducible apply keep_setBoot
    | with_reducible apply keep_ite
    | split

theorem keep_warmPin {M : List Host.Cell} {Q : List Instr} {s : State} (ns : Nat)
    (hgood : Good M Q s) : Good M Q (warmPin ns s) := by
  unfold warmPin
  try dsimp only
  repeat' first
    | with_reducible assumption
    | with_reducible apply keep_pulseActs
    | (with_reducible refine keep_pulseActs_eq ‹_› ?_)
    | with_reducible apply keep_warmBegin
    | with_reducible apply keep_setBoot
    | with_reducible apply keep_ite
    | split

theorem keep_release {M : List Host.Cell} {Q : List Instr} {s : State} (pin : ResetPin)
    (hgood : Good M Q s) : Good M Q (release pin s) := by
  unfold release
  try dsimp only
  repeat' first
    | with_reducible assumption
    | with_reducible apply keep_startBoot
    | with_reducible apply keep_setBoot
    | with_reducible apply keep_ite
    | split

theorem keep_divBegin {M : List Host.Cell} {Q : List Instr} {s : State} 
    (hgood : Good M Q s) : Good M Q (divBegin s) := by
  unfold divBegin
  try dsimp only
  repeat' first
    | with_reducible assumption
    | with_reducible apply keep_setClk

theorem keep_divWrite {M : List Host.Cell} {Q : List Instr} {s : State} (d : BitVec 2)
    (hgood : Good M Q s) : Good M Q (divWrite d s) := by
  unfold divWrite
  try dsimp only
  repeat' first
    | with_reducible assumption
    | with_reducible apply keep_divBegin
    | with_reducible apply keep_setClk
    | with_reducible apply keep_ite
    | split

theorem keep_divApply {M : List Host.Cell} {Q : List Instr} {s : State} 
    (hgood : Good M Q s) : Good M Q (divApply s) := by
  unfold divApply
  try dsimp only
  repeat' first
    | with_reducible assumption
    | with_reducible apply keep_divBegin
    | with_reducible apply keep_setClk
    | with_reducible apply keep_ite
    | split

theorem keep_fabricResetStart {M : List Host.Cell} {Q : List Instr} {s : State} 
    (hgood : Good M Q s) : Good M Q (fabricResetStart s) := by
  unfold fabricResetStart
  try dsimp only
  repeat' first
    | with_reducible assumption
    | with_reducible apply keep_setBoot
    | with_reducible apply keep_fabricResetBegin
    | with_reducible apply keep_ite
    | split

theorem keep_gctlErr {M : List Host.Cell} {Q : List Instr} {s : State} (e : BitVec 8)
    (hgood : Good M Q s) : Good M Q (gctlErr e s) := by
  unfold gctlErr
  try dsimp only
  repeat' first
    | with_reducible assumption
    | with_reducible apply keep_setBoot

theorem keep_gctlFields {M : List Host.Cell} {Q : List Instr} {s : State} (w : Word)
    (hgood : Good M Q s) : Good M Q (gctlFields w s) := by
  unfold gctlFields
  try dsimp only
  repeat' first
    | with_reducible assumption
    | with_reducible apply keep_divWrite
    | with_reducible apply keep_setPower
    | with_reducible apply keep_ite
    | split

theorem keep_writeGctl {M : List Host.Cell} {Q : List Instr} {s : State} (w : Word)
    (hgood : Good M Q s) : Good M Q (writeGctl w s) := by
  unfold writeGctl
  try dsimp only
  repeat' first
    | with_reducible assumption
    | with_reducible apply keep_gctlFields
    | with_reducible apply keep_gctlErr
    | with_reducible apply keep_fabricResetStart
    | with_reducible apply keep_warmBegin
    | with_reducible apply keep_linkOnlyReset
    | with_reducible apply keep_ite
    | split

theorem keep_wakeBegin {M : List Host.Cell} {Q : List Instr} {s : State} 
    (hgood : Good M Q s) : Good M Q (wakeBegin s) := by
  unfold wakeBegin
  try dsimp only
  repeat' first
    | with_reducible assumption
    | with_reducible apply keep_setPower
    | with_reducible apply keep_ite
    | split

theorem keep_powerWake {M : List Host.Cell} {Q : List Instr} {s : State} 
    (hgood : Good M Q s) : Good M Q (powerWake s) := by
  unfold powerWake
  try dsimp only
  repeat' first
    | with_reducible assumption
    | with_reducible apply keep_wakeBegin
    | with_reducible apply keep_rampStart
    | with_reducible apply keep_setPower
    | with_reducible apply keep_ite
    | split

theorem keep_activeExit {M : List Host.Cell} {Q : List Instr} {s : State} 
    (hgood : Good M Q s) : Good M Q (activeExit s) := by
  unfold activeExit
  try dsimp only
  repeat' first
    | with_reducible assumption
    | with_reducible apply keep_setPower
    | with_reducible apply keep_ite
    | split

theorem keep_retainEnter {M : List Host.Cell} {Q : List Instr} {s : State} 
    (hgood : Good M Q s) : Good M Q (retainEnter s) := by
  unfold retainEnter
  try dsimp only
  repeat' first
    | with_reducible assumption
    | with_reducible apply keep_setPower
    | with_reducible apply keep_ite
    | split

theorem keep_retainLeave {M : List Host.Cell} {Q : List Instr} {s : State} 
    (hgood : Good M Q s) : Good M Q (retainLeave s) := by
  unfold retainLeave
  try dsimp only
  repeat' first
    | with_reducible assumption
    | with_reducible apply keep_setPower
    | with_reducible apply keep_ite
    | split

theorem keep_execPwrOkLow {M : List Host.Cell} {Q : List Instr} {s : State} (ns : Nat)
    (hgood : Good M Q s) : GoodOut M Q (execPwrOkLow ns s) := by
  unfold execPwrOkLow
  try dsimp only
  repeat' first
    | with_reducible assumption
    | with_reducible apply keep_coldPin
    | with_reducible apply goodOut_next

theorem keep_execColdReset {M : List Host.Cell} {Q : List Instr} {s : State} (ns : Nat)
    (hgood : Good M Q s) : GoodOut M Q (execColdReset ns s) := by
  unfold execColdReset
  try dsimp only
  repeat' first
    | with_reducible assumption
    | with_reducible apply keep_coldPin
    | with_reducible apply goodOut_next

theorem keep_execPllLock {M : List Host.Cell} {Q : List Instr} {s : State} 
    (hgood : Good M Q s) : GoodOut M Q (execPllLock s) := by
  unfold execPllLock
  try dsimp only
  repeat' first
    | with_reducible assumption
    | with_reducible apply keep_startBoot
    | with_reducible apply goodOut_next
    | with_reducible apply keep_ite
    | (fail_if_no_progress with_reducible refine keep_mk rfl rfl rfl rfl rfl rfl ?_)
    | split

theorem keep_execPllUnlock {M : List Host.Cell} {Q : List Instr} {s : State} 
    (hgood : Good M Q s) : GoodOut M Q (execPllUnlock s) := by
  unfold execPllUnlock
  try dsimp only
  repeat' first
    | with_reducible assumption
    | with_reducible apply keep_coldClear
    | with_reducible apply goodOut_next
    | with_reducible apply keep_ite
    | split

theorem keep_execVaultInitDone {M : List Host.Cell} {Q : List Instr} {s : State} 
    (hgood : Good M Q s) : GoodOut M Q (execVaultInitDone s) := by
  unfold execVaultInitDone
  try dsimp only
  repeat' first
    | with_reducible assumption
    | with_reducible apply keep_reachReady
    | with_reducible apply keep_setBoot
    | with_reducible apply keep_vaultJudge
    | with_reducible apply goodOut_next
    | with_reducible apply keep_ite
    | (fail_if_no_progress with_reducible refine keep_mk rfl rfl rfl rfl rfl rfl ?_)
    | split

theorem keep_execSramSelftestDone {M : List Host.Cell} {Q : List Instr} {s : State} (ok : Bool)
    (hgood : Good M Q s) : GoodOut M Q (execSramSelftestDone ok s) := by
  unfold execSramSelftestDone
  try dsimp only
  repeat' first
    | with_reducible assumption
    | with_reducible apply keep_reachReady
    | with_reducible apply keep_setBoot
    | with_reducible apply keep_croakSet
    | with_reducible apply goodOut_next
    | with_reducible apply keep_ite
    | split

theorem keep_execWarmReset {M : List Host.Cell} {Q : List Instr} {s : State} (ns : Nat)
    (hgood : Good M Q s) : GoodOut M Q (execWarmReset ns s) := by
  unfold execWarmReset
  try dsimp only
  repeat' first
    | with_reducible assumption
    | with_reducible apply keep_warmPin
    | with_reducible apply goodOut_next

theorem keep_execGctlWarmReset {M : List Host.Cell} {Q : List Instr} {s : State} (w : Word)
    (hgood : Good M Q s) : GoodOut M Q (execGctlWarmReset w s) := by
  unfold execGctlWarmReset
  try dsimp only
  repeat' first
    | with_reducible assumption
    | with_reducible apply keep_writeGctl
    | with_reducible apply keep_ctlWrite
    | with_reducible apply goodOut_next
    | intro _ _

theorem keep_execWarmResetDrainDone {M : List Host.Cell} {Q : List Instr} {s : State} 
    (hgood : Good M Q s) : GoodOut M Q (execWarmResetDrainDone s) := by
  unfold execWarmResetDrainDone
  try dsimp only
  repeat' first
    | with_reducible assumption
    | with_reducible apply keep_warmClear
    | with_reducible apply keep_startBoot
    | with_reducible apply goodOut_next
    | with_reducible apply keep_ite
    | split

theorem keep_execLinkReset {M : List Host.Cell} {Q : List Instr} {s : State} (w : Word)
    (hgood : Good M Q s) : GoodOut M Q (execLinkReset w s) := by
  unfold execLinkReset
  try dsimp only
  repeat' first
    | with_reducible assumption
    | with_reducible apply keep_writeGctl
    | with_reducible apply keep_ctlWrite
    | with_reducible apply goodOut_next
    | intro _ _

theorem keep_execFabricReset {M : List Host.Cell} {Q : List Instr} {s : State} (w : Word)
    (hgood : Good M Q s) : GoodOut M Q (execFabricReset w s) := by
  unfold execFabricReset
  try dsimp only
  repeat' first
    | with_reducible assumption
    | with_reducible apply keep_writeGctl
    | with_reducible apply keep_ctlWrite
    | with_reducible apply goodOut_next
    | intro _ _

theorem keep_execFabricResetDone {M : List Host.Cell} {Q : List Instr} {s : State} 
    (hgood : Good M Q s) : GoodOut M Q (execFabricResetDone s) := by
  unfold execFabricResetDone
  try dsimp only
  repeat' first
    | with_reducible assumption
    | with_reducible apply keep_fabricResetEnd
    | with_reducible apply goodOut_next
    | with_reducible apply keep_ite
    | split

theorem keep_execFabDivWrite {M : List Host.Cell} {Q : List Instr} {s : State} (w : Word)
    (hgood : Good M Q s) : GoodOut M Q (execFabDivWrite w s) := by
  unfold execFabDivWrite
  try dsimp only
  repeat' first
    | with_reducible assumption
    | with_reducible apply keep_writeGctl
    | with_reducible apply keep_ctlWrite
    | with_reducible apply goodOut_next
    | intro _ _

theorem keep_execFabDivApply {M : List Host.Cell} {Q : List Instr} {s : State} 
    (hgood : Good M Q s) : GoodOut M Q (execFabDivApply s) := by
  unfold execFabDivApply
  try dsimp only
  repeat' first
    | with_reducible assumption
    | with_reducible apply keep_divApply
    | with_reducible apply goodOut_next
    | with_reducible apply keep_ite
    | split

theorem keep_execPowerWakeDone {M : List Host.Cell} {Q : List Instr} {s : State} 
    (hgood : Good M Q s) : GoodOut M Q (execPowerWakeDone s) := by
  unfold execPowerWakeDone
  try dsimp only
  repeat' first
    | with_reducible assumption
    | with_reducible apply keep_powerWake
    | with_reducible apply goodOut_next
    | with_reducible apply keep_ite
    | split

theorem keep_execActiveExit {M : List Host.Cell} {Q : List Instr} {s : State} 
    (hgood : Good M Q s) : GoodOut M Q (execActiveExit s) := by
  unfold execActiveExit
  try dsimp only
  repeat' first
    | with_reducible assumption
    | with_reducible apply keep_activeExit
    | with_reducible apply goodOut_next
    | with_reducible apply keep_ite
    | split

theorem keep_execRetainEntry {M : List Host.Cell} {Q : List Instr} {s : State} 
    (hgood : Good M Q s) : GoodOut M Q (execRetainEntry s) := by
  unfold execRetainEntry
  try dsimp only
  repeat' first
    | with_reducible assumption
    | with_reducible apply keep_retainEnter
    | with_reducible apply goodOut_next
    | with_reducible apply keep_ite
    | split

theorem keep_execRetainWake {M : List Host.Cell} {Q : List Instr} {s : State} 
    (hgood : Good M Q s) : GoodOut M Q (execRetainWake s) := by
  unfold execRetainWake
  try dsimp only
  repeat' first
    | with_reducible assumption
    | with_reducible apply keep_retainLeave
    | with_reducible apply goodOut_next
    | with_reducible apply keep_ite
    | split

theorem keep_execResetRelease {M : List Host.Cell} {Q : List Instr} {s : State} (pin : ResetPin)
    (hgood : Good M Q s) : GoodOut M Q (execResetRelease pin s) := by
  unfold execResetRelease
  try dsimp only
  repeat' first
    | with_reducible assumption
    | with_reducible apply keep_release
    | with_reducible apply goodOut_next

end Sys2Proof.Machine
end

