-- ==== Sys2Proof/Laws/KeepStreams.lean ====
section
/-! SUPPORT. What each operation of Machine/Streams.lean keeps (Laws/Keep.lean). -/
namespace Sys2Proof.Machine

-- the proofs below are one script for many operations, of which each uses its own part
set_option linter.unusedTactic false
set_option linter.unreachableTactic false

theorem keep_setTask {M : List Host.Cell} {Q : List Instr} {s : State} (n : Nat) (f : Task → Task)
    (hgood : Good M Q s) : Good M Q (setTask n f s) := by
  unfold setTask
  try dsimp only
  repeat' first
    | with_reducible assumption
    | with_reducible apply keep_setChan

theorem keep_setPiece {M : List Host.Cell} {Q : List Instr} {s : State} (n i : Nat) (f : Piece → Piece)
    (hgood : Good M Q s) : Good M Q (setPiece n i f s) := by
  unfold setPiece
  try dsimp only
  repeat' first
    | with_reducible assumption
    | with_reducible apply keep_setTask
    | with_reducible apply keep_ite
    | split

theorem keep_fetchMore {M : List Host.Cell} {Q : List Instr} {s : State} (n : Nat)
    (hgood : Good M Q s) : Good M Q (fetchMore n s) := by
  unfold fetchMore
  try dsimp only
  repeat' first
    | with_reducible assumption
    | with_reducible apply keep_setChan
    | with_reducible apply keep_enqueueAll
    | with_reducible apply keep_ite
    | split

theorem keep_dropFetch {M : List Host.Cell} {Q : List Instr} {s : State} (n : Nat)
    (hgood : Good M Q s) : Good M Q (dropFetch n s) := by
  unfold dropFetch
  try dsimp only
  repeat' first
    | with_reducible assumption
    | with_reducible apply keep_dropReads
    | with_reducible apply keep_setChan

theorem keep_fetchOrIdle {M : List Host.Cell} {Q : List Instr} {s : State} (n : Nat)
    (hgood : Good M Q s) : Good M Q (fetchOrIdle n s) := by
  unfold fetchOrIdle
  try dsimp only
  repeat' first
    | with_reducible assumption
    | with_reducible apply keep_fetchMore
    | with_reducible apply keep_setChan
    | with_reducible apply keep_ite
    | split

theorem keep_rejectTask {M : List Host.Cell} {Q : List Instr} {s : State} (n : Nat) (code : BitVec 8) (desc : Nat) (addr : Word) (id : BitVec 32)
    (hgood : Good M Q s) : Good M Q (rejectTask n code desc addr id s) := by
  unfold rejectTask
  try dsimp only
  repeat' first
    | with_reducible assumption
    | with_reducible apply keep_setChan
    | with_reducible apply keep_report
    | with_reducible apply keep_countStrm

theorem keep_startTask {M : List Host.Cell} {Q : List Instr} {s : State} (n : Nat) (ds : List Line)
    (hgood : Good M Q s) : Good M Q (startTask n ds s) := by
  unfold startTask
  try dsimp only
  repeat' first
    | with_reducible assumption
    | with_reducible apply keep_setChan

theorem keep_afterFetch {M : List Host.Cell} {Q : List Instr} {s : State} (n : Nat)
    (hgood : Good M Q s) : Good M Q (afterFetch n s) := by
  unfold afterFetch
  try dsimp only
  repeat' first
    | with_reducible assumption
    | with_reducible apply keep_startTask
    | with_reducible apply keep_rejectTask
    | with_reducible apply keep_fetchMore
    | with_reducible apply keep_setChan
    | with_reducible apply keep_ite
    | split

theorem keep_latchFault {M : List Host.Cell} {Q : List Instr} {s : State} (n : Nat) (code desc : BitVec 8) (addr : Word) (id : BitVec 32)
    (hgood : Good M Q s) : Good M Q (latchFault n code desc addr id s) := by
  unfold latchFault
  try dsimp only
  repeat' first
    | with_reducible assumption
    | with_reducible apply keep_dropFetch
    | with_reducible apply keep_setChan
    | with_reducible apply keep_pulse
    | with_reducible apply keep_report
    | with_reducible apply keep_countStrm

theorem keep_settleEnding {M : List Host.Cell} {Q : List Instr} {s : State} (n : Nat)
    (hgood : Good M Q s) : Good M Q (settleEnding n s) := by
  unfold settleEnding
  try dsimp only
  repeat' first
    | with_reducible assumption
    | with_reducible apply keep_latchFault
    | with_reducible apply keep_setTask
    | with_reducible apply keep_queuePush
    | with_reducible apply keep_padFreeAll
    | with_reducible apply keep_ite
    | split

theorem keep_taskFault {M : List Host.Cell} {Q : List Instr} {s : State} (n : Nat) (code : BitVec 8) (desc : Nat) (addr : Word)
    (hgood : Good M Q s) : Good M Q (taskFault n code desc addr s) := by
  unfold taskFault
  try dsimp only
  repeat' first
    | with_reducible assumption
    | with_reducible apply keep_settleEnding
    | with_reducible apply keep_setTask
    | split

theorem keep_abortTask {M : List Host.Cell} {Q : List Instr} {s : State} (n : Nat) (code : BitVec 8)
    (hgood : Good M Q s) : Good M Q (abortTask n code s) := by
  unfold abortTask
  try dsimp only
  repeat' first
    | with_reducible assumption
    | with_reducible apply keep_taskFault
    | split

theorem keep_issueReadback {M : List Host.Cell} {Q : List Instr} {s : State} (n : Nat) (second : Bool)
    (hgood : Good M Q s) : Good M Q (issueReadback n second s) := by
  unfold issueReadback
  try dsimp only
  repeat' first
    | with_reducible assumption
    | with_reducible apply keep_setTask
    | with_reducible apply keep_enqueue
    | with_reducible apply keep_ite
    | split

theorem keep_issueWriteback {M : List Host.Cell} {Q : List Instr} {s : State} (n : Nat)
    (hgood : Good M Q s) : Good M Q (issueWriteback n s) := by
  unfold issueWriteback
  try dsimp only
  repeat' first
    | with_reducible assumption
    | with_reducible apply keep_enqueue
    | split

theorem keep_beginWriteback {M : List Host.Cell} {Q : List Instr} {s : State} (n : Nat)
    (hgood : Good M Q s) : Good M Q (beginWriteback n s) := by
  unfold beginWriteback
  try dsimp only
  repeat' first
    | with_reducible assumption
    | with_reducible apply keep_issueWriteback
    | with_reducible apply keep_setTask

theorem keep_afterPiece {M : List Host.Cell} {Q : List Instr} {s : State} (n : Nat)
    (hgood : Good M Q s) : Good M Q (afterPiece n s) := by
  unfold afterPiece
  try dsimp only
  repeat' first
    | with_reducible assumption
    | with_reducible apply keep_beginWriteback
    | with_reducible apply keep_issueReadback
    | with_reducible apply keep_ite
    | split

theorem keep_settleStop {M : List Host.Cell} {Q : List Instr} {s : State} (before : Nat) (n : Nat)
    (hgood : Good M Q s) : Good M Q (settleStop before n s) := by
  unfold settleStop
  try dsimp only
  repeat' first
    | with_reducible assumption
    | with_reducible apply keep_setChan
    | with_reducible apply keep_ite
    | split

theorem keep_readbackDone {M : List Host.Cell} {Q : List Instr} {s : State} (n : Nat) (data : Option Line) (code : BitVec 8)
    (hgood : Good M Q s) : Good M Q (readbackDone n data code s) := by
  unfold readbackDone
  try dsimp only
  repeat' first
    | with_reducible assumption
    | with_reducible apply keep_beginWriteback
    | with_reducible apply keep_issueReadback
    | with_reducible apply keep_taskFault
    | with_reducible apply keep_ite
    | split

theorem keep_descBackDone {M : List Host.Cell} {Q : List Instr} {s : State} (n : Nat) (ok : Bool)
    (hgood : Good M Q s) : Good M Q (descBackDone n ok s) := by
  unfold descBackDone
  try dsimp only
  repeat' first
    | with_reducible assumption
    | with_reducible apply keep_issueWriteback
    | with_reducible apply keep_taskFault
    | with_reducible apply keep_setTask
    | with_reducible apply keep_ite
    | split

theorem keep_streamReadDone {M : List Host.Cell} {Q : List Instr} {s : State} (n i k : Nat) (data : Option Line) (code : BitVec 8)
    (hgood : Good M Q s) : Good M Q (streamReadDone n i k data code s) := by
  unfold streamReadDone
  try dsimp only
  repeat' first
    | with_reducible assumption
    | with_reducible apply keep_taskFault
    | with_reducible apply keep_settleEnding
    | with_reducible apply keep_setPiece
    | with_reducible apply keep_padStore
    | split

theorem keep_streamWriteDone {M : List Host.Cell} {Q : List Instr} {s : State} (n i k : Nat) (ok : Bool) (code : BitVec 8)
    (hgood : Good M Q s) : Good M Q (streamWriteDone n i k ok code s) := by
  unfold streamWriteDone
  try dsimp only
  repeat' first
    | with_reducible assumption
    | with_reducible apply keep_taskFault
    | with_reducible apply keep_settleEnding
    | with_reducible apply keep_setPiece
    | with_reducible apply keep_countStrm
    | with_reducible apply keep_ite
    | split

theorem keep_descReadDone {M : List Host.Cell} {Q : List Instr} {s : State} (n i : Nat) (data : Option Line)
    (hgood : Good M Q s) : Good M Q (descReadDone n i data s) := by
  unfold descReadDone
  try dsimp only
  repeat' first
    | with_reducible assumption
    | with_reducible apply keep_setChan
    | with_reducible apply keep_ite
    | split

theorem keep_grantBurst {M : List Host.Cell} {Q : List Instr} {s : State} (q : IssueStream) (n : Nat) (t : Task) (p : Piece)
    (hgood : Good M Q s) : Good M Q (grantBurst q n t p s) := by
  unfold grantBurst
  try dsimp only
  repeat' first
    | with_reducible assumption
    | with_reducible apply keep_setPiece
    | with_reducible apply keep_setTask
    | with_reducible apply keep_enqueueAll
    | with_reducible apply keep_ite
    | (fail_if_no_progress with_reducible refine keep_mk rfl rfl rfl rfl rfl rfl ?_)
    | split

theorem keep_notePassed {M : List Host.Cell} {Q : List Instr} {s : State} (q : IssueStream) (granted : Nat)
    (hgood : Good M Q s) : Good M Q (notePassed q granted s) := by
  unfold notePassed
  try dsimp only
  repeat' first
    | with_reducible assumption
    | with_reducible apply keep_ite
    | (fail_if_no_progress with_reducible refine keep_mk rfl rfl rfl rfl rfl rfl ?_)
    | split

theorem keep_cutZeroPiece {M : List Host.Cell} {Q : List Instr} {s : State} (n : Nat)
    (hgood : Good M Q s) : Good M Q (cutZeroPiece n s) := by
  unfold cutZeroPiece
  try dsimp only
  repeat' first
    | with_reducible assumption
    | with_reducible apply keep_setTask
    | with_reducible apply keep_ite
    | split

theorem keep_streamBurstGrant {M : List Host.Cell} {Q : List Instr} {s : State} (q : IssueStream)
    (hgood : Good M Q s) : Good M Q (streamBurstGrant q s) := by
  unfold streamBurstGrant
  try dsimp only
  repeat' first
    | with_reducible assumption
    | with_reducible apply keep_cutZeroPiece
    | with_reducible apply keep_notePassed
    | with_reducible apply keep_grantBurst
    | intro _ _ _
    | with_reducible apply keep_foldl
    | with_reducible apply keep_ite
    | split

theorem keep_addPiece {M : List Host.Cell} {Q : List Instr} {s : State} (n : Nat) (h : BitVec 16)
    (hgood : Good M Q s) : Good M Q (addPiece n h s) := by
  unfold addPiece
  try dsimp only
  repeat' first
    | with_reducible assumption
    | with_reducible apply keep_setTask
    | with_reducible apply keep_ite
    | split

theorem keep_pieceThrough {M : List Host.Cell} {Q : List Instr} {s : State} (n i : Nat)
    (hgood : Good M Q s) : Good M Q (pieceThrough n i s) := by
  unfold pieceThrough
  try dsimp only
  repeat' first
    | with_reducible assumption
    | with_reducible apply keep_settleStop
    | with_reducible apply keep_afterPiece
    | with_reducible apply keep_setTask
    | with_reducible apply keep_queuePush
    | with_reducible apply keep_padStore
    | with_reducible apply keep_padGive
    | with_reducible apply keep_padFree
    | with_reducible apply keep_countStrm
    | intro _ _ _
    | with_reducible apply keep_foldl
    | with_reducible apply keep_ite
    | split

theorem keep_discardEntry {M : List Host.Cell} {Q : List Instr} {s : State} (n : Nat) (e : PqEntry)
    (hgood : Good M Q s) : Good M Q (discardEntry n e s) := by
  unfold discardEntry
  try dsimp only
  repeat' first
    | with_reducible assumption
    | with_reducible apply keep_padGive
    | with_reducible apply keep_padFree
    | with_reducible apply keep_countStrm
    | with_reducible apply keep_ite
    | split

theorem keep_consumeEntry {M : List Host.Cell} {Q : List Instr} {s : State} (n : Nat) (t : Task) (e : PqEntry)
    (hgood : Good M Q s) : Good M Q (consumeEntry n t e s) := by
  unfold consumeEntry
  try dsimp only
  repeat' first
    | with_reducible assumption
    | with_reducible apply keep_abortTask
    | with_reducible apply keep_setTask
    | with_reducible apply keep_padGive
    | with_reducible apply keep_ite
    | split

theorem keep_popEntry {M : List Host.Cell} {Q : List Instr} {s : State} (n : Nat)
    (hgood : Good M Q s) : Good M Q (popEntry n s) := by
  unfold popEntry
  try dsimp only
  repeat' first
    | with_reducible assumption
    | with_reducible apply keep_consumeEntry
    | with_reducible apply keep_discardEntry
    | with_reducible apply keep_abortTask
    | with_reducible apply keep_settleEnding
    | with_reducible apply keep_setTask
    | with_reducible apply keep_queueSettle
    | with_reducible apply keep_setQueue
    | with_reducible apply keep_ite
    | split

theorem keep_completeTask {M : List Host.Cell} {Q : List Instr} {s : State} (n : Nat)
    (hgood : Good M Q s) : Good M Q (completeTask n s) := by
  unfold completeTask
  try dsimp only
  repeat' first
    | with_reducible assumption
    | with_reducible apply keep_afterFetch
    | with_reducible apply keep_fetchOrIdle
    | with_reducible apply keep_setChan
    | with_reducible apply keep_pulse
    | with_reducible apply keep_report
    | with_reducible apply keep_countStrm
    | with_reducible apply keep_ite
    | split

theorem keep_writeTail {M : List Host.Cell} {Q : List Instr} {s : State} (n : Nat) (w : Word)
    (hgood : Good M Q s) : Good M Q (writeTail n w s) := by
  unfold writeTail
  try dsimp only
  repeat' first
    | with_reducible assumption
    | with_reducible apply keep_fetchOrIdle
    | with_reducible apply keep_fetchMore
    | with_reducible apply keep_setChan
    | with_reducible apply keep_report
    | with_reducible apply keep_ite
    | split

theorem keep_setChErr {M : List Host.Cell} {Q : List Instr} {s : State} (n : Nat) (e : BitVec 8)
    (hgood : Good M Q s) : Good M Q (setChErr n e s) := by
  unfold setChErr
  try dsimp only
  repeat' first
    | with_reducible assumption
    | with_reducible apply keep_setChan

theorem keep_chStop {M : List Host.Cell} {Q : List Instr} {s : State} (n : Nat)
    (hgood : Good M Q s) : Good M Q (chStop n s) := by
  unfold chStop
  try dsimp only
  repeat' first
    | with_reducible assumption
    | with_reducible apply keep_setChErr
    | with_reducible apply keep_setChan
    | split

theorem keep_cancelTask {M : List Host.Cell} {Q : List Instr} {s : State} (n : Nat)
    (hgood : Good M Q s) : Good M Q (cancelTask n s) := by
  unfold cancelTask
  try dsimp only
  repeat' first
    | with_reducible assumption
    | with_reducible apply keep_settleEnding
    | with_reducible apply keep_setTask

theorem keep_chCancel {M : List Host.Cell} {Q : List Instr} {s : State} (n : Nat)
    (hgood : Good M Q s) : Good M Q (chCancel n s) := by
  unfold chCancel
  try dsimp only
  repeat' first
    | with_reducible assumption
    | with_reducible apply keep_cancelTask
    | with_reducible apply keep_setChErr
    | with_reducible apply keep_latchFault
    | with_reducible apply keep_setChan
    | with_reducible apply keep_countStrm
    | with_reducible apply keep_ite
    | split

theorem keep_chResume {M : List Host.Cell} {Q : List Instr} {s : State} (n : Nat)
    (hgood : Good M Q s) : Good M Q (chResume n s) := by
  unfold chResume
  try dsimp only
  repeat' first
    | with_reducible assumption
    | with_reducible apply keep_setChErr
    | with_reducible apply keep_afterPiece
    | with_reducible apply keep_afterFetch
    | with_reducible apply keep_fetchOrIdle
    | with_reducible apply keep_dropFetch
    | with_reducible apply keep_setChan
    | with_reducible apply keep_ite
    | split

theorem keep_forgetTask {M : List Host.Cell} {Q : List Instr} {s : State} (n : Nat)
    (hgood : Good M Q s) : Good M Q (forgetTask n s) := by
  unfold forgetTask
  try dsimp only
  repeat' first
    | with_reducible assumption
    | with_reducible apply keep_forgetFar
    | with_reducible apply keep_forgetMem
    | (fail_if_no_progress with_reducible refine keep_mk rfl rfl rfl rfl rfl rfl ?_)

theorem keep_chReset {M : List Host.Cell} {Q : List Instr} {s : State} (n : Nat)
    (hgood : Good M Q s) : Good M Q (chReset n s) := by
  unfold chReset
  try dsimp only
  repeat' first
    | with_reducible assumption
    | with_reducible apply keep_forgetTask
    | with_reducible apply keep_setChErr
    | with_reducible apply keep_latchFault
    | with_reducible apply keep_dropFetch
    | with_reducible apply keep_queueSettle
    | with_reducible apply keep_padFreeAll
    | with_reducible apply keep_setQueue
    | with_reducible apply keep_setChan
    | with_reducible apply keep_ite
    | split

theorem keep_writeChCtl {M : List Host.Cell} {Q : List Instr} {s : State} (n : Nat) (w : Word)
    (hgood : Good M Q s) : Good M Q (writeChCtl n w s) := by
  unfold writeChCtl
  try dsimp only
  repeat' first
    | with_reducible assumption
    | with_reducible apply keep_chReset
    | with_reducible apply keep_chResume
    | with_reducible apply keep_chCancel
    | with_reducible apply keep_chStop
    | with_reducible apply keep_setChErr
    | with_reducible apply keep_ite
    | split

theorem keep_writeStrmCommit {M : List Host.Cell} {Q : List Instr} {s : State} (w : Word)
    (hgood : Good M Q s) : Good M Q (writeStrmCommit w s) := by
  unfold writeStrmCommit
  try dsimp only
  repeat' first
    | with_reducible assumption
    | with_reducible apply keep_ite
    | (fail_if_no_progress with_reducible refine keep_mk rfl rfl rfl rfl rfl rfl ?_)
    | split

theorem keep_applyStrm {M : List Host.Cell} {Q : List Instr} {s : State} 
    (hgood : Good M Q s) : Good M Q (applyStrm s) := by
  unfold applyStrm
  try dsimp only
  repeat' first
    | with_reducible assumption
    | with_reducible apply keep_ite
    | (fail_if_no_progress with_reducible refine keep_mk rfl rfl rfl rfl rfl rfl ?_)
    | split

theorem keep_flushQueue {M : List Host.Cell} {Q : List Instr} {s : State} (q : Nat)
    (hgood : Good M Q s) : Good M Q (flushQueue q s) := by
  unfold flushQueue
  try dsimp only
  repeat' first
    | with_reducible assumption
    | with_reducible apply keep_queueSettle
    | with_reducible apply keep_padFreeAll
    | with_reducible apply keep_setQueue
    | with_reducible apply keep_report
    | intro _ _ _
    | with_reducible apply keep_foldl
    | with_reducible apply keep_ite
    | split

theorem keep_writePqCtl {M : List Host.Cell} {Q : List Instr} {s : State} (w : Word)
    (hgood : Good M Q s) : Good M Q (writePqCtl w s) := by
  unfold writePqCtl
  try dsimp only
  repeat' first
    | with_reducible assumption
    | with_reducible apply keep_flushQueue
    | intro _ _ _
    | with_reducible apply keep_foldl
    | with_reducible apply keep_ite
    | split

theorem keep_execChTailWrite {M : List Host.Cell} {Q : List Instr} {s : State} (n : BitVec 4) (w : Word)
    (hgood : Good M Q s) : GoodOut M Q (execChTailWrite n w s) := by
  unfold execChTailWrite
  try dsimp only
  repeat' first
    | with_reducible assumption
    | with_reducible apply keep_writeTail
    | with_reducible apply keep_ctlWrite
    | with_reducible apply goodOut_next
    | intro _ _

theorem keep_execDescriptorFetchDone {M : List Host.Cell} {Q : List Instr} {s : State} (n : BitVec 4)
    (hgood : Good M Q s) : GoodOut M Q (execDescriptorFetchDone n s) := by
  unfold execDescriptorFetchDone
  try dsimp only
  repeat' first
    | with_reducible assumption
    | with_reducible apply keep_afterFetch
    | with_reducible apply goodOut_next
    | with_reducible apply keep_ite
    | split

theorem keep_execChStop {M : List Host.Cell} {Q : List Instr} {s : State} (n : BitVec 4) (w : Word)
    (hgood : Good M Q s) : GoodOut M Q (execChStop n w s) := by
  unfold execChStop
  try dsimp only
  repeat' first
    | with_reducible assumption
    | with_reducible apply keep_writeChCtl
    | with_reducible apply keep_ctlWrite
    | with_reducible apply goodOut_next
    | intro _ _

theorem keep_execChCancel {M : List Host.Cell} {Q : List Instr} {s : State} (n : BitVec 4) (w : Word)
    (hgood : Good M Q s) : GoodOut M Q (execChCancel n w s) := by
  unfold execChCancel
  try dsimp only
  repeat' first
    | with_reducible assumption
    | with_reducible apply keep_writeChCtl
    | with_reducible apply keep_ctlWrite
    | with_reducible apply goodOut_next
    | intro _ _

theorem keep_execChResume {M : List Host.Cell} {Q : List Instr} {s : State} (n : BitVec 4) (w : Word)
    (hgood : Good M Q s) : GoodOut M Q (execChResume n w s) := by
  unfold execChResume
  try dsimp only
  repeat' first
    | with_reducible assumption
    | with_reducible apply keep_writeChCtl
    | with_reducible apply keep_ctlWrite
    | with_reducible apply goodOut_next
    | intro _ _

theorem keep_execChReset {M : List Host.Cell} {Q : List Instr} {s : State} (n : BitVec 4) (w : Word)
    (hgood : Good M Q s) : GoodOut M Q (execChReset n w s) := by
  unfold execChReset
  try dsimp only
  repeat' first
    | with_reducible assumption
    | with_reducible apply keep_writeChCtl
    | with_reducible apply keep_ctlWrite
    | with_reducible apply goodOut_next
    | intro _ _

theorem keep_execStreamBurstGrant {M : List Host.Cell} {Q : List Instr} {s : State} (issue : IssueStream)
    (hgood : Good M Q s) : GoodOut M Q (execStreamBurstGrant issue s) := by
  unfold execStreamBurstGrant
  try dsimp only
  repeat' first
    | with_reducible assumption
    | with_reducible apply keep_streamBurstGrant
    | with_reducible apply goodOut_next

theorem keep_execPieceWritesDone {M : List Host.Cell} {Q : List Instr} {s : State} (n : BitVec 4) (piece : BitVec 32)
    (hgood : Good M Q s) : GoodOut M Q (execPieceWritesDone n piece s) := by
  unfold execPieceWritesDone
  try dsimp only
  repeat' first
    | with_reducible assumption
    | with_reducible apply keep_pieceThrough
    | with_reducible apply goodOut_next
    | with_reducible apply keep_ite
    | split

theorem keep_execPqPop {M : List Host.Cell} {Q : List Instr} {s : State} (n : BitVec 4)
    (hgood : Good M Q s) : GoodOut M Q (execPqPop n s) := by
  unfold execPqPop
  try dsimp only
  repeat' first
    | with_reducible assumption
    | with_reducible apply keep_popEntry
    | with_reducible apply goodOut_next
    | with_reducible apply keep_ite
    | split

theorem keep_execDescriptorWritebackDone {M : List Host.Cell} {Q : List Instr} {s : State} (n : BitVec 4)
    (hgood : Good M Q s) : GoodOut M Q (execDescriptorWritebackDone n s) := by
  unfold execDescriptorWritebackDone
  try dsimp only
  repeat' first
    | with_reducible assumption
    | with_reducible apply keep_completeTask
    | with_reducible apply goodOut_next
    | with_reducible apply keep_ite
    | split

theorem keep_execPadWatchdog {M : List Host.Cell} {Q : List Instr} {s : State} (n : BitVec 4)
    (hgood : Good M Q s) : GoodOut M Q (execPadWatchdog n s) := by
  unfold execPadWatchdog
  try dsimp only
  repeat' first
    | with_reducible assumption
    | with_reducible apply keep_abortTask
    | with_reducible apply keep_countStrm
    | with_reducible apply goodOut_next
    | with_reducible apply keep_ite
    | split

theorem keep_execPrefetchUrgent {M : List Host.Cell} {Q : List Instr} {s : State} 
    (hgood : Good M Q s) : GoodOut M Q (execPrefetchUrgent s) := by
  unfold execPrefetchUrgent
  try dsimp only
  repeat' first
    | with_reducible assumption
    | with_reducible apply keep_setChan
    | with_reducible apply goodOut_next
    | with_reducible apply keep_ite
    | split

theorem keep_execDeadlineMiss {M : List Host.Cell} {Q : List Instr} {s : State} (n : BitVec 4)
    (hgood : Good M Q s) : GoodOut M Q (execDeadlineMiss n s) := by
  unfold execDeadlineMiss
  try dsimp only
  repeat' first
    | with_reducible assumption
    | with_reducible apply keep_setChan
    | with_reducible apply keep_report
    | with_reducible apply keep_countStrm
    | with_reducible apply goodOut_next
    | with_reducible apply keep_ite
    | split

theorem keep_execPadFree {M : List Host.Cell} {Q : List Instr} {s : State} (handle : BitVec 16) (freer : BitVec 6)
    (hgood : Good M Q s) : GoodOut M Q (execPadFree handle freer s) := by
  unfold execPadFree
  try dsimp only
  repeat' first
    | with_reducible assumption
    | with_reducible apply keep_padFree
    | with_reducible apply goodOut_next
    | with_reducible apply keep_ite
    | split

theorem keep_execPqFlush {M : List Host.Cell} {Q : List Instr} {s : State} (w : Word)
    (hgood : Good M Q s) : GoodOut M Q (execPqFlush w s) := by
  unfold execPqFlush
  try dsimp only
  repeat' first
    | with_reducible assumption
    | with_reducible apply keep_writePqCtl
    | with_reducible apply keep_ctlWrite
    | with_reducible apply goodOut_next
    | intro _ _

theorem keep_execStrmCommit {M : List Host.Cell} {Q : List Instr} {s : State} (w : Word)
    (hgood : Good M Q s) : GoodOut M Q (execStrmCommit w s) := by
  unfold execStrmCommit
  try dsimp only
  repeat' first
    | with_reducible assumption
    | with_reducible apply keep_writeStrmCommit
    | with_reducible apply keep_ctlWrite
    | with_reducible apply goodOut_next
    | intro _ _

end Sys2Proof.Machine
end

