-- ==== Sys2Proof/Laws/KeepVerdict.lean ====
section
/-! SUPPORT. What each operation of Machine/Verdict.lean keeps (Laws/Keep.lean). -/
namespace Sys2Proof.Machine

-- the proofs below are one script for many operations, of which each uses its own part
set_option linter.unusedTactic false
set_option linter.unreachableTactic false

theorem keep_endToIdle {M : List Host.Cell} {Q : List Instr} {s : State} (aborted : Bool)
    (hgood : Good M Q s) : Good M Q (endToIdle aborted s) := by
  unfold endToIdle
  try dsimp only
  repeat' first
    | with_reducible assumption
    | with_reducible apply keep_normStop
    | with_reducible apply keep_linksRun
    | (fail_if_no_progress with_reducible refine keep_mk rfl rfl rfl rfl rfl rfl ?_)

theorem keep_passAbort {M : List Host.Cell} {Q : List Instr} {s : State} 
    (hgood : Good M Q s) : Good M Q (passAbort s) := by
  unfold passAbort
  try dsimp only
  repeat' first
    | with_reducible assumption
    | with_reducible apply keep_ite
    | (fail_if_no_progress with_reducible refine keep_mk rfl rfl rfl rfl rfl rfl ?_)
    | split

theorem keep_abortStep {M : List Host.Cell} {Q : List Instr} {s : State} 
    (hgood : Good M Q s) : Good M Q (abortStep s) := by
  unfold abortStep
  try dsimp only
  repeat' first
    | with_reducible assumption
    | with_reducible apply keep_passAbort
    | with_reducible apply keep_endToIdle
    | with_reducible apply keep_linksRun
    | with_reducible apply keep_pulse
    | with_reducible apply keep_ite
    | (fail_if_no_progress with_reducible refine keep_mk rfl rfl rfl rfl rfl rfl ?_)
    | split

theorem keep_abortNotice {M : List Host.Cell} {Q : List Instr} {s : State} 
    (hgood : Good M Q s) : Good M Q (abortNotice s) := by
  unfold abortNotice
  try dsimp only
  repeat' first
    | with_reducible assumption
    | with_reducible apply keep_issueAbort
    | with_reducible apply keep_sendToParent
    | with_reducible apply keep_sendToManager
    | with_reducible apply keep_ite
    | split

theorem keep_raiseAbort {M : List Host.Cell} {Q : List Instr} {s : State} (arg : Word)
    (hgood : Good M Q s) : Good M Q (raiseAbort arg s) := by
  unfold raiseAbort
  try dsimp only
  repeat' first
    | with_reducible assumption
    | with_reducible apply keep_abortNotice
    | with_reducible apply keep_abortStep
    | with_reducible apply keep_report
    | with_reducible apply keep_ite
    | split

theorem keep_sealRefused {M : List Host.Cell} {Q : List Instr} {s : State} (code : BitVec 16) (arg : Word)
    (hgood : Good M Q s) : Good M Q (sealRefused code arg s) := by
  unfold sealRefused
  try dsimp only
  repeat' first
    | with_reducible assumption
    | with_reducible apply keep_report
    | with_reducible apply keep_countTongue

theorem keep_takeSeal {M : List Host.Cell} {Q : List Instr} {s : State} (evt : Bool)
    (hgood : Good M Q s) : Good M Q (takeSeal evt s) := by
  unfold takeSeal
  try dsimp only
  repeat' first
    | with_reducible assumption
    | with_reducible apply keep_sealRefused
    | with_reducible apply keep_contribute
    | with_reducible apply keep_unwindTaken
    | with_reducible apply keep_normStart
    | with_reducible apply keep_linksSeal
    | with_reducible apply keep_ite
    | (fail_if_no_progress with_reducible refine keep_mk rfl rfl rfl rfl rfl rfl ?_)
    | split

theorem keep_clearHalt {M : List Host.Cell} {Q : List Instr} {s : State} 
    (hgood : Good M Q s) : Good M Q (clearHalt s) := by
  unfold clearHalt
  try dsimp only
  repeat' first
    | with_reducible assumption
    | with_reducible apply keep_exportsClearHalt
    | with_reducible apply keep_report
    | with_reducible apply keep_ite
    | (fail_if_no_progress with_reducible refine keep_mk rfl rfl rfl rfl rfl rfl ?_)
    | split

theorem keep_writeStepCtl {M : List Host.Cell} {Q : List Instr} {s : State} (w : Word)
    (hgood : Good M Q s) : Good M Q (writeStepCtl w s) := by
  unfold writeStepCtl
  try dsimp only
  repeat' first
    | with_reducible assumption
    | with_reducible apply keep_clearHalt
    | with_reducible apply keep_takeSeal
    | with_reducible apply keep_raiseAbort
    | with_reducible apply keep_setStep
    | with_reducible apply keep_dropBases
    | with_reducible apply keep_report
    | with_reducible apply keep_ite
    | split

theorem keep_recordApplied {M : List Host.Cell} {Q : List Instr} {s : State} (r : Line)
    (hgood : Good M Q s) : Good M Q (recordApplied r s) := keep_mk (s := s) rfl rfl rfl rfl rfl rfl hgood

theorem keep_rootKeepsLsn {M : List Host.Cell} {Q : List Instr} {s : State} (r : Line)
    (hgood : Good M Q s) : Good M Q (rootKeepsLsn r s) := by
  unfold rootKeepsLsn
  try dsimp only
  repeat' first
    | with_reducible assumption
    | with_reducible apply keep_ite
    | (fail_if_no_progress with_reducible refine keep_mk rfl rfl rfl rfl rfl rfl ?_)
    | split

theorem keep_applyGo {M : List Host.Cell} {Q : List Instr} {s : State} (r : Line)
    (hgood : Good M Q s) : Good M Q (applyGo r s) := by
  unfold applyGo
  try dsimp only
  repeat' first
    | with_reducible assumption
    | with_reducible apply keep_rootKeepsLsn
    | with_reducible apply keep_recordApplied
    | (fail_if_no_progress with_reducible refine keep_mk rfl rfl rfl rfl rfl rfl ?_)

theorem keep_applySkip {M : List Host.Cell} {Q : List Instr} {s : State} (r : Line)
    (hgood : Good M Q s) : Good M Q (applySkip r s) := by
  unfold applySkip
  try dsimp only
  repeat' first
    | with_reducible assumption
    | with_reducible apply keep_rootKeepsLsn
    | with_reducible apply keep_recordApplied
    | with_reducible apply keep_endToIdle
    | with_reducible apply keep_nextAttempt
    | with_reducible apply keep_pulse
    | (fail_if_no_progress with_reducible refine keep_mk rfl rfl rfl rfl rfl rfl ?_)

theorem keep_applyAbort {M : List Host.Cell} {Q : List Instr} {s : State} (r : Line)
    (hgood : Good M Q s) : Good M Q (applyAbort r s) := by
  unfold applyAbort
  try dsimp only
  repeat' first
    | with_reducible assumption
    | with_reducible apply keep_recordApplied
    | with_reducible apply keep_abortStep
    | with_reducible apply keep_nextAttempt
    | (fail_if_no_progress with_reducible refine keep_mk rfl rfl rfl rfl rfl rfl ?_)

theorem keep_ignoreRecord {M : List Host.Cell} {Q : List Instr} {s : State} (r : Line)
    (hgood : Good M Q s) : Good M Q (ignoreRecord r s) := by
  unfold ignoreRecord
  try dsimp only
  repeat' first
    | with_reducible assumption
    | with_reducible apply keep_countHier
    | (fail_if_no_progress with_reducible refine keep_mk rfl rfl rfl rfl rfl rfl ?_)

theorem keep_judgeRecord {M : List Host.Cell} {Q : List Instr} {s : State} (r : Line)
    (hgood : Good M Q s) : Good M Q (judgeRecord r s) := by
  unfold judgeRecord
  try dsimp only
  repeat' first
    | with_reducible assumption
    | with_reducible apply keep_ignoreRecord
    | with_reducible apply keep_applyAbort
    | with_reducible apply keep_applySkip
    | with_reducible apply keep_applyGo
    | with_reducible apply keep_holdStep
    | with_reducible apply keep_linksRun
    | with_reducible apply keep_report
    | with_reducible apply keep_countHier
    | with_reducible apply keep_ite
    | (fail_if_no_progress with_reducible refine keep_mk rfl rfl rfl rfl rfl rfl ?_)
    | split

theorem keep_takeRecord {M : List Host.Cell} {Q : List Instr} {s : State} (src : Source) (r : Line)
    (hgood : Good M Q s) : Good M Q (takeRecord src r s) := by
  unfold takeRecord
  try dsimp only
  repeat' first
    | with_reducible assumption
    | with_reducible apply keep_judgeRecord
    | with_reducible apply keep_takeInbox
    | with_reducible apply keep_flashRing
    | with_reducible apply keep_sendBelow
    | with_reducible apply keep_broadcast
    | with_reducible apply keep_ite
    | (fail_if_no_progress with_reducible refine keep_mk rfl rfl rfl rfl rfl rfl ?_)
    | split

theorem keep_takeFlash {M : List Host.Cell} {Q : List Instr} {s : State} (d : Side) (f : Flash)
    (hgood : Good M Q s) : Good M Q (takeFlash d f s) := by
  unfold takeFlash
  try dsimp only
  repeat' first
    | with_reducible assumption
    | with_reducible apply keep_abortStep
    | with_reducible apply keep_flashSend
    | with_reducible apply keep_setLink
    | with_reducible apply keep_countHier
    | with_reducible apply keep_ite
    | (fail_if_no_progress with_reducible refine keep_mk rfl rfl rfl rfl rfl rfl ?_)
    | split

theorem keep_writeLease {M : List Host.Cell} {Q : List Instr} {s : State} (w : Word)
    (hgood : Good M Q s) : Good M Q (writeLease w s) := by
  unfold writeLease
  try dsimp only
  repeat' first
    | with_reducible assumption
    | with_reducible apply keep_countHier
    | with_reducible apply keep_ite
    | (fail_if_no_progress with_reducible refine keep_mk rfl rfl rfl rfl rfl rfl ?_)
    | split

theorem keep_writeRootLsn {M : List Host.Cell} {Q : List Instr} {s : State} (w : Word)
    (hgood : Good M Q s) : Good M Q (writeRootLsn w s) := by
  unfold writeRootLsn
  try dsimp only
  repeat' first
    | with_reducible assumption
    | with_reducible apply keep_report
    | with_reducible apply keep_ite
    | (fail_if_no_progress with_reducible refine keep_mk rfl rfl rfl rfl rfl rfl ?_)
    | split

theorem keep_writeLscale {M : List Host.Cell} {Q : List Instr} {s : State} (w : Word)
    (hgood : Good M Q s) : Good M Q (writeLscale w s) := by
  unfold writeLscale
  try dsimp only
  repeat' first
    | with_reducible assumption
    | with_reducible apply keep_report
    | with_reducible apply keep_ite
    | (fail_if_no_progress with_reducible refine keep_mk rfl rfl rfl rfl rfl rfl ?_)
    | split

theorem keep_execSealPulse {M : List Host.Cell} {Q : List Instr} {s : State} 
    (hgood : Good M Q s) : GoodOut M Q (execSealPulse s) := by
  unfold execSealPulse
  try dsimp only
  repeat' first
    | with_reducible assumption
    | with_reducible apply keep_takeSeal
    | with_reducible apply keep_wakeFromRetain
    | with_reducible apply goodOut_next
    | with_reducible apply keep_ite
    | split

theorem keep_execStepCtlSeal {M : List Host.Cell} {Q : List Instr} {s : State} (w : Word)
    (hgood : Good M Q s) : GoodOut M Q (execStepCtlSeal w s) := by
  unfold execStepCtlSeal
  try dsimp only
  repeat' first
    | with_reducible assumption
    | with_reducible apply keep_writeStepCtl
    | with_reducible apply keep_ctlWrite
    | with_reducible apply goodOut_next
    | intro _ _

theorem keep_execNormPassDone {M : List Host.Cell} {Q : List Instr} {s : State} 
    (hgood : Good M Q s) : GoodOut M Q (execNormPassDone s) := by
  unfold execNormPassDone
  try dsimp only
  repeat' first
    | with_reducible assumption
    | with_reducible apply keep_contribute
    | with_reducible apply goodOut_next
    | with_reducible apply keep_ite
    | split

theorem keep_execAbortReq {M : List Host.Cell} {Q : List Instr} {s : State} 
    (hgood : Good M Q s) : GoodOut M Q (execAbortReq s) := by
  unfold execAbortReq
  try dsimp only
  repeat' first
    | with_reducible assumption
    | with_reducible apply keep_raiseAbort
    | with_reducible apply keep_wakeFromRetain
    | with_reducible apply goodOut_next
    | with_reducible apply keep_ite
    | split

theorem keep_execStepCtlAbort {M : List Host.Cell} {Q : List Instr} {s : State} (w : Word)
    (hgood : Good M Q s) : GoodOut M Q (execStepCtlAbort w s) := by
  unfold execStepCtlAbort
  try dsimp only
  repeat' first
    | with_reducible assumption
    | with_reducible apply keep_writeStepCtl
    | with_reducible apply keep_ctlWrite
    | with_reducible apply goodOut_next
    | intro _ _

theorem keep_execStepCtlLoadStep {M : List Host.Cell} {Q : List Instr} {s : State} (w : Word)
    (hgood : Good M Q s) : GoodOut M Q (execStepCtlLoadStep w s) := by
  unfold execStepCtlLoadStep
  try dsimp only
  repeat' first
    | with_reducible assumption
    | with_reducible apply keep_writeStepCtl
    | with_reducible apply keep_ctlWrite
    | with_reducible apply goodOut_next
    | intro _ _

theorem keep_execStepCtlClearHalt {M : List Host.Cell} {Q : List Instr} {s : State} (w : Word)
    (hgood : Good M Q s) : GoodOut M Q (execStepCtlClearHalt w s) := by
  unfold execStepCtlClearHalt
  try dsimp only
  repeat' first
    | with_reducible assumption
    | with_reducible apply keep_writeStepCtl
    | with_reducible apply keep_ctlWrite
    | with_reducible apply goodOut_next
    | intro _ _

theorem keep_execVerdictRecordGo {M : List Host.Cell} {Q : List Instr} {s : State} (src : Source) (m : Line)
    (hgood : Good M Q s) : GoodOut M Q (execVerdictRecordGo src m s) := by
  unfold execVerdictRecordGo
  try dsimp only
  repeat' first
    | with_reducible assumption
    | with_reducible apply keep_takeRecord
    | with_reducible apply goodOut_next

theorem keep_execVerdictRecordSkip {M : List Host.Cell} {Q : List Instr} {s : State} (src : Source) (m : Line)
    (hgood : Good M Q s) : GoodOut M Q (execVerdictRecordSkip src m s) := by
  unfold execVerdictRecordSkip
  try dsimp only
  repeat' first
    | with_reducible assumption
    | with_reducible apply keep_takeRecord
    | with_reducible apply goodOut_next

theorem keep_execVerdictRecordAbort {M : List Host.Cell} {Q : List Instr} {s : State} (src : Source) (m : Line)
    (hgood : Good M Q s) : GoodOut M Q (execVerdictRecordAbort src m s) := by
  unfold execVerdictRecordAbort
  try dsimp only
  repeat' first
    | with_reducible assumption
    | with_reducible apply keep_takeRecord
    | with_reducible apply goodOut_next

theorem keep_execFlashGo {M : List Host.Cell} {Q : List Instr} {s : State} (side : Side)
    (hgood : Good M Q s) : GoodOut M Q (execFlashGo side s) := by
  unfold execFlashGo
  try dsimp only
  repeat' first
    | with_reducible assumption
    | with_reducible apply keep_takeFlash
    | with_reducible apply goodOut_next

theorem keep_execFlashSkip {M : List Host.Cell} {Q : List Instr} {s : State} (side : Side)
    (hgood : Good M Q s) : GoodOut M Q (execFlashSkip side s) := by
  unfold execFlashSkip
  try dsimp only
  repeat' first
    | with_reducible assumption
    | with_reducible apply keep_takeFlash
    | with_reducible apply goodOut_next

theorem keep_execFlashHold {M : List Host.Cell} {Q : List Instr} {s : State} (side : Side)
    (hgood : Good M Q s) : GoodOut M Q (execFlashHold side s) := by
  unfold execFlashHold
  try dsimp only
  repeat' first
    | with_reducible assumption
    | with_reducible apply keep_takeFlash
    | with_reducible apply goodOut_next

theorem keep_execFlashAbort {M : List Host.Cell} {Q : List Instr} {s : State} (side : Side)
    (hgood : Good M Q s) : GoodOut M Q (execFlashAbort side s) := by
  unfold execFlashAbort
  try dsimp only
  repeat' first
    | with_reducible assumption
    | with_reducible apply keep_takeFlash
    | with_reducible apply goodOut_next

theorem keep_execLeaseAcquire {M : List Host.Cell} {Q : List Instr} {s : State} (w : Word)
    (hgood : Good M Q s) : GoodOut M Q (execLeaseAcquire w s) := by
  unfold execLeaseAcquire
  try dsimp only
  repeat' first
    | with_reducible assumption
    | with_reducible apply keep_writeLease
    | with_reducible apply keep_ctlWrite
    | with_reducible apply goodOut_next
    | intro _ _

theorem keep_execLeaseRenew {M : List Host.Cell} {Q : List Instr} {s : State} (w : Word)
    (hgood : Good M Q s) : GoodOut M Q (execLeaseRenew w s) := by
  unfold execLeaseRenew
  try dsimp only
  repeat' first
    | with_reducible assumption
    | with_reducible apply keep_writeLease
    | with_reducible apply keep_ctlWrite
    | with_reducible apply goodOut_next
    | intro _ _

theorem keep_execLeaseRelease {M : List Host.Cell} {Q : List Instr} {s : State} (w : Word)
    (hgood : Good M Q s) : GoodOut M Q (execLeaseRelease w s) := by
  unfold execLeaseRelease
  try dsimp only
  repeat' first
    | with_reducible assumption
    | with_reducible apply keep_writeLease
    | with_reducible apply keep_ctlWrite
    | with_reducible apply goodOut_next
    | intro _ _

theorem keep_execLeaseRead {M : List Host.Cell} {Q : List Instr} {s : State} (w : Word)
    (hgood : Good M Q s) : GoodOut M Q (execLeaseRead w s) := by
  unfold execLeaseRead
  try dsimp only
  repeat' first
    | with_reducible assumption
    | with_reducible apply keep_writeLease
    | with_reducible apply keep_ctlWrite
    | with_reducible apply goodOut_next
    | intro _ _

theorem keep_execRootLsnWrite {M : List Host.Cell} {Q : List Instr} {s : State} (w : Word)
    (hgood : Good M Q s) : GoodOut M Q (execRootLsnWrite w s) := by
  unfold execRootLsnWrite
  try dsimp only
  repeat' first
    | with_reducible assumption
    | with_reducible apply keep_writeRootLsn
    | with_reducible apply keep_ctlWrite
    | with_reducible apply goodOut_next
    | intro _ _

theorem keep_execLscaleLoad {M : List Host.Cell} {Q : List Instr} {s : State} (w : Word)
    (hgood : Good M Q s) : GoodOut M Q (execLscaleLoad w s) := by
  unfold execLscaleLoad
  try dsimp only
  repeat' first
    | with_reducible assumption
    | with_reducible apply keep_writeLscale
    | with_reducible apply keep_ctlWrite
    | with_reducible apply goodOut_next
    | intro _ _

end Sys2Proof.Machine
end

