-- ==== Sys2Proof/Laws/KeepControl.lean ====
section
/-! SUPPORT. What each operation of Machine/Control.lean keeps (Laws/Keep.lean). -/
namespace Sys2Proof.Machine

-- the proofs below are one script for many operations, of which each uses its own part
set_option linter.unusedTactic false
set_option linter.unreachableTactic false

theorem keep_applyEpoch {M : List Host.Cell} {Q : List Instr} {s : State} 
    (hgood : Good M Q s) : Good M Q (applyEpoch s) := by
  unfold applyEpoch
  try dsimp only
  repeat' first
    | with_reducible assumption
    | with_reducible apply keep_applyMemb
    | with_reducible apply keep_ite
    | (fail_if_no_progress with_reducible refine keep_mk rfl rfl rfl rfl rfl rfl ?_)
    | split

theorem keep_applyStaged {M : List Host.Cell} {Q : List Instr} {s : State} (b : StagedBlock)
    (hgood : Good M Q s) : Good M Q (applyStaged b s) := by
  unfold applyStaged
  try dsimp only
  repeat' first
    | with_reducible assumption
    | with_reducible apply keep_applyEpoch
    | with_reducible apply keep_applyStrm
    | with_reducible apply keep_applyXchSet
    | with_reducible apply keep_applySwp
    | with_reducible apply keep_applyStepk
    | with_reducible apply keep_applyMp
    | split

theorem keep_writeSnapCtl {M : List Host.Cell} {Q : List Instr} {s : State} (w : Word)
    (hgood : Good M Q s) : Good M Q (writeSnapCtl w s) := by
  unfold writeSnapCtl
  try dsimp only
  repeat' first
    | with_reducible assumption
    | with_reducible apply keep_ite
    | (fail_if_no_progress with_reducible refine keep_mk rfl rfl rfl rfl rfl rfl ?_)
    | split

theorem keep_writeStepk {M : List Host.Cell} {Q : List Instr} {s : State} (i : Nat) (w : Word)
    (hgood : Good M Q s) : Good M Q (writeStepk i w s) := by
  unfold writeStepk
  try dsimp only
  repeat' first
    | with_reducible assumption
    | with_reducible apply keep_setStepk

theorem keep_writeSwpBase {M : List Host.Cell} {Q : List Instr} {s : State} (i : Nat) (w : Word)
    (hgood : Good M Q s) : Good M Q (writeSwpBase i w s) := by
  unfold writeSwpBase
  try dsimp only
  repeat' first
    | with_reducible assumption
    | with_reducible apply keep_setSwp

theorem keep_writeMpPart {M : List Host.Cell} {Q : List Instr} {s : State} (i : Nat) (w : Word)
    (hgood : Good M Q s) : Good M Q (writeMpPart i w s) := by
  unfold writeMpPart
  try dsimp only
  repeat' first
    | with_reducible assumption
    | with_reducible apply keep_setMem
    | with_reducible apply keep_ite
    | split

theorem keep_writeThmCfg {M : List Host.Cell} {Q : List Instr} {s : State} (w : Word)
    (hgood : Good M Q s) : Good M Q (writeThmCfg w s) := by
  unfold writeThmCfg
  try dsimp only
  repeat' first
    | with_reducible assumption
    | with_reducible apply keep_setMem

theorem keep_writeMpFault {M : List Host.Cell} {Q : List Instr} {s : State} (w : Word)
    (hgood : Good M Q s) : Good M Q (writeMpFault w s) := by
  unfold writeMpFault
  try dsimp only
  repeat' first
    | with_reducible assumption
    | with_reducible apply keep_setMem

theorem keep_writeFabFault {M : List Host.Cell} {Q : List Instr} {s : State} (w : Word)
    (hgood : Good M Q s) : Good M Q (writeFabFault w s) := by
  unfold writeFabFault
  try dsimp only
  repeat' first
    | with_reducible assumption
    | with_reducible apply keep_setFab

theorem keep_writePondFault {M : List Host.Cell} {Q : List Instr} {s : State} (w : Word)
    (hgood : Good M Q s) : Good M Q (writePondFault w s) := keep_mk (s := s) rfl rfl rfl rfl rfl rfl hgood

theorem keep_writeRingBase {M : List Host.Cell} {Q : List Instr} {s : State} (n : Nat) (w : Word)
    (hgood : Good M Q s) : Good M Q (writeRingBase n w s) := by
  unfold writeRingBase
  try dsimp only
  repeat' first
    | with_reducible assumption
    | with_reducible apply keep_setChan

theorem keep_writeRingCfg {M : List Host.Cell} {Q : List Instr} {s : State} (n : Nat) (w : Word)
    (hgood : Good M Q s) : Good M Q (writeRingCfg n w s) := by
  unfold writeRingCfg
  try dsimp only
  repeat' first
    | with_reducible assumption
    | with_reducible apply keep_setChan

theorem keep_writeChannel {M : List Host.Cell} {Q : List Instr} {s : State} (n off : Nat) (w : Word)
    (hgood : Good M Q s) : Good M Q (writeChannel n off w s) := by
  unfold writeChannel
  try dsimp only
  repeat' first
    | with_reducible assumption
    | with_reducible apply keep_writeRingCfg
    | with_reducible apply keep_writeRingBase
    | with_reducible apply keep_writeChCtl
    | with_reducible apply keep_writeTail
    | with_reducible apply keep_ite
    | split

theorem keep_writeXchReg {M : List Host.Cell} {Q : List Instr} {s : State} (k off : Nat) (w : Word)
    (hgood : Good M Q s) : Good M Q (writeXchReg k off w s) := by
  unfold writeXchReg
  try dsimp only
  repeat' first
    | with_reducible assumption
    | with_reducible apply keep_writeXchCtl
    | with_reducible apply keep_setXch
    | with_reducible apply keep_ite
    | split

theorem keep_setMaskRegs {M : List Host.Cell} {Q : List Instr} {s : State} (f : MaskRegs → MaskRegs)
    (hgood : Good M Q s) : Good M Q (setMaskRegs f s) := keep_mk (s := s) rfl rfl rfl rfl rfl rfl hgood

theorem keep_writeRandom {M : List Host.Cell} {Q : List Instr} {s : State} (a : Nat) (w : Word)
    (hgood : Good M Q s) : Good M Q (writeRandom a w s) := by
  unfold writeRandom
  try dsimp only
  repeat' first
    | with_reducible assumption
    | with_reducible apply keep_setMaskRegs
    | with_reducible apply keep_writeLane
    | with_reducible apply keep_writeRngCtl
    | with_reducible apply keep_writeMaskCtl
    | with_reducible apply keep_ite
    | (fail_if_no_progress with_reducible refine keep_mk rfl rfl rfl rfl rfl rfl ?_)
    | split

theorem keep_writeQuoteRegs {M : List Host.Cell} {Q : List Instr} {s : State} (a : Nat) (w : Word)
    (hgood : Good M Q s) : Good M Q (writeQuoteRegs a w s) := by
  unfold writeQuoteRegs
  try dsimp only
  repeat' first
    | with_reducible assumption
    | (fail_if_no_progress with_reducible refine keep_mk rfl rfl rfl rfl rfl rfl ?_)
    | split

theorem keep_writeGlobal {M : List Host.Cell} {Q : List Instr} {s : State} (a : Nat) (w : Word)
    (hgood : Good M Q s) : Good M Q (writeGlobal a w s) := by
  unfold writeGlobal
  try dsimp only
  repeat' first
    | with_reducible assumption
    | with_reducible apply keep_writeSwpBase
    | with_reducible apply keep_writeStepk
    | with_reducible apply keep_writeSnapCtl
    | with_reducible apply keep_writeGctl
    | with_reducible apply keep_writeSweepCtl
    | with_reducible apply keep_writeAuxCtl
    | with_reducible apply keep_writeLscale
    | with_reducible apply keep_writeRootLsn
    | with_reducible apply keep_writeLease
    | with_reducible apply keep_writeStepCtl
    | with_reducible apply keep_writeMembCommit
    | with_reducible apply keep_writeTtabCtl
    | with_reducible apply keep_setTtab
    | with_reducible apply keep_writeSwpCommit
    | with_reducible apply keep_writeStepkCommit
    | with_reducible apply keep_writeArm
    | with_reducible apply keep_ite
    | (fail_if_no_progress with_reducible refine keep_mk rfl rfl rfl rfl rfl rfl ?_)
    | split

theorem keep_writeMiddle {M : List Host.Cell} {Q : List Instr} {s : State} (a : Nat) (w : Word)
    (hgood : Good M Q s) : Good M Q (writeMiddle a w s) := by
  unfold writeMiddle
  try dsimp only
  repeat' first
    | with_reducible assumption
    | with_reducible apply keep_writeXchReg
    | with_reducible apply keep_writeChannel
    | with_reducible apply keep_writePondFault
    | with_reducible apply keep_writeFabFault
    | with_reducible apply keep_writeMpFault
    | with_reducible apply keep_writeThmCfg
    | with_reducible apply keep_writeMpPart
    | with_reducible apply keep_writeFabCtl
    | with_reducible apply keep_writeFabShed
    | with_reducible apply keep_writeImgCtl
    | with_reducible apply keep_setImage
    | with_reducible apply keep_writePqCtl
    | with_reducible apply keep_writeStrmCommit
    | with_reducible apply keep_writeXchCommit
    | with_reducible apply keep_writeMpCommit
    | with_reducible apply keep_ite
    | split

theorem keep_writeHigh {M : List Host.Cell} {Q : List Instr} {s : State} (a : Nat) (w : Word)
    (hgood : Good M Q s) : Good M Q (writeHigh a w s) := by
  unfold writeHigh
  try dsimp only
  repeat' first
    | with_reducible assumption
    | with_reducible apply keep_writeQuoteRegs
    | with_reducible apply keep_writeRandom
    | with_reducible apply keep_writeErrPop
    | with_reducible apply keep_writeErrStatus
    | with_reducible apply keep_writeSramFault
    | with_reducible apply keep_writeCroak
    | with_reducible apply keep_writeXlCtl
    | with_reducible apply keep_writeVaultOp
    | with_reducible apply keep_ite
    | (fail_if_no_progress with_reducible refine keep_mk rfl rfl rfl rfl rfl rfl ?_)
    | split

theorem keep_writeReg {M : List Host.Cell} {Q : List Instr} {s : State} (a : Nat) (w : Word)
    (hgood : Good M Q s) : Good M Q (writeReg a w s) := by
  unfold writeReg
  try dsimp only
  repeat' first
    | with_reducible assumption
    | with_reducible apply keep_writeHigh
    | with_reducible apply keep_writeMiddle
    | with_reducible apply keep_writeGlobal
    | with_reducible apply keep_ite
    | split

theorem keep_portWrite {M : List Host.Cell} {Q : List Instr} {s : State} (addr : Addr24) (w : Word) (par : BitVec 12)
    (hgood : Good M Q s) : Good M Q (portWrite addr w par s) := by
  unfold portWrite
  try dsimp only
  repeat' first
    | with_reducible assumption
    | with_reducible apply keep_writeReg
    | with_reducible apply keep_ctlWrite
    | with_reducible apply keep_unmapped
    | with_reducible apply keep_respond
    | with_reducible apply keep_countPort
    | intro _ _
    | with_reducible apply keep_ite
    | split

theorem keep_execStagedSetApply {M : List Host.Cell} {Q : List Instr} {s : State} (blk : StagedBlock)
    (hgood : Good M Q s) : GoodOut M Q (execStagedSetApply blk s) := by
  unfold execStagedSetApply
  try dsimp only
  repeat' first
    | with_reducible assumption
    | with_reducible apply keep_applyStaged
    | with_reducible apply goodOut_next
    | with_reducible apply keep_ite
    | split

theorem keep_execRegisterWrite {M : List Host.Cell} {Q : List Instr} {s : State} (addr : Addr24) (w : Word) (par : BitVec 12)
    (hgood : Good M Q s) : GoodOut M Q (execRegisterWrite addr w par s) := by
  unfold execRegisterWrite
  try dsimp only
  repeat' first
    | with_reducible assumption
    | with_reducible apply keep_portWrite
    | with_reducible apply goodOut_next

theorem keep_execSnapTake {M : List Host.Cell} {Q : List Instr} {s : State} (w : Word)
    (hgood : Good M Q s) : GoodOut M Q (execSnapTake w s) := by
  unfold execSnapTake
  try dsimp only
  repeat' first
    | with_reducible assumption
    | with_reducible apply keep_writeSnapCtl
    | with_reducible apply keep_ctlWrite
    | with_reducible apply goodOut_next
    | intro _ _

theorem keep_execVaultQuote {M : List Host.Cell} {Q : List Instr} {s : State} (w : Word)
    (hgood : Good M Q s) : GoodOut M Q (execVaultQuote w s) := by
  unfold execVaultQuote
  try dsimp only
  repeat' first
    | with_reducible assumption
    | with_reducible apply keep_writeVaultOp
    | with_reducible apply keep_ctlWrite
    | with_reducible apply goodOut_next
    | intro _ _

end Sys2Proof.Machine
end

