-- ==== Sys2Proof/Laws/KeepMemPath.lean ====
section
/-! SUPPORT. What each operation of Machine/MemPath.lean keeps (Laws/Keep.lean). -/
namespace Sys2Proof.Machine

-- the proofs below are one script for many operations, of which each uses its own part
set_option linter.unusedTactic false
set_option linter.unreachableTactic false

theorem keep_portFatal {M : List Host.Cell} {Q : List Instr} {s : State} (f : FatalXfer)
    (hgood : Good M Q s) : Good M Q (portFatal f s) := by
  unfold portFatal
  try dsimp only
  repeat' first
    | with_reducible assumption
    | with_reducible apply keep_setMem
    | with_reducible apply keep_report
    | with_reducible apply keep_countMp

theorem keep_nakTag {M : List Host.Cell} {Q : List Instr} {s : State} {n : Nat} (want got : BitVec n) (par : BitVec 2)
    (hgood : Good M Q s) : Good M Q (nakTag want got par s) := by
  unfold nakTag
  try dsimp only
  repeat' first
    | with_reducible assumption
    | with_reducible apply keep_countPort
    | with_reducible apply keep_ite
    | split

theorem keep_hostSend {M : List Host.Cell} {Q : List Instr} {s : State} (h : HostOut)
    (hgood : Good M Q s) : Good M Q (hostSend h s) := by
  unfold hostSend
  try dsimp only
  repeat' first
    | with_reducible assumption
    | with_reducible apply keep_setMem

theorem keep_setHostFails {M : List Host.Cell} {Q : List Instr} {s : State} (port : BitVec 5) (write : Bool) (tag : BitVec 12) (n : Nat)
    (hgood : Good M Q s) : Good M Q (setHostFails port write tag n s) := by
  unfold setHostFails
  try dsimp only
  repeat' first
    | with_reducible assumption
    | with_reducible apply keep_setMem
    | with_reducible apply keep_ite
    | split

theorem keep_hostRequest {M : List Host.Cell} {Q : List Instr} {s : State} (port : BitVec 5) (tag : BitVec 12) (req : BitVec 52) (write : Bool) (mask : BitVec 64) (data : Line) (parity : Bool)
    (hgood : Good M Q s) : Good M Q (hostRequest port tag req write mask data parity s) := by
  unfold hostRequest
  try dsimp only
  repeat' first
    | with_reducible assumption
    | with_reducible apply keep_setHostFails
    | with_reducible apply keep_hostSend
    | with_reducible apply keep_portFatal
    | with_reducible apply keep_enqueue
    | with_reducible apply keep_setMem
    | with_reducible apply keep_countMp
    | with_reducible apply keep_ite
    | split

theorem keep_hostComplete {M : List Host.Cell} {Q : List Instr} {s : State} (d : HostDone)
    (hgood : Good M Q s) : Good M Q (hostComplete d s) := by
  unfold hostComplete
  try dsimp only
  repeat' first
    | with_reducible assumption
    | with_reducible apply keep_hostSend
    | with_reducible apply keep_tongueTake
    | with_reducible apply keep_noteTaken
    | with_reducible apply keep_setMem
    | with_reducible apply keep_ite
    | split

theorem keep_dropHostOut {M : List Host.Cell} {Q : List Instr} {s : State} (h : HostOut)
    (hgood : Good M Q s) : Good M Q (dropHostOut h s) := by
  unfold dropHostOut
  try dsimp only
  repeat' first
    | with_reducible assumption
    | with_reducible apply keep_setMem

theorem keep_makeWay {M : List Host.Cell} {Q : List Instr} {s : State} (h : HostOut) (from' : Nat)
    (hgood : Good M Q s) : Good M Q (makeWay h from' s) := by
  unfold makeWay
  try dsimp only
  repeat' first
    | with_reducible assumption
    | with_reducible apply keep_moveTaken
    | with_reducible apply keep_setMem
    | intro _ _ _
    | with_reducible apply keep_foldl
    | with_reducible apply keep_ite
    | split

theorem keep_hostNak {M : List Host.Cell} {Q : List Instr} {s : State} (h : HostOut)
    (hgood : Good M Q s) : Good M Q (hostNak h s) := by
  unfold hostNak
  try dsimp only
  repeat' first
    | with_reducible assumption
    | with_reducible apply keep_makeWay
    | with_reducible apply keep_dropHostOut
    | with_reducible apply keep_hostSend
    | with_reducible apply keep_portFatal
    | with_reducible apply keep_moveTaken
    | with_reducible apply keep_setMem
    | with_reducible apply keep_countMp
    | with_reducible apply keep_ite
    | split

theorem keep_deliverRead {M : List Host.Cell} {Q : List Instr} {s : State} (r : MemReq) (data : Option Line)
    (hgood : Good M Q s) : Good M Q (deliverRead r data s) := by
  unfold deliverRead
  try dsimp only
  repeat' first
    | with_reducible assumption
    | with_reducible apply keep_hostSend
    | with_reducible apply keep_vectorDone
    | with_reducible apply keep_fetchDone
    | with_reducible apply keep_journalConfirmed
    | with_reducible apply keep_confirmDone
    | with_reducible apply keep_discardedDone
    | with_reducible apply keep_indexLine
    | with_reducible apply keep_imageLine
    | with_reducible apply keep_descReadDone
    | with_reducible apply keep_streamReadDone
    | with_reducible apply keep_readbackDone
    | with_reducible apply keep_copyReadDone
    | with_reducible apply keep_lagReadDone
    | with_reducible apply keep_tableLine
    | with_reducible apply keep_normLineDone
    | split

theorem keep_deliverWrite {M : List Host.Cell} {Q : List Instr} {s : State} (r : MemReq) (ok : Bool) (who : Who)
    (hgood : Good M Q s) : Good M Q (deliverWrite r ok who s) := by
  unfold deliverWrite
  try dsimp only
  repeat' first
    | with_reducible assumption
    | with_reducible apply keep_vectorWritten
    | with_reducible apply keep_journalFailed
    | with_reducible apply keep_groupFailed
    | with_reducible apply keep_streamWriteDone
    | with_reducible apply keep_descBackDone
    | with_reducible apply keep_maskWriteDone
    | with_reducible apply keep_setMem
    | with_reducible apply keep_ite
    | split

theorem keep_deliverWrites {M : List Host.Cell} {Q : List Instr} {s : State} (r : MemReq) (ok : Bool)
    (hgood : Good M Q s) : Good M Q (deliverWrites r ok s) := by
  unfold deliverWrites
  try dsimp only
  repeat' first
    | with_reducible assumption
    | with_reducible apply keep_deliverWrite
    | intro _ _ _
    | with_reducible apply keep_foldl

theorem keep_countGrant {M : List Host.Cell} {Q : List Instr} {s : State} (ch : BitVec 5) (r : MemReq)
    (hgood : Good M Q s) : Good M Q (countGrant ch r s) := by
  unfold countGrant
  try dsimp only
  repeat' first
    | with_reducible assumption
    | with_reducible apply keep_setMem
    | with_reducible apply keep_ite
    | split

theorem keep_writeAccepted {M : List Host.Cell} {Q : List Instr} {s : State} (r : MemReq)
    (hgood : Good M Q s) : Good M Q (writeAccepted r s) := by
  unfold writeAccepted
  try dsimp only
  repeat' first
    | with_reducible assumption
    | with_reducible apply keep_confirmIssue
    | intro _ _ _
    | with_reducible apply keep_foldl

theorem keep_grantRequest {M : List Host.Cell} {Q : List Instr} {s : State} (ch : BitVec 5) (tag : BitVec 10) (i : Nat) (w : Waiting)
    (hgood : Good M Q s) : Good M Q (grantRequest ch tag i w s) := by
  unfold grantRequest
  try dsimp only
  repeat' first
    | with_reducible assumption
    | with_reducible apply keep_writeAccepted
    | with_reducible apply keep_countGrant
    | with_reducible apply keep_setMem
    | with_reducible apply keep_ite
    | split

theorem keep_grantReplay {M : List Host.Cell} {Q : List Instr} {s : State} (f : Flight)
    (hgood : Good M Q s) : Good M Q (grantReplay f s) := by
  unfold grantReplay
  try dsimp only
  repeat' first
    | with_reducible assumption
    | with_reducible apply keep_writeAccepted
    | with_reducible apply keep_setMem
    | with_reducible apply keep_countMp
    | with_reducible apply keep_ite
    | split

theorem keep_windowCatchUp {M : List Host.Cell} {Q : List Instr} {s : State} 
    (hgood : Good M Q s) : Good M Q (windowCatchUp s) := by
  unfold windowCatchUp
  try dsimp only
  repeat' first
    | with_reducible assumption
    | with_reducible apply keep_applyPlan
    | with_reducible apply keep_applyMp
    | with_reducible apply keep_windowEnd
    | with_reducible apply keep_ite
    | split

theorem keep_arbiterGrant {M : List Host.Cell} {Q : List Instr} {s : State} (ch : BitVec 5) (write : Bool) (tag : BitVec 10)
    (hgood : Good M Q s) : Good M Q (arbiterGrant ch write tag s) := by
  unfold arbiterGrant
  try dsimp only
  repeat' first
    | with_reducible assumption
    | with_reducible apply keep_windowCatchUp
    | with_reducible apply keep_grantReplay
    | with_reducible apply keep_grantRequest
    | with_reducible apply keep_setMem
    | with_reducible apply keep_ite
    | split

theorem keep_dropFlight {M : List Host.Cell} {Q : List Instr} {s : State} (f : Flight)
    (hgood : Good M Q s) : Good M Q (dropFlight f s) := by
  unfold dropFlight
  try dsimp only
  repeat' first
    | with_reducible assumption
    | with_reducible apply keep_setMem

theorem keep_flightFailed {M : List Host.Cell} {Q : List Instr} {s : State} (f : Flight) (from' : Nat)
    (hgood : Good M Q s) : Good M Q (flightFailed f from' s) := by
  unfold flightFailed
  try dsimp only
  repeat' first
    | with_reducible assumption
    | with_reducible apply keep_dropFlight
    | with_reducible apply keep_deliverWrites
    | with_reducible apply keep_deliverRead
    | with_reducible apply keep_portFatal
    | with_reducible apply keep_setMem
    | with_reducible apply keep_ite
    | split

theorem keep_memReadReturn {M : List Host.Cell} {Q : List Instr} {s : State} (f : Flight) (data : Line) (par : BitVec 66)
    (hgood : Good M Q s) : Good M Q (memReadReturn f data par s) := by
  unfold memReadReturn
  try dsimp only
  repeat' first
    | with_reducible assumption
    | with_reducible apply keep_flightFailed
    | with_reducible apply keep_dropFlight
    | with_reducible apply keep_deliverRead
    | with_reducible apply keep_setMem
    | with_reducible apply keep_countSweep
    | with_reducible apply keep_ite
    | split

theorem keep_takeEarly {M : List Host.Cell} {Q : List Instr} {s : State} (who : Who)
    (hgood : Good M Q s) : Good M Q (takeEarly who s) := by
  unfold takeEarly
  try dsimp only
  repeat' first
    | with_reducible assumption
    | with_reducible apply keep_deliverRead
    | with_reducible apply keep_setMem
    | intro _ _ _
    | with_reducible apply keep_foldl

theorem keep_voidConfirm {M : List Host.Cell} {Q : List Instr} {s : State} (who : Who)
    (hgood : Good M Q s) : Good M Q (voidConfirm who s) := by
  unfold voidConfirm
  try dsimp only
  repeat' first
    | with_reducible assumption
    | with_reducible apply keep_setMem
    | with_reducible apply keep_countMp
    | with_reducible apply keep_ite
    | split

theorem keep_memNak {M : List Host.Cell} {Q : List Instr} {s : State} (f : Flight) (tag : BitVec 10) (par : BitVec 2)
    (hgood : Good M Q s) : Good M Q (memNak f tag par s) := by
  unfold memNak
  try dsimp only
  repeat' first
    | with_reducible assumption
    | with_reducible apply keep_voidConfirm
    | with_reducible apply keep_flightFailed
    | with_reducible apply keep_dropFlight
    | with_reducible apply keep_nakTag
    | intro _ _ _
    | with_reducible apply keep_foldl
    | with_reducible apply keep_ite
    | split

/-- Only a settled write changes the stack, and then just the bytes it enables (R434). -/
theorem keep_memSettled {M : List Host.Cell} {Q : List Instr} {s : State} (f : Flight)
    (h : Good M Q s) : Good (if f.req.write then lineWrite M f.req.line f.req.mask f.req.data else M) Q (memSettled f s) := by
  unfold memSettled
  dsimp only
  split
  · have h1 := keep_dropFlight f h
    apply keep_foldl
    · apply keep_deliverWrites
      apply keep_ite
      · apply keep_setSweep
        exact ⟨⟨by rw [h.stack], h1.pending, h1.events, h1.log⟩, h1.croaks⟩
      · exact ⟨⟨by rw [h.stack], h1.pending, h1.events, h1.log⟩, h1.croaks⟩
    · intro x a hx
      exact keep_takeEarly _ hx
  · exact keep_setMem _ h

theorem keep_nakCycleEnd {M : List Host.Cell} {Q : List Instr} {s : State} (kind : NakKind) (port : BitVec 5)
    (tag : BitVec 12) (h : Good M Q s) : ∃ N, Good N Q (nakCycleEnd kind port tag s) ∧
      (N = M ∨ ∃ f ∈ s.mem.flights, f.req.write = true ∧ N = lineWrite M f.req.line f.req.mask f.req.data) := by
  have host : ∀ w : Bool, Good M Q (match s.mem.hostOut.find? fun h => h.port == port && h.write == w && h.tag == tag &&
      h.acc + 1 ≤ portNow s with
    | some h => dropHostOut h s
    | none => s) := by
    intro w
    split
    · exact keep_dropHostOut _ h
    · exact h
  have mem : ∀ w : Bool, ∃ N, Good N Q (match flightOf s port (tag.setWidth 10) w with
    | some f => if f.acc + 1 ≤ portNow s && !f.settled then memSettled f s else s
    | none => s) ∧
      (N = M ∨ ∃ f ∈ s.mem.flights, f.req.write = true ∧ N = lineWrite M f.req.line f.req.mask f.req.data) := by
    intro w
    split
    · rename_i f hf
      split
      · have h1 := keep_memSettled f h
        cases hw : f.req.write with
        | false => rw [hw] at h1; exact ⟨M, h1, Or.inl rfl⟩
        | true => rw [hw] at h1; exact ⟨_, h1, Or.inr ⟨f, List.mem_of_find?_eq_some hf, hw, rfl⟩⟩
      · exact ⟨M, h, Or.inl rfl⟩
    · exact ⟨M, h, Or.inl rfl⟩
  unfold nakCycleEnd
  cases kind with
  | memRead => exact mem false
  | memWrite => exact mem true
  | hostReturn => exact ⟨M, host false, Or.inl rfl⟩
  | hostCompletion => exact ⟨M, host true, Or.inl rfl⟩

theorem keep_wcbTimeout {M : List Host.Cell} {Q : List Instr} {s : State} (line : BitVec 34)
    (hgood : Good M Q s) : Good M Q (wcbTimeout line s) := by
  unfold wcbTimeout
  try dsimp only
  repeat' first
    | with_reducible assumption
    | with_reducible apply keep_wcbFlush
    | with_reducible apply keep_ite
    | split

theorem keep_tadpoleAge {M : List Host.Cell} {Q : List Instr} {s : State} (ch : BitVec 5)
    (hgood : Good M Q s) : Good M Q (tadpoleAge ch s) := by
  unfold tadpoleAge
  try dsimp only
  repeat' first
    | with_reducible assumption
    | with_reducible apply keep_setMem
    | with_reducible apply keep_ite
    | split

theorem keep_execHostReadRequest {M : List Host.Cell} {Q : List Instr} {s : State} (port : BitVec 5) (tag : BitVec 12) (req : BitVec 52) (par : BitVec 8)
    (hgood : Good M Q s) : GoodOut M Q (execHostReadRequest port tag req par s) := by
  unfold execHostReadRequest
  try dsimp only
  repeat' first
    | with_reducible assumption
    | with_reducible apply keep_hostRequest
    | with_reducible apply goodOut_next
    | with_reducible apply keep_ite
    | split

theorem keep_execHostWriteRequest {M : List Host.Cell} {Q : List Instr} {s : State} (port : BitVec 5) (tag : BitVec 12) (req : BitVec 52) (mask : BitVec 64) (data : Line) (par : BitVec 80)
    (hgood : Good M Q s) : GoodOut M Q (execHostWriteRequest port tag req mask data par s) := by
  unfold execHostWriteRequest
  try dsimp only
  repeat' first
    | with_reducible assumption
    | with_reducible apply keep_hostRequest
    | with_reducible apply goodOut_next
    | with_reducible apply keep_ite
    | split

theorem keep_execHostWriteCompletion {M : List Host.Cell} {Q : List Instr} {s : State} (port : BitVec 5) (tag : BitVec 12)
    (hgood : Good M Q s) : GoodOut M Q (execHostWriteCompletion port tag s) := by
  unfold execHostWriteCompletion
  try dsimp only
  repeat' first
    | with_reducible assumption
    | with_reducible apply keep_hostComplete
    | with_reducible apply goodOut_next
    | with_reducible apply keep_ite
    | split

theorem keep_execHostReturnNak {M : List Host.Cell} {Q : List Instr} {s : State} (port : BitVec 5) (nakTag' : BitVec 12) (nakPar : BitVec 2)
    (hgood : Good M Q s) : GoodOut M Q (execHostReturnNak port nakTag' nakPar s) := by
  unfold execHostReturnNak
  try dsimp only
  repeat' first
    | with_reducible assumption
    | with_reducible apply keep_hostNak
    | with_reducible apply keep_nakTag
    | with_reducible apply goodOut_next
    | exact goodOut_fault _
    | split

theorem keep_execHostCompletionNak {M : List Host.Cell} {Q : List Instr} {s : State} (port : BitVec 5) (nakTag' : BitVec 12) (nakPar : BitVec 2)
    (hgood : Good M Q s) : GoodOut M Q (execHostCompletionNak port nakTag' nakPar s) := by
  unfold execHostCompletionNak
  try dsimp only
  repeat' first
    | with_reducible assumption
    | with_reducible apply keep_hostNak
    | with_reducible apply keep_nakTag
    | with_reducible apply goodOut_next
    | exact goodOut_fault _
    | split

theorem keep_execArbiterGrant {M : List Host.Cell} {Q : List Instr} {s : State} (chan : BitVec 5) (write : Bool) (tag : BitVec 10)
    (hgood : Good M Q s) : GoodOut M Q (execArbiterGrant chan write tag s) := by
  unfold execArbiterGrant
  try dsimp only
  repeat' first
    | with_reducible assumption
    | with_reducible apply keep_arbiterGrant
    | with_reducible apply goodOut_next
    | with_reducible apply keep_ite
    | split

theorem keep_execMemoryReadReturn {M : List Host.Cell} {Q : List Instr} {s : State} (chan : BitVec 5) (tag : BitVec 10) (data : Line) (par : BitVec 66)
    (hgood : Good M Q s) : GoodOut M Q (execMemoryReadReturn chan tag data par s) := by
  unfold execMemoryReadReturn
  try dsimp only
  repeat' first
    | with_reducible assumption
    | with_reducible apply keep_memReadReturn
    | with_reducible apply goodOut_next
    | exact goodOut_fault _
    | split

theorem keep_execConfirmReadReturn {M : List Host.Cell} {Q : List Instr} {s : State} (chan : BitVec 5) (tag : BitVec 10) (data : Line) (par : BitVec 66)
    (hgood : Good M Q s) : GoodOut M Q (execConfirmReadReturn chan tag data par s) := by
  unfold execConfirmReadReturn
  try dsimp only
  repeat' first
    | with_reducible assumption
    | with_reducible apply keep_memReadReturn
    | with_reducible apply goodOut_next
    | exact goodOut_fault _
    | split

theorem keep_execMemoryReadNak {M : List Host.Cell} {Q : List Instr} {s : State} (chan : BitVec 5) (nakTag' : BitVec 10) (nakPar : BitVec 2)
    (hgood : Good M Q s) : GoodOut M Q (execMemoryReadNak chan nakTag' nakPar s) := by
  unfold execMemoryReadNak
  try dsimp only
  repeat' first
    | with_reducible assumption
    | with_reducible apply keep_memNak
    | with_reducible apply goodOut_next
    | exact goodOut_fault _
    | split

theorem keep_execMemoryWriteNak {M : List Host.Cell} {Q : List Instr} {s : State} (chan : BitVec 5) (nakTag' : BitVec 10) (nakPar : BitVec 2)
    (hgood : Good M Q s) : GoodOut M Q (execMemoryWriteNak chan nakTag' nakPar s) := by
  unfold execMemoryWriteNak
  try dsimp only
  repeat' first
    | with_reducible assumption
    | with_reducible apply keep_memNak
    | with_reducible apply goodOut_next
    | exact goodOut_fault _
    | split

/-- NAK_CYCLE_END is the only command that changes a byte of the stack. -/
theorem keep_execNakCycleEnd {M : List Host.Cell} {Q : List Instr} {s : State} (kind : NakKind) (port : BitVec 5)
    (tag : BitVec 12) (h : Good M Q s) : ∃ N, GoodOut N Q (execNakCycleEnd kind port tag s) ∧
      (N = M ∨ ∃ f ∈ s.mem.flights, f.req.write = true ∧ N = lineWrite M f.req.line f.req.mask f.req.data) := by
  obtain ⟨N, hN, hc⟩ := keep_nakCycleEnd kind port tag h
  exact ⟨N, goodOut_next hN, hc⟩

theorem keep_execWcbTimeout {M : List Host.Cell} {Q : List Instr} {s : State} (line : BitVec 34)
    (hgood : Good M Q s) : GoodOut M Q (execWcbTimeout line s) := by
  unfold execWcbTimeout
  try dsimp only
  repeat' first
    | with_reducible assumption
    | with_reducible apply keep_wcbTimeout
    | with_reducible apply goodOut_next
    | with_reducible apply keep_ite
    | split

theorem keep_execTadpoleAgeLimit {M : List Host.Cell} {Q : List Instr} {s : State} (chan : BitVec 5)
    (hgood : Good M Q s) : GoodOut M Q (execTadpoleAgeLimit chan s) := by
  unfold execTadpoleAgeLimit
  try dsimp only
  repeat' first
    | with_reducible assumption
    | with_reducible apply keep_tadpoleAge
    | with_reducible apply goodOut_next
    | with_reducible apply keep_ite
    | split

end Sys2Proof.Machine
end

