-- ==== Sys2Proof/Laws/KeepPorts.lean ====
section
/-! SUPPORT. What each operation of Machine/Ports.lean keeps (Laws/Keep.lean). -/
namespace Sys2Proof.Machine

-- the proofs below are one script for many operations, of which each uses its own part
set_option linter.unusedTactic false
set_option linter.unreachableTactic false

theorem keep_FarAct.run {M : List Host.Cell} {Q : List Instr} {s : State} (a : FarAct)
    (hgood : Good M Q s) : Good M Q (FarAct.run a s) := by
  unfold FarAct.run
  try dsimp only
  repeat' first
    | with_reducible assumption
    | with_reducible apply keep_setImage
    | with_reducible apply keep_setTask
    | with_reducible apply keep_setXch
    | with_reducible apply keep_ite
    | (fail_if_no_progress with_reducible refine keep_mk rfl rfl rfl rfl rfl rfl ?_)
    | split

theorem keep_farBurstGrant {M : List Host.Cell} {Q : List Instr} {s : State} (write : Bool) (tags : List (BitVec 12))
    (hgood : Good M Q s) : Good M Q (farBurstGrant write tags s) := by
  unfold farBurstGrant
  try dsimp only
  repeat' first
    | with_reducible assumption
    | with_reducible apply keep_FarAct.run
    | with_reducible apply keep_farSend
    | intro _ _ _
    | with_reducible apply keep_foldl
    | with_reducible apply keep_ite
    | (fail_if_no_progress with_reducible refine keep_mk rfl rfl rfl rfl rfl rfl ?_)
    | split

theorem keep_deliverFar {M : List Host.Cell} {Q : List Instr} {s : State} (r : FarReq) (data : Option Line) (code : BitVec 8)
    (hgood : Good M Q s) : Good M Q (deliverFar r data code s) := by
  unfold deliverFar
  try dsimp only
  repeat' first
    | with_reducible assumption
    | with_reducible apply keep_imageLine
    | with_reducible apply keep_streamWriteDone
    | with_reducible apply keep_streamReadDone
    | with_reducible apply keep_readbackDone
    | with_reducible apply keep_copyBackDone
    | with_reducible apply keep_copyAck
    | with_reducible apply keep_creditDone
    | with_reducible apply keep_recordAck
    | with_reducible apply keep_xchFault
    | with_reducible apply keep_setXch
    | with_reducible apply keep_ite
    | split

theorem keep_setFar {M : List Host.Cell} {Q : List Instr} {s : State} (f : FarPort → FarPort)
    (hgood : Good M Q s) : Good M Q (setFar f s) := keep_mk (s := s) rfl rfl rfl rfl rfl rfl hgood

theorem keep_farDrop {M : List Host.Cell} {Q : List Instr} {s : State} (r : FarReq)
    (hgood : Good M Q s) : Good M Q (farDrop r s) := by
  unfold farDrop
  try dsimp only
  repeat' first
    | with_reducible assumption
    | with_reducible apply keep_setFar

theorem keep_farModify {M : List Host.Cell} {Q : List Instr} {s : State} (r : FarReq) (g : FarReq → FarReq)
    (hgood : Good M Q s) : Good M Q (farModify r g s) := by
  unfold farModify
  try dsimp only
  repeat' first
    | with_reducible assumption
    | with_reducible apply keep_setFar
    | with_reducible apply keep_ite
    | split

theorem keep_farFatal {M : List Host.Cell} {Q : List Instr} {s : State} (r : FarReq)
    (hgood : Good M Q s) : Good M Q (farFatal r s) := by
  unfold farFatal
  try dsimp only
  repeat' first
    | with_reducible assumption
    | with_reducible apply keep_farDrop
    | with_reducible apply keep_deliverFar
    | with_reducible apply keep_countPort

theorem keep_farLate {M : List Host.Cell} {Q : List Instr} {s : State} (write : Bool) (tag : BitVec 12)
    (hgood : Good M Q s) : Good M Q (farLate write tag s) := by
  unfold farLate
  try dsimp only
  repeat' first
    | with_reducible assumption
    | with_reducible apply keep_setFar
    | with_reducible apply keep_countPort

theorem keep_farResponse {M : List Host.Cell} {Q : List Instr} {s : State} (write : Bool) (tag : BitVec 12) (resp : BitVec 2) (data : Line) (good : Bool)
    (hgood : Good M Q s) : Good M Q (farResponse write tag resp data good s) := by
  unfold farResponse
  try dsimp only
  repeat' first
    | with_reducible assumption
    | with_reducible apply keep_farLate
    | with_reducible apply keep_farFatal
    | with_reducible apply keep_farModify
    | with_reducible apply keep_farDrop
    | with_reducible apply keep_setFar
    | with_reducible apply keep_deliverFar
    | with_reducible apply keep_countPort
    | with_reducible apply keep_ite
    | split

theorem keep_farNak {M : List Host.Cell} {Q : List Instr} {s : State} (r : FarReq) (tag : BitVec 12) (par : BitVec 2)
    (hgood : Good M Q s) : Good M Q (farNak r tag par s) := by
  unfold farNak
  try dsimp only
  repeat' first
    | with_reducible assumption
    | with_reducible apply keep_farFatal
    | with_reducible apply keep_farModify
    | with_reducible apply keep_setFar
    | with_reducible apply keep_nakTag
    | with_reducible apply keep_countPort
    | with_reducible apply keep_ite
    | split

theorem keep_farTimeout {M : List Host.Cell} {Q : List Instr} {s : State} (r : FarReq)
    (hgood : Good M Q s) : Good M Q (farTimeout r s) := by
  unfold farTimeout
  try dsimp only
  repeat' first
    | with_reducible assumption
    | with_reducible apply keep_farDrop
    | with_reducible apply keep_setFar
    | with_reducible apply keep_deliverFar
    | with_reducible apply keep_countPort

theorem keep_padsGiven {M : List Host.Cell} {Q : List Instr} {s : State} (r : Nat) (hs : List (BitVec 16))
    (hgood : Good M Q s) : Good M Q (padsGiven r hs s) := by
  unfold padsGiven
  try dsimp only
  repeat' first
    | with_reducible assumption
    | with_reducible apply keep_fetchGranted
    | with_reducible apply keep_addPiece
    | with_reducible apply keep_startChunk
    | with_reducible apply keep_assembleAll
    | with_reducible apply keep_lagStart
    | with_reducible apply keep_setXch
    | with_reducible apply keep_ite
    | split

theorem keep_allocTurn {M : List Host.Cell} {Q : List Instr} (s0 : State) (r : Nat)
    (a : List (BitVec 11) × Nat × Nat × State) (h : Good M Q a.2.2.2) :
    ∀ x ∈ allocTurn s0 r a, Good M Q x.2.2.2 := by
  obtain ⟨picks, reqs, pads, s⟩ := a
  intro x hx
  unfold allocTurn at hx
  dsimp only at hx
  have hc : Good M Q (if grantAllowed s0 r ((padAsk s0 r).getD 0) then countStrm 10 1 s else s) := by
    split
    · exact keep_countStrm _ _ h
    · exact h
  split at hx
  · simp only [Option.mem_def, Option.some.injEq] at hx; subst hx; exact h
  · rename_i k hk
    simp only [hk, Option.getD_some] at hc
    split at hx
    · simp only [Option.mem_def, Option.some.injEq] at hx; subst hx; exact h
    · split at hx
      · simp only [Option.mem_def, Option.some.injEq] at hx; subst hx; exact hc
      · split at hx
        · exact absurd hx (by simp)
        · simp only [Option.map_eq_some_iff, Option.mem_def] at hx
          obtain ⟨⟨hs, u⟩, hu, rfl⟩ := hx
          exact keep_padsGiven _ _ (keep_takePads _ _ _ h (hs, u) hu)

theorem keep_pondAllocate {M : List Host.Cell} {Q : List Instr} {s : State} (picks : List (BitVec 11))
    (h : Good M Q s) : Good M Q (pondAllocate picks s) := by
  have step : ∀ (l : List Nat) (a : Option (List (BitVec 11) × Nat × Nat × State)), (∀ x ∈ a, Good M Q x.2.2.2) →
      ∀ x ∈ l.foldl (fun a r => a.bind (allocTurn s r)) a, Good M Q x.2.2.2 := by
    intro l
    induction l with
    | nil => intro a ha; exact ha
    | cons r l ih =>
      intro a ha
      refine ih _ ?_
      intro x hx
      cases a with
      | none => simp at hx
      | some a => exact keep_allocTurn _ _ _ (ha a rfl) x hx
  unfold pondAllocate
  dsimp only
  split
  · exact h
  · split
    · rename_i t ht
      exact keep_mk rfl rfl rfl rfl rfl rfl
        (step _ (some (picks, 0, 0, s)) (by intro x hx; simp only [Option.mem_def, Option.some.injEq] at hx; subst hx; exact h) _ ht)
    · exact h

theorem keep_pondStall {M : List Host.Cell} {Q : List Instr} {s : State} 
    (hgood : Good M Q s) : Good M Q (pondStall s) := by
  unfold pondStall
  try dsimp only
  repeat' first
    | with_reducible assumption
    | with_reducible apply keep_abortTask
    | with_reducible apply keep_report
    | with_reducible apply keep_countStrm
    | with_reducible apply keep_ite
    | (fail_if_no_progress with_reducible refine keep_mk rfl rfl rfl rfl rfl rfl ?_)
    | split

theorem keep_eventEmit {M : List Host.Cell} {Q : List Instr} {s : State}
    (h : Good M Q s) : Good M Q (eventEmit s) := by
  unfold eventEmit
  split
  · rename_i t line rest hq
    have hr : rest.length + 1 ≤ 256 := by simpa [hq] using h.events
    split
    · exact h
    · dsimp only
      split
      · refine ⟨⟨h.stack, h.pending, ?_, h.log⟩, h.croaks⟩
        simp only [insertEvent_length]; exact hr
      · exact ⟨⟨h.stack, h.pending, Nat.le_of_succ_le hr, h.log⟩, h.croaks⟩
  · exact h

theorem keep_execFarBurstGrant {M : List Host.Cell} {Q : List Instr} {s : State} (write : Bool) (tags : List (BitVec 12))
    (hgood : Good M Q s) : GoodOut M Q (execFarBurstGrant write tags s) := by
  unfold execFarBurstGrant
  try dsimp only
  repeat' first
    | with_reducible assumption
    | with_reducible apply keep_farBurstGrant
    | with_reducible apply goodOut_next
    | with_reducible apply keep_ite
    | split

theorem keep_execFarReadData {M : List Host.Cell} {Q : List Instr} {s : State} (tag : BitVec 12) (resp : BitVec 2) (data : Line) (par : BitVec 66)
    (hgood : Good M Q s) : GoodOut M Q (execFarReadData tag resp data par s) := by
  unfold execFarReadData
  try dsimp only
  repeat' first
    | with_reducible assumption
    | with_reducible apply keep_farResponse
    | with_reducible apply goodOut_next
    | with_reducible apply keep_ite
    | split

theorem keep_execFarWriteResponse {M : List Host.Cell} {Q : List Instr} {s : State} (tag : BitVec 12) (resp : BitVec 2) (par : BitVec 2)
    (hgood : Good M Q s) : GoodOut M Q (execFarWriteResponse tag resp par s) := by
  unfold execFarWriteResponse
  try dsimp only
  repeat' first
    | with_reducible assumption
    | with_reducible apply keep_farResponse
    | with_reducible apply goodOut_next
    | with_reducible apply keep_ite
    | split

theorem keep_execFarRequestNak {M : List Host.Cell} {Q : List Instr} {s : State} (write : Bool) (nakTag' : BitVec 12) (nakPar : BitVec 2)
    (hgood : Good M Q s) : GoodOut M Q (execFarRequestNak write nakTag' nakPar s) := by
  unfold execFarRequestNak
  try dsimp only
  repeat' first
    | with_reducible assumption
    | with_reducible apply keep_farNak
    | with_reducible apply goodOut_next
    | exact goodOut_fault _
    | split

theorem keep_execFarTimeout {M : List Host.Cell} {Q : List Instr} {s : State} (write : Bool) (tag : BitVec 12)
    (hgood : Good M Q s) : GoodOut M Q (execFarTimeout write tag s) := by
  unfold execFarTimeout
  try dsimp only
  repeat' first
    | with_reducible assumption
    | with_reducible apply keep_farTimeout
    | with_reducible apply goodOut_next
    | with_reducible apply keep_ite
    | split

theorem keep_execStreamReadbackReturn {M : List Host.Cell} {Q : List Instr} {s : State} (n : BitVec 4) (ret : ReadBack)
    (hgood : Good M Q s) : GoodOut M Q (execStreamReadbackReturn n ret s) := by
  unfold execStreamReadbackReturn
  try dsimp only
  repeat' first
    | with_reducible assumption
    | with_reducible apply keep_farResponse
    | with_reducible apply keep_memReadReturn
    | with_reducible apply goodOut_next
    | exact goodOut_fault _
    | with_reducible apply keep_ite
    | split

theorem keep_execPondAllocate {M : List Host.Cell} {Q : List Instr} {s : State} (picks : List (BitVec 11))
    (hgood : Good M Q s) : GoodOut M Q (execPondAllocate picks s) := by
  unfold execPondAllocate
  try dsimp only
  repeat' first
    | with_reducible assumption
    | with_reducible apply keep_pondAllocate
    | with_reducible apply goodOut_next
    | with_reducible apply keep_ite
    | split

theorem keep_execPondStall {M : List Host.Cell} {Q : List Instr} {s : State} 
    (hgood : Good M Q s) : GoodOut M Q (execPondStall s) := by
  unfold execPondStall
  try dsimp only
  repeat' first
    | with_reducible assumption
    | with_reducible apply keep_pondStall
    | with_reducible apply goodOut_next
    | with_reducible apply keep_ite
    | split

theorem keep_execEventEmit {M : List Host.Cell} {Q : List Instr} {s : State} 
    (hgood : Good M Q s) : GoodOut M Q (execEventEmit s) := by
  unfold execEventEmit
  try dsimp only
  repeat' first
    | with_reducible assumption
    | with_reducible apply keep_eventEmit
    | with_reducible apply goodOut_next
    | with_reducible apply keep_ite
    | split

end Sys2Proof.Machine
end

