-- ==== Sys2Proof/Laws/KeepTick.lean ====
section
/-! SUPPORT. What each operation of Machine/Tick.lean keeps (Laws/Keep.lean). -/
namespace Sys2Proof.Machine

-- the proofs below are one script for many operations, of which each uses its own part
set_option linter.unusedTactic false
set_option linter.unreachableTactic false

theorem keep_windowEntry {M : List Host.Cell} {Q : List Instr} {s : State} 
    (hgood : Good M Q s) : Good M Q (windowEntry s) := by
  unfold windowEntry
  try dsimp only
  repeat' first
    | with_reducible assumption
    | with_reducible apply keep_setMem
    | with_reducible apply keep_ite
    | split

theorem keep_tickMem {M : List Host.Cell} {Q : List Instr} {s : State} 
    (hgood : Good M Q s) : Good M Q (tickMem s) := by
  unfold tickMem
  try dsimp only
  repeat' first
    | with_reducible assumption
    | with_reducible apply keep_windowEntry
    | with_reducible apply keep_windowCatchUp
    | with_reducible apply keep_setMem
    | with_reducible apply keep_countMp
    | with_reducible apply keep_ite
    | split

theorem keep_tickEvents {M : List Host.Cell} {Q : List Instr} {s : State} 
    (hgood : Good M Q s) : Good M Q (tickEvents s) := by
  unfold tickEvents
  try dsimp only
  repeat' first
    | with_reducible assumption
    | with_reducible apply keep_countPort
    | with_reducible apply keep_ite
    | split

theorem keep_fabCycle {M : List Host.Cell} {Q : List Instr} {s : State} 
    (hgood : Good M Q s) : Good M Q (fabCycle s) := by
  unfold fabCycle
  try dsimp only
  repeat' first
    | with_reducible assumption
    | with_reducible apply keep_chainCycle
    | (with_reducible refine keep_chainCycle_eq ‹_› ?_)
    | with_reducible apply keep_prepareCycle
    | with_reducible apply keep_maskBeat
    | with_reducible apply keep_countFab
    | with_reducible apply keep_ite
    | (fail_if_no_progress with_reducible refine keep_mk rfl rfl rfl rfl rfl rfl ?_)
    | split

theorem keep_tickFab {M : List Host.Cell} {Q : List Instr} {s : State} 
    (hgood : Good M Q s) : Good M Q (tickFab s) := by
  unfold tickFab
  try dsimp only
  repeat' first
    | with_reducible assumption
    | with_reducible apply keep_fabCycle
    | intro _ _ _
    | with_reducible apply keep_foldl
    | (fail_if_no_progress with_reducible refine keep_mk rfl rfl rfl rfl rfl rfl ?_)

theorem keep_tickPower {M : List Host.Cell} {Q : List Instr} {s : State} 
    (hgood : Good M Q s) : Good M Q (tickPower s) := by
  unfold tickPower
  try dsimp only
  repeat' first
    | with_reducible assumption
    | with_reducible apply keep_wakeBegin
    | with_reducible apply keep_setPower
    | with_reducible apply keep_ite
    | split

theorem keep_tickPond {M : List Host.Cell} {Q : List Instr} {s : State} 
    (hgood : Good M Q s) : Good M Q (tickPond s) := by
  unfold tickPond
  try dsimp only
  repeat' first
    | with_reducible assumption
    | with_reducible apply keep_ite
    | (fail_if_no_progress with_reducible refine keep_mk rfl rfl rfl rfl rfl rfl ?_)
    | split

theorem keep_stagedDue {M : List Host.Cell} {Q : List Instr} {s : State} 
    (hgood : Good M Q s) : Good M Q (stagedDue s) := by
  unfold stagedDue
  try dsimp only
  repeat' first
    | with_reducible assumption
    | with_reducible apply keep_applyStaged
    | intro _ _ _
    | with_reducible apply keep_foldl
    | with_reducible apply keep_ite
    | split

theorem keep_tick {M : List Host.Cell} {Q : List Instr} {s : State} 
    (hgood : Good M Q s) : Good M Q (tick s) := by
  unfold tick
  try dsimp only
  repeat' first
    | with_reducible assumption
    | with_reducible apply keep_stagedDue
    | with_reducible apply keep_tickPond
    | with_reducible apply keep_tickPower
    | with_reducible apply keep_tickFab
    | with_reducible apply keep_tickEvents
    | with_reducible apply keep_tickMem
    | with_reducible apply keep_recoverDue
    | with_reducible apply keep_kstNext
    | with_reducible apply keep_linksReturn
    | with_reducible apply keep_ite
    | (fail_if_no_progress with_reducible refine keep_mk rfl rfl rfl rfl rfl rfl ?_)
    | split

end Sys2Proof.Machine
end

