-- ==== Sys2Proof/Laws/Memory.lean ====
section
/-! SUPPORT. The laws of the bytes of the stack: a write keeps the canonical form, reads back at its own
address and leaves every other address alone; a line write likewise, byte by byte of its mask. -/
namespace Sys2Proof.Machine

theorem cellsAbove_cons {a : Nat} {c : Host.Cell} {m : List Host.Cell} :
    cellsAbove a (c :: m) = true ↔ a < c.1 ∧ cellsAbove a m = true := by
  simp [cellsAbove]

theorem cellsAbove_mono {a b : Nat} {m : List Host.Cell} (hab : a < b) (h : cellsAbove b m = true) :
    cellsAbove a m = true := by
  simp only [cellsAbove, List.all_eq_true, decide_eq_true_eq] at h ⊢
  intro c hc
  have := h c hc
  omega

/-- Below every listed address a byte reads as an unlisted one. -/
theorem cellRead_above {m : List Host.Cell} {k : Nat} (h : cellsAbove k m = true) : cellRead m k = unlistedByte := by
  induction m with
  | nil => rfl
  | cons c m ih =>
    obtain ⟨h1, h2⟩ := cellsAbove_cons.mp h
    have : c.1 ≠ k := by omega
    simp [cellRead, this, ih h2]

/-- A write lists no address but its own and those listed before. -/
theorem cellsAbove_write {m : List Host.Cell} {a k : Nat} {v : Byte} (h : cellsAbove a m = true) (hk : a < k) :
    cellsAbove a (cellWrite m k v) = true := by
  induction m with
  | nil => by_cases hv : v = unlistedByte <;> simp [cellWrite, hv, cellsAbove, hk]
  | cons c m ih =>
    obtain ⟨h1, h2⟩ := cellsAbove_cons.mp h
    simp only [cellWrite]
    split
    · split
      · exact h
      · exact cellsAbove_cons.mpr ⟨hk, h⟩
    · split
      · split
        · exact h2
        · exact cellsAbove_cons.mpr ⟨hk, h2⟩
      · exact cellsAbove_cons.mpr ⟨h1, ih h2⟩

theorem wf_cons {a : Nat} {b : Byte} {m : List Host.Cell} :
    Memory.wf ((a, b) :: m) = true ↔ b ≠ unlistedByte ∧ cellsAbove a m = true ∧ Memory.wf m = true := by
  simp [Memory.wf, and_assoc]

/-- A write keeps the canonical form. -/
theorem wf_cellWrite {m : List Host.Cell} (h : Memory.wf m = true) (k : Nat) (v : Byte) :
    Memory.wf (cellWrite m k v) = true := by
  induction m with
  | nil => by_cases hv : v = unlistedByte <;> simp [cellWrite, hv, Memory.wf, cellsAbove]
  | cons c m ih =>
    obtain ⟨a, b⟩ := c
    obtain ⟨h1, h2, h3⟩ := wf_cons.mp h
    simp only [cellWrite]
    split
    · rename_i hka
      split
      · exact h
      · rename_i hv
        exact wf_cons.mpr ⟨hv, cellsAbove_cons.mpr ⟨hka, cellsAbove_mono hka h2⟩, h⟩
    · split
      · rename_i hka
        split
        · exact h3
        · rename_i hv
          exact wf_cons.mpr ⟨hv, hka ▸ h2, h3⟩
      · exact wf_cons.mpr ⟨h1, cellsAbove_write h2 (by omega), ih h3⟩

/-- What a byte reads as after a write. -/
theorem cellRead_cellWrite {m : List Host.Cell} (h : Memory.wf m = true) (k j : Nat) (v : Byte) :
    cellRead (cellWrite m k v) j = if j = k then v else cellRead m j := by
  induction m with
  | nil =>
    by_cases hv : v = unlistedByte <;> by_cases hj : j = k <;> simp [cellWrite, cellRead, hv, hj]
    exact fun hk => absurd hk.symm hj
  | cons c m ih =>
    obtain ⟨a, b⟩ := c
    obtain ⟨h1, h2, h3⟩ := wf_cons.mp h
    simp only [cellWrite]
    split
    · rename_i hka
      have habove : cellsAbove k ((a, b) :: m) = true := cellsAbove_cons.mpr ⟨hka, cellsAbove_mono hka h2⟩
      split
      · rename_i hv
        split
        · subst_vars; exact cellRead_above habove
        · rfl
      · by_cases hj : j = k
        · simp [cellRead, hj]
        · have : k ≠ j := fun e => hj e.symm
          simp [cellRead, hj, this]
    · split
      · rename_i hka
        subst hka
        split
        · rename_i hv
          by_cases hj : j = k
          · subst hj; simp [hv, cellRead_above h2]
          · have : k ≠ j := fun e => hj e.symm
            simp [cellRead, hj, this]
        · by_cases hj : j = k
          · simp [cellRead, hj]
          · have : k ≠ j := fun e => hj e.symm
            simp [cellRead, hj, this]
      · rename_i hlt hne
        by_cases hja : a = j
        · have : j ≠ k := by omega
          simp [cellRead, hja, this]
        · simp [cellRead, hja, ih h3]

/-- A read after a write of the same address. -/
theorem cellRead_cellWrite_same {m : List Host.Cell} (h : Memory.wf m = true) (k : Nat) (v : Byte) :
    cellRead (cellWrite m k v) k = v := by simp [cellRead_cellWrite h]

/-- A read after a write of another address. -/
theorem cellRead_cellWrite_other {m : List Host.Cell} (h : Memory.wf m = true) {k j : Nat} (hj : j ≠ k) (v : Byte) :
    cellRead (cellWrite m k v) j = cellRead m j := by simp [cellRead_cellWrite h, hj]

/-- The first n bytes of a line write, as a fold. -/
theorem wf_writes {m : List Host.Cell} (h : Memory.wf m = true) (ks : List Nat) (p : Nat → Bool) (at' : Nat → Nat)
    (v : Nat → Byte) :
    Memory.wf (ks.foldl (fun m k => if p k then cellWrite m (at' k) (v k) else m) m) = true := by
  induction ks generalizing m with
  | nil => exact h
  | cons k ks ih =>
    refine ih ?_
    dsimp only
    split
    · exact wf_cellWrite h _ _
    · exact h

/-- A line write keeps the canonical form. -/
theorem wf_lineWrite {m : List Host.Cell} (h : Memory.wf m = true) (line : BitVec 34) (mask : BitVec 64) (data : Line) :
    Memory.wf (lineWrite m line mask data) = true :=
  wf_writes h _ _ _ _

theorem cellRead_writes {m : List Host.Cell} (h : Memory.wf m = true) (p : Nat → Bool) (base : Nat) (v : Nat → Byte)
    (n j : Nat) :
    cellRead ((List.range n).foldl (fun m k => if p k then cellWrite m (base + k) (v k) else m) m) j =
      if base ≤ j ∧ j < base + n ∧ p (j - base) = true then v (j - base) else cellRead m j := by
  induction n with
  | zero =>
    have : ¬(base ≤ j ∧ j < base + 0 ∧ p (j - base) = true) := by omega
    rw [if_neg this]; rfl
  | succ n ih =>
    rw [List.range_succ, List.foldl_append, List.foldl_cons, List.foldl_nil]
    have hw := wf_writes h (List.range n) p (base + ·) v
    by_cases hp : p n = true
    · rw [if_pos hp, cellRead_cellWrite hw]
      by_cases hj : j = base + n
      · subst hj; simp [hp]
      · rw [if_neg hj, ih]
        have : (j < base + (n + 1)) ↔ (j < base + n) := by omega
        simp only [this]
    · rw [if_neg hp, ih]
      by_cases hj : j = base + n
      · subst hj; simp [hp]
      · have : (j < base + (n + 1)) ↔ (j < base + n) := by omega
        simp only [this]

/-- What a byte reads as after a line write: the data's byte where the line and the mask cover it, otherwise as
before. -/
theorem cellRead_lineWrite {m : List Host.Cell} (h : Memory.wf m = true) (line : BitVec 34) (mask : BitVec 64)
    (data : Line) (j : Nat) :
    cellRead (lineWrite m line mask data) j =
      if 64 * line.toNat ≤ j ∧ j < 64 * line.toNat + 64 ∧ mask.getLsbD (j - 64 * line.toNat) = true
      then data.extractLsb' (8 * (j - 64 * line.toNat)) 8 else cellRead m j :=
  cellRead_writes h (fun k => mask.getLsbD k) (64 * line.toNat) (fun k => data.extractLsb' (8 * k) 8) 64 j

/-- Reset memory, which lists nothing, is canonical. -/
theorem wf_reset : Memory.wf State.reset.stack = true := rfl

end Sys2Proof.Machine
end

