-- ==== Sys2Proof/Laws/Only.lean ====
section
/-! SUPPORT. Which parts of the state an operation may change. One lemma `only_<operation>` per operation
stands in the files Laws/Only<Module>.lean: from it every frame of a command follows. -/
namespace Sys2Proof.Machine

-- the proofs below are one script for many operations, of which each uses its own part
set_option linter.unusedTactic false
set_option linter.unreachableTactic false

theorem only_refl (L : List Part) (s : State) : OnlyChanges L s s := by
  intro p _
  cases p <;> rfl

theorem only_ite {L : List Part} {s : State} {c : Prop} [Decidable c] {a b : State}
    (ha : OnlyChanges L s a) (hb : OnlyChanges L s b) : OnlyChanges L s (if c then a else b) := by
  split <;> assumption

theorem only_foldl {L : List Part} {s0 : State} {α : Type} {f : State → α → State} {l : List α} {s : State}
    (h : OnlyChanges L s0 s) (hf : ∀ x a, OnlyChanges L s0 x → OnlyChanges L s0 (f x a)) :
    OnlyChanges L s0 (l.foldl f s) := by
  induction l generalizing s with
  | nil => exact h
  | cons a l ih => exact ih (hf s a h)

/-- A part that is not among the changed ones is as it was. -/
theorem OnlyChanges.part {L : List Part} {s t : State} (h : OnlyChanges L s t) (p : Part) (hp : p ∉ L) : p.same s t :=
  h p hp

/-- A part of the list that an operation may change. -/
theorem only_in {A L : List Part} {p : Part} (hL : A ⊆ L) (h : p ∈ A) : p ∈ L := hL h

theorem only_set_aux {L : List Part} {s0 s : State} {aux' : Aux}
    (h_aux : Part.aux ∈ L) (h : OnlyChanges L s0 s) :
    OnlyChanges L s0 { s with aux := aux' } := by
  intro p hp
  cases p
  case aux => exact absurd h_aux hp
  all_goals exact h _ hp

theorem only_set_boot {L : List Part} {s0 s : State} {boot' : Boot}
    (h_boot : Part.boot ∈ L) (h : OnlyChanges L s0 s) :
    OnlyChanges L s0 { s with boot := boot' } := by
  intro p hp
  cases p
  case boot => exact absurd h_boot hp
  all_goals exact h _ hp

theorem only_set_clk {L : List Part} {s0 s : State} {clk' : Clocks}
    (h_clk : Part.clk ∈ L) (h : OnlyChanges L s0 s) :
    OnlyChanges L s0 { s with clk := clk' } := by
  intro p hp
  cases p
  case clk => exact absurd h_clk hp
  all_goals exact h _ hp

theorem only_set_clk_boot_health_mem {L : List Part} {s0 s : State} {clk' : Clocks} {boot' : Boot} {health' : Health} {mem' : MemPath}
    (h_clk : Part.clk ∈ L) (h_boot : Part.boot ∈ L) (h_health : Part.health ∈ L) (h_mem : Part.mem ∈ L) (h : OnlyChanges L s0 s) :
    OnlyChanges L s0 { s with clk := clk', boot := boot', health := health', mem := mem' } := by
  intro p hp
  cases p
  case clk => exact absurd h_clk hp
  case boot => exact absurd h_boot hp
  case health => exact absurd h_health hp
  case mem => exact absurd h_mem hp
  all_goals exact h _ hp

theorem only_set_ctl {L : List Part} {s0 s : State} {ctl' : CtlPort}
    (h_ctl : Part.ctl ∈ L) (h : OnlyChanges L s0 s) :
    OnlyChanges L s0 { s with ctl := ctl' } := by
  intro p hp
  cases p
  case ctl => exact absurd h_ctl hp
  all_goals exact h _ hp

theorem only_set_east {L : List Part} {s0 s : State} {east' : LinkEnd}
    (h_east : Part.east ∈ L) (h : OnlyChanges L s0 s) :
    OnlyChanges L s0 { s with east := east' } := by
  intro p hp
  cases p
  case east => exact absurd h_east hp
  all_goals exact h _ hp

theorem only_set_east_west {L : List Part} {s0 s : State} {east' : LinkEnd} {west' : LinkEnd}
    (h_east : Part.east ∈ L) (h_west : Part.west ∈ L) (h : OnlyChanges L s0 s) :
    OnlyChanges L s0 { s with east := east', west := west' } := by
  intro p hp
  cases p
  case east => exact absurd h_east hp
  case west => exact absurd h_west hp
  all_goals exact h _ hp

theorem only_set_evt {L : List Part} {s0 s : State} {evt' : EventPort}
    (h_evt : Part.evt ∈ L) (h : OnlyChanges L s0 s) :
    OnlyChanges L s0 { s with evt := evt' } := by
  intro p hp
  cases p
  case evt => exact absurd h_evt hp
  all_goals exact h _ hp

theorem only_set_fab {L : List Part} {s0 s : State} {fab' : Fabric}
    (h_fab : Part.fab ∈ L) (h : OnlyChanges L s0 s) :
    OnlyChanges L s0 { s with fab := fab' } := by
  intro p hp
  cases p
  case fab => exact absurd h_fab hp
  all_goals exact h _ hp

theorem only_set_fab_rng {L : List Part} {s0 s : State} {fab' : Fabric} {rng' : Rng}
    (h_fab : Part.fab ∈ L) (h_rng : Part.rng ∈ L) (h : OnlyChanges L s0 s) :
    OnlyChanges L s0 { s with fab := fab', rng := rng' } := by
  intro p hp
  cases p
  case fab => exact absurd h_fab hp
  case rng => exact absurd h_rng hp
  all_goals exact h _ hp

theorem only_set_far {L : List Part} {s0 s : State} {far' : FarPort}
    (h_far : Part.far ∈ L) (h : OnlyChanges L s0 s) :
    OnlyChanges L s0 { s with far := far' } := by
  intro p hp
  cases p
  case far => exact absurd h_far hp
  all_goals exact h _ hp

theorem only_set_far_fmp {L : List Part} {s0 s : State} {far' : FarPort} {fmp' : Fmp}
    (h_far : Part.far ∈ L) (h_fmp : Part.fmp ∈ L) (h : OnlyChanges L s0 s) :
    OnlyChanges L s0 { s with far := far', fmp := fmp' } := by
  intro p hp
  cases p
  case far => exact absurd h_far hp
  case fmp => exact absurd h_fmp hp
  all_goals exact h _ hp

theorem only_set_fmp {L : List Part} {s0 s : State} {fmp' : Fmp}
    (h_fmp : Part.fmp ∈ L) (h : OnlyChanges L s0 s) :
    OnlyChanges L s0 { s with fmp := fmp' } := by
  intro p hp
  cases p
  case fmp => exact absurd h_fmp hp
  all_goals exact h _ hp

theorem only_set_freeCtr {L : List Part} {s0 s : State} {freeCtr' : Nat}
    (h_freeCtr : Part.freeCtr ∈ L) (h : OnlyChanges L s0 s) :
    OnlyChanges L s0 { s with freeCtr := freeCtr' } := by
  intro p hp
  cases p
  case freeCtr => exact absurd h_freeCtr hp
  all_goals exact h _ hp

theorem only_set_health {L : List Part} {s0 s : State} {health' : Health}
    (h_health : Part.health ∈ L) (h : OnlyChanges L s0 s) :
    OnlyChanges L s0 { s with health := health' } := by
  intro p hp
  cases p
  case health => exact absurd h_health hp
  all_goals exact h _ hp

theorem only_set_hier {L : List Part} {s0 s : State} {hier' : Hier}
    (h_hier : Part.hier ∈ L) (h : OnlyChanges L s0 s) :
    OnlyChanges L s0 { s with hier := hier' } := by
  intro p hp
  cases p
  case hier => exact absurd h_hier hp
  all_goals exact h _ hp

theorem only_set_image {L : List Part} {s0 s : State} {image' : ImageUnit}
    (h_image : Part.image ∈ L) (h : OnlyChanges L s0 s) :
    OnlyChanges L s0 { s with image := image' } := by
  intro p hp
  cases p
  case image => exact absurd h_image hp
  all_goals exact h _ hp

theorem only_set_image_tongue {L : List Part} {s0 s : State} {image' : ImageUnit} {tongue' : Tongue}
    (h_image : Part.image ∈ L) (h_tongue : Part.tongue ∈ L) (h : OnlyChanges L s0 s) :
    OnlyChanges L s0 { s with image := image', tongue := tongue' } := by
  intro p hp
  cases p
  case image => exact absurd h_image hp
  case tongue => exact absurd h_tongue hp
  all_goals exact h _ hp

theorem only_set_kst {L : List Part} {s0 s : State} {kst' : KstPort}
    (h_kst : Part.kst ∈ L) (h : OnlyChanges L s0 s) :
    OnlyChanges L s0 { s with kst := kst' } := by
  intro p hp
  cases p
  case kst => exact absurd h_kst hp
  all_goals exact h _ hp

theorem only_set_kst_vault {L : List Part} {s0 s : State} {kst' : KstPort} {vault' : Vault}
    (h_kst : Part.kst ∈ L) (h_vault : Part.vault ∈ L) (h : OnlyChanges L s0 s) :
    OnlyChanges L s0 { s with kst := kst', vault := vault' } := by
  intro p hp
  cases p
  case kst => exact absurd h_kst hp
  case vault => exact absurd h_vault hp
  all_goals exact h _ hp

theorem only_set_lease {L : List Part} {s0 s : State} {lease' : Leases}
    (h_lease : Part.lease ∈ L) (h : OnlyChanges L s0 s) :
    OnlyChanges L s0 { s with lease := lease' } := by
  intro p hp
  cases p
  case lease => exact absurd h_lease hp
  all_goals exact h _ hp

theorem only_set_lscale {L : List Part} {s0 s : State} {lscale' : Lscale}
    (h_lscale : Part.lscale ∈ L) (h : OnlyChanges L s0 s) :
    OnlyChanges L s0 { s with lscale := lscale' } := by
  intro p hp
  cases p
  case lscale => exact absurd h_lscale hp
  all_goals exact h _ hp

theorem only_set_lscale_aux {L : List Part} {s0 s : State} {lscale' : Lscale} {aux' : Aux}
    (h_lscale : Part.lscale ∈ L) (h_aux : Part.aux ∈ L) (h : OnlyChanges L s0 s) :
    OnlyChanges L s0 { s with lscale := lscale', aux := aux' } := by
  intro p hp
  cases p
  case lscale => exact absurd h_lscale hp
  case aux => exact absurd h_aux hp
  all_goals exact h _ hp

theorem only_set_lscale_aux_verdict_hier_xch_rng {L : List Part} {s0 s : State} {lscale' : Lscale} {aux' : Aux} {verdict' : Verdict} {hier' : Hier} {xch' : Exports} {rng' : Rng}
    (h_lscale : Part.lscale ∈ L) (h_aux : Part.aux ∈ L) (h_verdict : Part.verdict ∈ L) (h_hier : Part.hier ∈ L) (h_xch : Part.xch ∈ L) (h_rng : Part.rng ∈ L) (h : OnlyChanges L s0 s) :
    OnlyChanges L s0 { s with lscale := lscale', aux := aux', verdict := verdict', hier := hier', xch := xch', rng := rng' } := by
  intro p hp
  cases p
  case lscale => exact absurd h_lscale hp
  case aux => exact absurd h_aux hp
  case verdict => exact absurd h_verdict hp
  case hier => exact absurd h_hier hp
  case xch => exact absurd h_xch hp
  case rng => exact absurd h_rng hp
  all_goals exact h _ hp

theorem only_set_mem {L : List Part} {s0 s : State} {mem' : MemPath}
    (h_mem : Part.mem ∈ L) (h : OnlyChanges L s0 s) :
    OnlyChanges L s0 { s with mem := mem' } := by
  intro p hp
  cases p
  case mem => exact absurd h_mem hp
  all_goals exact h _ hp

theorem only_set_mem_strm_pond {L : List Part} {s0 s : State} {mem' : MemPath} {strm' : Streams} {pond' : Pond}
    (h_mem : Part.mem ∈ L) (h_strm : Part.strm ∈ L) (h_pond : Part.pond ∈ L) (h : OnlyChanges L s0 s) :
    OnlyChanges L s0 { s with mem := mem', strm := strm', pond := pond' } := by
  intro p hp
  cases p
  case mem => exact absurd h_mem hp
  case strm => exact absurd h_strm hp
  case pond => exact absurd h_pond hp
  all_goals exact h _ hp

theorem only_set_memb {L : List Part} {s0 s : State} {memb' : Memb}
    (h_memb : Part.memb ∈ L) (h : OnlyChanges L s0 s) :
    OnlyChanges L s0 { s with memb := memb' } := by
  intro p hp
  cases p
  case memb => exact absurd h_memb hp
  all_goals exact h _ hp

theorem only_set_memb_verdict_hier {L : List Part} {s0 s : State} {memb' : Memb} {verdict' : Verdict} {hier' : Hier}
    (h_memb : Part.memb ∈ L) (h_verdict : Part.verdict ∈ L) (h_hier : Part.hier ∈ L) (h : OnlyChanges L s0 s) :
    OnlyChanges L s0 { s with memb := memb', verdict := verdict', hier := hier' } := by
  intro p hp
  cases p
  case memb => exact absurd h_memb hp
  case verdict => exact absurd h_verdict hp
  case hier => exact absurd h_hier hp
  all_goals exact h _ hp

theorem only_set_memb_verdict_hier_ring {L : List Part} {s0 s : State} {memb' : Memb} {verdict' : Verdict} {hier' : Hier} {ring' : Ring}
    (h_memb : Part.memb ∈ L) (h_verdict : Part.verdict ∈ L) (h_hier : Part.hier ∈ L) (h_ring : Part.ring ∈ L) (h : OnlyChanges L s0 s) :
    OnlyChanges L s0 { s with memb := memb', verdict := verdict', hier := hier', ring := ring' } := by
  intro p hp
  cases p
  case memb => exact absurd h_memb hp
  case verdict => exact absurd h_verdict hp
  case hier => exact absurd h_hier hp
  case ring => exact absurd h_ring hp
  all_goals exact h _ hp

theorem only_set_pond {L : List Part} {s0 s : State} {pond' : Pond}
    (h_pond : Part.pond ∈ L) (h : OnlyChanges L s0 s) :
    OnlyChanges L s0 { s with pond := pond' } := by
  intro p hp
  cases p
  case pond => exact absurd h_pond hp
  all_goals exact h _ hp

theorem only_set_power {L : List Part} {s0 s : State} {power' : Power}
    (h_power : Part.power ∈ L) (h : OnlyChanges L s0 s) :
    OnlyChanges L s0 { s with power := power' } := by
  intro p hp
  cases p
  case power => exact absurd h_power hp
  all_goals exact h _ hp

theorem only_set_power_evt {L : List Part} {s0 s : State} {power' : Power} {evt' : EventPort}
    (h_power : Part.power ∈ L) (h_evt : Part.evt ∈ L) (h : OnlyChanges L s0 s) :
    OnlyChanges L s0 { s with power := power', evt := evt' } := by
  intro p hp
  cases p
  case power => exact absurd h_power hp
  case evt => exact absurd h_evt hp
  all_goals exact h _ hp

theorem only_set_power_health_snap_evt_mem_image_step_stepk_lscale_aux_ttab_swp_sweep_fab_tongue_memb_verdict_hier_lease_strm_pond_queues_xch_far_rng_east_west_ring_fmp {L : List Part} {s0 s : State} {power' : Power} {health' : Health} {snap' : Snapshot} {evt' : EventPort} {mem' : MemPath} {image' : ImageUnit} {step' : StepUnit} {stepk' : Stepk} {lscale' : Lscale} {aux' : Aux} {ttab' : Ttab} {swp' : Swp} {sweep' : SweepUnit} {fab' : Fabric} {tongue' : Tongue} {memb' : Memb} {verdict' : Verdict} {hier' : Hier} {lease' : Leases} {strm' : Streams} {pond' : Pond} {queues' : List PadQueue} {xch' : Exports} {far' : FarPort} {rng' : Rng} {east' : LinkEnd} {west' : LinkEnd} {ring' : Ring} {fmp' : Fmp}
    (h_power : Part.power ∈ L) (h_health : Part.health ∈ L) (h_snap : Part.snap ∈ L) (h_evt : Part.evt ∈ L) (h_mem : Part.mem ∈ L) (h_image : Part.image ∈ L) (h_step : Part.step ∈ L) (h_stepk : Part.stepk ∈ L) (h_lscale : Part.lscale ∈ L) (h_aux : Part.aux ∈ L) (h_ttab : Part.ttab ∈ L) (h_swp : Part.swp ∈ L) (h_sweep : Part.sweep ∈ L) (h_fab : Part.fab ∈ L) (h_tongue : Part.tongue ∈ L) (h_memb : Part.memb ∈ L) (h_verdict : Part.verdict ∈ L) (h_hier : Part.hier ∈ L) (h_lease : Part.lease ∈ L) (h_strm : Part.strm ∈ L) (h_pond : Part.pond ∈ L) (h_queues : Part.queues ∈ L) (h_xch : Part.xch ∈ L) (h_far : Part.far ∈ L) (h_rng : Part.rng ∈ L) (h_east : Part.east ∈ L) (h_west : Part.west ∈ L) (h_ring : Part.ring ∈ L) (h_fmp : Part.fmp ∈ L) (h : OnlyChanges L s0 s) :
    OnlyChanges L s0 { s with power := power', health := health', snap := snap', evt := evt', mem := mem', image := image', step := step', stepk := stepk', lscale := lscale', aux := aux', ttab := ttab', swp := swp', sweep := sweep', fab := fab', tongue := tongue', memb := memb', verdict := verdict', hier := hier', lease := lease', strm := strm', pond := pond', queues := queues', xch := xch', far := far', rng := rng', east := east', west := west', ring := ring', fmp := fmp' } := by
  intro p hp
  cases p
  case power => exact absurd h_power hp
  case health => exact absurd h_health hp
  case snap => exact absurd h_snap hp
  case evt => exact absurd h_evt hp
  case mem => exact absurd h_mem hp
  case image => exact absurd h_image hp
  case step => exact absurd h_step hp
  case stepk => exact absurd h_stepk hp
  case lscale => exact absurd h_lscale hp
  case aux => exact absurd h_aux hp
  case ttab => exact absurd h_ttab hp
  case swp => exact absurd h_swp hp
  case sweep => exact absurd h_sweep hp
  case fab => exact absurd h_fab hp
  case tongue => exact absurd h_tongue hp
  case memb => exact absurd h_memb hp
  case verdict => exact absurd h_verdict hp
  case hier => exact absurd h_hier hp
  case lease => exact absurd h_lease hp
  case strm => exact absurd h_strm hp
  case pond => exact absurd h_pond hp
  case queues => exact absurd h_queues hp
  case xch => exact absurd h_xch hp
  case far => exact absurd h_far hp
  case rng => exact absurd h_rng hp
  case east => exact absurd h_east hp
  case west => exact absurd h_west hp
  case ring => exact absurd h_ring hp
  case fmp => exact absurd h_fmp hp
  all_goals exact h _ hp

theorem only_set_queues {L : List Part} {s0 s : State} {queues' : List PadQueue}
    (h_queues : Part.queues ∈ L) (h : OnlyChanges L s0 s) :
    OnlyChanges L s0 { s with queues := queues' } := by
  intro p hp
  cases p
  case queues => exact absurd h_queues hp
  all_goals exact h _ hp

theorem only_set_ring {L : List Part} {s0 s : State} {ring' : Ring}
    (h_ring : Part.ring ∈ L) (h : OnlyChanges L s0 s) :
    OnlyChanges L s0 { s with ring := ring' } := by
  intro p hp
  cases p
  case ring => exact absurd h_ring hp
  all_goals exact h _ hp

theorem only_set_rng {L : List Part} {s0 s : State} {rng' : Rng}
    (h_rng : Part.rng ∈ L) (h : OnlyChanges L s0 s) :
    OnlyChanges L s0 { s with rng := rng' } := by
  intro p hp
  cases p
  case rng => exact absurd h_rng hp
  all_goals exact h _ hp

theorem only_set_rng_fmp {L : List Part} {s0 s : State} {rng' : Rng} {fmp' : Fmp}
    (h_rng : Part.rng ∈ L) (h_fmp : Part.fmp ∈ L) (h : OnlyChanges L s0 s) :
    OnlyChanges L s0 { s with rng := rng', fmp := fmp' } := by
  intro p hp
  cases p
  case rng => exact absurd h_rng hp
  case fmp => exact absurd h_fmp hp
  all_goals exact h _ hp

theorem only_set_snap {L : List Part} {s0 s : State} {snap' : Snapshot}
    (h_snap : Part.snap ∈ L) (h : OnlyChanges L s0 s) :
    OnlyChanges L s0 { s with snap := snap' } := by
  intro p hp
  cases p
  case snap => exact absurd h_snap hp
  all_goals exact h _ hp

theorem only_set_stack {L : List Part} {s0 s : State} {stack' : List Host.Cell}
    (h_stack : Part.stack ∈ L) (h : OnlyChanges L s0 s) :
    OnlyChanges L s0 { s with stack := stack' } := by
  intro p hp
  cases p
  case stack => exact absurd h_stack hp
  all_goals exact h _ hp

theorem only_set_step {L : List Part} {s0 s : State} {step' : StepUnit}
    (h_step : Part.step ∈ L) (h : OnlyChanges L s0 s) :
    OnlyChanges L s0 { s with step := step' } := by
  intro p hp
  cases p
  case step => exact absurd h_step hp
  all_goals exact h _ hp

theorem only_set_step_aux {L : List Part} {s0 s : State} {step' : StepUnit} {aux' : Aux}
    (h_step : Part.step ∈ L) (h_aux : Part.aux ∈ L) (h : OnlyChanges L s0 s) :
    OnlyChanges L s0 { s with step := step', aux := aux' } := by
  intro p hp
  cases p
  case step => exact absurd h_step hp
  case aux => exact absurd h_aux hp
  all_goals exact h _ hp

theorem only_set_step_aux_tongue {L : List Part} {s0 s : State} {step' : StepUnit} {aux' : Aux} {tongue' : Tongue}
    (h_step : Part.step ∈ L) (h_aux : Part.aux ∈ L) (h_tongue : Part.tongue ∈ L) (h : OnlyChanges L s0 s) :
    OnlyChanges L s0 { s with step := step', aux := aux', tongue := tongue' } := by
  intro p hp
  cases p
  case step => exact absurd h_step hp
  case aux => exact absurd h_aux hp
  case tongue => exact absurd h_tongue hp
  all_goals exact h _ hp

theorem only_set_step_aux_tongue_verdict_hier_xch_rng {L : List Part} {s0 s : State} {step' : StepUnit} {aux' : Aux} {tongue' : Tongue} {verdict' : Verdict} {hier' : Hier} {xch' : Exports} {rng' : Rng}
    (h_step : Part.step ∈ L) (h_aux : Part.aux ∈ L) (h_tongue : Part.tongue ∈ L) (h_verdict : Part.verdict ∈ L) (h_hier : Part.hier ∈ L) (h_xch : Part.xch ∈ L) (h_rng : Part.rng ∈ L) (h : OnlyChanges L s0 s) :
    OnlyChanges L s0 { s with step := step', aux := aux', tongue := tongue', verdict := verdict', hier := hier', xch := xch', rng := rng' } := by
  intro p hp
  cases p
  case step => exact absurd h_step hp
  case aux => exact absurd h_aux hp
  case tongue => exact absurd h_tongue hp
  case verdict => exact absurd h_verdict hp
  case hier => exact absurd h_hier hp
  case xch => exact absurd h_xch hp
  case rng => exact absurd h_rng hp
  all_goals exact h _ hp

theorem only_set_step_aux_tongue_verdict_xch_rng {L : List Part} {s0 s : State} {step' : StepUnit} {aux' : Aux} {tongue' : Tongue} {verdict' : Verdict} {xch' : Exports} {rng' : Rng}
    (h_step : Part.step ∈ L) (h_aux : Part.aux ∈ L) (h_tongue : Part.tongue ∈ L) (h_verdict : Part.verdict ∈ L) (h_xch : Part.xch ∈ L) (h_rng : Part.rng ∈ L) (h : OnlyChanges L s0 s) :
    OnlyChanges L s0 { s with step := step', aux := aux', tongue := tongue', verdict := verdict', xch := xch', rng := rng' } := by
  intro p hp
  cases p
  case step => exact absurd h_step hp
  case aux => exact absurd h_aux hp
  case tongue => exact absurd h_tongue hp
  case verdict => exact absurd h_verdict hp
  case xch => exact absurd h_xch hp
  case rng => exact absurd h_rng hp
  all_goals exact h _ hp

theorem only_set_step_lscale {L : List Part} {s0 s : State} {step' : StepUnit} {lscale' : Lscale}
    (h_step : Part.step ∈ L) (h_lscale : Part.lscale ∈ L) (h : OnlyChanges L s0 s) :
    OnlyChanges L s0 { s with step := step', lscale := lscale' } := by
  intro p hp
  cases p
  case step => exact absurd h_step hp
  case lscale => exact absurd h_lscale hp
  all_goals exact h _ hp

theorem only_set_step_lscale_aux {L : List Part} {s0 s : State} {step' : StepUnit} {lscale' : Lscale} {aux' : Aux}
    (h_step : Part.step ∈ L) (h_lscale : Part.lscale ∈ L) (h_aux : Part.aux ∈ L) (h : OnlyChanges L s0 s) :
    OnlyChanges L s0 { s with step := step', lscale := lscale', aux := aux' } := by
  intro p hp
  cases p
  case step => exact absurd h_step hp
  case lscale => exact absurd h_lscale hp
  case aux => exact absurd h_aux hp
  all_goals exact h _ hp

theorem only_set_step_lscale_sweep {L : List Part} {s0 s : State} {step' : StepUnit} {lscale' : Lscale} {sweep' : SweepUnit}
    (h_step : Part.step ∈ L) (h_lscale : Part.lscale ∈ L) (h_sweep : Part.sweep ∈ L) (h : OnlyChanges L s0 s) :
    OnlyChanges L s0 { s with step := step', lscale := lscale', sweep := sweep' } := by
  intro p hp
  cases p
  case step => exact absurd h_step hp
  case lscale => exact absurd h_lscale hp
  case sweep => exact absurd h_sweep hp
  all_goals exact h _ hp

theorem only_set_step_stepk {L : List Part} {s0 s : State} {step' : StepUnit} {stepk' : Stepk}
    (h_step : Part.step ∈ L) (h_stepk : Part.stepk ∈ L) (h : OnlyChanges L s0 s) :
    OnlyChanges L s0 { s with step := step', stepk := stepk' } := by
  intro p hp
  cases p
  case step => exact absurd h_step hp
  case stepk => exact absurd h_stepk hp
  all_goals exact h _ hp

theorem only_set_step_tongue {L : List Part} {s0 s : State} {step' : StepUnit} {tongue' : Tongue}
    (h_step : Part.step ∈ L) (h_tongue : Part.tongue ∈ L) (h : OnlyChanges L s0 s) :
    OnlyChanges L s0 { s with step := step', tongue := tongue' } := by
  intro p hp
  cases p
  case step => exact absurd h_step hp
  case tongue => exact absurd h_tongue hp
  all_goals exact h _ hp

theorem only_set_step_tongue_hier {L : List Part} {s0 s : State} {step' : StepUnit} {tongue' : Tongue} {hier' : Hier}
    (h_step : Part.step ∈ L) (h_tongue : Part.tongue ∈ L) (h_hier : Part.hier ∈ L) (h : OnlyChanges L s0 s) :
    OnlyChanges L s0 { s with step := step', tongue := tongue', hier := hier' } := by
  intro p hp
  cases p
  case step => exact absurd h_step hp
  case tongue => exact absurd h_tongue hp
  case hier => exact absurd h_hier hp
  all_goals exact h _ hp

theorem only_set_step_tongue_verdict_hier {L : List Part} {s0 s : State} {step' : StepUnit} {tongue' : Tongue} {verdict' : Verdict} {hier' : Hier}
    (h_step : Part.step ∈ L) (h_tongue : Part.tongue ∈ L) (h_verdict : Part.verdict ∈ L) (h_hier : Part.hier ∈ L) (h : OnlyChanges L s0 s) :
    OnlyChanges L s0 { s with step := step', tongue := tongue', verdict := verdict', hier := hier' } := by
  intro p hp
  cases p
  case step => exact absurd h_step hp
  case tongue => exact absurd h_tongue hp
  case verdict => exact absurd h_verdict hp
  case hier => exact absurd h_hier hp
  all_goals exact h _ hp

theorem only_set_step_verdict {L : List Part} {s0 s : State} {step' : StepUnit} {verdict' : Verdict}
    (h_step : Part.step ∈ L) (h_verdict : Part.verdict ∈ L) (h : OnlyChanges L s0 s) :
    OnlyChanges L s0 { s with step := step', verdict := verdict' } := by
  intro p hp
  cases p
  case step => exact absurd h_step hp
  case verdict => exact absurd h_verdict hp
  all_goals exact h _ hp

theorem only_set_step_verdict_ring {L : List Part} {s0 s : State} {step' : StepUnit} {verdict' : Verdict} {ring' : Ring}
    (h_step : Part.step ∈ L) (h_verdict : Part.verdict ∈ L) (h_ring : Part.ring ∈ L) (h : OnlyChanges L s0 s) :
    OnlyChanges L s0 { s with step := step', verdict := verdict', ring := ring' } := by
  intro p hp
  cases p
  case step => exact absurd h_step hp
  case verdict => exact absurd h_verdict hp
  case ring => exact absurd h_ring hp
  all_goals exact h _ hp

theorem only_set_stepk {L : List Part} {s0 s : State} {stepk' : Stepk}
    (h_stepk : Part.stepk ∈ L) (h : OnlyChanges L s0 s) :
    OnlyChanges L s0 { s with stepk := stepk' } := by
  intro p hp
  cases p
  case stepk => exact absurd h_stepk hp
  all_goals exact h _ hp

theorem only_set_strm {L : List Part} {s0 s : State} {strm' : Streams}
    (h_strm : Part.strm ∈ L) (h : OnlyChanges L s0 s) :
    OnlyChanges L s0 { s with strm := strm' } := by
  intro p hp
  cases p
  case strm => exact absurd h_strm hp
  all_goals exact h _ hp

theorem only_set_strm_pond {L : List Part} {s0 s : State} {strm' : Streams} {pond' : Pond}
    (h_strm : Part.strm ∈ L) (h_pond : Part.pond ∈ L) (h : OnlyChanges L s0 s) :
    OnlyChanges L s0 { s with strm := strm', pond := pond' } := by
  intro p hp
  cases p
  case strm => exact absurd h_strm hp
  case pond => exact absurd h_pond hp
  all_goals exact h _ hp

theorem only_set_sweep {L : List Part} {s0 s : State} {sweep' : SweepUnit}
    (h_sweep : Part.sweep ∈ L) (h : OnlyChanges L s0 s) :
    OnlyChanges L s0 { s with sweep := sweep' } := by
  intro p hp
  cases p
  case sweep => exact absurd h_sweep hp
  all_goals exact h _ hp

theorem only_set_swp {L : List Part} {s0 s : State} {swp' : Swp}
    (h_swp : Part.swp ∈ L) (h : OnlyChanges L s0 s) :
    OnlyChanges L s0 { s with swp := swp' } := by
  intro p hp
  cases p
  case swp => exact absurd h_swp hp
  all_goals exact h _ hp

theorem only_set_tongue {L : List Part} {s0 s : State} {tongue' : Tongue}
    (h_tongue : Part.tongue ∈ L) (h : OnlyChanges L s0 s) :
    OnlyChanges L s0 { s with tongue := tongue' } := by
  intro p hp
  cases p
  case tongue => exact absurd h_tongue hp
  all_goals exact h _ hp

theorem only_set_ttab {L : List Part} {s0 s : State} {ttab' : Ttab}
    (h_ttab : Part.ttab ∈ L) (h : OnlyChanges L s0 s) :
    OnlyChanges L s0 { s with ttab := ttab' } := by
  intro p hp
  cases p
  case ttab => exact absurd h_ttab hp
  all_goals exact h _ hp

theorem only_set_vault {L : List Part} {s0 s : State} {vault' : Vault}
    (h_vault : Part.vault ∈ L) (h : OnlyChanges L s0 s) :
    OnlyChanges L s0 { s with vault := vault' } := by
  intro p hp
  cases p
  case vault => exact absurd h_vault hp
  all_goals exact h _ hp

theorem only_set_verdict {L : List Part} {s0 s : State} {verdict' : Verdict}
    (h_verdict : Part.verdict ∈ L) (h : OnlyChanges L s0 s) :
    OnlyChanges L s0 { s with verdict := verdict' } := by
  intro p hp
  cases p
  case verdict => exact absurd h_verdict hp
  all_goals exact h _ hp

theorem only_set_verdict_hier {L : List Part} {s0 s : State} {verdict' : Verdict} {hier' : Hier}
    (h_verdict : Part.verdict ∈ L) (h_hier : Part.hier ∈ L) (h : OnlyChanges L s0 s) :
    OnlyChanges L s0 { s with verdict := verdict', hier := hier' } := by
  intro p hp
  cases p
  case verdict => exact absurd h_verdict hp
  case hier => exact absurd h_hier hp
  all_goals exact h _ hp

theorem only_set_verdict_ring {L : List Part} {s0 s : State} {verdict' : Verdict} {ring' : Ring}
    (h_verdict : Part.verdict ∈ L) (h_ring : Part.ring ∈ L) (h : OnlyChanges L s0 s) :
    OnlyChanges L s0 { s with verdict := verdict', ring := ring' } := by
  intro p hp
  cases p
  case verdict => exact absurd h_verdict hp
  case ring => exact absurd h_ring hp
  all_goals exact h _ hp

theorem only_set_west {L : List Part} {s0 s : State} {west' : LinkEnd}
    (h_west : Part.west ∈ L) (h : OnlyChanges L s0 s) :
    OnlyChanges L s0 { s with west := west' } := by
  intro p hp
  cases p
  case west => exact absurd h_west hp
  all_goals exact h _ hp

theorem only_set_xch {L : List Part} {s0 s : State} {xch' : Exports}
    (h_xch : Part.xch ∈ L) (h : OnlyChanges L s0 s) :
    OnlyChanges L s0 { s with xch := xch' } := by
  intro p hp
  cases p
  case xch => exact absurd h_xch hp
  all_goals exact h _ hp

end Sys2Proof.Machine
end

