-- ==== Sys2Proof/Laws/OnlyOps.lean ====
section
/-! SUPPORT. Which parts of the state each operation of Machine/Ops.lean may change (Laws/Only.lean). -/
namespace Sys2Proof.Machine

-- the proofs below are one script for many operations, of which each uses its own part
set_option linter.unusedTactic false
set_option linter.unreachableTactic false

theorem only_countMp {L : List Part} {s0 s : State} (i n : Nat) (hL : ([.mem] : List Part) ⊆ L)
    (hgood : OnlyChanges L s0 s) : OnlyChanges L s0 (countMp i n s) := by
  unfold countMp
  try dsimp only
  repeat' first
    | with_reducible assumption
    | with_reducible apply only_set_mem
    | (with_reducible refine only_in hL ?_; decide)

theorem only_countFab {L : List Part} {s0 s : State} (i n : Nat) (hL : ([.fab] : List Part) ⊆ L)
    (hgood : OnlyChanges L s0 s) : OnlyChanges L s0 (countFab i n s) := by
  unfold countFab
  try dsimp only
  repeat' first
    | with_reducible assumption
    | with_reducible apply only_ite
    | split
    | with_reducible apply only_set_fab
    | (with_reducible refine only_in hL ?_; decide)

theorem only_countSweep {L : List Part} {s0 s : State} (i n : Nat) (hL : ([.sweep] : List Part) ⊆ L)
    (hgood : OnlyChanges L s0 s) : OnlyChanges L s0 (countSweep i n s) := by
  unfold countSweep
  try dsimp only
  repeat' first
    | with_reducible assumption
    | with_reducible apply only_set_sweep
    | (with_reducible refine only_in hL ?_; decide)

theorem only_countTongue {L : List Part} {s0 s : State} (i n : Nat) (hL : ([.tongue] : List Part) ⊆ L)
    (hgood : OnlyChanges L s0 s) : OnlyChanges L s0 (countTongue i n s) := by
  unfold countTongue
  try dsimp only
  repeat' first
    | with_reducible assumption
    | with_reducible apply only_set_tongue
    | (with_reducible refine only_in hL ?_; decide)

theorem only_countHier {L : List Part} {s0 s : State} (i n : Nat) (hL : ([.hier] : List Part) ⊆ L)
    (hgood : OnlyChanges L s0 s) : OnlyChanges L s0 (countHier i n s) := by
  unfold countHier
  try dsimp only
  repeat' first
    | with_reducible assumption
    | with_reducible apply only_set_hier
    | (with_reducible refine only_in hL ?_; decide)

theorem only_countStrm {L : List Part} {s0 s : State} (i n : Nat) (hL : ([.strm] : List Part) ⊆ L)
    (hgood : OnlyChanges L s0 s) : OnlyChanges L s0 (countStrm i n s) := by
  unfold countStrm
  try dsimp only
  repeat' first
    | with_reducible assumption
    | with_reducible apply only_set_strm
    | (with_reducible refine only_in hL ?_; decide)

theorem only_countXch {L : List Part} {s0 s : State} (i n : Nat) (hL : ([.xch] : List Part) ⊆ L)
    (hgood : OnlyChanges L s0 s) : OnlyChanges L s0 (countXch i n s) := by
  unfold countXch
  try dsimp only
  repeat' first
    | with_reducible assumption
    | with_reducible apply only_set_xch
    | (with_reducible refine only_in hL ?_; decide)

theorem only_countPort {L : List Part} {s0 s : State} (i n : Nat) (hL : ([.far] : List Part) ⊆ L)
    (hgood : OnlyChanges L s0 s) : OnlyChanges L s0 (countPort i n s) := by
  unfold countPort
  try dsimp only
  repeat' first
    | with_reducible assumption
    | with_reducible apply only_set_far
    | (with_reducible refine only_in hL ?_; decide)

theorem only_countRng {L : List Part} {s0 s : State} (i n : Nat) (hL : ([.rng] : List Part) ⊆ L)
    (hgood : OnlyChanges L s0 s) : OnlyChanges L s0 (countRng i n s) := by
  unfold countRng
  try dsimp only
  repeat' first
    | with_reducible assumption
    | with_reducible apply only_set_rng
    | (with_reducible refine only_in hL ?_; decide)

theorem only_countFmp {L : List Part} {s0 s : State} (i n : Nat) (hL : ([.fmp] : List Part) ⊆ L)
    (hgood : OnlyChanges L s0 s) : OnlyChanges L s0 (countFmp i n s) := by
  unfold countFmp
  try dsimp only
  repeat' first
    | with_reducible assumption
    | with_reducible apply only_set_fmp
    | (with_reducible refine only_in hL ?_; decide)

theorem only_countHealth {L : List Part} {s0 s : State} (i n : Nat) (hL : ([.health] : List Part) ⊆ L)
    (hgood : OnlyChanges L s0 s) : OnlyChanges L s0 (countHealth i n s) := by
  unfold countHealth
  try dsimp only
  repeat' first
    | with_reducible assumption
    | with_reducible apply only_set_health
    | (with_reducible refine only_in hL ?_; decide)

theorem only_report {L : List Part} {s0 s : State} (code : BitVec 16) (arg : Word) (hL : ([.health] : List Part) ⊆ L)
    (hgood : OnlyChanges L s0 s) : OnlyChanges L s0 (report code arg s) := by
  unfold report
  try dsimp only
  repeat' first
    | with_reducible assumption
    | with_reducible apply only_set_health
    | (with_reducible refine only_in hL ?_; decide)

theorem only_pulse {L : List Part} {s0 s : State} (line : BitVec 6) (hL : ([.evt] : List Part) ⊆ L)
    (hgood : OnlyChanges L s0 s) : OnlyChanges L s0 (pulse line s) := by
  unfold pulse
  try dsimp only
  repeat' first
    | with_reducible assumption
    | with_reducible apply only_ite
    | split
    | with_reducible apply only_set_evt
    | (with_reducible refine only_in hL ?_; decide)

theorem only_croakReport {L : List Part} {s0 s : State} (new : BitVec 8) (hL : ([.health] : List Part) ⊆ L)
    (hgood : OnlyChanges L s0 s) : OnlyChanges L s0 (croakReport new s) := by
  unfold croakReport
  try dsimp only
  repeat' first
    | with_reducible assumption
    | with_reducible apply only_report
    | (with_reducible refine List.Subset.trans ?_ hL; decide)
    | with_reducible apply only_ite
    | split
    | with_reducible apply only_set_health
    | (with_reducible refine only_in hL ?_; decide)

theorem only_croakSet {L : List Part} {s0 s : State} (causes : BitVec 8) (hL : ([.health, .evt] : List Part) ⊆ L)
    (hgood : OnlyChanges L s0 s) : OnlyChanges L s0 (croakSet causes s) := by
  unfold croakSet
  try dsimp only
  repeat' first
    | with_reducible assumption
    | with_reducible apply only_croakReport
    | with_reducible apply only_pulse
    | with_reducible apply only_countHealth
    | (with_reducible refine List.Subset.trans ?_ hL; decide)
    | with_reducible apply only_ite
    | split
    | with_reducible apply only_set_health
    | (with_reducible refine only_in hL ?_; decide)

theorem only_wakeFromRetain {L : List Part} {s0 s : State}  (hL : ([.power] : List Part) ⊆ L)
    (hgood : OnlyChanges L s0 s) : OnlyChanges L s0 (wakeFromRetain s) := by
  unfold wakeFromRetain
  try dsimp only
  repeat' first
    | with_reducible assumption
    | with_reducible apply only_ite
    | split
    | with_reducible apply only_set_power
    | (with_reducible refine only_in hL ?_; decide)

theorem only_respond {L : List Part} {s0 s : State} (code : BitVec 8) (hL : ([.ctl] : List Part) ⊆ L)
    (hgood : OnlyChanges L s0 s) : OnlyChanges L s0 (respond code s) := by
  unfold respond
  try dsimp only
  repeat' first
    | with_reducible assumption
    | with_reducible apply only_set_ctl
    | (with_reducible refine only_in hL ?_; decide)

theorem only_unmapped {L : List Part} {s0 s : State}  (hL : ([.ctl, .far] : List Part) ⊆ L)
    (hgood : OnlyChanges L s0 s) : OnlyChanges L s0 (unmapped s) := by
  unfold unmapped
  try dsimp only
  repeat' first
    | with_reducible assumption
    | with_reducible apply only_respond
    | with_reducible apply only_countPort
    | (with_reducible refine List.Subset.trans ?_ hL; decide)

theorem only_ctlWrite {L : List Part} {s0 s : State} (addr : Addr24) (w : Word) (eff : State → State) (heff : ∀ x, OnlyChanges L s0 x → OnlyChanges L s0 (eff x)) (hL : ([.health, .ctl, .far] : List Part) ⊆ L)
    (hgood : OnlyChanges L s0 s) : OnlyChanges L s0 (ctlWrite addr w eff s) := by
  unfold ctlWrite
  try dsimp only
  repeat' first
    | with_reducible assumption
    | with_reducible apply only_unmapped
    | with_reducible apply only_respond
    | with_reducible apply only_report
    | apply heff
    | (with_reducible refine List.Subset.trans ?_ hL; decide)
    | with_reducible apply only_ite
    | split

theorem only_setMem {L : List Part} {s0 s : State} (f : MemPath → MemPath) (hL : ([.mem] : List Part) ⊆ L)
    (hgood : OnlyChanges L s0 s) : OnlyChanges L s0 (setMem f s) := by
  unfold setMem
  try dsimp only
  repeat' first
    | with_reducible assumption
    | with_reducible apply only_set_mem
    | (with_reducible refine only_in hL ?_; decide)

theorem only_arbitrate {L : List Part} {s0 s : State} (r : MemReq) (hL : ([.mem] : List Part) ⊆ L)
    (hgood : OnlyChanges L s0 s) : OnlyChanges L s0 (arbitrate r s) := by
  unfold arbitrate
  try dsimp only
  repeat' first
    | with_reducible assumption
    | with_reducible apply only_setMem
    | (with_reducible refine List.Subset.trans ?_ hL; decide)

theorem only_wcbFlush {L : List Part} {s0 s : State} (e : WcbEntry) (hL : ([.mem] : List Part) ⊆ L)
    (hgood : OnlyChanges L s0 s) : OnlyChanges L s0 (wcbFlush e s) := by
  unfold wcbFlush
  try dsimp only
  repeat' first
    | with_reducible assumption
    | with_reducible apply only_arbitrate
    | with_reducible apply only_setMem
    | (with_reducible refine List.Subset.trans ?_ hL; decide)

theorem only_wcbFlushLine {L : List Part} {s0 s : State} (line : BitVec 34) (hL : ([.mem] : List Part) ⊆ L)
    (hgood : OnlyChanges L s0 s) : OnlyChanges L s0 (wcbFlushLine line s) := by
  unfold wcbFlushLine
  try dsimp only
  repeat' first
    | with_reducible assumption
    | with_reducible apply only_wcbFlush
    | (with_reducible refine List.Subset.trans ?_ hL; decide)
    | split

theorem only_wcbWrite {L : List Part} {s0 s : State} (r : MemReq) (hL : ([.mem] : List Part) ⊆ L)
    (hgood : OnlyChanges L s0 s) : OnlyChanges L s0 (wcbWrite r s) := by
  unfold wcbWrite
  try dsimp only
  repeat' first
    | with_reducible assumption
    | with_reducible apply only_wcbFlush
    | with_reducible apply only_setMem
    | with_reducible apply only_countMp
    | (with_reducible refine List.Subset.trans ?_ hL; decide)
    | with_reducible apply only_ite
    | split

theorem only_enqueue {L : List Part} {s0 s : State} (r : MemReq) (hL : ([.mem] : List Part) ⊆ L)
    (hgood : OnlyChanges L s0 s) : OnlyChanges L s0 (enqueue r s) := by
  unfold enqueue
  try dsimp only
  repeat' first
    | with_reducible assumption
    | with_reducible apply only_wcbWrite
    | with_reducible apply only_wcbFlushLine
    | with_reducible apply only_arbitrate
    | (with_reducible refine List.Subset.trans ?_ hL; decide)
    | with_reducible apply only_ite
    | split

theorem only_enqueueAll {L : List Part} {s0 s : State} (rs : List MemReq) (hL : ([.mem] : List Part) ⊆ L)
    (hgood : OnlyChanges L s0 s) : OnlyChanges L s0 (enqueueAll rs s) := by
  unfold enqueueAll
  try dsimp only
  repeat' first
    | with_reducible assumption
    | with_reducible apply only_enqueue
    | (with_reducible refine List.Subset.trans ?_ hL; decide)
    | intro _ _ _
    | with_reducible apply only_foldl

theorem only_drawFree {L : List Part} {s0 s : State}  (hL : ([.freeCtr] : List Part) ⊆ L)
    (hgood : OnlyChanges L s0 s) : OnlyChanges L s0 (drawFree s).2 := by
  unfold drawFree
  try dsimp only
  repeat' first
    | with_reducible assumption
    | with_reducible apply only_set_freeCtr
    | (with_reducible refine only_in hL ?_; decide)

theorem only_drawFree_eq {L : List Part} {s0 s t : State} {a : Word}  (hL : ([.freeCtr] : List Part) ⊆ L)
    (heq : drawFree s = (a, t)) (hgood : OnlyChanges L s0 s) : OnlyChanges L s0 t := by
  have h := only_drawFree  hL hgood
  rw [heq] at h
  exact h

theorem only_setChan {L : List Part} {s0 s : State} (n : Nat) (f : StreamCh → StreamCh) (hL : ([.strm] : List Part) ⊆ L)
    (hgood : OnlyChanges L s0 s) : OnlyChanges L s0 (setChan n f s) := by
  unfold setChan
  try dsimp only
  repeat' first
    | with_reducible assumption
    | with_reducible apply only_set_strm
    | (with_reducible refine only_in hL ?_; decide)

theorem only_setXch {L : List Part} {s0 s : State} (k : Nat) (f : XChan → XChan) (hL : ([.xch] : List Part) ⊆ L)
    (hgood : OnlyChanges L s0 s) : OnlyChanges L s0 (setXch k f s) := by
  unfold setXch
  try dsimp only
  repeat' first
    | with_reducible assumption
    | with_reducible apply only_set_xch
    | (with_reducible refine only_in hL ?_; decide)

theorem only_setQueue {L : List Part} {s0 s : State} (q : Nat) (f : PadQueue → PadQueue) (hL : ([.queues] : List Part) ⊆ L)
    (hgood : OnlyChanges L s0 s) : OnlyChanges L s0 (setQueue q f s) := by
  unfold setQueue
  try dsimp only
  repeat' first
    | with_reducible assumption
    | with_reducible apply only_set_queues
    | (with_reducible refine only_in hL ?_; decide)

theorem only_setLink {L : List Part} {s0 s : State} (d : Side) (f : LinkEnd → LinkEnd) (hL : ([.east, .west] : List Part) ⊆ L)
    (hgood : OnlyChanges L s0 s) : OnlyChanges L s0 (setLink d f s) := by
  unfold setLink
  try dsimp only
  repeat' first
    | with_reducible assumption
    | split
    | with_reducible apply only_set_east
    | with_reducible apply only_set_west
    | with_reducible apply only_set_east_west
    | (with_reducible refine only_in hL ?_; decide)

theorem only_countLink {L : List Part} {s0 s : State} (d : Side) (i n : Nat) (hL : ([.east, .west] : List Part) ⊆ L)
    (hgood : OnlyChanges L s0 s) : OnlyChanges L s0 (countLink d i n s) := by
  unfold countLink
  try dsimp only
  repeat' first
    | with_reducible assumption
    | with_reducible apply only_setLink
    | (with_reducible refine List.Subset.trans ?_ hL; decide)

theorem only_dropReads {L : List Part} {s0 s : State} (p : Who → Bool) (hL : ([.mem] : List Part) ⊆ L)
    (hgood : OnlyChanges L s0 s) : OnlyChanges L s0 (dropReads p s) := by
  unfold dropReads
  try dsimp only
  repeat' first
    | with_reducible assumption
    | with_reducible apply only_ite
    | split
    | with_reducible apply only_set_mem
    | (with_reducible refine only_in hL ?_; decide)

theorem only_forgetMem {L : List Part} {s0 s : State} (p : Who → Bool) (hL : ([.mem] : List Part) ⊆ L)
    (hgood : OnlyChanges L s0 s) : OnlyChanges L s0 (forgetMem p s) := by
  unfold forgetMem
  try dsimp only
  repeat' first
    | with_reducible assumption
    | with_reducible apply only_dropReads
    | (with_reducible refine List.Subset.trans ?_ hL; decide)
    | with_reducible apply only_ite
    | split
    | with_reducible apply only_set_mem
    | (with_reducible refine only_in hL ?_; decide)

end Sys2Proof.Machine
end

