-- ==== Sys2Proof/Laws/OnlyPond.lean ====
section
/-! SUPPORT. Which parts of the state each operation of Machine/Pond.lean may change (Laws/Only.lean). -/
namespace Sys2Proof.Machine

-- the proofs below are one script for many operations, of which each uses its own part
set_option linter.unusedTactic false
set_option linter.unreachableTactic false

theorem only_setPad {L : List Part} {s0 s : State} (i : Nat) (f : Pad → Pad) (hL : ([.pond] : List Part) ⊆ L)
    (hgood : OnlyChanges L s0 s) : OnlyChanges L s0 (setPad i f s) := by
  unfold setPad
  try dsimp only
  repeat' first
    | with_reducible assumption
    | with_reducible apply only_set_pond
    | (with_reducible refine only_in hL ?_; decide)

theorem only_padFreeInvalid {L : List Part} {s0 s : State} (reason : BitVec 2) (handle : BitVec 16) (freer : BitVec 6) (hL : ([.health, .strm, .pond] : List Part) ⊆ L)
    (hgood : OnlyChanges L s0 s) : OnlyChanges L s0 (padFreeInvalid reason handle freer s) := by
  unfold padFreeInvalid
  try dsimp only
  repeat' first
    | with_reducible assumption
    | with_reducible apply only_report
    | with_reducible apply only_countStrm
    | (with_reducible refine List.Subset.trans ?_ hL; decide)
    | with_reducible apply only_ite
    | split
    | with_reducible apply only_set_pond
    | (with_reducible refine only_in hL ?_; decide)

theorem only_padFree {L : List Part} {s0 s : State} (handle : BitVec 16) (freer : BitVec 6) (hL : ([.health, .strm, .pond] : List Part) ⊆ L)
    (hgood : OnlyChanges L s0 s) : OnlyChanges L s0 (padFree handle freer s) := by
  unfold padFree
  try dsimp only
  repeat' first
    | with_reducible assumption
    | with_reducible apply only_padFreeInvalid
    | with_reducible apply only_setPad
    | (with_reducible refine List.Subset.trans ?_ hL; decide)
    | with_reducible apply only_ite
    | split
    | with_reducible apply only_set_pond
    | (with_reducible refine only_in hL ?_; decide)

theorem only_padFreeAll {L : List Part} {s0 s : State} (hs : List (BitVec 16)) (freer : BitVec 6) (hL : ([.health, .strm, .pond] : List Part) ⊆ L)
    (hgood : OnlyChanges L s0 s) : OnlyChanges L s0 (padFreeAll hs freer s) := by
  unfold padFreeAll
  try dsimp only
  repeat' first
    | with_reducible assumption
    | with_reducible apply only_padFree
    | (with_reducible refine List.Subset.trans ?_ hL; decide)
    | intro _ _ _
    | with_reducible apply only_foldl

theorem only_padGive {L : List Part} {s0 s : State} (handle : BitVec 16) (owner : BitVec 6) (hL : ([.pond] : List Part) ⊆ L)
    (hgood : OnlyChanges L s0 s) : OnlyChanges L s0 (padGive handle owner s) := by
  unfold padGive
  try dsimp only
  repeat' first
    | with_reducible assumption
    | with_reducible apply only_setPad
    | (with_reducible refine List.Subset.trans ?_ hL; decide)

theorem only_padStore {L : List Part} {s0 s : State} (handle : BitVec 16) (i : Nat) (l : Line) (hL : ([.pond] : List Part) ⊆ L)
    (hgood : OnlyChanges L s0 s) : OnlyChanges L s0 (padStore handle i l s) := by
  unfold padStore
  try dsimp only
  repeat' first
    | with_reducible assumption
    | with_reducible apply only_setPad
    | (with_reducible refine List.Subset.trans ?_ hL; decide)

theorem only_takePads {L : List Part} {s0 : State} (owner : BitVec 6) (r : Nat) (l : List (BitVec 11)) {s : State}
    (hL : ([.pond] : List Part) ⊆ L) (hgood : OnlyChanges L s0 s) : ∀ x ∈ takePads owner r l s, OnlyChanges L s0 x.2 := by
  induction l generalizing s with
  | nil => intro x hx; simp only [takePads, Option.mem_def, Option.some.injEq] at hx; subst hx; exact hgood
  | cons i l ih =>
    intro x hx
    unfold takePads at hx
    dsimp only at hx
    split at hx
    · simp only [Option.map_eq_some_iff, Option.mem_def] at hx
      obtain ⟨⟨hs, u⟩, hu, rfl⟩ := hx
      exact ih (only_setPad _ _ hL hgood) (hs, u) hu
    · exact absurd hx (by simp)

theorem only_queuePush {L : List Part} {s0 s : State} (q : Nat) (e : PqEntry) (hL : ([.queues] : List Part) ⊆ L)
    (hgood : OnlyChanges L s0 s) : OnlyChanges L s0 (queuePush q e s) := by
  unfold queuePush
  try dsimp only
  repeat' first
    | with_reducible assumption
    | with_reducible apply only_setQueue
    | (with_reducible refine List.Subset.trans ?_ hL; decide)
    | with_reducible apply only_ite
    | split

theorem only_queueSettle {L : List Part} {s0 s : State} (q : Nat) (hL : ([.queues] : List Part) ⊆ L)
    (hgood : OnlyChanges L s0 s) : OnlyChanges L s0 (queueSettle q s) := by
  unfold queueSettle
  try dsimp only
  repeat' first
    | with_reducible assumption
    | with_reducible apply only_queuePush
    | with_reducible apply only_setQueue
    | (with_reducible refine List.Subset.trans ?_ hL; decide)
    | with_reducible apply only_ite
    | split

end Sys2Proof.Machine
end

