-- ==== Sys2Proof/Laws/OnlyCodec.lean ====
section
/-! SUPPORT. Which parts of the state each operation of Machine/Codec.lean may change (Laws/Only.lean). -/
namespace Sys2Proof.Machine

-- the proofs below are one script for many operations, of which each uses its own part
set_option linter.unusedTactic false
set_option linter.unreachableTactic false

theorem only_storeOut {L : List Part} {s0 s : State} (t : TileSt) (o : TileOut) (hL : ([.pond] : List Part) ⊆ L)
    (hgood : OnlyChanges L s0 s) : OnlyChanges L s0 (storeOut t o s) := by
  unfold storeOut
  try dsimp only
  repeat' first
    | with_reducible assumption
    | with_reducible apply only_padStore
    | (with_reducible refine List.Subset.trans ?_ hL; decide)
    | intro _ _ _
    | with_reducible apply only_foldl
    | split

end Sys2Proof.Machine
end

