-- ==== Sys2Proof/Laws/OnlyFarOps.lean ====
section
/-! SUPPORT. Which parts of the state each operation of Machine/FarOps.lean may change (Laws/Only.lean). -/
namespace Sys2Proof.Machine

-- the proofs below are one script for many operations, of which each uses its own part
set_option linter.unusedTactic false
set_option linter.unreachableTactic false

theorem only_farSend {L : List Part} {s0 s : State} (who : Who) (write : Bool) (line : BitVec 58) (data : Line) (src : BitVec 6) (urgent : Bool) (tag : BitVec 12) (hL : ([.far] : List Part) ⊆ L)
    (hgood : OnlyChanges L s0 s) : OnlyChanges L s0 (farSend who write line data src urgent tag s) := by
  unfold farSend
  try dsimp only
  repeat' first
    | with_reducible assumption
    | with_reducible apply only_set_far
    | (with_reducible refine only_in hL ?_; decide)

theorem only_dropFar {L : List Part} {s0 s : State} (p : Who → Bool) (hL : ([.far] : List Part) ⊆ L)
    (hgood : OnlyChanges L s0 s) : OnlyChanges L s0 (dropFar p s) := by
  unfold dropFar
  try dsimp only
  repeat' first
    | with_reducible assumption
    | with_reducible apply only_ite
    | split
    | with_reducible apply only_set_far
    | (with_reducible refine only_in hL ?_; decide)

theorem only_forgetFar {L : List Part} {s0 s : State} (p : Who → Bool) (hL : ([.far] : List Part) ⊆ L)
    (hgood : OnlyChanges L s0 s) : OnlyChanges L s0 (forgetFar p s) := by
  unfold forgetFar
  try dsimp only
  repeat' first
    | with_reducible assumption
    | with_reducible apply only_ite
    | split
    | with_reducible apply only_set_far
    | (with_reducible refine only_in hL ?_; decide)

end Sys2Proof.Machine
end

