-- ==== Sys2Proof/Laws/OnlyExports.lean ====
section
/-! SUPPORT. Which parts of the state each operation of Machine/Exports.lean may change (Laws/Only.lean). -/
namespace Sys2Proof.Machine

-- the proofs below are one script for many operations, of which each uses its own part
set_option linter.unusedTactic false
set_option linter.unreachableTactic false

theorem only_addRecord {L : List Part} {s0 s : State} (k : Nat) (r : XRecord) (changed : Nat) (hL : ([.xch] : List Part) ⊆ L)
    (hgood : OnlyChanges L s0 s) : OnlyChanges L s0 (addRecord k r changed s) := by
  unfold addRecord
  try dsimp only
  repeat' first
    | with_reducible assumption
    | with_reducible apply only_setXch
    | (with_reducible refine List.Subset.trans ?_ hL; decide)
    | with_reducible apply only_ite
    | split

theorem only_countRecord {L : List Part} {s0 s : State} (r : XRecord) (hL : ([.xch] : List Part) ⊆ L)
    (hgood : OnlyChanges L s0 s) : OnlyChanges L s0 (countRecord r s) := by
  unfold countRecord
  try dsimp only
  repeat' first
    | with_reducible assumption
    | with_reducible apply only_countXch
    | (with_reducible refine List.Subset.trans ?_ hL; decide)
    | with_reducible apply only_ite
    | split

theorem only_popRecord {L : List Part} {s0 s : State} (k : Nat) (r : XRecord) (hL : ([.health, .strm, .pond, .xch] : List Part) ⊆ L)
    (hgood : OnlyChanges L s0 s) : OnlyChanges L s0 (popRecord k r s) := by
  unfold popRecord
  try dsimp only
  repeat' first
    | with_reducible assumption
    | with_reducible apply only_countRecord
    | with_reducible apply only_padFree
    | with_reducible apply only_setXch
    | (with_reducible refine List.Subset.trans ?_ hL; decide)
    | split

theorem only_settleOffers {L : List Part} {s0 s : State}  (hL : ([.health, .strm, .pond, .xch] : List Part) ⊆ L)
    (hgood : OnlyChanges L s0 s) : OnlyChanges L s0 (settleOffers s) := by
  unfold settleOffers
  try dsimp only
  repeat' first
    | with_reducible assumption
    | with_reducible apply only_padFreeAll
    | (with_reducible refine List.Subset.trans ?_ hL; decide)
    | split
    | with_reducible apply only_set_xch
    | (with_reducible refine only_in hL ?_; decide)

theorem only_leaveOffers {L : List Part} {s0 s : State} (k : Nat) (hL : ([.health, .strm, .pond, .xch] : List Part) ⊆ L)
    (hgood : OnlyChanges L s0 s) : OnlyChanges L s0 (leaveOffers k s) := by
  unfold leaveOffers
  try dsimp only
  repeat' first
    | with_reducible assumption
    | with_reducible apply only_settleOffers
    | (with_reducible refine List.Subset.trans ?_ hL; decide)
    | with_reducible apply only_set_xch
    | (with_reducible refine only_in hL ?_; decide)

theorem only_dropLagRead {L : List Part} {s0 s : State} (k : Nat) (hL : ([.health, .mem, .strm, .pond, .xch] : List Part) ⊆ L)
    (hgood : OnlyChanges L s0 s) : OnlyChanges L s0 (dropLagRead k s) := by
  unfold dropLagRead
  try dsimp only
  repeat' first
    | with_reducible assumption
    | with_reducible apply only_padFree
    | with_reducible apply only_dropReads
    | with_reducible apply only_setXch
    | (with_reducible refine List.Subset.trans ?_ hL; decide)
    | split

theorem only_dropPads {L : List Part} {s0 s : State} (k : Nat) (hL : ([.health, .strm, .pond, .xch] : List Part) ⊆ L)
    (hgood : OnlyChanges L s0 s) : OnlyChanges L s0 (dropPads k s) := by
  unfold dropPads
  try dsimp only
  repeat' first
    | with_reducible assumption
    | with_reducible apply only_padFreeAll
    | with_reducible apply only_setXch
    | (with_reducible refine List.Subset.trans ?_ hL; decide)

theorem only_endJob {L : List Part} {s0 s : State} (k : Nat) (hL : ([.health, .mem, .strm, .pond, .xch, .far] : List Part) ⊆ L)
    (hgood : OnlyChanges L s0 s) : OnlyChanges L s0 (endJob k s) := by
  unfold endJob
  try dsimp only
  repeat' first
    | with_reducible assumption
    | with_reducible apply only_forgetFar
    | with_reducible apply only_padFreeAll
    | with_reducible apply only_dropReads
    | with_reducible apply only_setXch
    | (with_reducible refine List.Subset.trans ?_ hL; decide)
    | split
    | with_reducible apply only_set_xch
    | (with_reducible refine only_in hL ?_; decide)

theorem only_stepCancel {L : List Part} {s0 s : State} (k ord : Nat) (discard : Bool) (hL : ([.health, .strm, .pond, .xch] : List Part) ⊆ L)
    (hgood : OnlyChanges L s0 s) : OnlyChanges L s0 (stepCancel k ord discard s) := by
  unfold stepCancel
  try dsimp only
  repeat' first
    | with_reducible assumption
    | with_reducible apply only_addRecord
    | with_reducible apply only_padFreeAll
    | with_reducible apply only_setXch
    | (with_reducible refine List.Subset.trans ?_ hL; decide)
    | with_reducible apply only_ite
    | split

theorem only_queueStepEnd {L : List Part} {s0 s : State} (k : Nat) (hL : ([.xch] : List Part) ⊆ L)
    (hgood : OnlyChanges L s0 s) : OnlyChanges L s0 (queueStepEnd k s) := by
  unfold queueStepEnd
  try dsimp only
  repeat' first
    | with_reducible assumption
    | with_reducible apply only_addRecord
    | with_reducible apply only_setXch
    | (with_reducible refine List.Subset.trans ?_ hL; decide)
    | with_reducible apply only_ite
    | split

theorem only_skipBareTiles {L : List Part} {s0 s : State} (k : Nat) (hL : ([.xch] : List Part) ⊆ L)
    (hgood : OnlyChanges L s0 s) : OnlyChanges L s0 (skipBareTiles k s) := by
  unfold skipBareTiles
  try dsimp only
  repeat' first
    | with_reducible assumption
    | with_reducible apply only_setXch
    | (with_reducible refine List.Subset.trans ?_ hL; decide)
    | with_reducible apply only_ite
    | split

theorem only_lagRead {L : List Part} {s0 s : State} (k ord : Nat) (flags : BitVec 8) (cursor : Bool) (hL : ([.mem, .xch] : List Part) ⊆ L)
    (hgood : OnlyChanges L s0 s) : OnlyChanges L s0 (lagRead k ord flags cursor s) := by
  unfold lagRead
  try dsimp only
  repeat' first
    | with_reducible assumption
    | with_reducible apply only_addRecord
    | with_reducible apply only_setXch
    | with_reducible apply only_enqueueAll
    | (with_reducible refine List.Subset.trans ?_ hL; decide)
    | with_reducible apply only_ite
    | split

theorem only_lagStart {L : List Part} {s0 s : State} (k : Nat) (hL : ([.mem, .xch] : List Part) ⊆ L)
    (hgood : OnlyChanges L s0 s) : OnlyChanges L s0 (lagStart k s) := by
  unfold lagStart
  try dsimp only
  repeat' first
    | with_reducible assumption
    | with_reducible apply only_lagRead
    | with_reducible apply only_skipBareTiles
    | with_reducible apply only_queueStepEnd
    | with_reducible apply only_setXch
    | (with_reducible refine List.Subset.trans ?_ hL; decide)
    | with_reducible apply only_ite
    | split

theorem only_lagStartAll {L : List Part} {s0 s : State}  (hL : ([.mem, .xch] : List Part) ⊆ L)
    (hgood : OnlyChanges L s0 s) : OnlyChanges L s0 (lagStartAll s) := by
  unfold lagStartAll
  try dsimp only
  repeat' first
    | with_reducible assumption
    | with_reducible apply only_lagStart
    | (with_reducible refine List.Subset.trans ?_ hL; decide)
    | intro _ _ _
    | with_reducible apply only_foldl

theorem only_xchFault {L : List Part} {s0 s : State} (k : Nat) (code : BitVec 8) (farLine : BitVec 56) (hL : ([.health, .evt, .mem, .strm, .pond, .xch, .far] : List Part) ⊆ L)
    (hgood : OnlyChanges L s0 s) : OnlyChanges L s0 (xchFault k code farLine s) := by
  unfold xchFault
  try dsimp only
  repeat' first
    | with_reducible assumption
    | with_reducible apply only_endJob
    | with_reducible apply only_dropPads
    | with_reducible apply only_dropLagRead
    | with_reducible apply only_leaveOffers
    | with_reducible apply only_forgetFar
    | with_reducible apply only_padFreeAll
    | with_reducible apply only_setXch
    | with_reducible apply only_pulse
    | (with_reducible refine List.Subset.trans ?_ hL; decide)
    | split

theorem only_lagReadDone {L : List Part} {s0 s : State} (k ord i : Nat) (data : Option Line) (hL : ([.health, .evt, .mem, .strm, .pond, .xch, .far] : List Part) ⊆ L)
    (hgood : OnlyChanges L s0 s) : OnlyChanges L s0 (lagReadDone k ord i data s) := by
  unfold lagReadDone
  try dsimp only
  repeat' first
    | with_reducible assumption
    | with_reducible apply only_xchFault
    | with_reducible apply only_lagStart
    | with_reducible apply only_addRecord
    | with_reducible apply only_setXch
    | (with_reducible refine List.Subset.trans ?_ hL; decide)
    | with_reducible apply only_ite
    | split

theorem only_stepEnd {L : List Part} {s0 s : State} (k : Nat) (hL : ([.health, .evt, .strm, .pond, .xch] : List Part) ⊆ L)
    (hgood : OnlyChanges L s0 s) : OnlyChanges L s0 (stepEnd k s) := by
  unfold stepEnd
  try dsimp only
  repeat' first
    | with_reducible assumption
    | with_reducible apply only_dropPads
    | with_reducible apply only_popRecord
    | with_reducible apply only_setXch
    | with_reducible apply only_pulse
    | (with_reducible refine List.Subset.trans ?_ hL; decide)
    | with_reducible apply only_ite
    | split

theorem only_deltaGate {L : List Part} {s0 s : State} (step tag : BitVec 32) (k : Nat) (hL : ([.health, .evt, .mem, .strm, .pond, .xch] : List Part) ⊆ L)
    (hgood : OnlyChanges L s0 s) : OnlyChanges L s0 (deltaGate step tag k s) := by
  unfold deltaGate
  try dsimp only
  repeat' first
    | with_reducible assumption
    | with_reducible apply only_stepEnd
    | with_reducible apply only_stepCancel
    | with_reducible apply only_dropLagRead
    | with_reducible apply only_leaveOffers
    | with_reducible apply only_setXch
    | (with_reducible refine List.Subset.trans ?_ hL; decide)
    | with_reducible apply only_ite
    | split

theorem only_exportsGate {L : List Part} {s0 s : State} (step tag : BitVec 32) (hL : ([.health, .evt, .mem, .strm, .pond, .xch] : List Part) ⊆ L)
    (hgood : OnlyChanges L s0 s) : OnlyChanges L s0 (exportsGate step tag s) := by
  unfold exportsGate
  try dsimp only
  repeat' first
    | with_reducible assumption
    | with_reducible apply only_deltaGate
    | (with_reducible refine List.Subset.trans ?_ hL; decide)
    | intro _ _ _
    | with_reducible apply only_foldl

theorem only_dropBases {L : List Part} {s0 s : State}  (hL : ([.xch] : List Part) ⊆ L)
    (hgood : OnlyChanges L s0 s) : OnlyChanges L s0 (dropBases s) := by
  unfold dropBases
  try dsimp only
  repeat' first
    | with_reducible assumption
    | with_reducible apply only_setXch
    | (with_reducible refine List.Subset.trans ?_ hL; decide)
    | intro _ _ _
    | with_reducible apply only_foldl

theorem only_exportsClearHalt {L : List Part} {s0 s : State}  (hL : ([.health, .mem, .strm, .pond, .xch] : List Part) ⊆ L)
    (hgood : OnlyChanges L s0 s) : OnlyChanges L s0 (exportsClearHalt s) := by
  unfold exportsClearHalt
  try dsimp only
  repeat' first
    | with_reducible assumption
    | with_reducible apply only_stepCancel
    | with_reducible apply only_dropPads
    | with_reducible apply only_dropLagRead
    | with_reducible apply only_leaveOffers
    | with_reducible apply only_setXch
    | (with_reducible refine List.Subset.trans ?_ hL; decide)
    | intro _ _ _
    | with_reducible apply only_foldl
    | with_reducible apply only_ite
    | split

theorem only_assembleOne {L : List Part} {s0 s : State} (k : Nat) (hL : ([.xch] : List Part) ⊆ L)
    (hgood : OnlyChanges L s0 s) : OnlyChanges L s0 (assembleOne k s) := by
  unfold assembleOne
  try dsimp only
  repeat' first
    | with_reducible assumption
    | with_reducible apply only_addRecord
    | with_reducible apply only_setXch
    | (with_reducible refine List.Subset.trans ?_ hL; decide)
    | with_reducible apply only_ite
    | split
    | with_reducible apply only_set_xch
    | (with_reducible refine only_in hL ?_; decide)

theorem only_assembleAll {L : List Part} {s0 s : State}  (hL : ([.health, .strm, .pond, .xch] : List Part) ⊆ L)
    (hgood : OnlyChanges L s0 s) : OnlyChanges L s0 (assembleAll s) := by
  unfold assembleAll
  try dsimp only
  repeat' first
    | with_reducible assumption
    | with_reducible apply only_assembleOne
    | with_reducible apply only_settleOffers
    | (with_reducible refine List.Subset.trans ?_ hL; decide)
    | intro _ _ _
    | with_reducible apply only_foldl

theorem only_exportOffer {L : List Part} {s0 s : State} (o : XOffer) (hL : ([.health, .strm, .pond, .xch] : List Part) ⊆ L)
    (hgood : OnlyChanges L s0 s) : OnlyChanges L s0 (exportOffer o s) := by
  unfold exportOffer
  try dsimp only
  repeat' first
    | with_reducible assumption
    | with_reducible apply only_assembleAll
    | with_reducible apply only_setXch
    | with_reducible apply only_countXch
    | (with_reducible refine List.Subset.trans ?_ hL; decide)
    | intro _ _ _
    | with_reducible apply only_foldl
    | with_reducible apply only_ite
    | split
    | with_reducible apply only_set_xch
    | (with_reducible refine only_in hL ?_; decide)

theorem only_settleRecords {L : List Part} {s0 : State} (k : Nat) (n : Nat) {s : State} (hL : ([.health, .strm, .pond, .xch] : List Part) ⊆ L)
    (h : OnlyChanges L s0 s) : OnlyChanges L s0 (settleRecords k n s) := by
  induction n generalizing s with
  | zero => exact h
  | succ n ih =>
    unfold settleRecords
    try dsimp only
    repeat' first
      | with_reducible assumption
      | apply ih
      | with_reducible apply only_popRecord
      | (with_reducible refine List.Subset.trans ?_ hL; decide)
      | with_reducible apply only_ite
      | split

theorem only_recordAck {L : List Part} {s0 s : State} (k : Nat) (seq : BitVec 32) (i : Nat) (ok : Bool) (code : BitVec 8) (hL : ([.health, .evt, .mem, .strm, .pond, .xch, .far] : List Part) ⊆ L)
    (hgood : OnlyChanges L s0 s) : OnlyChanges L s0 (recordAck k seq i ok code s) := by
  unfold recordAck
  try dsimp only
  repeat' first
    | with_reducible assumption
    | with_reducible apply only_settleRecords
    | with_reducible apply only_assembleAll
    | with_reducible apply only_xchFault
    | with_reducible apply only_lagStart
    | with_reducible apply only_setXch
    | (with_reducible refine List.Subset.trans ?_ hL; decide)
    | with_reducible apply only_ite
    | split

theorem only_creditDone {L : List Part} {s0 s : State} (k : Nat) (data : Option Line) (code : BitVec 8) (hL : ([.health, .evt, .mem, .strm, .pond, .xch, .far] : List Part) ⊆ L)
    (hgood : OnlyChanges L s0 s) : OnlyChanges L s0 (creditDone k data code s) := by
  unfold creditDone
  try dsimp only
  repeat' first
    | with_reducible assumption
    | with_reducible apply only_xchFault
    | with_reducible apply only_setXch
    | (with_reducible refine List.Subset.trans ?_ hL; decide)
    | with_reducible apply only_ite
    | split

theorem only_startChunk {L : List Part} {s0 s : State} (k : Nat) (h : BitVec 16) (hL : ([.mem, .xch] : List Part) ⊆ L)
    (hgood : OnlyChanges L s0 s) : OnlyChanges L s0 (startChunk k h s) := by
  unfold startChunk
  try dsimp only
  repeat' first
    | with_reducible assumption
    | with_reducible apply only_setXch
    | with_reducible apply only_enqueueAll
    | (with_reducible refine List.Subset.trans ?_ hL; decide)
    | split

theorem only_copyReadDone {L : List Part} {s0 s : State} (k i : Nat) (data : Option Line) (hL : ([.health, .evt, .mem, .strm, .pond, .xch, .far] : List Part) ⊆ L)
    (hgood : OnlyChanges L s0 s) : OnlyChanges L s0 (copyReadDone k i data s) := by
  unfold copyReadDone
  try dsimp only
  repeat' first
    | with_reducible assumption
    | with_reducible apply only_xchFault
    | with_reducible apply only_setXch
    | (with_reducible refine List.Subset.trans ?_ hL; decide)
    | with_reducible apply only_ite
    | split

theorem only_settleStopX {L : List Part} {s0 s : State} (k : Nat) (hL : ([.health, .mem, .strm, .pond, .xch, .far] : List Part) ⊆ L)
    (hgood : OnlyChanges L s0 s) : OnlyChanges L s0 (settleStopX k s) := by
  unfold settleStopX
  try dsimp only
  repeat' first
    | with_reducible assumption
    | with_reducible apply only_endJob
    | with_reducible apply only_setXch
    | (with_reducible refine List.Subset.trans ?_ hL; decide)
    | with_reducible apply only_ite
    | split

theorem only_copyAck {L : List Part} {s0 s : State} (k i : Nat) (ok : Bool) (code : BitVec 8) (hL : ([.health, .evt, .mem, .strm, .pond, .xch, .far] : List Part) ⊆ L)
    (hgood : OnlyChanges L s0 s) : OnlyChanges L s0 (copyAck k i ok code s) := by
  unfold copyAck
  try dsimp only
  repeat' first
    | with_reducible assumption
    | with_reducible apply only_settleStopX
    | with_reducible apply only_xchFault
    | with_reducible apply only_padFree
    | with_reducible apply only_setXch
    | with_reducible apply only_countXch
    | (with_reducible refine List.Subset.trans ?_ hL; decide)
    | with_reducible apply only_ite
    | split

theorem only_copyBackDone {L : List Part} {s0 s : State} (k : Nat) (data : Option Line) (code : BitVec 8) (hL : ([.health, .evt, .mem, .strm, .pond, .xch, .far] : List Part) ⊆ L)
    (hgood : OnlyChanges L s0 s) : OnlyChanges L s0 (copyBackDone k data code s) := by
  unfold copyBackDone
  try dsimp only
  repeat' first
    | with_reducible assumption
    | with_reducible apply only_settleStopX
    | with_reducible apply only_xchFault
    | with_reducible apply only_setXch
    | (with_reducible refine List.Subset.trans ?_ hL; decide)
    | with_reducible apply only_ite
    | split

theorem only_setXErr {L : List Part} {s0 s : State} (k : Nat) (e : BitVec 8) (hL : ([.xch] : List Part) ⊆ L)
    (hgood : OnlyChanges L s0 s) : OnlyChanges L s0 (setXErr k e s) := by
  unfold setXErr
  try dsimp only
  repeat' first
    | with_reducible assumption
    | with_reducible apply only_setXch
    | (with_reducible refine List.Subset.trans ?_ hL; decide)

theorem only_xchStart {L : List Part} {s0 s : State} (k : Nat) (tag : BitVec 32) (hL : ([.xch] : List Part) ⊆ L)
    (hgood : OnlyChanges L s0 s) : OnlyChanges L s0 (xchStart k tag s) := by
  unfold xchStart
  try dsimp only
  repeat' first
    | with_reducible assumption
    | with_reducible apply only_setXErr
    | with_reducible apply only_setXch
    | (with_reducible refine List.Subset.trans ?_ hL; decide)
    | with_reducible apply only_ite
    | split

theorem only_xchStop {L : List Part} {s0 s : State} (k : Nat) (hL : ([.health, .mem, .strm, .pond, .xch, .far] : List Part) ⊆ L)
    (hgood : OnlyChanges L s0 s) : OnlyChanges L s0 (xchStop k s) := by
  unfold xchStop
  try dsimp only
  repeat' first
    | with_reducible assumption
    | with_reducible apply only_setXErr
    | with_reducible apply only_settleStopX
    | with_reducible apply only_setXch
    | (with_reducible refine List.Subset.trans ?_ hL; decide)
    | with_reducible apply only_ite
    | split

theorem only_xchRebase {L : List Part} {s0 s : State} (k : Nat) (hL : ([.health, .strm, .pond, .xch] : List Part) ⊆ L)
    (hgood : OnlyChanges L s0 s) : OnlyChanges L s0 (xchRebase k s) := by
  unfold xchRebase
  try dsimp only
  repeat' first
    | with_reducible assumption
    | with_reducible apply only_setXErr
    | with_reducible apply only_stepCancel
    | with_reducible apply only_leaveOffers
    | with_reducible apply only_setXch
    | (with_reducible refine List.Subset.trans ?_ hL; decide)
    | with_reducible apply only_ite
    | split

theorem only_writeXchCtl {L : List Part} {s0 s : State} (k : Nat) (w : Word) (hL : ([.health, .mem, .strm, .pond, .xch, .far] : List Part) ⊆ L)
    (hgood : OnlyChanges L s0 s) : OnlyChanges L s0 (writeXchCtl k w s) := by
  unfold writeXchCtl
  try dsimp only
  repeat' first
    | with_reducible assumption
    | with_reducible apply only_xchRebase
    | with_reducible apply only_xchStop
    | with_reducible apply only_xchStart
    | with_reducible apply only_setXErr
    | (with_reducible refine List.Subset.trans ?_ hL; decide)
    | with_reducible apply only_ite
    | split

theorem only_writeXchCommit {L : List Part} {s0 s : State} (w : Word) (hL : ([.xch] : List Part) ⊆ L)
    (hgood : OnlyChanges L s0 s) : OnlyChanges L s0 (writeXchCommit w s) := by
  unfold writeXchCommit
  try dsimp only
  repeat' first
    | with_reducible assumption
    | with_reducible apply only_ite
    | split
    | with_reducible apply only_set_xch
    | (with_reducible refine only_in hL ?_; decide)

theorem only_leaveXch {L : List Part} {s0 s : State} (k : Nat) (f : XCfg) (hL : ([.health, .strm, .pond, .xch, .far] : List Part) ⊆ L)
    (hgood : OnlyChanges L s0 s) : OnlyChanges L s0 (leaveXch k f s) := by
  unfold leaveXch
  try dsimp only
  repeat' first
    | with_reducible assumption
    | with_reducible apply only_dropPads
    | with_reducible apply only_forgetFar
    | with_reducible apply only_padFreeAll
    | with_reducible apply only_setXch
    | (with_reducible refine List.Subset.trans ?_ hL; decide)
    | with_reducible apply only_ite
    | split

theorem only_applyXchSet {L : List Part} {s0 s : State}  (hL : ([.health, .strm, .pond, .xch, .far] : List Part) ⊆ L)
    (hgood : OnlyChanges L s0 s) : OnlyChanges L s0 (applyXchSet s) := by
  unfold applyXchSet
  try dsimp only
  repeat' first
    | with_reducible assumption
    | with_reducible apply only_leaveXch
    | (with_reducible refine List.Subset.trans ?_ hL; decide)
    | intro _ _ _
    | with_reducible apply only_foldl
    | with_reducible apply only_ite
    | split
    | with_reducible apply only_set_xch
    | (with_reducible refine only_in hL ?_; decide)

end Sys2Proof.Machine
end

