-- ==== Sys2Proof/Laws/OnlyLinkOps.lean ====
section
/-! SUPPORT. Which parts of the state each operation of Machine/LinkOps.lean may change (Laws/Only.lean). -/
namespace Sys2Proof.Machine

-- the proofs below are one script for many operations, of which each uses its own part
set_option linter.unusedTactic false
set_option linter.unreachableTactic false

theorem only_linkWake {L : List Part} {s0 s : State} (d : Side) (hL : ([.east, .west] : List Part) ⊆ L)
    (hgood : OnlyChanges L s0 s) : OnlyChanges L s0 (linkWake d s) := by
  unfold linkWake
  try dsimp only
  repeat' first
    | with_reducible assumption
    | with_reducible apply only_setLink
    | (with_reducible refine List.Subset.trans ?_ hL; decide)
    | with_reducible apply only_ite
    | split

theorem only_sendOn {L : List Part} {s0 s : State} (d : Side) (vc : BitVec 2) (payload : Line) (dest : Nat) (bcast : Bool) (hL : ([.east, .west] : List Part) ⊆ L)
    (hgood : OnlyChanges L s0 s) : OnlyChanges L s0 (sendOn d vc payload dest bcast s) := by
  unfold sendOn
  try dsimp only
  repeat' first
    | with_reducible assumption
    | with_reducible apply only_linkWake
    | with_reducible apply only_setLink
    | (with_reducible refine List.Subset.trans ?_ hL; decide)
    | with_reducible apply only_ite
    | split

theorem only_broadcast {L : List Part} {s0 s : State} (vc : BitVec 2) (payload : Line) (hL : ([.east, .west] : List Part) ⊆ L)
    (hgood : OnlyChanges L s0 s) : OnlyChanges L s0 (broadcast vc payload s) := by
  unfold broadcast
  try dsimp only
  repeat' first
    | with_reducible assumption
    | with_reducible apply only_sendOn
    | (with_reducible refine List.Subset.trans ?_ hL; decide)
    | with_reducible apply only_ite
    | split

theorem only_deliver {L : List Part} {s0 s : State} (src : Source) (vc : BitVec 2) (m : Line) (hL : ([.hier] : List Part) ⊆ L)
    (hgood : OnlyChanges L s0 s) : OnlyChanges L s0 (deliver src vc m s) := by
  unfold deliver
  try dsimp only
  repeat' first
    | with_reducible assumption
    | with_reducible apply only_set_hier
    | (with_reducible refine only_in hL ?_; decide)

theorem only_sendToManager {L : List Part} {s0 s : State} (vc : BitVec 2) (m : Line) (hL : ([.hier, .east, .west] : List Part) ⊆ L)
    (hgood : OnlyChanges L s0 s) : OnlyChanges L s0 (sendToManager vc m s) := by
  unfold sendToManager
  try dsimp only
  repeat' first
    | with_reducible assumption
    | with_reducible apply only_deliver
    | with_reducible apply only_sendOn
    | (with_reducible refine List.Subset.trans ?_ hL; decide)
    | with_reducible apply only_ite
    | split

theorem only_fmpTransmit {L : List Part} {s0 s : State} (m : FmpMsg) (hL : ([.fmp] : List Part) ⊆ L)
    (hgood : OnlyChanges L s0 s) : OnlyChanges L s0 (fmpTransmit m s) := by
  unfold fmpTransmit
  try dsimp only
  repeat' first
    | with_reducible assumption
    | with_reducible apply only_set_fmp
    | (with_reducible refine only_in hL ?_; decide)

theorem only_fmpDrain {L : List Part} {s0 : State} (n : Nat) {s : State} (hL : ([.fmp] : List Part) ⊆ L)
    (h : OnlyChanges L s0 s) : OnlyChanges L s0 (fmpDrain n s) := by
  induction n generalizing s with
  | zero => exact h
  | succ n ih =>
    unfold fmpDrain
    try dsimp only
    repeat' first
      | with_reducible assumption
      | apply ih
      | with_reducible apply only_fmpTransmit
      | with_reducible apply only_countFmp
      | (with_reducible refine List.Subset.trans ?_ hL; decide)
      | split
      | with_reducible apply only_set_fmp
      | (with_reducible refine only_in hL ?_; decide)

theorem only_fmpSend {L : List Part} {s0 s : State} (dest : BitVec 32) (payload : Line) (hL : ([.fmp] : List Part) ⊆ L)
    (hgood : OnlyChanges L s0 s) : OnlyChanges L s0 (fmpSend dest payload s) := by
  unfold fmpSend
  try dsimp only
  repeat' first
    | with_reducible assumption
    | with_reducible apply only_fmpDrain
    | (with_reducible refine List.Subset.trans ?_ hL; decide)
    | with_reducible apply only_set_fmp
    | (with_reducible refine only_in hL ?_; decide)

theorem only_sendToParent {L : List Part} {s0 s : State} (m : Line) (hL : ([.fmp] : List Part) ⊆ L)
    (hgood : OnlyChanges L s0 s) : OnlyChanges L s0 (sendToParent m s) := by
  unfold sendToParent
  try dsimp only
  repeat' first
    | with_reducible assumption
    | with_reducible apply only_fmpSend
    | (with_reducible refine List.Subset.trans ?_ hL; decide)
    | split

theorem only_sendToChildren {L : List Part} {s0 s : State} (m : Line) (hL : ([.fmp] : List Part) ⊆ L)
    (hgood : OnlyChanges L s0 s) : OnlyChanges L s0 (sendToChildren m s) := by
  unfold sendToChildren
  try dsimp only
  repeat' first
    | with_reducible assumption
    | with_reducible apply only_fmpSend
    | (with_reducible refine List.Subset.trans ?_ hL; decide)
    | intro _ _ _
    | with_reducible apply only_foldl
    | split

theorem only_flashSend {L : List Part} {s0 s : State} (d : Side) (f : Flash) (hL : ([.east, .west] : List Part) ⊆ L)
    (hgood : OnlyChanges L s0 s) : OnlyChanges L s0 (flashSend d f s) := by
  unfold flashSend
  try dsimp only
  repeat' first
    | with_reducible assumption
    | with_reducible apply only_linkWake
    | with_reducible apply only_countLink
    | with_reducible apply only_setLink
    | (with_reducible refine List.Subset.trans ?_ hL; decide)
    | split

theorem only_linksSeal {L : List Part} {s0 s : State}  (hL : ([.east, .west] : List Part) ⊆ L)
    (hgood : OnlyChanges L s0 s) : OnlyChanges L s0 (linksSeal s) := by
  unfold linksSeal
  try dsimp only
  repeat' first
    | with_reducible assumption
    | with_reducible apply only_setLink
    | (with_reducible refine List.Subset.trans ?_ hL; decide)
    | intro _ _ _
    | with_reducible apply only_foldl
    | with_reducible apply only_ite
    | split

theorem only_linksRun {L : List Part} {s0 s : State} (aborted : Bool) (hL : ([.east, .west] : List Part) ⊆ L)
    (hgood : OnlyChanges L s0 s) : OnlyChanges L s0 (linksRun aborted s) := by
  unfold linksRun
  try dsimp only
  repeat' first
    | with_reducible assumption
    | with_reducible apply only_setLink
    | (with_reducible refine List.Subset.trans ?_ hL; decide)
    | intro _ _ _
    | with_reducible apply only_foldl
    | with_reducible apply only_ite
    | split

theorem only_linksReturn {L : List Part} {s0 s : State}  (hL : ([.east, .west] : List Part) ⊆ L)
    (hgood : OnlyChanges L s0 s) : OnlyChanges L s0 (linksReturn s) := by
  unfold linksReturn
  try dsimp only
  repeat' first
    | with_reducible assumption
    | with_reducible apply only_setLink
    | (with_reducible refine List.Subset.trans ?_ hL; decide)
    | intro _ _ _
    | with_reducible apply only_foldl
    | with_reducible apply only_ite
    | split

theorem only_bootTo {L : List Part} {s0 s : State} (code : BitVec 4) (hL : ([.boot] : List Part) ⊆ L)
    (hgood : OnlyChanges L s0 s) : OnlyChanges L s0 (bootTo code s) := by
  unfold bootTo
  try dsimp only
  repeat' first
    | with_reducible assumption
    | with_reducible apply only_ite
    | split
    | with_reducible apply only_set_boot
    | (with_reducible refine only_in hL ?_; decide)

end Sys2Proof.Machine
end

