-- ==== Sys2Proof/Laws/OnlyHierarchy.lean ====
section
/-! SUPPORT. Which parts of the state each operation of Machine/Hierarchy.lean may change (Laws/Only.lean). -/
namespace Sys2Proof.Machine

-- the proofs below are one script for many operations, of which each uses its own part
set_option linter.unusedTactic false
set_option linter.unreachableTactic false

theorem only_sendBelow {L : List Part} {s0 s : State} (m : Line) (hL : ([.fmp] : List Part) ⊆ L)
    (hgood : OnlyChanges L s0 s) : OnlyChanges L s0 (sendBelow m s) := by
  unfold sendBelow
  try dsimp only
  repeat' first
    | with_reducible assumption
    | with_reducible apply only_fmpSend
    | (with_reducible refine List.Subset.trans ?_ hL; decide)
    | intro _ _ _
    | with_reducible apply only_foldl
    | with_reducible apply only_ite
    | split

theorem only_flashRing {L : List Part} {s0 s : State} (f : Flash) (hL : ([.east, .west] : List Part) ⊆ L)
    (hgood : OnlyChanges L s0 s) : OnlyChanges L s0 (flashRing f s) := by
  unfold flashRing
  try dsimp only
  repeat' first
    | with_reducible assumption
    | with_reducible apply only_flashSend
    | (with_reducible refine List.Subset.trans ?_ hL; decide)
    | with_reducible apply only_ite
    | split

theorem only_holdNotice {L : List Part} {s0 s : State} (cause : BitVec 8) (hL : ([.fmp] : List Part) ⊆ L)
    (hgood : OnlyChanges L s0 s) : OnlyChanges L s0 (holdNotice cause s) := by
  unfold holdNotice
  try dsimp only
  repeat' first
    | with_reducible assumption
    | with_reducible apply only_sendToParent
    | (with_reducible refine List.Subset.trans ?_ hL; decide)
    | with_reducible apply only_ite
    | split

theorem only_holdStep {L : List Part} {s0 s : State} (cause : BitVec 8) (hi : BitVec 32) (src : BitVec 16) (hL : ([.health, .evt, .verdict, .east, .west, .fmp] : List Part) ⊆ L)
    (hgood : OnlyChanges L s0 s) : OnlyChanges L s0 (holdStep cause hi src s) := by
  unfold holdStep
  try dsimp only
  repeat' first
    | with_reducible assumption
    | with_reducible apply only_holdNotice
    | with_reducible apply only_flashRing
    | with_reducible apply only_pulse
    | with_reducible apply only_report
    | (with_reducible refine List.Subset.trans ?_ hL; decide)
    | with_reducible apply only_ite
    | split
    | with_reducible apply only_set_verdict
    | (with_reducible refine only_in hL ?_; decide)

theorem only_holdJoin {L : List Part} {s0 s : State} (cause : BitVec 8) (hi : BitVec 32) (src : BitVec 16) (hL : ([.health, .memb, .fmp] : List Part) ⊆ L)
    (hgood : OnlyChanges L s0 s) : OnlyChanges L s0 (holdJoin cause hi src s) := by
  unfold holdJoin
  try dsimp only
  repeat' first
    | with_reducible assumption
    | with_reducible apply only_holdNotice
    | with_reducible apply only_report
    | (with_reducible refine List.Subset.trans ?_ hL; decide)
    | with_reducible apply only_ite
    | split
    | with_reducible apply only_set_memb
    | (with_reducible refine only_in hL ?_; decide)

theorem only_epochFail {L : List Part} {s0 s : State}  (hL : ([.health, .evt, .memb, .verdict, .east, .west, .fmp] : List Part) ⊆ L)
    (hgood : OnlyChanges L s0 s) : OnlyChanges L s0 (epochFail s) := by
  unfold epochFail
  try dsimp only
  repeat' first
    | with_reducible assumption
    | with_reducible apply only_holdStep
    | with_reducible apply only_croakSet
    | with_reducible apply only_pulse
    | (with_reducible refine List.Subset.trans ?_ hL; decide)
    | with_reducible apply only_ite
    | split
    | with_reducible apply only_set_memb
    | (with_reducible refine only_in hL ?_; decide)

theorem only_issueRecord {L : List Part} {s0 s : State} (f : RecordBody) (hL : ([.hier] : List Part) ⊆ L)
    (hgood : OnlyChanges L s0 s) : OnlyChanges L s0 (issueRecord f s) := by
  unfold issueRecord
  try dsimp only
  repeat' first
    | with_reducible assumption
    | with_reducible apply only_deliver
    | (with_reducible refine List.Subset.trans ?_ hL; decide)
    | with_reducible apply only_ite
    | split
    | with_reducible apply only_set_hier
    | (with_reducible refine only_in hL ?_; decide)

theorem only_issueAbort {L : List Part} {s0 s : State}  (hL : ([.hier] : List Part) ⊆ L)
    (hgood : OnlyChanges L s0 s) : OnlyChanges L s0 (issueAbort s) := by
  unfold issueAbort
  try dsimp only
  repeat' first
    | with_reducible assumption
    | with_reducible apply only_issueRecord
    | (with_reducible refine List.Subset.trans ?_ hL; decide)

theorem only_sendUp {L : List Part} {s0 s : State} (m : Line) (hL : ([.hier, .fmp] : List Part) ⊆ L)
    (hgood : OnlyChanges L s0 s) : OnlyChanges L s0 (sendUp m s) := by
  unfold sendUp
  try dsimp only
  repeat' first
    | with_reducible assumption
    | with_reducible apply only_sendToParent
    | (with_reducible refine List.Subset.trans ?_ hL; decide)
    | with_reducible apply only_set_hier
    | (with_reducible refine only_in hL ?_; decide)

theorem only_skipUp {L : List Part} {s0 s : State} (m : Line) (hL : ([.hier, .fmp] : List Part) ⊆ L)
    (hgood : OnlyChanges L s0 s) : OnlyChanges L s0 (skipUp m s) := by
  unfold skipUp
  try dsimp only
  repeat' first
    | with_reducible assumption
    | with_reducible apply only_issueRecord
    | with_reducible apply only_sendToParent
    | (with_reducible refine List.Subset.trans ?_ hL; decide)
    | with_reducible apply only_ite
    | split
    | with_reducible apply only_set_hier
    | (with_reducible refine only_in hL ?_; decide)

theorem only_liftTimeout {L : List Part} {s0 s : State}  (hL : ([.verdict] : List Part) ⊆ L)
    (hgood : OnlyChanges L s0 s) : OnlyChanges L s0 (liftTimeout s) := by
  unfold liftTimeout
  try dsimp only
  repeat' first
    | with_reducible assumption
    | with_reducible apply only_ite
    | split
    | with_reducible apply only_set_verdict
    | (with_reducible refine only_in hL ?_; decide)

theorem only_ringSum {L : List Part} {s0 s : State}  (hL : ([.hier, .fmp] : List Part) ⊆ L)
    (hgood : OnlyChanges L s0 s) : OnlyChanges L s0 (ringSum s) := by
  unfold ringSum
  try dsimp only
  repeat' first
    | with_reducible assumption
    | with_reducible apply only_skipUp
    | (with_reducible refine List.Subset.trans ?_ hL; decide)
    | with_reducible apply only_ite
    | split
    | with_reducible apply only_set_hier
    | (with_reducible refine only_in hL ?_; decide)

theorem only_sumIfWhole {L : List Part} {s0 s : State}  (hL : ([.verdict, .hier, .fmp] : List Part) ⊆ L)
    (hgood : OnlyChanges L s0 s) : OnlyChanges L s0 (sumIfWhole s) := by
  unfold sumIfWhole
  try dsimp only
  repeat' first
    | with_reducible assumption
    | with_reducible apply only_ringSum
    | with_reducible apply only_liftTimeout
    | with_reducible apply only_sendUp
    | with_reducible apply only_issueRecord
    | (with_reducible refine List.Subset.trans ?_ hL; decide)
    | with_reducible apply only_ite
    | split
    | with_reducible apply only_set_hier
    | (with_reducible refine only_in hL ?_; decide)

theorem only_joinIfWhole {L : List Part} {s0 s : State}  (hL : ([.hier, .fmp] : List Part) ⊆ L)
    (hgood : OnlyChanges L s0 s) : OnlyChanges L s0 (joinIfWhole s) := by
  unfold joinIfWhole
  try dsimp only
  repeat' first
    | with_reducible assumption
    | with_reducible apply only_sendUp
    | with_reducible apply only_deliver
    | (with_reducible refine List.Subset.trans ?_ hL; decide)
    | with_reducible apply only_ite
    | split
    | with_reducible apply only_set_hier
    | (with_reducible refine only_in hL ?_; decide)

theorem only_keepMsg {L : List Part} {s0 s : State} (m : Line) (hL : ([.hier] : List Part) ⊆ L)
    (hgood : OnlyChanges L s0 s) : OnlyChanges L s0 (keepMsg s m) := by
  unfold keepMsg
  try dsimp only
  repeat' first
    | with_reducible assumption
    | with_reducible apply only_set_hier
    | (with_reducible refine only_in hL ?_; decide)

theorem only_abortUp {L : List Part} {s0 s : State}  (hL : ([.hier, .fmp] : List Part) ⊆ L)
    (hgood : OnlyChanges L s0 s) : OnlyChanges L s0 (abortUp s) := by
  unfold abortUp
  try dsimp only
  repeat' first
    | with_reducible assumption
    | with_reducible apply only_issueAbort
    | with_reducible apply only_sendToParent
    | (with_reducible refine List.Subset.trans ?_ hL; decide)
    | with_reducible apply only_ite
    | split

theorem only_startTimeout {L : List Part} {s0 s : State}  (hL : ([.hier] : List Part) ⊆ L)
    (hgood : OnlyChanges L s0 s) : OnlyChanges L s0 (startTimeout s) := by
  unfold startTimeout
  try dsimp only
  repeat' first
    | with_reducible assumption
    | with_reducible apply only_ite
    | split
    | with_reducible apply only_set_hier
    | (with_reducible refine only_in hL ?_; decide)

theorem only_acceptMsg {L : List Part} {s0 s : State} (m : Line) (hL : ([.health, .evt, .memb, .verdict, .hier, .east, .west, .fmp] : List Part) ⊆ L)
    (hgood : OnlyChanges L s0 s) : OnlyChanges L s0 (acceptMsg m s) := by
  unfold acceptMsg
  try dsimp only
  repeat' first
    | with_reducible assumption
    | with_reducible apply only_startTimeout
    | with_reducible apply only_abortUp
    | with_reducible apply only_joinIfWhole
    | with_reducible apply only_sumIfWhole
    | with_reducible apply only_skipUp
    | with_reducible apply only_holdJoin
    | with_reducible apply only_holdStep
    | (with_reducible refine List.Subset.trans ?_ hL; decide)
    | with_reducible apply only_ite
    | split
    | with_reducible apply only_set_hier
    | (with_reducible refine only_in hL ?_; decide)

theorem only_holdFor {L : List Part} {s0 s : State} (cause : BitVec 8) (m : Line) (hL : ([.health, .evt, .memb, .verdict, .hier, .east, .west, .fmp] : List Part) ⊆ L)
    (hgood : OnlyChanges L s0 s) : OnlyChanges L s0 (holdFor cause m s) := by
  unfold holdFor
  try dsimp only
  repeat' first
    | with_reducible assumption
    | with_reducible apply only_holdJoin
    | with_reducible apply only_holdStep
    | with_reducible apply only_countHier
    | (with_reducible refine List.Subset.trans ?_ hL; decide)
    | with_reducible apply only_ite
    | split

theorem only_aggregate {L : List Part} {s0 s : State} (m : Line) (hL : ([.health, .evt, .memb, .verdict, .hier, .east, .west, .fmp] : List Part) ⊆ L)
    (hgood : OnlyChanges L s0 s) : OnlyChanges L s0 (aggregate m s) := by
  unfold aggregate
  try dsimp only
  repeat' first
    | with_reducible assumption
    | with_reducible apply only_holdFor
    | with_reducible apply only_acceptMsg
    | with_reducible apply only_keepMsg
    | with_reducible apply only_countHier
    | (with_reducible refine List.Subset.trans ?_ hL; decide)
    | with_reducible apply only_ite
    | split

theorem only_recheckKept {L : List Part} {s0 s : State}  (hL : ([.health, .evt, .memb, .verdict, .hier, .east, .west, .fmp] : List Part) ⊆ L)
    (hgood : OnlyChanges L s0 s) : OnlyChanges L s0 (recheckKept s) := by
  unfold recheckKept
  try dsimp only
  repeat' first
    | with_reducible assumption
    | with_reducible apply only_aggregate
    | (with_reducible refine List.Subset.trans ?_ hL; decide)
    | intro _ _ _
    | with_reducible apply only_foldl
    | with_reducible apply only_set_hier
    | (with_reducible refine only_in hL ?_; decide)

theorem only_contribute {L : List Part} {s0 s : State}  (hL : ([.step, .tongue, .hier, .east, .west] : List Part) ⊆ L)
    (hgood : OnlyChanges L s0 s) : OnlyChanges L s0 (contribute s) := by
  unfold contribute
  try dsimp only
  repeat' first
    | with_reducible assumption
    | with_reducible apply only_sendToManager
    | (with_reducible refine List.Subset.trans ?_ hL; decide)
    | with_reducible apply only_ite
    | split
    | with_reducible apply only_set_step_tongue
    | with_reducible apply only_set_hier
    | with_reducible apply only_set_step_tongue_hier
    | (with_reducible refine only_in hL ?_; decide)

theorem only_sendJoin {L : List Part} {s0 s : State}  (hL : ([.hier, .east, .west] : List Part) ⊆ L)
    (hgood : OnlyChanges L s0 s) : OnlyChanges L s0 (sendJoin s) := by
  unfold sendJoin
  try dsimp only
  repeat' first
    | with_reducible assumption
    | with_reducible apply only_sendToManager
    | (with_reducible refine List.Subset.trans ?_ hL; decide)
    | with_reducible apply only_set_hier
    | (with_reducible refine only_in hL ?_; decide)

theorem only_forgetAttempt {L : List Part} {s0 s : State}  (hL : ([.verdict, .hier] : List Part) ⊆ L)
    (hgood : OnlyChanges L s0 s) : OnlyChanges L s0 (forgetAttempt s) := by
  unfold forgetAttempt
  try dsimp only
  repeat' first
    | with_reducible assumption
    | with_reducible apply only_set_verdict_hier
    | (with_reducible refine only_in hL ?_; decide)

theorem only_nextAttempt {L : List Part} {s0 s : State}  (hL : ([.health, .evt, .memb, .verdict, .hier, .east, .west, .fmp] : List Part) ⊆ L)
    (hgood : OnlyChanges L s0 s) : OnlyChanges L s0 (nextAttempt s) := by
  unfold nextAttempt
  try dsimp only
  repeat' first
    | with_reducible assumption
    | with_reducible apply only_forgetAttempt
    | with_reducible apply only_recheckKept
    | (with_reducible refine List.Subset.trans ?_ hL; decide)
    | with_reducible apply only_set_verdict
    | (with_reducible refine only_in hL ?_; decide)

theorem only_setStep {L : List Part} {s0 s : State} (n : BitVec 32) (hL : ([.health, .evt, .step, .memb, .verdict, .hier, .east, .west, .ring, .fmp] : List Part) ⊆ L)
    (hgood : OnlyChanges L s0 s) : OnlyChanges L s0 (setStep n s) := by
  unfold setStep
  try dsimp only
  repeat' first
    | with_reducible assumption
    | with_reducible apply only_forgetAttempt
    | with_reducible apply only_recheckKept
    | (with_reducible refine List.Subset.trans ?_ hL; decide)
    | with_reducible apply only_set_step
    | with_reducible apply only_set_verdict_ring
    | with_reducible apply only_set_step_verdict_ring
    | (with_reducible refine only_in hL ?_; decide)

theorem only_applyMemb {L : List Part} {s0 s : State}  (hL : ([.health, .evt, .memb, .verdict, .hier, .east, .west, .ring, .fmp] : List Part) ⊆ L)
    (hgood : OnlyChanges L s0 s) : OnlyChanges L s0 (applyMemb s) := by
  unfold applyMemb
  try dsimp only
  repeat' first
    | with_reducible assumption
    | with_reducible apply only_sendJoin
    | with_reducible apply only_recheckKept
    | (with_reducible refine List.Subset.trans ?_ hL; decide)
    | with_reducible apply only_ite
    | split
    | with_reducible apply only_set_memb_verdict_hier_ring
    | (with_reducible refine only_in hL ?_; decide)

theorem only_writeMembCommit {L : List Part} {s0 s : State} (w : Word) (hL : ([.memb] : List Part) ⊆ L)
    (hgood : OnlyChanges L s0 s) : OnlyChanges L s0 (writeMembCommit w s) := by
  unfold writeMembCommit
  try dsimp only
  repeat' first
    | with_reducible assumption
    | with_reducible apply only_ite
    | split
    | with_reducible apply only_set_memb
    | (with_reducible refine only_in hL ?_; decide)

theorem only_freeBuffer {L : List Part} {s0 s : State} (d : Side) (vc : BitVec 2) (hL : ([.east, .west] : List Part) ⊆ L)
    (hgood : OnlyChanges L s0 s) : OnlyChanges L s0 (freeBuffer d vc s) := by
  unfold freeBuffer
  try dsimp only
  repeat' first
    | with_reducible assumption
    | with_reducible apply only_setLink
    | (with_reducible refine List.Subset.trans ?_ hL; decide)

theorem only_takeInbox {L : List Part} {s0 s : State} (src : Source) (m : Line) (hL : ([.hier, .east, .west] : List Part) ⊆ L)
    (hgood : OnlyChanges L s0 s) : OnlyChanges L s0 (takeInbox src m s) := by
  unfold takeInbox
  try dsimp only
  repeat' first
    | with_reducible assumption
    | with_reducible apply only_freeBuffer
    | (with_reducible refine List.Subset.trans ?_ hL; decide)
    | split
    | with_reducible apply only_set_hier
    | (with_reducible refine only_in hL ?_; decide)

theorem only_fromBelow {L : List Part} {s0 s : State} (src : Source) (m : Line) (hL : ([.health, .evt, .memb, .verdict, .hier, .east, .west, .fmp] : List Part) ⊆ L)
    (hgood : OnlyChanges L s0 s) : OnlyChanges L s0 (fromBelow src m s) := by
  unfold fromBelow
  try dsimp only
  repeat' first
    | with_reducible assumption
    | with_reducible apply only_takeInbox
    | with_reducible apply only_aggregate
    | (with_reducible refine List.Subset.trans ?_ hL; decide)
    | with_reducible apply only_ite
    | split

theorem only_takeOpen {L : List Part} {s0 s : State} (src : Source) (m : Line) (hL : ([.boot, .evt, .memb, .verdict, .hier, .east, .west, .ring, .fmp] : List Part) ⊆ L)
    (hgood : OnlyChanges L s0 s) : OnlyChanges L s0 (takeOpen src m s) := by
  unfold takeOpen
  try dsimp only
  repeat' first
    | with_reducible assumption
    | with_reducible apply only_takeInbox
    | with_reducible apply only_sendBelow
    | with_reducible apply only_bootTo
    | with_reducible apply only_broadcast
    | with_reducible apply only_pulse
    | with_reducible apply only_countHier
    | (with_reducible refine List.Subset.trans ?_ hL; decide)
    | with_reducible apply only_ite
    | split
    | with_reducible apply only_set_ring
    | with_reducible apply only_set_memb_verdict_hier
    | with_reducible apply only_set_memb_verdict_hier_ring
    | (with_reducible refine only_in hL ?_; decide)

end Sys2Proof.Machine
end

