-- ==== Sys2Proof/Laws/OnlyJournal.lean ====
section
/-! SUPPORT. Which parts of the state each operation of Machine/Journal.lean may change (Laws/Only.lean). -/
namespace Sys2Proof.Machine

-- the proofs below are one script for many operations, of which each uses its own part
set_option linter.unusedTactic false
set_option linter.unreachableTactic false

theorem only_setPass {L : List Part} {s0 s : State} (f : Pass → Pass) (hL : ([.sweep] : List Part) ⊆ L)
    (hgood : OnlyChanges L s0 s) : OnlyChanges L s0 (setPass f s) := by
  unfold setPass
  try dsimp only
  repeat' first
    | with_reducible assumption
    | with_reducible apply only_set_sweep
    | (with_reducible refine only_in hL ?_; decide)

theorem only_setSweep {L : List Part} {s0 s : State} (f : SweepUnit → SweepUnit) (hL : ([.sweep] : List Part) ⊆ L)
    (hgood : OnlyChanges L s0 s) : OnlyChanges L s0 (setSweep f s) := by
  unfold setSweep
  try dsimp only
  repeat' first
    | with_reducible assumption
    | with_reducible apply only_set_sweep
    | (with_reducible refine only_in hL ?_; decide)

theorem only_rampStart {L : List Part} {s0 s : State} (hL : ([.sweep] : List Part) ⊆ L)
    (hgood : OnlyChanges L s0 s) : OnlyChanges L s0 (rampStart s) := only_setPass _ hL hgood

theorem only_setSlot {L : List Part} {s0 s : State} (ord : Nat) (x : Word) (hL : ([.sweep] : List Part) ⊆ L)
    (hgood : OnlyChanges L s0 s) : OnlyChanges L s0 (setSlot ord x s) := by
  unfold setSlot
  try dsimp only
  repeat' first
    | with_reducible assumption
    | with_reducible apply only_setSweep
    | (with_reducible refine List.Subset.trans ?_ hL; decide)

theorem only_writeMarks {L : List Part} {s0 s : State}  (hL : ([.mem, .sweep] : List Part) ⊆ L)
    (hgood : OnlyChanges L s0 s) : OnlyChanges L s0 (writeMarks s) := by
  unfold writeMarks
  try dsimp only
  repeat' first
    | with_reducible assumption
    | with_reducible apply only_setSweep
    | with_reducible apply only_enqueue
    | (with_reducible refine List.Subset.trans ?_ hL; decide)

theorem only_syncMarks {L : List Part} {s0 s : State}  (hL : ([.sweep] : List Part) ⊆ L)
    (hgood : OnlyChanges L s0 s) : OnlyChanges L s0 (syncMarks s) := by
  unfold syncMarks
  try dsimp only
  repeat' first
    | with_reducible assumption
    | with_reducible apply only_setSweep
    | (with_reducible refine List.Subset.trans ?_ hL; decide)
    | with_reducible apply only_ite
    | split

theorem only_writeJournalLine {L : List Part} {s0 s : State} (idx : Nat) (hL : ([.mem] : List Part) ⊆ L)
    (hgood : OnlyChanges L s0 s) : OnlyChanges L s0 (writeJournalLine idx s) := by
  unfold writeJournalLine
  try dsimp only
  repeat' first
    | with_reducible assumption
    | with_reducible apply only_enqueue
    | (with_reducible refine List.Subset.trans ?_ hL; decide)
    | split

theorem only_writeJournal {L : List Part} {s0 s : State} (idxs : List Nat) (hL : ([.mem, .sweep] : List Part) ⊆ L)
    (hgood : OnlyChanges L s0 s) : OnlyChanges L s0 (writeJournal idxs s) := by
  unfold writeJournal
  try dsimp only
  repeat' first
    | with_reducible assumption
    | with_reducible apply only_writeJournalLine
    | with_reducible apply only_setPass
    | (with_reducible refine List.Subset.trans ?_ hL; decide)
    | intro _ _ _
    | with_reducible apply only_foldl

theorem only_releaseOne {L : List Part} {s0 s : State}  (hL : ([.evt, .mem, .step, .sweep] : List Part) ⊆ L)
    (hgood : OnlyChanges L s0 s) : OnlyChanges L s0 (releaseOne s) := by
  unfold releaseOne
  try dsimp only
  repeat' first
    | with_reducible assumption
    | with_reducible apply only_writeMarks
    | with_reducible apply only_pulse
    | (with_reducible refine List.Subset.trans ?_ hL; decide)
    | with_reducible apply only_set_step
    | (with_reducible refine only_in hL ?_; decide)

theorem only_releaseDue {L : List Part} {s0 s : State}  (hL : ([.evt, .mem, .step, .sweep] : List Part) ⊆ L)
    (hgood : OnlyChanges L s0 s) : OnlyChanges L s0 (releaseDue s) := by
  unfold releaseDue
  try dsimp only
  repeat' first
    | with_reducible assumption
    | with_reducible apply only_releaseOne
    | (with_reducible refine List.Subset.trans ?_ hL; decide)
    | intro _ _ _
    | with_reducible apply only_foldl
    | with_reducible apply only_ite
    | split

theorem only_logRepair {L : List Part} {s0 s : State} (pos : Word) (blocks : BitVec 32) (kind : BitVec 8) (hL : ([.health, .mem, .sweep] : List Part) ⊆ L)
    (hgood : OnlyChanges L s0 s) : OnlyChanges L s0 (logRepair pos blocks kind s) := by
  unfold logRepair
  try dsimp only
  repeat' first
    | with_reducible assumption
    | with_reducible apply only_setSweep
    | with_reducible apply only_enqueue
    | with_reducible apply only_report
    | (with_reducible refine List.Subset.trans ?_ hL; decide)
    | with_reducible apply only_ite
    | split

theorem only_clearRepairs {L : List Part} {s0 s : State}  (hL : ([.mem, .sweep] : List Part) ⊆ L)
    (hgood : OnlyChanges L s0 s) : OnlyChanges L s0 (clearRepairs s) := by
  unfold clearRepairs
  try dsimp only
  repeat' first
    | with_reducible assumption
    | with_reducible apply only_setSweep
    | with_reducible apply only_enqueueAll
    | (with_reducible refine List.Subset.trans ?_ hL; decide)

end Sys2Proof.Machine
end

