-- ==== Sys2Proof/Laws/OnlyRegulator.lean ====
section
/-! SUPPORT. Which parts of the state each operation of Machine/Regulator.lean may change (Laws/Only.lean). -/
namespace Sys2Proof.Machine

-- the proofs below are one script for many operations, of which each uses its own part
set_option linter.unusedTactic false
set_option linter.unreachableTactic false

theorem only_rescale {L : List Part} {s0 s : State}  (hL : ([.health, .mem] : List Part) ⊆ L)
    (hgood : OnlyChanges L s0 s) : OnlyChanges L s0 (rescale s) := by
  unfold rescale
  try dsimp only
  repeat' first
    | with_reducible assumption
    | with_reducible apply only_setMem
    | with_reducible apply only_report
    | (with_reducible refine List.Subset.trans ?_ hL; decide)
    | with_reducible apply only_ite
    | split

theorem only_setThermal {L : List Part} {s0 s : State} (f : Thermal → Thermal) (hL : ([.mem] : List Part) ⊆ L)
    (hgood : OnlyChanges L s0 s) : OnlyChanges L s0 (setThermal f s) := by
  unfold setThermal
  try dsimp only
  repeat' first
    | with_reducible assumption
    | with_reducible apply only_setMem
    | (with_reducible refine List.Subset.trans ?_ hL; decide)

theorem only_setPaused {L : List Part} {s0 s : State} (p : Bool) (hL : ([.evt, .mem] : List Part) ⊆ L)
    (hgood : OnlyChanges L s0 s) : OnlyChanges L s0 (setPaused p s) := by
  unfold setPaused
  try dsimp only
  repeat' first
    | with_reducible assumption
    | with_reducible apply only_setThermal
    | with_reducible apply only_pulse
    | (with_reducible refine List.Subset.trans ?_ hL; decide)
    | with_reducible apply only_ite
    | split

theorem only_setTarget {L : List Part} {s0 s : State} (target : Nat) (hL : ([.mem] : List Part) ⊆ L)
    (hgood : OnlyChanges L s0 s) : OnlyChanges L s0 (setTarget target s) := by
  unfold setTarget
  try dsimp only
  repeat' first
    | with_reducible assumption
    | with_reducible apply only_setThermal
    | (with_reducible refine List.Subset.trans ?_ hL; decide)
    | with_reducible apply only_ite
    | split

theorem only_thermalReport {L : List Part} {s0 s : State} (temp limit : BitVec 8) (par : BitVec 2) (hL : ([.evt, .mem, .far] : List Part) ⊆ L)
    (hgood : OnlyChanges L s0 s) : OnlyChanges L s0 (thermalReport temp limit par s) := by
  unfold thermalReport
  try dsimp only
  repeat' first
    | with_reducible assumption
    | with_reducible apply only_setTarget
    | with_reducible apply only_setPaused
    | with_reducible apply only_setThermal
    | with_reducible apply only_countPort
    | (with_reducible refine List.Subset.trans ?_ hL; decide)
    | with_reducible apply only_ite
    | split

theorem only_thermalStale {L : List Part} {s0 s : State}  (hL : ([.health, .evt, .mem] : List Part) ⊆ L)
    (hgood : OnlyChanges L s0 s) : OnlyChanges L s0 (thermalStale s) := by
  unfold thermalStale
  try dsimp only
  repeat' first
    | with_reducible assumption
    | with_reducible apply only_setTarget
    | with_reducible apply only_setPaused
    | with_reducible apply only_setThermal
    | with_reducible apply only_report
    | (with_reducible refine List.Subset.trans ?_ hL; decide)
    | with_reducible apply only_ite
    | split

theorem only_judgeImbalance {L : List Part} {s0 s : State}  (hL : ([.health, .mem] : List Part) ⊆ L)
    (hgood : OnlyChanges L s0 s) : OnlyChanges L s0 (judgeImbalance s) := by
  unfold judgeImbalance
  try dsimp only
  repeat' first
    | with_reducible assumption
    | with_reducible apply only_setMem
    | with_reducible apply only_report
    | with_reducible apply only_countMp
    | (with_reducible refine List.Subset.trans ?_ hL; decide)
    | with_reducible apply only_ite
    | split

theorem only_windowEnd {L : List Part} {s0 s : State}  (hL : ([.health, .mem] : List Part) ⊆ L)
    (hgood : OnlyChanges L s0 s) : OnlyChanges L s0 (windowEnd s) := by
  unfold windowEnd
  try dsimp only
  repeat' first
    | with_reducible assumption
    | with_reducible apply only_judgeImbalance
    | with_reducible apply only_rescale
    | with_reducible apply only_setMem
    | with_reducible apply only_countMp
    | (with_reducible refine List.Subset.trans ?_ hL; decide)
    | with_reducible apply only_ite
    | split

theorem only_writeMpCommit {L : List Part} {s0 s : State} (w : Word) (hL : ([.mem] : List Part) ⊆ L)
    (hgood : OnlyChanges L s0 s) : OnlyChanges L s0 (writeMpCommit w s) := by
  unfold writeMpCommit
  try dsimp only
  repeat' first
    | with_reducible assumption
    | with_reducible apply only_setMem
    | (with_reducible refine List.Subset.trans ?_ hL; decide)
    | with_reducible apply only_ite
    | split

theorem only_applyMp {L : List Part} {s0 s : State}  (hL : ([.health, .mem] : List Part) ⊆ L)
    (hgood : OnlyChanges L s0 s) : OnlyChanges L s0 (applyMp s) := by
  unfold applyMp
  try dsimp only
  repeat' first
    | with_reducible assumption
    | with_reducible apply only_rescale
    | with_reducible apply only_setMem
    | (with_reducible refine List.Subset.trans ?_ hL; decide)
    | with_reducible apply only_ite
    | split

end Sys2Proof.Machine
end

