-- ==== Sys2Proof/Laws/OnlyTongue.lean ====
section
/-! SUPPORT. Which parts of the state each operation of Machine/Tongue.lean may change (Laws/Only.lean). -/
namespace Sys2Proof.Machine

-- the proofs below are one script for many operations, of which each uses its own part
set_option linter.unusedTactic false
set_option linter.unreachableTactic false

theorem only_setNorm {L : List Part} {s0 s : State} (t : Nat) (f : NormRec → NormRec) (hL : ([.tongue] : List Part) ⊆ L)
    (hgood : OnlyChanges L s0 s) : OnlyChanges L s0 (setNorm t f s) := by
  unfold setNorm
  try dsimp only
  repeat' first
    | with_reducible assumption
    | with_reducible apply only_set_tongue
    | (with_reducible refine only_in hL ?_; decide)

theorem only_clearGradients {L : List Part} {s0 s : State}  (hL : ([.tongue] : List Part) ⊆ L)
    (hgood : OnlyChanges L s0 s) : OnlyChanges L s0 (clearGradients s) := by
  unfold clearGradients
  try dsimp only
  repeat' first
    | with_reducible assumption
    | with_reducible apply only_setNorm
    | (with_reducible refine List.Subset.trans ?_ hL; decide)
    | intro _ _ _
    | with_reducible apply only_foldl
    | with_reducible apply only_ite
    | split
    | with_reducible apply only_set_tongue
    | (with_reducible refine only_in hL ?_; decide)

theorem only_accumulate {L : List Part} {s0 s : State} (t l : Nat) (data : Line) (hL : ([.tongue] : List Part) ⊆ L)
    (hgood : OnlyChanges L s0 s) : OnlyChanges L s0 (accumulate t l data s) := by
  unfold accumulate
  try dsimp only
  repeat' first
    | with_reducible assumption
    | with_reducible apply only_setNorm
    | (with_reducible refine List.Subset.trans ?_ hL; decide)
    | intro _ _ _
    | with_reducible apply only_foldl
    | with_reducible apply only_set_tongue
    | (with_reducible refine only_in hL ?_; decide)

theorem only_mapStart {L : List Part} {s0 s : State}  (hL : ([.tongue] : List Part) ⊆ L)
    (hgood : OnlyChanges L s0 s) : OnlyChanges L s0 (mapStart s) := by
  unfold mapStart
  try dsimp only
  repeat' first
    | with_reducible assumption
    | with_reducible apply only_ite
    | split
    | with_reducible apply only_set_tongue
    | (with_reducible refine only_in hL ?_; decide)

theorem only_mapBuildEnd {L : List Part} {s0 s : State}  (hL : ([.health, .tongue] : List Part) ⊆ L)
    (hgood : OnlyChanges L s0 s) : OnlyChanges L s0 (mapBuildEnd s) := by
  unfold mapBuildEnd
  try dsimp only
  repeat' first
    | with_reducible assumption
    | with_reducible apply only_report
    | (with_reducible refine List.Subset.trans ?_ hL; decide)
    | split
    | with_reducible apply only_set_tongue
    | (with_reducible refine only_in hL ?_; decide)

theorem only_freeLine {L : List Part} {s0 s : State}  (hL : ([.freeCtr] : List Part) ⊆ L)
    (hgood : OnlyChanges L s0 s) : OnlyChanges L s0 (freeLine s).2 := by
  unfold freeLine
  try dsimp only
  repeat' first
    | with_reducible assumption
    | intro _ _ _
    | with_reducible apply only_foldl
    | with_reducible apply only_set_freeCtr
    | (with_reducible refine only_in hL ?_; decide)

theorem only_freeLine_eq {L : List Part} {s0 s t : State} {a : Line}  (hL : ([.freeCtr] : List Part) ⊆ L)
    (heq : freeLine s = (a, t)) (hgood : OnlyChanges L s0 s) : OnlyChanges L s0 t := by
  have h := only_freeLine  hL hgood
  rw [heq] at h
  exact h

theorem only_lineOrFree {L : List Part} {s0 s : State} (data : Option Line) (hL : ([.freeCtr] : List Part) ⊆ L)
    (hgood : OnlyChanges L s0 s) : OnlyChanges L s0 (lineOrFree data s).2 := by
  cases data with
  | some l => exact hgood
  | none => exact only_freeLine hL hgood

theorem only_setNormPass {L : List Part} {s0 s : State} (f : NormPass → NormPass) (hL : ([.tongue] : List Part) ⊆ L)
    (hgood : OnlyChanges L s0 s) : OnlyChanges L s0 (setNormPass f s) := by
  unfold setNormPass
  try dsimp only
  repeat' first
    | with_reducible assumption
    | with_reducible apply only_set_tongue
    | (with_reducible refine only_in hL ?_; decide)

theorem only_normTensorDone {L : List Part} {s0 s : State} (t : Nat) (hL : ([.tongue] : List Part) ⊆ L)
    (hgood : OnlyChanges L s0 s) : OnlyChanges L s0 (normTensorDone t s) := by
  unfold normTensorDone
  try dsimp only
  repeat' first
    | with_reducible assumption
    | with_reducible apply only_setNorm
    | (with_reducible refine List.Subset.trans ?_ hL; decide)

theorem only_withoutShare {L : List Part} {s0 s : State} (t : Nat) (hL : ([.tongue] : List Part) ⊆ L)
    (hgood : OnlyChanges L s0 s) : OnlyChanges L s0 (withoutShare t s) := by
  unfold withoutShare
  try dsimp only
  repeat' first
    | with_reducible assumption
    | intro _ _ _
    | with_reducible apply only_foldl
    | with_reducible apply only_ite
    | split
    | with_reducible apply only_set_tongue
    | (with_reducible refine only_in hL ?_; decide)

theorem only_normNext {L : List Part} {s0 : State} (n : Nat) {s : State} (hL : ([.mem, .tongue] : List Part) ⊆ L)
    (h : OnlyChanges L s0 s) : OnlyChanges L s0 (normNext n s) := by
  induction n generalizing s with
  | zero => exact h
  | succ n ih =>
    unfold normNext
    try dsimp only
    repeat' first
      | with_reducible assumption
      | apply ih
      | with_reducible apply only_withoutShare
      | with_reducible apply only_normTensorDone
      | with_reducible apply only_setNormPass
      | with_reducible apply only_setNorm
      | with_reducible apply only_enqueueAll
      | (with_reducible refine List.Subset.trans ?_ hL; decide)
      | with_reducible apply only_ite
      | split

theorem only_normStart {L : List Part} {s0 s : State}  (hL : ([.evt, .mem, .step, .tongue] : List Part) ⊆ L)
    (hgood : OnlyChanges L s0 s) : OnlyChanges L s0 (normStart s) := by
  unfold normStart
  try dsimp only
  repeat' first
    | with_reducible assumption
    | with_reducible apply only_normNext
    | with_reducible apply only_clearGradients
    | with_reducible apply only_pulse
    | with_reducible apply only_countTongue
    | (with_reducible refine List.Subset.trans ?_ hL; decide)
    | with_reducible apply only_set_step_tongue
    | (with_reducible refine only_in hL ?_; decide)

theorem only_normLineDone {L : List Part} {s0 s : State} (t l : Nat) (data : Option Line) (hL : ([.mem, .tongue, .freeCtr] : List Part) ⊆ L)
    (hgood : OnlyChanges L s0 s) : OnlyChanges L s0 (normLineDone t l data s) := by
  unfold normLineDone
  try dsimp only
  repeat' first
    | with_reducible assumption
    | with_reducible apply only_normNext
    | with_reducible apply only_normTensorDone
    | with_reducible apply only_setNormPass
    | with_reducible apply only_lineOrFree
    | (with_reducible refine only_lineOrFree_eq ?_ ‹_› ?_)
    | with_reducible apply only_accumulate
    | (with_reducible refine List.Subset.trans ?_ hL; decide)
    | with_reducible apply only_ite
    | split

theorem only_normStop {L : List Part} {s0 s : State}  (hL : ([.mem, .tongue] : List Part) ⊆ L)
    (hgood : OnlyChanges L s0 s) : OnlyChanges L s0 (normStop s) := by
  unfold normStop
  try dsimp only
  repeat' first
    | with_reducible assumption
    | with_reducible apply only_dropReads
    | (with_reducible refine List.Subset.trans ?_ hL; decide)
    | with_reducible apply only_set_tongue
    | (with_reducible refine only_in hL ?_; decide)

theorem only_observeWrite {L : List Part} {s0 s : State} (line : BitVec 34) (mask : BitVec 64) (data : Line) (hL : ([.tongue] : List Part) ⊆ L)
    (hgood : OnlyChanges L s0 s) : OnlyChanges L s0 (observeWrite line mask data s) := by
  unfold observeWrite
  try dsimp only
  repeat' first
    | with_reducible assumption
    | with_reducible apply only_accumulate
    | with_reducible apply only_setNorm
    | with_reducible apply only_countTongue
    | (with_reducible refine List.Subset.trans ?_ hL; decide)
    | with_reducible apply only_ite
    | split

theorem only_lateWrite {L : List Part} {s0 s : State} (line : BitVec 34) (hL : ([.health, .mem, .tongue] : List Part) ⊆ L)
    (hgood : OnlyChanges L s0 s) : OnlyChanges L s0 (lateWrite line s) := by
  unfold lateWrite
  try dsimp only
  repeat' first
    | with_reducible assumption
    | with_reducible apply only_normNext
    | with_reducible apply only_setNorm
    | with_reducible apply only_report
    | with_reducible apply only_countTongue
    | (with_reducible refine List.Subset.trans ?_ hL; decide)
    | with_reducible apply only_ite
    | split
    | with_reducible apply only_set_tongue
    | (with_reducible refine only_in hL ?_; decide)

theorem only_atMark {L : List Part} {s0 s : State} (m : TongueMark) (hL : ([.tongue] : List Part) ⊆ L)
    (hgood : OnlyChanges L s0 s) : OnlyChanges L s0 (atMark m s) := by
  unfold atMark
  try dsimp only
  repeat' first
    | with_reducible assumption
    | with_reducible apply only_set_tongue
    | (with_reducible refine only_in hL ?_; decide)

theorem only_noteTaken {L : List Part} {s0 s : State} (x : TakenLine) (hL : ([.tongue] : List Part) ⊆ L)
    (hgood : OnlyChanges L s0 s) : OnlyChanges L s0 (noteTaken x s) := by
  unfold noteTaken
  try dsimp only
  repeat' first
    | with_reducible assumption
    | with_reducible apply only_atMark
    | (with_reducible refine List.Subset.trans ?_ hL; decide)
    | with_reducible apply only_ite
    | split
    | with_reducible apply only_set_tongue
    | (with_reducible refine only_in hL ?_; decide)

theorem only_moveTaken {L : List Part} {s0 s : State} (port : BitVec 5) (tag : BitVec 12) (old : Nat) (new : Option Nat) (hL : ([.tongue] : List Part) ⊆ L)
    (hgood : OnlyChanges L s0 s) : OnlyChanges L s0 (moveTaken port tag old new s) := by
  unfold moveTaken
  try dsimp only
  repeat' first
    | with_reducible assumption
    | with_reducible apply only_ite
    | split
    | with_reducible apply only_set_tongue
    | (with_reducible refine only_in hL ?_; decide)

theorem only_unwindTaken {L : List Part} {s0 s : State}  (hL : ([.health, .mem, .tongue] : List Part) ⊆ L)
    (hgood : OnlyChanges L s0 s) : OnlyChanges L s0 (unwindTaken s) := by
  unfold unwindTaken
  try dsimp only
  repeat' first
    | with_reducible assumption
    | with_reducible apply only_atMark
    | with_reducible apply only_lateWrite
    | with_reducible apply only_observeWrite
    | (with_reducible refine List.Subset.trans ?_ hL; decide)
    | intro _ _ _
    | with_reducible apply only_foldl
    | with_reducible apply only_ite
    | split
    | with_reducible apply only_set_tongue
    | (with_reducible refine only_in hL ?_; decide)

theorem only_earlyWrite {L : List Part} {s0 s : State} (line : BitVec 34) (hL : ([.health, .tongue] : List Part) ⊆ L)
    (hgood : OnlyChanges L s0 s) : OnlyChanges L s0 (earlyWrite line s) := by
  unfold earlyWrite
  try dsimp only
  repeat' first
    | with_reducible assumption
    | with_reducible apply only_report
    | with_reducible apply only_countTongue
    | (with_reducible refine List.Subset.trans ?_ hL; decide)
    | with_reducible apply only_ite
    | split

theorem only_tongueTake {L : List Part} {s0 s : State} (line : BitVec 34) (mask : BitVec 64) (data : Line) (hL : ([.health, .mem, .tongue] : List Part) ⊆ L)
    (hgood : OnlyChanges L s0 s) : OnlyChanges L s0 (tongueTake line mask data s) := by
  unfold tongueTake
  try dsimp only
  repeat' first
    | with_reducible assumption
    | with_reducible apply only_earlyWrite
    | with_reducible apply only_lateWrite
    | with_reducible apply only_observeWrite
    | (with_reducible refine List.Subset.trans ?_ hL; decide)
    | with_reducible apply only_ite
    | split

theorem only_enterObserve {L : List Part} {s0 s : State}  (hL : ([.step, .tongue, .verdict, .hier] : List Part) ⊆ L)
    (hgood : OnlyChanges L s0 s) : OnlyChanges L s0 (enterObserve s) := by
  unfold enterObserve
  try dsimp only
  repeat' first
    | with_reducible assumption
    | with_reducible apply only_set_step_tongue_verdict_hier
    | (with_reducible refine only_in hL ?_; decide)

theorem only_writeArm {L : List Part} {s0 s : State} (w : Word) (hL : ([.health, .step, .tongue] : List Part) ⊆ L)
    (hgood : OnlyChanges L s0 s) : OnlyChanges L s0 (writeArm w s) := by
  unfold writeArm
  try dsimp only
  repeat' first
    | with_reducible assumption
    | with_reducible apply only_clearGradients
    | with_reducible apply only_report
    | (with_reducible refine List.Subset.trans ?_ hL; decide)
    | with_reducible apply only_ite
    | split
    | with_reducible apply only_set_tongue
    | with_reducible apply only_set_step_tongue
    | (with_reducible refine only_in hL ?_; decide)

theorem only_armCleared {L : List Part} {s0 s : State}  (hL : ([.step, .tongue, .verdict, .hier] : List Part) ⊆ L)
    (hgood : OnlyChanges L s0 s) : OnlyChanges L s0 (armCleared s) := by
  unfold armCleared
  try dsimp only
  repeat' first
    | with_reducible assumption
    | with_reducible apply only_enterObserve
    | (with_reducible refine List.Subset.trans ?_ hL; decide)
    | with_reducible apply only_ite
    | split
    | with_reducible apply only_set_tongue
    | (with_reducible refine only_in hL ?_; decide)

end Sys2Proof.Machine
end

