-- ==== Sys2Proof/Laws/OnlySweep.lean ====
section
/-! SUPPORT. Which parts of the state each operation of Machine/Sweep.lean may change (Laws/Only.lean). -/
namespace Sys2Proof.Machine

-- the proofs below are one script for many operations, of which each uses its own part
set_option linter.unusedTactic false
set_option linter.unreachableTactic false

theorem only_fetchGranted {L : List Part} {s0 s : State} (hs : List (BitVec 16)) (hL : ([.sweep] : List Part) ⊆ L)
    (hgood : OnlyChanges L s0 s) : OnlyChanges L s0 (fetchGranted hs s) := by
  unfold fetchGranted
  try dsimp only
  repeat' first
    | with_reducible assumption
    | with_reducible apply only_setPass
    | (with_reducible refine List.Subset.trans ?_ hL; decide)
    | split

theorem only_setTile {L : List Part} {s0 s : State} (ord : Nat) (f : TileSt → TileSt) (hL : ([.sweep] : List Part) ⊆ L)
    (hgood : OnlyChanges L s0 s) : OnlyChanges L s0 (setTile ord f s) := by
  unfold setTile
  try dsimp only
  repeat' first
    | with_reducible assumption
    | with_reducible apply only_setPass
    | (with_reducible refine List.Subset.trans ?_ hL; decide)
    | with_reducible apply only_ite
    | split

theorem only_issueTile {L : List Part} {s0 s : State} (im : Image) (p : Pass) (o : Nat) (c : TileClass) (miss tensor tile : Nat) (hL : ([.mem, .sweep] : List Part) ⊆ L)
    (hgood : OnlyChanges L s0 s) : OnlyChanges L s0 (issueTile s im p o c miss tensor tile) := by
  unfold issueTile
  try dsimp only
  repeat' first
    | with_reducible assumption
    | with_reducible apply only_setPass
    | with_reducible apply only_enqueueAll
    | with_reducible apply only_countMp
    | (with_reducible refine List.Subset.trans ?_ hL; decide)
    | with_reducible apply only_ite
    | split

theorem only_fetchIssue {L : List Part} {s0 s : State}  (hL : ([.mem, .sweep] : List Part) ⊆ L)
    (hgood : OnlyChanges L s0 s) : OnlyChanges L s0 (fetchIssue s) := by
  unfold fetchIssue
  try dsimp only
  repeat' first
    | with_reducible assumption
    | with_reducible apply only_issueTile
    | (with_reducible refine List.Subset.trans ?_ hL; decide)
    | with_reducible apply only_ite
    | split

theorem only_parseIndex {L : List Part} {s0 : State} (tensor rows : Nat) (prev : Option Nat) (l : List Nat) {s : State}
    (hL : ([.health] : List Part) ⊆ L) (hgood : OnlyChanges L s0 s) : OnlyChanges L s0 (parseIndex tensor rows prev l s).2 := by
  induction l generalizing s prev with
  | nil => exact hgood
  | cons x l ih =>
    unfold parseIndex
    dsimp only
    apply ih
    split
    · exact only_report _ _ hL hgood
    · split
      · exact only_report _ _ hL hgood
      · exact hgood

theorem only_indexLine {L : List Part} {s0 s : State} (tensor i : Nat) (data : Option Line) (hL : ([.health, .mem, .sweep, .xch, .freeCtr] : List Part) ⊆ L)
    (hgood : OnlyChanges L s0 s) : OnlyChanges L s0 (indexLine tensor i data s) := by
  unfold indexLine
  try dsimp only
  repeat' first
    | with_reducible assumption
    | with_reducible apply only_parseIndex
    | (with_reducible refine only_parseIndex_eq ?_ ‹_› ?_)
    | with_reducible apply only_setPass
    | with_reducible apply only_lagStartAll
    | with_reducible apply only_lineOrFree
    | (with_reducible refine only_lineOrFree_eq ?_ ‹_› ?_)
    | (with_reducible refine List.Subset.trans ?_ hL; decide)
    | with_reducible apply only_ite
    | split

theorem only_readIndexes {L : List Part} {s0 s : State}  (hL : ([.mem] : List Part) ⊆ L)
    (hgood : OnlyChanges L s0 s) : OnlyChanges L s0 (readIndexes s) := by
  unfold readIndexes
  try dsimp only
  repeat' first
    | with_reducible assumption
    | with_reducible apply only_enqueueAll
    | (with_reducible refine List.Subset.trans ?_ hL; decide)

theorem only_chooseVariant {L : List Part} {s0 s : State} (g : Nat) (hL : ([.fab] : List Part) ⊆ L)
    (hgood : OnlyChanges L s0 s) : OnlyChanges L s0 (chooseVariant g s) := by
  unfold chooseVariant
  try dsimp only
  repeat' first
    | with_reducible assumption
    | split
    | with_reducible apply only_set_fab
    | (with_reducible refine only_in hL ?_; decide)

theorem only_beginPass {L : List Part} {s0 s : State} (k : PassKind) (recovery : Bool) (im : Image) (consts : List (BitVec 32)) (clip : F32) (lsK : BitVec 6) (first : Nat) (hL : ([.sweep, .fab] : List Part) ⊆ L)
    (hgood : OnlyChanges L s0 s) : OnlyChanges L s0 (beginPass k recovery im consts clip lsK first s) := by
  unfold beginPass
  try dsimp only
  repeat' first
    | with_reducible assumption
    | with_reducible apply only_chooseVariant
    | with_reducible apply only_setSweep
    | with_reducible apply only_setPass
    | (with_reducible refine List.Subset.trans ?_ hL; decide)
    | with_reducible apply only_ite
    | split
    | with_reducible apply only_set_fab
    | (with_reducible refine only_in hL ?_; decide)

theorem only_fetchBegins {L : List Part} {s0 s : State}  (hL : ([.mem, .sweep] : List Part) ⊆ L)
    (hgood : OnlyChanges L s0 s) : OnlyChanges L s0 (fetchBegins s) := by
  unfold fetchBegins
  try dsimp only
  repeat' first
    | with_reducible assumption
    | with_reducible apply only_readIndexes
    | with_reducible apply only_rampStart
    | (with_reducible refine List.Subset.trans ?_ hL; decide)
    | with_reducible apply only_ite
    | split

theorem only_setPassInfo {L : List Part} {s0 s : State} (im : Image) (done1 : Bool) (k : BitVec 6) (hL : ([.sweep] : List Part) ⊆ L)
    (hgood : OnlyChanges L s0 s) : OnlyChanges L s0 (setPassInfo im done1 k s) := by
  unfold setPassInfo
  try dsimp only
  repeat' first
    | with_reducible assumption
    | with_reducible apply only_setSweep
    | (with_reducible refine List.Subset.trans ?_ hL; decide)

theorem only_openGate {L : List Part} {s0 s : State} (im : Image) (hL : ([.health, .evt, .mem, .step, .aux, .sweep, .fab, .tongue, .verdict, .strm, .pond, .xch, .rng] : List Part) ⊆ L)
    (hgood : OnlyChanges L s0 s) : OnlyChanges L s0 (openGate im s) := by
  unfold openGate
  try dsimp only
  repeat' first
    | with_reducible assumption
    | with_reducible apply only_setPassInfo
    | with_reducible apply only_beginPass
    | with_reducible apply only_writeJournal
    | with_reducible apply only_setSweep
    | with_reducible apply only_setPass
    | with_reducible apply only_exportsGate
    | (with_reducible refine List.Subset.trans ?_ hL; decide)
    | with_reducible apply only_ite
    | split
    | with_reducible apply only_set_step_aux_tongue_verdict_xch_rng
    | (with_reducible refine only_in hL ?_; decide)

theorem only_raiseHalt {L : List Part} {s0 s : State} (h : HaltDue) (hL : ([.sweep] : List Part) ⊆ L)
    (hgood : OnlyChanges L s0 s) : OnlyChanges L s0 (raiseHalt h s) := by
  unfold raiseHalt
  try dsimp only
  repeat' first
    | with_reducible assumption
    | with_reducible apply only_setPass
    | (with_reducible refine List.Subset.trans ?_ hL; decide)
    | with_reducible apply only_ite
    | split

theorem only_raiseTear {L : List Part} {s0 s : State} (fault : JFault) (t : TileSt) (idx : Nat) (weights : Bool) (hL : ([.sweep] : List Part) ⊆ L)
    (hgood : OnlyChanges L s0 s) : OnlyChanges L s0 (raiseTear fault t idx weights s) := by
  unfold raiseTear
  try dsimp only
  repeat' first
    | with_reducible assumption
    | with_reducible apply only_raiseHalt
    | with_reducible apply only_setPass
    | (with_reducible refine List.Subset.trans ?_ hL; decide)
    | with_reducible apply only_ite
    | split

theorem only_discardReads {L : List Part} {s0 s : State} (drops : Who → Bool) (p : Pass) (hL : ([.mem] : List Part) ⊆ L)
    (hgood : OnlyChanges L s0 s) : OnlyChanges L s0 (discardReads drops p s) := by
  unfold discardReads
  try dsimp only
  repeat' first
    | with_reducible assumption
    | with_reducible apply only_ite
    | split
    | with_reducible apply only_set_mem
    | (with_reducible refine only_in hL ?_; decide)

theorem only_giveUpPads {L : List Part} {s0 s : State} (hs : List (BitVec 16)) (hL : ([.health, .strm, .pond] : List Part) ⊆ L)
    (hgood : OnlyChanges L s0 s) : OnlyChanges L s0 (giveUpPads hs s) := by
  unfold giveUpPads
  try dsimp only
  repeat' first
    | with_reducible assumption
    | with_reducible apply only_padFreeAll
    | (with_reducible refine List.Subset.trans ?_ hL; decide)

theorem only_discardedDone {L : List Part} {s0 s : State} (h : BitVec 16) (hL : ([.health, .strm, .pond] : List Part) ⊆ L)
    (hgood : OnlyChanges L s0 s) : OnlyChanges L s0 (discardedDone h s) := by
  unfold discardedDone
  try dsimp only
  repeat' first
    | with_reducible assumption
    | with_reducible apply only_padFree
    | (with_reducible refine List.Subset.trans ?_ hL; decide)
    | with_reducible apply only_ite
    | split

theorem only_endPass {L : List Part} {s0 s : State}  (hL : ([.health, .mem, .sweep, .strm, .pond] : List Part) ⊆ L)
    (hgood : OnlyChanges L s0 s) : OnlyChanges L s0 (endPass s) := by
  unfold endPass
  try dsimp only
  repeat' first
    | with_reducible assumption
    | with_reducible apply only_giveUpPads
    | with_reducible apply only_discardReads
    | with_reducible apply only_setSweep
    | with_reducible apply only_dropReads
    | (with_reducible refine List.Subset.trans ?_ hL; decide)
    | with_reducible apply only_ite
    | split

theorem only_haltStep {L : List Part} {s0 s : State} (p : Pass) (h : HaltDue) (hL : ([.health, .evt, .mem, .step, .aux, .sweep, .tongue, .strm, .pond] : List Part) ⊆ L)
    (hgood : OnlyChanges L s0 s) : OnlyChanges L s0 (haltStep p h s) := by
  unfold haltStep
  try dsimp only
  repeat' first
    | with_reducible assumption
    | with_reducible apply only_endPass
    | with_reducible apply only_syncMarks
    | with_reducible apply only_writeMarks
    | with_reducible apply only_setSweep
    | with_reducible apply only_pulse
    | with_reducible apply only_report
    | (with_reducible refine List.Subset.trans ?_ hL; decide)
    | with_reducible apply only_ite
    | split
    | with_reducible apply only_set_step_aux_tongue
    | (with_reducible refine only_in hL ?_; decide)

theorem only_haltEma {L : List Part} {s0 s : State}  (hL : ([.health, .evt, .mem, .aux, .sweep, .strm, .pond] : List Part) ⊆ L)
    (hgood : OnlyChanges L s0 s) : OnlyChanges L s0 (haltEma s) := by
  unfold haltEma
  try dsimp only
  repeat' first
    | with_reducible assumption
    | with_reducible apply only_endPass
    | with_reducible apply only_pulse
    | (with_reducible refine List.Subset.trans ?_ hL; decide)
    | with_reducible apply only_set_aux
    | (with_reducible refine only_in hL ?_; decide)

theorem only_sweepHalt {L : List Part} {s0 s : State}  (hL : ([.health, .evt, .mem, .step, .aux, .sweep, .tongue, .strm, .pond] : List Part) ⊆ L)
    (hgood : OnlyChanges L s0 s) : OnlyChanges L s0 (sweepHalt s) := by
  unfold sweepHalt
  try dsimp only
  repeat' first
    | with_reducible assumption
    | with_reducible apply only_haltEma
    | with_reducible apply only_haltStep
    | (with_reducible refine List.Subset.trans ?_ hL; decide)
    | with_reducible apply only_ite
    | split

theorem only_reportStamps {L : List Part} {s0 s : State} (im : Image) (p : Pass) (t : TileSt) (hL : ([.health] : List Part) ⊆ L)
    (hgood : OnlyChanges L s0 s) : OnlyChanges L s0 (reportStamps s im p t) := by
  unfold reportStamps
  try dsimp only
  repeat' first
    | with_reducible assumption
    | with_reducible apply only_report
    | (with_reducible refine List.Subset.trans ?_ hL; decide)
    | intro _ _ _
    | with_reducible apply only_foldl
    | with_reducible apply only_ite
    | split

theorem only_clearTensor {L : List Part} {s0 s : State} (p : Pass) (t : TileSt) (hL : ([.sweep, .tongue] : List Part) ⊆ L)
    (hgood : OnlyChanges L s0 s) : OnlyChanges L s0 (clearTensor p t s) := by
  unfold clearTensor
  try dsimp only
  repeat' first
    | with_reducible assumption
    | with_reducible apply only_setSweep
    | with_reducible apply only_setNorm
    | (with_reducible refine List.Subset.trans ?_ hL; decide)
    | with_reducible apply only_ite
    | split

theorem only_freeSlots {L : List Part} {s0 s : State} (slots : List Nat) (ord : Nat) (hL : ([.health, .sweep, .strm, .pond] : List Part) ⊆ L)
    (hgood : OnlyChanges L s0 s) : OnlyChanges L s0 (freeSlots slots ord s) := by
  unfold freeSlots
  try dsimp only
  repeat' first
    | with_reducible assumption
    | with_reducible apply only_setTile
    | with_reducible apply only_padFreeAll
    | (with_reducible refine List.Subset.trans ?_ hL; decide)
    | split

theorem only_loadBank {L : List Part} {s0 s : State} (im : Image) (p : Pass) (t : TileSt) (hL : ([.fab] : List Part) ⊆ L)
    (hgood : OnlyChanges L s0 s) : OnlyChanges L s0 (loadBank im p t s) := by
  unfold loadBank
  try dsimp only
  repeat' first
    | with_reducible assumption
    | with_reducible apply only_ite
    | split
    | with_reducible apply only_set_fab
    | (with_reducible refine only_in hL ?_; decide)

theorem only_beginSwitch {L : List Part} {s0 s : State}  (hL : ([.sweep, .freeCtr] : List Part) ⊆ L)
    (hgood : OnlyChanges L s0 s) : OnlyChanges L s0 (beginSwitch s) := by
  unfold beginSwitch
  try dsimp only
  repeat' first
    | with_reducible assumption
    | with_reducible apply only_setPass
    | (with_reducible refine List.Subset.trans ?_ hL; decide)
    | with_reducible apply only_set_freeCtr
    | (with_reducible refine only_in hL ?_; decide)

theorem only_enterTile {L : List Part} {s0 s : State} (im : Image) (p : Pass) (t : TileSt) (hL : ([.health, .sweep, .fab, .tongue] : List Part) ⊆ L)
    (hgood : OnlyChanges L s0 s) : OnlyChanges L s0 (enterTile im p t s) := by
  unfold enterTile
  try dsimp only
  repeat' first
    | with_reducible assumption
    | with_reducible apply only_loadBank
    | with_reducible apply only_clearTensor
    | with_reducible apply only_reportStamps
    | with_reducible apply only_chooseVariant
    | with_reducible apply only_setTile
    | with_reducible apply only_setPass
    | (with_reducible refine List.Subset.trans ?_ hL; decide)
    | with_reducible apply only_ite
    | split

theorem only_enterChain {L : List Part} {s0 s : State}  (hL : ([.health, .sweep, .fab, .tongue, .freeCtr] : List Part) ⊆ L)
    (hgood : OnlyChanges L s0 s) : OnlyChanges L s0 (enterChain s) := by
  unfold enterChain
  try dsimp only
  repeat' first
    | with_reducible assumption
    | with_reducible apply only_enterTile
    | with_reducible apply only_beginSwitch
    | with_reducible apply only_clearTensor
    | with_reducible apply only_setTile
    | (with_reducible refine List.Subset.trans ?_ hL; decide)
    | with_reducible apply only_ite
    | split

theorem only_handGroup {L : List Part} {s0 s : State} (t : TileSt) (weights : Bool) (ls : List GroupLine) (hL : ([.mem, .sweep] : List Part) ⊆ L)
    (hgood : OnlyChanges L s0 s) : OnlyChanges L s0 (handGroup t weights ls s) := by
  unfold handGroup
  try dsimp only
  repeat' first
    | with_reducible assumption
    | with_reducible apply only_setTile
    | with_reducible apply only_enqueueAll
    | (with_reducible refine List.Subset.trans ?_ hL; decide)
    | with_reducible apply only_ite
    | split

theorem only_addAccums {L : List Part} {s0 s : State} (tensor : Nat) (as : List (Nat × F64)) (hL : ([.sweep] : List Part) ⊆ L)
    (hgood : OnlyChanges L s0 s) : OnlyChanges L s0 (addAccums tensor as s) := by
  unfold addAccums
  try dsimp only
  repeat' first
    | with_reducible assumption
    | with_reducible apply only_setSweep
    | (with_reducible refine List.Subset.trans ?_ hL; decide)
    | intro _ _ _
    | with_reducible apply only_foldl
    | split

theorem only_acceptPass1 {L : List Part} {s0 s : State} (t : TileSt) (hL : ([.health, .sweep, .strm, .pond] : List Part) ⊆ L)
    (hgood : OnlyChanges L s0 s) : OnlyChanges L s0 (acceptPass1 t s) := by
  unfold acceptPass1
  try dsimp only
  repeat' first
    | with_reducible assumption
    | with_reducible apply only_addAccums
    | with_reducible apply only_setPass
    | with_reducible apply only_padFreeAll
    | (with_reducible refine List.Subset.trans ?_ hL; decide)

theorem only_handMoments {L : List Part} {s0 s : State} (im : Image) (p : Pass) (t : TileSt) (hL : ([.health, .mem, .sweep] : List Part) ⊆ L)
    (hgood : OnlyChanges L s0 s) : OnlyChanges L s0 (handMoments im p t s) := by
  unfold handMoments
  try dsimp only
  repeat' first
    | with_reducible assumption
    | with_reducible apply only_handGroup
    | with_reducible apply only_raiseHalt
    | with_reducible apply only_setTile
    | with_reducible apply only_logRepair
    | with_reducible apply only_setSlot
    | with_reducible apply only_countSweep
    | with_reducible apply only_countMp
    | (with_reducible refine List.Subset.trans ?_ hL; decide)
    | with_reducible apply only_ite
    | split

theorem only_momentHandover {L : List Part} {s0 s : State}  (hL : ([.health, .mem, .sweep, .strm, .pond] : List Part) ⊆ L)
    (hgood : OnlyChanges L s0 s) : OnlyChanges L s0 (momentHandover s) := by
  unfold momentHandover
  try dsimp only
  repeat' first
    | with_reducible assumption
    | with_reducible apply only_handMoments
    | with_reducible apply only_acceptPass1
    | (with_reducible refine List.Subset.trans ?_ hL; decide)
    | with_reducible apply only_ite
    | split

theorem only_advanceMoments {L : List Part} {s0 s : State}  (hL : ([.sweep] : List Part) ⊆ L)
    (hgood : OnlyChanges L s0 s) : OnlyChanges L s0 (advanceMoments s) := by
  unfold advanceMoments
  try dsimp only
  repeat' first
    | with_reducible assumption
    | with_reducible apply only_syncMarks
    | with_reducible apply only_setPass
    | (with_reducible refine List.Subset.trans ?_ hL; decide)

theorem only_momentsConfirmed {L : List Part} {s0 s : State}  (hL : ([.health, .sweep, .strm, .pond] : List Part) ⊆ L)
    (hgood : OnlyChanges L s0 s) : OnlyChanges L s0 (momentsConfirmed s) := by
  unfold momentsConfirmed
  try dsimp only
  repeat' first
    | with_reducible assumption
    | with_reducible apply only_advanceMoments
    | with_reducible apply only_freeSlots
    | with_reducible apply only_setTile
    | (with_reducible refine List.Subset.trans ?_ hL; decide)
    | split

theorem only_weightHandover {L : List Part} {s0 s : State}  (hL : ([.mem, .sweep] : List Part) ⊆ L)
    (hgood : OnlyChanges L s0 s) : OnlyChanges L s0 (weightHandover s) := by
  unfold weightHandover
  try dsimp only
  repeat' first
    | with_reducible assumption
    | with_reducible apply only_handGroup
    | with_reducible apply only_setTile
    | with_reducible apply only_setSlot
    | with_reducible apply only_countMp
    | (with_reducible refine List.Subset.trans ?_ hL; decide)
    | with_reducible apply only_ite
    | split

theorem only_addSiblings {L : List Part} {s0 s : State} (t : TileSt) (hL : ([.tongue] : List Part) ⊆ L)
    (hgood : OnlyChanges L s0 s) : OnlyChanges L s0 (addSiblings t s) := by
  unfold addSiblings
  try dsimp only
  repeat' first
    | with_reducible assumption
    | with_reducible apply only_setNorm
    | (with_reducible refine List.Subset.trans ?_ hL; decide)
    | split

theorem only_exportTile {L : List Part} {s0 s : State} (p : Pass) (t : TileSt) (hL : ([.health, .sweep, .strm, .pond, .xch] : List Part) ⊆ L)
    (hgood : OnlyChanges L s0 s) : OnlyChanges L s0 (exportTile p t s) := by
  unfold exportTile
  try dsimp only
  repeat' first
    | with_reducible assumption
    | with_reducible apply only_setTile
    | with_reducible apply only_exportOffer
    | with_reducible apply only_padGive
    | with_reducible apply only_setXch
    | (with_reducible refine List.Subset.trans ?_ hL; decide)
    | intro _ _ _
    | with_reducible apply only_foldl
    | with_reducible apply only_ite
    | split

theorem only_countTile {L : List Part} {s0 s : State} (t : TileSt) (hL : ([.sweep, .xch] : List Part) ⊆ L)
    (hgood : OnlyChanges L s0 s) : OnlyChanges L s0 (countTile t s) := by
  unfold countTile
  try dsimp only
  repeat' first
    | with_reducible assumption
    | with_reducible apply only_countXch
    | with_reducible apply only_countSweep
    | (with_reducible refine List.Subset.trans ?_ hL; decide)
    | with_reducible apply only_ite
    | split

theorem only_dropFault {L : List Part} {s0 s : State}  (hL : ([.sweep] : List Part) ⊆ L)
    (hgood : OnlyChanges L s0 s) : OnlyChanges L s0 (dropFault s) := by
  unfold dropFault
  try dsimp only
  repeat' first
    | with_reducible assumption
    | with_reducible apply only_setSweep
    | with_reducible apply only_setPass
    | (with_reducible refine List.Subset.trans ?_ hL; decide)
    | with_reducible apply only_ite
    | split

theorem only_endSweep {L : List Part} {s0 s : State}  (hL : ([.health, .evt, .mem, .step, .lscale, .aux, .sweep, .tongue, .memb, .verdict, .hier, .strm, .pond, .xch, .east, .west, .ring, .fmp] : List Part) ⊆ L)
    (hgood : OnlyChanges L s0 s) : OnlyChanges L s0 (endSweep s) := by
  unfold endSweep
  try dsimp only
  repeat' first
    | with_reducible assumption
    | with_reducible apply only_endPass
    | with_reducible apply only_writeMarks
    | with_reducible apply only_setSweep
    | with_reducible apply only_setStep
    | with_reducible apply only_lagStartAll
    | with_reducible apply only_enterObserve
    | with_reducible apply only_pulse
    | (with_reducible refine List.Subset.trans ?_ hL; decide)
    | with_reducible apply only_ite
    | split
    | with_reducible apply only_set_lscale
    | with_reducible apply only_set_aux
    | with_reducible apply only_set_step
    | with_reducible apply only_set_step_lscale_aux
    | with_reducible apply only_set_lscale_aux
    | with_reducible apply only_set_step_lscale
    | with_reducible apply only_set_step_aux
    | (with_reducible refine only_in hL ?_; decide)

theorem only_freeColumns {L : List Part} {s0 s : State} (p : Pass) (t : TileSt) (hL : ([.health, .sweep, .strm, .pond] : List Part) ⊆ L)
    (hgood : OnlyChanges L s0 s) : OnlyChanges L s0 (freeColumns p t s) := by
  unfold freeColumns
  try dsimp only
  repeat' first
    | with_reducible assumption
    | with_reducible apply only_setPass
    | with_reducible apply only_padFreeAll
    | (with_reducible refine List.Subset.trans ?_ hL; decide)
    | with_reducible apply only_ite
    | split

theorem only_tileCommitted {L : List Part} {s0 s : State} (p : Pass) (t : TileSt) (hL : ([.health, .mem, .sweep, .tongue, .strm, .pond, .xch] : List Part) ⊆ L)
    (hgood : OnlyChanges L s0 s) : OnlyChanges L s0 (tileCommitted p t s) := by
  unfold tileCommitted
  try dsimp only
  repeat' first
    | with_reducible assumption
    | with_reducible apply only_freeColumns
    | with_reducible apply only_dropFault
    | with_reducible apply only_countTile
    | with_reducible apply only_exportTile
    | with_reducible apply only_addSiblings
    | with_reducible apply only_syncMarks
    | with_reducible apply only_setPass
    | with_reducible apply only_lagStartAll
    | with_reducible apply only_padFreeAll
    | (with_reducible refine List.Subset.trans ?_ hL; decide)
    | with_reducible apply only_ite
    | split

theorem only_emaCommitted {L : List Part} {s0 s : State} (t : TileSt) (hL : ([.health, .sweep, .strm, .pond] : List Part) ⊆ L)
    (hgood : OnlyChanges L s0 s) : OnlyChanges L s0 (emaCommitted t s) := by
  unfold emaCommitted
  try dsimp only
  repeat' first
    | with_reducible assumption
    | with_reducible apply only_setPass
    | with_reducible apply only_padFreeAll
    | (with_reducible refine List.Subset.trans ?_ hL; decide)

theorem only_settleSweep {L : List Part} {s0 s : State}  (hL : ([.health, .evt, .mem, .step, .lscale, .aux, .sweep, .tongue, .memb, .verdict, .hier, .strm, .pond, .xch, .east, .west, .ring, .fmp] : List Part) ⊆ L)
    (hgood : OnlyChanges L s0 s) : OnlyChanges L s0 (settleSweep s) := by
  unfold settleSweep
  try dsimp only
  repeat' first
    | with_reducible assumption
    | with_reducible apply only_endSweep
    | with_reducible apply only_releaseDue
    | (with_reducible refine List.Subset.trans ?_ hL; decide)
    | with_reducible apply only_ite
    | split

theorem only_weightsConfirmed {L : List Part} {s0 s : State}  (hL : ([.health, .evt, .mem, .step, .lscale, .aux, .sweep, .tongue, .memb, .verdict, .hier, .strm, .pond, .xch, .east, .west, .ring, .fmp] : List Part) ⊆ L)
    (hgood : OnlyChanges L s0 s) : OnlyChanges L s0 (weightsConfirmed s) := by
  unfold weightsConfirmed
  try dsimp only
  repeat' first
    | with_reducible assumption
    | with_reducible apply only_settleSweep
    | with_reducible apply only_emaCommitted
    | with_reducible apply only_tileCommitted
    | (with_reducible refine List.Subset.trans ?_ hL; decide)
    | with_reducible apply only_ite
    | split

theorem only_gateConfirmed {L : List Part} {s0 s : State}  (hL : ([.evt, .mem, .step, .sweep] : List Part) ⊆ L)
    (hgood : OnlyChanges L s0 s) : OnlyChanges L s0 (gateConfirmed s) := by
  unfold gateConfirmed
  try dsimp only
  repeat' first
    | with_reducible assumption
    | with_reducible apply only_fetchBegins
    | with_reducible apply only_releaseDue
    | with_reducible apply only_writeMarks
    | with_reducible apply only_setPass
    | with_reducible apply only_pulse
    | (with_reducible refine List.Subset.trans ?_ hL; decide)
    | with_reducible apply only_ite
    | split

theorem only_pass1Written {L : List Part} {s0 s : State}  (hL : ([.mem, .sweep] : List Part) ⊆ L)
    (hgood : OnlyChanges L s0 s) : OnlyChanges L s0 (pass1Written s) := by
  unfold pass1Written
  try dsimp only
  repeat' first
    | with_reducible assumption
    | with_reducible apply only_setPassInfo
    | with_reducible apply only_writeJournal
    | with_reducible apply only_writeMarks
    | with_reducible apply only_setSweep
    | with_reducible apply only_setPass
    | (with_reducible refine List.Subset.trans ?_ hL; decide)
    | split

theorem only_pauseEnded {L : List Part} {s0 s : State}  (hL : ([.health, .evt, .mem, .step, .lscale, .aux, .sweep, .tongue, .memb, .verdict, .hier, .strm, .pond, .xch, .east, .west, .ring, .fmp] : List Part) ⊆ L)
    (hgood : OnlyChanges L s0 s) : OnlyChanges L s0 (pauseEnded s) := by
  unfold pauseEnded
  try dsimp only
  repeat' first
    | with_reducible assumption
    | with_reducible apply only_settleSweep
    | with_reducible apply only_rampStart
    | (with_reducible refine List.Subset.trans ?_ hL; decide)

theorem only_confirmIssue {L : List Part} {s0 s : State} (who : Who) (line : BitVec 34) (hL : ([.mem] : List Part) ⊆ L)
    (hgood : OnlyChanges L s0 s) : OnlyChanges L s0 (confirmIssue who line s) := by
  unfold confirmIssue
  try dsimp only
  repeat' first
    | with_reducible assumption
    | with_reducible apply only_enqueue
    | (with_reducible refine List.Subset.trans ?_ hL; decide)
    | with_reducible apply only_ite
    | split

theorem only_setLine {L : List Part} {s0 s : State} (ord idx : Nat) (f : GroupLine → GroupLine) (hL : ([.sweep] : List Part) ⊆ L)
    (hgood : OnlyChanges L s0 s) : OnlyChanges L s0 (setLine ord idx f s) := by
  unfold setLine
  try dsimp only
  repeat' first
    | with_reducible assumption
    | with_reducible apply only_setTile
    | (with_reducible refine List.Subset.trans ?_ hL; decide)

theorem only_groupFailed {L : List Part} {s0 s : State} (ord idx : Nat) (weights : Bool) (hL : ([.sweep] : List Part) ⊆ L)
    (hgood : OnlyChanges L s0 s) : OnlyChanges L s0 (groupFailed ord idx weights s) := by
  unfold groupFailed
  try dsimp only
  repeat' first
    | with_reducible assumption
    | with_reducible apply only_setLine
    | with_reducible apply only_raiseTear
    | (with_reducible refine List.Subset.trans ?_ hL; decide)
    | split

theorem only_confirmDone {L : List Part} {s0 s : State} (ord idx : Nat) (weights : Bool) (data : Option Line) (hL : ([.mem, .sweep] : List Part) ⊆ L)
    (hgood : OnlyChanges L s0 s) : OnlyChanges L s0 (confirmDone ord idx weights data s) := by
  unfold confirmDone
  try dsimp only
  repeat' first
    | with_reducible assumption
    | with_reducible apply only_groupFailed
    | with_reducible apply only_setLine
    | with_reducible apply only_raiseTear
    | with_reducible apply only_enqueue
    | with_reducible apply only_countSweep
    | (with_reducible refine List.Subset.trans ?_ hL; decide)
    | with_reducible apply only_ite
    | split

theorem only_journalFailed {L : List Part} {s0 s : State} (fault : JFault) (hL : ([.sweep] : List Part) ⊆ L)
    (hgood : OnlyChanges L s0 s) : OnlyChanges L s0 (journalFailed fault s) := by
  unfold journalFailed
  try dsimp only
  repeat' first
    | with_reducible assumption
    | with_reducible apply only_raiseHalt
    | with_reducible apply only_setPass
    | (with_reducible refine List.Subset.trans ?_ hL; decide)
    | split

theorem only_journalConfirmed {L : List Part} {s0 s : State} (idx : Nat) (data : Option Line) (hL : ([.evt, .mem, .step, .sweep] : List Part) ⊆ L)
    (hgood : OnlyChanges L s0 s) : OnlyChanges L s0 (journalConfirmed idx data s) := by
  unfold journalConfirmed
  try dsimp only
  repeat' first
    | with_reducible assumption
    | with_reducible apply only_journalFailed
    | with_reducible apply only_pass1Written
    | with_reducible apply only_gateConfirmed
    | with_reducible apply only_writeJournalLine
    | with_reducible apply only_setPass
    | with_reducible apply only_countSweep
    | (with_reducible refine List.Subset.trans ?_ hL; decide)
    | with_reducible apply only_ite
    | split

theorem only_factoredEnd {L : List Part} {s0 s : State} (p : Pass) (tensor : Nat) (hL : ([.mem, .sweep] : List Part) ⊆ L)
    (hgood : OnlyChanges L s0 s) : OnlyChanges L s0 (factoredEnd p tensor s) := by
  unfold factoredEnd
  try dsimp only
  repeat' first
    | with_reducible assumption
    | with_reducible apply only_setSweep
    | with_reducible apply only_setPass
    | with_reducible apply only_enqueueAll
    | (with_reducible refine List.Subset.trans ?_ hL; decide)

theorem only_factoredTake {L : List Part} {s0 : State} (n : Nat) {s : State} (hL : ([.mem, .sweep] : List Part) ⊆ L)
    (h : OnlyChanges L s0 s) : OnlyChanges L s0 (factoredTake n s) := by
  induction n generalizing s with
  | zero => exact h
  | succ n ih =>
    unfold factoredTake
    try dsimp only
    repeat' first
      | with_reducible assumption
      | apply ih
      | with_reducible apply only_factoredEnd
      | with_reducible apply only_setSweep
      | with_reducible apply only_setPass
      | (with_reducible refine List.Subset.trans ?_ hL; decide)
      | intro _ _ _
      | with_reducible apply only_foldl
      | with_reducible apply only_ite
      | split

theorem only_fetchDone {L : List Part} {s0 s : State} (ord op idx : Nat) (data : Option Line) (hL : ([.mem, .sweep, .pond, .freeCtr] : List Part) ⊆ L)
    (hgood : OnlyChanges L s0 s) : OnlyChanges L s0 (fetchDone ord op idx data s) := by
  unfold fetchDone
  try dsimp only
  repeat' first
    | with_reducible assumption
    | with_reducible apply only_factoredTake
    | with_reducible apply only_setTile
    | with_reducible apply only_lineOrFree
    | (with_reducible refine only_lineOrFree_eq ?_ ‹_› ?_)
    | with_reducible apply only_padStore
    | (with_reducible refine List.Subset.trans ?_ hL; decide)
    | with_reducible apply only_ite
    | split

theorem only_vectorDone {L : List Part} {s0 s : State} (tensor idx : Nat) (data : Option Line) (hL : ([.mem, .sweep, .pond, .freeCtr] : List Part) ⊆ L)
    (hgood : OnlyChanges L s0 s) : OnlyChanges L s0 (vectorDone tensor idx data s) := by
  unfold vectorDone
  try dsimp only
  repeat' first
    | with_reducible assumption
    | with_reducible apply only_factoredTake
    | with_reducible apply only_setPass
    | with_reducible apply only_lineOrFree
    | (with_reducible refine only_lineOrFree_eq ?_ ‹_› ?_)
    | with_reducible apply only_padStore
    | (with_reducible refine List.Subset.trans ?_ hL; decide)
    | with_reducible apply only_ite
    | split

theorem only_vectorWritten {L : List Part} {s0 s : State} (tensor idx : Nat) (ok : Bool) (hL : ([.health, .sweep, .strm, .pond] : List Part) ⊆ L)
    (hgood : OnlyChanges L s0 s) : OnlyChanges L s0 (vectorWritten tensor idx ok s) := by
  unfold vectorWritten
  try dsimp only
  repeat' first
    | with_reducible assumption
    | with_reducible apply only_journalFailed
    | with_reducible apply only_setPass
    | with_reducible apply only_padFreeAll
    | (with_reducible refine List.Subset.trans ?_ hL; decide)
    | with_reducible apply only_ite
    | split

theorem only_pass1End {L : List Part} {s0 s : State} (im : Image) (p : Pass) (hL : ([.health, .mem, .step, .sweep, .fab, .strm, .pond] : List Part) ⊆ L)
    (hgood : OnlyChanges L s0 s) : OnlyChanges L s0 (pass1End im p s) := by
  unfold pass1End
  try dsimp only
  repeat' first
    | with_reducible assumption
    | with_reducible apply only_pass1Written
    | with_reducible apply only_endPass
    | with_reducible apply only_beginPass
    | with_reducible apply only_writeJournal
    | with_reducible apply only_setSweep
    | with_reducible apply only_setPass
    | (with_reducible refine List.Subset.trans ?_ hL; decide)
    | with_reducible apply only_ite
    | split
    | with_reducible apply only_set_step
    | (with_reducible refine only_in hL ?_; decide)

theorem only_pass1Done {L : List Part} {s0 s : State}  (hL : ([.health, .mem, .step, .sweep, .fab, .strm, .pond] : List Part) ⊆ L)
    (hgood : OnlyChanges L s0 s) : OnlyChanges L s0 (pass1Done s) := by
  unfold pass1Done
  try dsimp only
  repeat' first
    | with_reducible assumption
    | with_reducible apply only_pass1End
    | (with_reducible refine List.Subset.trans ?_ hL; decide)
    | with_reducible apply only_ite
    | split

theorem only_writeAuxCtl {L : List Part} {s0 s : State} (w : Word) (hL : ([.aux, .sweep, .fab] : List Part) ⊆ L)
    (hgood : OnlyChanges L s0 s) : OnlyChanges L s0 (writeAuxCtl w s) := by
  unfold writeAuxCtl
  try dsimp only
  repeat' first
    | with_reducible assumption
    | with_reducible apply only_beginPass
    | (with_reducible refine List.Subset.trans ?_ hL; decide)
    | with_reducible apply only_ite
    | split
    | with_reducible apply only_set_aux
    | (with_reducible refine only_in hL ?_; decide)

theorem only_emaDone {L : List Part} {s0 s : State}  (hL : ([.health, .evt, .mem, .aux, .sweep, .strm, .pond] : List Part) ⊆ L)
    (hgood : OnlyChanges L s0 s) : OnlyChanges L s0 (emaDone s) := by
  unfold emaDone
  try dsimp only
  repeat' first
    | with_reducible assumption
    | with_reducible apply only_endPass
    | with_reducible apply only_pulse
    | (with_reducible refine List.Subset.trans ?_ hL; decide)
    | with_reducible apply only_ite
    | split
    | with_reducible apply only_set_aux
    | (with_reducible refine only_in hL ?_; decide)

end Sys2Proof.Machine
end

