-- ==== Sys2Proof/Laws/OnlyRecover.lean ====
section
/-! SUPPORT. Which parts of the state each operation of Machine/Recover.lean may change (Laws/Only.lean). -/
namespace Sys2Proof.Machine

-- the proofs below are one script for many operations, of which each uses its own part
set_option linter.unusedTactic false
set_option linter.unreachableTactic false

theorem only_rerunPass1 {L : List Part} {s0 s : State} (im : Image) (m : Marks) (k : PassKind) (hL : ([.mem, .step, .sweep, .fab] : List Part) ⊆ L)
    (hgood : OnlyChanges L s0 s) : OnlyChanges L s0 (rerunPass1 im m k s) := by
  unfold rerunPass1
  try dsimp only
  repeat' first
    | with_reducible assumption
    | with_reducible apply only_fetchBegins
    | with_reducible apply only_beginPass
    | with_reducible apply only_setSweep
    | (with_reducible refine List.Subset.trans ?_ hL; decide)
    | with_reducible apply only_set_step
    | (with_reducible refine only_in hL ?_; decide)

theorem only_rerunSweep {L : List Part} {s0 s : State} (im : Image) (m : Marks) (recovery : Bool) (classes : List (Nat × TileClass)) (hL : ([.mem, .step, .sweep, .fab] : List Part) ⊆ L)
    (hgood : OnlyChanges L s0 s) : OnlyChanges L s0 (rerunSweep im m recovery classes s) := by
  unfold rerunSweep
  try dsimp only
  repeat' first
    | with_reducible assumption
    | with_reducible apply only_fetchBegins
    | with_reducible apply only_beginPass
    | with_reducible apply only_setSweep
    | with_reducible apply only_setPass
    | (with_reducible refine List.Subset.trans ?_ hL; decide)
    | with_reducible apply only_ite
    | split
    | with_reducible apply only_set_step
    | (with_reducible refine only_in hL ?_; decide)

theorem only_deltasAgain {L : List Part} {s0 s : State} (m : Marks) (hL : ([.health, .evt, .mem, .strm, .pond, .xch] : List Part) ⊆ L)
    (hgood : OnlyChanges L s0 s) : OnlyChanges L s0 (deltasAgain m s) := by
  unfold deltasAgain
  try dsimp only
  repeat' first
    | with_reducible assumption
    | with_reducible apply only_deltaGate
    | (with_reducible refine List.Subset.trans ?_ hL; decide)
    | intro _ _ _
    | with_reducible apply only_foldl
    | with_reducible apply only_ite
    | split

theorem only_resumeSweep {L : List Part} {s0 s : State} (skip : Bool) (im : Image) (hL : ([.evt, .mem, .step, .sweep, .fab, .xch] : List Part) ⊆ L)
    (hgood : OnlyChanges L s0 s) : OnlyChanges L s0 (resumeSweep skip im s) := by
  unfold resumeSweep
  try dsimp only
  repeat' first
    | with_reducible assumption
    | with_reducible apply only_rerunSweep
    | with_reducible apply only_rerunPass1
    | with_reducible apply only_releaseDue
    | with_reducible apply only_writeMarks
    | with_reducible apply only_setSweep
    | with_reducible apply only_lagStartAll
    | (with_reducible refine List.Subset.trans ?_ hL; decide)
    | with_reducible apply only_ite
    | split

theorem only_recoverSweep {L : List Part} {s0 s : State} (im : Image) (hL : ([.health, .evt, .mem, .step, .aux, .sweep, .fab, .strm, .pond, .xch] : List Part) ⊆ L)
    (hgood : OnlyChanges L s0 s) : OnlyChanges L s0 (recoverSweep im s) := by
  unfold recoverSweep
  try dsimp only
  repeat' first
    | with_reducible assumption
    | with_reducible apply only_deltasAgain
    | with_reducible apply only_rerunSweep
    | with_reducible apply only_rerunPass1
    | with_reducible apply only_haltEma
    | with_reducible apply only_clearRepairs
    | with_reducible apply only_releaseDue
    | with_reducible apply only_writeMarks
    | with_reducible apply only_setSweep
    | with_reducible apply only_setPass
    | with_reducible apply only_lagStartAll
    | (with_reducible refine List.Subset.trans ?_ hL; decide)
    | with_reducible apply only_ite
    | split

theorem only_startRecovery {L : List Part} {s0 s : State} (im : Image) (hL : ([.health, .evt, .mem, .step, .aux, .sweep, .fab, .strm, .pond, .xch] : List Part) ⊆ L)
    (hgood : OnlyChanges L s0 s) : OnlyChanges L s0 (startRecovery im s) := by
  unfold startRecovery
  try dsimp only
  repeat' first
    | with_reducible assumption
    | with_reducible apply only_recoverSweep
    | with_reducible apply only_setSweep
    | (with_reducible refine List.Subset.trans ?_ hL; decide)
    | with_reducible apply only_ite
    | split

theorem only_recoverDue {L : List Part} {s0 s : State}  (hL : ([.health, .evt, .mem, .step, .aux, .sweep, .fab, .strm, .pond, .xch] : List Part) ⊆ L)
    (hgood : OnlyChanges L s0 s) : OnlyChanges L s0 (recoverDue s) := by
  unfold recoverDue
  try dsimp only
  repeat' first
    | with_reducible assumption
    | with_reducible apply only_recoverSweep
    | with_reducible apply only_setSweep
    | (with_reducible refine List.Subset.trans ?_ hL; decide)
    | with_reducible apply only_ite
    | split

theorem only_writeSweepCtl {L : List Part} {s0 s : State} (w : Word) (hL : ([.health, .evt, .mem, .step, .aux, .sweep, .fab, .strm, .pond, .xch] : List Part) ⊆ L)
    (hgood : OnlyChanges L s0 s) : OnlyChanges L s0 (writeSweepCtl w s) := by
  unfold writeSweepCtl
  try dsimp only
  repeat' first
    | with_reducible assumption
    | with_reducible apply only_startRecovery
    | with_reducible apply only_resumeSweep
    | with_reducible apply only_setSweep
    | (with_reducible refine List.Subset.trans ?_ hL; decide)
    | with_reducible apply only_ite
    | split

end Sys2Proof.Machine
end

