-- ==== Sys2Proof/Laws/OnlyVault.lean ====
section
/-! SUPPORT. Which parts of the state each operation of Machine/Vault.lean may change (Laws/Only.lean). -/
namespace Sys2Proof.Machine

-- the proofs below are one script for many operations, of which each uses its own part
set_option linter.unusedTactic false
set_option linter.unreachableTactic false

theorem only_kstNext {L : List Part} {s0 s : State}  (hL : ([.kst] : List Part) ⊆ L)
    (hgood : OnlyChanges L s0 s) : OnlyChanges L s0 (kstNext s) := by
  unfold kstNext
  try dsimp only
  repeat' first
    | with_reducible assumption
    | with_reducible apply only_ite
    | split
    | with_reducible apply only_set_kst
    | (with_reducible refine only_in hL ?_; decide)

theorem only_kstLower {L : List Part} {s0 s : State} (repeated : Bool) (hL : ([.kst] : List Part) ⊆ L)
    (hgood : OnlyChanges L s0 s) : OnlyChanges L s0 (kstLower repeated s) := by
  unfold kstLower
  try dsimp only
  repeat' first
    | with_reducible assumption
    | with_reducible apply only_set_kst
    | (with_reducible refine only_in hL ?_; decide)

theorem only_kstQueue {L : List Part} {s0 s : State} (os : List KstOp) (hL : ([.kst] : List Part) ⊆ L)
    (hgood : OnlyChanges L s0 s) : OnlyChanges L s0 (kstQueue os s) := by
  unfold kstQueue
  try dsimp only
  repeat' first
    | with_reducible assumption
    | with_reducible apply only_kstNext
    | (with_reducible refine List.Subset.trans ?_ hL; decide)
    | with_reducible apply only_set_kst
    | (with_reducible refine only_in hL ?_; decide)

theorem only_vaultEnter {L : List Part} {s0 s : State} (st : VaultState) (hL : ([.health, .evt, .vault] : List Part) ⊆ L)
    (hgood : OnlyChanges L s0 s) : OnlyChanges L s0 (vaultEnter st s) := by
  unfold vaultEnter
  try dsimp only
  repeat' first
    | with_reducible assumption
    | with_reducible apply only_croakSet
    | with_reducible apply only_report
    | (with_reducible refine List.Subset.trans ?_ hL; decide)
    | with_reducible apply only_ite
    | split
    | with_reducible apply only_set_vault
    | (with_reducible refine only_in hL ?_; decide)

theorem only_vaultJudge {L : List Part} {s0 s : State}  (hL : ([.health, .evt, .vault] : List Part) ⊆ L)
    (hgood : OnlyChanges L s0 s) : OnlyChanges L s0 (vaultJudge s) := by
  unfold vaultJudge
  try dsimp only
  repeat' first
    | with_reducible assumption
    | with_reducible apply only_vaultEnter
    | (with_reducible refine List.Subset.trans ?_ hL; decide)
    | with_reducible apply only_ite
    | split
    | with_reducible apply only_set_vault
    | (with_reducible refine only_in hL ?_; decide)

theorem only_vaultInitBegin {L : List Part} {s0 s : State}  (hL : ([.kst, .vault] : List Part) ⊆ L)
    (hgood : OnlyChanges L s0 s) : OnlyChanges L s0 (vaultInitBegin s) := by
  unfold vaultInitBegin
  try dsimp only
  repeat' first
    | with_reducible assumption
    | with_reducible apply only_kstNext
    | (with_reducible refine List.Subset.trans ?_ hL; decide)
    | with_reducible apply only_set_kst_vault
    | (with_reducible refine only_in hL ?_; decide)

theorem only_vaultErr {L : List Part} {s0 s : State} (e : BitVec 8) (hL : ([.vault] : List Part) ⊆ L)
    (hgood : OnlyChanges L s0 s) : OnlyChanges L s0 (vaultErr e s) := by
  unfold vaultErr
  try dsimp only
  repeat' first
    | with_reducible assumption
    | with_reducible apply only_set_vault
    | (with_reducible refine only_in hL ?_; decide)

theorem only_vaultNoiseFailed {L : List Part} {s0 s : State}  (hL : ([.health, .evt, .vault] : List Part) ⊆ L)
    (hgood : OnlyChanges L s0 s) : OnlyChanges L s0 (vaultNoiseFailed s) := by
  unfold vaultNoiseFailed
  try dsimp only
  repeat' first
    | with_reducible assumption
    | with_reducible apply only_vaultErr
    | with_reducible apply only_vaultEnter
    | (with_reducible refine List.Subset.trans ?_ hL; decide)
    | with_reducible apply only_ite
    | split
    | with_reducible apply only_set_vault
    | (with_reducible refine only_in hL ?_; decide)

theorem only_vaultResult {L : List Part} {s0 s : State} (op : BitVec 3) (addr : BitVec 12) (data : BitVec 32) (hL : ([.vault] : List Part) ⊆ L)
    (hgood : OnlyChanges L s0 s) : OnlyChanges L s0 (vaultResult op addr data s) := by
  unfold vaultResult
  try dsimp only
  repeat' first
    | with_reducible assumption
    | with_reducible apply only_set_vault
    | (with_reducible refine only_in hL ?_; decide)

theorem only_vaultTakeBlock {L : List Part} {s0 s : State} (b : BitVec 384) (hL : ([.kst, .vault] : List Part) ⊆ L)
    (hgood : OnlyChanges L s0 s) : OnlyChanges L s0 (vaultTakeBlock b s) := by
  unfold vaultTakeBlock
  try dsimp only
  repeat' first
    | with_reducible assumption
    | with_reducible apply only_kstQueue
    | (with_reducible refine List.Subset.trans ?_ hL; decide)
    | with_reducible apply only_ite
    | split
    | with_reducible apply only_set_vault
    | (with_reducible refine only_in hL ?_; decide)

theorem only_keygenEnd {L : List Part} {s0 s : State}  (hL : ([.health, .evt, .vault] : List Part) ⊆ L)
    (hgood : OnlyChanges L s0 s) : OnlyChanges L s0 (keygenEnd s) := by
  unfold keygenEnd
  try dsimp only
  repeat' first
    | with_reducible assumption
    | with_reducible apply only_vaultResult
    | with_reducible apply only_vaultEnter
    | (with_reducible refine List.Subset.trans ?_ hL; decide)
    | with_reducible apply only_ite
    | split
    | with_reducible apply only_set_vault
    | (with_reducible refine only_in hL ?_; decide)

theorem only_vaultKst {L : List Part} {s0 s : State} (o : KstOp) (w : Option (BitVec 32)) (hL : ([.health, .evt, .kst, .vault] : List Part) ⊆ L)
    (hgood : OnlyChanges L s0 s) : OnlyChanges L s0 (vaultKst o w s) := by
  unfold vaultKst
  try dsimp only
  repeat' first
    | with_reducible assumption
    | with_reducible apply only_keygenEnd
    | with_reducible apply only_vaultResult
    | with_reducible apply only_vaultErr
    | (with_reducible refine List.Subset.trans ?_ hL; decide)
    | with_reducible apply only_ite
    | split
    | with_reducible apply only_set_vault
    | with_reducible apply only_set_kst
    | with_reducible apply only_set_kst_vault
    | (with_reducible refine only_in hL ?_; decide)

theorem only_kstFailed {L : List Part} {s0 s : State} (o : KstOp) (hL : ([.health, .evt, .kst, .vault, .far] : List Part) ⊆ L)
    (hgood : OnlyChanges L s0 s) : OnlyChanges L s0 (kstFailed o s) := by
  unfold kstFailed
  try dsimp only
  repeat' first
    | with_reducible assumption
    | with_reducible apply only_vaultKst
    | with_reducible apply only_kstLower
    | with_reducible apply only_report
    | with_reducible apply only_countPort
    | (with_reducible refine List.Subset.trans ?_ hL; decide)
    | with_reducible apply only_ite
    | split
    | with_reducible apply only_set_kst
    | (with_reducible refine only_in hL ?_; decide)

theorem only_writeVaultOp {L : List Part} {s0 s : State} (w : Word) (quote : State → Option (List Byte)) (hL : ([.kst, .vault] : List Part) ⊆ L)
    (hgood : OnlyChanges L s0 s) : OnlyChanges L s0 (writeVaultOp w quote s) := by
  unfold writeVaultOp
  try dsimp only
  repeat' first
    | with_reducible assumption
    | with_reducible apply only_kstQueue
    | (with_reducible refine List.Subset.trans ?_ hL; decide)
    | with_reducible apply only_ite
    | split
    | with_reducible apply only_set_vault
    | (with_reducible refine only_in hL ?_; decide)

theorem only_quoteEnd {L : List Part} {s0 s : State}  (hL : ([.health, .vault] : List Part) ⊆ L)
    (hgood : OnlyChanges L s0 s) : OnlyChanges L s0 (quoteEnd s) := by
  unfold quoteEnd
  try dsimp only
  repeat' first
    | with_reducible assumption
    | with_reducible apply only_countHealth
    | (with_reducible refine List.Subset.trans ?_ hL; decide)
    | with_reducible apply only_set_vault
    | (with_reducible refine only_in hL ?_; decide)

end Sys2Proof.Machine
end

