-- ==== Sys2Proof/Laws/OnlyRandom.lean ====
section
/-! SUPPORT. Which parts of the state each operation of Machine/Random.lean may change (Laws/Only.lean). -/
namespace Sys2Proof.Machine

-- the proofs below are one script for many operations, of which each uses its own part
set_option linter.unusedTactic false
set_option linter.unreachableTactic false

theorem only_maskFlush {L : List Part} {s0 : State} (n : Nat) {s : State} (hL : ([.mem, .rng] : List Part) ⊆ L)
    (h : OnlyChanges L s0 s) : OnlyChanges L s0 (maskFlush n s) := by
  induction n generalizing s with
  | zero => exact h
  | succ n ih =>
    unfold maskFlush
    try dsimp only
    repeat' first
      | with_reducible assumption
      | apply ih
      | with_reducible apply only_enqueue
      | (with_reducible refine List.Subset.trans ?_ hL; decide)
      | with_reducible apply only_ite
      | split
      | with_reducible apply only_set_rng
      | (with_reducible refine only_in hL ?_; decide)

theorem only_maskBeat {L : List Part} {s0 s : State} (words : Nat) (hL : ([.mem, .rng] : List Part) ⊆ L)
    (hgood : OnlyChanges L s0 s) : OnlyChanges L s0 (maskBeat words s) := by
  unfold maskBeat
  try dsimp only
  repeat' first
    | with_reducible assumption
    | with_reducible apply only_maskFlush
    | (with_reducible refine List.Subset.trans ?_ hL; decide)
    | with_reducible apply only_ite
    | split
    | with_reducible apply only_set_rng
    | (with_reducible refine only_in hL ?_; decide)

theorem only_maskEnd {L : List Part} {s0 s : State} (valid stopped : Bool) (hL : ([.evt, .rng] : List Part) ⊆ L)
    (hgood : OnlyChanges L s0 s) : OnlyChanges L s0 (maskEnd valid stopped s) := by
  unfold maskEnd
  try dsimp only
  repeat' first
    | with_reducible assumption
    | with_reducible apply only_pulse
    | (with_reducible refine List.Subset.trans ?_ hL; decide)
    | with_reducible apply only_set_rng
    | (with_reducible refine only_in hL ?_; decide)

theorem only_maskSettle {L : List Part} {s0 s : State}  (hL : ([.evt, .rng] : List Part) ⊆ L)
    (hgood : OnlyChanges L s0 s) : OnlyChanges L s0 (maskSettle s) := by
  unfold maskSettle
  try dsimp only
  repeat' first
    | with_reducible assumption
    | with_reducible apply only_maskEnd
    | (with_reducible refine List.Subset.trans ?_ hL; decide)
    | with_reducible apply only_ite
    | split

theorem only_maskStop {L : List Part} {s0 s : State} (shown : Bool) (hL : ([.evt, .rng] : List Part) ⊆ L)
    (hgood : OnlyChanges L s0 s) : OnlyChanges L s0 (maskStop shown s) := by
  unfold maskStop
  try dsimp only
  repeat' first
    | with_reducible assumption
    | with_reducible apply only_maskSettle
    | (with_reducible refine List.Subset.trans ?_ hL; decide)
    | split
    | with_reducible apply only_set_rng
    | (with_reducible refine only_in hL ?_; decide)

theorem only_maskWriteDone {L : List Part} {s0 s : State} (i : Nat) (ok : Bool) (hL : ([.evt, .rng] : List Part) ⊆ L)
    (hgood : OnlyChanges L s0 s) : OnlyChanges L s0 (maskWriteDone i ok s) := by
  unfold maskWriteDone
  try dsimp only
  repeat' first
    | with_reducible assumption
    | with_reducible apply only_maskSettle
    | with_reducible apply only_countRng
    | (with_reducible refine List.Subset.trans ?_ hL; decide)
    | with_reducible apply only_ite
    | split
    | with_reducible apply only_set_rng
    | (with_reducible refine only_in hL ?_; decide)

theorem only_writeMaskCtl {L : List Part} {s0 s : State} (w : Word) (hL : ([.evt, .rng] : List Part) ⊆ L)
    (hgood : OnlyChanges L s0 s) : OnlyChanges L s0 (writeMaskCtl w s) := by
  unfold writeMaskCtl
  try dsimp only
  repeat' first
    | with_reducible assumption
    | with_reducible apply only_maskStop
    | (with_reducible refine List.Subset.trans ?_ hL; decide)
    | with_reducible apply only_ite
    | split
    | with_reducible apply only_set_rng
    | (with_reducible refine only_in hL ?_; decide)

theorem only_maskMismatch {L : List Part} {s0 s : State}  (hL : ([.evt, .rng] : List Part) ⊆ L)
    (hgood : OnlyChanges L s0 s) : OnlyChanges L s0 (maskMismatch s) := by
  unfold maskMismatch
  try dsimp only
  repeat' first
    | with_reducible assumption
    | with_reducible apply only_maskStop
    | (with_reducible refine List.Subset.trans ?_ hL; decide)
    | with_reducible apply only_ite
    | split
    | with_reducible apply only_set_rng
    | (with_reducible refine only_in hL ?_; decide)

theorem only_noiseFail {L : List Part} {s0 s : State} (rct : Bool) (hL : ([.health, .evt, .vault, .rng] : List Part) ⊆ L)
    (hgood : OnlyChanges L s0 s) : OnlyChanges L s0 (noiseFail rct s) := by
  unfold noiseFail
  try dsimp only
  repeat' first
    | with_reducible assumption
    | with_reducible apply only_vaultNoiseFailed
    | with_reducible apply only_report
    | with_reducible apply only_countRng
    | (with_reducible refine List.Subset.trans ?_ hL; decide)
    | with_reducible apply only_ite
    | split
    | with_reducible apply only_set_rng
    | (with_reducible refine only_in hL ?_; decide)

theorem only_noiseWindowEnd {L : List Part} {s0 s : State}  (hL : ([.rng] : List Part) ⊆ L)
    (hgood : OnlyChanges L s0 s) : OnlyChanges L s0 (noiseWindowEnd s) := by
  unfold noiseWindowEnd
  try dsimp only
  repeat' first
    | with_reducible assumption
    | with_reducible apply only_ite
    | split
    | with_reducible apply only_set_rng
    | (with_reducible refine only_in hL ?_; decide)

theorem only_gatherBit {L : List Part} {s0 s : State} (b : Bool) (hL : ([.rng] : List Part) ⊆ L)
    (hgood : OnlyChanges L s0 s) : OnlyChanges L s0 (gatherBit b s) := by
  unfold gatherBit
  try dsimp only
  repeat' first
    | with_reducible assumption
    | with_reducible apply only_ite
    | split
    | with_reducible apply only_set_rng
    | (with_reducible refine only_in hL ?_; decide)

theorem only_noiseBit {L : List Part} {s0 s : State} (b : Bool) (hL : ([.health, .evt, .vault, .rng] : List Part) ⊆ L)
    (hgood : OnlyChanges L s0 s) : OnlyChanges L s0 (noiseBit b s) := by
  unfold noiseBit
  try dsimp only
  repeat' first
    | with_reducible assumption
    | with_reducible apply only_gatherBit
    | with_reducible apply only_noiseWindowEnd
    | with_reducible apply only_noiseFail
    | (with_reducible refine List.Subset.trans ?_ hL; decide)
    | with_reducible apply only_ite
    | split
    | with_reducible apply only_set_rng
    | (with_reducible refine only_in hL ?_; decide)

theorem only_takeBlock {L : List Part} {s0 s : State} (b : BitVec 384) (hL : ([.kst, .vault, .rng, .fmp, .freeCtr] : List Part) ⊆ L)
    (hgood : OnlyChanges L s0 s) : OnlyChanges L s0 (takeBlock b s) := by
  unfold takeBlock
  try dsimp only
  repeat' first
    | with_reducible assumption
    | with_reducible apply only_vaultTakeBlock
    | with_reducible apply only_drawFree
    | (with_reducible refine only_drawFree_eq ?_ ‹_› ?_)
    | (with_reducible refine List.Subset.trans ?_ hL; decide)
    | with_reducible apply only_ite
    | split
    | with_reducible apply only_set_fmp
    | with_reducible apply only_set_rng
    | with_reducible apply only_set_rng_fmp
    | (with_reducible refine only_in hL ?_; decide)

theorem only_writeRngCtl {L : List Part} {s0 s : State} (w : Word) (hL : ([.rng] : List Part) ⊆ L)
    (hgood : OnlyChanges L s0 s) : OnlyChanges L s0 (writeRngCtl w s) := by
  unfold writeRngCtl
  try dsimp only
  repeat' first
    | with_reducible assumption
    | with_reducible apply only_set_rng
    | (with_reducible refine only_in hL ?_; decide)

theorem only_writeLane {L : List Part} {s0 s : State} (n : Nat) (w : Word) (hL : ([.health, .rng] : List Part) ⊆ L)
    (hgood : OnlyChanges L s0 s) : OnlyChanges L s0 (writeLane n w s) := by
  unfold writeLane
  try dsimp only
  repeat' first
    | with_reducible assumption
    | with_reducible apply only_report
    | (with_reducible refine List.Subset.trans ?_ hL; decide)
    | with_reducible apply only_ite
    | split
    | with_reducible apply only_set_rng
    | (with_reducible refine only_in hL ?_; decide)

end Sys2Proof.Machine
end

