-- ==== Sys2Proof/Laws/OnlyFabric.lean ====
section
/-! SUPPORT. Which parts of the state each operation of Machine/Fabric.lean may change (Laws/Only.lean). -/
namespace Sys2Proof.Machine

-- the proofs below are one script for many operations, of which each uses its own part
set_option linter.unusedTactic false
set_option linter.unreachableTactic false

theorem only_setFab {L : List Part} {s0 s : State} (f : Fabric → Fabric) (hL : ([.fab] : List Part) ⊆ L)
    (hgood : OnlyChanges L s0 s) : OnlyChanges L s0 (setFab f s) := by
  unfold setFab
  try dsimp only
  repeat' first
    | with_reducible assumption
    | with_reducible apply only_set_fab
    | (with_reducible refine only_in hL ?_; decide)

theorem only_dropTile {L : List Part} {s0 s : State} (t : TileSt) (misses : Nat) (hL : ([.health, .sweep, .fab, .strm, .pond] : List Part) ⊆ L)
    (hgood : OnlyChanges L s0 s) : OnlyChanges L s0 (dropTile t misses s) := by
  unfold dropTile
  try dsimp only
  repeat' first
    | with_reducible assumption
    | with_reducible apply only_giveUpPads
    | with_reducible apply only_setPass
    | with_reducible apply only_countFab
    | (with_reducible refine List.Subset.trans ?_ hL; decide)

theorem only_shedRanks {L : List Part} {s0 s : State} (mask : BitVec 26) (hL : ([.fab] : List Part) ⊆ L)
    (hgood : OnlyChanges L s0 s) : OnlyChanges L s0 (shedRanks mask s) := by
  unfold shedRanks
  try dsimp only
  repeat' first
    | with_reducible assumption
    | with_reducible apply only_setFab
    | (with_reducible refine List.Subset.trans ?_ hL; decide)

theorem only_discardChain {L : List Part} {s0 s : State}  (hL : ([.sweep] : List Part) ⊆ L)
    (hgood : OnlyChanges L s0 s) : OnlyChanges L s0 (discardChain s) := by
  unfold discardChain
  try dsimp only
  repeat' first
    | with_reducible assumption
    | with_reducible apply only_setPass
    | (with_reducible refine List.Subset.trans ?_ hL; decide)
    | with_reducible apply only_ite
    | split

theorem only_dropDiscarded {L : List Part} {s0 s : State}  (hL : ([.health, .sweep, .fab, .strm, .pond] : List Part) ⊆ L)
    (hgood : OnlyChanges L s0 s) : OnlyChanges L s0 (dropDiscarded s) := by
  unfold dropDiscarded
  try dsimp only
  repeat' first
    | with_reducible assumption
    | with_reducible apply only_dropTile
    | (with_reducible refine List.Subset.trans ?_ hL; decide)
    | intro _ _ _
    | with_reducible apply only_foldl

theorem only_residueFault {L : List Part} {s0 s : State} (rank : BitVec 5) (lane : BitVec 7) (unit : BitVec 2) (t : TileSt) (hL : ([.health, .evt, .sweep, .fab] : List Part) ⊆ L)
    (hgood : OnlyChanges L s0 s) : OnlyChanges L s0 (residueFault rank lane unit t s) := by
  unfold residueFault
  try dsimp only
  repeat' first
    | with_reducible assumption
    | with_reducible apply only_discardChain
    | with_reducible apply only_shedRanks
    | with_reducible apply only_setFab
    | with_reducible apply only_croakSet
    | with_reducible apply only_report
    | (with_reducible refine List.Subset.trans ?_ hL; decide)

theorem only_drainEnd {L : List Part} {s0 s : State}  (hL : ([.health, .sweep, .fab, .strm, .pond] : List Part) ⊆ L)
    (hgood : OnlyChanges L s0 s) : OnlyChanges L s0 (drainEnd s) := by
  unfold drainEnd
  try dsimp only
  repeat' first
    | with_reducible assumption
    | with_reducible apply only_dropDiscarded
    | with_reducible apply only_setFab
    | with_reducible apply only_raiseHalt
    | with_reducible apply only_chooseVariant
    | with_reducible apply only_setPass
    | (with_reducible refine List.Subset.trans ?_ hL; decide)
    | with_reducible apply only_ite
    | split

theorem only_fabricResetBegin {L : List Part} {s0 s : State}  (hL : ([.boot, .health, .evt, .mem, .aux, .sweep, .fab, .strm, .pond, .rng] : List Part) ⊆ L)
    (hgood : OnlyChanges L s0 s) : OnlyChanges L s0 (fabricResetBegin s) := by
  unfold fabricResetBegin
  try dsimp only
  repeat' first
    | with_reducible assumption
    | with_reducible apply only_setFab
    | with_reducible apply only_haltEma
    | with_reducible apply only_maskStop
    | (with_reducible refine List.Subset.trans ?_ hL; decide)
    | with_reducible apply only_ite
    | split
    | with_reducible apply only_set_boot
    | (with_reducible refine only_in hL ?_; decide)

theorem only_fabricResetEnd {L : List Part} {s0 s : State}  (hL : ([.boot, .fab] : List Part) ⊆ L)
    (hgood : OnlyChanges L s0 s) : OnlyChanges L s0 (fabricResetEnd s) := by
  unfold fabricResetEnd
  try dsimp only
  repeat' first
    | with_reducible assumption
    | with_reducible apply only_chooseVariant
    | (with_reducible refine List.Subset.trans ?_ hL; decide)
    | with_reducible apply only_set_boot
    | (with_reducible refine only_in hL ?_; decide)

theorem only_drainDone {L : List Part} {s0 s : State}  (hL : ([.boot, .health, .evt, .mem, .aux, .sweep, .fab, .strm, .pond, .rng] : List Part) ⊆ L)
    (hgood : OnlyChanges L s0 s) : OnlyChanges L s0 (drainDone s) := by
  unfold drainDone
  try dsimp only
  repeat' first
    | with_reducible assumption
    | with_reducible apply only_fabricResetBegin
    | with_reducible apply only_drainEnd
    | (with_reducible refine List.Subset.trans ?_ hL; decide)
    | with_reducible apply only_ite
    | split

theorem only_codecMismatch {L : List Part} {s0 s : State} (t : TileSt) (hL : ([.health, .mem, .sweep, .fab, .strm, .pond] : List Part) ⊆ L)
    (hgood : OnlyChanges L s0 s) : OnlyChanges L s0 (codecMismatch t s) := by
  unfold codecMismatch
  try dsimp only
  repeat' first
    | with_reducible assumption
    | with_reducible apply only_dropTile
    | with_reducible apply only_discardReads
    | with_reducible apply only_raiseHalt
    | with_reducible apply only_setTile
    | with_reducible apply only_dropReads
    | (with_reducible refine List.Subset.trans ?_ hL; decide)
    | with_reducible apply only_ite
    | split

theorem only_checkFailed {L : List Part} {s0 s : State} (im : Image) (t : TileSt) (x : Nat × Nat × Nat) (hL : ([.health, .evt, .sweep, .fab] : List Part) ⊆ L)
    (hgood : OnlyChanges L s0 s) : OnlyChanges L s0 (checkFailed im t x s) := by
  unfold checkFailed
  try dsimp only
  repeat' first
    | with_reducible assumption
    | with_reducible apply only_residueFault
    | (with_reducible refine List.Subset.trans ?_ hL; decide)
    | split

theorem only_lastBeat {L : List Part} {s0 s : State} (im : Image) (p : Pass) (t : TileSt) (hL : ([.health, .evt, .sweep, .fab, .strm, .pond] : List Part) ⊆ L)
    (hgood : OnlyChanges L s0 s) : OnlyChanges L s0 (lastBeat im p t s) := by
  unfold lastBeat
  try dsimp only
  repeat' first
    | with_reducible assumption
    | with_reducible apply only_checkFailed
    | with_reducible apply only_freeSlots
    | with_reducible apply only_setTile
    | (with_reducible refine List.Subset.trans ?_ hL; decide)
    | with_reducible apply only_ite
    | split
    | with_reducible apply only_set_fab
    | (with_reducible refine only_in hL ?_; decide)

theorem only_beatIn {L : List Part} {s0 s : State} (im : Image) (p : Pass) (hL : ([.health, .evt, .sweep, .fab, .strm, .pond] : List Part) ⊆ L)
    (hgood : OnlyChanges L s0 s) : OnlyChanges L s0 (beatIn im p s).2 := by
  unfold beatIn
  try dsimp only
  repeat' first
    | with_reducible assumption
    | with_reducible apply only_lastBeat
    | with_reducible apply only_setTile
    | (with_reducible refine List.Subset.trans ?_ hL; decide)
    | with_reducible apply only_ite
    | split

theorem only_beatIn_eq {L : List Part} {s0 s t : State} {a : Bool} {im : Image} {p : Pass} (hL : ([.health, .evt, .sweep, .fab, .strm, .pond] : List Part) ⊆ L)
    (heq : beatIn im p s = (a, t)) (hgood : OnlyChanges L s0 s) : OnlyChanges L s0 t := by
  have h := only_beatIn im p hL hgood
  rw [heq] at h
  exact h

theorem only_leaveChain {L : List Part} {s0 s : State} (im : Image) (p : Pass) (t : TileSt) (hL : ([.health, .sweep, .fab, .strm, .pond] : List Part) ⊆ L)
    (hgood : OnlyChanges L s0 s) : OnlyChanges L s0 (leaveChain im p t s) := by
  unfold leaveChain
  try dsimp only
  repeat' first
    | with_reducible assumption
    | with_reducible apply only_dropTile
    | with_reducible apply only_setTile
    | with_reducible apply only_setPass
    | with_reducible apply only_storeOut
    | (with_reducible refine List.Subset.trans ?_ hL; decide)
    | with_reducible apply only_ite
    | split

theorem only_leaveAll {L : List Part} {s0 s : State} (im : Image) (hL : ([.health, .sweep, .fab, .strm, .pond] : List Part) ⊆ L)
    (hgood : OnlyChanges L s0 s) : OnlyChanges L s0 (leaveAll im s) := by
  unfold leaveAll
  try dsimp only
  repeat' first
    | with_reducible assumption
    | with_reducible apply only_leaveChain
    | (with_reducible refine List.Subset.trans ?_ hL; decide)
    | intro _ _ _
    | with_reducible apply only_foldl
    | split

theorem only_prepareCycle {L : List Part} {s0 s : State}  (hL : ([.sweep] : List Part) ⊆ L)
    (hgood : OnlyChanges L s0 s) : OnlyChanges L s0 (prepareCycle s) := by
  unfold prepareCycle
  try dsimp only
  repeat' first
    | with_reducible assumption
    | with_reducible apply only_setPass
    | (with_reducible refine List.Subset.trans ?_ hL; decide)
    | with_reducible apply only_ite
    | split

theorem only_chainCycle {L : List Part} {s0 s : State}  (hL : ([.health, .evt, .sweep, .fab, .strm, .pond, .rng] : List Part) ⊆ L)
    (hgood : OnlyChanges L s0 s) : OnlyChanges L s0 (chainCycle s).2 := by
  unfold chainCycle
  try dsimp only
  repeat' first
    | with_reducible assumption
    | with_reducible apply only_leaveAll
    | with_reducible apply only_beatIn
    | (with_reducible refine only_beatIn_eq ?_ ‹_› ?_)
    | with_reducible apply only_setPass
    | with_reducible apply only_countRng
    | (with_reducible refine List.Subset.trans ?_ hL; decide)
    | with_reducible apply only_ite
    | split

theorem only_chainCycle_eq {L : List Part} {s0 s t : State} {a : Bool}  (hL : ([.health, .evt, .sweep, .fab, .strm, .pond, .rng] : List Part) ⊆ L)
    (heq : chainCycle s = (a, t)) (hgood : OnlyChanges L s0 s) : OnlyChanges L s0 t := by
  have h := only_chainCycle  hL hgood
  rw [heq] at h
  exact h

theorem only_genFault {L : List Part} {s0 s : State}  (hL : ([.rng] : List Part) ⊆ L)
    (hgood : OnlyChanges L s0 s) : OnlyChanges L s0 (genFault s) := by
  unfold genFault
  try dsimp only
  repeat' first
    | with_reducible assumption
    | with_reducible apply only_countRng
    | (with_reducible refine List.Subset.trans ?_ hL; decide)
    | with_reducible apply only_set_rng
    | (with_reducible refine only_in hL ?_; decide)

theorem only_writeFabShed {L : List Part} {s0 s : State} (w : Word) (hL : ([.health, .evt, .fab] : List Part) ⊆ L)
    (hgood : OnlyChanges L s0 s) : OnlyChanges L s0 (writeFabShed w s) := by
  unfold writeFabShed
  try dsimp only
  repeat' first
    | with_reducible assumption
    | with_reducible apply only_shedRanks
    | with_reducible apply only_chooseVariant
    | with_reducible apply only_croakSet
    | with_reducible apply only_report
    | (with_reducible refine List.Subset.trans ?_ hL; decide)
    | with_reducible apply only_ite
    | split

theorem only_writeFabCtl {L : List Part} {s0 s : State} (w : Word) (hL : ([.fab] : List Part) ⊆ L)
    (hgood : OnlyChanges L s0 s) : OnlyChanges L s0 (writeFabCtl w s) := by
  unfold writeFabCtl
  try dsimp only
  repeat' first
    | with_reducible assumption
    | with_reducible apply only_setFab
    | (with_reducible refine List.Subset.trans ?_ hL; decide)
    | with_reducible apply only_ite
    | split

end Sys2Proof.Machine
end

