-- ==== Sys2Proof/Laws/OnlyLink.lean ====
section
/-! SUPPORT. Which parts of the state each operation of Machine/Link.lean may change (Laws/Only.lean). -/
namespace Sys2Proof.Machine

-- the proofs below are one script for many operations, of which each uses its own part
set_option linter.unusedTactic false
set_option linter.unreachableTactic false

theorem only_resendUnresolved {L : List Part} {s0 s : State}  (hL : ([.hier, .east, .west] : List Part) ⊆ L)
    (hgood : OnlyChanges L s0 s) : OnlyChanges L s0 (resendUnresolved s) := by
  unfold resendUnresolved
  try dsimp only
  repeat' first
    | with_reducible assumption
    | with_reducible apply only_sendToManager
    | (with_reducible refine List.Subset.trans ?_ hL; decide)
    | intro _ _ _
    | with_reducible apply only_foldl
    | with_reducible apply only_ite
    | split

theorem only_resendRing {L : List Part} {s0 s : State}  (hL : ([.east, .west] : List Part) ⊆ L)
    (hgood : OnlyChanges L s0 s) : OnlyChanges L s0 (resendRing s) := by
  unfold resendRing
  try dsimp only
  repeat' first
    | with_reducible assumption
    | with_reducible apply only_broadcast
    | (with_reducible refine List.Subset.trans ?_ hL; decide)
    | split

theorem only_ringChanged {L : List Part} {s0 s : State} (old : Option (Side × Nat)) (back : Bool) (hL : ([.health, .evt, .memb, .verdict, .hier, .east, .west, .fmp] : List Part) ⊆ L)
    (hgood : OnlyChanges L s0 s) : OnlyChanges L s0 (ringChanged old back s) := by
  unfold ringChanged
  try dsimp only
  repeat' first
    | with_reducible assumption
    | with_reducible apply only_resendRing
    | with_reducible apply only_resendUnresolved
    | with_reducible apply only_epochFail
    | (with_reducible refine List.Subset.trans ?_ hL; decide)
    | with_reducible apply only_ite
    | split

theorem only_segSettle {L : List Part} {s0 s : State}  (hL : ([.health, .evt, .memb, .verdict, .hier, .east, .west, .ring, .fmp] : List Part) ⊆ L)
    (hgood : OnlyChanges L s0 s) : OnlyChanges L s0 (segSettle s) := by
  unfold segSettle
  try dsimp only
  repeat' first
    | with_reducible assumption
    | with_reducible apply only_ringChanged
    | with_reducible apply only_broadcast
    | (with_reducible refine List.Subset.trans ?_ hL; decide)
    | with_reducible apply only_ite
    | split
    | with_reducible apply only_set_ring
    | (with_reducible refine only_in hL ?_; decide)

theorem only_bootLinks {L : List Part} {s0 s : State}  (hL : ([.boot] : List Part) ⊆ L)
    (hgood : OnlyChanges L s0 s) : OnlyChanges L s0 (bootLinks s) := by
  unfold bootLinks
  try dsimp only
  repeat' first
    | with_reducible assumption
    | with_reducible apply only_bootTo
    | (with_reducible refine List.Subset.trans ?_ hL; decide)
    | with_reducible apply only_ite
    | split

theorem only_startTraining {L : List Part} {s0 s : State} (d : Side) (retrain : Bool) (hL : ([.hier, .east, .west] : List Part) ⊆ L)
    (hgood : OnlyChanges L s0 s) : OnlyChanges L s0 (startTraining d retrain s) := by
  unfold startTraining
  try dsimp only
  repeat' first
    | with_reducible assumption
    | with_reducible apply only_countLink
    | with_reducible apply only_setLink
    | (with_reducible refine List.Subset.trans ?_ hL; decide)
    | with_reducible apply only_ite
    | split
    | with_reducible apply only_set_hier
    | (with_reducible refine only_in hL ?_; decide)

theorem only_trainingOver {L : List Part} {s0 s : State} (d : Side) (hL : ([.boot, .east, .west] : List Part) ⊆ L)
    (hgood : OnlyChanges L s0 s) : OnlyChanges L s0 (trainingOver d s) := by
  unfold trainingOver
  try dsimp only
  repeat' first
    | with_reducible assumption
    | with_reducible apply only_setLink
    | (with_reducible refine List.Subset.trans ?_ hL; decide)
    | split
    | with_reducible apply only_set_boot
    | (with_reducible refine only_in hL ?_; decide)

theorem only_goDown {L : List Part} {s0 s : State} (d : Side) (cause : BitVec 8) (hL : ([.boot, .health, .evt, .east, .west] : List Part) ⊆ L)
    (hgood : OnlyChanges L s0 s) : OnlyChanges L s0 (goDown d cause s) := by
  unfold goDown
  try dsimp only
  repeat' first
    | with_reducible assumption
    | with_reducible apply only_trainingOver
    | with_reducible apply only_setLink
    | with_reducible apply only_croakSet
    | with_reducible apply only_report
    | (with_reducible refine List.Subset.trans ?_ hL; decide)
    | with_reducible apply only_ite
    | split

theorem only_trainFail {L : List Part} {s0 s : State} (d : Side) (hL : ([.boot, .health, .evt, .hier, .east, .west] : List Part) ⊆ L)
    (hgood : OnlyChanges L s0 s) : OnlyChanges L s0 (trainFail d s) := by
  unfold trainFail
  try dsimp only
  repeat' first
    | with_reducible assumption
    | with_reducible apply only_goDown
    | with_reducible apply only_startTraining
    | with_reducible apply only_setLink
    | (with_reducible refine List.Subset.trans ?_ hL; decide)
    | with_reducible apply only_ite
    | split

theorem only_linkRestart {L : List Part} {s0 s : State} (d : Side) (hL : ([.boot, .health, .evt, .hier, .east, .west] : List Part) ⊆ L)
    (hgood : OnlyChanges L s0 s) : OnlyChanges L s0 (linkRestart d s) := by
  unfold linkRestart
  try dsimp only
  repeat' first
    | with_reducible assumption
    | with_reducible apply only_goDown
    | with_reducible apply only_trainingOver
    | with_reducible apply only_startTraining
    | with_reducible apply only_setLink
    | (with_reducible refine List.Subset.trans ?_ hL; decide)
    | with_reducible apply only_ite
    | split

theorem only_setTraining {L : List Part} {s0 s : State} (d : Side) (f : Training → Training) (hL : ([.east, .west] : List Part) ⊆ L)
    (hgood : OnlyChanges L s0 s) : OnlyChanges L s0 (setTraining d f s) := by
  unfold setTraining
  try dsimp only
  repeat' first
    | with_reducible assumption
    | with_reducible apply only_setLink
    | (with_reducible refine List.Subset.trans ?_ hL; decide)

theorem only_clockDone {L : List Part} {s0 s : State} (d : Side) (locked : Bool) (hL : ([.boot, .health, .evt, .hier, .east, .west] : List Part) ⊆ L)
    (hgood : OnlyChanges L s0 s) : OnlyChanges L s0 (clockDone d locked s) := by
  unfold clockDone
  try dsimp only
  repeat' first
    | with_reducible assumption
    | with_reducible apply only_setTraining
    | with_reducible apply only_trainFail
    | (with_reducible refine List.Subset.trans ?_ hL; decide)
    | with_reducible apply only_ite
    | split

theorem only_patternDone {L : List Part} {s0 s : State} (d : Side) (errors : BitVec 12) (hL : ([.hier, .east, .west] : List Part) ⊆ L)
    (hgood : OnlyChanges L s0 s) : OnlyChanges L s0 (patternDone d errors s) := by
  unfold patternDone
  try dsimp only
  repeat' first
    | with_reducible assumption
    | with_reducible apply only_setTraining
    | with_reducible apply only_startTraining
    | (with_reducible refine List.Subset.trans ?_ hL; decide)
    | with_reducible apply only_ite
    | split

theorem only_marginDone {L : List Part} {s0 s : State} (d : Side) (margins : BitVec 96) (hL : ([.boot, .health, .evt, .east, .west] : List Part) ⊆ L)
    (hgood : OnlyChanges L s0 s) : OnlyChanges L s0 (marginDone d margins s) := by
  unfold marginDone
  try dsimp only
  repeat' first
    | with_reducible assumption
    | with_reducible apply only_goDown
    | with_reducible apply only_setLink
    | (with_reducible refine List.Subset.trans ?_ hL; decide)
    | intro _ _ _
    | with_reducible apply only_foldl
    | with_reducible apply only_ite
    | split

theorem only_mapWordIn {L : List Part} {s0 s : State} (d : Side) (word : BitVec 24) (crc : BitVec 16) (hL : ([.boot, .health, .evt, .east, .west] : List Part) ⊆ L)
    (hgood : OnlyChanges L s0 s) : OnlyChanges L s0 (mapWordIn d word crc s) := by
  unfold mapWordIn
  try dsimp only
  repeat' first
    | with_reducible assumption
    | with_reducible apply only_goDown
    | with_reducible apply only_setLink
    | (with_reducible refine List.Subset.trans ?_ hL; decide)
    | with_reducible apply only_ite
    | split

theorem only_useAck {L : List Part} {s0 s : State} (d : Side) (ack : BitVec 12) (nak : Bool) (hL : ([.east, .west] : List Part) ⊆ L)
    (hgood : OnlyChanges L s0 s) : OnlyChanges L s0 (useAck d ack nak s) := by
  unfold useAck
  try dsimp only
  repeat' first
    | with_reducible assumption
    | with_reducible apply only_setLink
    | (with_reducible refine List.Subset.trans ?_ hL; decide)
    | with_reducible apply only_ite
    | split

theorem only_useCredit {L : List Part} {s0 s : State} (d : Side) (vc : Nat) (count : BitVec 6) (hL : ([.east, .west] : List Part) ⊆ L)
    (hgood : OnlyChanges L s0 s) : OnlyChanges L s0 (useCredit d vc count s) := by
  unfold useCredit
  try dsimp only
  repeat' first
    | with_reducible assumption
    | with_reducible apply only_setLink
    | (with_reducible refine List.Subset.trans ?_ hL; decide)
    | with_reducible apply only_ite
    | split

theorem only_askNak {L : List Part} {s0 s : State} (d : Side) (hL : ([.east, .west] : List Part) ⊆ L)
    (hgood : OnlyChanges L s0 s) : OnlyChanges L s0 (askNak d s) := by
  unfold askNak
  try dsimp only
  repeat' first
    | with_reducible assumption
    | with_reducible apply only_setLink
    | (with_reducible refine List.Subset.trans ?_ hL; decide)
    | with_reducible apply only_ite
    | split

theorem only_forwardFrame {L : List Part} {s0 s : State} (d : Side) (f : LFrame) (hL : ([.east, .west] : List Part) ⊆ L)
    (hgood : OnlyChanges L s0 s) : OnlyChanges L s0 (forwardFrame d f s) := by
  unfold forwardFrame
  try dsimp only
  repeat' first
    | with_reducible assumption
    | with_reducible apply only_freeBuffer
    | with_reducible apply only_linkWake
    | with_reducible apply only_setLink
    | (with_reducible refine List.Subset.trans ?_ hL; decide)
    | with_reducible apply only_ite
    | split

theorem only_deliverFrame {L : List Part} {s0 s : State} (d : Side) (vc : BitVec 2) (m : Line) (hL : ([.hier, .east, .west] : List Part) ⊆ L)
    (hgood : OnlyChanges L s0 s) : OnlyChanges L s0 (deliverFrame d vc m s) := by
  unfold deliverFrame
  try dsimp only
  repeat' first
    | with_reducible assumption
    | with_reducible apply only_freeBuffer
    | with_reducible apply only_deliver
    | with_reducible apply only_countLink
    | (with_reducible refine List.Subset.trans ?_ hL; decide)
    | with_reducible apply only_ite
    | split

theorem only_routeFrame {L : List Part} {s0 s : State} (d : Side) (h : BitVec 48) (m : Line) (hL : ([.hier, .east, .west] : List Part) ⊆ L)
    (hgood : OnlyChanges L s0 s) : OnlyChanges L s0 (routeFrame d h m s) := by
  unfold routeFrame
  try dsimp only
  repeat' first
    | with_reducible assumption
    | with_reducible apply only_deliverFrame
    | with_reducible apply only_forwardFrame
    | (with_reducible refine List.Subset.trans ?_ hL; decide)
    | with_reducible apply only_ite
    | split

theorem only_frameIn {L : List Part} {s0 s : State} (d : Side) (f : BitVec 576) (hL : ([.hier, .east, .west] : List Part) ⊆ L)
    (hgood : OnlyChanges L s0 s) : OnlyChanges L s0 (frameIn d f s) := by
  unfold frameIn
  try dsimp only
  repeat' first
    | with_reducible assumption
    | with_reducible apply only_routeFrame
    | with_reducible apply only_askNak
    | with_reducible apply only_useCredit
    | with_reducible apply only_useAck
    | with_reducible apply only_startTraining
    | with_reducible apply only_countLink
    | with_reducible apply only_setLink
    | (with_reducible refine List.Subset.trans ?_ hL; decide)
    | with_reducible apply only_ite
    | split

theorem only_chameleonIn {L : List Part} {s0 s : State} (d : Side) (lane : Bool) (word : BitVec 24) (crc : BitVec 16) (hL : ([.east, .west] : List Part) ⊆ L)
    (hgood : OnlyChanges L s0 s) : OnlyChanges L s0 (chameleonIn d lane word crc s) := by
  unfold chameleonIn
  try dsimp only
  repeat' first
    | with_reducible assumption
    | with_reducible apply only_useCredit
    | with_reducible apply only_useAck
    | (with_reducible refine List.Subset.trans ?_ hL; decide)
    | with_reducible apply only_ite
    | split

theorem only_driveFrame {L : List Part} {s0 s : State} (d : Side) (kind : BitVec 3) (vc : BitVec 2) (seq : BitVec 12) (dest src : BitVec 4) (bcast : Bool) (payload : Line) (hL : ([.east, .west] : List Part) ⊆ L)
    (hgood : OnlyChanges L s0 s) : OnlyChanges L s0 (driveFrame d kind vc seq dest src bcast payload s) := by
  unfold driveFrame
  try dsimp only
  repeat' first
    | with_reducible assumption
    | with_reducible apply only_countLink
    | with_reducible apply only_setLink
    | (with_reducible refine List.Subset.trans ?_ hL; decide)
    | with_reducible apply only_ite
    | split

theorem only_sendData {L : List Part} {s0 s : State} (d : Side) (f : LFrame) (hL : ([.east, .west] : List Part) ⊆ L)
    (hgood : OnlyChanges L s0 s) : OnlyChanges L s0 (sendData d f s) := by
  unfold sendData
  try dsimp only
  repeat' first
    | with_reducible assumption
    | with_reducible apply only_driveFrame
    | with_reducible apply only_setLink
    | (with_reducible refine List.Subset.trans ?_ hL; decide)
    | with_reducible apply only_ite
    | split

theorem only_sleepIfBoth {L : List Part} {s0 s : State} (d : Side) (hL : ([.east, .west] : List Part) ⊆ L)
    (hgood : OnlyChanges L s0 s) : OnlyChanges L s0 (sleepIfBoth d s) := by
  unfold sleepIfBoth
  try dsimp only
  repeat' first
    | with_reducible assumption
    | with_reducible apply only_setLink
    | (with_reducible refine List.Subset.trans ?_ hL; decide)
    | with_reducible apply only_ite
    | split

theorem only_sendIdle {L : List Part} {s0 s : State} (d : Side) (hL : ([.east, .west] : List Part) ⊆ L)
    (hgood : OnlyChanges L s0 s) : OnlyChanges L s0 (sendIdle d s) := by
  unfold sendIdle
  try dsimp only
  repeat' first
    | with_reducible assumption
    | with_reducible apply only_sleepIfBoth
    | with_reducible apply only_driveFrame
    | with_reducible apply only_setLink
    | (with_reducible refine List.Subset.trans ?_ hL; decide)
    | with_reducible apply only_ite
    | split

theorem only_frameSlot {L : List Part} {s0 s : State} (d : Side) (hL : ([.east, .west] : List Part) ⊆ L)
    (hgood : OnlyChanges L s0 s) : OnlyChanges L s0 (frameSlot d s) := by
  unfold frameSlot
  try dsimp only
  repeat' first
    | with_reducible assumption
    | with_reducible apply only_sendIdle
    | with_reducible apply only_sendData
    | with_reducible apply only_driveFrame
    | with_reducible apply only_setTraining
    | with_reducible apply only_freeBuffer
    | with_reducible apply only_countLink
    | with_reducible apply only_setLink
    | (with_reducible refine List.Subset.trans ?_ hL; decide)
    | with_reducible apply only_ite
    | split

theorem only_identIn {L : List Part} {s0 s : State} (d : Side) (f : BitVec 576) (hL : ([.east, .west] : List Part) ⊆ L)
    (hgood : OnlyChanges L s0 s) : OnlyChanges L s0 (identIn d f s) := by
  unfold identIn
  try dsimp only
  repeat' first
    | with_reducible assumption
    | with_reducible apply only_setTraining
    | with_reducible apply only_countLink
    | with_reducible apply only_setLink
    | (with_reducible refine List.Subset.trans ?_ hL; decide)
    | with_reducible apply only_ite
    | split

theorem only_reportWiring {L : List Part} {s0 s : State} (d : Side) (m : Line) (hL : ([.health] : List Part) ⊆ L)
    (hgood : OnlyChanges L s0 s) : OnlyChanges L s0 (reportWiring d m s) := by
  unfold reportWiring
  try dsimp only
  repeat' first
    | with_reducible assumption
    | with_reducible apply only_report
    | (with_reducible refine List.Subset.trans ?_ hL; decide)

theorem only_quarantine {L : List Part} {s0 s : State} (d : Side) (cause : BitVec 8) (hL : ([.east, .west] : List Part) ⊆ L)
    (hgood : OnlyChanges L s0 s) : OnlyChanges L s0 (quarantine d cause s) := by
  unfold quarantine
  try dsimp only
  repeat' first
    | with_reducible assumption
    | with_reducible apply only_setLink
    | (with_reducible refine List.Subset.trans ?_ hL; decide)
    | with_reducible apply only_ite
    | split

theorem only_enterRun {L : List Part} {s0 s : State} (d : Side) (hL : ([.east, .west] : List Part) ⊆ L)
    (hgood : OnlyChanges L s0 s) : OnlyChanges L s0 (enterRun d s) := by
  unfold enterRun
  try dsimp only
  repeat' first
    | with_reducible assumption
    | with_reducible apply only_flashSend
    | with_reducible apply only_setLink
    | (with_reducible refine List.Subset.trans ?_ hL; decide)
    | split

theorem only_identityEnd {L : List Part} {s0 s : State} (d : Side) (hL : ([.boot, .health, .evt, .hier, .east, .west] : List Part) ⊆ L)
    (hgood : OnlyChanges L s0 s) : OnlyChanges L s0 (identityEnd d s) := by
  unfold identityEnd
  try dsimp only
  repeat' first
    | with_reducible assumption
    | with_reducible apply only_enterRun
    | with_reducible apply only_quarantine
    | with_reducible apply only_reportWiring
    | with_reducible apply only_goDown
    | with_reducible apply only_trainingOver
    | with_reducible apply only_startTraining
    | with_reducible apply only_setLink
    | with_reducible apply only_croakSet
    | with_reducible apply only_report
    | (with_reducible refine List.Subset.trans ?_ hL; decide)
    | with_reducible apply only_ite
    | split

theorem only_recompare {L : List Part} {s0 s : State} (d : Side) (hL : ([.boot, .health, .evt, .hier, .east, .west] : List Part) ⊆ L)
    (hgood : OnlyChanges L s0 s) : OnlyChanges L s0 (recompare d s) := by
  unfold recompare
  try dsimp only
  repeat' first
    | with_reducible assumption
    | with_reducible apply only_enterRun
    | with_reducible apply only_quarantine
    | with_reducible apply only_reportWiring
    | with_reducible apply only_linkRestart
    | with_reducible apply only_setLink
    | (with_reducible refine List.Subset.trans ?_ hL; decide)
    | with_reducible apply only_ite
    | split

theorem only_holdDown {L : List Part} {s0 s : State} (d : Side) (on : Bool) (hL : ([.boot, .health, .evt, .east, .west] : List Part) ⊆ L)
    (hgood : OnlyChanges L s0 s) : OnlyChanges L s0 (holdDown d on s) := by
  unfold holdDown
  try dsimp only
  repeat' first
    | with_reducible assumption
    | with_reducible apply only_goDown
    | with_reducible apply only_setLink
    | (with_reducible refine List.Subset.trans ?_ hL; decide)
    | with_reducible apply only_ite
    | split

theorem only_sleepBit {L : List Part} {s0 s : State} (d : Side) (on : Bool) (hL : ([.east, .west] : List Part) ⊆ L)
    (hgood : OnlyChanges L s0 s) : OnlyChanges L s0 (sleepBit d on s) := by
  unfold sleepBit
  try dsimp only
  repeat' first
    | with_reducible assumption
    | with_reducible apply only_linkWake
    | with_reducible apply only_setLink
    | (with_reducible refine List.Subset.trans ?_ hL; decide)
    | with_reducible apply only_ite
    | split

theorem only_testBit {L : List Part} {s0 s : State} (d : Side) (on : Bool) (hL : ([.east, .west] : List Part) ⊆ L)
    (hgood : OnlyChanges L s0 s) : OnlyChanges L s0 (testBit d on s) := by
  unfold testBit
  try dsimp only
  repeat' first
    | with_reducible assumption
    | with_reducible apply only_setLink
    | (with_reducible refine List.Subset.trans ?_ hL; decide)
    | with_reducible apply only_ite
    | split

theorem only_retrainBit {L : List Part} {s0 s : State} (d : Side) (hL : ([.hier, .east, .west] : List Part) ⊆ L)
    (hgood : OnlyChanges L s0 s) : OnlyChanges L s0 (retrainBit d s) := by
  unfold retrainBit
  try dsimp only
  repeat' first
    | with_reducible assumption
    | with_reducible apply only_startTraining
    | with_reducible apply only_linkWake
    | with_reducible apply only_setLink
    | (with_reducible refine List.Subset.trans ?_ hL; decide)
    | with_reducible apply only_ite
    | split

theorem only_writeXlCtl {L : List Part} {s0 s : State} (d : Side) (w : Word) (hL : ([.boot, .health, .evt, .memb, .verdict, .hier, .east, .west, .ring, .fmp] : List Part) ⊆ L)
    (hgood : OnlyChanges L s0 s) : OnlyChanges L s0 (writeXlCtl d w s) := by
  unfold writeXlCtl
  try dsimp only
  repeat' first
    | with_reducible assumption
    | with_reducible apply only_retrainBit
    | with_reducible apply only_testBit
    | with_reducible apply only_sleepBit
    | with_reducible apply only_holdDown
    | with_reducible apply only_bootLinks
    | with_reducible apply only_segSettle
    | (with_reducible refine List.Subset.trans ?_ hL; decide)
    | with_reducible apply only_ite
    | split

theorem only_fmpAckSend {L : List Part} {s0 s : State} (e : BitVec 128) (hL : ([.fmp] : List Part) ⊆ L)
    (hgood : OnlyChanges L s0 s) : OnlyChanges L s0 (fmpAckSend e s) := by
  unfold fmpAckSend
  try dsimp only
  repeat' first
    | with_reducible assumption
    | with_reducible apply only_set_fmp
    | (with_reducible refine only_in hL ?_; decide)

theorem only_fmpDataIn {L : List Part} {s0 s : State} (e : BitVec 128) (payload : Line) (hL : ([.hier, .fmp] : List Part) ⊆ L)
    (hgood : OnlyChanges L s0 s) : OnlyChanges L s0 (fmpDataIn e payload s) := by
  unfold fmpDataIn
  try dsimp only
  repeat' first
    | with_reducible assumption
    | with_reducible apply only_fmpAckSend
    | with_reducible apply only_deliver
    | with_reducible apply only_countFmp
    | (with_reducible refine List.Subset.trans ?_ hL; decide)
    | with_reducible apply only_ite
    | split
    | with_reducible apply only_set_fmp
    | (with_reducible refine only_in hL ?_; decide)

theorem only_fmpAckIn {L : List Part} {s0 s : State} (e : BitVec 128) (hL : ([.fmp] : List Part) ⊆ L)
    (hgood : OnlyChanges L s0 s) : OnlyChanges L s0 (fmpAckIn e s) := by
  unfold fmpAckIn
  try dsimp only
  repeat' first
    | with_reducible assumption
    | with_reducible apply only_fmpDrain
    | (with_reducible refine List.Subset.trans ?_ hL; decide)
    | with_reducible apply only_set_fmp
    | (with_reducible refine only_in hL ?_; decide)

theorem only_fmpIn {L : List Part} {s0 s : State} (beats : List (BitVec 128 × BitVec 16)) (hL : ([.hier, .far, .fmp] : List Part) ⊆ L)
    (hgood : OnlyChanges L s0 s) : OnlyChanges L s0 (fmpIn beats s) := by
  unfold fmpIn
  try dsimp only
  repeat' first
    | with_reducible assumption
    | with_reducible apply only_fmpAckIn
    | with_reducible apply only_fmpDataIn
    | with_reducible apply only_countFmp
    | with_reducible apply only_countPort
    | (with_reducible refine List.Subset.trans ?_ hL; decide)
    | intro _ _ _
    | with_reducible apply only_foldl
    | with_reducible apply only_ite
    | split

theorem only_fmpTimeout {L : List Part} {s0 s : State} (dest : BitVec 32) (seq : BitVec 16) (hL : ([.health, .evt, .memb, .verdict, .east, .west, .fmp] : List Part) ⊆ L)
    (hgood : OnlyChanges L s0 s) : OnlyChanges L s0 (fmpTimeout dest seq s) := by
  unfold fmpTimeout
  try dsimp only
  repeat' first
    | with_reducible assumption
    | with_reducible apply only_epochFail
    | with_reducible apply only_fmpDrain
    | with_reducible apply only_fmpTransmit
    | with_reducible apply only_report
    | with_reducible apply only_countFmp
    | (with_reducible refine List.Subset.trans ?_ hL; decide)
    | with_reducible apply only_ite
    | split
    | with_reducible apply only_set_fmp
    | (with_reducible refine only_in hL ?_; decide)

theorem only_linkStateIn {L : List Part} {s0 s : State} (m : Line) (hL : ([.health, .evt, .memb, .verdict, .hier, .east, .west, .ring, .fmp] : List Part) ⊆ L)
    (hgood : OnlyChanges L s0 s) : OnlyChanges L s0 (linkStateIn m s) := by
  unfold linkStateIn
  try dsimp only
  repeat' first
    | with_reducible assumption
    | with_reducible apply only_ringChanged
    | (with_reducible refine List.Subset.trans ?_ hL; decide)
    | intro _ _ _
    | with_reducible apply only_foldl
    | with_reducible apply only_ite
    | split
    | with_reducible apply only_set_ring
    | (with_reducible refine only_in hL ?_; decide)

end Sys2Proof.Machine
end

