-- ==== Sys2Proof/Laws/OnlyStaged.lean ====
section
/-! SUPPORT. Which parts of the state each operation of Machine/Staged.lean may change (Laws/Only.lean). -/
namespace Sys2Proof.Machine

-- the proofs below are one script for many operations, of which each uses its own part
set_option linter.unusedTactic false
set_option linter.unreachableTactic false

theorem only_setStepk {L : List Part} {s0 s : State} (f : Stepk → Stepk) (hL : ([.stepk] : List Part) ⊆ L)
    (hgood : OnlyChanges L s0 s) : OnlyChanges L s0 (setStepk f s) := by
  unfold setStepk
  try dsimp only
  repeat' first
    | with_reducible assumption
    | with_reducible apply only_set_stepk
    | (with_reducible refine only_in hL ?_; decide)

theorem only_writeStepkCommit {L : List Part} {s0 s : State} (w : Word) (hL : ([.stepk] : List Part) ⊆ L)
    (hgood : OnlyChanges L s0 s) : OnlyChanges L s0 (writeStepkCommit w s) := by
  unfold writeStepkCommit
  try dsimp only
  repeat' first
    | with_reducible assumption
    | with_reducible apply only_setStepk
    | (with_reducible refine List.Subset.trans ?_ hL; decide)
    | with_reducible apply only_ite
    | split

theorem only_applyStepk {L : List Part} {s0 s : State}  (hL : ([.stepk] : List Part) ⊆ L)
    (hgood : OnlyChanges L s0 s) : OnlyChanges L s0 (applyStepk s) := by
  unfold applyStepk
  try dsimp only
  repeat' first
    | with_reducible assumption
    | with_reducible apply only_setStepk
    | (with_reducible refine List.Subset.trans ?_ hL; decide)
    | with_reducible apply only_ite
    | split

theorem only_recheckStepk {L : List Part} {s0 s : State}  (hL : ([.image, .stepk] : List Part) ⊆ L)
    (hgood : OnlyChanges L s0 s) : OnlyChanges L s0 (recheckStepk s) := by
  unfold recheckStepk
  try dsimp only
  repeat' first
    | with_reducible assumption
    | with_reducible apply only_setStepk
    | (with_reducible refine List.Subset.trans ?_ hL; decide)
    | with_reducible apply only_ite
    | split
    | with_reducible apply only_set_image
    | (with_reducible refine only_in hL ?_; decide)

theorem only_setSwp {L : List Part} {s0 s : State} (f : Swp → Swp) (hL : ([.swp] : List Part) ⊆ L)
    (hgood : OnlyChanges L s0 s) : OnlyChanges L s0 (setSwp f s) := by
  unfold setSwp
  try dsimp only
  repeat' first
    | with_reducible assumption
    | with_reducible apply only_set_swp
    | (with_reducible refine only_in hL ?_; decide)

theorem only_writeSwpCommit {L : List Part} {s0 s : State} (w : Word) (hL : ([.swp] : List Part) ⊆ L)
    (hgood : OnlyChanges L s0 s) : OnlyChanges L s0 (writeSwpCommit w s) := by
  unfold writeSwpCommit
  try dsimp only
  repeat' first
    | with_reducible assumption
    | with_reducible apply only_setSwp
    | (with_reducible refine List.Subset.trans ?_ hL; decide)
    | with_reducible apply only_ite
    | split

theorem only_applySwp {L : List Part} {s0 s : State}  (hL : ([.swp, .tongue] : List Part) ⊆ L)
    (hgood : OnlyChanges L s0 s) : OnlyChanges L s0 (applySwp s) := by
  unfold applySwp
  try dsimp only
  repeat' first
    | with_reducible assumption
    | with_reducible apply only_setSwp
    | with_reducible apply only_mapStart
    | (with_reducible refine List.Subset.trans ?_ hL; decide)
    | with_reducible apply only_ite
    | split

theorem only_recheckSwp {L : List Part} {s0 s : State}  (hL : ([.image, .swp, .tongue] : List Part) ⊆ L)
    (hgood : OnlyChanges L s0 s) : OnlyChanges L s0 (recheckSwp s) := by
  unfold recheckSwp
  try dsimp only
  repeat' first
    | with_reducible assumption
    | with_reducible apply only_setSwp
    | (with_reducible refine List.Subset.trans ?_ hL; decide)
    | with_reducible apply only_ite
    | split
    | with_reducible apply only_set_image_tongue
    | (with_reducible refine only_in hL ?_; decide)

theorem only_setTtab {L : List Part} {s0 s : State} (f : Ttab → Ttab) (hL : ([.ttab] : List Part) ⊆ L)
    (hgood : OnlyChanges L s0 s) : OnlyChanges L s0 (setTtab f s) := by
  unfold setTtab
  try dsimp only
  repeat' first
    | with_reducible assumption
    | with_reducible apply only_set_ttab
    | (with_reducible refine only_in hL ?_; decide)

theorem only_startTableLoad {L : List Part} {s0 s : State}  (hL : ([.mem, .ttab, .tongue] : List Part) ⊆ L)
    (hgood : OnlyChanges L s0 s) : OnlyChanges L s0 (startTableLoad s) := by
  unfold startTableLoad
  try dsimp only
  repeat' first
    | with_reducible assumption
    | with_reducible apply only_setTtab
    | with_reducible apply only_dropReads
    | with_reducible apply only_enqueueAll
    | (with_reducible refine List.Subset.trans ?_ hL; decide)
    | with_reducible apply only_set_tongue
    | (with_reducible refine only_in hL ?_; decide)

theorem only_writeTtabCtl {L : List Part} {s0 s : State} (w : Word) (hL : ([.mem, .ttab, .tongue] : List Part) ⊆ L)
    (hgood : OnlyChanges L s0 s) : OnlyChanges L s0 (writeTtabCtl w s) := by
  unfold writeTtabCtl
  try dsimp only
  repeat' first
    | with_reducible assumption
    | with_reducible apply only_startTableLoad
    | with_reducible apply only_setTtab
    | (with_reducible refine List.Subset.trans ?_ hL; decide)
    | with_reducible apply only_ite
    | split

theorem only_tableLine {L : List Part} {s0 s : State} (i : Nat) (data : Option Line) (hL : ([.ttab, .freeCtr] : List Part) ⊆ L)
    (hgood : OnlyChanges L s0 s) : OnlyChanges L s0 (tableLine i data s) := by
  unfold tableLine
  try dsimp only
  repeat' first
    | with_reducible assumption
    | with_reducible apply only_setTtab
    | with_reducible apply only_lineOrFree
    | (with_reducible refine only_lineOrFree_eq ?_ ‹_› ?_)
    | (with_reducible refine List.Subset.trans ?_ hL; decide)
    | with_reducible apply only_ite
    | split

theorem only_tableEnd {L : List Part} {s0 s : State}  (hL : ([.ttab, .tongue] : List Part) ⊆ L)
    (hgood : OnlyChanges L s0 s) : OnlyChanges L s0 (tableEnd s) := by
  unfold tableEnd
  try dsimp only
  repeat' first
    | with_reducible assumption
    | with_reducible apply only_setTtab
    | with_reducible apply only_mapStart
    | (with_reducible refine List.Subset.trans ?_ hL; decide)
    | split

theorem only_recheckTable {L : List Part} {s0 s : State}  (hL : ([.image, .ttab, .tongue] : List Part) ⊆ L)
    (hgood : OnlyChanges L s0 s) : OnlyChanges L s0 (recheckTable s) := by
  unfold recheckTable
  try dsimp only
  repeat' first
    | with_reducible assumption
    | with_reducible apply only_setTtab
    | (with_reducible refine List.Subset.trans ?_ hL; decide)
    | with_reducible apply only_ite
    | split
    | with_reducible apply only_set_image_tongue
    | (with_reducible refine only_in hL ?_; decide)

end Sys2Proof.Machine
end

