-- ==== Sys2Proof/Laws/OnlyImages.lean ====
section
/-! SUPPORT. Which parts of the state each operation of Machine/Images.lean may change (Laws/Only.lean). -/
namespace Sys2Proof.Machine

-- the proofs below are one script for many operations, of which each uses its own part
set_option linter.unusedTactic false
set_option linter.unreachableTactic false

theorem only_setImage {L : List Part} {s0 s : State} (f : ImageUnit → ImageUnit) (hL : ([.image] : List Part) ⊆ L)
    (hgood : OnlyChanges L s0 s) : OnlyChanges L s0 (setImage f s) := by
  unfold setImage
  try dsimp only
  repeat' first
    | with_reducible assumption
    | with_reducible apply only_set_image
    | (with_reducible refine only_in hL ?_; decide)

theorem only_emptyShadow {L : List Part} {s0 s : State}  (hL : ([.mem, .image, .far] : List Part) ⊆ L)
    (hgood : OnlyChanges L s0 s) : OnlyChanges L s0 (emptyShadow s) := by
  unfold emptyShadow
  try dsimp only
  repeat' first
    | with_reducible assumption
    | with_reducible apply only_setImage
    | with_reducible apply only_dropFar
    | with_reducible apply only_dropReads
    | (with_reducible refine List.Subset.trans ?_ hL; decide)

theorem only_startLoad {L : List Part} {s0 s : State}  (hL : ([.boot, .mem, .image, .far] : List Part) ⊆ L)
    (hgood : OnlyChanges L s0 s) : OnlyChanges L s0 (startLoad s) := by
  unfold startLoad
  try dsimp only
  repeat' first
    | with_reducible assumption
    | with_reducible apply only_emptyShadow
    | with_reducible apply only_setImage
    | with_reducible apply only_bootTo
    | with_reducible apply only_enqueueAll
    | (with_reducible refine List.Subset.trans ?_ hL; decide)
    | with_reducible apply only_ite
    | split

theorem only_imgLoad {L : List Part} {s0 s : State}  (hL : ([.boot, .mem, .image, .far] : List Part) ⊆ L)
    (hgood : OnlyChanges L s0 s) : OnlyChanges L s0 (imgLoad s) := by
  unfold imgLoad
  try dsimp only
  repeat' first
    | with_reducible assumption
    | with_reducible apply only_startLoad
    | with_reducible apply only_setImage
    | (with_reducible refine List.Subset.trans ?_ hL; decide)
    | with_reducible apply only_ite
    | split

theorem only_imgDiscard {L : List Part} {s0 s : State}  (hL : ([.mem, .image, .far] : List Part) ⊆ L)
    (hgood : OnlyChanges L s0 s) : OnlyChanges L s0 (imgDiscard s) := by
  unfold imgDiscard
  try dsimp only
  repeat' first
    | with_reducible assumption
    | with_reducible apply only_emptyShadow
    | (with_reducible refine List.Subset.trans ?_ hL; decide)

theorem only_imageLine {L : List Part} {s0 s : State} (i : Nat) (data : Option Line) (hL : ([.image] : List Part) ⊆ L)
    (hgood : OnlyChanges L s0 s) : OnlyChanges L s0 (imageLine i data s) := by
  unfold imageLine
  try dsimp only
  repeat' first
    | with_reducible assumption
    | with_reducible apply only_setImage
    | (with_reducible refine List.Subset.trans ?_ hL; decide)
    | with_reducible apply only_ite
    | split

theorem only_rejectImage {L : List Part} {s0 s : State} (e : BitVec 8) (kind : BitVec 16) (hL : ([.health, .evt, .mem, .image, .far] : List Part) ⊆ L)
    (hgood : OnlyChanges L s0 s) : OnlyChanges L s0 (rejectImage e kind s) := by
  unfold rejectImage
  try dsimp only
  repeat' first
    | with_reducible assumption
    | with_reducible apply only_emptyShadow
    | with_reducible apply only_setImage
    | with_reducible apply only_pulse
    | with_reducible apply only_report
    | (with_reducible refine List.Subset.trans ?_ hL; decide)

theorem only_imageReadEnd {L : List Part} {s0 s : State}  (hL : ([.health, .evt, .mem, .image, .far] : List Part) ⊆ L)
    (hgood : OnlyChanges L s0 s) : OnlyChanges L s0 (imageReadEnd s) := by
  unfold imageReadEnd
  try dsimp only
  repeat' first
    | with_reducible assumption
    | with_reducible apply only_rejectImage
    | with_reducible apply only_setImage
    | (with_reducible refine List.Subset.trans ?_ hL; decide)
    | with_reducible apply only_ite
    | split

theorem only_verifyEnd {L : List Part} {s0 s : State}  (hL : ([.health, .evt, .mem, .image, .far] : List Part) ⊆ L)
    (hgood : OnlyChanges L s0 s) : OnlyChanges L s0 (verifyEnd s) := by
  unfold verifyEnd
  try dsimp only
  repeat' first
    | with_reducible assumption
    | with_reducible apply only_rejectImage
    | with_reducible apply only_setImage
    | with_reducible apply only_pulse
    | (with_reducible refine List.Subset.trans ?_ hL; decide)
    | with_reducible apply only_ite
    | split

theorem only_xchDisable {L : List Part} {s0 s : State} (k : Nat) (hL : ([.health, .mem, .strm, .pond, .xch, .far] : List Part) ⊆ L)
    (hgood : OnlyChanges L s0 s) : OnlyChanges L s0 (xchDisable k s) := by
  unfold xchDisable
  try dsimp only
  repeat' first
    | with_reducible assumption
    | with_reducible apply only_stepCancel
    | with_reducible apply only_endJob
    | with_reducible apply only_dropPads
    | with_reducible apply only_dropLagRead
    | with_reducible apply only_leaveOffers
    | with_reducible apply only_setXch
    | (with_reducible refine List.Subset.trans ?_ hL; decide)

theorem only_moltChannels {L : List Part} {s0 s : State} (n : Nat) (hL : ([.health, .mem, .strm, .pond, .xch, .far] : List Part) ⊆ L)
    (hgood : OnlyChanges L s0 s) : OnlyChanges L s0 (moltChannels n s) := by
  unfold moltChannels
  try dsimp only
  repeat' first
    | with_reducible assumption
    | with_reducible apply only_xchDisable
    | (with_reducible refine List.Subset.trans ?_ hL; decide)
    | intro _ _ _
    | with_reducible apply only_foldl
    | with_reducible apply only_ite
    | split

theorem only_moltBases {L : List Part} {s0 s : State}  (hL : ([.xch] : List Part) ⊆ L)
    (hgood : OnlyChanges L s0 s) : OnlyChanges L s0 (moltBases s) := by
  unfold moltBases
  try dsimp only
  repeat' first
    | with_reducible assumption
    | with_reducible apply only_ite
    | split
    | with_reducible apply only_set_xch
    | (with_reducible refine only_in hL ?_; decide)

theorem only_swapPlanes {L : List Part} {s0 s : State} (im : Image) (hL : ([.health, .mem, .image, .strm, .pond, .xch, .far] : List Part) ⊆ L)
    (hgood : OnlyChanges L s0 s) : OnlyChanges L s0 (swapPlanes im s) := by
  unfold swapPlanes
  try dsimp only
  repeat' first
    | with_reducible assumption
    | with_reducible apply only_moltChannels
    | with_reducible apply only_setImage
    | (with_reducible refine List.Subset.trans ?_ hL; decide)
    | with_reducible apply only_ite
    | split
    | with_reducible apply only_set_mem_strm_pond
    | (with_reducible refine only_in hL ?_; decide)

theorem only_moltEpoch {L : List Part} {s0 s : State} (old : Option Image) (im : Image) (hL : ([.image, .memb, .xch] : List Part) ⊆ L)
    (hgood : OnlyChanges L s0 s) : OnlyChanges L s0 (moltEpoch old im s) := by
  unfold moltEpoch
  try dsimp only
  repeat' first
    | with_reducible assumption
    | with_reducible apply only_moltBases
    | with_reducible apply only_setImage
    | (with_reducible refine List.Subset.trans ?_ hL; decide)
    | with_reducible apply only_ite
    | split
    | with_reducible apply only_set_memb
    | (with_reducible refine only_in hL ?_; decide)

theorem only_imgMolt {L : List Part} {s0 s : State} (expect : BitVec 32) (hL : ([.boot, .health, .evt, .mem, .image, .stepk, .ttab, .swp, .fab, .tongue, .memb, .verdict, .hier, .strm, .pond, .xch, .far, .rng, .east, .west, .ring, .fmp] : List Part) ⊆ L)
    (hgood : OnlyChanges L s0 s) : OnlyChanges L s0 (imgMolt expect s) := by
  unfold imgMolt
  try dsimp only
  repeat' first
    | with_reducible assumption
    | with_reducible apply only_moltEpoch
    | with_reducible apply only_swapPlanes
    | with_reducible apply only_setImage
    | with_reducible apply only_recompare
    | with_reducible apply only_bootLinks
    | with_reducible apply only_segSettle
    | with_reducible apply only_recheckTable
    | with_reducible apply only_recheckSwp
    | with_reducible apply only_recheckStepk
    | with_reducible apply only_bootTo
    | (with_reducible refine List.Subset.trans ?_ hL; decide)
    | with_reducible apply only_ite
    | split
    | with_reducible apply only_set_rng
    | with_reducible apply only_set_fab
    | with_reducible apply only_set_fab_rng
    | (with_reducible refine only_in hL ?_; decide)

theorem only_writeImgCtl {L : List Part} {s0 s : State} (w : Word) (hL : ([.boot, .health, .evt, .mem, .image, .stepk, .ttab, .swp, .fab, .tongue, .memb, .verdict, .hier, .strm, .pond, .xch, .far, .rng, .east, .west, .ring, .fmp] : List Part) ⊆ L)
    (hgood : OnlyChanges L s0 s) : OnlyChanges L s0 (writeImgCtl w s) := by
  unfold writeImgCtl
  try dsimp only
  repeat' first
    | with_reducible assumption
    | with_reducible apply only_imgMolt
    | with_reducible apply only_imgDiscard
    | with_reducible apply only_imgLoad
    | with_reducible apply only_setImage
    | (with_reducible refine List.Subset.trans ?_ hL; decide)
    | with_reducible apply only_ite
    | split

theorem only_applyPlan {L : List Part} {s0 s : State}  (hL : ([.health, .mem] : List Part) ⊆ L)
    (hgood : OnlyChanges L s0 s) : OnlyChanges L s0 (applyPlan s) := by
  unfold applyPlan
  try dsimp only
  repeat' first
    | with_reducible assumption
    | with_reducible apply only_rescale
    | with_reducible apply only_setMem
    | (with_reducible refine List.Subset.trans ?_ hL; decide)
    | intro _ _ _
    | with_reducible apply only_foldl
    | with_reducible apply only_ite
    | split

end Sys2Proof.Machine
end

