-- ==== Sys2Proof/Laws/OnlyHealth.lean ====
section
/-! SUPPORT. Which parts of the state each operation of Machine/Health.lean may change (Laws/Only.lean). -/
namespace Sys2Proof.Machine

-- the proofs below are one script for many operations, of which each uses its own part
set_option linter.unusedTactic false
set_option linter.unreachableTactic false

theorem only_setHealth {L : List Part} {s0 s : State} (f : Health → Health) (hL : ([.health] : List Part) ⊆ L)
    (hgood : OnlyChanges L s0 s) : OnlyChanges L s0 (setHealth f s) := by
  unfold setHealth
  try dsimp only
  repeat' first
    | with_reducible assumption
    | with_reducible apply only_set_health
    | (with_reducible refine only_in hL ?_; decide)

theorem only_dropUnissued {L : List Part} {s0 s : State}  (hL : ([.mem] : List Part) ⊆ L)
    (hgood : OnlyChanges L s0 s) : OnlyChanges L s0 (dropUnissued s) := by
  unfold dropUnissued
  try dsimp only
  repeat' first
    | with_reducible assumption
    | with_reducible apply only_setMem
    | (with_reducible refine List.Subset.trans ?_ hL; decide)

theorem only_enterFatal {L : List Part} {s0 s : State}  (hL : ([.health, .mem] : List Part) ⊆ L)
    (hgood : OnlyChanges L s0 s) : OnlyChanges L s0 (enterFatal s) := by
  unfold enterFatal
  try dsimp only
  repeat' first
    | with_reducible assumption
    | with_reducible apply only_dropUnissued
    | with_reducible apply only_setHealth
    | (with_reducible refine List.Subset.trans ?_ hL; decide)

theorem only_padZero {L : List Part} {s0 s : State} (i : Nat) (word : Nat) (hL : ([.pond] : List Part) ⊆ L)
    (hgood : OnlyChanges L s0 s) : OnlyChanges L s0 (padZero i word s) := by
  unfold padZero
  try dsimp only
  repeat' first
    | with_reducible assumption
    | with_reducible apply only_setPad
    | (with_reducible refine List.Subset.trans ?_ hL; decide)
    | with_reducible apply only_ite
    | split

theorem only_pondUe {L : List Part} {s0 s : State} (word : BitVec 32) (hL : ([.health, .mem, .sweep, .fab, .strm, .pond] : List Part) ⊆ L)
    (hgood : OnlyChanges L s0 s) : OnlyChanges L s0 (pondUe word s) := by
  unfold pondUe
  try dsimp only
  repeat' first
    | with_reducible assumption
    | with_reducible apply only_padZero
    | with_reducible apply only_enterFatal
    | with_reducible apply only_codecMismatch
    | (with_reducible refine List.Subset.trans ?_ hL; decide)
    | with_reducible apply only_ite
    | split

theorem only_normUe {L : List Part} {s0 s : State} (word : BitVec 32) (hL : ([.tongue] : List Part) ⊆ L)
    (hgood : OnlyChanges L s0 s) : OnlyChanges L s0 (normUe word s) := by
  unfold normUe
  try dsimp only
  repeat' first
    | with_reducible assumption
    | with_reducible apply only_setNorm
    | (with_reducible refine List.Subset.trans ?_ hL; decide)

theorem only_linkOnlyReset {L : List Part} {s0 s : State} (d : Side) (hL : ([.boot, .health, .evt, .memb, .verdict, .hier, .east, .west, .ring, .fmp] : List Part) ⊆ L)
    (hgood : OnlyChanges L s0 s) : OnlyChanges L s0 (linkOnlyReset d s) := by
  unfold linkOnlyReset
  try dsimp only
  repeat' first
    | with_reducible assumption
    | with_reducible apply only_linkRestart
    | with_reducible apply only_segSettle
    | (with_reducible refine List.Subset.trans ?_ hL; decide)
    | split
    | with_reducible apply only_set_boot
    | (with_reducible refine only_in hL ?_; decide)

theorem only_handleUe {L : List Part} {s0 s : State} (array : BitVec 4) (word : BitVec 32) (sfu : Option (Bool × BitVec 7 × BitVec 32)) (hL : ([.boot, .health, .evt, .mem, .image, .sweep, .fab, .tongue, .memb, .verdict, .hier, .strm, .pond, .far, .east, .west, .ring, .fmp] : List Part) ⊆ L)
    (hgood : OnlyChanges L s0 s) : OnlyChanges L s0 (handleUe array word sfu s) := by
  unfold handleUe
  try dsimp only
  repeat' first
    | with_reducible assumption
    | with_reducible apply only_linkOnlyReset
    | with_reducible apply only_normUe
    | with_reducible apply only_pondUe
    | with_reducible apply only_enterFatal
    | with_reducible apply only_residueFault
    | with_reducible apply only_emptyShadow
    | with_reducible apply only_mapStart
    | (with_reducible refine List.Subset.trans ?_ hL; decide)
    | with_reducible apply only_ite
    | split

theorem only_sramUe {L : List Part} {s0 s : State} (array : BitVec 4) (word : BitVec 32) (scrub : Bool) (sfu : Option (Bool × BitVec 7 × BitVec 32)) (hL : ([.boot, .health, .evt, .mem, .image, .sweep, .fab, .tongue, .memb, .verdict, .hier, .strm, .pond, .far, .east, .west, .ring, .fmp] : List Part) ⊆ L)
    (hgood : OnlyChanges L s0 s) : OnlyChanges L s0 (sramUe array word scrub sfu s) := by
  unfold sramUe
  try dsimp only
  repeat' first
    | with_reducible assumption
    | with_reducible apply only_handleUe
    | with_reducible apply only_setHealth
    | with_reducible apply only_croakSet
    | with_reducible apply only_report
    | with_reducible apply only_countHealth
    | (with_reducible refine List.Subset.trans ?_ hL; decide)

theorem only_eccRoll {L : List Part} {s0 s : State}  (hL : ([.health] : List Part) ⊆ L)
    (hgood : OnlyChanges L s0 s) : OnlyChanges L s0 (eccRoll s) := by
  unfold eccRoll
  try dsimp only
  repeat' first
    | with_reducible assumption
    | with_reducible apply only_setHealth
    | (with_reducible refine List.Subset.trans ?_ hL; decide)
    | with_reducible apply only_ite
    | split

theorem only_sramCe {L : List Part} {s0 s : State} (array : BitVec 4) (word : BitVec 32) (scrub : Bool) (hL : ([.health, .evt] : List Part) ⊆ L)
    (hgood : OnlyChanges L s0 s) : OnlyChanges L s0 (sramCe array word scrub s) := by
  unfold sramCe
  try dsimp only
  repeat' first
    | with_reducible assumption
    | with_reducible apply only_eccRoll
    | with_reducible apply only_setHealth
    | with_reducible apply only_croakSet
    | with_reducible apply only_countHealth
    | (with_reducible refine List.Subset.trans ?_ hL; decide)
    | with_reducible apply only_ite
    | split

theorem only_scrubEnd {L : List Part} {s0 s : State}  (hL : ([.health] : List Part) ⊆ L)
    (hgood : OnlyChanges L s0 s) : OnlyChanges L s0 (scrubEnd s) := by
  unfold scrubEnd
  try dsimp only
  repeat' first
    | with_reducible assumption
    | with_reducible apply only_setHealth
    | with_reducible apply only_countHealth
    | (with_reducible refine List.Subset.trans ?_ hL; decide)
    | with_reducible apply only_ite
    | split

theorem only_dutyEnd {L : List Part} {s0 s : State}  (hL : ([.health, .evt, .mem] : List Part) ⊆ L)
    (hgood : OnlyChanges L s0 s) : OnlyChanges L s0 (dutyEnd s) := by
  unfold dutyEnd
  try dsimp only
  repeat' first
    | with_reducible assumption
    | with_reducible apply only_setThermal
    | with_reducible apply only_croakSet
    | (with_reducible refine List.Subset.trans ?_ hL; decide)
    | with_reducible apply only_ite
    | split

theorem only_writeCroak {L : List Part} {s0 s : State} (w : Word) (hL : ([.health] : List Part) ⊆ L)
    (hgood : OnlyChanges L s0 s) : OnlyChanges L s0 (writeCroak w s) := by
  unfold writeCroak
  try dsimp only
  repeat' first
    | with_reducible assumption
    | with_reducible apply only_setHealth
    | (with_reducible refine List.Subset.trans ?_ hL; decide)

theorem only_writeSramFault {L : List Part} {s0 s : State} (w : Word) (hL : ([.health] : List Part) ⊆ L)
    (hgood : OnlyChanges L s0 s) : OnlyChanges L s0 (writeSramFault w s) := by
  unfold writeSramFault
  try dsimp only
  repeat' first
    | with_reducible assumption
    | with_reducible apply only_setHealth
    | (with_reducible refine List.Subset.trans ?_ hL; decide)

theorem only_writeErrStatus {L : List Part} {s0 s : State} (w : Word) (hL : ([.health] : List Part) ⊆ L)
    (hgood : OnlyChanges L s0 s) : OnlyChanges L s0 (writeErrStatus w s) := by
  unfold writeErrStatus
  try dsimp only
  repeat' first
    | with_reducible assumption
    | with_reducible apply only_setHealth
    | (with_reducible refine List.Subset.trans ?_ hL; decide)

theorem only_writeErrPop {L : List Part} {s0 s : State} (w : Word) (hL : ([.health] : List Part) ⊆ L)
    (hgood : OnlyChanges L s0 s) : OnlyChanges L s0 (writeErrPop w s) := by
  unfold writeErrPop
  try dsimp only
  repeat' first
    | with_reducible assumption
    | with_reducible apply only_setHealth
    | (with_reducible refine List.Subset.trans ?_ hL; decide)
    | with_reducible apply only_ite
    | split

end Sys2Proof.Machine
end

