-- ==== Sys2Proof/Laws/OnlyResets.lean ====
section
/-! SUPPORT. Which parts of the state each operation of Machine/Resets.lean may change (Laws/Only.lean). -/
namespace Sys2Proof.Machine

-- the proofs below are one script for many operations, of which each uses its own part
set_option linter.unusedTactic false
set_option linter.unreachableTactic false

theorem only_setBoot {L : List Part} {s0 s : State} (f : Boot → Boot) (hL : ([.boot] : List Part) ⊆ L)
    (hgood : OnlyChanges L s0 s) : OnlyChanges L s0 (setBoot f s) := by
  unfold setBoot
  try dsimp only
  repeat' first
    | with_reducible assumption
    | with_reducible apply only_set_boot
    | (with_reducible refine only_in hL ?_; decide)

theorem only_setClk {L : List Part} {s0 s : State} (f : Clocks → Clocks) (hL : ([.clk] : List Part) ⊆ L)
    (hgood : OnlyChanges L s0 s) : OnlyChanges L s0 (setClk f s) := by
  unfold setClk
  try dsimp only
  repeat' first
    | with_reducible assumption
    | with_reducible apply only_set_clk
    | (with_reducible refine only_in hL ?_; decide)

theorem only_setPower {L : List Part} {s0 s : State} (f : Power → Power) (hL : ([.power] : List Part) ⊆ L)
    (hgood : OnlyChanges L s0 s) : OnlyChanges L s0 (setPower f s) := by
  unfold setPower
  try dsimp only
  repeat' first
    | with_reducible assumption
    | with_reducible apply only_set_power
    | (with_reducible refine only_in hL ?_; decide)

theorem only_coldClear {L : List Part} {s0 s : State} (cause : BitVec 8) (keepClock : Bool) (hL : ([.clk, .boot, .power, .health, .snap, .evt, .ctl, .kst, .vault, .mem, .image, .step, .stepk, .lscale, .aux, .ttab, .swp, .sweep, .fab, .tongue, .memb, .verdict, .hier, .lease, .strm, .pond, .queues, .xch, .far, .rng, .east, .west, .ring, .fmp, .test] : List Part) ⊆ L)
    (h : OnlyChanges L s0 s) : OnlyChanges L s0 (coldClear cause keepClock s) := by
  intro p hp
  cases p
  case stack => exact h .stack hp
  case freeCtr => exact h .freeCtr hp
  case pending => exact h .pending hp
  all_goals exact absurd (hL (by decide)) hp

theorem only_startBoot {L : List Part} {s0 s : State}  (hL : ([.boot, .health, .evt, .kst, .vault, .memb, .verdict, .hier, .east, .west, .ring, .fmp] : List Part) ⊆ L)
    (hgood : OnlyChanges L s0 s) : OnlyChanges L s0 (startBoot s) := by
  unfold startBoot
  try dsimp only
  repeat' first
    | with_reducible assumption
    | with_reducible apply only_setBoot
    | with_reducible apply only_linkRestart
    | with_reducible apply only_segSettle
    | with_reducible apply only_vaultInitBegin
    | (with_reducible refine List.Subset.trans ?_ hL; decide)
    | with_reducible apply only_ite
    | split

theorem only_reachReady {L : List Part} {s0 s : State}  (hL : ([.boot, .health, .step] : List Part) ⊆ L)
    (hgood : OnlyChanges L s0 s) : OnlyChanges L s0 (reachReady s) := by
  unfold reachReady
  try dsimp only
  repeat' first
    | with_reducible assumption
    | with_reducible apply only_setBoot
    | with_reducible apply only_bootLinks
    | with_reducible apply only_bootTo
    | with_reducible apply only_report
    | (with_reducible refine List.Subset.trans ?_ hL; decide)
    | with_reducible apply only_ite
    | split
    | with_reducible apply only_set_step
    | (with_reducible refine only_in hL ?_; decide)

theorem only_warmFields {L : List Part} {s0 s : State}  (hL : ([.power, .health, .snap, .evt, .mem, .image, .step, .stepk, .lscale, .aux, .ttab, .swp, .sweep, .fab, .tongue, .memb, .verdict, .hier, .lease, .strm, .pond, .queues, .xch, .far, .rng, .east, .west, .ring, .fmp] : List Part) ⊆ L)
    (hgood : OnlyChanges L s0 s) : OnlyChanges L s0 (warmFields s) := by
  unfold warmFields
  try dsimp only
  repeat' first
    | with_reducible assumption
    | with_reducible apply only_set_power_health_snap_evt_mem_image_step_stepk_lscale_aux_ttab_swp_sweep_fab_tongue_memb_verdict_hier_lease_strm_pond_queues_xch_far_rng_east_west_ring_fmp
    | (with_reducible refine only_in hL ?_; decide)

theorem only_warmClear {L : List Part} {s0 s : State}  (hL : ([.boot, .power, .health, .snap, .evt, .mem, .image, .step, .stepk, .lscale, .aux, .ttab, .swp, .sweep, .fab, .tongue, .memb, .verdict, .hier, .lease, .strm, .pond, .queues, .xch, .far, .rng, .east, .west, .ring, .fmp] : List Part) ⊆ L)
    (hgood : OnlyChanges L s0 s) : OnlyChanges L s0 (warmClear s) := by
  unfold warmClear
  try dsimp only
  repeat' first
    | with_reducible assumption
    | with_reducible apply only_warmFields
    | with_reducible apply only_setBoot
    | with_reducible apply only_chooseVariant
    | with_reducible apply only_recheckTable
    | with_reducible apply only_recheckSwp
    | with_reducible apply only_rescale
    | (with_reducible refine List.Subset.trans ?_ hL; decide)
    | with_reducible apply only_ite
    | split

theorem only_kstQuiet {L : List Part} {s0 s : State}  (hL : ([.kst, .vault] : List Part) ⊆ L)
    (hgood : OnlyChanges L s0 s) : OnlyChanges L s0 (kstQuiet s) := by
  unfold kstQuiet
  try dsimp only
  repeat' first
    | with_reducible assumption
    | with_reducible apply only_set_kst_vault
    | (with_reducible refine only_in hL ?_; decide)

theorem only_silence {L : List Part} {s0 s : State}  (hL : ([.power, .evt] : List Part) ⊆ L)
    (hgood : OnlyChanges L s0 s) : OnlyChanges L s0 (silence s) := by
  unfold silence
  try dsimp only
  repeat' first
    | with_reducible assumption
    | with_reducible apply only_set_power_evt
    | (with_reducible refine only_in hL ?_; decide)

theorem only_warmBegin {L : List Part} {s0 s : State} (cause : BitVec 8) (hL : ([.clk, .boot, .power, .health, .snap, .evt, .ctl, .kst, .vault, .mem, .image, .step, .stepk, .lscale, .aux, .ttab, .swp, .sweep, .fab, .tongue, .memb, .verdict, .hier, .lease, .strm, .pond, .queues, .xch, .far, .rng, .east, .west, .ring, .fmp, .test] : List Part) ⊆ L)
    (hgood : OnlyChanges L s0 s) : OnlyChanges L s0 (warmBegin cause s) := by
  unfold warmBegin
  try dsimp only
  repeat' first
    | with_reducible assumption
    | with_reducible apply only_silence
    | with_reducible apply only_kstQuiet
    | with_reducible apply only_startBoot
    | with_reducible apply only_coldClear
    | with_reducible apply only_setBoot
    | with_reducible apply only_dropUnissued
    | with_reducible apply only_wcbFlush
    | (with_reducible refine List.Subset.trans ?_ hL; decide)
    | intro _ _ _
    | with_reducible apply only_foldl
    | with_reducible apply only_ite
    | split

theorem only_pulseActs {L : List Part} {s0 s : State} (ns : Nat) (hL : ([.freeCtr] : List Part) ⊆ L)
    (hgood : OnlyChanges L s0 s) : OnlyChanges L s0 (pulseActs ns s).2 := by
  unfold pulseActs
  try dsimp only
  repeat' first
    | with_reducible assumption
    | with_reducible apply only_ite
    | split
    | with_reducible apply only_set_freeCtr
    | (with_reducible refine only_in hL ?_; decide)

theorem only_pulseActs_eq {L : List Part} {s0 s t : State} {a : Bool} {ns : Nat} (hL : ([.freeCtr] : List Part) ⊆ L)
    (heq : pulseActs ns s = (a, t)) (hgood : OnlyChanges L s0 s) : OnlyChanges L s0 t := by
  have h := only_pulseActs ns hL hgood
  rw [heq] at h
  exact h

theorem only_coldPin {L : List Part} {s0 s : State} (pin : Boot → Boot) (cause : BitVec 8) (ns : Nat) (hL : ([.clk, .boot, .power, .health, .snap, .evt, .ctl, .kst, .vault, .mem, .image, .step, .stepk, .lscale, .aux, .ttab, .swp, .sweep, .fab, .tongue, .memb, .verdict, .hier, .lease, .strm, .pond, .queues, .xch, .far, .rng, .east, .west, .ring, .fmp, .test, .freeCtr] : List Part) ⊆ L)
    (hgood : OnlyChanges L s0 s) : OnlyChanges L s0 (coldPin pin cause ns s) := by
  unfold coldPin
  try dsimp only
  repeat' first
    | with_reducible assumption
    | with_reducible apply only_pulseActs
    | (with_reducible refine only_pulseActs_eq ?_ ‹_› ?_)
    | with_reducible apply only_coldClear
    | with_reducible apply only_setBoot
    | (with_reducible refine List.Subset.trans ?_ hL; decide)
    | with_reducible apply only_ite
    | split

theorem only_warmPin {L : List Part} {s0 s : State} (ns : Nat) (hL : ([.clk, .boot, .power, .health, .snap, .evt, .ctl, .kst, .vault, .mem, .image, .step, .stepk, .lscale, .aux, .ttab, .swp, .sweep, .fab, .tongue, .memb, .verdict, .hier, .lease, .strm, .pond, .queues, .xch, .far, .rng, .east, .west, .ring, .fmp, .test, .freeCtr] : List Part) ⊆ L)
    (hgood : OnlyChanges L s0 s) : OnlyChanges L s0 (warmPin ns s) := by
  unfold warmPin
  try dsimp only
  repeat' first
    | with_reducible assumption
    | with_reducible apply only_pulseActs
    | (with_reducible refine only_pulseActs_eq ?_ ‹_› ?_)
    | with_reducible apply only_warmBegin
    | with_reducible apply only_setBoot
    | (with_reducible refine List.Subset.trans ?_ hL; decide)
    | with_reducible apply only_ite
    | split

theorem only_release {L : List Part} {s0 s : State} (pin : ResetPin) (hL : ([.boot, .health, .evt, .kst, .vault, .memb, .verdict, .hier, .east, .west, .ring, .fmp] : List Part) ⊆ L)
    (hgood : OnlyChanges L s0 s) : OnlyChanges L s0 (release pin s) := by
  unfold release
  try dsimp only
  repeat' first
    | with_reducible assumption
    | with_reducible apply only_startBoot
    | with_reducible apply only_setBoot
    | (with_reducible refine List.Subset.trans ?_ hL; decide)
    | with_reducible apply only_ite
    | split

theorem only_divBegin {L : List Part} {s0 s : State}  (hL : ([.clk] : List Part) ⊆ L)
    (hgood : OnlyChanges L s0 s) : OnlyChanges L s0 (divBegin s) := by
  unfold divBegin
  try dsimp only
  repeat' first
    | with_reducible assumption
    | with_reducible apply only_setClk
    | (with_reducible refine List.Subset.trans ?_ hL; decide)

theorem only_divWrite {L : List Part} {s0 s : State} (d : BitVec 2) (hL : ([.clk] : List Part) ⊆ L)
    (hgood : OnlyChanges L s0 s) : OnlyChanges L s0 (divWrite d s) := by
  unfold divWrite
  try dsimp only
  repeat' first
    | with_reducible assumption
    | with_reducible apply only_divBegin
    | with_reducible apply only_setClk
    | (with_reducible refine List.Subset.trans ?_ hL; decide)
    | with_reducible apply only_ite
    | split

theorem only_divApply {L : List Part} {s0 s : State}  (hL : ([.clk] : List Part) ⊆ L)
    (hgood : OnlyChanges L s0 s) : OnlyChanges L s0 (divApply s) := by
  unfold divApply
  try dsimp only
  repeat' first
    | with_reducible assumption
    | with_reducible apply only_divBegin
    | with_reducible apply only_setClk
    | (with_reducible refine List.Subset.trans ?_ hL; decide)
    | with_reducible apply only_ite
    | split

theorem only_fabricResetStart {L : List Part} {s0 s : State}  (hL : ([.boot, .health, .evt, .mem, .aux, .sweep, .fab, .strm, .pond, .rng] : List Part) ⊆ L)
    (hgood : OnlyChanges L s0 s) : OnlyChanges L s0 (fabricResetStart s) := by
  unfold fabricResetStart
  try dsimp only
  repeat' first
    | with_reducible assumption
    | with_reducible apply only_setBoot
    | with_reducible apply only_fabricResetBegin
    | (with_reducible refine List.Subset.trans ?_ hL; decide)
    | with_reducible apply only_ite
    | split

theorem only_gctlErr {L : List Part} {s0 s : State} (e : BitVec 8) (hL : ([.boot] : List Part) ⊆ L)
    (hgood : OnlyChanges L s0 s) : OnlyChanges L s0 (gctlErr e s) := by
  unfold gctlErr
  try dsimp only
  repeat' first
    | with_reducible assumption
    | with_reducible apply only_setBoot
    | (with_reducible refine List.Subset.trans ?_ hL; decide)

theorem only_gctlFields {L : List Part} {s0 s : State} (w : Word) (hL : ([.clk, .power] : List Part) ⊆ L)
    (hgood : OnlyChanges L s0 s) : OnlyChanges L s0 (gctlFields w s) := by
  unfold gctlFields
  try dsimp only
  repeat' first
    | with_reducible assumption
    | with_reducible apply only_divWrite
    | with_reducible apply only_setPower
    | (with_reducible refine List.Subset.trans ?_ hL; decide)
    | with_reducible apply only_ite
    | split

theorem only_writeGctl {L : List Part} {s0 s : State} (w : Word) (hL : ([.clk, .boot, .power, .health, .snap, .evt, .ctl, .kst, .vault, .mem, .image, .step, .stepk, .lscale, .aux, .ttab, .swp, .sweep, .fab, .tongue, .memb, .verdict, .hier, .lease, .strm, .pond, .queues, .xch, .far, .rng, .east, .west, .ring, .fmp, .test] : List Part) ⊆ L)
    (hgood : OnlyChanges L s0 s) : OnlyChanges L s0 (writeGctl w s) := by
  unfold writeGctl
  try dsimp only
  repeat' first
    | with_reducible assumption
    | with_reducible apply only_gctlFields
    | with_reducible apply only_gctlErr
    | with_reducible apply only_fabricResetStart
    | with_reducible apply only_warmBegin
    | with_reducible apply only_linkOnlyReset
    | (with_reducible refine List.Subset.trans ?_ hL; decide)
    | with_reducible apply only_ite
    | split

theorem only_wakeBegin {L : List Part} {s0 s : State}  (hL : ([.power] : List Part) ⊆ L)
    (hgood : OnlyChanges L s0 s) : OnlyChanges L s0 (wakeBegin s) := by
  unfold wakeBegin
  try dsimp only
  repeat' first
    | with_reducible assumption
    | with_reducible apply only_setPower
    | (with_reducible refine List.Subset.trans ?_ hL; decide)
    | with_reducible apply only_ite
    | split

theorem only_powerWake {L : List Part} {s0 s : State}  (hL : ([.power, .sweep] : List Part) ⊆ L)
    (hgood : OnlyChanges L s0 s) : OnlyChanges L s0 (powerWake s) := by
  unfold powerWake
  try dsimp only
  repeat' first
    | with_reducible assumption
    | with_reducible apply only_wakeBegin
    | with_reducible apply only_rampStart
    | with_reducible apply only_setPower
    | (with_reducible refine List.Subset.trans ?_ hL; decide)
    | with_reducible apply only_ite
    | split

theorem only_activeExit {L : List Part} {s0 s : State}  (hL : ([.power] : List Part) ⊆ L)
    (hgood : OnlyChanges L s0 s) : OnlyChanges L s0 (activeExit s) := by
  unfold activeExit
  try dsimp only
  repeat' first
    | with_reducible assumption
    | with_reducible apply only_setPower
    | (with_reducible refine List.Subset.trans ?_ hL; decide)
    | with_reducible apply only_ite
    | split

theorem only_retainEnter {L : List Part} {s0 s : State}  (hL : ([.power] : List Part) ⊆ L)
    (hgood : OnlyChanges L s0 s) : OnlyChanges L s0 (retainEnter s) := by
  unfold retainEnter
  try dsimp only
  repeat' first
    | with_reducible assumption
    | with_reducible apply only_setPower
    | (with_reducible refine List.Subset.trans ?_ hL; decide)
    | with_reducible apply only_ite
    | split

theorem only_retainLeave {L : List Part} {s0 s : State}  (hL : ([.power] : List Part) ⊆ L)
    (hgood : OnlyChanges L s0 s) : OnlyChanges L s0 (retainLeave s) := by
  unfold retainLeave
  try dsimp only
  repeat' first
    | with_reducible assumption
    | with_reducible apply only_setPower
    | (with_reducible refine List.Subset.trans ?_ hL; decide)
    | with_reducible apply only_ite
    | split

end Sys2Proof.Machine
end

