-- ==== Sys2Proof/Laws/OnlyStreams.lean ====
section
/-! SUPPORT. Which parts of the state each operation of Machine/Streams.lean may change (Laws/Only.lean). -/
namespace Sys2Proof.Machine

-- the proofs below are one script for many operations, of which each uses its own part
set_option linter.unusedTactic false
set_option linter.unreachableTactic false

theorem only_setTask {L : List Part} {s0 s : State} (n : Nat) (f : Task → Task) (hL : ([.strm] : List Part) ⊆ L)
    (hgood : OnlyChanges L s0 s) : OnlyChanges L s0 (setTask n f s) := by
  unfold setTask
  try dsimp only
  repeat' first
    | with_reducible assumption
    | with_reducible apply only_setChan
    | (with_reducible refine List.Subset.trans ?_ hL; decide)

theorem only_setPiece {L : List Part} {s0 s : State} (n i : Nat) (f : Piece → Piece) (hL : ([.strm] : List Part) ⊆ L)
    (hgood : OnlyChanges L s0 s) : OnlyChanges L s0 (setPiece n i f s) := by
  unfold setPiece
  try dsimp only
  repeat' first
    | with_reducible assumption
    | with_reducible apply only_setTask
    | (with_reducible refine List.Subset.trans ?_ hL; decide)
    | with_reducible apply only_ite
    | split

theorem only_fetchMore {L : List Part} {s0 s : State} (n : Nat) (hL : ([.mem, .strm] : List Part) ⊆ L)
    (hgood : OnlyChanges L s0 s) : OnlyChanges L s0 (fetchMore n s) := by
  unfold fetchMore
  try dsimp only
  repeat' first
    | with_reducible assumption
    | with_reducible apply only_setChan
    | with_reducible apply only_enqueueAll
    | (with_reducible refine List.Subset.trans ?_ hL; decide)
    | with_reducible apply only_ite
    | split

theorem only_dropFetch {L : List Part} {s0 s : State} (n : Nat) (hL : ([.mem, .strm] : List Part) ⊆ L)
    (hgood : OnlyChanges L s0 s) : OnlyChanges L s0 (dropFetch n s) := by
  unfold dropFetch
  try dsimp only
  repeat' first
    | with_reducible assumption
    | with_reducible apply only_dropReads
    | with_reducible apply only_setChan
    | (with_reducible refine List.Subset.trans ?_ hL; decide)

theorem only_fetchOrIdle {L : List Part} {s0 s : State} (n : Nat) (hL : ([.mem, .strm] : List Part) ⊆ L)
    (hgood : OnlyChanges L s0 s) : OnlyChanges L s0 (fetchOrIdle n s) := by
  unfold fetchOrIdle
  try dsimp only
  repeat' first
    | with_reducible assumption
    | with_reducible apply only_fetchMore
    | with_reducible apply only_setChan
    | (with_reducible refine List.Subset.trans ?_ hL; decide)
    | with_reducible apply only_ite
    | split

theorem only_rejectTask {L : List Part} {s0 s : State} (n : Nat) (code : BitVec 8) (desc : Nat) (addr : Word) (id : BitVec 32) (hL : ([.health, .strm] : List Part) ⊆ L)
    (hgood : OnlyChanges L s0 s) : OnlyChanges L s0 (rejectTask n code desc addr id s) := by
  unfold rejectTask
  try dsimp only
  repeat' first
    | with_reducible assumption
    | with_reducible apply only_setChan
    | with_reducible apply only_report
    | with_reducible apply only_countStrm
    | (with_reducible refine List.Subset.trans ?_ hL; decide)

theorem only_startTask {L : List Part} {s0 s : State} (n : Nat) (ds : List Line) (hL : ([.strm] : List Part) ⊆ L)
    (hgood : OnlyChanges L s0 s) : OnlyChanges L s0 (startTask n ds s) := by
  unfold startTask
  try dsimp only
  repeat' first
    | with_reducible assumption
    | with_reducible apply only_setChan
    | (with_reducible refine List.Subset.trans ?_ hL; decide)

theorem only_afterFetch {L : List Part} {s0 s : State} (n : Nat) (hL : ([.health, .mem, .strm] : List Part) ⊆ L)
    (hgood : OnlyChanges L s0 s) : OnlyChanges L s0 (afterFetch n s) := by
  unfold afterFetch
  try dsimp only
  repeat' first
    | with_reducible assumption
    | with_reducible apply only_startTask
    | with_reducible apply only_rejectTask
    | with_reducible apply only_fetchMore
    | with_reducible apply only_setChan
    | (with_reducible refine List.Subset.trans ?_ hL; decide)
    | with_reducible apply only_ite
    | split

theorem only_latchFault {L : List Part} {s0 s : State} (n : Nat) (code desc : BitVec 8) (addr : Word) (id : BitVec 32) (hL : ([.health, .evt, .mem, .strm] : List Part) ⊆ L)
    (hgood : OnlyChanges L s0 s) : OnlyChanges L s0 (latchFault n code desc addr id s) := by
  unfold latchFault
  try dsimp only
  repeat' first
    | with_reducible assumption
    | with_reducible apply only_dropFetch
    | with_reducible apply only_setChan
    | with_reducible apply only_pulse
    | with_reducible apply only_report
    | with_reducible apply only_countStrm
    | (with_reducible refine List.Subset.trans ?_ hL; decide)

theorem only_settleEnding {L : List Part} {s0 s : State} (n : Nat) (hL : ([.health, .evt, .mem, .strm, .pond, .queues] : List Part) ⊆ L)
    (hgood : OnlyChanges L s0 s) : OnlyChanges L s0 (settleEnding n s) := by
  unfold settleEnding
  try dsimp only
  repeat' first
    | with_reducible assumption
    | with_reducible apply only_latchFault
    | with_reducible apply only_setTask
    | with_reducible apply only_queuePush
    | with_reducible apply only_padFreeAll
    | (with_reducible refine List.Subset.trans ?_ hL; decide)
    | with_reducible apply only_ite
    | split

theorem only_taskFault {L : List Part} {s0 s : State} (n : Nat) (code : BitVec 8) (desc : Nat) (addr : Word) (hL : ([.health, .evt, .mem, .strm, .pond, .queues] : List Part) ⊆ L)
    (hgood : OnlyChanges L s0 s) : OnlyChanges L s0 (taskFault n code desc addr s) := by
  unfold taskFault
  try dsimp only
  repeat' first
    | with_reducible assumption
    | with_reducible apply only_settleEnding
    | with_reducible apply only_setTask
    | (with_reducible refine List.Subset.trans ?_ hL; decide)
    | split

theorem only_abortTask {L : List Part} {s0 s : State} (n : Nat) (code : BitVec 8) (hL : ([.health, .evt, .mem, .strm, .pond, .queues] : List Part) ⊆ L)
    (hgood : OnlyChanges L s0 s) : OnlyChanges L s0 (abortTask n code s) := by
  unfold abortTask
  try dsimp only
  repeat' first
    | with_reducible assumption
    | with_reducible apply only_taskFault
    | (with_reducible refine List.Subset.trans ?_ hL; decide)
    | split

theorem only_issueReadback {L : List Part} {s0 s : State} (n : Nat) (second : Bool) (hL : ([.mem, .strm] : List Part) ⊆ L)
    (hgood : OnlyChanges L s0 s) : OnlyChanges L s0 (issueReadback n second s) := by
  unfold issueReadback
  try dsimp only
  repeat' first
    | with_reducible assumption
    | with_reducible apply only_setTask
    | with_reducible apply only_enqueue
    | (with_reducible refine List.Subset.trans ?_ hL; decide)
    | with_reducible apply only_ite
    | split

theorem only_issueWriteback {L : List Part} {s0 s : State} (n : Nat) (hL : ([.mem] : List Part) ⊆ L)
    (hgood : OnlyChanges L s0 s) : OnlyChanges L s0 (issueWriteback n s) := by
  unfold issueWriteback
  try dsimp only
  repeat' first
    | with_reducible assumption
    | with_reducible apply only_enqueue
    | (with_reducible refine List.Subset.trans ?_ hL; decide)
    | split

theorem only_beginWriteback {L : List Part} {s0 s : State} (n : Nat) (hL : ([.mem, .strm] : List Part) ⊆ L)
    (hgood : OnlyChanges L s0 s) : OnlyChanges L s0 (beginWriteback n s) := by
  unfold beginWriteback
  try dsimp only
  repeat' first
    | with_reducible assumption
    | with_reducible apply only_issueWriteback
    | with_reducible apply only_setTask
    | (with_reducible refine List.Subset.trans ?_ hL; decide)

theorem only_afterPiece {L : List Part} {s0 s : State} (n : Nat) (hL : ([.mem, .strm] : List Part) ⊆ L)
    (hgood : OnlyChanges L s0 s) : OnlyChanges L s0 (afterPiece n s) := by
  unfold afterPiece
  try dsimp only
  repeat' first
    | with_reducible assumption
    | with_reducible apply only_beginWriteback
    | with_reducible apply only_issueReadback
    | (with_reducible refine List.Subset.trans ?_ hL; decide)
    | with_reducible apply only_ite
    | split

theorem only_settleStop {L : List Part} {s0 s : State} (before : Nat) (n : Nat) (hL : ([.strm] : List Part) ⊆ L)
    (hgood : OnlyChanges L s0 s) : OnlyChanges L s0 (settleStop before n s) := by
  unfold settleStop
  try dsimp only
  repeat' first
    | with_reducible assumption
    | with_reducible apply only_setChan
    | (with_reducible refine List.Subset.trans ?_ hL; decide)
    | with_reducible apply only_ite
    | split

theorem only_readbackDone {L : List Part} {s0 s : State} (n : Nat) (data : Option Line) (code : BitVec 8) (hL : ([.health, .evt, .mem, .strm, .pond, .queues] : List Part) ⊆ L)
    (hgood : OnlyChanges L s0 s) : OnlyChanges L s0 (readbackDone n data code s) := by
  unfold readbackDone
  try dsimp only
  repeat' first
    | with_reducible assumption
    | with_reducible apply only_beginWriteback
    | with_reducible apply only_issueReadback
    | with_reducible apply only_taskFault
    | (with_reducible refine List.Subset.trans ?_ hL; decide)
    | with_reducible apply only_ite
    | split

theorem only_descBackDone {L : List Part} {s0 s : State} (n : Nat) (ok : Bool) (hL : ([.health, .evt, .mem, .strm, .pond, .queues] : List Part) ⊆ L)
    (hgood : OnlyChanges L s0 s) : OnlyChanges L s0 (descBackDone n ok s) := by
  unfold descBackDone
  try dsimp only
  repeat' first
    | with_reducible assumption
    | with_reducible apply only_issueWriteback
    | with_reducible apply only_taskFault
    | with_reducible apply only_setTask
    | (with_reducible refine List.Subset.trans ?_ hL; decide)
    | with_reducible apply only_ite
    | split

theorem only_streamReadDone {L : List Part} {s0 s : State} (n i k : Nat) (data : Option Line) (code : BitVec 8) (hL : ([.health, .evt, .mem, .strm, .pond, .queues] : List Part) ⊆ L)
    (hgood : OnlyChanges L s0 s) : OnlyChanges L s0 (streamReadDone n i k data code s) := by
  unfold streamReadDone
  try dsimp only
  repeat' first
    | with_reducible assumption
    | with_reducible apply only_taskFault
    | with_reducible apply only_settleEnding
    | with_reducible apply only_setPiece
    | with_reducible apply only_padStore
    | (with_reducible refine List.Subset.trans ?_ hL; decide)
    | split

theorem only_streamWriteDone {L : List Part} {s0 s : State} (n i k : Nat) (ok : Bool) (code : BitVec 8) (hL : ([.health, .evt, .mem, .strm, .pond, .queues] : List Part) ⊆ L)
    (hgood : OnlyChanges L s0 s) : OnlyChanges L s0 (streamWriteDone n i k ok code s) := by
  unfold streamWriteDone
  try dsimp only
  repeat' first
    | with_reducible assumption
    | with_reducible apply only_taskFault
    | with_reducible apply only_settleEnding
    | with_reducible apply only_setPiece
    | with_reducible apply only_countStrm
    | (with_reducible refine List.Subset.trans ?_ hL; decide)
    | with_reducible apply only_ite
    | split

theorem only_descReadDone {L : List Part} {s0 s : State} (n i : Nat) (data : Option Line) (hL : ([.strm] : List Part) ⊆ L)
    (hgood : OnlyChanges L s0 s) : OnlyChanges L s0 (descReadDone n i data s) := by
  unfold descReadDone
  try dsimp only
  repeat' first
    | with_reducible assumption
    | with_reducible apply only_setChan
    | (with_reducible refine List.Subset.trans ?_ hL; decide)
    | with_reducible apply only_ite
    | split

theorem only_grantBurst {L : List Part} {s0 s : State} (q : IssueStream) (n : Nat) (t : Task) (p : Piece) (hL : ([.mem, .strm] : List Part) ⊆ L)
    (hgood : OnlyChanges L s0 s) : OnlyChanges L s0 (grantBurst q n t p s) := by
  unfold grantBurst
  try dsimp only
  repeat' first
    | with_reducible assumption
    | with_reducible apply only_setPiece
    | with_reducible apply only_setTask
    | with_reducible apply only_enqueueAll
    | (with_reducible refine List.Subset.trans ?_ hL; decide)
    | with_reducible apply only_ite
    | split
    | with_reducible apply only_set_strm
    | (with_reducible refine only_in hL ?_; decide)

theorem only_notePassed {L : List Part} {s0 s : State} (q : IssueStream) (granted : Nat) (hL : ([.strm] : List Part) ⊆ L)
    (hgood : OnlyChanges L s0 s) : OnlyChanges L s0 (notePassed q granted s) := by
  unfold notePassed
  try dsimp only
  repeat' first
    | with_reducible assumption
    | with_reducible apply only_ite
    | split
    | with_reducible apply only_set_strm
    | (with_reducible refine only_in hL ?_; decide)

theorem only_cutZeroPiece {L : List Part} {s0 s : State} (n : Nat) (hL : ([.strm] : List Part) ⊆ L)
    (hgood : OnlyChanges L s0 s) : OnlyChanges L s0 (cutZeroPiece n s) := by
  unfold cutZeroPiece
  try dsimp only
  repeat' first
    | with_reducible assumption
    | with_reducible apply only_setTask
    | (with_reducible refine List.Subset.trans ?_ hL; decide)
    | with_reducible apply only_ite
    | split

theorem only_streamBurstGrant {L : List Part} {s0 s : State} (q : IssueStream) (hL : ([.mem, .strm] : List Part) ⊆ L)
    (hgood : OnlyChanges L s0 s) : OnlyChanges L s0 (streamBurstGrant q s) := by
  unfold streamBurstGrant
  try dsimp only
  repeat' first
    | with_reducible assumption
    | with_reducible apply only_cutZeroPiece
    | with_reducible apply only_notePassed
    | with_reducible apply only_grantBurst
    | (with_reducible refine List.Subset.trans ?_ hL; decide)
    | intro _ _ _
    | with_reducible apply only_foldl
    | with_reducible apply only_ite
    | split

theorem only_addPiece {L : List Part} {s0 s : State} (n : Nat) (h : BitVec 16) (hL : ([.strm] : List Part) ⊆ L)
    (hgood : OnlyChanges L s0 s) : OnlyChanges L s0 (addPiece n h s) := by
  unfold addPiece
  try dsimp only
  repeat' first
    | with_reducible assumption
    | with_reducible apply only_setTask
    | (with_reducible refine List.Subset.trans ?_ hL; decide)
    | with_reducible apply only_ite
    | split

theorem only_pieceThrough {L : List Part} {s0 s : State} (n i : Nat) (hL : ([.health, .mem, .strm, .pond, .queues] : List Part) ⊆ L)
    (hgood : OnlyChanges L s0 s) : OnlyChanges L s0 (pieceThrough n i s) := by
  unfold pieceThrough
  try dsimp only
  repeat' first
    | with_reducible assumption
    | with_reducible apply only_settleStop
    | with_reducible apply only_afterPiece
    | with_reducible apply only_setTask
    | with_reducible apply only_queuePush
    | with_reducible apply only_padStore
    | with_reducible apply only_padGive
    | with_reducible apply only_padFree
    | with_reducible apply only_countStrm
    | (with_reducible refine List.Subset.trans ?_ hL; decide)
    | intro _ _ _
    | with_reducible apply only_foldl
    | with_reducible apply only_ite
    | split

theorem only_discardEntry {L : List Part} {s0 s : State} (n : Nat) (e : PqEntry) (hL : ([.health, .strm, .pond] : List Part) ⊆ L)
    (hgood : OnlyChanges L s0 s) : OnlyChanges L s0 (discardEntry n e s) := by
  unfold discardEntry
  try dsimp only
  repeat' first
    | with_reducible assumption
    | with_reducible apply only_padGive
    | with_reducible apply only_padFree
    | with_reducible apply only_countStrm
    | (with_reducible refine List.Subset.trans ?_ hL; decide)
    | with_reducible apply only_ite
    | split

theorem only_consumeEntry {L : List Part} {s0 s : State} (n : Nat) (t : Task) (e : PqEntry) (hL : ([.health, .evt, .mem, .strm, .pond, .queues] : List Part) ⊆ L)
    (hgood : OnlyChanges L s0 s) : OnlyChanges L s0 (consumeEntry n t e s) := by
  unfold consumeEntry
  try dsimp only
  repeat' first
    | with_reducible assumption
    | with_reducible apply only_abortTask
    | with_reducible apply only_setTask
    | with_reducible apply only_padGive
    | (with_reducible refine List.Subset.trans ?_ hL; decide)
    | with_reducible apply only_ite
    | split

theorem only_popEntry {L : List Part} {s0 s : State} (n : Nat) (hL : ([.health, .evt, .mem, .strm, .pond, .queues] : List Part) ⊆ L)
    (hgood : OnlyChanges L s0 s) : OnlyChanges L s0 (popEntry n s) := by
  unfold popEntry
  try dsimp only
  repeat' first
    | with_reducible assumption
    | with_reducible apply only_consumeEntry
    | with_reducible apply only_discardEntry
    | with_reducible apply only_abortTask
    | with_reducible apply only_settleEnding
    | with_reducible apply only_setTask
    | with_reducible apply only_queueSettle
    | with_reducible apply only_setQueue
    | (with_reducible refine List.Subset.trans ?_ hL; decide)
    | with_reducible apply only_ite
    | split

theorem only_completeTask {L : List Part} {s0 s : State} (n : Nat) (hL : ([.health, .evt, .mem, .strm] : List Part) ⊆ L)
    (hgood : OnlyChanges L s0 s) : OnlyChanges L s0 (completeTask n s) := by
  unfold completeTask
  try dsimp only
  repeat' first
    | with_reducible assumption
    | with_reducible apply only_afterFetch
    | with_reducible apply only_fetchOrIdle
    | with_reducible apply only_setChan
    | with_reducible apply only_pulse
    | with_reducible apply only_report
    | with_reducible apply only_countStrm
    | (with_reducible refine List.Subset.trans ?_ hL; decide)
    | with_reducible apply only_ite
    | split

theorem only_writeTail {L : List Part} {s0 s : State} (n : Nat) (w : Word) (hL : ([.health, .mem, .strm] : List Part) ⊆ L)
    (hgood : OnlyChanges L s0 s) : OnlyChanges L s0 (writeTail n w s) := by
  unfold writeTail
  try dsimp only
  repeat' first
    | with_reducible assumption
    | with_reducible apply only_fetchOrIdle
    | with_reducible apply only_fetchMore
    | with_reducible apply only_setChan
    | with_reducible apply only_report
    | (with_reducible refine List.Subset.trans ?_ hL; decide)
    | with_reducible apply only_ite
    | split

theorem only_setChErr {L : List Part} {s0 s : State} (n : Nat) (e : BitVec 8) (hL : ([.strm] : List Part) ⊆ L)
    (hgood : OnlyChanges L s0 s) : OnlyChanges L s0 (setChErr n e s) := by
  unfold setChErr
  try dsimp only
  repeat' first
    | with_reducible assumption
    | with_reducible apply only_setChan
    | (with_reducible refine List.Subset.trans ?_ hL; decide)

theorem only_chStop {L : List Part} {s0 s : State} (n : Nat) (hL : ([.strm] : List Part) ⊆ L)
    (hgood : OnlyChanges L s0 s) : OnlyChanges L s0 (chStop n s) := by
  unfold chStop
  try dsimp only
  repeat' first
    | with_reducible assumption
    | with_reducible apply only_setChErr
    | with_reducible apply only_setChan
    | (with_reducible refine List.Subset.trans ?_ hL; decide)
    | split

theorem only_cancelTask {L : List Part} {s0 s : State} (n : Nat) (hL : ([.health, .evt, .mem, .strm, .pond, .queues] : List Part) ⊆ L)
    (hgood : OnlyChanges L s0 s) : OnlyChanges L s0 (cancelTask n s) := by
  unfold cancelTask
  try dsimp only
  repeat' first
    | with_reducible assumption
    | with_reducible apply only_settleEnding
    | with_reducible apply only_setTask
    | (with_reducible refine List.Subset.trans ?_ hL; decide)

theorem only_chCancel {L : List Part} {s0 s : State} (n : Nat) (hL : ([.health, .evt, .mem, .strm, .pond, .queues] : List Part) ⊆ L)
    (hgood : OnlyChanges L s0 s) : OnlyChanges L s0 (chCancel n s) := by
  unfold chCancel
  try dsimp only
  repeat' first
    | with_reducible assumption
    | with_reducible apply only_cancelTask
    | with_reducible apply only_setChErr
    | with_reducible apply only_latchFault
    | with_reducible apply only_setChan
    | with_reducible apply only_countStrm
    | (with_reducible refine List.Subset.trans ?_ hL; decide)
    | with_reducible apply only_ite
    | split

theorem only_chResume {L : List Part} {s0 s : State} (n : Nat) (hL : ([.health, .mem, .strm] : List Part) ⊆ L)
    (hgood : OnlyChanges L s0 s) : OnlyChanges L s0 (chResume n s) := by
  unfold chResume
  try dsimp only
  repeat' first
    | with_reducible assumption
    | with_reducible apply only_setChErr
    | with_reducible apply only_afterPiece
    | with_reducible apply only_afterFetch
    | with_reducible apply only_fetchOrIdle
    | with_reducible apply only_dropFetch
    | with_reducible apply only_setChan
    | (with_reducible refine List.Subset.trans ?_ hL; decide)
    | with_reducible apply only_ite
    | split

theorem only_forgetTask {L : List Part} {s0 s : State} (n : Nat) (hL : ([.mem, .strm, .far] : List Part) ⊆ L)
    (hgood : OnlyChanges L s0 s) : OnlyChanges L s0 (forgetTask n s) := by
  unfold forgetTask
  try dsimp only
  repeat' first
    | with_reducible assumption
    | with_reducible apply only_forgetFar
    | with_reducible apply only_forgetMem
    | (with_reducible refine List.Subset.trans ?_ hL; decide)
    | with_reducible apply only_set_strm
    | (with_reducible refine only_in hL ?_; decide)

theorem only_chReset {L : List Part} {s0 s : State} (n : Nat) (hL : ([.health, .evt, .mem, .strm, .pond, .queues, .far] : List Part) ⊆ L)
    (hgood : OnlyChanges L s0 s) : OnlyChanges L s0 (chReset n s) := by
  unfold chReset
  try dsimp only
  repeat' first
    | with_reducible assumption
    | with_reducible apply only_forgetTask
    | with_reducible apply only_setChErr
    | with_reducible apply only_latchFault
    | with_reducible apply only_dropFetch
    | with_reducible apply only_queueSettle
    | with_reducible apply only_padFreeAll
    | with_reducible apply only_setQueue
    | with_reducible apply only_setChan
    | (with_reducible refine List.Subset.trans ?_ hL; decide)
    | with_reducible apply only_ite
    | split

theorem only_writeChCtl {L : List Part} {s0 s : State} (n : Nat) (w : Word) (hL : ([.health, .evt, .mem, .strm, .pond, .queues, .far] : List Part) ⊆ L)
    (hgood : OnlyChanges L s0 s) : OnlyChanges L s0 (writeChCtl n w s) := by
  unfold writeChCtl
  try dsimp only
  repeat' first
    | with_reducible assumption
    | with_reducible apply only_chReset
    | with_reducible apply only_chResume
    | with_reducible apply only_chCancel
    | with_reducible apply only_chStop
    | with_reducible apply only_setChErr
    | (with_reducible refine List.Subset.trans ?_ hL; decide)
    | with_reducible apply only_ite
    | split

theorem only_writeStrmCommit {L : List Part} {s0 s : State} (w : Word) (hL : ([.strm] : List Part) ⊆ L)
    (hgood : OnlyChanges L s0 s) : OnlyChanges L s0 (writeStrmCommit w s) := by
  unfold writeStrmCommit
  try dsimp only
  repeat' first
    | with_reducible assumption
    | with_reducible apply only_ite
    | split
    | with_reducible apply only_set_strm
    | (with_reducible refine only_in hL ?_; decide)

theorem only_applyStrm {L : List Part} {s0 s : State}  (hL : ([.strm] : List Part) ⊆ L)
    (hgood : OnlyChanges L s0 s) : OnlyChanges L s0 (applyStrm s) := by
  unfold applyStrm
  try dsimp only
  repeat' first
    | with_reducible assumption
    | with_reducible apply only_ite
    | split
    | with_reducible apply only_set_strm
    | (with_reducible refine only_in hL ?_; decide)

theorem only_flushQueue {L : List Part} {s0 s : State} (q : Nat) (hL : ([.health, .strm, .pond, .queues] : List Part) ⊆ L)
    (hgood : OnlyChanges L s0 s) : OnlyChanges L s0 (flushQueue q s) := by
  unfold flushQueue
  try dsimp only
  repeat' first
    | with_reducible assumption
    | with_reducible apply only_queueSettle
    | with_reducible apply only_padFreeAll
    | with_reducible apply only_setQueue
    | with_reducible apply only_report
    | (with_reducible refine List.Subset.trans ?_ hL; decide)
    | intro _ _ _
    | with_reducible apply only_foldl
    | with_reducible apply only_ite
    | split

theorem only_writePqCtl {L : List Part} {s0 s : State} (w : Word) (hL : ([.health, .strm, .pond, .queues] : List Part) ⊆ L)
    (hgood : OnlyChanges L s0 s) : OnlyChanges L s0 (writePqCtl w s) := by
  unfold writePqCtl
  try dsimp only
  repeat' first
    | with_reducible assumption
    | with_reducible apply only_flushQueue
    | (with_reducible refine List.Subset.trans ?_ hL; decide)
    | intro _ _ _
    | with_reducible apply only_foldl
    | with_reducible apply only_ite
    | split

end Sys2Proof.Machine
end

