-- ==== Sys2Proof/Laws/OnlyVerdict.lean ====
section
/-! SUPPORT. Which parts of the state each operation of Machine/Verdict.lean may change (Laws/Only.lean). -/
namespace Sys2Proof.Machine

-- the proofs below are one script for many operations, of which each uses its own part
set_option linter.unusedTactic false
set_option linter.unreachableTactic false

theorem only_endToIdle {L : List Part} {s0 s : State} (aborted : Bool) (hL : ([.mem, .step, .aux, .tongue, .verdict, .hier, .xch, .rng, .east, .west] : List Part) ⊆ L)
    (hgood : OnlyChanges L s0 s) : OnlyChanges L s0 (endToIdle aborted s) := by
  unfold endToIdle
  try dsimp only
  repeat' first
    | with_reducible assumption
    | with_reducible apply only_normStop
    | with_reducible apply only_linksRun
    | (with_reducible refine List.Subset.trans ?_ hL; decide)
    | with_reducible apply only_set_step_aux_tongue_verdict_hier_xch_rng
    | (with_reducible refine only_in hL ?_; decide)

theorem only_passAbort {L : List Part} {s0 s : State}  (hL : ([.sweep] : List Part) ⊆ L)
    (hgood : OnlyChanges L s0 s) : OnlyChanges L s0 (passAbort s) := by
  unfold passAbort
  try dsimp only
  repeat' first
    | with_reducible assumption
    | with_reducible apply only_ite
    | split
    | with_reducible apply only_set_sweep
    | (with_reducible refine only_in hL ?_; decide)

theorem only_abortStep {L : List Part} {s0 s : State}  (hL : ([.evt, .mem, .step, .lscale, .aux, .sweep, .tongue, .verdict, .hier, .xch, .rng, .east, .west] : List Part) ⊆ L)
    (hgood : OnlyChanges L s0 s) : OnlyChanges L s0 (abortStep s) := by
  unfold abortStep
  try dsimp only
  repeat' first
    | with_reducible assumption
    | with_reducible apply only_passAbort
    | with_reducible apply only_endToIdle
    | with_reducible apply only_linksRun
    | with_reducible apply only_pulse
    | (with_reducible refine List.Subset.trans ?_ hL; decide)
    | with_reducible apply only_ite
    | split
    | with_reducible apply only_set_step_lscale
    | with_reducible apply only_set_step
    | (with_reducible refine only_in hL ?_; decide)

theorem only_abortNotice {L : List Part} {s0 s : State}  (hL : ([.hier, .east, .west, .fmp] : List Part) ⊆ L)
    (hgood : OnlyChanges L s0 s) : OnlyChanges L s0 (abortNotice s) := by
  unfold abortNotice
  try dsimp only
  repeat' first
    | with_reducible assumption
    | with_reducible apply only_issueAbort
    | with_reducible apply only_sendToParent
    | with_reducible apply only_sendToManager
    | (with_reducible refine List.Subset.trans ?_ hL; decide)
    | with_reducible apply only_ite
    | split

theorem only_raiseAbort {L : List Part} {s0 s : State} (arg : Word) (hL : ([.health, .evt, .mem, .step, .lscale, .aux, .sweep, .tongue, .verdict, .hier, .xch, .rng, .east, .west, .fmp] : List Part) ⊆ L)
    (hgood : OnlyChanges L s0 s) : OnlyChanges L s0 (raiseAbort arg s) := by
  unfold raiseAbort
  try dsimp only
  repeat' first
    | with_reducible assumption
    | with_reducible apply only_abortNotice
    | with_reducible apply only_abortStep
    | with_reducible apply only_report
    | (with_reducible refine List.Subset.trans ?_ hL; decide)
    | with_reducible apply only_ite
    | split

theorem only_sealRefused {L : List Part} {s0 s : State} (code : BitVec 16) (arg : Word) (hL : ([.health, .tongue] : List Part) ⊆ L)
    (hgood : OnlyChanges L s0 s) : OnlyChanges L s0 (sealRefused code arg s) := by
  unfold sealRefused
  try dsimp only
  repeat' first
    | with_reducible assumption
    | with_reducible apply only_report
    | with_reducible apply only_countTongue
    | (with_reducible refine List.Subset.trans ?_ hL; decide)

theorem only_takeSeal {L : List Part} {s0 s : State} (evt : Bool) (hL : ([.health, .evt, .mem, .step, .stepk, .tongue, .hier, .east, .west] : List Part) ⊆ L)
    (hgood : OnlyChanges L s0 s) : OnlyChanges L s0 (takeSeal evt s) := by
  unfold takeSeal
  try dsimp only
  repeat' first
    | with_reducible assumption
    | with_reducible apply only_sealRefused
    | with_reducible apply only_contribute
    | with_reducible apply only_unwindTaken
    | with_reducible apply only_normStart
    | with_reducible apply only_linksSeal
    | (with_reducible refine List.Subset.trans ?_ hL; decide)
    | with_reducible apply only_ite
    | split
    | with_reducible apply only_set_step_stepk
    | (with_reducible refine only_in hL ?_; decide)

theorem only_clearHalt {L : List Part} {s0 s : State}  (hL : ([.health, .mem, .step, .lscale, .sweep, .strm, .pond, .xch] : List Part) ⊆ L)
    (hgood : OnlyChanges L s0 s) : OnlyChanges L s0 (clearHalt s) := by
  unfold clearHalt
  try dsimp only
  repeat' first
    | with_reducible assumption
    | with_reducible apply only_exportsClearHalt
    | with_reducible apply only_report
    | (with_reducible refine List.Subset.trans ?_ hL; decide)
    | with_reducible apply only_ite
    | split
    | with_reducible apply only_set_step_lscale_sweep
    | (with_reducible refine only_in hL ?_; decide)

theorem only_writeStepCtl {L : List Part} {s0 s : State} (w : Word) (hL : ([.health, .evt, .mem, .step, .stepk, .lscale, .aux, .sweep, .tongue, .memb, .verdict, .hier, .strm, .pond, .xch, .rng, .east, .west, .ring, .fmp] : List Part) ⊆ L)
    (hgood : OnlyChanges L s0 s) : OnlyChanges L s0 (writeStepCtl w s) := by
  unfold writeStepCtl
  try dsimp only
  repeat' first
    | with_reducible assumption
    | with_reducible apply only_clearHalt
    | with_reducible apply only_takeSeal
    | with_reducible apply only_raiseAbort
    | with_reducible apply only_setStep
    | with_reducible apply only_dropBases
    | with_reducible apply only_report
    | (with_reducible refine List.Subset.trans ?_ hL; decide)
    | with_reducible apply only_ite
    | split

theorem only_recordApplied {L : List Part} {s0 s : State} (r : Line) (hL : ([.step, .verdict] : List Part) ⊆ L)
    (hgood : OnlyChanges L s0 s) : OnlyChanges L s0 (recordApplied r s) := by
  unfold recordApplied
  try dsimp only
  repeat' first
    | with_reducible assumption
    | with_reducible apply only_set_step_verdict
    | (with_reducible refine only_in hL ?_; decide)

theorem only_rootKeepsLsn {L : List Part} {s0 s : State} (r : Line) (hL : ([.verdict] : List Part) ⊆ L)
    (hgood : OnlyChanges L s0 s) : OnlyChanges L s0 (rootKeepsLsn r s) := by
  unfold rootKeepsLsn
  try dsimp only
  repeat' first
    | with_reducible assumption
    | with_reducible apply only_ite
    | split
    | with_reducible apply only_set_verdict
    | (with_reducible refine only_in hL ?_; decide)

theorem only_applyGo {L : List Part} {s0 s : State} (r : Line) (hL : ([.step, .lscale, .aux, .verdict, .hier, .xch, .rng] : List Part) ⊆ L)
    (hgood : OnlyChanges L s0 s) : OnlyChanges L s0 (applyGo r s) := by
  unfold applyGo
  try dsimp only
  repeat' first
    | with_reducible assumption
    | with_reducible apply only_rootKeepsLsn
    | with_reducible apply only_recordApplied
    | (with_reducible refine List.Subset.trans ?_ hL; decide)
    | with_reducible apply only_set_lscale_aux_verdict_hier_xch_rng
    | (with_reducible refine only_in hL ?_; decide)

theorem only_applySkip {L : List Part} {s0 s : State} (r : Line) (hL : ([.health, .evt, .mem, .step, .lscale, .aux, .tongue, .memb, .verdict, .hier, .xch, .rng, .east, .west, .fmp] : List Part) ⊆ L)
    (hgood : OnlyChanges L s0 s) : OnlyChanges L s0 (applySkip r s) := by
  unfold applySkip
  try dsimp only
  repeat' first
    | with_reducible assumption
    | with_reducible apply only_rootKeepsLsn
    | with_reducible apply only_recordApplied
    | with_reducible apply only_endToIdle
    | with_reducible apply only_nextAttempt
    | with_reducible apply only_pulse
    | (with_reducible refine List.Subset.trans ?_ hL; decide)
    | with_reducible apply only_set_lscale
    | (with_reducible refine only_in hL ?_; decide)

theorem only_applyAbort {L : List Part} {s0 s : State} (r : Line) (hL : ([.health, .evt, .mem, .step, .lscale, .aux, .sweep, .tongue, .memb, .verdict, .hier, .xch, .rng, .east, .west, .fmp] : List Part) ⊆ L)
    (hgood : OnlyChanges L s0 s) : OnlyChanges L s0 (applyAbort r s) := by
  unfold applyAbort
  try dsimp only
  repeat' first
    | with_reducible assumption
    | with_reducible apply only_recordApplied
    | with_reducible apply only_abortStep
    | with_reducible apply only_nextAttempt
    | (with_reducible refine List.Subset.trans ?_ hL; decide)
    | with_reducible apply only_set_lscale
    | (with_reducible refine only_in hL ?_; decide)

theorem only_ignoreRecord {L : List Part} {s0 s : State} (r : Line) (hL : ([.verdict, .hier] : List Part) ⊆ L)
    (hgood : OnlyChanges L s0 s) : OnlyChanges L s0 (ignoreRecord r s) := by
  unfold ignoreRecord
  try dsimp only
  repeat' first
    | with_reducible assumption
    | with_reducible apply only_countHier
    | (with_reducible refine List.Subset.trans ?_ hL; decide)
    | with_reducible apply only_set_verdict
    | (with_reducible refine only_in hL ?_; decide)

theorem only_judgeRecord {L : List Part} {s0 s : State} (r : Line) (hL : ([.health, .evt, .mem, .step, .lscale, .aux, .sweep, .tongue, .memb, .verdict, .hier, .xch, .rng, .east, .west, .fmp] : List Part) ⊆ L)
    (hgood : OnlyChanges L s0 s) : OnlyChanges L s0 (judgeRecord r s) := by
  unfold judgeRecord
  try dsimp only
  repeat' first
    | with_reducible assumption
    | with_reducible apply only_ignoreRecord
    | with_reducible apply only_applyAbort
    | with_reducible apply only_applySkip
    | with_reducible apply only_applyGo
    | with_reducible apply only_holdStep
    | with_reducible apply only_linksRun
    | with_reducible apply only_report
    | with_reducible apply only_countHier
    | (with_reducible refine List.Subset.trans ?_ hL; decide)
    | with_reducible apply only_ite
    | split
    | with_reducible apply only_set_verdict
    | (with_reducible refine only_in hL ?_; decide)

theorem only_takeRecord {L : List Part} {s0 s : State} (src : Source) (r : Line) (hL : ([.health, .evt, .mem, .step, .lscale, .aux, .sweep, .tongue, .memb, .verdict, .hier, .xch, .rng, .east, .west, .ring, .fmp] : List Part) ⊆ L)
    (hgood : OnlyChanges L s0 s) : OnlyChanges L s0 (takeRecord src r s) := by
  unfold takeRecord
  try dsimp only
  repeat' first
    | with_reducible assumption
    | with_reducible apply only_judgeRecord
    | with_reducible apply only_takeInbox
    | with_reducible apply only_flashRing
    | with_reducible apply only_sendBelow
    | with_reducible apply only_broadcast
    | (with_reducible refine List.Subset.trans ?_ hL; decide)
    | with_reducible apply only_ite
    | split
    | with_reducible apply only_set_ring
    | (with_reducible refine only_in hL ?_; decide)

theorem only_takeFlash {L : List Part} {s0 s : State} (d : Side) (f : Flash) (hL : ([.evt, .mem, .step, .lscale, .aux, .sweep, .tongue, .verdict, .hier, .xch, .rng, .east, .west] : List Part) ⊆ L)
    (hgood : OnlyChanges L s0 s) : OnlyChanges L s0 (takeFlash d f s) := by
  unfold takeFlash
  try dsimp only
  repeat' first
    | with_reducible assumption
    | with_reducible apply only_abortStep
    | with_reducible apply only_flashSend
    | with_reducible apply only_setLink
    | with_reducible apply only_countHier
    | (with_reducible refine List.Subset.trans ?_ hL; decide)
    | with_reducible apply only_ite
    | split
    | with_reducible apply only_set_verdict
    | (with_reducible refine only_in hL ?_; decide)

theorem only_writeLease {L : List Part} {s0 s : State} (w : Word) (hL : ([.hier, .lease] : List Part) ⊆ L)
    (hgood : OnlyChanges L s0 s) : OnlyChanges L s0 (writeLease w s) := by
  unfold writeLease
  try dsimp only
  repeat' first
    | with_reducible assumption
    | with_reducible apply only_countHier
    | (with_reducible refine List.Subset.trans ?_ hL; decide)
    | with_reducible apply only_ite
    | split
    | with_reducible apply only_set_lease
    | (with_reducible refine only_in hL ?_; decide)

theorem only_writeRootLsn {L : List Part} {s0 s : State} (w : Word) (hL : ([.health, .verdict] : List Part) ⊆ L)
    (hgood : OnlyChanges L s0 s) : OnlyChanges L s0 (writeRootLsn w s) := by
  unfold writeRootLsn
  try dsimp only
  repeat' first
    | with_reducible assumption
    | with_reducible apply only_report
    | (with_reducible refine List.Subset.trans ?_ hL; decide)
    | with_reducible apply only_ite
    | split
    | with_reducible apply only_set_verdict
    | (with_reducible refine only_in hL ?_; decide)

theorem only_writeLscale {L : List Part} {s0 s : State} (w : Word) (hL : ([.health, .lscale] : List Part) ⊆ L)
    (hgood : OnlyChanges L s0 s) : OnlyChanges L s0 (writeLscale w s) := by
  unfold writeLscale
  try dsimp only
  repeat' first
    | with_reducible assumption
    | with_reducible apply only_report
    | (with_reducible refine List.Subset.trans ?_ hL; decide)
    | with_reducible apply only_ite
    | split
    | with_reducible apply only_set_lscale
    | (with_reducible refine only_in hL ?_; decide)

end Sys2Proof.Machine
end

