-- ==== Sys2Proof/Laws/OnlyControl.lean ====
section
/-! SUPPORT. Which parts of the state each operation of Machine/Control.lean may change (Laws/Only.lean). -/
namespace Sys2Proof.Machine

-- the proofs below are one script for many operations, of which each uses its own part
set_option linter.unusedTactic false
set_option linter.unreachableTactic false

theorem only_applyEpoch {L : List Part} {s0 s : State}  (hL : ([.health, .evt, .memb, .verdict, .hier, .east, .west, .ring, .fmp] : List Part) ⊆ L)
    (hgood : OnlyChanges L s0 s) : OnlyChanges L s0 (applyEpoch s) := by
  unfold applyEpoch
  try dsimp only
  repeat' first
    | with_reducible assumption
    | with_reducible apply only_applyMemb
    | (with_reducible refine List.Subset.trans ?_ hL; decide)
    | with_reducible apply only_ite
    | split
    | with_reducible apply only_set_memb
    | (with_reducible refine only_in hL ?_; decide)

theorem only_applyStaged {L : List Part} {s0 s : State} (b : StagedBlock) (hL : ([.health, .evt, .mem, .stepk, .swp, .tongue, .memb, .verdict, .hier, .strm, .pond, .xch, .far, .east, .west, .ring, .fmp] : List Part) ⊆ L)
    (hgood : OnlyChanges L s0 s) : OnlyChanges L s0 (applyStaged b s) := by
  unfold applyStaged
  try dsimp only
  repeat' first
    | with_reducible assumption
    | with_reducible apply only_applyEpoch
    | with_reducible apply only_applyStrm
    | with_reducible apply only_applyXchSet
    | with_reducible apply only_applySwp
    | with_reducible apply only_applyStepk
    | with_reducible apply only_applyMp
    | (with_reducible refine List.Subset.trans ?_ hL; decide)
    | split

theorem only_writeSnapCtl {L : List Part} {s0 s : State} (w : Word) (hL : ([.snap] : List Part) ⊆ L)
    (hgood : OnlyChanges L s0 s) : OnlyChanges L s0 (writeSnapCtl w s) := by
  unfold writeSnapCtl
  try dsimp only
  repeat' first
    | with_reducible assumption
    | with_reducible apply only_ite
    | split
    | with_reducible apply only_set_snap
    | (with_reducible refine only_in hL ?_; decide)

theorem only_writeStepk {L : List Part} {s0 s : State} (i : Nat) (w : Word) (hL : ([.stepk] : List Part) ⊆ L)
    (hgood : OnlyChanges L s0 s) : OnlyChanges L s0 (writeStepk i w s) := by
  unfold writeStepk
  try dsimp only
  repeat' first
    | with_reducible assumption
    | with_reducible apply only_setStepk
    | (with_reducible refine List.Subset.trans ?_ hL; decide)

theorem only_writeSwpBase {L : List Part} {s0 s : State} (i : Nat) (w : Word) (hL : ([.swp] : List Part) ⊆ L)
    (hgood : OnlyChanges L s0 s) : OnlyChanges L s0 (writeSwpBase i w s) := by
  unfold writeSwpBase
  try dsimp only
  repeat' first
    | with_reducible assumption
    | with_reducible apply only_setSwp
    | (with_reducible refine List.Subset.trans ?_ hL; decide)

theorem only_writeMpPart {L : List Part} {s0 s : State} (i : Nat) (w : Word) (hL : ([.mem] : List Part) ⊆ L)
    (hgood : OnlyChanges L s0 s) : OnlyChanges L s0 (writeMpPart i w s) := by
  unfold writeMpPart
  try dsimp only
  repeat' first
    | with_reducible assumption
    | with_reducible apply only_setMem
    | (with_reducible refine List.Subset.trans ?_ hL; decide)
    | with_reducible apply only_ite
    | split

theorem only_writeThmCfg {L : List Part} {s0 s : State} (w : Word) (hL : ([.mem] : List Part) ⊆ L)
    (hgood : OnlyChanges L s0 s) : OnlyChanges L s0 (writeThmCfg w s) := by
  unfold writeThmCfg
  try dsimp only
  repeat' first
    | with_reducible assumption
    | with_reducible apply only_setMem
    | (with_reducible refine List.Subset.trans ?_ hL; decide)

theorem only_writeMpFault {L : List Part} {s0 s : State} (w : Word) (hL : ([.mem] : List Part) ⊆ L)
    (hgood : OnlyChanges L s0 s) : OnlyChanges L s0 (writeMpFault w s) := by
  unfold writeMpFault
  try dsimp only
  repeat' first
    | with_reducible assumption
    | with_reducible apply only_setMem
    | (with_reducible refine List.Subset.trans ?_ hL; decide)

theorem only_writeFabFault {L : List Part} {s0 s : State} (w : Word) (hL : ([.fab] : List Part) ⊆ L)
    (hgood : OnlyChanges L s0 s) : OnlyChanges L s0 (writeFabFault w s) := by
  unfold writeFabFault
  try dsimp only
  repeat' first
    | with_reducible assumption
    | with_reducible apply only_setFab
    | (with_reducible refine List.Subset.trans ?_ hL; decide)

theorem only_writePondFault {L : List Part} {s0 s : State} (w : Word) (hL : ([.pond] : List Part) ⊆ L)
    (hgood : OnlyChanges L s0 s) : OnlyChanges L s0 (writePondFault w s) := by
  unfold writePondFault
  try dsimp only
  repeat' first
    | with_reducible assumption
    | with_reducible apply only_set_pond
    | (with_reducible refine only_in hL ?_; decide)

theorem only_writeRingBase {L : List Part} {s0 s : State} (n : Nat) (w : Word) (hL : ([.strm] : List Part) ⊆ L)
    (hgood : OnlyChanges L s0 s) : OnlyChanges L s0 (writeRingBase n w s) := by
  unfold writeRingBase
  try dsimp only
  repeat' first
    | with_reducible assumption
    | with_reducible apply only_setChan
    | (with_reducible refine List.Subset.trans ?_ hL; decide)

theorem only_writeRingCfg {L : List Part} {s0 s : State} (n : Nat) (w : Word) (hL : ([.strm] : List Part) ⊆ L)
    (hgood : OnlyChanges L s0 s) : OnlyChanges L s0 (writeRingCfg n w s) := by
  unfold writeRingCfg
  try dsimp only
  repeat' first
    | with_reducible assumption
    | with_reducible apply only_setChan
    | (with_reducible refine List.Subset.trans ?_ hL; decide)

theorem only_writeChannel {L : List Part} {s0 s : State} (n off : Nat) (w : Word) (hL : ([.health, .evt, .mem, .strm, .pond, .queues, .far] : List Part) ⊆ L)
    (hgood : OnlyChanges L s0 s) : OnlyChanges L s0 (writeChannel n off w s) := by
  unfold writeChannel
  try dsimp only
  repeat' first
    | with_reducible assumption
    | with_reducible apply only_writeRingCfg
    | with_reducible apply only_writeRingBase
    | with_reducible apply only_writeChCtl
    | with_reducible apply only_writeTail
    | (with_reducible refine List.Subset.trans ?_ hL; decide)
    | with_reducible apply only_ite
    | split

theorem only_writeXchReg {L : List Part} {s0 s : State} (k off : Nat) (w : Word) (hL : ([.health, .mem, .strm, .pond, .xch, .far] : List Part) ⊆ L)
    (hgood : OnlyChanges L s0 s) : OnlyChanges L s0 (writeXchReg k off w s) := by
  unfold writeXchReg
  try dsimp only
  repeat' first
    | with_reducible assumption
    | with_reducible apply only_writeXchCtl
    | with_reducible apply only_setXch
    | (with_reducible refine List.Subset.trans ?_ hL; decide)
    | with_reducible apply only_ite
    | split

theorem only_setMaskRegs {L : List Part} {s0 s : State} (f : MaskRegs → MaskRegs) (hL : ([.rng] : List Part) ⊆ L)
    (hgood : OnlyChanges L s0 s) : OnlyChanges L s0 (setMaskRegs f s) := by
  unfold setMaskRegs
  try dsimp only
  repeat' first
    | with_reducible assumption
    | with_reducible apply only_set_rng
    | (with_reducible refine only_in hL ?_; decide)

theorem only_writeRandom {L : List Part} {s0 s : State} (a : Nat) (w : Word) (hL : ([.health, .evt, .rng] : List Part) ⊆ L)
    (hgood : OnlyChanges L s0 s) : OnlyChanges L s0 (writeRandom a w s) := by
  unfold writeRandom
  try dsimp only
  repeat' first
    | with_reducible assumption
    | with_reducible apply only_setMaskRegs
    | with_reducible apply only_writeLane
    | with_reducible apply only_writeRngCtl
    | with_reducible apply only_writeMaskCtl
    | (with_reducible refine List.Subset.trans ?_ hL; decide)
    | with_reducible apply only_ite
    | split
    | with_reducible apply only_set_rng
    | (with_reducible refine only_in hL ?_; decide)

theorem only_writeQuoteRegs {L : List Part} {s0 s : State} (a : Nat) (w : Word) (hL : ([.vault] : List Part) ⊆ L)
    (hgood : OnlyChanges L s0 s) : OnlyChanges L s0 (writeQuoteRegs a w s) := by
  unfold writeQuoteRegs
  try dsimp only
  repeat' first
    | with_reducible assumption
    | split
    | with_reducible apply only_set_vault
    | (with_reducible refine only_in hL ?_; decide)

theorem only_writeGlobal {L : List Part} {s0 s : State} (a : Nat) (w : Word) (hL : ([.clk, .boot, .power, .health, .snap, .evt, .ctl, .kst, .vault, .mem, .image, .step, .stepk, .lscale, .aux, .ttab, .swp, .sweep, .fab, .tongue, .memb, .verdict, .hier, .lease, .strm, .pond, .queues, .xch, .far, .rng, .east, .west, .ring, .fmp, .test] : List Part) ⊆ L)
    (hgood : OnlyChanges L s0 s) : OnlyChanges L s0 (writeGlobal a w s) := by
  unfold writeGlobal
  try dsimp only
  repeat' first
    | with_reducible assumption
    | with_reducible apply only_writeSwpBase
    | with_reducible apply only_writeStepk
    | with_reducible apply only_writeSnapCtl
    | with_reducible apply only_writeGctl
    | with_reducible apply only_writeSweepCtl
    | with_reducible apply only_writeAuxCtl
    | with_reducible apply only_writeLscale
    | with_reducible apply only_writeRootLsn
    | with_reducible apply only_writeLease
    | with_reducible apply only_writeStepCtl
    | with_reducible apply only_writeMembCommit
    | with_reducible apply only_writeTtabCtl
    | with_reducible apply only_setTtab
    | with_reducible apply only_writeSwpCommit
    | with_reducible apply only_writeStepkCommit
    | with_reducible apply only_writeArm
    | (with_reducible refine List.Subset.trans ?_ hL; decide)
    | with_reducible apply only_ite
    | split
    | with_reducible apply only_set_memb
    | (with_reducible refine only_in hL ?_; decide)

theorem only_writeMiddle {L : List Part} {s0 s : State} (a : Nat) (w : Word) (hL : ([.boot, .health, .evt, .mem, .image, .stepk, .ttab, .swp, .fab, .tongue, .memb, .verdict, .hier, .strm, .pond, .queues, .xch, .far, .rng, .east, .west, .ring, .fmp] : List Part) ⊆ L)
    (hgood : OnlyChanges L s0 s) : OnlyChanges L s0 (writeMiddle a w s) := by
  unfold writeMiddle
  try dsimp only
  repeat' first
    | with_reducible assumption
    | with_reducible apply only_writeXchReg
    | with_reducible apply only_writeChannel
    | with_reducible apply only_writePondFault
    | with_reducible apply only_writeFabFault
    | with_reducible apply only_writeMpFault
    | with_reducible apply only_writeThmCfg
    | with_reducible apply only_writeMpPart
    | with_reducible apply only_writeFabCtl
    | with_reducible apply only_writeFabShed
    | with_reducible apply only_writeImgCtl
    | with_reducible apply only_setImage
    | with_reducible apply only_writePqCtl
    | with_reducible apply only_writeStrmCommit
    | with_reducible apply only_writeXchCommit
    | with_reducible apply only_writeMpCommit
    | (with_reducible refine List.Subset.trans ?_ hL; decide)
    | with_reducible apply only_ite
    | split

theorem only_writeHigh {L : List Part} {s0 s : State} (a : Nat) (w : Word) (hL : ([.boot, .health, .evt, .kst, .vault, .memb, .verdict, .hier, .far, .rng, .east, .west, .ring, .fmp] : List Part) ⊆ L)
    (hgood : OnlyChanges L s0 s) : OnlyChanges L s0 (writeHigh a w s) := by
  unfold writeHigh
  try dsimp only
  repeat' first
    | with_reducible assumption
    | with_reducible apply only_writeQuoteRegs
    | with_reducible apply only_writeRandom
    | with_reducible apply only_writeErrPop
    | with_reducible apply only_writeErrStatus
    | with_reducible apply only_writeSramFault
    | with_reducible apply only_writeCroak
    | with_reducible apply only_writeXlCtl
    | with_reducible apply only_writeVaultOp
    | (with_reducible refine List.Subset.trans ?_ hL; decide)
    | with_reducible apply only_ite
    | split
    | with_reducible apply only_set_fmp
    | with_reducible apply only_set_far
    | with_reducible apply only_set_far_fmp
    | (with_reducible refine only_in hL ?_; decide)

theorem only_writeReg {L : List Part} {s0 s : State} (a : Nat) (w : Word) (hL : ([.clk, .boot, .power, .health, .snap, .evt, .ctl, .kst, .vault, .mem, .image, .step, .stepk, .lscale, .aux, .ttab, .swp, .sweep, .fab, .tongue, .memb, .verdict, .hier, .lease, .strm, .pond, .queues, .xch, .far, .rng, .east, .west, .ring, .fmp, .test] : List Part) ⊆ L)
    (hgood : OnlyChanges L s0 s) : OnlyChanges L s0 (writeReg a w s) := by
  unfold writeReg
  try dsimp only
  repeat' first
    | with_reducible assumption
    | with_reducible apply only_writeHigh
    | with_reducible apply only_writeMiddle
    | with_reducible apply only_writeGlobal
    | (with_reducible refine List.Subset.trans ?_ hL; decide)
    | with_reducible apply only_ite
    | split

theorem only_portWrite {L : List Part} {s0 s : State} (addr : Addr24) (w : Word) (par : BitVec 12) (hL : ([.clk, .boot, .power, .health, .snap, .evt, .ctl, .kst, .vault, .mem, .image, .step, .stepk, .lscale, .aux, .ttab, .swp, .sweep, .fab, .tongue, .memb, .verdict, .hier, .lease, .strm, .pond, .queues, .xch, .far, .rng, .east, .west, .ring, .fmp, .test] : List Part) ⊆ L)
    (hgood : OnlyChanges L s0 s) : OnlyChanges L s0 (portWrite addr w par s) := by
  unfold portWrite
  try dsimp only
  repeat' first
    | with_reducible assumption
    | with_reducible apply only_writeReg
    | with_reducible apply only_ctlWrite
    | with_reducible apply only_unmapped
    | with_reducible apply only_respond
    | with_reducible apply only_countPort
    | (with_reducible refine List.Subset.trans ?_ hL; decide)
    | (intro (_ : State) _)
    | with_reducible apply only_ite
    | split

end Sys2Proof.Machine
end

