-- ==== Sys2Proof/Laws/OnlyMemPath.lean ====
section
/-! SUPPORT. Which parts of the state each operation of Machine/MemPath.lean may change (Laws/Only.lean). -/
namespace Sys2Proof.Machine

-- the proofs below are one script for many operations, of which each uses its own part
set_option linter.unusedTactic false
set_option linter.unreachableTactic false

theorem only_portFatal {L : List Part} {s0 s : State} (f : FatalXfer) (hL : ([.health, .mem] : List Part) ⊆ L)
    (hgood : OnlyChanges L s0 s) : OnlyChanges L s0 (portFatal f s) := by
  unfold portFatal
  try dsimp only
  repeat' first
    | with_reducible assumption
    | with_reducible apply only_setMem
    | with_reducible apply only_report
    | with_reducible apply only_countMp
    | (with_reducible refine List.Subset.trans ?_ hL; decide)

theorem only_nakTag {L : List Part} {s0 s : State} {n : Nat} (want got : BitVec n) (par : BitVec 2) (hL : ([.far] : List Part) ⊆ L)
    (hgood : OnlyChanges L s0 s) : OnlyChanges L s0 (nakTag want got par s) := by
  unfold nakTag
  try dsimp only
  repeat' first
    | with_reducible assumption
    | with_reducible apply only_countPort
    | (with_reducible refine List.Subset.trans ?_ hL; decide)
    | with_reducible apply only_ite
    | split

theorem only_hostSend {L : List Part} {s0 s : State} (h : HostOut) (hL : ([.mem] : List Part) ⊆ L)
    (hgood : OnlyChanges L s0 s) : OnlyChanges L s0 (hostSend h s) := by
  unfold hostSend
  try dsimp only
  repeat' first
    | with_reducible assumption
    | with_reducible apply only_setMem
    | (with_reducible refine List.Subset.trans ?_ hL; decide)

theorem only_setHostFails {L : List Part} {s0 s : State} (port : BitVec 5) (write : Bool) (tag : BitVec 12) (n : Nat) (hL : ([.mem] : List Part) ⊆ L)
    (hgood : OnlyChanges L s0 s) : OnlyChanges L s0 (setHostFails port write tag n s) := by
  unfold setHostFails
  try dsimp only
  repeat' first
    | with_reducible assumption
    | with_reducible apply only_setMem
    | (with_reducible refine List.Subset.trans ?_ hL; decide)
    | with_reducible apply only_ite
    | split

theorem only_hostRequest {L : List Part} {s0 s : State} (port : BitVec 5) (tag : BitVec 12) (req : BitVec 52) (write : Bool) (mask : BitVec 64) (data : Line) (parity : Bool) (hL : ([.health, .mem] : List Part) ⊆ L)
    (hgood : OnlyChanges L s0 s) : OnlyChanges L s0 (hostRequest port tag req write mask data parity s) := by
  unfold hostRequest
  try dsimp only
  repeat' first
    | with_reducible assumption
    | with_reducible apply only_setHostFails
    | with_reducible apply only_hostSend
    | with_reducible apply only_portFatal
    | with_reducible apply only_enqueue
    | with_reducible apply only_setMem
    | with_reducible apply only_countMp
    | (with_reducible refine List.Subset.trans ?_ hL; decide)
    | with_reducible apply only_ite
    | split

theorem only_hostComplete {L : List Part} {s0 s : State} (d : HostDone) (hL : ([.health, .mem, .tongue] : List Part) ⊆ L)
    (hgood : OnlyChanges L s0 s) : OnlyChanges L s0 (hostComplete d s) := by
  unfold hostComplete
  try dsimp only
  repeat' first
    | with_reducible assumption
    | with_reducible apply only_hostSend
    | with_reducible apply only_tongueTake
    | with_reducible apply only_noteTaken
    | with_reducible apply only_setMem
    | (with_reducible refine List.Subset.trans ?_ hL; decide)
    | with_reducible apply only_ite
    | split

theorem only_dropHostOut {L : List Part} {s0 s : State} (h : HostOut) (hL : ([.mem] : List Part) ⊆ L)
    (hgood : OnlyChanges L s0 s) : OnlyChanges L s0 (dropHostOut h s) := by
  unfold dropHostOut
  try dsimp only
  repeat' first
    | with_reducible assumption
    | with_reducible apply only_setMem
    | (with_reducible refine List.Subset.trans ?_ hL; decide)

theorem only_makeWay {L : List Part} {s0 s : State} (h : HostOut) (from' : Nat) (hL : ([.mem, .tongue] : List Part) ⊆ L)
    (hgood : OnlyChanges L s0 s) : OnlyChanges L s0 (makeWay h from' s) := by
  unfold makeWay
  try dsimp only
  repeat' first
    | with_reducible assumption
    | with_reducible apply only_moveTaken
    | with_reducible apply only_setMem
    | (with_reducible refine List.Subset.trans ?_ hL; decide)
    | intro _ _ _
    | with_reducible apply only_foldl
    | with_reducible apply only_ite
    | split

theorem only_hostNak {L : List Part} {s0 s : State} (h : HostOut) (hL : ([.health, .mem, .tongue] : List Part) ⊆ L)
    (hgood : OnlyChanges L s0 s) : OnlyChanges L s0 (hostNak h s) := by
  unfold hostNak
  try dsimp only
  repeat' first
    | with_reducible assumption
    | with_reducible apply only_makeWay
    | with_reducible apply only_dropHostOut
    | with_reducible apply only_hostSend
    | with_reducible apply only_portFatal
    | with_reducible apply only_moveTaken
    | with_reducible apply only_setMem
    | with_reducible apply only_countMp
    | (with_reducible refine List.Subset.trans ?_ hL; decide)
    | with_reducible apply only_ite
    | split

theorem only_deliverRead {L : List Part} {s0 s : State} (r : MemReq) (data : Option Line) (hL : ([.health, .evt, .mem, .image, .step, .ttab, .sweep, .tongue, .strm, .pond, .queues, .xch, .far, .freeCtr] : List Part) ⊆ L)
    (hgood : OnlyChanges L s0 s) : OnlyChanges L s0 (deliverRead r data s) := by
  unfold deliverRead
  try dsimp only
  repeat' first
    | with_reducible assumption
    | with_reducible apply only_hostSend
    | with_reducible apply only_vectorDone
    | with_reducible apply only_fetchDone
    | with_reducible apply only_journalConfirmed
    | with_reducible apply only_confirmDone
    | with_reducible apply only_discardedDone
    | with_reducible apply only_indexLine
    | with_reducible apply only_imageLine
    | with_reducible apply only_descReadDone
    | with_reducible apply only_streamReadDone
    | with_reducible apply only_readbackDone
    | with_reducible apply only_copyReadDone
    | with_reducible apply only_lagReadDone
    | with_reducible apply only_tableLine
    | with_reducible apply only_normLineDone
    | (with_reducible refine List.Subset.trans ?_ hL; decide)
    | split

theorem only_deliverWrite {L : List Part} {s0 s : State} (r : MemReq) (ok : Bool) (who : Who) (hL : ([.health, .evt, .mem, .sweep, .strm, .pond, .queues, .rng] : List Part) ⊆ L)
    (hgood : OnlyChanges L s0 s) : OnlyChanges L s0 (deliverWrite r ok who s) := by
  unfold deliverWrite
  try dsimp only
  repeat' first
    | with_reducible assumption
    | with_reducible apply only_vectorWritten
    | with_reducible apply only_journalFailed
    | with_reducible apply only_groupFailed
    | with_reducible apply only_streamWriteDone
    | with_reducible apply only_descBackDone
    | with_reducible apply only_maskWriteDone
    | with_reducible apply only_setMem
    | (with_reducible refine List.Subset.trans ?_ hL; decide)
    | with_reducible apply only_ite
    | split

theorem only_deliverWrites {L : List Part} {s0 s : State} (r : MemReq) (ok : Bool) (hL : ([.health, .evt, .mem, .sweep, .strm, .pond, .queues, .rng] : List Part) ⊆ L)
    (hgood : OnlyChanges L s0 s) : OnlyChanges L s0 (deliverWrites r ok s) := by
  unfold deliverWrites
  try dsimp only
  repeat' first
    | with_reducible assumption
    | with_reducible apply only_deliverWrite
    | (with_reducible refine List.Subset.trans ?_ hL; decide)
    | intro _ _ _
    | with_reducible apply only_foldl

theorem only_countGrant {L : List Part} {s0 s : State} (ch : BitVec 5) (r : MemReq) (hL : ([.mem] : List Part) ⊆ L)
    (hgood : OnlyChanges L s0 s) : OnlyChanges L s0 (countGrant ch r s) := by
  unfold countGrant
  try dsimp only
  repeat' first
    | with_reducible assumption
    | with_reducible apply only_setMem
    | (with_reducible refine List.Subset.trans ?_ hL; decide)
    | with_reducible apply only_ite
    | split

theorem only_writeAccepted {L : List Part} {s0 s : State} (r : MemReq) (hL : ([.mem] : List Part) ⊆ L)
    (hgood : OnlyChanges L s0 s) : OnlyChanges L s0 (writeAccepted r s) := by
  unfold writeAccepted
  try dsimp only
  repeat' first
    | with_reducible assumption
    | with_reducible apply only_confirmIssue
    | (with_reducible refine List.Subset.trans ?_ hL; decide)
    | intro _ _ _
    | with_reducible apply only_foldl

theorem only_grantRequest {L : List Part} {s0 s : State} (ch : BitVec 5) (tag : BitVec 10) (i : Nat) (w : Waiting) (hL : ([.mem] : List Part) ⊆ L)
    (hgood : OnlyChanges L s0 s) : OnlyChanges L s0 (grantRequest ch tag i w s) := by
  unfold grantRequest
  try dsimp only
  repeat' first
    | with_reducible assumption
    | with_reducible apply only_writeAccepted
    | with_reducible apply only_countGrant
    | with_reducible apply only_setMem
    | (with_reducible refine List.Subset.trans ?_ hL; decide)
    | with_reducible apply only_ite
    | split

theorem only_grantReplay {L : List Part} {s0 s : State} (f : Flight) (hL : ([.mem] : List Part) ⊆ L)
    (hgood : OnlyChanges L s0 s) : OnlyChanges L s0 (grantReplay f s) := by
  unfold grantReplay
  try dsimp only
  repeat' first
    | with_reducible assumption
    | with_reducible apply only_writeAccepted
    | with_reducible apply only_setMem
    | with_reducible apply only_countMp
    | (with_reducible refine List.Subset.trans ?_ hL; decide)
    | with_reducible apply only_ite
    | split

theorem only_windowCatchUp {L : List Part} {s0 s : State}  (hL : ([.health, .mem] : List Part) ⊆ L)
    (hgood : OnlyChanges L s0 s) : OnlyChanges L s0 (windowCatchUp s) := by
  unfold windowCatchUp
  try dsimp only
  repeat' first
    | with_reducible assumption
    | with_reducible apply only_applyPlan
    | with_reducible apply only_applyMp
    | with_reducible apply only_windowEnd
    | (with_reducible refine List.Subset.trans ?_ hL; decide)
    | with_reducible apply only_ite
    | split

theorem only_arbiterGrant {L : List Part} {s0 s : State} (ch : BitVec 5) (write : Bool) (tag : BitVec 10) (hL : ([.health, .mem] : List Part) ⊆ L)
    (hgood : OnlyChanges L s0 s) : OnlyChanges L s0 (arbiterGrant ch write tag s) := by
  unfold arbiterGrant
  try dsimp only
  repeat' first
    | with_reducible assumption
    | with_reducible apply only_windowCatchUp
    | with_reducible apply only_grantReplay
    | with_reducible apply only_grantRequest
    | with_reducible apply only_setMem
    | (with_reducible refine List.Subset.trans ?_ hL; decide)
    | with_reducible apply only_ite
    | split

theorem only_dropFlight {L : List Part} {s0 s : State} (f : Flight) (hL : ([.mem] : List Part) ⊆ L)
    (hgood : OnlyChanges L s0 s) : OnlyChanges L s0 (dropFlight f s) := by
  unfold dropFlight
  try dsimp only
  repeat' first
    | with_reducible assumption
    | with_reducible apply only_setMem
    | (with_reducible refine List.Subset.trans ?_ hL; decide)

theorem only_flightFailed {L : List Part} {s0 s : State} (f : Flight) (from' : Nat) (hL : ([.health, .evt, .mem, .image, .step, .ttab, .sweep, .tongue, .strm, .pond, .queues, .xch, .far, .rng, .freeCtr] : List Part) ⊆ L)
    (hgood : OnlyChanges L s0 s) : OnlyChanges L s0 (flightFailed f from' s) := by
  unfold flightFailed
  try dsimp only
  repeat' first
    | with_reducible assumption
    | with_reducible apply only_dropFlight
    | with_reducible apply only_deliverWrites
    | with_reducible apply only_deliverRead
    | with_reducible apply only_portFatal
    | with_reducible apply only_setMem
    | (with_reducible refine List.Subset.trans ?_ hL; decide)
    | with_reducible apply only_ite
    | split

theorem only_memReadReturn {L : List Part} {s0 s : State} (f : Flight) (data : Line) (par : BitVec 66) (hL : ([.health, .evt, .mem, .image, .step, .ttab, .sweep, .tongue, .strm, .pond, .queues, .xch, .far, .rng, .freeCtr] : List Part) ⊆ L)
    (hgood : OnlyChanges L s0 s) : OnlyChanges L s0 (memReadReturn f data par s) := by
  unfold memReadReturn
  try dsimp only
  repeat' first
    | with_reducible assumption
    | with_reducible apply only_flightFailed
    | with_reducible apply only_dropFlight
    | with_reducible apply only_deliverRead
    | with_reducible apply only_setMem
    | with_reducible apply only_countSweep
    | (with_reducible refine List.Subset.trans ?_ hL; decide)
    | with_reducible apply only_ite
    | split

theorem only_takeEarly {L : List Part} {s0 s : State} (who : Who) (hL : ([.health, .evt, .mem, .image, .step, .ttab, .sweep, .tongue, .strm, .pond, .queues, .xch, .far, .freeCtr] : List Part) ⊆ L)
    (hgood : OnlyChanges L s0 s) : OnlyChanges L s0 (takeEarly who s) := by
  unfold takeEarly
  try dsimp only
  repeat' first
    | with_reducible assumption
    | with_reducible apply only_deliverRead
    | with_reducible apply only_setMem
    | (with_reducible refine List.Subset.trans ?_ hL; decide)
    | intro _ _ _
    | with_reducible apply only_foldl

theorem only_voidConfirm {L : List Part} {s0 s : State} (who : Who) (hL : ([.mem] : List Part) ⊆ L)
    (hgood : OnlyChanges L s0 s) : OnlyChanges L s0 (voidConfirm who s) := by
  unfold voidConfirm
  try dsimp only
  repeat' first
    | with_reducible assumption
    | with_reducible apply only_setMem
    | with_reducible apply only_countMp
    | (with_reducible refine List.Subset.trans ?_ hL; decide)
    | with_reducible apply only_ite
    | split

theorem only_memNak {L : List Part} {s0 s : State} (f : Flight) (tag : BitVec 10) (par : BitVec 2) (hL : ([.health, .evt, .mem, .image, .step, .ttab, .sweep, .tongue, .strm, .pond, .queues, .xch, .far, .rng, .freeCtr] : List Part) ⊆ L)
    (hgood : OnlyChanges L s0 s) : OnlyChanges L s0 (memNak f tag par s) := by
  unfold memNak
  try dsimp only
  repeat' first
    | with_reducible assumption
    | with_reducible apply only_voidConfirm
    | with_reducible apply only_flightFailed
    | with_reducible apply only_dropFlight
    | with_reducible apply only_nakTag
    | (with_reducible refine List.Subset.trans ?_ hL; decide)
    | intro _ _ _
    | with_reducible apply only_foldl
    | with_reducible apply only_ite
    | split

theorem only_memSettled {L : List Part} {s0 s : State} (f : Flight) (hL : ([.health, .evt, .mem, .stack, .image, .step, .ttab, .sweep, .tongue, .strm, .pond, .queues, .xch, .far, .rng, .freeCtr] : List Part) ⊆ L)
    (hgood : OnlyChanges L s0 s) : OnlyChanges L s0 (memSettled f s) := by
  unfold memSettled
  try dsimp only
  repeat' first
    | with_reducible assumption
    | with_reducible apply only_takeEarly
    | with_reducible apply only_dropFlight
    | with_reducible apply only_deliverWrites
    | with_reducible apply only_setSweep
    | with_reducible apply only_setMem
    | (with_reducible refine List.Subset.trans ?_ hL; decide)
    | intro _ _ _
    | with_reducible apply only_foldl
    | with_reducible apply only_ite
    | split
    | with_reducible apply only_set_stack
    | (with_reducible refine only_in hL ?_; decide)

theorem only_nakCycleEnd {L : List Part} {s0 s : State} (kind : NakKind) (port : BitVec 5) (tag : BitVec 12) (hL : ([.health, .evt, .mem, .stack, .image, .step, .ttab, .sweep, .tongue, .strm, .pond, .queues, .xch, .far, .rng, .freeCtr] : List Part) ⊆ L)
    (hgood : OnlyChanges L s0 s) : OnlyChanges L s0 (nakCycleEnd kind port tag s) := by
  unfold nakCycleEnd
  try dsimp only
  repeat' first
    | with_reducible assumption
    | with_reducible apply only_memSettled
    | with_reducible apply only_dropHostOut
    | (with_reducible refine List.Subset.trans ?_ hL; decide)
    | with_reducible apply only_ite
    | split

theorem only_wcbTimeout {L : List Part} {s0 s : State} (line : BitVec 34) (hL : ([.mem] : List Part) ⊆ L)
    (hgood : OnlyChanges L s0 s) : OnlyChanges L s0 (wcbTimeout line s) := by
  unfold wcbTimeout
  try dsimp only
  repeat' first
    | with_reducible assumption
    | with_reducible apply only_wcbFlush
    | (with_reducible refine List.Subset.trans ?_ hL; decide)
    | with_reducible apply only_ite
    | split

theorem only_tadpoleAge {L : List Part} {s0 s : State} (ch : BitVec 5) (hL : ([.mem] : List Part) ⊆ L)
    (hgood : OnlyChanges L s0 s) : OnlyChanges L s0 (tadpoleAge ch s) := by
  unfold tadpoleAge
  try dsimp only
  repeat' first
    | with_reducible assumption
    | with_reducible apply only_setMem
    | (with_reducible refine List.Subset.trans ?_ hL; decide)
    | with_reducible apply only_ite
    | split

end Sys2Proof.Machine
end

