-- ==== Sys2Proof/Laws/OnlyPorts.lean ====
section
/-! SUPPORT. Which parts of the state each operation of Machine/Ports.lean may change (Laws/Only.lean). -/
namespace Sys2Proof.Machine

-- the proofs below are one script for many operations, of which each uses its own part
set_option linter.unusedTactic false
set_option linter.unreachableTactic false

theorem only_FarAct.run {L : List Part} {s0 s : State} (a : FarAct) (hL : ([.image, .strm, .xch] : List Part) ⊆ L)
    (hgood : OnlyChanges L s0 s) : OnlyChanges L s0 (FarAct.run a s) := by
  unfold FarAct.run
  try dsimp only
  repeat' first
    | with_reducible assumption
    | with_reducible apply only_setImage
    | with_reducible apply only_setTask
    | with_reducible apply only_setXch
    | (with_reducible refine List.Subset.trans ?_ hL; decide)
    | with_reducible apply only_ite
    | split
    | with_reducible apply only_set_strm
    | (with_reducible refine only_in hL ?_; decide)

theorem only_farBurstGrant {L : List Part} {s0 s : State} (write : Bool) (tags : List (BitVec 12)) (hL : ([.image, .strm, .xch, .far] : List Part) ⊆ L)
    (hgood : OnlyChanges L s0 s) : OnlyChanges L s0 (farBurstGrant write tags s) := by
  unfold farBurstGrant
  try dsimp only
  repeat' first
    | with_reducible assumption
    | with_reducible apply only_FarAct.run
    | with_reducible apply only_farSend
    | (with_reducible refine List.Subset.trans ?_ hL; decide)
    | intro _ _ _
    | with_reducible apply only_foldl
    | with_reducible apply only_ite
    | split
    | with_reducible apply only_set_far
    | (with_reducible refine only_in hL ?_; decide)

theorem only_deliverFar {L : List Part} {s0 s : State} (r : FarReq) (data : Option Line) (code : BitVec 8) (hL : ([.health, .evt, .mem, .image, .strm, .pond, .queues, .xch, .far] : List Part) ⊆ L)
    (hgood : OnlyChanges L s0 s) : OnlyChanges L s0 (deliverFar r data code s) := by
  unfold deliverFar
  try dsimp only
  repeat' first
    | with_reducible assumption
    | with_reducible apply only_imageLine
    | with_reducible apply only_streamWriteDone
    | with_reducible apply only_streamReadDone
    | with_reducible apply only_readbackDone
    | with_reducible apply only_copyBackDone
    | with_reducible apply only_copyAck
    | with_reducible apply only_creditDone
    | with_reducible apply only_recordAck
    | with_reducible apply only_xchFault
    | with_reducible apply only_setXch
    | (with_reducible refine List.Subset.trans ?_ hL; decide)
    | with_reducible apply only_ite
    | split

theorem only_setFar {L : List Part} {s0 s : State} (f : FarPort → FarPort) (hL : ([.far] : List Part) ⊆ L)
    (hgood : OnlyChanges L s0 s) : OnlyChanges L s0 (setFar f s) := by
  unfold setFar
  try dsimp only
  repeat' first
    | with_reducible assumption
    | with_reducible apply only_set_far
    | (with_reducible refine only_in hL ?_; decide)

theorem only_farDrop {L : List Part} {s0 s : State} (r : FarReq) (hL : ([.far] : List Part) ⊆ L)
    (hgood : OnlyChanges L s0 s) : OnlyChanges L s0 (farDrop r s) := by
  unfold farDrop
  try dsimp only
  repeat' first
    | with_reducible assumption
    | with_reducible apply only_setFar
    | (with_reducible refine List.Subset.trans ?_ hL; decide)

theorem only_farModify {L : List Part} {s0 s : State} (r : FarReq) (g : FarReq → FarReq) (hL : ([.far] : List Part) ⊆ L)
    (hgood : OnlyChanges L s0 s) : OnlyChanges L s0 (farModify r g s) := by
  unfold farModify
  try dsimp only
  repeat' first
    | with_reducible assumption
    | with_reducible apply only_setFar
    | (with_reducible refine List.Subset.trans ?_ hL; decide)
    | with_reducible apply only_ite
    | split

theorem only_farFatal {L : List Part} {s0 s : State} (r : FarReq) (hL : ([.health, .evt, .mem, .image, .strm, .pond, .queues, .xch, .far] : List Part) ⊆ L)
    (hgood : OnlyChanges L s0 s) : OnlyChanges L s0 (farFatal r s) := by
  unfold farFatal
  try dsimp only
  repeat' first
    | with_reducible assumption
    | with_reducible apply only_farDrop
    | with_reducible apply only_deliverFar
    | with_reducible apply only_countPort
    | (with_reducible refine List.Subset.trans ?_ hL; decide)

theorem only_farLate {L : List Part} {s0 s : State} (write : Bool) (tag : BitVec 12) (hL : ([.far] : List Part) ⊆ L)
    (hgood : OnlyChanges L s0 s) : OnlyChanges L s0 (farLate write tag s) := by
  unfold farLate
  try dsimp only
  repeat' first
    | with_reducible assumption
    | with_reducible apply only_setFar
    | with_reducible apply only_countPort
    | (with_reducible refine List.Subset.trans ?_ hL; decide)

theorem only_farResponse {L : List Part} {s0 s : State} (write : Bool) (tag : BitVec 12) (resp : BitVec 2) (data : Line) (good : Bool) (hL : ([.health, .evt, .mem, .image, .strm, .pond, .queues, .xch, .far] : List Part) ⊆ L)
    (hgood : OnlyChanges L s0 s) : OnlyChanges L s0 (farResponse write tag resp data good s) := by
  unfold farResponse
  try dsimp only
  repeat' first
    | with_reducible assumption
    | with_reducible apply only_farLate
    | with_reducible apply only_farFatal
    | with_reducible apply only_farModify
    | with_reducible apply only_farDrop
    | with_reducible apply only_setFar
    | with_reducible apply only_deliverFar
    | with_reducible apply only_countPort
    | (with_reducible refine List.Subset.trans ?_ hL; decide)
    | with_reducible apply only_ite
    | split

theorem only_farNak {L : List Part} {s0 s : State} (r : FarReq) (tag : BitVec 12) (par : BitVec 2) (hL : ([.health, .evt, .mem, .image, .strm, .pond, .queues, .xch, .far] : List Part) ⊆ L)
    (hgood : OnlyChanges L s0 s) : OnlyChanges L s0 (farNak r tag par s) := by
  unfold farNak
  try dsimp only
  repeat' first
    | with_reducible assumption
    | with_reducible apply only_farFatal
    | with_reducible apply only_farModify
    | with_reducible apply only_setFar
    | with_reducible apply only_nakTag
    | with_reducible apply only_countPort
    | (with_reducible refine List.Subset.trans ?_ hL; decide)
    | with_reducible apply only_ite
    | split

theorem only_farTimeout {L : List Part} {s0 s : State} (r : FarReq) (hL : ([.health, .evt, .mem, .image, .strm, .pond, .queues, .xch, .far] : List Part) ⊆ L)
    (hgood : OnlyChanges L s0 s) : OnlyChanges L s0 (farTimeout r s) := by
  unfold farTimeout
  try dsimp only
  repeat' first
    | with_reducible assumption
    | with_reducible apply only_farDrop
    | with_reducible apply only_setFar
    | with_reducible apply only_deliverFar
    | with_reducible apply only_countPort
    | (with_reducible refine List.Subset.trans ?_ hL; decide)

theorem only_padsGiven {L : List Part} {s0 s : State} (r : Nat) (hs : List (BitVec 16)) (hL : ([.health, .mem, .sweep, .strm, .pond, .xch] : List Part) ⊆ L)
    (hgood : OnlyChanges L s0 s) : OnlyChanges L s0 (padsGiven r hs s) := by
  unfold padsGiven
  try dsimp only
  repeat' first
    | with_reducible assumption
    | with_reducible apply only_fetchGranted
    | with_reducible apply only_addPiece
    | with_reducible apply only_startChunk
    | with_reducible apply only_assembleAll
    | with_reducible apply only_lagStart
    | with_reducible apply only_setXch
    | (with_reducible refine List.Subset.trans ?_ hL; decide)
    | with_reducible apply only_ite
    | split

theorem only_allocTurn {L : List Part} {s1 : State} (s0 : State) (r : Nat)
    (a : List (BitVec 11) × Nat × Nat × State) (hL : ([.health, .mem, .sweep, .strm, .pond, .xch] : List Part) ⊆ L) (hgood : OnlyChanges L s1 a.2.2.2) :
    ∀ x ∈ allocTurn s0 r a, OnlyChanges L s1 x.2.2.2 := by
  obtain ⟨picks, reqs, pads, s⟩ := a
  intro x hx
  unfold allocTurn at hx
  dsimp only at hx
  have hc : OnlyChanges L s1 (if grantAllowed s0 r ((padAsk s0 r).getD 0) then countStrm 10 1 s else s) := by
    split
    · exact only_countStrm _ _ (List.Subset.trans (by decide) hL) hgood
    · exact hgood
  split at hx
  · simp only [Option.mem_def, Option.some.injEq] at hx; subst hx; exact hgood
  · rename_i k hk
    simp only [hk, Option.getD_some] at hc
    split at hx
    · simp only [Option.mem_def, Option.some.injEq] at hx; subst hx; exact hgood
    · split at hx
      · simp only [Option.mem_def, Option.some.injEq] at hx; subst hx; exact hc
      · split at hx
        · exact absurd hx (by simp)
        · simp only [Option.map_eq_some_iff, Option.mem_def] at hx
          obtain ⟨⟨hs, u⟩, hu, rfl⟩ := hx
          exact only_padsGiven _ _ (List.Subset.trans (by decide) hL)
            (only_takePads _ _ _ (List.Subset.trans (by decide) hL) hgood (hs, u) hu)

theorem only_pondAllocate {L : List Part} {s0 s : State} (picks : List (BitVec 11)) (hL : ([.health, .mem, .sweep, .strm, .pond, .xch] : List Part) ⊆ L)
    (hgood : OnlyChanges L s0 s) : OnlyChanges L s0 (pondAllocate picks s) := by
  have step : ∀ (l : List Nat) (a : Option (List (BitVec 11) × Nat × Nat × State)), (∀ x ∈ a, OnlyChanges L s0 x.2.2.2) →
      ∀ x ∈ l.foldl (fun a r => a.bind (allocTurn s r)) a, OnlyChanges L s0 x.2.2.2 := by
    intro l
    induction l with
    | nil => intro a ha; exact ha
    | cons r l ih =>
      intro a ha
      refine ih _ ?_
      intro x hx
      cases a with
      | none => simp at hx
      | some a => exact only_allocTurn _ _ _ (List.Subset.trans (by decide) hL) (ha a rfl) x hx
  unfold pondAllocate
  dsimp only
  split
  · exact hgood
  · split
    · rename_i t ht
      exact only_set_pond (only_in hL (by decide)) (step _ (some (picks, 0, 0, s))
        (by intro x hx; simp only [Option.mem_def, Option.some.injEq] at hx; subst hx; exact hgood) _ ht)
    · exact hgood

theorem only_pondStall {L : List Part} {s0 s : State}  (hL : ([.health, .evt, .mem, .strm, .pond, .queues] : List Part) ⊆ L)
    (hgood : OnlyChanges L s0 s) : OnlyChanges L s0 (pondStall s) := by
  unfold pondStall
  try dsimp only
  repeat' first
    | with_reducible assumption
    | with_reducible apply only_abortTask
    | with_reducible apply only_report
    | with_reducible apply only_countStrm
    | (with_reducible refine List.Subset.trans ?_ hL; decide)
    | with_reducible apply only_ite
    | split
    | with_reducible apply only_set_strm_pond
    | (with_reducible refine only_in hL ?_; decide)

theorem only_eventEmit {L : List Part} {s0 s : State}  (hL : ([.evt] : List Part) ⊆ L)
    (hgood : OnlyChanges L s0 s) : OnlyChanges L s0 (eventEmit s) := by
  unfold eventEmit
  try dsimp only
  repeat' first
    | with_reducible assumption
    | with_reducible apply only_ite
    | split
    | with_reducible apply only_set_evt
    | (with_reducible refine only_in hL ?_; decide)

end Sys2Proof.Machine
end

