-- ==== Sys2Proof/Laws/OnlyTick.lean ====
section
/-! SUPPORT. Which parts of the state each operation of Machine/Tick.lean may change (Laws/Only.lean). -/
namespace Sys2Proof.Machine

-- the proofs below are one script for many operations, of which each uses its own part
set_option linter.unusedTactic false
set_option linter.unreachableTactic false

theorem only_windowEntry {L : List Part} {s0 s : State}  (hL : ([.mem] : List Part) ⊆ L)
    (hgood : OnlyChanges L s0 s) : OnlyChanges L s0 (windowEntry s) := by
  unfold windowEntry
  try dsimp only
  repeat' first
    | with_reducible assumption
    | with_reducible apply only_setMem
    | (with_reducible refine List.Subset.trans ?_ hL; decide)
    | with_reducible apply only_ite
    | split

theorem only_tickMem {L : List Part} {s0 s : State}  (hL : ([.health, .mem] : List Part) ⊆ L)
    (hgood : OnlyChanges L s0 s) : OnlyChanges L s0 (tickMem s) := by
  unfold tickMem
  try dsimp only
  repeat' first
    | with_reducible assumption
    | with_reducible apply only_windowEntry
    | with_reducible apply only_windowCatchUp
    | with_reducible apply only_setMem
    | with_reducible apply only_countMp
    | (with_reducible refine List.Subset.trans ?_ hL; decide)
    | with_reducible apply only_ite
    | split

theorem only_tickEvents {L : List Part} {s0 s : State}  (hL : ([.far] : List Part) ⊆ L)
    (hgood : OnlyChanges L s0 s) : OnlyChanges L s0 (tickEvents s) := by
  unfold tickEvents
  try dsimp only
  repeat' first
    | with_reducible assumption
    | with_reducible apply only_countPort
    | (with_reducible refine List.Subset.trans ?_ hL; decide)
    | with_reducible apply only_ite
    | split

theorem only_fabCycle {L : List Part} {s0 s : State}  (hL : ([.clk, .health, .evt, .mem, .sweep, .fab, .strm, .pond, .rng] : List Part) ⊆ L)
    (hgood : OnlyChanges L s0 s) : OnlyChanges L s0 (fabCycle s) := by
  unfold fabCycle
  try dsimp only
  repeat' first
    | with_reducible assumption
    | with_reducible apply only_chainCycle
    | (with_reducible refine only_chainCycle_eq ?_ ‹_› ?_)
    | with_reducible apply only_prepareCycle
    | with_reducible apply only_maskBeat
    | with_reducible apply only_countFab
    | (with_reducible refine List.Subset.trans ?_ hL; decide)
    | with_reducible apply only_ite
    | split
    | with_reducible apply only_set_clk
    | (with_reducible refine only_in hL ?_; decide)

theorem only_tickFab {L : List Part} {s0 s : State}  (hL : ([.clk, .health, .evt, .mem, .sweep, .fab, .strm, .pond, .rng] : List Part) ⊆ L)
    (hgood : OnlyChanges L s0 s) : OnlyChanges L s0 (tickFab s) := by
  unfold tickFab
  try dsimp only
  repeat' first
    | with_reducible assumption
    | with_reducible apply only_fabCycle
    | (with_reducible refine List.Subset.trans ?_ hL; decide)
    | intro _ _ _
    | with_reducible apply only_foldl
    | with_reducible apply only_set_clk
    | (with_reducible refine only_in hL ?_; decide)

theorem only_tickPower {L : List Part} {s0 s : State}  (hL : ([.power] : List Part) ⊆ L)
    (hgood : OnlyChanges L s0 s) : OnlyChanges L s0 (tickPower s) := by
  unfold tickPower
  try dsimp only
  repeat' first
    | with_reducible assumption
    | with_reducible apply only_wakeBegin
    | with_reducible apply only_setPower
    | (with_reducible refine List.Subset.trans ?_ hL; decide)
    | with_reducible apply only_ite
    | split

theorem only_tickPond {L : List Part} {s0 s : State}  (hL : ([.strm, .pond] : List Part) ⊆ L)
    (hgood : OnlyChanges L s0 s) : OnlyChanges L s0 (tickPond s) := by
  unfold tickPond
  try dsimp only
  repeat' first
    | with_reducible assumption
    | with_reducible apply only_ite
    | split
    | with_reducible apply only_set_pond
    | with_reducible apply only_set_strm_pond
    | (with_reducible refine only_in hL ?_; decide)

theorem only_stagedDue {L : List Part} {s0 s : State}  (hL : ([.health, .evt, .mem, .stepk, .swp, .tongue, .memb, .verdict, .hier, .strm, .pond, .xch, .far, .east, .west, .ring, .fmp] : List Part) ⊆ L)
    (hgood : OnlyChanges L s0 s) : OnlyChanges L s0 (stagedDue s) := by
  unfold stagedDue
  try dsimp only
  repeat' first
    | with_reducible assumption
    | with_reducible apply only_applyStaged
    | (with_reducible refine List.Subset.trans ?_ hL; decide)
    | intro _ _ _
    | with_reducible apply only_foldl
    | with_reducible apply only_ite
    | split

theorem only_tick {L : List Part} {s0 s : State}  (hL : ([.clk, .power, .health, .evt, .kst, .mem, .step, .stepk, .aux, .swp, .sweep, .fab, .tongue, .memb, .verdict, .hier, .strm, .pond, .xch, .far, .rng, .east, .west, .ring, .fmp] : List Part) ⊆ L)
    (hgood : OnlyChanges L s0 s) : OnlyChanges L s0 (tick s) := by
  unfold tick
  try dsimp only
  repeat' first
    | with_reducible assumption
    | with_reducible apply only_stagedDue
    | with_reducible apply only_tickPond
    | with_reducible apply only_tickPower
    | with_reducible apply only_tickFab
    | with_reducible apply only_tickEvents
    | with_reducible apply only_tickMem
    | with_reducible apply only_recoverDue
    | with_reducible apply only_kstNext
    | with_reducible apply only_linksReturn
    | (with_reducible refine List.Subset.trans ?_ hL; decide)
    | with_reducible apply only_ite
    | split
    | with_reducible apply only_set_clk
    | (with_reducible refine only_in hL ?_; decide)

end Sys2Proof.Machine
end

