-- ==== Sys2Proof/WellFormed.lean ====
section
/-! DEFINITION. Which commands the table can mean: a row that stands for one action of a register carries
that action's bit, a row that stands for one kind of message carries that kind's code. exec is total all
the same: a command that is not well formed is run by the register or the message it spells. -/
namespace Sys2Proof

/-- OP of VAULT_OP and LEASE_OP (R235, R494). -/
def opIs (w : Word) (op : BitVec 3) : Bool := w.extractLsb' 0 3 == op

/-- TYPE of a hierarchy message (R218). -/
def typeIs (m : Line) (t : BitVec 8) : Bool := m.extractLsb' 16 8 == t

/-- CODE of a verdict record (R37). -/
def codeIs (m : Line) (c : BitVec 8) : Bool := m.extractLsb' 24 8 == c

/-- The command is one that its row of the table names. -/
def Instr.wellFormed (i : Instr) : Bool :=
  match i with
  | .sealPulse => true
  | .stepCtlSeal w => w.getLsbD 0
  | .normPassDone => true
  | .abortReq => true
  | .stepCtlAbort w => w.getLsbD 1
  | .stepCtlLoadStep w => w.getLsbD 2
  | .stepCtlClearHalt w => w.getLsbD 3
  | .tongueArm w => w.getLsbD 0
  | .armClearDone => true
  | .hostReadRequest _ _ _ _ => true
  | .hostWriteRequest _ _ _ _ _ _ => true
  | .hostWriteCompletion _ _ => true
  | .hostReturnNak _ _ _ => true
  | .hostCompletionNak _ _ _ => true
  | .arbiterGrant _ _ _ => true
  | .memoryReadReturn _ _ _ _ => true
  | .memoryReadNak _ _ _ => true
  | .memoryWriteNak _ _ _ => true
  | .nakCycleEnd _ _ _ => true
  | .wcbTimeout _ => true
  | .tadpoleAgeLimit _ => true
  | .regulatorWindowBoundary => true
  | .thermalReport _ _ _ => true
  | .thermalStale => true
  | .throttleDutyWindow => true
  | .contrib _ m => typeIs m 1
  | .sum _ m => typeIs m 2
  | .skipNotice _ m => typeIs m 3
  | .holdNotice _ m => typeIs m 4
  | .abortNotice _ m => typeIs m 5
  | .join _ m => typeIs m 6
  | .joinSum _ m => typeIs m 7
  | .epochOpen _ m => typeIs m 8
  | .contribTimeout => true
  | .joinTimeout => true
  | .verdictRecordGo _ m => codeIs m 1
  | .verdictRecordSkip _ m => codeIs m 2
  | .verdictRecordAbort _ m => codeIs m 3
  | .flashGo _ => true
  | .flashSkip _ => true
  | .flashHold _ => true
  | .flashAbort _ => true
  | .gateOpen => true
  | .leaseAcquire w => opIs w 1
  | .leaseRenew w => opIs w 2
  | .leaseRelease w => opIs w 3
  | .leaseRead w => opIs w 4
  | .membCommit w => w.getLsbD 0
  | .rootLsnWrite _ => true
  | .mapBuildDone => true
  | .fetchIssue => true
  | .tileEnterChain => true
  | .momentGroupHandover => true
  | .confirmReadReturn _ _ _ _ => true
  | .momentsConfirmed => true
  | .weightGroupHandover => true
  | .weightsConfirmed => true
  | .pass1Done => true
  | .sweepHalt => true
  | .marksLineWrite => true
  | .residueFault rank _ unit _ => decide (rank.toNat < 26) && ((unit == 3) == decide (24 ≤ rank.toNat))
  | .shedDrainDone => true
  | .codecMismatch _ => true
  | .genMismatch _ _ => true
  | .stepkCommit w => w.getLsbD 0
  | .swpCommit w => w.getLsbD 0
  | .stagedSetApply _ => true
  | .ttabLoad w => w.getLsbD 0
  | .tableLoadDone => true
  | .sweepResume w => w.getLsbD 1
  | .sweepRecover w => w.getLsbD 0
  | .fabShedWrite _ => true
  | .fabCntClear w => w.getLsbD 0
  | .emaStart w => w.getLsbD 0
  | .emaReseed w => w.getLsbD 1
  | .emaPassDone => true
  | .lscaleLoad w => w.getLsbD 40
  | .imgLoad w => w.getLsbD 0
  | .imageReadDone => true
  | .imageVerifyDone => true
  | .imgMolt w => w.getLsbD 1
  | .moltDone => true
  | .portPlanApply => true
  | .imgDiscard w => w.getLsbD 2
  | .chTailWrite _ _ => true
  | .descriptorFetchDone _ => true
  | .chStop _ w => w.getLsbD 0
  | .chCancel _ w => w.getLsbD 1
  | .chResume _ w => w.getLsbD 2
  | .chReset _ w => w.getLsbD 3
  | .streamBurstGrant _ => true
  | .farBurstGrant _ _ => true
  | .pieceWritesDone _ _ => true
  | .pqPop _ => true
  | .streamReadbackReturn _ _ => true
  | .descriptorWritebackDone _ => true
  | .padWatchdog _ => true
  | .pondStall => true
  | .prefetchUrgent => true
  | .deadlineMiss _ => true
  | .pondAllocate _ => true
  | .padFree _ _ => true
  | .pqFlush w => w.extractLsb' 0 16 != 0
  | .strmCommit w => w.getLsbD 0
  | .xchCommit w => w.getLsbD 0
  | .xchStart _ w => w.getLsbD 0
  | .xchStop _ w => w.getLsbD 1
  | .rebase _ w => w.getLsbD 2
  | .exportDone _ => true
  | .deltaStepEnd _ => true
  | .doorbellWrite _ => true
  | .creditRead _ => true
  | .farReadData _ _ _ _ => true
  | .farWriteResponse _ _ _ => true
  | .farRequestNak _ _ _ => true
  | .farTimeout _ _ => true
  | .maskStart w => w.getLsbD 0
  | .maskStop w => w.getLsbD 1
  | .maskFillDone => true
  | .reseedNow w => w.getLsbD 0
  | .reseedInterval => true
  | .reseed => true
  | .noiseRawBit _ => true
  | .conditionedBlock => true
  | .rngLaneWrite _ _ => true
  | .linkClockLock _ _ => true
  | .patternDone _ _ => true
  | .marginDone _ _ => true
  | .mapWord _ _ _ => true
  | .ident _ _ => true
  | .identityDone _ => true
  | .trainAttemptFailed _ => true
  | .linkRetrain _ w => w.getLsbD 0
  | .holdDownWrite _ _ => true
  | .xlSleepWrite _ _ => true
  | .xlTestWrite _ _ => true
  | .trainMarker _ => true
  | .runMarker _ => true
  | .verdictMarker _ => true
  | .sleepMarker _ => true
  | .forwardedClockLost _ => true
  | .frameReceive _ _ => true
  | .chameleonWord _ _ _ _ => true
  | .replayTimeout _ => true
  | .crcWindowEnd _ => true
  | .frameSlot _ => true
  | .linkState _ _ => true
  | .linkStateTimer => true
  | .downRetry _ => true
  | .wakeRequest _ => true
  | .testFlit _ _ => true
  | .fmpData _ => true
  | .fmpAck _ => true
  | .fmpResendTimeout _ _ => true
  | .eventEmit => true
  | .kstAck _ _ _ => true
  | .kstTimeout => true
  | .registerWrite _ _ _ => true
  | .pwrOkLow _ => true
  | .coldReset _ => true
  | .pllLock => true
  | .pllUnlock => true
  | .vaultInitDone => true
  | .sramSelftestDone _ => true
  | .warmReset _ => true
  | .gctlWarmReset w => w.getLsbD 0
  | .warmResetDrainDone => true
  | .linkReset w => w.getLsbD 1 || w.getLsbD 2
  | .fabricReset w => w.getLsbD 3
  | .fabricResetDone => true
  | .fabDivWrite _ => true
  | .fabDivApply => true
  | .powerWakeDone => true
  | .activeExit => true
  | .retainEntry => true
  | .retainWake => true
  | .vaultKeygen w => opIs w 1
  | .vaultProgram w => opIs w 2
  | .vaultLock w => opIs w 3
  | .vaultRead w => opIs w 4
  | .vaultQuote w => opIs w 5
  | .quoteDone => true
  | .sramUe _ _ _ _ => true
  | .sramCe _ _ _ => true
  | .scrubInterval => true
  | .croakEccWindow => true
  | .croakCauseWrite w => w.extractLsb' 0 8 != 0
  | .errPop w => w.getLsbD 0
  | .snapTake w => w.getLsbD 0
  | .mpCommit w => w.getLsbD 0
  | .resetRelease _ => true
  | .forwardedClockDetected _ => true

end Sys2Proof
end

