-- ==== Sys2Proof/Tests/Slice0.lean ====
section
/-! SUPPORT. The model's own tests. Smoke tests of the well-formedness checks; for each statement with
hypotheses, states and operands that meet them (the theorems `wit_…`, one conjunct per clause); small checks of
single commands against values written out from the spec. -/
namespace Sys2Proof.Tests
open Sys2Proof.Machine

-- one theorem at a time: a kernel evaluation waits for all declarations before it
set_option Elab.async false

/-! ## States to test on -/

/-- Up and READY, in IDLE, with the gated units usable, 1,024 x 10 port cycles after PLL lock. -/
def up : State := { State.reset with
  clk := { port := 10240, pllLocked := true, fab := 100 }
  boot := { stage := .ready, code := 4, seenReady := true }
  power := { state := .active, usable := true }
  rng := { State.reset.rng with noise := .ok }
  step := { phase := .idle, step := 7 } }

def atPhase (p : Phase) (s : State) : State := { s with step := { s.step with phase := p } }

def job : HierJob :=
  { jobId := 1, jobInstances := 2, contribTimeout := 1000, joinTimeout := 1000, maxNorm := 0x3F800000, clipEps := 0
    lsInterval := 0, lsMin := 0, lsMax := 24, flags := 0 }

/-- A worker at ring position 1 of 2, its manager at 0 in the east. -/
def worker : HierInst :=
  { role := 0, ringPos := 1, managerPos := 0, ringSize := 2, contrib := 2, eastContrib := 1, westContrib := 1
    neighbours := 1, members := 3, childCount := 0, parent := 0, ringMembers := [1, 2], children := [] }

/-- The root, alone with one worker in its ring. -/
def rootInst : HierInst :=
  { role := 3, ringPos := 0, managerPos := 0, ringSize := 2, contrib := 1, eastContrib := 2, westContrib := 2
    neighbours := 1, members := 3, childCount := 0, parent := 0, ringMembers := [1, 2], children := [] }

def imgOf (h : Option HierInst) : Image :=
  { rule := {}, graphs := [], programs := [], placement := [], port := {}, hier := h.map fun i => (job, i)
    rng := { reseed := 1000 }, limits := { croakEcc := 2, croakThrottle := 1, deltaChannels := 4 }, digest := 0xABCD }

def withImage (h : Option HierInst) (s : State) : State := { s with image := { s.image with active := some (imgOf h) } }

/-- A pass with two tiles. -/
def pass (k : PassKind) : Pass :=
  { kind := k, seq := 1, step := 7, tiles := 2, consts := List.replicate 16 0, clip := 0, lsK := 0 }

def inPass (p : Pass) (s : State) : State :=
  { s with sweep := { s.sweep with pass := some p }
           step := { s.step with phase := if p.kind.isEma then .idle else if p.kind = .sweep then .sweep else .pass1 } }

/-- Odd parity of a bundle. -/
def parOf {m : Nat} (n : Nat) (b : BitVec m) : BitVec n :=
  (List.range n).foldl (fun (p : BitVec n) k =>
    if onesBelow (b.extractLsb' (8 * k) 8) 8 % 2 = 0 then p ||| ((1 : BitVec n) <<< k) else p) 0

/-! ## Witnesses: the memory path -/

def wr : MemReq := { who := .host 3 9, cls := .bulk, write := true, line := 5, mask := 3, data := 0xBEEF }
def rd : MemReq := { who := .host 3 9, cls := .critRd, write := false, line := 5 }

def flying (r : MemReq) (f : Flight → Flight := id) : State :=
  { up with mem := { up.mem with flights := [f { req := r, chan := 5, tag := 6, acc := 10239 }] } }

theorem wit_StackBytes : Memory.wf (flying wr).stack = true ∧
    flightOf (flying wr) 5 (BitVec.setWidth 10 (6 : BitVec 12)) true = some { req := wr, chan := 5, tag := 6, acc := 10239 } ∧
    10239 + 1 ≤ portNow (flying wr) := by decide +kernel

def hostOutAt (write : Bool) (fails : Nat := 0) : State :=
  { up with mem := { up.mem with hostOut := [{
    port := 3, tag := 9, write := write, err := false, line := 5, cls := .bulk, acc := 10239, fails := fails }] } }

theorem wit_NaksAndNakCycles :
    (flightOf (flying rd) 5 (BitVec.setWidth 10 (6 : BitVec 12)) false).isSome = true ∧
    ((hostOutAt false).mem.hostOut.find? (fun h => h.port == 3 && h.write == false && h.tag == 9 &&
      h.acc + 1 ≤ portNow (hostOutAt false))).isSome = true ∧
    ((hostOutAt true).mem.hostOut.find? (fun h => h.port == 3 && h.write == true && h.tag == 9 &&
      h.acc + 1 ≤ portNow (hostOutAt true))).isSome = true ∧
    ((hostNaked (hostOutAt false) 3 false).map (·.fails)) = some 0 ∧
    ((hostNaked (hostOutAt true) 3 true).map (·.fails)) = some 0 ∧
    ((hostNaked (hostOutAt false 2) 3 false).map fun h => (h.fails, h.err)) = some (2, false) ∧
    ((hostNaked (hostOutAt true 2) 3 true).map (·.fails)) = some 2 ∧
    (flightNaked (flying rd) 5 false).isSome = true ∧ (flightNaked (flying wr) 5 true).isSome = true := by
  decide +kernel

/-- Bits 39:6 of the address in bits 39:6 of the request. -/
def reqOf (line : BitVec 34) : BitVec 52 := (line.setWidth 52) <<< 6

/-- The plain read tags of a channel are all out, and a request of port 3 waits for one. -/
def tagless : State :=
  { up with mem := { up.mem with
      flights := (List.range 752).map fun i => { req := rd, chan := channelOf up 5, tag := BitVec.ofNat 10 i, acc := 10000 }
      waiting := [{ req := rd, since := 10000 }] } }

/-- All tags of a channel are out, and a write of port 3 waits for one. -/
def tagless' : State :=
  { up with mem := { up.mem with
      flights := (List.range 1024).map fun i => { req := wr, chan := channelOf up 5, tag := BitVec.ofNat 10 i, acc := 10000 }
      waiting := [{ req := wr, since := 10000 }] } }

theorem wit_HostPortNotReady : hostOpen tagless = true ∧ hostReady tagless 3 false = false ∧ hostOpen tagless' = true ∧
    hostReady tagless' 3 true = false := by decide +kernel

theorem wit_HostRequests : hostOpen up = true ∧ hostReady up 3 false = true ∧ hostReady up 3 true = true ∧
    parityOk (reqOf 5 ++ (9 : BitVec 12)) (parOf 8 (reqOf 5 ++ (9 : BitVec 12))) = true ∧
    parityOk ((0 : Line) ++ (0 : BitVec 64) ++ (reqOf 5 ++ (9 : BitVec 12)))
      (parOf 80 ((0 : Line) ++ (0 : BitVec 64) ++ (reqOf 5 ++ (9 : BitVec 12)))) = true ∧
    parityOk (reqOf 5 ++ (9 : BitVec 12)) (0 : BitVec 8) = false ∧
    parityOk ((0 : Line) ++ (0 : BitVec 64) ++ (reqOf 5 ++ (9 : BitVec 12))) (0 : BitVec 80) = false := by
  decide +kernel

theorem wit_AddressesBeyondTheStack : hostOpen up = true ∧
    up.mem.stackGib.toNat * 2 ^ 30 ≤ 64 * (hostLine (reqOf 0x80000000)).toNat ∧
    up.mem.stackGib.toNat * 2 ^ 30 = 64 * (hostLine (reqOf 0x80000000)).toNat ∧
    parityOk (reqOf 0x80000000 ++ (9 : BitVec 12)) (parOf 8 (reqOf 0x80000000 ++ (9 : BitVec 12))) = true ∧
    parityOk ((0 : Line) ++ (0 : BitVec 64) ++ (reqOf 0x80000000 ++ (9 : BitVec 12)))
      (parOf 80 ((0 : Line) ++ (0 : BitVec 64) ++ (reqOf 0x80000000 ++ (9 : BitVec 12)))) = true := by decide +kernel

def dueDone (c : MemClass) : State :=
  { up with mem := { up.mem with hostDone := [{
    port := 3, tag := 9, err := false, cls := c, line := 0, mask := BitVec.allOnes 64, data := 0 }] } }

/-- One tensor of 1,024 FP32 gradients from address 0, its granule map built. -/
def oneTensor (s : State) : State :=
  { s with
    ttab := { s.ttab with loaded := true, recs := [{ valid := true, elems := 1024, gfmt := 0, m1fmt := 1, m2fmt := 1, wfmt := 2 }] }
    swp := { s.swp with valid := true }
    tongue := { s.tongue with map := .valid, claims := [(0, 1, 0)], armed := true } }

def gradDone : State := atPhase .observe (oneTensor (withImage none (dueDone .finalGrad)))

theorem wit_WriteCompletionReachesTongue : hostOpen gradDone = true ∧ working gradDone = true ∧
    (gradDone.mem.hostDone.find? (fun d => d.port == 3 && d.tag == 9)).isSome = true ∧
    (lineOwner gradDone 0).isSome = true := by decide +kernel

def waits (rs : List MemReq) (port : Nat := 10240) : State :=
  { up with clk := { up.clk with port := port }, mem := { up.mem with window := 10, waiting := rs.map fun r => { req := r, since := 10000 } } }

def ctlRead : MemReq := controlRead (.table 0) 5

/-- A replay that is due, in the window of now. -/
def replaying : State :=
  let s := flying wr fun f => { f with replay := some 10240, fails := 1 }
  { s with mem := { s.mem with window := 10 } }

theorem wit_Arbitration : running (waits [rd]) = true ∧ portNow (waits [rd]) < 1024 * ((waits [rd]).mem.window + 1) ∧
    (waits [rd]).mem.granted.contains (5, false) = false ∧ running replaying = true ∧
    portNow replaying < 1024 * (replaying.mem.window + 1) ∧ replaying.mem.granted.contains (5, true) = false ∧
    (replayDue replaying 5 true).isSome = true ∧ portNow (waits [rd] 10241) < 1024 * ((waits [rd] 10241).mem.window + 1) ∧
    1024 * ((waits [rd] 11264).mem.window + 1) ≤ portNow (waits [rd] 11264) ∧
    portNow (waits [rd] 11264) < 1024 * ((waits [rd] 11264).mem.window + 2) ∧
    replayDue (waits [ctlRead]) 5 false = none ∧ controlSlot (waits [ctlRead]) 5 false = true ∧
    ((candidates (waits [ctlRead]) 5 false 1).find? (fun x => x.2.req.control)).isSome = true ∧
    controlSlot (waits [wr, rd] 10241) 5 false = false ∧ (waits [rd] 10241).mem.regulated = false ∧
    (((candidates (waits [rd] 10241) 5 false 1).filter fun x => !x.2.req.control).find?
      (fun x => x.2.req.cls == .critRd)).isSome = true := by decide +kernel

def tileAt' (o : Nat) (st : TileStage) : TileSt :=
  { ord := o, tensor := 0, tile := o, count := 1024, cls := .ordinary, stage := st, pads := [], seq := 1, cset := false
    variant := 0, missing := 0 }

def gline : GroupLine := { line := 5, mask := BitVec.allOnes 64, data := 0xBEEF, cmp := BitVec.allOnes 64 }

def confirming : State :=
  let s := inPass { pass .sweep with inflight := [{ tileAt' 0 .moments with group := [gline] }] } up
  { s with mem := { s.mem with flights := [{
    req := { who := .confirm 0 0 false, cls := .sweep, confirm := true, write := false, line := 5 }
    chan := 5, tag := 6, acc := 10200 }] } }

def par66 (tag : BitVec 10) (d : Line) : BitVec 66 := parOf 66 (d ++ (tag.setWidth 16 : BitVec 16) : BitVec 528)

theorem wit_ReadReturns : (flightOf (flying rd) 5 6 false).isSome = true ∧
    parityOk ((0xBEEF : Line) ++ ((6 : BitVec 10).setWidth 16 : BitVec 16) : BitVec 528) (par66 6 0xBEEF) = true ∧
    parityOk ((0xBEEF : Line) ++ ((6 : BitVec 10).setWidth 16 : BitVec 16) : BitVec 528) (0 : BitVec 66) = false ∧
    (flightOf confirming 5 6 false).isSome = true ∧ (groupLineOf confirming 0 0 false).isSome = true ∧
    confirmEarly confirming { who := .confirm 0 0 false, cls := .sweep, confirm := true, write := false, line := 5 } = false ∧
    confirmOk confirming 0 gline 0xBEEF = true ∧ confirmOk confirming 0 gline 0xBEE0 = false ∧ gline.misses = 0 ∧
    confirmOk confirming 0 { gline with misses := 1 } 0xBEE0 = false := by decide +kernel

def merging : State :=
  { up with mem := { up.mem with wcb := [{ line := 5, cls := .sweep, mask := 3, data := 9, opened := 10224, whos := [.dropped] }] } }

theorem wit_MemoryTimers : running merging = true ∧ (merging.mem.wcb.find? (·.line == 5)).isSome = true ∧
    10224 + 16 ≤ portNow merging ∧ portNow { merging with clk := { merging.clk with port := 10239 } } < 10224 + 16 ∧
    1024 * (up.mem.window + 1) ≤ portNow up := by decide +kernel

theorem wit_ThermalReports : reportGood up 60 95 (parOf 2 ((95 : BitVec 8) ++ (60 : BitVec 8))) = true ∧
    reportGood up 60 95 0 = false ∧
    ({ up with clk := { up.clk with port := 1600000 } } : State).mem.thermal.lastGood + 480000 ≤
      now { up with clk := { up.clk with port := 1600000 } } := by decide +kernel

/-! ## Witnesses: resets, clocks, power, the vault, the random unit -/

def settingOff : State := { up with boot := { up.boot with rstWarmN := false } }

theorem wit_ColdResetAndStartUp :
    (let s : State := State.reset
     s.boot.pwrOk = true ∧ s.boot.rstColdN = true ∧ s.boot.rstWarmN = true ∧ s.clk.pllLocked = false ∧ s.kst = {}) ∧
    up.clk.pllLocked = true ∧
    (let s : State := { up with boot := { stage := .vault } }
     portOpen s = true ∧ s.boot.stage = .vault ∧ s.kst.cur = none ∧ s.kst.todo = [] ∧ s.vault.blocksDue = 0 ∧ s.boot.warm = false) ∧
    (let s : State := { up with boot := { stage := .vault, warm := true } }
     portOpen s = true ∧ s.kst.cur = none ∧ s.kst.todo = [] ∧ s.vault.blocksDue = 0 ∧ s.boot.warm = true) ∧
    (let s : State := { up with boot := { stage := .sram } }
     portOpen s = true ∧ s.boot.stage = .sram) := by decide +kernel

def draining : State := { up with boot := { up.boot with stage := .drain } }

theorem wit_WarmResetAndRelease : running up = true ∧ up.boot.seenReady = true ∧ ready up = true ∧
    (let w : Word := 0x5752000000000001
     (field w 0 4 : BitVec 4) = 1 ∧ (field w 48 16 : BitVec 16) = 0x5752 ∧ (field w 10 2 : BitVec 2) ≠ 3) ∧
    running draining = true ∧ draining.boot.stage = .drain ∧ memDrained draining = true ∧ up.boot.stage ≠ .waitLock := by
  decide +kernel

theorem wit_PartialResets : ready up = true ∧
    (let w : Word := 8
     (field w 0 4 : BitVec 4) = 8 ∧ (field w 10 2 : BitVec 2) ≠ 3 ∧ fabricBusyPhase up = false ∧
       up.boot.fabricReset = false ∧ up.fab.draining = false) ∧
    (let s : State := { up with boot := { up.boot with fabricReset := true, fabricUntil := some 100 } }
     ready s = true ∧ s.boot.fabricUntil = some 100 ∧ 100 ≤ s.clk.fab) ∧
    (let s := withImage (some { worker with neighbours := 3 }) up
     let w : Word := 2
     let v : Word := 4
     ready s = true ∧ (field w 0 4 : BitVec 4) = 2 ∧ (field w 10 2 : BitVec 2) ≠ 3 ∧ s.boot.linkResetE = false ∧
       expected s .east = true ∧ s.east.holdDown = false ∧ (field v 0 4 : BitVec 4) = 4 ∧
       (field v 10 2 : BitVec 2) ≠ 3 ∧ s.boot.linkResetW = false ∧ expected s .west = true ∧ s.west.holdDown = false) := by
  decide +kernel

theorem wit_ClockAndPower : ready up = true ∧
    (let w : Word := 0x400
     (field w 0 4 : BitVec 4) = 0 ∧ (field w 10 2 : BitVec 2) ≠ 3 ∧ up.clk.divUntil = none ∧
       up.clk.fabDiv ≠ field w 10 2 ∧ fabStopped up = true ∧ fabStopped { up with fab := { up.fab with draining := true } } = false) ∧
    (let s : State := { up with clk := { up.clk with divUntil := some (3000, 1) } }
     ready s = true ∧ s.clk.divUntil = some (3000, 1) ∧ 3000 ≤ now s) ∧
    (let s : State := { up with clk := { up.clk with divPending := true } }
     s.clk.divUntil = none ∧ s.clk.divPending = true ∧ fabStopped s = true) ∧
    (let s : State := { up with power := { up.power with forceActive := true } }
     ready s = true ∧ s.power.forceActive = true ∧ s.power.usable = true) ∧
    (let s : State := { up with power := { up.power with forceActive := true, usable := false, wakeFrom := some 2232 } }
     s.power.usable = false ∧ s.power.wakeFrom.getD (now s) + 840 ≤ now s ∧
       now { s with clk := { s.clk with port := 10236 } } < s.power.wakeFrom.getD (now s) + 840) ∧
    (let s : State := { up with power := { up.power with usable := false, wakeFrom := some 2232 } }
     ready s = true ∧ activeCause s = false ∧ s.power.forceActive = false ∧ s.power.wakeFrom = some 2232 ∧ 2232 + 840 ≤ now s) ∧
    (let s : State := { up with clk := { up.clk with port := 32000 } }
     ready s = true ∧ s.power.state = .active ∧ activeCause s = false ∧ s.power.forceActive = false ∧
       s.power.lastCause + 9600 ≤ now s) ∧
    (let s : State := { up with power := { state := .idle, retainBit := true, retainSince := some 2000 } }
     ready s = true ∧ s.power.retainSince = some 2000 ∧ retainOk s = true ∧ 2000 + s.power.retainHold ≤ now s) ∧
    (let s : State := { up with power := { state := .retain, wakeDue := true } }
     ready s = true ∧ s.power.state = .retain ∧ s.power.wakeDue = true) := by decide +kernel

def vaulted (v : Vault) : State := { up with vault := v }
def liveVault : Vault := { state := .ok, chainBytes := 4, certs := 1 }
def kstAt (u : KstUse) (op : Option VaultOp) : State :=
  { up with kst := { cur := some ({ we := false, addr := 0x102, wdata := 0, use := u }, 5000) }
            vault := { liveVault with run := op } }

theorem wit_VaultAndKeyStore :
    Applies (vaulted {}) ∧
    (let w : Word := 7
     vaultRefusal (vaulted liveVault) (fieldNat w 0 3) (fieldNat w 8 12) = some 8) ∧
    (let w : Word := 1
     vaultRefusal (vaulted { state := .blank }) (fieldNat w 0 3) (fieldNat w 8 12) = none ∧ fieldNat w 0 3 = 1) ∧
    Applies (vaulted liveVault) ∧ (vaulted liveVault).kst.cur = none ∧ (vaulted liveVault).kst.todo = [] ∧
    (vaulted liveVault).kst.restAt ≤ portNow (vaulted liveVault) ∧
    (let w : Word := 0x1234567800010002
     vaultRefusal (vaulted liveVault) (fieldNat w 0 3) (fieldNat w 8 12) = none ∧ fieldNat w 0 3 = 2) ∧
    (let w : Word := 3
     vaultRefusal (vaulted liveVault) (fieldNat w 0 3) (fieldNat w 8 12) = none ∧ fieldNat w 0 3 = 3) ∧
    (let w : Word := 4
     vaultRefusal (vaulted liveVault) (fieldNat w 0 3) (fieldNat w 8 12) = none ∧ fieldNat w 0 3 = 4) ∧
    (let w : Word := 5
     vaultRefusal (vaulted liveVault) (fieldNat w 0 3) (fieldNat w 8 12) = none ∧ fieldNat w 0 3 = 5 ∧
       (quoteCapture { vaulted liveVault with vault := { (vaulted liveVault).vault with
          run := some .quote, err := 0, opAddr := field w 8 12, blocksDue := 1, blocks := []
          out := List.replicate 46 0 } }).isSome = true) ∧
    parityOk ((0 : BitVec 8) ++ (7 : BitVec 32)) (parOf 5 ((0 : BitVec 8) ++ (7 : BitVec 32))) = true ∧
    parityOk ((0 : BitVec 8) ++ (7 : BitVec 32)) (0 : BitVec 5) = false ∧
    (kstAt .read (some .read)).kst.todo = [] ∧ (kstAt .read (some .read)).vault.run = some .read ∧
    (kstAt .program (some .program)).vault.run = some .program ∧ (kstAt .lock (some .lock)).vault.run = some .lock ∧
    (kstAt .init none).kst.repeated = false ∧
    (5000 + kstBound { we := false, addr := 0x102, wdata := 0, use := .read } ≤
      now { kstAt .init none with clk := { up.clk with port := 200000 } }) ∧
    (let s := vaulted { liveVault with run := some .quote }
     ready s = true ∧ s.vault.run = some .quote ∧ s.vault.blocksDue = 0) := by decide +kernel

def maskReady (m : MaskRegs) (run : Option MaskFill) : State :=
  withImage none { up with rng := { up.rng with mask := { up.rng.mask with regs := m, run := run } } }

def maskRegs : MaskRegs := { count := 512 }

theorem wit_FillsAndReseeds :
    Applies (maskReady maskRegs none) ∧ maskErr (maskReady maskRegs none) 1 = 0 ∧
    maskErr (maskReady { maskRegs with count := 0 } none) 1 ≠ 0 ∧
    (let s := maskReady maskRegs (some { regs := maskRegs })
     Applies s ∧ s.rng.mask.run = some { regs := maskRegs } ∧ maskOut s = false ∧
       maskOut { s with mem := { s.mem with waiting := [{ req := { wr with who := .mask 0 }, since := 0 }] } } = true) ∧
    (let f : MaskFill := { regs := maskRegs, made := 512 }
     let s := maskReady maskRegs (some f)
     ready s = true ∧ s.rng.mask.run = some f ∧ f.made = f.regs.count.toNat ∧ f.part = [] ∧ maskOut s = false) ∧
    (let s := withImage none up
     ready s = true ∧ (s.image.active = some (imgOf none)) ∧ 0 < (imgOf none).rng.reseed.toNat ∧
       s.rng.reseedFrom + (imgOf none).rng.reseed.toNat ≤ now s) ∧
    (let s : State := { up with rng := { up.rng with noise := .ok, reseedDue := true, blocks := List.replicate 22 3 } }
     sourcesRun s = true ∧ s.rng.reseedDue = true ∧ s.rng.blocks.length = 22 ∧ freshRuns s = false ∧ s.rng.noise ≠ .failed) := by
  decide +kernel

theorem wit_NoiseSource :
    (let s : State := { up with rng := { up.rng with
       noise := .ok, rep := some (true, 1), apt := some (true, 1, 1), raw := [true], nextBit := 3000 } }
     sourcesRun s = true ∧ s.rng.nextBit ≤ now s ∧ s.rng.noise = .ok ∧ s.rng.rep = some (true, 1) ∧
       s.rng.apt = some (true, 1, 1) ∧ s.rng.raw.length < 1023) ∧
    (let s : State := { up with rng := { up.rng with noise := .ok, ready := [List.replicate 1024 true] }, fmp := { up.fmp with sessionDue := false } }
     s.rng.ready = [List.replicate 1024 true] ∧ sourcesRun s = true ∧ s.rng.noise ≠ .failed ∧ s.fmp.sessionDue = false ∧
       s.vault.blocksDue = 0 ∧ s.rng.blocks.length < 22 ∧ 0 < ({ s.vault with blocksDue := 1 } : Vault).blocksDue) := by
  decide +kernel

theorem wit_LaneWrites : Applies up ∧ freshRuns up = false ∧ up.rng.lanes[(127 : BitVec 7).toNat]? = some 1 ∧
    freshRuns (maskReady { maskRegs with fresh := true } (some { regs := { maskRegs with fresh := true } })) = true ∧
    Applies (maskReady { maskRegs with fresh := true } (some { regs := { maskRegs with fresh := true } })) := by decide +kernel

/-! ## Witnesses: the control port, health, the step -/

theorem wit_RegisterWrites : portOpen up = true ∧
    (let a : Addr24 := 0x0C0100
     let w : Word := 0x5A
     parityOk (ctlBundle a w) (parOf 12 (ctlBundle a w)) = true ∧ parityOk (ctlBundle a w) (0 : BitVec 12) = false ∧
       (readReg up (portAddr a)).isSome = true ∧ portAddr a = 0x0C0100 ∧ fatalWritable (portAddr 0x000020) w = false) ∧
    (let a : Addr24 := 0x0FF000
     let w : Word := 0x5A
     parityOk (ctlBundle a w) (parOf 12 (ctlBundle a w)) = true ∧ readReg up (portAddr a) = none) ∧
    (readReg up (portAddr 0x000020)).isSome = true ∧ up.boot.stage = .ready ∧ up.health.fatal = false ∧
    up.power.state ≠ .retain ∧ portOpen { up with health := { up.health with fatal := true } } = true := by decide +kernel

theorem wit_StepCtlChecks : Applies up ∧
    (let w : Word := 0x0000000700000000
     fieldNat w 0 4 = 0) ∧
    (let w : Word := 0x0000000700000003
     1 < popCount (field w 0 4 : BitVec 4)) ∧
    (let w : Word := 0x0000000900000004
     fieldNat w 0 4 = 4 ∧ up.step.phase = .idle) ∧
    (let w : Word := 0x0000000800000008
     fieldNat w 0 4 = 8 ∧ (field w 32 32 : BitVec 32) ≠ up.step.step) := by decide +kernel

theorem wit_EventsLogSnapshot :
    (let s : State := { up with evt := { queue := [(3000, 2)], waiting := [(3001, 4)], last := none } }
     ready s = true ∧ s.evt.queue = [(3000, 2)] ∧ eventReady s 2 = true ∧ 3000 ≤ now s) ∧
    ready up = true ∧ up.power.state ≠ .retain ∧ Applies up ∧ (1 : Word).getLsbD 0 = true ∧ (0 : Word).getLsbD 0 = false := by
  decide +kernel

/-- The clock at a port cycle. -/
def atPort (n : Nat) (s : State) : State := { s with clk := { s.clk with port := n } }
def changeImage (f : Image → Image) (s : State) : State :=
  { s with image := { s.image with active := s.image.active.map f } }
def lim (e : BitVec 32) : State :=
  changeImage (fun im => { im with limits := { im.limits with croakEcc := e } }) (withImage none up)

theorem wit_SramHealth : arraysLive up = true ∧ up.health.cnt.length = 6 ∧
    (let s : State := { up with health := { up.health with ceAt := now up, ceFound := [(3, 5)] } }
     s.health.ceAt = now s ∧ (3, 5) ∈ s.health.ceFound ∧ (3, 6) ∉ s.health.ceFound) ∧
    up.health.ceIndex = now up / eccWindow ∧ croakEccOf up = 0 ∧ arraysLive (lim 1) = true ∧
    croakEccOf (lim 1) ≠ 0 ∧ croakEccOf (lim 1) ≤ (lim 1).health.ceWindow + 1 ∧ running up = true ∧
    (let s := atPort 2000000000000000 up
     running s = true ∧ (s.health.scrubIndex + 1) * 2 ^ 35 ≤ now s ∧ s.health.ceIndex ≠ now s / 1728000000000 ∧
       (s.mem.thermal.dutyIndex + 1) * 41472000000000 ≤ now s ∧ croakThrottleOf s = 0) ∧
    croakThrottleOf (lim 1) * 138240000000000 < 138240000000000 * 65536 := by decide +kernel

/-- In OBSERVE with an open epoch, constants in effect for this step, and links running. -/
def observing : State :=
  let s := atPhase .observe (oneTensor (withImage (some worker) up))
  { s with memb := { s.memb with state := .opened, epoch := 3 }
           stepk := { s.stepk with valid := true, setStep := 7 }
           east := { s.east with txPhase := .run, rxPhase := .run } }

def sealWord : Word := 0x0000000700000001

theorem wit_Seals : Applies observing ∧ observing.step.phase = .observe ∧ observing.memb.state = .opened ∧
    observing.stepk.valid = true ∧ observing.stepk.setStep = observing.step.step ∧ fieldNat sealWord 0 4 = 1 ∧
    (field sealWord 32 32 : BitVec 32) = observing.step.step ∧ observing.east.txPhase = .run ∧ incomplete observing ≠ 0 ∧
    incomplete { observing with tongue := { observing.tongue with recs := [(0, { complete := true })] } } = 0 ∧
    Applies up ∧ up.step.phase ≠ .observe ∧ (field sealWord 32 32 : BitVec 32) = up.step.step ∧
    (let s : State := { observing with memb := { observing.memb with state := .joining } }
     Applies s ∧ s.step.phase = .observe ∧ s.memb.state ≠ .opened) ∧
    (let s : State := { observing with stepk := { observing.stepk with setStep := 6 } }
     Applies s ∧ s.memb.state = .opened ∧ s.stepk.setStep ≠ s.step.step) := by decide +kernel

def normRead : State := { atPhase .normPass observing with tongue := { observing.tongue with norm := some { todo := [] } } }

theorem wit_ArmsAndNormPass :
    (working normRead = true ∧ normRead.tongue.norm = some { todo := [] } ∧ normRead.verdict.holding = false) ∧
    (let s := { atPhase .idle observing with tongue := { observing.tongue with armed := false } }
     let w : Word := 0x0000000700000001
     Applies s ∧ w.getLsbD 0 = true ∧ armError s (field w 32 32) = 0 ∧ armError s (field (1 : Word) 32 32) ≠ 0) ∧
    (let s := { atPhase .idle observing with tongue := { observing.tongue with clearing := some (3000, true) } }
     working s = true ∧ 3000 ≤ now s ∧ s.step.phase = .idle) ∧
    (let s := { atPhase .sweep observing with tongue := { observing.tongue with clearing := some (3000, false) } }
     working s = true ∧ s.tongue.clearing = some (3000, false) ∧ s.step.phase = .sweep) := by decide +kernel

def sweeping (f : Pass → Pass := id) : State :=
  inPass (f (pass .sweep)) (oneTensor (withImage (some worker) up))

theorem wit_AbortAndClearHalt :
    (let w : Word := 0x0000000700000002
     Applies observing ∧ fieldNat w 0 4 = 2 ∧ (field w 32 32 : BitVec 32) = observing.step.step ∧
       observing.step.phase.beforeGate = true ∧ Applies sweeping ∧ sweeping.step.phase = .sweep ∧
       sweeping.sweep.pass = some (pass .sweep) ∧ (pass .sweep).halt = none ∧ abortable up = false ∧
       (field w 32 32 : BitVec 32) = up.step.step) ∧
    (let w : Word := 0x0000000700000008
     let s := atPhase .halted up
     Applies s ∧ fieldNat w 0 4 = 8 ∧ (field w 32 32 : BitVec 32) = s.step.step ∧ s.step.phase = .halted ∧
       up.step.phase ≠ .halted) := by decide +kernel

theorem wit_LoadsInIdle : Applies up ∧ up.step.phase = .idle ∧ Applies observing ∧ observing.step.phase ≠ .idle ∧
    (let w : Word := 0x0000000900000004
     fieldNat w 0 4 = 4) ∧
    (let w : Word := 0x0000010500000000
     w.getLsbD 40 = true ∧ (field w 32 6 : BitVec 6) ≤ 32) ∧
    (let s : State := { observing with memb := { observing.memb with stage := 4 } }
     (1 : Word).getLsbD 0 = true ∧ Applies s ∧ planOf s ≠ none ∧ s.memb.pending = none ∧ s.step.phase = .observe ∧
       s.memb.epoch.toNat < s.memb.stage.toNat) := by decide +kernel

/-- A GO applied, waiting for its gate. -/
def gateDue : State :=
  let s := atPhase .awaitVerdict observing
  { s with verdict := { s.verdict with gateDue := true } }

def firstDone : State := inPass { pass .pass1 with next := 2, tiles := 2 } (oneTensor (withImage (some worker) up))

theorem wit_PassesBegin :
    (working gateDue = true ∧ activeImage gateDue = some (imgOf (some worker)) ∧ gateDue.verdict.gateDue = true ∧
      gateClear gateDue = true ∧ firstPass (imgOf (some worker)) = none) ∧
    (working firstDone = true ∧ (activeImage firstDone).isSome = true ∧
      firstDone.sweep.pass = some { pass .pass1 with next := 2, tiles := 2 } ∧ validTensors firstDone ≠ []) ∧
    (let s := inPass { pass .pass1Factored with next := 2 } (oneTensor (withImage (some worker) up))
     working s = true ∧ s.sweep.pass = some { pass .pass1Factored with next := 2 }) ∧
    validTensors (inPass { pass .pass1 with next := 2 } (withImage (some worker) up)) = [] := by decide +kernel

def awaiting : State := atPhase .awaitVerdict observing
def aRecord (code : BitVec 8) : Line := mkRecordLine awaiting { code := code, clip := 0x3F800000, lsKNext := 5, lsK := 4 }

theorem wit_RecordsApplied : working awaiting = true ∧ awaiting.verdict.seen = none ∧ awaiting.verdict.ignored = [] ∧ awaiting.verdict.gateDue = false ∧
    awaiting.step.phase = .awaitVerdict ∧ awaiting.step.phase.beforeGate = true ∧
    (rejectCode awaiting (aRecord 1) = 0 ∧ recCode (aRecord 1) = 1) ∧
    (rejectCode awaiting (aRecord 2) = 0 ∧ recCode (aRecord 2) = 2) ∧
    (rejectCode awaiting (aRecord 3) = 0 ∧ recCode (aRecord 3) = 3) := by decide +kernel

theorem wit_RecordsRejected : working awaiting = true ∧
    (let m := mkRecordLine { awaiting with step := { awaiting.step with step := 8 } } { code := 1 }
     recStepOf m ≠ awaiting.step.step) ∧
    (let m := mkRecordLine { awaiting with verdict := { awaiting.verdict with attempt := 1 } } { code := 2 }
     recAttempt m ≠ awaiting.verdict.attempt) ∧
    (let m := mkRecordLine { awaiting with memb := { awaiting.memb with epoch := 4 } } { code := 3 }
     msgEpoch m ≠ awaiting.memb.epoch) ∧
    (let m := aRecord 1 ^^^ (1 : Line)
     rejectCode awaiting m = 4) := by decide +kernel

def inVerdict : State := { awaiting with east := { awaiting.east with rxPhase := .verdict } }

theorem wit_FlashesShow : working inVerdict = true ∧ (link inVerdict .east).rxPhase = .verdict ∧
    inVerdict.step.phase.beforeGate = true ∧ (link inVerdict .west).rxPhase ≠ .verdict := by decide +kernel

def leased (l : Lease) : State := { up with lease := { up.lease with all := up.lease.all.set 2 l } }

theorem wit_LeaseOperations :
    (let w : Word := 0x0009000100100201
     Applies up ∧ fieldNat w 0 3 = 1 ∧ fieldNat w 8 8 = 2 ∧ (field w 48 16 : BitVec 16) ≠ 0 ∧ fieldNat w 16 16 ≠ 0 ∧
       (up.lease.all.getD (fieldNat w 8 8) {}).owner = 0) ∧
    (let w : Word := 0x0009000100100202
     let s := leased { owner := 9, gen := 1, expiry := 70000 }
     Applies s ∧ fieldNat w 0 3 = 2 ∧ (s.lease.all.getD (fieldNat w 8 8) {}).owner = field w 48 16 ∧
       (s.lease.all.getD (fieldNat w 8 8) {}).gen = field w 32 16 ∧
       now s < (s.lease.all.getD (fieldNat w 8 8) {}).expiry.toNat ∧ (field w 48 16 : BitVec 16) ≠ 0) ∧
    (let w : Word := 0x0009000100100201
     let s := leased { owner := 8, gen := 1, expiry := 70000 }
     Applies s ∧ (s.lease.all.getD (fieldNat w 8 8) {}).owner ≠ 0 ∧ now s < (s.lease.all.getD (fieldNat w 8 8) {}).expiry.toNat) ∧
    fieldNat (0x0009000100100203 : Word) 0 3 = 3 ∧ fieldNat (0x0009000100100204 : Word) 0 3 = 4 := by decide +kernel

/-! ## Witnesses: the hierarchy -/

def manager : State :=
  { awaiting with image := (withImage (some rootInst) up).image }

/-- A message of the step from a contributor below the manager. -/
def belowOf (src : BitVec 16) (t : BitVec 8) : Line :=
  sealLine (putLine 0x00 magicHier ||| putLine 0x02 t ||| putLine 0x03 (1 : BitVec 8) ||| putLine 0x04 (7 : BitVec 32) |||
    putLine 0x08 (3 : BitVec 32) ||| putLine 0x0C (0xABCD : BitVec 32) ||| putLine 0x20 (1 : BitVec 32) |||
    putLine 0x24 src)

def below (t : BitVec 8) : Line := belowOf 2 t

/-- A manager of a ring, a node with child 5, and a root with child 5, with messages already in. -/
def ringHead (got joins : List Line) : State :=
  { manager with image := (withImage (some { rootInst with role := 1, parent := 7 }) up).image
                 hier := { manager.hier with got := got, joins := joins } }
def nodeHead (role : BitVec 8) (got joins : List Line) : State :=
  { manager with image := (withImage (some { rootInst with role := role, parent := 7, children := [(5, 0x55)] }) up).image
                 hier := { manager.hier with got := got, joins := joins } }

def tree : State := nodeHead 2 [] []

theorem wit_ManagerMessages : working manager = true ∧ isManager manager = true ∧
    (∀ t ∈ [1, 2, 3, 4, 5, 6, 7], msgFate manager (below t) = .accept ∧ msgType (below t) = t) ∧
    manager.hier.issued ≠ some (manager.step.step, manager.verdict.attempt) ∧ manager.verdict.holding = false ∧
    manager.memb.state ≠ .joining ∧ isRoot tree = false ∧ msgFate tree (below 5) = .accept ∧
    working awaiting = true ∧ isManager awaiting = false ∧
    msgFate manager (below 1 ^^^ (1 : Line)) = .discard ∧
    msgFate { manager with memb := { manager.memb with epoch := 2 } } (below 1) = .keep ∧
    msgFate { manager with hier := { manager.hier with got := [below 1] } } (below 1) = .dup ∧
    afterEarly { manager with hier := { manager.hier with got := [below 1] } } (below 1) = false ∧
    msgFate (changeImage (fun i => { i with digest := 5 }) manager) (below 1) = .hold 1 ∧
    afterEarly (changeImage (fun i => { i with digest := 5 }) manager) (below 1) = false ∧
    joinType (msgType (below 1)) = false := by decide +kernel

theorem wit_ContributionsSum : msgNonfin (below 1) = 0 ∧ msgOver (below 1) = false ∧
    (let s := ringHead [] []
     let u := Rules.Held .east (below 1) s
     working s = true ∧ isManager s = true ∧ msgFate s (below 1) = .accept ∧ allIn (membersOf s) (heldOf u 1) = false ∧
       isTreeNode s = false ∧ s.hier.sumSent = false ∧ s.verdict.holding = false) ∧
    (let s := ringHead [belowOf 1 1] []
     let u := Rules.Held .east (below 1) s
     msgFate s (below 1) = .accept ∧ allIn (membersOf s) (heldOf u 1) = true) ∧
    (let s := nodeHead 2 [belowOf 1 1] []
     let u := Rules.Held .east (below 1) s
     let x := mkSum u (heldOf u 1)
     msgFate s (below 1) = .accept ∧ isTreeNode s = true ∧ allIn (membersOf s) (heldOf u 1) = true ∧
       (heldOf u 2).any (fun y => msgSrc y == contribOf s) = false ∧ msgNonfin x = 0 ∧ msgOver x = false ∧
       allIn (childrenOf s) (heldOf { u with hier := { u.hier with got := u.hier.got ++ [x] } } 2) = false) ∧
    (∀ r ∈ [2, 3], let s := nodeHead r [belowOf 1 2] []
      let u := Rules.Held .fmp (belowOf 5 2) s
      msgFate s (belowOf 5 2) = .accept ∧ msgType (belowOf 5 2) = 2 ∧ isTreeNode s = true ∧ isRoot s = (r == 3) ∧
        jobOf s = some job ∧ s.hier.issued ≠ some (s.step.step, s.verdict.attempt) ∧
        (heldOf u 2).any (fun x => msgSrc x == contribOf s) = true ∧ allIn (childrenOf s) (heldOf u 2) = true) := by
  decide +kernel

theorem wit_JoinsCollect :
    (let s := ringHead [] []
     let u := Rules.Joined .east (below 6) s
     msgFate s (below 6) = .accept ∧ allIn (membersOf s) (joinsOf u 6) = false ∧ isTreeNode s = false) ∧
    (let s := ringHead [] [belowOf 1 6]
     let u := Rules.Joined .east (below 6) s
     msgFate s (below 6) = .accept ∧ allIn (membersOf s) (joinsOf u 6) = true ∧ s.hier.joinSumSent = false ∧ s.memb.hold = 0) ∧
    (let s := nodeHead 2 [] []
     let u := Rules.Joined .fmp (belowOf 5 7) s
     msgFate s (belowOf 5 7) = .accept ∧ msgType (belowOf 5 7) = 7 ∧ allIn (membersOf s) (joinsOf u 6) = false ∧
       allIn (childrenOf s) (joinsOf u 7) = false) ∧
    (∀ r ∈ [2, 3], let s := nodeHead r [] [belowOf 1 7]
      let u := Rules.Joined .fmp (belowOf 5 7) s
      msgFate s (belowOf 5 7) = .accept ∧ isTreeNode s = true ∧ isRoot s = (r == 3) ∧ s.hier.joinSumSent = false ∧
        s.memb.hold = 0 ∧ (joinsOf u 7).any (fun x => msgSrc x == contribOf s) = true ∧
        allIn (childrenOf s) (joinsOf u 7) = true) := by decide +kernel

theorem wit_NoticesAct : (∀ t ∈ [3, 4, 5], ∀ r ∈ [2, 3], let s := nodeHead r [] []
      working s = true ∧ isManager s = true ∧ msgFate s (below t) = .accept ∧ msgType (below t) = t ∧
        s.hier.issued ≠ some (s.step.step, s.verdict.attempt) ∧ s.hier.skipSent = false ∧ s.verdict.holding = false ∧
        isRoot s = (r == 3) ∧ jobOf s = some job ∧ s.memb.state ≠ .joining) ∧
    (let s := nodeHead 2 [] []
     msgFate { s with memb := { s.memb with state := .joining } } (below 4) = .accept) := by decide +kernel

def joiningNow : State := { observing with memb := { observing.memb with state := .joining } }

theorem wit_EpochsAndTimeouts : working joiningNow = true ∧ lineCrcOk (below 8) = true ∧ magicOf (below 8) = magicHier ∧
    msgEpoch (below 8) = joiningNow.memb.epoch ∧ joiningNow.memb.state = .joining ∧ joiningNow.evt.queue.length < 256 ∧
    lineCrcOk (below 8 ^^^ (1 : Line)) = false ∧
    (let s : State := { manager with hier := { manager.hier with since := some 1000 } }
     working s = true ∧ jobOf s = some job ∧ s.hier.since = some 1000 ∧ sumMissing s = true ∧
       1000 + job.contribTimeout.toNat ≤ now s) ∧
    jobOf joiningNow = some job ∧ joiningNow.memb.joinedAt + job.joinTimeout.toNat ≤ now joiningNow := by decide +kernel

/-! ## Witnesses: the sweep -/

def building (off : Nat) (two : Bool := false) : State :=
  let r : TensorRec := { valid := true, elems := 1024, gradOff := off, wfmt := 2 }
  let s := withImage none up
  { s with ttab := { s.ttab with loaded := true, recs := if two then [r, r] else [r] }
           tongue := { s.tongue with map := .building } }

def loadingTable (l : Line) : State :=
  let s := withImage none up
  { s with ttab := { s.ttab with loading := true, loadCount := 1, lines := [(0, l)] } }

theorem wit_TablesAndMaps :
    (working (building (2 ^ 34)) = true ∧ (building (2 ^ 34)).tongue.map = .building ∧
      ∃ c ∈ claims (building (2 ^ 34)), 131072 < c.1 + c.2.1) ∧
    (working (building 0) = true ∧ (∀ c ∈ claims (building 0), c.1 + c.2.1 ≤ 131072) ∧
      claimConflict [] (claims (building 0)) = none) ∧
    ((∀ c ∈ claims (building 0 true), c.1 + c.2.1 ≤ 131072) ∧
      claimConflict [] (claims (building 0 true)) ≠ none) ∧
    (let w : Word := 0x0000400000000001
     Applies up ∧ w.getLsbD 0 = true ∧ up.ttab.loading = false ∧ up.step.phase = .idle ∧
       (field w 32 15 : BitVec 15) ≠ 0 ∧ (field w 32 15 : BitVec 15).toNat ≤ 16384) ∧
    (working (loadingTable 0) = true ∧ (loadingTable 0).ttab.loading = true ∧
      (loadingTable 0).ttab.lines.length = (loadingTable 0).ttab.loadCount ∧
      tableErr (activeImage (loadingTable 0)) none 0 [parseRecord 0] = none) ∧
    (tableErr (activeImage (loadingTable 0)) none 0 [{ (parseRecord 0) with valid := true }]).isSome = true := by
  decide +kernel

/-- The updating pass with tile 0 next, its pads granted. -/
def fetching : State := sweeping fun p => { p with granted := some ((List.range 8).map fun n => (n, BitVec.ofNat 16 n)) }

def withTile (t : TileSt) (f : Pass → Pass := id) : State := sweeping fun p => f { p with next := 1, inflight := [t] }

/-- A pass whose preparer is past the tensor. -/
def ready1 (t : TileSt) (f : Pass → Pass := id) : Pass :=
  f { pass .sweep with next := 1, inflight := [t], prepNext := 1 }

theorem wit_TilesFetched :
    (∃ w, fetchWants fetching = some w ∧ w.length ≤ ((fetching.sweep.pass.bind (·.granted)).getD []).length) ∧
    nextFetch (fetching.sweep.pass.getD (pass .sweep)) = some (0, .ordinary, 0) ∧
    passTile fetching .sweep 0 = some (0, 0) ∧
    indexIn (fetching.sweep.pass.getD (pass .sweep)) (passRec .sweep (recOf fetching 0)) 0 = true ∧
    rampAllows (tileBeats fetching (tileGraph (imgOf (some worker)) (fetching.sweep.pass.getD (pass .sweep))
      (passRec .sweep (recOf fetching 0)) .ordinary) 1024) (fetching.clk.fab - 0) 0 = true ∧
    (passRec .sweep (recOf fetching 0)).sparse = false ∧
    (let x := tileAt' 0 .fetching
     let p := ready1 x
     let s := sweeping fun _ => p
     activeImage s = some (imgOf (some worker)) ∧ s.sweep.pass = some p ∧ passOpen s p = true ∧
       p.kind ≠ .pass1Factored ∧ nextTile p = some x ∧ beforeHalt p x.ord = true ∧ x.cls.passes = false ∧
       vectorsIn s (imgOf (some worker)) p x.tensor = true ∧ constsReady s (imgOf (some worker)) p x = true ∧
       bankReady s x = true ∧ switchDue p (recOf s x.tensor) = false) ∧
    (let x := tileAt' 0 .fetching
     let p := ready1 x fun p => { p with graph := 2 }
     let s := sweeping fun _ => p
     passOpen s p = true ∧ vectorsIn s (imgOf (some worker)) p x.tensor = true ∧
       constsReady s (imgOf (some worker)) p x = true ∧ switchDue p (recOf s x.tensor) = true ∧ p.switching = none ∧
       passOpen (sweeping fun _ => { p with switching := some 0 }) { p with switching := some 0 } = true) ∧
    (let x : TileSt := { tileAt' 0 .fetching with cls := .done }
     let p := ready1 x
     passOpen (sweeping fun _ => p) p = true ∧ nextTile p = some x ∧ x.cls.passes = true) := by decide +kernel

def small (st : TileStage) (f : TileSt → TileSt := id) : TileSt := f { tileAt' 0 st with count := 1 }

theorem wit_TilesCommitted :
    (let x := small .past
     let p : Pass := { pass .sweep with next := 1, inflight := [x] }
     let s := withTile x
     working s = true ∧ activeImage s = some (imgOf (some worker)) ∧ s.sweep.pass = some p ∧ commitTurn p = some x ∧
       p.kind ≠ .pass1 ∧ x.ord < p.wmark + 16 ∧ x.out.bad = false ∧ (recOf s x.tensor).sparse = false) ∧
    (let x := small .past fun t => { t with out := { t.out with bad := true } }
     let p : Pass := { pass .sweep with next := 1, inflight := [x] }
     let s := withTile x
     s.sweep.pass = some p ∧ commitTurn p = some x ∧ x.cls.passes = false ∧ x.out.bad = true ∧ p.halt = none) ∧
    (let x := small .past
     let p : Pass := { pass .pass1 with next := 1, inflight := [x] }
     let s := inPass p (oneTensor (withImage (some worker) up))
     working s = true ∧ s.sweep.pass = some p ∧ commitTurn p = some x) ∧
    (let x := small .moments
     let p : Pass := { pass .sweep with next := 1, inflight := [x] }
     (withTile x).sweep.pass = some p ∧ p.inflight.find? (fun t => t.stage == .moments && groupConfirmed t) = some x) ∧
    (let x := small .momentsOk
     let p : Pass := { pass .sweep with next := 1, inflight := [x], mmark := 1 }
     p.inflight.find? (·.stage == .momentsOk) = some x ∧ ((p.halt.map (·.fault.tears)).getD false) = false ∧
       x.ord < p.mmark) ∧
    (let x := small .weights
     let p : Pass := { pass .sweep with next := 1, inflight := [x], mmark := 1 }
     let s := withTile x fun p => { p with mmark := 1 }
     working s = true ∧ s.sweep.pass = some p ∧ s.mem.thermal.paused = false ∧ p.gateLeft = 0 ∧
       p.inflight.find? (fun t => t.stage == .weights && t.ord == p.wmark && groupConfirmed t) = some x ∧
       p.wmark + 1 < p.tiles ∧ activeImage s = some (imgOf (some worker)) ∧ (recOf s x.tensor).sparse = false) := by decide +kernel

def ended : State := sweeping fun p => { p with next := 2, wmark := 2, mmark := 2 }
def halting (f : JFault) (p : Pass) : Pass := { p with next := 1, halt := some { fault := f, pos := 0, ord := 0 } }

theorem wit_PassesEnd : working ended = true ∧ ended.mem.thermal.paused = false ∧
    ended.sweep.pass = some { pass .sweep with next := 2, wmark := 2, mmark := 2 } ∧
    working (sweeping (halting .codec)) = true ∧ (sweeping (halting .codec)).sweep.pass = some (halting .codec (pass .sweep)) ∧
    haltReached (halting .codec (pass .sweep)) { fault := .codec, pos := 0, ord := 0 } = true ∧
    (inPass (halting .nonfinite (pass .ema)) up).sweep.pass = some (halting .nonfinite (pass .ema)) ∧
    (pass .ema).kind.isEma = true ∧
    (let s : State := { sweeping with sweep := { sweeping.sweep with dirty := true, lastMarks := 10176 } }
     working s = true ∧ s.sweep.dirty = true ∧ s.sweep.lastMarks + 64 ≤ portNow s) := by decide +kernel

/-- A tile with beats in the chain. -/
def beating : TileSt := { tileAt' 0 .chain with beats := 8, beatsIn := 3 }

theorem wit_FabricFaults : working (withTile beating) = true ∧
    faultTile (withTile beating) (0 : BitVec 32).toNat = some beating ∧ beating.inChain = true ∧
    codecTile (withTile beating) (0 : BitVec 32).toNat = some beating ∧ (tileAt' 0 .chain).inChain = false ∧
    codecTile (withTile (tileAt' 0 .chain)) (0 : BitVec 32).toNat = some (tileAt' 0 .chain) ∧
    (codecTile (withTile { tileAt' 0 .chain with mismatches := 1 }) 0).isSome = true ∧
    (let s : State := { up with fab := { up.fab with draining := true, drainUntil := 100 } }
     working s = true ∧ s.fab.draining = true ∧ s.fab.drainUntil ≤ s.clk.fab) ∧
    (let s := maskReady maskRegs (some { regs := maskRegs })
     working s = true ∧ s.rng.mask.run = some { regs := maskRegs }) := by decide +kernel

def staged : State :=
  let s := withImage none up
  { s with stepk := { s.stepk with pending := some { words := List.replicate 8 0, forStep := 7, boundary := 3008 } }
           swp := { s.swp with pending := some (List.replicate 11 0, 3008) } }

theorem wit_CommitsAndBoundaries : Applies (withImage none up) ∧ (1 : Word).getLsbD 0 = true ∧
    activeImage (withImage none up) = some (imgOf none) ∧
    (withImage none up).stepk.pending = none ∧ stepkCheck (imgOf none) (stepkSlots (withImage none up).stepk.stage) = (0, 0) ∧
    (withImage none up).swp.pending = none ∧ (withImage none up).step.phase = .idle ∧
    swpCheck (withImage none up) (withImage none up).swp.stage = (0, 0) ∧ mpErr (withImage none up) = (0, 0) ∧
    ready staged = true ∧ activeImage staged = some (imgOf none) ∧ 3008 ≤ now staged ∧
    stepkCheck (imgOf none) (stepkSlots (List.replicate 8 0)) = (0, 0) ∧ swpCheck staged (List.replicate 11 0) = (0, 0) := by
  decide +kernel

/-- A halted step with its journal written: the marks line waits in the memory path. -/
def journalled (f : JFault) : State :=
  let s := atPhase .halted (oneTensor (withImage (some worker) up))
  writeMarks { s with sweep := { s.sweep with state := .halted, fault := f, jStep := 7, jTag := 0xABCD } }

def xch (k : Nat) (f : XChan → XChan) (s : State := up) : State :=
  { s with xch := { s.xch with chans := s.xch.chans.set k (f {}) } }

def anExport : XExport := { literal := [0], slices := [], total := 1 }

theorem wit_ResumeAndRecover : Applies (journalled .codec) ∧ activeImage (journalled .codec) = some (imgOf (some worker)) ∧
    (let w : Word := 0x0000000700000002
     w.getLsbD 1 = true ∧ w.getLsbD 0 = false ∧ resumeErr (journalled .codec) (field w 32 32) = 0 ∧
       resumeErr (journalled .port) (field w 32 32) ≠ 0) ∧
    (let w : Word := 0x0000000700000001
     w.getLsbD 0 = true ∧ w.getLsbD 1 = false ∧ w.getLsbD 2 = false ∧ recoverErr (journalled .port) (field w 32 32) = 0 ∧
       recoverErr (journalled .port) (field (1 : Word) 32 32) ≠ 0 ∧ (∀ c ∈ (journalled .port).xch.chans, c.job = none) ∧
       (let s := xch 5 (fun c => { c with state := .running, job := some anExport }) (journalled .port)
        Applies s ∧ activeImage s = some (imgOf (some worker)) ∧ recoverErr s (field w 32 32) = 0 ∧
          ∃ c ∈ s.xch.chans, c.job.isSome = true)) := by decide +kernel

def emaImage : Image :=
  { imgOf none with graphs := List.replicate 5 {} ++ [{ present := true }]
                    placement := [{ graph := 5, variant := 0, width := 0, latency := 0 }] }
def emaReady (valid : Bool) : State :=
  let s := oneTensor up
  { s with image := { s.image with active := some emaImage }, aux := { s.aux with valid := valid, emaStep := 6 } }

theorem wit_ShedsAndEma :
    (let w : Word := 0x6
     Applies sweeping ∧ (field w 0 26 : BitVec 26) ≠ 0 ∧ fabRunning sweeping = true ∧ Applies up ∧ fabRunning up = false ∧
       (field w 0 26 : BitVec 26) &&& ~~~(up.fab.sfuShed ++ up.fab.rankShed) ≠ 0) ∧ (1 : Word).getLsbD 0 = true ∧
    (let w : Word := 1
     activeImage (emaReady true) = some emaImage ∧ Applies (emaReady true) ∧ w.getLsbD 0 = true ∧ w.getLsbD 1 = false ∧
       emaErr (emaReady true) false false = 0 ∧ emaErr (emaReady false) false false ≠ 0) ∧
    (let w : Word := 2
     w.getLsbD 0 = false ∧ w.getLsbD 1 = true ∧ emaErr (emaReady false) true false = 0 ∧
       emaErr (withImage none up) true false ≠ 0) ∧
    (let p : Pass := { pass .ema with next := 2, wmark := 2, mmark := 2 }
     let s := inPass p (emaReady true)
     working s = true ∧ s.sweep.pass = some p ∧ p.kind.isEma = true ∧ p.halt = none ∧ p.tiles ≤ p.wmark) := by
  decide +kernel

/-! ## Witnesses: structure images -/

def imageLines : List (Nat × Line) :=
  [(0, 0x69cbae69000000000000000000000000000000000000000000000000000000000000000000000000000000000000000000000000000007800000080003015349),
   (1, 0xe5a366360000010000000480000000045ce95cc60000006800000400000000038c5ff7e9000000a80000034000000002aef9c089000002000000014000000001),
   (2, 0x10000000680000000fff59840d1000000400000064000000009d97c084000000040000006000000000874847e7c000000800000058000000005),
   (5, 0x3f80000000000000000000010000000000000000000000000000000100030001000100040000000000010000),
   (13, 0x1000100000000000000000101),
   (15, 0x1d080c1c00000000000000000000000000100000001000000000000000000000000000044505557),
   (16, 0x1000000000000),
   (17, 0x1804092ff0000000000000000000000000000000000000000000000000000000000000000000000),
   (18, 0x40000000c0000000140000030000000040000000c0000000140000020000000040000000c0000000140000010000000040000000c00000001400000000),
   (19, 0x40000000c0000000140000080000000040000000c0000000140000060000000040000000c0000000140000050000000040000000c00000001400000400),
   (20, 0x40000000c00000001400000900),
   (21, 0xb0b0b0b0b0b0b0b0b0b0b0b0b0b0b0b0b0b0b0b0b0b0b0b0b0b0b0b0b0b0b0b0b0b0b0b0b0b0b0b0b0b0b0b0b0b0b0b0b0b0b0b0b0b0b0b0b0b0b0b0b0b0b0b0),
   (22, 0x8000000000),
   (24, 0x1122334455667788),
   (25, 0x12c00000000000400040),
   (26, 0x2bfb50ae5b044596802e0f17a245cf62b6d6505dca0309f592dfa16c3b794f324fd472e0a239e6647efab3c2c7bb0f480000000000000000ad32ed8b00014753),
   (27, 0xc179653a4a08c36342ae3df5f4b4bc7c6c6239c8c09ce3e72545ddc89c71979c5f6e412989bd576f726c432428f11ab88f7fee2ad771d1401fbb381de52abe7e),
   (28, 0x9821fb740b26f00823757b4a4cd1dd9cd00cc4782f0d9efe8d84e334b41653ce9b8b0b4607153d35a147f7cc7d1ea0a790d10f308f697592cc44ae586a4b46f1),
   (29, 0xa33b9d034867660bb291e8b52daa17a6)]
def imageKey : List Word :=
  [0x628ee3cfbefee8f7, 0x9ad28d18cae7c348, 0x7fe89080dc0e3af3, 0xdb55e2d67b92681f, 0x582b5e2e9a527435, 0xdf13dd8767a50c0]

def verifying : State :=
  { up with vault := { up.vault with keyHash := imageKey }
            image := { up.image with shadow := .verifying, loadLen := 1920, loadLines := imageLines } }

def imageBytes : List Byte := loadedBytes verifying.image

theorem firstFailed_none : ∀ l : List (Bool × BitVec 8 × BitVec 16), l.all (·.1) = true → firstFailed l = none
  | [], _ => rfl
  | (true, _, _) :: l, h => firstFailed_none l (by simpa using h)
  | (false, _, _) :: _, h => by simp at h

set_option maxRecDepth 100000 in
theorem image_placement (h : ∀ g v b, Config.placementBodyOk g v b = true) (h' : ∀ g v k, Config.liveFits g v k = true) :
    placementOk (parseImage imageBytes).graphs (sectionOf imageBytes 4) = true := by
  unfold placementOk
  simp only [h, h', widestFits, placeFits]
  decide +kernel

set_option maxRecDepth 100000 in
/-- An image with a graph of one operation, built by R242 to R262 with ECDSA over its bytes, passes every check
of R269; the checks of the placement bodies, which are in the macro's own form, are the premises. -/
theorem wit_ImageVerified (h : ∀ g v b, Config.placementBodyOk g v b = true) (h' : ∀ g v k, Config.liveFits g v k = true) :
    working verifying = true ∧ verifying.image.shadow = .verifying ∧
    firstFailed (verifyChecks verifying verifying.image.loadLen (loadedBytes verifying.image)) = none := by
  refine ⟨by decide +kernel, by decide +kernel, firstFailed_none _ ?_⟩
  simp only [verifyChecks, List.all_append, List.all_cons, List.all_nil, Bool.and_true, Bool.and_eq_true]
  exact ⟨⟨⟨by decide +kernel, by decide +kernel, by decide +kernel, by decide +kernel⟩, by decide +kernel⟩,
    by decide +kernel, by decide +kernel, by decide +kernel, by decide +kernel, by decide +kernel, image_placement h h',
    by decide +kernel, by decide +kernel, by decide +kernel, by decide +kernel, by decide +kernel, by decide +kernel⟩

def loadable (n : BitVec 20) (sh : ShadowState) (f : ImageUnit → ImageUnit := id) : State :=
  { up with image := f { up.image with len := n, shadow := sh } }

theorem wit_ImageLoads :
    (let w : Word := 1
     Applies (loadable 1920 .loading) ∧ fieldNat w 0 3 = 1 ∧ (loadable 1920 .loading).image.shadow = .loading ∧
       Applies (loadable 960 .empty) ∧ ¬(960 % 64 = 0 ∧ 1024 ≤ 960 ∧ 960 ≤ 786432) ∧
       Applies (loadable 1920 .empty) ∧ (loadable 1920 .empty).image.shadow ≠ .loading ∧
       (loadable 1920 .empty).image.shadow ≠ .verifying ∧ (loadable 1920 .empty).image.molting = false ∧
       (loadable 1920 .empty).image.len.toNat = 1920 ∧ (loadable 1920 .empty).image.srcFar = false ∧
       field (loadable 1920 .empty).image.addr 34 24 = (0 : BitVec 24)) ∧
    fieldNat (4 : Word) 0 3 = 4 ∧
    (let s := loadable 1920 .loading fun u => { u with loadLen := 64, loadLines := [(0, 0)] }
     working s = true ∧ s.image.shadow = .loading ∧ s.image.loadFailed = false ∧
       s.image.loadLines.length * 64 = s.image.loadLen) ∧
    (let s := loadable 1920 .loading fun u => { u with loadFailed := true }
     working s = true ∧ s.image.loadFailed = true) ∧
    (let s := loadable 1920 .verifying fun u => { u with loadLen := 64, loadLines := [(0, 0)] }
     working s = true ∧ firstFailed (verifyChecks s s.image.loadLen (loadedBytes s.image)) = some (1, 0)) := by
  decide +kernel

def moltable : State := { up with image := { up.image with shadow := .verified, shadowImage := some (imgOf none) } }

theorem wit_Molts :
    (let w : Word := 0x0000ABCD00000002
     Applies moltable ∧ fieldNat w 0 3 = 2 ∧ moltable.image.shadowImage = some (imgOf none) ∧
       moltErr moltable (field w 32 32) = 0 ∧ moltErr moltable (field (2 : Word) 32 32) ≠ 0) ∧
    (let s := withImage none { up with mem := { up.mem with planDue := some 10240 } }
     ready s = true ∧ s.mem.planDue = some 10240 ∧ 10240 ≤ portNow s ∧ s.image.active = some (imgOf none)) ∧
    (let s : State := { up with image := { up.image with molting := true } }
     working s = true ∧ s.image.molting = true ∧ s.mem.planDue = none) := by decide +kernel

/-! ## Witnesses: streams, pond, queues -/

/-- A channel 2 with the given change, its ring of 8 descriptors at stack line 0x800. -/
def chan2 (f : StreamCh → StreamCh) (s : State := up) : State :=
  { s with strm := { s.strm with chans := s.strm.chans.set 2 (f {
      eff := { base := 0x100, enable := true }, state := .idle }) } }

/-- A descriptor of 128 bytes from stack byte 0x4000 to stack byte 0x8000, owned by the engine. -/
def aDesc : Line :=
  ((1 : Line) <<< 63) ||| putLine 0 (0x55 : BitVec 32) ||| putLine 8 (0x4000 : Word) ||| putLine 16 (0x8000 : Word) |||
  putLine 24 (128 : BitVec 32)

theorem wit_DescriptorFetch :
    (let s := chan2 id
     let w : Word := 8
     s.strm.chans.length = 16 ∧ Applies s ∧ 2 ^ (chan s 2).eff.sizeLog2.toNat ≤ fieldNat w 0 16) ∧
    (let s := chan2 id
     let c := chan s 2
     let w : Word := 3
     fieldNat w 0 16 < 2 ^ c.eff.sizeLog2.toNat ∧ c.state = .idle ∧ c.head < 2 ^ c.eff.sizeLog2.toNat ∧
       fieldNat w 0 16 ≠ c.head ∧ c.fetched = [] ∧ c.fetchDue = 0) ∧
    (let s := chan2 fun c => { c with state := .fetching, fetchFailed := true }
     working s = true ∧ (chan s 2).state = .fetching ∧ (chan s 2).fetchDue = 0 ∧ (chan s 2).fetchFailed = true) ∧
    (let s := chan2 fun c => { c with state := .fetching, tail := 1, fetchTail := 1, fetchGot := [(0, aDesc)] }
     let c := chan s 2
     working s = true ∧ c.fetchFailed = false ∧ c.fetched = [] ∧ c.head < 2 ^ c.eff.sizeLog2.toNat ∧
       c.fetchTail ≠ c.head ∧ c.fetchGot.find? (·.1 == c.head) = some (c.head, aDesc) ∧ descOwn aDesc = true ∧
       descChain aDesc = false ∧ chainFault s 2 [aDesc] = none ∧
       chainFault s 2 [aDesc ||| putLine 8 (1 : Word)] = some (1, 0) ∧
       descOwn (aDesc ||| putLine 8 (1 : Word)) = true) := by decide +kernel

def aPiece : Piece := { index := 0, start := 0, bytes := 128, handle := some 5 }
def aTask : Task := { descs := [aDesc], head := 0, seq := 1, written := [0], pieces := [aPiece], cut := 128, nextIndex := 1, progress := 0 }

theorem wit_ChannelControl :
    (let s := chan2 id
     Applies s ∧ s.strm.chans.length = 16 ∧ (chan s 2).state = .idle) ∧
    (let s := chan2 fun c => { c with state := .running, task := some aTask }
     Applies s ∧ (chan s 2).state = .running ∧ (chan s 2).task = some aTask ∧ allGranted aTask = false ∧
       taskInFlight aTask = 0 ∧ taskDstQueue aTask = none ∧ allGranted { aTask with stage := .writeback 0 } = true) ∧
    (let s := chan2 fun c => { c with state := .stopped, task := some aTask }
     Applies s ∧ (chan s 2).state = .stopped ∧ (chan s 2).task = some aTask ∧ taskThrough aTask = false ∧
       taskThrough { aTask with pieces := [] } = true) ∧
    (let s := chan2 fun c => { c with state := .faulted }
     Applies s ∧ (chan s 2).state = .faulted ∧ (chan s 2).head = (chan s 2).tail ∧
       (chan s 2).state ∉ [ChState.running, .stopping, .stopped]) ∧
    fieldNat (1 : Word) 0 4 = 1 ∧ fieldNat (2 : Word) 0 4 = 2 ∧ fieldNat (4 : Word) 0 4 = 4 ∧ fieldNat (8 : Word) 0 4 = 8 ∧
    1 < popCount (field (3 : Word) 0 4 : BitVec 4) := by decide +kernel

def running2 (t : Task) : State :=
  chan2 (fun c => { c with state := .running, task := some t })
    { up with pond := { up.pond with pads := up.pond.pads.set 5 { owner := ownerChan 2, requester := 3 } } }

def readIn : Piece := { aPiece with readNext := 2, readDone := 2 }

theorem wit_BurstsAndPieces :
    (let s := running2 aTask
     streamsGo s = true ∧ issueWrite .stackRead = false ∧ issueBusy s .stackRead = false ∧ s.strm.chans.length = 16 ∧
       pickChannel s .stackRead = some 2 ∧ (chan s 2).task = some aTask ∧
       readyPiece .stackRead (chan s 2) = some aPiece) ∧
    (let s := running2 { aTask with pieces := [readIn] }
     let s' := (List.range 16).foldl (fun s n => cutZeroPiece n s) s
     streamsGo s' = true ∧ issueWrite .stackWrite = true ∧ issueBusy s' .stackWrite = false ∧
       pickChannel s' .stackWrite = some 2 ∧ (chan s' 2).task = some { aTask with pieces := [readIn] } ∧
       readyPiece .stackWrite (chan s' 2) = some readIn) ∧
    (let p : Piece := { readIn with writeNext := 2, writeDone := 2 }
     let u : Task := { aTask with pieces := [p] }
     let s := running2 u
     working s = true ∧ (chan s 2).task = some u ∧ u.stage = .run ∧ taskDstQueue u = none ∧
       u.pieces.find? (·.index == 0) = some p ∧ p.writeDone = pieceLen p ∧ p.handle = some 5 ∧
       (padAt s (handleIndex 5)).gen = handleGen 5 ∧ (padAt s (handleIndex 5)).owner = ownerChan 2 ∧
       handleIndex 5 < s.pond.pads.length) := by decide +kernel

/-- The same task with queue 4 as its source. -/
def qDesc : Line :=
  ((1 : Line) <<< 63) ||| ((2 : Line) <<< 57) ||| putLine 8 (4 : Word) ||| putLine 16 (0x8000 : Word) ||| putLine 24 (128 : BitVec 32)

def qTask : Task := { descs := [qDesc], head := 0, seq := 1, written := [0], progress := 0 }
def entry (first : Bool) : PqEntry :=
  { chan := 3, abort := false, piece := 0, seq := 9, taskId := 7, bytes := 128, first := first, last := true, handle := 5
    deadline := 0 }

def popping (first : Bool) : State :=
  let s := running2 qTask
  { s with queues := s.queues.set 4 { entries := [entry first] } }

theorem wit_QueuePops : streamsGo (popping true) = true ∧ (popping true).strm.chans.length = 16 ∧
    (popping true).queues.length = 16 ∧ (chan (popping true) 2).task = some qTask ∧
    (chan (popping true) 2).state = .running ∧ qTask.stage = .run ∧ qTask.cut < taskTotal qTask ∧
    taskSrcQueue qTask = some 4 ∧ (queue (popping true) 4).entries = [entry true] ∧
    (queue (popping true) 4).waiting = [] ∧ queueProducer (popping true) 4 = none ∧ qTask.adopted = none ∧
    qTask.cut + (entry true).bytes.toNat ≤ taskTotal qTask ∧
    ((entry true).last = true ↔ qTask.cut + (entry true).bytes.toNat = taskTotal qTask) ∧
    (queue (popping false) 4).entries = [entry false] ∧ (entry false).first = false ∧ handleIndex 5 < (popping true).pond.pads.length := by
  decide +kernel

def backReq : MemReq := { who := .readback 2, cls := .stream, write := false, line := 0x201 }

/-- The read-back of the task's last line in flight. -/
def readingBack (second : Bool) : State :=
  let s := running2 { aTask with pieces := [], stage := .readback second true, lastLine := 0xBEEF }
  { s with mem := { s.mem with flights := [{ req := backReq, chan := 5, tag := 6, acc := 10200 }] } }

def writtenBack (f : StreamCh → StreamCh := id) : State :=
  chan2 fun c => f { c with state := .running, task := some { aTask with pieces := [], stage := .writeback 0 }, tail := 1 }

theorem wit_TasksComplete :
    (let s := readingBack false
     (chan s 2).task = some { aTask with pieces := [], stage := .readback false true, lastLine := 0xBEEF } ∧
       s.strm.chans.length = 16 ∧
       flightOf s 5 6 false = some { req := backReq, chan := 5, tag := 6, acc := 10200 } ∧
       backReq.who = .readback (2 : BitVec 4).toNat ∧ backReq.confirm = false ∧
       parityOk ((0xBEEF : Line) ++ ((6 : BitVec 10).setWidth 16 : BitVec 16) : BitVec 528) (par66 6 0xBEEF) = true ∧
       parityOk ((0 : Line) ++ ((6 : BitVec 10).setWidth 16 : BitVec 16) : BitVec 528) (par66 6 0) = true) ∧
    (flightOf (readingBack true) 5 6 false).isSome = true ∧ taskInFlight { aTask with pieces := [] } = 0 ∧
    (let s := writtenBack
     working s = true ∧ aTask.backAt < now s ∧ (chan s 2).state = .running ∧ (chan s 2).stopAfter = false ∧ (chan s 2).fetched = [] ∧
       (aTask.head + aTask.descs.length) % 2 ^ (chan s 2).eff.sizeLog2.toNat = (chan s 2).tail ∧ s.evt.queue.length < 256) ∧
    (chan (writtenBack fun c => { c with state := .stopping }) 2).state = .stopping := by decide +kernel

/-- The task with a deadline at ctrl time 2000. -/
def dueTask : Task := { aTask with descs := [aDesc ||| putLine 32 (2000 : Word)] }

def spilling : State :=
  { up with strm := { up.strm with spill := true, chans := up.strm.chans.set 15 { state := .running, task := some dueTask } } }

theorem wit_TaskTimers :
    (let u : Task := { aTask with pieces := [], cut := 0 }
     let s := atPort 20000 (running2 u)
     working s = true ∧ s.strm.chans.length = 16 ∧ (chan s 2).task = some u ∧ taskStalled s 2 = true ∧
       taskInFlight u = 0 ∧ taskDstQueue u = none) ∧
    (working spilling = true ∧ (chan spilling 15).task = some dueTask ∧ spilling.strm.spill = true ∧
      taskDeadline dueTask ≠ 0 ∧ taskDeadline dueTask - 480 * (chan spilling 15).eff.lead.toNat ≤ now spilling) ∧
    (let s := running2 dueTask
     working s = true ∧ (chan s 2).task = some dueTask ∧ taskDeadline dueTask < now s ∧ dueTask.late = false ∧
       dueTask.stage ≠ .writeback 0 ∧ taskDeadline dueTask < taskStamp { dueTask with stage := .writeback 0, backAt := 2000 } ∧
       (chan s 2).missed = false) := by decide +kernel

theorem wit_PondAndQueues :
    (working up = true ∧ up.pond.pads.length = 2048 ∧ up.pond.lastFab ≠ some up.clk.fab ∧ ∀ r < 32, padAsk up r = none) ∧
    (let u : Task := { aTask with pieces := [], cut := 0 }
     let s := running2 u
     s.strm.chans.length = 16 ∧ s.pond.lastFab ≠ some s.clk.fab ∧ (∀ r < 32, r ≠ 3 → padAsk s r = none) ∧
       padAsk s 3 = some 1 ∧ grantAllowed s 3 1 = true ∧ (padAt s 2047).owner = 0 ∧ (chan s 2).task = some u) ∧
    (let s := running2 aTask
     (padAt s (handleIndex 5)).gen = handleGen 5 ∧ (padAt s (handleIndex 5)).owner = ownerChan 2 ∧ ownerChan 2 ≠ 0 ∧
       (padAt s (handleIndex 6)).owner ≠ ownerChan 2) ∧
    (let s : State := { sweeping with pond := { sweeping.pond with stallSince := some 0 } }
     working (atPort 20000 s) = true ∧ (fetchAsks (atPort 20000 s)).isSome = true ∧
       0 + padWatchdogOf (atPort 20000 s) ≤ now (atPort 20000 s) ∧ biggestTask (atPort 20000 s) = none ∧
       (let t := chan2 (fun c => { c with state := .running, task := some aTask }) (atPort 20000 s)
        (fetchAsks t).isSome = true ∧ biggestTask t = some 2 ∧ (chan t 2).task = some aTask ∧ taskInFlight aTask = 0 ∧
          taskDstQueue aTask = none ∧ aTask.stage = .run ∧ t.strm.chans.length = 16)) ∧
    (let w : Word := 0x10
     Applies (popping true) ∧ (popping true).queues.length = 16 ∧ (∀ j < 16, w.getLsbD j = decide (j = 4)) ∧
       queueConsumer (popping true) 4 ≠ none ∧ queueProducer up 4 = none ∧ queueConsumer up 4 = none) ∧
    (let s := withImage none up
     Applies s ∧ s.image.active ≠ none ∧ s.strm.pending = none ∧ strmCheck s (s.strm.chans.map (·.stage)) = (0, 0)) := by
  decide +kernel

/-! ## Witnesses: exports and deltas -/

theorem wit_ExportsAndDeltas :
    (let s := xch 5 (fun c => { c with state := .idle }) (oneTensor (withImage none up))
     s.xch.chans.length = 8 ∧ Applies s ∧ exportPhase s.step.phase = true ∧ s.aux.running = false ∧
       (xchan s 5).state = .idle ∧ (xchan s 5).first ≤ (xchan s 5).last ∧ (xchan s 5).eff.arena ≤ 5 ∧
       (recOf s 0).valid = true) ∧
    fieldNat (1 : Word) 0 3 = 1 ∧ fieldNat (2 : Word) 0 3 = 2 ∧ fieldNat (4 : Word) 0 3 = 4 ∧
    (let s := xch 5 (fun c => { c with state := .running, job := some anExport }) up
     Applies s ∧ (xchan s 5).state = .running ∧ (xchan s 5).job = some anExport ∧
       (∀ x ∈ anExport.chunks, x.sent = x.acked) ∧ anExport.asked = false) ∧
    (let s := xch 2 (fun c => { c with state := .idle }) up
     Applies s ∧ (xchan s 2).state ≠ .disabled) ∧
    (let s := xch 5 (fun c => { c with state := .running, job := some { anExport with good := true } }) up
     ready s = true ∧ (xchan s 5).job = some { anExport with good := true }) ∧
    (let s := xch 2 (fun c => { c with
        state := .changes, openStep := some (7, 0xABCD), ending := true
        records := [{ header := putLine 3 (3 : BitVec 8), body := [0], place := some 0, span := 2, sent := 2, acked := 2 }] })
     working s = true ∧ deltaDone s 2 = true ∧ (xchan s 2).openStep = some (7, 0xABCD)) ∧
    (let s := xch 2 (fun c => { c with written := 16 }) up
     working s = true ∧ doorbellDue s (xchan s 2) = true) ∧
    (let s := xch 2 (fun c => { c with placed := 64, records := [{ header := 0, body := [], span := 1 }] }) up
     working s = true ∧ creditWanted (xchan s 2) = true ∧ (xchan s 2).creditOut = false ∧
       (xchan s 2).creditWaits = false ∧ (xchan s 2).creditAt = none) ∧
    (let s := withImage none up
     Applies s ∧ s.image.active ≠ none ∧ s.xch.pending = none ∧ xchCheck s (s.xch.chans.map (·.stage)) = (0, 0)) := by
  decide +kernel

/-! ## Witnesses: the far port -/

def offered : State :=
  { running2 aTask with strm := { (running2 aTask).strm with farRead := some { chan := 2, piece := 0, first := 0, len := 2 } } }

def farReq (write : Bool) (fails : Nat := 0) : FarReq :=
  { who := .doorbell 2, write := write, line := 9, tag := 7, src := 0x22, acc := 10239, fails := fails, respFails := fails }
def farOut (write : Bool) (port : Nat := 10240) (fails : Nat := 0) : State :=
  atPort port { up with far := { up.far with out := [farReq write fails] } }

theorem wit_FarPort :
    (working offered = true ∧ ((pickOffer offered false).map fun o => o.1.lines.length) = some 2 ∧
      tagsFree offered false [1, 2] = true) ∧
    (let s := xch 2 (fun c => { c with creditWaits := true }) up
     working s = true ∧ s.power.usable = true ∧ (∀ o ∈ streamOffer s false ++ readbackOffers s, o.urgent = false) ∧
       (deltaReads s).length = 1) ∧
    (let s := farOut false
     running s = true ∧ farFind s false 7 = some (farReq false) ∧
       farReadGood 7 0 5 (parOf 66 ((5 : Line) ++ ((0 : BitVec 2) ++ (0 : BitVec 2) ++ (7 : BitVec 12)))) = true ∧
       farReadGood 7 0 5 0 = false ∧ (farReq false).respFails + 1 < 3 ∧ farFind up false 7 = none ∧
       farFind (farOut false 10240 2) false 7 = some (farReq false 2) ∧ 3 ≤ (farReq false 2).respFails + 1) ∧
    (let s := farOut true
     running s = true ∧ farFind s true 7 = some (farReq true) ∧
       parityOk ((0 : BitVec 2) ++ (0 : BitVec 2) ++ (7 : BitVec 12)) (parOf 2 ((0 : BitVec 2) ++ (0 : BitVec 2) ++ (7 : BitVec 12))) = true) ∧
    (farOut true).far.out.find? (fun r => r.write == true && r.acc + 1 == portNow (farOut true)) = some (farReq true) ∧
    (farOut true 10240 2).far.out.find? (fun r => r.write == true && r.acc + 1 == portNow (farOut true 10240 2)) =
      some (farReq true 2) ∧ 3 ≤ (farReq true 2).fails + 1 ∧
    (∀ r ∈ up.far.out, r.write = true → r.acc + 1 ≠ portNow up) ∧
    (let s := farOut true 1700000
     farFind s true 7 = some (farReq true) ∧ running s = true ∧ 3 * (farReq true).acc / 10 + 480000 ≤ now s) := by
  decide +kernel

theorem wit_UnsolicitedAnswers : hostNaked up 3 false = none ∧ hostNaked up 3 true = none ∧ flightOf up 5 6 false = none ∧
    flightNaked up 5 false = none ∧ flightNaked up 5 true = none ∧
    up.far.out.find? (fun r => r.write == true && r.acc + 1 == portNow up) = none ∧ up.kst.cur = none := by decide +kernel

/-! ## Witnesses: the links -/

def east (l : LinkEnd) (s : State := withImage (some worker) up) : State := { s with east := l }
def training (st : TrainStep) (f : Training → Training := id) : State :=
  east { txPhase := .train, rxPhase := .train, rxGood := 0xFFF, train := some (f { step := st, since := 3000 }) }

def aWord : BitVec 24 := 0x01CFFF

/-- The IDENT of the manager at position 0, the east neighbour, sent from its west side. -/
def neighbourIdent : Line :=
  sealLine (putLine 0x00 magicIdent ||| putLine 0x02 (1 : BitVec 8) ||| putLine 0x03 (1 : BitVec 8) |||
    putLine 0x04 (1 : BitVec 8) ||| putLine 0x05 (2 : BitVec 8) ||| putLine 0x06 (0 : BitVec 8) |||
    putLine 0x07 (2 : BitVec 8) ||| putLine 0x18 (1 : BitVec 16) ||| putLine 0x1A (1 : BitVec 8))

def identFrame : BitVec 576 := mkFrame 2 0 0 0 false 0 0 0 0 false neighbourIdent

def identified (s : State := withImage (some worker) up) : State :=
  east { txPhase := .train, rxPhase := .train, neighValid := true, neigh := neighbourIdent
         train := some { step := .identity, since := 3000, identGot := true, identAcked := true } } s

set_option maxRecDepth 100000 in
theorem wit_LinkTraining :
    (linksOpen (training .clock) = true ∧ (link (training .clock) .east).train = some { step := .clock, since := 3000 } ∧
      (link (training .clock) .east).failed + 1 < 3) ∧
    (linksOpen (training .pattern) = true ∧ (link (training .pattern) .east).train = some { step := .pattern, since := 3000 }) ∧
    (let s := training .pattern fun t => { t with wake := true }
     linksOpen s = true ∧ (∀ k ∈ mapLanes (link s .east), (0 : BitVec 12).getLsbD k = false)) ∧
    (link (training .margin) .east).train = some { step := .margin, since := 3000 } ∧ (chooseMap 0xFFF).isSome = true ∧
    chooseMap 0 = none ∧
    ((link (training .map) .east).train = some { step := .map, since := 3000 } ∧ (chooseMap 0xFFF).isSome = true ∧
      crc16Word aWord ≠ crc16Word aWord + 1) ∧
    ((link (training .identity) .east).train = some { step := .identity, since := 3000 } ∧
      frameCrcOk identFrame = true ∧ hKind (frameHeader identFrame) = 2 ∧
      magicOf (framePayload identFrame) = magicIdent ∧ lineCrcOk (framePayload identFrame) = true) ∧
    (linksOpen identified = true ∧ protoOf (link identified .east).neigh = some 2 ∧
      (link identified .east).rxWidth4 = false ∧ (link identified .east).txWidth4 = false ∧
      identMatches identified .east (link identified .east).neigh = true ∧ planOf (identified up) = none ∧
      (let s := { identified with east := { identified.east with
         train := some { step := .identity, since := 3000, identGot := true, identAcked := true, wake := true }, retrainBit := true } }
       protoOf (link s .east).neigh = some 2 ∧ identMatches s .east (link s .east).neigh = true) ∧
      (let s := identified (withImage (some { worker with eastContrib := 9 }) up)
       planOf s ≠ none ∧ identMatches s .east (link s .east).neigh = false)) := by decide +kernel

def inPhase (p : LPhase) (f : LinkEnd → LinkEnd := id) : State := east (f { txPhase := p, rxPhase := p })

theorem wit_LinkEvents :
    (let w : Word := 0x8
     let v : Word := 0x1
     let x : Word := 0x2
     Applies (inPhase .off) ∧ (link (inPhase .off) .east).txPhase = .off ∧ Applies (inPhase .run) ∧
       (link (inPhase .run) .east).txPhase = .run ∧ (link (inPhase .run) .east).holdDown = false ∧
       w.getLsbD 3 = true ∧ v.getLsbD 3 = false ∧ v.getLsbD 0 = true ∧ (link (inPhase .run) .east).test = false ∧
       x.getLsbD 1 = true ∧ Applies (inPhase .sleep) ∧ (link (inPhase .sleep) .east).train = none ∧
       (link (inPhase .sleep fun l => { l with sleepOn := true }) .east).sleepOn = true ∧ v.getLsbD 2 = false) ∧
    trainStep (training .identity) .east = some .identity ∧ (link (training .identity) .east).rxPhase = .train ∧
    (link (inPhase .quarantine) .east).rxPhase = .quarantine ∧
    linksOpen (inPhase .verdict) = true ∧ (link (inPhase .verdict) .east).rxPhase = .verdict ∧
    linksOpen (inPhase .run) = true ∧ (link (inPhase .run) .east).rxPhase = .run ∧
    (link (inPhase .run fun l => { l with sleepSent := true }) .east).sleepSent = true ∧
    (link (inPhase .run) .east).sleepSent = false ∧
    (let s := atPort 1700000 (inPhase .down)
     linksOpen s = true ∧ (link s .east).txPhase = .down ∧ (link s .east).holdDown = false ∧
       (link s .east).downAt + 480000 ≤ now s) := by decide +kernel

def stateLine : Line :=
  putLine 0 magicLinkState ||| putLine 2 (1 : BitVec 8) ||| putLine 3 (0 : BitVec 8) ||| putLine 4 (1 : BitVec 16)

/-- A DATA frame to position 1 with the given SEQ. -/
def dataFrame (seq : BitVec 12) : BitVec 576 := mkFrame 1 0 seq 0xFFF false 0 0 1 0 false stateLine

def aFrame : LFrame := { vc := 0, seq := 3, payload := stateLine, dest := 0, src := 1, bcast := false }

set_option maxRecDepth 100000 in
theorem wit_LinkFrames :
    (let s := inPhase .run
     linksOpen s = true ∧ (link s .east).rxPhase.carries = true ∧ frameCrcOk (dataFrame 0 ^^^ (1 : BitVec 576)) = false ∧
       (crcRoll s (rxAdvance (link s .east))).crcErrors + 1 < 16 ∧
       16 ≤ (crcRoll s (rxAdvance (link (inPhase .run fun l => { l with crcErrors := 15, crcWindow := crcWindowOf s l }) .east))).crcErrors + 1 ∧
       linkRuns (link s .east) = true ∧ pickFrame (link s .east) = none ∧ testWanted (link s .east) = false ∧
       sleepAllowed s .east = false ∧ frameCrcOk (dataFrame 0) = true ∧ hKind (frameHeader (dataFrame 0)) = 1 ∧
       hSeq (frameHeader (dataFrame 0)) = (link s .east).ackSeq + 1 ∧ (frameHeader (dataFrame 0)).getLsbD 1 = false ∧
       (field (frameHeader (dataFrame 0)) 6 4 : BitVec 4).toNat = ringPos s ∧
       magicOf (framePayload (dataFrame 0)) = magicLinkState ∧ frameCrcOk (dataFrame 0xFFF) = true ∧
       hSeq (frameHeader (dataFrame 0xFFF)) = (link s .east).ackSeq ∧ (link s .east).rxPhase = .run) ∧
    (let s := inPhase .run fun l => { l with resend := [aFrame], replay := [aFrame] }
     linksOpen s = true ∧ (link s .east).train = none ∧ (link s .east).txPhase.carries = true ∧
       (link s .east).resend = [aFrame] ∧ (link s .east).replay ≠ [] ∧ (link s .east).timer + 240 ≤ now s ∧
       (link s .east).timeouts + 1 < 4) ∧
    (let s := inPhase .run fun l => { l with own := [aFrame], timeouts := 3 }
     (link s .east).resend = [] ∧ (link s .east).replay.length < 256 ∧ vcHead (link s .east) 0 = some (false, aFrame) ∧
       4 ≤ (link s .east).timeouts + 1 ∧ linkRuns (link s .east) = true) := by decide +kernel

/-- At position 1 of a ring of 4: the segments 2 and 3 are not its own. -/
def ring4 : State := atPort 1700000 (withImage (some { worker with ringSize := 4 }) up)

theorem wit_RingUpkeep : linksOpen ring4 = true ∧
    (let m : Line := putLine 2 (1 : BitVec 8) ||| putLine 3 (3 : BitVec 8) ||| putLine 4 (8 : BitVec 16)
     fieldNat m 24 8 < ringSize ring4 ∧ 1 < ringSize ring4 ∧ (field m 16 8 : BitVec 8) = 1 ∧
       segOf (ringSize ring4) (fieldNat m 24 8) .east ≠ segOf (ringSize ring4) (ringPos ring4) .east ∧
       segOf (ringSize ring4) (fieldNat m 24 8) .east ≠ segOf (ringSize ring4) (ringPos ring4) .west) ∧
    planOf ring4 ≠ none ∧ ring4.power.state ≠ .retain ∧ ring4.ring.lastState + 480000 ≤ now ring4 ∧
    testFlit 5 = testFlit (field (testFlit 5) 32 32) ∧ (0 : Line) ≠ testFlit (field (0 : Line) 32 32) ∧
    (link (inPhase .sleep) .east).txPhase = .sleep ∧ (link (inPhase .sleep) .east).train = none ∧ linksOpen (inPhase .sleep) = true ∧
    (inPhase .sleep).power.state ≠ .retain := by decide +kernel

/-! ## Witnesses: the fabric message port -/

def beatsOf (e : BitVec 128) (n : Nat) : List (BitVec 128 × BitVec 16) := List.replicate n (e, parOf 16 e)
def dataEnv (dest : BitVec 32) : BitVec 128 := envelope dest 0x77 5 9 1 0

def heard (p : FmpPeer) : State := { up with fmp := { up.fmp with peers := [p] } }

def sentMsg (tries : BitVec 8) : FmpMsg := { dest := 0x77, seq := 9, tries := tries, payload := 0, sentAt := 3000 }
def sending (tries : BitVec 8) (port : Nat := 340000) : State :=
  atPort port { up with fmp := { up.fmp with out := [sentMsg tries] } }

theorem wit_FabricMessagePort :
    (let e := dataEnv 0
     ready up = true ∧ up.power.state ≠ .retain ∧ (beatsOf e 5).head?.map (·.1) = some e ∧
       (beatsOf e 5).all (fun b => parityOk b.1 b.2) = true ∧ ([(e, 0)] : List (BitVec 128 × BitVec 16)).all (fun b => parityOk b.1 b.2) = false ∧
       envKind e = 1 ∧ (beatsOf e 4).length ≠ 5 ∧ (beatsOf e 5).length = 5 ∧ envDest e = up.fmp.self ∧ envCheckOk e = true ∧
       up.fmp.peers.find? (·.src == envSrc e) = none ∧ envDest (dataEnv 4) ≠ up.fmp.self ∧
       (let p : FmpPeer := { src := 0x77, session := 5, high := 9 }
        ready (heard p) = true ∧ (heard p).fmp.peers.find? (·.src == envSrc e) = some p ∧ p.session = envSession e ∧
          p.high = envSeq e)) ∧
    (let e := envelope 0 0x77 5 9 2 0
     (beatsOf e 1).all (fun b => parityOk b.1 b.2) = true ∧ envKind e = 2 ∧ (beatsOf e 1).length = 1 ∧
       envDest e = up.fmp.self ∧ envCheckOk e = true ∧ up.fmp.queue = []) ∧
    (ready (sending 0) = true ∧
      (sending 0).fmp.out.find? (fun m => m.dest == 0x77 && m.seq == 9) = some (sentMsg 0) ∧
      (sentMsg 0).sentAt + 96000 ≤ now (sending 0) ∧ (sentMsg 0).tries < 3 ∧
      now (sending 0 10240) < (sentMsg 0).sentAt + 96000 ∧ 3 ≤ (sentMsg 3).tries ∧ isManager (sending 3) = false ∧
      (sending 3).fmp.queue = []) := by decide +kernel

/-! ## Witnesses: the invariants and the step -/

theorem wit_StepKeepsSound : up.Sound ∧ ∃ t, step { up with pending := [.abortReq] } = .next t :=
  ⟨⟨by decide +kernel, by decide +kernel, by decide +kernel, by decide +kernel⟩, _, rfl⟩

theorem wit_CommandsKeepTheRest : ∃ t, exec .abortReq up = .next t := ⟨_, rfl⟩

/-! ## Smoke tests of the well-formedness checks: one ill-formed command per kind of check -/

theorem test_wf_action_bit_0 : Instr.wellFormed (.stepCtlSeal 0) = false ∧ Instr.wellFormed (.stepCtlSeal 1) = true := by decide
theorem test_wf_action_bit_1 : Instr.wellFormed (.sweepResume 1) = false ∧ Instr.wellFormed (.sweepResume 2) = true := by decide
theorem test_wf_action_bit_2 : Instr.wellFormed (.chResume 3 2) = false ∧ Instr.wellFormed (.chResume 3 4) = true := by decide
theorem test_wf_action_bit_3 : Instr.wellFormed (.stepCtlClearHalt 7) = false ∧ Instr.wellFormed (.stepCtlClearHalt 8) = true := by decide
theorem test_wf_lscale_load_bit : Instr.wellFormed (.lscaleLoad 0xFF) = false ∧ Instr.wellFormed (.lscaleLoad 0x10000000000) = true := by decide
theorem test_wf_link_reset_bits : Instr.wellFormed (.linkReset 9) = false ∧ Instr.wellFormed (.linkReset 4) = true := by decide
theorem test_wf_lease_op : Instr.wellFormed (.leaseAcquire 2) = false ∧ Instr.wellFormed (.leaseAcquire 1) = true := by decide
theorem test_wf_vault_op : Instr.wellFormed (.vaultQuote 4) = false ∧ Instr.wellFormed (.vaultQuote 5) = true := by decide
theorem test_wf_message_type : Instr.wellFormed (.contrib .east 0x20000) = false ∧ Instr.wellFormed (.contrib .east 0x10000) = true := by decide +kernel
theorem test_wf_record_code : Instr.wellFormed (.verdictRecordGo .self 0x2000000) = false ∧
    Instr.wellFormed (.verdictRecordGo .self 0x1000000) = true := by decide +kernel
theorem test_wf_residue_rank : Instr.wellFormed (.residueFault 26 0 3 0) = false ∧ Instr.wellFormed (.residueFault 25 0 3 0) = true := by decide
theorem test_wf_residue_unit : Instr.wellFormed (.residueFault 3 0 3 0) = false ∧ Instr.wellFormed (.residueFault 24 0 0 0) = false ∧
    Instr.wellFormed (.residueFault 3 0 2 0) = true := by decide
theorem test_wf_queue_mask : Instr.wellFormed (.pqFlush 0x10000) = false ∧ Instr.wellFormed (.pqFlush 0x8000) = true := by decide
theorem test_wf_cause_mask : Instr.wellFormed (.croakCauseWrite 0x100) = false ∧ Instr.wellFormed (.croakCauseWrite 2) = true := by decide

/-- The test access port held in reset, and out of it with BYPASS in Shift-DR. -/
theorem wit_PinsAndLanes : ({} : TestAccess).trstN = false ∧
    (let t : TestAccess := { trstN := true, tap := .shiftDr }
     t.trstN = true ∧ t.tap = .shiftDr ∧ t.instr = .bypass) := by decide

/-! ## Formats: the worked conversions of the formats chapter -/

/-- 0.1 to BF16 by RNE and by SR with rnd 0x1234, to FP16 and to E4M3 (items 1 to 4). -/
theorem test_encode_tenth : (encodeF32 .bf16 .rne 0x3DCCCCCD).code = 0x3DCD ∧ (encodeF32 .bf16 (.sr 0x1234) 0x3DCCCCCD).code = 0x3DCC ∧
    (encodeF32 .fp16 .rne 0x3DCCCCCD).code = 0x2E66 ∧ (encodeF32 .e4m3 .rne 0x3DCCCCCD).code = 0x1D := by decide
/-- 500.0 saturates in E4M3; 0.005 is a subnormal of it (items 5 and 6). -/
theorem test_encode_e4m3_ends : encodeF32 .e4m3 .rne 0x43FA0000 = { code := 0x7E, sat := true } ∧
    (encodeF32 .e4m3 .rne 0x3BA3D70A).code = 3 := by decide
/-- The MXFP4 block of 3.0, -0.7, 0.26 and 0. -/
theorem test_mxfp4_block :
    (mxEncode (.flt .e2m1) [(0x40400000, .rne), (0xBF333333, .rne), (0x3E851EB8, .rne), (0, .rne)]).1 = 0x7E ∧
    (mxEncode (.flt .e2m1) [(0x40400000, .rne), (0xBF333333, .rne), (0x3E851EB8, .rne), (0, .rne)]).2.map (·.code) = [7, 0xB, 1, 0] := by
  decide
/-- The KM8S block of largest magnitude 0.003 in step 1,234. -/
theorem test_km8s_block :
    (encodeKm8s 2 false false [(0x3B449BA6, .rne), (0xB8D1B717, .rne), (0x322BCC77, .rne)]).hdr.bits = 0x7020 ∧
    (encodeKm8s 2 false false [(0x3B449BA6, .rne), (0xB8D1B717, .rne), (0x322BCC77, .rne)]).codes = [0x62, 0xFD, 0] := by decide
/-- With 0.0039 as the maximum the exponent rises by one. -/
theorem test_km8s_above_127 : (encodeKm8s 2 false false [(0x3B7F9724, .rne)]).hdr.exp = 0x71 ∧
    (encodeKm8s 2 false false [(0x3B7F9724, .rne)]).codes = [0x40] := by decide
/-- The KM8L block of 1.5 x 2^-10, 2^-20 and 2^-26 in step 1,234. -/
theorem test_km8l_block :
    (encodeKm8l 2 false false [(0x3AC00000, .rne), (0x35800000, .rne), (0x32800000, .rne)]).hdr.bits = 0x7620 ∧
    (encodeKm8l 2 false false [(0x3AC00000, .rne), (0x35800000, .rne), (0x32800000, .rne)]).codes = [0xF9, 0x50, 0] := by decide

/-! ## The memory path's hash and the mask's bit order -/

/-- Under plan 2 reads 0 to 7 at a stride of 33 lines go to these channels, read 31 to channel 16; under plan 1
all go to channel 0 (the worked example of the channel-imbalance section). -/
theorem test_channel_hash :
    [0, 1, 2, 3, 4, 5, 6, 7, 31].map (fun k => hashFold 2 (BitVec.ofNat 34 (33 * k)) ^^^ addrBits (BitVec.ofNat 34 (33 * k)) 6) =
      [0, 1, 3, 2, 6, 7, 5, 4, 16] ∧
    [1, 2, 17, 31].all (fun k => hashFold 1 (BitVec.ofNat 34 (33 * k)) ^^^ addrBits (BitVec.ofNat 34 (33 * k)) 6 == 0) = true := by
  decide
/-- The eight words of the worked mask, with the threshold 0xE666_6666, give byte 0x55. -/
theorem test_mask_byte :
    (let r : MaskRegs := { thresh := 0xE6666666 }
     (maskLine r ([0x12345678, 0xF0000000, 0xE6666665, 0xE6666666, 0, 0xFFFFFFFF, 0x80000000, 0xE6666667].map (maskKeep r))).toNat) = 0x55 := by
  decide +kernel

/-! ## Codes of the standards the spec names -/

/-- The check value of CRC-32: the digits 1 to 9. -/
theorem test_crc32 : crc32 [0x31, 0x32, 0x33, 0x34, 0x35, 0x36, 0x37, 0x38, 0x39] = 0xCBF43926 := by decide +kernel
/-- SHA-384 of "abc" (FIPS 180-4). -/
theorem test_sha384 : beNat (sha384 [0x61, 0x62, 0x63]) =
    0xcb00753f45a35e8bb5a03d699ac65007272c32ab0eded1631a8b605a43ff5bed8086072ba1e7cc2358baeca134c825a7 := by decide +kernel

end Sys2Proof.Tests
end

/-! PROOF. Arbitration (O9): what a request that enters, a grant and a window boundary leave of the memory path,
an equation of arbiterGrant for each of its branches, and from them the obligation. -/
namespace Sys2Proof.Machine

/-! ### What entering requests leave of the memory path -/

/-- From m to n nothing has changed but the waiting requests, the write-combining buffer and the counters. -/
def OnlyQueues (m n : MemPath) : Prop := n = { m with waiting := n.waiting, wcb := n.wcb, cnt := n.cnt }

theorem OnlyQueues.refl (m : MemPath) : OnlyQueues m m := Eq.refl m

theorem OnlyQueues.trans {m n k : MemPath} (hmn : OnlyQueues m n) (hnk : OnlyQueues n k) : OnlyQueues m k := by
  have hk : k = { n with waiting := k.waiting, wcb := k.wcb, cnt := k.cnt } := hnk
  rw [hmn] at hk
  exact hk

theorem OnlyQueues.flights {m n : MemPath} (h : OnlyQueues m n) : n.flights = m.flights := by rw [h]

theorem OnlyQueues.granted {m n : MemPath} (h : OnlyQueues m n) : n.granted = m.granted := by rw [h]

theorem arbitrate_onlyQueues (r : MemReq) (s : State) : OnlyQueues s.mem (arbitrate r s).mem := Eq.refl _

theorem wcbFlush_onlyQueues (e : WcbEntry) (s : State) : OnlyQueues s.mem (wcbFlush e s).mem := Eq.refl _

theorem wcbFlushLine_onlyQueues (line : BitVec 34) (s : State) : OnlyQueues s.mem (wcbFlushLine line s).mem := by
  unfold wcbFlushLine
  split
  · exact wcbFlush_onlyQueues _ s
  · exact .refl _

/-- A merged entry leaves at once when it is full; a new one may push out the oldest. -/
theorem wcbWrite_onlyQueues (r : MemReq) (s : State) : OnlyQueues s.mem (wcbWrite r s).mem := by
  simp only [wcbWrite]
  split
  case h_1 e _ =>
    have merged (x : List WcbEntry) : OnlyQueues s.mem (countMp 7 1 (setMem (fun m => { m with wcb := x }) s)).mem :=
      Eq.refl _
    split
    · exact (merged _).trans (wcbFlush_onlyQueues _ _)
    · exact merged _
  case h_2 =>
    have entered (u : State) (x : List WcbEntry) :
        OnlyQueues u.mem (setMem (fun m => { m with wcb := m.wcb ++ x }) u).mem := Eq.refl _
    refine .trans ?_ (entered _ _)
    split
    · split
      · exact wcbFlush_onlyQueues _ s
      · exact .refl _
    · exact .refl _

theorem enqueue_onlyQueues (r : MemReq) (s : State) : OnlyQueues s.mem (enqueue r s).mem := by
  unfold enqueue
  split
  · exact arbitrate_onlyQueues r s
  · split
    · exact .refl _
    · split
      · exact wcbWrite_onlyQueues r s
      · exact (wcbFlushLine_onlyQueues r.line s).trans (arbitrate_onlyQueues r _)

theorem confirmIssue_onlyQueues (who : Who) (line : BitVec 34) (s : State) :
    OnlyQueues s.mem (confirmIssue who line s).mem := by
  unfold confirmIssue
  split
  case h_1 =>
    split
    · split
      · exact enqueue_onlyQueues _ s
      · exact .refl _
    · exact .refl _
  case h_2 =>
    split
    · exact enqueue_onlyQueues _ s
    · exact .refl _
  case h_3 => exact .refl _

theorem confirmIssues_onlyQueues (line : BitVec 34) (whos : List Who) (s : State) :
    OnlyQueues s.mem (whos.foldl (fun s w => confirmIssue w line s) s).mem := by
  induction whos generalizing s with
  | nil => exact .refl _
  | cons who whos ih => exact (confirmIssue_onlyQueues who line s).trans (ih _)

theorem writeAccepted_onlyQueues (r : MemReq) (s : State) : OnlyQueues s.mem (writeAccepted r s).mem :=
  confirmIssues_onlyQueues r.line (r.who :: r.also) s

/-- Where a transfer that has crossed its port is a write, its confirm reads enter; a read brings none. -/
theorem crossed_onlyQueues (r : MemReq) (s : State) :
    OnlyQueues s.mem (if r.write then writeAccepted r s else s).mem := by
  split
  · exact writeAccepted_onlyQueues r s
  · exact .refl _

/-! ### What a grant leaves (R285, R298) -/

/-- The request granted is on its way, dated now, behind all others. -/
theorem grantRequest_flights (ch : BitVec 5) (tag : BitVec 10) (i : Nat) (w : Waiting) (s : State) :
    (grantRequest ch tag i w s).mem.flights =
      s.mem.flights ++ [{ req := w.req, chan := ch, tag := tag, acc := portNow s }] :=
  (crossed_onlyQueues w.req _).flights

/-- The arbiter has granted in this port cycle. -/
theorem grantRequest_granted (ch : BitVec 5) (tag : BitVec 10) (i : Nat) (w : Waiting) (s : State) :
    (grantRequest ch tag i w s).mem.granted = (ch, w.req.write) :: s.mem.granted :=
  (crossed_onlyQueues w.req _).granted

/-- The transfer replayed is dated now, and no other changes. -/
theorem grantReplay_flights (f : Flight) (s : State) :
    (grantReplay f s).mem.flights = s.mem.flights.map (fun x => if x.chan == f.chan && x.tag == f.tag
      then { x with acc := portNow s, replay := none, settled := false } else x) :=
  (crossed_onlyQueues f.req _).flights

/-- A replayed read takes no request from the queue and brings none into it. -/
theorem grantReplay_waiting {f : Flight} (hf : f.req.write = false) (s : State) :
    (grantReplay f s).mem.waiting = s.mem.waiting := by
  simp [grantReplay, hf]

/-! ### What the arbiter chooses from -/

theorem replayDue_write {s : State} {ch : BitVec 5} {write : Bool} {f : Flight}
    (h : replayDue s ch write = some f) : f.req.write = write := by
  have hp := List.find?_some h
  simp only [Bool.and_eq_true, beq_iff_eq] at hp
  exact hp.1.2

theorem write_of_mem_candidates {s : State} {ch : BitVec 5} {write : Bool} {tag : BitVec 10} {x : Nat × Waiting}
    (h : x ∈ candidates s ch write tag) : x.2.req.write = write := by
  obtain ⟨⟨w, i⟩, -, hw⟩ := List.mem_filterMap.mp h
  dsimp only at hw
  split at hw
  next hc =>
    simp only [Bool.and_eq_true, beq_iff_eq] at hc
    obtain ⟨⟨⟨⟨hwrite, -⟩, -⟩, -⟩, -⟩ := hc
    obtain rfl := Option.some.inj hw
    exact hwrite
  next => exact nomatch hw

/-- CRIT_RD is never throttled, so no budget holds it (R284, R292). -/
theorem budgetAllows_critRd {r : MemReq} (h : r.cls = .critRd) (s : State) : budgetAllows s r = true := by
  simp [budgetAllows, throttled, h]

/-- The budget hides no CRIT_RD request. -/
theorem find?_critRd_budgeted (s : State) (xs : List (Nat × Waiting)) :
    (xs.filter fun x => budgetAllows s x.2.req).find? (fun x => x.2.req.cls == .critRd) =
      xs.find? (fun x => x.2.req.cls == .critRd) := by
  rw [List.find?_filter]
  congr 1
  funext x
  by_cases hx : x.2.req.cls = .critRd
  · simp [hx, budgetAllows_critRd hx]
  · simp [hx]

/-- Priority mode grants the oldest CRIT_RD request, whatever the budget, and no turn moves on (R288). -/
theorem pickPriority_critRd {xs : List (Nat × Waiting)} {x : Nat × Waiting}
    (h : xs.find? (fun x => x.2.req.cls == .critRd) = some x) (s : State) (ch : BitVec 5) (last : Nat) :
    pickPriority s ch last xs = some (x.1, x.2, last) := by
  simp only [pickPriority, find?_critRd_budgeted, h]

/-! ### The window of a grant (R16, R289) -/

theorem rescale_window (s : State) : (rescale s).mem.window = s.mem.window := by
  simp only [rescale]
  split <;> rfl

theorem judgeImbalance_window (s : State) : (judgeImbalance s).mem.window = s.mem.window := by
  simp only [judgeImbalance]
  split
  · split <;> rfl
  · rfl

/-- A boundary begins the next window. -/
theorem windowEnd_window (s : State) : (windowEnd s).mem.window = s.mem.window + 1 := by
  simp only [windowEnd, rescale_window, setMem_mem, judgeImbalance_window]
  split <;> rfl

theorem applyMp_window (s : State) : (applyMp s).mem.window = s.mem.window := by
  unfold applyMp
  split
  · split
    · rfl
    · exact rescale_window _
  · rfl

theorem applyPlan_window (s : State) : (applyPlan s).mem.window = s.mem.window := by
  unfold applyPlan
  split
  · split
    · rfl
    · exact rescale_window _
  · rfl

theorem windowCatchUp_within {s : State} (h : portNow s < 1024 * (s.mem.window + 1)) : windowCatchUp s = s :=
  if_neg (Nat.not_le.mpr h)

theorem windowCatchUp_late {s : State} (h : 1024 * (s.mem.window + 1) ≤ portNow s) :
    windowCatchUp s = applyPlan (applyMp (windowEnd s)) :=
  if_pos h

theorem windowCatchUp_portNow (s : State) : portNow (windowCatchUp s) = portNow s :=
  congrArg Clocks.port ((only_windowCatchUp (List.Subset.refl _) (only_refl _ s)).part .clk (by decide))

theorem windowCatchUp_running (s : State) : running (windowCatchUp s) = running s := by
  have keeps : OnlyChanges [.health, .mem] s (windowCatchUp s) :=
    only_windowCatchUp (List.Subset.refl _) (only_refl _ s)
  have hclk : (windowCatchUp s).clk = s.clk := keeps.part .clk (by decide)
  have hboot : (windowCatchUp s).boot = s.boot := keeps.part .boot (by decide)
  simp only [running, hclk, hboot]

/-- One boundary that is late by less than a window is caught up at once: nothing is left to take. -/
theorem windowCatchUp_idem {s : State} (h : portNow s < 1024 * (s.mem.window + 2)) :
    windowCatchUp (windowCatchUp s) = windowCatchUp s := by
  refine windowCatchUp_within ?_
  rw [windowCatchUp_portNow]
  by_cases hlate : 1024 * (s.mem.window + 1) ≤ portNow s
  · have hwin : (windowCatchUp s).mem.window = s.mem.window + 1 := by
      rw [windowCatchUp_late hlate, applyPlan_window, applyMp_window, windowEnd_window]
    rw [hwin]
    exact h
  · rw [windowCatchUp_within (Nat.not_le.mp hlate)]
    exact Nat.not_le.mp hlate

/-! ### The branches of arbiterGrant (R285) -/

theorem exec_arbiterGrant {s : State} (h : running s = true) (ch : BitVec 5) (write : Bool) (tag : BitVec 10) :
    exec (.arbiterGrant ch write tag) s = .next (arbiterGrant ch write tag s) :=
  congrArg Host.Outcome.next (if_pos h)

/-- What is granted is decided after the boundary has been taken. -/
theorem arbiterGrant_windowCatchUp {s : State} (h : portNow s < 1024 * (s.mem.window + 2)) (ch : BitVec 5)
    (write : Bool) (tag : BitVec 10) : arbiterGrant ch write tag (windowCatchUp s) = arbiterGrant ch write tag s := by
  simp only [arbiterGrant, windowCatchUp_idem h]

section
variable {s : State} {ch : BitVec 5} {write : Bool} (hwin : portNow s < 1024 * (s.mem.window + 1))
  (hfree : s.mem.granted.contains (ch, write) = false)
include hwin hfree

theorem arbiterGrant_replay (tag : BitVec 10) {f : Flight} (hdue : replayDue s ch write = some f) :
    arbiterGrant ch write tag s = grantReplay f s := by
  simp only [arbiterGrant, windowCatchUp_within hwin, hfree, hdue, Bool.false_eq_true, if_false]

theorem arbiterGrant_control {tag : BitVec 10} {i : Nat} {w : Waiting} (hdue : replayDue s ch write = none)
    (hslot : controlSlot s ch write = true)
    (hfind : (candidates s ch write tag).find? (fun x => x.2.req.control) = some (i, w)) :
    arbiterGrant ch write tag s = grantRequest ch tag i w s := by
  simp only [arbiterGrant, windowCatchUp_within hwin, hfree, hdue, hslot, hfind, Bool.false_eq_true, if_false, if_true]

/-- Outside a control slot, in priority mode, the oldest CRIT_RD request is granted; the arbiter's turn stays. -/
theorem arbiterGrant_critRd {tag : BitVec 10} {i : Nat} {w : Waiting} (hdue : replayDue s ch write = none)
    (hslot : controlSlot s ch write = false) (hmode : s.mem.regulated = false)
    (hfind : ((candidates s ch write tag).filter fun x => !x.2.req.control).find? (fun x => x.2.req.cls == .critRd) =
      some (i, w)) :
    ∃ turns, arbiterGrant ch write tag s =
      grantRequest ch tag i w (setMem (fun m => { m with lastTurn := turns }) s) := by
  simp only [arbiterGrant, windowCatchUp_within hwin, hfree, hdue, hslot, hmode, Bool.false_eq_true, if_false,
    pickPriority_critRd hfind]
  exact ⟨_, rfl⟩

end

/-! ### The obligation -/

/-- R285, R298: a replay that is due, then the oldest control request of a control slot. -/
theorem arbiterOrder : Rules.ArbiterOrder := by
  intro s ch write tag hrun hwin hfree
  rw [exec_arbiterGrant hrun]
  constructor
  · intro f hdue
    rw [arbiterGrant_replay hwin hfree tag hdue]
    exact ⟨_, rfl, grantReplay_flights f s, fun hread => grantReplay_waiting ((replayDue_write hdue).trans hread) s⟩
  · intro i w hdue hslot hfind
    rw [arbiterGrant_control hwin hfree hdue hslot hfind]
    have hwrite : w.req.write = write := write_of_mem_candidates (List.mem_of_find?_eq_some hfind)
    refine ⟨_, rfl, grantRequest_flights ch tag i w s, ?_⟩
    rw [grantRequest_granted, hwrite]
    exact List.mem_cons_self

/-- R285, R288: CRIT_RD before the other classes. -/
theorem criticalReadsFirst : Rules.CriticalReadsFirst := by
  intro s ch write tag i w hrun hwin hfree hdue hmode hslot hfind
  obtain ⟨turns, hgrant⟩ := arbiterGrant_critRd hwin hfree hdue hslot hmode hfind
  rw [exec_arbiterGrant hrun, hgrant]
  exact ⟨_, rfl, grantRequest_flights ch tag i w _⟩

/-- R16, R289: a grant at a boundary not yet taken counts in the window that begins. -/
theorem grantAfterBoundary : Rules.GrantAfterBoundary := by
  intro s ch write tag hrun hlate hnext
  rw [← windowCatchUp_late hlate, exec_arbiterGrant hrun, exec_arbiterGrant ((windowCatchUp_running s).trans hrun),
    arbiterGrant_windowCatchUp hnext]

/-- Settles O9: a replay, the control slot and CRIT_RD by the arbiter's branches, the boundary because catching up
twice is catching up once. -/
theorem arbitration : Obligations.Arbitration := ⟨arbiterOrder, criticalReadsFirst, grantAfterBoundary⟩

end Sys2Proof.Machine

/-! PROOF. The frame of every command (O4): what a command may change is what the operations of its meaning may
change (Laws/Only*.lean), put together by the shapes in which the meanings are written. -/
namespace Sys2Proof.Machine

/-! ### Frames of answers -/

/-- Whatever state an answer holds has changed, from s, in the parts of L only. -/
def FrameOut (L : List Part) (s : State) (o : Out) : Prop := ∀ t, o = .next t → OnlyChanges L s t

section
variable {L : List Part} {s t : State}

theorem frameOut_next (h : OnlyChanges L s t) : FrameOut L s (.next t) := by
  intro u hu
  injection hu with hu
  exact hu ▸ h

theorem frameOut_fault (r : Fault) : FrameOut L s (.fault r) := fun _ hu => nomatch hu

/-- An effect under a condition, and nothing without it. -/
theorem only_gate {c : Prop} [Decidable c] (h : OnlyChanges L s t) : OnlyChanges L s (if c then t else s) :=
  only_ite h (only_refl L s)

theorem frameOut_gate {c : Prop} [Decidable c] (h : OnlyChanges L s t) : FrameOut L s (.next (if c then t else s)) :=
  frameOut_next (only_gate h)

/-- A control-port write changes the port, the report of a refusal, the counts of the port, and what its effect does. -/
theorem frameOut_ctlWrite {addr : Addr24} {w : Word} {eff : State → State} (hL : [.health, .ctl, .far] ⊆ L)
    (h : ∀ x, OnlyChanges L s x → OnlyChanges L s (eff x)) : FrameOut L s (.next (ctlWrite addr w eff s)) :=
  frameOut_next (only_ctlWrite addr w eff h hL (only_refl L s))

/-- An event of a link changes what it does itself and what settles after it. -/
theorem frameOut_linkRow {f : State → State}
    (hL : [.boot, .health, .evt, .memb, .verdict, .hier, .east, .west, .ring, .fmp] ⊆ L)
    (h : OnlyChanges L s (f s)) : FrameOut L s (linkRow f s) :=
  frameOut_gate (only_bootLinks (List.Subset.trans (by decide) hL) (only_segSettle (List.Subset.trans (by decide) hL) h))

end

/-! ### Rows whose meaning is more than one operation under one condition -/

section
variable (s : State)

theorem frame_normPassDone : FrameOut (Instr.touches .normPassDone) s (execNormPassDone s) := by
  refine frameOut_next ?_
  split
  · exact only_gate (only_contribute (by decide) (only_refl _ s))
  · exact only_refl _ s

theorem frame_hostWriteCompletion (port : BitVec 5) (tag : BitVec 12) :
    FrameOut (Instr.touches (.hostWriteCompletion port tag)) s (execHostWriteCompletion port tag s) := by
  dsimp only [Instr.touches]
  refine frameOut_next ?_
  split
  · exact only_gate (only_hostComplete _ (by decide) (only_refl _ s))
  · exact only_refl _ s

/-- A report that ends a thermal pause also lets go what the pause held back. -/
theorem frame_thermalReport (temp limit : BitVec 8) (par : BitVec 2) :
    FrameOut (Instr.touches (.thermalReport temp limit par)) s (execThermalReport temp limit par s) := by
  dsimp only [Instr.touches]
  refine frameOut_gate (only_ite (only_pauseEnded (by decide) ?_) ?_)
  all_goals exact only_thermalReport temp limit par (by decide) (only_refl _ s)

theorem frame_contribTimeout : FrameOut (Instr.touches .contribTimeout) s (execContribTimeout s) := by
  refine frameOut_next ?_
  split
  · exact only_gate (only_holdStep _ _ _ (by decide) (only_countHier _ _ (by decide)
      (only_set_hier (by decide) (only_refl _ s))))
  · exact only_refl _ s

theorem frame_joinTimeout : FrameOut (Instr.touches .joinTimeout) s (execJoinTimeout s) := by
  refine frameOut_next ?_
  split
  · exact only_gate (only_epochFail (by decide) (only_refl _ s))
  · exact only_refl _ s

theorem frame_gateOpen : FrameOut (Instr.touches .gateOpen) s (execGateOpen s) := by
  refine frameOut_next ?_
  split
  · exact only_gate (only_openGate _ (by decide) (only_refl _ s))
  · exact only_refl _ s

theorem frame_residueFault (rank : BitVec 5) (lane : BitVec 7) (unit : BitVec 2) (ord : BitVec 32) :
    FrameOut (Instr.touches (.residueFault rank lane unit ord)) s (execResidueFault rank lane unit ord s) := by
  dsimp only [Instr.touches]
  refine frameOut_next ?_
  split
  · exact only_gate (only_residueFault _ _ _ _ (by decide) (only_refl _ s))
  · exact only_refl _ s

theorem frame_codecMismatch (ord : BitVec 32) :
    FrameOut (Instr.touches (.codecMismatch ord)) s (execCodecMismatch ord s) := by
  dsimp only [Instr.touches]
  refine frameOut_next ?_
  split
  · exact only_gate (only_codecMismatch _ (by decide) (only_refl _ s))
  · exact only_refl _ s

theorem frame_genMismatch (mask : Bool) (ord : BitVec 32) :
    FrameOut (Instr.touches (.genMismatch mask ord)) s (execGenMismatch mask ord s) := by
  dsimp only [Instr.touches]
  have hfault : OnlyChanges (Instr.touches (.genMismatch mask ord)) s (genFault s) :=
    only_genFault (by dsimp only [Instr.touches]; decide) (only_refl _ s)
  refine frameOut_next (only_ite (only_refl _ s) (only_ite (only_gate (only_maskMismatch (by decide) hfault)) ?_))
  split
  · exact only_codecMismatch _ (by decide) hfault
  · exact only_refl _ s

theorem frame_streamReadbackReturn (n : BitVec 4) (ret : ReadBack) :
    FrameOut (Instr.touches (.streamReadbackReturn n ret)) s (execStreamReadbackReturn n ret s) := by
  dsimp only [Instr.touches, execStreamReadbackReturn]
  cases ret with
  | stack ch tag data par =>
    dsimp only
    split
    · split
      · exact frameOut_next (only_memReadReturn _ data par (by decide) (only_refl _ s))
      · exact frameOut_fault _
    · exact frameOut_fault _
  | far tag resp data par => exact frameOut_gate (only_farResponse _ _ _ _ _ (by decide) (only_refl _ s))

theorem frame_prefetchUrgent : FrameOut (Instr.touches .prefetchUrgent) s (execPrefetchUrgent s) := by
  refine frameOut_next ?_
  split
  · exact only_gate (only_setChan _ _ (by decide) (only_refl _ s))
  · exact only_refl _ s

theorem frame_deadlineMiss (n : BitVec 4) : FrameOut (Instr.touches (.deadlineMiss n)) s (execDeadlineMiss n s) := by
  dsimp only [Instr.touches]
  refine frameOut_next ?_
  split
  · exact only_gate (only_report _ _ (by decide) (only_countStrm _ _ (by decide)
      (only_setChan _ _ (by decide) (only_refl _ s))))
  · exact only_refl _ s

theorem frame_exportDone (k : BitVec 3) : FrameOut (Instr.touches (.exportDone k)) s (execExportDone k s) := by
  dsimp only [Instr.touches]
  refine frameOut_next ?_
  split
  · exact only_gate (only_pulse _ (by decide) (only_endJob _ (by decide) (only_setXch _ _ (by decide) (only_refl _ s))))
  · exact only_refl _ s

theorem frame_farRequestNak (write : Bool) (tag : BitVec 12) (par : BitVec 2) :
    FrameOut (Instr.touches (.farRequestNak write tag par)) s (execFarRequestNak write tag par s) := by
  dsimp only [Instr.touches, execFarRequestNak]
  split
  · exact frameOut_next (only_farNak _ tag par (by decide) (only_refl _ s))
  · exact frameOut_fault _

theorem frame_farTimeout (write : Bool) (tag : BitVec 12) :
    FrameOut (Instr.touches (.farTimeout write tag)) s (execFarTimeout write tag s) := by
  dsimp only [Instr.touches]
  refine frameOut_next ?_
  split
  · exact only_gate (only_farTimeout _ (by decide) (only_refl _ s))
  · exact only_refl _ s

theorem frame_maskFillDone : FrameOut (Instr.touches .maskFillDone) s (execMaskFillDone s) := by
  refine frameOut_next ?_
  split
  · exact only_gate (only_maskEnd _ _ (by decide) (only_refl _ s))
  · exact only_refl _ s

theorem frame_reseedInterval : FrameOut (Instr.touches .reseedInterval) s (execReseedInterval s) := by
  refine frameOut_next ?_
  split
  · exact only_gate (only_set_rng (by decide) (only_refl _ s))
  · exact only_refl _ s

theorem frame_conditionedBlock : FrameOut (Instr.touches .conditionedBlock) s (execConditionedBlock s) := by
  refine frameOut_next ?_
  split
  · exact only_gate (only_takeBlock _ (by decide) (only_set_rng (by decide) (only_refl _ s)))
  · exact only_refl _ s

theorem frame_trainMarker (side : Side) : FrameOut (Instr.touches (.trainMarker side)) s (execTrainMarker side s) := by
  dsimp only [Instr.touches]
  have htrain (retrain : Bool) :
      OnlyChanges (Instr.touches (.trainMarker side)) s (startTraining side retrain s) :=
    only_startTraining side retrain (by dsimp only [Instr.touches]; decide) (only_refl _ s)
  exact frameOut_linkRow (by decide) (only_ite (only_refl _ s) (only_ite (only_ite (only_refl _ s) (htrain false))
    (htrain true)))

theorem frame_runMarker (side : Side) : FrameOut (Instr.touches (.runMarker side)) s (execRunMarker side s) := by
  dsimp only [Instr.touches]
  exact frameOut_linkRow (by decide) (only_ite (only_setLink _ _ (by decide) (only_refl _ s))
    (only_gate (only_setLink _ _ (by decide) (only_refl _ s))))

theorem frame_replayTimeout (side : Side) :
    FrameOut (Instr.touches (.replayTimeout side)) s (execReplayTimeout side s) := by
  dsimp only [Instr.touches]
  refine frameOut_linkRow (by decide) (only_ite (only_refl _ s) (only_ite (only_startTraining _ _ (by decide) ?_) ?_))
  all_goals exact only_countLink _ _ _ (by decide) (only_setLink _ _ (by decide) (only_refl _ s))

theorem frame_linkStateTimer : FrameOut (Instr.touches .linkStateTimer) s (execLinkStateTimer s) :=
  frameOut_linkRow (by decide) (only_ite (only_refl _ s)
    (only_broadcast _ _ (by decide) (only_set_ring (by decide) (only_refl _ s))))

theorem frame_testFlit (side : Side) (m : Line) :
    FrameOut (Instr.touches (.testFlit side m)) s (execTestFlit side m s) := by
  dsimp only [Instr.touches]
  refine frameOut_linkRow (by decide) (only_ite ?_ (only_countLink _ _ _ (by decide) ?_))
  all_goals exact only_setLink _ _ (by decide) (only_takeInbox _ _ (by decide) (only_refl _ s))

theorem frame_kstAck (rdata : BitVec 32) (err : Bool) (par : BitVec 5) :
    FrameOut (Instr.touches (.kstAck rdata err par)) s (execKstAck rdata err par s) := by
  dsimp only [Instr.touches, execKstAck]
  split
  · exact frameOut_fault _
  · exact frameOut_next (only_ite (only_kstFailed _ (by decide) (only_refl _ s))
      (only_vaultKst _ _ (by decide) (only_kstLower _ (by decide) (only_refl _ s))))

theorem frame_kstTimeout : FrameOut (Instr.touches .kstTimeout) s (execKstTimeout s) := by
  refine frameOut_next ?_
  split
  · exact only_gate (only_kstFailed _ (by decide) (only_refl _ s))
  · exact only_refl _ s

/-- A start-up that has read the vault goes on to READY after a warm reset, and to the SRAM test otherwise. -/
theorem frame_vaultInitDone : FrameOut (Instr.touches .vaultInitDone) s (execVaultInitDone s) := by
  refine frameOut_gate (only_ite (only_reachReady (by decide) ?_) (only_setBoot _ (by decide) ?_))
  all_goals exact only_vaultJudge (by decide) (only_set_kst_vault (by decide) (by decide) (only_refl _ s))

theorem frame_sramSelftestDone (ok : Bool) :
    FrameOut (Instr.touches (.sramSelftestDone ok)) s (execSramSelftestDone ok s) := by
  dsimp only [Instr.touches]
  exact frameOut_gate (only_ite (only_reachReady (by decide) (only_refl _ s))
    (only_croakSet _ (by decide) (only_setBoot _ (by decide) (only_refl _ s))))

theorem frame_fabricResetDone : FrameOut (Instr.touches .fabricResetDone) s (execFabricResetDone s) := by
  refine frameOut_next ?_
  split
  · exact only_gate (only_fabricResetEnd (by decide) (only_refl _ s))
  · exact only_refl _ s

end

/-! ### Every command -/

/-- What a command answers has changed in the parts of its row only. -/
theorem exec_frame (c : Instr) (s : State) : FrameOut c.touches s (exec c s) := by
  cases c <;> dsimp only [Instr.touches, exec]
  case sealPulse =>
    exact frameOut_gate (only_takeSeal true (by decide) (only_wakeFromRetain (by decide) (only_refl _ s)))
  case stepCtlSeal w | stepCtlAbort w | stepCtlLoadStep w | stepCtlClearHalt w =>
    exact frameOut_ctlWrite (by decide) fun _ => only_writeStepCtl w (by decide)
  case normPassDone => exact frame_normPassDone s
  case abortReq =>
    exact frameOut_gate (only_raiseAbort _ (by decide) (only_wakeFromRetain (by decide) (only_refl _ s)))
  case tongueArm w => exact frameOut_ctlWrite (by decide) fun _ => only_writeArm w (by decide)
  case armClearDone => exact frameOut_gate (only_armCleared (by decide) (only_refl _ s))
  case hostReadRequest port tag req par | hostWriteRequest port tag req mask data par =>
    exact frameOut_gate (only_hostRequest _ _ _ _ _ _ _ (by decide) (only_refl _ s))
  case hostWriteCompletion port tag => exact frame_hostWriteCompletion s _ _
  case hostReturnNak port tag par | hostCompletionNak port tag par =>
    dsimp only [execHostReturnNak, execHostCompletionNak]
    split
    · exact frameOut_next (only_hostNak _ (by decide) (only_nakTag _ _ _ (by decide) (only_refl _ s)))
    · exact frameOut_fault _
  case arbiterGrant chan write tag =>
    exact frameOut_gate (only_arbiterGrant chan write tag (by decide) (only_refl _ s))
  case memoryReadReturn chan tag data par | confirmReadReturn chan tag data par =>
    dsimp only [execMemoryReadReturn, execConfirmReadReturn]
    split
    · exact frameOut_next (only_memReadReturn _ data par (by decide) (only_refl _ s))
    · exact frameOut_fault _
  case memoryReadNak chan tag par | memoryWriteNak chan tag par =>
    dsimp only [execMemoryReadNak, execMemoryWriteNak]
    split
    · exact frameOut_next (only_memNak _ tag par (by decide) (only_refl _ s))
    · exact frameOut_fault _
  case nakCycleEnd kind port tag => exact frameOut_next (only_nakCycleEnd kind port tag (by decide) (only_refl _ s))
  case wcbTimeout line => exact frameOut_gate (only_wcbTimeout line (by decide) (only_refl _ s))
  case tadpoleAgeLimit chan => exact frameOut_gate (only_tadpoleAge chan (by decide) (only_refl _ s))
  case regulatorWindowBoundary => exact frameOut_gate (only_windowEnd (by decide) (only_refl _ s))
  case thermalReport temp limit par => exact frame_thermalReport s _ _ _
  case thermalStale => exact frameOut_gate (only_thermalStale (by decide) (only_refl _ s))
  case throttleDutyWindow => exact frameOut_gate (only_dutyEnd (by decide) (only_refl _ s))
  case contrib src m | sum src m | skipNotice src m | holdNotice src m | abortNotice src m | join src m |
      joinSum src m => exact frameOut_next (only_fromBelow src m (by decide) (only_refl _ s))
  case epochOpen src m => exact frameOut_next (only_takeOpen src m (by decide) (only_refl _ s))
  case contribTimeout => exact frame_contribTimeout s
  case joinTimeout => exact frame_joinTimeout s
  case verdictRecordGo src m | verdictRecordSkip src m | verdictRecordAbort src m =>
    exact frameOut_next (only_takeRecord src m (by decide) (only_refl _ s))
  case flashGo side | flashSkip side | flashHold side | flashAbort side =>
    exact frameOut_next (only_takeFlash side _ (by decide) (only_refl _ s))
  case gateOpen => exact frame_gateOpen s
  case leaseAcquire w | leaseRenew w | leaseRelease w | leaseRead w =>
    exact frameOut_ctlWrite (by decide) fun _ => only_writeLease w (by decide)
  case membCommit w => exact frameOut_ctlWrite (by decide) fun _ => only_writeMembCommit w (by decide)
  case rootLsnWrite w => exact frameOut_ctlWrite (by decide) fun _ => only_writeRootLsn w (by decide)
  case mapBuildDone => exact frameOut_gate (only_mapBuildEnd (by decide) (only_refl _ s))
  case fetchIssue => exact frameOut_next (only_fetchIssue (by decide) (only_refl _ s))
  case tileEnterChain => exact frameOut_next (only_enterChain (by decide) (only_refl _ s))
  case momentGroupHandover => exact frameOut_next (only_momentHandover (by decide) (only_refl _ s))
  case momentsConfirmed => exact frameOut_gate (only_momentsConfirmed (by decide) (only_refl _ s))
  case weightGroupHandover => exact frameOut_next (only_weightHandover (by decide) (only_refl _ s))
  case weightsConfirmed => exact frameOut_next (only_weightsConfirmed (by decide) (only_refl _ s))
  case pass1Done => exact frameOut_next (only_pass1Done (by decide) (only_refl _ s))
  case sweepHalt => exact frameOut_gate (only_sweepHalt (by decide) (only_refl _ s))
  case marksLineWrite => exact frameOut_gate (only_writeMarks (by decide) (only_refl _ s))
  case residueFault rank lane unit ord => exact frame_residueFault s _ _ _ _
  case shedDrainDone => exact frameOut_gate (only_drainDone (by decide) (only_refl _ s))
  case codecMismatch ord => exact frame_codecMismatch s _
  case genMismatch mask ord => exact frame_genMismatch s _ _
  case stepkCommit w => exact frameOut_ctlWrite (by decide) fun _ => only_writeStepkCommit w (by decide)
  case swpCommit w => exact frameOut_ctlWrite (by decide) fun _ => only_writeSwpCommit w (by decide)
  case stagedSetApply blk => exact frameOut_gate (only_applyStaged blk (by decide) (only_refl _ s))
  case ttabLoad w => exact frameOut_ctlWrite (by decide) fun _ => only_writeTtabCtl w (by decide)
  case tableLoadDone => exact frameOut_gate (only_tableEnd (by decide) (only_refl _ s))
  case sweepResume w | sweepRecover w => exact frameOut_ctlWrite (by decide) fun _ => only_writeSweepCtl w (by decide)
  case fabShedWrite w => exact frameOut_ctlWrite (by decide) fun _ => only_writeFabShed w (by decide)
  case fabCntClear w => exact frameOut_ctlWrite (by decide) fun _ => only_writeFabCtl w (by decide)
  case emaStart w | emaReseed w => exact frameOut_ctlWrite (by decide) fun _ => only_writeAuxCtl w (by decide)
  case emaPassDone => exact frameOut_next (only_emaDone (by decide) (only_refl _ s))
  case lscaleLoad w => exact frameOut_ctlWrite (by decide) fun _ => only_writeLscale w (by decide)
  case imgLoad w | imgMolt w | imgDiscard w =>
    exact frameOut_ctlWrite (by decide) fun _ => only_writeImgCtl w (by decide)
  case imageReadDone => exact frameOut_gate (only_imageReadEnd (by decide) (only_refl _ s))
  case imageVerifyDone => exact frameOut_gate (only_verifyEnd (by decide) (only_refl _ s))
  case moltDone => exact frameOut_gate (only_pulse _ (by decide) (only_setImage _ (by decide) (only_refl _ s)))
  case portPlanApply => exact frameOut_gate (only_applyPlan (by decide) (only_refl _ s))
  case chTailWrite n w => exact frameOut_ctlWrite (by decide) fun _ => only_writeTail n.toNat w (by decide)
  case descriptorFetchDone n => exact frameOut_gate (only_afterFetch _ (by decide) (only_refl _ s))
  case chStop n w | chCancel n w | chResume n w | chReset n w =>
    exact frameOut_ctlWrite (by decide) fun _ => only_writeChCtl n.toNat w (by decide)
  case streamBurstGrant issue => exact frameOut_next (only_streamBurstGrant issue (by decide) (only_refl _ s))
  case farBurstGrant write tags => exact frameOut_gate (only_farBurstGrant write tags (by decide) (only_refl _ s))
  case pieceWritesDone n piece =>
    exact frameOut_gate (only_pieceThrough n.toNat piece.toNat (by decide) (only_refl _ s))
  case pqPop n => exact frameOut_gate (only_popEntry n.toNat (by decide) (only_refl _ s))
  case streamReadbackReturn n ret => exact frame_streamReadbackReturn s _ _
  case descriptorWritebackDone n => exact frameOut_gate (only_completeTask n.toNat (by decide) (only_refl _ s))
  case padWatchdog n =>
    exact frameOut_gate (only_abortTask _ _ (by decide) (only_countStrm _ _ (by decide) (only_refl _ s)))
  case pondStall => exact frameOut_gate (only_pondStall (by decide) (only_refl _ s))
  case prefetchUrgent => exact frame_prefetchUrgent s
  case deadlineMiss n => exact frame_deadlineMiss s _
  case pondAllocate picks => exact frameOut_gate (only_pondAllocate picks (by decide) (only_refl _ s))
  case padFree handle freer => exact frameOut_gate (only_padFree handle freer (by decide) (only_refl _ s))
  case pqFlush w => exact frameOut_ctlWrite (by decide) fun _ => only_writePqCtl w (by decide)
  case strmCommit w => exact frameOut_ctlWrite (by decide) fun _ => only_writeStrmCommit w (by decide)
  case xchCommit w => exact frameOut_ctlWrite (by decide) fun _ => only_writeXchCommit w (by decide)
  case xchStart k w | xchStop k w | rebase k w =>
    exact frameOut_ctlWrite (by decide) fun _ => only_writeXchCtl k.toNat w (by decide)
  case exportDone k => exact frame_exportDone s _
  case deltaStepEnd k => exact frameOut_gate (only_stepEnd k.toNat (by decide) (only_refl _ s))
  case doorbellWrite k | creditRead k => exact frameOut_gate (only_setXch _ _ (by decide) (only_refl _ s))
  case farReadData tag resp data par =>
    exact frameOut_gate (only_farResponse false tag resp data _ (by decide) (only_refl _ s))
  case farWriteResponse tag resp par => exact frameOut_gate (only_farResponse _ _ _ _ _ (by decide) (only_refl _ s))
  case farRequestNak write nakTag nakPar => exact frame_farRequestNak s _ _ _
  case farTimeout write tag => exact frame_farTimeout s _ _
  case maskStart w | maskStop w => exact frameOut_ctlWrite (by decide) fun _ => only_writeMaskCtl w (by decide)
  case maskFillDone => exact frame_maskFillDone s
  case reseedNow w => exact frameOut_ctlWrite (by decide) fun _ => only_writeRngCtl w (by decide)
  case reseedInterval => exact frame_reseedInterval s
  case reseed => exact frameOut_gate (only_countRng _ _ (by decide) (only_set_rng (by decide) (only_refl _ s)))
  case noiseRawBit bit => exact frameOut_gate (only_noiseBit bit (by decide) (only_refl _ s))
  case conditionedBlock => exact frame_conditionedBlock s
  case rngLaneWrite n w => exact frameOut_ctlWrite (by decide) fun _ => only_writeLane n.toNat w (by decide)
  case linkClockLock side locked =>
    exact frameOut_linkRow (by decide) (only_clockDone side locked (by decide) (only_refl _ s))
  case patternDone side errors =>
    exact frameOut_linkRow (by decide) (only_patternDone side errors (by decide) (only_refl _ s))
  case marginDone side margins =>
    exact frameOut_linkRow (by decide) (only_marginDone side margins (by decide) (only_refl _ s))
  case mapWord side word crc =>
    exact frameOut_linkRow (by decide) (only_mapWordIn side word crc (by decide) (only_refl _ s))
  case ident side frame => exact frameOut_linkRow (by decide) (only_identIn side frame (by decide) (only_refl _ s))
  case identityDone side => exact frameOut_linkRow (by decide) (only_identityEnd side (by decide) (only_refl _ s))
  case trainAttemptFailed side => exact frameOut_linkRow (by decide) (only_trainFail side (by decide) (only_refl _ s))
  case linkRetrain side w | holdDownWrite side w | xlSleepWrite side w | xlTestWrite side w =>
    exact frameOut_ctlWrite (by decide) fun _ => only_writeXlCtl side w (by decide)
  case trainMarker side => exact frame_trainMarker s _
  case runMarker side => exact frame_runMarker s _
  case verdictMarker side =>
    exact frameOut_linkRow (by decide) (only_gate (only_setLink _ _ (by decide) (only_refl _ s)))
  case sleepMarker side =>
    exact frameOut_linkRow (by decide) (only_gate (only_sleepIfBoth _ (by decide)
      (only_setLink _ _ (by decide) (only_refl _ s))))
  case forwardedClockLost side | downRetry side | forwardedClockDetected side =>
    exact frameOut_linkRow (by decide) (only_gate (only_startTraining _ _ (by decide) (only_refl _ s)))
  case frameReceive side frame =>
    exact frameOut_linkRow (by decide) (only_frameIn side frame (by decide) (only_refl _ s))
  case chameleonWord side lane word crc =>
    exact frameOut_linkRow (by decide) (only_chameleonIn side lane word crc (by decide) (only_refl _ s))
  case replayTimeout side => exact frame_replayTimeout s _
  case crcWindowEnd side => exact frameOut_linkRow (by decide) (only_setLink _ _ (by decide) (only_refl _ s))
  case frameSlot side => exact frameOut_linkRow (by decide) (only_frameSlot side (by decide) (only_refl _ s))
  case linkState side m =>
    exact frameOut_linkRow (by decide) (only_linkStateIn m (by decide)
      (only_takeInbox (sourceOf side) m (by decide) (only_refl _ s)))
  case linkStateTimer => exact frame_linkStateTimer s
  case wakeRequest side =>
    exact frameOut_linkRow (by decide) (only_linkWake side (by decide) (only_wakeFromRetain (by decide) (only_refl _ s)))
  case testFlit side m => exact frame_testFlit s _ _
  case fmpData beats | fmpAck beats =>
    exact frameOut_next (only_fmpIn _ (by decide) (only_wakeFromRetain (by decide) (only_refl _ s)))
  case fmpResendTimeout dest seq => exact frameOut_gate (only_fmpTimeout dest seq (by decide) (only_refl _ s))
  case eventEmit => exact frameOut_gate (only_eventEmit (by decide) (only_refl _ s))
  case kstAck rdata err par => exact frame_kstAck s _ _ _
  case kstTimeout => exact frame_kstTimeout s
  case registerWrite addr w par => exact frameOut_next (only_portWrite addr w par (by decide) (only_refl _ s))
  case pwrOkLow ns | coldReset ns => exact frameOut_next (only_coldPin _ _ _ (by decide) (only_refl _ s))
  case pllLock => exact frameOut_gate (only_startBoot (by decide) (only_set_clk (by decide) (only_refl _ s)))
  case pllUnlock => exact frameOut_gate (only_coldClear 0x03 false (by decide) (only_refl _ s))
  case vaultInitDone => exact frame_vaultInitDone s
  case sramSelftestDone ok => exact frame_sramSelftestDone s _
  case warmReset ns => exact frameOut_next (only_warmPin ns (by decide) (only_refl _ s))
  case gctlWarmReset w | linkReset w | fabricReset w | fabDivWrite w =>
    exact frameOut_ctlWrite (by decide) fun _ => only_writeGctl w (by decide)
  case warmResetDrainDone =>
    exact frameOut_gate (only_startBoot (by decide) (only_warmClear (by decide) (only_refl _ s)))
  case fabricResetDone => exact frame_fabricResetDone s
  case fabDivApply => exact frameOut_gate (only_divApply (by decide) (only_refl _ s))
  case powerWakeDone => exact frameOut_gate (only_powerWake (by decide) (only_refl _ s))
  case activeExit => exact frameOut_gate (only_activeExit (by decide) (only_refl _ s))
  case retainEntry => exact frameOut_gate (only_retainEnter (by decide) (only_refl _ s))
  case retainWake => exact frameOut_gate (only_retainLeave (by decide) (only_refl _ s))
  case vaultKeygen w | vaultProgram w | vaultLock w | vaultRead w | vaultQuote w =>
    exact frameOut_ctlWrite (by decide) fun _ => only_writeVaultOp w _ (by decide)
  case quoteDone => exact frameOut_gate (only_quoteEnd (by decide) (only_refl _ s))
  case sramUe array word scrub sfu =>
    exact frameOut_gate (only_sramUe array word scrub sfu (by decide) (only_refl _ s))
  case sramCe array word scrub => exact frameOut_gate (only_sramCe array word scrub (by decide) (only_refl _ s))
  case scrubInterval => exact frameOut_gate (only_scrubEnd (by decide) (only_refl _ s))
  case croakEccWindow => exact frameOut_gate (only_eccRoll (by decide) (only_refl _ s))
  case croakCauseWrite w => exact frameOut_ctlWrite (by decide) fun _ => only_writeCroak w (by decide)
  case errPop w => exact frameOut_ctlWrite (by decide) fun _ => only_writeErrPop w (by decide)
  case snapTake w => exact frameOut_ctlWrite (by decide) fun _ => only_writeSnapCtl w (by decide)
  case mpCommit w => exact frameOut_ctlWrite (by decide) fun _ => only_writeMpCommit w (by decide)
  case resetRelease pin => exact frameOut_next (only_release pin (by decide) (only_refl _ s))

/-- Settles O4: each command's operations, by their frames, stay in the parts of its row. -/
theorem commandsKeepTheRest : Obligations.CommandsKeepTheRest := fun c s => exec_frame c s

end Sys2Proof.Machine

/-! PROOF. What the step's operations leave (O22, O27-O33, O41): the parts that the operations the step is made of do
not touch, one law each from their frames (Laws/Only*.lean); the channels of EXPORT, one by one. -/
namespace Sys2Proof.Machine

/-! ### Parts that stay, by the frames of the operations -/

section
variable (s : State)

@[simp] theorem dropBases_step : (dropBases s).step = s.step :=
  (only_dropBases (List.Subset.refl _) (only_refl _ s)).part .step (by decide)
@[simp] theorem dropBases_verdict : (dropBases s).verdict = s.verdict :=
  (only_dropBases (List.Subset.refl _) (only_refl _ s)).part .verdict (by decide)
@[simp] theorem recheckKept_step : (recheckKept s).step = s.step :=
  (only_recheckKept (List.Subset.refl _) (only_refl _ s)).part .step (by decide)

@[simp] theorem setStep_step (n : BitVec 32) : (setStep n s).step = { s.step with step := n } := by
  rw [setStep, recheckKept_step]; rfl

end

/-! ### Export and delta channels, one by one -/

theorem xchan_of_xch {s t : State} (h : t.xch = s.xch) (k : Nat) : xchan t k = xchan s k := by
  rw [xchan, xchan, h]

theorem xchan_setXch_ne {j k : Nat} (h : j ≠ k) (f : XChan → XChan) (s : State) :
    xchan (setXch k f s) j = xchan s j := by
  simp [xchan, setXch, List.getD_eq_getElem?_getD, h.symm]

/-- What an update makes of its channel, where the channel that is not there has it too. -/
theorem xchan_setXch_same {P : XChan → Prop} {f : XChan → XChan} (h0 : P {}) (hf : ∀ c, P (f c)) (k : Nat) (s : State) :
    P (xchan (setXch k f s) k) := by
  simp only [xchan, setXch, List.getD_eq_getElem?_getD, List.getElem?_modify, if_true]
  cases s.xch.chans[k]? with
  | none => exact h0
  | some c => exact hf c

/-- What an operation makes of its own channel and leaves alone on the others holds of each channel after its turn. -/
theorem xchan_foldl_range {P : XChan → Prop} {g : State → Nat → State} (hsame : ∀ s k, P (xchan (g s k) k))
    (hne : ∀ s j k, j ≠ k → xchan (g s k) j = xchan s j) (s : State) (n : Nat) :
    ∀ k < n, P (xchan ((List.range n).foldl g s) k) := by
  induction n with
  | zero => intro k hk; exact absurd hk (Nat.not_lt_zero k)
  | succ n ih =>
    intro k hk
    rw [List.range_succ, List.foldl_append, List.foldl_cons, List.foldl_nil]
    by_cases hkn : k = n
    · rw [hkn]; exact hsame _ n
    · rw [hne _ _ _ hkn]; exact ih k (by omega)

/-- BASE_VALID falls on every delta channel (R356). -/
theorem dropBases_baseValid (s : State) : ∀ k < 4, (xchan (dropBases s) k).baseValid = false :=
  xchan_foldl_range (P := fun c => c.baseValid = false)
    (fun s k => xchan_setXch_same (P := fun c => c.baseValid = false) rfl (fun _ => rfl) k s)
    (fun s _ _ h => xchan_setXch_ne h _ s) s 4

end Sys2Proof.Machine

/-! PROOF. STEP_STATUS and STEP_CTL (O25, O22): a field of a word put together from fields, and the checks of a
write of STEP_CTL, one equation per check. -/
namespace Sys2Proof.Machine

/-! ### Fields of a word that is put together from fields (R17) -/

theorem field_or {m : Nat} (a b : BitVec m) (lo n : Nat) : field (a ||| b) lo n = field a lo n ||| field b lo n := by
  ext i hi
  simp [field]

/-- A field reads back where it was put. -/
theorem field_put_same {n : Nat} (v : BitVec n) {lo : Nat} (h : lo + n ≤ 64) : field (put lo v) lo n = v := by
  ext i hi
  have hlo : lo + i < 64 := by omega
  simp [field, put, hlo, BitVec.getLsbD_eq_getElem hi]

/-- What was put above a field is not seen in it. -/
theorem field_put_above {m : Nat} (v : BitVec m) {lo n at' : Nat} (h : lo + n ≤ at') : field (put at' v) lo n = 0 := by
  ext i hi
  have hat : lo + i < at' := by omega
  simp [field, put, hat]

/-- What was put below a field is not seen in it. -/
theorem field_put_below {m : Nat} (v : BitVec m) {lo n at' : Nat} (h : at' + m ≤ lo) : field (put at' v) lo n = 0 := by
  ext i hi
  have hv : v.getLsbD (lo + i - at') = false := BitVec.getLsbD_of_ge v _ (by omega)
  simp [field, put, hv]

/-! ### STEP_STATUS (R21, R22) -/

theorem readReg_stepStatus (s : State) : readReg s 0x000020 = some (stepStatusWord s) := rfl

theorem stepStatusWord_step (s : State) : field (stepStatusWord s) 32 32 = s.step.step := by
  simp [stepStatusWord, field_or, field_put_same, field_put_below]

theorem stepStatusWord_released (s : State) : field (stepStatusWord s) 16 16 = s.step.released := by
  simp [stepStatusWord, field_or, field_put_same, field_put_below, field_put_above]

theorem stepStatusWord_flash (s : State) : field (stepStatusWord s) 8 2 = s.step.flash.code := by
  simp [stepStatusWord, field_or, field_put_same, field_put_below, field_put_above]

theorem stepStatusWord_phase (s : State) : fieldNat (stepStatusWord s) 0 4 = s.step.phase.code.toNat := by
  have h : field (stepStatusWord s) 0 4 = s.step.phase.code := by
    simp [stepStatusWord, field_or, field_put_same, field_put_above]
  exact congrArg BitVec.toNat h

theorem Phase.code_le (p : Phase) : p.code.toNat ≤ 8 := by cases p <;> decide

/-- The codes of R22, and that they tell the phases apart. -/
theorem Phase.eq_iff_code (q : Phase) : ∀ x ∈ [(Phase.notReady, 0), (.idle, 1), (.observe, 2), (.sealed, 3),
    (.normPass, 4), (.awaitVerdict, 5), (.pass1, 6), (.sweep, 7), (.halted, 8)], q = x.1 ↔ q.code.toNat = x.2 := by
  cases q <;> decide

/-- Settles O25: each field of STEP_STATUS reads back, and PHASE by its code. -/
theorem stepStatusReads : Obligations.StepStatusReads := by
  intro s
  refine ⟨stepStatusWord s, readReg_stepStatus s, stepStatusWord_step s, stepStatusWord_released s,
    stepStatusWord_flash s, ?_, fun p k hpk => ?_⟩
  · rw [stepStatusWord_phase]
    exact s.step.phase.code_le
  · rw [stepStatusWord_phase]
    exact s.step.phase.eq_iff_code (p, k) hpk

/-! ### STEP_CTL (R23, R24) -/

/-- One action bit, or none, is no conflict. -/
theorem popCount_action {w : Word} (h : fieldNat w 0 4 = 0 ∨ fieldNat w 0 4 = 1 ∨ fieldNat w 0 4 = 2 ∨
    fieldNat w 0 4 = 4 ∨ fieldNat w 0 4 = 8) : ¬ 1 < popCount (field w 0 4) := by
  have hfield : ∀ k, fieldNat w 0 4 = k → field w 0 4 = BitVec.ofNat 4 k := fun k hk =>
    BitVec.eq_of_toNat_eq (by rw [← hk]; simp [field, fieldNat])
  rcases h with h | h | h | h | h <;> rw [hfield _ h] <;> decide

section
variable {w : Word} {s : State}

theorem writeStepCtl_none (h : fieldNat w 0 4 = 0) : writeStepCtl w s = s := by
  simp [writeStepCtl, h]

theorem writeStepCtl_conflict (h : 1 < popCount (field w 0 4)) :
    writeStepCtl w s = report 0x0102 (put 0 (field w 32 32 : BitVec 32)) s := by
  have hbits : fieldNat w 0 4 ≠ 0 := fun h0 => popCount_action (.inl h0) h
  simp [writeStepCtl, hbits, h]

theorem writeStepCtl_load (h : fieldNat w 0 4 = 4) :
    writeStepCtl w s = if s.step.phase = .idle then dropBases (setStep (field w 32 32) s)
      else report 0x0103 0x28 s := by
  have hone : ¬ 1 < popCount (field w 0 4) := popCount_action (by simp [h])
  simp [writeStepCtl, h, hone, stepCtlAddr]

/-- A seal, an abort or a CLEAR_HALT of another step (R24). -/
theorem writeStepCtl_mismatch (h : fieldNat w 0 4 = 1 ∨ fieldNat w 0 4 = 2 ∨ fieldNat w 0 4 = 8)
    (hstep : (field w 32 32 : BitVec 32) ≠ s.step.step) :
    writeStepCtl w s = report 0x0101 (put 32 s.step.step ||| put 0 (field w 32 32 : BitVec 32)) s := by
  have hone : ¬ 1 < popCount (field w 0 4) := popCount_action (by omega)
  have h0 : fieldNat w 0 4 ≠ 0 := by omega
  have h4 : fieldNat w 0 4 ≠ 4 := by omega
  simp [writeStepCtl, h0, h4, hone, hstep]

theorem writeStepCtl_seal (h : fieldNat w 0 4 = 1) (hstep : (field w 32 32 : BitVec 32) = s.step.step) :
    writeStepCtl w s = takeSeal false s := by
  have hone : ¬ 1 < popCount (field w 0 4) := popCount_action (by simp [h])
  simp [writeStepCtl, h, hone, hstep]

theorem writeStepCtl_abort (h : fieldNat w 0 4 = 2) (hstep : (field w 32 32 : BitVec 32) = s.step.step) :
    writeStepCtl w s = raiseAbort 0x28 s := by
  have hone : ¬ 1 < popCount (field w 0 4) := popCount_action (by simp [h])
  simp [writeStepCtl, h, hone, hstep, stepCtlAddr]

theorem writeStepCtl_clearHalt (h : fieldNat w 0 4 = 8) (hstep : (field w 32 32 : BitVec 32) = s.step.step) :
    writeStepCtl w s = clearHalt s := by
  have hone : ¬ 1 < popCount (field w 0 4) := popCount_action (by simp [h])
  simp [writeStepCtl, h, hone, hstep]

/-- Each row of STEP_CTL is one write of the register. -/
theorem exec_stepCtl (ha : Applies s) {c : Instr}
    (hc : c ∈ [Instr.stepCtlSeal w, .stepCtlAbort w, .stepCtlLoadStep w, .stepCtlClearHalt w]) :
    exec c s = .next (respond 0x04 (writeStepCtl w s)) := by
  have hrow : exec c s = .next (ctlWrite stepCtlAddr w (writeStepCtl w) s) := by
    simp only [List.mem_cons, List.not_mem_nil, or_false] at hc
    rcases hc with rfl | rfl | rfl | rfl <;> rfl
  rw [hrow, ctlWrite_applies ha]

end

/-- Settles O22: each check of the write, by its equation. -/
theorem stepCtlChecks : Obligations.StepCtlChecks := by
  intro s w ha c hc
  rw [exec_stepCtl ha hc]
  refine ⟨fun h => ?_, fun h => ?_, fun h hidle => ?_, fun h hstep => ?_⟩
  · rw [writeStepCtl_none h]
  · rw [writeStepCtl_conflict h]
  · refine ⟨_, rfl, ?_⟩
    rw [respond_step, writeStepCtl_load h, if_pos hidle, dropBases_step, setStep_step]
  · rw [writeStepCtl_mismatch h hstep]

end Sys2Proof.Machine

/-! PROOF. What an aggregator's work leaves of the verdict (O30, O32): of the whole of it only a hold may begin or lift,
whatever messages are taken and kept ones are checked again (R223, R230, R568). -/
namespace Sys2Proof.Machine

/-- From v to w nothing has changed but the hold and its cause. -/
def Verdict.OnlyHold (v w : Verdict) : Prop := w = { v with holding := w.holding, holdCause := w.holdCause }

theorem Verdict.OnlyHold.refl (v : Verdict) : v.OnlyHold v := Eq.refl v

theorem Verdict.OnlyHold.trans {u v w : Verdict} (h : u.OnlyHold v) (h' : v.OnlyHold w) : u.OnlyHold w := by
  rw [Verdict.OnlyHold] at *
  rw [h', h]

section
variable {v w : Verdict} (h : v.OnlyHold w)
include h

theorem Verdict.OnlyHold.attempt : w.attempt = v.attempt := by rw [h]
theorem Verdict.OnlyHold.record : w.record = v.record := by rw [h]

end

section
variable (s : State)

@[simp] theorem holdNotice_verdict (cause : BitVec 8) : (holdNotice cause s).verdict = s.verdict :=
  (only_holdNotice cause (List.Subset.refl _) (only_refl _ s)).part .verdict (by decide)
@[simp] theorem flashRing_verdict (f : Flash) : (flashRing f s).verdict = s.verdict :=
  (only_flashRing f (List.Subset.refl _) (only_refl _ s)).part .verdict (by decide)
@[simp] theorem ringSum_verdict : (ringSum s).verdict = s.verdict :=
  (only_ringSum (List.Subset.refl _) (only_refl _ s)).part .verdict (by decide)
@[simp] theorem issueRecord_verdict (f : RecordBody) : (issueRecord f s).verdict = s.verdict :=
  (only_issueRecord f (List.Subset.refl _) (only_refl _ s)).part .verdict (by decide)
@[simp] theorem sendUp_verdict (m : Line) : (sendUp m s).verdict = s.verdict :=
  (only_sendUp m (List.Subset.refl _) (only_refl _ s)).part .verdict (by decide)
@[simp] theorem skipUp_verdict (m : Line) : (skipUp m s).verdict = s.verdict :=
  (only_skipUp m (List.Subset.refl _) (only_refl _ s)).part .verdict (by decide)
@[simp] theorem joinIfWhole_verdict : (joinIfWhole s).verdict = s.verdict :=
  (only_joinIfWhole (List.Subset.refl _) (only_refl _ s)).part .verdict (by decide)
@[simp] theorem holdJoin_verdict (cause : BitVec 8) (hi : BitVec 32) (src : BitVec 16) :
    (holdJoin cause hi src s).verdict = s.verdict :=
  (only_holdJoin cause hi src (List.Subset.refl _) (only_refl _ s)).part .verdict (by decide)
@[simp] theorem abortUp_verdict : (abortUp s).verdict = s.verdict :=
  (only_abortUp (List.Subset.refl _) (only_refl _ s)).part .verdict (by decide)
@[simp] theorem startTimeout_verdict : (startTimeout s).verdict = s.verdict := rfl
@[simp] theorem keepMsg_verdict (m : Line) : (keepMsg s m).verdict = s.verdict := rfl

end

section
variable {v : Verdict} {s : State}

theorem onlyHold_ite {c : Prop} [Decidable c] {a b : State} (ha : v.OnlyHold a.verdict) (hb : v.OnlyHold b.verdict) :
    v.OnlyHold (if c then a else b).verdict := by
  split <;> assumption

/-- A hold, from whatever the hold and its cause were. -/
theorem Verdict.OnlyHold.set (h : v.OnlyHold s.verdict) (b : Bool) (c : BitVec 8) :
    v.OnlyHold { s.verdict with holding := b, holdCause := c } := by
  rw [h]; exact Eq.refl _

variable (h : v.OnlyHold s.verdict)
include h

theorem onlyHold_holdStep (cause : BitVec 8) (hi : BitVec 32) (src : BitVec 16) :
    v.OnlyHold (holdStep cause hi src s).verdict := by
  refine onlyHold_ite h ?_
  rw [holdNotice_verdict, flashRing_verdict]
  exact (onlyHold_ite (a := report (0x0400 + cause.setWidth 16) (put 32 hi ||| put 0 src) s) h
    (by rwa [pulse_verdict])).set true cause

theorem onlyHold_liftTimeout : v.OnlyHold (liftTimeout s).verdict := onlyHold_ite (h.set false 0) h

theorem onlyHold_sumIfWhole : v.OnlyHold (sumIfWhole s).verdict := by
  have hring : v.OnlyHold (ringSum s).verdict := by rwa [ringSum_verdict]
  have hlift : v.OnlyHold (liftTimeout (ringSum s)).verdict := onlyHold_liftTimeout hring
  refine onlyHold_ite hring (onlyHold_ite hlift (onlyHold_ite ?_ ?_))
  · split
    · rwa [issueRecord_verdict]
    · exact hlift
  · rwa [sendUp_verdict]

theorem onlyHold_acceptMsg (m : Line) : v.OnlyHold (acceptMsg m s).verdict := by
  refine onlyHold_ite (onlyHold_sumIfWhole (onlyHold_ite ?_ h)) (onlyHold_ite ?_ (onlyHold_ite ?_
    (onlyHold_ite (onlyHold_ite ?_ (onlyHold_holdStep (by exact h) _ _ _)) (onlyHold_ite ?_ h))))
  · rwa [skipUp_verdict]
  · rwa [joinIfWhole_verdict]
  · rwa [skipUp_verdict]
  · rwa [holdJoin_verdict]
  · rwa [abortUp_verdict]

theorem onlyHold_holdFor (cause : BitVec 8) (m : Line) : v.OnlyHold (holdFor cause m s).verdict := by
  have hcount : v.OnlyHold (if cause = 1 && msgTag m ≠ activeTag s then countHier 1 1 s else s).verdict :=
    onlyHold_ite h h
  refine onlyHold_ite ?_ (onlyHold_holdStep hcount _ _ _)
  rwa [holdJoin_verdict]

theorem onlyHold_aggregate (m : Line) : v.OnlyHold (aggregate m s).verdict := by
  refine onlyHold_ite h ?_
  split
  · exact h
  · exact h
  · exact onlyHold_ite h h
  · exact onlyHold_ite h (onlyHold_acceptMsg h m)
  · exact onlyHold_ite h (onlyHold_holdFor h _ m)

end

/-- Kept messages that are checked again may hold the step, and change nothing else of the verdict. -/
theorem onlyHold_recheckKept (s : State) : s.verdict.OnlyHold (recheckKept s).verdict := by
  have hfold : ∀ (ms : List Line) (u : State), s.verdict.OnlyHold u.verdict →
      s.verdict.OnlyHold (ms.foldl (fun s m => aggregate m s) u).verdict := by
    intro ms
    induction ms with
    | nil => exact fun _ h => h
    | cons m ms ih => exact fun u h => ih _ (onlyHold_aggregate h m)
  exact hfold s.hier.kept { s with hier := { s.hier with kept := [] } } (.refl _)

end Sys2Proof.Machine

/-! PROOF. The loads of IDLE (O30). -/
namespace Sys2Proof.Machine

theorem setStep_attempt (n : BitVec 32) (s : State) : (setStep n s).verdict.attempt = 0 := by
  rw [setStep, (onlyHold_recheckKept _).attempt]

/-- R25, R356, R568. -/
theorem loadStep : Rules.LoadStep := by
  intro s w ha hbits
  rw [exec_stepCtl (w := w) (c := .stepCtlLoadStep w) ha (by simp), writeStepCtl_load hbits]
  refine ⟨fun hidle => ⟨_, rfl, ?_⟩, fun hidle => by rw [if_neg hidle]⟩
  rw [if_pos hidle]
  refine ⟨?_, ?_, rfl, fun k hk => ?_⟩
  · rw [respond_step, dropBases_step, setStep_step]
  · rw [respond_verdict, dropBases_verdict, setStep_attempt]
  · rw [xchan_of_xch (respond_xch _ _)]
    exact dropBases_baseValid _ k hk

section
variable {w : Word} {s : State}

theorem writeRootLsn_idle (h : s.step.phase = .idle) :
    writeRootLsn w s = { s with verdict := { s.verdict with rootLsn := field w 0 16 } } := by simp [writeRootLsn, h]

theorem writeRootLsn_refused (h : s.step.phase ≠ .idle) : writeRootLsn w s = report 0x0109 0x010318 s := by
  simp [writeRootLsn, h, rootLsnAddr]

theorem writeLscale_idle (hload : w.getLsbD 40 = true) (h : s.step.phase = .idle)
    (hk : (field w 32 6 : BitVec 6) ≤ 32) :
    writeLscale w s = { s with lscale := { k := field w 32 6, kNext := field w 32 6 } } := by
  have hlt : ¬ (32 : BitVec 6) < field w 32 6 := BitVec.not_lt.mpr hk
  simp only [writeLscale, hload, h, hlt, Bool.not_true, bne_self_eq_false, Bool.false_eq_true, if_false]

theorem writeLscale_refused (hload : w.getLsbD 40 = true) (h : s.step.phase ≠ .idle) :
    writeLscale w s = report 0x0109 0x000250 s := by
  simp only [writeLscale, hload, bne_iff_ne.mpr h, Bool.not_true, Bool.false_eq_true, if_false, if_true]
  rfl

/-- An accepted MEMB_COMMIT (R219, R530). -/
theorem writeMembCommit_accepted (hbit : w.getLsbD 0 = true) (hplan : planOf s ≠ none) (hfree : s.memb.pending = none)
    (hphase : s.step.phase = .idle ∨ s.step.phase = .observe) (hlater : s.memb.epoch.toNat < s.memb.stage.toNat) :
    writeMembCommit w s = { s with memb := { s.memb with
      err := 0, pending := some (s.memb.stage, nextBoundary (now s) 64) } } := by
  have hp : (planOf s).isNone = false := by rw [Option.isNone_eq_false_iff]; exact Option.isSome_iff_ne_none.mpr hplan
  have hb : (!(s.step.phase == .idle || s.step.phase == .observe)) = false := by
    rcases hphase with h | h <;> simp [h]
  have hl : ¬ s.memb.stage.toNat ≤ s.memb.epoch.toNat := by omega
  simp only [writeMembCommit, hbit, hp, hfree, hb, hl, Bool.not_true, Option.isSome_none, Bool.false_eq_true, if_false,
    if_true]
  rfl

end

/-- R148, R149, R219, R239, R530. -/
theorem jobWrites : Rules.JobWrites := by
  intro s w ha
  simp only [exec, execRootLsnWrite, execLscaleLoad, execMembCommit, ctlWrite_applies ha]
  refine ⟨fun h => ?_, fun h => ?_, fun hload h hk => ?_, fun hload h => ?_, fun hbit hplan hfree hphase hlater => ?_⟩
  · rw [writeRootLsn_idle h]
  · rw [writeRootLsn_refused h]
  · rw [writeLscale_idle hload h hk]
  · rw [writeLscale_refused hload h]
  · rw [writeMembCommit_accepted hbit hplan hfree hphase hlater]

/-- Settles O30: LOAD_STEP by its equation and the laws of setStep, the other writes by an equation each. -/
theorem loadsInIdle : Obligations.LoadsInIdle := ⟨loadStep, jobWrites⟩

end Sys2Proof.Machine

/-! PROOF. Verdict records (O32, O33): what a record has changed before it is judged, what a rejection does, and what
each applied code does. -/
namespace Sys2Proof.Machine

/-! ### Gates and clocks of a state whose parts agree -/

section
variable {L : List Part} {s t : State} (h : OnlyChanges L s t)
include h

theorem OnlyChanges.now (hc : Part.clk ∉ L) : now t = now s := by
  have hclk : t.clk = s.clk := h.part .clk hc
  rw [Machine.now, hclk, Machine.now]

theorem OnlyChanges.working (hb : Part.boot ∉ L) (hc : Part.clk ∉ L) (hh : Part.health ∉ L) :
    working t = working s := by
  have hboot : t.boot = s.boot := h.part .boot hb
  have hclk : t.clk = s.clk := h.part .clk hc
  have hhealth : t.health = s.health := h.part .health hh
  simp only [Machine.working, Machine.ready, Machine.portOpen, Machine.running, hboot, hclk, hhealth]

theorem OnlyChanges.isManager (hi : Part.image ∉ L) : isManager t = isManager s := by
  have himage : t.image = s.image := h.part .image hi
  simp only [Machine.isManager, roleOf, planOf, himage]

/-- The checks of a record rest on the step, the attempt, the epoch and the active image (R37). -/
theorem OnlyChanges.rejectCode (hs : Part.step ∉ L) (hv : Part.verdict ∉ L) (hm : Part.memb ∉ L) (hi : Part.image ∉ L)
    (r : Line) : rejectCode t r = rejectCode s r := by
  have hstep : t.step = s.step := h.part .step hs
  have hverdict : t.verdict = s.verdict := h.part .verdict hv
  have hmemb : t.memb = s.memb := h.part .memb hm
  have himage : t.image = s.image := h.part .image hi
  simp only [Machine.rejectCode, activeTag, hstep, hverdict, hmemb, himage]
  rfl

/-- A report tells the time, the step and the phase (R504). -/
theorem OnlyChanges.report_health (hc : Part.clk ∉ L) (hh : Part.health ∉ L) (hs : Part.step ∉ L) (code : BitVec 16)
    (arg : Word) : (report code arg t).health = (report code arg s).health := by
  have hnow := h.now hc
  have hhealth : t.health = s.health := h.part .health hh
  have hstep : t.step = s.step := h.part .step hs
  simp only [Machine.report_health, time, hnow, hhealth, hstep]

end

/-! ### A record before it is judged (R228) -/

theorem takeInbox_cnt (src : Source) (m : Line) (s : State) : (takeInbox src m s).hier.cnt = s.hier.cnt := by
  unfold takeInbox
  split
  · cases src <;> rfl
  · rfl

section
variable (s : State)

@[simp] theorem broadcast_hier (vc : BitVec 2) (m : Line) : (broadcast vc m s).hier = s.hier :=
  (only_broadcast vc m (List.Subset.refl _) (only_refl _ s)).part .hier (by decide)
@[simp] theorem flashRing_hier (f : Flash) : (flashRing f s).hier = s.hier :=
  (only_flashRing f (List.Subset.refl _) (only_refl _ s)).part .hier (by decide)
@[simp] theorem sendBelow_hier (m : Line) : (sendBelow m s).hier = s.hier :=
  (only_sendBelow m (List.Subset.refl _) (only_refl _ s)).part .hier (by decide)

end

/-- What taking a record and passing it on change before it is judged. -/
def heardParts : List Part := [.hier, .east, .west, .ring, .fmp]

/-- A record is taken from where it waits, a manager passes it on, and it is judged. -/
theorem takeRecord_judges {s : State} (hw : working s = true) (src : Source) (r : Line) :
    ∃ u, takeRecord src r s = judgeRecord r u ∧ OnlyChanges heardParts s u ∧ u.hier.cnt = s.hier.cnt := by
  have hbox : OnlyChanges heardParts s (takeInbox src r s) := only_takeInbox src r (by decide) (only_refl _ s)
  have hwork : (!working (takeInbox src r s)) = false := by
    rw [hbox.working (by decide) (by decide) (by decide), hw]; rfl
  simp only [takeRecord, hwork, Bool.false_eq_true, if_false]
  refine ⟨_, rfl, only_ite ?_ hbox, ?_⟩
  · exact only_broadcast _ _ (by decide) (only_flashRing _ (by decide) (only_sendBelow _ (by decide)
      (only_set_ring (by decide) hbox)))
  · rw [← takeInbox_cnt src r s]
    split
    · rw [broadcast_hier, flashRing_hier, sendBelow_hier]
    · rfl

/-! ### A rejection (R37) -/

/-- A record of another step, attempt, epoch or tag fails a check. -/
theorem rejectCode_ne_zero {s : State} {m : Line} (h : recStepOf m ≠ s.step.step ∨ recAttempt m ≠ s.verdict.attempt ∨
    msgEpoch m ≠ s.memb.epoch ∨ msgTag m ≠ activeTag s ∨ rejectCode s m ≠ 0) : rejectCode s m ≠ 0 := by
  intro h0
  have hall : recStepOf m = s.step.step ∧ recAttempt m = s.verdict.attempt ∧ msgEpoch m = s.memb.epoch ∧
      msgTag m = activeTag s := by
    unfold rejectCode at h0
    split at h0
    · exact absurd h0 (by decide)
    · split at h0
      · exact absurd h0 (by decide)
      · split at h0
        · exact absurd h0 (by decide)
        · split at h0
          · exact absurd h0 (by decide)
          · split at h0
            · exact absurd h0 (by decide)
            · simp_all
  obtain ⟨hstep, hatt, hepoch, htag⟩ := hall
  rcases h with h | h | h | h | h
  · exact h hstep
  · exact h hatt
  · exact h hepoch
  · exact h htag
  · exact h h0

/-- A rejection reports, counts and shows its code; the links leave VERDICT. -/
theorem judgeRecord_rejects {u : State} {r : Line} (h : rejectCode u r ≠ 0) :
    ∃ pending, judgeRecord r u = linksRun false { report 0x0410 (put 32 (recStepOf r) ||| put 0 (rejectCode u r))
      (countHier 2 1 u) with verdict := { u.verdict with reject := rejectCode u r, flashPending := pending } } := by
  have hbeq : (rejectCode u r == 0) = false := beq_eq_false_iff_ne.mpr h
  simp only [judgeRecord, hbeq, if_pos h, Bool.false_and]
  split
  · exact ⟨_, rfl⟩
  · exact ⟨_, rfl⟩

section
variable (s : State) (aborted : Bool)

@[simp] theorem linksRun_step : (linksRun aborted s).step = s.step :=
  (only_linksRun aborted (List.Subset.refl _) (only_refl _ s)).part .step (by decide)
@[simp] theorem linksRun_lscale : (linksRun aborted s).lscale = s.lscale :=
  (only_linksRun aborted (List.Subset.refl _) (only_refl _ s)).part .lscale (by decide)
@[simp] theorem linksRun_verdict : (linksRun aborted s).verdict = s.verdict :=
  (only_linksRun aborted (List.Subset.refl _) (only_refl _ s)).part .verdict (by decide)
@[simp] theorem linksRun_health : (linksRun aborted s).health = s.health :=
  (only_linksRun aborted (List.Subset.refl _) (only_refl _ s)).part .health (by decide)
@[simp] theorem linksRun_hier : (linksRun aborted s).hier = s.hier :=
  (only_linksRun aborted (List.Subset.refl _) (only_refl _ s)).part .hier (by decide)

end

/-- Settles O33: a failing check is one that rejects, and a rejection leaves the step and the last record alone. -/
theorem recordsRejected : Obligations.RecordsRejected := by
  intro s src m hw hbad c hc
  have hne : rejectCode s m ≠ 0 := rejectCode_ne_zero hbad
  have hrow : exec c s = .next (takeRecord src m s) := by
    simp only [List.mem_cons, List.not_mem_nil, or_false] at hc
    rcases hc with rfl | rfl | rfl <;> rfl
  obtain ⟨u, htake, hframe, hcnt⟩ := takeRecord_judges hw src m
  have hcode : rejectCode u m = rejectCode s m :=
    hframe.rejectCode (by decide) (by decide) (by decide) (by decide) m
  have hverdict : u.verdict = s.verdict := hframe.part .verdict (by decide)
  obtain ⟨pending, hjudge⟩ := judgeRecord_rejects (u := u) (r := m) (hcode ▸ hne)
  refine ⟨_, by rw [hrow, htake, hjudge, hcode], ?_, ?_, ?_, hne, ?_, ?_, ?_, ?_⟩
  · rw [linksRun_step]; exact hframe.part .step (by decide)
  · rw [linksRun_lscale]; exact hframe.part .lscale (by decide)
  · rw [linksRun_verdict]
  · rw [linksRun_verdict, ← hverdict]
  · rw [linksRun_verdict, ← hverdict]
  · rw [linksRun_health]
    exact hframe.report_health (by decide) (by decide) (by decide) _ _
  · rw [linksRun_hier, ← hcnt]; rfl

end Sys2Proof.Machine

/-! PROOF. Applied records (O32): a GO makes the gate due, a SKIP or an ABORT ends the step and begins the next attempt. -/
namespace Sys2Proof.Machine

/-! ### The end of a step before its gate, and the next attempt (R28, R38, R568) -/

section
variable (s : State)

@[simp] theorem normStop_step : (normStop s).step = s.step :=
  (only_normStop (List.Subset.refl _) (only_refl _ s)).part .step (by decide)
@[simp] theorem normStop_lscale : (normStop s).lscale = s.lscale :=
  (only_normStop (List.Subset.refl _) (only_refl _ s)).part .lscale (by decide)
@[simp] theorem normStop_verdict : (normStop s).verdict = s.verdict :=
  (only_normStop (List.Subset.refl _) (only_refl _ s)).part .verdict (by decide)

@[simp] theorem endToIdle_step (aborted : Bool) : (endToIdle aborted s).step = { s.step with phase := .idle } := by
  rw [endToIdle, linksRun_step]
  simp
@[simp] theorem endToIdle_lscale (aborted : Bool) : (endToIdle aborted s).lscale = s.lscale := by
  rw [endToIdle, linksRun_lscale]
  simp
@[simp] theorem endToIdle_verdict (aborted : Bool) :
    (endToIdle aborted s).verdict = { s.verdict with gateDue := false, flashPending := false } := by
  rw [endToIdle, linksRun_verdict]
  simp

@[simp] theorem nextAttempt_step : (nextAttempt s).step = s.step :=
  (only_nextAttempt (List.Subset.refl _) (only_refl _ s)).part .step (by decide)
@[simp] theorem nextAttempt_lscale : (nextAttempt s).lscale = s.lscale :=
  (only_nextAttempt (List.Subset.refl _) (only_refl _ s)).part .lscale (by decide)

theorem nextAttempt_attempt : (nextAttempt s).verdict.attempt = s.verdict.attempt + 1 := by
  rw [nextAttempt, (onlyHold_recheckKept _).attempt]
  rfl
theorem nextAttempt_record : (nextAttempt s).verdict.record = s.verdict.record := by
  rw [nextAttempt, (onlyHold_recheckKept _).record]
  rfl

@[simp] theorem rootKeepsLsn_step (r : Line) : (rootKeepsLsn r s).step = s.step := by
  unfold rootKeepsLsn
  split <;> rfl
@[simp] theorem rootKeepsLsn_lscale (r : Line) : (rootKeepsLsn r s).lscale = s.lscale := by
  unfold rootKeepsLsn
  split <;> rfl
@[simp] theorem rootKeepsLsn_applied (r : Line) : (rootKeepsLsn r s).verdict.applied = s.verdict.applied := by
  unfold rootKeepsLsn
  split <;> rfl
@[simp] theorem rootKeepsLsn_record (r : Line) : (rootKeepsLsn r s).verdict.record = s.verdict.record := by
  unfold rootKeepsLsn
  split <;> rfl
@[simp] theorem rootKeepsLsn_attempt (r : Line) : (rootKeepsLsn r s).verdict.attempt = s.verdict.attempt := by
  unfold rootKeepsLsn
  split <;> rfl

/-- An ABORT ends a step before its gate (R28, R566). -/
theorem abortStep_beforeGate {s : State} (h : s.step.phase.beforeGate = true) :
    abortStep s = pulse 4 (endToIdle true { s with
      step := { s.step with flash := .abort }, lscale := { s.lscale with kNext := s.lscale.k } }) := by
  rw [abortStep, if_pos h]

end

/-! ### What each code of a record does (R228) -/

section
variable (r : Line) (s : State)

theorem applyGo_step (h : recCode r = 1) : (applyGo r s).step = { s.step with flash := .go } := by
  simp [applyGo, recordApplied, codeFlash, h]
theorem applyGo_lscale : (applyGo r s).lscale = { s.lscale with kNext := recLsKNext r } := by
  simp [applyGo, recordApplied]
theorem applyGo_verdict : (applyGo r s).verdict.gateDue = true ∧ (applyGo r s).verdict.applied = true ∧
    (applyGo r s).verdict.record = r := by
  simp [applyGo, recordApplied]

theorem applySkip_step (h : recCode r = 2) :
    (applySkip r s).step = { s.step with phase := .idle, flash := .skip } := by
  simp [applySkip, recordApplied, codeFlash, h]
theorem applySkip_lscale : (applySkip r s).lscale = { k := recLsKNext r, kNext := recLsKNext r } := by
  simp [applySkip]
theorem applySkip_verdict : (applySkip r s).verdict.attempt = s.verdict.attempt + 1 ∧
    (applySkip r s).verdict.record = r := by
  simp [applySkip, nextAttempt_attempt, nextAttempt_record, recordApplied]

variable {s} (hb : s.step.phase.beforeGate = true)
include hb

theorem applyAbort_step (h : recCode r = 3) :
    (applyAbort r s).step = { s.step with phase := .idle, flash := .abort } := by
  simp [applyAbort, recordApplied, codeFlash, h, abortStep_beforeGate hb]
theorem applyAbort_lscale : (applyAbort r s).lscale = { s.lscale with kNext := s.lscale.k } := by
  simp [applyAbort, recordApplied, abortStep_beforeGate hb]
theorem applyAbort_verdict : (applyAbort r s).verdict.attempt = s.verdict.attempt + 1 ∧
    (applyAbort r s).verdict.record = r := by
  simp [applyAbort, nextAttempt_attempt, nextAttempt_record, recordApplied, abortStep_beforeGate hb]

end

/-! ### Judging a good record (R37, R228, R241) -/

/-- What follows a record's own effect: no flash waits for the record any more, and the links leave VERDICT. -/
def recordSettled (r : Line) (step : BitVec 32) (aborted : Bool) (s : State) : State :=
  linksRun aborted (if recStepOf r = step then { s with verdict := { s.verdict with flashPending := false } } else s)

section
variable (r : Line) (step : BitVec 32) (aborted : Bool) (s : State)

@[simp] theorem recordSettled_step : (recordSettled r step aborted s).step = s.step := by
  rw [recordSettled, linksRun_step]
  split <;> rfl
@[simp] theorem recordSettled_lscale : (recordSettled r step aborted s).lscale = s.lscale := by
  rw [recordSettled, linksRun_lscale]
  split <;> rfl
theorem recordSettled_verdict :
    ∃ b, (recordSettled r step aborted s).verdict = { s.verdict with flashPending := b } := by
  rw [recordSettled, linksRun_verdict]
  split
  · exact ⟨_, rfl⟩
  · exact ⟨_, rfl⟩

end

section
variable {r : Line} {s : State} (hgood : rejectCode s r = 0) (hseen : s.verdict.seen = none)
  (hnew : r ∉ s.verdict.ignored)
include hgood hseen hnew

theorem judgeRecord_go (hcode : recCode r = 1) (hphase : s.step.phase = .awaitVerdict)
    (hgate : s.verdict.gateDue = false) :
    judgeRecord r s = recordSettled r s.step.step false (applyGo r s) := by
  simp [judgeRecord, recordSettled, hgood, hseen, hnew, hcode, hphase, hgate]

theorem judgeRecord_skip (hcode : recCode r = 2) (hphase : s.step.phase.beforeGate = true) :
    judgeRecord r s = recordSettled r s.step.step false (applySkip r s) := by
  simp [judgeRecord, recordSettled, hgood, hseen, hnew, hcode, hphase]

theorem judgeRecord_abort (hcode : recCode r = 3) :
    judgeRecord r s = recordSettled r s.step.step true (applyAbort r s) := by
  simp [judgeRecord, recordSettled, hgood, hseen, hnew, hcode]

end

/-- Settles O32: a good record is judged in a state that agrees on what it rests on, and applied by its code. -/
theorem recordsApplied : Obligations.RecordsApplied := by
  intro s src m hw hgood hseen hnew
  obtain ⟨u, htake, hframe, -⟩ := takeRecord_judges hw src m
  have hstep : u.step = s.step := hframe.part .step (by decide)
  have hlscale : u.lscale = s.lscale := hframe.part .lscale (by decide)
  have hverdict : u.verdict = s.verdict := hframe.part .verdict (by decide)
  have hgood' : rejectCode u m = 0 :=
    (hframe.rejectCode (by decide) (by decide) (by decide) (by decide) m).trans hgood
  rw [← hverdict] at hseen hnew
  simp only [← hstep, ← hverdict, ← hlscale, exec, execVerdictRecordGo, execVerdictRecordSkip, execVerdictRecordAbort,
    htake]
  refine ⟨fun hcode hphase hgate => ?_, fun hcode hb => ?_, fun hcode hb => ?_⟩
  · rw [judgeRecord_go hgood' hseen hnew hcode hphase hgate]
    obtain ⟨b, hv⟩ := recordSettled_verdict m u.step.step false (applyGo m u)
    obtain ⟨hdue, happlied, hrecord⟩ := applyGo_verdict m u
    exact ⟨_, rfl, by rw [recordSettled_step, applyGo_step m u hcode], by rw [hv]; exact hdue,
      by rw [hv]; exact happlied, by rw [hv]; exact hrecord, by rw [recordSettled_lscale, applyGo_lscale]⟩
  · rw [judgeRecord_skip hgood' hseen hnew hcode hb]
    obtain ⟨b, hv⟩ := recordSettled_verdict m u.step.step false (applySkip m u)
    obtain ⟨hattempt, hrecord⟩ := applySkip_verdict m u
    exact ⟨_, rfl, by rw [recordSettled_step, applySkip_step m u hcode], by rw [hv]; exact hattempt,
      by rw [hv]; exact hrecord, by rw [recordSettled_lscale, applySkip_lscale]⟩
  · rw [judgeRecord_abort hgood' hseen hnew hcode]
    obtain ⟨b, hv⟩ := recordSettled_verdict m u.step.step true (applyAbort m u)
    obtain ⟨hattempt, hrecord⟩ := applyAbort_verdict m hb
    exact ⟨_, rfl, by rw [recordSettled_step, applyAbort_step m hb hcode], by rw [hv]; exact hattempt,
      by rw [hv]; exact hrecord, by rw [recordSettled_lscale, applyAbort_lscale m hb]⟩

end Sys2Proof.Machine

/-! PROOF. The tongue and the contribution (O28): what clearing the gradients and sending the contribution leave. -/
namespace Sys2Proof.Machine

/-! ### Clearing the gradients (R207, R212) -/

/-- Judging records changes records only. -/
theorem foldl_setNorm_tongue (g : State → Nat → State)
    (hg : ∀ s t, (g s t).tongue = { s.tongue with recs := (g s t).tongue.recs }) (ts : List Nat) (s : State) :
    (ts.foldl g s).tongue = { s.tongue with recs := (ts.foldl g s).tongue.recs } := by
  induction ts generalizing s with
  | nil => rfl
  | cons t ts ih =>
    rw [List.foldl_cons, ih (g s t), hg s t]

theorem clearGradients_tongue (s : State) : (clearGradients s).tongue = { s.tongue with
    recs := (clearGradients s).tongue.recs, acc := 0, nonfin := 0, gmax := 0, taken := none } := by
  refine foldl_setNorm_tongue _ (fun s t => ?_) _ _
  dsimp only
  split <;> rfl

theorem clearGradients_acc (s : State) : (clearGradients s).tongue.acc = 0 := by rw [clearGradients_tongue]
theorem clearGradients_nonfin (s : State) : (clearGradients s).tongue.nonfin = 0 := by rw [clearGradients_tongue]
theorem clearGradients_gmax (s : State) : (clearGradients s).tongue.gmax = 0 := by rw [clearGradients_tongue]
theorem clearGradients_armErr (s : State) : (clearGradients s).tongue.armErr = s.tongue.armErr := by
  rw [clearGradients_tongue]

theorem only_clear (s : State) : OnlyChanges [.tongue] s (clearGradients s) :=
  only_clearGradients (List.Subset.refl _) (only_refl _ s)

@[simp] theorem clearGradients_step (s : State) : (clearGradients s).step = s.step :=
  (only_clear s).part .step (by decide)

/-! ### The arm (R211, R212) -/

section
variable {w : Word} {s : State}

/-- An accepted arm starts the clear (R212). -/
theorem writeArm_accepted (hbit : w.getLsbD 0 = true) (herr : armError s (field w 32 32) = 0) :
    (writeArm w s).tongue = { (clearGradients { s with tongue := { s.tongue with armErr := 0 } }).tongue with
      clearing := some (now s + 256, s.step.phase == .idle), armed := false } ∧
    (writeArm w s).step = { s.step with flash := if s.step.phase == .idle then .hold else s.step.flash } := by
  have hstep := clearGradients_step { s with tongue := { s.tongue with armErr := 0 } }
  have hnow := (only_clear { s with tongue := { s.tongue with armErr := 0 } }).now (by decide)
  simp only [writeArm, hbit, herr, Bool.not_true, Bool.false_eq_true, if_false, if_true, hstep, hnow]
  exact ⟨rfl, trivial⟩

/-- A refused arm shows its code; what it reports is no part of the tongue or of the step. -/
theorem writeArm_refused (hbit : w.getLsbD 0 = true) (herr : armError s (field w 32 32) ≠ 0) :
    (writeArm w s).tongue = { s.tongue with armErr := armError s (field w 32 32) } ∧ (writeArm w s).step = s.step := by
  simp only [writeArm, hbit, herr, Bool.not_true, Bool.false_eq_true, if_false]
  split
  · exact ⟨rfl, rfl⟩
  · split
    · exact ⟨rfl, rfl⟩
    · split
      · split
        · exact ⟨rfl, rfl⟩
        · exact ⟨rfl, rfl⟩
      · exact ⟨rfl, rfl⟩

end

/-- The clear of an arm made in IDLE ends in OBSERVE, that of one made in SWEEP with ARMED set (R212). -/
theorem armCleared_due {s : State} {u : Nat} {idle : Bool} (h : s.tongue.clearing = some (u, idle)) (hu : u ≤ now s) :
    (s.step.phase = .idle → armCleared s = enterObserve { s with tongue := { s.tongue with clearing := none } }) ∧
    (s.step.phase = .sweep → idle = false →
      armCleared s = { s with tongue := { s.tongue with clearing := none, armed := true } }) := by
  have hlt : ¬ now s < u := by omega
  constructor
  · intro hp
    simp [armCleared, h, hlt, hp]
  · intro hp hi
    simp [armCleared, h, hlt, hp, hi]

/-- R28, R31, R211, R212, R566. -/
theorem armAndClear : Rules.ArmAndClear := by
  intro s w
  refine ⟨fun ha hbit => ?_, fun u idle hw hclear hu => ?_⟩
  · simp only [exec, execTongueArm, ctlWrite_applies ha]
    refine ⟨fun herr => ⟨_, rfl, ?_⟩, fun herr => ⟨_, rfl, writeArm_refused hbit herr⟩⟩
    obtain ⟨htongue, hstep⟩ := writeArm_accepted hbit herr
    rw [respond_tongue, respond_step, htongue, hstep]
    refine ⟨clearGradients_armErr _, rfl, clearGradients_acc _, clearGradients_nonfin _, clearGradients_gmax _, rfl, ?_⟩
    simp only [beq_iff_eq]
  · have harm := armCleared_due hclear hu
    simp only [exec, execArmClearDone, if_pos hw]
    refine ⟨fun hp => ⟨_, rfl, ?_⟩, fun hp hi => by rw [harm.2 hp hi]⟩
    rw [harm.1 hp]
    exact ⟨rfl, rfl, rfl⟩

/-! ### The contribution (R207, R223) -/

section
variable (s : State)

theorem only_toManager (vc : BitVec 2) (m : Line) : OnlyChanges [.hier, .east, .west] s (sendToManager vc m s) :=
  only_sendToManager vc m (List.Subset.refl _) (only_refl _ s)

@[simp] theorem sendToManager_step (vc : BitVec 2) (m : Line) : (sendToManager vc m s).step = s.step :=
  (only_toManager s vc m).part .step (by decide)
@[simp] theorem sendToManager_tongue (vc : BitVec 2) (m : Line) : (sendToManager vc m s).tongue = s.tongue :=
  (only_toManager s vc m).part .tongue (by decide)
@[simp] theorem sendOn_hier (d : Side) (vc : BitVec 2) (m : Line) (dest : Nat) (bcast : Bool) :
    (sendOn d vc m dest bcast s).hier = s.hier :=
  (only_sendOn d vc m dest bcast (List.Subset.refl _) (only_refl _ s)).part .hier (by decide)

/-- A message to the manager may arrive in the sender's own inbox, and no more. -/
theorem sendToManager_hier (vc : BitVec 2) (m : Line) :
    ∃ inbox, (sendToManager vc m s).hier = { s.hier with inbox := inbox } := by
  unfold sendToManager
  split
  · exact ⟨_, rfl⟩
  · split
    · exact ⟨s.hier.inbox, by rw [sendOn_hier]⟩
    · exact ⟨s.hier.inbox, rfl⟩

@[simp] theorem contribute_step : (contribute s).step = { s.step with phase := .awaitVerdict } := by
  unfold contribute
  dsimp only
  split
  · rfl
  · rw [sendToManager_step]

theorem contribute_norm : (contribute s).tongue.norm = none := by
  unfold contribute
  dsimp only
  split
  · rfl
  · rw [sendToManager_tongue]

/-- The contribution leaves, unless the sender is a worker that holds (R223). -/
theorem contribute_sends (h : s.verdict.holding = false ∨ isManager s = true) :
    (contribute s).hier.contribSent = true ∧ ∃ m, (contribute s).hier.unresolved = s.hier.unresolved ++ [m] := by
  have hfree : ¬ (s.verdict.holding && !isManager s) = true := by
    rcases h with h | h <;> simp [h]
  unfold contribute
  dsimp only
  split
  case isTrue hheld => exact absurd hheld hfree
  case isFalse =>
    obtain ⟨inbox, hhier⟩ := sendToManager_hier _ _ _
    rw [hhier]
    exact ⟨rfl, _, rfl⟩

end

/-- R28, R207, R223. -/
theorem normPassEnds : Rules.NormPassEnds := by
  intro s p hw hnorm hcur htodo hreread
  have hrow : exec .normPassDone s = .next (contribute s) := by
    simp [exec, execNormPassDone, hnorm, hw, hcur, htodo, hreread]
  exact ⟨_, hrow, contribute_step s, contribute_norm s, contribute_sends s⟩

/-- Settles O28: the arm by what it clears, the end of the norm pass by what the contribution does. -/
theorem armsAndNormPass : Obligations.ArmsAndNormPass := ⟨armAndClear, normPassEnds⟩

end Sys2Proof.Machine

/-! PROOF. ABORT and CLEAR_HALT (O29): what each leaves, and what CLEAR_HALT does to every delta channel. -/
namespace Sys2Proof.Machine

/-! ### Positions (R168, R180) -/

section
variable {s t : State} (h : t.ttab = s.ttab)
include h

theorem recOf_of_ttab (i : Nat) : recOf t i = recOf s i := by rw [recOf, recOf, h]

theorem validTensors_of_ttab : validTensors t = validTensors s := by
  simp only [validTensors, recOf_of_ttab h, h]

theorem tileAtIn_of_ttab (is : List Nat) (o : Nat) : tileAtIn t is o = tileAtIn s is o := by
  induction is generalizing o with
  | nil => rfl
  | cons i is ih => rw [tileAtIn, tileAtIn, recOf_of_ttab h, ih]

/-- A position rests on the tensor table only. -/
theorem positionOf_of_ttab (ord : Nat) : positionOf t ord = positionOf s ord := by
  rw [positionOf, positionOf, tileAt, tileAt, validTensors_of_ttab h, tileAtIn_of_ttab h]

end

/-! ### ABORT (R28, R42) -/

section
variable (s : State)

theorem only_notice : OnlyChanges [.hier, .east, .west, .fmp] s (abortNotice s) :=
  only_abortNotice (List.Subset.refl _) (only_refl _ s)

@[simp] theorem abortNotice_step : (abortNotice s).step = s.step := (only_notice s).part .step (by decide)
@[simp] theorem abortNotice_lscale : (abortNotice s).lscale = s.lscale := (only_notice s).part .lscale (by decide)
@[simp] theorem abortNotice_tongue : (abortNotice s).tongue = s.tongue := (only_notice s).part .tongue (by decide)
@[simp] theorem abortNotice_verdict : (abortNotice s).verdict = s.verdict := (only_notice s).part .verdict (by decide)
@[simp] theorem abortNotice_sweep : (abortNotice s).sweep = s.sweep := (only_notice s).part .sweep (by decide)

@[simp] theorem linksRun_tongue (aborted : Bool) : (linksRun aborted s).tongue = s.tongue :=
  (only_linksRun aborted (List.Subset.refl _) (only_refl _ s)).part .tongue (by decide)
@[simp] theorem linksRun_sweep (aborted : Bool) : (linksRun aborted s).sweep = s.sweep :=
  (only_linksRun aborted (List.Subset.refl _) (only_refl _ s)).part .sweep (by decide)
@[simp] theorem passAbort_step : (passAbort s).step = s.step :=
  (only_passAbort (List.Subset.refl _) (only_refl _ s)).part .step (by decide)

/-- A step that ends before its gate is neither armed nor in its norm pass. -/
theorem endToIdle_tongue (aborted : Bool) :
    (endToIdle aborted s).tongue = { s.tongue with norm := none, armed := false } := by
  rw [endToIdle, linksRun_tongue]
  rfl

theorem abortStep_keeps_step : (abortStep s).step.step = s.step.step := by
  unfold abortStep
  split
  · simp
  · split
    · simp
    · rfl

theorem raiseAbort_keeps_step (arg : Word) : (raiseAbort arg s).step.step = s.step.step := by
  unfold raiseAbort
  split
  · rw [abortNotice_step, abortStep_keeps_step]
  · rfl

end

section
variable {s : State}

theorem raiseAbort_abortable (h : abortable s = true) (arg : Word) : raiseAbort arg s = abortNotice (abortStep s) := by
  rw [raiseAbort, if_pos h]

theorem raiseAbort_refused (h : abortable s = false) (arg : Word) : raiseAbort arg s = report 0x0103 arg s := by
  rw [raiseAbort, h]
  rfl

/-- The effects of an ABORT before the gate (R28, R566). -/
theorem raiseAbort_beforeGate (h : s.step.phase.beforeGate = true) (arg : Word) :
    (raiseAbort arg s).step = { s.step with phase := .idle, flash := .abort } ∧
    (raiseAbort arg s).lscale = { s.lscale with kNext := s.lscale.k } ∧
    (raiseAbort arg s).tongue = { s.tongue with norm := none, armed := false } ∧
    (raiseAbort arg s).verdict = { s.verdict with gateDue := false, flashPending := false } := by
  have hable : abortable s = true := by simp [abortable, h]
  rw [raiseAbort_abortable hable, abortStep_beforeGate h]
  simp [endToIdle_tongue]

/-- The effects of an ABORT after the gate, on a pass that is not yet due to halt (R42). -/
theorem raiseAbort_inPass (h : s.step.phase = .pass1 ∨ s.step.phase = .sweep) {p : Pass} (hp : s.sweep.pass = some p)
    (hhalt : p.halt = none) (arg : Word) :
    (raiseAbort arg s).step = { s.step with flash := .abort } ∧ (raiseAbort arg s).sweep.pass =
      some { p with halt := some { fault := .abort, pos := positionOf s p.next, ord := p.next } } := by
  have hable : abortable s = true := by rcases h with h | h <;> simp [abortable, h]
  have hbefore : s.step.phase.beforeGate = false := by rcases h with h | h <;> simp [Phase.beforeGate, h]
  have hpass : (s.step.phase == .pass1 || s.step.phase == .sweep) = true := by rcases h with h | h <;> simp [h]
  rw [raiseAbort_abortable hable, abortStep, hbefore, if_neg Bool.false_ne_true, if_pos hpass]
  refine ⟨by simp, ?_⟩
  simp only [abortNotice_sweep, linksRun_sweep, passAbort, hp, hhalt, Option.isSome_none, Bool.false_eq_true, if_false]
  rw [positionOf_of_ttab (s := s) (t := { s with step := { s.step with flash := .abort } }) rfl]

end

/-- R28, R38, R42, R566. -/
theorem abortEffects : Rules.AbortEffects := by
  intro s w ha hbits hstep
  have hpulse : exec .abortReq s = .next (raiseAbort 0x80000001 s) := by
    simp only [exec, execAbortReq, ha.working, ha.wake, if_true]
  have hwrite : exec (.stepCtlAbort w) s = .next (respond 0x04 (raiseAbort 0x28 s)) := by
    rw [exec_stepCtl (w := w) ha (by simp), writeStepCtl_abort hbits hstep]
  have heffect : ∀ arg, (raiseAbort arg s).step.step = s.step.step ∧
      (s.step.phase.beforeGate = true → (raiseAbort arg s).step.phase = .idle ∧
        (raiseAbort arg s).step.flash = .abort ∧ (raiseAbort arg s).lscale.kNext = s.lscale.k ∧
        (raiseAbort arg s).tongue.armed = false ∧ (raiseAbort arg s).tongue.norm = none ∧
        (raiseAbort arg s).verdict.gateDue = false) ∧
      (s.step.phase = .pass1 ∨ s.step.phase = .sweep → ∀ p, s.sweep.pass = some p → p.halt = none →
        (raiseAbort arg s).step.phase = s.step.phase ∧ (raiseAbort arg s).step.flash = .abort ∧
        (raiseAbort arg s).sweep.pass =
          some { p with halt := some { fault := .abort, pos := positionOf s p.next, ord := p.next } }) := by
    refine fun arg => ⟨raiseAbort_keeps_step s arg, fun hb => ?_, fun hphase p hp hhalt => ?_⟩
    · obtain ⟨h1, h2, h3, h4⟩ := raiseAbort_beforeGate hb arg
      rw [h1, h2, h3, h4]
      exact ⟨rfl, rfl, rfl, rfl, rfl, rfl⟩
    · obtain ⟨h1, h2⟩ := raiseAbort_inPass hphase hp hhalt arg
      rw [h1, h2]
      exact ⟨rfl, rfl, rfl⟩
  refine ⟨fun c hc => ?_, fun hrefused => ?_⟩
  · simp only [List.mem_cons, List.not_mem_nil, or_false] at hc
    rcases hc with rfl | rfl
    · exact ⟨_, hpulse, heffect _⟩
    · exact ⟨_, hwrite, heffect _⟩
  · rw [hpulse, hwrite, raiseAbort_refused hrefused, raiseAbort_refused hrefused]
    exact ⟨rfl, rfl⟩

/-! ### CLEAR_HALT (R28, R150, R356) -/

section
variable (s : State)

@[simp] theorem xchan_padFreeAll (hs : List (BitVec 16)) (o : BitVec 6) (j : Nat) :
    xchan (padFreeAll hs o s) j = xchan s j :=
  xchan_of_xch ((only_padFreeAll hs o (List.Subset.refl _) (only_refl _ s)).part .xch (by decide)) j
@[simp] theorem xchan_padFree (h : BitVec 16) (o : BitVec 6) (j : Nat) : xchan (padFree h o s) j = xchan s j :=
  xchan_of_xch ((only_padFree h o (List.Subset.refl _) (only_refl _ s)).part .xch (by decide)) j
@[simp] theorem xchan_dropReads (p : Who → Bool) (j : Nat) : xchan (dropReads p s) j = xchan s j := rfl

theorem xchan_leaveOffers (k j : Nat) : xchan (leaveOffers k s) j = xchan s j := by
  simp only [leaveOffers, settleOffers, xchan_padFreeAll]
  rfl

variable {j k : Nat} (h : j ≠ k)
include h

theorem xchan_dropPads_ne : xchan (dropPads k s) j = xchan s j := by
  rw [dropPads, xchan_setXch_ne h, xchan_padFreeAll]

theorem xchan_dropLagRead_ne : xchan (dropLagRead k s) j = xchan s j := by
  simp only [dropLagRead, xchan_dropReads, xchan_setXch_ne h]
  split
  · rw [xchan_padFree]
  · rfl

theorem xchan_stepCancel_ne (ord : Nat) (discard : Bool) : xchan (stepCancel k ord discard s) j = xchan s j := by
  simp only [stepCancel, addRecord]
  split
  · rfl
  · rw [xchan_setXch_ne h, xchan_setXch_ne h, xchan_padFreeAll]

end

section
variable (s : State)

theorem only_closesSteps : OnlyChanges [.health, .mem, .strm, .pond, .xch] s (exportsClearHalt s) :=
  only_exportsClearHalt (List.Subset.refl _) (only_refl _ s)

@[simp] theorem exportsClearHalt_step : (exportsClearHalt s).step = s.step := (only_closesSteps s).part .step (by decide)
@[simp] theorem exportsClearHalt_sweep : (exportsClearHalt s).sweep = s.sweep :=
  (only_closesSteps s).part .sweep (by decide)
@[simp] theorem exportsClearHalt_lscale : (exportsClearHalt s).lscale = s.lscale :=
  (only_closesSteps s).part .lscale (by decide)

end

/-- CLEAR_HALT ends the open step of every delta channel, and with it its base (R356, R365). -/
theorem exportsClearHalt_closes (s : State) : ∀ k < 4, (xchan (exportsClearHalt s) k).openStep = none ∧
    (xchan (exportsClearHalt s) k).baseValid = false := by
  refine xchan_foldl_range (P := fun c => c.openStep = none ∧ c.baseValid = false) (fun u k => ?_)
    (fun u j k hjk => ?_) s 4
  · exact xchan_setXch_same (P := fun c => c.openStep = none ∧ c.baseValid = false) ⟨rfl, rfl⟩ (fun _ => ⟨rfl, rfl⟩) k _
  · dsimp only
    rw [xchan_setXch_ne hjk, xchan_leaveOffers, xchan_dropPads_ne _ hjk, xchan_dropLagRead_ne _ hjk,
      xchan_stepCancel_ne _ hjk]

/-- R28, R150, R356. -/
theorem clearHalt_effects : Rules.ClearHalt := by
  intro s w ha hbits hstep
  rw [exec_stepCtl (w := w) (c := .stepCtlClearHalt w) ha (by simp), writeStepCtl_clearHalt hbits hstep]
  refine ⟨fun hhalted => ⟨_, rfl, ?_⟩, fun hphase => ?_⟩
  · have hcode : (s.step.phase == .halted) = true := beq_iff_eq.mpr hhalted
    rw [clearHalt, if_pos hcode]
    rw [respond_step, respond_sweep, respond_lscale, exportsClearHalt_step, exportsClearHalt_sweep,
      exportsClearHalt_lscale]
    refine ⟨rfl, rfl, rfl, rfl, fun k hk => ?_⟩
    rw [xchan_of_xch (respond_xch _ _)]
    exact exportsClearHalt_closes _ k hk
  · have hcode : (s.step.phase == .halted) = false := beq_eq_false_iff_ne.mpr hphase
    rw [clearHalt, hcode]
    rfl

/-- Settles O29: ABORT by its effect in each group of phases, CLEAR_HALT channel by channel. -/
theorem abortAndClearHalt : Obligations.AbortAndClearHalt := ⟨abortEffects, clearHalt_effects⟩

end Sys2Proof.Machine

/-! PROOF. Seals (O27): what an accepted seal leaves of the links, of the statistics and of the step, and the refusals. -/
namespace Sys2Proof.Machine

/-! ### What the links drive (R415, R416) -/

/-- Both links are in the transmit phase, and drive the flash, that they were in and drove. -/
def SameLights (s t : State) : Prop :=
  (t.east.txPhase = s.east.txPhase ∧ t.east.flashOut = s.east.flashOut) ∧
  (t.west.txPhase = s.west.txPhase ∧ t.west.flashOut = s.west.flashOut)

theorem SameLights.refl (s : State) : SameLights s s := ⟨⟨rfl, rfl⟩, rfl, rfl⟩

theorem SameLights.trans {s t u : State} (h : SameLights s t) (h' : SameLights t u) : SameLights s u :=
  ⟨⟨h'.1.1.trans h.1.1, h'.1.2.trans h.1.2⟩, h'.2.1.trans h.2.1, h'.2.2.trans h.2.2⟩

theorem sameLights_setLink (d : Side) {f : LinkEnd → LinkEnd}
    (hf : ∀ l, (f l).txPhase = l.txPhase ∧ (f l).flashOut = l.flashOut) (s : State) :
    SameLights s (setLink d f s) := by
  cases d
  · exact ⟨hf _, rfl, rfl⟩
  · exact ⟨⟨rfl, rfl⟩, hf _⟩

theorem sameLights_linkWake (d : Side) (s : State) : SameLights s (linkWake d s) := by
  refine sameLights_setLink d (fun l => ?_) s
  split <;> exact ⟨rfl, rfl⟩

theorem sameLights_sendOn (d : Side) (vc : BitVec 2) (m : Line) (dest : Nat) (bcast : Bool) (s : State) :
    SameLights s (sendOn d vc m dest bcast s) := by
  unfold sendOn
  dsimp only
  split
  · exact .refl s
  · split
    · exact .refl s
    · refine .trans ?_ (sameLights_linkWake d _)
      apply sameLights_setLink
      exact fun _ => ⟨rfl, rfl⟩

theorem sameLights_sendToManager (vc : BitVec 2) (m : Line) (s : State) : SameLights s (sendToManager vc m s) := by
  unfold sendToManager
  split
  · exact .refl s
  · split
    · exact sameLights_sendOn _ _ _ _ _ s
    · exact .refl s

/-- A frame that waits to be sent changes neither phase nor flash. -/
theorem sameLights_contribute (s : State) : SameLights s (contribute s) := by
  unfold contribute
  dsimp only
  split
  · exact .refl s
  · exact sameLights_sendToManager _ _ _

/-- The seal puts each running transmit direction into VERDICT at HOLD (R415, R416). -/
theorem linksSeal_run (s : State) :
    (s.east.txPhase = .run → (linksSeal s).east.txPhase = .verdict ∧ (linksSeal s).east.flashOut = .hold) ∧
    (s.west.txPhase = .run → (linksSeal s).west.txPhase = .verdict ∧ (linksSeal s).west.flashOut = .hold) := by
  constructor
  · intro h
    simp [linksSeal, h]
  · intro h
    simp [linksSeal, h]

/-! ### The norm pass begins (R206, R207) -/

theorem normNext_usedNorm (fuel : Nat) (s : State) : (normNext fuel s).tongue.usedNorm = s.tongue.usedNorm := by
  have hqueue (rs : List MemReq) (u : State) : (enqueueAll rs u).tongue = u.tongue :=
    (only_enqueueAll rs (List.Subset.refl _) (only_refl _ u)).part .tongue (by decide)
  induction fuel generalizing s with
  | zero => rfl
  | succ fuel ih =>
    unfold normNext
    split
    · rfl
    · split
      · dsimp only
        split
        · rw [ih]; rfl
        · rw [hqueue]; rfl
      · rw [hqueue]; rfl
      · rfl

section
variable (s : State)

theorem only_beginsNorm : OnlyChanges [.evt, .mem, .step, .tongue] s (normStart s) :=
  only_normStart (List.Subset.refl _) (only_refl _ s)

theorem normStart_step : (normStart s).step = { s.step with phase := .normPass } := by
  have hnext (n : Nat) (u : State) : (normNext n u).step = u.step :=
    (only_normNext n (List.Subset.refl _) (only_refl _ u)).part .step (by decide)
  simp [normStart, hnext]

theorem normStart_usedNorm : (normStart s).tongue.usedNorm = true := by
  simp [normStart, normNext_usedNorm]

end

/-! ### The seal (R34, R206) -/

/-- The seal's own writes: SEALED, and the constants in effect captured (R32, R34). -/
def sealCaptured (evt : Bool) (s : State) : State :=
  { s with
    step := { s.step with phase := .sealed, sealAt := if evt then none else some (now s) }
    stepk := { s.stepk with capture := s.stepk.set, captured := true } }

/-- What an accepted seal is about to judge: the links at HOLD, the statistics as of the seal. -/
def sealJudged (evt : Bool) (s : State) : State := unwindTaken (linksSeal (sealCaptured evt s))

/-- What the seal leads to: the contribution is sent, or the norm pass begins (R206). -/
def sealOutcome (j : State) : State := if incomplete j = 0 then contribute j else normStart j

theorem takeSeal_accepted {s : State} (hphase : s.step.phase = .observe) (hopen : s.memb.state = .opened)
    (hvalid : s.stepk.valid = true) (hstep : s.stepk.setStep = s.step.step) (evt : Bool) :
    takeSeal evt s = sealOutcome (sealJudged evt s) := by
  simp [takeSeal, hphase, hopen, hvalid, hstep, sealOutcome, sealJudged, sealCaptured]

/-- COMPLETE rests on the table and the norm store (R205). -/
theorem incomplete_of_recs {s t : State} (httab : t.ttab = s.ttab) (hrecs : t.tongue.recs = s.tongue.recs) :
    incomplete t = incomplete s := by
  simp only [incomplete, normOf, validTensors_of_ttab httab, hrecs]

/-- Lines that are through stay counted: the statistics are as they were (R35, R438). -/
theorem unwindTaken_passed {s : State}
    (h : ∀ k, s.tongue.taken = some k → k.lines.all (fun x => x.passed (now s)) = true) :
    unwindTaken s = { s with tongue := { s.tongue with taken := none } } := by
  unfold unwindTaken
  cases hk : s.tongue.taken with
  | none => rfl
  | some k => exact if_pos (h k hk)

section
variable (evt : Bool) (s : State)

theorem only_sealJudged : OnlyChanges [.health, .mem, .tongue, .east, .west] (sealCaptured evt s) (sealJudged evt s) :=
  only_unwindTaken (by decide) (only_linksSeal (by decide) (only_refl _ _))

theorem sealJudged_east : (sealJudged evt s).east = (linksSeal (sealCaptured evt s)).east :=
  (only_unwindTaken (List.Subset.refl _) (only_refl _ _)).part .east (by decide)

theorem sealJudged_west : (sealJudged evt s).west = (linksSeal (sealCaptured evt s)).west :=
  (only_unwindTaken (List.Subset.refl _) (only_refl _ _)).part .west (by decide)

/-- With every line through, an accepted seal judges the records as they stand. -/
theorem incomplete_sealJudged
    (h : ∀ k, s.tongue.taken = some k → k.lines.all (fun x => x.passed (now s)) = true) :
    incomplete (sealJudged evt s) = incomplete s := by
  have hseal : OnlyChanges [.east, .west] (sealCaptured evt s) (linksSeal (sealCaptured evt s)) :=
    only_linksSeal (List.Subset.refl _) (only_refl _ _)
  have htongue : (linksSeal (sealCaptured evt s)).tongue = s.tongue := hseal.part .tongue (by decide)
  have httab : (linksSeal (sealCaptured evt s)).ttab = s.ttab := hseal.part .ttab (by decide)
  have hnow : now (linksSeal (sealCaptured evt s)) = now s := hseal.now (by decide)
  rw [sealJudged, unwindTaken_passed (by rw [htongue, hnow]; exact h)]
  exact incomplete_of_recs httab (by rw [← htongue])

end

section
variable (j : State)

theorem only_sealOutcome : OnlyChanges [.evt, .mem, .step, .tongue, .hier, .east, .west] j (sealOutcome j) := by
  unfold sealOutcome
  split
  · exact only_contribute (by decide) (only_refl _ j)
  · exact only_normStart (by decide) (only_refl _ j)

theorem sameLights_sealOutcome : SameLights j (sealOutcome j) := by
  have hnorm := only_beginsNorm j
  have heast : (normStart j).east = j.east := hnorm.part .east (by decide)
  have hwest : (normStart j).west = j.west := hnorm.part .west (by decide)
  unfold sealOutcome
  split
  · exact sameLights_contribute j
  · simp only [SameLights, heast, hwest, and_self]

theorem sealOutcome_number : (sealOutcome j).step.step = j.step.step := by
  unfold sealOutcome
  split
  · rw [contribute_step]
  · rw [normStart_step]

theorem sealOutcome_phase_of_complete (h : incomplete j = 0) : (sealOutcome j).step.phase = .awaitVerdict := by
  rw [sealOutcome, if_pos h, contribute_step]

theorem sealOutcome_phase_of_incomplete (h : incomplete j ≠ 0) :
    (sealOutcome j).step.phase = .normPass ∧ (sealOutcome j).tongue.usedNorm = true := by
  rw [sealOutcome, if_neg h, normStart_step]
  exact ⟨rfl, normStart_usedNorm j⟩

end

section
variable (evt : Bool) (s : State)

theorem sealed_stepk :
    (sealOutcome (sealJudged evt s)).stepk = { s.stepk with capture := s.stepk.set, captured := true } := by
  rw [(only_sealOutcome _).part .stepk (by decide), (only_sealJudged evt s).part .stepk (by decide)]
  rfl

theorem sealed_number : (sealOutcome (sealJudged evt s)).step.step = s.step.step := by
  rw [sealOutcome_number, (only_sealJudged evt s).part .step (by decide)]
  rfl

theorem sealed_east (h : s.east.txPhase = .run) :
    (sealOutcome (sealJudged evt s)).east.txPhase = .verdict ∧
      (sealOutcome (sealJudged evt s)).east.flashOut = .hold := by
  obtain ⟨⟨hphase, hflash⟩, -⟩ := sameLights_sealOutcome (sealJudged evt s)
  rw [hphase, hflash, sealJudged_east]
  exact (linksSeal_run (sealCaptured evt s)).1 h

theorem sealed_west (h : s.west.txPhase = .run) :
    (sealOutcome (sealJudged evt s)).west.txPhase = .verdict ∧
      (sealOutcome (sealJudged evt s)).west.flashOut = .hold := by
  obtain ⟨-, hphase, hflash⟩ := sameLights_sealOutcome (sealJudged evt s)
  rw [hphase, hflash, sealJudged_west]
  exact (linksSeal_run (sealCaptured evt s)).2 h

theorem sealed_phase : (sealOutcome (sealJudged evt s)).step.phase = .awaitVerdict ∨
    (sealOutcome (sealJudged evt s)).step.phase = .normPass := by
  by_cases h : incomplete (sealJudged evt s) = 0
  · exact .inl (sealOutcome_phase_of_complete _ h)
  · exact .inr (sealOutcome_phase_of_incomplete _ h).1

end

theorem exec_sealPulse {s : State} (ha : Applies s) : exec .sealPulse s = .next (takeSeal true s) := by
  simp only [exec, execSealPulse, ha.working, ha.wake, if_true]

theorem exec_stepCtlSeal {s : State} {w : Word} (ha : Applies s) (hbit : fieldNat w 0 4 = 1)
    (hstep : (field w 32 32 : BitVec 32) = s.step.step) :
    exec (.stepCtlSeal w) s = .next (respond 0x04 (takeSeal false s)) := by
  rw [exec_stepCtl (w := w) ha (by simp), writeStepCtl_seal hbit hstep]

theorem sealIsAccepted : Rules.SealAccepted := by
  intro s w ha hphase hopen hvalid hset hbit hstep c hc
  obtain ⟨evt, t, hexec, ht⟩ : ∃ evt t, exec c s = .next t ∧
      OnlyChanges [.ctl] (sealOutcome (sealJudged evt s)) t := by
    have htake (evt : Bool) : takeSeal evt s = sealOutcome (sealJudged evt s) :=
      takeSeal_accepted hphase hopen hvalid hset evt
    simp only [List.mem_cons, List.not_mem_nil, or_false] at hc
    rcases hc with rfl | rfl
    · exact ⟨true, _, exec_sealPulse ha, htake true ▸ only_refl _ _⟩
    · exact ⟨false, _, exec_stepCtlSeal ha hbit hstep,
        htake false ▸ only_respond _ (List.Subset.refl _) (only_refl _ _)⟩
  have hstepk := ht.part .stepk (by decide)
  have hstept := ht.part .step (by decide)
  have heast := ht.part .east (by decide)
  have hwest := ht.part .west (by decide)
  have htongue := ht.part .tongue (by decide)
  refine ⟨t, hexec, ?_⟩
  rw [show t.stepk = _ from hstepk, show t.step = _ from hstept, show t.east = _ from heast,
    show t.west = _ from hwest, show t.tongue = _ from htongue, sealed_stepk, sealed_number]
  refine ⟨rfl, rfl, rfl, sealed_east evt s, sealed_west evt s, fun hpassed => ?_, sealed_phase evt s⟩
  rw [← incomplete_sealJudged evt s hpassed]
  exact ⟨sealOutcome_phase_of_complete _, sealOutcome_phase_of_incomplete _⟩

section
variable {s : State} (evt : Bool)

theorem takeSeal_phase (h : s.step.phase ≠ .observe) : takeSeal evt s =
    sealRefused 0x0104 (put 0 s.step.step ||| putBit 32 (evt && s.step.sealAt != some (now s))) s := by
  simp [takeSeal, h]

theorem takeSeal_closed (hphase : s.step.phase = .observe) (h : s.memb.state ≠ .opened) :
    ∃ arg, takeSeal evt s = sealRefused 0x0105 arg s := by
  simp only [takeSeal, hphase, bne_self_eq_false, Bool.false_eq_true, if_false, bne_iff_ne.mpr h, if_true]
  exact ⟨_, rfl⟩

theorem takeSeal_stale (hphase : s.step.phase = .observe) (hopen : s.memb.state = .opened)
    (h : s.stepk.valid = false ∨ s.stepk.setStep ≠ s.step.step) :
    takeSeal evt s = sealRefused 0x0106 (put 32 s.stepk.setStep ||| put 0 s.step.step) s := by
  rcases h with h | h <;> simp [takeSeal, hphase, hopen, h]

end

theorem sealIsRefused : Rules.SealRefused := by
  intro s w ha
  refine ⟨fun hphase => ⟨?_, fun hbit hstep => ?_⟩, fun hphase hclosed => ?_, fun hphase hopen hstale => ?_⟩
  · rw [exec_sealPulse ha, takeSeal_phase true hphase, Bool.true_and]
    rfl
  · rw [exec_stepCtlSeal ha hbit hstep, takeSeal_phase false hphase, Bool.false_and]
    rfl
  · obtain ⟨arg, harg⟩ := takeSeal_closed true hphase hclosed
    exact ⟨arg, by rw [exec_sealPulse ha, harg]; rfl⟩
  · rw [exec_sealPulse ha, takeSeal_stale true hphase hopen hstale]
    rfl

/-- Settles O27: an accepted seal is followed through its capture, the links' HOLD and the choice between the
contribution and the norm pass; a refused one is the branch of the seal that its first failing check takes. -/
theorem seals : Obligations.Seals := ⟨sealIsAccepted, sealIsRefused⟩

end Sys2Proof.Machine

/-! PROOF. PassesBegin (O31): the pass that begins, the journal lines that it waits for, the gate and the end of PASS1. -/
namespace Sys2Proof.Machine

/-! ### A pass that begins (R102, R170) -/

/-- A pass of a kind at its tile 0, under its constants, clip factor and loss-scale exponent; no journal line is
waited for yet. -/
structure Pass.StartsWith (q : Pass) (k : PassKind) (consts : List (BitVec 32)) (clip : F32) (lsK : BitVec 6) :
    Prop where
  kind : q.kind = k
  consts : q.consts = consts
  clip : q.clip = clip
  lsK : q.lsK = lsK
  next : q.next = 0
  wmark : q.wmark = 0
  gateLeft : q.gateLeft = 0
  gateOpening : q.gateOpening = false
  doneDue : q.doneDue = false

theorem beginPass_sweep (k : PassKind) (recovery : Bool) (im : Image) (consts : List (BitVec 32)) (clip : F32)
    (lsK : BitVec 6) (s : State) : ∃ q : Pass, (beginPass k recovery im consts clip lsK 0 s).sweep =
      { s.sweep with seq := s.sweep.seq + 1, leftInflight := 0, pass := some q } ∧ q.StartsWith k consts clip lsK := by
  have hfab : (if k == .pass1Factored then s else chooseVariant (firstGraph s k 0) s).sweep = s.sweep := by
    split
    · rfl
    · exact (only_chooseVariant _ (List.Subset.refl _) (only_refl _ s)).part .sweep (by decide)
  simp only [beginPass, setPass, setSweep, Option.map_some, hfab]
  exact ⟨_, rfl, rfl, rfl, rfl, rfl, rfl, rfl, rfl, rfl, rfl⟩

/-! ### Journal lines (R170) -/

section
variable (s : State)

theorem writeJournalLine_sweep (idx : Nat) : (writeJournalLine idx s).sweep = s.sweep := by
  unfold writeJournalLine
  split
  · exact (only_enqueue _ (List.Subset.refl _) (only_refl _ s)).part .sweep (by decide)
  · rfl

/-- A pass that waits for some journal lines more. -/
def Pass.awaiting (n : Nat) (p : Pass) : Pass := { p with gateLeft := p.gateLeft + n, gateMiss := [] }

theorem writeJournal_sweep (idxs : List Nat) : (writeJournal idxs s).sweep =
    { s.sweep with pass := s.sweep.pass.map (Pass.awaiting idxs.length) } := by
  have hfold (u : State) : (idxs.foldl (fun s i => writeJournalLine i s) u).sweep = u.sweep := by
    induction idxs generalizing u with
    | nil => rfl
    | cons i is ih => rw [List.foldl_cons, ih, writeJournalLine_sweep]
  rw [writeJournal, hfold]
  rfl

theorem writeMarks_sweep : (writeMarks s).sweep = { s.sweep with
    lineSeq := s.sweep.lineSeq + 1, dirty := false, lastMarks := portNow s, written := s.sweep.state
    known := true } := by
  unfold writeMarks
  exact (only_enqueue _ (List.Subset.refl _) (only_refl _ _)).part .sweep (by decide)

end

/-! ### The gate on the delta channels (R356, R364) -/

theorem deltaDone_of_xchan {s t : State} {k : Nat} (h : xchan t k = xchan s k) : deltaDone t k = deltaDone s k := by
  rw [deltaDone, deltaDone, h]

section
variable {s : State} {k : Nat} (step tag : BitVec 32)

theorem xchan_deltaGate_ne {j : Nat} (h : j ≠ k) (hdone : deltaDone s k = false) :
    xchan (deltaGate step tag k s) j = xchan s j := by
  simp only [deltaGate, hdone, Bool.false_eq_true, if_false]
  split
  · rfl
  · rw [xchan_setXch_ne h, xchan_leaveOffers, xchan_dropLagRead_ne _ h, xchan_stepCancel_ne _ h]

/-- A channel whose STEP_END is not written pulses nothing at the gate. -/
theorem deltaGate_evt (hdone : deltaDone s k = false) : (deltaGate step tag k s).evt = s.evt := by
  have hcancel (ord : Nat) : OnlyChanges [.health, .mem, .strm, .pond, .xch] s
      (leaveOffers k (dropLagRead k (stepCancel k ord true s))) :=
    only_leaveOffers k (by decide) (only_dropLagRead k (by decide) (only_stepCancel k ord true (by decide)
      (only_refl _ s)))
  simp only [deltaGate, hdone, Bool.false_eq_true, if_false]
  split
  · rfl
  · exact (hcancel _).part .evt (by decide)

theorem exportsGate_evt (h : ∀ k < 4, deltaDone s k = false) : (exportsGate step tag s).evt = s.evt := by
  have hfold (ks : List Nat) (hnodup : ks.Nodup) (u : State) (hdone : ∀ k ∈ ks, deltaDone u k = false) :
      (ks.foldl (fun s k => deltaGate step tag k s) u).evt = u.evt := by
    induction ks generalizing u with
    | nil => rfl
    | cons k ks ih =>
      obtain ⟨hk, hks⟩ := List.nodup_cons.mp hnodup
      have hfirst : deltaDone u k = false := hdone k List.mem_cons_self
      rw [List.foldl_cons, ih hks, deltaGate_evt step tag hfirst]
      intro j hj
      have hne : j ≠ k := fun e => hk (e ▸ hj)
      rw [deltaDone_of_xchan (xchan_deltaGate_ne step tag hne hfirst)]
      exact hdone j (List.mem_cons_of_mem k hj)
  exact hfold (List.range 4) List.nodup_range s fun k hk => h k (List.mem_range.mp hk)

end

/-! ### The gate opens (R28, R170) -/

section
variable (im : Image) (s : State)

/-- The gate's own writes outside the journal. -/
def gateFlags : State :=
  { s with
    step := { s.step with
      phase := if (firstPass im).getD .sweep == .sweep then .sweep else .pass1, released := 0 }
    verdict := { s.verdict with gateDue := false }
    tongue := { s.tongue with armed := false }
    aux := { s.aux with gateWait := false }
    xch := { s.xch with gateWait := false }
    rng := { s.rng with mask := { s.rng.mask with gateWait := false } } }

/-- The journal's fields as the gate leaves them (R178, R179). -/
def gateJournal : State :=
  let s := gateFlags im s
  setSweep (fun w => { w with
    state := if (firstPass im).getD .sweep == .sweep then .sweep else .pass1, fault := .none, faultGroup := false
    fpos := 0, failedLines := 0, repairs := 0, logNext := 0, jStep := s.step.step, jTag := activeTag s
    wpos := positionOf s 0, mpos := positionOf s 0, word := 0, mord := 0, rho := [], settle := []
    settleLines := 0 }) s

/-- The pass that the gate begins, and its pass information. -/
def gatePass : State :=
  let s := gateJournal im s
  let s := beginPass ((firstPass im).getD .sweep) false im s.stepk.capture
    (field s.verdict.record 0xE0 32) s.lscale.k 0 s
  setPassInfo im false s.lscale.k s

/-- The pass as the delta channels have started with it. -/
def gateDeltas : State :=
  let s := gatePass im s
  exportsGate s.step.step (activeTag s) s

theorem openGate_eq :
    openGate im s = writeJournal [1, 2, 3] (setPass (fun p => { p with gateOpening := true }) (gateDeltas im s)) := rfl

theorem only_gatePass : OnlyChanges [.sweep, .fab] (gateFlags im s) (gatePass im s) :=
  only_setPassInfo _ _ _ (by decide) (only_beginPass _ _ _ _ _ _ _ (by decide)
    (only_setSweep _ (by decide) (only_refl _ _)))

theorem only_gateDeltas : OnlyChanges [.health, .evt, .mem, .strm, .pond, .xch] (gatePass im s) (gateDeltas im s) :=
  only_exportsGate _ _ (List.Subset.refl _) (only_refl _ _)

theorem only_afterFlags :
    OnlyChanges [.health, .evt, .mem, .sweep, .fab, .strm, .pond, .xch] (gateFlags im s) (openGate im s) :=
  only_writeJournal _ (by decide) (only_setPass _ (by decide) (only_exportsGate _ _ (by decide)
    (only_setPassInfo _ _ _ (by decide) (only_beginPass _ _ _ _ _ _ _ (by decide)
      (only_setSweep _ (by decide) (only_refl _ _))))))

theorem openGate_evt (h : ∀ k < 4, deltaDone s k = false) : (openGate im s).evt = s.evt := by
  have htail : OnlyChanges [.mem, .sweep] (gateDeltas im s) (openGate im s) :=
    only_writeJournal _ (List.Subset.refl _) (only_setPass _ (by decide) (only_refl _ _))
  have hchan (k : Nat) : xchan (gatePass im s) k = xchan s k := by
    have hxch : (gatePass im s).xch = { s.xch with gateWait := false } := (only_gatePass im s).part .xch (by decide)
    rw [xchan, hxch]
    rfl
  have hdone : ∀ k < 4, deltaDone (gatePass im s) k = false := fun k hk => by
    rw [deltaDone_of_xchan (hchan k), h k hk]
  calc (openGate im s).evt
      _ = (gateDeltas im s).evt := htail.part .evt (by decide)
      _ = (gatePass im s).evt := exportsGate_evt (gatePass im s).step.step (activeTag (gatePass im s)) hdone
      _ = s.evt := (only_gatePass im s).part .evt (by decide)

theorem gatePass_sweep : ∃ q : Pass, (gatePass im s).sweep.pass = some q ∧
    (gatePass im s).sweep.jStep = s.step.step ∧
    q.StartsWith ((firstPass im).getD .sweep) s.stepk.capture (field s.verdict.record 0xE0 32) s.lscale.k := by
  obtain ⟨q, hq, hstarts⟩ := beginPass_sweep ((firstPass im).getD .sweep) false im (gateJournal im s).stepk.capture
    (field (gateJournal im s).verdict.record 0xE0 32) (gateJournal im s).lscale.k (gateJournal im s)
  refine ⟨q, ?_, ?_, hstarts⟩
  · exact congrArg SweepUnit.pass hq
  · exact congrArg SweepUnit.jStep hq

/-- The pass of the gate waits for journal lines 1 to 3 (R170). -/
theorem openGate_pass : ∃ p : Pass, (openGate im s).sweep.pass = some p ∧
    (openGate im s).sweep.jStep = s.step.step ∧
    p.kind = (firstPass im).getD .sweep ∧ p.gateOpening = true ∧ p.gateLeft = 3 ∧ p.consts = s.stepk.capture ∧
    p.clip = field s.verdict.record 0xE0 32 ∧ p.lsK = s.lscale.k ∧ p.next = 0 := by
  obtain ⟨q, hpass, hstep, hstarts⟩ := gatePass_sweep im s
  have hsweep : (gateDeltas im s).sweep = (gatePass im s).sweep := (only_gateDeltas im s).part .sweep (by decide)
  rw [openGate_eq, writeJournal_sweep]
  simp only [setPass, hsweep, hpass, hstep, Option.map_some]
  exact ⟨_, rfl, trivial, hstarts.kind, rfl, by simp [Pass.awaiting, hstarts.gateLeft], hstarts.consts, hstarts.clip,
    hstarts.lsK, hstarts.next⟩

end

theorem firstPass_sweep (im : Image) : (firstPass im).getD .sweep == .sweep ↔ firstPass im = none := by
  unfold firstPass
  split
  · decide
  · split <;> decide

theorem gateOpens : Rules.GateOpens := by
  intro s im hwork himage hdue hclear
  have hexec : exec .gateOpen s = .next (openGate im s) := by
    simp only [exec, execGateOpen, himage, hwork, hdue, hclear, Bool.and_self, if_true]
  have hframe := only_afterFlags im s
  obtain ⟨p, hpass, hjournal, hstarts⟩ := openGate_pass im s
  refine ⟨_, hexec, ?_, ?_, hjournal, hframe.part .lscale (by decide), openGate_evt im s, p, hpass, hstarts⟩
  · rw [show (openGate im s).step = (gateFlags im s).step from hframe.part .step (by decide)]
    simp only [gateFlags, firstPass_sweep]
  · rw [show (openGate im s).verdict = (gateFlags im s).verdict from hframe.part .verdict (by decide)]
    rfl

/-! ### The end of PASS1 (R28, R135, R181) -/

/-- The pass is gone from the journal's state, and little else of it (R28). -/
theorem endPass_sweep {s : State} {p : Pass} (hp : s.sweep.pass = some p) : (endPass s).sweep =
    { s.sweep with pass := none, index := if p.kind.isEma then s.sweep.index else p.index } := by
  simp only [endPass, curPass, hp]
  exact (only_giveUpPads _ (List.Subset.refl _) (only_refl _ _)).part .sweep (by decide)

section
variable (im : Image) (p : Pass) (s : State)

/-- The journal lines that the trust ratios fill (R135). -/
def ratioLines : List Nat :=
  if p.kind == .pass1 then ((validTensors s).map fun t => 64 + t / 16).eraseDups else []

/-- PASS1 is over: its trust ratios are kept, and the phase is the updating pass's. -/
def pass1Over : State :=
  let s := setSweep (fun w => { w with rho := if p.kind == .pass1 then trustRatios s p else [] }) (endPass s)
  { s with step := { s.step with phase := .sweep } }

/-- The updating pass that follows it, before its journal lines. -/
def pass1Next : State := beginPass .sweep false im p.consts p.clip p.lsK 0 (pass1Over p s)

theorem pass1End_eq : pass1End im p s =
    if (ratioLines p (pass1Next im p s)).isEmpty then pass1Written (pass1Next im p s)
    else writeJournal (ratioLines p (pass1Next im p s))
      (setPass (fun p => { p with doneDue := true }) (pass1Next im p s)) := rfl

theorem only_passEnds : OnlyChanges [.health, .mem, .sweep, .strm, .pond] s (endPass s) :=
  only_endPass (List.Subset.refl _) (only_refl _ s)

theorem only_pass1Next : OnlyChanges [.sweep, .fab] (pass1Over p s) (pass1Next im p s) :=
  only_beginPass _ _ _ _ _ _ _ (List.Subset.refl _) (only_refl _ _)

theorem pass1Next_step : (pass1Next im p s).step = { s.step with phase := .sweep } := by
  have hend : (endPass s).step = s.step := (only_passEnds s).part .step (by decide)
  rw [show (pass1Next im p s).step = (pass1Over p s).step from (only_pass1Next im p s).part .step (by decide)]
  simp only [pass1Over, setSweep, hend]

theorem pass1Next_validTensors : validTensors (pass1Next im p s) = validTensors s := by
  have hnext : (pass1Next im p s).ttab = (pass1Over p s).ttab := (only_pass1Next im p s).part .ttab (by decide)
  have hend : (endPass s).ttab = s.ttab := (only_passEnds s).part .ttab (by decide)
  exact validTensors_of_ttab (hnext.trans hend)

theorem pass1Next_image : activeImage (pass1Next im p s) = activeImage s := by
  have hnext : (pass1Next im p s).image = (pass1Over p s).image := (only_pass1Next im p s).part .image (by decide)
  have hend : (endPass s).image = s.image := (only_passEnds s).part .image (by decide)
  exact congrArg ImageUnit.active (hnext.trans hend)

theorem pass1End_step : (pass1End im p s).step = { s.step with phase := .sweep } := by
  have htail : OnlyChanges [.mem, .sweep] (pass1Next im p s) (pass1End im p s) := by
    rw [pass1End_eq]
    split
    · exact only_pass1Written (List.Subset.refl _) (only_refl _ _)
    · exact only_writeJournal _ (List.Subset.refl _) (only_setPass _ (by decide) (only_refl _ _))
  rw [show (pass1End im p s).step = (pass1Next im p s).step from htail.part .step (by decide), pass1Next_step]

end

section
variable {s : State} {p : Pass} (im : Image) (hp : s.sweep.pass = some p)
include hp

theorem pass1Next_sweep : ∃ q : Pass, q.StartsWith .sweep p.consts p.clip p.lsK ∧
    (pass1Next im p s).sweep.pass = some q ∧ (pass1Next im p s).sweep.state = s.sweep.state ∧
    (pass1Next im p s).sweep.seq = s.sweep.seq + 1 ∧
    (p.kind = .pass1 → (pass1Next im p s).sweep.rho = trustRatios s p) := by
  obtain ⟨q, hq, hstarts⟩ := beginPass_sweep .sweep false im p.consts p.clip p.lsK (pass1Over p s)
  refine ⟨q, hstarts, ?_⟩
  rw [pass1Next, hq]
  simp only [pass1Over, setSweep, endPass_sweep hp]
  exact ⟨trivial, trivial, trivial, fun h => by rw [h]; rfl⟩

end

/-- The pass information is written again, and with it the marks line, before FETCH begins (R181). -/
theorem pass1Written_sweep {s : State} {im : Image} {q : Pass} (himage : activeImage s = some im)
    (hq : s.sweep.pass = some q) :
    (pass1Written s).sweep.pass = some (Pass.awaiting 1 { q with doneDue := false }) ∧
    (pass1Written s).sweep.state = .sweep ∧
    (pass1Written s).sweep.seq = s.sweep.seq := by
  simp only [pass1Written, himage, curPass, hq, writeJournal_sweep, writeMarks_sweep]
  simp only [setSweep, setPassInfo, setPass, hq, Option.map_some]
  exact ⟨rfl, trivial, trivial⟩

theorem ratioLines_eq_nil {p : Pass} {s : State} :
    ratioLines p s = [] ↔ p.kind ≠ .pass1 ∨ validTensors s = [] := by
  have hdups (l : List Nat) : l.eraseDups = [] ↔ l = [] := by
    cases l <;> simp [List.eraseDups_cons]
  by_cases h : p.kind = .pass1
  · simp [ratioLines, h, hdups]
  · simp [ratioLines, h]

theorem firstPassEnds : Rules.FirstPassEnds := by
  intro s im p hwork himage hp hkind hhalt hgate hopening htiles hfly hrefetch hvec
  have hexec : exec .pass1Done s = .next (pass1End im p s) := by
    rcases hkind with hkind | hkind <;>
      simp [exec, execPass1Done, pass1Done, himage, curPass, hp, hwork, hkind, hhalt, hgate, hopening, htiles, hfly,
        hrefetch, hvec]
  obtain ⟨q, hstarts, hpass, hstate, hseq, hrho⟩ := pass1Next_sweep im hp
  have hnil : ratioLines p (pass1Next im p s) = [] ↔ p.kind ≠ .pass1 ∨ validTensors s = [] := by
    rw [ratioLines_eq_nil, pass1Next_validTensors]
  by_cases hlines : ratioLines p (pass1Next im p s) = []
  · have heq : pass1End im p s = pass1Written (pass1Next im p s) := by rw [pass1End_eq, hlines]; rfl
    obtain ⟨hpass', hstate', hseq'⟩ :=
      pass1Written_sweep ((pass1Next_image im p s).trans himage) hpass
    have hleft : q.gateLeft + 1 = 1 := by rw [hstarts.gateLeft]
    refine ⟨_, Pass.awaiting 1 { q with doneDue := false }, hexec, pass1End_step im p s, fun _ => ?_,
      fun hk hne => ?_, ?_⟩
    · exact ⟨rfl, hleft, by rw [heq, hstate']⟩
    · exact absurd (hnil.mp hlines) (by simp [hk, hne])
    · rw [heq, hpass', hseq', hseq]
      exact ⟨rfl, hstarts.kind, hstarts.consts, hstarts.clip, hstarts.lsK, hstarts.next, hstarts.wmark,
        Nat.succ_pos _, rfl⟩
  · have hpos : 0 < (ratioLines p (pass1Next im p s)).length := List.length_pos_of_ne_nil hlines
    have hsweep : (pass1End im p s).sweep = { (pass1Next im p s).sweep with
        pass := some (Pass.awaiting (ratioLines p (pass1Next im p s)).length { q with doneDue := true }) } := by
      rw [pass1End_eq, if_neg (by simpa using hlines), writeJournal_sweep]
      simp only [setPass, hpass, Option.map_some]
    refine ⟨_, Pass.awaiting (ratioLines p (pass1Next im p s)).length { q with doneDue := true }, hexec,
      pass1End_step im p s, fun hk => ?_, fun hk hne => ?_, ?_⟩
    · refine absurd (hnil.mpr (hk.imp_left fun h => ?_)) hlines
      rw [h]
      decide
    · rw [hsweep]
      exact ⟨rfl, hstate, hrho hk⟩
    · rw [hsweep]
      exact ⟨rfl, hstarts.kind, hstarts.consts, hstarts.clip, hstarts.lsK, hstarts.next, hstarts.wmark,
        Nat.lt_of_lt_of_le hpos (Nat.le_add_left _ _), hseq⟩

/-- Settles O31: the pass that begins is fresh and keeps what it is begun with; the gate gives it journal lines 1 to 3
to wait for, and the end of PASS1 the trust ratios' lines or the pass information. -/
theorem passesBegin : Obligations.PassesBegin := ⟨gateOpens, firstPassEnds⟩

end Sys2Proof.Machine

/-! PROOF. PassesEnd (O41): the marks line, the end of the sweep and the halt. -/
namespace Sys2Proof.Machine

/-! ### The marks line (R178, R179, R284) -/

/-- A control write waits for the memory path as it is: it does not pass through the write-combining buffer. -/
theorem enqueue_marks {s : State} (hfatal : s.health.fatal = false) (line : BitVec 34) (data : Line) :
    enqueue (controlWrite .marks line data) s =
      arbitrate (controlWrite .marks line data) (wcbFlushLine line s) := by
  simp [enqueue, controlWrite, hfatal]

/-- The marks line is made of the journal's fields and RELEASED. -/
theorem marksLine_of_sweep {s t : State} (hsweep : t.sweep = s.sweep) (hstep : t.step = s.step) :
    marksLine t = marksLine s := by
  rw [marksLine, marksLine, hsweep, hstep]

/-- The line that goes out is the one that the journal's fields still give. -/
theorem writeMarks_waits {s : State} (hfatal : s.health.fatal = false) : ∃ w ∈ (writeMarks s).mem.waiting,
    w.req = controlWrite .marks (journalLine s 0) (marksLine (writeMarks s)) := by
  unfold writeMarks
  extract_lets u
  have hframe : OnlyChanges [.mem] u (enqueue (controlWrite .marks (journalLine u 0) (marksLine u)) u) :=
    only_enqueue _ (List.Subset.refl _) (only_refl _ u)
  rw [marksLine_of_sweep (hframe.part .sweep (by decide)) (hframe.part .step (by decide)),
    enqueue_marks (s := u) hfatal]
  exact ⟨_, List.mem_append_right _ (List.mem_singleton_self _), rfl⟩

theorem marksLineWritten : Rules.MarksLineWritten := by
  intro s hwork hdirty htime
  have hexec : exec .marksLineWrite s = .next (writeMarks s) := by
    simp [exec, execMarksLineWrite, hwork, hdirty, htime]
  obtain ⟨w, hmem, hreq⟩ := writeMarks_waits (working_fatal hwork)
  refine ⟨_, hexec, writeMarks_sweep s, only_writeMarks (by decide) (only_refl _ s), w, hmem, ?_⟩
  rw [hreq]
  exact ⟨rfl, rfl, rfl, rfl, rfl⟩

/-! ### The halt (R28, R41, R42, R146, R176, R179) -/

theorem syncMarks_pass (s : State) : (syncMarks s).sweep.pass = s.sweep.pass := by
  unfold syncMarks
  split
  · split <;> rfl
  · rfl

section
variable (p : Pass) (h : HaltDue) (s : State)

/-- The engine as a halting step leaves it, before its pass is given up and its marks line written. -/
def haltMarked : State :=
  let pos := if h.fault == .abort then passPos s p.kind h.ord else h.pos
  let s := syncMarks s
  let left := (p.inflight.filter fun t => t.stage == .moments || t.stage == .momentsOk || t.stage == .weights).length
  let s := { s with
    step := { s.step with phase := .halted }
    tongue := { s.tongue with armed := false, clearing := none }
    aux := { s.aux with valid := false } }
  setSweep (fun w => { w with
    state := .halted, fault := h.fault, faultGroup := h.weights, fpos := pos, failedLines := h.failedLines
    leftInflight := left }) s

/-- AUX_STATUS as a halting EMA pass leaves it (R146, R447). -/
def emaStopped : State :=
  { s with aux := { s.aux with running := false, valid := false, reseeding := false, gateWait := false } }

/-- What follows is the given-up pass, the marks line, the report and the pulse. -/
theorem only_afterHaltMarked : OnlyChanges [.health, .evt, .mem, .sweep, .strm, .pond] (haltMarked p h s)
    (haltStep p h s) :=
  only_pulse _ (by decide) (only_report _ _ (by decide) (only_writeMarks (by decide) (only_endPass (by decide)
    (only_refl _ _))))

theorem haltStep_step : (haltStep p h s).step = { s.step with phase := .halted } := by
  have hsync : (syncMarks s).step = s.step :=
    (only_syncMarks (List.Subset.refl _) (only_refl _ s)).part .step (by decide)
  rw [show (haltStep p h s).step = (haltMarked p h s).step from (only_afterHaltMarked p h s).part .step (by decide)]
  simp only [haltMarked, setSweep, hsync]

theorem haltStep_arm : (haltStep p h s).tongue.armed = false ∧ (haltStep p h s).tongue.clearing = none := by
  rw [show (haltStep p h s).tongue = (haltMarked p h s).tongue from
    (only_afterHaltMarked p h s).part .tongue (by decide)]
  exact ⟨rfl, rfl⟩

theorem haltStep_ema : (haltStep p h s).aux.valid = false := by
  rw [show (haltStep p h s).aux = (haltMarked p h s).aux from (only_afterHaltMarked p h s).part .aux (by decide)]
  rfl

variable {p s} (hp : s.sweep.pass = some p)
include hp

theorem haltStep_sweep : (haltStep p h s).sweep.pass = none ∧ (haltStep p h s).sweep.state = .halted ∧
    (haltStep p h s).sweep.fault = h.fault ∧ (haltStep p h s).sweep.faultGroup = h.weights ∧
    (haltStep p h s).sweep.failedLines = h.failedLines := by
  have hpass : (haltMarked p h s).sweep.pass = some p := (syncMarks_pass s).trans hp
  have hlate : OnlyChanges [.health, .evt] (writeMarks (endPass (haltMarked p h s))) (haltStep p h s) :=
    only_pulse _ (by decide) (only_report _ _ (by decide) (only_refl _ _))
  have hsweep : (haltStep p h s).sweep = (writeMarks (endPass (haltMarked p h s))).sweep :=
    hlate.part .sweep (by decide)
  rw [hsweep, writeMarks_sweep, endPass_sweep hpass]
  exact ⟨rfl, rfl, rfl, rfl, rfl⟩

/-- An EMA pass stops: the phase is not the pass's, and the copy is not valid (R146). -/
theorem haltEma_leaves : (haltEma s).step = s.step ∧ (haltEma s).sweep.pass = none ∧
    (haltEma s).aux.running = false ∧ (haltEma s).aux.valid = false := by
  have hend : OnlyChanges [.health, .mem, .sweep, .strm, .pond] (emaStopped s) (endPass (emaStopped s)) :=
    only_endPass (List.Subset.refl _) (only_refl _ _)
  have hpulse : OnlyChanges [.evt] (endPass (emaStopped s)) (haltEma s) :=
    only_pulse _ (List.Subset.refl _) (only_refl _ _)
  have hstep : (haltEma s).step = s.step := (hpulse.part .step (by decide)).trans (hend.part .step (by decide))
  have haux : (haltEma s).aux = (emaStopped s).aux :=
    (hpulse.part .aux (by decide)).trans (hend.part .aux (by decide))
  have hsweep : (haltEma s).sweep = (endPass (emaStopped s)).sweep := hpulse.part .sweep (by decide)
  rw [hstep, haux, hsweep, endPass_sweep (s := emaStopped s) hp]
  exact ⟨rfl, rfl, rfl, rfl⟩

end

theorem sweepHalts : Rules.SweepHalts := by
  intro s p h hwork hp hhalt hreached
  have hexec : exec .sweepHalt s = .next (if p.kind.isEma then haltEma s else haltStep p h s) := by
    simp [exec, execSweepHalt, sweepHalt, curPass, hwork, hp, hhalt, hreached]
  refine ⟨fun hkind => ?_, fun hkind => ?_⟩
  · rw [hkind, if_neg Bool.false_ne_true] at hexec
    obtain ⟨hpass, hstate, hfault, hgroup, hfailed⟩ := haltStep_sweep h hp
    obtain ⟨harmed, hclearing⟩ := haltStep_arm p h s
    exact ⟨_, hexec, haltStep_step p h s, hpass, hstate, hfault, hgroup, hfailed, harmed, hclearing,
      haltStep_ema p h s⟩
  · rw [hkind, if_pos rfl] at hexec
    exact ⟨_, hexec, haltEma_leaves hp⟩

/-! ### Releases ahead of the end (R27, R168, R197) -/

/-- What a thermal pause is asked of does not lie in the queues of the memory path. -/
theorem enqueue_thermal (r : MemReq) (s : State) : (enqueue r s).mem.thermal = s.mem.thermal := by
  have hflush (e : WcbEntry) (u : State) : (wcbFlush e u).mem.thermal = u.mem.thermal := rfl
  have hwrite (u : State) : (wcbWrite r u).mem.thermal = u.mem.thermal := by
    unfold wcbWrite
    split
    · dsimp only
      split <;> rfl
    · dsimp only
      split
      · split <;> rfl
      · rfl
  have hline (u : State) : (arbitrate r (wcbFlushLine r.line u)).mem.thermal = u.mem.thermal := by
    show (wcbFlushLine r.line u).mem.thermal = _
    unfold wcbFlushLine
    split
    · exact hflush _ u
    · rfl
  unfold enqueue
  split
  · rfl
  · split
    · rfl
    · split
      · exact hwrite s
      · exact hline s

/-- The engine after releases: the count and the marks line have moved, and nothing that the sweep's end asks for or
leaves. -/
structure Releases (s t : State) : Prop where
  parts : OnlyChanges [.evt, .mem, .step, .sweep] s t
  pass : t.sweep.pass = s.sweep.pass
  step : t.step = { s.step with released := t.step.released }
  thermal : t.mem.thermal = s.mem.thermal

theorem Releases.refl (s : State) : Releases s s := ⟨only_refl _ s, rfl, rfl, rfl⟩

theorem Releases.releaseOne {s t : State} (h : Releases s t) : Releases s (releaseOne t) where
  parts := only_releaseOne (List.Subset.refl _) h.parts
  pass := by
    have hpulse (u : State) : (pulse 2 u).sweep = u.sweep :=
      (only_pulse 2 (List.Subset.refl _) (only_refl _ u)).part .sweep (by decide)
    rw [Machine.releaseOne, hpulse, writeMarks_sweep]
    exact h.pass
  step := by
    have hlate (u : State) : (pulse 2 (writeMarks u)).step = u.step :=
      (only_pulse 2 (by decide) (only_writeMarks (L := [.evt, .mem, .sweep]) (by decide) (only_refl _ u))).part .step
        (by decide)
    rw [Machine.releaseOne, hlate, h.step]
  thermal := by
    have hpulse (u : State) : (pulse 2 u).mem = u.mem :=
      (only_pulse 2 (List.Subset.refl _) (only_refl _ u)).part .mem (by decide)
    rw [Machine.releaseOne, hpulse, writeMarks, enqueue_thermal]
    exact h.thermal

theorem releases_releaseDue (s : State) : Releases s (releaseDue s) := by
  have hfold (ns : List Nat) (u : State) (h : Releases s u) :
      Releases s (ns.foldl (fun s _ => releaseOne s) u) := by
    induction ns generalizing u with
    | nil => exact h
    | cons n ns ih => exact ih _ h.releaseOne
  unfold releaseDue
  split
  · exact .refl s
  · exact hfold _ s (.refl s)

/-! ### The end of the sweep (R28, R29, R150, R212, R566) -/

section
variable (s : State)

/-- The journal is DONE and its marks line written (R178). -/
def sweepDone : State :=
  writeMarks (setSweep (fun w => { w with
    state := .done, fault := .none, faultGroup := false, fpos := 0, failedLines := 0 }) (endPass s))

/-- STEP is one higher and K takes K_NEXT, as the sweep is done (R29, R150). -/
def sweepCounted : State :=
  setStep ((sweepDone s).step.step + 1)
    { sweepDone s with lscale := { (sweepDone s).lscale with k := (sweepDone s).lscale.kNext } }

/-- With an image that keeps an EMA copy, the copy is the new step's (R145). -/
def sweepCopied : State :=
  if ((activeImage s).map fun im => im.rule.emaMode == 1).getD false then
    { sweepCounted s with aux := { (sweepCounted s).aux with emaStep := (sweepCounted s).step.step, valid := true } }
  else sweepCounted s

/-- The phase that follows the sweep: OBSERVE for an armed tongue, and IDLE otherwise (R28, R212). -/
def sweepLeft : State :=
  if (sweepCopied s).tongue.armed then enterObserve (sweepCopied s)
  else { sweepCopied s with step := { (sweepCopied s).step with phase := .idle } }

theorem endSweep_eq : endSweep s = lagStartAll (pulse 3 (sweepLeft s)) := rfl

theorem only_sweepDone : OnlyChanges [.health, .mem, .sweep, .strm, .pond] s (sweepDone s) :=
  only_writeMarks (by decide) (only_setSweep _ (by decide) (only_endPass (List.Subset.refl _) (only_refl _ s)))

theorem only_sweepCounted : OnlyChanges [.health, .evt, .step, .lscale, .memb, .verdict, .hier, .east, .west, .ring,
    .fmp] (sweepDone s) (sweepCounted s) :=
  only_setStep _ (by decide) (only_set_lscale (by decide) (only_refl _ _))

theorem only_sweepCopied : OnlyChanges [.aux] (sweepCounted s) (sweepCopied s) :=
  only_ite (only_set_aux (by decide) (only_refl _ _)) (only_refl _ _)

theorem only_sweepLeft : OnlyChanges [.step, .tongue, .verdict, .hier] (sweepCopied s) (sweepLeft s) :=
  only_ite (only_enterObserve (List.Subset.refl _) (only_refl _ _)) (only_set_step (by decide) (only_refl _ _))

theorem only_endSweepTail : OnlyChanges [.evt, .mem, .xch] (sweepLeft s) (endSweep s) :=
  only_lagStartAll (by decide) (only_pulse _ (by decide) (only_refl _ _))

theorem sweepDone_step : (sweepDone s).step = s.step := (only_sweepDone s).part .step (by decide)

theorem sweepCopied_step : (sweepCopied s).step = { s.step with step := s.step.step + 1 } := by
  rw [show (sweepCopied s).step = (sweepCounted s).step from (only_sweepCopied s).part .step (by decide), sweepCounted,
    setStep_step]
  simp only [sweepDone_step]

theorem sweepCopied_tongue : (sweepCopied s).tongue = s.tongue :=
  calc (sweepCopied s).tongue
    _ = (sweepCounted s).tongue := (only_sweepCopied s).part .tongue (by decide)
    _ = (sweepDone s).tongue := (only_sweepCounted s).part .tongue (by decide)
    _ = s.tongue := (only_sweepDone s).part .tongue (by decide)

/-- K takes K_NEXT (R150). -/
theorem endSweep_lscale : (endSweep s).lscale = { s.lscale with k := s.lscale.kNext } := by
  have hdone : (sweepDone s).lscale = s.lscale := (only_sweepDone s).part .lscale (by decide)
  have hset (n : BitVec 32) (u : State) : (setStep n u).lscale = u.lscale :=
    (only_setStep n (List.Subset.refl _) (only_refl _ u)).part .lscale (by decide)
  calc (endSweep s).lscale
    _ = (sweepLeft s).lscale := (only_endSweepTail s).part .lscale (by decide)
    _ = (sweepCopied s).lscale := (only_sweepLeft s).part .lscale (by decide)
    _ = (sweepCounted s).lscale := (only_sweepCopied s).part .lscale (by decide)
    _ = { s.lscale with k := s.lscale.kNext } := by rw [sweepCounted, hset, hdone]

/-- An armed tongue goes on into OBSERVE, and the step ends in IDLE otherwise (R28, R29, R212). -/
theorem endSweep_step : (endSweep s).step =
    if s.tongue.armed then { s.step with step := s.step.step + 1, phase := .observe, flash := .hold }
    else { s.step with step := s.step.step + 1, phase := .idle } := by
  rw [show (endSweep s).step = (sweepLeft s).step from (only_endSweepTail s).part .step (by decide), sweepLeft,
    sweepCopied_tongue]
  split
  · simp only [enterObserve, sweepCopied_step]
  · simp only [sweepCopied_step]

/-- The pass is over and the journal DONE without a fault (R178). -/
theorem endSweep_sweep {p : Pass} (hp : s.sweep.pass = some p) : (endSweep s).sweep.pass = none ∧
    (endSweep s).sweep.state = .done ∧ (endSweep s).sweep.fault = .none := by
  have hsweep : (endSweep s).sweep = (sweepDone s).sweep :=
    calc (endSweep s).sweep
      _ = (sweepLeft s).sweep := (only_endSweepTail s).part .sweep (by decide)
      _ = (sweepCopied s).sweep := (only_sweepLeft s).part .sweep (by decide)
      _ = (sweepCounted s).sweep := (only_sweepCopied s).part .sweep (by decide)
      _ = (sweepDone s).sweep := (only_sweepCounted s).part .sweep (by decide)
  rw [hsweep, sweepDone, writeMarks_sweep]
  simp only [setSweep, endPass_sweep hp, and_self]

end

theorem sweepEnds : Rules.SweepEnds := by
  intro s p hwork hcool hp hgate hopening hdone hkind hfly hmark hhalt
  obtain ⟨hparts, hpass, hstep, hthermal⟩ := releases_releaseDue s
  have hpass' : (releaseDue s).sweep.pass = some p := hpass.trans hp
  have hwork' : working (releaseDue s) = true := by
    rw [hparts.working (by decide) (by decide) (by decide), hwork]
  have hexec : exec .weightsConfirmed s = .next (endSweep (releaseDue s)) := by
    simp [exec, execWeightsConfirmed, weightsConfirmed, settleSweep, curPass, hp, hpass', hwork, hwork', hgate,
      hopening, hdone, hkind, hfly, hmark, hhalt, hthermal, hcool]
  have htongue : (releaseDue s).tongue = s.tongue := hparts.part .tongue (by decide)
  have hlscale : (releaseDue s).lscale = s.lscale := hparts.part .lscale (by decide)
  obtain ⟨hgone, hstate, hfault⟩ := endSweep_sweep (releaseDue s) hpass'
  refine ⟨_, hexec, hgone, hstate, hfault, ?_, ?_, fun harmed => ?_, fun harmed => ?_⟩
  · rw [endSweep_step, hstep]
    split <;> rfl
  · rw [endSweep_lscale, hlscale]
  · rw [endSweep_step, htongue, if_pos harmed]
    exact ⟨rfl, rfl⟩
  · rw [endSweep_step, htongue, harmed, hstep]
    exact ⟨rfl, rfl⟩

/-- Settles O41: the sweep's end, the halt and the marks line, each followed through what the pass it gives up and the
line it writes leave of the journal's fields, and through the parts that the rest does not touch. -/
theorem passesEnd : Obligations.PassesEnd := ⟨sweepEnds, sweepHalts, marksLineWritten⟩

end Sys2Proof.Machine

/-! PROOF. TilesCommitted (O40): what COMMIT and the confirms of its groups leave of the running pass. -/
namespace Sys2Proof.Machine

/-! ### Marks and tiles of a running pass (R171, R174) -/

/-- A tile at a stage, with the issue group that is under confirmation there. -/
def TileSt.handed (st : TileStage) (ls : List GroupLine) (t : TileSt) : TileSt := { t with stage := st, group := ls }

/-- A pass in which what is in flight under an ordinal has changed: what `setTile` makes of it (`setTile_pass`). -/
def Pass.atTile (ord : Nat) (f : TileSt → TileSt) (p : Pass) : Pass :=
  { p with inflight := p.inflight.map fun t => if t.ord = ord then f t else t }

/-- A pass of which a tile is through: it is no longer in flight, and the weight mark is one past it. -/
def Pass.through (ord : Nat) (p : Pass) : Pass :=
  { p with inflight := p.inflight.filter (·.ord != ord), wmark := ord + 1 }

/-- A pass whose moment mark is where its tiles put it. -/
def Pass.markMoments (p : Pass) : Pass := { p with mmark := momentMark p }

theorem Pass.mem_atTile {p : Pass} {x : TileSt} (hx : x ∈ p.inflight) (f : TileSt → TileSt) :
    f x ∈ (p.atTile x.ord f).inflight :=
  List.mem_map.2 ⟨x, hx, if_pos rfl⟩

theorem Pass.through_gone (ord : Nat) (p : Pass) : ∀ y ∈ (p.through ord).inflight, y.ord ≠ ord := by
  simp [Pass.through]

theorem commitTurn_mem {p : Pass} {x : TileSt} (h : commitTurn p = some x) : x ∈ p.inflight := by
  unfold commitTurn at h
  split at h
  case h_1 t hfind =>
    obtain ⟨-, ⟨⟩⟩ := Option.ite_none_right_eq_some.1 h
    exact List.mem_of_find?_eq_some hfind
  case h_2 => cases h

/-! ### What the operations of COMMIT leave of the pass -/

section
variable (s : State)

@[simp] theorem setPass_pass (f : Pass → Pass) : (setPass f s).sweep.pass = s.sweep.pass.map f := rfl

@[simp] theorem setTile_pass (ord : Nat) (f : TileSt → TileSt) :
    (setTile ord f s).sweep.pass = s.sweep.pass.map (Pass.atTile ord f) := rfl

@[simp] theorem padFreeAll_sweep (hs : List (BitVec 16)) (o : BitVec 6) : (padFreeAll hs o s).sweep = s.sweep :=
  (only_padFreeAll hs o (List.Subset.refl _) (only_refl _ s)).part .sweep (by decide)

@[simp] theorem enqueueAll_sweep (rs : List MemReq) : (enqueueAll rs s).sweep = s.sweep :=
  (only_enqueueAll rs (List.Subset.refl _) (only_refl _ s)).part .sweep (by decide)

@[simp] theorem addSiblings_sweep (t : TileSt) : (addSiblings t s).sweep = s.sweep :=
  (only_addSiblings t (List.Subset.refl _) (only_refl _ s)).part .sweep (by decide)

@[simp] theorem lagStartAll_sweep : (lagStartAll s).sweep = s.sweep :=
  (only_lagStartAll (List.Subset.refl _) (only_refl _ s)).part .sweep (by decide)

@[simp] theorem logRepair_pass (pos : Word) (blocks : BitVec 32) (kind : BitVec 8) :
    (logRepair pos blocks kind s).sweep.pass = s.sweep.pass := by
  have henqueue (r : MemReq) : (enqueue r s).sweep = s.sweep :=
    (only_enqueue r (List.Subset.refl _) (only_refl _ s)).part .sweep (by decide)
  simp only [logRepair, report, setSweep]
  split
  · rw [henqueue]
  · rfl

@[simp] theorem countTile_pass (t : TileSt) : (countTile t s).sweep.pass = s.sweep.pass := by
  simp only [countTile]
  split
  · rfl
  · split <;> rfl

theorem foldl_setXch_sweep (f : State → Nat → XChan → XChan) (ks : List Nat) :
    (ks.foldl (fun s k => setXch k (f s k) s) s).sweep = s.sweep :=
  (only_foldl (only_refl [Part.xch] s) fun _ k hu => only_setXch k _ (List.Subset.refl _) hu).part .sweep (by decide)

theorem handGroup_pass (t : TileSt) (weights : Bool) (ls : List GroupLine) : (handGroup t weights ls s).sweep.pass =
    s.sweep.pass.map (Pass.atTile t.ord (TileSt.handed (if weights then .weights else .moments) ls)) := by
  rw [handGroup, enqueueAll_sweep]
  rfl

/-- A tile that gives up pads stays in flight under its ordinal, and nothing else of the pass changes (R101). -/
theorem freeSlots_pass (slots : List Nat) (ord : Nat) : ∃ f : TileSt → TileSt, (∀ t, (f t).ord = t.ord) ∧
    (freeSlots slots ord s).sweep.pass = s.sweep.pass.map (Pass.atTile ord f) := by
  have hid : Pass.atTile ord id = id := by
    funext p
    simp [Pass.atTile]
  unfold freeSlots
  split
  · split
    case h_1 t _ =>
      refine ⟨fun x => { x with pads := (t.pads.partition fun h => slots.contains h.1).2 }, fun _ => rfl, ?_⟩
      rw [setTile_pass, padFreeAll_sweep]
    case h_2 => exact ⟨id, fun _ => rfl, by rw [hid, Option.map_id, id]⟩
  · exact ⟨id, fun _ => rfl, by rw [hid, Option.map_id, id]⟩

/-- A tile that COMMIT may hand over has its moments under confirmation, whatever its group holds. -/
theorem handMoments_pass (im : Image) (p : Pass) {t : TileSt} (h : t.cls.passes = true ∨ t.out.bad = false) :
    ∃ ls, (handMoments im p t s).sweep.pass = s.sweep.pass.map (Pass.atTile t.ord (TileSt.handed .moments ls)) := by
  unfold handMoments
  split
  case isTrue => exact ⟨[], rfl⟩
  case isFalse hpasses =>
    have hgood : t.out.bad = false := h.resolve_left hpasses
    rw [hgood, if_neg Bool.false_ne_true]
    extract_lets eff repaired ls counted slotted
    have hrepaired : repaired.sweep.pass = s.sweep.pass := by
      unfold repaired
      split
      · rfl
      · exact logRepair_pass s _ _ _
    split
    · exact ⟨[], by rw [setTile_pass, hrepaired]; rfl⟩
    · refine ⟨ls ++ [slotLine slotted t.ord], ?_⟩
      rw [handGroup_pass, show slotted.sweep.pass = repaired.sweep.pass from rfl, hrepaired]
      rfl

theorem advanceMoments_pass : (advanceMoments s).sweep.pass = s.sweep.pass.map Pass.markMoments := syncMarks_pass _

/-- An accepted tile of PASS1 is through both marks (R97). -/
theorem acceptPass1_pass (t : TileSt) : (acceptPass1 t s).sweep.pass =
    s.sweep.pass.map fun p => { p.through t.ord with mmark := t.ord + 1 } := by
  rw [acceptPass1, setPass_pass, padFreeAll_sweep]
  rfl

theorem emaCommitted_pass (t : TileSt) :
    (emaCommitted t s).sweep.pass = s.sweep.pass.map (Pass.through t.ord) := by
  rw [emaCommitted, setPass_pass, padFreeAll_sweep]
  rfl

section
variable {s} {p : Pass} (hp : s.sweep.pass = some p)
include hp

theorem raiseHalt_pass (h : HaltDue) : ∃ d, (raiseHalt h s).sweep.pass = some { p with halt := d } ∧
    (p.halt = none → d = some h) := by
  rw [raiseHalt, setPass_pass, hp, Option.map_some]
  refine ⟨_, rfl, fun hnone => ?_⟩
  simp [hnone]

/-- A confirmed tile gives up pads and waits for its weight group, and the moment mark moves (R101, R174). -/
theorem momentsConfirmed_pass {x : TileSt}
    (hfind : p.inflight.find? (fun t => t.stage == .moments && groupConfirmed t) = some x) :
    ∃ f : TileSt → TileSt, (∀ t, (f t).ord = t.ord) ∧ (momentsConfirmed s).sweep.pass =
      some ((p.atTile x.ord f).atTile x.ord (TileSt.handed .momentsOk [])).markMoments := by
  obtain ⟨f, hord, hfreed⟩ := freeSlots_pass s [2, 3] x.ord
  refine ⟨f, hord, ?_⟩
  simp only [momentsConfirmed, curPass, hp, hfind, advanceMoments_pass, setTile_pass, hfreed]
  rfl

/-- A tile whose moments, and those of all before it, are confirmed has its weights under confirmation, whatever its
group holds (R174). -/
theorem weightHandover_pass {im : Image} {x : TileSt} (hwork : working s = true) (himage : activeImage s = some im)
    (hfind : p.inflight.find? (·.stage == .momentsOk) = some x)
    (htorn : ((p.halt.map (·.fault.tears)).getD false) = false) (hmark : x.ord < p.mmark)
    (hroom : (recOf s x.tensor).sparse = false ∨ windowFull s = false) :
    ∃ ls, (weightHandover s).sweep.pass = some (p.atTile x.ord (TileSt.handed .weights ls)) := by
  have hmay : (!working s || (p.halt.map (·.fault.tears)).getD false || decide (p.mmark ≤ x.ord) ||
      (recOf s x.tensor).sparse && windowFull s) = false := by
    simp only [hwork, htorn, Nat.not_le.2 hmark, Bool.and_eq_false_iff.2 hroom, decide_false, Bool.not_true,
      Bool.or_false]
  simp only [weightHandover, himage, curPass, hp, hfind, hmay, if_false, Bool.false_eq_true]
  split
  · exact ⟨[], congrArg (Option.map _) hp⟩
  · exact ⟨_, (handGroup_pass _ x true _).trans (congrArg (Option.map _) hp)⟩

/-- A sweep with tiles left, and a pass of another kind, go on. -/
theorem settleSweep_goesOn (h : p.kind = .sweep → p.wmark < p.tiles) : settleSweep s = releaseDue s := by
  have hpass : (releaseDue s).sweep.pass = some p := (releases_releaseDue s).pass.trans hp
  have hgoes : (p.kind == .sweep && decide (p.tiles ≤ p.wmark)) = false := by simpa using h
  simp only [settleSweep, curPass, hpass, hgoes, Bool.false_and, if_false, Bool.false_eq_true]

end

/-- EXPORT takes of a tile at most a pad that it holds (R177). -/
theorem exportTile_tiles (run : Pass) (t : TileSt) :
    (exportTile run t s).sweep.pass.map Pass.tiles = s.sweep.pass.map Pass.tiles := by
  have hgive (h : BitVec 16) : (padGive h ownerExport s).sweep = s.sweep :=
    (only_padGive h _ (List.Subset.refl _) (only_refl _ s)).part .sweep (by decide)
  have hoffer (o : XOffer) (u : State) : (exportOffer o u).sweep = u.sweep :=
    (only_exportOffer o (List.Subset.refl _) (only_refl _ u)).part .sweep (by decide)
  simp only [exportTile]
  split
  · rw [hoffer, setTile_pass, Option.map_map]
    split
    · rw [hgive]
      rfl
    · rfl
  · rw [foldl_setXch_sweep]

/-- A tensor's last tile takes its columns out of the pass, and no tile (R142). -/
theorem freeColumns_tiles (run : Pass) (t : TileSt) :
    (freeColumns run t s).sweep.pass.map Pass.tiles = s.sweep.pass.map Pass.tiles := by
  unfold freeColumns
  split
  · rw [setPass_pass, padFreeAll_sweep, Option.map_map]
    rfl
  · rfl

/-- The fault that a recovery keeps is all of the pass that `dropFault` may change (R185). -/
theorem dropFault_pass : ∃ keep : Pass → Option Nat,
    (dropFault s).sweep.pass = s.sweep.pass.map fun p => { p with keepFault := keep p } := by
  have hkept : s.sweep.pass = s.sweep.pass.map fun p => { p with keepFault := p.keepFault } := Option.map_id'.symm
  unfold dropFault
  split
  · split
    · split
      · exact ⟨fun _ => none, rfl⟩
      · exact ⟨_, hkept⟩
    · exact ⟨_, hkept⟩
  · exact ⟨_, hkept⟩

/-- The weight mark passes the tile, which is in flight no longer (R174). -/
theorem tileCommitted_pass {p : Pass} (hp : s.sweep.pass = some p) (run : Pass) (t : TileSt) :
    ∃ q, (tileCommitted run t s).sweep.pass = some q ∧ q.tiles = p.tiles ∧ q.wmark = t.ord + 1 ∧
      ∀ y ∈ q.inflight, y.ord ≠ t.ord := by
  unfold tileCommitted
  extract_lets summed exported left freed moved
  have hsummed : summed.sweep = s.sweep := by
    unfold summed
    split
    · rfl
    · exact addSiblings_sweep s t
  have htiles : freed.sweep.pass.map Pass.tiles = some p.tiles := by
    rw [freeColumns_tiles, padFreeAll_sweep, exportTile_tiles, countTile_pass, hsummed, hp]
    rfl
  obtain ⟨u, hu, hut⟩ := Option.map_eq_some_iff.1 htiles
  obtain ⟨keep, hkeep⟩ := dropFault_pass (syncMarks moved)
  rw [lagStartAll_sweep, hkeep, syncMarks_pass, setPass_pass, hu]
  exact ⟨_, rfl, hut, rfl, Pass.through_gone t.ord u⟩

end

/-! ### The weight mark (R174, R197) -/

/-- The tile at the weight mark is through: the mark has moved, and what may follow finds a pass with tiles left, or one
that ends by its own command (R146, R174). -/
theorem weightsConfirmed_settles {s : State} {p : Pass} {x : TileSt} (hp : s.sweep.pass = some p)
    (hwork : working s = true) (hgate : p.gateLeft = 0)
    (hfind : p.inflight.find? (fun t => t.stage == .weights && t.ord == p.wmark && groupConfirmed t) = some x)
    (hleft : p.kind.isEma = true ∨ p.wmark + 1 < p.tiles) :
    ∃ u, weightsConfirmed s = settleSweep u ∧ u.step = s.step ∧ ∃ q, u.sweep.pass = some q ∧ q.wmark = p.wmark + 1 ∧
      (∀ y ∈ q.inflight, y.ord ≠ x.ord) ∧ (q.kind = .sweep → q.wmark < q.tiles) := by
  have hx := List.find?_some hfind
  simp only [Bool.and_eq_true, beq_iff_eq] at hx
  obtain ⟨⟨-, hord⟩, -⟩ := hx
  have hconfirmed : weightsConfirmed s =
      settleSweep (if p.kind.isEma then emaCommitted x s else tileCommitted p x s) := by
    simp [weightsConfirmed, curPass, hp, hwork, hgate, hfind]
  split at hconfirmed
  case isTrue hema =>
    have hframe : OnlyChanges [.health, .sweep, .strm, .pond] s (emaCommitted x s) :=
      only_emaCommitted x (List.Subset.refl _) (only_refl _ s)
    have hpass := emaCommitted_pass s x
    rw [hp] at hpass
    refine ⟨_, hconfirmed, hframe.part .step (by decide), _, hpass, congrArg (· + 1) hord,
      Pass.through_gone x.ord p, fun hkind => ?_⟩
    rw [show p.kind = .sweep from hkind] at hema
    cases hema
  case isFalse hkind =>
    have hframe : OnlyChanges [.health, .mem, .sweep, .tongue, .strm, .pond, .xch] s (tileCommitted p x s) :=
      only_tileCommitted p x (List.Subset.refl _) (only_refl _ s)
    obtain ⟨q, hq, htiles, hmark, hgone⟩ := tileCommitted_pass s hp p x
    rw [hord] at hmark
    refine ⟨_, hconfirmed, hframe.part .step (by decide), q, hq, hmark, hgone, fun _ => ?_⟩
    rw [hmark, htiles]
    exact hleft.resolve_left hkind

/-! ### The obligation -/

theorem momentsHandedOver : Rules.MomentsHandedOver := by
  intro s im p x hwork himage hp hturn
  refine ⟨fun hkind => ?_, fun hkind hnear hroom => ?_⟩
  · have hexec : exec .momentGroupHandover s = .next (acceptPass1 x s) := by
      simp [exec, execMomentGroupHandover, momentHandover, curPass, himage, hp, hwork, hturn, hkind]
    have hframe : OnlyChanges [.health, .sweep, .strm, .pond] s (acceptPass1 x s) :=
      only_acceptPass1 x (List.Subset.refl _) (only_refl _ s)
    have hpass := acceptPass1_pass s x
    rw [hp] at hpass
    exact ⟨_, _, hexec, hpass, rfl, rfl, Pass.through_gone x.ord p, hframe.part .mem (by decide),
      hframe.part .stack (by decide)⟩
  · have hexec : exec .momentGroupHandover s = .next (handMoments im p x s) := by
      simp [exec, execMomentGroupHandover, momentHandover, curPass, himage, hp, hwork, hturn, hkind, hnear, hroom]
    refine ⟨fun hgood => ?_, fun hpasses hbad => ?_⟩
    · obtain ⟨ls, hpass⟩ := handMoments_pass s im p hgood
      rw [hp] at hpass
      exact ⟨_, _, hexec, hpass, rfl, _, Pass.mem_atTile (commitTurn_mem hturn) _, rfl, rfl⟩
    · have hhalts : handMoments im p x s =
          raiseHalt { fault := .nonfinite, pos := posWord (some (x.tensor, x.tile)), ord := x.ord } s := by
        simp [handMoments, hpasses, hbad]
      rw [hhalts] at hexec
      obtain ⟨halt, hpass, hfirst⟩ := raiseHalt_pass hp _
      exact ⟨_, _, hexec, hpass, rfl, rfl, hfirst⟩

theorem confirmsAdvanceMarks : Rules.ConfirmsAdvanceMarks := by
  intro s im p x hwork himage hp
  refine ⟨fun hfind => ?_, fun hfind htorn hmark hroom => ?_, fun hgate hfind hleft => ?_⟩
  · have hexec : exec .momentsConfirmed s = .next (momentsConfirmed s) := by
      simp [exec, execMomentsConfirmed, hwork]
    have hframe : OnlyChanges [.health, .sweep, .strm, .pond] s (momentsConfirmed s) :=
      only_momentsConfirmed (List.Subset.refl _) (only_refl _ s)
    obtain ⟨f, hord, hpass⟩ := momentsConfirmed_pass hp hfind
    have hfreed := Pass.mem_atTile (List.mem_of_find?_eq_some hfind) f
    have hmem := Pass.mem_atTile hfreed (TileSt.handed .momentsOk [])
    rw [hord x] at hmem
    exact ⟨_, _, hexec, hpass, ⟨_, hmem, hord x, rfl⟩, rfl, hframe.part .step (by decide)⟩
  · obtain ⟨ls, hpass⟩ := weightHandover_pass hp hwork himage hfind htorn hmark hroom
    exact ⟨_, _, rfl, hpass, ⟨_, Pass.mem_atTile (List.mem_of_find?_eq_some hfind) _, rfl, rfl⟩, rfl,
      only_weightHandover (by decide) (only_refl _ s)⟩
  · obtain ⟨u, hconfirmed, hsame, q, hq, hmark, hgone, hgoes⟩ := weightsConfirmed_settles hp hwork hgate hfind
      hleft
    obtain ⟨-, hpass, hstep, -⟩ := releases_releaseDue u
    refine ⟨releaseDue u, q, ?_, hpass.trans hq, hmark, hgone, ?_⟩
    · rw [← settleSweep_goesOn hq hgoes, ← hconfirmed]
      rfl
    · rw [hstep, hsame]

/-- Settles O40: each command's effect is followed through what it leaves of the running pass, and a weight mark short of
the last tile leaves only the releases to come after it. -/
theorem tilesCommitted : Obligations.TilesCommitted := ⟨momentsHandedOver, confirmsAdvanceMarks⟩

end Sys2Proof.Machine

/-! PROOF. TilesFetched (O39): the pass as FETCH_ISSUE and TILE_ENTER_CHAIN leave it, and the bank that a tile enters
with. -/
namespace Sys2Proof.Machine

/-! ### A tile issued (R99, R108, R168, R192, R555) -/

theorem mem_insertTile (x : TileSt) (ts : List TileSt) : x ∈ insertTile x ts := by
  induction ts with
  | nil => exact List.mem_singleton_self x
  | cons t ts ih =>
    unfold insertTile
    split
    · exact List.mem_cons_of_mem t ih
    · exact List.mem_cons_self

/-- A pass of which a tile has been issued under an ordinal, with the column pads that it holds then. -/
def Pass.issued (o : Nat) (x : TileSt) (cols : List (Nat × PadSet)) (p : Pass) : Pass :=
  { p with
    granted := none
    next := if p.refetch.isEmpty then o + 1 else p.next
    refetch := p.refetch.drop 1
    qpads := cols
    rampIssued := p.rampIssued + 1
    inflight := insertTile x p.inflight }

/-- A tile being fetched into the pads that were granted for it: slot 8 is its tensor's column pads. -/
structure TileSt.FetchedAs (x : TileSt) (p : Pass) (o tensor tile : Nat) (c : TileClass) : Prop where
  ord : x.ord = o
  tensor : x.tensor = tensor
  tile : x.tile = tile
  cls : x.cls = c
  stage : x.stage = .fetching
  pads : x.pads = (p.granted.getD []).filter (·.1 < 8)

/-- The reads of a tile and of its tensor's vectors go to the memory path; of the sweep unit the pass alone changes. -/
theorem issueTile_pass (s : State) (im : Image) (p : Pass) (o : Nat) (c : TileClass) (miss tensor tile : Nat) :
    ∃ x cols, TileSt.FetchedAs x p o tensor tile c ∧
      (issueTile s im p o c miss tensor tile).sweep.pass = s.sweep.pass.map (Pass.issued o x cols) := by
  unfold issueTile
  extract_lets r pads vectors first qpads cols t reqs issued counted
  refine ⟨{ t with missing := reqs.length }, qpads, ⟨rfl, rfl, rfl, rfl, rfl, rfl⟩, ?_⟩
  have hcounted : counted.sweep.pass = s.sweep.pass.map (Pass.issued o { t with missing := reqs.length } qpads) := rfl
  rw [enqueueAll_sweep]
  split
  · rw [enqueueAll_sweep, hcounted]
  · exact hcounted

theorem fetchIssues : Rules.FetchIssues := by
  intro s im p w o miss tensor tile c himage hp hwants hgranted hnext hat hindex hramp hroom
  have hroom' : (!((passRec p.kind (recOf s tensor)).sparse && windowFull s)) = true := by
    rw [Bool.and_eq_false_iff.2 hroom, Bool.not_false]
  have hissues : fetchIssue s = issueTile s im p o c miss tensor tile := by
    simp only [fetchIssue, himage, curPass, hp, hwants, Nat.not_lt.2 hgranted, hnext, hat, hindex, hramp, hroom',
      Bool.and_self, if_true, if_false]
  obtain ⟨x, cols, ⟨hord, htensor, htile, hcls, hstage, hpads⟩, hpass⟩ := issueTile_pass s im p o c miss tensor tile
  rw [hp, ← hissues] at hpass
  exact ⟨_, _, rfl, hpass, only_fetchIssue (by decide) (only_refl _ s),
    ⟨x, mem_insertTile x p.inflight, hord, htensor, htile, hcls, hstage, hpads⟩, rfl, rfl, rfl, rfl, rfl⟩

/-! ### The chain's input (R88, R102, R126, R153, R169, R186, R210) -/

theorem nextTile_mem {p : Pass} {x : TileSt} (h : nextTile p = some x) : x ∈ p.inflight := by
  obtain ⟨-, hfind⟩ := Option.ite_none_left_eq_some.1 h
  exact List.mem_of_find?_eq_some (Option.filter_eq_some_iff.1 hfind).1

section
variable (s : State)

@[simp] theorem chooseVariant_sweep (g : Nat) : (chooseVariant g s).sweep = s.sweep :=
  (only_chooseVariant g (List.Subset.refl _) (only_refl _ s)).part .sweep (by decide)

/-- A tensor's first tile clears its accumulators or its norm record, and leaves the pass (R94, R210). -/
@[simp] theorem clearTensor_pass (p : Pass) (x : TileSt) : (clearTensor p x s).sweep.pass = s.sweep.pass := by
  unfold clearTensor
  split
  · rfl
  · split
    · rfl
    · split <;> rfl

variable (im : Image) (p : Pass) (x : TileSt)

/-- The bank that a tile's beats read holds the constants of its tensor: it did before, or takes them (R102). -/
theorem loadBank_tensor : (bankOf (loadBank im p x s) x.cset).tensor = some x.tensor := by
  unfold loadBank
  split
  case isTrue hheld => exact eq_of_beq hheld
  case isFalse => cases x.cset <;> rfl

theorem bankOf_of_fab {s t : State} (h : t.fab = s.fab) (cset : Bool) : bankOf t cset = bankOf s cset := by
  simp only [bankOf, h]

/-- What follows the load of the bank is not the fabric's. -/
theorem only_afterLoadBank : OnlyChanges [.health, .sweep, .tongue]
    (loadBank im p x (chooseVariant (tileGraph im p (passRec p.kind (recOf s x.tensor)) x.cls) s))
    (enterTile im p x s) :=
  only_clearTensor _ _ (by decide) (only_reportStamps _ _ _ (by decide) (only_setTile _ _ (by decide)
    (only_setPass _ (by decide) (only_refl _ _))))

theorem enterTile_bank : (bankOf (enterTile im p x s) x.cset).tensor = some x.tensor := by
  rw [bankOf_of_fab ((only_afterLoadBank s im p x).part .fab (by decide)), loadBank_tensor]

/-- A pass that has its graph in the fabric: no switch to it is under way (R153). -/
def Pass.onGraph (g : Nat) (p : Pass) : Pass := { p with graph := g, switching := none }

/-- A tile in the chain with no beat of its own in yet, on a placement variant. -/
def TileSt.entered (variant : BitVec 8) (beats : Nat) (t : TileSt) : TileSt :=
  { t with stage := .chain, variant := variant, beats := beats, beatsIn := 0 }

theorem enterTile_pass : ∃ g v n, (enterTile im p x s).sweep.pass =
    s.sweep.pass.map fun q => (q.onGraph g).atTile x.ord (TileSt.entered v n) := by
  unfold enterTile
  extract_lets r g banked n moved variant entered
  have hbanked : banked.sweep = s.sweep :=
    (only_loadBank im p x (List.Subset.refl _) (only_refl _ _)).part .sweep (by decide) |>.trans
      (chooseVariant_sweep s g)
  have hstamps : (reportStamps entered im p x).sweep = entered.sweep :=
    (only_reportStamps im p x (List.Subset.refl _) (only_refl _ _)).part .sweep (by decide)
  refine ⟨g, variant, n, ?_⟩
  rw [clearTensor_pass, hstamps, setTile_pass, setPass_pass, hbanked, Option.map_map]
  rfl

end

section
variable {s : State} {im : Image} {p : Pass} {x : TileSt} (himage : activeImage s = some im)
  (hp : s.sweep.pass = some p) (hopen : passOpen s p = true) (hkind : p.kind ≠ .pass1Factored)
  (hnext : nextTile p = some x) (hbefore : beforeHalt p x.ord = true)
include himage hp hopen hkind hnext hbefore

theorem enterChain_passes (hpasses : x.cls.passes = true) :
    enterChain s = setTile x.ord (fun t => { t with stage := .past }) (clearTensor p x s) := by
  simp [enterChain, himage, curPass, hp, hopen, hkind, hnext, hbefore, hpasses]

variable (hworks : x.cls.passes = false) (hvectors : vectorsIn s im p x.tensor = true)
  (hconsts : constsReady s im p x = true) (hbank : bankReady s x = true)
include hworks hvectors hconsts hbank

/-- A tile with all that it waits for enters, unless the switch of graphs must end before it (R102, R126, R153). -/
theorem enterChain_works : enterChain s =
    if switchDue p (recOf s x.tensor) = true ∧ p.switching ≠ some 0 then
      if p.switching.isNone then beginSwitch s else s
    else enterTile im p x s := by
  simp [enterChain, himage, curPass, hp, hopen, hkind, hnext, hbefore, hworks, hvectors, hconsts, hbank]

end

theorem tileEntersChain : Rules.TileEntersChain := by
  intro s im p x himage hp hopen hkind hnext hbefore
  have hmem := nextTile_mem hnext
  have hstep : (enterChain s).step = s.step :=
    (only_enterChain (List.Subset.refl _) (only_refl _ s)).part .step (by decide)
  refine ⟨fun hpasses => ?_, fun hworks hvectors hconsts hbank => ?_⟩
  · have henters := enterChain_passes himage hp hopen hkind hnext hbefore hpasses
    have hpass : (enterChain s).sweep.pass = some (p.atTile x.ord fun t => { t with stage := .past }) := by
      rw [henters, setTile_pass, clearTensor_pass, hp, Option.map_some]
    exact ⟨_, _, rfl, hpass, ⟨_, Pass.mem_atTile hmem _, rfl, rfl⟩, rfl, rfl, rfl, hstep⟩
  · have henters := enterChain_works himage hp hopen hkind hnext hbefore hworks hvectors hconsts hbank
    refine ⟨fun hswitched => ?_, fun hdue hswitch => ?_⟩
    · rw [if_neg fun ⟨hdue, hleft⟩ => hswitched.elim (fun hnot => by simp [hdue] at hnot) hleft] at henters
      obtain ⟨g, v, n, hpass⟩ := enterTile_pass s im p x
      rw [← henters, hp, Option.map_some] at hpass
      have hloaded := enterTile_bank s im p x
      rw [← henters] at hloaded
      exact ⟨_, _, rfl, hpass, ⟨_, Pass.mem_atTile (p := p.onGraph g) hmem _, rfl, rfl, rfl⟩, hloaded, rfl, rfl, rfl,
        hstep⟩
    · rw [if_pos ⟨hdue, by simp [hswitch]⟩, if_pos (by simp [hswitch])] at henters
      exact congrArg Host.Outcome.next henters

/-- Settles O39: FETCH_ISSUE by what it makes of the pass, TILE_ENTER_CHAIN by its branches: a tile that passes, one
that enters with its bank, and the switch that must come first. -/
theorem tilesFetched : Obligations.TilesFetched := ⟨fetchIssues, tileEntersChain⟩

end Sys2Proof.Machine

/-! PROOF. FabricFaults (O42): what a residue fault, the drain's end and a mismatch leave of the pass and of the
fabric's own registers. -/
namespace Sys2Proof.Machine

/-! ### Ranks shed and tiles discarded (R97, R108, R111, R114) -/

theorem FaultLatch.take_valid (t : Nat) (bits : Word) (f : FaultLatch) : (f.take t bits).valid = true := by
  simp only [FaultLatch.take]
  split
  case isTrue hvalid => exact hvalid
  case isFalse => rfl

section
variable (s : State)

/-- A pass with DISCARD set on every tile that has a beat in the chain, which owes no cycle to the generator. -/
def Pass.discardInChain (p : Pass) : Pass :=
  { p with rngWait := 0, inflight := p.inflight.map fun t => if t.inChain then { t with discard := true } else t }

/-- The engine as a residue fault leaves it but for its reports and the cause: the fault is held, the rank shed, the
chain drains (R108, R111). -/
def faultDraining (rank : BitVec 5) (arg : Word) : State :=
  setFab (fun f => { f with draining := true, drainUntil := s.clk.fab + drainCycles })
    (shedRanks (shedMask rank) (discardChain (setFab (fun f => { f with fault := f.fault.take (now s) arg }) s)))

theorem faultDraining_pass (rank : BitVec 5) (arg : Word) :
    (faultDraining s rank arg).sweep.pass = s.sweep.pass.map Pass.discardInChain := rfl

theorem residueFault_eq (rank : BitVec 5) (lane : BitVec 7) (unit : BitVec 2) (x : TileSt) :
    ∃ arg shed, residueFault rank lane unit x s =
      croakSet 1 (report 0x0B01 arg (report 0x0201 shed (faultDraining s rank arg))) :=
  ⟨_, _, rfl⟩

/-- The reports and the cause that follow a fault leave the fabric and the pass. -/
theorem only_faultReports (arg shed : Word) :
    OnlyChanges [.health, .evt] s (croakSet 1 (report 0x0B01 arg (report 0x0201 shed s))) :=
  only_croakSet 1 (List.Subset.refl _) (only_report _ _ (by decide) (only_report _ _ (by decide) (only_refl _ s)))

/-- Cause 0 is set by a croak that names it (R512). -/
theorem croakSet_first : (croakSet 1 s).health.cause.getLsbD 0 = true := by
  rw [croakSet_cause, BitVec.getLsbD_or, Bool.or_eq_true]
  exact .inr (by decide)

/-! ### Tiles dropped (R101, R108, R109) -/

/-- A pass that has dropped a tile, to be fetched again with the mismatches that it counts. -/
def Pass.dropped (t : TileSt) (misses : Nat) (p : Pass) : Pass :=
  { p with
    granted := none
    inflight := p.inflight.filter (·.ord != t.ord), rowPrep := p.rowPrep.filter (·.1 != t.ord)
    refetch := insertRefetch (t.ord, t.cls, misses) p.refetch }

theorem mem_insertRefetch (x : Nat × TileClass × Nat) (ys : List (Nat × TileClass × Nat)) : x ∈ insertRefetch x ys := by
  induction ys with
  | nil => exact List.mem_singleton_self x
  | cons y ys ih =>
    unfold insertRefetch
    split
    · exact List.mem_cons_self
    · exact List.mem_cons_of_mem y ih

theorem Pass.mem_dropped {t y : TileSt} {misses : Nat} {p : Pass} :
    y ∈ (p.dropped t misses).inflight ↔ y ∈ p.inflight ∧ y.ord ≠ t.ord := by
  simp [Pass.dropped]

@[simp] theorem giveUpPads_sweep (hs : List (BitVec 16)) : (giveUpPads hs s).sweep = s.sweep :=
  (only_giveUpPads hs (List.Subset.refl _) (only_refl _ s)).part .sweep (by decide)

theorem dropTile_pass (t : TileSt) (misses : Nat) :
    (dropTile t misses s).sweep.pass = s.sweep.pass.map (Pass.dropped t misses) := by
  rw [dropTile, setPass_pass, countFab_sweep, giveUpPads_sweep]
  rfl

/-- Of the fabric's registers a dropped tile is counted, and nothing else. -/
theorem dropTile_fab (t : TileSt) (misses : Nat) : (dropTile t misses s).fab.draining = s.fab.draining ∧
    (dropTile t misses s).fab.rankShed = s.fab.rankShed := by
  have hfab (hs : List (BitVec 16)) : (giveUpPads hs s).fab = s.fab :=
    (only_giveUpPads hs (List.Subset.refl _) (only_refl _ s)).part .fab (by decide)
  simp only [dropTile, setPass, countFab_fab, hfab, and_self]

end

/-! ### The drain's end (R108, R109, R114) -/

/-- No tile in flight has DISCARD set. -/
def NoDiscard (s : State) : Prop := ∀ q, s.sweep.pass = some q → ∀ y ∈ q.inflight, y.discard = false

theorem noDiscard_of_pass {s t : State} (h : NoDiscard s) (hpass : t.sweep.pass = s.sweep.pass) : NoDiscard t :=
  fun q hq => h q (hpass.symm.trans hq)

theorem noDiscard_of_none {s : State} (h : s.sweep.pass = none) : NoDiscard s := fun q hq => by
  rw [h] at hq
  cases hq

/-- A change of the pass whose tiles all come from tiles with the same DISCARD sets none. -/
theorem noDiscard_setPass {s : State} {f : Pass → Pass} (h : NoDiscard s)
    (hf : ∀ p, ∀ y ∈ (f p).inflight, ∃ x ∈ p.inflight, y.discard = x.discard) : NoDiscard (setPass f s) := by
  intro q hq y hy
  rw [setPass_pass] at hq
  obtain ⟨p, hp, rfl⟩ := Option.map_eq_some_iff.1 hq
  obtain ⟨x, hx, hsame⟩ := hf p y hy
  rw [hsame, h p hp x hx]

/-- Tiles dropped one after the other, each with the mismatches that it counts. -/
def dropEach (gone : List TileSt) (s : State) : State := gone.foldl (fun s t => dropTile t t.mismatches s) s

theorem dropDiscarded_eq (s : State) :
    dropDiscarded s = dropEach (((curPass s).map fun p => p.inflight.filter (·.discard)).getD []) s := rfl

/-- What stays in flight was there, and has none of the dropped ordinals. -/
theorem dropEach_pass (gone : List TileSt) (s : State) (q : Pass) (hq : (dropEach gone s).sweep.pass = some q) :
    ∃ p, s.sweep.pass = some p ∧ ∀ y ∈ q.inflight, y ∈ p.inflight ∧ ∀ t ∈ gone, y.ord ≠ t.ord := by
  induction gone generalizing s with
  | nil => exact ⟨q, hq, fun y hy => ⟨hy, fun t ht => absurd ht List.not_mem_nil⟩⟩
  | cons t gone ih =>
    obtain ⟨u, hu, hleft⟩ := ih _ hq
    rw [dropTile_pass] at hu
    obtain ⟨p, hp, rfl⟩ := Option.map_eq_some_iff.1 hu
    refine ⟨p, hp, fun y hy => ?_⟩
    obtain ⟨hdropped, hothers⟩ := hleft y hy
    obtain ⟨hmem, hord⟩ := Pass.mem_dropped.1 hdropped
    exact ⟨hmem, List.forall_mem_cons.2 ⟨hord, hothers⟩⟩

theorem dropEach_fab (gone : List TileSt) (s : State) : (dropEach gone s).fab.draining = s.fab.draining ∧
    (dropEach gone s).fab.rankShed = s.fab.rankShed := by
  induction gone generalizing s with
  | nil => exact ⟨rfl, rfl⟩
  | cons t gone ih =>
    obtain ⟨hdraining, hshed⟩ := ih (dropTile t t.mismatches s)
    obtain ⟨hdraining', hshed'⟩ := dropTile_fab s t t.mismatches
    exact ⟨hdraining.trans hdraining', hshed.trans hshed'⟩

theorem noDiscard_dropDiscarded (s : State) : NoDiscard (dropDiscarded s) := by
  intro q hq y hy
  rw [dropDiscarded_eq] at hq
  obtain ⟨p, hp, hleft⟩ := dropEach_pass _ s q hq
  obtain ⟨hmem, hother⟩ := hleft y hy
  refine Bool.eq_false_iff.2 fun hdiscard => hother y ?_ rfl
  simpa [curPass, hp] using ⟨hmem, hdiscard⟩

/-- The drain that ended with the ranks of s shed: none is under way, and no tile has DISCARD set. -/
structure Drained (s t : State) : Prop where
  draining : t.fab.draining = false
  rankShed : t.fab.rankShed = s.fab.rankShed
  kept : NoDiscard t

section
variable {s t : State} (h : Drained s t)
include h

theorem Drained.setPass {f : Pass → Pass}
    (hf : ∀ p, ∀ y ∈ (f p).inflight, ∃ x ∈ p.inflight, y.discard = x.discard) : Drained s (setPass f t) :=
  ⟨h.draining, h.rankShed, noDiscard_setPass h.kept hf⟩

/-- A placement variant loaded changes the variant and its width alone. -/
theorem Drained.chooseVariant (g : Nat) : Drained s (chooseVariant g t) := by
  unfold Machine.chooseVariant
  split
  · exact ⟨h.draining, h.rankShed, h.kept⟩
  · exact h

theorem Drained.raiseHalt (d : HaltDue) : Drained s (raiseHalt d t) :=
  h.setPass fun _ y hy => ⟨y, hy, rfl⟩

end

/-- The drain that ends drops the tiles with DISCARD set (R109). -/
theorem drained_dropDiscarded (s : State) :
    Drained s (dropDiscarded (setFab (fun f => { f with draining := false }) s)) := by
  refine ⟨?_, ?_, noDiscard_dropDiscarded _⟩ <;> rw [dropDiscarded_eq]
  · exact (dropEach_fab _ _).1
  · exact (dropEach_fab _ _).2

/-- A pass whose tiles with no beat in the chain yet enter it anew (R108). -/
def Pass.enterAnew (p : Pass) : Pass :=
  { p with inflight := p.inflight.map fun t =>
      if t.stage == .chain && t.beatsIn == 0 then { t with stage := .fetching, beats := 0 } else t }

theorem Pass.enterAnew_discard (p : Pass) :
    ∀ y ∈ p.enterAnew.inflight, ∃ x ∈ p.inflight, y.discard = x.discard := fun y hy => by
  obtain ⟨x, hx, rfl⟩ := List.mem_map.1 hy
  exact ⟨x, hx, by split <;> rfl⟩

/-- The pass goes on with its tiles, or is due to halt (R108, R114). -/
theorem drained_drainEnd (s : State) : Drained s (drainEnd s) := by
  have hdropped := drained_dropDiscarded s
  have hentered := hdropped.setPass Pass.enterAnew_discard
  simp only [drainEnd]
  split
  · split
    · split
      · exact hentered
      · exact hentered.chooseVariant _
    · split
      · exact hdropped
      · exact hdropped.raiseHalt _
  · exact hdropped.chooseVariant 0

theorem endPass_pass (s : State) : (endPass s).sweep.pass = none := by
  cases hp : s.sweep.pass with
  | none => simp [endPass, curPass, hp]
  | some p => rw [endPass_sweep hp]

theorem haltEma_pass (s : State) : (haltEma s).sweep.pass = none := by
  rw [haltEma, pulse_sweep, endPass_pass]

/-- A fabric-only reset that waited for the drain clears the banks, and may stop an EMA pass (R478, R479). -/
theorem Drained.fabricResetBegin {s t : State} (h : Drained s t) : Drained s (fabricResetBegin t) := by
  have hhalted : Drained s (if t.aux.running then haltEma t else t) := by
    split
    · have hfab : (haltEma t).fab = t.fab := (only_haltEma (List.Subset.refl _) (only_refl _ t)).part .fab (by decide)
      exact ⟨hfab ▸ h.draining, hfab ▸ h.rankShed, noDiscard_of_none (haltEma_pass t)⟩
    · exact h
  have hmask (u : State) : OnlyChanges [.evt, .rng] u (maskStop false u) :=
    only_maskStop false (List.Subset.refl _) (only_refl _ u)
  have hsweep (u : State) : (maskStop false u).sweep = u.sweep := (hmask u).part .sweep (by decide)
  have hfab (u : State) : (maskStop false u).fab = u.fab := (hmask u).part .fab (by decide)
  simp only [Machine.fabricResetBegin, setFab]
  refine ⟨?_, ?_, noDiscard_of_pass hhalted.kept (congrArg SweepUnit.pass (hsweep _))⟩
  · rw [hfab]
    exact hhalted.draining
  · rw [hfab]
    exact hhalted.rankShed

theorem drained_drainDone (s : State) : Drained s (drainDone s) := by
  have hended := drained_drainEnd s
  simp only [drainDone]
  split
  · exact hended.fabricResetBegin
  · exact hended

theorem residueFaults : Rules.ResidueFaults := by
  intro s rank lane unit ord hwork
  refine ⟨fun x hx => ?_, fun hdraining htime => ?_⟩
  · have hexec : exec (.residueFault rank lane unit ord) s = .next (residueFault rank lane unit x s) := by
      simp [exec, execResidueFault, hx, hwork]
    obtain ⟨arg, shed, hfault⟩ := residueFault_eq s rank lane unit x
    have hframe := only_faultReports (faultDraining s rank arg) arg shed
    have hfab : (residueFault rank lane unit x s).fab = (faultDraining s rank arg).fab := by
      rw [hfault]
      exact hframe.part .fab (by decide)
    have hsweep : (residueFault rank lane unit x s).sweep = (faultDraining s rank arg).sweep := by
      rw [hfault]
      exact hframe.part .sweep (by decide)
    refine ⟨_, hexec, ?_⟩
    rw [hfab, hsweep, faultDraining_pass, hfault]
    exact ⟨rfl, rfl, FaultLatch.take_valid _ _ _, rfl, rfl,
      fun p hp => ⟨p.discardInChain, by rw [hp, Option.map_some], rfl, rfl⟩, croakSet_first _⟩
  · have hexec : exec .shedDrainDone s = .next (drainDone s) := by
      simp [exec, execShedDrainDone, hwork, hdraining, htime]
    obtain ⟨hover, hshed, hkept⟩ := drained_drainDone s
    exact ⟨_, hexec, hover, hshed, (only_drainDone (List.Subset.refl _) (only_refl _ s)).part .step (by decide), hkept⟩

/-! ### Mismatches (R101, R109, R110, R380) -/

theorem codecTile_mem {s : State} {ord : Nat} {p : Pass} {x : TileSt} (hp : s.sweep.pass = some p)
    (h : codecTile s ord = some x) : x ∈ p.inflight := by
  rw [codecTile, curPass, hp] at h
  exact List.mem_of_find?_eq_some h

/-- What a mismatch of a tile makes of the pass: DISCARD for a tile with beats in the chain, another dropped at once,
and a halt the second time (R110). -/
structure Mismatched (x : TileSt) (p q : Pass) : Prop where
  discards : x.mismatches = 0 → x.inChain = true → ∃ y ∈ q.inflight, y.ord = x.ord ∧ y.discard = true ∧ y.mismatches = 1
  drops : x.mismatches = 0 → x.inChain = false → (∀ y ∈ q.inflight, y.ord ≠ x.ord) ∧ (x.ord, x.cls, 1) ∈ q.refetch ∧
    q.granted = none
  halts : x.mismatches ≠ 0 → q.inflight = p.inflight ∧ (p.halt = none → q.halt = some
    { fault := .codec, pos := posWord (some (x.tensor, x.tile)), ord := x.ord })

theorem codecMismatch_pass {s : State} {p : Pass} {x : TileSt} (hp : s.sweep.pass = some p) (hx : x ∈ p.inflight) :
    ∃ q, (codecMismatch x s).sweep.pass = some q ∧ Mismatched x p q := by
  unfold codecMismatch
  split
  case isTrue hsecond =>
    obtain ⟨d, hpass, hdue⟩ := raiseHalt_pass hp
      { fault := .codec, pos := posWord (some (x.tensor, x.tile)), ord := x.ord }
    exact ⟨_, hpass, fun hfirst => absurd hfirst hsecond, fun hfirst => absurd hfirst hsecond, fun _ => ⟨rfl, hdue⟩⟩
  case isFalse hfirst =>
    split
    case isTrue hin =>
      refine ⟨p.atTile x.ord fun t => { t with discard := true, mismatches := 1 }, ?_, fun _ _ => ?_,
        fun _ hout => ?_, fun hsecond => absurd hsecond hfirst⟩
      · rw [setTile_pass, hp, Option.map_some]
      · exact ⟨_, Pass.mem_atTile hx _, rfl, rfl, rfl⟩
      · rw [hin] at hout
        cases hout
    case isFalse hout =>
      refine ⟨p.dropped x 1, ?_, fun _ hin => absurd hin hout, fun _ _ => ?_, fun hsecond => absurd hsecond hfirst⟩
      · simp only [curPass, hp, dropTile_pass]
        exact congrArg (Option.map _) hp
      · exact ⟨fun y hy => (Pass.mem_dropped.1 hy).2, mem_insertRefetch _ _, rfl⟩

theorem exec_codecMismatch {s : State} {ord : BitVec 32} {x : TileSt} (hwork : working s = true)
    (hx : codecTile s ord.toNat = some x) : exec (.codecMismatch ord) s = .next (codecMismatch x s) := by
  simp [exec, execCodecMismatch, hwork, hx]

theorem exec_genMismatch {s : State} {ord : BitVec 32} {x : TileSt} (hwork : working s = true)
    (hx : codecTile s ord.toNat = some x) : exec (.genMismatch false ord) s = .next (codecMismatch x (genFault s)) := by
  simp [exec, execGenMismatch, hwork, hx]

/-- GEN_FAULT is set before the tile is treated as on a codec's mismatch, which leaves the generator (R380). -/
theorem codecMismatch_genFault (x : TileSt) (s : State) : (codecMismatch x (genFault s)).rng.genFault = true := by
  rw [show (codecMismatch x (genFault s)).rng = (genFault s).rng from
    (only_codecMismatch x (List.Subset.refl _) (only_refl _ _)).part .rng (by decide)]
  rfl

theorem mismatches : Rules.Mismatches := by
  intro s ord hwork
  refine ⟨fun p x hp hx c hc => ?_, fun f hrun hfirst => ?_⟩
  · have hmem := codecTile_mem hp hx
    rcases List.mem_pair.1 hc with rfl | rfl
    · obtain ⟨q, hpass, hdiscards, hdrops, hhalts⟩ := codecMismatch_pass hp hmem
      exact ⟨_, q, exec_codecMismatch hwork hx, hpass, hdiscards, hdrops, hhalts, nofun⟩
    · obtain ⟨q, hpass, hdiscards, hdrops, hhalts⟩ := codecMismatch_pass (s := genFault s) hp hmem
      exact ⟨_, q, exec_genMismatch hwork hx, hpass, hdiscards, hdrops, hhalts, fun _ => codecMismatch_genFault x s⟩
  · simp [exec, execGenMismatch, hwork, hrun, maskMismatch, genFault, countRng, hfirst]

/-- Settles O42: a residue fault by the state that its reports follow, the drain's end by what every operation of it
keeps of DISCARD and of the shed ranks, a mismatch by its three cases. -/
theorem fabricFaults : Obligations.FabricFaults := ⟨residueFaults, mismatches⟩

end Sys2Proof.Machine

/-! PROOF. ShedsAndEma (O45): what a write of FAB_SHED, FAB_CTL and AUX_CTL does in each of its cases, and the end of an
EMA pass. -/
namespace Sys2Proof.Machine

/-! ### The fabric's registers (R105, R115, R518) -/

section
variable {s : State} {w : Word}

theorem exec_fabShedWrite (ha : Applies s) (w : Word) :
    exec (.fabShedWrite w) s = .next (respond 0x04 (writeFabShed w s)) :=
  congrArg Host.Outcome.next (ctlWrite_applies ha _ _ _)

theorem exec_fabCntClear (ha : Applies s) (w : Word) :
    exec (.fabCntClear w) s = .next (respond 0x04 (writeFabCtl w s)) :=
  congrArg Host.Outcome.next (ctlWrite_applies ha _ _ _)

theorem writeFabShed_running (hbits : (field w 0 26 : BitVec 26) ≠ 0) (hrun : fabRunning s = true) :
    writeFabShed w s = report 0x0202 (put 0 (field w 0 26 : BitVec 26)) s := by
  simp only [writeFabShed, hbits, hrun, if_true, if_false]

/-- Ranks not shed before are shed, the variant for the live ones is loaded, and croak tells (R115, R512). -/
theorem writeFabShed_idle (hrun : fabRunning s = false)
    (hnew : (field w 0 26 : BitVec 26) &&& ~~~(s.fab.sfuShed ++ s.fab.rankShed) ≠ 0) :
    ∃ arg, writeFabShed w s = croakSet 1 (report 0x0201 arg (chooseVariant 0 (shedRanks (field w 0 26) s))) := by
  have hbits : (field w 0 26 : BitVec 26) ≠ 0 := fun hzero => hnew (by rw [hzero]; exact BitVec.zero_and)
  simp only [writeFabShed, hbits, hrun, hnew, if_false, Bool.false_eq_true]
  exact ⟨_, rfl⟩

end

/-- A placement variant that is loaded leaves the ranks shed. -/
theorem chooseVariant_shed (g : Nat) (s : State) : (chooseVariant g s).fab.rankShed = s.fab.rankShed ∧
    (chooseVariant g s).fab.sfuShed = s.fab.sfuShed := by
  unfold chooseVariant
  split <;> exact ⟨rfl, rfl⟩

theorem shedWrites : Rules.ShedWrites := by
  intro s w ha
  refine ⟨fun hbits hrun => ?_, fun hrun hnew => ?_, fun hbit => ?_⟩
  · rw [exec_fabShedWrite ha, writeFabShed_running hbits hrun]
  · obtain ⟨arg, hshed⟩ := writeFabShed_idle hrun hnew
    have hfab (u : State) : (croakSet 1 (report 0x0201 arg u)).fab = u.fab :=
      (only_croakSet 1 (List.Subset.refl _) (only_report _ _ (by decide) (only_refl _ u))).part .fab (by decide)
    obtain ⟨hrank, hsfu⟩ := chooseVariant_shed 0 (shedRanks (field w 0 26) s)
    refine ⟨_, exec_fabShedWrite ha w, ?_, ?_, ?_⟩
    · rw [respond_fab, hshed, hfab, hrank]
      rfl
    · rw [respond_fab, hshed, hfab, hsfu]
      rfl
    · rw [respond_health, hshed]
      exact croakSet_first _
  · rw [exec_fabCntClear ha, writeFabCtl, hbit]
    rfl

/-! ### EMA passes (R143, R144, R145, R146, R147) -/

section
variable {s : State} {im : Image} {w : Word}

theorem exec_emaStart (ha : Applies s) (w : Word) : exec (.emaStart w) s = .next (respond 0x04 (writeAuxCtl w s)) :=
  congrArg Host.Outcome.next (ctlWrite_applies ha _ _ _)

theorem exec_emaReseed (ha : Applies s) (w : Word) : exec (.emaReseed w) s = .next (respond 0x04 (writeAuxCtl w s)) :=
  congrArg Host.Outcome.next (ctlWrite_applies ha _ _ _)

/-- AUX_STATUS and the pass of an accepted start, an EMA pass or a reseed, under the constants in effect (R143,
R144). -/
def emaBegun (im : Image) (reseed : Bool) (s : State) : State :=
  beginPass (if reseed then .reseed else .ema) false im s.stepk.set 0x3F800000#32 0 0
    { s with aux := { s.aux with err := 0, running := true, reseeding := reseed } }

/-- A write that asks for one of the two kinds alone begins its pass, or shows the first refusal of R146's table. -/
theorem writeAuxCtl_asks {reseed : Bool} (himage : activeImage s = some im) (hstart : w.getLsbD 0 = !reseed)
    (hreseed : w.getLsbD 1 = reseed) : writeAuxCtl w s =
      if emaErr s reseed false = 0 then emaBegun im reseed s
      else { s with aux := { s.aux with err := emaErr s reseed false } } := by
  have himage' (a : Aux) : activeImage { s with aux := a } = some im := himage
  simp only [writeAuxCtl, hstart, hreseed, himage', Bool.not_not, Bool.and_not_self, Bool.not_and_self,
    Bool.false_eq_true, if_false, ne_eq, ite_not]
  split
  case isTrue herr => simp only [emaBegun, herr]
  case isFalse => rfl

theorem emaBegun_begins (reseed : Bool) : ∃ q, (emaBegun im reseed s).sweep.pass = some q ∧
    q.kind = (if reseed then .reseed else .ema) ∧ q.consts = s.stepk.set ∧
    (emaBegun im reseed s).aux = { s.aux with err := 0, running := true, reseeding := reseed } ∧
    (emaBegun im reseed s).step = s.step := by
  have hframe : OnlyChanges [.sweep, .fab]
      { s with aux := { s.aux with err := 0, running := true, reseeding := reseed } } (emaBegun im reseed s) :=
    only_beginPass _ _ _ _ _ _ _ (List.Subset.refl _) (only_refl _ _)
  obtain ⟨q, hsweep, hstarts⟩ := beginPass_sweep (if reseed then .reseed else .ema) false im s.stepk.set 0x3F800000#32 0
    { s with aux := { s.aux with err := 0, running := true, reseeding := reseed } }
  exact ⟨q, congrArg SweepUnit.pass hsweep, hstarts.kind, hstarts.consts, hframe.part .aux (by decide),
    hframe.part .step (by decide)⟩

end

theorem emaPasses : Rules.EmaPasses := by
  intro s w im himage
  refine ⟨fun ha hstart hreseed => ?_, fun ha hstart hreseed => ?_, fun p hwork hp hkind hhalt hmark => ?_⟩
  · have hwrite := writeAuxCtl_asks (reseed := false) himage hstart hreseed
    refine ⟨fun herr => ?_, fun herr => ?_⟩
    · rw [if_pos herr] at hwrite
      obtain ⟨q, hpass, hema, hconsts, haux, hstep⟩ := emaBegun_begins (s := s) (im := im) false
      refine ⟨_, q, exec_emaStart ha w, ?_⟩
      rw [hwrite, respond_aux, respond_sweep, respond_step, haux]
      exact ⟨rfl, rfl, hpass, hema, hconsts, hstep⟩
    · rw [exec_emaStart ha, hwrite, if_neg herr]
  · have hwrite := writeAuxCtl_asks (reseed := true) himage hstart hreseed
    refine ⟨fun herr => ?_, fun herr => ?_⟩
    · rw [if_pos herr] at hwrite
      obtain ⟨q, hpass, hema, hconsts, haux, hstep⟩ := emaBegun_begins (s := s) (im := im) true
      refine ⟨_, q, exec_emaReseed ha w, ?_⟩
      rw [hwrite, respond_aux, respond_sweep, respond_step, haux]
      exact ⟨rfl, rfl, rfl, hpass, hema, hstep⟩
    · rw [exec_emaReseed ha, hwrite, if_neg herr]
  · have hends := only_endPass (List.Subset.refl _) (only_refl _ s)
    have hstep : (endPass s).step = s.step := hends.part .step (by decide)
    have haux : (endPass s).aux = s.aux := hends.part .aux (by decide)
    have hdone : emaDone s = pulse 8 { endPass s with aux := { (endPass s).aux with
        running := false, reseeding := false, valid := true, emaStep := (endPass s).step.step
        gateWait := false } } := by
      simp [emaDone, curPass, hp, hwork, hkind, hhalt, hmark]
    refine ⟨_, rfl, ?_⟩
    rw [hdone, pulse_sweep, pulse_step, pulse_aux, haux, hstep]
    exact ⟨endPass_pass s, rfl, rfl⟩

/-- Settles O45: the writes by an equation for each of their cases, a started pass by the one that begins, its end by
what giving up the pass leaves. -/
theorem shedsAndEma : Obligations.ShedsAndEma := ⟨shedWrites, emaPasses⟩

end Sys2Proof.Machine

/-! PROOF. CommitsAndBoundaries (O43): what an accepted commit leaves pending, and what a boundary puts into effect. -/
namespace Sys2Proof.Machine

section
variable {s : State} {w : Word}

/-! ### Accepted commits (R119, R121, R161, R162, R312) -/

theorem exec_stepkCommit (ha : Applies s) (w : Word) :
    exec (.stepkCommit w) s = .next (respond 0x04 (writeStepkCommit w s)) :=
  congrArg Host.Outcome.next (ctlWrite_applies ha _ _ _)

theorem exec_swpCommit (ha : Applies s) (w : Word) :
    exec (.swpCommit w) s = .next (respond 0x04 (writeSwpCommit w s)) :=
  congrArg Host.Outcome.next (ctlWrite_applies ha _ _ _)

theorem exec_mpCommit (ha : Applies s) (w : Word) :
    exec (.mpCommit w) s = .next (respond 0x04 (writeMpCommit w s)) :=
  congrArg Host.Outcome.next (ctlWrite_applies ha _ _ _)

theorem writeStepkCommit_accepted {im : Image} (hcommit : w.getLsbD 0 = true) (himage : activeImage s = some im)
    (hfree : s.stepk.pending = none) (hcheck : stepkCheck im (stepkSlots s.stepk.stage) = (0, 0)) :
    writeStepkCommit w s = { s with stepk := { s.stepk with
      err := 0, errSlot := 0, pending := some { words := s.stepk.stage, forStep := field w 32 32
                                                boundary := nextBoundary (now s) 64 } } } := by
  simp [writeStepkCommit, setStepk, hcommit, himage, hfree, hcheck]

theorem writeSwpCommit_accepted (hcommit : w.getLsbD 0 = true) (hfree : s.swp.pending = none)
    (hidle : s.step.phase = .idle) (hcheck : swpCheck s s.swp.stage = (0, 0)) :
    writeSwpCommit w s = { s with swp := { s.swp with
      err := 0, errBase := 0, pending := some (s.swp.stage, nextBoundary (now s) 64) } } := by
  simp [writeSwpCommit, setSwp, hcommit, hfree, hidle, hcheck]

theorem writeMpCommit_accepted (hcommit : w.getLsbD 0 = true) (hcheck : mpErr s = (0, 0)) :
    writeMpCommit w s = { s with mem := { s.mem with
      err := 0, errPart := 0, pending := some (s.mem.stage, nextBoundary (portNow s) 1024) } } := by
  simp [writeMpCommit, setMem, hcommit, hcheck]

/-! ### The boundaries of pending copies (R121, R162, R530) -/

theorem exec_stagedSetApply (hready : ready s = true) (blk : StagedBlock) :
    exec (.stagedSetApply blk) s = .next (applyStaged blk s) :=
  congrArg Host.Outcome.next (if_pos hready)

theorem applyStepk_due {im : Image} {c : StepkCopy} (himage : activeImage s = some im)
    (hpending : s.stepk.pending = some c) (hdue : c.boundary ≤ now s)
    (hcheck : stepkCheck im (stepkSlots c.words) = (0, 0)) :
    applyStepk s = { s with stepk := { s.stepk with
      pending := none, set := stepkSlots c.words, setStep := c.forStep, valid := true, captured := false } } := by
  simp [applyStepk, setStepk, himage, hpending, hdue.not_gt, hcheck]

/-- New bases in effect are followed by a build of the granule map (R198). -/
theorem applySwp_due {bs : List (BitVec 34)} {b : Nat} (hpending : s.swp.pending = some (bs, b)) (hdue : b ≤ now s)
    (hcheck : swpCheck s bs = (0, 0)) :
    applySwp s = mapStart { s with swp := { s.swp with pending := none, set := bs, valid := true } } := by
  simp [applySwp, setSwp, hpending, hdue.not_gt, hcheck]

end

/-- Settles O43: each write and each boundary by the one path on which its checks pass. -/
theorem commitsAndBoundaries : Obligations.CommitsAndBoundaries := by
  intro s w
  refine ⟨fun ha hcommit => ⟨fun im himage hfree hcheck => ?_, fun hfree hidle hcheck => ?_, fun hcheck => ?_⟩,
    fun im c hready himage hpending hdue hcheck => ?_, fun bs b hready hpending hdue hcheck => ?_⟩
  · rw [exec_stepkCommit ha, writeStepkCommit_accepted hcommit himage hfree hcheck]
  · rw [exec_swpCommit ha, writeSwpCommit_accepted hcommit hfree hidle hcheck]
  · rw [exec_mpCommit ha, writeMpCommit_accepted hcommit hcheck]
  · rw [exec_stagedSetApply hready, applyStaged, applyStepk_due himage hpending hdue hcheck]
  · have happly := applySwp_due hpending hdue hcheck
    refine ⟨applySwp s, exec_stagedSetApply hready .swp, ?_, only_applySwp (List.Subset.refl _) (only_refl _ s)⟩
    rw [happly]
    rfl

end Sys2Proof.Machine

/-! PROOF. ReadReturns (O10): an equation of the command for a return that is discarded and for one that is delivered,
and what a delivered confirm read does to its line. -/
namespace Sys2Proof.Machine

/-! ### A return at a memory channel port (R296, R298) -/

section
variable {s : State} {ch : BitVec 5} {tag : BitVec 10} {f : Flight}

theorem exec_memoryReadReturn (hf : flightOf s ch tag false = some f) (data : Line) (par : BitVec 66) :
    exec (.memoryReadReturn ch tag data par) s = .next (memReadReturn f data par s) := by
  simp only [exec, execMemoryReadReturn, hf]

theorem exec_confirmReadReturn (hf : flightOf s ch tag false = some f) (data : Line) (par : BitVec 66) :
    exec (.confirmReadReturn ch tag data par) s = .next (memReadReturn f data par s) := by
  simp only [exec, execConfirmReadReturn, hf]

end

section
variable {f : Flight} {data : Line} {par : BitVec 66} (s : State) (hvoid : f.void = false)
include hvoid

/-- A return of bad parity delivers nothing; its read is asked again two port cycles on (R298). -/
theorem memReadReturn_badParity
    (hpar : parityOk (data ++ (f.tag.setWidth 16 : BitVec 16) : BitVec 528) par = false) (hfails : f.fails + 1 < 3) :
    memReadReturn f data par s = setMem (fun m => { m with
      flights := m.flights.map fun x => if x.chan == f.chan && x.tag == f.tag
        then { x with fails := x.fails + 1, replay := some (portNow s + 2) } else x }) s := by
  simp [memReadReturn, flightFailed, hvoid, hpar, hfails]

theorem memReadReturn_delivers
    (hpar : parityOk (data ++ (f.tag.setWidth 16 : BitVec 16) : BitVec 528) par = true)
    (hconfirm : f.req.confirm = false) :
    memReadReturn f data par s = deliverRead f.req (some data) (dropFlight f s) := by
  simp [memReadReturn, hvoid, hpar, hconfirm]

/-- A confirm read counts its 64 bytes as it is delivered (R196). -/
theorem memReadReturn_confirms
    (hpar : parityOk (data ++ (f.tag.setWidth 16 : BitVec 16) : BitVec 528) par = true)
    (hconfirm : f.req.confirm = true) (hearly : confirmEarly s f.req = false) :
    memReadReturn f data par s = deliverRead f.req (some data) (dropFlight f (countSweep 4 64 s)) := by
  have hearly' : confirmEarly (countSweep 4 64 s) f.req = false := hearly
  simp [memReadReturn, hvoid, hpar, hconfirm, hearly']

end

theorem memoryReadReturns : Rules.MemoryReadReturns := by
  intro s ch tag data par f hf hvoid
  refine ⟨fun port htag hwho hconfirm hpar => ?_, fun hpar hfails => ?_⟩
  · rw [exec_memoryReadReturn hf, memReadReturn_delivers s hvoid hpar hconfirm, deliverRead, hwho]
    rfl
  · rw [exec_memoryReadReturn hf, memReadReturn_badParity s hvoid hpar hfails]

/-! ### A confirm read of a group's line (R172, R176) -/

section
variable {s : State} {o i : Nat} {w : Bool} {tile : TileSt} {l : GroupLine} {data : Line}
  (hline : groupLineOf s o i w = some (tile, l)) (hopen : l.confirmed = false) (hlive : l.failed = false)
include hline hopen hlive

theorem confirmDone_matches (hok : confirmOk s o l data = true) :
    confirmDone o i w (some data) s = setLine o i (fun l => { l with confirmed := true }) s := by
  simp [confirmDone, hline, hopen, hlive, hok]

/-- The same line and mask are written again, with the engine's bytes as they stand (R176; log 33). -/
theorem confirmDone_rewrites (hok : confirmOk s o l data = false) (hfirst : l.misses = 0) :
    confirmDone o i w (some data) s =
      enqueue { who := .group o i w, cls := if l.tadpole then .tadpole else .sweep, write := true
                line := l.line, mask := l.mask, data := rewriteData s o l, tail := l.tail }
        (countSweep 0 1 (setLine o i (fun x => { x with misses := 1, data := rewriteData s o l }) s)) := by
  simp [confirmDone, hline, hopen, hlive, hok, hfirst]

theorem confirmDone_fails (hok : confirmOk s o l data = false) (hagain : l.misses ≠ 0) :
    confirmDone o i w (some data) s =
      raiseTear .confirm tile i w (setLine o i (fun l => { l with failed := true }) s) := by
  simp [confirmDone, hline, hopen, hlive, hok, hagain]

end

theorem confirmReadsCompare : Rules.ConfirmReadsCompare := by
  intro s ch tag data par f o i w tile l hf hvoid hwho hconfirm hearly hpar hline hopen hlive u old
  have hexec : exec (.confirmReadReturn ch tag data par) s = .next (confirmDone o i w (some data) u) := by
    rw [exec_confirmReadReturn hf, memReadReturn_confirms s hvoid hpar hconfirm hearly, deliverRead, hwho]
  have hline' : groupLineOf u o i w = some (tile, l) := hline
  have hok : confirmOk u o l data = confirmOk s o l data := rfl
  refine ⟨fun hmatch => ?_, fun hmiss hfirst => ?_, fun hmiss hagain => ?_⟩
  · rw [hexec, confirmDone_matches hline' hopen hlive (hok.trans hmatch)]
  · rw [hexec, confirmDone_rewrites hline' hopen hlive (hok.trans hmiss) hfirst]
    rfl
  · rw [hexec, confirmDone_fails hline' hopen hlive (hok.trans hmiss) hagain]

/-- Settles O10: a return by its parity and its requester, a confirm read by its comparison with the line as the tile's
group holds it. -/
theorem readReturns : Obligations.ReadReturns := ⟨memoryReadReturns, confirmReadsCompare⟩

end Sys2Proof.Machine

/-! PROOF. TablesAndMaps (O38): an accepted table load and the two ends of one, and the granule map by its three
outcomes. -/
namespace Sys2Proof.Machine

/-! ### A table is loaded (R166, R167) -/

section
variable {s : State}

theorem exec_ttabLoad (ha : Applies s) (w : Word) : exec (.ttabLoad w) s = .next (respond 0x04 (writeTtabCtl w s)) :=
  congrArg Host.Outcome.next (ctlWrite_applies ha _ _ _)

theorem writeTtabCtl_accepted {w : Word} (hload : w.getLsbD 0 = true) (hfree : s.ttab.loading = false)
    (hidle : s.step.phase = .idle) (hpos : (field w 32 15 : BitVec 15) ≠ 0)
    (hmax : (field w 32 15 : BitVec 15).toNat ≤ 16384) :
    writeTtabCtl w s = startTableLoad (setTtab (fun t => { t with count := field w 32 15 }) s) := by
  simp only [writeTtabCtl, setTtab, hload, hfree, hidle, hpos, hmax.not_gt, Bool.not_true, Bool.or_self,
    bne_self_eq_false, decide_false, Bool.false_eq_true, if_false]

/-- The load begins with no table and no granule map, and its reads go to the memory path alone (R166, R198). -/
theorem startTableLoad_begins (s : State) : ∃ t, OnlyChanges [.mem] t (startTableLoad s) ∧
    t.ttab = { s.ttab with
      loading := true, loaded := false, loadAddr := s.ttab.addr, loadCount := s.ttab.count.toNat, lines := []
      loadFailed := false, err := 0, errIndex := 0 } ∧
    t.tongue = { s.tongue with map := .none, claims := [] } ∧ t.step = s.step :=
  ⟨_, only_enqueueAll _ (List.Subset.refl _) (only_refl _ _), rfl, rfl, rfl⟩

/-- The records that a load has read, as its end checks them (R165). -/
def loadedRecords (s : State) : List TensorRec :=
  (List.range s.ttab.loadCount).map fun i => parseRecord (((s.ttab.lines.find? (·.1 == i)).map (·.2)).getD 0)

theorem exec_tableLoadDone (hwork : working s = true) (hloading : s.ttab.loading = true)
    (hlines : s.ttab.lines.length = s.ttab.loadCount) : exec .tableLoadDone s = .next (tableEnd s) := by
  simp [exec, execTableLoadDone, hwork, hloading, hlines]

/-- A table in effect is followed by a build of the granule map (R198). -/
theorem tableEnd_good (h : tableErr (activeImage s) none 0 (loadedRecords s) = none) :
    tableEnd s = mapStart (setTtab (fun t => { t with
      loading := false, loaded := true, recs := loadedRecords s, lines := [], err := 0, errIndex := 0 }) s) := by
  rw [loadedRecords] at h ⊢
  simp only [tableEnd, h]

theorem tableEnd_bad {e : BitVec 8} {i : Nat} (h : tableErr (activeImage s) none 0 (loadedRecords s) = some (e, i)) :
    tableEnd s = setTtab (fun t => { t with
      loading := false, loaded := false, recs := [], lines := [], err := e, errIndex := BitVec.ofNat 14 i }) s := by
  rw [loadedRecords] at h
  simp only [tableEnd, h]

end

theorem tableLoads : Rules.TableLoads := by
  intro s w
  refine ⟨fun ha hload hfree hidle hpos hmax => ?_, fun hwork hloading hlines rs hrs => ?_⟩
  · obtain ⟨t, hreads, httab, htongue, hstep⟩ :=
      startTableLoad_begins (setTtab (fun t => { t with count := field w 32 15 }) s)
    refine ⟨_, exec_ttabLoad ha w, ?_⟩
    rw [writeTtabCtl_accepted hload hfree hidle hpos hmax, respond_ttab, respond_tongue, respond_step,
      show (startTableLoad _).ttab = t.ttab from hreads.part .ttab (by decide),
      show (startTableLoad _).tongue = t.tongue from hreads.part .tongue (by decide),
      show (startTableLoad _).step = t.step from hreads.part .step (by decide), httab, htongue, hstep]
    exact ⟨rfl, rfl, rfl, rfl, rfl, rfl⟩
  · have hexec := exec_tableLoadDone hwork hloading hlines
    obtain rfl : rs = loadedRecords s := hrs
    refine ⟨fun hgood => ⟨_, hexec, ?_⟩, fun e i hbad => ?_⟩
    · have hframe : OnlyChanges [.ttab, .tongue] s (tableEnd s) := only_tableEnd (List.Subset.refl _) (only_refl _ s)
      rw [tableEnd_good hgood] at hframe ⊢
      exact ⟨rfl, rfl, rfl, rfl, hframe⟩
    · rw [hexec, tableEnd_bad hbad]
      rfl

/-! ### The granule map (R198) -/

section
variable {s : State}

/-- A claim past the last granule, whatever else the claims do (log 89). -/
theorem mapBuildEnd_gradRange (h : ∃ c ∈ claims s, 131072 < c.1 + c.2.1) :
    (mapBuildEnd s).tongue = { s.tongue with map := .gradRange, claims := [] } := by
  obtain ⟨c, hfind⟩ : ∃ c, (claims s).find? (fun c => 131072 < c.1 + c.2.1) = some c := by
    simpa [← Option.isSome_iff_exists] using h
  simp only [mapBuildEnd, hfind, report_tongue]

theorem find?_inRange (h : ∀ c ∈ claims s, c.1 + c.2.1 ≤ 131072) :
    (claims s).find? (fun c => 131072 < c.1 + c.2.1) = none := by
  simpa using h

theorem mapBuildEnd_conflict (hrange : ∀ c ∈ claims s, c.1 + c.2.1 ≤ 131072)
    (h : claimConflict [] (claims s) ≠ none) :
    (mapBuildEnd s).tongue = { s.tongue with map := .conflict, claims := [] } := by
  obtain ⟨⟨a, b⟩, hmeet⟩ := Option.ne_none_iff_exists'.mp h
  simp only [mapBuildEnd, find?_inRange hrange, hmeet, report_tongue]

theorem mapBuildEnd_valid (hrange : ∀ c ∈ claims s, c.1 + c.2.1 ≤ 131072)
    (h : claimConflict [] (claims s) = none) :
    (mapBuildEnd s).tongue = { s.tongue with map := .valid, claims := claims s } := by
  simp only [mapBuildEnd, find?_inRange hrange, h]

end

theorem mapBuild : Rules.MapBuild := by
  intro s hwork hbuilding
  have hexec : exec .mapBuildDone s = .next (mapBuildEnd s) := by
    simp [exec, execMapBuildDone, hwork, hbuilding]
  refine ⟨_, hexec, only_mapBuildEnd (by decide) (only_refl _ s), fun hpast => ?_,
    fun hrange => ⟨fun hmeet => ?_, mapBuildEnd_valid hrange⟩⟩
  · rw [mapBuildEnd_gradRange hpast]
    exact ⟨rfl, rfl⟩
  · rw [mapBuildEnd_conflict hrange hmeet]
    exact ⟨rfl, rfl⟩

/-- Settles O38: a load by what its write begins and what the check of its records makes of it, the granule map by
where its claims lie. -/
theorem tablesAndMaps : Obligations.TablesAndMaps := ⟨tableLoads, mapBuild⟩

end Sys2Proof.Machine

/-! PROOF. ResumeAndRecover (O44): what a pass that runs again leaves of STEP and FLASH, followed through both ways to
run it again, and a write of SWEEP_CTL by its checks. -/
namespace Sys2Proof.Machine

/-! ### A pass runs again (R183, R185) -/

/-- From s to t SWEEP_STATUS.ERR has become 0, and of the step unit only PHASE, now PASS1 or SWEEP, and RELEASED have
moved. -/
structure ToRunAgain (s t : State) : Prop where
  ctlErr : t.sweep.ctlErr = 0
  phase : t.step.phase = .pass1 ∨ t.step.phase = .sweep
  step : t.step = { s.step with phase := t.step.phase, released := t.step.released }

/-- And in t a pass runs. -/
structure RunsAgain (s t : State) : Prop extends ToRunAgain s t where
  pass : t.sweep.pass.isSome = true

section
variable {s t u : State}

/-- An operation that leaves the step unit alone, and of the sweep unit what is asked here. -/
theorem RunsAgain.keeps (h : RunsAgain s t) (hpass : u.sweep.pass.isSome = t.sweep.pass.isSome)
    (herr : u.sweep.ctlErr = t.sweep.ctlErr) (hstep : u.step = t.step) : RunsAgain s u where
  pass := hpass.trans h.pass
  ctlErr := herr.trans h.ctlErr
  phase := hstep ▸ h.phase
  step := hstep ▸ h.step

theorem RunsAgain.only (h : RunsAgain s t) {L : List Part} (hframe : OnlyChanges L t u)
    (hL : Part.sweep ∉ L ∧ Part.step ∉ L) : RunsAgain s u :=
  have hsweep : u.sweep = t.sweep := hframe.part .sweep hL.1
  h.keeps (by rw [hsweep]) (by rw [hsweep]) (hframe.part .step hL.2)

theorem RunsAgain.ite {c : Prop} [Decidable c] (ht : RunsAgain s t) (hu : RunsAgain s u) :
    RunsAgain s (if c then t else u) := by
  split
  · exact ht
  · exact hu

theorem RunsAgain.setPass (h : RunsAgain s t) (f : Pass → Pass) : RunsAgain s (setPass f t) :=
  h.keeps Option.isSome_map rfl rfl

theorem RunsAgain.setSweep {f : SweepUnit → SweepUnit} (h : RunsAgain s t)
    (hf : ∀ w, (f w).pass = w.pass ∧ (f w).ctlErr = w.ctlErr) : RunsAgain s (setSweep f t) :=
  h.keeps (congrArg Option.isSome (hf t.sweep).1) (hf t.sweep).2 rfl

theorem RunsAgain.ofStep (h : RunsAgain t u) (hstep : t.step = s.step) : RunsAgain s u :=
  { h with step := hstep ▸ h.step }

theorem RunsAgain.writeMarks (h : RunsAgain s t) : RunsAgain s (writeMarks t) :=
  have hsweep := writeMarks_sweep t
  h.keeps (by rw [hsweep]) (by rw [hsweep])
    ((only_writeMarks (List.Subset.refl _) (only_refl _ t)).part .step (by decide))

theorem RunsAgain.releaseOne (h : RunsAgain s t) : RunsAgain s (releaseOne t) := by
  have hcounted : RunsAgain s { t with step := { t.step with released := t.step.released + 1 } } :=
    { pass := h.pass, ctlErr := h.ctlErr, phase := h.phase, step := by rw [h.step] }
  exact hcounted.writeMarks.only (only_pulse 2 (List.Subset.refl _) (only_refl _ _)) (by decide)

theorem RunsAgain.releaseDue (h : RunsAgain s t) : RunsAgain s (releaseDue t) := by
  have hfold (ns : List Nat) (u : State) (hu : RunsAgain s u) :
      RunsAgain s (ns.foldl (fun s _ => Machine.releaseOne s) u) := by
    induction ns generalizing u with
    | nil => exact hu
    | cons n ns ih => exact ih _ hu.releaseOne
  unfold Machine.releaseDue
  split
  · exact h
  · exact hfold _ t h

theorem RunsAgain.lagStartAll (h : RunsAgain s t) : RunsAgain s (lagStartAll t) :=
  h.only (only_lagStartAll (List.Subset.refl _) (only_refl _ t)) (by decide)

theorem RunsAgain.deltasAgain (h : RunsAgain s t) (m : Marks) : RunsAgain s (deltasAgain m t) :=
  h.only (only_deltasAgain m (List.Subset.refl _) (only_refl _ t)) (by decide)

theorem RunsAgain.fetchBegins (h : RunsAgain s t) : RunsAgain s (fetchBegins t) := by
  have hramp : RunsAgain s (rampStart t) := h.setPass _
  unfold Machine.fetchBegins
  split
  · dsimp only
    split
    · exact hramp.only (only_readIndexes (List.Subset.refl _) (only_refl _ _)) (by decide)
    · exact hramp
  · exact h

end

/-- A pass that begins, at whatever tile, is there and leaves ERR and the step unit alone (R102). -/
theorem beginPass_keeps (k : PassKind) (recovery : Bool) (im : Image) (consts : List (BitVec 32)) (clip : F32)
    (lsK : BitVec 6) (first : Nat) (s : State) :
    (beginPass k recovery im consts clip lsK first s).sweep.pass.isSome = true ∧
    (beginPass k recovery im consts clip lsK first s).sweep.ctlErr = s.sweep.ctlErr ∧
    (beginPass k recovery im consts clip lsK first s).step = s.step := by
  have hfab : (if k == .pass1Factored then s else chooseVariant (firstGraph s k first) s).sweep = s.sweep := by
    split
    · rfl
    · exact chooseVariant_sweep s _
  refine ⟨rfl, ?_, (only_beginPass _ _ _ _ _ _ _ (List.Subset.refl _) (only_refl _ s)).part .step (by decide)⟩
  simp only [beginPass, Machine.setPass, setSweep, hfab]

section
variable {s t : State} (im : Image) (m : Marks)

theorem ToRunAgain.beginPass (h : ToRunAgain s t) (k : PassKind) (recovery : Bool) (consts : List (BitVec 32))
    (clip : F32) (lsK : BitVec 6) (first : Nat) : RunsAgain s (beginPass k recovery im consts clip lsK first t) := by
  obtain ⟨hpass, herr, hstep⟩ := beginPass_keeps k recovery im consts clip lsK first t
  exact { pass := hpass, ctlErr := herr.trans h.ctlErr, phase := hstep ▸ h.phase, step := hstep ▸ h.step }

theorem rerunPass1_runs (herr : s.sweep.ctlErr = 0) (k : PassKind) : RunsAgain s (rerunPass1 im m k s) := by
  unfold rerunPass1
  extract_lets steps phased journalled
  have hready : ToRunAgain s journalled := ⟨herr, .inl rfl, rfl⟩
  exact (hready.beginPass im k false _ _ _ 0).fetchBegins

theorem rerunSweep_runs (herr : s.sweep.ctlErr = 0) (recovery : Bool) (classes : List (Nat × TileClass)) :
    RunsAgain s (rerunSweep im m recovery classes s) := by
  unfold rerunSweep
  extract_lets steps phased journalled begun
  have hready : ToRunAgain s journalled := ⟨herr, .inr rfl, rfl⟩
  have hbegun : RunsAgain s begun := hready.beginPass im .sweep recovery _ _ _ m.word
  exact (hbegun.setPass _).fetchBegins

end

/-- An accepted RESUME (R183). -/
theorem resumeSweep_runs {s : State} (herr : s.sweep.ctlErr = 0) (skip : Bool) (im : Image) :
    RunsAgain s (resumeSweep skip im s) := by
  unfold resumeSweep
  extract_lets m left classes rerun resumed
  split
  · exact (rerunPass1_runs im m herr _).writeMarks
  · have hrerun : RunsAgain s rerun := rerunSweep_runs im m herr _ classes
    have hresumed : RunsAgain s resumed := hrerun.setSweep fun _ => ⟨rfl, rfl⟩
    exact hresumed.writeMarks.releaseDue.lagStartAll

theorem endPass_ctlErr (s : State) : (endPass s).sweep.ctlErr = s.sweep.ctlErr := by
  cases hp : s.sweep.pass with
  | none => simp [endPass, curPass, hp]
  | some p => rw [endPass_sweep hp]

theorem haltEma_ctlErr (s : State) : (haltEma s).sweep.ctlErr = s.sweep.ctlErr := by
  rw [haltEma, pulse_sweep, endPass_ctlErr]

/-- RECOVER stops an EMA pass, which leaves STEP and FLASH alone (R146). -/
theorem emaInterrupted_keeps (s : State) :
    (if s.aux.running then haltEma s else s).step = s.step ∧
    (if s.aux.running then haltEma s else s).sweep.ctlErr = s.sweep.ctlErr := by
  split
  · exact ⟨(only_haltEma (List.Subset.refl _) (only_refl _ s)).part .step (by decide), haltEma_ctlErr s⟩
  · exact ⟨rfl, rfl⟩

/-- The repairs log is kept over a recovery that was interrupted, and cleared for any other (R190). -/
theorem repairsCleared_keeps (keep : Bool) (s : State) :
    (if keep then s else clearRepairs s).step = s.step ∧
    (if keep then s else clearRepairs s).sweep.ctlErr = s.sweep.ctlErr := by
  split
  · exact ⟨rfl, rfl⟩
  · refine ⟨(only_clearRepairs (List.Subset.refl _) (only_refl _ s)).part .step (by decide), ?_⟩
    rw [clearRepairs, enqueueAll_sweep]
    rfl

/-- An accepted RECOVER whose sweep begins at once (R185). -/
theorem recoverSweep_runs {s : State} (herr : s.sweep.ctlErr = 0) (im : Image) : RunsAgain s (recoverSweep im s) := by
  unfold recoverSweep
  extract_lets m idle begun classes used cleared rerun recovering kept
  obtain ⟨hstep, hidleErr⟩ := emaInterrupted_keeps s
  have hbegun : begun.step = s.step := hstep
  have hbegunErr : begun.sweep.ctlErr = 0 := hidleErr.trans herr
  split
  · exact ((rerunPass1_runs im m hbegunErr _).ofStep hbegun).writeMarks.deltasAgain m
  · obtain ⟨hlogStep, hlogErr⟩ := repairsCleared_keeps (m.state == 5) begun
    have hcleared : cleared.step = s.step := hlogStep.trans hbegun
    have hclearedErr : cleared.sweep.ctlErr = 0 := hlogErr.trans hbegunErr
    have hrerun : RunsAgain s rerun := (rerunSweep_runs im m hclearedErr true classes).ofStep hcleared
    have hrecovering : RunsAgain s recovering := hrerun.setSweep fun _ => ⟨rfl, rfl⟩
    have hkept : RunsAgain s kept := .ite hrecovering (hrecovering.setPass _)
    exact (hkept.deltasAgain m).writeMarks.releaseDue.lagStartAll

/-! ### A write of SWEEP_CTL (R182, R183, R184) -/

section
variable {s : State} {im : Image} {w : Word}

theorem exec_sweepResume (ha : Applies s) (w : Word) :
    exec (.sweepResume w) s = .next (respond 0x04 (writeSweepCtl w s)) :=
  congrArg Host.Outcome.next (ctlWrite_applies ha _ _ _)

theorem exec_sweepRecover (ha : Applies s) (w : Word) :
    exec (.sweepRecover w) s = .next (respond 0x04 (writeSweepCtl w s)) :=
  congrArg Host.Outcome.next (ctlWrite_applies ha _ _ _)

/-- SWEEP_STATUS.ERR as an accepted action leaves it (R194). -/
def sweepAccepted (s : State) : State := setSweep (fun u => { u with ctlErr := 0 }) s

theorem writeSweepCtl_resume (himage : activeImage s = some im) (hresume : w.getLsbD 1 = true)
    (hrecover : w.getLsbD 0 = false) : writeSweepCtl w s =
      if resumeErr s (field w 32 32) ≠ 0 then
        setSweep (fun u => { u with ctlErr := resumeErr s (field w 32 32) }) s
      else resumeSweep (w.getLsbD 2) im (sweepAccepted s) := by
  simp only [writeSweepCtl, himage, hresume, hrecover, Bool.false_and, Bool.not_true, Bool.and_false, Bool.or_self,
    Bool.false_eq_true, if_false, if_true, sweepAccepted]

theorem writeSweepCtl_recover (himage : activeImage s = some im) (hrecover : w.getLsbD 0 = true)
    (hresume : w.getLsbD 1 = false) (hskip : w.getLsbD 2 = false) : writeSweepCtl w s =
      if recoverErr s (field w 32 32) ≠ 0 then
        setSweep (fun u => { u with ctlErr := recoverErr s (field w 32 32) }) s
      else startRecovery im (sweepAccepted s) := by
  simp only [writeSweepCtl, himage, hresume, hrecover, hskip, Bool.false_and, Bool.not_true, Bool.and_false,
    Bool.or_self, Bool.false_eq_true, if_false, sweepAccepted]

theorem startRecovery_waits (h : ∃ c ∈ s.xch.chans, c.job.isSome = true) :
    startRecovery im s = setSweep (fun u => { u with recoverWaits := true }) s := by
  have hwait : (s.xch.chans.any fun c => c.job.isSome) = true := List.any_eq_true.mpr h
  simp only [startRecovery, hwait, if_true]

theorem startRecovery_begins (h : ∀ c ∈ s.xch.chans, c.job = none) :
    startRecovery im s = recoverSweep im (setSweep (fun u => { u with recoverWaits := false }) s) := by
  have hfree : (s.xch.chans.any fun c => c.job.isSome) = false :=
    List.any_eq_false.mpr fun c hc => by simp [h c hc]
  simp only [startRecovery, hfree, Bool.false_eq_true, if_false]

/-- A write after which a pass runs again, as the statement asks it. -/
theorem RunsAgain.responds {t : State} (h : RunsAgain s t) :
    (respond 0x04 t).sweep.ctlErr = 0 ∧
    ((respond 0x04 t).step.phase = .pass1 ∨ (respond 0x04 t).step.phase = .sweep) ∧
    (respond 0x04 t).step.step = s.step.step ∧ (respond 0x04 t).step.flash = s.step.flash ∧
    (respond 0x04 t).sweep.pass.isSome = true := by
  have hstep : t.step.step = s.step.step := by rw [h.step]
  have hflash : t.step.flash = s.step.flash := by rw [h.step]
  exact ⟨h.ctlErr, h.phase, hstep, hflash, h.pass⟩

end

/-- Settles O44: the write by its checks, and the pass that it begins by what running it again leaves. -/
theorem resumeAndRecover : Obligations.ResumeAndRecover := by
  intro s w im ha himage
  refine ⟨fun hresume hrecover => ?_, fun hrecover hresume hskip => ?_⟩
  · have hwrite := writeSweepCtl_resume himage hresume hrecover
    refine ⟨fun herr => ?_, fun herr => ⟨_, exec_sweepResume ha w, ?_⟩⟩
    · rw [exec_sweepResume ha, hwrite, if_pos herr]
      rfl
    · rw [hwrite, if_neg (not_not_intro herr)]
      exact ((resumeSweep_runs rfl _ im).ofStep rfl).responds
  · have hwrite := writeSweepCtl_recover himage hrecover hresume hskip
    refine ⟨fun herr => ?_, fun herr hjob => ?_, fun herr hfree => ⟨_, exec_sweepRecover ha w, ?_⟩⟩
    · rw [exec_sweepRecover ha, hwrite, if_pos herr]
      rfl
    · have hjob' : ∃ c ∈ (sweepAccepted s).xch.chans, c.job.isSome = true := hjob
      rw [exec_sweepRecover ha, hwrite, if_neg (not_not_intro herr), startRecovery_waits hjob']
      rfl
    · have hfree' : ∀ c ∈ (sweepAccepted s).xch.chans, c.job = none := hfree
      rw [hwrite, if_neg (not_not_intro herr), startRecovery_begins hfree']
      exact ((recoverSweep_runs rfl im).ofStep rfl).responds

end Sys2Proof.Machine

/-! PROOF. Leases (O35): the result code of each operation by its checks (R234), and what a write of LEASE_OP leaves by
that code (R235). -/
namespace Sys2Proof.Machine

/-! ### The checks of an operation (R234) -/

section
variable {owner gen : BitVec 16} {term t : Nat} {l : Lease}

theorem leaseResult_acquire (howner : owner ≠ 0#16) (hterm : term ≠ 0)
    (hfree : l.owner = 0#16 ∨ l.expiry.toNat ≤ t) :
    leaseResult 1 owner gen term t l = 0 := by
  rcases hfree with h | h
  · simp [leaseResult, howner, hterm, h]
  · simp [leaseResult, howner, hterm, Nat.not_lt.mpr h]

/-- A lease that runs is not acquired, whatever else the write asks. -/
theorem leaseResult_acquire_held (howned : l.owner ≠ 0#16) (hruns : t < l.expiry.toNat) :
    leaseResult 1 owner gen term t l ≠ 0 := by
  by_cases h : owner = 0#16 ∨ term = 0
  · simp [leaseResult, h]
  · simp [leaseResult, h, howned, hruns]

theorem leaseResult_renew (howner : owner ≠ 0#16) (hterm : term ≠ 0) (hown : l.owner = owner) (hgen : l.gen = gen)
    (hruns : t < l.expiry.toNat) : leaseResult 2 owner gen term t l = 0 := by
  simp [leaseResult, howner, hterm, hown, hgen, hruns]

theorem leaseResult_release (howner : owner ≠ 0#16) (hown : l.owner = owner) (hgen : l.gen = gen)
    (hruns : t < l.expiry.toNat) : leaseResult 3 owner gen term t l = 0 := by
  simp [leaseResult, howner, hown, hgen, hruns]

theorem leaseResult_read : leaseResult 4 owner gen term t l = 0 := rfl

end

/-! ### A write of LEASE_OP by its result code (R235) -/

section
variable {w : Word} {s : State} {op : Nat} {l : Lease} (hl : l = s.lease.all.getD (fieldNat w 8 8) {})
  (hop : fieldNat w 0 3 = op)
include hl hop

/-- An operation that passes its checks has its effect, and its result shows the lease with code 0. -/
theorem writeLease_passes
    (h : leaseResult op (field w 48 16) (field w 32 16) (fieldNat w 16 16) (now s) l = 0) :
    writeLease w s = leaseDone w (leaseEffect op (field w 48 16) (fieldNat w 16 16) (now s) l) s := by
  subst hl hop
  simp only [writeLease, h, if_true]
  rfl

/-- An operation that fails a check is counted and leaves the lease as it was. -/
theorem writeLease_fails
    (h : leaseResult op (field w 48 16) (field w 32 16) (fieldNat w 16 16) (now s) l ≠ 0) :
    (writeLease w s).lease.all = s.lease.all.set (fieldNat w 8 8) l ∧
    (writeLease w s).hier.cnt = bump s.hier.cnt 5 1 := by
  subst hl hop
  simp only [writeLease, if_neg h]
  exact ⟨rfl, rfl⟩

end

/-- Each row of LEASE_OP is one write of the register. -/
theorem exec_leaseOp {s : State} {w : Word} (ha : Applies s) {c : Instr}
    (hc : c ∈ [Instr.leaseAcquire w, .leaseRenew w, .leaseRelease w, .leaseRead w]) :
    exec c s = .next (respond 0x04 (writeLease w s)) := by
  have hrow : exec c s = .next (ctlWrite leaseOpAddr w (writeLease w) s) := by
    simp only [List.mem_cons, List.not_mem_nil, or_false] at hc
    rcases hc with rfl | rfl | rfl | rfl <;> rfl
  rw [hrow, ctlWrite_applies ha]

/-- Settles O35: each operation's result code, and the write by that code. -/
theorem leaseOperations : Obligations.LeaseOperations := by
  intro s w ha l hl
  refine ⟨fun hop howner hterm hfree => ?_, fun hop howner hterm hown hgen hruns => ?_,
    fun hop howner hown hgen hruns => ?_, fun hop => ?_, fun hop howned hruns => ?_⟩
  · rw [exec_leaseOp (w := w) ha (by simp), writeLease_passes hl hop (leaseResult_acquire howner hterm hfree)]
    rfl
  · rw [exec_leaseOp (w := w) ha (by simp), writeLease_passes hl hop (leaseResult_renew howner hterm hown hgen hruns)]
    rfl
  · rw [exec_leaseOp (w := w) ha (by simp), writeLease_passes hl hop (leaseResult_release howner hown hgen hruns)]
    rfl
  · rw [exec_leaseOp (w := w) ha (by simp), writeLease_passes hl hop leaseResult_read]
    rfl
  · exact ⟨_, exec_leaseOp (w := w) ha (by simp), writeLease_fails hl hop (leaseResult_acquire_held howned hruns)⟩

end Sys2Proof.Machine

/-! PROOF. Flashes (O34): what a qualified code leaves before ABORT acts on the step, and what ABORT keeps of it. -/
namespace Sys2Proof.Machine

/-! ### One side of the ring and the other -/

section
variable (d : Side) (f : LinkEnd → LinkEnd) (s : State)

@[simp] theorem link_setLink_same : link (setLink d f s) d = f (link s d) := by cases d <;> rfl
@[simp] theorem link_setLink_other : link (setLink (Side.other d) f s) d = link s d := by cases d <;> rfl

/-- What a change of a link keeps of it, both sides keep. -/
theorem link_setLink_keeps {α : Type} (p : LinkEnd → α) (hf : ∀ l, p (f l) = p l) (e : Side) :
    p (link (setLink d f s) e) = p (link s e) := by
  cases d
  · cases e
    · exact hf s.east
    · rfl
  · cases e
    · rfl
    · exact hf s.west

end

theorem link_of_sides {s t : State} (heast : t.east = s.east) (hwest : t.west = s.west) (d : Side) :
    link t d = link s d := by
  cases d
  · exact heast
  · exact hwest

/-- A code sent on one side leaves the other as it is (R415). -/
theorem link_flashSend_other (d : Side) (f : Flash) (s : State) : link (flashSend (Side.other d) f s) d = link s d := by
  simp only [flashSend, countLink, linkWake]
  split <;> simp

/-- Transmit directions that are to return to RUN still show what came in (R416). -/
theorem flashIn_linksRun (aborted : Bool) (s : State) (d : Side) :
    (link (linksRun aborted s) d).flashIn = (link s d).flashIn := by
  have hturn : ∀ l : LinkEnd, (if l.txPhase == .verdict && (aborted || l.flashOut != .abort)
      then { l with runDue := true } else l).flashIn = l.flashIn := fun l => by split <;> rfl
  exact (link_setLink_keeps .west _ _ LinkEnd.flashIn hturn d).trans
    (link_setLink_keeps .east _ s LinkEnd.flashIn hturn d)

/-! ### What ABORT keeps of a flash -/

/-- The code that shows, here and on side d, and the counts of the hierarchy are the same in s and in t. -/
structure SameShown (d : Side) (s t : State) : Prop where
  seen : t.verdict.flashSeen = s.verdict.flashSeen
  last : t.verdict.lastFlash = s.verdict.lastFlash
  side : (link t d).flashIn = (link s d).flashIn
  cnt : t.hier.cnt = s.hier.cnt

theorem SameShown.refl (d : Side) (s : State) : SameShown d s s := ⟨rfl, rfl, rfl, rfl⟩

theorem SameShown.trans {d : Side} {s t u : State} (h : SameShown d s t) (h' : SameShown d t u) : SameShown d s u :=
  ⟨h'.seen.trans h.seen, h'.last.trans h.last, h'.side.trans h.side, h'.cnt.trans h.cnt⟩

theorem OnlyChanges.sameShown {L : List Part} {s t : State} (h : OnlyChanges L s t) (hv : Part.verdict ∉ L)
    (hh : Part.hier ∉ L) (he : Part.east ∉ L) (hw : Part.west ∉ L) (d : Side) : SameShown d s t := by
  have hverdict : t.verdict = s.verdict := h.part .verdict hv
  have hhier : t.hier = s.hier := h.part .hier hh
  have hlink : link t d = link s d := link_of_sides (h.part .east he) (h.part .west hw) d
  exact ⟨by rw [hverdict], by rw [hverdict], by rw [hlink], by rw [hhier]⟩

section
variable (d : Side) (aborted : Bool) (s : State)

theorem sameShown_linksRun : SameShown d s (linksRun aborted s) :=
  ⟨by rw [linksRun_verdict], by rw [linksRun_verdict], flashIn_linksRun aborted s d, by rw [linksRun_hier]⟩

theorem sameShown_endToIdle : SameShown d s (endToIdle aborted s) := by
  have hstop : SameShown d s (normStop s) :=
    (only_normStop (List.Subset.refl _) (only_refl _ s)).sameShown (by decide) (by decide) (by decide) (by decide) d
  refine hstop.trans (.trans ?_ (sameShown_linksRun d aborted _))
  cases d <;> exact ⟨rfl, rfl, rfl, rfl⟩

theorem sameShown_abortStep : SameShown d s (abortStep s) := by
  unfold abortStep
  split
  · have hpulse (u : State) : SameShown d u (pulse 4 u) :=
      (only_pulse 4 (List.Subset.refl _) (only_refl _ u)).sameShown (by decide) (by decide) (by decide) (by decide) d
    refine .trans ?_ (hpulse _)
    refine .trans ?_ (sameShown_endToIdle d true _)
    cases d <;> exact ⟨rfl, rfl, rfl, rfl⟩
  · split
    · refine .trans ?_ (sameShown_linksRun d true _)
      exact (only_passAbort (L := [.step, .sweep]) (by decide) (only_set_step (by decide) (only_refl _ s))).sameShown
        (by decide) (by decide) (by decide) (by decide) d
    · exact .refl d s

end

/-! ### A qualified code (R228, R415) -/

/-- A code shows and is counted, and all but the manager forward it. -/
def flashHeard (d : Side) (f : Flash) (s : State) : State :=
  let u := setLink d (fun l => { l with flashIn := f }) (countHier 4 1 s)
  let v := if isManager u then u else flashSend (Side.other d) f u
  { v with verdict := { v.verdict with
      flashSeen := true, lastFlash := f
      flashPending := v.verdict.flashPending || ((f == .go || f == .skip) && v.step.phase.beforeGate) } }

section
variable {s : State} {d : Side} {f : Flash}

theorem takeFlash_qualified (hw : working s = true) (hrx : (link s d).rxPhase = .verdict) :
    takeFlash d f s = if f = .abort then abortStep (flashHeard d f s) else flashHeard d f s := by
  simp only [takeFlash, flashHeard, hw, hrx, Bool.not_true, bne_self_eq_false, Bool.or_self, Bool.false_eq_true,
    if_false, beq_iff_eq]

theorem takeFlash_ignored (hrx : (link s d).rxPhase ≠ .verdict) : takeFlash d f s = s := by
  simp only [takeFlash, bne_iff_ne.mpr hrx, Bool.or_true, if_true]

/-- What showing, counting and forwarding a code changes. -/
theorem only_flashHeard : OnlyChanges [.verdict, .hier, .east, .west] s (flashHeard d f s) :=
  only_set_verdict (by decide) (only_ite
    (only_setLink d _ (by decide) (only_countHier 4 1 (by decide) (only_refl _ s)))
    (only_flashSend _ f (by decide) (only_setLink d _ (by decide) (only_countHier 4 1 (by decide) (only_refl _ s)))))

theorem flashHeard_step : (flashHeard d f s).step = s.step := only_flashHeard.part .step (by decide)

theorem flashHeard_side : (link (flashHeard d f s) d).flashIn = f := by
  have hforward (u : State) : link (if isManager u then u else flashSend (Side.other d) f u) d = link u d := by
    split
    · rfl
    · exact link_flashSend_other d f u
  have hside : link (flashHeard d f s) d = link (setLink d (fun l => { l with flashIn := f }) (countHier 4 1 s)) d :=
    (link_of_sides rfl rfl d).trans (hforward _)
  rw [hside, link_setLink_same]

theorem flashHeard_cnt : (flashHeard d f s).hier.cnt = bump s.hier.cnt 4 1 := by
  have hforward (u : State) : (if isManager u then u else flashSend (Side.other d) f u).hier = u.hier :=
    (only_ite (only_refl [.east, .west] u) (only_flashSend _ f (List.Subset.refl _) (only_refl _ u))).part .hier
      (by decide)
  have hset (u : State) (g : LinkEnd → LinkEnd) : (setLink d g u).hier = u.hier :=
    (only_setLink d g (List.Subset.refl _) (only_refl _ u)).part .hier (by decide)
  exact (congrArg Hier.cnt (hforward _)).trans (congrArg Hier.cnt (hset _ _))

/-- Whatever the code, it shows and is counted. -/
theorem takeFlash_shows (hw : working s = true) (hrx : (link s d).rxPhase = .verdict) :
    SameShown d (flashHeard d f s) (takeFlash d f s) := by
  rw [takeFlash_qualified hw hrx]
  split
  · exact sameShown_abortStep d _
  · exact .refl d _

theorem takeFlash_step (hw : working s = true) (hrx : (link s d).rxPhase = .verdict) (hf : f ≠ .abort) :
    (takeFlash d f s).step = s.step := by
  rw [takeFlash_qualified hw hrx, if_neg hf, flashHeard_step]

theorem takeFlash_abort_step (hw : working s = true) (hrx : (link s d).rxPhase = .verdict)
    (hbefore : s.step.phase.beforeGate = true) :
    (takeFlash d .abort s).step = { s.step with phase := .idle, flash := .abort } := by
  have hstep : (flashHeard d .abort s).step = s.step := flashHeard_step
  rw [takeFlash_qualified hw hrx, if_pos rfl, abortStep_beforeGate (hstep ▸ hbefore), pulse_step, endToIdle_step,
    hstep]

end

/-- Settles O34: a code shows by what it leaves before ABORT acts, and only ABORT acts on the step. -/
theorem flashesShow : Obligations.FlashesShow := by
  intro s d hw c f hcf
  have hrow : exec c s = .next (takeFlash d f s) := by
    simp only [List.mem_cons, List.not_mem_nil, or_false, Prod.mk.injEq] at hcf
    rcases hcf with ⟨rfl, rfl⟩ | ⟨rfl, rfl⟩ | ⟨rfl, rfl⟩ | ⟨rfl, rfl⟩ <;> rfl
  rw [hrow]
  refine ⟨fun hrx => ?_, fun hrx => by rw [takeFlash_ignored hrx]⟩
  have hshown : SameShown d (flashHeard d f s) (takeFlash d f s) := takeFlash_shows hw hrx
  refine ⟨_, rfl, hshown.seen, hshown.last, hshown.side.trans flashHeard_side, hshown.cnt.trans flashHeard_cnt,
    fun hf => takeFlash_step hw hrx hf, fun hf hbefore => ?_⟩
  subst hf
  exact takeFlash_abort_step hw hrx hbefore

end Sys2Proof.Machine

/-! PROOF. Messages from below before they act (O36, O37): what taking one from where it waits leaves, the plan as it
rests on the active image, and the aggregator by the fate of the message. -/
namespace Sys2Proof.Machine

/-! ### The plan of the hierarchy rests on the active image (R216, R258) -/

section
variable {s t : State} (h : t.image = s.image)
include h

theorem planOf_of_image : planOf t = planOf s := by rw [planOf, planOf, h]
theorem jobOf_of_image : jobOf t = jobOf s := by rw [jobOf, jobOf, h]
theorem roleOf_of_image : roleOf t = roleOf s := by rw [roleOf, roleOf, planOf_of_image h]
theorem isManager_of_image : isManager t = isManager s := by
  rw [isManager, isManager, planOf_of_image h, roleOf_of_image h]
theorem isTreeNode_of_image : isTreeNode t = isTreeNode s := by rw [isTreeNode, isTreeNode, roleOf_of_image h]
theorem isRoot_of_image : isRoot t = isRoot s := by rw [isRoot, isRoot, roleOf_of_image h]
theorem contribOf_of_image : contribOf t = contribOf s := by rw [contribOf, contribOf, planOf_of_image h]
theorem membersOf_of_image : membersOf t = membersOf s := by rw [membersOf, membersOf, planOf_of_image h]
theorem childrenOf_of_image : childrenOf t = childrenOf s := by
  rw [childrenOf, childrenOf, planOf_of_image h, contribOf_of_image h]
theorem activeTag_of_image : activeTag t = activeTag s := by rw [activeTag, activeTag, h]

end

/-- A root is a node of the tree. -/
theorem isTreeNode_of_isRoot {s : State} (h : isRoot s = true) : isTreeNode s = true := by
  have hrole : roleOf s = 3 := by simpa [isRoot] using h
  simp [isTreeNode, hrole]

theorem isRoot_of_not_isTreeNode {s : State} (h : isTreeNode s = false) : isRoot s = false := by
  cases hroot : isRoot s with
  | false => rfl
  | true => rw [isTreeNode_of_isRoot hroot] at h; exact h

/-! ### A message taken from where it waits (R405, R218) -/

section
variable (src : Source) (m : Line) (s : State)

theorem only_taken : OnlyChanges [.hier, .east, .west] s (takeInbox src m s) :=
  only_takeInbox src m (List.Subset.refl _) (only_refl _ s)

@[simp] theorem takeInbox_step : (takeInbox src m s).step = s.step := (only_taken src m s).part .step (by decide)
@[simp] theorem takeInbox_memb : (takeInbox src m s).memb = s.memb := (only_taken src m s).part .memb (by decide)
@[simp] theorem takeInbox_lscale : (takeInbox src m s).lscale = s.lscale :=
  (only_taken src m s).part .lscale (by decide)
@[simp] theorem takeInbox_image : (takeInbox src m s).image = s.image := (only_taken src m s).part .image (by decide)
@[simp] theorem takeInbox_verdict : (takeInbox src m s).verdict = s.verdict :=
  (only_taken src m s).part .verdict (by decide)
@[simp] theorem working_takeInbox : working (takeInbox src m s) = working s :=
  (only_taken src m s).working (by decide) (by decide) (by decide)

/-- Of the aggregator only the messages that wait change. -/
theorem takeInbox_keeps {α : Type} (p : Hier → α) (hp : ∀ (h : Hier) xs, p { h with inbox := xs } = p h) :
    p (takeInbox src m s).hier = p s.hier := by
  unfold takeInbox
  split
  · cases src <;> exact hp _ _
  · rfl

@[simp] theorem takeInbox_got : (takeInbox src m s).hier.got = s.hier.got :=
  takeInbox_keeps src m s Hier.got fun _ _ => rfl
@[simp] theorem takeInbox_joins : (takeInbox src m s).hier.joins = s.hier.joins :=
  takeInbox_keeps src m s Hier.joins fun _ _ => rfl
@[simp] theorem takeInbox_notices : (takeInbox src m s).hier.notices = s.hier.notices :=
  takeInbox_keeps src m s Hier.notices fun _ _ => rfl
@[simp] theorem takeInbox_issued : (takeInbox src m s).hier.issued = s.hier.issued :=
  takeInbox_keeps src m s Hier.issued fun _ _ => rfl
@[simp] theorem takeInbox_early : (takeInbox src m s).hier.early = s.hier.early :=
  takeInbox_keeps src m s Hier.early fun _ _ => rfl
@[simp] theorem takeInbox_sumSent : (takeInbox src m s).hier.sumSent = s.hier.sumSent :=
  takeInbox_keeps src m s Hier.sumSent fun _ _ => rfl
@[simp] theorem takeInbox_skipSent : (takeInbox src m s).hier.skipSent = s.hier.skipSent :=
  takeInbox_keeps src m s Hier.skipSent fun _ _ => rfl
@[simp] theorem takeInbox_joinSumSent : (takeInbox src m s).hier.joinSumSent = s.hier.joinSumSent :=
  takeInbox_keeps src m s Hier.joinSumSent fun _ _ => rfl
@[simp] theorem takeInbox_unresolved : (takeInbox src m s).hier.unresolved = s.hier.unresolved :=
  takeInbox_keeps src m s Hier.unresolved fun _ _ => rfl

@[simp] theorem isManager_takeInbox : isManager (takeInbox src m s) = isManager s :=
  isManager_of_image (takeInbox_image src m s)

/-- Whether a message waits or is taken, it is judged alike. -/
@[simp] theorem msgFate_takeInbox (x : Line) : msgFate (takeInbox src m s) x = msgFate s x := by
  have himage := takeInbox_image src m s
  simp only [msgFate, earlier, srcKnown, activeTag_of_image himage, membersOf_of_image himage,
    isTreeNode_of_image himage, childrenOf_of_image himage, takeInbox_step, takeInbox_memb, takeInbox_verdict,
    takeInbox_lscale, takeInbox_got, takeInbox_joins, takeInbox_notices]
  rfl

@[simp] theorem afterEarly_takeInbox (x : Line) : afterEarly (takeInbox src m s) x = afterEarly s x := by
  simp only [afterEarly, isRoot_of_image (takeInbox_image src m s), takeInbox_early, takeInbox_step]

end

/-! ### The aggregator by the fate of a message (R223, R225) -/

section
variable {s : State} {m : Line}

theorem aggregate_worker (h : isManager s = false) : aggregate m s = s := by
  simp only [aggregate, h, Bool.not_false, if_true]

variable (hman : isManager s = true)
include hman

theorem aggregate_discard (h : msgFate s m = .discard) : aggregate m s = countHier 2 1 s := by
  simp only [aggregate, hman, h, Bool.not_true, Bool.false_eq_true, if_false]

theorem aggregate_keep (h : msgFate s m = .keep) : aggregate m s = keepMsg s m := by
  simp only [aggregate, hman, h, Bool.not_true, Bool.false_eq_true, if_false]

theorem aggregate_dup (h : msgFate s m = .dup) (hearly : afterEarly s m = false) :
    aggregate m s = countHier 0 1 s := by
  simp only [aggregate, hman, h, hearly, Bool.not_true, Bool.false_eq_true, if_false]

theorem aggregate_hold {cause : BitVec 8} (h : msgFate s m = .hold cause) (hearly : afterEarly s m = false) :
    aggregate m s = holdFor cause m s := by
  simp only [aggregate, hman, h, hearly, Bool.not_true, Bool.false_eq_true, if_false]

/-- An accepted message acts, but a message of the attempt whose record the root has made. -/
theorem aggregate_accept (h : msgFate s m = .accept)
    (hopen : joinType (msgType m) = true ∨ s.hier.issued ≠ some (s.step.step, s.verdict.attempt)) :
    aggregate m s = acceptMsg m s := by
  have hnot : ¬ (isRoot s && !joinType (msgType m) &&
      decide (s.hier.issued = some (s.step.step, s.verdict.attempt))) = true := by
    rcases hopen with hjoin | hissued
    · simp [hjoin]
    · simp [hissued]
  simp only [aggregate, hman, h, if_neg hnot, Bool.not_true, Bool.false_eq_true, if_false]

end

/-- The rows of the messages from below (R218). -/
def belowRows (src : Source) (m : Line) : List Instr :=
  [.contrib src m, .sum src m, .join src m, .joinSum src m, .skipNotice src m, .holdNotice src m, .abortNotice src m]

section
variable {s : State} {src : Source} {m : Line} {c : Instr} (hc : c ∈ belowRows src m) (hw : working s = true)
include hc hw

/-- Where the engine works the aggregator takes the message of each row. -/
theorem exec_belowRow : exec c s = .next (aggregate m (takeInbox src m s)) := by
  have hrow : exec c s = .next (fromBelow src m s) := by
    simp only [belowRows, List.mem_cons, List.not_mem_nil, or_false] at hc
    rcases hc with rfl | rfl | rfl | rfl | rfl | rfl | rfl <;> rfl
  rw [hrow, fromBelow, working_takeInbox, if_pos hw]

theorem exec_accepted (hman : isManager s = true) (hfate : msgFate s m = .accept)
    (hopen : joinType (msgType m) = true ∨ s.hier.issued ≠ some (s.step.step, s.verdict.attempt)) :
    exec c s = .next (acceptMsg m (takeInbox src m s)) := by
  rw [exec_belowRow hc hw, aggregate_accept (by simpa using hman) (by simpa using hfate) (by simpa using hopen)]

end

end Sys2Proof.Machine

/-! PROOF. What an accepted message leads to (O36): an equation of each operation of the aggregator for each
of its cases. -/
namespace Sys2Proof.Machine

/-! ### An accepted message by its type (R221, R223, R225, R229) -/

section
variable {src : Source} {m : Line} {s : State}

/-- A contribution or a sum is held; one that is not finite, or is over range, leads to a SKIP_NOTICE first. -/
theorem acceptMsg_sums (h : msgType m = 1 ∨ msgType m = 2) :
    acceptMsg m (takeInbox src m s) = sumIfWhole (if msgNonfin m ≠ 0 || msgOver m then skipUp m (Rules.Held src m s)
      else Rules.Held src m s) := by
  rcases h with h | h <;> simp only [acceptMsg, h] <;> rfl

theorem acceptMsg_sums_finite (h : msgType m = 1 ∨ msgType m = 2) (hfin : msgNonfin m = 0)
    (hover : msgOver m = false) : acceptMsg m (takeInbox src m s) = sumIfWhole (Rules.Held src m s) := by
  simp [acceptMsg_sums h, hfin, hover]

theorem acceptMsg_joins (h : msgType m = 6 ∨ msgType m = 7) :
    acceptMsg m (takeInbox src m s) = joinIfWhole (Rules.Joined src m s) := by
  rcases h with h | h <;> simp only [acceptMsg, h] <;> rfl

theorem acceptMsg_skip (h : msgType m = 3) :
    acceptMsg m (takeInbox src m s) = skipUp m (Rules.Noticed src m s) := by
  simp only [acceptMsg, h]; rfl

section
variable (h : msgType m = 4)
include h

theorem acceptMsg_hold_joining (hstate : s.memb.state = .joining) : acceptMsg m (takeInbox src m s) =
    holdJoin (msgCause m) (msgStep m) (msgSrc m) (Rules.Noticed src m s) := by
  have hjoining : ((takeInbox src m s).memb.state == .joining) = true := by rw [takeInbox_memb, hstate]; rfl
  simp only [acceptMsg, h]
  exact if_pos hjoining

theorem acceptMsg_hold_step (hstate : s.memb.state ≠ .joining) : acceptMsg m (takeInbox src m s) =
    holdStep (msgCause m) (msgStep m) (msgSrc m) (Rules.Noticed src m s) := by
  have hjoining : ¬ ((takeInbox src m s).memb.state == .joining) = true := by
    rw [takeInbox_memb, beq_iff_eq]; exact hstate
  simp only [acceptMsg, h]
  exact if_neg hjoining

end

theorem acceptMsg_abort (h : msgType m = 5) : acceptMsg m (takeInbox src m s) = abortUp (Rules.Noticed src m s) := by
  simp only [acceptMsg, h]; rfl

end

/-! ### Sums (R224, R226, R230) -/

/-- Nothing is missing of what is summed here: a ring's members, or a node's children. -/
def sumWhole (s : State) : Bool :=
  if isTreeNode s then allIn (childrenOf s) (heldOf s 2) else allIn (membersOf s) (heldOf s 1)

/-- What is summed here. -/
def summands (s : State) : List Line := heldOf s (if isTreeNode s then 2 else 1)

section
variable {s : State}

theorem sumWhole_node (h : isTreeNode s = true) : sumWhole s = allIn (childrenOf s) (heldOf s 2) := by
  rw [sumWhole, if_pos h]
theorem sumWhole_ring (h : isTreeNode s = false) : sumWhole s = allIn (membersOf s) (heldOf s 1) := by
  rw [sumWhole, h]; rfl
theorem summands_node (h : isTreeNode s = true) : summands s = heldOf s 2 := by rw [summands, if_pos h]
theorem summands_ring (h : isTreeNode s = false) : summands s = heldOf s 1 := by rw [summands, h]; rfl

theorem ringSum_waits (h : isTreeNode s = false ∨ allIn (membersOf s) (heldOf s 1) = false ∨
    (heldOf s 2).any (fun m => msgSrc m == contribOf s) = true) : ringSum s = s := by
  rcases h with h | h | h <;>
    simp only [ringSum, h, Bool.false_and, Bool.and_false, Bool.not_true, Bool.false_eq_true, if_false]

/-- A finite sum of a node's package is taken among those of its children. -/
theorem ringSum_takes {x : Line} (htree : isTreeNode s = true) (hall : allIn (membersOf s) (heldOf s 1) = true)
    (hnone : (heldOf s 2).any (fun m => msgSrc m == contribOf s) = false) (hx : x = mkSum s (heldOf s 1))
    (hfin : msgNonfin x = 0) (hover : msgOver x = false) :
    ringSum s = { s with hier := { s.hier with got := s.hier.got ++ [x] } } := by
  subst hx
  simp only [ringSum, htree, hall, hnone, hfin, hover, Bool.not_false, Bool.and_self, if_true, ne_eq, not_true_eq_false,
    decide_false, Bool.or_self, Bool.false_eq_true, if_false]

theorem liftTimeout_free (h : s.verdict.holding = false) : liftTimeout s = s := by
  simp only [liftTimeout, h, Bool.false_and, Bool.false_eq_true, if_false]

variable {v : State} (hring : ringSum s = v)
include hring

theorem sumIfWhole_waits (hwhole : sumWhole v = false) : sumIfWhole s = v := by
  rw [sumWhole] at hwhole
  simp only [sumIfWhole, hring, hwhole, Bool.not_false, Bool.true_or, if_true]

variable (hwhole : sumWhole v = true) (hsent : v.hier.sumSent = false) (hhold : v.verdict.holding = false)
include hwhole hsent hhold

theorem sumIfWhole_sends (hroot : isRoot v = false) :
    sumIfWhole s = sendUp (mkSum (Rules.Summed v) (summands v)) (Rules.Summed v) := by
  have hroot' : isRoot (Rules.Summed v) = false := hroot
  rw [sumWhole] at hwhole
  rw [Rules.Summed] at hroot'
  simp only [sumIfWhole, hring, hwhole, hsent, liftTimeout_free hhold, hhold, hroot', Bool.not_true, Bool.or_self,
    Bool.false_eq_true, if_false]
  rfl

theorem sumIfWhole_decides {j : HierJob} (hroot : isRoot v = true) (hjob : jobOf v = some j) :
    sumIfWhole s = issueRecord (rootVerdict (Rules.Summed v) j false (sumGsq (summands v)) (sumNonfin (summands v))
      (sumGmax (summands v)) (sumCount (summands v)) ((sumFlags (summands v)).getLsbD 0)) (Rules.Summed v) := by
  have hroot' : isRoot (Rules.Summed v) = true := hroot
  have hjob' : jobOf (Rules.Summed v) = some j := hjob
  rw [sumWhole] at hwhole
  rw [Rules.Summed] at hroot' hjob'
  simp only [sumIfWhole, hring, hwhole, hsent, liftTimeout_free hhold, hhold, hroot', hjob', Bool.not_true,
    Bool.or_self, Bool.false_eq_true, if_false, if_true]
  rfl

end

/-! ### Joins (R221) -/

section
variable {s : State}

/-- With its ring whole, a node's own package has joined among its children. -/
def ringJoined (s : State) : State :=
  if isTreeNode s && allIn (membersOf s) (joinsOf s 6) && !(joinsOf s 7).any (fun m => msgSrc m == contribOf s) then
    { s with hier := { s.hier with joins := s.hier.joins ++ [mkMsg s { type := 7, count := sumCount (joinsOf s 6) }] } }
  else s

theorem joinIfWhole_waits (hring : allIn (membersOf s) (joinsOf s 6) = false)
    (htree : isTreeNode s = true → allIn (childrenOf s) (joinsOf s 7) = false) : joinIfWhole s = s := by
  have hwhole : (if isTreeNode s = true then allIn (childrenOf s) (joinsOf s 7) else false) = false := by
    split
    · exact htree ‹_›
    · rfl
  simp only [joinIfWhole, hring, hwhole, Bool.and_false, Bool.false_and, Bool.false_eq_true, if_false, Bool.not_false,
    Bool.true_or, if_true]

variable (hsent : s.hier.joinSumSent = false) (hhold : s.memb.hold = 0)
include hsent hhold

theorem joinIfWhole_ring (htree : isTreeNode s = false) (hall : allIn (membersOf s) (joinsOf s 6) = true) :
    joinIfWhole s = sendUp (mkMsg s { type := 7, count := sumCount (joinsOf s 6) }) (Rules.Passed s) := by
  have htree' : isTreeNode (Rules.Passed s) = false := htree
  have hroot' : isRoot (Rules.Passed s) = false := isRoot_of_not_isTreeNode htree'
  rw [Rules.Passed] at htree' hroot'
  simp only [joinIfWhole, hall, htree, hsent, hhold, htree', hroot', Bool.false_and, Bool.not_true, Bool.or_self,
    Bool.false_eq_true, if_false, ne_eq, not_true_eq_false, decide_false]
  rfl

theorem joinIfWhole_node (htree : isTreeNode s = true)
    (hown : (joinsOf s 7).any (fun x => msgSrc x == contribOf s) = true)
    (hall : allIn (childrenOf s) (joinsOf s 7) = true) :
    joinIfWhole s = if isRoot s
      then deliver .self 0 (mkMsg (Rules.Passed s) { type := 8, count := sumCount (joinsOf s 7) }) (Rules.Passed s)
      else sendUp (mkMsg (Rules.Passed s) { type := 7, count := sumCount (joinsOf s 7) }) (Rules.Passed s) := by
  have htree' : isTreeNode (Rules.Passed s) = true := htree
  rw [Rules.Passed] at htree'
  simp only [joinIfWhole, hall, hown, htree, hsent, hhold, htree', Bool.and_false, Bool.not_true, Bool.or_self,
    Bool.false_eq_true, if_false, if_true, ne_eq, not_true_eq_false, decide_false]
  rfl

end

/-! ### Notices (R225, R229) -/

section
variable {s : State} {m : Line}

section
variable (hsent : s.hier.skipSent = false) (hhold : s.verdict.holding = false) {v : State}
  (hv : v = { s with hier := { s.hier with skipSent := true } })
include hsent hhold hv

theorem skipUp_passes (hroot : isRoot v = false) : skipUp m s = sendToParent
    (mkMsg v { type := 3, gmax := msgGmax m, nonfin := msgNonfin m, count := 1, flags := msgFlags m &&& 1 }) v := by
  subst hv
  simp only [skipUp, hsent, hhold, hroot, Bool.or_self, Bool.false_eq_true, if_false]

theorem skipUp_decides {j : HierJob} (hroot : isRoot v = true) (hjob : jobOf v = some j) : skipUp m s =
    if j.flags.getLsbD 0 then issueRecord (rootVerdict v j true 0 (msgNonfin m) (msgGmax m) 0 (msgOver m)) v
    else v := by
  subst hv
  simp only [skipUp, hsent, hhold, hroot, hjob, Bool.or_self, Bool.false_eq_true, if_false, if_true]

end

theorem abortUp_passes (hroot : isRoot s = false) :
    abortUp s = sendToParent (mkMsg s { type := 5, count := 1 }) s := by
  simp only [abortUp, hroot, Bool.false_eq_true, if_false]

theorem abortUp_decides {j : HierJob} (hroot : isRoot s = true) (hjob : jobOf s = some j) :
    abortUp s = if j.flags.getLsbD 1 then issueAbort s else s := by
  simp only [abortUp, hroot, jobFlag, hjob, Option.map_some, Option.getD_some, if_true]

end

/-! ### Holds (R223, R231) -/

section
variable (cause : BitVec 8) (hi : BitVec 32) (src : BitVec 16) (s : State)

theorem holdStep_holding : (holdStep cause hi src s).verdict.holding = true := by
  simp only [holdStep]
  split
  next h =>
    simp only [Bool.and_eq_true] at h
    exact h.1
  next => rw [holdNotice_verdict, flashRing_verdict]

/-- A step that did not hold holds with the cause given. -/
theorem holdStep_cause {s : State} (h : s.verdict.holding = false) :
    (holdStep cause hi src s).verdict.holdCause = cause := by
  have hreport : (report (0x0400 + cause.setWidth 16) (put 32 hi ||| put 0 src) s).verdict.holding = false := h
  simp only [holdStep, hreport, Bool.false_and, Bool.false_eq_true, if_false]
  rw [holdNotice_verdict, flashRing_verdict]

/-- A message that is no join holds the step. -/
theorem holdFor_step {m : Line} (h : joinType (msgType m) = false) : holdFor cause m s =
    holdStep cause (holdArg cause m) (msgSrc m)
      (if cause = 1 && msgTag m ≠ activeTag s then countHier 1 1 s else s) := by
  simp only [holdFor, h, Bool.false_eq_true, if_false]

end

end Sys2Proof.Machine

/-! PROOF. ManagerMessages (O36): accepted messages stay with the manager, and each statement by the equations of its
cases. -/
namespace Sys2Proof.Machine

/-! ### Messages that a manager has taken stay -/

/-- The messages held in s are held in t. -/
structure KeepsMessages (s t : State) : Prop where
  got : s.hier.got ⊆ t.hier.got
  joins : s.hier.joins ⊆ t.hier.joins
  notices : s.hier.notices ⊆ t.hier.notices

section
variable {s t u : State}

theorem KeepsMessages.refl (s : State) : KeepsMessages s s :=
  ⟨List.Subset.refl _, List.Subset.refl _, List.Subset.refl _⟩

theorem KeepsMessages.trans (h : KeepsMessages s t) (h' : KeepsMessages t u) : KeepsMessages s u :=
  ⟨List.Subset.trans h.got h'.got, List.Subset.trans h.joins h'.joins, List.Subset.trans h.notices h'.notices⟩

theorem KeepsMessages.ite {c : Prop} [Decidable c] (ht : KeepsMessages s t) (hu : KeepsMessages s u) :
    KeepsMessages s (if c then t else u) := by
  split <;> assumption

theorem KeepsMessages.same (hgot : t.hier.got = s.hier.got) (hjoins : t.hier.joins = s.hier.joins)
    (hnotices : t.hier.notices = s.hier.notices) : KeepsMessages s t :=
  ⟨fun _ hx => hgot ▸ hx, fun _ hx => hjoins ▸ hx, fun _ hx => hnotices ▸ hx⟩

theorem KeepsMessages.of_hier (h : t.hier = s.hier) : KeepsMessages s t := .same (by rw [h]) (by rw [h]) (by rw [h])

theorem keepsMessages_summed (u : State) : KeepsMessages u (Rules.Summed u) := .same rfl rfl rfl
theorem keepsMessages_passed (u : State) : KeepsMessages u (Rules.Passed u) := .same rfl rfl rfl

/-- More is held of the contributions and sums. -/
theorem keepsMessages_got (x : Line) : KeepsMessages s { s with hier := { s.hier with got := s.hier.got ++ [x] } } :=
  ⟨List.subset_append_left _ _, List.Subset.refl _, List.Subset.refl _⟩

/-- More is held of the joins. -/
theorem keepsMessages_joins (x : Line) :
    KeepsMessages s { s with hier := { s.hier with joins := s.hier.joins ++ [x] } } :=
  ⟨List.Subset.refl _, List.subset_append_left _ _, List.Subset.refl _⟩

end

section
variable (s : State)

@[simp] theorem sendToParent_hier (m : Line) : (sendToParent m s).hier = s.hier :=
  (only_sendToParent m (List.Subset.refl _) (only_refl _ s)).part .hier (by decide)

theorem keepsMessages_deliver (src : Source) (vc : BitVec 2) (m : Line) : KeepsMessages s (deliver src vc m s) :=
  .same rfl rfl rfl

theorem keepsMessages_issueRecord (f : RecordBody) : KeepsMessages s (issueRecord f s) :=
  .ite (.refl s) (.same rfl rfl rfl)

theorem keepsMessages_sendToParent (m : Line) : KeepsMessages s (sendToParent m s) := .of_hier (sendToParent_hier s m)

theorem keepsMessages_sendUp (m : Line) : KeepsMessages s (sendUp m s) := by
  refine .trans ?_ (keepsMessages_sendToParent _ m)
  exact .same rfl rfl rfl

theorem keepsMessages_skipUp (m : Line) : KeepsMessages s (skipUp m s) := by
  have hmark : KeepsMessages s { s with hier := { s.hier with skipSent := true } } := .same rfl rfl rfl
  refine .ite (.refl s) (.ite ?_ (hmark.trans (keepsMessages_sendToParent _ _)))
  split
  · exact .ite (hmark.trans (keepsMessages_issueRecord _ _)) hmark
  · exact hmark

theorem keepsMessages_ringSum : KeepsMessages s (ringSum s) :=
  .ite (.ite ((keepsMessages_got _).trans (keepsMessages_skipUp _ _)) (keepsMessages_got _)) (.refl s)

theorem keepsMessages_sumIfWhole : KeepsMessages s (sumIfWhole s) := by
  have hring : KeepsMessages s (ringSum s) := keepsMessages_ringSum s
  have hlift : KeepsMessages s (liftTimeout (ringSum s)) := hring.trans (.ite (.same rfl rfl rfl) (.refl _))
  have hmark : KeepsMessages s (Rules.Summed (liftTimeout (ringSum s))) := hlift.trans (keepsMessages_summed _)
  refine .ite hring (.ite hlift (.ite ?_ (hmark.trans (keepsMessages_sendUp _ _))))
  split
  · exact hmark.trans (keepsMessages_issueRecord _ _)
  · exact hmark

theorem keepsMessages_joinIfWhole : KeepsMessages s (joinIfWhole s) := by
  have hown : KeepsMessages s (ringJoined s) := .ite (keepsMessages_joins _) (.refl s)
  have hmark : KeepsMessages s (Rules.Passed (ringJoined s)) := hown.trans (keepsMessages_passed _)
  exact .ite hown (.ite (hmark.trans (keepsMessages_deliver _ _ _ _))
    (.ite (hmark.trans (keepsMessages_sendUp _ _)) (hmark.trans (keepsMessages_sendUp _ _))))

theorem keepsMessages_abortUp : KeepsMessages s (abortUp s) :=
  .ite (.ite (keepsMessages_issueRecord s _) (.refl s)) (keepsMessages_sendToParent s _)

/-- Unless the step holds, a SKIP_NOTICE has been sent on, or need not be again. -/
theorem skipUp_skipSent {s : State} {m : Line} (hhold : s.verdict.holding = false) :
    (skipUp m s).hier.skipSent = true := by
  have hissue (f : RecordBody) (t : State) : (issueRecord f t).hier.skipSent = t.hier.skipSent := by
    unfold issueRecord
    split <;> rfl
  unfold skipUp
  split
  next h => simpa [hhold] using h
  next =>
    dsimp only
    split
    · split
      · split
        · rw [hissue]
        · rfl
      · rfl
    · rw [sendToParent_hier]

end

/-! ### The state that a message taken is held in (Rules.Held, Rules.Joined, Rules.Noticed) -/

section
variable (src : Source) (m : Line) (s : State)

theorem acceptMsg_taken_step : (acceptMsg m (takeInbox src m s)).step = s.step :=
  (only_acceptMsg (L := [.health, .evt, .memb, .verdict, .hier, .east, .west, .fmp]) m (List.Subset.refl _)
    (only_takeInbox src m (by decide) (only_refl _ s))).part .step (by decide)

theorem mem_held : m ∈ (Rules.Held src m s).hier.got := List.mem_append_right _ (List.mem_singleton_self m)
theorem mem_joined : m ∈ (Rules.Joined src m s).hier.joins := List.mem_append_right _ (List.mem_singleton_self m)
theorem mem_noticed : m ∈ (Rules.Noticed src m s).hier.notices := List.mem_append_right _ (List.mem_singleton_self m)

theorem held_image : (Rules.Held src m s).image = s.image := takeInbox_image src m s
theorem joined_image : (Rules.Joined src m s).image = s.image := takeInbox_image src m s
theorem noticed_image : (Rules.Noticed src m s).image = s.image := takeInbox_image src m s
theorem held_verdict : (Rules.Held src m s).verdict = s.verdict := takeInbox_verdict src m s
theorem noticed_verdict : (Rules.Noticed src m s).verdict = s.verdict := takeInbox_verdict src m s
theorem joined_memb : (Rules.Joined src m s).memb = s.memb := takeInbox_memb src m s
theorem held_sumSent : (Rules.Held src m s).hier.sumSent = s.hier.sumSent := takeInbox_sumSent src m s
theorem joined_joinSumSent : (Rules.Joined src m s).hier.joinSumSent = s.hier.joinSumSent :=
  takeInbox_joinSumSent src m s
theorem noticed_skipSent : (Rules.Noticed src m s).hier.skipSent = s.hier.skipSent := takeInbox_skipSent src m s

variable {src m s}

/-- A contribution or a sum that is taken stays among those of the attempt. -/
theorem mem_got_accepted (h : msgType m = 1 ∨ msgType m = 2) : m ∈ (acceptMsg m (takeInbox src m s)).hier.got := by
  rw [acceptMsg_sums h]
  have hskip : KeepsMessages (Rules.Held src m s)
      (if msgNonfin m ≠ 0 || msgOver m then skipUp m (Rules.Held src m s) else Rules.Held src m s) :=
    .ite (keepsMessages_skipUp _ m) (.refl _)
  exact (hskip.trans (keepsMessages_sumIfWhole _)).got (mem_held src m s)

theorem mem_joins_accepted (h : msgType m = 6 ∨ msgType m = 7) :
    m ∈ (acceptMsg m (takeInbox src m s)).hier.joins := by
  rw [acceptMsg_joins h]
  exact (keepsMessages_joinIfWhole _).joins (mem_joined src m s)

theorem mem_notices_accepted (h : msgType m = 5) : m ∈ (acceptMsg m (takeInbox src m s)).hier.notices := by
  rw [acceptMsg_abort h]
  exact (keepsMessages_abortUp _).notices (mem_noticed src m s)

end

/-! ### The statements -/

/-- R221, R223, R224, R225, R229. -/
theorem managerTakesMessages : Rules.ManagerTakesMessages := by
  intro s src m hw hman hfate hissued
  have hrow {c : Instr} (hc : c ∈ belowRows src m) : exec c s = .next (acceptMsg m (takeInbox src m s)) :=
    exec_accepted hc hw hman hfate (.inr hissued)
  have hstep := acceptMsg_taken_step src m s
  refine ⟨fun h => ?_, fun h => ?_, fun h => ?_, fun h => ?_, fun h hhold => ?_, fun h hstate => ?_, fun h => ?_⟩
  · exact ⟨_, hrow (by simp [belowRows]), mem_got_accepted (.inl h), hstep⟩
  · exact ⟨_, hrow (by simp [belowRows]), mem_got_accepted (.inr h), hstep⟩
  · exact ⟨_, hrow (by simp [belowRows]), mem_joins_accepted (.inl h), hstep⟩
  · exact ⟨_, hrow (by simp [belowRows]), mem_joins_accepted (.inr h), hstep⟩
  · refine ⟨_, hrow (by simp [belowRows]), ?_, hstep⟩
    rw [acceptMsg_skip h]
    exact skipUp_skipSent (by rw [noticed_verdict, hhold])
  · refine ⟨_, hrow (by simp [belowRows]), ?_⟩
    rw [acceptMsg_hold_step h hstate]
    exact ⟨holdStep_holding _ _ _ _, fun hhold => holdStep_cause _ _ _ (by rw [noticed_verdict, hhold])⟩
  · exact ⟨_, hrow (by simp [belowRows]), mem_notices_accepted h, hstep⟩

/-- R223, R224, R226. -/
theorem contributionsSum : Rules.ContributionsSum := by
  intro s src m hw hman hfate hissued hfin hover u hu
  have hrow {c : Instr} (hc : c ∈ belowRows src m) (ht : msgType m = 1 ∨ msgType m = 2) :
      exec c s = .next (sumIfWhole u) := by
    rw [exec_accepted hc hw hman hfate (.inr hissued), acceptMsg_sums_finite ht hfin hover, hu]
  have himage : u.image = s.image := by rw [hu, held_image]
  have hsent : u.hier.sumSent = s.hier.sumSent := by rw [hu, held_sumSent]
  have hholding : u.verdict.holding = s.verdict.holding := by rw [hu, held_verdict]
  rw [← membersOf_of_image himage, ← childrenOf_of_image himage, ← isTreeNode_of_image himage,
    ← isRoot_of_image himage, ← jobOf_of_image himage, ← contribOf_of_image himage, ← hsent, ← hholding]
  refine ⟨fun c t hct ht hring htree => ?_, fun ht htree hall hsent hhold => ?_,
    fun x v ht htree hall hnone hx hxfin hxover hv hchildren => ?_, fun ht htree hroot hsent hhold hown hall => ?_,
    fun j ht hroot hjob hsent hhold hown hall => ?_⟩
  · have hc : c ∈ belowRows src m ∧ (msgType m = 1 ∨ msgType m = 2) := by
      simp only [List.mem_cons, List.not_mem_nil, or_false, Prod.mk.injEq] at hct
      rcases hct with ⟨rfl, rfl⟩ | ⟨rfl, rfl⟩ <;> simp [belowRows, ht]
    have hwhole : sumWhole u = false := by
      cases hnode : isTreeNode u with
      | true => rw [sumWhole_node hnode, htree hnode]
      | false => rw [sumWhole_ring hnode, hring]
    rw [hrow hc.1 hc.2, sumIfWhole_waits (ringSum_waits (.inr (.inl hring))) hwhole]
  · have hwhole : sumWhole u = true := (sumWhole_ring htree).trans hall
    rw [hrow (by simp [belowRows]) (.inl ht), sumIfWhole_sends (ringSum_waits (.inl htree)) hwhole hsent hhold
      (isRoot_of_not_isTreeNode htree), summands_ring htree]
  · have hring : ringSum u = v := by rw [ringSum_takes htree hall hnone hx hxfin hxover, hv]
    have hwhole : sumWhole v = false := by
      have htree' : isTreeNode v = true := by rw [hv]; exact htree
      have hchildren' : allIn (childrenOf v) (heldOf v 2) = false := by
        rw [← hchildren, childrenOf_of_image (s := u) (t := v) (by rw [hv])]
      rw [sumWhole_node htree', hchildren']
    rw [hrow (by simp [belowRows]) (.inl ht), sumIfWhole_waits hring hwhole]
  · have hwhole : sumWhole u = true := (sumWhole_node htree).trans hall
    rw [hrow (by simp [belowRows]) (.inr ht), sumIfWhole_sends (ringSum_waits (.inr (.inr hown))) hwhole hsent hhold
      hroot, summands_node htree]
  · have htree : isTreeNode u = true := isTreeNode_of_isRoot hroot
    have hwhole : sumWhole u = true := (sumWhole_node htree).trans hall
    rw [hrow (by simp [belowRows]) (.inr ht), sumIfWhole_decides (ringSum_waits (.inr (.inr hown))) hwhole hsent hhold
      hroot hjob, summands_node htree]

/-- R221. -/
theorem joinsCollect : Rules.JoinsCollect := by
  intro s src m hw hman hfate u hu
  have hrow {c : Instr} (hc : c ∈ belowRows src m) (ht : msgType m = 6 ∨ msgType m = 7) :
      exec c s = .next (joinIfWhole u) := by
    have hjoin : joinType (msgType m) = true := by rcases ht with ht | ht <;> rw [ht] <;> rfl
    rw [exec_accepted hc hw hman hfate (.inl hjoin), acceptMsg_joins ht, hu]
  have himage : u.image = s.image := by rw [hu, joined_image]
  have hsent : u.hier.joinSumSent = s.hier.joinSumSent := by rw [hu, joined_joinSumSent]
  have hmemb : u.memb = s.memb := by rw [hu, joined_memb]
  rw [← membersOf_of_image himage, ← childrenOf_of_image himage, ← isTreeNode_of_image himage,
    ← isRoot_of_image himage, ← contribOf_of_image himage, ← hsent, ← hmemb]
  refine ⟨fun c t hct ht hring htree => ?_, fun ht htree hall hsent hhold => ?_,
    fun ht htree hsent hhold hown hall => ⟨fun hroot => ?_, fun hroot => ?_⟩⟩
  · have hc : c ∈ belowRows src m ∧ (msgType m = 6 ∨ msgType m = 7) := by
      simp only [List.mem_cons, List.not_mem_nil, or_false, Prod.mk.injEq] at hct
      rcases hct with ⟨rfl, rfl⟩ | ⟨rfl, rfl⟩ <;> simp [belowRows, ht]
    rw [hrow hc.1 hc.2, joinIfWhole_waits hring htree]
  · rw [hrow (by simp [belowRows]) (.inl ht), joinIfWhole_ring hsent hhold htree hall]
  · rw [hrow (by simp [belowRows]) (.inr ht), joinIfWhole_node hsent hhold htree hown hall, hroot]
    rfl
  · rw [hrow (by simp [belowRows]) (.inr ht), joinIfWhole_node hsent hhold htree hown hall, if_pos hroot]

/-- R225, R226, R228, R229. -/
theorem noticesAct : Rules.NoticesAct := by
  intro s src m hw hman hfate hissued u hu
  have hrow {c : Instr} (hc : c ∈ belowRows src m) : exec c s = .next (acceptMsg m (takeInbox src m s)) :=
    exec_accepted hc hw hman hfate (.inr hissued)
  have himage : u.image = s.image := by rw [hu, noticed_image]
  have hsent : u.hier.skipSent = s.hier.skipSent := by rw [hu, noticed_skipSent]
  have hholding : u.verdict.holding = s.verdict.holding := by rw [hu, noticed_verdict]
  rw [← isRoot_of_image himage, ← jobOf_of_image himage, ← hsent, ← hholding]
  refine ⟨fun v ht hsent hhold hv => ⟨fun n hn hroot => ?_, fun j hroot hjob => ?_⟩, fun ht hstate => ?_,
    fun ht hstate => ?_, fun ht hroot => ?_, fun j ht hroot hjob => ?_⟩
  · have hroot' : isRoot v = false := by rw [hv]; exact hroot
    rw [hrow (by simp [belowRows]), acceptMsg_skip ht, ← hu, skipUp_passes hsent hhold hv hroot', hn]
  · have hroot' : isRoot v = true := by rw [hv]; exact hroot
    have hjob' : jobOf v = some j := by rw [hv]; exact hjob
    rw [hrow (by simp [belowRows]), acceptMsg_skip ht, ← hu, skipUp_decides hsent hhold hv hroot' hjob']
  · rw [hrow (by simp [belowRows]), acceptMsg_hold_step ht hstate, hu]
  · rw [hrow (by simp [belowRows]), acceptMsg_hold_joining ht hstate, hu]
  · rw [hrow (by simp [belowRows]), acceptMsg_abort ht, ← hu, abortUp_passes hroot]
  · rw [hrow (by simp [belowRows]), acceptMsg_abort ht, ← hu, abortUp_decides hroot hjob]

/-- R221, R223, R231, R240. -/
theorem managerTurnsMessagesAway : Rules.ManagerTurnsMessagesAway := by
  intro s src m hw c hc
  have hman' (h : isManager s = true) : isManager (takeInbox src m s) = true := (isManager_takeInbox src m s).trans h
  have hearly' (h : afterEarly s m = false) : afterEarly (takeInbox src m s) m = false :=
    (afterEarly_takeInbox src m s m).trans h
  rw [exec_belowRow (c := c) hc hw, ← msgFate_takeInbox src m s m]
  refine ⟨fun hman => ?_, fun hman hfate => ?_, fun hman hfate => ?_, fun hman hfate hearly => ?_,
    fun cause hman hfate hearly hjoin => ⟨_, rfl, ?_⟩⟩
  · rw [aggregate_worker ((isManager_takeInbox src m s).trans hman)]
  · rw [aggregate_discard (hman' hman) hfate]
  · rw [aggregate_keep (hman' hman) hfate]
  · rw [aggregate_dup (hman' hman) hfate (hearly' hearly)]
  · rw [aggregate_hold (hman' hman) hfate (hearly' hearly)]
    have hstep : (holdFor cause m (takeInbox src m s)).step = s.step :=
      (only_holdFor (L := [.health, .evt, .memb, .verdict, .hier, .east, .west, .fmp]) cause m (List.Subset.refl _)
        (only_takeInbox src m (by decide) (only_refl _ s))).part .step (by decide)
    refine ⟨?_, hstep, fun hhold => ?_⟩
    · rw [holdFor_step cause _ hjoin]
      exact holdStep_holding _ _ _ _
    · rw [holdFor_step cause _ hjoin]
      refine holdStep_cause _ _ _ ?_
      split
      · exact (congrArg Verdict.holding (takeInbox_verdict src m s)).trans hhold
      · exact (congrArg Verdict.holding (takeInbox_verdict src m s)).trans hhold

/-- Settles O36: an accepted message by the equations of what it leads to, any other by its fate. -/
theorem managerMessages : Obligations.ManagerMessages :=
  ⟨managerTakesMessages, contributionsSum, joinsCollect, noticesAct, managerTurnsMessagesAway⟩

end Sys2Proof.Machine

/-! PROOF. EpochsAndTimeouts (O37): EPOCH_OPEN where it opens the epoch and where its form is bad, and what a timeout
that has passed leaves. -/
namespace Sys2Proof.Machine

/-! ### EPOCH_OPEN (R221, R447, R568) -/

/-- An event enters the queue (R448). -/
theorem mem_insertEvent (q : List (Nat × BitVec 6)) (e : Nat × BitVec 6) : e ∈ insertEvent q e := by
  induction q with
  | nil => exact List.mem_singleton_self e
  | cons x q ih =>
    rw [insertEvent]
    split
    · exact List.mem_cons_of_mem x ih
    · exact List.mem_cons_self

theorem mem_pulse {line : BitVec 6} {s : State} (h : s.evt.queue.length < 256) :
    (now s, line) ∈ (pulse line s).evt.queue := by
  rw [pulse_room s line h]
  exact mem_insertEvent _ _

/-- The epoch is open: the join no longer holds, its messages are resolved, attempts count from 0. -/
def epochOpened (s : State) : State :=
  { s with
    memb := { s.memb with state := .opened, hold := 0 }
    hier := { s.hier with unresolved := s.hier.unresolved.filter fun x => !joinType (msgType x) }
    verdict := { s.verdict with attempt := 0 } }

section
variable {s : State} {src : Source} {m : Line} (hw : working s = true)
include hw

theorem takeOpen_malformed (h : lineCrcOk m = false) : takeOpen src m s = countHier 2 1 (takeInbox src m s) := by
  simp only [takeOpen, working_takeInbox, hw, h, Bool.not_true, Bool.not_false, Bool.true_or, Bool.false_eq_true,
    if_false, if_true]

/-- EPOCH_OPEN of the epoch that is being joined is passed on, by a manager, and opens it. -/
theorem takeOpen_opens (hcrc : lineCrcOk m = true) (hmagic : magicOf m = magicHier)
    (hepoch : msgEpoch m = s.memb.epoch) (hstate : s.memb.state = .joining) :
    ∃ u, takeOpen src m s = bootTo 8 (pulse 5 (epochOpened u)) ∧ OnlyChanges heardParts s u ∧
      u.hier.unresolved = s.hier.unresolved := by
  have hbox : OnlyChanges heardParts s (takeInbox src m s) := only_takeInbox src m (by decide) (only_refl _ s)
  have hpass : ∀ u : State, OnlyChanges heardParts s u → u.hier.unresolved = s.hier.unresolved →
      ∃ v, (if msgEpoch m = u.memb.epoch && u.memb.state == .joining then bootTo 8 (pulse 5 (epochOpened u)) else u) =
        bootTo 8 (pulse 5 (epochOpened v)) ∧ OnlyChanges heardParts s v ∧
        v.hier.unresolved = s.hier.unresolved := by
    intro u hu hun
    have hmemb : u.memb = s.memb := hu.part .memb (by decide)
    refine ⟨u, if_pos ?_, hu, hun⟩
    simp [hmemb, hepoch, hstate]
  simp only [takeOpen, working_takeInbox, hw, hcrc, hmagic, Bool.not_true, bne_self_eq_false, Bool.or_self,
    Bool.false_eq_true, if_false]
  refine hpass _ (only_ite ?_ hbox) ?_
  · exact only_broadcast _ _ (by decide) (only_sendBelow _ (by decide) (only_set_ring (by decide) hbox))
  · rw [← takeInbox_unresolved src m s]
    split
    · rw [broadcast_hier, sendBelow_hier]
    · rfl

end

/-- R221, R447, R568. -/
theorem epochOpens : Rules.EpochOpens := by
  intro s src m hw
  have hrow : exec (.epochOpen src m) s = .next (takeOpen src m s) := rfl
  refine ⟨fun hcrc hmagic hepoch hstate => ?_, fun hcrc => by rw [hrow, takeOpen_malformed hw hcrc]⟩
  obtain ⟨u, htake, hframe, hun⟩ := takeOpen_opens (src := src) hw hcrc hmagic hepoch hstate
  have hboot : OnlyChanges [.boot] (pulse 5 (epochOpened u)) (bootTo 8 (pulse 5 (epochOpened u))) :=
    only_bootTo 8 (List.Subset.refl _) (only_refl _ _)
  have hmemb : u.memb = s.memb := hframe.part .memb (by decide)
  have hevt : u.evt = s.evt := hframe.part .evt (by decide)
  have hnow : now u = now s := hframe.now (by decide)
  refine ⟨_, by rw [hrow, htake], ?_, ?_, ?_, ?_, fun hroom => ?_⟩
  · rw [hboot.part .memb (by decide), pulse_memb, ← hmemb]; rfl
  · rw [hboot.part .verdict (by decide), pulse_verdict]; rfl
  · rw [hboot.part .step (by decide), pulse_step]; exact hframe.part .step (by decide)
  · rw [hboot.part .hier (by decide), pulse_hier, ← hun]; rfl
  · rw [hboot.part .evt (by decide), ← hnow]
    have hroom' : (epochOpened u).evt.queue.length < 256 := (congrArg (·.queue.length) hevt).trans_lt hroom
    exact mem_pulse hroom'

/-! ### Timeouts (R221, R230, R231, R512) -/

section
variable {s : State} {j : HierJob} (hw : working s = true) (hjob : jobOf s = some j)
include hw hjob

theorem exec_contribTimeout {u : Nat} (hsince : s.hier.since = some u) (hmissing : sumMissing s = true)
    (hdue : u + j.contribTimeout.toNat ≤ now s) : exec .contribTimeout s = .next (holdStep 3 s.step.step (contribOf s)
      (countHier 3 1 { s with hier := { s.hier with expired := true } })) := by
  have hrow : exec .contribTimeout s = execContribTimeout s := rfl
  simp only [hrow, execContribTimeout, hsince, hjob, hw, hmissing, hdue, decide_true, Bool.and_self, if_true]
  rfl

theorem exec_joinTimeout (hstate : s.memb.state = .joining) (hdue : s.memb.joinedAt + j.joinTimeout.toNat ≤ now s) :
    exec .joinTimeout s = .next (epochFail s) := by
  have hrow : exec .joinTimeout s = execJoinTimeout s := rfl
  simp only [hrow, execJoinTimeout, hjob, hw, hstate, hdue, beq_self_eq_true, decide_true, Bool.and_self, if_true]

end

section
variable (cause : BitVec 8) (hi : BitVec 32) (src : BitVec 16) (s : State)

/-- What holding the step changes. -/
theorem only_holds : OnlyChanges [.health, .evt, .verdict, .east, .west, .fmp] s (holdStep cause hi src s) :=
  only_holdStep cause hi src (List.Subset.refl _) (only_refl _ s)

/-- A hold reports, and no croak cause rises or falls (R512). -/
theorem holdStep_health_cause : (holdStep cause hi src s).health.cause = s.health.cause := by
  have hnotice (u : State) : (holdNotice cause (flashRing .hold u)).health = u.health :=
    (only_holdNotice (L := [.east, .west, .fmp]) cause (by decide)
      (only_flashRing .hold (by decide) (only_refl _ u))).part .health (by decide)
  simp only [holdStep]
  split
  · rfl
  · rw [hnotice]
    dsimp only
    split
    · rfl
    · rw [pulse_health]; rfl

end

/-- The epoch has failed while it was being joined (R221). -/
def joinFailed (s : State) : State := { s with memb := { s.memb with state := .failed, hold := 4 } }

section
variable {s : State}

/-- An epoch that is being joined fails: the join's hold, the croak cause and the step's hold. -/
theorem epochFail_joining (h : s.memb.state = .joining) : epochFail s = holdStep 4 s.step.step (contribOf s)
    (croakSet 0x04 (pulse 6 (joinFailed s))) := by
  have hstep : (pulse 6 (joinFailed s)).step = s.step := pulse_step _ _
  have hcontrib : contribOf (pulse 6 (joinFailed s)) = contribOf s :=
    contribOf_of_image (pulse_image _ _)
  rw [joinFailed] at hstep hcontrib
  simp only [epochFail, h, beq_self_eq_true, if_true, hstep, hcontrib]
  rfl

/-- Cause 2 is set by a croak that names it (R512). -/
theorem croakSet_epoch : (croakSet 0x04 s).health.cause.getLsbD 2 = true := by
  rw [croakSet_cause, BitVec.getLsbD_or, Bool.or_eq_true]
  exact .inr (by decide)

end

/-- R221, R230, R231, R512. -/
theorem hierarchyTimeouts : Rules.HierarchyTimeouts := by
  intro s j hw hjob
  refine ⟨fun u hsince hmissing hdue => ?_, fun hstate hdue => ?_⟩
  · have hholds := only_holds 3 s.step.step (contribOf s)
      (countHier 3 1 { s with hier := { s.hier with expired := true } })
    have hhier := hholds.part .hier (by decide)
    refine ⟨_, exec_contribTimeout hw hjob hsince hmissing hdue, holdStep_holding _ _ _ _, ?_, ?_, ?_, ?_,
      fun hhold => holdStep_cause _ _ _ hhold⟩
    · rw [hhier]; rfl
    · rw [hhier]; rfl
    · rw [hhier]; rfl
    · exact hholds.part .step (by decide)
  · have hfails : OnlyChanges [.health, .evt, .verdict, .east, .west, .fmp] (joinFailed s) (epochFail s) := by
      rw [epochFail_joining hstate]
      exact only_holdStep _ _ _ (by decide) (only_croakSet _ (by decide) (only_pulse _ (by decide) (only_refl _ _)))
    refine ⟨_, exec_joinTimeout hw hjob hstate hdue, hfails.part .memb (by decide), ?_, ?_,
      hfails.part .step (by decide)⟩
    · rw [epochFail_joining hstate, holdStep_health_cause]
      exact croakSet_epoch
    · rw [epochFail_joining hstate]
      exact holdStep_holding _ _ _ _

/-- Settles O37: an EPOCH_OPEN and the timeouts by what each leaves. -/
theorem epochsAndTimeouts : Obligations.EpochsAndTimeouts := ⟨epochOpens, hierarchyTimeouts⟩

end Sys2Proof.Machine

/-! PROOF. ImagesAndMolts (O46): a write of IMG_CTL by its one action; an accepted load by the reads that it enters; a
molt by what its later steps leave of the swapped planes. -/
namespace Sys2Proof.Machine

/-! ### A write of IMG_CTL with one action bit (R266) -/

theorem getLsbD_of_fieldNat {m n k i : Nat} {w : BitVec m} (h : fieldNat w 0 n = k) (hi : i < n) :
    w.getLsbD i = k.testBit i := by
  rw [← h, fieldNat, BitVec.testBit_toNat, BitVec.getLsbD_extractLsb']
  simp [hi]

/-- One action bit alone is no conflict. -/
theorem popCount_imgAction {w : Word} {k : Nat} (h : fieldNat w 0 3 = k) (hone : k = 1 ∨ k = 2 ∨ k = 4) :
    ¬ 1 < popCount (field w 0 3) := by
  have hfield : field w 0 3 = BitVec.ofNat 3 k := by
    rw [← h]
    exact BitVec.eq_of_toNat_eq (by simp [field, fieldNat])
  rw [hfield]
  rcases hone with rfl | rfl | rfl <;> decide

section
variable {s : State} {w : Word}

theorem writeImgCtl_load (h : fieldNat w 0 3 = 1) : writeImgCtl w s = imgLoad s := by
  have hload : w.getLsbD 0 = true := getLsbD_of_fieldNat h (by decide)
  rw [writeImgCtl, if_neg (popCount_imgAction h (by decide)), if_pos hload]

theorem writeImgCtl_molt (h : fieldNat w 0 3 = 2) : writeImgCtl w s = imgMolt (field w 32 32) s := by
  have hload : w.getLsbD 0 = false := getLsbD_of_fieldNat h (by decide)
  have hmolt : w.getLsbD 1 = true := getLsbD_of_fieldNat h (by decide)
  simp only [writeImgCtl, popCount_imgAction h (by decide), hload, hmolt, Bool.false_eq_true, if_false, if_true]

theorem writeImgCtl_discard (h : fieldNat w 0 3 = 4) : writeImgCtl w s = emptyShadow s := by
  have hload : w.getLsbD 0 = false := getLsbD_of_fieldNat h (by decide)
  have hmolt : w.getLsbD 1 = false := getLsbD_of_fieldNat h (by decide)
  have hdiscard : w.getLsbD 2 = true := getLsbD_of_fieldNat h (by decide)
  simp only [writeImgCtl, popCount_imgAction h (by decide), hload, hmolt, hdiscard, Bool.false_eq_true, if_false,
    if_true, imgDiscard]

/-- Each row of IMG_CTL is one write of the register. -/
theorem exec_imgCtl (ha : Applies s) {c : Instr} (hc : c ∈ [Instr.imgLoad w, .imgMolt w, .imgDiscard w]) :
    exec c s = .next (respond 0x04 (writeImgCtl w s)) := by
  have hrow : exec c s = .next (ctlWrite imgCtlAddr w (writeImgCtl w) s) := by
    simp only [List.mem_cons, List.not_mem_nil, or_false] at hc
    rcases hc with rfl | rfl | rfl <;> rfl
  rw [hrow, ctlWrite_applies ha]

end

/-! ### Reads that enter the memory path (R284) -/

theorem wcbFlushLine_keeps_waiting (line : BitVec 34) (s : State) :
    s.mem.waiting ⊆ (wcbFlushLine line s).mem.waiting := by
  unfold wcbFlushLine
  split
  · exact List.subset_append_left _ _
  · exact List.Subset.refl _

/-- Outside FATAL a read enters behind whatever waits already. -/
theorem enqueue_read {s : State} {r : MemReq} (hfatal : s.health.fatal = false) (hread : r.write = false) :
    ∃ u, enqueue r s = arbitrate r u ∧ s.mem.waiting ⊆ u.mem.waiting := by
  unfold enqueue
  split
  · exact ⟨s, rfl, List.Subset.refl _⟩
  · rw [hfatal, hread]
    exact ⟨_, rfl, wcbFlushLine_keeps_waiting r.line s⟩

theorem enqueueAll_reads_wait {rs : List MemReq} {s : State} (hfatal : s.health.fatal = false)
    (hread : ∀ r ∈ rs, r.write = false) : s.mem.waiting ⊆ (enqueueAll rs s).mem.waiting ∧
      ∀ r ∈ rs, ∃ x ∈ (enqueueAll rs s).mem.waiting, x.req = r := by
  induction rs generalizing s with
  | nil => exact ⟨List.Subset.refl _, fun _ hr => nomatch hr⟩
  | cons r rs ih =>
    obtain ⟨u, hu, hkeeps⟩ := enqueue_read hfatal (hread r List.mem_cons_self)
    have hhealth : (enqueue r s).health = s.health :=
      (only_enqueue r (List.Subset.refl _) (only_refl _ s)).part .health (by decide)
    obtain ⟨hrest, hall⟩ := ih (s := enqueue r s) (by rw [hhealth, hfatal])
      fun r' hr' => hread r' (List.mem_cons_of_mem r hr')
    have hwaits : (enqueue r s).mem.waiting = u.mem.waiting ++ [{ req := r, since := portNow u }] := by
      rw [hu, arbitrate_mem]
    rw [hwaits] at hrest
    refine ⟨fun x hx => hrest (List.mem_append_left _ (hkeeps hx)), fun r' hr' => ?_⟩
    rcases List.mem_cons.mp hr' with rfl | hr'
    · exact ⟨_, hrest (List.mem_append_right _ (List.mem_singleton_self _)), rfl⟩
    · exact hall r' hr'

/-! ### Loads (R269, R276) -/

/-- The reads of a load from the stack, one for each line of the image. -/
def imageLineReads (u : ImageUnit) : List MemReq :=
  (List.range (u.len.toNat / 64)).map fun i =>
    { who := .image i, cls := .stream, write := false, line := field u.addr 0 34 + BitVec.ofNat 34 i }

theorem imageLineReads_read (u : ImageUnit) : ∀ r ∈ imageLineReads u, r.write = false := by
  intro r hr
  obtain ⟨i, -, rfl⟩ := List.mem_map.mp hr
  rfl

/-- The shadow plane is LOADING; the reads follow, unless the image lies in far memory or the address past the stack. -/
theorem startLoad_begins (s : State) : ∃ t, OnlyChanges [.boot, .mem, .image, .far] s t ∧
    (t.image.shadow = .loading ∧ t.image.active = s.image.active ∧ t.image.loadLen = s.image.len.toNat ∧
      t.image.loadAddr = s.image.addr) ∧
    startLoad s = if s.image.srcFar || (!s.image.srcFar && field s.image.addr 34 24 != (0 : BitVec 24)) then t
      else enqueueAll (imageLineReads s.image) t := by
  refine ⟨_, only_bootTo _ (by decide) (only_setImage _ (by decide) (only_emptyShadow (by decide) (only_refl _ s))), ?_,
    rfl⟩
  have hboot (u : State) : (bootTo 5 u).image = u.image :=
    (only_bootTo 5 (List.Subset.refl _) (only_refl _ u)).part .image (by decide)
  rw [hboot]
  exact ⟨rfl, rfl, rfl, rfl⟩

/-- The reads leave the image unit as the load has made it. -/
theorem startLoad_image (s : State) : (startLoad s).image.shadow = .loading ∧
    (startLoad s).image.active = s.image.active ∧ (startLoad s).image.loadLen = s.image.len.toNat ∧
    (startLoad s).image.loadAddr = s.image.addr := by
  obtain ⟨t, -, himage, heq⟩ := startLoad_begins s
  have hreads : (enqueueAll (imageLineReads s.image) t).image = t.image :=
    (only_enqueueAll _ (List.Subset.refl _) (only_refl _ t)).part .image (by decide)
  rw [heq]
  split
  · exact himage
  · rw [hreads]
    exact himage

/-- An image that lies in the stack is asked for line by line. -/
theorem startLoad_waits {s : State} (hfatal : s.health.fatal = false) (hstack : s.image.srcFar = false)
    (haddr : field s.image.addr 34 24 = (0 : BitVec 24)) :
    ∀ r ∈ imageLineReads s.image, ∃ x ∈ (startLoad s).mem.waiting, x.req = r := by
  obtain ⟨t, hframe, -, heq⟩ := startLoad_begins s
  have hhealth : t.health = s.health := hframe.part .health (by decide)
  have hreads : startLoad s = enqueueAll (imageLineReads s.image) t := by
    rw [heq, hstack, haddr]
    rfl
  rw [hreads]
  exact (enqueueAll_reads_wait (by rw [hhealth, hfatal]) (imageLineReads_read _)).2

section
variable {s : State}

theorem imgLoad_busy (h : s.image.shadow = .loading ∨ s.image.shadow = .verifying ∨ s.image.molting = true) :
    imgLoad s = setImage (fun u => { u with err := 0x12 }) s := by
  have hbusy : (s.image.shadow == .loading || s.image.shadow == .verifying || s.image.molting) = true := by
    simpa [or_assoc] using h
  rw [imgLoad, if_pos hbusy]

theorem imgLoad_idle (hload : s.image.shadow ≠ .loading) (hverify : s.image.shadow ≠ .verifying)
    (hmolt : s.image.molting = false) : imgLoad s =
      if s.image.len.toNat % 64 = 0 ∧ 1024 ≤ s.image.len.toNat ∧ s.image.len.toNat ≤ 786432 then startLoad s
      else setImage (fun u => { u with err := 0x13 }) s := by
  have hfree : ¬ (s.image.shadow == .loading || s.image.shadow == .verifying || s.image.molting) = true := by
    simp [hload, hverify, hmolt]
  rw [imgLoad, if_neg hfree]
  simp only [lenOk, Bool.not_eq_true', ← Bool.not_eq_true, ite_not, Bool.and_eq_true, decide_eq_true_eq, and_assoc]

/-! ### The ends of reading and of verification (R269, R270) -/

/-- A rejected image leaves its code and section, and nothing in the shadow plane. -/
theorem rejectImage_image (e : BitVec 8) (k : BitVec 16) (s : State) : (rejectImage e k s).image =
    { (emptyShadow s).image with shadow := .rejected, err := e, errSection := k } := by
  rw [rejectImage, pulse_image, report_image]
  rfl

theorem exec_imageReadDone (hwork : working s = true) : exec .imageReadDone s = .next (imageReadEnd s) :=
  congrArg Host.Outcome.next (if_pos hwork)

theorem exec_imageVerifyDone (hwork : working s = true) : exec .imageVerifyDone s = .next (verifyEnd s) :=
  congrArg Host.Outcome.next (if_pos hwork)

theorem imageReadEnd_failed (hload : s.image.shadow = .loading) (hfailed : s.image.loadFailed = true) :
    imageReadEnd s = rejectImage 0x11 0 s := by
  simp [imageReadEnd, hload, hfailed]

theorem imageReadEnd_whole (hload : s.image.shadow = .loading) (hgood : s.image.loadFailed = false)
    (hlines : s.image.loadLines.length * 64 = s.image.loadLen) :
    imageReadEnd s = setImage (fun u => { u with shadow := .verifying }) s := by
  simp [imageReadEnd, hload, hgood, hlines]

theorem verifyEnd_good (hverify : s.image.shadow = .verifying)
    (hcheck : firstFailed (verifyChecks s s.image.loadLen (loadedBytes s.image)) = none) :
    verifyEnd s = pulse 11 (setImage (fun u => { u with
      shadow := .verified, shadowImage := some (parseImage (loadedBytes s.image)), err := 0, errSection := 0
      loadLines := [] }) s) := by
  simp [verifyEnd, hverify, hcheck]

theorem verifyEnd_bad {e : BitVec 8} {k : BitVec 16} (hverify : s.image.shadow = .verifying)
    (hcheck : firstFailed (verifyChecks s s.image.loadLen (loadedBytes s.image)) = some (e, k)) :
    verifyEnd s = rejectImage e k s := by
  simp [verifyEnd, hverify, hcheck]

end

theorem imageLoads : Rules.ImageLoads := by
  intro s w
  refine ⟨fun ha hact n hn => ⟨fun hbusy => ?_, fun hload hverify hmolt => ⟨fun hbad => ?_, fun hmod hmin hmax => ?_⟩⟩,
    fun ha hact => ?_, fun hwork hload => ⟨fun hgood hlines => ?_, fun hfailed => ?_⟩,
    fun hwork hverify b hb => ⟨fun hcheck => ?_, fun e k hcheck => ?_⟩⟩
  · rw [exec_imgCtl (w := w) ha (by simp), writeImgCtl_load hact, imgLoad_busy hbusy]
    rfl
  · rw [exec_imgCtl (w := w) ha (by simp), writeImgCtl_load hact, imgLoad_idle hload hverify hmolt, ← hn, if_neg hbad]
    rfl
  · obtain ⟨hshadow, hactive, hlen, haddr⟩ := startLoad_image s
    refine ⟨_, exec_imgCtl (w := w) ha (by simp), ?_⟩
    rw [writeImgCtl_load hact, imgLoad_idle hload hverify hmolt, ← hn, if_pos ⟨hmod, hmin, hmax⟩, respond_image,
      respond_mem, hlen]
    refine ⟨hshadow, hactive, hn.symm, haddr, fun hstack hrange i hi => ?_⟩
    obtain ⟨x, hx, hreq⟩ := startLoad_waits ha.fatal hstack hrange _
      (List.mem_map.mpr ⟨i, List.mem_range.mpr (hn ▸ hi), rfl⟩)
    refine ⟨x, hx, ?_⟩
    rw [hreq]
    exact ⟨rfl, rfl, rfl⟩
  · refine ⟨_, exec_imgCtl (w := w) ha (by simp), ?_⟩
    rw [writeImgCtl_discard hact]
    exact ⟨rfl, rfl, rfl, only_respond _ (by decide) (only_emptyShadow (by decide) (only_refl _ s))⟩
  · rw [exec_imageReadDone hwork, imageReadEnd_whole hload hgood hlines]
    rfl
  · refine ⟨_, exec_imageReadDone hwork, ?_⟩
    rw [imageReadEnd_failed hload hfailed, rejectImage_image]
    exact ⟨rfl, rfl, rfl⟩
  · subst hb
    rw [exec_imageVerifyDone hwork, verifyEnd_good hverify hcheck]
    rfl
  · subst hb
    refine ⟨_, exec_imageVerifyDone hwork, ?_⟩
    rw [verifyEnd_bad hverify hcheck, rejectImage_image]
    exact ⟨rfl, rfl, rfl, rfl, rfl⟩

/-! ### What a disabled channel leaves of the plan and of the floors (R273, R353, R373) -/

section
variable (s : State)

@[simp] theorem padFree_floorSweep (h : BitVec 16) (o : BitVec 6) :
    (padFree h o s).pond.floorSweep = s.pond.floorSweep := by
  simp only [padFree]
  split_ifs <;> rfl

@[simp] theorem padFreeAll_floorSweep (hs : List (BitVec 16)) (o : BitVec 6) :
    (padFreeAll hs o s).pond.floorSweep = s.pond.floorSweep := by
  induction hs generalizing s with
  | nil => rfl
  | cons h hs ih => exact (ih (padFree h o s)).trans (padFree_floorSweep s h o)

theorem leaveOffers_floorSweep (k : Nat) : (leaveOffers k s).pond.floorSweep = s.pond.floorSweep :=
  padFreeAll_floorSweep _ _ _

theorem dropLagRead_floorSweep (k : Nat) : (dropLagRead k s).pond.floorSweep = s.pond.floorSweep := by
  simp only [dropLagRead]
  split
  · exact padFree_floorSweep s _ _
  · rfl

theorem dropPads_floorSweep (k : Nat) : (dropPads k s).pond.floorSweep = s.pond.floorSweep :=
  padFreeAll_floorSweep _ _ _

theorem endJob_floorSweep (k : Nat) : (endJob k s).pond.floorSweep = s.pond.floorSweep :=
  padFreeAll_floorSweep _ _ _

theorem stepCancel_floorSweep (k ord : Nat) (discard : Bool) :
    (stepCancel k ord discard s).pond.floorSweep = s.pond.floorSweep := by
  simp only [stepCancel]
  split
  · rfl
  · exact padFreeAll_floorSweep _ _ _

theorem xchDisable_floorSweep (k : Nat) : (xchDisable k s).pond.floorSweep = s.pond.floorSweep := by
  simp only [xchDisable]
  rw [dropPads_floorSweep, setXch_pond, endJob_floorSweep, leaveOffers_floorSweep, dropLagRead_floorSweep,
    stepCancel_floorSweep]

/-- Reads that are given up leave the port plan due. -/
theorem dropReads_planDue (p : Who → Bool) : (dropReads p s).mem.planDue = s.mem.planDue := rfl

theorem dropLagRead_planDue (k : Nat) : (dropLagRead k s).mem.planDue = s.mem.planDue := by
  have hfree (h : BitVec 16) (o : BitVec 6) : (padFree h o s).mem = s.mem :=
    (only_padFree h o (List.Subset.refl _) (only_refl _ s)).part .mem (by decide)
  simp only [dropLagRead, dropReads_planDue, setXch_mem]
  split
  · rw [hfree]
  · rfl

theorem endJob_planDue (k : Nat) : (endJob k s).mem.planDue = s.mem.planDue := by
  have hfree (u : State) (hs : List (BitVec 16)) (o : BitVec 6) : (padFreeAll hs o u).mem = u.mem :=
    (only_padFreeAll hs o (List.Subset.refl _) (only_refl _ u)).part .mem (by decide)
  have hforget (u : State) (p : Who → Bool) : (forgetFar p u).mem = u.mem := rfl
  simp only [endJob, hforget, dropReads_planDue, hfree, setXch_mem]

theorem xchDisable_planDue (k : Nat) : (xchDisable k s).mem.planDue = s.mem.planDue := by
  have hpads (u : State) : (dropPads k u).mem = u.mem :=
    (only_dropPads k (List.Subset.refl _) (only_refl _ u)).part .mem (by decide)
  have hoffers (u : State) : (leaveOffers k u).mem = u.mem :=
    (only_leaveOffers k (List.Subset.refl _) (only_refl _ u)).part .mem (by decide)
  have hcancel (ord : Nat) : (stepCancel k ord true s).mem = s.mem :=
    (only_stepCancel k ord true (List.Subset.refl _) (only_refl _ s)).part .mem (by decide)
  simp only [xchDisable]
  rw [hpads, setXch_mem, endJob_planDue, hoffers, dropLagRead_planDue, hcancel]

/-- A value that no disabled channel changes is as it was after a molt has disabled channels. -/
theorem moltChannels_keeps {α : Type} {f : State → α} (hf : ∀ u k, f (xchDisable k u) = f u) (n : Nat) :
    f (moltChannels n s) = f s := by
  have hfold (c : State → Nat → Bool) (ks : List Nat) (u : State) :
      f (ks.foldl (fun u k => if c u k then xchDisable k u else u) u) = f u := by
    induction ks generalizing u with
    | nil => rfl
    | cons k ks ih =>
      refine (ih (if c u k then xchDisable k u else u)).trans ?_
      split
      · exact hf u k
      · rfl
  exact (hfold (fun u k => floorsOver u && (xchan u k).eff.enable) _ _).trans
    (hfold (fun u k => n ≤ k && (xchan u k).eff.enable) _ s)

theorem moltChannels_planDue (n : Nat) : (moltChannels n s).mem.planDue = s.mem.planDue :=
  moltChannels_keeps (f := fun u => u.mem.planDue) s xchDisable_planDue n

theorem moltChannels_floorSweep (n : Nat) : (moltChannels n s).pond.floorSweep = s.pond.floorSweep :=
  moltChannels_keeps (f := fun u => u.pond.floorSweep) s xchDisable_floorSweep n

/-! ### The swapped planes (R272, R273) -/

/-- What a molt that is under way shows in IMG_STATUS and IMG_CTL, with im active (R267, R272). -/
structure Molted (im : Image) (u : ImageUnit) : Prop where
  active : u.active = some im
  shadow : u.shadow = .empty
  molting : u.molting = true
  moltErr : u.moltErr = 0

/-- What the swap sets at once, before it disables channels. -/
theorem swapPlanes_begins (im : Image) : ∃ u, swapPlanes im s = moltChannels im.limits.deltaChannels.toNat u ∧
    Molted im u.image ∧ u.mem.planDue = some (nextBoundary (portNow s) 1024) ∧
    u.pond.floorSweep = im.limits.padFloorSweep.setWidth 12 := by
  unfold swapPlanes
  extract_lets _ _ _ _ _ v
  exact ⟨v, rfl, ⟨rfl, rfl, rfl, rfl⟩, rfl, rfl⟩

theorem swapPlanes_plan (im : Image) :
    (swapPlanes im s).mem.planDue = some (nextBoundary (portNow s) 1024) ∧
    (swapPlanes im s).pond.floorSweep = im.limits.padFloorSweep.setWidth 12 := by
  obtain ⟨u, hswap, -, hplan, hfloor⟩ := swapPlanes_begins s im
  rw [hswap, moltChannels_planDue, moltChannels_floorSweep]
  exact ⟨hplan, hfloor⟩

theorem swapPlanes_molted (im : Image) : Molted im (swapPlanes im s).image := by
  obtain ⟨u, hswap, hmolted, -⟩ := swapPlanes_begins s im
  have hchannels : (moltChannels im.limits.deltaChannels.toNat u).image = u.image :=
    (only_moltChannels _ (List.Subset.refl _) (only_refl _ u)).part .image (by decide)
  rw [hswap, hchannels]
  exact hmolted

/-! ### The checks of dependent sets and the epoch (R272) -/

section
variable {s} {im : Image} (h : Molted im s.image)
include h

theorem recheckStepk_molted : Molted im (recheckStepk s).image := by
  unfold recheckStepk
  split
  · dsimp only
    split
    · exact ⟨h.active, h.shadow, h.molting, h.moltErr⟩
    · exact h
  · exact h

theorem recheckSwp_molted : Molted im (recheckSwp s).image := by
  unfold recheckSwp
  split
  · exact ⟨h.active, h.shadow, h.molting, h.moltErr⟩
  · exact h

theorem recheckTable_molted : Molted im (recheckTable s).image := by
  unfold recheckTable
  split
  · dsimp only
    split
    · exact ⟨h.active, h.shadow, h.molting, h.moltErr⟩
    · exact h
  · exact h

end

/-- The tag that an image shows, ACTIVE_TAG or SHADOW_TAG by its plane (R263, R268). -/
def imageTag (im : Image) : BitVec 32 := field im.digest 0 32

theorem activeTag_eq : activeTag s = (s.image.active.map imageTag).getD 0 := rfl

/-- A changed tag closes the epoch. -/
theorem moltEpoch_molted {im : Image} (old : Option Image) (h : Molted im s.image) :
    Molted im (moltEpoch old im s).image ∧
      (old.map imageTag ≠ some (imageTag im) → (moltEpoch old im s).image.epochClosed = true) := by
  unfold moltEpoch
  extract_lets tag changed u
  have hbases : u.image = s.image := by
    unfold u
    split <;> rfl
  rw [← hbases] at h
  split
  case isTrue => exact ⟨⟨h.active, h.shadow, h.molting, h.moltErr⟩, fun _ => rfl⟩
  case isFalse hsame =>
    have hkept : ¬ changed := fun hchanged => hsame (by simp [hchanged])
    exact ⟨h, fun htag => absurd htag hkept⟩

/-! ### An accepted molt (R271, R272, R389) -/

/-- The planes swapped, the dependent sets checked again, the epoch settled: what a molt leaves of the image unit. -/
def moltChecked (im : Image) : State :=
  moltEpoch s.image.active im (recheckTable (recheckSwp (recheckStepk (swapPlanes im s))))

theorem only_moltChecked (im : Image) :
    OnlyChanges [.image, .stepk, .ttab, .swp, .tongue, .memb, .xch] (swapPlanes im s) (moltChecked s im) :=
  only_moltEpoch _ _ (by decide) (only_recheckTable (by decide) (only_recheckSwp (by decide)
    (only_recheckStepk (by decide) (only_refl _ _))))

theorem moltChecked_molted (im : Image) : Molted im (moltChecked s im).image ∧
    (s.image.active.map imageTag ≠ some (imageTag im) → (moltChecked s im).image.epochClosed = true) :=
  moltEpoch_molted _ _ (recheckTable_molted (recheckSwp_molted (recheckStepk_molted (swapPlanes_molted s im))))

variable {s}

/-- After the checks a molt has a reseed due, and settles what the links make of the new plan. -/
theorem imgMolt_accepted {expect : BitVec 32} {im : Image} (himage : s.image.shadowImage = some im)
    (herr : moltErr s expect = 0) : ∃ u, imgMolt expect s = bootLinks (segSettle u) ∧ u.rng.reseedDue = true ∧
      OnlyChanges [.boot, .health, .evt, .hier, .east, .west, .rng, .fab] (moltChecked s im) u := by
  unfold imgMolt
  extract_lets e
  split
  case h_2 hnone => exact absurd (himage.symm.trans hnone) nofun
  case h_1 im' hsome =>
    obtain rfl : im = im' := Option.some.inj (himage.symm.trans hsome)
    rw [if_neg (not_not_intro herr)]
    extract_lets _ u _ _ _ v
    refine ⟨_, rfl, ?_, ?_⟩
    · split
      · exact congrArg Rng.reseedDue ((only_bootTo 6 (List.Subset.refl _) (only_refl _ v)).part .rng (by decide))
      · rfl
    · have hlinks : OnlyChanges [.boot, .health, .evt, .hier, .east, .west, .rng, .fab] (moltChecked s im) u :=
        only_recompare .west (by decide) (only_recompare .east (by decide) (only_refl _ _))
      have hplan : OnlyChanges [.boot, .health, .evt, .hier, .east, .west, .rng, .fab] (moltChecked s im) v :=
        only_set_fab (by decide) (only_set_rng (by decide) hlinks)
      exact only_ite (only_bootTo 6 (by decide) hplan) hplan

/-- What the later steps of a molt leave of the swapped planes. -/
theorem imgMolt_leaves {expect : BitVec 32} {im : Image} (himage : s.image.shadowImage = some im)
    (herr : moltErr s expect = 0) : (imgMolt expect s).image = (moltChecked s im).image ∧
      (imgMolt expect s).mem = (swapPlanes im s).mem ∧ (imgMolt expect s).pond = (swapPlanes im s).pond ∧
      (imgMolt expect s).rng.reseedDue = true := by
  obtain ⟨u, hmolt, hreseed, hchecked⟩ := imgMolt_accepted himage herr
  have hlinks : OnlyChanges [.boot, .health, .evt, .memb, .verdict, .hier, .east, .west, .ring, .fmp] u
      (imgMolt expect s) := by
    rw [hmolt]
    exact only_bootLinks (by decide) (only_segSettle (by decide) (only_refl _ u))
  have hswapped := only_moltChecked s im
  exact ⟨(hlinks.part .image (by decide)).trans (hchecked.part .image (by decide)),
    ((hlinks.part .mem (by decide)).trans (hchecked.part .mem (by decide))).trans (hswapped.part .mem (by decide)),
    ((hlinks.part .pond (by decide)).trans (hchecked.part .pond (by decide))).trans (hswapped.part .pond (by decide)),
    (congrArg Rng.reseedDue (hlinks.part .rng (by decide))).trans hreseed⟩

/-- A molt that fails a check of R271 shows its code and changes nothing else. -/
theorem imgMolt_refused {expect : BitVec 32} {im : Image} (himage : s.image.shadowImage = some im)
    (herr : moltErr s expect ≠ 0) :
    imgMolt expect s = setImage (fun u => { u with moltErr := moltErr s expect }) s := by
  simp only [imgMolt, himage, if_pos herr]

/-! ### The port plan and the end of a molt (R272) -/

theorem applyPlan_due {im : Image} {b : Nat} (hdue : s.mem.planDue = some b) (hnow : b ≤ portNow s)
    (himage : s.image.active = some im) : (applyPlan s).mem.planDue = none ∧
      (applyPlan s).mem.hashPlan = im.port.hashPlan ∧ (applyPlan s).mem.regulated = (im.port.arbMode == 1) ∧
      (applyPlan s).mem.stackGib = im.port.stackGib ∧ (applyPlan s).mem.eff.parts = im.port.parts := by
  have hrescale (u : State) : ∃ g short, (rescale u).mem = { u.mem with effG := g, shortfall := short } := by
    simp only [rescale]
    split <;> exact ⟨_, _, rfl⟩
  obtain ⟨u, happly, hplan⟩ : ∃ u, applyPlan s = rescale u ∧ (u.mem.planDue = none ∧
      u.mem.hashPlan = im.port.hashPlan ∧ u.mem.regulated = (im.port.arbMode == 1) ∧
      u.mem.stackGib = im.port.stackGib ∧ u.mem.eff.parts = im.port.parts) := by
    simp only [applyPlan, hdue, activeImage, himage, hnow.not_gt, if_false]
    exact ⟨_, rfl, rfl, rfl, rfl, rfl, rfl⟩
  obtain ⟨g, short, hmem⟩ := hrescale u
  rw [happly, hmem]
  exact hplan

theorem exec_portPlanApply (hready : ready s = true) : exec .portPlanApply s = .next (applyPlan s) :=
  congrArg Host.Outcome.next (if_pos hready)

theorem exec_moltDone (hwork : working s = true) (hmolt : s.image.molting = true) (hdue : s.mem.planDue = none) :
    exec .moltDone s = .next (pulse 12 (setImage (fun u => { u with molting := false }) s)) := by
  simp [exec, execMoltDone, hwork, hmolt, hdue]

end

theorem molts : Rules.Molts := by
  intro s w im
  refine ⟨fun ha hact himage => ⟨fun herr => ?_, fun herr => ?_⟩, fun b hready hdue hnow hactive => ?_,
    fun hwork hmolt hdue => exec_moltDone hwork hmolt hdue⟩
  · rw [exec_imgCtl (w := w) ha (by simp), writeImgCtl_molt hact, imgMolt_refused himage herr]
    rfl
  · obtain ⟨himg, hmem, hpond, hreseed⟩ := imgMolt_leaves himage herr
    obtain ⟨hmolted, hclosed⟩ := moltChecked_molted s im
    obtain ⟨hplan, hfloor⟩ := swapPlanes_plan s im
    have hstep : (imgMolt (field w 32 32) s).step = s.step :=
      (only_imgMolt _ (List.Subset.refl _) (only_refl _ s)).part .step (by decide)
    refine ⟨_, exec_imgCtl (w := w) ha (by simp), ?_⟩
    rw [writeImgCtl_molt hact, activeTag_eq (respond _ _), respond_image, respond_mem, respond_pond, respond_rng,
      respond_step, himg, hmem, hpond, hstep, hmolted.active]
    exact ⟨rfl, hmolted.shadow, hmolted.molting, hmolted.moltErr, hplan, hreseed, hfloor, rfl,
      fun htag => hclosed fun hsame => htag (by rw [activeTag_eq s, hsame]; rfl)⟩
  · obtain ⟨hplan, hhash, hmode, hgib, hparts⟩ := applyPlan_due hdue hnow hactive
    exact ⟨_, exec_portPlanApply hready, hplan, hhash, hmode, hgib, hparts,
      only_applyPlan (by decide) (only_refl _ s)⟩

/-- Settles O46: each write of IMG_CTL by its one action, the ends of reading and of verification by an equation for
each of their cases, a molt by what its later steps leave of the swapped planes. -/
theorem imagesAndMolts : Obligations.ImagesAndMolts := ⟨imageLoads, molts⟩

end Sys2Proof.Machine

/-! PROOF. What the memory path's shared operations leave (O5, O6, O7, O24). -/
namespace Sys2Proof.Machine

/-! ### Fault latches and counters (R106, R309, R518, R525) -/

/-- A latch keeps the fields of its first fault, and a further one sets MORE. -/
theorem FaultLatch.take_further (t : Nat) (bits : Word) {f : FaultLatch} (h : f.valid = true) :
    (f.take t bits).more = true ∧ (f.take t bits).bits = f.bits := by
  rw [FaultLatch.take, if_pos h]
  exact ⟨rfl, rfl⟩

theorem FaultLatch.take_first (t : Nat) (bits : Word) {f : FaultLatch} (h : f.valid = false) :
    (f.take t bits).more = false ∧ (f.take t bits).bits = bits := by
  rw [FaultLatch.take, h, if_neg Bool.false_ne_true]
  exact ⟨rfl, rfl⟩

/-- A fatal transfer is latched (R309). -/
theorem portFatal_mem (x : FatalXfer) (s : State) : (portFatal x s).mem = { s.mem with
    cnt := bump s.mem.cnt 1 1, fault := s.mem.fault.take (now s) x.word } := by
  rw [portFatal, setMem_mem, report_mem, countMp_mem]
  rfl

theorem portFatal_fault_valid (x : FatalXfer) (s : State) : (portFatal x s).mem.fault.valid = true := by
  rw [portFatal_mem]
  exact FaultLatch.take_valid _ _ _

theorem bump_getD (l : List Counter) (i n j : Nat) : (bump l i n).getD j {} =
    if i = j ∧ j < l.length then (l.getD j {}).add n else l.getD j {} := by
  rw [bump, List.getD_eq_getElem?_getD, List.getD_eq_getElem?_getD, List.getElem?_modify]
  by_cases hj : j < l.length
  · rw [List.getElem?_eq_getElem hj]
    by_cases hij : i = j <;> simp [hij, hj]
  · rw [List.getElem?_eq_none (not_lt.mp hj)]
    simp [hj]

theorem bumpedAt_bump (l : List Counter) (i : Nat) : bumpedAt l (bump l i 1) i := by
  intro hi
  rw [bump_getD, if_pos ⟨rfl, hi⟩]

end Sys2Proof.Machine

/-! PROOF. Answers that nobody waits for (O54): each row that answers a transfer stops where it finds none. -/
namespace Sys2Proof.Machine

/-! ### Rows that answer a transfer, where none is outstanding (R297, R433, R441, R459) -/

section
variable {s : State}

theorem exec_hostReturnNak_none {port : BitVec 5} (h : hostNaked s port false = none) (tag : BitVec 12) (par : BitVec 2) :
    exec (.hostReturnNak port tag par) s = .fault (.unsolicited "host return NAK") := by
  simp only [exec, execHostReturnNak, h]

theorem exec_hostCompletionNak_none {port : BitVec 5} (h : hostNaked s port true = none) (tag : BitVec 12)
    (par : BitVec 2) :
    exec (.hostCompletionNak port tag par) s = .fault (.unsolicited "host completion NAK") := by
  simp only [exec, execHostCompletionNak, h]

theorem exec_memoryReadReturn_none {ch : BitVec 5} {tag : BitVec 10} (h : flightOf s ch tag false = none) (data : Line)
    (par : BitVec 66) :
    exec (.memoryReadReturn ch tag data par) s = .fault (.unsolicited "memory read return") := by
  simp only [exec, execMemoryReadReturn, h]

theorem exec_confirmReadReturn_none {ch : BitVec 5} {tag : BitVec 10} (h : flightOf s ch tag false = none) (data : Line)
    (par : BitVec 66) :
    exec (.confirmReadReturn ch tag data par) s = .fault (.unsolicited "confirm read return") := by
  simp only [exec, execConfirmReadReturn, h]

theorem exec_stackReadback_none {ch : BitVec 5} {tag : BitVec 10} (h : flightOf s ch tag false = none) (n : BitVec 4)
    (data : Line) (par : BitVec 66) :
    exec (.streamReadbackReturn n (.stack ch tag data par)) s = .fault (.unsolicited "stream read-back") := by
  simp only [exec, execStreamReadbackReturn, h]

theorem exec_memoryReadNak_none {ch : BitVec 5} (h : flightNaked s ch false = none) (tag : BitVec 10) (par : BitVec 2) :
    exec (.memoryReadNak ch tag par) s = .fault (.unsolicited "memory read NAK") := by
  simp only [exec, execMemoryReadNak, h]

theorem exec_memoryWriteNak_none {ch : BitVec 5} (h : flightNaked s ch true = none) (tag : BitVec 10) (par : BitVec 2) :
    exec (.memoryWriteNak ch tag par) s = .fault (.unsolicited "memory write NAK") := by
  simp only [exec, execMemoryWriteNak, h]

theorem exec_farRequestNak_none {write : Bool}
    (h : s.far.out.find? (fun r => r.write == write && r.acc + 1 == portNow s) = none) (tag : BitVec 12)
    (par : BitVec 2) :
    exec (.farRequestNak write tag par) s = .fault (.unsolicited "far request NAK") := by
  simp only [exec, execFarRequestNak, h]

theorem exec_kstAck_none (h : s.kst.cur = none) (rdata : BitVec 32) (err : Bool) (par : BitVec 5) :
    exec (.kstAck rdata err par) s = .fault (.unsolicited "kst_ack") := by
  simp only [exec, execKstAck, h]

end

/-- Settles O54: each row by its branch that finds no transfer. -/
theorem unsolicitedAnswers : Obligations.UnsolicitedAnswers := by
  intro s port tag htag data par npar n rd err kpar
  refine ⟨fun h => ⟨_, exec_hostReturnNak_none h htag npar⟩, fun h => ⟨_, exec_hostCompletionNak_none h htag npar⟩,
    fun h => ⟨⟨_, exec_memoryReadReturn_none h data par⟩, ⟨_, exec_confirmReadReturn_none h data par⟩,
      ⟨_, exec_stackReadback_none h n data par⟩⟩,
    fun h => ⟨_, exec_memoryReadNak_none h tag npar⟩, fun h => ⟨_, exec_memoryWriteNak_none h tag npar⟩,
    fun write h => ⟨_, exec_farRequestNak_none h htag npar⟩, fun h => ⟨_, exec_kstAck_none h rd err kpar⟩⟩

end Sys2Proof.Machine

/-! PROOF. Host requests (O7): a request that meets a ready port by its parity, and what either leaves of the memory
path. -/
namespace Sys2Proof.Machine

/-! ### Failures in a row of a request (R296, R298) -/

section
variable (s : State) (port : BitVec 5) (write : Bool) (tag : BitVec 12)

/-- The count of a request's failures is the one that was set last; 0 takes it out. -/
theorem hostFailsOf_setHostFails (n : Nat) : hostFailsOf (setHostFails port write tag n s) port write tag = n := by
  have hrest : (s.mem.hostFails.filter (·.1 != (port, write, tag))).find? (·.1 == (port, write, tag)) = none := by
    simp [List.find?_eq_none]
  rw [hostFailsOf, setHostFails, setMem_mem]
  by_cases hn : n = 0
  · simp [hn, hrest]
  · simp [hn]

theorem hostFailsOf_of_hostFails {t : State} (h : t.mem.hostFails = s.mem.hostFails) :
    hostFailsOf t port write tag = hostFailsOf s port write tag := by
  rw [hostFailsOf, hostFailsOf, h]

/-- A request that comes again after a failure is counted as a replay (R314). -/
def replayCounted : State := if hostFailsOf s port write tag = 0 then s else countMp 0 1 s

theorem replayCounted_mem : ∃ cnt, (replayCounted s port write tag).mem = { s.mem with cnt := cnt } := by
  unfold replayCounted
  split
  · exact ⟨s.mem.cnt, rfl⟩
  · exact ⟨_, rfl⟩

theorem only_replayCounted {L : List Part} (hL : [.mem] ⊆ L) : OnlyChanges L s (replayCounted s port write tag) :=
  only_ite (only_refl _ s) (only_countMp 0 1 hL (only_refl _ s))

theorem replayCounted_portNow : portNow (replayCounted s port write tag) = portNow s :=
  congrArg Clocks.port ((only_replayCounted s port write tag (List.Subset.refl _)).part .clk (by decide))

/-- The NAK of a failed request, asserted in the next port cycle (R296, R297). -/
def hostNakDue : State :=
  let u := replayCounted s port write tag
  setMem (fun m => { m with hostNaks := m.hostNaks ++
    [{ port := port, write := write, tag := tag, cycle := portNow u + 1 }] }) u

/-- The request of good parity ends the failures in a row; a reserved class code is counted (R278). -/
def hostHeard (odd : Bool) : State :=
  let u := setHostFails port write tag 0 (replayCounted s port write tag)
  if odd then countMp 9 1 u else u

theorem hostHeard_mem (odd : Bool) : ∃ fails cnt, (hostHeard s port write tag odd).mem =
    { s.mem with hostFails := fails, cnt := cnt } := by
  obtain ⟨cnt, hcnt⟩ := replayCounted_mem s port write tag
  unfold hostHeard
  split
  · exact ⟨_, _, by rw [countMp_mem, setHostFails, setMem_mem, hcnt]⟩
  · exact ⟨_, cnt, by rw [setHostFails, setMem_mem, hcnt]⟩

theorem only_hostHeard (odd : Bool) : OnlyChanges [.mem] s (hostHeard s port write tag odd) := by
  have hclear : OnlyChanges [.mem] s (setHostFails port write tag 0 (replayCounted s port write tag)) :=
    only_setHostFails port write tag 0 (List.Subset.refl _) (only_replayCounted s port write tag (List.Subset.refl _))
  exact only_ite (only_countMp 9 1 (List.Subset.refl _) hclear) hclear

theorem hostHeard_portNow (odd : Bool) : portNow (hostHeard s port write tag odd) = portNow s :=
  congrArg Clocks.port ((only_hostHeard s port write tag odd).part .clk (by decide))

end

/-! ### An equation of hostRequest for each of its ends (R277, R278, R282, R286, R296, R298) -/

section
variable {s : State} {port : BitVec 5} {tag : BitVec 12} {req : BitVec 52} {write : Bool} {mask : BitVec 64} {data : Line}

theorem hostRequest_notReady (hready : hostReady s port write = false) (parity : Bool) :
    hostRequest port tag req write mask data parity s = s := by
  simp [hostRequest, hready]

theorem hostRequest_failed (hready : hostReady s port write = true) (hfails : hostFailsOf s port write tag + 1 < 3) :
    hostRequest port tag req write mask data false s =
      setHostFails port write tag (hostFailsOf s port write tag + 1) (hostNakDue s port write tag) := by
  simp only [hostRequest, hready, hostNakDue, replayCounted, Bool.not_true, Bool.false_eq_true, if_false, Bool.not_false,
    if_true, hfails.not_ge]

theorem hostRequest_fatal (hready : hostReady s port write = true) (hfails : 3 ≤ hostFailsOf s port write tag + 1) :
    ∃ x, hostRequest port tag req write mask data false s =
      portFatal x (setHostFails port write tag 0 (hostNakDue s port write tag)) := by
  simp only [hostRequest, hready, hostNakDue, replayCounted, Bool.not_true, Bool.false_eq_true, if_false, Bool.not_false,
    if_true, hfails]
  exact ⟨_, rfl⟩

/-- A request of good parity, as it is seen once heard: beyond the stack an error completion, else arbitration. -/
theorem hostRequest_heard (hready : hostReady s port write = true) :
    hostRequest port tag req write mask data true s =
      let u := hostHeard s port write tag (hostClass req write).2
      if beyondStack u (hostLine req) then
        hostSend { port := port, tag := tag, write := write, err := true, line := hostLine req
                   cls := (hostClass req write).1, acc := 0 } (countMp 8 1 u)
      else
        arbitrate { who := .host port tag, cls := (hostClass req write).1, write := write, line := hostLine req
                    mask := mask, data := data } u := by
  simp only [hostRequest, hready, hostHeard, replayCounted, Bool.not_true, Bool.false_eq_true, if_false]
  rfl

/-! ### What a request leaves -/

theorem hostTaken_hostRequest (hready : hostReady s port write = true) :
    HostTaken port tag req write mask data s (hostRequest port tag req write mask data true s) := by
  obtain ⟨fails, cnt, hmem⟩ := hostHeard_mem s port write tag (hostClass req write).2
  have honly := only_hostHeard s port write tag (hostClass req write).2
  have hnow := hostHeard_portNow s port write tag (hostClass req write).2
  have hbeyond : beyondStack (hostHeard s port write tag (hostClass req write).2) (hostLine req) =
      beyondStack s (hostLine req) := by rw [beyondStack, beyondStack, hmem]
  rw [hostRequest_heard hready]
  dsimp only
  rw [hbeyond]
  refine ⟨fun hin => ?_, fun hout => ?_, ?_⟩
  · rw [hin, if_neg Bool.false_ne_true, arbitrate, setMem_mem, hmem, hnow]
    exact ⟨rfl, rfl⟩
  · have hnext : hostNextCycle (countMp 8 1 (hostHeard s port write tag (hostClass req write).2)) port write =
        hostNextCycle s port write := by
      simp only [hostNextCycle, countMp_mem, hmem]
      exact congrArg (fun n => List.foldl _ n _) hnow
    rw [hout, if_pos rfl, hostSend, setMem_mem, countMp_mem, hmem]
    dsimp only
    rw [hnext]
    exact ⟨rfl, rfl⟩
  · exact only_ite (only_hostSend _ (List.Subset.refl _) (only_countMp 8 1 (List.Subset.refl _) honly))
      (only_arbitrate _ (List.Subset.refl _) honly)

theorem hostRefused_hostRequest (hready : hostReady s port write = true) :
    HostRefused port tag write s (hostRequest port tag req write mask data false s) := by
  obtain ⟨cnt, hmem⟩ := replayCounted_mem s port write tag
  have honly : OnlyChanges [.mem, .health] s (hostNakDue s port write tag) :=
    only_setMem _ (by decide) (only_replayCounted s port write tag (by decide))
  have hcount (n : Nat) : OnlyChanges [.mem, .health] s (setHostFails port write tag n (hostNakDue s port write tag)) :=
    only_setHostFails port write tag n (by decide) honly
  have hset (n : Nat) : ∃ fails, (setHostFails port write tag n (hostNakDue s port write tag)).mem = { s.mem with
      cnt := cnt, hostFails := fails
      hostNaks := s.mem.hostNaks ++ [{ port := port, write := write, tag := tag, cycle := portNow s + 1 }] } := by
    simp only [setHostFails, hostNakDue, setMem_mem, hmem, replayCounted_portNow]
    exact ⟨_, rfl⟩
  by_cases hfails : hostFailsOf s port write tag + 1 < 3
  · rw [hostRequest_failed hready hfails]
    obtain ⟨fails, hleft⟩ := hset (hostFailsOf s port write tag + 1)
    refine ⟨by rw [hleft], by rw [hleft], by rw [hleft], fun _ => hostFailsOf_setHostFails _ _ _ _ _,
      fun h => absurd hfails h.not_gt, hcount _⟩
  · obtain ⟨x, hfatal⟩ := hostRequest_fatal (req := req) (mask := mask) (data := data) hready (not_lt.mp hfails)
    obtain ⟨fails, hleft⟩ := hset 0
    rw [hfatal]
    refine ⟨?_, ?_, ?_, fun h => absurd h hfails, fun _ => ⟨?_, ?_⟩, only_portFatal x (by decide) (hcount 0)⟩
    · rw [portFatal_mem, hleft]
    · rw [portFatal_mem, hleft]
    · rw [portFatal_mem, hleft]
    · exact (hostFailsOf_of_hostFails _ _ _ _ (by rw [portFatal_mem])).trans (hostFailsOf_setHostFails _ _ _ _ 0)
    · exact portFatal_fault_valid x _

theorem exec_hostReadRequest (hopen : hostOpen s = true) (par : BitVec 8) : exec (.hostReadRequest port tag req par) s =
    .next (hostRequest port tag req false 0 0 (parityOk (req ++ tag) par) s) :=
  congrArg Host.Outcome.next (if_pos hopen)

theorem exec_hostWriteRequest (hopen : hostOpen s = true) (par : BitVec 80) :
    exec (.hostWriteRequest port tag req mask data par) s =
      .next (hostRequest port tag req true mask data (parityOk (data ++ mask ++ (req ++ tag)) par) s) :=
  congrArg Host.Outcome.next (if_pos hopen)

end

/-- R277, R278, R282, R435. -/
theorem hostRequestsEnter : Rules.HostRequestsEnter := by
  intro s port tag req mask data rpar wpar hopen
  refine ⟨fun hready hpar => ⟨_, exec_hostReadRequest hopen rpar, ?_⟩,
    fun hready hpar => ⟨_, exec_hostWriteRequest hopen wpar, ?_⟩⟩
  · rw [hpar]
    exact hostTaken_hostRequest hready
  · rw [hpar]
    exact hostTaken_hostRequest hready

/-- R296, R298, R309. -/
theorem hostRequestParityFailure : Rules.HostRequestParityFailure := by
  intro s port tag req mask data rpar wpar hopen
  refine ⟨fun hready hpar => ⟨_, exec_hostReadRequest hopen rpar, ?_⟩,
    fun hready hpar => ⟨_, exec_hostWriteRequest hopen wpar, ?_⟩⟩
  · rw [hpar]
    exact hostRefused_hostRequest hready
  · rw [hpar]
    exact hostRefused_hostRequest hready

/-- R286, R306. -/
theorem hostPortNotReady : Rules.HostPortNotReady := by
  intro s port tag req mask data rpar wpar hopen
  refine ⟨fun hready => ?_, fun hready => ?_⟩
  · rw [exec_hostReadRequest hopen, hostRequest_notReady hready]
  · rw [exec_hostWriteRequest hopen, hostRequest_notReady hready]

/-- Settles O7: a request by its parity, which either ends its failures in a row and lets it enter or be turned back,
or raises their count to the third; a port that is not ready takes nothing. -/
theorem hostRequests : Obligations.HostRequests :=
  ⟨hostRequestsEnter, hostRequestParityFailure, hostPortNotReady⟩

end Sys2Proof.Machine

/-! PROOF. What the memory path does in time (O11): the write-combining buffer, the tadpole path's ages, the end of a
regulator window. -/
namespace Sys2Proof.Machine

/-! ### Merged writes and tadpole pieces (R301, R304) -/

section
variable {s : State}

theorem exec_wcbTimeout {line : BitVec 34} {e : WcbEntry} (hrun : running s = true)
    (hentry : s.mem.wcb.find? (·.line == line) = some e) :
    exec (.wcbTimeout line) s = .next (if e.opened + 16 ≤ portNow s then wcbFlush e s else s) := by
  simp only [exec, execWcbTimeout, wcbTimeout, hrun, hentry, if_true]

/-- R301. -/
theorem wcbEntryLeaves : Rules.WcbEntryLeaves := by
  intro s line e hrun hentry
  rw [exec_wcbTimeout hrun hentry]
  refine ⟨fun hdue => ?_, fun hearly => by rw [if_neg hearly.not_ge]⟩
  rw [if_pos hdue]
  exact ⟨_, rfl, rfl, ⟨_, rfl, rfl, rfl, rfl, rfl, rfl⟩, only_wcbFlush e (List.Subset.refl _) (only_refl _ s)⟩

/-- A mark set where a condition holds, as a disjunction. -/
theorem aged_of_due (p : Bool) (w : Waiting) (now : Nat) :
    (if (p && decide (w.since + 2048 ≤ now)) = true then { w with aged := true } else w) =
      { w with aged := w.aged || (p && decide (w.since + 2048 ≤ now)) } := by
  by_cases h : (p && decide (w.since + 2048 ≤ now)) = true
  · rw [if_pos h, h, Bool.or_true]
  · rw [if_neg h, Bool.not_eq_true _ |>.mp h, Bool.or_false]

/-- R304. -/
theorem tadpoleAges : Rules.TadpoleAges := by
  intro s ch hrun
  -- a piece that has waited 2,048 port cycles has entered
  have hsince (w : Waiting) : (w.req.cls == .tadpole && decide (w.since ≤ portNow s) && channelOf s w.req.line == ch &&
      decide (w.since + 2048 ≤ portNow s)) =
      (w.req.cls == .tadpole && channelOf s w.req.line == ch && decide (w.since + 2048 ≤ portNow s)) := by
    by_cases hdue : w.since + 2048 ≤ portNow s
    · have : w.since ≤ portNow s := by omega
      simp [hdue, this]
    · simp [hdue]
  have hmap : tadpoleAge ch s = { s with mem := { s.mem with waiting := s.mem.waiting.map fun w =>
      { w with aged := w.aged || (w.req.cls == .tadpole && channelOf s w.req.line == ch &&
        decide (w.since + 2048 ≤ portNow s)) } } } := by
    simp only [tadpoleAge, setMem, hsince, aged_of_due]
  rw [← hmap]
  exact congrArg Host.Outcome.next (if_pos hrun)

end

/-! ### The end of a regulator window (R289, R291, R292, R313-R316) -/

/-- From m to n nothing has changed but the effective guarantees, SHORTFALL, what CHANNEL_IMBALANCE rests on, and the
counters. -/
def OnlyJudged (m n : MemPath) : Prop := n = { m with
  effG := n.effG, shortfall := n.shortfall, imbRun := n.imbRun, balRun := n.balRun, imbChannel := n.imbChannel
  imbClass := n.imbClass, imbalance := n.imbalance, cnt := n.cnt }

theorem OnlyJudged.trans {m n k : MemPath} (hmn : OnlyJudged m n) (hnk : OnlyJudged n k) : OnlyJudged m k := by
  have hk : k = { n with
    effG := k.effG, shortfall := k.shortfall, imbRun := k.imbRun, balRun := k.balRun, imbChannel := k.imbChannel
    imbClass := k.imbClass, imbalance := k.imbalance, cnt := k.cnt } := hnk
  rw [hmn] at hk
  exact hk

theorem rescale_onlyJudged (s : State) : OnlyJudged s.mem (rescale s).mem := by
  simp only [rescale]
  split
  · exact Eq.refl _
  · exact Eq.refl _

theorem judgeImbalance_onlyJudged (s : State) : OnlyJudged s.mem (judgeImbalance s).mem := by
  simp only [judgeImbalance]
  split
  · split
    · exact Eq.refl _
    · exact Eq.refl _
  · exact Eq.refl _

/-- The window that ends, judged: SHORTFALL counts, then CHANNEL_IMBALANCE. -/
def windowJudged (s : State) : State := judgeImbalance (if s.mem.shortfall then countMp 4 1 s else s)

theorem windowJudged_onlyJudged (s : State) : OnlyJudged s.mem (windowJudged s).mem := by
  refine .trans ?_ (judgeImbalance_onlyJudged _)
  split
  · exact Eq.refl _
  · exact Eq.refl _

/-- The window that begins: it counts from 0, at the level of R292. -/
def MemPath.nextWindow (m : MemPath) : MemPath :=
  let w : Int := Int.ofNat m.window + 1
  let level := nextLevel m.thermal w
  { m with
    window := m.window + 1, usedLast := m.used, used := List.replicate 8 0, throttledUsed := 0
    chans := m.chans.map ChanStat.close
    thermal := { m.thermal with level := level, changedWin := if level = m.thermal.level then m.thermal.changedWin else w } }

theorem windowEnd_eq (s : State) : windowEnd s = rescale (setMem MemPath.nextWindow (windowJudged s)) := rfl

theorem exec_regulatorWindowBoundary {s : State} (hrun : running s = true)
    (hdue : 1024 * (s.mem.window + 1) ≤ portNow s) : exec .regulatorWindowBoundary s = .next (windowEnd s) := by
  simp [exec, execRegulatorWindowBoundary, hrun, hdue]

/-- R289, R291, R292, R313, R315. -/
theorem windowBoundary : Rules.WindowBoundary := by
  intro s hrun hdue
  have hjudged : (windowJudged s).mem = _ := windowJudged_onlyJudged s
  have hbegun : (rescale (setMem MemPath.nextWindow (windowJudged s))).mem = _ := rescale_onlyJudged _
  refine ⟨_, exec_regulatorWindowBoundary hrun hdue, ?_⟩
  rw [windowEnd_eq, hbegun, setMem_mem, hjudged]
  exact ⟨rfl, rfl, rfl, rfl, rfl, rfl, rfl, rfl⟩

/-- Settles O11: an entry's age, a piece's age, and a window's end by what judging it leaves. -/
theorem memoryTimers : Obligations.MemoryTimers := ⟨wcbEntryLeaves, tadpoleAges, windowBoundary⟩

end Sys2Proof.Machine

/-! PROOF. Thermal reports (O12): what pause and target leave of the thermal state, and each report by its checks. -/
namespace Sys2Proof.Machine

/-! ### The pause and the target level (R292, R293) -/

section
variable (s : State)

theorem setPaused_mem (p : Bool) :
    (setPaused p s).mem = { s.mem with thermal := { s.mem.thermal with paused := p } } := by
  unfold setPaused
  split
  case isTrue h =>
    have hp : s.mem.thermal.paused = p := eq_of_beq h
    rw [← hp]
  case isFalse => rw [pulse_mem]; rfl

theorem setTarget_mem (target : Nat) : (setTarget target s).mem = { s.mem with thermal := { s.mem.thermal with
    target := target
    highWin := if s.mem.thermal.level ≤ target then Int.ofNat s.mem.window + 1 else s.mem.thermal.highWin } } := rfl

end

/-! ### Reports and their absence (R293, R294, R457) -/

section
variable {s : State} {temp limit : BitVec 8} {par : BitVec 2}

/-- The pause that a report leaves: at or above the limit, and on until 2 degrees below. -/
def pausedBy (s : State) (temp limit : BitVec 8) : Bool :=
  if limit.toInt ≤ temp.toInt then true else if temp.toInt ≤ limit.toInt - 2 then false else s.mem.thermal.paused

theorem pausedBy_eq : pausedBy s temp limit = (decide (limit.toInt ≤ temp.toInt) ||
    (s.mem.thermal.paused && decide (limit.toInt - 2 < temp.toInt))) := by
  unfold pausedBy
  split
  case isTrue h => rw [decide_eq_true h, Bool.true_or]
  case isFalse h =>
    rw [decide_eq_false h, Bool.false_or]
    split
    case isTrue hlow => rw [decide_eq_false hlow.not_gt, Bool.and_false]
    case isFalse hlow => rw [decide_eq_true (not_le.mp hlow), Bool.and_true]

/-- A good report as it is taken, before the pause and the target follow it. -/
def reportTaken (temp limit : BitVec 8) (s : State) : State :=
  setThermal (fun t => { t with valid := true, stale := false, temp := temp, limit := limit, lastGood := now s }) s

theorem thermalReport_good (hgood : reportGood s temp limit par = true) : thermalReport temp limit par s =
    setTarget (targetLevel s temp limit (pausedBy s temp limit))
      (setPaused (pausedBy s temp limit) (reportTaken temp limit s)) := by
  rw [thermalReport, hgood]
  rfl

theorem thermalReport_bad (hbad : reportGood s temp limit par = false) :
    thermalReport temp limit par s = countPort 8 1 s := by
  rw [thermalReport, hbad]
  rfl

theorem exec_thermalReport (hrun : running s = true) : exec (.thermalReport temp limit par) s =
    .next (if s.mem.thermal.paused && !(thermalReport temp limit par s).mem.thermal.paused
      then pauseEnded (thermalReport temp limit par s) else thermalReport temp limit par s) :=
  congrArg Host.Outcome.next (if_pos hrun)

theorem thermalReport_good_thermal (hgood : reportGood s temp limit par = true) :
    ∃ high, (thermalReport temp limit par s).mem.thermal = { s.mem.thermal with
      valid := true, stale := false, temp := temp, limit := limit, lastGood := now s
      paused := pausedBy s temp limit, target := targetLevel s temp limit (pausedBy s temp limit), highWin := high } := by
  rw [thermalReport_good hgood, setTarget_mem, setPaused_mem]
  exact ⟨_, rfl⟩

theorem only_goodReport (hgood : reportGood s temp limit par = true) :
    OnlyChanges [.mem, .evt] s (thermalReport temp limit par s) := by
  rw [thermalReport_good hgood]
  exact only_setTarget _ (by decide) (only_setPaused _ (by decide) (only_setThermal _ (by decide) (only_refl _ s)))

theorem exec_thermalStale (hrun : running s = true) (hstale : s.mem.thermal.stale = false)
    (hdue : s.mem.thermal.lastGood + 480000 ≤ now s) : exec .thermalStale s =
      .next (setTarget 7 (setPaused true (report 0x0602 0 (setThermal (fun t => { t with stale := true }) s)))) := by
  simp only [exec, execThermalStale, thermalStale, hrun, hstale, hdue, Bool.not_false, Bool.true_and, decide_true, if_true]

end

/-- Settles O12: a good report by what the pause and the target leave, a bad one by its count, the absence of reports by
the same two. -/
theorem thermalReports : Obligations.ThermalReports := by
  intro s temp limit par hrun
  refine ⟨fun hgood => ?_, fun hbad => ?_, fun hstale hdue => ?_⟩
  · obtain ⟨high, hthermal⟩ := thermalReport_good_thermal hgood
    refine ⟨thermalReport temp limit par s, exec_thermalReport hrun, ?_⟩
    rw [hthermal]
    exact ⟨rfl, rfl, rfl, rfl, rfl, pausedBy_eq, rfl, rfl, only_goodReport hgood⟩
  · rw [exec_thermalReport hrun, thermalReport_bad hbad, countPort_mem, Bool.and_not_self]
    rfl
  · refine ⟨_, exec_thermalStale hrun hstale hdue, ?_⟩
    rw [setTarget_mem, setPaused_mem]
    exact ⟨rfl, rfl, rfl⟩

end Sys2Proof.Machine

/-! PROOF. NAKs and NAK cycles (O6): what a NAK leaves of a host transfer and of a memory transfer, before the third
failure in a row and, at a host port, after it. -/
namespace Sys2Proof.Machine

/-! ### The ends of NAK cycles (R297, R436, R437) -/

section
variable {s : State} {port : BitVec 5} {tag : BitVec 12}

theorem exec_nakCycleEnd_read {f : Flight} (hf : flightOf s port (tag.setWidth 10) false = some f)
    (hdue : f.acc + 1 ≤ portNow s) (hopen : f.settled = false) :
    exec (.nakCycleEnd .memRead port tag) s = .next (memSettled f s) := by
  simp only [exec, execNakCycleEnd, nakCycleEnd, hf, hdue, hopen, decide_true, Bool.not_false, Bool.and_self, if_true]

theorem exec_nakCycleEnd_write {f : Flight} (hf : flightOf s port (tag.setWidth 10) true = some f)
    (hdue : f.acc + 1 ≤ portNow s) (hopen : f.settled = false) :
    exec (.nakCycleEnd .memWrite port tag) s = .next (memSettled f s) := by
  simp only [exec, execNakCycleEnd, nakCycleEnd, hf, hdue, hopen, decide_true, Bool.not_false, Bool.and_self, if_true]

/-- A flight that a return names is of its port, its tag and its kind. -/
theorem flightOf_names {s : State} {ch : BitVec 5} {t : BitVec 10} {write : Bool} {f : Flight}
    (hf : flightOf s ch t write = some f) : f.chan = ch ∧ f.tag = t ∧ f.req.write = write := by
  have hnames := List.find?_some hf
  simp only [Bool.and_eq_true, beq_iff_eq] at hnames
  obtain ⟨⟨⟨hchan, htag⟩, hwrite⟩, _⟩ := hnames
  exact ⟨hchan, htag, hwrite⟩

theorem memSettled_read {f : Flight} (hread : f.req.write = false) : memSettled f s = setMem (fun m => { m with
    flights := m.flights.map fun x =>
      if x.chan == f.chan && x.tag == f.tag then { x with settled := true } else x }) s := by
  rw [memSettled, hread]
  rfl

/-- R297, R436, R437. -/
theorem nakCycleEndsOfOtherTransfers : Rules.NakCycleEndsOfOtherTransfers := by
  intro s port tag
  refine ⟨fun f hf hdue hopen => ?_, fun h hh => ?_, fun h hh => ?_⟩
  · obtain ⟨_, _, hread⟩ := flightOf_names hf
    rw [exec_nakCycleEnd_read hf hdue hopen, memSettled_read hread]
  · simp only [exec, execNakCycleEnd, nakCycleEnd, hh, dropHostOut]
  · simp only [exec, execNakCycleEnd, nakCycleEnd, hh, dropHostOut]

end

/-! ### A NAK at a host port (R296, R298, R309, R433, R437) -/

section
variable {s : State} {port : BitVec 5} {h : HostOut}

theorem exec_hostReturnNak (hh : hostNaked s port false = some h) (got : BitVec 12) (par : BitVec 2) :
    exec (.hostReturnNak port got par) s = .next (hostNak h (nakTag h.tag got par s)) := by
  simp only [exec, execHostReturnNak, hh]

theorem exec_hostCompletionNak (hh : hostNaked s port true = some h) (got : BitVec 12) (par : BitVec 2) :
    exec (.hostCompletionNak port got par) s = .next (hostNak h (nakTag h.tag got par s)) := by
  simp only [exec, execHostCompletionNak, hh]

theorem hostNaked_write {write : Bool} (hh : hostNaked s port write = some h) : h.write = write := by
  have hnames := List.find?_some hh
  simp only [Bool.and_eq_true, beq_iff_eq] at hnames
  exact hnames.1.2

theorem nakTag_mem {n : Nat} (want got : BitVec n) (par : BitVec 2) : (nakTag want got par s).mem = s.mem := by
  unfold nakTag
  split
  · rfl
  · rfl

theorem nakTag_portNow {n : Nat} (want got : BitVec n) (par : BitVec 2) : portNow (nakTag want got par s) = portNow s := by
  unfold nakTag
  split
  · rfl
  · rfl

theorem nakTag_far {n : Nat} (want got : BitVec n) (par : BitVec 2) :
    (nakTag want got par s).far = (if want = got ∧ parityOk got par = true then s else countPort 6 1 s).far := by
  simp only [nakTag, Bool.and_eq_true, decide_eq_true_eq]

end

section
variable (s : State) (h : HostOut)

/-- What is still to be driven of the port and direction of a transfer, one port cycle later (R298). -/
def delayedOuts (from' : Nat) (xs : List HostOut) : List HostOut :=
  xs.map fun x => if x.port == h.port && x.write == h.write && decide (from' ≤ x.acc) then { x with acc := x.acc + 1 } else x

/-- Making way moves the completions noted for the tongue, which is no part of the memory path. -/
theorem only_movedTaken (from' : Nat) (xs : List HostOut) : OnlyChanges [.tongue] s (xs.foldl (fun s x =>
    if (x.port == h.port && x.write == h.write && decide (from' ≤ x.acc)) && x.write
    then moveTaken x.port x.tag x.acc (some (x.acc + 1)) s else s) s) :=
  only_foldl (only_refl _ s) fun _ _ hx => only_ite (only_moveTaken _ _ _ _ (List.Subset.refl _) hx) hx

theorem makeWay_mem (from' : Nat) :
    (makeWay h from' s).mem = { s.mem with hostOut := delayedOuts h from' s.mem.hostOut } := by
  have hmem := (only_movedTaken s h from' s.mem.hostOut.reverse).part .mem (by decide)
  exact congrArg (fun m : MemPath => { m with hostOut := delayedOuts h from' m.hostOut }) hmem

/-- Before a read return no completion moves, so nothing is noted anew. -/
theorem makeWay_return (hread : h.write = false) (from' : Nat) : makeWay h from' s =
    setMem (fun m => { m with hostOut := delayedOuts h from' m.hostOut }) s := by
  have hstill (x : HostOut) :
      ((x.port == h.port && x.write == h.write && decide (from' ≤ x.acc)) && x.write) = false := by
    rw [hread]
    cases x.write <;> simp
  have hfold (xs : List HostOut) : xs.foldl (fun s x =>
      if (x.port == h.port && x.write == h.write && decide (from' ≤ x.acc)) && x.write
      then moveTaken x.port x.tag x.acc (some (x.acc + 1)) s else s) s = s := by
    simp only [hstill, Bool.false_eq_true, if_false, List.foldl_fixed]
  unfold makeWay
  dsimp only
  rw [hfold]
  rfl

/-- A completion that is driven again is noted for the tongue with its new port cycle, or with none (R437). -/
def completionMoved (to' : Option Nat) : State := if h.write then moveTaken h.port h.tag h.acc to' s else s

theorem completionMoved_mem (to' : Option Nat) : (completionMoved s h to').mem = s.mem := by
  unfold completionMoved
  split
  · rfl
  · rfl

theorem completionMoved_return (hread : h.write = false) (to' : Option Nat) : completionMoved s h to' = s := by
  rw [completionMoved, hread]
  rfl

theorem hostNak_again (hfails : h.fails + 1 < 3) : hostNak h s = countMp 0 1 (setMem (fun m => { m with hostOut :=
    m.hostOut ++ [{ h with fails := h.fails + 1, acc := portNow s + 1 }] })
      (completionMoved (makeWay h (portNow s + 1) (dropHostOut h s)) h (some (portNow s + 1)))) := by
  simp only [hostNak, completionMoved, hfails, if_true]
  rfl

theorem hostNak_again_mem (hfails : h.fails + 1 < 3) : (hostNak h s).mem = { s.mem with
    hostOut := Rules.DrivenAgain s h, cnt := bump s.mem.cnt 0 1 } := by
  rw [hostNak_again s h hfails, countMp_mem, setMem_mem, completionMoved_mem, makeWay_mem]
  rfl

/-- The transfer that has failed for good, given up (R309). -/
theorem hostNak_gives_up (hfails : 3 ≤ h.fails + 1) : ∃ x, hostNak h s =
    let u := completionMoved (portFatal x (dropHostOut h s)) h none
    if h.write || h.err then u else hostSend { h with err := true, data := 0, fails := 0 } u := by
  simp only [hostNak, completionMoved, hfails.not_gt, if_false]
  exact ⟨_, rfl⟩

end

section
variable {s : State} {port : BitVec 5} {h : HostOut} {got : BitVec 12} {nakPar : BitVec 2}

theorem drivenAgain_nakTag : Rules.DrivenAgain (nakTag h.tag got nakPar s) h = Rules.DrivenAgain s h := by
  rw [Rules.DrivenAgain, Rules.DrivenAgain, nakTag_mem, nakTag_portNow]

/-- What a NAK before the third failure leaves of the memory path and of the counts of NAK tags. -/
theorem naked_again (hfails : h.fails + 1 < 3) :
    (hostNak h (nakTag h.tag got nakPar s)).mem.hostOut = Rules.DrivenAgain s h ∧
      bumpedAt s.mem.cnt (hostNak h (nakTag h.tag got nakPar s)).mem.cnt 0 ∧
      (hostNak h (nakTag h.tag got nakPar s)).far =
        (if h.tag = got ∧ parityOk got nakPar = true then s else countPort 6 1 s).far := by
  have hfar : (hostNak h (nakTag h.tag got nakPar s)).far = (nakTag h.tag got nakPar s).far :=
    (only_hostNak h (List.Subset.refl _) (only_refl _ _)).part .far (by decide)
  rw [hfar, nakTag_far, hostNak_again_mem _ h hfails, nakTag_mem, drivenAgain_nakTag]
  exact ⟨rfl, bumpedAt_bump _ 0, rfl⟩

theorem only_nakedAgain (hfails : h.fails + 1 < 3) :
    OnlyChanges [.mem, .tongue, .far] s (hostNak h (nakTag h.tag got nakPar s)) := by
  rw [hostNak_again _ h hfails]
  refine only_countMp _ _ (by decide) (only_setMem _ (by decide) ?_)
  have hway : OnlyChanges [.mem, .tongue, .far] s
      (makeWay h (portNow (nakTag h.tag got nakPar s) + 1) (dropHostOut h (nakTag h.tag got nakPar s))) :=
    only_makeWay h _ (by decide) (only_dropHostOut h (by decide) (only_nakTag _ _ _ (by decide) (only_refl _ s)))
  exact only_ite (only_moveTaken _ _ _ _ (by decide) hway) hway

theorem only_returnNakedAgain (hread : h.write = false) (hfails : h.fails + 1 < 3) :
    OnlyChanges [.mem, .far] s (hostNak h (nakTag h.tag got nakPar s)) := by
  rw [hostNak_again _ h hfails, completionMoved_return _ h hread, makeWay_return _ h hread]
  exact only_countMp _ _ (by decide) (only_setMem _ (by decide) (only_setMem _ (by decide)
    (only_dropHostOut h (by decide) (only_nakTag _ _ _ (by decide) (only_refl _ s)))))

/-- R296, R297, R298, R433, R437. -/
theorem hostNakReplays : Rules.HostNakReplays := by
  intro s port h got nakPar hfails
  obtain ⟨hout, hcnt, hfar⟩ := naked_again (s := s) (got := got) (nakPar := nakPar) hfails
  exact ⟨fun hh => ⟨_, exec_hostReturnNak hh got nakPar, hout, hcnt, hfar,
      only_returnNakedAgain (hostNaked_write hh) hfails⟩,
    fun hh => ⟨_, exec_hostCompletionNak hh got nakPar, hout, hcnt, hfar, only_nakedAgain hfails⟩⟩

/-- The transfer given up is counted and latched, and no longer among those that may be driven again. -/
theorem givenUp_mem (x : FatalXfer) : ∃ fault : FaultLatch, fault.valid = true ∧
    (completionMoved (portFatal x (dropHostOut h (nakTag h.tag got nakPar s))) h none).mem = { s.mem with
      hostOut := s.mem.hostOut.filter fun y =>
        y.port != h.port || y.write != h.write || y.tag != h.tag || y.acc != h.acc
      cnt := bump s.mem.cnt 1 1, fault := fault } := by
  rw [completionMoved_mem, portFatal_mem, dropHostOut, setMem_mem, nakTag_mem]
  exact ⟨_, FaultLatch.take_valid _ _ _, rfl⟩

/-- R298, R309. -/
theorem hostNakFatal : Rules.HostNakFatal := by
  intro s port h got nakPar hfails
  obtain ⟨x, hup⟩ := hostNak_gives_up (nakTag h.tag got nakPar s) h hfails
  obtain ⟨fault, hvalid, hmem⟩ := givenUp_mem (s := s) (h := h) (got := got) (nakPar := nakPar) x
  refine ⟨fun hh => ⟨_, exec_hostReturnNak hh got nakPar, ?_⟩, fun hh => ⟨_, exec_hostCompletionNak hh got nakPar, ?_⟩⟩
  · rw [hup, hostNaked_write hh, Bool.false_or]
    dsimp only
    split
    case isTrue herr =>
      rw [hmem]
      exact ⟨hvalid, bumpedAt_bump _ 1, fun hgood => absurd herr (by rw [hgood]; exact Bool.false_ne_true)⟩
    case isFalse =>
      rw [hostSend, setMem_mem, hmem]
      exact ⟨hvalid, bumpedAt_bump _ 1, fun _ =>
        ⟨_, List.mem_append_right _ (List.mem_singleton_self _), rfl, rfl, (hostNaked_write hh).symm ▸ rfl, rfl, rfl⟩⟩
  · rw [hup, hostNaked_write hh, Bool.true_or, if_pos rfl, hmem]
    exact ⟨hvalid, bumpedAt_bump _ 1, by rw [hostNaked_write hh]⟩

end

/-! ### A NAK at a memory channel port (R296, R298, R299, R433) -/

section
variable {s : State} {ch : BitVec 5} {f : Flight}

theorem exec_memoryReadNak (hf : flightNaked s ch false = some f) (got : BitVec 10) (par : BitVec 2) :
    exec (.memoryReadNak ch got par) s = .next (memNak f got par s) := by
  simp only [exec, execMemoryReadNak, hf]

theorem exec_memoryWriteNak (hf : flightNaked s ch true = some f) (got : BitVec 10) (par : BitVec 2) :
    exec (.memoryWriteNak ch got par) s = .next (memNak f got par s) := by
  simp only [exec, execMemoryWriteNak, hf]

theorem flightNaked_write {write : Bool} (hf : flightNaked s ch write = some f) : f.req.write = write := by
  have hnames := List.find?_some hf
  simp only [Bool.and_eq_true, beq_iff_eq] at hnames
  exact hnames.1.1.2

/-- The transfer fails once more and is issued again from a port cycle on. -/
def Flight.again (f : Flight) (from' : Nat) (x : Flight) : Flight :=
  if x.chan == f.chan && x.tag == f.tag then { x with fails := x.fails + 1, replay := some from' } else x

theorem flightFailed_again (hfails : f.fails + 1 < 3) (from' : Nat) (s : State) :
    flightFailed f from' s = setMem (fun m => { m with flights := m.flights.map (f.again from') }) s :=
  if_pos hfails

theorem memNak_read (hread : f.req.write = false) (hvoid : f.void = false) (hfails : f.fails + 1 < 3) (got : BitVec 10)
    (par : BitVec 2) : memNak f got par s = setMem (fun m => { m with flights := m.flights.map (f.again (portNow s + 1)) })
      (nakTag f.tag got par s) := by
  rw [memNak, hread, hvoid, if_neg Bool.false_ne_true, if_neg Bool.false_ne_true, flightFailed_again hfails,
    nakTag_portNow]

/-- A confirm read on its way, void when its write is NAKed. -/
def Flight.voidedBy (who : Who) (f : Flight) : Flight := if who.confirms f.req.who then { f with void := true } else f

theorem Flight.voidedBy_frame (who : Who) (f : Flight) : ∃ v, f.voidedBy who = { f with void := v } := by
  unfold Flight.voidedBy
  split
  · exact ⟨true, rfl⟩
  · exact ⟨f.void, rfl⟩

theorem voidConfirm_lists (who : Who) (s : State) :
    (voidConfirm who s).mem.flights = s.mem.flights.map (Flight.voidedBy who) ∧
      (voidConfirm who s).mem.waiting = s.mem.waiting.filter fun w => !who.confirms w.req.who := by
  simp only [voidConfirm]
  split
  · exact ⟨rfl, rfl⟩
  · exact ⟨rfl, rfl⟩

/-- The confirm reads of the requesters of a write are taken with it, one requester after the other. -/
def voidConfirms (whos : List Who) (s : State) : State := whos.foldl (fun s w => voidConfirm w s) s

theorem only_voidConfirms (whos : List Who) (s : State) : OnlyChanges [.mem] s (voidConfirms whos s) :=
  only_foldl (only_refl _ s) fun _ _ hx => only_voidConfirm _ (List.Subset.refl _) hx

theorem voidConfirms_portNow (whos : List Who) (s : State) : portNow (voidConfirms whos s) = portNow s :=
  congrArg Clocks.port ((only_voidConfirms whos s).part .clk (by decide))

theorem memNak_write (hwrite : f.req.write = true) (hvoid : f.void = false) (hfails : f.fails + 1 < 3) (got : BitVec 10)
    (par : BitVec 2) : memNak f got par s = setMem (fun m => { m with flights := m.flights.map (f.again (portNow s + 1)) })
      (voidConfirms (f.req.who :: f.req.also) (nakTag f.tag got par s)) := by
  have hnow := (voidConfirms_portNow (f.req.who :: f.req.also) (nakTag f.tag got par s)).trans
    (nakTag_portNow f.tag got par)
  rw [memNak, hwrite, hvoid, if_pos rfl, if_neg Bool.false_ne_true, flightFailed_again hfails, ← hnow]
  rfl

/-- Every flight stands where it stood, void or not. -/
theorem voidConfirms_keeps {x : Flight} (whos : List Who) (s : State) (hx : x ∈ s.mem.flights) :
    ∃ v, { x with void := v } ∈ (voidConfirms whos s).mem.flights := by
  induction whos generalizing s x with
  | nil => exact ⟨x.void, hx⟩
  | cons who whos ih =>
    obtain ⟨v, hv⟩ := x.voidedBy_frame who
    have hmem : { x with void := v } ∈ (voidConfirm who s).mem.flights := by
      rw [(voidConfirm_lists who s).1, ← hv]
      exact List.mem_map_of_mem hx
    exact ih (x := { x with void := v }) _ hmem

/-- No flight loses its mark, and no request that waits enters. -/
theorem voidConfirms_voids {P : Who → Bool} (whos : List Who) (s : State)
    (hflights : ∀ g ∈ s.mem.flights, P g.req.who = true → g.void = true)
    (hwaiting : ∀ w ∈ s.mem.waiting, P w.req.who = false) :
    (∀ g ∈ (voidConfirms whos s).mem.flights, P g.req.who = true → g.void = true) ∧
      ∀ w ∈ (voidConfirms whos s).mem.waiting, P w.req.who = false := by
  induction whos generalizing s with
  | nil => exact ⟨hflights, hwaiting⟩
  | cons who whos ih =>
    obtain ⟨hmap, hfilter⟩ := voidConfirm_lists who s
    refine ih _ (fun g hg hP => ?_) fun w hw => hwaiting w (List.mem_of_mem_filter (hfilter ▸ hw))
    rw [hmap] at hg
    obtain ⟨x, hx, rfl⟩ := List.mem_map.mp hg
    unfold Flight.voidedBy at hP ⊢
    split
    case isTrue => rfl
    case isFalse hother =>
      rw [if_neg hother] at hP
      exact hflights x hx hP

theorem voidConfirms_head (who : Who) (whos : List Who) (s : State) :
    (∀ g ∈ (voidConfirms (who :: whos) s).mem.flights, who.confirms g.req.who = true → g.void = true) ∧
      ∀ w ∈ (voidConfirms (who :: whos) s).mem.waiting, who.confirms w.req.who = false := by
  obtain ⟨hmap, hfilter⟩ := voidConfirm_lists who s
  refine voidConfirms_voids whos (voidConfirm who s) (fun g hg hP => ?_) fun w hw => ?_
  · rw [hmap] at hg
    obtain ⟨x, _, rfl⟩ := List.mem_map.mp hg
    obtain ⟨v, hv⟩ := x.voidedBy_frame who
    have hx : who.confirms x.req.who = true := by rw [hv] at hP; exact hP
    rw [Flight.voidedBy, if_pos hx]
  · rw [hfilter] at hw
    simpa using List.of_mem_filter hw

theorem Flight.again_keeps (f : Flight) (from' : Nat) (x : Flight) :
    (f.again from' x).req = x.req ∧ (f.again from' x).void = x.void := by
  unfold Flight.again
  split
  · exact ⟨rfl, rfl⟩
  · exact ⟨rfl, rfl⟩

/-- R296, R298, R299, R433. -/
theorem memoryNaksReplay : Rules.MemoryNaksReplay := by
  intro s ch f got par hvoid hfails
  refine ⟨fun hf => ?_, fun hf => ?_⟩
  · rw [exec_memoryReadNak hf, memNak_read (flightNaked_write hf) hvoid hfails]
    rfl
  · obtain ⟨hvoids, hgone⟩ := voidConfirms_head f.req.who f.req.also (nakTag f.tag got par s)
    have hmem : f ∈ (nakTag f.tag got par s).mem.flights := by
      rw [nakTag_mem]
      exact List.mem_of_find?_eq_some hf
    obtain ⟨v, hv⟩ := voidConfirms_keeps (f.req.who :: f.req.also) _ hmem
    refine ⟨_, exec_memoryWriteNak hf got par, ?_⟩
    rw [memNak_write (flightNaked_write hf) hvoid hfails, setMem_mem]
    refine ⟨⟨_, List.mem_map_of_mem hv, ?_⟩, fun g hg hconf => ?_, hgone, ?_⟩
    · simp only [Flight.again, beq_self_eq_true, Bool.and_self, if_true, and_self]
    · obtain ⟨x, hx, rfl⟩ := List.mem_map.mp hg
      obtain ⟨hreq, hsame⟩ := f.again_keeps (portNow s + 1) x
      rw [hreq] at hconf
      exact hsame.trans (hvoids x hx hconf)
    · have hstack : (nakTag f.tag got par s).stack = s.stack :=
        (only_nakTag _ _ _ (List.Subset.refl _) (only_refl _ s)).part .stack (by decide)
      exact ((only_voidConfirms _ _).part .stack (by decide)).trans hstack

end

/-- Settles O6: each end of a NAK cycle by its transfer, a NAK at a host port by what it drives again or gives up, one at
a memory port by the flight that fails once more and the confirm reads that its write takes with it. -/
theorem naksAndNakCycles : Obligations.NaksAndNakCycles :=
  ⟨nakCycleEndsOfOtherTransfers, hostNakReplays, hostNakFatal, memoryNaksReplay⟩

end Sys2Proof.Machine

/-! PROOF. The bytes of the stack (O5): no row but NAK_CYCLE_END has them among its parts; a write that is good writes its
line, and what its outcome leads to neither touches the bytes nor accepts a transfer. -/
namespace Sys2Proof.Machine

/-! ### Rows that leave the bytes (R297, R299, R433) -/

theorem stack_notMem_touches {c : Instr} (h : ∀ kind port tag, c ≠ .nakCycleEnd kind port tag) :
    Part.stack ∉ c.touches := by
  cases c
  case nakCycleEnd kind port tag => exact absurd rfl (h kind port tag)
  all_goals exact of_decide_eq_true rfl

theorem pending_notMem_touches (c : Instr) : Part.pending ∉ c.touches := by
  cases c
  all_goals exact of_decide_eq_true rfl

/-- R297, R299, R433. -/
theorem onlyGoodWritesChangeBytes : Rules.OnlyGoodWritesChangeBytes := by
  intro c s t hrow hnext
  have honly := commandsKeepTheRest c s t hnext
  have hstack : t.stack = s.stack := honly.part .stack (stack_notMem_touches hrow)
  exact ⟨fun a => by rw [hstack], honly.part .pending (pending_notMem_touches c)⟩

/-! ### The transfers on their way, by channel and tag (R286) -/

/-- The channels and tags of the transfers accepted and not yet finished. -/
def flightTags (s : State) : List (BitVec 5 × BitVec 10) := s.mem.flights.map fun f => (f.chan, f.tag)

theorem flightTags_of_mem {s t : State} (h : t.mem = s.mem) : flightTags t = flightTags s := by
  rw [flightTags, flightTags, h]

theorem flightTags_of_queues {s t : State} (h : OnlyQueues s.mem t.mem) : flightTags t = flightTags s := by
  rw [flightTags, flightTags, h.flights]

theorem flightTags_foldl {α : Type} {f : State → α → State} (hf : ∀ s a, flightTags (f s a) = flightTags s) (l : List α)
    (s : State) : flightTags (l.foldl f s) = flightTags s := by
  induction l generalizing s with
  | nil => rfl
  | cons a l ih => exact (ih _).trans (hf s a)

theorem flightTags_ite {c : Prop} [Decidable c] {s a b : State} (ha : flightTags a = flightTags s)
    (hb : flightTags b = flightTags s) : flightTags (if c then a else b) = flightTags s := by
  split
  · exact ha
  · exact hb

theorem mem_flightTags {s : State} {x : Flight} (h : x ∈ s.mem.flights) : (x.chan, x.tag) ∈ flightTags s :=
  List.mem_map_of_mem h

section
variable (s : State)

theorem flightTags_enqueue (r : MemReq) : flightTags (enqueue r s) = flightTags s :=
  flightTags_of_queues (enqueue_onlyQueues r s)

theorem flightTags_enqueueAll (rs : List MemReq) : flightTags (enqueueAll rs s) = flightTags s :=
  flightTags_foldl (fun s r => flightTags_enqueue s r) rs s

/-- Reads given up keep their tags until they are back. -/
theorem flightTags_dropReads (p : Who → Bool) : flightTags (dropReads p s) = flightTags s := by
  simp only [flightTags, dropReads, List.map_map]
  refine List.map_congr_left fun f _ => ?_
  simp only [Function.comp_apply]
  split
  · rfl
  · rfl

/-! ### Outcomes of journal lines (R170, R178, R181) -/

theorem flightTags_writeMarks : flightTags (writeMarks s) = flightTags s := flightTags_enqueue _ _

theorem flightTags_writeJournalLine (idx : Nat) : flightTags (writeJournalLine idx s) = flightTags s := by
  unfold writeJournalLine
  split
  · exact flightTags_enqueue s _
  · rfl

theorem flightTags_writeJournal (idxs : List Nat) : flightTags (writeJournal idxs s) = flightTags s :=
  flightTags_foldl (fun s i => flightTags_writeJournalLine s i) idxs _

theorem flightTags_releaseOne : flightTags (releaseOne s) = flightTags s :=
  (flightTags_of_mem (pulse_mem _ 2)).trans (flightTags_writeMarks _)

theorem flightTags_releaseDue : flightTags (releaseDue s) = flightTags s :=
  flightTags_ite rfl (flightTags_foldl (fun s _ => flightTags_releaseOne s) _ s)

theorem flightTags_fetchBegins : flightTags (fetchBegins s) = flightTags s := by
  unfold fetchBegins
  split
  · exact flightTags_ite (flightTags_enqueueAll (rampStart s) _) rfl
  · rfl

theorem flightTags_gateConfirmed : flightTags (gateConfirmed s) = flightTags s := by
  unfold gateConfirmed
  split
  case h_1 p _ =>
    refine (flightTags_fetchBegins _).trans ?_
    have hopened : flightTags (if p.gateOpening then
        pulse 0 (writeMarks (setPass (fun p => { p with gateOpening := false }) s)) else s) = flightTags s :=
      flightTags_ite ((flightTags_of_mem (pulse_mem _ 0)).trans (flightTags_writeMarks _)) rfl
    exact flightTags_ite ((flightTags_releaseDue _).trans hopened) hopened
  case h_2 => rfl

theorem flightTags_pass1Written : flightTags (pass1Written s) = flightTags s := by
  unfold pass1Written
  split
  · exact (flightTags_writeJournal _ [3]).trans (flightTags_writeMarks _)
  · rfl

theorem flightTags_journalFailed (fault : JFault) : flightTags (journalFailed fault s) = flightTags s :=
  flightTags_of_mem ((only_journalFailed fault (List.Subset.refl _) (only_refl _ s)).part .mem (by decide))

theorem flightTags_journalConfirmed (idx : Nat) (data : Option Line) :
    flightTags (journalConfirmed idx data s) = flightTags s := by
  unfold journalConfirmed
  split
  · refine flightTags_ite rfl (flightTags_ite ?_ (flightTags_ite (flightTags_journalFailed s _) ?_))
    · exact flightTags_ite rfl (flightTags_ite (flightTags_pass1Written _) (flightTags_gateConfirmed _))
    · exact flightTags_writeJournalLine _ idx
  · exact flightTags_journalFailed s _
  · rfl

/-! ### Outcomes of a group's lines (R172, R176) -/

theorem flightTags_groupFailed (o i : Nat) (w : Bool) : flightTags (groupFailed o i w s) = flightTags s :=
  flightTags_of_mem ((only_groupFailed o i w (List.Subset.refl _) (only_refl _ s)).part .mem (by decide))

theorem flightTags_raiseTear (fault : JFault) (t : TileSt) (i : Nat) (w : Bool) :
    flightTags (raiseTear fault t i w s) = flightTags s :=
  flightTags_of_mem ((only_raiseTear fault t i w (List.Subset.refl _) (only_refl _ s)).part .mem (by decide))

theorem flightTags_confirmDone (o i : Nat) (w : Bool) (data : Option Line) :
    flightTags (confirmDone o i w data s) = flightTags s := by
  unfold confirmDone
  split
  · refine flightTags_ite rfl (flightTags_ite rfl (flightTags_ite ?_ ?_))
    · exact flightTags_enqueue _ _
    · exact flightTags_raiseTear _ _ _ _ _
  · exact flightTags_groupFailed s o i w
  · rfl

/-! ### Outcomes of stream tasks (R320, R323, R331) -/

theorem flightTags_latchFault (n : Nat) (code desc : BitVec 8) (addr : Word) (id : BitVec 32) :
    flightTags (latchFault n code desc addr id s) = flightTags s :=
  (flightTags_of_mem (pulse_mem _ _)).trans (flightTags_dropReads _ _)

theorem flightTags_padFreeAll (hs : List (BitVec 16)) (o : BitVec 6) : flightTags (padFreeAll hs o s) = flightTags s :=
  flightTags_of_mem ((only_padFreeAll hs o (List.Subset.refl _) (only_refl _ s)).part .mem (by decide))

theorem flightTags_settleEnding (n : Nat) : flightTags (settleEnding n s) = flightTags s := by
  unfold settleEnding
  split
  case h_1 t _ =>
    split
    · have hfreed : flightTags (setTask n (fun t => { t with pieces := [] })
          (padFreeAll (taskPads t) (ownerChan n) s)) = flightTags s := flightTags_padFreeAll s _ _
      refine flightTags_ite rfl ?_
      dsimp only
      split
      · exact flightTags_ite ((flightTags_latchFault _ n _ _ _ _).trans hfreed) hfreed
      · exact (flightTags_latchFault _ n _ _ _ _).trans hfreed
    · rfl
  case h_2 => rfl

theorem flightTags_taskFault (n : Nat) (code : BitVec 8) (desc : Nat) (addr : Word) :
    flightTags (taskFault n code desc addr s) = flightTags s := by
  unfold taskFault
  split
  · split
    · rfl
    · exact flightTags_settleEnding _ n
  · rfl

theorem flightTags_issueWriteback (n : Nat) : flightTags (issueWriteback n s) = flightTags s := by
  unfold issueWriteback
  dsimp only
  split
  · split
    · exact flightTags_enqueue s _
    · rfl
  · rfl

theorem flightTags_descBackDone (n : Nat) (ok : Bool) : flightTags (descBackDone n ok s) = flightTags s := by
  unfold descBackDone
  split
  · split
    · exact flightTags_ite (flightTags_issueWriteback _ n) (flightTags_taskFault s n _ _ _)
    · rfl
  · rfl

theorem flightTags_streamWriteDone (n i k : Nat) (ok : Bool) (code : BitVec 8) :
    flightTags (streamWriteDone n i k ok code s) = flightTags s := by
  unfold streamWriteDone
  split
  · split
    · have hcounted (u : State) : flightTags (if ok then countStrm 9 1 u else u) = flightTags u := flightTags_ite rfl rfl
      dsimp only
      split
      · exact (flightTags_settleEnding _ n).trans (hcounted _)
      · exact flightTags_ite (hcounted _) ((flightTags_taskFault _ n _ _ _).trans (hcounted _))
    · rfl
  · rfl

/-! ### A good write's outcome (R172, R297, R299, R436) -/

theorem flightTags_deliverWrite (r : MemReq) (ok : Bool) (who : Who) :
    flightTags (deliverWrite r ok who s) = flightTags s := by
  unfold deliverWrite
  split
  · rfl
  · exact flightTags_ite rfl (flightTags_groupFailed s _ _ _)
  · exact flightTags_ite rfl (flightTags_journalFailed s _)
  · exact flightTags_streamWriteDone s _ _ _ ok _
  · exact flightTags_descBackDone s _ ok
  · exact flightTags_of_mem ((only_maskWriteDone _ ok (List.Subset.refl _) (only_refl _ s)).part .mem (by decide))
  · exact flightTags_of_mem ((only_vectorWritten _ _ ok (List.Subset.refl _) (only_refl _ s)).part .mem (by decide))
  · rfl

theorem flightTags_deliverWrites (r : MemReq) (ok : Bool) : flightTags (deliverWrites r ok s) = flightTags s :=
  flightTags_foldl (fun s w => flightTags_deliverWrite s r ok w) _ s

/-- What a confirm read brings goes to a group's line or to a journal line. -/
theorem flightTags_deliverConfirm {who : Who} {r : MemReq} (h : who.confirms r.who = true) (data : Option Line) :
    flightTags (deliverRead r data s) = flightTags s := by
  unfold deliverRead
  unfold Who.confirms at h
  split at h
  case h_1 heq => rw [heq]; exact flightTags_confirmDone s _ _ _ data
  case h_2 heq => rw [heq]; exact flightTags_journalConfirmed s _ data
  case h_3 => exact absurd h Bool.false_ne_true

theorem flightTags_takeEarly (who : Who) : flightTags (takeEarly who s) = flightTags s := by
  have hdeliver (es : List (MemReq × Line)) (h : ∀ e ∈ es, who.confirms e.1.who = true) (u : State) :
      flightTags (es.foldl (fun s e => deliverRead e.1 (some e.2) s) u) = flightTags u := by
    induction es generalizing u with
    | nil => rfl
    | cons e es ih =>
      exact (ih (fun x hx => h x (List.mem_cons_of_mem _ hx)) _).trans
        (flightTags_deliverConfirm u (h e List.mem_cons_self) _)
  exact hdeliver _ (fun e he => List.of_mem_filter (p := fun e : MemReq × Line => who.confirms e.1.who) he) _

end

/-! ### A write that has passed its NAK cycle (R297, R434, R440) -/

section
variable (f : Flight) (s : State)

/-- The stack holds the write, whose tag is free; a marks line written by a host restores the journal (log 12). -/
def writeLanded : State :=
  let u : State := { (dropFlight f s) with stack := lineWrite s.stack f.req.line f.req.mask f.req.data }
  if f.req.who.isHost && marksGood (lineRead u.stack f.req.line) then setSweep (fun w => { w with known := true }) u
  else u

theorem writeLanded_stack : (writeLanded f s).stack = lineWrite s.stack f.req.line f.req.mask f.req.data := by
  unfold writeLanded
  dsimp only
  split
  · rfl
  · rfl

theorem flightTags_writeLanded : flightTags (writeLanded f s) = flightTags (dropFlight f s) :=
  flightTags_ite rfl rfl

/-- The tag of a transfer that is over is free. -/
theorem dropFlight_frees : (f.chan, f.tag) ∉ flightTags (dropFlight f s) := by
  intro h
  obtain ⟨x, hx, hsame⟩ := List.mem_map.mp h
  have hother := List.of_mem_filter hx
  simp only [Prod.mk.injEq] at hsame
  simp [hsame] at hother

variable {f} {s}

theorem memSettled_write (hwrite : f.req.write = true) : memSettled f s =
    (f.req.who :: f.req.also).foldl (fun s w => takeEarly w s) (deliverWrites f.req true (writeLanded f s)) := by
  rw [memSettled, if_pos hwrite]
  rfl

theorem only_writeOutcome (whos : List Who) (u : State) : OnlyChanges [.health, .evt, .mem, .image, .step, .ttab,
    .sweep, .tongue, .strm, .pond, .queues, .xch, .far, .rng, .freeCtr] u
      (whos.foldl (fun s w => takeEarly w s) (deliverWrites f.req true u)) :=
  only_foldl (only_deliverWrites f.req true (by decide) (only_refl _ u)) fun _ w hx => only_takeEarly w (by decide) hx

theorem memSettled_write_stack (hwrite : f.req.write = true) :
    (memSettled f s).stack = lineWrite s.stack f.req.line f.req.mask f.req.data := by
  rw [memSettled_write hwrite, ← writeLanded_stack f s]
  exact (only_writeOutcome _ _).part .stack (by decide)

theorem memSettled_write_flightTags (hwrite : f.req.write = true) :
    flightTags (memSettled f s) = flightTags (dropFlight f s) := by
  rw [memSettled_write hwrite, ← flightTags_writeLanded f s, ← flightTags_deliverWrites (writeLanded f s) f.req true]
  exact flightTags_foldl (fun s w => flightTags_takeEarly s w) _ _

end

/-- A byte lies in a line where the line's address is that of its 64 bytes. -/
theorem line_covers (line a : Nat) (p : Nat → Bool) :
    (64 * line ≤ a ∧ a < 64 * line + 64 ∧ p (a - 64 * line) = true) ↔ (a / 64 = line ∧ p (a % 64) = true) := by
  have hdiv : (64 * line ≤ a ∧ a < 64 * line + 64) ↔ a / 64 = line := by omega
  rw [← and_assoc, hdiv]
  refine and_congr_right fun h => ?_
  have hrest : a - 64 * line = a % 64 := by omega
  rw [hrest]

/-- What a byte reads as after a line write, by the line and the offset it lies at. -/
theorem cellRead_lineWrite_of_line {m : List Host.Cell} (h : Memory.wf m = true) (line : BitVec 34) (mask : BitVec 64)
    (data : Line) (a : Nat) : cellRead (lineWrite m line mask data) a =
      if a / 64 = line.toNat ∧ mask.getLsbD (a % 64) = true then data.extractLsb' (8 * (a % 64)) 8
      else cellRead m a := by
  rw [cellRead_lineWrite h]
  refine ite_congr (propext (line_covers line.toNat a mask.getLsbD)) (fun hcovers => ?_) fun _ => rfl
  have hrest : a - 64 * line.toNat = a % 64 := by omega
  rw [hrest]

/-- R297, R434, R440. -/
theorem goodWriteReachesStack : Rules.GoodWriteReachesStack := by
  intro s port tag f hwf hf hdue hopen
  obtain ⟨hchan, htag, hwrite⟩ := flightOf_names hf
  refine ⟨_, exec_nakCycleEnd_write hf hdue hopen, fun x hx => ?_, fun a => ?_⟩
  · have hgone := dropFlight_frees f s
    rw [← memSettled_write_flightTags hwrite, hchan, htag] at hgone
    by_contra hsame
    obtain ⟨hx1, hx2⟩ := not_or.mp hsame
    exact hgone (not_not.mp hx1 ▸ not_not.mp hx2 ▸ mem_flightTags hx)
  · rw [memSettled_write_stack hwrite]
    exact cellRead_lineWrite_of_line hwf f.req.line f.req.mask f.req.data a

/-- Settles O5: the bytes are no part of any other row; a good write's line is written before its outcome is delivered,
and no outcome touches the bytes or takes a tag. -/
theorem stackBytes : Obligations.StackBytes := ⟨onlyGoodWritesChangeBytes, goodWriteReachesStack⟩

end Sys2Proof.Machine

/-! PROOF. SRAM errors (O24): what handling an uncorrectable error leaves of the record of such errors, and each row of
the health unit by its branches. -/
namespace Sys2Proof.Machine

/-! ### What a croak leaves of the health unit (R512, R513) -/

/-- A croak adds its causes; beside them it changes the log, what its ctrl cycle has met, and the count of rises. -/
theorem croakSet_health (causes : BitVec 8) (s : State) : ∃ log cycle cnt,
    (croakSet causes s).health = { s.health with
      cause := s.health.cause ||| causes, log := log, croakNow := cycle, cnt := cnt } ∧
    (cnt = s.health.cnt ∨ cnt = bump s.health.cnt 5 1) := by
  unfold croakSet
  dsimp only
  split
  · exact ⟨_, _, _, rfl, .inl rfl⟩
  · split
    · rw [pulse_health]
      exact ⟨_, _, _, rfl, .inr rfl⟩
    · exact ⟨_, _, _, rfl, .inl rfl⟩

theorem croakSet_fatal (causes : BitVec 8) (s : State) : (croakSet causes s).health.fatal = s.health.fatal := by
  obtain ⟨_, _, _, hhealth, _⟩ := croakSet_health causes s
  rw [hhealth]

theorem croakSet_ceWindow (causes : BitVec 8) (s : State) :
    (croakSet causes s).health.ceWindow = s.health.ceWindow := by
  obtain ⟨_, _, _, hhealth, _⟩ := croakSet_health causes s
  rw [hhealth]

/-- A croak sets each cause that it names. -/
theorem croakSet_sets {causes : BitVec 8} {i : Nat} (h : causes.getLsbD i = true) (s : State) :
    (croakSet causes s).health.cause.getLsbD i = true := by
  rw [croakSet_cause, BitVec.getLsbD_or, h, Bool.or_true]

/-! ### The record of uncorrectable errors (R508, R511) -/

/-- What only an uncorrectable error changes: SRAM_FAULT and HEALTH_CNT1; and how many counters the unit has. -/
def Health.ueRecord (h : Health) : FaultLatch × Counter × Nat := (h.sram, h.cnt.getD 1 {}, h.cnt.length)

/-- From s to t no uncorrectable error has been recorded. -/
def SameUes (s t : State) : Prop := t.health.ueRecord = s.health.ueRecord

theorem SameUes.trans {s t u : State} (h : SameUes s t) (h' : SameUes t u) : SameUes s u := Eq.trans h' h

theorem sameUes_of_health {s t : State} (h : t.health = s.health) : SameUes s t := congrArg Health.ueRecord h

theorem sameUes_only {L : List Part} {s t : State} (h : OnlyChanges L s t) (hL : Part.health ∉ L) : SameUes s t :=
  sameUes_of_health (h.part .health hL)

theorem sameUes_ite {c : Prop} [Decidable c] {s a b : State} (ha : SameUes s a) (hb : SameUes s b) :
    SameUes s (if c then a else b) := by
  split
  · exact ha
  · exact hb

theorem sameUes_croakSet (causes : BitVec 8) (s : State) : SameUes s (croakSet causes s) := by
  obtain ⟨_, _, cnt, hhealth, hcnt⟩ := croakSet_health causes s
  rw [SameUes, hhealth]
  rcases hcnt with rfl | rfl
  · rfl
  · simp only [Health.ueRecord, bump_length, bump_getD]
    rfl

section
variable (s : State)

theorem sameUes_report (code : BitVec 16) (arg : Word) : SameUes s (report code arg s) := Eq.refl _

/-! ### Pads that are freed, tiles that are dropped (R101, R110, R333, R336) -/

theorem sameUes_padFree (h : BitVec 16) (o : BitVec 6) : SameUes s (padFree h o s) := by
  have hinvalid (reason : BitVec 2) : SameUes s (padFreeInvalid reason h o s) := Eq.refl _
  unfold padFree
  exact sameUes_ite (hinvalid 3) (sameUes_ite (hinvalid 1) (sameUes_ite (hinvalid 2) (Eq.refl _)))

theorem sameUes_padFreeAll (hs : List (BitVec 16)) (o : BitVec 6) : SameUes s (padFreeAll hs o s) := by
  induction hs generalizing s with
  | nil => exact Eq.refl _
  | cons h hs ih => exact (sameUes_padFree s h o).trans (ih _)

theorem sameUes_dropTile (t : TileSt) (misses : Nat) : SameUes s (dropTile t misses s) :=
  sameUes_padFreeAll s _ _

theorem sameUes_codecMismatch (t : TileSt) : SameUes s (codecMismatch t s) := by
  unfold codecMismatch
  refine sameUes_ite (sameUes_only (only_raiseHalt _ (List.Subset.refl _) (only_refl _ s)) (by decide))
    (sameUes_ite (Eq.refl _) ?_)
  split
  · exact sameUes_dropTile _ t 1
  · exact sameUes_dropTile _ t 1

/-! ### A link's reset, and the segments that follow it (R411, R413, R414, R428, R477) -/

theorem sameUes_holdStep (cause : BitVec 8) (hi : BitVec 32) (src : BitVec 16) :
    SameUes s (holdStep cause hi src s) := by
  have hnotice (u : State) : SameUes u (holdNotice cause (flashRing .hold u)) :=
    sameUes_only (only_holdNotice cause (L := [.east, .west, .fmp]) (by decide)
      (only_flashRing .hold (by decide) (only_refl _ u))) (by decide)
  unfold holdStep
  refine sameUes_ite (Eq.refl _) (.trans ?_ (hnotice _))
  have hpulsed (u : State) : SameUes u (if u.verdict.holding then u else pulse 7 u) :=
    sameUes_ite (Eq.refl _) (sameUes_of_health (pulse_health u 7))
  exact (sameUes_report s _ _).trans (hpulsed _)

theorem sameUes_epochFail : SameUes s (epochFail s) := by
  have hfailed (memb : Memb) (hi : BitVec 32) (src : BitVec 16) :
      SameUes s (holdStep 4 hi src (croakSet 0x04 (pulse 6 { s with memb := memb }))) :=
    (sameUes_of_health (t := pulse 6 { s with memb := memb }) (pulse_health _ 6)).trans
      ((sameUes_croakSet 0x04 _).trans (sameUes_holdStep _ 4 hi src))
  unfold epochFail
  split
  · exact hfailed _ _ _
  · exact hfailed _ _ _
  · exact Eq.refl _
  · exact Eq.refl _

theorem sameUes_ringChanged (old : Option (Side × Nat)) (back : Bool) : SameUes s (ringChanged old back s) := by
  have hring : SameUes s (resendRing s) :=
    sameUes_only (only_resendRing (List.Subset.refl _) (only_refl _ s)) (by decide)
  have hmessages : SameUes s (resendUnresolved s) :=
    sameUes_only (only_resendUnresolved (List.Subset.refl _) (only_refl _ s)) (by decide)
  unfold ringChanged
  refine sameUes_ite (sameUes_ite hring (hring.trans (sameUes_epochFail _))) ?_
  split
  · exact sameUes_epochFail s
  · exact sameUes_ite hmessages (Eq.refl _)

theorem sameUes_segSettle : SameUes s (segSettle s) := by
  have htold (u : State) (m : Line) : SameUes u (broadcast 0 m u) :=
    sameUes_only (only_broadcast 0 m (List.Subset.refl _) (only_refl _ u)) (by decide)
  unfold segSettle
  refine sameUes_ite (Eq.refl _) (sameUes_ite (Eq.refl _) (.trans ?_ (sameUes_ringChanged _ _ _)))
  exact htold { s with ring := _ } _

theorem sameUes_setLink (d : Side) (f : LinkEnd → LinkEnd) : SameUes s (setLink d f s) :=
  sameUes_only (only_setLink d f (List.Subset.refl _) (only_refl _ s)) (by decide)

theorem sameUes_trainingOver (d : Side) : SameUes s (trainingOver d s) :=
  sameUes_only (only_trainingOver d (List.Subset.refl _) (only_refl _ s)) (by decide)

theorem sameUes_goDown (d : Side) (cause : BitVec 8) : SameUes s (goDown d cause s) := by
  have hreported (f : LinkEnd → LinkEnd) (arg : Word) :
      SameUes s (report 0x0904 arg (trainingOver d (setLink d f s))) :=
    ((sameUes_setLink s d f).trans (sameUes_trainingOver _ d)).trans (sameUes_report _ 0x0904 arg)
  unfold goDown
  exact sameUes_ite (.trans (hreported _ _) (sameUes_croakSet 0x02 _)) (hreported _ _)

theorem sameUes_linkRestart (d : Side) : SameUes s (linkRestart d s) := by
  have htraining (u : State) : SameUes u (startTraining d false u) :=
    sameUes_only (only_startTraining d false (List.Subset.refl _) (only_refl _ u)) (by decide)
  unfold linkRestart
  exact sameUes_ite (sameUes_ite (sameUes_goDown s d 5) ((sameUes_setLink s d _).trans (htraining _)))
    ((sameUes_setLink s d _).trans (sameUes_trainingOver _ d))

theorem sameUes_linkOnlyReset (d : Side) : SameUes s (linkOnlyReset d s) := by
  unfold linkOnlyReset
  refine .trans (.trans ?_ (sameUes_linkRestart _ d)) (sameUes_segSettle _)
  cases d
  · exact Eq.refl _
  · exact Eq.refl _

/-! ### The handling of an uncorrectable error by its array (R508, R511) -/

theorem sameUes_pondUe (word : BitVec 32) : SameUes s (pondUe word s) := by
  unfold pondUe
  refine sameUes_ite (Eq.refl _) ?_
  split
  · exact sameUes_codecMismatch s _
  · exact Eq.refl _

theorem sameUes_handleUe (array : BitVec 4) (word : BitVec 32) : SameUes s (handleUe array word none s) := by
  unfold handleUe
  split
  · exact sameUes_pondUe s word
  · exact sameUes_only (only_normUe word (List.Subset.refl _) (only_refl _ s)) (by decide)
  · exact sameUes_only (only_mapStart (List.Subset.refl _) (only_refl _ s)) (by decide)
  · exact sameUes_only (only_emptyShadow (List.Subset.refl _) (only_refl _ s)) (by decide)
  · exact sameUes_linkOnlyReset s .east
  · exact sameUes_linkOnlyReset s .west
  · exact Eq.refl _
  · exact Eq.refl _

/-- The shared cache, the active plane, and code 8 without an SFU table: FATAL (R508, R510). -/
theorem handleUe_fatal {array : BitVec 4} (h : array = 1 ∨ array = 4 ∨ array = 8) (word : BitVec 32) :
    (handleUe array word none s).health.fatal = true := by
  rcases h with rfl | rfl | rfl
  · rfl
  · rfl
  · rfl

/-- The norm store, the granule map and the shadow plane: no FATAL (R508). -/
theorem handleUe_health {array : BitVec 4} (h : array = 2 ∨ array = 3 ∨ array = 5) (word : BitVec 32) :
    (handleUe array word none s).health = s.health := by
  rcases h with rfl | rfl | rfl
  · exact (only_normUe word (List.Subset.refl _) (only_refl _ s)).part .health (by decide)
  · exact (only_mapStart (List.Subset.refl _) (only_refl _ s)).part .health (by decide)
  · exact (only_emptyShadow (List.Subset.refl _) (only_refl _ s)).part .health (by decide)

theorem handleUe_shadow (word : BitVec 32) : (handleUe 5 word none s).image.shadow = .empty := rfl

end

section
variable (array : BitVec 4) (word : BitVec 32) (scrub : Bool) (s : State)

/-- The fields of SRAM_FAULT that an error brings (R511). -/
def ueBits : Word :=
  put 58 array ||| putBit 57 scrub ||| putBit 56 ((handleUe array word none s).health.fatal && !s.health.fatal) |||
    put 0 word

/-- The error as it is latched and counted. -/
def ueLatched : State :=
  let u := handleUe array word none s
  countHealth 1 1 (setHealth (fun h => { h with sram := h.sram.take (now u) (ueBits array word scrub s) }) u)

theorem sramUe_eq : sramUe array word scrub none s =
    croakSet 0x40 (report 0x0B02 (ueBits array word scrub s) (ueLatched array word scrub s)) := rfl

theorem sramUe_fatal : (sramUe array word scrub none s).health.fatal = (handleUe array word none s).health.fatal := by
  rw [sramUe_eq, croakSet_fatal]
  rfl

theorem sramUe_image : (sramUe array word scrub none s).image = (handleUe array word none s).image :=
  (only_croakSet 0x40 (L := [.health, .evt]) (List.Subset.refl _)
    (only_report _ _ (by decide) (only_countHealth 1 1 (by decide) (only_setHealth _ (by decide) (only_refl _ _))))).part
      .image (by decide)

/-- What is recorded of the error: its latch, and one more of its counter. -/
theorem sramUe_record (hlen : s.health.cnt.length = 6) :
    (sramUe array word scrub none s).health.sram =
      s.health.sram.take (now (handleUe array word none s)) (ueBits array word scrub s) ∧
    (sramUe array word scrub none s).health.cnt.getD 1 {} = (s.health.cnt.getD 1 {}).add 1 := by
  have hhandled := sameUes_handleUe s array word
  simp only [SameUes, Health.ueRecord, Prod.mk.injEq] at hhandled
  obtain ⟨hsram, hcnt, hsize⟩ := hhandled
  have hafter : SameUes (ueLatched array word scrub s) (sramUe array word scrub none s) :=
    (sameUes_report _ _ _).trans (sameUes_croakSet 0x40 _)
  simp only [SameUes, Health.ueRecord, Prod.mk.injEq] at hafter
  obtain ⟨hsram', hcnt', _⟩ := hafter
  refine ⟨hsram'.trans ?_, hcnt'.trans ?_⟩
  · rw [← hsram]
    rfl
  · rw [ueLatched, countHealth_health, bump_getD, ← hcnt]
    refine if_pos ⟨rfl, ?_⟩
    rw [setHealth, hsize, hlen]
    decide

end

/-- R508, R511, R512. -/
theorem uncorrectableErrors : Rules.UncorrectableErrors := by
  intro s array word scrub hlive hlen
  obtain ⟨hsram, hcnt⟩ := sramUe_record array word scrub s hlen
  have hfatal := sramUe_fatal array word scrub s
  refine ⟨_, congrArg Host.Outcome.next (if_pos hlive), ?_⟩
  rw [hsram, hfatal]
  refine ⟨FaultLatch.take_valid _ _ _, FaultLatch.take_further _ _, FaultLatch.take_first _ _, hcnt,
    croakSet_sets (by decide) _, fun h => handleUe_fatal s h word, fun h => by rw [handleUe_health s h word], ?_⟩
  rintro rfl
  rw [sramUe_image]
  exact handleUe_shadow s word

/-! ### Correctable errors (R509, R512) -/

section
variable {s : State} {array : BitVec 4} {word : BitVec 32} {scrub : Bool}

theorem exec_sramCe (hlive : arraysLive s = true) :
    exec (.sramCe array word scrub) s = .next (sramCe array word scrub s) :=
  congrArg Host.Outcome.next (if_pos hlive)

theorem sramCe_again (hnow : s.health.ceAt = now s) (hfound : (array, word) ∈ s.health.ceFound) :
    sramCe array word scrub s = s := by
  simp only [sramCe, hnow, hfound, if_true]

/-- A correctable error as the window under way counts it. -/
def ceCounted (array : BitVec 4) (word : BitVec 32) (scrub : Bool) (found : List (BitVec 4 × BitVec 32)) (s : State) :
    State :=
  { s with health := { s.health with
      ceAt := now s, ceFound := (array, word) :: found, ceWindow := s.health.ceWindow + 1
      cnt := bump (bump s.health.cnt 0 1) 2 (if scrub then 1 else 0) } }

theorem eccRoll_within (h : s.health.ceIndex = now s / eccWindow) : eccRoll s = s := if_pos h

theorem sramCe_counts {found : List (BitVec 4 × BitVec 32)}
    (hfound : found = if s.health.ceAt = now s then s.health.ceFound else []) (hnew : (array, word) ∉ found)
    (hwindow : s.health.ceIndex = now s / eccWindow) : sramCe array word scrub s =
      if croakEccOf s ≠ 0 && croakEccOf s ≤ s.health.ceWindow + 1
      then croakSet 0x08 (setHealth (fun h => { h with ceHolds := true }) (ceCounted array word scrub found s))
      else ceCounted array word scrub found s := by
  have hroll : eccRoll (setHealth (fun h => { h with ceAt := now s, ceFound := (array, word) :: found }) s) =
      setHealth (fun h => { h with ceAt := now s, ceFound := (array, word) :: found }) s := eccRoll_within hwindow
  rw [sramCe]
  dsimp only
  rw [← hfound, if_neg hnew, hroll]
  rfl

theorem sramCe_below {found : List (BitVec 4 × BitVec 32)}
    (hfound : found = if s.health.ceAt = now s then s.health.ceFound else []) (hnew : (array, word) ∉ found)
    (hwindow : s.health.ceIndex = now s / eccWindow)
    (hlimit : croakEccOf s = 0 ∨ s.health.ceWindow + 1 < croakEccOf s) :
    sramCe array word scrub s = ceCounted array word scrub found s := by
  rw [sramCe_counts hfound hnew hwindow]
  refine if_neg ?_
  simp only [Bool.and_eq_true, decide_eq_true_eq]
  omega

theorem sramCe_croaks {found : List (BitVec 4 × BitVec 32)}
    (hfound : found = if s.health.ceAt = now s then s.health.ceFound else []) (hnew : (array, word) ∉ found)
    (hwindow : s.health.ceIndex = now s / eccWindow) (hset : croakEccOf s ≠ 0)
    (hreached : croakEccOf s ≤ s.health.ceWindow + 1) : sramCe array word scrub s =
      croakSet 0x08 (setHealth (fun h => { h with ceHolds := true }) (ceCounted array word scrub found s)) := by
  rw [sramCe_counts hfound hnew hwindow]
  refine if_pos ?_
  simp only [Bool.and_eq_true, decide_eq_true_eq]
  exact ⟨hset, hreached⟩

theorem only_ceCounted {L : List Part} (found : List (BitVec 4 × BitVec 32)) (hL : Part.health ∈ L) :
    OnlyChanges L s (ceCounted array word scrub found s) :=
  only_set_health hL (only_refl L s)

end

/-! ### The long windows (R294, R509, R512, R516) -/

section
variable {s : State}

theorem exec_scrubInterval (hrun : running s = true) (hdue : (s.health.scrubIndex + 1) * scrubCycles ≤ now s) :
    exec .scrubInterval s = .next { s with health := { s.health with
      scrubIndex := s.health.scrubIndex + 1, cnt := bump s.health.cnt 3 1 } } := by
  simp only [exec, execScrubInterval, scrubEnd, hrun, hdue, if_true]
  rfl

theorem exec_croakEccWindow (hrun : running s = true) (hover : s.health.ceIndex ≠ now s / eccWindow) :
    exec .croakEccWindow s = .next { s with health := { s.health with
      ceIndex := now s / eccWindow, ceWindow := 0, ceHolds := false } } := by
  simp only [exec, execCroakEccWindow, eccRoll, hrun, hover, if_true, if_false]
  rfl

/-- The 24-hour window that begins (R294). -/
def dutyRestarted (s : State) : State :=
  setThermal (fun t => { t with dutyIndex := t.dutyIndex + 1, dutyCycles := 0 }) s

theorem exec_throttleDutyWindow (hrun : running s = true)
    (hdue : (s.mem.thermal.dutyIndex + 1) * dutyWindow ≤ now s) : exec .throttleDutyWindow s =
      .next (if croakThrottleOf s ≠ 0 && croakThrottleOf s * (dutyWindow / 3 * 10) < s.mem.thermal.dutyCycles * 65536
        then croakSet 0x10 (dutyRestarted s) else dutyRestarted s) := by
  simp only [exec, execThrottleDutyWindow, dutyEnd, hrun, hdue, if_true]
  rfl

theorem croakSet_mem (causes : BitVec 8) (s : State) : (croakSet causes s).mem = s.mem :=
  (only_croakSet causes (List.Subset.refl _) (only_refl _ s)).part .mem (by decide)

theorem dutyEnds (hrun : running s = true) (hdue : (s.mem.thermal.dutyIndex + 1) * dutyWindow ≤ now s) :
    ∃ t, exec .throttleDutyWindow s = .next t ∧
      t.mem.thermal.dutyIndex = s.mem.thermal.dutyIndex + 1 ∧ t.mem.thermal.dutyCycles = 0 ∧
      (croakThrottleOf s ≠ 0 → croakThrottleOf s * (dutyWindow / 3 * 10) < s.mem.thermal.dutyCycles * 65536 →
        t.health.cause.getLsbD 4 = true) ∧
      (croakThrottleOf s = 0 → t.health = s.health) := by
  refine ⟨_, exec_throttleDutyWindow hrun hdue, ?_⟩
  split
  case isTrue hover =>
    simp only [Bool.and_eq_true, decide_eq_true_eq] at hover
    rw [croakSet_mem]
    exact ⟨rfl, rfl, fun _ _ => croakSet_sets (by decide) _, fun hnone => absurd hnone hover.1⟩
  case isFalse hbelow =>
    simp only [Bool.and_eq_true, decide_eq_true_eq] at hbelow
    exact ⟨rfl, rfl, fun hset hover => absurd ⟨hset, hover⟩ hbelow, fun _ => rfl⟩

end

/-- R294, R509, R512, R516. -/
theorem healthWindows : Rules.HealthWindows := by
  intro s array word scrub
  refine ⟨fun hlive hnow hfound => ?_, fun found hfound hlive hnew hwindow => ⟨fun hlimit => ?_, fun hset hreached => ?_⟩,
    fun hrun => ⟨exec_scrubInterval hrun, exec_croakEccWindow hrun, dutyEnds hrun⟩⟩
  · rw [exec_sramCe hlive, sramCe_again hnow hfound]
  · rw [exec_sramCe hlive, sramCe_below hfound hnew hwindow hlimit]
    rfl
  · refine ⟨_, exec_sramCe hlive, ?_⟩
    rw [sramCe_croaks hfound hnew hwindow hset hreached, croakSet_ceWindow]
    exact ⟨croakSet_sets (by decide) _, rfl, only_croakSet 0x08 (List.Subset.refl _)
      (only_setHealth _ (by decide) (only_ceCounted found (by decide)))⟩

/-- Settles O24: an uncorrectable error by the record that its handling leaves, a correctable one by its window and its
limit, each long window by its end. -/
theorem sramHealth : Obligations.SramHealth := ⟨uncorrectableErrors, healthWindows⟩

end Sys2Proof.Machine

/-! PROOF. The stream engine's operations (O47-O51): what each makes of its channel, its queue and its pads, and
what the operations of the other units leave of them. -/
namespace Sys2Proof.Machine

/-! ### Channels -/

section
variable {s t : State} {n m : Nat}

theorem chan_of_chans (h : t.strm.chans = s.strm.chans) (n : Nat) : chan t n = chan s n := by
  rw [chan, chan, h]

/-- An update of a channel, where there is such a channel. -/
@[simp] theorem chan_setChan (h : n < s.strm.chans.length) (f : StreamCh → StreamCh) :
    chan (setChan n f s) n = f (chan s n) := by
  simp [chan, List.getD_eq_getElem?_getD, h]

theorem chan_setChan_ne (h : m ≠ n) (f : StreamCh → StreamCh) : chan (setChan n f s) m = chan s m := by
  simp [chan, List.getD_eq_getElem?_getD, h.symm]

/-- What an update leaves of each channel, it leaves of every channel. -/
theorem chan_setChan_proj {α : Type} (g : StreamCh → α) {f : StreamCh → StreamCh} (hf : ∀ c, g (f c) = g c)
    (n m : Nat) : g (chan (setChan n f s) m) = g (chan s m) := by
  simp only [chan, setChan, List.getD_eq_getElem?_getD, List.getElem?_modify]
  cases s.strm.chans[m]? with
  | none => rfl
  | some c =>
    by_cases h : n = m
    · simpa [h] using hf c
    · simp [h]

@[simp] theorem chan_setTask (h : n < s.strm.chans.length) (f : Task → Task) :
    chan (setTask n f s) n = { chan s n with task := (chan s n).task.map f } :=
  chan_setChan h _

/-- Two updates of one channel are one. -/
theorem setChan_setChan (f g : StreamCh → StreamCh) : setChan n f (setChan n g s) = setChan n (f ∘ g) s := by
  simp only [setChan, List.modify_modify_eq]

end

section
variable (s : State) (n : Nat)

@[simp] theorem setTask_chans_length (m : Nat) (f : Task → Task) :
    (setTask m f s).strm.chans.length = s.strm.chans.length := List.length_modify _ _ _
@[simp] theorem setTask_pond (m : Nat) (f : Task → Task) : (setTask m f s).pond = s.pond := rfl

/-! ### What leaves the channels as they are -/

@[simp] theorem padGive_strm (h : BitVec 16) (o : BitVec 6) : (padGive h o s).strm = s.strm := rfl

@[simp] theorem chan_respond (code : BitVec 8) : chan (respond code s) n = chan s n := rfl
@[simp] theorem chan_report (code : BitVec 16) (arg : Word) : chan (report code arg s) n = chan s n := rfl
@[simp] theorem chan_countStrm (i k : Nat) : chan (countStrm i k s) n = chan s n := rfl
@[simp] theorem chan_setQueue (q : Nat) (f : PadQueue → PadQueue) : chan (setQueue q f s) n = chan s n := rfl
@[simp] theorem chan_padGive (h : BitVec 16) (o : BitVec 6) : chan (padGive h o s) n = chan s n := rfl
@[simp] theorem chan_pulse (line : BitVec 6) : chan (pulse line s) n = chan s n :=
  chan_of_chans (by rw [pulse_strm]) n

@[simp] theorem padFree_chans (h : BitVec 16) (o : BitVec 6) : (padFree h o s).strm.chans = s.strm.chans := by
  simp only [padFree]
  split_ifs <;> rfl
@[simp] theorem padFreeAll_chans (hs : List (BitVec 16)) (o : BitVec 6) :
    (padFreeAll hs o s).strm.chans = s.strm.chans := by
  induction hs generalizing s with
  | nil => rfl
  | cons h hs ih => exact (ih (padFree h o s)).trans (padFree_chans s h o)
@[simp] theorem chan_padFree (h : BitVec 16) (o : BitVec 6) : chan (padFree h o s) n = chan s n :=
  chan_of_chans (padFree_chans s h o) n
@[simp] theorem chan_padFreeAll (hs : List (BitVec 16)) (o : BitVec 6) : chan (padFreeAll hs o s) n = chan s n :=
  chan_of_chans (padFreeAll_chans s hs o) n

@[simp] theorem queueSettle_strm (q : Nat) : (queueSettle q s).strm = s.strm :=
  (only_queueSettle q (List.Subset.refl _) (only_refl _ s)).part .strm (by decide)
@[simp] theorem enqueue_strm (r : MemReq) : (enqueue r s).strm = s.strm :=
  (only_enqueue r (List.Subset.refl _) (only_refl _ s)).part .strm (by decide)
@[simp] theorem enqueueAll_strm (rs : List MemReq) : (enqueueAll rs s).strm = s.strm :=
  (only_enqueueAll rs (List.Subset.refl _) (only_refl _ s)).part .strm (by decide)
@[simp] theorem dropReads_strm (p : Who → Bool) : (dropReads p s).strm = s.strm := rfl
@[simp] theorem chan_queueSettle (q : Nat) : chan (queueSettle q s) n = chan s n :=
  chan_of_chans (by rw [queueSettle_strm]) n
@[simp] theorem chan_enqueue (r : MemReq) : chan (enqueue r s) n = chan s n := chan_of_chans (by rw [enqueue_strm]) n
@[simp] theorem chan_enqueueAll (rs : List MemReq) : chan (enqueueAll rs s) n = chan s n :=
  chan_of_chans (by rw [enqueueAll_strm]) n
@[simp] theorem chan_dropReads (p : Who → Bool) : chan (dropReads p s) n = chan s n := rfl

end

/-! ### Descriptors on their way, and the end of a task (R321, R331) -/

section
variable {s : State} {n : Nat}

@[simp] theorem dropFetch_chans_length : (dropFetch n s).strm.chans.length = s.strm.chans.length :=
  List.length_modify _ _ _

@[simp] theorem chan_dropFetch (h : n < s.strm.chans.length) : chan (dropFetch n s) n =
    { chan s n with fetched := [], fetchDue := 0, fetchGot := [], fetchFailed := false } := by
  simp [dropFetch, h]

/-- A channel latches its fault: it holds no task and nothing fetched. -/
theorem chan_latchFault (h : n < s.strm.chans.length) (code desc : BitVec 8) (addr : Word) (id : BitVec 32) :
    chan (latchFault n code desc addr id s) n = { chan s n with
      state := .faulted, faultTask := id, faultCode := code, faultDesc := desc, faultAddr := addr
      task := none, urgent := false, stopAfter := false, fetched := [], fetchDue := 0, fetchGot := []
      fetchFailed := false } := by
  simp [latchFault, h]

theorem latchFault_chans_length (code desc : BitVec 8) (addr : Word) (id : BitVec 32) :
    (latchFault n code desc addr id s).strm.chans.length = s.strm.chans.length := by
  simp [latchFault]

theorem latchFault_pondStall (code desc : BitVec 8) (addr : Word) (id : BitVec 32) :
    (latchFault n code desc addr id s).strm.pondStall = s.strm.pondStall := by
  simp [latchFault, dropFetch]

theorem latchFault_cnt (code desc : BitVec 8) (addr : Word) (id : BitVec 32) :
    (latchFault n code desc addr id s).strm.cnt = bump s.strm.cnt 2 1 := by
  simp [latchFault, dropFetch]

/-- A good free counts nothing, one that is not honoured counts among the invalid ones (R336, R351). -/
theorem padFree_cnt (h : BitVec 16) (o : BitVec 6) {i : Nat} (hi : i ≠ 6 ∧ i ≠ 7) :
    (padFree h o s).strm.cnt.getD i {} = s.strm.cnt.getD i {} := by
  have hbump (reason : BitVec 2) : (padFreeInvalid reason h o s).strm.cnt.getD i {} = s.strm.cnt.getD i {} := by
    refine (bump_getD _ _ _ _).trans (if_neg ?_)
    split <;> omega
  simp only [padFree]
  split_ifs
  · exact hbump 3
  · exact hbump 1
  · exact hbump 2
  · rfl

theorem padFree_pondStall (h : BitVec 16) (o : BitVec 6) : (padFree h o s).strm.pondStall = s.strm.pondStall := by
  simp only [padFree]
  split_ifs <;> rfl

theorem padFreeAll_pondStall (hs : List (BitVec 16)) (o : BitVec 6) :
    (padFreeAll hs o s).strm.pondStall = s.strm.pondStall := by
  induction hs generalizing s with
  | nil => rfl
  | cons h hs ih => exact ih.trans (padFree_pondStall h o)

theorem padFree_cnt_length (h : BitVec 16) (o : BitVec 6) :
    (padFree h o s).strm.cnt.length = s.strm.cnt.length := by
  simp only [padFree]
  split_ifs
  · exact bump_length _ _ _
  · exact bump_length _ _ _
  · exact bump_length _ _ _
  · rfl

theorem padFreeAll_cnt (hs : List (BitVec 16)) (o : BitVec 6) {i : Nat} (hi : i ≠ 6 ∧ i ≠ 7) :
    (padFreeAll hs o s).strm.cnt.getD i {} = s.strm.cnt.getD i {} := by
  induction hs generalizing s with
  | nil => rfl
  | cons h hs ih => exact ih.trans (padFree_cnt h o hi)

/-- A task that ends with nothing in flight and for no queue gives its pads back and leaves its fault behind. -/
theorem settleEnding_ends {u : Task} {code desc : BitVec 8} {addr : Word} (htask : (chan s n).task = some u)
    (hstage : u.stage = .ending code desc addr) (hflight : taskInFlight u = 0) (hdst : taskDstQueue u = none) :
    settleEnding n s = latchFault n code desc addr (taskId u)
      (setTask n (fun t => { t with pieces := [] }) (padFreeAll (taskPads u) (ownerChan n) s)) := by
  simp [settleEnding, htask, hstage, hflight, hdst]

/-- What a faulted task leaves of its channel (R331). -/
structure EndsFaulted (n : Nat) (code : BitVec 8) (u : Task) (s t : State) : Prop where
  state : (chan t n).state = .faulted
  faultCode : (chan t n).faultCode = code
  faultTask : (chan t n).faultTask = taskId u
  task : (chan t n).task = none
  pondStall : t.strm.pondStall = s.strm.pondStall
  cnt : ∀ i, i ≠ 2 → i ≠ 6 → i ≠ 7 → t.strm.cnt.getD i {} = s.strm.cnt.getD i {}

/-- The stage that ends a task is set by an update; whatever that reads of the task, the channel ends the same. -/
theorem endsFaulted_settleEnding {u : Task} {f : Task → Task} {code desc : BitVec 8} {addr : Word}
    (hlen : n < s.strm.chans.length) (htask : (chan s n).task = some u) (hflight : taskInFlight u = 0)
    (hdst : taskDstQueue u = none) (hf : f u = { u with stage := .ending code desc addr }) :
    EndsFaulted n code u s (settleEnding n (setTask n f s)) := by
  have hset : (chan (setTask n f s) n).task = some { u with stage := .ending code desc addr } := by
    rw [chan_setTask hlen, htask, ← hf]
    rfl
  rw [settleEnding_ends hset rfl hflight hdst]
  have hchan := chan_latchFault (n := n) (s := setTask n (fun t => { t with pieces := [] })
    (padFreeAll (taskPads u) (ownerChan n) (setTask n f s))) (by simpa using hlen) code desc addr (taskId u)
  refine ⟨congrArg StreamCh.state hchan, congrArg StreamCh.faultCode hchan, congrArg StreamCh.faultTask hchan,
    congrArg StreamCh.task hchan, ?_, fun i h2 h6 h7 => ?_⟩
  · rw [latchFault_pondStall]
    exact padFreeAll_pondStall _ _
  · rw [latchFault_cnt, bump_getD, if_neg fun h => h2 h.1.symm]
    exact padFreeAll_cnt _ _ ⟨h6, h7⟩

theorem endsFaulted_taskFault {u : Task} (hlen : n < s.strm.chans.length) (htask : (chan s n).task = some u)
    (hstage : ∀ code desc addr, u.stage ≠ .ending code desc addr) (hflight : taskInFlight u = 0)
    (hdst : taskDstQueue u = none) (code : BitVec 8) (desc : Nat) (addr : Word) :
    EndsFaulted n code u s (taskFault n code desc addr s) := by
  have hfault : taskFault n code desc addr s = settleEnding n (setTask n (fun t => { t with
      stage := .ending code (BitVec.ofNat 8 desc) addr }) s) := by
    simp only [taskFault, htask]
  rw [hfault]
  exact endsFaulted_settleEnding hlen htask hflight hdst rfl

theorem endsFaulted_abortTask {u : Task} (hlen : n < s.strm.chans.length) (htask : (chan s n).task = some u)
    (hstage : ∀ code desc addr, u.stage ≠ .ending code desc addr) (hflight : taskInFlight u = 0)
    (hdst : taskDstQueue u = none) (code : BitVec 8) : EndsFaulted n code u s (abortTask n code s) := by
  rw [abortTask, htask]
  exact endsFaulted_taskFault hlen htask hstage hflight hdst code _ 0

end

/-! ### Tasks by their queues (R338) -/

section
variable {s t : State}

/-- The queues of a task are those of its first descriptor. -/
theorem queueProducer_eq (s : State) (q : Nat) : queueProducer s q = (List.range 16).find? fun n =>
    ((chan s n).task.map taskFirst).any fun d => descDstQueue d == some q := by
  rw [queueProducer]
  congr 1
  funext n
  cases (chan s n).task <;> rfl

theorem queueConsumer_eq (s : State) (q : Nat) : queueConsumer s q = (List.range 16).find? fun n =>
    ((chan s n).task.map taskFirst).any fun d => descSrcQueue d == some q := by
  rw [queueConsumer]
  congr 1
  funext n
  cases (chan s n).task <;> rfl

variable (hfirst : ∀ m, (chan t m).task.map taskFirst = (chan s m).task.map taskFirst)
include hfirst

theorem queueProducer_congr (q : Nat) : queueProducer t q = queueProducer s q := by
  simp only [queueProducer_eq, hfirst]

theorem queueConsumer_congr (q : Nat) : queueConsumer t q = queueConsumer s q := by
  simp only [queueConsumer_eq, hfirst]

/-- What a chain fails depends on the tasks of the channels and on the size of the stack alone (R322). -/
theorem chainFault_congr (hmem : t.mem = s.mem) (n : Nat) (ds : List Line) : chainFault t n ds = chainFault s n ds := by
  have hrange : descRangeBad t = descRangeBad s := by
    funext d
    simp only [descRangeBad, hmem]
  simp only [chainFault, hrange, queueConsumer_congr hfirst, queueProducer_congr hfirst]

end

/-! ### Queues and pads (R333, R336, R338) -/

section
variable {s t : State}

theorem queue_of_queues (h : t.queues = s.queues) (q : Nat) : queue t q = queue s q := by
  rw [queue, queue, h]

@[simp] theorem queue_setTask (n : Nat) (f : Task → Task) (s : State) (q : Nat) :
    queue (setTask n f s) q = queue s q := rfl
@[simp] theorem queue_padGive (h : BitVec 16) (o : BitVec 6) (s : State) (q : Nat) :
    queue (padGive h o s) q = queue s q := rfl
@[simp] theorem padGive_queues (h : BitVec 16) (o : BitVec 6) (s : State) : (padGive h o s).queues = s.queues := rfl
@[simp] theorem padAt_setTask (n : Nat) (f : Task → Task) (s : State) (i : Nat) :
    padAt (setTask n f s) i = padAt s i := rfl

theorem queue_setQueue {q : Nat} (h : q < s.queues.length) (f : PadQueue → PadQueue) :
    queue (setQueue q f s) q = f (queue s q) := by
  simp [queue, List.getD_eq_getElem?_getD, h]

theorem queue_setQueue_ne {q j : Nat} (h : j ≠ q) (f : PadQueue → PadQueue) : queue (setQueue q f s) j = queue s j := by
  simp [queue, List.getD_eq_getElem?_getD, h.symm]

/-- With nothing that waits for room, a queue is settled. -/
theorem queueSettle_nothing {q : Nat} (h : (queue s q).waiting = []) : queueSettle q s = s := by
  simp only [queueSettle, h]

@[simp] theorem padFree_queues (s : State) (h : BitVec 16) (o : BitVec 6) : (padFree h o s).queues = s.queues :=
  (only_padFree h o (List.Subset.refl _) (only_refl _ s)).part .queues (by decide)

@[simp] theorem padFreeAll_queues (s : State) (hs : List (BitVec 16)) (o : BitVec 6) :
    (padFreeAll hs o s).queues = s.queues :=
  (only_padFreeAll hs o (List.Subset.refl _) (only_refl _ s)).part .queues (by decide)

theorem padAt_of_pads (h : t.pond.pads = s.pond.pads) (i : Nat) : padAt t i = padAt s i := by
  rw [padAt, padAt, h]

theorem padAt_setPad {i : Nat} (h : i < s.pond.pads.length) (f : Pad → Pad) :
    padAt (setPad i f s) i = f (padAt s i) := by
  simp [padAt, setPad, List.getD_eq_getElem?_getD, h]

theorem padAt_setPad_ne {i j : Nat} (h : j ≠ i) (f : Pad → Pad) : padAt (setPad i f s) j = padAt s j := by
  simp [padAt, setPad, List.getD_eq_getElem?_getD, h.symm]

theorem padAt_padGive {h : BitVec 16} (hin : handleIndex h < s.pond.pads.length) (o : BitVec 6) :
    padAt (padGive h o s) (handleIndex h) = { padAt s (handleIndex h) with owner := o } :=
  padAt_setPad hin _

/-- A pad that is free again, in its next generation (R333). -/
def padFreed (h : BitVec 16) (s : State) : State :=
  setPad (handleIndex h) (fun p => { gen := p.gen + 1, owner := 0, requester := 0, lines := [] }) s

section
variable {h : BitVec 16} {o : BitVec 6} (hgen : (padAt s (handleIndex h)).gen = handleGen h)
  (howner : (padAt s (handleIndex h)).owner = o) (ho : o ≠ 0)
include hgen howner ho

/-- A free that is honoured. -/
theorem padFree_honoured : ∃ x, padFree h o s =
    { padFreed h s with pond := { (padFreed h s).pond with stallSince := x } } := by
  simp only [padFree, hgen, howner, ne_eq, not_true, if_false, ho]
  exact ⟨_, rfl⟩

theorem padAt_padFree (hin : handleIndex h < s.pond.pads.length) : padAt (padFree h o s) (handleIndex h) =
    { gen := (padAt s (handleIndex h)).gen + 1, owner := 0, requester := 0, lines := [] } := by
  obtain ⟨x, hfree⟩ := padFree_honoured hgen howner ho
  rw [padAt_of_pads (s := padFreed h s) (by rw [hfree])]
  exact padAt_setPad hin _

theorem only_padFree_honoured : OnlyChanges [.pond] s (padFree h o s) := by
  obtain ⟨x, hfree⟩ := padFree_honoured hgen howner ho
  rw [hfree]
  exact only_set_pond (by decide) (only_setPad _ _ (by decide) (only_refl _ s))

end

theorem ownerChan_ne_zero {n : Nat} (h : n < 16) : ownerChan n ≠ 0 := by
  intro h0
  have := congrArg BitVec.toNat h0
  simp [ownerChan] at this
  omega

end

end Sys2Proof.Machine

/-! PROOF. Descriptors (O47): what a fetch asks for, and what the descriptors that have come make of their channel. -/
namespace Sys2Proof.Machine

section
variable {s : State} {n : BitVec 4} {w : Word}

/-! ### CHn_TAIL (R318, R321, R348) -/

theorem exec_chTailWrite (ha : Applies s) :
    exec (.chTailWrite n w) s = .next (respond 0x04 (writeTail n.toNat w s)) :=
  congrArg Host.Outcome.next (ctlWrite_applies ha _ _ _)

/-- A TAIL beyond the ring is reported and not taken. -/
theorem writeTail_beyond {n : Nat} (h : 2 ^ (chan s n).eff.sizeLog2.toNat ≤ fieldNat w 0 16) :
    writeTail n w s = report 0x0706 (putSat 16 4 n ||| putSat 0 16 (fieldNat w 0 16)) s :=
  if_pos h

theorem writeTail_idle {n : Nat} (h : fieldNat w 0 16 < 2 ^ (chan s n).eff.sizeLog2.toNat)
    (hidle : (chan s n).state = .idle) :
    writeTail n w s = fetchOrIdle n (setChan n (fun c => { c with tail := fieldNat w 0 16 }) s) := by
  simp only [writeTail, not_le.mpr h, if_false, hidle]

end

section
variable {s : State} {n : Nat}

/-- The control reads of the aligned group of eight descriptors that holds the one at HEAD (R321). -/
def groupReads (n : Nat) (c : StreamCh) : List MemReq :=
  (List.range 8).map fun i =>
    controlRead (.desc n (c.head / 8 * 8 + i)) (BitVec.ofNat 34 (c.eff.base.toNat * 8 + c.head / 8 * 8 + i))

/-- A channel that holds no descriptor and asks for none fetches the group of the one at HEAD. -/
theorem fetchMore_asks (hfetched : (chan s n).fetched = []) (hdue : (chan s n).fetchDue = 0)
    (hhead : (chan s n).head < 2 ^ (chan s n).eff.sizeLog2.toNat) (htail : (chan s n).head ≠ (chan s n).tail) :
    fetchMore n s = enqueueAll (groupReads n (chan s n))
      (setChan n (fun c => { c with fetchDue := 8, fetchTail := c.tail, fetchGot := [] }) s) := by
  have hnext : ((chan s n).head == (chan s n).tail) = false := by simpa using htail
  simp [fetchMore, groupReads, hfetched, hdue, Nat.mod_eq_of_lt hhead, hnext]

theorem fetchOrIdle_fetches (h : (chan s n).head ≠ (chan s n).tail) :
    fetchOrIdle n s = fetchMore n (setChan n (fun c => { c with state := .fetching }) s) := if_neg h

theorem fetchOrIdle_idle (h : (chan s n).head = (chan s n).tail) :
    fetchOrIdle n s = setChan n (fun c => { c with state := .idle }) s := if_pos h

/-- On an IDLE channel a TAIL past HEAD begins a fetch. -/
theorem writeTail_fetches {w : Word} (hlen : n < s.strm.chans.length)
    (hv : fieldNat w 0 16 < 2 ^ (chan s n).eff.sizeLog2.toNat) (hidle : (chan s n).state = .idle)
    (hhead : (chan s n).head < 2 ^ (chan s n).eff.sizeLog2.toNat) (hne : fieldNat w 0 16 ≠ (chan s n).head)
    (hfetched : (chan s n).fetched = []) (hdue : (chan s n).fetchDue = 0) :
    ∃ u, u.health = s.health ∧ (chan u n).tail = fieldNat w 0 16 ∧ (chan u n).state = .fetching ∧
      (chan u n).fetchDue = 8 ∧ writeTail n w s = enqueueAll (groupReads n (chan s n)) u := by
  obtain ⟨r, hr⟩ : ∃ r, r = setChan n (fun c => { c with state := .fetching })
    (setChan n (fun c => { c with tail := fieldNat w 0 16 }) s) := ⟨_, rfl⟩
  have hchan : chan r n = { chan s n with tail := fieldNat w 0 16, state := .fetching } := by simp [hr, hlen]
  have hrlen : n < r.strm.chans.length := by simpa [hr] using hlen
  refine ⟨setChan n (fun c => { c with fetchDue := 8, fetchTail := c.tail, fetchGot := [] }) r, ?_, ?_, ?_, ?_, ?_⟩
  · rw [setChan_health, hr]
    rfl
  · rw [chan_setChan hrlen, hchan]
  · rw [chan_setChan hrlen, hchan]
  · rw [chan_setChan hrlen]
  · rw [writeTail_idle hv hidle, fetchOrIdle_fetches (by simpa [hlen] using hne.symm), ← hr,
      fetchMore_asks (by rw [hchan]; exact hfetched) (by rw [hchan]; exact hdue) (by rw [hchan]; exact hhead)
        (by rw [hchan]; exact hne.symm), hchan]
    rfl

theorem groupReads_wait (hfatal : s.health.fatal = false) (c : StreamCh) {i : Nat} (hi : i < 8) :
    ∃ x ∈ (enqueueAll (groupReads n c) s).mem.waiting, x.req.who = .desc n (c.head / 8 * 8 + i) ∧
      x.req.control = true ∧ x.req.write = false ∧
      x.req.line = BitVec.ofNat 34 (c.eff.base.toNat * 8 + (c.head / 8 * 8 + i)) := by
  have hreads : ∀ r ∈ groupReads n c, r.write = false := by
    intro r hr
    obtain ⟨i, -, rfl⟩ := List.mem_map.mp hr
    rfl
  obtain ⟨x, hx, hreq⟩ := (enqueueAll_reads_wait hfatal hreads).2 _
    (List.mem_map.mpr ⟨i, List.mem_range.mpr hi, rfl⟩)
  refine ⟨x, hx, ?_⟩
  rw [hreq, ← Nat.add_assoc]
  exact ⟨rfl, rfl, rfl, rfl⟩

/-! ### The descriptors are in (R321, R322) -/

theorem chan_rejectTask (hlen : n < s.strm.chans.length) (code : BitVec 8) (desc : Nat) (addr : Word) (id : BitVec 32) :
    chan (rejectTask n code desc addr id s) n = { chan s n with
      state := .rejected, faultTask := id, faultCode := code, faultDesc := BitVec.ofNat 8 desc, faultAddr := addr
      fetched := [] } := by
  simp [rejectTask, hlen]

/-- A failed read rejects. -/
theorem afterFetch_failed (h : (chan s n).fetchFailed = true) : ∃ desc addr, afterFetch n s =
    rejectTask n 0x09 desc addr 0 (setChan n (fun c => { c with fetchFailed := false, fetchGot := [] }) s) :=
  ⟨_, _, by rw [afterFetch, if_pos h]⟩

/-- The descriptor at HEAD has come, and those that follow it in the group. -/
theorem take_head {c : StreamCh} {size : Nat} {d : Line} (hne : c.fetchTail ≠ c.head)
    (hgot : c.fetchGot.find? (·.1 == c.head) = some (c.head, d)) (k : Nat) :
    ∃ ds, afterFetch.take c size (k + 1) c.head = d :: ds :=
  ⟨_, by rw [afterFetch.take, if_neg hne.symm, hgot]⟩

/-- A first descriptor that ends its chain is judged alone, whatever follows it. -/
theorem afterFetch_single {d : Line} (hfailed : (chan s n).fetchFailed = false) (hfetched : (chan s n).fetched = [])
    (hhead : (chan s n).head < 2 ^ (chan s n).eff.sizeLog2.toNat) (hne : (chan s n).fetchTail ≠ (chan s n).head)
    (hgot : (chan s n).fetchGot.find? (·.1 == (chan s n).head) = some ((chan s n).head, d))
    (hchain : descChain d = false) :
    ∃ ds u, u = setChan n (fun c => { c with fetched := ds, fetchGot := [] }) s ∧
      (chainFault s n [d] = none → afterFetch n s = startTask n [d] u) ∧
      ∀ code k, chainFault s n [d] = some (code, k) → afterFetch n s = rejectTask n code k 0 (descTaskId d) u := by
  obtain ⟨ds, hds⟩ := take_head (size := 2 ^ (chan s n).eff.sizeLog2.toNat) hne hgot 7
  have htake : afterFetch.take (chan s n) (2 ^ (chan s n).eff.sizeLog2.toNat) 8
      ((chan s n).head % 2 ^ (chan s n).eff.sizeLog2.toNat) = d :: ds := by
    rw [Nat.mod_eq_of_lt hhead]
    exact hds
  have hfault : chainFault (setChan n (fun c => { c with fetched := d :: ds, fetchGot := [] }) s) n [d] =
      chainFault s n [d] :=
    chainFault_congr (chan_setChan_proj (fun c => c.task.map taskFirst) (by exact fun _ => rfl) n) rfl n [d]
  refine ⟨d :: ds, _, rfl, fun hnone => ?_, fun code k hsome => ?_⟩
  · rw [hnone] at hfault
    simp [afterFetch, hfailed, hfetched, htake, List.findIdx?_cons, hchain, hfault]
  · rw [hsome] at hfault
    simp [afterFetch, hfailed, hfetched, htake, List.findIdx?_cons, hchain, hfault]

theorem chan_startTask (hlen : n < s.strm.chans.length) (ds : List Line) : ∃ u,
    (chan (startTask n ds s) n).state = .running ∧ (chan (startTask n ds s) n).seq = (chan s n).seq + 1 ∧
      (chan (startTask n ds s) n).task = some u ∧ u.descs = ds ∧ u.head = (chan s n).head ∧ u.stage = .run ∧
      u.cut = 0 := by
  rw [startTask, chan_setChan hlen]
  exact ⟨_, rfl, rfl, rfl, rfl, rfl, rfl, rfl⟩

theorem exec_descriptorFetchDone {n : BitVec 4} (hw : working s = true) (hstate : (chan s n.toNat).state = .fetching)
    (hdue : (chan s n.toNat).fetchDue = 0)
    (hin : (chan s n.toNat).fetchGot ≠ [] ∨ (chan s n.toNat).fetchFailed = true) :
    exec (.descriptorFetchDone n) s = .next (afterFetch n.toNat s) := by
  refine congrArg Host.Outcome.next (if_pos ?_)
  simpa [hw, hstate, hdue] using hin

end

/-- Settles O47: a TAIL write by the fetch it begins, the fetch's end by the first descriptor. -/
theorem descriptorFetch : Obligations.DescriptorFetch := by
  intro s n w c hc hlen
  have hn : n.toNat < s.strm.chans.length := by rw [hlen]; exact n.isLt
  subst hc
  refine ⟨?_, fun hw hstate hdue => ⟨fun hfailed => ?_, ?_⟩⟩
  · rintro ha v rfl
    refine ⟨fun hbeyond => ?_, fun hv hidle hhead hne hfetched hdue => ?_⟩
    · rw [exec_chTailWrite ha, writeTail_beyond hbeyond]
    · obtain ⟨u, hhealth, htail, hstate, hasked, hwrite⟩ := writeTail_fetches hn hv hidle hhead hne hfetched hdue
      refine ⟨_, exec_chTailWrite ha, ?_⟩
      rw [hwrite, chan_respond, chan_enqueueAll]
      refine ⟨htail, hstate, hasked, fun i hi => groupReads_wait ?_ _ hi⟩
      rw [hhealth]
      exact ha.fatal
  · obtain ⟨desc, addr, hreject⟩ := afterFetch_failed hfailed
    refine ⟨_, exec_descriptorFetchDone hw hstate hdue (.inr hfailed), ?_⟩
    rw [hreject, chan_rejectTask (by simpa using hn), chan_setChan hn]
    exact ⟨rfl, rfl, rfl⟩
  · intro d hfailed hfetched hhead hne hgot _ hchain
    have hin : (chan s n.toNat).fetchGot ≠ [] := by
      intro hnil
      rw [hnil] at hgot
      exact nomatch hgot
    have hexec := exec_descriptorFetchDone hw hstate hdue (.inl hin)
    obtain ⟨ds, u, hu, hstart, hreject⟩ := afterFetch_single hfailed hfetched hhead hne hgot hchain
    have hlen' : n.toNat < u.strm.chans.length := by simpa [hu] using hn
    have hchan : chan u n.toNat = { chan s n.toNat with fetched := ds, fetchGot := [] } := by rw [hu, chan_setChan hn]
    refine ⟨fun hnone => ?_, fun code k hsome => ?_⟩
    · obtain ⟨v, hv⟩ := chan_startTask hlen' [d]
      rw [hchan] at hv
      exact ⟨_, v, hexec, by rw [hstart hnone]; exact hv⟩
    · refine ⟨_, hexec, ?_⟩
      rw [hreject code k hsome, chan_rejectTask hlen', hchan]
      exact ⟨rfl, rfl, rfl, rfl⟩

end Sys2Proof.Machine

/-! PROOF. Channel control (O48, O50): how a task's completion begins, and each action of CHn_CTL by the channel's
state. -/
namespace Sys2Proof.Machine

/-! ### The completion of a task begins (R327, R329) -/

section
variable {s : State} {n : Nat}

@[simp] theorem issueWriteback_strm (s : State) (n : Nat) : (issueWriteback n s).strm = s.strm := by
  simp only [issueWriteback]
  split
  · split
    · exact enqueue_strm _ _
    · rfl
  · rfl

@[simp] theorem chan_issueWriteback (s : State) (n m : Nat) : chan (issueWriteback n s) m = chan s m :=
  chan_of_chans (by rw [issueWriteback_strm]) m

variable {u : Task} (hlen : n < s.strm.chans.length) (htask : (chan s n).task = some u)
include hlen htask

theorem chan_beginWriteback : chan (beginWriteback n s) n =
    { chan s n with task := some { u with stage := .writeback u.descs.length } } := by
  simp [beginWriteback, hlen, htask]

theorem chan_issueReadback (second : Bool) : ∃ sent, chan (issueReadback n second s) n =
    { chan s n with task := some { u with stage := .readback second sent } } := by
  simp only [issueReadback, htask]
  split
  · exact ⟨true, by simp [hlen, htask]⟩
  · exact ⟨false, by simp [hlen, htask]⟩

omit hlen in
theorem afterPiece_waits (h : taskThrough u = false) : afterPiece n s = s := by
  simp [afterPiece, htask, h]

/-- Every piece is through: the write-backs follow, or first the read-back. -/
theorem chan_afterPiece_through (h : taskThrough u = true) (hstate : (chan s n).state ≠ .stopped) :
    ∃ x, x ≠ .run ∧ chan (afterPiece n s) n = { chan s n with task := some { u with stage := x } } := by
  have hgo : (taskThrough u && (chan s n).state != .stopped) = true := by simpa [h] using hstate
  simp only [afterPiece, htask, hgo, if_true]
  split
  · exact ⟨_, TaskStage.noConfusion, chan_beginWriteback hlen htask⟩
  · obtain ⟨sent, hchan⟩ := chan_issueReadback hlen htask false
    exact ⟨_, TaskStage.noConfusion, hchan⟩

end

/-! ### CHn_CTL takes one action (R329) -/

section
variable {s : State} {w : Word} {n : Nat}

theorem field_of_fieldNat {k : Nat} (h : fieldNat w 0 4 = k) : (field w 0 4 : BitVec 4) = BitVec.ofNat 4 k :=
  BitVec.eq_of_toNat_eq (by rw [← h]; simp [field, fieldNat])

theorem writeChCtl_stop (h : fieldNat w 0 4 = 1) : writeChCtl n w s = chStop n s := by
  rw [writeChCtl, field_of_fieldNat h]
  rfl

theorem writeChCtl_cancel (h : fieldNat w 0 4 = 2) : writeChCtl n w s = chCancel n s := by
  rw [writeChCtl, field_of_fieldNat h]
  rfl

theorem writeChCtl_resume (h : fieldNat w 0 4 = 4) : writeChCtl n w s = chResume n s := by
  rw [writeChCtl, field_of_fieldNat h]
  rfl

theorem writeChCtl_reset (h : fieldNat w 0 4 = 8) : writeChCtl n w s = chReset n s := by
  rw [writeChCtl, field_of_fieldNat h]
  rfl

theorem writeChCtl_conflict (h : 1 < popCount (field w 0 4 : BitVec 4)) : writeChCtl n w s = setChErr n 2 s := by
  have hbits : (field w 0 4 : BitVec 4) ≠ 0 := by
    intro h0
    rw [h0] at h
    exact absurd h (by decide)
  rw [writeChCtl, if_neg hbits, if_pos h]

/-- Each row of CHn_CTL is one write of the register. -/
theorem exec_chCtl (ha : Applies s) {n : BitVec 4} {i : Instr}
    (hi : i ∈ [Instr.chStop n w, .chCancel n w, .chResume n w, .chReset n w]) :
    exec i s = .next (respond 0x04 (writeChCtl n.toNat w s)) := by
  have hrow : exec i s = .next (ctlWrite (chAddr n 0x18) w (writeChCtl n.toNat w) s) := by
    simp only [List.mem_cons, List.not_mem_nil, or_false] at hi
    rcases hi with rfl | rfl | rfl | rfl <;> rfl
  rw [hrow, ctlWrite_applies ha]

/-! ### Actions that a state does not take (R329) -/

theorem chStop_wrong (h : (chan s n).state ∈ [ChState.stopping, .stopped, .rejected, .cancelling, .faulted]) :
    chStop n s = setChErr n 1 s := by
  simp only [List.mem_cons, List.not_mem_nil, or_false] at h
  rcases h with h | h | h | h | h <;> simp only [chStop, h]

theorem chCancel_wrong (h : (chan s n).state ∉ [ChState.running, .stopping, .stopped]) :
    chCancel n s = setChErr n 1 s := by
  cases hs : (chan s n).state <;> simp [hs] at h <;> simp only [chCancel, hs]

theorem chResume_wrong (h : (chan s n).state ∉ [ChState.stopped, .rejected, .faulted]) :
    chResume n s = setChErr n 1 s := by
  cases hs : (chan s n).state <;> simp [hs] at h <;> simp only [chResume, hs]

theorem chReset_wrong (h : (chan s n).state ∉ [ChState.disabled, .idle, .stopped, .rejected, .faulted]) :
    chReset n s = setChErr n 1 s := by
  cases hs : (chan s n).state <;> simp [hs] at h <;> simp only [chReset, hs]

/-! ### STOP and RESUME (R329) -/

theorem chStop_idle (h : (chan s n).state = .idle ∨ (chan s n).state = .disabled ∨ (chan s n).state = .fetching) :
    chStop n s = setChan n (fun c => { c with state := .stopped, err := 0 }) s := by
  rcases h with h | h | h <;> simp only [chStop, h]

theorem chan_chStop_running (hlen : n < s.strm.chans.length) (h : (chan s n).state = .running) :
    ∃ after, chan (chStop n s) n = { chan s n with state := .stopping, err := 0, stopAfter := after } := by
  simp only [chStop, h]
  exact ⟨_, chan_setChan hlen _⟩

theorem chResume_task {u : Task} (hstate : (chan s n).state = .stopped) (htask : (chan s n).task = some u) :
    chResume n s = afterPiece n (setChan n (fun c => { c with state := .running, err := 0 }) s) := by
  simp only [chResume, hstate, htask, setChErr, setChan_setChan]
  rfl

/-- With the ring at its end, a rejected or a faulted channel is IDLE again and holds nothing fetched. -/
theorem chResume_end (hlen : n < s.strm.chans.length)
    (hstate : (chan s n).state = .rejected ∨ (chan s n).state = .faulted)
    (hend : (chan s n).head = (chan s n).tail) : chResume n s =
      setChan n (fun c => { c with state := .idle }) (dropFetch n (setChan n (fun c => { c with err := 0 }) s)) := by
  have hchan := chan_dropFetch (s := setChan n (fun c => { c with err := 0 }) s) (n := n) (by simpa using hlen)
  have hresume : chResume n s = fetchOrIdle n (dropFetch n (setChan n (fun c => { c with err := 0 }) s)) := by
    rcases hstate with h | h <;> simp only [chResume, h]
  rw [hresume, fetchOrIdle_idle (by rw [hchan, chan_setChan hlen]; exact hend)]

/-! ### CANCEL (R330, R331) -/

section
variable {u : Task} (hstate : (chan s n).state = .running ∨ (chan s n).state = .stopping ∨ (chan s n).state = .stopped)
  (htask : (chan s n).task = some u)
include hstate htask

theorem chCancel_late (h : allGranted u = true) : chCancel n s = setChErr n 3 s := by
  rcases hstate with hs | hs | hs <;> simp only [chCancel, hs, htask, h, if_true]

theorem chCancel_ends (h : allGranted u = false) : chCancel n s = cancelTask n (countStrm 3 (taskInFlight u)
    (setChan n (fun c => { c with state := .cancelling, err := 0 }) s)) := by
  rcases hstate with hs | hs | hs <;> simp only [chCancel, hs, htask, h, Bool.false_eq_true, if_false]

end

/-! ### RESET (R329) -/

theorem chan_forgetTask (s : State) (n m : Nat) : chan (forgetTask n s) m = chan s m := rfl

/-- What goes with a started task: its pads, its ABORT entry if it has a queue, and its fault is latched. -/
def resetTask (n : Nat) (s : State) : State :=
  match (chan s n).task with
  | some t =>
    latchFault n 0x17 (BitVec.ofNat 8 (taskDescNow t)) 0 (taskId t) (forgetTask n (match taskDstQueue t with
      | some q => queueSettle q (setQueue q (fun u => { u with waiting := u.waiting ++ [abortEntry n t] })
          (padFreeAll (taskPads t) (ownerChan n) s))
      | none => padFreeAll (taskPads t) (ownerChan n) s))
  | none => s

theorem chReset_resets (h : (chan s n).state ∈ [ChState.disabled, .idle, .stopped, .rejected, .faulted]) :
    chReset n s = setChan n (fun c => { c with
      head := c.tail, err := 0, state := if c.eff.enable then .idle else .disabled })
      (dropFetch n (resetTask n s)) := by
  simp only [List.mem_cons, List.not_mem_nil, or_false] at h
  rcases h with h | h | h | h | h <;> (rw [chReset]; dsimp only; rw [h]; rfl)

theorem resetTask_chans_length (n : Nat) (s : State) : (resetTask n s).strm.chans.length = s.strm.chans.length := by
  unfold resetTask
  split
  · rw [latchFault_chans_length]
    split <;> simp [forgetTask, forgetMem, forgetFar]
  · rfl

theorem chan_resetTask (hlen : n < s.strm.chans.length) : (chan (resetTask n s) n).task = none ∧
    (chan (resetTask n s) n).tail = (chan s n).tail ∧ (chan (resetTask n s) n).eff = (chan s n).eff := by
  unfold resetTask
  split
  case h_1 t _ =>
    rw [chan_latchFault, chan_forgetTask]
    · split <;> simp
    · split <;> simpa [forgetTask, forgetMem, forgetFar] using hlen
  case h_2 hnone => exact ⟨hnone, rfl, rfl⟩

end

/-- Settles O48: each action by its equation in the channel's state. -/
theorem channelControl : Obligations.ChannelControl := by
  intro s n w c hc ha hlen
  have hn : n.toNat < s.strm.chans.length := by rw [hlen]; exact n.isLt
  have hexec (i : Instr) (hi : i ∈ [Instr.chStop n w, .chCancel n w, .chResume n w, .chReset n w]) :=
    exec_chCtl ha hi
  subst hc
  refine ⟨fun h => ⟨fun hs => ?_, fun hs => ?_⟩, fun h => ⟨fun u hs hu => ⟨fun hthrough => ?_, fun hthrough => ?_⟩,
    fun hs hend => ?_⟩, fun h u hs hu => ⟨fun hall => ?_, fun hall hflight hdst => ?_⟩, fun h hs => ?_,
    fun a ha' hwrong i hi => ?_, fun h i hi => ?_⟩
  · rw [hexec _ (by simp), writeChCtl_stop h, chStop_idle hs]
  · obtain ⟨after, hchan⟩ := chan_chStop_running hn hs
    refine ⟨_, hexec _ (by simp), ?_⟩
    rw [writeChCtl_stop h, chan_respond, hchan]
    exact ⟨rfl, rfl, rfl⟩
  · rw [hexec _ (by simp), writeChCtl_resume h, chResume_task hs hu, afterPiece_waits _ hthrough]
    rw [chan_setChan hn]
    exact hu
  · have hchan := chan_setChan hn fun c => { c with state := .running, err := 0 }
    obtain ⟨x, hx, hafter⟩ := chan_afterPiece_through
      (s := setChan n.toNat (fun c => { c with state := .running, err := 0 }) s) (by simpa using hn)
      (by rw [hchan]; exact hu) hthrough (by rw [hchan]; exact ChState.noConfusion)
    refine ⟨_, { u with stage := x }, hexec _ (by simp), ?_⟩
    rw [writeChCtl_resume h, chResume_task hs hu, chan_respond, hafter, hchan]
    exact ⟨rfl, rfl, rfl, hx⟩
  · refine ⟨_, hexec _ (by simp), ?_⟩
    rw [writeChCtl_resume h, chResume_end hn hs hend]
    refine ⟨?_, ?_, ?_, ?_, only_respond _ (by decide) (only_setChan _ _ (by decide) (only_dropFetch _ (by decide)
      (only_setChan _ _ (by decide) (only_refl _ s))))⟩ <;> simp [hn]
  · rw [hexec _ (by simp), writeChCtl_cancel h, chCancel_late hs hu hall]
    rfl
  · have hends := endsFaulted_settleEnding (s := countStrm 3 (taskInFlight u)
        (setChan n.toNat (fun c => { c with state := .cancelling, err := 0 }) s)) (n := n.toNat) (by simpa using hn)
      (by rw [chan_countStrm, chan_setChan hn]; exact hu) hflight hdst
      (f := fun t => { t with stage := .ending 0x17 (BitVec.ofNat 8 (taskDescNow t)) 0 }) rfl
    refine ⟨_, hexec _ (by simp), ?_⟩
    rw [writeChCtl_cancel h, chCancel_ends hs hu hall]
    exact ⟨hends.state, hends.faultCode, hends.faultTask, hends.task⟩
  · obtain ⟨htask, htail, heff⟩ := chan_resetTask (n := n.toNat) hn
    have hlen' : n.toNat < (resetTask n.toNat s).strm.chans.length := by rwa [resetTask_chans_length]
    refine ⟨_, hexec _ (by simp), ?_⟩
    rw [writeChCtl_reset h, chReset_resets hs, chan_respond, chan_setChan (by simpa using hlen'), chan_dropFetch hlen']
    exact ⟨htail, rfl, rfl, htask, by rw [heff]⟩
  · subst ha'
    have hwrite : writeChCtl n.toNat w s = setChErr n.toNat 1 s := by
      rcases hwrong with ⟨h, hs⟩ | ⟨h, hs⟩ | ⟨h, hs⟩ | ⟨h, hs⟩
      · rw [writeChCtl_stop h, chStop_wrong hs]
      · rw [writeChCtl_cancel h, chCancel_wrong hs]
      · rw [writeChCtl_resume h, chResume_wrong hs]
      · rw [writeChCtl_reset h, chReset_wrong hs]
    rw [hexec i hi, hwrite]
    rfl
  · rw [hexec i hi, writeChCtl_conflict h]
    rfl

end Sys2Proof.Machine

/-! PROOF. Bursts and pieces (O49): the channel that an issue stream grants, what a granted burst leaves, and a piece
that is wholly written. -/
namespace Sys2Proof.Machine

/-! ### The channel that is granted (R324) -/

section
variable {s : State} {q : IssueStream} {n : Nat}

/-- A rotation of the numbers below k is those numbers. -/
theorem mem_rotation {k c n : Nat} : n ∈ (List.range k).map (fun i => (c + i) % k) ↔ n < k := by
  simp only [List.mem_map, List.mem_range]
  constructor
  · rintro ⟨i, hi, rfl⟩
    exact Nat.mod_lt _ (by omega)
  · intro hn
    refine ⟨(n + (k - c % k)) % k, Nat.mod_lt _ (by omega), ?_⟩
    have hwhole : c + (n + (k - c % k)) = n + k * (c / k + 1) := by
      have hc := Nat.div_add_mod c k
      have hlt : c % k < k := Nat.mod_lt c (by omega)
      rw [Nat.mul_succ]
      omega
    rw [Nat.add_mod_mod, hwhole, Nat.add_mul_mod_self_left, Nat.mod_eq_of_lt hn]

/-- With an urgent channel ready, an urgent one is granted. -/
theorem pickChannel_urgent (h : pickChannel s q = some n) {m : Nat} (hm : m < 16)
    (hready : (readyPiece q (chan s m)).isSome) (hurgent : (chan s m).urgent = true) : (chan s n).urgent = true := by
  have hmem : m ∈ ((List.range 16).map fun i => (s.strm.last.getD (issueIndex q) 15 + 1 + i) % 16).filter
      fun n => chanReady s q n := by
    rw [List.mem_filter, mem_rotation]
    exact ⟨hm, by simp [chanReady, hready]⟩
  simp only [pickChannel] at h
  split at h
  case h_1 m' hp =>
    obtain rfl : m' = n := Option.some.inj h
    exact List.find?_some (p := fun n => (chan s n).urgent) hp
  case h_2 hnone => exact absurd hurgent (List.find?_eq_none.mp hnone m hmem)

/-! ### What a grant leaves (R324, R326) -/

theorem notePassed_last (g : Nat) : (notePassed q g s).strm.last = s.strm.last.set (issueIndex q) g := rfl

/-- The lines of a read burst from the stack. -/
def burstReads (n : Nat) (u : Task) (p : Piece) (len : Nat) : List MemReq :=
  (List.range len).map fun k =>
    { who := .stream n p.index (p.readNext + k), cls := .stream, write := false
      line := BitVec.ofNat 34 (srcLineAt u (p.start + 64 * (p.readNext + k))) }

theorem grantBurst_stackRead (n : Nat) (u : Task) (p : Piece) : ∃ t, grantBurst .stackRead n u p s =
    enqueueAll (burstReads n u p (burstLen u false (p.start + 64 * p.readNext) (pieceLen p - p.readNext))) t ∧
    t.strm.last = s.strm.last ∧ t.health = s.health :=
  ⟨_, rfl, rfl, rfl⟩

theorem grantBurst_farRead (n : Nat) (u : Task) (p : Piece) :
    (grantBurst .farRead n u p s).strm.last = s.strm.last ∧ (grantBurst .farRead n u p s).strm.farRead =
      some { chan := n, piece := p.index, first := p.readNext
             len := burstLen u false (p.start + 64 * p.readNext) (pieceLen p - p.readNext) } :=
  ⟨rfl, rfl⟩

theorem burstReads_wait (hfatal : s.health.fatal = false) (u : Task) (p : Piece) {len k : Nat} (hk : k < len) :
    ∃ x ∈ (enqueueAll (burstReads n u p len) s).mem.waiting, x.req.who = .stream n p.index (p.readNext + k) ∧
      x.req.cls = .stream ∧ x.req.write = false ∧
      x.req.line = BitVec.ofNat 34 (srcLineAt u (p.start + 64 * (p.readNext + k))) := by
  have hreads : ∀ r ∈ burstReads n u p len, r.write = false := by
    intro r hr
    obtain ⟨i, -, rfl⟩ := List.mem_map.mp hr
    rfl
  obtain ⟨x, hx, hreq⟩ := (enqueueAll_reads_wait hfatal hreads).2 _ (List.mem_map.mpr ⟨k, List.mem_range.mpr hk, rfl⟩)
  refine ⟨x, hx, ?_⟩
  rw [hreq]
  exact ⟨rfl, rfl, rfl, rfl⟩

theorem streamsGo_working (h : streamsGo s = true) : working s = true := by
  rw [streamsGo, Bool.and_eq_true] at h
  exact h.1

theorem streamsGo_fatal (h : streamsGo s = true) : s.health.fatal = false := working_fatal (streamsGo_working h)

/-- The zero sources that a write stream cuts before it grants (R323, R325). -/
def zerosCut (q : IssueStream) (s : State) : State :=
  if issueWrite q then (List.range 16).foldl (fun s n => cutZeroPiece n s) s else s

theorem streamBurstGrant_grants {u : Task} {p : Piece} (hgo : streamsGo (zerosCut q s) = true)
    (hfree : issueBusy (zerosCut q s) q = false) (hpick : pickChannel (zerosCut q s) q = some n)
    (htask : (chan (zerosCut q s) n).task = some u) (hpiece : readyPiece q (chan (zerosCut q s) n) = some p) :
    streamBurstGrant q s = grantBurst q n u p (notePassed q n (zerosCut q s)) := by
  rw [zerosCut] at *
  simp only [streamBurstGrant, hgo, hfree, hpick, htask, hpiece, Bool.not_true, Bool.or_self, Bool.false_eq_true,
    if_false]

end

/-! ### A piece that is wholly written (R323, R329) -/

section
variable {s : State} {n : Nat}

theorem settleStop_task (before m : Nat) : (chan (settleStop before n s) m).task = (chan s m).task := by
  unfold settleStop
  split
  · split
    · exact chan_setChan_proj StreamCh.task (by exact fun _ => rfl) n m
    · rfl
  · rfl

theorem settleStop_chans_length (before : Nat) :
    (settleStop before n s).strm.chans.length = s.strm.chans.length := by
  unfold settleStop
  split
  · split <;> simp
  · rfl

/-- The task's completion changes its stage alone. -/
theorem afterPiece_pieces (hlen : n < s.strm.chans.length) {u : Task} (htask : (chan s n).task = some u) :
    ∃ x, (chan (afterPiece n s) n).task = some { u with stage := x } := by
  unfold afterPiece
  rw [htask]
  dsimp only
  split
  · split
    · exact ⟨_, by rw [chan_beginWriteback hlen htask]⟩
    · obtain ⟨sent, hchan⟩ := chan_issueReadback hlen htask false
      exact ⟨_, by rw [hchan]⟩
  · exact ⟨u.stage, htask⟩

/-- The pad of a piece, if it has one, is freed. -/
def pieceFreed (n : Nat) (p : Piece) (s : State) : State :=
  match p.handle with
  | some h => padFree h (ownerChan n) s
  | none => s

theorem pieceFreed_chans (n : Nat) (p : Piece) (s : State) : (pieceFreed n p s).strm.chans = s.strm.chans := by
  unfold pieceFreed
  split
  · exact padFree_chans s _ _
  · rfl

/-- The piece leaves its task, its pad is freed, and the channel looks what follows. -/
theorem pieceThrough_written {u : Task} {p : Piece} {i : Nat} (htask : (chan s n).task = some u)
    (hstage : u.stage = .run) (hdst : taskDstQueue u = none) (hpiece : u.pieces.find? (·.index == i) = some p)
    (hdone : p.writeDone = pieceLen p) : ∃ f : Task → Task, (∀ t, (f t).pieces = t.pieces.filter (·.index != i)) ∧
      pieceThrough n i s = afterPiece n (settleStop (taskCurrent u) n (setTask n f (pieceFreed n p s))) := by
  refine ⟨fun t => { t with
    pieces := t.pieces.filter (·.index != i)
    written := addWritten (taskLens u) t.written p.start p.bytes
    lastLine := if p.start + p.bytes = taskTotal t then pieceOut s t p (pieceLen p - 1) else t.lastLine },
    fun _ => rfl, ?_⟩
  cases hhandle : p.handle <;> simp [pieceThrough, htask, hpiece, hstage, hdst, hdone, pieceFreed, hhandle]

/-- The task goes on without the piece, and of the pond its pad alone has changed. -/
theorem pieceThrough_leaves {u : Task} {p : Piece} {i : Nat} (hlen : n < s.strm.chans.length)
    (htask : (chan s n).task = some u) (hstage : u.stage = .run) (hdst : taskDstQueue u = none)
    (hpiece : u.pieces.find? (·.index == i) = some p) (hdone : p.writeDone = pieceLen p) :
    (∃ v, (chan (pieceThrough n i s) n).task = some v ∧ v.pieces = u.pieces.filter (·.index != i)) ∧
      (pieceThrough n i s).pond = (pieceFreed n p s).pond := by
  obtain ⟨f, hf, hthrough⟩ := pieceThrough_written htask hstage hdst hpiece hdone
  obtain ⟨r, hr⟩ : ∃ r, r = settleStop (taskCurrent u) n (setTask n f (pieceFreed n p s)) := ⟨_, rfl⟩
  have hfreed : n < (pieceFreed n p s).strm.chans.length := by rwa [pieceFreed_chans]
  have hrtask : (chan r n).task = some (f u) := by
    rw [hr, settleStop_task, chan_setTask hfreed, chan_of_chans (pieceFreed_chans _ p s), htask]
    rfl
  have hrlen : n < r.strm.chans.length := by
    rw [hr, settleStop_chans_length, setTask_chans_length]
    exact hfreed
  obtain ⟨x, hx⟩ := afterPiece_pieces hrlen hrtask
  rw [hthrough, ← hr]
  refine ⟨⟨_, hx, hf u⟩, ?_⟩
  exact (only_afterPiece (L := [.mem, .strm]) n (by decide) (hr ▸ only_settleStop _ _ (by decide)
    (only_setTask _ _ (by decide) (only_refl _ _)))).part .pond (by decide)

end

/-- Settles O49: a read burst by what its grant leaves, any burst by the equation of the grant, a piece by what its end
leaves. -/
theorem burstsAndPieces : Obligations.BurstsAndPieces := by
  intro s q n u p hlen
  refine ⟨fun hgo hread hfree hpick htask hpiece => ?_, ?_, ?_⟩
  · have hcut : zerosCut q s = s := by rw [zerosCut, hread]; rfl
    have hexec : exec (.streamBurstGrant q) s = .next (grantBurst q n u p (notePassed q n s)) := by
      have hgrant := streamBurstGrant_grants (q := q) (s := s) (n := n) (u := u) (p := p)
      rw [hcut] at hgrant
      exact congrArg Host.Outcome.next (hgrant hgo hfree hpick htask hpiece)
    refine ⟨fun ⟨m, hm, hready, hurgent⟩ => pickChannel_urgent hpick hm hready hurgent, ?_⟩
    rintro len rfl
    cases q with
    | stackRead =>
      obtain ⟨t, ht, hlast, hhealth⟩ := grantBurst_stackRead (s := notePassed .stackRead n s) n u p
      rw [ht] at hexec
      refine ⟨_, hexec, by rw [enqueueAll_strm, hlast, notePassed_last], fun _ k hk => burstReads_wait ?_ u p hk,
        fun h => nomatch h⟩
      rw [hhealth]
      exact streamsGo_fatal hgo
    | farRead =>
      obtain ⟨hlast, hwaits⟩ := grantBurst_farRead (s := notePassed .farRead n s) n u p
      exact ⟨_, hexec, hlast, (nomatch ·), fun _ => hwaits⟩
    | stackWrite | farWrite => exact nomatch hread
  · rintro s' hs' hgo hwrite hfree hpick htask hpiece
    obtain rfl : s' = zerosCut q s := by rw [hs', zerosCut, if_pos hwrite]
    exact congrArg Host.Outcome.next (streamBurstGrant_grants hgo hfree hpick htask hpiece)
  · intro m pc hw htask hstage hdst hpiece hdone
    have hm : m.toNat < s.strm.chans.length := by rw [hlen]; exact m.isLt
    obtain ⟨⟨v, hv, hpieces⟩, hpond⟩ := pieceThrough_leaves hm htask hstage hdst hpiece hdone
    refine ⟨_, congrArg Host.Outcome.next (if_pos hw), fun u' hu' y hy => ?_, fun h hhandle hgen howner hin => ?_⟩
    · obtain rfl := Option.some.inj (hv.symm.trans hu')
      rw [hpieces] at hy
      simpa using (List.mem_filter.mp hy).2
    · rw [pieceFreed, hhandle] at hpond
      have hpad := padAt_padFree hgen howner (ownerChan_ne_zero m.isLt) hin
      rw [padAt, hpond]
      exact congrArg Pad.owner hpad

end Sys2Proof.Machine

/-! PROOF. Stream tasks (O50): what a pop makes of its entry, what a read-back and the last write-back make of their
task, and the timers. -/
namespace Sys2Proof.Machine

/-! ### Pops (R338, R341) -/

section
variable {s : State} {n q : Nat} {u : Task} {e : PqEntry} {rest : List PqEntry}

/-- An entry has left its queue, and the task has progressed. -/
def entryTaken (n q : Nat) (rest : List PqEntry) (s : State) : State :=
  let s := setQueue q (fun u => { u with entries := rest }) s
  setTask n (fun t => { t with progress := now s }) s

theorem entryTaken_task (hlen : n < s.strm.chans.length) (htask : (chan s n).task = some u) :
    (chan (entryTaken n q rest s) n).task = some { u with progress := now s } := by
  rw [entryTaken, chan_setTask (by simpa using hlen), chan_setQueue, htask]
  rfl

theorem entryTaken_queue (hq : q < s.queues.length) :
    queue (entryTaken n q rest s) q = { queue s q with entries := rest } :=
  (queue_of_queues (by exact rfl) q).trans (queue_setQueue hq _)

theorem entryTaken_cnt (n q : Nat) (rest : List PqEntry) (s : State) :
    (entryTaken n q rest s).strm.cnt = s.strm.cnt := rfl

theorem entryTaken_pond (n q : Nat) (rest : List PqEntry) (s : State) : (entryTaken n q rest s).pond = s.pond := rfl

theorem entryTaken_producer (n q : Nat) (rest : List PqEntry) (s : State) :
    queueProducer (entryTaken n q rest s) q = queueProducer s q :=
  queueProducer_congr (fun m => chan_setChan_proj (fun c => c.task.map taskFirst)
    (fun c => by simp only [Option.map_map]; rfl) n m) q

/-- A running task with room for more takes the front entry of its source queue; before it has adopted a producer, a
FIRST data entry is consumed and any other is discarded. -/
theorem popEntry_first (hq : q < s.queues.length) (htask : (chan s n).task = some u)
    (hstate : (chan s n).state = .running) (hstage : u.stage = .run) (hroom : u.cut < taskTotal u) (hsrc : taskSrcQueue u = some q)
    (hentries : (queue s q).entries = e :: rest) (hwaiting : (queue s q).waiting = [])
    (hprod : queueProducer s q = none) (hadopted : u.adopted = none) : popEntry n s = if !e.abort && e.first
      then consumeEntry n u e (setTask n (fun t => { t with adopted := some (e.chan, e.seq) }) (entryTaken n q rest s))
      else discardEntry n e (entryTaken n q rest s) := by
  have hsettle : queueSettle q (entryTaken n q rest s) = entryTaken n q rest s :=
    queueSettle_nothing (by rw [entryTaken_queue hq]; exact hwaiting)
  have hnone : queueProducer (entryTaken n q rest s) q = none := by rw [entryTaken_producer, hprod]
  rw [entryTaken] at *
  simp only [popEntry, htask, hsrc, hstage, hroom, hstate, hentries, hsettle, hnone, hadopted, decide_true,
    Bool.and_true, Bool.true_or, if_true]

/-- An entry that fits the task's LEN becomes its next piece, under the channel's ownership. -/
theorem consumeEntry_fits (hfits : u.cut + e.bytes.toNat ≤ taskTotal u)
    (hlast : e.last = true ↔ u.cut + e.bytes.toNat = taskTotal u) : ∃ f : Task → Task,
      (∀ t, (f t).adopted = t.adopted ∧ (f t).cut = min (taskTotal t) (t.cut + e.bytes.toNat) ∧
        ∃ x, (f t).pieces = t.pieces ++ [x] ∧ x.start = t.cut ∧ x.bytes = min e.bytes.toNat (taskTotal t - t.cut) ∧
          x.handle = some e.handle) ∧
      consumeEntry n u e s = setTask n f (padGive e.handle (ownerChan n) s) := by
  have hshape : (taskTotal u < u.cut + e.bytes.toNat || e.last && u.cut + e.bytes.toNat < taskTotal u ||
      !e.last && u.cut + e.bytes.toNat == taskTotal u) = false := by
    cases h : e.last <;> simp [h] at hlast ⊢ <;> omega
  refine ⟨_, ?_, if_neg (Bool.eq_false_iff.mp hshape)⟩
  exact fun t => ⟨rfl, rfl, _, rfl, rfl, rfl, rfl⟩

theorem discardEntry_leaves (e : PqEntry) (s : State) : (discardEntry n e s).strm.chans = s.strm.chans ∧
    (discardEntry n e s).queues = s.queues ∧ bumpedAt s.strm.cnt (discardEntry n e s).strm.cnt 5 := by
  cases habort : e.abort with
  | true =>
    simp only [discardEntry, habort, if_true]
    exact ⟨rfl, rfl, bumpedAt_bump _ 5⟩
  | false =>
    simp only [discardEntry, habort, Bool.false_eq_true, if_false]
    refine ⟨by simp, by simp, fun hlen => ?_⟩
    rw [countStrm_strm]
    dsimp only
    rw [bump_getD, if_pos ⟨rfl, by rw [padFree_cnt_length, padGive_strm]; exact hlen⟩, padFree_cnt _ _ (by decide),
      padGive_strm]

end

/-- R333, R338, R341. -/
theorem queuePops : Rules.QueuePops := by
  intro s n u q e rest hgo hlen hqlen htask hstate hstage hroom hsrc hentries hwaiting hprod hadopted
  have hn : n.toNat < s.strm.chans.length := by rw [hlen]; exact n.isLt
  have hq : q < s.queues.length := by
    simp only [taskSrcQueue, descSrcQueue] at hsrc
    split at hsrc
    · rw [hqlen, ← Option.some.inj hsrc]
      exact Nat.mod_lt _ (by decide)
    · exact nomatch hsrc
  have hexec : exec (.pqPop n) s = .next (popEntry n.toNat s) := congrArg Host.Outcome.next (if_pos hgo)
  rw [popEntry_first hq htask hstate hstage hroom hsrc hentries hwaiting hprod hadopted] at hexec
  have htaken : (chan (entryTaken n.toNat q rest s) n.toNat).task = some { u with progress := now s } :=
    entryTaken_task hn htask
  have hnlen : n.toNat < (entryTaken n.toNat q rest s).strm.chans.length := by simpa [entryTaken] using hn
  refine ⟨fun habort hfirst hfits hlast => ?_, fun hskip => ?_⟩
  · obtain ⟨r, hr⟩ : ∃ r, r = setTask n.toNat (fun t => { t with adopted := some (e.chan, e.seq) })
      (entryTaken n.toNat q rest s) := ⟨_, rfl⟩
    have hrlen : n.toNat < r.strm.chans.length := by simpa [hr] using hnlen
    have hrtask : (chan r n.toNat).task = some { u with progress := now s, adopted := some (e.chan, e.seq) } := by
      rw [hr, chan_setTask hnlen, htaken]
      rfl
    obtain ⟨f, hf, hconsume⟩ := consumeEntry_fits (n := n.toNat) (s := r) hfits hlast
    rw [if_pos (by rw [habort, hfirst]; rfl), ← hr, hconsume] at hexec
    obtain ⟨v, hv⟩ : ∃ v, v = f { u with progress := now s, adopted := some (e.chan, e.seq) } := ⟨_, rfl⟩
    obtain ⟨hadopt, hcut, x, hpieces, hstart, hbytes, hhandle⟩ := hv ▸ hf _
    refine ⟨_, v, x, hexec, ?_, ?_, hpieces, hstart, ?_, hhandle, ?_, hadopt, fun hin => ?_⟩
    · rw [queue_setTask, queue_padGive, hr, queue_setTask, entryTaken_queue hq]
    · rw [chan_setTask (by rwa [padGive_strm]), chan_padGive, hrtask, hv]
      rfl
    · rw [hbytes]
      exact Nat.min_eq_left (Nat.le_sub_of_add_le' hfits)
    · rw [hcut]
      exact Nat.min_eq_right hfits
    · rw [padAt_setTask, padAt_padGive (by rw [hr, setTask_pond, entryTaken_pond]; exact hin)]
  · obtain ⟨hchans, hqueues, hcnt⟩ := discardEntry_leaves (n := n.toNat) e (entryTaken n.toNat q rest s)
    rw [if_neg (by rcases hskip with h | h <;> simp [h])] at hexec
    rw [entryTaken_cnt] at hcnt
    refine ⟨_, { u with progress := now s }, hexec, ?_, ?_, rfl, hadopted, hcnt⟩
    · rw [queue_of_queues hqueues, entryTaken_queue hq]
    · rw [chan_of_chans hchans, htaken]

/-! ### The read-back (R327, R331) -/

section
variable {s : State} {n : Nat} {u : Task} {f : Flight} {data : Line} {par : BitVec 66}

/-- A good answer to a read that is no confirm read goes to its requester. -/
theorem memReadReturn_good (hvoid : f.void = false) (hconfirm : f.req.confirm = false)
    (hpar : parityOk (data ++ (f.tag.setWidth 16 : BitVec 16) : BitVec 528) par = true) :
    memReadReturn f data par s = deliverRead f.req (some data) (dropFlight f s) := by
  simp only [memReadReturn, hpar, hconfirm, hvoid, Bool.and_false, Bool.false_and, Bool.not_true, Bool.false_eq_true,
    if_false]

theorem exec_streamReadbackReturn {n : BitVec 4} {ch : BitVec 5} {tag : BitVec 10}
    (hf : flightOf s ch tag false = some f) (hvoid : f.void = false) (hconfirm : f.req.confirm = false)
    (hwho : f.req.who = .readback n.toNat)
    (hpar : parityOk (data ++ (f.tag.setWidth 16 : BitVec 16) : BitVec 528) par = true) :
    exec (.streamReadbackReturn n (.stack ch tag data par)) s =
      .next (readbackDone n.toNat (some data) 0x12 (dropFlight f s)) := by
  have hrow : execStreamReadbackReturn n (.stack ch tag data par) s = .next (memReadReturn f data par s) := by
    simp [execStreamReadbackReturn, hf, hwho]
  rw [memReadReturn_good hvoid hconfirm hpar, deliverRead, hwho] at hrow
  exact hrow

section
variable {second sent : Bool} (htask : (chan s n).task = some u) (hstage : u.stage = .readback second sent)
include htask hstage

theorem readbackDone_equal (code : BitVec 8) : readbackDone n (some u.lastLine) code s = beginWriteback n s := by
  simp only [readbackDone, htask, hstage, if_true]

theorem readbackDone_again (hdata : data ≠ u.lastLine) (hsecond : second = false) (code : BitVec 8) :
    readbackDone n (some data) code s = issueReadback n true s := by
  simp only [readbackDone, htask, hstage, hdata, hsecond, Bool.false_eq_true, if_false]

theorem readbackDone_fails (hdata : data ≠ u.lastLine) (hsecond : second = true) (code : BitVec 8) :
    readbackDone n (some data) code s =
      taskFault n 0x13 (u.descs.length - 1) (BitVec.ofNat 64 (64 * taskLastDst u)) s := by
  simp only [readbackDone, htask, hstage, hdata, hsecond, if_true, if_false]

end

/-! ### The last write-back (R318, R327) -/

/-- The task is over: HEAD is past its descriptors, and its event goes out. -/
def taskOver (n : Nat) (u : Task) (stopped : Bool) (s : State) : State :=
  pulse (BitVec.ofNat 6 (16 + n)) (countStrm 0 1 (setChan n (fun c => { c with
    task := none, urgent := false, stopAfter := false
    head := (u.head + u.descs.length) % 2 ^ c.eff.sizeLog2.toNat
    state := if stopped then .stopped else .idle }) s))

theorem chan_taskOver (hlen : n < s.strm.chans.length) (stopped : Bool) :
    chan (taskOver n u stopped s) n = { chan s n with
    task := none, urgent := false, stopAfter := false
    head := (u.head + u.descs.length) % 2 ^ (chan s n).eff.sizeLog2.toNat
    state := if stopped then .stopped else .idle } := by
  simp [taskOver, hlen]

theorem taskOver_chans_length (stopped : Bool) : (taskOver n u stopped s).strm.chans.length = s.strm.chans.length := by
  simp [taskOver]

theorem taskOver_event (stopped : Bool) (hroom : s.evt.queue.length < 256) :
    (now s, BitVec.ofNat 6 (16 + n)) ∈ (taskOver n u stopped s).evt.queue :=
  mem_pulse hroom

/-- A task past its DEADLINE is counted and reported as it completes, if it has not been (R344). -/
def missNoted (n : Nat) (u : Task) (s : State) : State :=
  if taskDeadline u != 0 && taskDeadline u < taskStamp u && !(chan s n).missed then
    report 0x0705 (put 32 (taskId u) ||| putSat 0 4 n) (countStrm 4 1 s)
  else s

theorem missNoted_leaves (n : Nat) (u : Task) (s : State) : (missNoted n u s).strm.chans = s.strm.chans ∧
    (missNoted n u s).evt = s.evt ∧ now (missNoted n u s) = now s := by
  unfold missNoted
  split <;> exact ⟨rfl, rfl, rfl⟩

section
variable (htask : (chan s n).task = some u) (hstage : u.stage = .writeback 0) (hstamp : u.backAt < now s)
include htask hstage hstamp

theorem completeTask_stopped (hstop : (chan s n).state = .stopping ∨ (chan s n).stopAfter = true) :
    completeTask n s = taskOver n u true (missNoted n u s) := by
  have hnow : taskStamp u ≤ now s := hstamp
  have hstopped : ((chan s n).state == .stopping || (chan s n).stopAfter) = true := by simpa using hstop
  simp only [completeTask, htask, hstage, hnow, hstopped, decide_true, Bool.and_self, if_true]
  rfl

theorem completeTask_idle (hstate : (chan s n).state = .running) (hstop : (chan s n).stopAfter = false)
    (hlen : n < s.strm.chans.length) (hfetched : (chan s n).fetched = []) :
    completeTask n s = fetchOrIdle n (taskOver n u false (missNoted n u s)) := by
  have hnow : taskStamp u ≤ now s := hstamp
  have hstopped : ((chan s n).state == .stopping || (chan s n).stopAfter) = false := by rw [hstate, hstop]; rfl
  obtain ⟨hchans, -, -⟩ := missNoted_leaves n u s
  have hempty : (chan (taskOver n u false (missNoted n u s)) n).fetched.isEmpty = true := by
    rw [chan_taskOver (by rwa [hchans]), chan_of_chans hchans, hfetched]
    rfl
  simp only [completeTask, htask, hstage, hnow, hstopped, decide_true, Bool.and_self, if_true, Bool.false_eq_true,
    if_false]
  exact if_pos hempty

end
end

/-- R318, R320, R327, R331. -/
theorem tasksComplete : Rules.TasksComplete := by
  intro s n c u hc htask hlen
  have hn : n.toNat < s.strm.chans.length := by rw [hlen]; exact n.isLt
  subst hc
  refine ⟨?_, fun hw hstage hstamp => ?_⟩
  · intro ch tag data par f second sent hf hvoid hconfirm hwho hpar hstage
    have hexec := exec_streamReadbackReturn hf hvoid hconfirm hwho hpar
    have hn' : n.toNat < (dropFlight f s).strm.chans.length := hn
    have htask' : (chan (dropFlight f s) n.toNat).task = some u := htask
    refine ⟨fun hdata => ?_, fun hdata hsecond => ?_, fun hdata hsecond hflight hdst => ?_⟩
    · rw [hdata, readbackDone_equal htask' hstage] at hexec
      exact ⟨_, _, hdata ▸ hexec, by rw [chan_beginWriteback hn' htask'], rfl⟩
    · obtain ⟨b, hchan⟩ := chan_issueReadback hn' htask' true
      rw [readbackDone_again htask' hstage hdata hsecond] at hexec
      exact ⟨_, _, b, hexec, by rw [hchan], rfl⟩
    · rw [readbackDone_fails htask' hstage hdata hsecond] at hexec
      have hends := endsFaulted_taskFault hn' htask' (by rw [hstage]; exact fun _ _ _ => TaskStage.noConfusion) hflight
        hdst 0x13 (u.descs.length - 1) (BitVec.ofNat 64 (64 * taskLastDst u))
      exact ⟨_, hexec, hends.state, hends.faultCode⟩
  · have hexec : exec (.descriptorWritebackDone n) s = .next (completeTask n.toNat s) :=
      congrArg Host.Outcome.next (if_pos hw)
    obtain ⟨hchans, hevt, hnow⟩ := missNoted_leaves n.toNat u s
    have hlen' : n.toNat < (missNoted n.toNat u s).strm.chans.length := by rwa [hchans]
    refine ⟨fun hstop => ?_, fun hstate hstop hfetched hend => ?_⟩
    · rw [completeTask_stopped htask hstage hstamp hstop] at hexec
      refine ⟨_, hexec, ?_⟩
      rw [chan_taskOver hlen', chan_of_chans hchans]
      exact ⟨rfl, rfl, rfl⟩
    · obtain ⟨r, hr⟩ : ∃ r, r = taskOver n.toNat u false (missNoted n.toNat u s) := ⟨_, rfl⟩
      have hchan := chan_taskOver (u := u) hlen' false
      rw [← hr, chan_of_chans hchans] at hchan
      rw [completeTask_idle htask hstage hstamp hstate hstop hn hfetched, ← hr,
        fetchOrIdle_idle (by rw [hchan]; exact hend)] at hexec
      have hrlen : n.toNat < r.strm.chans.length := by rwa [hr, taskOver_chans_length]
      refine ⟨_, hexec, ?_, ?_, ?_, fun hroom => ?_⟩
      · rw [chan_setChan hrlen]
      · rw [chan_setChan hrlen, hchan]
      · rw [chan_setChan hrlen, hchan]
        exact hend
      · rw [setChan_evt, hr, ← hnow]
        exact taskOver_event _ (by rwa [hevt])

/-- R331, R342, R343, R344. -/
theorem taskTimers : Rules.TaskTimers := by
  intro s n u hw hlen
  have hn : n.toNat < s.strm.chans.length := by rw [hlen]; exact n.isLt
  refine ⟨fun htask hstalled hflight hdst => ?_, fun htask hspill hdeadline hnear => ?_,
    fun htask hdeadline hpast hlate hopen hmissed => ?_⟩
  · have hexec : exec (.padWatchdog n) s = .next (abortTask n.toNat 0x16 (countStrm 8 1 s)) :=
      congrArg Host.Outcome.next (if_pos (by rw [hw, hstalled]; rfl))
    have hstage : ∀ code desc addr, u.stage ≠ .ending code desc addr := by
      intro code desc addr hending
      simp [taskStalled, htask, hending] at hstalled
    have hends := endsFaulted_abortTask (s := countStrm 8 1 s) hn htask hstage hflight hdst 0x16
    refine ⟨_, hexec, hends.state, hends.faultCode, hends.task, fun hcnt => ?_⟩
    rw [hends.cnt 8 (by decide) (by decide) (by decide)]
    exact bumpedAt_bump _ 8 hcnt
  · refine congrArg Host.Outcome.next ?_
    simp only [htask]
    exact if_pos (by simp [hw, hspill, hdeadline]; omega)
  · refine congrArg Host.Outcome.next ?_
    simp only [htask]
    exact if_pos (by simpa [hw, hdeadline, hpast, hlate, hmissed] using hopen)

/-- Settles O50: a pop by its entry, a completion by its stage, a timer by its condition. -/
theorem streamTasks : Obligations.StreamTasks := ⟨queuePops, tasksComplete, taskTimers⟩

end Sys2Proof.Machine

/-! PROOF. The pond and the pad queues (O51): a fab cycle of the allocator, frees, the stalled pond, flushes, and the
commit of stream set-ups. -/
namespace Sys2Proof.Machine

/-! ### Folds in which few elements act -/

section
variable {α β : Type} {f : β → α → β} {l : List α}

theorem foldl_idle (h : ∀ a ∈ l, ∀ s, f s a = s) (s : β) : l.foldl f s = s := by
  induction l with
  | nil => rfl
  | cons a l ih =>
    rw [List.foldl_cons, h a List.mem_cons_self]
    exact ih fun b hb => h b (List.mem_cons_of_mem a hb)

/-- Where one element alone acts, and stands in the list once, the fold is its action. -/
theorem foldl_one (hnodup : l.Nodup) {a : α} (ha : a ∈ l) (h : ∀ b ∈ l, b ≠ a → ∀ s, f s b = s) (s : β) :
    l.foldl f s = f s a := by
  obtain ⟨l₁, l₂, rfl⟩ := List.append_of_mem ha
  obtain ⟨-, hcons, hdisj⟩ := List.nodup_append.mp hnodup
  rw [List.foldl_append, List.foldl_cons, foldl_idle, foldl_idle]
  · intro b hb
    exact h b (List.mem_append_left _ hb) (hdisj b hb a List.mem_cons_self)
  · intro b hb
    refine h b (List.mem_append_right _ (List.mem_cons_of_mem a hb)) fun hba => ?_
    exact (List.nodup_cons.mp hcons).1 (hba ▸ hb)

theorem le_foldl_max (g : α → Nat) (l : List α) (x : Nat) :
    x ≤ l.foldl (fun m b => max m (g b)) x ∧ ∀ a ∈ l, g a ≤ l.foldl (fun m b => max m (g b)) x := by
  induction l generalizing x with
  | nil => exact ⟨le_refl x, fun _ ha => nomatch ha⟩
  | cons b l ih =>
    obtain ⟨hx, hall⟩ := ih (max x (g b))
    refine ⟨(le_max_left _ _).trans hx, fun a ha => ?_⟩
    rcases List.mem_cons.mp ha with rfl | ha
    · exact (le_max_right _ _).trans hx
    · exact hall a ha

end

/-! ### The allocator (R334, R335) -/

section
variable {s : State}

/-- The requesters in the order of the fab cycle (R334). -/
theorem turnOrder_nodup (c : Nat) : ((List.range 32).map fun i => (c + i) % 32).Nodup := by
  refine List.Nodup.map_on (fun i hi j hj hij => ?_) List.nodup_range
  rw [List.mem_range] at hi hj
  omega

/-- Who asks for no pad has no turn. -/
theorem bind_allocTurn_idle {r : Nat} (h : padAsk s r = none)
    (a : Option (List (BitVec 11) × Nat × Nat × State)) : a.bind (allocTurn s r) = a := by
  have hturn : allocTurn s r = some := by
    funext x
    simp only [allocTurn, h]
  rw [hturn, Option.bind_fun_some]

theorem takePads_one {i : BitVec 11} (hfree : (padAt s i.toNat).owner = 0) (o : BitVec 6) (r : Nat) :
    takePads o r [i] s = some ([handleOf (padAt s i.toNat).gen i],
      setPad i.toNat (fun p => { p with owner := o, requester := BitVec.ofNat 5 r, lines := [] }) s) := by
  simp [takePads, hfree]

/-- The turn of a stream channel that may have its pad: the picked pad is its own and carries its next piece. -/
theorem allocTurn_chan {n : Nat} (hn : n < 16) {i : BitVec 11} (hask : padAsk s (n + 1) = some 1)
    (hallowed : grantAllowed s (n + 1) 1 = true) (hfree : (padAt s i.toNat).owner = 0) :
    allocTurn s (n + 1) ([i], 0, 0, s) = some ([], 1, 1, addPiece n (handleOf (padAt s i.toNat).gen i)
      (setPad i.toNat (fun p => { p with
        owner := ownerChan n, requester := BitVec.ofNat 5 (n + 1), lines := [] }) s)) := by
  have howner : requesterOwner (n + 1) = ownerChan n := by
    rw [requesterOwner, if_neg (Nat.succ_ne_zero n), if_pos (by omega)]
    rfl
  have hgiven (hs : List (BitVec 16)) (t : State) : padsGiven (n + 1) hs t = addPiece n (hs.headD 0) t := by
    rw [padsGiven, if_neg (Nat.succ_ne_zero n), if_pos (by omega)]
    rfl
  simp [allocTurn, hask, hallowed, takePads_one hfree, howner, hgiven]

/-- The turns of a fab cycle, one requester after another. -/
def allocTurns (picks : List (BitVec 11)) (s : State) : Option (List (BitVec 11) × Nat × Nat × State) :=
  ((List.range 32).map fun i => (s.clk.fab + i) % 32).foldl (fun a r => a.bind (allocTurn s r)) (some (picks, 0, 0, s))

theorem pondAllocate_unserved (h : s.pond.lastFab ≠ some s.clk.fab) {picks rest : List (BitVec 11)} {a b : Nat}
    {t : State} (hturns : allocTurns picks s = some (rest, a, b, t)) :
    pondAllocate picks s = { t with pond := { t.pond with lastFab := some s.clk.fab } } := by
  have hserved : (s.pond.lastFab == some s.clk.fab) = false := by simpa using h
  rw [allocTurns] at hturns
  simp only [pondAllocate, hserved, hturns, Bool.false_eq_true, if_false]

theorem allocTurns_idle (h : ∀ r < 32, padAsk s r = none) (picks : List (BitVec 11)) :
    allocTurns picks s = some (picks, 0, 0, s) :=
  foldl_idle (fun r hr => bind_allocTurn_idle (h r (mem_rotation.mp hr))) _

theorem allocTurns_one {r : Nat} (hr : r < 32) (h : ∀ j < 32, j ≠ r → padAsk s j = none) (picks : List (BitVec 11)) :
    allocTurns picks s = allocTurn s r (picks, 0, 0, s) :=
  foldl_one (turnOrder_nodup _) (mem_rotation.mpr hr)
    (fun j hj hne => bind_allocTurn_idle (h j (mem_rotation.mp hj) hne)) _

theorem chan_addPiece {n : Nat} (hlen : n < s.strm.chans.length) {u : Task} (htask : (chan s n).task = some u)
    (h : BitVec 16) : ∃ v x, (chan (addPiece n h s) n).task = some v ∧ v.pieces = u.pieces ++ [x] ∧
      x.handle = some h ∧ x.start = u.cut := by
  rw [addPiece, chan_setTask hlen, htask]
  exact ⟨_, _, rfl, rfl, rfl, rfl⟩

/-! ### Frees (R333, R336) -/

theorem padFree_refused {h : BitVec 16} {o : BitVec 6} (hbad : (padAt s (handleIndex h)).gen ≠ handleGen h ∨
    (padAt s (handleIndex h)).owner ≠ o ∨ o = 0) : ∃ reason, padFree h o s = padFreeInvalid reason h o s := by
  simp only [padFree]
  split_ifs with hgen hfree howner
  · exact ⟨3, rfl⟩
  · exact ⟨1, rfl⟩
  · exact ⟨2, rfl⟩
  · rcases hbad with h | h | rfl
    · exact absurd h hgen
    · exact absurd h howner
    · exact absurd (not_not.mp howner) hfree

theorem padFreeInvalid_latches (reason : BitVec 2) (h : BitVec 16) (o : BitVec 6) (s : State) :
    (padFreeInvalid reason h o s).pond.pads = s.pond.pads ∧ (padFreeInvalid reason h o s).pond.fault.valid = true :=
  ⟨rfl, FaultLatch.take_valid _ _ _⟩

theorem handleIndex_lt (h : BitVec 16) : handleIndex h < 2048 := (h.extractLsb' 0 11).isLt

end

/-- R333, R334, R335, R336. -/
theorem pondPads : Rules.PondPads := by
  intro s hw hpads
  have hexec (picks : List (BitVec 11)) : exec (.pondAllocate picks) s = .next (pondAllocate picks s) :=
    congrArg Host.Outcome.next (if_pos hw)
  refine ⟨fun hserved hnone picks => ?_, ?_, ?_⟩
  · rw [hexec, pondAllocate_unserved hserved (allocTurns_idle hnone picks)]
  · intro n i u hlen hserved hothers hask hallowed hfree htask
    have hn : n.toNat < s.strm.chans.length := by rw [hlen]; exact n.isLt
    have hi : i.toNat < s.pond.pads.length := by rw [hpads]; exact i.isLt
    obtain ⟨r, hr⟩ : ∃ r, r = setPad i.toNat (fun p => { p with
      owner := ownerChan n.toNat, requester := BitVec.ofNat 5 (n.toNat + 1), lines := [] }) s := ⟨_, rfl⟩
    have hturns := allocTurns_one (show n.toNat + 1 < 32 by have := n.isLt; omega) hothers [i]
    rw [allocTurn_chan n.isLt hask hallowed hfree, ← hr] at hturns
    have hstep := hexec [i]
    rw [pondAllocate_unserved hserved hturns] at hstep
    obtain ⟨v, x, hv, hpieces, hhandle, hstart⟩ := chan_addPiece (s := r) (by rw [hr]; exact hn)
      (by rw [hr]; exact htask) (handleOf (padAt s i.toNat).gen i)
    have hpad (j : Nat) : padAt (addPiece n.toNat (handleOf (padAt s i.toNat).gen i) r) j = padAt r j :=
      padAt_setTask _ _ _ _
    refine ⟨_, v, x, hstep, ?_, hv, hpieces, hhandle, hstart, fun j _ hj => ?_⟩
    · refine (congrArg Pad.owner (hpad i.toNat)).trans ?_
      rw [hr, padAt_setPad hi]
    · refine (hpad j).trans ?_
      rw [hr, padAt_setPad_ne hj]
  · rintro h freer p rfl
    have hfree : exec (.padFree h freer) s = .next (padFree h freer s) := congrArg Host.Outcome.next (if_pos hw)
    refine ⟨fun hgen howner hne => ?_, fun hbad => ?_⟩
    · have hpad := padAt_padFree hgen howner hne (by rw [hpads]; exact handleIndex_lt h)
      exact ⟨_, hfree, by rw [hpad], by rw [hpad], only_padFree_honoured hgen howner hne⟩
    · obtain ⟨reason, hreason⟩ := padFree_refused hbad
      obtain ⟨hkept, hvalid⟩ := padFreeInvalid_latches reason h freer s
      rw [hreason] at hfree
      exact ⟨_, hfree, hkept, hvalid, only_padFreeInvalid _ _ _ (by decide) (only_refl _ s)⟩

/-! ### The stalled pond (R342) -/

section
variable {s : State}

/-- FETCH has waited the watchdog's time: POND_STALL reads 1 and the wait starts anew. -/
def stallNoted (s : State) : State :=
  { s with strm := { s.strm with pondStall := true }, pond := { s.pond with stallSince := some (now s) } }

section
variable {t0 k : Nat} (hsince : s.pond.stallSince = some t0) (hasks : fetchAsks s = some k)
  (hlong : t0 + padWatchdogOf s ≤ now s)
include hsince hasks hlong

theorem pondStall_none (hnone : biggestTask s = none) : pondStall s = report 0x0704 0 (stallNoted s) := by
  have hbiggest : biggestTask (stallNoted s) = none := hnone
  simp only [pondStall, hsince, hasks, not_lt.mpr hlong, if_false]
  rw [stallNoted] at *
  simp only [hbiggest]

theorem pondStall_some {n : Nat} (hsome : biggestTask s = some n) :
    pondStall s = abortTask n 0x16 (countStrm 8 1 (report 0x0704 (putSat 0 4 n) (stallNoted s))) := by
  have hbiggest : biggestTask (stallNoted s) = some n := hsome
  simp only [pondStall, hsince, hasks, not_lt.mpr hlong, if_false]
  rw [stallNoted] at *
  simp only [hbiggest]

end

/-- The pads that a channel's task holds. -/
def padsHeld (s : State) (n : Nat) : Nat := ((chan s n).task.map fun t => (taskPads t).length).getD 0

theorem biggestTask_most {n : Nat} (h : biggestTask s = some n) :
    n < 16 ∧ ∀ m < 16, (chan s m).task.isSome = true → padsHeld s m ≤ padsHeld s n := by
  have hstarted := List.mem_filter.mp (List.mem_of_find?_eq_some h)
  refine ⟨List.mem_range.mp hstarted.1, fun m hm htask => ?_⟩
  have hmost : padsHeld s n = ((List.range 16).filter fun n => (chan s n).task.isSome).foldl
      (fun m n => max m (padsHeld s n)) 0 := eq_of_beq (List.find?_some (p := fun n => padsHeld s n == _) h)
  rw [hmost]
  exact (le_foldl_max (padsHeld s) _ 0).2 m (List.mem_filter.mpr ⟨List.mem_range.mpr hm, htask⟩)

/-! ### PQ_CTL.FLUSH (R340, R349) -/

/-- What waits for room takes the room that there is, in order. -/
theorem foldl_queueSettle {q : Nat} (ws : List PqEntry) (hq : q < s.queues.length) (hws : (queue s q).waiting = ws) :
    (queue (ws.foldl (fun s _ => queueSettle q s) s) q).entries =
        (queue s q).entries ++ ws.take (64 - (queue s q).entries.length) ∧
      (queue (ws.foldl (fun s _ => queueSettle q s) s) q).waiting = ws.drop (64 - (queue s q).entries.length) ∧
      (∀ j, j ≠ q → queue (ws.foldl (fun s _ => queueSettle q s) s) j = queue s j) ∧
      (ws.foldl (fun s _ => queueSettle q s) s).strm = s.strm := by
  induction ws generalizing s with
  | nil => exact ⟨by simp, by simpa using hws, fun _ _ => rfl, rfl⟩
  | cons e ws ih =>
    by_cases hroom : (queue s q).entries.length < 64
    · obtain ⟨t, ht⟩ : ∃ t, t = queuePush q e (setQueue q (fun u => { u with waiting := ws }) s) := ⟨_, rfl⟩
      have hsettle : queueSettle q s = t := by simp only [queueSettle, hws, hroom, if_true, ht]
      have hqueue : (queue t q).entries = (queue s q).entries ++ [e] ∧ (queue t q).waiting = ws := by
        rw [ht, queuePush, queue_setQueue (by simpa using hq), queue_setQueue hq]
        exact ⟨rfl, rfl⟩
      obtain ⟨hentries, hwaiting, hothers, hstrm⟩ := ih (s := t) (by simpa [ht, queuePush] using hq) hqueue.2
      have hleft : 64 - (queue s q).entries.length = 64 - (queue t q).entries.length + 1 := by
        rw [hqueue.1, List.length_append, List.length_singleton]
        omega
      rw [List.foldl_cons, hsettle, hleft, List.take_succ_cons, List.drop_succ_cons]
      refine ⟨by rw [hentries, hqueue.1, List.append_assoc, List.singleton_append], hwaiting, fun j hj => ?_, ?_⟩
      · rw [hothers j hj, ht, queuePush, queue_setQueue_ne hj, queue_setQueue_ne hj]
      · rw [hstrm, ht]
        rfl
    · have hfull : queueSettle q s = s := by simp only [queueSettle, hws, hroom, if_false]
      rw [List.foldl_fixed' (fun _ => hfull), Nat.sub_eq_zero_of_le (not_lt.mp hroom)]
      exact ⟨by simp, by simpa using hws, fun _ _ => rfl, rfl⟩

theorem flushQueue_free {q : Nat} (hq : q < s.queues.length) (hprod : queueProducer s q = none)
    (hcons : queueConsumer s q = none) : (queue (flushQueue q s) q).entries = (queue s q).waiting.take 64 ∧
      (queue (flushQueue q s) q).waiting = (queue s q).waiting.drop 64 ∧
      (∀ j, j ≠ q → queue (flushQueue q s) j = queue s j) ∧ (flushQueue q s).strm.chans = s.strm.chans := by
  obtain ⟨r, hr⟩ : ∃ r, r = padFreeAll ((queue s q).entries.filterMap fun e => if e.abort then none else some e.handle)
    (ownerQueue q) s := ⟨_, rfl⟩
  have hrqueues : r.queues = s.queues := by rw [hr, padFreeAll_queues]
  have hrq (j : Nat) : queue r j = queue s j := queue_of_queues hrqueues j
  have hflush : flushQueue q s = (queue s q).waiting.foldl (fun s _ => queueSettle q s)
      (setQueue q (fun u => { u with entries := [] }) r) := by
    simp only [flushQueue, hprod, hcons, Option.isSome_none, Bool.or_self, Bool.false_eq_true, if_false, ← hr, hrq]
  have hqueue : queue (setQueue q (fun u => { u with entries := [] }) r) q = { queue s q with entries := [] } := by
    rw [queue_setQueue (by rwa [hrqueues]), hrq]
  obtain ⟨hentries, hwaiting, hothers, hstrm⟩ := foldl_queueSettle (q := q) (queue s q).waiting
    (s := setQueue q (fun u => { u with entries := [] }) r) (by simpa [hrqueues] using hq) (by rw [hqueue])
  rw [hqueue] at hentries hwaiting
  rw [hflush]
  refine ⟨by rw [hentries]; rfl, hwaiting, fun j hj => ?_, ?_⟩
  · rw [hothers j hj, queue_setQueue_ne hj, hrq]
  · rw [hstrm, hr]
    exact padFreeAll_chans _ _ _

theorem flushQueue_used {q : Nat} (h : queueProducer s q ≠ none ∨ queueConsumer s q ≠ none) :
    flushQueue q s = report 0x0707 (putSat 0 4 q) s := by
  refine if_pos ?_
  rw [Bool.or_eq_true, Option.isSome_iff_ne_none, Option.isSome_iff_ne_none]
  exact h

/-- A write that names one queue flushes that queue. -/
theorem writePqCtl_one {w : Word} {q : Nat} (hq : q < 16) (h : ∀ j < 16, w.getLsbD j = decide (j = q)) :
    writePqCtl w s = flushQueue q s := by
  refine (foldl_one List.nodup_range (List.mem_range.mpr hq) (fun j hj hne t => if_neg ?_) s).trans (if_pos ?_)
  · rw [h j (List.mem_range.mp hj), decide_eq_true_eq]
    exact hne
  · rw [h q hq, decide_eq_true_eq]

/-! ### STRM_COMMIT (R346, R347, R529) -/

theorem writeStrmCommit_pending {w : Word} (hbit : w.getLsbD 0 = true) (himage : s.image.active ≠ none)
    (hfree : s.strm.pending = none) (hcheck : strmCheck s (s.strm.chans.map (·.stage)) = (0, 0)) :
    writeStrmCommit w s = { s with strm := { s.strm with
      err := 0, errCh := 0, pending := some (s.strm.chans.map (·.stage), nextBoundary (now s) 64) } } := by
  have hactive : s.image.active.isNone = false :=
    Option.isNone_eq_false_iff.mpr (Option.isSome_iff_ne_none.mpr himage)
  simp only [writeStrmCommit, hbit, hactive, hfree, hcheck, Bool.not_true, Option.isSome_none, Bool.false_eq_true,
    if_false, if_true]
  rfl

end

/-- R342, R346, R347, R349, R529. -/
theorem pondStallFlushCommit : Rules.PondStallFlushCommit := by
  intro s w
  refine ⟨?_, fun q hq ha hqlen hbits => ?_, fun ha hbit himage hfree hcheck => ?_⟩
  · intro t0 k s' hw hsince hasks hlong hs'
    obtain rfl : s' = stallNoted s := hs'
    have hexec : exec .pondStall s = .next (pondStall s) := congrArg Host.Outcome.next (if_pos hw)
    refine ⟨fun hnone => by rw [hexec, pondStall_none hsince hasks hlong hnone], ?_⟩
    intro n u hsome htask hflight hdst hstage hlen
    obtain ⟨hn, hmost⟩ := biggestTask_most hsome
    refine ⟨fun m hm v hv => ?_, ?_⟩
    · have hheld := hmost m hm (by rw [hv]; rfl)
      simpa [padsHeld, hv, htask] using hheld
    · rw [pondStall_some hsince hasks hlong hsome] at hexec
      have hends := endsFaulted_abortTask (s := countStrm 8 1 (report 0x0704 (putSat 0 4 n) (stallNoted s))) (n := n)
        (u := u) (by rw [← hlen] at hn; exact hn) htask hstage hflight hdst 0x16
      refine ⟨_, hexec, hends.pondStall, hends.state, hends.faultCode, hends.task, fun hcnt => ?_⟩
      rw [hends.cnt 8 (by decide) (by decide) (by decide)]
      exact bumpedAt_bump _ 8 hcnt
  · have hexec : exec (.pqFlush w) s = .next (respond 0x04 (flushQueue q s)) := by
      rw [← writePqCtl_one hq hbits]
      exact congrArg Host.Outcome.next (ctlWrite_applies ha _ _ _)
    refine ⟨fun hprod hcons => ⟨_, hexec, flushQueue_free (by rwa [hqlen]) hprod hcons⟩, fun hused => ?_⟩
    rw [hexec, flushQueue_used hused]
  · rw [← writeStrmCommit_pending hbit himage hfree hcheck]
    exact congrArg Host.Outcome.next (ctlWrite_applies ha _ _ _)

/-- Settles O51: the allocator by the turns of its fab cycle, a free by its checks, the stall by the task that gives way,
a flush by the queue's users, the commit by its checks. -/
theorem pondAndQueues : Obligations.PondAndQueues := ⟨pondPads, pondStallFlushCommit⟩

end Sys2Proof.Machine

/-! PROOF. The far port (O53): a burst that crosses whole, what a requester's outcome leaves of the port, and each answer
by its branch. -/
namespace Sys2Proof.Machine

/-! ### Bursts (R326, R359, R450) -/

section
variable {s : State} {write : Bool}

/-- Issuing a burst changes its requester, not the port. -/
theorem run_far (a : FarAct) (s : State) : (a.run s).far = s.far := by
  cases a <;> rfl

/-- The lines of a burst cross one after another under their tags. -/
def crossLines (write : Bool) (src : BitVec 6) (urgent : Bool) (zs : List ((Who × BitVec 58 × Line) × BitVec 12))
    (s : State) : State :=
  zs.foldl (fun s ((who, line, data), tag) => farSend who write line data src urgent tag s) s

theorem crossLines_out (src : BitVec 6) (urgent : Bool) (zs : List ((Who × BitVec 58 × Line) × BitVec 12)) (s : State) :
    ∃ rs, (crossLines write src urgent zs s).far.out = s.far.out ++ rs ∧ rs.length = zs.length ∧
      ∀ z ∈ zs, ∃ r ∈ rs, r.tag = z.2 ∧ r.write = write ∧ r.src = src ∧ r.urgent = urgent ∧
        (r.who, r.line, r.data) = z.1 := by
  induction zs generalizing s with
  | nil => exact ⟨[], (List.append_nil _).symm, rfl, fun _ hz => nomatch hz⟩
  | cons z zs ih =>
    obtain ⟨⟨who, line, data⟩, tag⟩ := z
    obtain ⟨rs, hout, hlen, hall⟩ := ih (farSend who write line data src urgent tag s)
    refine ⟨_ :: rs, hout.trans (List.append_assoc _ [_] rs), congrArg Nat.succ hlen, fun z hz => ?_⟩
    rcases List.mem_cons.mp hz with rfl | hz
    · exact ⟨_, List.mem_cons_self, rfl, rfl, rfl, rfl, rfl⟩
    · obtain ⟨r, hr, hprops⟩ := hall z hz
      exact ⟨r, List.mem_cons_of_mem _ hr, hprops⟩

/-- The burst that a grant makes cross; in a turn of the rotation its source is remembered. -/
def burstCrossed (write turn : Bool) (o : FarOffer) (tags : List (BitVec 12)) (s : State) : State :=
  let s := crossLines write o.src o.urgent (o.lines.zip tags) (o.act.run s)
  if !turn then s
  else { s with far := if write then { s.far with lastWrite := o.src } else { s.far with lastRead := o.src } }

theorem burstCrossed_out (turn : Bool) (o : FarOffer) (tags : List (BitVec 12)) (s : State) :
    (burstCrossed write turn o tags s).far.out =
      (crossLines write o.src o.urgent (o.lines.zip tags) (o.act.run s)).far.out := by
  cases turn <;> cases write <;> rfl

theorem farBurstGrant_grants {o : FarOffer} {turn : Bool} {tags : List (BitVec 12)}
    (hpick : pickOffer s write = some (o, turn)) (hlen : tags.length = o.lines.length)
    (hfree : tagsFree s write tags = true) : farBurstGrant write tags s = burstCrossed write turn o tags s := by
  have htake : tags.take o.lines.length = tags := by rw [← hlen, List.take_length]
  simp only [farBurstGrant, hpick, htake, hlen, lt_irrefl, decide_false, hfree, Bool.not_true, Bool.or_self,
    Bool.false_eq_true, if_false]
  rfl

/-- Without a tag for every line nothing crosses. -/
theorem farBurstGrant_short {o : FarOffer} {turn : Bool} {tags : List (BitVec 12)}
    (hpick : pickOffer s write = some (o, turn)) (hlen : tags.length < o.lines.length) :
    farBurstGrant write tags s = s := by
  have hshort : (tags.take o.lines.length).length < o.lines.length :=
    (List.length_take_le' _ _).trans_lt hlen
  simp only [farBurstGrant, hpick, hshort, decide_true, Bool.true_or, if_true]

theorem pickOffer_delta {d : FarOffer} {ds : List FarOffer} (husable : s.power.usable = true)
    (hcalm : ∀ o ∈ streamOffer s write ++ (if write then [] else readbackOffers s), o.urgent = false)
    (hdelta : (if write then deltaWrites s else deltaReads s) = d :: ds) : pickOffer s write = some (d, false) := by
  have hnone : (streamOffer s write ++ (if write then [] else readbackOffers s)).find? (·.urgent) = none :=
    List.find?_eq_none.mpr fun o ho => by rw [hcalm o ho]; exact Bool.false_ne_true
  simp only [pickOffer, husable, if_true, hnone, hdelta, List.head?_cons]

end

/-- R326, R359, R450, R451. -/
theorem farBursts : Rules.FarBursts := by
  intro s write tags hw
  have hexec : exec (.farBurstGrant write tags) s = .next (farBurstGrant write tags s) :=
    congrArg Host.Outcome.next (if_pos hw)
  refine ⟨fun o turn hpick hlen hfree => ?_, fun o turn hpick hlen => by rw [hexec, farBurstGrant_short hpick hlen],
    fun d ds => pickOffer_delta⟩
  obtain ⟨rs, hout, hrs, hall⟩ := crossLines_out (write := write) o.src o.urgent (o.lines.zip tags) (o.act.run s)
  rw [run_far] at hout
  have hzip : (o.lines.zip tags).length = o.lines.length := by rw [List.length_zip, hlen, min_self]
  refine ⟨_, hexec, ?_⟩
  rw [farBurstGrant_grants hpick hlen hfree, burstCrossed_out, hout]
  refine ⟨by rw [List.length_append, hrs, hzip], List.take_left, fun i hi => ?_⟩
  obtain ⟨r, hr, htag, hwrite, hsrc, hurgent, hline⟩ :=
    hall _ (List.getElem_mem (by rwa [hzip] : i < (o.lines.zip tags).length))
  rw [List.getElem_zip] at htag hline
  refine ⟨r, List.mem_append_right _ hr, ?_, hwrite, hsrc, hurgent, ?_⟩
  · rw [htag, List.getD_eq_getElem]
  · rw [hline, List.getD_eq_getElem]

/-! ### What a requester's outcome leaves of the port (R331, R360, R365, R369) -/

/-- The requests outstanding, by direction and tag. -/
def farTags (s : State) : List (Bool × BitVec 12) := s.far.out.map fun r => (r.write, r.tag)

/-- The same requests are outstanding; the tags held out of use, TIMEOUT and the counters are as they were. -/
structure SameFar (s t : State) : Prop where
  tags : farTags t = farTags s
  held : t.far.held = s.far.held
  timeout : t.far.timeout = s.far.timeout
  cnt : t.far.cnt = s.far.cnt

section
variable {s t u : State}

theorem sameFar_of_far (h : t.far = s.far) : SameFar s t := by
  constructor <;> simp only [farTags, h]

theorem sameFar_only {L : List Part} (h : OnlyChanges L s t) (hL : Part.far ∉ L) : SameFar s t :=
  sameFar_of_far (h.part .far hL)

theorem SameFar.trans (h : SameFar s t) (h' : SameFar t u) : SameFar s u :=
  ⟨h'.tags.trans h.tags, h'.held.trans h.held, h'.timeout.trans h.timeout, h'.cnt.trans h.cnt⟩

theorem sameFar_set_xch {x : Exports} (h : SameFar s t) : SameFar s { t with xch := x } := h.trans (sameFar_of_far rfl)

theorem sameFar_ite {c : Prop} [Decidable c] (ht : SameFar s t) (hu : SameFar s u) :
    SameFar s (if c then t else u) := by
  split <;> assumption

/-- A request whose requester gives it up stays outstanding. -/
theorem sameFar_forgetFar (p : Who → Bool) (s : State) : SameFar s (forgetFar p s) := by
  refine ⟨?_, rfl, rfl, rfl⟩
  simp only [farTags, forgetFar, List.map_map]
  refine List.map_congr_left fun r _ => ?_
  simp only [Function.comp_apply]
  split <;> rfl

end

section
variable (s : State) (k : Nat)

theorem sameFar_setXch (f : XChan → XChan) : SameFar s (setXch k f s) := sameFar_of_far rfl

theorem sameFar_padFreeAll (hs : List (BitVec 16)) (o : BitVec 6) : SameFar s (padFreeAll hs o s) :=
  sameFar_only (only_padFreeAll hs o (List.Subset.refl _) (only_refl _ s)) (by decide)

theorem sameFar_dropReads (p : Who → Bool) : SameFar s (dropReads p s) := sameFar_of_far rfl

theorem sameFar_endJob : SameFar s (endJob k s) := by
  simp only [endJob]
  exact sameFar_set_xch ((((sameFar_setXch s k _).trans (sameFar_padFreeAll _ _ _)).trans (sameFar_dropReads _ _)).trans
    (sameFar_forgetFar _ _))

theorem sameFar_settleStopX : SameFar s (settleStopX k s) := by
  unfold settleStopX
  split
  · exact sameFar_ite ((sameFar_setXch s k _).trans (sameFar_endJob _ k)) (sameFar_of_far rfl)
  · exact sameFar_of_far rfl

theorem sameFar_xchFault (code : BitVec 8) (line : BitVec 56) : SameFar s (xchFault k code line s) := by
  have hread : SameFar s (dropPads k (dropLagRead k s)) :=
    sameFar_only (only_dropPads (L := [.health, .mem, .strm, .pond, .xch]) k (by decide)
      (only_dropLagRead k (by decide) (only_refl _ s))) (by decide)
  have hleave (u : State) : SameFar u (pulse (BitVec.ofNat 6 (56 + k)) (leaveOffers k u)) :=
    (sameFar_only (only_leaveOffers k (List.Subset.refl _) (only_refl _ u)) (by decide)).trans
      (sameFar_of_far (pulse_far _ _))
  unfold xchFault
  exact (((hread.trans (sameFar_endJob _ k)).trans (sameFar_padFreeAll _ _ _)).trans (sameFar_forgetFar _ _)).trans
    ((sameFar_setXch _ k _).trans (hleave _))

theorem sameFar_recordAck (seq : BitVec 32) (i : Nat) (ok : Bool) (code : BitVec 8) :
    SameFar s (recordAck k seq i ok code s) := by
  unfold recordAck
  dsimp only
  split
  · refine sameFar_ite ?_ (sameFar_xchFault s k _ _)
    exact sameFar_only (only_lagStart (L := [.health, .mem, .strm, .pond, .xch]) k (by decide)
      (only_assembleAll (by decide) (only_settleRecords k _ (by decide)
        (only_setXch k _ (by decide) (only_refl _ s))))) (by decide)
  · exact sameFar_of_far rfl

theorem sameFar_creditDone (data : Option Line) (code : BitVec 8) : SameFar s (creditDone k data code s) := by
  unfold creditDone
  dsimp only
  split
  · exact sameFar_ite (sameFar_xchFault s k _ _) (sameFar_setXch s k _)
  · exact sameFar_ite (sameFar_xchFault s k _ _) (sameFar_of_far rfl)

theorem sameFar_copyAck (i : Nat) (ok : Bool) (code : BitVec 8) : SameFar s (copyAck k i ok code s) := by
  unfold copyAck
  split
  · refine sameFar_ite ?_ (sameFar_xchFault s k _ _)
    split
    · refine SameFar.trans ?_ (sameFar_settleStopX _ k)
      exact (sameFar_ite (sameFar_only (only_padFree _ _ (List.Subset.refl _) (only_refl _ s)) (by decide))
        (sameFar_of_far rfl)).trans (sameFar_of_far rfl)
    · exact sameFar_of_far rfl
  · exact sameFar_of_far rfl

theorem sameFar_copyBackDone (data : Option Line) (code : BitVec 8) : SameFar s (copyBackDone k data code s) := by
  unfold copyBackDone
  split
  · dsimp only
    split
    · refine sameFar_ite ((sameFar_setXch s k _).trans (sameFar_settleStopX _ k))
        (sameFar_ite (sameFar_setXch s k _) (sameFar_ite (sameFar_xchFault s k _ _) (sameFar_setXch s k _)))
    · exact sameFar_xchFault s k _ _
  · exact sameFar_of_far rfl

/-- No outcome touches the port's requests, but for whom they are answered to. -/
theorem sameFar_deliverFar (r : FarReq) (data : Option Line) (code : BitVec 8) :
    SameFar s (deliverFar r data code s) := by
  unfold deliverFar
  split
  · refine sameFar_ite ?_ ?_
    · exact sameFar_only (only_streamWriteDone _ _ _ _ _ (List.Subset.refl _) (only_refl _ s)) (by decide)
    · exact sameFar_only (only_streamReadDone _ _ _ _ _ (List.Subset.refl _) (only_refl _ s)) (by decide)
  · exact sameFar_only (only_readbackDone _ _ _ (List.Subset.refl _) (only_refl _ s)) (by decide)
  · exact sameFar_recordAck s _ _ _ _ _
  · exact sameFar_ite (sameFar_setXch s _ _) (sameFar_ite (sameFar_xchFault s _ _ _) (sameFar_of_far rfl))
  · exact sameFar_creditDone s _ _ _
  · exact sameFar_copyAck s _ _ _ _
  · exact sameFar_copyBackDone s _ _ _
  · exact sameFar_only (only_imageLine _ _ (List.Subset.refl _) (only_refl _ s)) (by decide)
  · exact sameFar_of_far rfl

end

/-! ### Responses (R331, R451, R452) -/

section
variable {s : State} {write : Bool} {tag : BitVec 12} {resp : BitVec 2} {data : Line} {r : FarReq}

theorem farResponse_good (hfind : farFind s write tag = some r) : farResponse write tag resp data true s =
    deliverFar r (if resp = 0 then some data else none) (if resp = 1 then farTranslation else farError)
      (farDrop r s) := by
  simp only [farResponse, hfind, Bool.not_true, Bool.false_eq_true, if_false]

/-- A bad response is NAKed in the next port cycle. -/
def farNaked (write : Bool) (tag : BitVec 12) (s : State) : State :=
  setFar (fun f => { f with naks := (f.naks.filter fun x => portNow s ≤ x.2.2) ++ [(write, tag, portNow s + 1)] }) s

theorem farResponse_bad (hfind : farFind s write tag = some r) : farResponse write tag resp data false s =
    if r.respFails + 1 < 3
      then countPort 2 1 (farModify r (fun x => { x with respFails := x.respFails + 1 }) (farNaked write tag s))
      else farFatal r (farNaked write tag s) := by
  simp only [farResponse, hfind, Bool.not_false, if_true, farNaked]

theorem farResponse_late (hfind : farFind s write tag = none) :
    farResponse write tag resp data true s = farLate write tag s := by
  simp only [farResponse, hfind, if_true]

/-! ### NAKs of requests (R298, R433, R451) -/

section
variable (hfind : s.far.out.find? (fun r => r.write == write && r.acc + 1 == portNow s) = some r)
include hfind

theorem exec_farRequestNak (par : BitVec 2) : exec (.farRequestNak write tag par) s = .next (farNak r tag par s) := by
  show execFarRequestNak write tag par s = _
  rw [execFarRequestNak, hfind]

theorem naked_request : r ∈ s.far.out ∧ r.write = write ∧ r.acc + 1 = portNow s := by
  have hnames := List.find?_some hfind
  simp only [Bool.and_eq_true, beq_iff_eq] at hnames
  exact ⟨List.mem_of_find?_eq_some hfind, hnames.1, hnames.2⟩

end

/-- A request of the NAKed one's direction whose cycle is taken crosses one later. -/
def FarReq.delayed (r : FarReq) (at' : Nat) (x : FarReq) : FarReq :=
  if x.write == r.write && at' ≤ x.acc then { x with acc := x.acc + 1 } else x

/-- The NAKed request goes again in the given cycle. -/
def FarReq.again (r : FarReq) (at' : Nat) (x : FarReq) : FarReq :=
  if x.write == r.write && x.tag == r.tag then { x with fails := x.fails + 1, acc := at' } else x

theorem FarReq.delayed_tag (r : FarReq) (at' : Nat) (x : FarReq) :
    (r.delayed at' x).tag = x.tag ∧ (r.delayed at' x).write = x.write := by
  unfold FarReq.delayed
  split <;> exact ⟨rfl, rfl⟩

/-- The cycle of the replay is free of its direction's other requests. -/
theorem FarReq.delayed_acc {r x : FarReq} {at' : Nat} (h : x.write = r.write) : (r.delayed at' x).acc ≠ at' := by
  unfold FarReq.delayed
  split
  case isTrue hlate =>
    simp only [Bool.and_eq_true, decide_eq_true_eq] at hlate
    have hacc : at' ≤ x.acc := hlate.2
    show x.acc + 1 ≠ at'
    omega
  case isFalse hearly =>
    intro hacc
    exact hearly (by simp [h, hacc])

theorem farNak_out (hfails : r.fails + 1 < 3) (par : BitVec 2) : (farNak r tag par s).far.out =
    s.far.out.map fun x => r.again (portNow s + 1) (r.delayed (portNow s + 1) x) := by
  have hout : (nakTag r.tag tag par s).far.out = s.far.out := by
    rw [nakTag_far]
    split <;> rfl
  simp only [farNak, hfails, if_true, nakTag_portNow]
  rw [← hout, ← Function.comp_def, ← List.map_map]
  rfl

theorem only_farNak_again (hfails : r.fails + 1 < 3) (par : BitVec 2) : OnlyChanges [.far] s (farNak r tag par s) := by
  simp only [farNak, hfails, if_true]
  exact only_countPort _ _ (by decide) (only_farModify _ _ (by decide) (only_setFar _ (by decide)
    (only_nakTag _ _ _ (by decide) (only_refl _ s))))

theorem farNak_fatal (hfails : 3 ≤ r.fails + 1) (par : BitVec 2) :
    farNak r tag par s = farFatal r (nakTag r.tag tag par s) := by
  simp only [farNak, not_lt.mpr hfails, if_false]

theorem farNak_again (hmem : r ∈ s.far.out) (hacc : r.acc + 1 = portNow s) (hfails : r.fails + 1 < 3) (par : BitVec 2) :
    (∃ x ∈ (farNak r tag par s).far.out, x.tag = r.tag ∧ x.who = r.who ∧ x.fails = r.fails + 1 ∧
        x.acc = portNow s + 1) ∧
      ∀ x ∈ (farNak r tag par s).far.out, x.write = r.write → x.tag ≠ r.tag → x.acc ≠ portNow s + 1 := by
  rw [farNak_out hfails]
  refine ⟨⟨_, List.mem_map.mpr ⟨r, hmem, rfl⟩, ?_⟩, fun x hx hwrite htag => ?_⟩
  · have hkept : r.delayed (portNow s + 1) r = r := if_neg (by simp; omega)
    rw [hkept, FarReq.again, if_pos (by simp)]
    exact ⟨rfl, rfl, rfl, rfl⟩
  · obtain ⟨y, hy, rfl⟩ := List.mem_map.mp hx
    obtain ⟨hytag, hywrite⟩ := r.delayed_tag (portNow s + 1) y
    have hkept : r.again (portNow s + 1) (r.delayed (portNow s + 1) y) = r.delayed (portNow s + 1) y := by
      refine if_neg fun hsame => htag ?_
      rw [FarReq.again, if_pos hsame]
      simp only [Bool.and_eq_true, beq_iff_eq] at hsame
      exact hsame.2
    rw [hkept] at hwrite ⊢
    exact FarReq.delayed_acc (hywrite.symm.trans hwrite)

/-! ### Timeouts (R452) -/

theorem farFind_names (hfind : farFind s write tag = some r) : r.write = write ∧ r.tag = tag := by
  have hnames := List.find?_some hfind
  simpa only [Bool.and_eq_true, beq_iff_eq] using hnames

theorem exec_farTimeout (hfind : farFind s write tag = some r) (hrun : running s = true)
    (hdue : 3 * r.acc / 10 + 480000 ≤ now s) : exec (.farTimeout write tag) s = .next (farTimeout r s) := by
  refine congrArg Host.Outcome.next ?_
  simp only [hfind]
  exact if_pos (by simp [hrun, hdue])

/-- The request is gone, its tag is held, and TIMEOUT is set and counted. -/
theorem farTimeout_leaves (r : FarReq) (s : State) : (farTimeout r s).far.timeout = true ∧
    (r.write, r.tag) ∈ (farTimeout r s).far.held ∧ (r.write, r.tag) ∉ farTags (farTimeout r s) ∧
    (farTimeout r s).far.cnt = bump s.far.cnt 0 1 := by
  obtain ⟨u, hu⟩ : ∃ u, u = countPort 0 1 (setFar (fun f => { f with
    held := f.held ++ [(r.write, r.tag)], timeout := true, timeoutAt := now (farDrop r s) }) (farDrop r s)) := ⟨_, rfl⟩
  have hsame : SameFar u (farTimeout r s) := hu ▸ sameFar_deliverFar _ r none farError
  rw [hsame.timeout, hsame.held, hsame.tags, hsame.cnt, hu]
  refine ⟨rfl, List.mem_append_right _ (List.mem_singleton_self _), fun hmem => ?_, rfl⟩
  obtain ⟨x, hx, hnames⟩ := List.mem_map.mp hmem
  have hother := (List.mem_filter.mp hx).2
  simp only [Prod.mk.injEq] at hnames
  simp [hnames.1, hnames.2] at hother

end

/-- R331, R433, R451, R452. -/
theorem farAnswers : Rules.FarAnswers := by
  intro s tag resp data rpar wpar
  refine ⟨fun hrun => ?_, fun r write hfind => ⟨fun hfails => ?_, fun hfails => ?_⟩, fun write hnone => ?_,
    fun r write hfind hrun hdue => ?_⟩
  · have hread : exec (.farReadData tag resp data rpar) s =
        .next (farResponse false tag resp data (farReadGood tag resp data rpar) s) :=
      congrArg Host.Outcome.next (if_pos hrun)
    have hwrite : exec (.farWriteResponse tag resp wpar) s =
        .next (farResponse true tag resp 0 (parityOk ((0 : BitVec 2) ++ resp ++ tag) wpar) s) :=
      congrArg Host.Outcome.next (if_pos hrun)
    refine ⟨fun r hfind hgood => ?_, fun r hfind hgood => ?_,
      fun r n hfind hbad hn => ⟨fun hfails => ?_, fun hfails => ?_⟩, fun hfind hgood => ?_⟩
    · rw [hread, hgood, farResponse_good hfind]
      rfl
    · rw [hwrite, hgood, farResponse_good hfind]
      rfl
    · rw [hread, hbad, farResponse_bad hfind, if_pos hfails, hn]
      rfl
    · rw [hread, hbad, farResponse_bad hfind, if_neg (not_lt.mpr hfails), hn]
      rfl
    · rw [hread, hgood, farResponse_late hfind]
      rfl
  · obtain ⟨hmem, rfl, hacc⟩ := naked_request hfind
    obtain ⟨hagain, hothers⟩ := farNak_again (tag := tag) hmem hacc hfails wpar
    exact ⟨_, exec_farRequestNak hfind wpar, by rw [farNak_out hfails, List.length_map], hagain, hothers,
      only_farNak_again hfails wpar⟩
  · rw [exec_farRequestNak hfind, farNak_fatal hfails]
    rfl
  · have hfind : s.far.out.find? (fun r => r.write == write && r.acc + 1 == portNow s) = none :=
      List.find?_eq_none.mpr fun r hr hnames => by
        simp only [Bool.and_eq_true, beq_iff_eq] at hnames
        exact hnone r hr hnames.1 hnames.2
    show execFarRequestNak write tag wpar s = _
    rw [execFarRequestNak, hfind]
  · obtain ⟨rfl, rfl⟩ := farFind_names hfind
    obtain ⟨htimeout, hheld, hgone, hcnt⟩ := farTimeout_leaves r s
    refine ⟨_, exec_farTimeout hfind hrun hdue, htimeout, hheld, fun x hx => ?_, ?_⟩
    · by_contra hnames
      push Not at hnames
      exact hgone (List.mem_map.mpr ⟨x, hx, by rw [hnames.1, hnames.2]⟩)
    · rw [hcnt]
      exact bumpedAt_bump _ 0

/-- Settles O53: a burst by the lines that cross, an answer by what it does to its request. -/
theorem farPort : Obligations.FarPort := ⟨farBursts, farAnswers⟩

end Sys2Proof.Machine

/-! PROOF. Channels of exports and deltas (O52): the pads that a channel gives back, each action of XCHk_CTL, how exports
and delta steps end, and the commit of channel set-ups. -/
namespace Sys2Proof.Machine

/-! ### Pads given back all at once (R333, R336) -/

section
variable {s : State}

/-- Beyond the end of the pond there is no pad that anyone owns. -/
theorem pad_in_pond {i : Nat} (h : (padAt s i).owner ≠ 0) : i < s.pond.pads.length := by
  by_contra hbeyond
  refine h ?_
  rw [padAt, List.getD_eq_default _ _ (not_lt.mp hbeyond)]

/-- A free leaves a pad as it is, or free. -/
theorem padFree_pad (h : BitVec 16) (o : BitVec 6) (i : Nat) :
    padAt (padFree h o s) i = padAt s i ∨ (padAt (padFree h o s) i).owner = 0 := by
  by_cases hbad : (padAt s (handleIndex h)).gen ≠ handleGen h ∨ (padAt s (handleIndex h)).owner ≠ o ∨ o = 0
  · obtain ⟨reason, hreason⟩ := padFree_refused hbad
    rw [hreason]
    exact .inl (padAt_of_pads (padFreeInvalid_latches reason h o s).1 i)
  · push Not at hbad
    obtain ⟨hgen, howner, ho⟩ := hbad
    by_cases hi : i = handleIndex h
    · subst hi
      right
      rw [padAt_padFree hgen howner ho (pad_in_pond (by rwa [howner]))]
    · obtain ⟨x, hfree⟩ := padFree_honoured hgen howner ho
      left
      rw [padAt_of_pads (s := padFreed h s) (by rw [hfree])]
      exact padAt_setPad_ne hi _

theorem padFreeAll_keeps_free (hs : List (BitVec 16)) (o : BitVec 6) {i : Nat} (hfree : (padAt s i).owner = 0) :
    (padAt (padFreeAll hs o s) i).owner = 0 := by
  induction hs generalizing s with
  | nil => exact hfree
  | cons h hs ih =>
    refine ih ?_
    rcases padFree_pad (s := s) h o i with hsame | hfreed
    · rw [hsame, hfree]
    · exact hfreed

/-- Every pad that its owner names by its generation is free afterwards. -/
theorem padFreeAll_frees {hs : List (BitVec 16)} {h : BitVec 16} {o : BitVec 6} (hmem : h ∈ hs) (ho : o ≠ 0)
    (hgen : (padAt s (handleIndex h)).gen = handleGen h) (howner : (padAt s (handleIndex h)).owner = o) :
    (padAt (padFreeAll hs o s) (handleIndex h)).owner = 0 := by
  induction hs generalizing s with
  | nil => exact nomatch hmem
  | cons g hs ih =>
    rcases List.mem_cons.mp hmem with rfl | hmem
    · refine padFreeAll_keeps_free hs o ?_
      rw [padAt_padFree hgen howner ho (pad_in_pond (by rwa [howner]))]
    · rcases padFree_pad (s := s) g o (handleIndex h) with hsame | hfreed
      · exact ih hmem (by rw [hsame, hgen]) (by rw [hsame, howner])
      · exact padFreeAll_keeps_free hs o hfreed

@[simp] theorem padAt_pulse (line : BitVec 6) (i : Nat) : padAt (pulse line s) i = padAt s i :=
  padAt_of_pads (by rw [pulse_pond]) i

theorem ownerXch_ne_zero {k : Nat} (h : k < 8) : ownerXch k ≠ 0 := by
  intro h0
  have hval := congrArg BitVec.toNat h0
  simp [ownerXch] at hval
  omega

end

/-! ### A channel after each operation on it -/

section
variable {s : State} {k : Nat}

theorem xchan_setXch (h : k < s.xch.chans.length) (f : XChan → XChan) : xchan (setXch k f s) k = f (xchan s k) := by
  simp [xchan, setXch, List.getD_eq_getElem?_getD, h]

@[simp] theorem setXch_chans_length (j : Nat) (f : XChan → XChan) :
    (setXch j f s).xch.chans.length = s.xch.chans.length := List.length_modify _ _ _

@[simp] theorem padFree_xch (h : BitVec 16) (o : BitVec 6) : (padFree h o s).xch = s.xch :=
  (only_padFree h o (List.Subset.refl _) (only_refl _ s)).part .xch (by decide)

@[simp] theorem padFreeAll_xch (hs : List (BitVec 16)) (o : BitVec 6) : (padFreeAll hs o s).xch = s.xch :=
  (only_padFreeAll hs o (List.Subset.refl _) (only_refl _ s)).part .xch (by decide)

@[simp] theorem xchan_respond (code : BitVec 8) (j : Nat) : xchan (respond code s) j = xchan s j := rfl

@[simp] theorem xchan_pulse (line : BitVec 6) (j : Nat) : xchan (pulse line s) j = xchan s j :=
  xchan_of_xch (pulse_xch s line) j

theorem xchan_dropPads (h : k < s.xch.chans.length) : xchan (dropPads k s) k = { xchan s k with pads := [] } := by
  rw [dropPads, xchan_setXch (by simpa using h), xchan_padFreeAll]

theorem xchan_endJob (k j : Nat) (s : State) :
    xchan (endJob k s) j = xchan (setXch k (fun c => { c with job := none }) s) j := by
  unfold endJob
  exact xchan_padFreeAll (setXch k _ s) _ _ j

/-- The pads of a job's chunks are free once the job is over (R367, R369). -/
theorem endJob_frees {j : XExport} {x : XChunk} (hk : k < 8) (hjob : (xchan s k).job = some j) (hx : x ∈ j.chunks)
    (hgen : (padAt s (handleIndex x.handle)).gen = handleGen x.handle)
    (howner : (padAt s (handleIndex x.handle)).owner = ownerXch k) :
    (padAt (endJob k s) (handleIndex x.handle)).owner = 0 := by
  have hpond : (endJob k s).pond = (padFreeAll (j.chunks.map (·.handle)) (ownerXch k)
      (setXch k (fun c => { c with job := none }) s)).pond := by
    simp only [endJob, hjob]
    rfl
  rw [padAt_of_pads (congrArg Pond.pads hpond)]
  exact padFreeAll_frees (List.mem_map_of_mem hx) (ownerXch_ne_zero hk) hgen howner

end

/-- An event after changes that leave the events and the clock alone. -/
theorem mem_pulse_of_only {L : List Part} {s t : State} (h : OnlyChanges L s t) (he : Part.evt ∉ L) (hc : Part.clk ∉ L)
    (hroom : s.evt.queue.length < 256) (line : BitVec 6) : (now s, line) ∈ (pulse line t).evt.queue := by
  have hevt : t.evt = s.evt := h.part .evt he
  rw [← h.now hc]
  exact mem_pulse (by rwa [hevt])

/-! ### XCHk_CTL takes one action (R371) -/

section
variable {s : State} {w : Word} {k : Nat}

theorem field3_of_fieldNat {n : Nat} (h : fieldNat w 0 3 = n) : (field w 0 3 : BitVec 3) = BitVec.ofNat 3 n :=
  BitVec.eq_of_toNat_eq (by rw [← h]; simp [field, fieldNat])

theorem writeXchCtl_start (h : fieldNat w 0 3 = 1) : writeXchCtl k w s = xchStart k (activeTag s) s := by
  rw [writeXchCtl, field3_of_fieldNat h]
  rfl

theorem writeXchCtl_stop (h : fieldNat w 0 3 = 2) : writeXchCtl k w s = xchStop k s := by
  rw [writeXchCtl, field3_of_fieldNat h]
  rfl

theorem writeXchCtl_rebase (h : fieldNat w 0 3 = 4) : writeXchCtl k w s = xchRebase k s := by
  rw [writeXchCtl, field3_of_fieldNat h]
  rfl

/-! Each row of XCHk_CTL is one write of the register. -/

theorem exec_xchStart (ha : Applies s) (h : fieldNat w 0 3 = 1) (k : BitVec 3) :
    exec (.xchStart k w) s = .next (respond 0x04 (xchStart k.toNat (activeTag s) s)) := by
  rw [← writeXchCtl_start h]
  exact congrArg Host.Outcome.next (ctlWrite_applies ha _ _ _)

theorem exec_xchStop (ha : Applies s) (h : fieldNat w 0 3 = 2) (k : BitVec 3) :
    exec (.xchStop k w) s = .next (respond 0x04 (xchStop k.toNat s)) := by
  rw [← writeXchCtl_stop h]
  exact congrArg Host.Outcome.next (ctlWrite_applies ha _ _ _)

theorem exec_rebase (ha : Applies s) (h : fieldNat w 0 3 = 4) (k : BitVec 3) :
    exec (.rebase k w) s = .next (respond 0x04 (xchRebase k.toNat s)) := by
  rw [← writeXchCtl_rebase h]
  exact congrArg Host.Outcome.next (ctlWrite_applies ha _ _ _)

/-! ### START, STOP and REBASE (R356, R367, R369) -/

theorem xchStart_delta (h : k < 4) (tag : BitVec 32) : xchStart k tag s = setXErr k 5 s := if_pos h

theorem xchStop_delta (h : k < 4) : xchStop k s = setXErr k 5 s := if_pos h

theorem xchRebase_export (h : 4 ≤ k) : xchRebase k s = setXErr k 5 s := if_pos h

theorem xchStart_starts (hk : 4 ≤ k) (hphase : exportPhase s.step.phase = true) (hema : s.aux.running = false)
    (hstate : (xchan s k).state = .idle ∨ (xchan s k).state = .faulted) (hrange : (xchan s k).first ≤ (xchan s k).last)
    (harena : (xchan s k).eff.arena ≤ 5)
    (hrec : ∃ i, (xchan s k).first.toNat ≤ i ∧ i ≤ (xchan s k).last.toNat ∧ (recOf s i).valid = true)
    (tag : BitVec 32) : xchStart k tag s = setXch k (fun c => { c with
      state := .running, err := 0, ordinal := 0, faultCode := 0, faultLine := 0
      job := some (exportPlan s c.eff.arena.toNat c.first.toNat c.last.toNat tag) }) s := by
  have hfree : ((xchan s k).state != .idle && (xchan s k).state != .faulted) = false := by
    rcases hstate with h | h <;> rw [h] <;> rfl
  have hvalid : ((List.range ((xchan s k).last.toNat - (xchan s k).first.toNat + 1)).any fun i =>
      (recOf s ((xchan s k).first.toNat + i)).valid) = true := by
    obtain ⟨i, hfirst, hlast, hi⟩ := hrec
    refine List.any_eq_true.mpr ⟨i - (xchan s k).first.toNat, List.mem_range.mpr (by omega), ?_⟩
    rwa [Nat.add_sub_cancel' hfirst]
  simp only [xchStart, not_lt.mpr hk, hphase, hema, hfree, hvalid, BitVec.not_lt.mpr hrange, BitVec.not_lt.mpr harena,
    decide_false, Bool.not_true, Bool.or_self, Bool.false_eq_true, if_false]

/-- STOP is asked for. -/
def stopAsked (k : Nat) (s : State) : State :=
  setXch k (fun c => { c with err := 0, job := c.job.map fun j => { j with stopping := true } }) s

theorem xchStop_running (hk : 4 ≤ k) (hstate : (xchan s k).state = .running) :
    xchStop k s = settleStopX k (stopAsked k s) := by
  simp [xchStop, not_lt.mpr hk, hstate, stopAsked]

/-- With no write and no read-back under way a stopped job is over at once. -/
theorem settleStopX_ends {j : XExport} (hjob : (xchan s k).job = some j) (hstopping : j.stopping = true)
    (hacked : ∀ x ∈ j.chunks, x.sent = x.acked) (hasked : j.asked = false) :
    settleStopX k s = endJob k (setXch k (fun c => { c with state := .idle }) s) := by
  have hall : (j.chunks.all fun c => c.sent == c.acked) = true :=
    List.all_eq_true.mpr fun x hx => beq_iff_eq.mpr (hacked x hx)
  simp only [settleStopX, hjob, hstopping, hall, hasked, Bool.false_and, Bool.not_false, Bool.and_self, if_true]

theorem xchan_xchStop {j : XExport} (hlen : k < s.xch.chans.length) (hk : 4 ≤ k) (hstate : (xchan s k).state = .running)
    (hjob : (xchan s k).job = some j) (hacked : ∀ x ∈ j.chunks, x.sent = x.acked) (hasked : j.asked = false) :
    xchan (xchStop k s) k = { xchan s k with state := .idle, err := 0, job := none } := by
  have hasked' : xchan (stopAsked k s) k = { xchan s k with err := 0, job := some { j with stopping := true } } := by
    rw [stopAsked, xchan_setXch hlen, hjob]
    rfl
  have hlen' : k < (stopAsked k s).xch.chans.length := by simpa [stopAsked] using hlen
  rw [xchStop_running hk hstate,
    settleStopX_ends (j := { j with stopping := true }) (by rw [hasked']) rfl hacked hasked,
    xchan_endJob, xchan_setXch (by simpa using hlen'), xchan_setXch hlen', hasked']

theorem xchRebase_drops (hk : k < 4) (hstate : (xchan s k).state ≠ .disabled) :
    (xchan (xchRebase k s) k).baseValid = false ∧ (xchan (xchRebase k s) k).err = 0 := by
  have henabled : ((xchan s k).state == .disabled) = false := beq_eq_false_iff_ne.mpr hstate
  simp only [xchRebase, not_le.mpr hk, henabled, Bool.false_eq_true, if_false]
  exact xchan_setXch_same (P := fun c => c.baseValid = false ∧ c.err = 0) ⟨rfl, rfl⟩ (fun _ => ⟨rfl, rfl⟩) k _

end

/-! ### EXPORT_DONE (R369) -/

section
variable {s : State}

/-- A channel whose image is written and read back, before its job goes: ORDINAL shows the lines written. -/
def exportIdle (k : Nat) (j : XExport) (s : State) : State :=
  setXch k (fun c => { c with state := .idle, ordinal := j.acked }) s

theorem exec_exportDone {k : BitVec 3} {j : XExport} (hready : ready s = true) (hjob : (xchan s k.toNat).job = some j)
    (hgood : j.good = true) : exec (.exportDone k) s =
      .next (pulse (BitVec.ofNat 6 (48 + k.toNat)) (endJob k.toNat (exportIdle k.toNat j s))) := by
  show execExportDone k s = _
  simp only [execExportDone, hjob, hready, hgood, Bool.and_self, if_true]
  rfl

end

/-- R356, R367, R369, R371. -/
theorem exportControl : Rules.ExportControl := by
  rintro s k w c rfl hlen
  have hk : k.toNat < s.xch.chans.length := by rw [hlen]; exact k.isLt
  refine ⟨fun ha hstart => ⟨fun hdelta => ?_, fun hexport hphase hema hstate hrange harena hrec => ?_⟩,
    fun ha hstop => ⟨fun hdelta => ?_, fun j hexport hstate hjob hacked hasked => ?_⟩,
    fun ha hrebase => ⟨fun hexport => ?_, fun hdelta hstate => ⟨_, exec_rebase ha hrebase k, ?_⟩⟩,
    fun j hready hjob hgood => ⟨_, exec_exportDone hready hjob hgood, ?_⟩⟩
  · rw [exec_xchStart ha hstart, xchStart_delta hdelta]
    rfl
  · rw [exec_xchStart ha hstart, xchStart_starts hexport hphase hema hstate hrange harena hrec]
  · rw [exec_xchStop ha hstop, xchStop_delta hdelta]
    rfl
  · refine ⟨_, exec_xchStop ha hstop k, ?_⟩
    rw [xchan_respond, xchan_xchStop hk hexport hstate hjob hacked hasked]
    exact ⟨rfl, rfl, rfl⟩
  · rw [exec_rebase ha hrebase, xchRebase_export hexport]
    rfl
  · rw [xchan_respond]
    exact xchRebase_drops hdelta hstate
  · have hchan : xchan (exportIdle k.toNat j s) k.toNat = { xchan s k.toNat with state := .idle, ordinal := j.acked } :=
      xchan_setXch hk _
    have honly : OnlyChanges [.health, .mem, .strm, .pond, .xch, .far] s (endJob k.toNat (exportIdle k.toNat j s)) :=
      only_endJob _ (List.Subset.refl _) (only_setXch _ _ (by decide) (only_refl _ s))
    rw [xchan_pulse, xchan_endJob, xchan_setXch (by simpa [exportIdle] using hk), hchan]
    refine ⟨rfl, rfl, rfl, fun i hi => ?_, ?_, fun hroom => mem_pulse_of_only honly (by decide) (by decide) hroom _⟩
    · rw [xchan_pulse, xchan_endJob, xchan_setXch_ne hi]
      exact xchan_setXch_ne hi _ s
    · rintro x hx _ rfl _ hgen howner
      have hpad (i : Nat) : padAt (exportIdle k.toNat j s) i = padAt s i := rfl
      rw [padAt_pulse]
      exact endJob_frees k.isLt (by rw [hchan]; exact hjob) hx (by rw [hpad, hgen]) (by rw [hpad, howner])

/-! ### DELTA_STEP_END (R356, R358, R363) -/

section
variable {s : State} {k : Nat}

@[simp] theorem countRecord_chans (r : XRecord) : (countRecord r s).xch.chans = s.xch.chans := by
  simp only [countRecord]
  split_ifs <;> rfl

theorem xchan_countRecord (r : XRecord) (j : Nat) : xchan (countRecord r s) j = xchan s j := by
  rw [xchan, countRecord_chans, xchan]

theorem xchan_popRecord (hlen : k < s.xch.chans.length) (r : XRecord) : xchan (popRecord k r s) k = { xchan s k with
    records := (xchan s k).records.tail, written := (xchan s k).written + r.span, lastSeq := r.seq
    lastStep := recordStep r, bellDue := (xchan s k).bellDue || recordKind r == 3 || recordKind r == 4 } := by
  unfold popRecord
  cases r.handle with
  | none => rw [xchan_setXch (by simpa using hlen), xchan_countRecord]
  | some h => rw [xchan_setXch (by simpa using hlen), xchan_countRecord, xchan_padFree]

theorem popRecord_chans_length (r : XRecord) : (popRecord k r s).xch.chans.length = s.xch.chans.length := by
  unfold popRecord
  cases r.handle <;> simp

/-- A step that is done has its STEP_END first among its records. -/
theorem records_of_deltaDone (h : deltaDone s k = true) : ∃ r rs, (xchan s k).records = r :: rs := by
  cases hrecords : (xchan s k).records with
  | nil => simp [deltaDone, hrecords] at h
  | cons r rs => exact ⟨r, rs, rfl⟩

/-- A channel whose step has ended: its base is that step, unless a tile was skipped or the base dropped. -/
def stepClosed (st : BitVec 32) (c : XChan) : XChan :=
  { c with
    openStep := none, state := .idle, ending := false, baseValid := !c.skipped && !c.baseDrop
    baseStep := if c.skipped || c.baseDrop then c.baseStep else st }

section
variable {st tag : BitVec 32} {r : XRecord} {rs : List XRecord} (hopen : (xchan s k).openStep = some (st, tag))
  (hrecords : (xchan s k).records = r :: rs)
include hopen hrecords

theorem stepEnd_closes : stepEnd k s =
    pulse (BitVec.ofNat 6 (48 + k)) (dropPads k (setXch k (stepClosed st) (popRecord k r s))) := by
  simp only [stepEnd, hopen, hrecords]
  rfl

theorem xchan_stepEnd (hlen : k < s.xch.chans.length) :
    xchan (stepEnd k s) k = { stepClosed st (xchan (popRecord k r s) k) with pads := [] } := by
  have hpop : k < (popRecord k r s).xch.chans.length := by rwa [popRecord_chans_length]
  rw [stepEnd_closes hopen hrecords, xchan_pulse, xchan_dropPads (by simpa using hpop), xchan_setXch hpop]

theorem stepEnd_event (hroom : s.evt.queue.length < 256) :
    (now s, BitVec.ofNat 6 (48 + k)) ∈ (stepEnd k s).evt.queue := by
  have honly : OnlyChanges [.health, .strm, .pond, .xch] s
      (dropPads k (setXch k (stepClosed st) (popRecord k r s))) :=
    only_dropPads _ (List.Subset.refl _) (only_setXch _ _ (by decide)
      (only_popRecord _ _ (List.Subset.refl _) (only_refl _ s)))
  rw [stepEnd_closes hopen hrecords]
  exact mem_pulse_of_only honly (by decide) (by decide) hroom _

end

end

/-! ### XCH_COMMIT (R370, R529) -/

theorem writeXchCommit_pending {s : State} {w : Word} (hbit : w.getLsbD 0 = true) (himage : s.image.active ≠ none)
    (hfree : s.xch.pending = none) (hcheck : xchCheck s (s.xch.chans.map (·.stage)) = (0, 0)) :
    writeXchCommit w s = { s with xch := { s.xch with
      err := 0, errCh := 0, pending := some (s.xch.chans.map (·.stage), nextBoundary (now s) 64) } } := by
  have hactive : s.image.active.isNone = false :=
    Option.isNone_eq_false_iff.mpr (Option.isSome_iff_ne_none.mpr himage)
  simp only [writeXchCommit, hbit, hactive, hfree, hcheck, Bool.not_true, Option.isSome_none, Bool.false_eq_true,
    if_false, if_true]
  rfl

/-- R356, R358, R360, R363, R370, R529. -/
theorem deltaChannels : Rules.DeltaChannels := by
  rintro s k w c rfl hlen
  have hk : k.toNat < s.xch.chans.length := by rw [hlen]; exact k.isLt
  refine ⟨fun st tag hw hdone hopen => ?_, fun hw hdue => ?_, fun hw hdelta hwanted hout hwaits hrested => ?_,
    fun ha hbit himage hfree hcheck => ?_⟩
  · obtain ⟨r, rs, hrecords⟩ := records_of_deltaDone hdone
    have hexec : exec (.deltaStepEnd k) s = .next (stepEnd k.toNat s) :=
      congrArg Host.Outcome.next (if_pos (by rw [hw, hdone]; rfl))
    refine ⟨_, hexec, ?_⟩
    rw [xchan_stepEnd hopen hrecords hk, xchan_popRecord hk]
    refine ⟨rfl, rfl, rfl, rfl, fun r' hr' => ?_, stepEnd_event hopen hrecords, ?_, fun hskipped hdrop => ?_⟩
    · obtain rfl : r = r' := by simpa [hrecords] using hr'
      rfl
    · simp [stepClosed]
    · simp [stepClosed, hskipped, hdrop]
  · exact congrArg Host.Outcome.next (if_pos (by rw [hw, hdue]; rfl))
  · show execCreditRead k s = _
    cases hlast : (xchan s k.toNat).creditAt with
    | none => simp [execCreditRead, hw, hdelta, hwanted, hout, hwaits, hlast]
    | some t0 => simp [execCreditRead, hw, hdelta, hwanted, hout, hwaits, hlast, hrested t0 hlast]
  · rw [← writeXchCommit_pending hbit himage hfree hcheck]
    exact congrArg Host.Outcome.next (ctlWrite_applies ha _ _ _)

/-- Settles O52: the actions of XCHk_CTL by their equations, EXPORT_DONE by the pads it frees, a delta step's end by the
record that leaves, the doorbell, the credit read and the commit by their conditions. -/
theorem exportsAndDeltas : Obligations.ExportsAndDeltas := ⟨exportControl, deltaChannels⟩

end Sys2Proof.Machine

/-! PROOF. Soundness of every step, at reset, and what a step runs (O1, O2, O3). -/
namespace Sys2Proof.Machine

/-- Every command but NAK_CYCLE_END keeps the bytes of the stack, the queue, the bounds and FATAL's cause. -/
theorem exec_keepsGood {M : List Host.Cell} {Q : List Instr} {s : State} (h : Good M Q s) (c : Instr)
    (hc : ∀ kind port tag, c ≠ .nakCycleEnd kind port tag) : GoodOut M Q (exec c s) := by
  cases c with
  | sealPulse => exact keep_execSealPulse h
  | stepCtlSeal w => exact keep_execStepCtlSeal w h
  | normPassDone => exact keep_execNormPassDone h
  | abortReq => exact keep_execAbortReq h
  | stepCtlAbort w => exact keep_execStepCtlAbort w h
  | stepCtlLoadStep w => exact keep_execStepCtlLoadStep w h
  | stepCtlClearHalt w => exact keep_execStepCtlClearHalt w h
  | tongueArm w => exact keep_execTongueArm w h
  | armClearDone => exact keep_execArmClearDone h
  | hostReadRequest port tag req par => exact keep_execHostReadRequest port tag req par h
  | hostWriteRequest port tag req mask data par => exact keep_execHostWriteRequest port tag req mask data par h
  | hostWriteCompletion port tag => exact keep_execHostWriteCompletion port tag h
  | hostReturnNak port nakTag nakPar => exact keep_execHostReturnNak port nakTag nakPar h
  | hostCompletionNak port nakTag nakPar => exact keep_execHostCompletionNak port nakTag nakPar h
  | arbiterGrant chan write tag => exact keep_execArbiterGrant chan write tag h
  | memoryReadReturn chan tag data par => exact keep_execMemoryReadReturn chan tag data par h
  | memoryReadNak chan nakTag nakPar => exact keep_execMemoryReadNak chan nakTag nakPar h
  | memoryWriteNak chan nakTag nakPar => exact keep_execMemoryWriteNak chan nakTag nakPar h
  | nakCycleEnd kind port tag => exact absurd rfl (hc kind port tag)
  | wcbTimeout line => exact keep_execWcbTimeout line h
  | tadpoleAgeLimit chan => exact keep_execTadpoleAgeLimit chan h
  | regulatorWindowBoundary => exact keep_execRegulatorWindowBoundary h
  | thermalReport temp limit par => exact keep_execThermalReport temp limit par h
  | thermalStale => exact keep_execThermalStale h
  | throttleDutyWindow => exact keep_execThrottleDutyWindow h
  | contrib src m => exact keep_execContrib src m h
  | sum src m => exact keep_execSum src m h
  | skipNotice src m => exact keep_execSkipNotice src m h
  | holdNotice src m => exact keep_execHoldNotice src m h
  | abortNotice src m => exact keep_execAbortNotice src m h
  | join src m => exact keep_execJoin src m h
  | joinSum src m => exact keep_execJoinSum src m h
  | epochOpen src m => exact keep_execEpochOpen src m h
  | contribTimeout => exact keep_execContribTimeout h
  | joinTimeout => exact keep_execJoinTimeout h
  | verdictRecordGo src m => exact keep_execVerdictRecordGo src m h
  | verdictRecordSkip src m => exact keep_execVerdictRecordSkip src m h
  | verdictRecordAbort src m => exact keep_execVerdictRecordAbort src m h
  | flashGo side => exact keep_execFlashGo side h
  | flashSkip side => exact keep_execFlashSkip side h
  | flashHold side => exact keep_execFlashHold side h
  | flashAbort side => exact keep_execFlashAbort side h
  | gateOpen => exact keep_execGateOpen h
  | leaseAcquire w => exact keep_execLeaseAcquire w h
  | leaseRenew w => exact keep_execLeaseRenew w h
  | leaseRelease w => exact keep_execLeaseRelease w h
  | leaseRead w => exact keep_execLeaseRead w h
  | membCommit w => exact keep_execMembCommit w h
  | rootLsnWrite w => exact keep_execRootLsnWrite w h
  | mapBuildDone => exact keep_execMapBuildDone h
  | fetchIssue => exact keep_execFetchIssue h
  | tileEnterChain => exact keep_execTileEnterChain h
  | momentGroupHandover => exact keep_execMomentGroupHandover h
  | confirmReadReturn chan tag data par => exact keep_execConfirmReadReturn chan tag data par h
  | momentsConfirmed => exact keep_execMomentsConfirmed h
  | weightGroupHandover => exact keep_execWeightGroupHandover h
  | weightsConfirmed => exact keep_execWeightsConfirmed h
  | pass1Done => exact keep_execPass1Done h
  | sweepHalt => exact keep_execSweepHalt h
  | marksLineWrite => exact keep_execMarksLineWrite h
  | residueFault rank lane unit ord => exact keep_execResidueFault rank lane unit ord h
  | shedDrainDone => exact keep_execShedDrainDone h
  | codecMismatch ord => exact keep_execCodecMismatch ord h
  | genMismatch mask ord => exact keep_execGenMismatch mask ord h
  | stepkCommit w => exact keep_execStepkCommit w h
  | swpCommit w => exact keep_execSwpCommit w h
  | stagedSetApply blk => exact keep_execStagedSetApply blk h
  | ttabLoad w => exact keep_execTtabLoad w h
  | tableLoadDone => exact keep_execTableLoadDone h
  | sweepResume w => exact keep_execSweepResume w h
  | sweepRecover w => exact keep_execSweepRecover w h
  | fabShedWrite w => exact keep_execFabShedWrite w h
  | fabCntClear w => exact keep_execFabCntClear w h
  | emaStart w => exact keep_execEmaStart w h
  | emaReseed w => exact keep_execEmaReseed w h
  | emaPassDone => exact keep_execEmaPassDone h
  | lscaleLoad w => exact keep_execLscaleLoad w h
  | imgLoad w => exact keep_execImgLoad w h
  | imageReadDone => exact keep_execImageReadDone h
  | imageVerifyDone => exact keep_execImageVerifyDone h
  | imgMolt w => exact keep_execImgMolt w h
  | moltDone => exact keep_execMoltDone h
  | portPlanApply => exact keep_execPortPlanApply h
  | imgDiscard w => exact keep_execImgDiscard w h
  | chTailWrite n w => exact keep_execChTailWrite n w h
  | descriptorFetchDone n => exact keep_execDescriptorFetchDone n h
  | chStop n w => exact keep_execChStop n w h
  | chCancel n w => exact keep_execChCancel n w h
  | chResume n w => exact keep_execChResume n w h
  | chReset n w => exact keep_execChReset n w h
  | streamBurstGrant issue => exact keep_execStreamBurstGrant issue h
  | farBurstGrant write tags => exact keep_execFarBurstGrant write tags h
  | pieceWritesDone n piece => exact keep_execPieceWritesDone n piece h
  | pqPop n => exact keep_execPqPop n h
  | streamReadbackReturn n ret => exact keep_execStreamReadbackReturn n ret h
  | descriptorWritebackDone n => exact keep_execDescriptorWritebackDone n h
  | padWatchdog n => exact keep_execPadWatchdog n h
  | pondStall => exact keep_execPondStall h
  | prefetchUrgent => exact keep_execPrefetchUrgent h
  | deadlineMiss n => exact keep_execDeadlineMiss n h
  | pondAllocate picks => exact keep_execPondAllocate picks h
  | padFree handle freer => exact keep_execPadFree handle freer h
  | pqFlush w => exact keep_execPqFlush w h
  | strmCommit w => exact keep_execStrmCommit w h
  | xchCommit w => exact keep_execXchCommit w h
  | xchStart k w => exact keep_execXchStart k w h
  | xchStop k w => exact keep_execXchStop k w h
  | rebase k w => exact keep_execRebase k w h
  | exportDone k => exact keep_execExportDone k h
  | deltaStepEnd k => exact keep_execDeltaStepEnd k h
  | doorbellWrite k => exact keep_execDoorbellWrite k h
  | creditRead k => exact keep_execCreditRead k h
  | farReadData tag resp data par => exact keep_execFarReadData tag resp data par h
  | farWriteResponse tag resp par => exact keep_execFarWriteResponse tag resp par h
  | farRequestNak write nakTag nakPar => exact keep_execFarRequestNak write nakTag nakPar h
  | farTimeout write tag => exact keep_execFarTimeout write tag h
  | maskStart w => exact keep_execMaskStart w h
  | maskStop w => exact keep_execMaskStop w h
  | maskFillDone => exact keep_execMaskFillDone h
  | reseedNow w => exact keep_execReseedNow w h
  | reseedInterval => exact keep_execReseedInterval h
  | reseed => exact keep_execReseed h
  | noiseRawBit bit => exact keep_execNoiseRawBit bit h
  | conditionedBlock => exact keep_execConditionedBlock h
  | rngLaneWrite n w => exact keep_execRngLaneWrite n w h
  | linkClockLock side locked => exact keep_execLinkClockLock side locked h
  | patternDone side errors => exact keep_execPatternDone side errors h
  | marginDone side margins => exact keep_execMarginDone side margins h
  | mapWord side word crc => exact keep_execMapWord side word crc h
  | ident side frame => exact keep_execIdent side frame h
  | identityDone side => exact keep_execIdentityDone side h
  | trainAttemptFailed side => exact keep_execTrainAttemptFailed side h
  | linkRetrain side w => exact keep_execLinkRetrain side w h
  | holdDownWrite side w => exact keep_execHoldDownWrite side w h
  | xlSleepWrite side w => exact keep_execXlSleepWrite side w h
  | xlTestWrite side w => exact keep_execXlTestWrite side w h
  | trainMarker side => exact keep_execTrainMarker side h
  | runMarker side => exact keep_execRunMarker side h
  | verdictMarker side => exact keep_execVerdictMarker side h
  | sleepMarker side => exact keep_execSleepMarker side h
  | forwardedClockLost side => exact keep_execForwardedClockLost side h
  | frameReceive side frame => exact keep_execFrameReceive side frame h
  | chameleonWord side lane word crc => exact keep_execChameleonWord side lane word crc h
  | replayTimeout side => exact keep_execReplayTimeout side h
  | crcWindowEnd side => exact keep_execCrcWindowEnd side h
  | frameSlot side => exact keep_execFrameSlot side h
  | linkState side m => exact keep_execLinkState side m h
  | linkStateTimer => exact keep_execLinkStateTimer h
  | downRetry side => exact keep_execDownRetry side h
  | wakeRequest side => exact keep_execWakeRequest side h
  | testFlit side m => exact keep_execTestFlit side m h
  | fmpData beats => exact keep_execFmpData beats h
  | fmpAck beats => exact keep_execFmpAck beats h
  | fmpResendTimeout dest seq => exact keep_execFmpResendTimeout dest seq h
  | eventEmit => exact keep_execEventEmit h
  | kstAck rdata err par => exact keep_execKstAck rdata err par h
  | kstTimeout => exact keep_execKstTimeout h
  | registerWrite addr w par => exact keep_execRegisterWrite addr w par h
  | pwrOkLow ns => exact keep_execPwrOkLow ns h
  | coldReset ns => exact keep_execColdReset ns h
  | pllLock => exact keep_execPllLock h
  | pllUnlock => exact keep_execPllUnlock h
  | vaultInitDone => exact keep_execVaultInitDone h
  | sramSelftestDone ok => exact keep_execSramSelftestDone ok h
  | warmReset ns => exact keep_execWarmReset ns h
  | gctlWarmReset w => exact keep_execGctlWarmReset w h
  | warmResetDrainDone => exact keep_execWarmResetDrainDone h
  | linkReset w => exact keep_execLinkReset w h
  | fabricReset w => exact keep_execFabricReset w h
  | fabricResetDone => exact keep_execFabricResetDone h
  | fabDivWrite w => exact keep_execFabDivWrite w h
  | fabDivApply => exact keep_execFabDivApply h
  | powerWakeDone => exact keep_execPowerWakeDone h
  | activeExit => exact keep_execActiveExit h
  | retainEntry => exact keep_execRetainEntry h
  | retainWake => exact keep_execRetainWake h
  | vaultKeygen w => exact keep_execVaultKeygen w h
  | vaultProgram w => exact keep_execVaultProgram w h
  | vaultLock w => exact keep_execVaultLock w h
  | vaultRead w => exact keep_execVaultRead w h
  | vaultQuote w => exact keep_execVaultQuote w h
  | quoteDone => exact keep_execQuoteDone h
  | sramUe array word scrub sfu => exact keep_execSramUe array word scrub sfu h
  | sramCe array word scrub => exact keep_execSramCe array word scrub h
  | scrubInterval => exact keep_execScrubInterval h
  | croakEccWindow => exact keep_execCroakEccWindow h
  | croakCauseWrite w => exact keep_execCroakCauseWrite w h
  | errPop w => exact keep_execErrPop w h
  | snapTake w => exact keep_execSnapTake w h
  | mpCommit w => exact keep_execMpCommit w h
  | resetRelease pin => exact keep_execResetRelease pin h
  | forwardedClockDetected side => exact keep_execForwardedClockDetected side h

/-- A sound state is one whose memory is in canonical form and whose bounds hold. -/
theorem sound_iff_good {s : State} : s.Sound ↔ Memory.wf s.stack = true ∧ Good s.stack s.pending s :=
  ⟨fun h => ⟨h.memory, ⟨⟨rfl, rfl, h.events, h.log⟩, h.croaks⟩⟩, fun ⟨hm, hg⟩ => ⟨hm, hg.events, hg.log, hg.croaks⟩⟩

/-- The bounds hold of a state with bytes M, so it is sound where M is in canonical form. -/
theorem Good.sound {M : List Host.Cell} {Q : List Instr} {t : State} (h : Good M Q t) (hM : Memory.wf M = true) :
    t.Sound := ⟨h.stack ▸ hM, h.events, h.log, h.croaks⟩

/-- What a command answers is sound: the end of a write's NAK cycle writes a line in canonical form, any other command
leaves the bytes alone. -/
theorem exec_keepsSound {c : Instr} {s t : State} (hs : s.Sound) (ht : exec c s = .next t) : t.Sound := by
  obtain ⟨hwf, hgood⟩ := sound_iff_good.mp hs
  by_cases hc : ∃ kind port tag, c = .nakCycleEnd kind port tag
  · obtain ⟨kind, port, tag, rfl⟩ := hc
    obtain ⟨N, hN, hbytes⟩ := keep_execNakCycleEnd kind port tag hgood
    refine (hN t ht).sound ?_
    rcases hbytes with rfl | ⟨f, _, _, rfl⟩
    · exact hwf
    · exact wf_lineWrite hwf _ _ _
  · have hother : ∀ kind port tag, c ≠ .nakCycleEnd kind port tag := fun kind port tag h => hc ⟨kind, port, tag, h⟩
    exact (exec_keepsGood hgood c hother t ht).sound hwf

/-- A step takes the command at the front; with none, one port cycle passes (log 1). -/
theorem step_cons (c : Instr) (q : List Instr) (s : State) :
    step { s with pending := c :: q } = exec c { s with pending := q } := rfl

theorem step_nil {s : State} (h : s.pending = []) : step s = .next (tick s) := by rw [step, h]

/-- Settles O1: a port cycle keeps the bounds by the laws of its operations, a command by those of its row. -/
theorem stepKeepsSound : Obligations.StepKeepsSound := by
  intro s t hs ht
  cases hq : s.pending with
  | nil =>
    obtain ⟨hwf, hgood⟩ := sound_iff_good.mp hs
    rw [step_nil hq] at ht
    injection ht with ht
    exact ht ▸ (keep_tick hgood).sound hwf
  | cons c q =>
    rw [step, hq] at ht
    exact exec_keepsSound (s := { s with pending := q }) ⟨hs.memory, hs.events, hs.log, hs.croaks⟩ ht

/-- Settles O2: reset memory lists nothing, the queue and the log are empty, and FATAL is 0. -/
theorem resetSound : Obligations.ResetSound :=
  ⟨wf_reset, Nat.zero_le _, Nat.zero_le _, fun hfatal => absurd hfatal Bool.false_ne_true⟩

/-- Settles O3. -/
theorem stepRunsFrontCommand : Obligations.StepRunsFrontCommand := fun c q s => ⟨step_cons c q s, step_nil rfl⟩

end Sys2Proof.Machine

/-! PROOF. Parity at the pins, frames on the lanes, the test access port (O60). -/
namespace Sys2Proof.Machine

/-! ### Parity (R432) -/

theorem sum_pow_lt (p : Nat → Bool) (n : Nat) : ((List.range n).map fun k => if p k then 2 ^ k else 0).sum < 2 ^ n := by
  induction n with
  | zero => simp
  | succ n ih =>
    rw [List.range_succ, List.map_append, List.sum_append, List.map_singleton, List.sum_singleton, Nat.pow_succ]
    split
    · omega
    · omega

/-- The bits of a number put together from its bits. -/
theorem testBit_sum_pow (p : Nat → Bool) (n i : Nat) :
    (((List.range n).map fun k => if p k then 2 ^ k else 0).sum).testBit i = (decide (i < n) && p i) := by
  induction n with
  | zero => simp
  | succ n ih =>
    have hlow := sum_pow_lt p n
    rw [List.range_succ, List.map_append, List.sum_append, List.map_singleton, List.sum_singleton]
    rcases Nat.lt_trichotomy i n with hi | rfl | hi
    · have hbit : decide (i < n + 1) = decide (i < n) := by simp [hi, Nat.lt_succ_of_lt hi]
      rw [hbit, ← ih]
      split
      · rw [Nat.add_comm, Nat.testBit_two_pow_add_gt hi]
      · rfl
    · cases hp : p i with
      | true => simp [Nat.add_comm _ (2 ^ i), Nat.testBit_two_pow_add_eq, Nat.testBit_lt_two_pow hlow]
      | false => simp [Nat.testBit_lt_two_pow hlow]
    · have hpow : 2 ^ (n + 1) ≤ 2 ^ i := Nat.pow_le_pow_right (by decide) hi
      have hsum : ((List.range n).map fun k => if p k then 2 ^ k else 0).sum + (if p n then 2 ^ n else 0) < 2 ^ i := by
        rw [Nat.pow_succ] at hpow
        split
        · omega
        · omega
      have hout : ¬ i < n + 1 := by omega
      simp [Nat.testBit_lt_two_pow hsum, hout]

/-- The parity bit of a byte is set where the byte holds an even number of ones. -/
theorem getLsbD_parityOf {m : Nat} (n : Nat) (b : BitVec m) {k : Nat} (hk : k < n) :
    (parityOf n b).getLsbD k = decide (onesBelow (b.extractLsb' (8 * k) 8) 8 % 2 = 0) := by
  have h := testBit_sum_pow (fun k => decide (onesBelow (b.extractLsb' (8 * k) 8) 8 % 2 = 0)) n k
  simp only [decide_eq_true_eq] at h
  rw [parityOf, BitVec.getLsbD_ofNat, h]
  simp [hk]

/-- R432. -/
theorem drivenParity : Rules.DrivenParity := by
  intro n b
  refine List.all_eq_true.mpr fun k hk => ?_
  simp only [drive, getLsbD_parityOf n b (List.mem_range.mp hk), decide_eq_true_eq, beq_iff_eq]
  split
  · omega
  · omega

/-! ### Data lanes (R399) -/

/-- The bits of bytes put side by side: bit i is bit i % 8 of byte i / 8. -/
theorem getLsbD_foldl_bytes {w : Nat} (g : Nat → BitVec 8) (n i : Nat) :
    ((List.range n).foldl (fun b t => b ||| (g t).setWidth w <<< (8 * t)) 0).getLsbD i =
      (decide (i < w) && decide (i / 8 < n) && (g (i / 8)).getLsbD (i % 8)) := by
  induction n with
  | zero => simp
  | succ n ih =>
    rw [List.range_succ, List.foldl_append, List.foldl_cons, List.foldl_nil, BitVec.getLsbD_or, ih,
      BitVec.getLsbD_shiftLeft, BitVec.getLsbD_setWidth]
    rcases Nat.lt_trichotomy (i / 8) n with hi | hi | hi
    · have hlow : i < 8 * n := by omega
      simp [hi, hlow, Nat.lt_succ_of_lt hi]
    · have hlow : ¬ i < 8 * n := by omega
      have hrest : i - 8 * n = i % 8 := by omega
      by_cases hw : i < w
      · have hrw : i % 8 < w := by omega
        simp [hi, hlow, hrest, hw, hrw]
      · simp [hw]
    · have hlow : ¬ i < 8 * n := by omega
      have hout : 8 ≤ i - 8 * n := by omega
      have hn : ¬ i / 8 < n + 1 := by omega
      simp [hlow, hn, Nat.not_lt_of_gt hi, BitVec.getLsbD_of_ge _ _ hout]

theorem laneCount_pos (w4 : Bool) : 0 < laneCount w4 := by cases w4 <;> decide

theorem laneCount_slots (w4 : Bool) : laneCount w4 * (72 / laneCount w4) = 72 := by cases w4 <;> decide

/-- Bit i of what data lane j carries is bit i % 8 of the frame's byte in slot i / 8. -/
theorem getLsbD_laneBits (w4 : Bool) (f : BitVec 576) (j i : Nat) : (laneBits w4 f j).getLsbD i =
    (decide (i < 144) && decide (i / 8 < 72 / laneCount w4) &&
      f.getLsbD (8 * (i / 8 * laneCount w4 + j) + i % 8)) := by
  have hlow : i % 8 < 8 := Nat.mod_lt _ (by decide)
  rw [laneBits, getLsbD_foldl_bytes fun t => field f (8 * (t * laneCount w4 + j)) 8, field,
    BitVec.getLsbD_extractLsb', decide_eq_true hlow, Bool.true_and]

/-- Byte k comes back from the lane and the slot it travels in. -/
theorem field_laneBits (w4 : Bool) (f : BitVec 576) {k i : Nat} (hk : k < 72) (hi : i < 8) :
    (field (laneBits w4 f (laneOfByte w4 k)) (8 * slotOfByte w4 k) 8 : BitVec 8).getLsbD i =
      f.getLsbD (8 * k + i) := by
  have hslot : slotOfByte w4 k < 72 / laneCount w4 :=
    Nat.div_lt_of_lt_mul (by rw [laneCount_slots]; exact hk)
  have hslots : 72 / laneCount w4 ≤ 18 := by cases w4 <;> decide
  have hdiv : (8 * slotOfByte w4 k + i) / 8 = slotOfByte w4 k := by omega
  have hmod : (8 * slotOfByte w4 k + i) % 8 = i := by omega
  have hbyte : slotOfByte w4 k * laneCount w4 + laneOfByte w4 k = k := Nat.div_add_mod' k _
  have hwidth : 8 * slotOfByte w4 k + i < 144 := by omega
  rw [field, BitVec.getLsbD_extractLsb', getLsbD_laneBits, hdiv, hmod, hbyte]
  simp [hi, hslot, hwidth]

theorem frameOfLanes_laneBits (w4 : Bool) (f : BitVec 576) :
    frameOfLanes w4 ((List.range (laneCount w4)).map (laneBits w4 f)) = f := by
  refine BitVec.eq_of_getLsbD_eq fun i hi => ?_
  have hk : i / 8 < 72 := by omega
  have hlane : laneOfByte w4 (i / 8) < laneCount w4 := Nat.mod_lt _ (laneCount_pos w4)
  rw [frameOfLanes, getLsbD_foldl_bytes fun k =>
    field (((List.range (laneCount w4)).map (laneBits w4 f)).getD (laneOfByte w4 k) 0) (8 * slotOfByte w4 k) 8]
  have hget : ((List.range (laneCount w4)).map (laneBits w4 f)).getD (laneOfByte w4 (i / 8)) 0 =
      laneBits w4 f (laneOfByte w4 (i / 8)) := by simp [hlane]
  rw [hget, field_laneBits w4 f hk (Nat.mod_lt _ (by decide)), Nat.div_add_mod]
  simp [hi, hk]

/-! ### Scramblers (R400) -/

/-- A scrambler XORs a sequence that does not depend on the data. -/
theorem scramble_xor (n i : Nat) (r : BitVec 23) (a b : BitVec 144) :
    scramble n i r (a ^^^ b) = a ^^^ scramble n i r b := by
  induction n generalizing i r b with
  | zero => rfl
  | succ n ih =>
    rw [scramble, scramble, ← ih]
    split
    · rw [BitVec.xor_assoc]
    · rfl

theorem scramble_scramble (n i : Nat) (r : BitVec 23) (b : BitVec 144) : scramble n i r (scramble n i r b) = b := by
  have hkey : ∀ a, scramble n i r a = a ^^^ scramble n i r 0 := fun a => by
    rw [← scramble_xor, show a ^^^ (0 : BitVec 144) = a from BitVec.xor_zero]
  rw [hkey b, scramble_xor, hkey (scramble n i r 0), BitVec.xor_self, BitVec.xor_zero]

/-- R399, R400. -/
theorem lanesCarryFrames : Rules.LanesCarryFrames := by
  refine ⟨frameOfLanes_laneBits, scramble_scramble, fun p hp => ?_⟩
  simp [scramStart, scramSeed, hp]

/-! ### The TAP (R464) -/

section
variable {t : TestAccess} (tms tdi : Bool) (i : TapInstr)

theorem tapClock_trstN : (tapClock tms tdi i t).trstN = t.trstN := by
  unfold tapClock
  dsimp only
  split
  · rfl
  · split
    · rfl
    · rfl

/-- Held in reset, the TAP stays in Test-Logic-Reset. -/
theorem tapClock_reset (h : t.trstN = false) : tapClock tms tdi i t = tapReset t := by simp [tapClock, h]

theorem tapClock_tap (h : t.trstN = true) : (tapClock tms tdi i t).tap = tapNext tms t.tap := by
  simp only [tapClock, h, Bool.not_true, Bool.false_eq_true, if_false]
  split
  · rename_i hnext
    exact (beq_iff_eq.mp hnext).symm
  · rfl

theorem tapClock_instr (h : t.trstN = true) (hnext : tapNext tms t.tap = .testLogicReset) :
    (tapClock tms tdi i t).instr = .bypass := by
  simp [tapClock, h, hnext, tapReset]

end

/-- From every state five clocks with jtag_tms 1 lead to Test-Logic-Reset. -/
theorem tapNext_five (x : TapState) :
    tapNext true (tapNext true (tapNext true (tapNext true (tapNext true x)))) = .testLogicReset := by
  cases x <;> rfl

/-- R464. -/
theorem testAccessPort : Rules.TestAccessPort := by
  intro t tms tdi i
  refine ⟨fun hlow => ?_, fun hhigh hshift hbypass => ?_, ?_⟩
  · rw [tapClock_reset _ _ _ hlow]
    exact ⟨rfl, rfl⟩
  · simp [tapClock, tapOut, tapNext, hhigh, hshift, hbypass]
  · rintro u rfl
    simp only [List.range_succ, List.range_zero, List.nil_append, List.cons_append, List.foldl_cons, List.foldl_nil]
    cases htrst : t.trstN with
    | false =>
      rw [tapClock_reset (t := tapClock true tdi i (tapClock true tdi i (tapClock true tdi i (tapClock true tdi i t))))
        _ _ _ (by simp only [tapClock_trstN, htrst])]
      exact ⟨rfl, rfl⟩
    | true =>
      have hend := tapNext_five t.tap
      refine ⟨?_, tapClock_instr _ _ _ ?_ ?_⟩
      all_goals simp only [tapClock_tap, tapClock_trstN, htrst, hend]

/-- Settles O60: parity bit by bit, frames byte by byte, the scrambler as an XOR with its sequence, and the TAP by its
transitions. -/
theorem pinsAndLanes : Obligations.PinsAndLanes := ⟨drivenParity, lanesCarryFrames, testAccessPort⟩

end Sys2Proof.Machine

/-! PROOF. Random bits: mask fills, reseeds, the noise source, the lanes (O18, O19, O20). -/
namespace Sys2Proof.Machine

/-! ### Mask fills (R382, R383, R384, R447) -/

section
variable {s : State} {w : Word} {f : MaskFill}

theorem exec_maskStart (ha : Applies s) (w : Word) :
    exec (.maskStart w) s = .next (respond 0x04 (writeMaskCtl w s)) :=
  congrArg Host.Outcome.next (ctlWrite_applies ha _ _ _)

theorem exec_maskStop (ha : Applies s) (w : Word) :
    exec (.maskStop w) s = .next (respond 0x04 (writeMaskCtl w s)) :=
  congrArg Host.Outcome.next (ctlWrite_applies ha _ _ _)

/-- START of a fill that no check refuses. -/
theorem writeMaskCtl_start (hstart : w.getLsbD 0 = true) (hok : maskErr s w = 0) :
    writeMaskCtl w s = { s with rng := { s.rng with mask := { s.rng.mask with
      err := 0, valid := false, stopped := false, done := 0, run := some { regs := s.rng.mask.regs } } } } := by
  rw [writeMaskCtl, if_pos hstart]
  exact if_pos hok

/-- START of a fill that a check refuses. -/
theorem writeMaskCtl_refused (hstart : w.getLsbD 0 = true) (hbad : maskErr s w ≠ 0) :
    writeMaskCtl w s = { s with rng := { s.rng with mask := { s.rng.mask with err := maskErr s w } } } := by
  rw [writeMaskCtl, if_pos hstart]
  exact if_neg hbad

theorem writeMaskCtl_stop (hstart : w.getLsbD 0 = false) (hstop : w.getLsbD 1 = true) :
    writeMaskCtl w s = maskStop true s := by
  rw [writeMaskCtl, if_neg (Bool.eq_false_iff.mp hstart), if_pos hstop]

/-- A fill with lines in the memory path is stopping. -/
theorem maskStop_out (hrun : s.rng.mask.run = some f) (hout : maskOut s = true) (shown : Bool) :
    maskStop shown s = { s with rng := { s.rng with mask := { s.rng.mask with
      run := some { f with stopping := true, shown := shown } } } } := by
  have hstill : ∀ r, maskOut { s with rng := r } = true := fun _ => hout
  simp [maskStop, hrun, maskSettle, hstill]

/-- A fill with all its lines through ends as it is stopped. -/
theorem maskStop_through (hrun : s.rng.mask.run = some f) (hout : maskOut s = false) (shown : Bool) :
    maskStop shown s = maskEnd false shown { s with rng := { s.rng with mask := { s.rng.mask with
      run := some { f with stopping := true, shown := shown } } } } := by
  have hstill : ∀ r, maskOut { s with rng := r } = false := fun _ => hout
  simp [maskStop, hrun, maskSettle, hstill]

theorem maskEnd_rng (valid stopped : Bool) (s : State) : (maskEnd valid stopped s).rng = { s.rng with
    mask := { s.rng.mask with run := none, valid := valid, stopped := stopped, gateWait := false } } := by
  simp [maskEnd]

theorem exec_maskFillDone (hready : ready s = true) (hrun : s.rng.mask.run = some f)
    (hmade : f.made = f.regs.count.toNat) (hpart : f.part = []) (hout : maskOut s = false) :
    exec .maskFillDone s = .next (maskEnd (s.rng.mask.done.toNat == f.regs.count.toNat) false s) := by
  simp [exec, execMaskFillDone, hrun, hready, hmade, hpart, hout]

end

/-- R382, R383, R384, R447. -/
theorem maskFills : Rules.MaskFills := by
  intro s w
  refine ⟨fun ha hstart => ⟨fun hok => ?_, fun hbad => ?_⟩,
    fun f ha hstart hstop hrun => ⟨fun hout => ?_, fun hout => ?_⟩,
    fun f hready hrun hmade hpart hout => exec_maskFillDone hready hrun hmade hpart hout⟩
  · rw [exec_maskStart ha, writeMaskCtl_start hstart hok]
  · rw [exec_maskStart ha, writeMaskCtl_refused hstart hbad]
  · rw [exec_maskStop ha, writeMaskCtl_stop hstart hstop, maskStop_out hrun hout]
  · rw [exec_maskStop ha, writeMaskCtl_stop hstart hstop]
    refine ⟨_, rfl, ?_, ?_, ?_, only_respond _ (by decide) (only_maskStop true (by decide) (only_refl _ s))⟩
    all_goals rw [respond_rng, maskStop_through hrun hout, maskEnd_rng]

/-! ### Reseeding (R389, R391, R393) -/

/-- R389, R391, R393. -/
theorem reseeding : Rules.Reseeding := by
  intro s w
  refine ⟨fun ha => congrArg Host.Outcome.next (ctlWrite_applies ha _ _ _), fun im him hready hsome hdue => ?_,
    fun hruns hwanted hfull hfresh hnoise => ?_⟩
  · simp [exec, execReseedInterval, him, hready, hsome, hdue]
  · simp [exec, execReseed, hruns, hwanted, hfull, hfresh, hnoise]

/-- Settles O18: a write of MASK_CTL by its one action, a stop by whether lines are still out, a reseed by its
conditions. -/
theorem fillsAndReseeds : Obligations.FillsAndReseeds := ⟨maskFills, reseeding⟩

/-! ### The noise source (R385, R386, R389) -/

/-- A bit that joins a block short of full in OK or ALARM. -/
theorem gatherBit_short {s : State} (b : Bool) (hnoise : s.rng.noise = .ok ∨ s.rng.noise = .alarm)
    (hshort : s.rng.raw.length < 1023) :
    gatherBit b s = { s with rng := { s.rng with raw := s.rng.raw ++ [b] } } := by
  have hlen : s.rng.raw.length ≠ 1023 := by omega
  rcases hnoise with h | h
  · simp [gatherBit, h, hlen]
  · simp [gatherBit, h, hlen]

/-- A raw bit that ends no window and fails neither test. -/
theorem noiseBit_good {s : State} {x y : Bool} {n c k : Nat} (b : Bool)
    (hnoise : s.rng.noise = .ok ∨ s.rng.noise = .alarm) (hrep : s.rng.rep = some (x, n))
    (hapt : s.rng.apt = some (y, c, k)) (hn : n < 25) (hc : c < 671) (hk : k < 1023)
    (hshort : s.rng.raw.length < 1023) :
    noiseBit b s = { s with rng := { s.rng with
      raw := s.rng.raw ++ [b], bitCount := s.rng.bitCount + 1, nextBit := now s + 40
      rep := some (b, if x == b then n + 1 else 1), apt := some (y, (if y == b then c + 1 else c), k + 1) } } := by
  have hrct : ((if x == b then n + 1 else 1) == 26) = false := by
    rw [beq_eq_false_iff_ne]
    split
    · omega
    · omega
  have haptOk : ((if y == b then c + 1 else c) == 672) = false := by
    rw [beq_eq_false_iff_ne]
    split
    · omega
    · omega
  have hwindow : (k + 1 == 1024) = false := by
    rw [beq_eq_false_iff_ne]
    omega
  unfold noiseBit
  simp only [hrep, hapt, hrct, haptOk, hwindow, Bool.false_and, Bool.or_false, Bool.false_eq_true, if_false]
  exact gatherBit_short b hnoise hshort

/-- Settles O19: a bit of the source by the tests it passes, a block by who waits for it. -/
theorem noiseSource : Obligations.NoiseSource := by
  refine fun s => ⟨fun b x y n c k hruns hdue hnoise hrep hapt hn hc hk hshort => ?_,
    fun raw rest hready hruns hnoise hsession => ⟨fun hvault hroom => ?_, fun hvault => ?_⟩⟩
  · simp only [exec, execNoiseRawBit, hruns, hdue, decide_true, Bool.and_true, if_true]
    rw [noiseBit_good b hnoise hrep hapt hn hc hk hshort]
  · simp [exec, execConditionedBlock, hready, hruns, hnoise, takeBlock, hsession, hvault, hroom]
  · simp [exec, execConditionedBlock, hready, hruns, hnoise, takeBlock, hsession, hvault]

/-! ### The lanes (R390) -/

theorem slotOf_at {base n i : Nat} (hi : i < n) : slotOf base n (base + 8 * i) = some i := by
  have hend : base + 8 * i < base + 8 * n := by omega
  simp [slotOf, hi]

theorem slotOf_above {base n a : Nat} (ha : base + 8 * n ≤ a) : slotOf base n a = none := by
  have hend : ¬ a < base + 8 * n := by omega
  simp [slotOf, hend]

theorem readReg_live (s : State) {a : Nat} (ha : a < 0x800000) : readReg s (BitVec.ofNat 24 a) = readLive s a := by
  have htoNat : (BitVec.ofNat 24 a).toNat = a := by
    rw [BitVec.toNat_ofNat]
    exact Nat.mod_eq_of_lt (by omega)
  have hbelow : ¬ 0x800000 ≤ a := by omega
  simp [readReg, htoNat, hbelow]

theorem readRandom_lane (s : State) {n : Nat} (hn : n < 128) :
    readRandom s (0x071000 + 8 * n) = some (s.rng.lanes.getD n 1) := by
  have hcounters : slotOf 0x070100 6 (0x071000 + 8 * n) = none := slotOf_above (by omega)
  simp only [readRandom, hcounters, slotOf_at hn]
  repeat rw [if_neg (by omega)]
  rfl

theorem readReg_lane (s : State) (n : BitVec 7) :
    readReg s (BitVec.ofNat 24 (0x071000 + 8 * n.toNat)) = some (s.rng.lanes.getD n.toNat 1) := by
  have hn : n.toNat < 128 := n.isLt
  rw [readReg_live s (by omega), ← readRandom_lane s hn, readLive]
  repeat rw [if_neg (by omega)]
  rw [if_pos (by omega)]

/-- Settles O20: a lane reads as it stands, and a write by the one check that turns it away. -/
theorem laneWrites : Obligations.LaneWrites := by
  refine ⟨fun n => ?_, fun s n w => ⟨fun v hv => ?_, fun ha => ?_⟩⟩
  · have hn : n.toNat < 128 := n.isLt
    exact (List.getElem?_replicate_of_lt hn : (List.replicate 128 (1 : Word))[n.toNat]? = some 1)
  · rw [readReg_lane, List.getD_eq_getElem?_getD, hv, Option.getD_some]
  · have hrow : exec (.rngLaneWrite n w) s = .next (respond 0x04 (writeLane n.toNat w s)) :=
      congrArg Host.Outcome.next (ctlWrite_applies ha _ _ _)
    refine ⟨fun hfresh hw => ?_, fun hfresh hw => ?_, fun hfresh => ?_⟩
    · rw [hrow, writeLane, if_neg (Bool.eq_false_iff.mp hfresh), if_neg hw]
    · rw [hrow, writeLane, if_neg (Bool.eq_false_iff.mp hfresh), if_pos hw]
    · rw [hrow, writeLane, if_pos hfresh]

end Sys2Proof.Machine

/-! PROOF. The control port's answers, events, the croak causes, the error log, snapshots (O21, O23). -/
namespace Sys2Proof.Machine

/-- A write to a register that R510 names applies in FATAL too. -/
theorem ctlWrite_named {s : State} (hready : ready s = true) (hretain : s.power.state ≠ .retain) {addr : Addr24}
    {w : Word} (hnamed : fatalWritable addr w = true) (eff : State → State) :
    ctlWrite addr w eff s = respond 0x04 (eff s) := by
  simp only [ready, Bool.and_eq_true, beq_iff_eq] at hready
  obtain ⟨hopen, hstage⟩ := hready
  simp [ctlWrite, hopen, hstage, hnamed, hretain]

/-! ### Plain writes (R443, R445, R510, R523, R524) -/

section
variable {s : State} {addr : Addr24} {w : Word} {par : BitVec 12}

theorem portWrite_parity (hopen : portOpen s = true) (hpar : parityOk (ctlBundle addr w) par = false) :
    portWrite addr w par s = respond 0x06 (countPort 4 1 s) := by simp [portWrite, hopen, hpar]

theorem portWrite_unmapped (hopen : portOpen s = true) (hpar : parityOk (ctlBundle addr w) par = true)
    (hnone : readReg s (portAddr addr) = none) : portWrite addr w par s = respond 0x05 (countPort 5 1 s) := by
  simp [portWrite, hopen, hpar, hnone, unmapped]

theorem portWrite_register (hopen : portOpen s = true) (hpar : parityOk (ctlBundle addr w) par = true)
    (hsome : (readReg s (portAddr addr)).isSome = true) :
    portWrite addr w par s = ctlWrite (portAddr addr) w (writeReg (portAddr addr).toNat w) s := by
  obtain ⟨v, hv⟩ := Option.isSome_iff_exists.mp hsome
  simp [portWrite, hopen, hpar, hv]

end

/-- QUOTE_NONCE0 takes what is written. -/
theorem writeReg_quoteNonce (w : Word) (s : State) :
    writeReg (0x0C0100 : Addr24).toNat w s = { s with vault := { s.vault with nonce := s.vault.nonce.set 0 w } } := rfl

/-- Settles O21: a write by its parity, its address, and what the state of the port makes of it. -/
theorem registerWrites : Obligations.RegisterWrites := by
  refine fun s addr w par hopen => ⟨fun hpar => congrArg Host.Outcome.next (portWrite_parity hopen hpar), fun hpar =>
    ⟨fun hnone => congrArg Host.Outcome.next (portWrite_unmapped hopen hpar hnone), fun hsome hstage => ?_⟩⟩
  have hready : ready s = true := by simp [ready, hopen, hstage]
  have hrow : exec (.registerWrite addr w par) s = .next _ :=
    congrArg Host.Outcome.next (portWrite_register hopen hpar hsome)
  refine ⟨fun hfatal hrefused => ?_, fun hfatal hretain => ?_⟩
  · rw [hrow, ctlWrite_fatal hready hfatal hrefused]
  · have happlies : exec (.registerWrite addr w par) s =
        .next (respond 0x04 (writeReg (portAddr addr).toNat w s)) := by
      rw [hrow, ctlWrite_applies ⟨hready, hfatal, hretain⟩]
    exact ⟨happlies, fun hnonce => by rw [happlies, hnonce, writeReg_quoteNonce]⟩

/-! ### Events (R448) -/

/-- R448. -/
theorem eventsGoOut : Rules.EventsGoOut := by
  intro s t0 line rest hready hqueue hgap hdue
  have hnow : ¬ now s < t0 := Nat.not_lt.mpr hdue
  refine ⟨fun hnone => ?_, fun x ws hwaits => ?_⟩
  · simp [exec, execEventEmit, hready, eventEmit, hqueue, hgap, hnow, hnone]
  · have htime : ∀ e, now { s with evt := e } = now s := fun _ => rfl
    simp [exec, execEventEmit, hready, eventEmit, hqueue, hgap, hnow, hwaits, htime]

/-! ### Croak causes, the error log, snapshots (R507, R510, R513, R536) -/

/-- R507, R510, R513. -/
theorem croakAndLogWrites : Rules.CroakAndLogWrites := by
  intro s w hready hretain
  have hpop : exec (.errPop w) s = .next (respond 0x04 (writeErrPop w s)) :=
    congrArg Host.Outcome.next (ctlWrite_named hready hretain rfl _)
  refine ⟨congrArg Host.Outcome.next (ctlWrite_named hready hretain rfl _), fun hbit => ?_, fun hbit => ?_⟩
  · rw [hpop, writeErrPop, if_pos hbit]
    rfl
  · rw [hpop, writeErrPop, if_neg (Bool.eq_false_iff.mp hbit)]

/-- R533, R536, R537. -/
theorem snapshotTakes : Rules.SnapshotTakes := by
  intro s w ha hbit
  have hrow : exec (.snapTake w) s = .next (respond 0x04 (writeSnapCtl w s)) :=
    congrArg Host.Outcome.next (ctlWrite_applies ha _ _ _)
  rw [hrow, writeSnapCtl, if_pos hbit]

/-- Settles O23: an event by what waits behind it, the writes by their one bit. -/
theorem eventsLogSnapshot : Obligations.EventsLogSnapshot := ⟨eventsGoOut, croakAndLogWrites, snapshotTakes⟩

end Sys2Proof.Machine

/-! PROOF. The vault and the key-store port (O17): a write of VAULT_OP by what R494 makes of it, an answer by what
waited for it. -/
namespace Sys2Proof.Machine

/-! ### Operations begin (R494, R495, R496, R498) -/

/-- An accepted operation shows as running, without an error (R494). -/
def vaultGo (r : VaultOp) (w : Word) (s : State) : State :=
  { s with vault := { s.vault with run := some r, err := 0, opAddr := field w 8 12 } }

section
variable {s : State} {w : Word} {quote : State → Option (List Byte)}

theorem writeVaultOp_refused {e : BitVec 8} (h : vaultRefusal s (fieldNat w 0 3) (fieldNat w 8 12) = some e) :
    writeVaultOp w quote s = { s with vault := { s.vault with err := e } } := by
  change vaultRefusal s (fieldNat w 0 3) (field w 8 12).toNat = some e at h
  simp only [writeVaultOp, h]

/-- The write of an operation that no check refuses, by its OP. -/
theorem writeVaultOp_accepted (h : vaultRefusal s (fieldNat w 0 3) (fieldNat w 8 12) = none) :
    (fieldNat w 0 3 = 1 → writeVaultOp w quote s = { s with vault := { s.vault with
      run := some .keygen, err := 0, opAddr := field w 8 12, blocksDue := 3, blocks := [] } }) ∧
    (fieldNat w 0 3 = 2 → writeVaultOp w quote s = kstQueue
      [{ we := true, addr := field w 8 12, wdata := field w 32 32, use := .program }] (vaultGo .program w s)) ∧
    (fieldNat w 0 3 = 3 → writeVaultOp w quote s = kstQueue
      [{ we := true, addr := 0x12, wdata := 2, use := .lock }] (vaultGo .lock w s)) ∧
    (fieldNat w 0 3 = 4 → writeVaultOp w quote s = kstQueue
      [{ we := false, addr := field w 8 12, wdata := 0, use := .read }] (vaultGo .read w s)) := by
  change vaultRefusal s (fieldNat w 0 3) (field w 8 12).toNat = none at h
  refine ⟨fun hop => ?_, fun hop => ?_, fun hop => ?_, fun hop => ?_⟩
  all_goals
    rw [hop] at h
    simp only [writeVaultOp, h, hop, vaultGo, Nat.reduceEqDiff, if_true, if_false]

/-- An accepted QUOTE holds the bytes captured in its cycle (R498). -/
theorem writeVaultOp_quote (h : vaultRefusal s (fieldNat w 0 3) (fieldNat w 8 12) = none) (hop : fieldNat w 0 3 = 5)
    {bs : List Byte} (hbytes : quote { s with vault := { s.vault with
      run := some .quote, err := 0, opAddr := field w 8 12, blocksDue := 1, blocks := []
      out := List.replicate 46 0 } } = some bs) :
    writeVaultOp w quote s = { s with vault := { s.vault with
      run := some .quote, err := 0, opAddr := field w 8 12, blocksDue := 1, blocks := []
      out := List.replicate 46 0, quote := bs } } := by
  change vaultRefusal s (fieldNat w 0 3) (field w 8 12).toNat = none at h
  rw [hop] at h
  simp only [writeVaultOp, h, hop, Nat.reduceEqDiff, if_false, hbytes]

/-- An operation goes on the port at once where it is free and has had its gap (R459). -/
theorem kstQueue_free (hcur : s.kst.cur = none) (htodo : s.kst.todo = []) (hrest : s.kst.restAt ≤ portNow s)
    (o : KstOp) : kstQueue [o] s = { s with kst := { s.kst with cur := some (o, now s), todo := [] } } := by
  have hport : ∀ k, portNow { s with kst := k } = portNow s := fun _ => rfl
  have htime : ∀ k, now { s with kst := k } = now s := fun _ => rfl
  simp [kstQueue, kstNext, hcur, htodo, hport, htime, hrest]

end

/-- R494, R495, R496, R498. -/
theorem vaultOperationsBegin : Rules.VaultOperationsBegin := by
  intro s w ha
  have hrow : ∀ eff : State → State, ctlWrite vaultOpAddr w eff s = respond 0x04 (eff s) := ctlWrite_applies ha _ _
  refine ⟨fun e hrefused => ?_, fun hok => ?_⟩
  · exact congrArg Host.Outcome.next ((hrow _).trans (congrArg _ (writeVaultOp_refused hrefused)))
  · obtain ⟨hkeygen, hprogram, hlock, hread⟩ := writeVaultOp_accepted (quote := fun _ => none) hok
    refine ⟨fun hop => ?_, fun hcur htodo hrest => ?_, fun hop bs hbytes => ?_⟩
    · exact congrArg Host.Outcome.next ((hrow _).trans (congrArg _ (hkeygen hop)))
    · have hport (r : VaultOp) (o : KstOp) : kstQueue [o] (vaultGo r w s) = _ :=
        kstQueue_free (s := vaultGo r w s) hcur htodo hrest o
      refine ⟨fun hop => ?_, fun hop => ?_, fun hop => ?_⟩
      · exact ⟨_, congrArg Host.Outcome.next ((hrow _).trans (congrArg _ ((hprogram hop).trans (hport _ _)))),
          rfl, rfl, rfl⟩
      · exact ⟨_, congrArg Host.Outcome.next ((hrow _).trans (congrArg _ ((hlock hop).trans (hport _ _)))),
          rfl, rfl, rfl⟩
      · exact ⟨_, congrArg Host.Outcome.next ((hrow _).trans (congrArg _ ((hread hop).trans (hport _ _)))),
          rfl, rfl, rfl⟩
    · exact ⟨_, congrArg Host.Outcome.next ((hrow _).trans (congrArg _ (writeVaultOp_quote hok hop hbytes))),
        rfl, rfl, rfl, only_respond _ (by decide) (only_set_vault (by decide) (only_refl _ s))⟩

/-! ### The key-store port answers (R459, R460, R491, R502) -/

section
variable {s : State} {o : KstOp} {t0 : Nat} {rdata : BitVec 32} {par : BitVec 5}

/-- A good answer means to the vault what the operation was for. -/
theorem exec_kstAck_good (hcur : s.kst.cur = some (o, t0)) (hpar : parityOk ((0 : BitVec 8) ++ rdata) par = true) :
    exec (.kstAck rdata false par) s = .next (vaultKst o (some rdata) (kstLower false s)) := by
  simp only [exec, execKstAck, hcur, Bool.false_eq_true, if_false, Bool.false_or, hpar, Bool.not_true]

theorem exec_kstAck_bad (hcur : s.kst.cur = some (o, t0)) (hpar : parityOk ((0 : BitVec 8) ++ rdata) par = false) :
    exec (.kstAck rdata false par) s = .next (kstFailed o s) := by
  simp only [exec, execKstAck, hcur, Bool.false_eq_true, if_false, Bool.false_or, hpar, Bool.not_false, if_true]

theorem exec_kstAck_error (hcur : s.kst.cur = some (o, t0)) :
    exec (.kstAck rdata true par) s = .next (kstFailed o s) := by
  simp only [exec, execKstAck, hcur, Bool.true_or, if_true]

theorem exec_kstTimeout_due (hcur : s.kst.cur = some (o, t0)) (hdue : t0 + kstBound o ≤ now s) :
    exec .kstTimeout s = .next (kstFailed o s) := by
  simp only [exec, execKstTimeout, hcur, hdue, if_true]

/-- A first failure leaves the operation to go again after the gap (R460). -/
theorem kstFailed_first (hfirst : s.kst.repeated = false) : kstFailed o s = countPort 10 1 { s with kst :=
    { cur := none, repeated := true, todo := o :: s.kst.todo, restAt := portNow s + 2 } } := by
  rw [kstFailed, if_neg (Bool.eq_false_iff.mp hfirst)]
  rfl

theorem kstLower_last (htodo : s.kst.todo = []) :
    kstLower false s = { s with kst := { cur := none, repeated := false, todo := [], restAt := portNow s + 2 } } := by
  simp only [kstLower, htodo]

end

/-- R459, R460, R491, R502. -/
theorem keyStoreAnswers : Rules.KeyStoreAnswers := by
  intro s o t0 rdata par hcur
  refine ⟨fun hpar htodo => ?_, fun hfirst => ?_⟩
  · rw [exec_kstAck_good hcur hpar, kstLower_last htodo]
    refine ⟨fun huse hrun => ?_, fun huse hrun => ?_, fun huse hrun => ?_, fun huse => ?_⟩
    · simp only [vaultKst, huse, hrun, beq_self_eq_true, if_true]
      rfl
    · simp only [vaultKst, huse, hrun, beq_self_eq_true, if_true]
      rfl
    · simp only [vaultKst, huse, hrun, beq_self_eq_true, if_true]
      rfl
    · simp only [vaultKst, huse]
  · rw [exec_kstAck_error hcur, kstFailed_first hfirst]
    refine ⟨rfl, fun hpar => ?_, fun hdue => ?_⟩
    · rw [exec_kstAck_bad hcur hpar, kstFailed_first hfirst]
    · rw [exec_kstTimeout_due hcur hdue, kstFailed_first hfirst]

/-! ### Quotes end (R498, R499, R500) -/

/-- R498, R499, R500. -/
theorem quoteIsSigned : Rules.QuoteIsSigned := by
  intro s hready hrun hblock
  have hdue : (ready s && s.vault.run == some .quote && s.vault.blocksDue == 0) = true := by
    simp [hready, hrun, hblock]
  exact congrArg Host.Outcome.next (if_pos hdue)

/-- Settles O17: an accepted operation by its OP, an answer by what the operation was for, a failure by its
repetition. -/
theorem vaultAndKeyStore : Obligations.VaultAndKeyStore := ⟨vaultOperationsBegin, keyStoreAnswers, quoteIsSigned⟩

end Sys2Proof.Machine

/-! PROOF. GCTL, the fabric clock ratio, the power states, fabric-only and link-only resets (O15, O16). -/
namespace Sys2Proof.Machine

/-! ### A write of GCTL in READY (R472, R473) -/

theorem getLsbD_of_field {m n i : Nat} {w : BitVec m} {k : BitVec n} (h : field w 0 n = k) (hi : i < n) :
    w.getLsbD i = k.getLsbD i := by
  rw [← h, field, BitVec.getLsbD_extractLsb']
  simp [hi]

/-- A GCTL write applies in READY, in FATAL and in RETAIN too (R483, R510). -/
theorem ctlWrite_gctl {s : State} (hready : ready s = true) (w : Word) :
    ctlWrite gctlAddr w (writeGctl w) s = respond 0x04 (writeGctl w s) := by
  simp only [ready, Bool.and_eq_true, beq_iff_eq] at hready
  obtain ⟨hopen, hstage⟩ := hready
  have hnamed : fatalWritable gctlAddr w = true := rfl
  simp [ctlWrite, hopen, hstage, hnamed]

/-- What an accepted GCTL write does before its action: the fields of R472, ERR 0. -/
def gctlTaken (w : Word) (s : State) : State := gctlErr 0 (gctlFields w s)

section
variable {s : State} {w : Word}

theorem ready_stage (hready : ready s = true) : s.boot.stage = .ready := by
  simp only [ready, Bool.and_eq_true, beq_iff_eq] at hready
  exact hready.2

theorem gctlFields_boot : (gctlFields w s).boot = s.boot :=
  (only_gctlFields w (List.Subset.refl _) (only_refl _ s)).part .boot (by decide)

theorem only_gctlTaken : OnlyChanges [.boot, .clk, .power] s (gctlTaken w s) :=
  only_gctlErr 0 (by decide) (only_gctlFields w (by decide) (only_refl _ s))

theorem gctlTaken_boot : (gctlTaken w s).boot = { s.boot with gctlErr := 0 } := by
  show { (gctlFields w s).boot with gctlErr := 0 } = _
  rw [gctlFields_boot]

theorem fabricBusyPhase_gctlFields : fabricBusyPhase (gctlFields w s) = fabricBusyPhase s := by
  have honly : OnlyChanges [.clk, .power] s (gctlFields w s) := only_gctlFields w (List.Subset.refl _) (only_refl _ s)
  have hstep : (gctlFields w s).step = s.step := honly.part .step (by decide)
  have hsweep : (gctlFields w s).sweep = s.sweep := honly.part .sweep (by decide)
  rw [fabricBusyPhase, fabricBusyPhase, recovering, recovering, curPass, curPass, hstep, hsweep]

/-- In READY a write that no check refuses does its one action (R473). -/
theorem writeGctl_accepted (hstage : s.boot.stage = .ready) (hlone : ¬ 1 < popCount (field w 0 4))
    (hdiv : (field w 10 2 : BitVec 2) ≠ 3)
    (hkey : w.getLsbD 0 = true → (field w 48 16 : BitVec 16) = 0x5752)
    (hfabric : w.getLsbD 3 = true → fabricBusyPhase s = false ∧ s.boot.fabricReset = false)
    (hwest : w.getLsbD 2 = true → s.boot.linkResetW = false)
    (heast : w.getLsbD 1 = true → s.boot.linkResetE = false) :
    writeGctl w s =
      if w.getLsbD 3 then fabricResetStart (gctlTaken w s)
      else if w.getLsbD 2 then linkOnlyReset .west (gctlTaken w s)
      else if w.getLsbD 1 then linkOnlyReset .east (gctlTaken w s)
      else if w.getLsbD 0 then warmBegin 0x05 (gctlTaken w s)
      else gctlTaken w s := by
  have hkeyOk : ¬ (w.getLsbD 0 && (field w 48 16 : BitVec 16) != 0x5752) = true := by
    rw [Bool.and_eq_true, bne_iff_ne]
    exact fun h => h.2 (hkey h.1)
  have hphase : ¬ (w.getLsbD 3 && fabricBusyPhase (gctlFields w s)) = true := by
    rw [fabricBusyPhase_gctlFields, Bool.and_eq_true]
    exact fun h => Bool.eq_false_iff.mp (hfabric h.1).1 h.2
  have hidle : ¬ ((w.getLsbD 3 && (gctlFields w s).boot.fabricReset) || 
      (w.getLsbD 2 && (gctlFields w s).boot.linkResetW) ||
      (w.getLsbD 1 && (gctlFields w s).boot.linkResetE)) = true := by
    rw [gctlFields_boot, Bool.or_eq_true, Bool.or_eq_true, Bool.and_eq_true, Bool.and_eq_true, Bool.and_eq_true]
    rintro ((h | h) | h)
    · exact Bool.eq_false_iff.mp (hfabric h.1).2 h.2
    · exact Bool.eq_false_iff.mp (hwest h.1) h.2
    · exact Bool.eq_false_iff.mp (heast h.1) h.2
  have hready : ¬ (s.boot.stage != .ready) = true := by simp [hstage]
  rw [writeGctl, if_neg hlone, if_neg hready]
  dsimp only
  rw [if_neg hkeyOk, if_neg hdiv, if_neg hphase, if_neg hidle]
  rfl

/-- The action bits of a write with the action k. -/
theorem gctlBits {k : BitVec 4} (haction : field w 0 4 = k) :
    w.getLsbD 0 = k.getLsbD 0 ∧ w.getLsbD 1 = k.getLsbD 1 ∧ w.getLsbD 2 = k.getLsbD 2 ∧ w.getLsbD 3 = k.getLsbD 3 :=
  ⟨getLsbD_of_field haction (by decide), getLsbD_of_field haction (by decide), getLsbD_of_field haction (by decide),
    getLsbD_of_field haction (by decide)⟩

/-- The answer to a GCTL write with the action k alone, which no check refuses. -/
theorem gctl_answers {k : BitVec 4} (hready : ready s = true) (hdiv : (field w 10 2 : BitVec 2) ≠ 3)
    (haction : field w 0 4 = k) :
    (k = 0 → ctlWrite gctlAddr w (writeGctl w) s = respond 0x04 (gctlTaken w s)) ∧
    (k = 1 → (field w 48 16 : BitVec 16) = 0x5752 →
      ctlWrite gctlAddr w (writeGctl w) s = respond 0x04 (warmBegin 0x05 (gctlTaken w s))) ∧
    (k = 2 → s.boot.linkResetE = false →
      ctlWrite gctlAddr w (writeGctl w) s = respond 0x04 (linkOnlyReset .east (gctlTaken w s))) ∧
    (k = 4 → s.boot.linkResetW = false →
      ctlWrite gctlAddr w (writeGctl w) s = respond 0x04 (linkOnlyReset .west (gctlTaken w s))) ∧
    (k = 8 → fabricBusyPhase s = false → s.boot.fabricReset = false →
      ctlWrite gctlAddr w (writeGctl w) s = respond 0x04 (fabricResetStart (gctlTaken w s))) := by
  have hstage := ready_stage hready
  obtain ⟨h0, h1, h2, h3⟩ := gctlBits haction
  rw [ctlWrite_gctl hready]
  refine ⟨?_, ?_, ?_, ?_, ?_⟩
  · rintro rfl
    rw [writeGctl_accepted hstage (by rw [haction]; decide) hdiv (by rw [h0]; exact nofun) (by rw [h3]; exact nofun)
      (by rw [h2]; exact nofun) (by rw [h1]; exact nofun), h0, h1, h2, h3]
    rfl
  · rintro rfl hkey
    rw [writeGctl_accepted hstage (by rw [haction]; decide) hdiv (fun _ => hkey) (by rw [h3]; exact nofun)
      (by rw [h2]; exact nofun) (by rw [h1]; exact nofun), h0, h1, h2, h3]
    rfl
  · rintro rfl hidle
    rw [writeGctl_accepted hstage (by rw [haction]; decide) hdiv (by rw [h0]; exact nofun) (by rw [h3]; exact nofun)
      (by rw [h2]; exact nofun) (fun _ => hidle), h1, h2, h3]
    rfl
  · rintro rfl hidle
    rw [writeGctl_accepted hstage (by rw [haction]; decide) hdiv (by rw [h0]; exact nofun) (by rw [h3]; exact nofun)
      (fun _ => hidle) (by rw [h1]; exact nofun), h2, h3]
    rfl
  · rintro rfl hphase hidle
    rw [writeGctl_accepted hstage (by rw [haction]; decide) hdiv (by rw [h0]; exact nofun) (fun _ => ⟨hphase, hidle⟩)
      (by rw [h2]; exact nofun) (by rw [h1]; exact nofun), h3]
    rfl

end

/-! ### The fabric clock ratio (R470) -/

section
variable {s : State} {d : BitVec 2}

/-- The ratio in effect, written again. -/
theorem divWrite_same (hnone : s.clk.divUntil = none) (hsame : s.clk.fabDiv = d) :
    divWrite d s = setClk (fun c => { c with gctlDiv := d, divPending := false }) s := by
  simp [divWrite, setClk, hnone, hsame]

/-- Another ratio, while the fabric stands still: the change begins. -/
theorem divWrite_stopped (hnone : s.clk.divUntil = none) (hnew : s.clk.fabDiv ≠ d) (hstop : fabStopped s = true) :
    divWrite d s = setClk (fun c => { c with
      gctlDiv := d, divPending := false, divUntil := some (now s + 64, d) }) s := by
  have hstill : ∀ c, fabStopped { s with clk := c } = true := fun _ => hstop
  simp [divWrite, setClk, hnone, hnew.symm, hstill, divBegin, now]

/-- Another ratio, while the fabric moves: the change waits. -/
theorem divWrite_moving (hnone : s.clk.divUntil = none) (hnew : s.clk.fabDiv ≠ d) (hstop : fabStopped s = false) :
    divWrite d s = setClk (fun c => { c with gctlDiv := d, divPending := true }) s := by
  have hstill : ∀ c, fabStopped { s with clk := c } = false := fun _ => hstop
  simp [divWrite, setClk, hnone, hnew.symm, hstill]

end

/-- The clocks after an accepted write, by the ratio written: the other fields do not bear on it. -/
theorem gctlTaken_divWrite {s : State} {w : Word} (hdiv : (field w 10 2 : BitVec 2) ≠ 3) :
    ∃ u : State, u.clk = s.clk ∧ now u = now s ∧ fabStopped u = fabStopped s ∧
      (gctlTaken w s).clk = (divWrite (field w 10 2) u).clk := by
  simp only [gctlTaken, gctlErr, setBoot, gctlFields, if_neg hdiv]
  refine ⟨_, ?_, ?_, ?_, rfl⟩
  · rfl
  · rfl
  · rfl

/-- The fab clock's time does not depend on what is written. -/
theorem gctlTaken_fab {s : State} {w : Word} : (gctlTaken w s).clk.fab = s.clk.fab := by
  have hdiv (d : BitVec 2) (u : State) : (divWrite d u).clk.fab = u.clk.fab := by
    unfold divWrite
    dsimp only
    split
    · rfl
    · rfl
  show (gctlFields w s).clk.fab = s.clk.fab
  unfold gctlFields
  dsimp only
  split
  · rfl
  · exact hdiv _ _

/-- R470, R472. -/
theorem fabClockRatio : Rules.FabClockRatio := by
  intro s w hready
  refine ⟨fun haction hdiv hnone => ?_, fun u d hunder hdue => ?_, fun hnone hpending hstop => ?_⟩
  · obtain ⟨hplain, -⟩ := gctl_answers hready hdiv haction
    have hexec : exec (.fabDivWrite w) s = .next (respond 0x04 (gctlTaken w s)) :=
      congrArg Host.Outcome.next (hplain rfl)
    obtain ⟨u, huclk, hunow, hustop, htaken⟩ := gctlTaken_divWrite (s := s) hdiv
    refine ⟨_, hexec, ?_⟩
    rw [respond_clk, respond_boot, gctlTaken_boot, htaken]
    have hnone' : u.clk.divUntil = none := by rw [huclk, hnone]
    have hinEffect : u.clk.fabDiv = s.clk.fabDiv := by rw [huclk]
    by_cases hsame : u.clk.fabDiv = field w 10 2
    · rw [divWrite_same hnone' hsame]
      rw [huclk] at hsame
      exact ⟨rfl, rfl, rfl, hinEffect, fun hnew => absurd hsame hnew, fun hnew => absurd hsame hnew⟩
    · cases hstop : fabStopped u with
      | true =>
        rw [divWrite_stopped hnone' hsame hstop]
        refine ⟨rfl, rfl, rfl, hinEffect, fun _ _ => ⟨by rw [← hunow]; rfl, rfl⟩, fun _ hmoving => ?_⟩
        rw [← hustop, hstop] at hmoving
        exact absurd hmoving (by decide)
      | false =>
        rw [divWrite_moving hnone' hsame hstop]
        refine ⟨rfl, rfl, rfl, hinEffect, fun _ hstopped => ?_, fun _ _ => ⟨hnone', rfl⟩⟩
        rw [← hustop, hstop] at hstopped
        exact absurd hstopped (by decide)
  · simp [exec, execFabDivApply, hready, divApply, hunder, hdue, setClk]
  · simp [exec, execFabDivApply, hready, divApply, hnone, hpending, hstop, divBegin, setClk]

/-! ### The power states (R480, R481, R482, R555) -/

section
variable {s : State}

/-- The wake's groups are all ungated 840 ctrl cycles after the first (R555). -/
theorem groupsUngated_all {u : Nat} (hfrom : s.power.wakeFrom = some u) :
    groupsUngated s = wakeGroups ↔ u + 840 ≤ now s := by
  simp only [groupsUngated, hfrom, wakeGroups, wakeSpacing]
  omega

theorem powerWake_usable (hcause : (activeCause s || s.power.forceActive) = true) (husable : s.power.usable = true) :
    powerWake s = { s with power := { s.power with state := .active, lastCause := now s, wakeFrom := none } } := by
  simp [powerWake, hcause, wakeBegin, setPower, husable, groupsUngated, wakeGroups]

/-- What a cause makes of a state whose units are not usable yet. -/
def waking (s : State) : State :=
  { s with power := { s.power with
    state := .active, lastCause := now s, wakeFrom := some (s.power.wakeFrom.getD (now s)) } }

theorem wakeBegin_waking (husable : s.power.usable = false) : wakeBegin s = waking s := by
  simp [wakeBegin, waking, setPower, husable]

/-- A wake with a cause, whose last group is ungated. -/
theorem powerWake_ends (hcause : (activeCause s || s.power.forceActive) = true) (husable : s.power.usable = false)
    (hdue : s.power.wakeFrom.getD (now s) + 840 ≤ now s) :
    powerWake s = rampStart (setPower (fun p => { p with usable := true, wakeFrom := none }) (waking s)) := by
  have hall : groupsUngated (waking s) = wakeGroups := (groupsUngated_all rfl).mpr hdue
  simp only [powerWake, hcause, if_true, wakeBegin_waking husable, hall]

theorem powerWake_goesOn (hcause : (activeCause s || s.power.forceActive) = true) (husable : s.power.usable = false)
    (hearly : now s < s.power.wakeFrom.getD (now s) + 840) : powerWake s = waking s := by
  have hsome : groupsUngated (waking s) ≠ wakeGroups := fun h =>
    Nat.not_le.mpr hearly ((groupsUngated_all (s := waking s) rfl).mp h)
  simp only [powerWake, hcause, if_true, wakeBegin_waking husable, hsome, if_false]

/-- A wake whose cause has gone meanwhile ends all the same. -/
theorem powerWake_causeGone (hcause : (activeCause s || s.power.forceActive) = false) {u : Nat}
    (hfrom : s.power.wakeFrom = some u) (hdue : u + 840 ≤ now s) :
    powerWake s = rampStart (setPower (fun p => { p with usable := true, wakeFrom := none }) s) := by
  have hall : groupsUngated s = wakeGroups := (groupsUngated_all hfrom).mpr hdue
  simp only [powerWake, hcause, Bool.false_eq_true, if_false, hall, if_true]

theorem exec_powerWakeDone (hready : ready s = true) : exec .powerWakeDone s = .next (powerWake s) :=
  congrArg Host.Outcome.next (if_pos hready)

end

/-- R480, R481, R482, R555. -/
theorem powerStates : Rules.PowerStates := by
  refine ⟨fun s => rfl, fun s hready => ⟨fun hcause => ?_, fun hcause hforce u hfrom hdue => ?_,
    fun hactive hcause hforce hlong => ?_, fun u hsince hok hlong => ?_, fun hretain hdue => ?_⟩⟩
  · have hany : (activeCause s || s.power.forceActive) = true := (Bool.or_eq_true _ _).mpr hcause
    rw [exec_powerWakeDone hready]
    exact ⟨fun husable => congrArg _ (powerWake_usable hany husable),
      fun husable hdue => congrArg _ (powerWake_ends hany husable hdue),
      fun husable hearly => congrArg _ (powerWake_goesOn hany husable hearly)⟩
  · rw [exec_powerWakeDone hready, powerWake_causeGone (by rw [hcause, hforce]; rfl) hfrom hdue]
    rfl
  · simp [exec, execActiveExit, hready, activeExit, hactive, hcause, hforce, hlong, setPower, restState]
  · simp [exec, execRetainEntry, hready, retainEnter, hsince, hok, hlong, setPower]
  · simp [exec, execRetainWake, hready, retainLeave, hretain, hdue, setPower]

/-- Settles O16: a ratio by whether the fabric stands still, a wake by its groups, the other states by their times. -/
theorem clockAndPower : Obligations.ClockAndPower := ⟨fabClockRatio, powerStates⟩

/-! ### A fabric-only reset (R478, R479) -/

section
variable (s : State)

theorem haltEma_running : (haltEma s).aux.running = false := by
  have hend : OnlyChanges [.health, .evt, .mem, .sweep, .strm, .pond] { s with aux := { s.aux with
      running := false, valid := false, reseeding := false, gateWait := false } } (haltEma s) :=
    only_pulse 8 (by decide) (only_endPass (by decide) (only_refl _ _))
  exact congrArg Aux.running (hend.part .aux (by decide))

/-- A fill that is stopped is stopping, or has ended. -/
theorem maskStop_run (shown : Bool) {f : MaskFill} (h : (maskStop shown s).rng.mask.run = some f) :
    f.stopping = true ∧ f.shown = shown := by
  cases hrun : s.rng.mask.run with
  | none =>
    simp [maskStop, hrun] at h
  | some g =>
    cases hout : maskOut s with
    | true =>
      rw [maskStop_out hrun hout] at h
      obtain rfl : _ = f := Option.some.inj h
      exact ⟨rfl, rfl⟩
    | false =>
      rw [maskStop_through hrun hout, maskEnd_rng] at h
      exact absurd h (by simp)

/-- The state in which a fabric-only reset has stopped an EMA pass and a mask fill (R478). -/
def fabricStopped : State := maskStop false (if s.aux.running then haltEma s else s)

theorem only_fabricStopped :
    OnlyChanges [.health, .evt, .mem, .aux, .sweep, .strm, .pond, .rng] s (fabricStopped s) :=
  only_maskStop false (by decide) (only_gate (only_haltEma (by decide) (only_refl _ s)))

theorem fabricStopped_running : (fabricStopped s).aux.running = false := by
  have hmask : OnlyChanges [.evt, .rng] (if s.aux.running then haltEma s else s) (fabricStopped s) :=
    only_maskStop false (List.Subset.refl _) (only_refl _ _)
  rw [hmask.part .aux (by decide)]
  split
  · exact haltEma_running s
  · exact Bool.eq_false_iff.mpr ‹_›

/-- What a fabric-only reset that meets no drain leaves. -/
theorem fabricResetBegin_leaves : (fabricResetBegin s).boot = { s.boot with fabricUntil := some (s.clk.fab + 4096) } ∧
    (fabricResetBegin s).aux.running = false ∧
    ∀ f, (fabricResetBegin s).rng.mask.run = some f → f.stopping = true ∧ f.shown = false := by
  refine ⟨?_, fabricStopped_running s, fun f hf => maskStop_run _ false hf⟩
  show { (fabricStopped s).boot with fabricUntil := some ((fabricStopped s).clk.fab + 4096) } = _
  rw [(only_fabricStopped s).part .boot (by decide), (only_fabricStopped s).part .clk (by decide)]

end

section
variable {s : State}

theorem fabricResetStart_idle (h : s.fab.draining = false) :
    fabricResetStart s = fabricResetBegin (setBoot (fun b => { b with fabricReset := true }) s) :=
  if_neg (Bool.eq_false_iff.mp h)

/-- A fabric-only reset that begins, or waits for a drain, reads as running; ERR stays. -/
theorem fabricResetStart_shows : (fabricResetStart s).boot.fabricReset = true ∧
    (fabricResetStart s).boot.gctlErr = s.boot.gctlErr := by
  cases h : s.fab.draining with
  | true =>
    have hwaits : fabricResetStart s = setBoot (fun b => { b with fabricReset := true }) s := if_pos h
    rw [hwaits]
    exact ⟨rfl, rfl⟩
  | false =>
    rw [fabricResetStart_idle h, (fabricResetBegin_leaves _).1]
    exact ⟨rfl, rfl⟩

end

/-- R473, R478, R479. -/
theorem fabricOnlyReset : Rules.FabricOnlyReset := by
  intro s w hready
  refine ⟨fun haction hdiv hphase hidle => ?_, fun u huntil hdue => ?_⟩
  · obtain ⟨-, -, -, -, hfabric⟩ := gctl_answers hready hdiv haction
    have hexec : exec (.fabricReset w) s = .next (respond 0x04 (fabricResetStart (gctlTaken w s))) :=
      congrArg Host.Outcome.next (hfabric rfl hphase hidle)
    have honly : OnlyChanges [.clk, .boot, .power, .health, .evt, .mem, .aux, .sweep, .fab, .strm, .pond, .rng] s
        (fabricResetStart (gctlTaken w s)) :=
      only_fabricResetStart (by decide) (only_gctlErr 0 (by decide) (only_gctlFields w (by decide) (only_refl _ s)))
    obtain ⟨hruns, herr⟩ := fabricResetStart_shows (s := gctlTaken w s)
    refine ⟨_, hexec, hruns, herr, rfl, honly.part .step (by decide), honly.part .east (by decide),
      honly.part .west (by decide), fun hdrain => ?_⟩
    have hdrain' : (gctlTaken w s).fab.draining = false := by
      rw [(only_gctlTaken (w := w) (s := s)).part .fab (by decide), hdrain]
    obtain ⟨hboot, hema, hfill⟩ := fabricResetBegin_leaves
      (setBoot (fun b => { b with fabricReset := true }) (gctlTaken w s))
    rw [respond_boot, respond_aux, respond_rng, fabricResetStart_idle hdrain']
    refine ⟨?_, hema, hfill⟩
    rw [hboot]
    exact congrArg (fun n => some (n + 4096)) gctlTaken_fab
  · have hexec : exec .fabricResetDone s = .next (fabricResetEnd s) := by
      simp [exec, execFabricResetDone, huntil, hready, hdue]
    refine ⟨_, hexec, ?_, only_fabricResetEnd (List.Subset.refl _) (only_refl _ s)⟩
    have hchosen : OnlyChanges [.fab] { s with boot := { s.boot with fabricReset := false, fabricUntil := none } }
        (fabricResetEnd s) := only_chooseVariant 0 (List.Subset.refl _) (only_refl _ _)
    exact hchosen.part .boot (by decide)

/-! ### A link-only reset (R428, R477) -/

theorem expected_of_image {s t : State} (h : t.image = s.image) (d : Side) : expected t d = expected s d := by
  simp only [expected, planOf, h]

/-- A link that is expected and not held down begins full training as it restarts. -/
theorem linkRestart_trains {s : State} {d : Side} (hexpected : expected s d = true)
    (hfree : (link s d).holdDown = false) :
    linkRestart d s = startTraining d false (setLink d (fun l => { l with failed := 0 }) s) := by
  rw [linkRestart, if_pos hexpected, if_neg (Bool.eq_false_iff.mp hfree)]

/-- GCTL reads the reset of a link as running (R472). -/
def linkMarked (d : Side) (s : State) : State := match d with
  | .east => { s with boot := { s.boot with linkResetE := true } }
  | .west => { s with boot := { s.boot with linkResetW := true } }

/-- A link-only reset of an expected link that is not held down, after what the GCTL write does before it. -/
theorem linkOnlyReset_trains {s : State} {w : Word} {d : Side} (hexpected : expected s d = true)
    (hfree : (link s d).holdDown = false) :
    linkOnlyReset d (gctlTaken w s) = segSettle (startTraining d false
      (setLink d (fun l => { l with failed := 0 }) (linkMarked d (gctlTaken w s)))) := by
  have hkept : OnlyChanges [.boot, .clk, .power] s (linkMarked d (gctlTaken w s)) := by
    cases d
    · exact only_set_boot (by decide) only_gctlTaken
    · exact only_set_boot (by decide) only_gctlTaken
  have hlink : link (linkMarked d (gctlTaken w s)) d = link s d :=
    link_of_sides (hkept.part .east (by decide)) (hkept.part .west (by decide)) d
  rw [← linkRestart_trains ((expected_of_image (hkept.part .image (by decide)) d).trans hexpected)
    (by rw [hlink, hfree])]
  rfl

/-- R428, R472, R473, R477. -/
theorem linkOnlyResets : Rules.LinkOnlyReset := by
  intro s w hready hdiv
  refine ⟨fun haction hidle hexpected hfree => ?_, fun haction hidle hexpected hfree => ?_⟩
  · obtain ⟨-, -, heast, -⟩ := gctl_answers hready hdiv haction
    refine ⟨_, rfl, rfl, ?_, congrArg Host.Outcome.next
      ((heast rfl hidle).trans (congrArg _ (linkOnlyReset_trains hexpected hfree)))⟩
    exact only_set_east (by decide) (only_set_boot (by decide)
      (only_gctlErr 0 (by decide) (only_gctlFields w (by decide) (only_refl _ s))))
  · obtain ⟨-, -, -, hwest, -⟩ := gctl_answers hready hdiv haction
    refine ⟨_, rfl, rfl, ?_, congrArg Host.Outcome.next
      ((hwest rfl hidle).trans (congrArg _ (linkOnlyReset_trains hexpected hfree)))⟩
    exact only_set_west (by decide) (only_set_boot (by decide)
      (only_gctlErr 0 (by decide) (only_gctlFields w (by decide) (only_refl _ s))))

/-- Settles O15: a fabric-only reset by what it stops, a link-only reset by the training that it starts. -/
theorem partialResets : Obligations.PartialResets := ⟨fabricOnlyReset, linkOnlyResets⟩

end Sys2Proof.Machine

/-! PROOF. What settling the ring leaves of a link (O13, O14, O55, O56, O57): frames join its queue, a sleeping link
wakes, a flash goes out; everything else of it stays. -/
namespace Sys2Proof.Machine

/-! ### The link ends before and after the ring's own traffic (R411, R413, R414, R415, R418) -/

/-- m is l but for frames that wait, a wake, and a flash that goes out. -/
structure Settled (l m : LinkEnd) : Prop where
  rest : m = { l with
    txPhase := m.txPhase, train := m.train, own := m.own, flashOut := m.flashOut, flashDue := m.flashDue
    runDue := m.runDue, sleepSent := m.sleepSent, sleepGot := m.sleepGot, lastMarker := m.lastMarker, cnt := m.cnt }
  phase : m.txPhase = l.txPhase ∨ (l.txPhase = .run ∧ m.txPhase = .verdict)
  train : m.train = l.train ∨
    (l.txPhase = .sleep ∧ l.train = none ∧ ∃ t, m.train = some t ∧ t.step = .clock ∧ t.wake = true)

theorem Settled.refl (l : LinkEnd) : Settled l l := ⟨rfl, .inl rfl, .inl rfl⟩

theorem Settled.trans {l m n : LinkEnd} (h : Settled l m) (h' : Settled m n) : Settled l n := by
  refine ⟨?_, ?_, ?_⟩
  · rw [h'.rest, h.rest]
  · rcases h'.phase with hn | ⟨hm, hn⟩
    · rw [hn]
      exact h.phase
    · rcases h.phase with hl | ⟨_, hl⟩
      · exact .inr ⟨hl ▸ hm, hn⟩
      · rw [hl] at hm
        exact absurd hm (by decide)
  · rcases h'.train with hn | ⟨hsleep, hnone, hwoken⟩
    · rw [hn]
      exact h.train
    · have hl : l.txPhase = .sleep := by
        rcases h.phase with hl | ⟨_, hl⟩
        · exact hl ▸ hsleep
        · rw [hl] at hsleep
          exact absurd hsleep (by decide)
      rcases h.train with hm | ⟨_, _, t, hm, _⟩
      · exact .inr ⟨hl, hm ▸ hnone, hwoken⟩
      · rw [hm] at hnone
        exact absurd hnone (by simp)

/-- What settling cannot change of a link it keeps. -/
theorem Settled.keeps {α : Type} {l m : LinkEnd} (h : Settled l m) (p : LinkEnd → α)
    (hp : ∀ a b c d e f g i j k, p { l with
      txPhase := a, train := b, own := c, flashOut := d, flashDue := e, runDue := f, sleepSent := g, sleepGot := i
      lastMarker := j, cnt := k } = p l := by intros; rfl) : p m = p l := by
  rw [h.rest]
  exact hp _ _ _ _ _ _ _ _ _ _

/-- A link that does not run stays in its phase. -/
theorem Settled.txPhase {l m : LinkEnd} (h : Settled l m) (hl : l.txPhase ≠ .run) : m.txPhase = l.txPhase :=
  h.phase.resolve_right fun hrun => hl hrun.1

/-- A link that does not sleep trains on, or not at all. -/
theorem Settled.train_awake {l m : LinkEnd} (h : Settled l m) (hl : l.txPhase ≠ .sleep) : m.train = l.train :=
  h.train.resolve_right fun hsleep => hl hsleep.1

theorem Settled.train_some {l m : LinkEnd} (h : Settled l m) {t : Training} (hl : l.train = some t) :
    m.train = some t := by
  rcases h.train with hm | ⟨_, hnone, _⟩
  · rw [hm, hl]
  · rw [hnone] at hl
    exact absurd hl (by simp)

/-- Both links of t are those of s, settled. -/
def SettledBy (s t : State) : Prop := ∀ d, Settled (link s d) (link t d)

theorem SettledBy.refl (s : State) : SettledBy s s := fun _ => .refl _

theorem SettledBy.trans {s t u : State} (h : SettledBy s t) (h' : SettledBy t u) : SettledBy s u :=
  fun d => (h d).trans (h' d)

theorem OnlyChanges.settledBy {L : List Part} {s t : State} (h : OnlyChanges L s t) (heast : Part.east ∉ L)
    (hwest : Part.west ∉ L) : SettledBy s t := fun d => by
  rw [link_of_sides (h.part .east heast) (h.part .west hwest)]
  exact .refl _

theorem SettledBy.ite {c : Prop} [Decidable c] {s t u : State} (ht : SettledBy s t) (hu : SettledBy s u) :
    SettledBy s (if c then t else u) := by
  split
  · exact ht
  · exact hu

theorem settledBy_foldl {α : Type} {f : State → α → State} (hf : ∀ s a, SettledBy s (f s a)) (l : List α) (s : State) :
    SettledBy s (l.foldl f s) := by
  induction l generalizing s with
  | nil => exact .refl s
  | cons a l ih => exact (hf s a).trans (ih _)

section
variable (d : Side) (s : State)

theorem settledBy_setLink {f : LinkEnd → LinkEnd} (hf : Settled (link s d) (f (link s d))) :
    SettledBy s (setLink d f s) := by
  intro e
  cases d
  · cases e
    · exact hf
    · exact .refl _
  · cases e
    · exact .refl _
    · exact hf

theorem settledBy_linkWake : SettledBy s (linkWake d s) := by
  refine settledBy_setLink d s ?_
  split
  case isTrue h =>
    simp only [Bool.and_eq_true, beq_iff_eq, Option.isNone_iff_eq_none] at h
    exact ⟨rfl, .inl rfl, .inr ⟨h.1, h.2, _, rfl, rfl, rfl⟩⟩
  case isFalse => exact .refl _

theorem settledBy_sendOn (vc : BitVec 2) (m : Line) (dest : Nat) (bcast : Bool) :
    SettledBy s (sendOn d vc m dest bcast s) :=
  .ite (.refl s) (.ite (.refl s) (.trans (settledBy_setLink d s ⟨rfl, .inl rfl, .inl rfl⟩) (settledBy_linkWake d _)))

theorem settledBy_broadcast (vc : BitVec 2) (m : Line) : SettledBy s (broadcast vc m s) :=
  .ite (.refl s) ((settledBy_sendOn _ _ _ _ _ _).trans (settledBy_sendOn _ _ _ _ _ _))

theorem settledBy_sendToManager (vc : BitVec 2) (m : Line) : SettledBy s (sendToManager vc m s) := by
  refine .ite (.refl s) ?_
  split
  · exact settledBy_sendOn _ _ _ _ _ _
  · exact .refl s

theorem settledBy_flashSend (f : Flash) : SettledBy s (flashSend d f s) := by
  have hcounted (u : State) : SettledBy u (countLink d 6 1 u) := settledBy_setLink d u ⟨rfl, .inl rfl, .inl rfl⟩
  unfold flashSend
  dsimp only
  split
  case h_1 => exact .trans (settledBy_setLink d s ⟨rfl, .inl rfl, .inl rfl⟩) (hcounted _)
  case h_2 hrun => exact .trans (settledBy_setLink d s ⟨rfl, .inr ⟨hrun, rfl⟩, .inl rfl⟩) (hcounted _)
  case h_3 => exact .trans (settledBy_setLink d s ⟨rfl, .inl rfl, .inl rfl⟩) (settledBy_linkWake d _)
  case h_4 => exact .refl s

theorem settledBy_holdStep (cause : BitVec 8) (hi : BitVec 32) (src : BitVec 16) :
    SettledBy s (holdStep cause hi src s) := by
  have hflash (u : State) : SettledBy u (holdNotice cause (flashRing .hold u)) :=
    .trans (.ite ((settledBy_flashSend .east u _).trans (settledBy_flashSend .west _ _)) (.refl u))
      ((only_holdNotice cause (List.Subset.refl _) (only_refl _ _)).settledBy (by decide) (by decide))
  have hpulsed (u : State) : SettledBy u (if u.verdict.holding then u else pulse 7 u) :=
    .ite (.refl u) ((only_pulse 7 (List.Subset.refl _) (only_refl _ u)).settledBy (by decide) (by decide))
  have hreported (code : BitVec 16) (arg : Word) : SettledBy s (report code arg s) :=
    (only_report code arg (List.Subset.refl _) (only_refl _ s)).settledBy (by decide) (by decide)
  have hheld (u : State) (v : Verdict) : SettledBy u { u with verdict := v } :=
    (only_set_verdict (List.mem_singleton_self _) (only_refl _ u)).settledBy (by decide) (by decide)
  unfold holdStep
  refine .ite (hreported _ _) (.trans ?_ (hflash _))
  exact ((hreported _ _).trans (hpulsed _)).trans (hheld _ _)

theorem settledBy_epochFail : SettledBy s (epochFail s) := by
  have hfailed (memb : Memb) (hi : BitVec 32) (src : BitVec 16) :
      SettledBy s (holdStep 4 hi src (croakSet 0x04 (pulse 6 { s with memb := memb }))) :=
    .trans (OnlyChanges.settledBy (L := [.health, .evt, .memb]) (only_croakSet _ (by decide) (only_pulse _ (by decide)
      (only_set_memb (by decide) (only_refl _ s)))) (by decide) (by decide)) (settledBy_holdStep _ _ _ _)
  unfold epochFail
  split
  · exact hfailed _ _ _
  · exact hfailed _ _ _
  · exact .refl s
  · exact .refl s

theorem settledBy_resendRing : SettledBy s (resendRing s) := by
  unfold resendRing
  cases s.ring.lastRecord with
  | none =>
    dsimp only
    split
    · exact settledBy_broadcast _ _ _
    · exact .refl s
  | some r =>
    dsimp only
    split
    · exact (settledBy_broadcast s _ _).trans (settledBy_broadcast _ _ _)
    · exact settledBy_broadcast s _ _

theorem settledBy_resendUnresolved : SettledBy s (resendUnresolved s) :=
  settledBy_foldl (fun u m => .ite (.refl u) (settledBy_sendToManager u _ m)) _ s

theorem settledBy_ringChanged (old : Option (Side × Nat)) (back : Bool) : SettledBy s (ringChanged old back s) := by
  unfold ringChanged
  refine .ite (.ite (settledBy_resendRing s) ((settledBy_resendRing s).trans (settledBy_epochFail _))) ?_
  split
  · exact settledBy_epochFail s
  · exact .ite (settledBy_resendUnresolved s) (.refl s)

theorem settledBy_segSettle : SettledBy s (segSettle s) := by
  have htold (r : Ring) (m : Line) : SettledBy s (broadcast 0 m { s with ring := r }) :=
    ((only_set_ring (List.mem_singleton_self _) (only_refl _ s)).settledBy (by decide) (by decide)).trans
      (settledBy_broadcast _ 0 m)
  unfold segSettle
  exact .ite (.refl s) (.ite (.refl s) ((htold _ _).trans (settledBy_ringChanged _ _ _)))

/-- What every event of a link ends with. -/
theorem settledBy_settleLinks : SettledBy s (settleLinks s) :=
  (settledBy_segSettle s).trans
    ((only_bootLinks (List.Subset.refl _) (only_refl _ _)).settledBy (by decide) (by decide))

/-- The link of a side, settled. -/
theorem settled_settleLinks : Settled (link s d) (link (settleLinks s) d) := settledBy_settleLinks s d

end

/-! ### Messages that wait stay (R413) -/

section
variable {x : InMsg} {s : State}

theorem mem_inbox_of_hier {t : State} (h : t.hier = s.hier) (hx : x ∈ s.hier.inbox) : x ∈ t.hier.inbox := by
  rw [h]
  exact hx

theorem mem_inbox_sendToManager (vc : BitVec 2) (m : Line) (hx : x ∈ s.hier.inbox) :
    x ∈ (sendToManager vc m s).hier.inbox := by
  unfold sendToManager
  split
  · exact List.mem_append_left _ hx
  · split
    · exact mem_inbox_of_hier (sendOn_hier ..) hx
    · exact hx

theorem mem_inbox_resendUnresolved (hx : x ∈ s.hier.inbox) : x ∈ (resendUnresolved s).hier.inbox := by
  unfold resendUnresolved
  generalize s.hier.unresolved = ms
  induction ms generalizing s with
  | nil => exact hx
  | cons m ms ih =>
    refine ih ?_
    dsimp only
    split
    · exact hx
    · exact mem_inbox_sendToManager _ _ hx

theorem mem_inbox_ringChanged (old : Option (Side × Nat)) (back : Bool) (hx : x ∈ s.hier.inbox) :
    x ∈ (ringChanged old back s).hier.inbox := by
  have hring : (resendRing s).hier = s.hier :=
    (only_resendRing (List.Subset.refl _) (only_refl _ s)).part .hier (by decide)
  have hfails (u : State) : (epochFail u).hier = u.hier :=
    (only_epochFail (List.Subset.refl _) (only_refl _ u)).part .hier (by decide)
  unfold ringChanged
  split
  · split
    · exact mem_inbox_of_hier hring hx
    · exact mem_inbox_of_hier ((hfails _).trans hring) hx
  · split
    · exact mem_inbox_of_hier (hfails s) hx
    · split
      · exact mem_inbox_resendUnresolved hx
      · exact hx

theorem mem_inbox_settleLinks (hx : x ∈ s.hier.inbox) : x ∈ (settleLinks s).hier.inbox := by
  have hboot (u : State) : (bootLinks u).hier = u.hier :=
    (only_bootLinks (List.Subset.refl _) (only_refl _ u)).part .hier (by decide)
  refine mem_inbox_of_hier (hboot _) ?_
  unfold segSettle
  split
  · exact hx
  · dsimp only
    split
    · exact hx
    · exact mem_inbox_ringChanged _ _ (mem_inbox_of_hier (s := s) (by rw [broadcast_hier]) hx)

end

end Sys2Proof.Machine

/-! PROOF. Link control bits, markers and clocks (O56): each operation as what it makes of its link's end, which the
ring's settling keeps. -/
namespace Sys2Proof.Machine

/-! ### Rows of the links -/

/-- While the links work, a row does what it does and the links settle. -/
theorem linkRow_open {s : State} (h : linksOpen s = true) (f : State → State) :
    linkRow f s = .next (settleLinks (f s)) := congrArg Host.Outcome.next (if_pos h)

theorem linkRow_of {s t : State} {f : State → State} (h : linksOpen s = true) (hf : f s = t) :
    linkRow f s = .next (settleLinks t) := by
  rw [linkRow_open h, hf]

theorem setLink_congr {d : Side} {f g : LinkEnd → LinkEnd} {s : State} (h : f (link s d) = g (link s d)) :
    setLink d f s = setLink d g s := by
  cases d
  · exact congrArg (fun l => { s with east := l }) h
  · exact congrArg (fun l => { s with west := l }) h

theorem setLink_setLink (d : Side) (f g : LinkEnd → LinkEnd) (s : State) :
    setLink d g (setLink d f s) = setLink d (fun l => g (f l)) s := by
  cases d
  · rfl
  · rfl

/-! ### Operations as functions of the link's end (R407, R417, R418, R419, R423) -/

/-- A link's end as training begins in ctrl cycle t. -/
def trainedEnd (retrain : Bool) (t : Nat) (l : LinkEnd) : LinkEnd :=
  let l := { l with
    txPhase := .train, rxPhase := .train, train := some { step := .clock, since := t, retrain := retrain }
    lastMarker := 0x96, flashOut := .hold, flashDue := none, sleepSent := false, sleepGot := false
    cnt := bump l.cnt 5 1 }
  if retrain then l
  else { l with
    txSeq := 0, replay := [], resend := [], ackSeq := 0xFFF, nakDue := false, nakOut := false
    sent := [0, 0, 0], freed := [0, 0, 0], gave := [0, 0, 0], own := [], transit := [] }

/-- A link's end as it goes DOWN in ctrl cycle t. -/
def downEnd (cause : BitVec 8) (t : Nat) (l : LinkEnd) : LinkEnd :=
  { l with
    txPhase := .down, rxPhase := .down, downCause := cause, replay := [], resend := [], own := [], transit := []
    downAt := t, flashOut := .hold, flashDue := none, train := none, retrainBit := false }

/-- A link's end that wakes in ctrl cycle t, if it sleeps. -/
def wokenEnd (t : Nat) (l : LinkEnd) : LinkEnd :=
  if l.txPhase == .sleep && l.train.isNone then
    { l with sleepSent := false, sleepGot := false
             train := some { step := .clock, since := t, wake := true, retrain := true } }
  else l

def heldEnd (on : Bool) (t : Nat) (l : LinkEnd) : LinkEnd :=
  let l := { l with holdDown := on }
  if !on || l.txPhase == .off then l
  else if l.txPhase == .down then { l with downCause := 5 }
  else downEnd 5 t l

def sleptEnd (on : Bool) (t : Nat) (l : LinkEnd) : LinkEnd :=
  let l := { l with sleepOn := on }
  if on then l else wokenEnd t l

def testedEnd (on : Bool) (l : LinkEnd) : LinkEnd :=
  { l with test := on, testTx := if on && !l.test then 0 else l.testTx }

def retrainedEnd (t : Nat) (l : LinkEnd) : LinkEnd :=
  if l.txPhase == .off || l.holdDown then l
  else { (if l.txPhase == .down then trainedEnd false t { l with failed := 0 }
      else if l.txPhase == .train then l
      else if l.txPhase == .sleep then wokenEnd t l
      else trainedEnd true t l) with retrainBit := true }

/-- HOLD_DOWN and the sleep bit act where they change. -/
def heldBit (on : Bool) (t : Nat) (l : LinkEnd) : LinkEnd := if on != l.holdDown then heldEnd on t l else l

def sleptBit (on old : Bool) (t : Nat) (l : LinkEnd) : LinkEnd := if on != old then sleptEnd on t l else l

/-- A link's end after the three mode bits of XLn_CTL. -/
def modeEnd (w : Word) (t : Nat) (l : LinkEnd) : LinkEnd :=
  testedEnd (w.getLsbD 1) (sleptBit (w.getLsbD 2) l.sleepOn t (heldBit (w.getLsbD 3) t l))

/-- A link's end after a write of XLn_CTL in ctrl cycle t (R423). -/
def xlCtlEnd (w : Word) (t : Nat) (l : LinkEnd) : LinkEnd :=
  if w.getLsbD 0 then retrainedEnd t (modeEnd w t l) else modeEnd w t l

section
variable (d : Side) (s : State)

theorem link_startTraining (retrain : Bool) :
    link (startTraining d retrain s) d = trainedEnd retrain (now s) (link s d) := by
  cases d
  · cases retrain
    · rfl
    · rfl
  · cases retrain
    · rfl
    · rfl

theorem link_linkWake : link (linkWake d s) d = wokenEnd (now s) (link s d) := link_setLink_same d _ s

/-- The report and the croak of a link that goes DOWN leave the links alone. -/
theorem link_goDown (cause : BitVec 8) : link (goDown d cause s) d = downEnd cause (now s) (link s d) := by
  have hreported (u : State) (arg : Word) : OnlyChanges [.health, .evt] u (report 0x0904 arg u) :=
    only_report _ _ (by decide) (only_refl _ u)
  have htold (u : State) (arg : Word) : link (if expected (report 0x0904 arg u) d then
      croakSet 0x02 (report 0x0904 arg u) else report 0x0904 arg u) d = link u d := by
    have honly : OnlyChanges [.health, .evt] u (if expected (report 0x0904 arg u) d then
        croakSet 0x02 (report 0x0904 arg u) else report 0x0904 arg u) :=
      only_ite (only_croakSet _ (by decide) (hreported u arg)) (hreported u arg)
    exact link_of_sides (honly.part .east (by decide)) (honly.part .west (by decide)) d
  refine (htold _ _).trans ?_
  cases d
  · rfl
  · rfl

theorem link_holdDown (on : Bool) : link (holdDown d on s) d = heldEnd on (now s) (link s d) := by
  have hnow : now (setLink d (fun l => { l with holdDown := on }) s) = now s := by
    cases d
    · rfl
    · rfl
  unfold holdDown heldEnd
  simp only [link_setLink_same]
  split
  · exact link_setLink_same d _ s
  · split
    · rw [link_setLink_same, link_setLink_same]
    · rw [link_goDown, link_setLink_same, hnow]

theorem link_sleepBit (on : Bool) : link (sleepBit d on s) d = sleptEnd on (now s) (link s d) := by
  have hnow : now (setLink d (fun l => { l with sleepOn := on }) s) = now s := by
    cases d
    · rfl
    · rfl
  unfold sleepBit sleptEnd
  dsimp only
  split
  · exact link_setLink_same d _ s
  · rw [link_linkWake, link_setLink_same, hnow]

theorem link_testBit (on : Bool) : link (testBit d on s) d = testedEnd on (link s d) := link_setLink_same d _ s

theorem link_retrainBit : link (retrainBit d s) d = retrainedEnd (now s) (link s d) := by
  have hnow : now (setLink d (fun l => { l with failed := 0 }) s) = now s := by
    cases d
    · rfl
    · rfl
  unfold retrainBit retrainedEnd
  dsimp only
  split
  · rfl
  · rw [link_setLink_same]
    split
    · rw [link_startTraining, link_setLink_same, hnow]
    · split
      · rfl
      · split
        · rw [link_linkWake]
        · rw [link_startTraining]

end

/-! ### A write of XLn_CTL (R423) -/

section
variable (d : Side) (w : Word) (s : State)

/-- The state after HOLD_DOWN of a write of XLn_CTL. -/
def xlHeld : State := if w.getLsbD 3 != (link s d).holdDown then holdDown d (w.getLsbD 3) s else s

/-- The state after HOLD_DOWN and the sleep bit. -/
def xlSlept : State :=
  if w.getLsbD 2 != (link s d).sleepOn then sleepBit d (w.getLsbD 2) (xlHeld d w s) else xlHeld d w s

/-- The state after all bits, before the links settle. -/
def xlWritten : State :=
  if w.getLsbD 0 then retrainBit d (testBit d (w.getLsbD 1) (xlSlept d w s))
  else testBit d (w.getLsbD 1) (xlSlept d w s)

theorem writeXlCtl_settles : writeXlCtl d w s = settleLinks (xlWritten d w s) := rfl

theorem only_xlHeld : OnlyChanges [.boot, .health, .evt, .hier, .east, .west] s (xlHeld d w s) :=
  only_gate (only_holdDown d _ (by decide) (only_refl _ s))

theorem only_xlSlept : OnlyChanges [.boot, .health, .evt, .hier, .east, .west] s (xlSlept d w s) :=
  only_ite (only_sleepBit d _ (by decide) (only_xlHeld d w s)) (only_xlHeld d w s)

theorem link_ite (c : Prop) [Decidable c] (t u : State) :
    link (if c then t else u) d = if c then link t d else link u d := apply_ite (link · d) c t u

theorem now_of_clk {t : State} (h : t.clk = s.clk) : now t = now s := by
  rw [now, now, h]

theorem link_xlWritten : link (xlWritten d w s) d = xlCtlEnd w (now s) (link s d) := by
  have hheld : now (xlHeld d w s) = now s := now_of_clk s ((only_xlHeld d w s).part .clk (by decide))
  have htested : now (testBit d (w.getLsbD 1) (xlSlept d w s)) = now s :=
    now_of_clk s ((only_testBit d _ (by decide) (only_xlSlept d w s)).part .clk (by decide))
  rw [xlWritten, link_ite, link_retrainBit, link_testBit, htested, xlSlept, link_ite, link_sleepBit, hheld, xlHeld,
    link_ite, link_holdDown, xlCtlEnd, modeEnd, sleptBit, heldBit]

/-- Each row of XLn_CTL writes the register, and the links settle. -/
theorem exec_xlCtl (ha : Applies s) {c : Instr}
    (hc : c ∈ [Instr.linkRetrain d w, .holdDownWrite d w, .xlSleepWrite d w, .xlTestWrite d w]) :
    exec c s = .next (respond 0x04 (settleLinks (xlWritten d w s))) := by
  have hrow : exec c s = .next (ctlWrite (xlCtlAddr d) w (writeXlCtl d w) s) := by
    simp only [List.mem_cons, List.not_mem_nil, or_false] at hc
    rcases hc with rfl | rfl | rfl | rfl <;> rfl
  rw [hrow, ctlWrite_applies ha, writeXlCtl_settles]

end

/-! ### What the bits make of a link's end (R417, R418, R419) -/

section
variable {b old : Bool} {t : Nat} {l : LinkEnd}

/-- HOLD_DOWN cleared, or written to a link that is OFF, is only kept. -/
theorem heldBit_quiet (h : l.txPhase = .off ∨ b = false) : heldBit b t l = { l with holdDown := b } := by
  unfold heldBit
  split
  case isTrue =>
    refine if_pos ?_
    rcases h with h | h
    · simp [h]
    · simp [h]
  case isFalse hb =>
    have hb : b = l.holdDown := by simpa using hb
    rw [hb]

/-- HOLD_DOWN newly set on a link in RUN takes it DOWN with cause 5. -/
theorem heldBit_run (hl : l.txPhase = .run) (hh : l.holdDown = false) :
    heldBit true t l = downEnd 5 t { l with holdDown := true } := by
  simp [heldBit, hh, heldEnd, hl]

/-- The sleep bit cleared wakes a link that sleeps; otherwise it is only kept. -/
theorem sleptBit_cleared : sleptBit false true t l = wokenEnd t { l with sleepOn := false } := rfl

theorem sleptBit_kept (hold : l.sleepOn = old) (h : ¬ (old = true ∧ b = false)) :
    sleptBit b old t l = { l with sleepOn := b } := by
  subst hold
  cases b
  · have hoff : l.sleepOn = false := by simpa using h
    simp [sleptBit, ← hoff]
  · cases hon : l.sleepOn
    · rfl
    · simp [sleptBit, ← hon]

/-- The sleep bit of a link that does not sleep is only kept. -/
theorem sleptBit_awake (hl : l.txPhase ≠ .sleep) (hold : l.sleepOn = old) :
    sleptBit b old t l = { l with sleepOn := b } := by
  by_cases h : old = true ∧ b = false
  · obtain ⟨rfl, rfl⟩ := h
    rw [sleptBit_cleared]
    exact if_neg (by simp [hl])
  · exact sleptBit_kept hold h

theorem retrainedEnd_held (h : l.txPhase = .off ∨ l.holdDown = true) : retrainedEnd t l = l :=
  if_pos (by simpa using h)

theorem retrainedEnd_run (hl : l.txPhase = .run) (hh : l.holdDown = false) :
    retrainedEnd t l = { trainedEnd true t l with retrainBit := true } := by
  simp [retrainedEnd, hl, hh]

theorem retrainedEnd_sleep (hl : l.txPhase = .sleep) (hh : l.holdDown = false) :
    retrainedEnd t l = { wokenEnd t l with retrainBit := true } := by
  simp [retrainedEnd, hl, hh]

/-! #### A link that wakes -/

/-- The link wakes, at CLOCK. -/
def Wakes (l : LinkEnd) : Prop := ∃ u, l.train = some u ∧ u.step = .clock ∧ u.wake = true

/-- What a wake cannot change it keeps. -/
theorem wokenEnd_keeps {α : Type} (p : LinkEnd → α) (hp : ∀ l a b c, p { l with
    sleepSent := a, sleepGot := b, train := c } = p l := by intros; rfl) : p (wokenEnd t l) = p l := by
  unfold wokenEnd
  split
  · exact hp _ _ _ _
  · rfl

theorem wokenEnd_asleep (hl : l.txPhase = .sleep) (htrain : l.train = none) : wokenEnd t l = { l with
    sleepSent := false, sleepGot := false
    train := some { step := .clock, since := t, wake := true, retrain := true } } := if_pos (by simp [hl, htrain])

theorem wakes_wokenEnd (hl : l.txPhase = .sleep) (htrain : l.train = none) : Wakes (wokenEnd t l) := by
  rw [wokenEnd_asleep hl htrain]
  exact ⟨_, rfl, rfl, rfl⟩

/-- RETRAIN of a link that sleeps: it wakes, or wakes already. -/
theorem wakes_retrainedEnd (hl : l.txPhase = .sleep) (hh : l.holdDown = false)
    (htrain : l.train = none ∨ Wakes l) : Wakes (retrainedEnd t l) := by
  rw [retrainedEnd_sleep hl hh]
  rcases htrain with htrain | ⟨u, hu, hwoken⟩
  · exact wakes_wokenEnd hl htrain
  · exact ⟨u, by simp [wokenEnd, hu], hwoken⟩

/-- A link that sleeps after its sleep bit, once old, has been written b: it wakes where the bit was cleared. -/
structure Asleep (b old : Bool) (l : LinkEnd) : Prop where
  phase : l.txPhase = .sleep
  free : l.holdDown = false
  bit : l.sleepOn = b
  awake : l.train = none ∨ Wakes l
  cleared : old = true ∧ b = false → Wakes l

theorem asleep_sleptBit (hl : l.txPhase = .sleep) (hh : l.holdDown = false) (htrain : l.train = none)
    (hold : l.sleepOn = old) : Asleep b old (sleptBit b old t l) := by
  by_cases hcleared : old = true ∧ b = false
  · obtain ⟨rfl, rfl⟩ := hcleared
    have hwakes : Wakes (wokenEnd t { l with sleepOn := false }) := wakes_wokenEnd hl htrain
    rw [sleptBit_cleared]
    exact ⟨(wokenEnd_keeps (·.txPhase)).trans hl, (wokenEnd_keeps (·.holdDown)).trans hh, wokenEnd_keeps (·.sleepOn),
      .inr hwakes, fun _ => hwakes⟩
  · rw [sleptBit_kept hold hcleared]
    exact ⟨hl, hh, rfl, .inl htrain, fun h => absurd h hcleared⟩

theorem Asleep.tested (h : Asleep b old l) (on : Bool) : Asleep b old (testedEnd on l) :=
  ⟨h.phase, h.free, h.bit, h.awake, h.cleared⟩

/-! #### The test stream is the TEST bit's own -/

/-- The test bit and the index of the test stream. -/
def testOf (l : LinkEnd) : Bool × BitVec 32 := (l.test, l.testTx)

theorem testOf_trainedEnd (retrain : Bool) : testOf (trainedEnd retrain t l) = testOf l := by
  cases retrain
  · rfl
  · rfl

theorem testOf_heldBit : testOf (heldBit b t l) = testOf l := by
  unfold heldBit heldEnd
  dsimp only
  split
  · split
    · rfl
    · split
      · rfl
      · rfl
  · rfl

theorem testOf_sleptBit : testOf (sleptBit b old t l) = testOf l := by
  unfold sleptBit sleptEnd
  dsimp only
  split
  · split
    · rfl
    · exact wokenEnd_keeps testOf
  · rfl

theorem testOf_retrainedEnd : testOf (retrainedEnd t l) = testOf l := by
  unfold retrainedEnd
  split
  · rfl
  · change testOf (if _ then _ else _) = _
    split
    · exact testOf_trainedEnd false
    · split
      · rfl
      · split
        · exact wokenEnd_keeps testOf
        · exact testOf_trainedEnd true

end

section
variable {w : Word} {t : Nat} {l : LinkEnd}

/-- The mode bits of a link that stays awake. -/
theorem modeEnd_awake (hl : l.txPhase ≠ .sleep) (h : l.txPhase = .off ∨ w.getLsbD 3 = false) :
    modeEnd w t l = testedEnd (w.getLsbD 1) { l with holdDown := w.getLsbD 3, sleepOn := w.getLsbD 2 } := by
  rw [modeEnd, heldBit_quiet h, sleptBit_awake ?_ ?_]
  · exact hl
  · rfl

theorem modeEnd_held (h : l.txPhase = .run) (hh : l.holdDown = false) (hw : w.getLsbD 3 = true) :
    modeEnd w t l =
      testedEnd (w.getLsbD 1) { downEnd 5 t { l with holdDown := true } with sleepOn := w.getLsbD 2 } := by
  rw [modeEnd, hw, heldBit_run h hh, sleptBit_awake ?_ ?_]
  · exact nofun
  · rfl

/-- RETRAIN has no effect on a link that is OFF or held down. -/
theorem xlCtlEnd_of_held (h : (modeEnd w t l).txPhase = .off ∨ (modeEnd w t l).holdDown = true) :
    xlCtlEnd w t l = modeEnd w t l := by
  rw [xlCtlEnd, retrainedEnd_held h, ite_self]

theorem xlCtlEnd_off (h : l.txPhase = .off) : xlCtlEnd w t l =
    testedEnd (w.getLsbD 1) { l with holdDown := w.getLsbD 3, sleepOn := w.getLsbD 2 } := by
  have hmode := modeEnd_awake (w := w) (t := t) (by simp [h]) (.inl h)
  exact (xlCtlEnd_of_held (hmode ▸ .inl h)).trans hmode

theorem xlCtlEnd_held (h : l.txPhase = .run) (hh : l.holdDown = false) (hw : w.getLsbD 3 = true) : xlCtlEnd w t l =
    testedEnd (w.getLsbD 1) { downEnd 5 t { l with holdDown := true } with sleepOn := w.getLsbD 2 } := by
  have hmode := modeEnd_held (t := t) h hh hw
  exact (xlCtlEnd_of_held (hmode ▸ .inr rfl)).trans hmode

theorem xlCtlEnd_retrain (h : l.txPhase = .run) (hw : w.getLsbD 3 = false) (hr : w.getLsbD 0 = true) :
    xlCtlEnd w t l = { trainedEnd true t (testedEnd (w.getLsbD 1)
      { l with holdDown := w.getLsbD 3, sleepOn := w.getLsbD 2 }) with retrainBit := true } := by
  rw [xlCtlEnd, if_pos hr, modeEnd_awake (by simp [h]) (.inr hw), retrainedEnd_run ?_ ?_]
  · exact h
  · exact hw

/-- RETRAIN, or the sleep bit cleared, wakes a link that sleeps. -/
theorem xlCtlEnd_wakes (h : l.txPhase = .sleep) (hl : l.train = none) (hw : w.getLsbD 3 = false)
    (hwake : w.getLsbD 0 = true ∨ (l.sleepOn = true ∧ w.getLsbD 2 = false)) :
    Wakes (xlCtlEnd w t l) ∧ (xlCtlEnd w t l).sleepOn = w.getLsbD 2 := by
  obtain ⟨hphase, hh, hon, hawake, hcleared⟩ : Asleep (w.getLsbD 2) l.sleepOn (modeEnd w t l) := by
    rw [modeEnd, hw, heldBit_quiet (.inr rfl)]
    exact (asleep_sleptBit (l := { l with holdDown := false }) h rfl hl rfl).tested _
  unfold xlCtlEnd
  split
  case isTrue =>
    refine ⟨wakes_retrainedEnd hphase hh hawake, ?_⟩
    rw [retrainedEnd_sleep hphase hh]
    exact (wokenEnd_keeps (·.sleepOn)).trans hon
  case isFalse hr => exact ⟨hcleared (hwake.resolve_left hr), hon⟩

/-- TEST newly set starts the stream at index 0, whatever the other bits do. -/
theorem xlCtlEnd_test (hl : l.test = false) (hw : w.getLsbD 1 = true) : testOf (xlCtlEnd w t l) = (true, 0) := by
  have hmode : testOf (modeEnd w t l) = (true, 0) := by
    have hkept : testOf (sleptBit (w.getLsbD 2) l.sleepOn t (heldBit (w.getLsbD 3) t l)) = testOf l := by
      rw [testOf_sleptBit, testOf_heldBit]
    have htest := congrArg Prod.fst hkept
    simp only [testOf, hl] at htest
    simp only [modeEnd, testOf, testedEnd, htest, hw]
    rfl
  unfold xlCtlEnd
  split
  · rw [testOf_retrainedEnd, hmode]
  · exact hmode

end

/-- XLn_CTL: each bit's effect is on the link's end, and settling the links keeps it. -/
theorem linkControl : Rules.LinkControl := by
  intro s d w ha c hc
  have hexec := exec_xlCtl d w s ha hc
  have hset : Settled (xlCtlEnd w (now s) (link s d)) (link (respond 0x04 (settleLinks (xlWritten d w s))) d) := by
    rw [← link_xlWritten d w s]
    exact settled_settleLinks d _
  refine ⟨fun hoff => ?_, fun hrun hh hw => ?_, fun hrun hh hw hr => ?_, fun hsleep hnone _ hw hwake => ?_,
    fun htest hw => ?_⟩
  · rw [xlCtlEnd_off hoff] at hset
    refine ⟨_, hexec, (hset.txPhase ?_).trans hoff, hset.keeps (·.holdDown),
      hset.keeps (·.sleepOn), hset.keeps (·.test)⟩
    simp [testedEnd, hoff]
  · rw [xlCtlEnd_held hrun hh hw] at hset
    exact ⟨_, hexec, hset.txPhase (by simp [testedEnd, downEnd]), hset.keeps (·.downCause),
      hset.keeps (·.holdDown)⟩
  · rw [xlCtlEnd_retrain hrun hw hr] at hset
    exact ⟨_, _, hexec, hset.txPhase (by simp [trainedEnd]), hset.train_some rfl, rfl, rfl,
      hset.keeps (·.retrainBit), hset.keeps (·.replay),
      hset.keeps (·.txSeq), hset.keeps (·.ackSeq)⟩
  · obtain ⟨⟨u, hu, hstep, hwoken⟩, hkept⟩ := xlCtlEnd_wakes (t := now s) hsleep hnone hw hwake
    exact ⟨_, u, hexec, hset.train_some hu, hstep, hwoken, (hset.keeps (·.sleepOn)).trans hkept⟩
  · have hnew := xlCtlEnd_test (t := now s) htest hw
    have hkept : testOf _ = testOf _ := hset.keeps testOf
    rw [hnew] at hkept
    exact ⟨_, hexec, congrArg Prod.fst hkept, congrArg Prod.snd hkept⟩

/-! ### Markers and clocks (R401, R407, R415, R417, R418) -/

section
variable {d : Side} {s : State}

/-- SLEEP markers of both ends take the link to SLEEP. -/
theorem sleepIfBoth_got (hsent : (link s d).sleepSent = true) :
    sleepIfBoth d (setLink d (fun l => { l with sleepGot := true }) s) =
      setLink d (fun l => { l with sleepGot := true, txPhase := .sleep, rxPhase := .sleep }) s := by
  rw [sleepIfBoth, setLink_setLink]
  refine setLink_congr ?_
  rw [hsent]
  rfl

theorem sleepIfBoth_waits (hsent : (link s d).sleepSent = false) :
    sleepIfBoth d (setLink d (fun l => { l with sleepGot := true }) s) =
      setLink d (fun l => { l with sleepGot := true }) s := by
  rw [sleepIfBoth, setLink_setLink]
  refine setLink_congr ?_
  rw [hsent]
  rfl

end

theorem markersAndClocks : Rules.MarkersAndClocks := by
  intro s d hopen
  refine ⟨fun h => ?_, fun h => ?_, fun h => ?_, fun h hsent => ?_, fun h hsent => ?_, fun h => ?_, fun h hh => ?_,
    fun retrain => ?_⟩
  · change execRunMarker d s = _
    refine linkRow_of hopen ?_
    rcases h with h | ⟨h, hstep⟩
    · exact if_pos (by simp [h])
    · exact if_pos (by simp [h, hstep])
  · change execRunMarker d s = _
    exact linkRow_of hopen ((if_neg (by simp [h])).trans (if_pos (by simp [h])))
  · change execVerdictMarker d s = _
    exact linkRow_of hopen (if_pos (by simp [h]))
  · change execSleepMarker d s = _
    exact linkRow_of hopen ((if_pos (by simp [h])).trans (sleepIfBoth_got hsent))
  · change execSleepMarker d s = _
    exact linkRow_of hopen ((if_pos (by simp [h])).trans (sleepIfBoth_waits hsent))
  · change execTrainMarker d s = _ ∧ execForwardedClockLost d s = _
    exact ⟨linkRow_of hopen ((if_neg (by simp [h])).trans (if_neg (by simp [h]))),
      linkRow_of hopen (if_pos (by simp [linkRuns, h]))⟩
  · change execTrainMarker d s = _ ∧ execForwardedClockDetected d s = _ ∧ (_ → execDownRetry d s = _)
    exact ⟨linkRow_of hopen ((if_neg (by simp [h])).trans ((if_pos (by simp [h])).trans (if_neg (by simp [hh])))),
      linkRow_of hopen (if_pos (by simp [h, hh])), fun hdue => linkRow_of hopen (if_pos (by simp [h, hh, hdue]))⟩
  · rw [link_startTraining]
    cases retrain
    · exact ⟨_, rfl, rfl, rfl, rfl, rfl, rfl, rfl, nofun, fun _ => ⟨rfl, rfl, rfl⟩⟩
    · exact ⟨_, rfl, rfl, rfl, rfl, rfl, rfl, rfl, fun _ => rfl, nofun⟩

/-- Settles O56: a control bit is a function of its link's end, which settling keeps; a marker or a clock that holds its
row's condition is that row's change, or a training that begins. -/
theorem linkEvents : Obligations.LinkEvents := ⟨linkControl, markersAndClocks⟩

end Sys2Proof.Machine

/-! PROOF. A link trains through its steps, and identity decides its state (O55): each step's operation where its step
is under way. -/
namespace Sys2Proof.Machine

/-! ### The steps of training (R407, R418, R424) -/

section
variable {d : Side} {s : State} {t : Training}

theorem trainStep_of (ht : (link s d).train = some t) : trainStep s d = some t.step := by
  rw [trainStep, ht]
  rfl

theorem setTraining_of (ht : (link s d).train = some t) (f : Training → Training) :
    setTraining d f s = setLink d (fun l => { l with train := some (f t) }) s :=
  setLink_congr (by rw [ht]; rfl)

theorem clockDone_locked (ht : (link s d).train = some t) (hstep : t.step = .clock) :
    clockDone d true s = setLink d (fun l => { l with train := some { t with step := .pattern, since := now s } }) s :=
  (if_pos (by rw [trainStep_of ht, hstep])).trans (setTraining_of ht _)

theorem clockDone_unlocked (ht : (link s d).train = some t) (hstep : t.step = .clock) :
    clockDone d false s = trainFail d s :=
  if_pos (by rw [trainStep_of ht, hstep])

theorem patternDone_full (ht : (link s d).train = some t) (hstep : t.step = .pattern) (hwake : t.wake = false)
    (errors : BitVec 12) : patternDone d errors s = setLink d (fun l => { l with
      train := some { t with step := .margin, since := now s, good := t.good &&& ~~~errors } }) s := by
  unfold patternDone
  rw [ht]
  exact (if_neg (by simp [hstep])).trans ((if_neg (by simp [hwake])).trans (setTraining_of ht _))

/-- A wake's pattern on the stored map: no mapped lane erred. -/
theorem patternDone_wake (ht : (link s d).train = some t) (hstep : t.step = .pattern) (hwake : t.wake = true)
    {errors : BitVec 12} (hgood : ∀ k ∈ mapLanes (link s d), errors.getLsbD k = false) :
    patternDone d errors s = setLink d (fun l => { l with
      train := some { t with step := .identity, since := now s } }) s := by
  unfold patternDone
  rw [ht]
  refine (if_neg (by simp [hstep])).trans ((if_pos hwake).trans ((if_neg ?_).trans (setTraining_of ht _)))
  simpa using hgood

/-- An attempt that failed, before the third in a row: again from CLOCK. -/
theorem trainFail_again (ht : (link s d).train = some t) (hwake : t.wake = false)
    (hfailed : (link s d).failed + 1 < 3) :
    trainFail d s = setLink d (fun l => { l with
      failed := l.failed + 1, train := some { step := .clock, since := now s, retrain := t.retrain } }) s := by
  have hnow : now (setLink d (fun l => { l with failed := l.failed + 1 }) s) = now s := by
    cases d
    · rfl
    · rfl
  unfold trainFail
  rw [ht]
  dsimp only
  rw [link_setLink_same, if_neg (Nat.not_le_of_lt hfailed), if_neg (by simp [hwake]), hnow, setLink_setLink]

end

/-! ### Margins (R407, R424) -/

theorem getLsbD_oneAt {n : Nat} (k : Nat) {j : Nat} (hj : j < n) :
    ((1 : BitVec n) <<< k).getLsbD j = decide (j = k) := by
  rcases Nat.lt_trichotomy j k with h | rfl | h
  · simp [hj, h, Nat.ne_of_lt h]
  · simp [hj]
  · simp [hj, Nat.not_lt_of_lt h, Nat.sub_ne_zero_of_lt h, Nat.ne_of_gt h]

/-- A fold that drops the bits of the lanes that fail. -/
theorem getLsbD_foldl_drop (c : Nat → Prop) [DecidablePred c] (lanes : List Nat) (g : BitVec 12) {j : Nat}
    (hj : j < 12) :
    (lanes.foldl (fun (g : BitVec 12) k => if c k then g &&& ~~~((1 : BitVec 12) <<< k) else g) g).getLsbD j =
      (g.getLsbD j && !decide (j ∈ lanes ∧ c j)) := by
  have hdrop (g : BitVec 12) (k : Nat) : (g &&& ~~~((1 : BitVec 12) <<< k)).getLsbD j =
      (g.getLsbD j && !decide (j = k)) := by
    rw [BitVec.getLsbD_and, BitVec.getLsbD_not, getLsbD_oneAt k hj, decide_eq_true hj, Bool.true_and]
  induction lanes generalizing g with
  | nil => simp
  | cons k lanes ih =>
    rw [List.foldl_cons, ih]
    by_cases hc : c k
    · rw [if_pos hc, hdrop]
      by_cases hjk : j = k
      · simp [hjk, hc]
      · simp [hjk]
    · rw [if_neg hc]
      by_cases hjk : j = k
      · simp [hjk, hc]
      · simp [hjk]

/-- The margins that MARGIN records: those of the good lanes. -/
def marginsOf (t : Training) (margins : BitVec 96) : List (BitVec 8) :=
  (List.range 12).map fun k => if t.good.getLsbD k then (field margins (8 * k) 8 : BitVec 8) else 0

/-- The lanes that MARGIN leaves good. -/
def goodAfter (t : Training) (margins : BitVec 96) : BitVec 12 :=
  (List.range 12).foldl (fun (g : BitVec 12) k =>
    if ((marginsOf t margins).getD k 0).toNat < 20 then g &&& ~~~((1 : BitVec 12) <<< k) else g) t.good

section
variable {t : Training} {margins : BitVec 96} {k : Nat} (hk : k < 12)
include hk

theorem marginsOf_getD : (marginsOf t margins).getD k 0 =
    if t.good.getLsbD k then (field margins (8 * k) 8 : BitVec 8) else 0 := by
  simp [marginsOf, hk]

theorem getLsbD_goodAfter : (goodAfter t margins).getLsbD k =
    (t.good.getLsbD k && decide (20 ≤ fieldNat margins (8 * k) 8)) := by
  rw [goodAfter, getLsbD_foldl_drop _ _ _ hk, marginsOf_getD hk]
  cases t.good.getLsbD k
  · rfl
  · simp only [field, fieldNat, List.mem_range, hk, true_and, if_true, ← decide_not, Nat.not_lt, Bool.true_and]
    exact decide_eq_decide.mpr .rfl

end

theorem marginDone_margin {d : Side} {s : State} {t : Training} (ht : (link s d).train = some t)
    (hstep : t.step = .margin) (margins : BitVec 96) {u : State} (hu : u = setLink d (fun l => { l with
      margins := marginsOf t margins
      train := some { t with step := .map, since := now s, good := goodAfter t margins } }) s) :
    marginDone d margins s = if (chooseMap (goodAfter t margins)).isSome then u else goDown d 2 u := by
  unfold marginDone
  rw [ht, hu]
  exact if_neg (by simp [hstep])

theorem trainingSteps : Rules.TrainingSteps := by
  intro s d t errors margins hopen ht
  refine ⟨fun hstep => ?_, fun hstep hwake => ?_, fun hstep hwake hgood => ?_, fun hstep => ?_,
    fun hwake hfailed => ⟨fun hstep => ?_, ?_⟩⟩
  · exact linkRow_of hopen (clockDone_locked ht hstep)
  · exact linkRow_of hopen (patternDone_full ht hstep hwake errors)
  · exact linkRow_of hopen (patternDone_wake ht hstep hwake hgood)
  · refine ⟨marginsOf t margins, goodAfter t margins, _, rfl, fun k hk => getLsbD_goodAfter hk, fun k hk hgood => ?_,
      fun hmap => ?_, fun hmap => ?_⟩
    · rw [marginsOf_getD hk, if_pos hgood]
    · exact linkRow_of hopen ((marginDone_margin ht hstep margins rfl).trans (if_pos hmap))
    · exact linkRow_of hopen ((marginDone_margin ht hstep margins rfl).trans (if_neg (by simp [hmap])))
  · change linkRow (clockDone d false) s = linkRow (trainFail d) s
    rw [linkRow_open hopen, linkRow_open hopen, clockDone_unlocked ht hstep]
  · exact linkRow_of hopen (trainFail_again ht hwake hfailed)

/-! ### The map word and identity (R408, R409, R410) -/

section
variable {d : Side} {s : State} {t : Training}

theorem mapWordIn_good (ht : (link s d).train = some t) (hstep : t.step = .map) {word : BitVec 24} {crc : BitVec 16}
    (hcrc : crc16Word word = crc) {c0 c1 : BitVec 4} {w4 : Bool} (hmap : chooseMap t.good = some (c0, c1, w4)) :
    mapWordIn d word crc s = setLink d (fun l => { l with
      rxC0 := c0, rxC1 := c1, rxWidth4 := w4, rxGood := t.good
      txGood := field word 0 12, txWidth4 := word.getLsbD 12, txC0 := field word 13 4, txC1 := field word 17 4
      train := some { t with step := .identity, since := now s, mapTaken := true } }) s := by
  unfold mapWordIn
  rw [ht]
  refine (if_neg (by simp [hstep, hcrc])).trans ?_
  rw [hmap]

theorem mapWordIn_bad (ht : (link s d).train = some t) {word : BitVec 24} {crc : BitVec 16}
    (hcrc : crc16Word word ≠ crc) : mapWordIn d word crc s = s := by
  unfold mapWordIn
  rw [ht]
  exact if_pos (by simp [hcrc])

/-- A good IDENT in IDENTITY is recorded, with what its header acknowledges. -/
theorem identIn_good (ht : (link s d).train = some t) (hstep : t.step = .identity) {frame : BitVec 576}
    (hcrc : frameCrcOk frame = true) (hkind : hKind (frameHeader frame) = 2)
    (hmagic : magicOf (framePayload frame) = magicIdent) (hline : lineCrcOk (framePayload frame) = true) :
    identIn d frame s = setLink d (fun l => { l with
      neighValid := true, neigh := framePayload frame
      train := some { t with
        identGot := true, identAcked := t.identAcked || hAck (frameHeader frame) == 0 } }) s := by
  have ht' : (link (setLink d (fun l => { l with neighValid := true, neigh := framePayload frame }) s) d).train =
      some t := by
    rw [link_setLink_same]
    exact ht
  unfold identIn
  dsimp only
  rw [if_neg (by simp [hcrc]), if_neg (by simp [hkind, hmagic, hline]), if_pos (by rw [trainStep_of ht', hstep]),
    setTraining_of ht', setLink_setLink]

end

/-! #### Where identity leads (R410) -/

section
variable {s u : State} (h : u.image = s.image)
include h

theorem nextPos_of_image (d : Side) : nextPos u d = nextPos s d := by
  cases d
  · simp only [nextPos, ringSize, ringPos, planOf_of_image h]
  · simp only [nextPos, ringSize, ringPos, planOf_of_image h]

theorem identMatches_of_image (d : Side) (m : Line) : identMatches u d m = identMatches s d m := by
  rw [identMatches, identMatches, planOf_of_image h]
  cases planOf s with
  | none => rfl
  | some p => simp only [nextPos_of_image h]

end

theorem planOf_of_identMatches {s : State} {d : Side} {m : Line} (h : identMatches s d m = true) : planOf s ≠ none := by
  intro hnone
  rw [identMatches, hnone] at h
  exact Bool.noConfusion h

/-- The state in which identity is decided, at full width and protocol 2. -/
def identified (d : Side) (s : State) : State := trainingOver d (setLink d (fun l => { l with proto := 2 }) s)

theorem link_identified (d : Side) (s : State) :
    link (identified d s) d = { link s d with proto := 2, train := none, retrainBit := false } := by
  cases d
  · rfl
  · rfl

theorem image_identified (d : Side) (s : State) : (identified d s).image = s.image := by
  cases d
  · rfl
  · rfl

/-- A link's end as it enters RUN in state s. -/
def ranEnd (s : State) (l : LinkEnd) : LinkEnd :=
  { l with
    txScr := scramStart, trainedAt := portNow s, crcWindow := 0
    txPhase := .run, lastMarker := 0x5A, qCause := 0, downCause := 0, resend := l.replay, timer := now s, timeouts := 0
    crcErrors := 0, failed := 0, nakOut := false }

/-- Into RUN, where a flash that waited may follow. -/
theorem settled_enterRun (d : Side) (s : State) : Settled (ranEnd s (link s d)) (link (enterRun d s) d) := by
  rw [← link_setLink_same d (ranEnd s) s]
  unfold enterRun
  dsimp only
  split
  · exact ((settledBy_setLink d _ ⟨rfl, .inl rfl, .inl rfl⟩).trans (settledBy_flashSend d _ _)) d
  · exact .refl _

/-- Identities exchanged, protocol 2 on both sides and full width: the plan decides. -/
theorem identityEnd_wide {d : Side} {s : State} {t : Training} (ht : (link s d).train = some t)
    (hstep : t.step = .identity) (hgot : t.identGot = true) (hacked : t.identAcked = true)
    (hproto : protoOf (link s d).neigh = some 2) (hrx : (link s d).rxWidth4 = false)
    (htx : (link s d).txWidth4 = false) : identityEnd d s =
      if (planOf s).isNone then quarantine d 2 (identified d s)
      else if !identMatches s d (link s d).neigh then
        reportWiring d (link s d).neigh (quarantine d 1 (identified d s))
      else if t.wake && (link s d).retrainBit then
        startTraining d true (setLink d (fun l => { l with retrainBit := true }) (enterRun d (identified d s)))
      else enterRun d (identified d s) := by
  have hv : ¬ (2 : BitVec 8) < 2 := by decide
  unfold identityEnd
  rw [ht]
  dsimp only
  rw [if_neg (by simp [hstep, hgot, hacked]), hproto, hrx, htx]
  simp only [Bool.or_false, Bool.and_false, Bool.false_and, Bool.false_eq_true, if_false, if_neg hv]
  rw [← identified, planOf_of_image (image_identified d s), identMatches_of_image (image_identified d s)]

/-! #### What settles of the three ways (R410) -/

section
variable {d : Side} {s v : State}

theorem settled_quarantine {cause : BitVec 8} (hv : link v d = link (quarantine d cause (identified d s)) d) :
    (link (settleLinks v) d).proto = 2 ∧ (link (settleLinks v) d).train = none ∧
      (link (settleLinks v) d).txPhase = .quarantine ∧ (link (settleLinks v) d).qCause = cause := by
  have hset := settled_settleLinks d v
  rw [hv, quarantine, link_setLink_same, link_identified] at hset
  exact ⟨hset.keeps (·.proto), hset.train_awake nofun,
    hset.txPhase nofun, hset.keeps (·.qCause)⟩

theorem settled_run : (link (settleLinks (enterRun d (identified d s))) d).proto = 2 ∧
    (link (settleLinks (enterRun d (identified d s))) d).train = none ∧
    ((link (settleLinks (enterRun d (identified d s))) d).txPhase = .run ∨
      (link (settleLinks (enterRun d (identified d s))) d).txPhase = .verdict) := by
  have hset := (settled_enterRun d (identified d s)).trans (settled_settleLinks d _)
  rw [link_identified] at hset
  exact ⟨hset.keeps (·.proto), hset.train_awake nofun, hset.phase.imp_right And.right⟩

/-- A RETRAIN that found the link asleep follows the wake. -/
theorem settled_retrain (hv : v = startTraining d true
      (setLink d (fun l => { l with retrainBit := true }) (enterRun d (identified d s)))) :
    (link (settleLinks v) d).proto = 2 ∧ ∃ w, (link (settleLinks v) d).train = some w ∧ w.step = .clock ∧
      w.retrain = true ∧ w.wake = false := by
  subst hv
  have hset := settled_settleLinks d (startTraining d true
    (setLink d (fun l => { l with retrainBit := true }) (enterRun d (identified d s))))
  rw [link_startTraining, link_setLink_same] at hset
  have hproto : (link (enterRun d (identified d s)) d).proto = (link (identified d s) d).proto :=
    (settled_enterRun d (identified d s)).keeps (·.proto)
  rw [link_identified] at hproto
  exact ⟨(hset.keeps (·.proto)).trans hproto, _, hset.train_some rfl, rfl, rfl, rfl⟩

end

theorem mapAndIdentity : Rules.MapAndIdentity := by
  intro s d t word crc frame hopen ht
  refine ⟨fun c0 c1 w4 hstep hcrc hmap => linkRow_of hopen (mapWordIn_good ht hstep hcrc hmap),
    fun hcrc => linkRow_of hopen (mapWordIn_bad ht hcrc),
    fun hstep hcrc hkind hmagic hline => linkRow_of hopen (identIn_good ht hstep hcrc hkind hmagic hline),
    fun hstep hgot hacked hproto hrx htx => ⟨_, linkRow_of hopen rfl, ?_⟩⟩
  rw [identityEnd_wide ht hstep hgot hacked hproto hrx htx]
  cases hplan : planOf s with
  | none =>
    have hwrong : identMatches s d (link s d).neigh ≠ true := fun h => planOf_of_identMatches h hplan
    obtain ⟨h2, hsettled⟩ := settled_quarantine (d := d) (s := s) (cause := 2) rfl
    exact ⟨h2, fun _ => hsettled, fun h => absurd rfl h, fun h => absurd h hwrong, fun h => absurd h hwrong⟩
  | some p =>
    cases hmatch : identMatches s d (link s d).neigh
    case false =>
      have hlink : link (reportWiring d (link s d).neigh (quarantine d 1 (identified d s))) d =
          link (quarantine d 1 (identified d s)) d := rfl
      obtain ⟨h2, hsettled⟩ := settled_quarantine hlink
      exact ⟨h2, nofun, fun _ _ => hsettled, nofun, nofun⟩
    case true =>
      rw [if_neg (by simp), if_neg (by simp)]
      by_cases hretrain : (t.wake && (link s d).retrainBit) = true
      · rw [if_pos hretrain]
        obtain ⟨h2, hsettled⟩ := settled_retrain (d := d) (s := s) rfl
        refine ⟨h2, nofun, nofun, fun _ hfull => absurd hretrain ?_, fun _ _ _ => hsettled⟩
        rcases hfull with h | h
        · simp [h]
        · simp [h]
      · rw [if_neg hretrain]
        obtain ⟨h2, hsettled⟩ := settled_run (d := d) (s := s)
        exact ⟨h2, nofun, nofun, fun _ _ => hsettled, fun _ hwake hbit => absurd (by simp [hwake, hbit]) hretrain⟩

/-- Settles O55: each step's operation is its equation where the step is under way; identity ends in quarantine, RUN or
a retrain, which settling keeps. -/
theorem linkTraining : Obligations.LinkTraining := ⟨trainingSteps, mapAndIdentity⟩

end Sys2Proof.Machine

/-! PROOF. Frames are received in order, acknowledged, sent and sent again (O57): each row as the change of its link's
end, by the frame that came or the frame that may go. -/
namespace Sys2Proof.Machine

/-! ### A received frame (R403, R417) -/

section
variable {d : Side} {s : State} {f : BitVec 576}

/-- A link's end after a frame that failed its CRC: counted, with one NAK asked for. -/
def erredEnd (l : LinkEnd) : LinkEnd :=
  { l with
    crcErrors := l.crcErrors + 1, cnt := bump l.cnt 0 1
    nakDue := l.nakDue || !l.nakOut, nakOut := true }

theorem crcRoll_setLink (d : Side) (g : LinkEnd → LinkEnd) (s : State) : crcRoll (setLink d g s) = crcRoll s := by
  cases d
  · rfl
  · rfl

/-- The count and the NAK of a frame that failed its CRC, in one change. -/
theorem askNak_erred (d : Side) (s : State) :
    askNak d (countLink d 0 1 (setLink d (fun l => { l with crcErrors := l.crcErrors + 1 }) s)) =
      setLink d erredEnd s := by
  rw [askNak, countLink, setLink_setLink, setLink_setLink]
  refine setLink_congr ?_
  dsimp only [erredEnd]
  cases (link s d).nakOut
  · simp
  · simp

theorem frameIn_bad (hrx : (link s d).rxPhase.carries = true) (hcrc : frameCrcOk f = false) {u : State}
    (hu : u = setLink d (fun _ => erredEnd (crcRoll s (rxAdvance (link s d)))) s) : frameIn d f s =
      if 16 ≤ (crcRoll s (rxAdvance (link s d))).crcErrors + 1 && linkRuns (link s d) then startTraining d true u
      else u := by
  have hstate : askNak d (countLink d 0 1 (setLink d (fun l => { l with crcErrors := l.crcErrors + 1 })
      (setLink d (crcRoll (setLink d rxAdvance s)) (setLink d rxAdvance s)))) = u := by
    rw [askNak_erred, crcRoll_setLink, setLink_setLink, setLink_setLink, hu]
    exact setLink_congr rfl
  unfold frameIn
  dsimp only
  rw [if_neg (by simp [hrx]), if_pos (by simp [hcrc]), hstate, hu, link_setLink_same]
  rfl

/-- The state after the acknowledgement and the credit in the header of a good frame. -/
def headerUsed (d : Side) (f : BitVec 576) (s : State) : State :=
  useCredit d (fieldNat (frameHeader f) 16 2) (field (frameHeader f) 10 6)
    (useAck d (hAck (frameHeader f)) ((frameHeader f).getLsbD 18) (setLink d rxAdvance s))

theorem image_headerUsed : (headerUsed d f s).image = s.image :=
  OnlyChanges.part (only_useCredit d _ _ (List.Subset.refl _) (only_useAck d _ _ (List.Subset.refl _)
    (only_setLink d _ (List.Subset.refl _) (only_refl _ s)))) .image (by decide)

/-- A DATA frame in order goes on its way, with ACK_SEQ advanced. -/
theorem frameIn_next (hrx : (link s d).rxPhase.carries = true) (hcrc : frameCrcOk f = true)
    (hkind : hKind (frameHeader f) = 1) (hseq : hSeq (frameHeader f) = (link s d).ackSeq + 1) :
    frameIn d f s = routeFrame d (frameHeader f) (framePayload f) (setLink d (fun l => { l with
      ackSeq := hSeq (frameHeader f), nakDue := false, nakOut := false }) (headerUsed d f s)) := by
  unfold frameIn
  dsimp only
  rw [if_neg (by simp [hrx]), if_neg (by simp [hcrc]), if_pos hkind, if_pos (by rw [hseq, BitVec.sub_self]; rfl)]
  rfl

/-- One already taken is counted, and only its header is used. -/
theorem frameIn_repeated (hrx : (link s d).rxPhase.carries = true) (hcrc : frameCrcOk f = true)
    (hkind : hKind (frameHeader f) = 1) (hseq : hSeq (frameHeader f) = (link s d).ackSeq) :
    frameIn d f s = countLink d 4 1 (headerUsed d f s) := by
  have hahead : hSeq (frameHeader f) - ((link s d).ackSeq + 1) = 4095 := by
    rw [hseq]
    bv_omega
  unfold frameIn
  dsimp only
  rw [if_neg (by simp [hrx]), if_neg (by simp [hcrc]), if_pos hkind, hahead, if_neg (by decide), if_neg (by decide)]
  rfl

theorem ringPos_of_image {s t : State} (h : t.image = s.image) : ringPos t = ringPos s := by
  rw [ringPos, ringPos, planOf_of_image h]

/-- A link-state flit for this position waits for its command. -/
theorem routeFrame_linkState {h : BitVec 48} {m : Line} (hbcast : h.getLsbD 1 = false)
    (hdest : (field h 6 4 : BitVec 4).toNat = ringPos s) (hmagic : magicOf m = magicLinkState) :
    routeFrame d h m s = deliver (sourceOf d) (hVc h) m s := by
  unfold routeFrame deliverFrame
  dsimp only
  rw [if_neg (Bool.eq_false_iff.mp hbcast), if_pos (by simp [hdest]), if_pos (by simp [hmagic])]

end

theorem framesReceived : Rules.FramesReceived := by
  intro s d f word crc hopen
  refine ⟨fun hrx => ⟨fun l u hl hu hcrc => ?_, fun hcrc hkind hseq hbcast hdest hmagic => ?_,
    fun hcrc hkind hseq => linkRow_of hopen (frameIn_repeated hrx hcrc hkind hseq)⟩, fun hcrc lane => ?_,
    fun hcrc hphase => ?_⟩
  · subst hl
    have hin := frameIn_bad hrx hcrc hu
    exact ⟨fun hfew => linkRow_of hopen (hin.trans (if_neg (by simp; omega))),
      fun hmany hruns => linkRow_of hopen (hin.trans (if_pos (by simp [hmany, hruns])))⟩
  · have hin := frameIn_next hrx hcrc hkind hseq
    have hpos : ringPos (setLink d (fun l => { l with
        ackSeq := hSeq (frameHeader f), nakDue := false, nakOut := false }) (headerUsed d f s)) = ringPos s :=
      ringPos_of_image ((OnlyChanges.part (only_setLink d _ (List.Subset.refl _) (only_refl _ _)) .image
        (by decide)).trans image_headerUsed)
    rw [routeFrame_linkState hbcast (hdest.trans hpos.symm) hmagic] at hin
    refine ⟨_, linkRow_of hopen hin, ?_, mem_inbox_settleLinks (List.mem_append_right _ (List.mem_singleton_self _))⟩
    exact ((settled_settleLinks d _).keeps (·.ackSeq)).trans
      (congrArg LinkEnd.ackSeq (link_setLink_same d _ (headerUsed d f s)))
  · exact linkRow_of hopen (if_pos (by simp [hcrc]))
  · have hgood : ¬ ((!((link s d).rxPhase == .run || (link s d).rxPhase == .quarantine) ||
        crc16Word word != crc) = true) := by
      rcases hphase with h | h
      · simp [h, hcrc]
      · simp [h, hcrc]
    exact ⟨linkRow_of hopen ((if_neg hgood).trans (if_pos rfl)), linkRow_of hopen ((if_neg hgood).trans (if_neg nofun))⟩

/-! ### What a slot sends (R403, R404, R405, R406) -/

/-- With nothing to send and no sleep allowed, a NULL frame goes. -/
theorem sendIdle_awake {d : Side} {s : State} (hsleep : sleepAllowed s d = false) :
    sendIdle d s = driveFrame d 0 0 (link s d).txSeq 0 (BitVec.ofNat 4 (ringPos s)) false 0 s :=
  if_neg (Bool.eq_false_iff.mp hsleep)

section
variable {d : Side} {s : State} (htrain : (link s d).train = none) (htx : (link s d).txPhase.carries = true)
include htrain htx

theorem frameSlot_resend {f : LFrame} {rest : List LFrame} (hresend : (link s d).resend = f :: rest) :
    frameSlot d s = countLink d 2 1 (setLink d (fun l => { l with resend := rest, testLast := false })
      (driveFrame d 1 f.vc f.seq f.dest f.src f.bcast f.payload s)) := by
  unfold frameSlot
  dsimp only
  rw [htrain]
  refine (if_neg (by simp [htx])).trans ?_
  rw [hresend]

theorem frameSlot_idle (hresend : (link s d).resend = []) (hnone : pickFrame (link s d) = none)
    (htest : testWanted (link s d) = false) (hsleep : sleepAllowed s d = false) :
    frameSlot d s = driveFrame d 0 0 (link s d).txSeq 0 (BitVec.ofNat 4 (ringPos s)) false 0
      (setLink d (fun l => { l with testLast := false }) s) := by
  unfold frameSlot
  dsimp only
  rw [htrain]
  refine (if_neg (by simp [htx])).trans ?_
  rw [hresend, hnone]
  refine (if_neg (Bool.eq_false_iff.mp htest)).trans ((sendIdle_awake ?_).trans ?_)
  · rw [← hsleep]
    cases d
    · rfl
    · rfl
  · have himage : (setLink d (fun l => { l with testLast := false }) s).image = s.image :=
      (only_setLink d _ (List.Subset.refl _) (only_refl _ s)).part .image (by decide)
    rw [link_setLink_same, ringPos_of_image himage]

end

/-! #### A new frame is kept for replay (R403, R404) -/

/-- The replay buffer and the next SEQ. -/
def replayOf (l : LinkEnd) : List LFrame × BitVec 12 := (l.replay, l.txSeq)

/-- A link's replay buffer with one more frame, under the next SEQ. -/
def keptWith (f : LFrame) (l : LinkEnd) : List LFrame × BitVec 12 :=
  (l.replay ++ [{ f with seq := l.txSeq }], l.txSeq + 1)

section
variable {d : Side} {s : State}

theorem replayOf_driveFrame (kind : BitVec 3) (vc : BitVec 2) (seq : BitVec 12) (dest src : BitVec 4) (bcast : Bool)
    (payload : Line) :
    replayOf (link (driveFrame d kind vc seq dest src bcast payload s) d) = replayOf (link s d) := by
  unfold driveFrame
  dsimp only
  split
  · rw [countLink, link_setLink_same, link_setLink_same]
    rfl
  · rw [link_setLink_same]
    rfl

theorem replayOf_sendData (f : LFrame) : replayOf (link (sendData d f s) d) = keptWith f (link s d) := by
  have hdriven := replayOf_driveFrame (d := d) (s := s) 1 f.vc (link s d).txSeq f.dest f.src f.bcast f.payload
  obtain ⟨hreplay, hseq⟩ := Prod.mk.inj hdriven
  rw [sendData, link_setLink_same]
  exact Prod.ext (congrArg (· ++ [({ f with seq := (link s d).txSeq } : LFrame)]) hreplay) (congrArg (· + 1) hseq)

/-- What taking a frame from its queue, or freeing its buffer on the other side, keeps. -/
theorem replayOf_taken (through : Bool) (f : LFrame) (wait : Nat) :
    replayOf (link (setLink d (fun l => if through
      then { l with transit := l.transit.erase f, vc2Wait := wait, testLast := false }
      else { l with own := l.own.erase f, vc2Wait := wait, testLast := false }) s) d) = replayOf (link s d) := by
  rw [link_setLink_same]
  cases through
  · rfl
  · rfl

theorem link_freed (c : Prop) [Decidable c] (vc : BitVec 2) :
    link (if c then freeBuffer (Side.other d) vc s else s) d = link s d := by
  split
  · exact link_setLink_other ..
  · rfl

/-- The slot's new frame, of either queue. -/
theorem replayOf_frameSlot (htrain : (link s d).train = none) (htx : (link s d).txPhase.carries = true)
    (hresend : (link s d).resend = []) {through : Bool} {f : LFrame}
    (hpick : pickFrame (link s d) = some (through, f)) :
    replayOf (link (frameSlot d s) d) = keptWith f (link s d) := by
  unfold frameSlot
  dsimp only
  rw [htrain]
  dsimp only
  rw [if_neg (by simp [htx]), hresend, hpick]
  dsimp only
  rw [link_freed, replayOf_taken, replayOf_sendData]

theorem pickFrame_vc0 {l : LinkEnd} {x : Bool × LFrame} (hlen : l.replay.length < 256) (h : vcHead l 0 = some x) :
    pickFrame l = some x := by
  rw [pickFrame, if_neg (Nat.not_le_of_lt hlen), h]

end

/-! ### The replay timer (R404, R417) -/

theorem replayTimeout_due {d : Side} {s : State} (hopen : linksOpen s = true)
    (htx : (link s d).txPhase.carries = true) (hreplay : (link s d).replay ≠ [])
    (hdue : (link s d).timer + 240 ≤ now s) {u : State} (hu : u = countLink d 3 1 (setLink d (fun l => { l with
      resend := l.replay, timer := now s, timeouts := l.timeouts + 1 }) s)) :
    exec (.replayTimeout d) s = .next (settleLinks
      (if 4 ≤ (link s d).timeouts + 1 && linkRuns (link s d) then startTraining d true u else u)) := by
  have htimeouts : (link u d).timeouts = (link s d).timeouts + 1 := by
    rw [hu, countLink, link_setLink_same, link_setLink_same]
  change execReplayTimeout d s = _
  refine linkRow_of hopen ?_
  dsimp only
  rw [if_neg (by simp [htx, hreplay, hdue]), ← hu, htimeouts]

theorem framesSent : Rules.FramesSent := by
  intro s d hopen
  refine ⟨fun htrain htx => ⟨fun f rest hresend => ?_, fun through f hresend hlen hhead => ?_,
    fun hresend hnone htest hsleep => ?_⟩, fun htx hreplay hdue u hu => ?_, linkRow_of hopen rfl⟩
  · exact linkRow_of hopen (frameSlot_resend htrain htx hresend)
  · have hkept := replayOf_frameSlot htrain htx hresend (pickFrame_vc0 hlen hhead)
    have hset : replayOf _ = replayOf _ := (settled_settleLinks d (frameSlot d s)).keeps replayOf
    obtain ⟨hreplay, hseq⟩ := Prod.mk.inj (hset.trans hkept)
    exact ⟨_, _, linkRow_of hopen rfl, hreplay, rfl, rfl, rfl, hseq⟩
  · exact linkRow_of hopen (frameSlot_idle htrain htx hresend hnone htest hsleep)
  · have hexec := replayTimeout_due hopen htx hreplay hdue hu
    refine ⟨fun hfew => ?_, fun hmany hruns => ?_⟩
    · rw [hexec, if_neg (by simp; omega)]
    · rw [hexec, if_pos (by simp [hmany, hruns])]

/-- Settles O57: a received frame is its change of the link's end by CRC, SEQ and MAGIC; a slot sends what the replay
buffer or the queues hold, and what is sent new joins the replay buffer. -/
theorem linkFrames : Obligations.LinkFrames := ⟨framesReceived, framesSent⟩

end Sys2Proof.Machine

/-! PROOF. Link-state flits, test flits and wakes (O58). -/
namespace Sys2Proof.Machine

/-! ### Segments as a flit tells them (R411) -/

/-- A fold that takes the bits of the listed places from another word. -/
theorem getLsbD_foldl_take (seen : BitVec 16) (places : List Nat) (g : BitVec 16) {j : Nat} (hj : j < 16) :
    (places.foldl (fun (g : BitVec 16) i =>
      if seen.getLsbD i then g ||| (1 : BitVec 16) <<< i else g &&& ~~~((1 : BitVec 16) <<< i)) g).getLsbD j =
      if j ∈ places then seen.getLsbD j else g.getLsbD j := by
  have hstep (g : BitVec 16) (i : Nat) :
      (if seen.getLsbD i then g ||| (1 : BitVec 16) <<< i else g &&& ~~~((1 : BitVec 16) <<< i)).getLsbD j =
        if j = i then seen.getLsbD j else g.getLsbD j := by
    split
    case isTrue h =>
      rw [BitVec.getLsbD_or, getLsbD_oneAt i hj]
      by_cases hji : j = i
      · subst hji
        simp [h]
      · simp [hji]
    case isFalse h =>
      rw [BitVec.getLsbD_and, BitVec.getLsbD_not, getLsbD_oneAt i hj]
      by_cases hji : j = i
      · subst hji
        simp [h]
      · simp [hji, hj]
  induction places generalizing g with
  | nil => rfl
  | cons i places ih =>
    rw [List.foldl_cons, ih, hstep]
    by_cases hin : j ∈ places
    · simp [hin]
    · simp [hin]

section
variable {s : State} {m : Line}

/-- The segments that a flit of position q speaks for, as this position sees it. -/
def segsTold (s : State) (q : Nat) : List Nat :=
  [segOf (ringSize s) q .east, segOf (ringSize s) q .west].filter fun g =>
    !List.contains [segOf (ringSize s) (ringPos s) .east, segOf (ringSize s) (ringPos s) .west] g

/-- SEG_UP after a link-state flit: the segments it speaks for as it says, the others as they were. -/
def segUpTold (s : State) (m : Line) : BitVec 16 :=
  (segsTold s (fieldNat m 24 8)).foldl (fun (g : BitVec 16) i =>
    if (field m 32 16 : BitVec 16).getLsbD i then g ||| (1 : BitVec 16) <<< i else g &&& ~~~((1 : BitVec 16) <<< i))
    s.ring.segUp

theorem segUp_linkStateIn (hq : fieldNat m 24 8 < ringSize s) (hn : 1 < ringSize s)
    (hkind : (field m 16 8 : BitVec 8) = 1) : (linkStateIn m s).ring.segUp = segUpTold s m := by
  have hchanged (old : Option (Side × Nat)) (u : State) : (ringChanged old false u).ring = u.ring :=
    (only_ringChanged old false (List.Subset.refl _) (only_refl _ u)).part .ring (by decide)
  have hin : linkStateIn m s = if segUpTold s m = s.ring.segUp then s
      else ringChanged (routeTo s (managerPos s)) false { s with ring := { s.ring with segUp := segUpTold s m } } := by
    unfold linkStateIn
    exact if_neg (by simp [hkind]; omega)
  rw [hin]
  split
  case isTrue h => exact h.symm
  case isFalse => rw [hchanged]

theorem mem_segsTold {q : Nat} {side : Side} (heast : segOf (ringSize s) q side ≠ segOf (ringSize s) (ringPos s) .east)
    (hwest : segOf (ringSize s) q side ≠ segOf (ringSize s) (ringPos s) .west) :
    segOf (ringSize s) q side ∈ segsTold s q := by
  refine List.mem_filter.mpr ⟨?_, by simp [heast, hwest]⟩
  cases side
  · exact List.mem_cons_self
  · exact List.mem_cons_of_mem _ List.mem_cons_self

/-- A segment that the flit speaks for reads as the flit says; places beyond the word read 0 in both. -/
theorem getLsbD_segUpTold {i : Nat} (hi : i ∈ segsTold s (fieldNat m 24 8)) :
    (segUpTold s m).getLsbD i = (field m 32 16 : BitVec 16).getLsbD i := by
  by_cases h : i < 16
  · rw [segUpTold, getLsbD_foldl_take _ _ _ h, if_pos hi]
  · rw [BitVec.getLsbD_of_ge _ _ (Nat.le_of_not_lt h), BitVec.getLsbD_of_ge _ _ (Nat.le_of_not_lt h)]

end

/-! ### Flits, timers and wakes (R411, R418, R419) -/

section
variable {s : State} (hopen : linksOpen s = true)
include hopen

theorem exec_linkState (d : Side) (m : Line) : exec (.linkState d m) s =
    .next (settleLinks (linkStateIn m (takeInbox (sourceOf d) m s))) := by
  change execLinkState d m s = _
  exact linkRow_of hopen rfl

theorem exec_linkStateTimer_due (hplan : planOf s ≠ none) (hpower : s.power.state ≠ .retain)
    (hdue : s.ring.lastState + 480000 ≤ now s) : exec .linkStateTimer s = .next (settleLinks
      (broadcast 0 (linkStateFlit s) { s with ring := { s.ring with lastState := now s } })) := by
  change execLinkStateTimer s = _
  refine linkRow_of hopen (if_neg ?_)
  simp [Option.isNone_iff_eq_none, hplan, hpower, hdue]

theorem exec_testFlit (d : Side) (m : Line) : exec (.testFlit d m) s = .next (settleLinks
    (if m = testFlit (field m 32 32) then
      setLink d (fun l => { l with testRx := (field m 32 32 : BitVec 32) + 1 }) (takeInbox (sourceOf d) m s)
    else countLink d 7 1
      (setLink d (fun l => { l with testRx := (field m 32 32 : BitVec 32) + 1 }) (takeInbox (sourceOf d) m s)))) := by
  change execTestFlit d m s = _
  exact linkRow_of hopen rfl

/-- A wake of a link that sleeps and does not wake already; out of RETAIN nothing else is due. -/
theorem exec_wakeRequest_sleep {d : Side} (hphase : (link s d).txPhase = .sleep) (htrain : (link s d).train = none)
    (hpower : s.power.state ≠ .retain) : exec (.wakeRequest d) s = .next (settleLinks (setLink d (fun l => { l with
      sleepSent := false, sleepGot := false
      train := some { step := .clock, since := now s, wake := true, retrain := true } }) s)) := by
  have hawake : wakeFromRetain s = s := if_neg (by simp [hpower])
  change execWakeRequest d s = _
  refine linkRow_of hopen ?_
  rw [hawake]
  exact setLink_congr (if_pos (by simp [hphase, htrain]))

end

/-- Settles O58: the segments that a flit speaks for are a fold over their list; timer, test flit and wake are their
rows' changes. -/
theorem ringUpkeep : Obligations.RingUpkeep := by
  intro s d m hopen
  refine ⟨exec_linkState hopen d m, fun q hq hlt hn hkind side heast hwest => ?_,
    exec_linkStateTimer_due hopen, fun u hu => ⟨fun hm => ?_, fun hm => ?_⟩, exec_wakeRequest_sleep hopen⟩
  · subst hq
    rw [segUp_linkStateIn hlt hn hkind, getLsbD_segUpTold (mem_segsTold heast hwest)]
  · rw [exec_testFlit hopen, if_pos hm, hu]
  · rw [exec_testFlit hopen, if_neg hm, hu]

end Sys2Proof.Machine

/-! PROOF. Fabric messages are acknowledged, delivered once, released or given up (O59). -/
namespace Sys2Proof.Machine

/-! ### A message that comes in (R420, R422, R454) -/

section
variable {s : State} {e : BitVec 128} {beats : List (BitVec 128 × BitVec 16)}

/-- Out of RETAIN, both rows take the message in. -/
theorem exec_fmpMessage (hpower : s.power.state ≠ .retain) {c : Instr}
    (hc : c ∈ [Instr.fmpData beats, .fmpAck beats]) : exec c s = .next (fmpIn beats s) := by
  have hawake : wakeFromRetain s = s := if_neg (by simp [hpower])
  have hrow : exec c s = .next (fmpIn beats (wakeFromRetain s)) := by
    simp only [List.mem_cons, List.not_mem_nil, or_false] at hc
    rcases hc with rfl | rfl
    · rfl
    · rfl
  rw [hrow, hawake]

/-- The beats that a message of a kind has (R420). -/
def beatsOfKind (e : BitVec 128) : Nat := if envKind e = 1 then 5 else if envKind e = 2 then 1 else 0

/-- The payload that the beats after the envelope carry. -/
def payloadOf (beats : List (BitVec 128 × BitVec 16)) : Line :=
  ((beats.drop 1).zipIdx).foldl (fun l b => l ||| putLine (16 * b.2) b.1.1) 0

theorem fmpIn_ready (hready : ready s = true) (he : beats.head?.map (·.1) = some e) : fmpIn beats s =
    if beatsOfKind e = 0 || beats.length ≠ beatsOfKind e || !(beats.all fun b => parityOk b.1 b.2) then countPort 9 1 s
    else if envDest e ≠ s.fmp.self || !envCheckOk e then countFmp 5 1 s
    else if envKind e = 1 then fmpDataIn e (payloadOf beats) s
    else fmpAckIn e s := by
  have hhead : (beats.headD (0, 0)).1 = e := by
    cases beats with
    | nil => exact absurd he nofun
    | cons b beats => exact Option.some.inj he
  subst hhead
  exact if_neg (by simp [hready])

/-- A source not heard before: delivered, acknowledged and counted. -/
theorem fmpDataIn_fresh {payload : Line} (hpeer : s.fmp.peers.find? (·.src == envSrc e) = none) :
    ∃ peers, fmpDataIn e payload s = countFmp 3 1 (deliver .fmp 0 payload
      (fmpAckSend e { s with fmp := { s.fmp with peers := peers } })) := by
  unfold fmpDataIn
  dsimp only
  rw [hpeer]
  exact ⟨_, rfl⟩

/-- The highest SEQ of its session again: acknowledged and counted only. -/
theorem fmpDataIn_repeated {payload : Line} {p : FmpPeer} (hpeer : s.fmp.peers.find? (·.src == envSrc e) = some p)
    (hsession : p.session = envSession e) (hhigh : p.high = envSeq e) :
    ∃ peers, fmpDataIn e payload s = countFmp 4 1 (fmpAckSend e { s with fmp := { s.fmp with peers := peers } }) := by
  have hjudge : peerJudge p (envSeq e) = (false, p) := if_pos (by simp [hhigh])
  simp only [fmpDataIn, hpeer, hsession, if_true, hjudge]
  exact ⟨_, rfl⟩

theorem fmpDrain_empty (n : Nat) (hqueue : s.fmp.queue = []) : fmpDrain n s = s := by
  cases n with
  | zero => rfl
  | succ n =>
    rw [fmpDrain, hqueue]
    rfl

/-- An ACK releases its message; nothing waits that could follow. -/
theorem fmpAckIn_released (hqueue : s.fmp.queue = []) : fmpAckIn e s = { s with fmp := { s.fmp with
    out := s.fmp.out.filter fun m => !(m.dest == envSrc e && m.seq == envSeq e) } } := fmpDrain_empty _ hqueue

end

theorem fabricMessages : Rules.FabricMessages := by
  intro s e beats hready hpower he c hc good hgood
  have hexec : exec c s = .next _ := (exec_fmpMessage hpower hc).trans (congrArg _ (fmpIn_ready hready he))
  refine ⟨fun hbad => ?_, fun hkind hlen => ?_, fun hok hkind hlen => ?_, fun hok hkind hlen hself hcheck hqueue => ?_⟩
  · rw [hexec, if_pos (by simp [← hgood, hbad])]
  · rw [hexec, if_pos (by simp [beatsOfKind, hkind, hlen])]
  · rw [if_neg (by simp [beatsOfKind, hkind, hlen, ← hgood, hok])] at hexec
    refine ⟨fun hother => ?_, fun hself hcheck => ?_⟩
    · rw [hexec, if_pos (by simpa using hother)]
    · rw [if_neg (by simp [hself, hcheck]), if_pos hkind] at hexec
      refine ⟨fun hpeer => ?_, fun p hpeer hsession hhigh => ?_⟩
      · obtain ⟨peers, hin⟩ := fmpDataIn_fresh (payload := payloadOf beats) hpeer
        exact ⟨_, hexec.trans (congrArg _ hin), List.length_append, rfl, rfl, only_countFmp 3 1 (by decide)
          (only_deliver _ _ _ (by decide) (only_fmpAckSend e (by decide) (only_set_fmp (by decide) (only_refl _ s))))⟩
      · obtain ⟨peers, hin⟩ := fmpDataIn_repeated (payload := payloadOf beats) hpeer hsession hhigh
        exact ⟨_, hexec.trans (congrArg _ hin), rfl, rfl, only_countFmp 4 1 (by decide)
          (only_fmpAckSend e (by decide) (only_set_fmp (by decide) (only_refl _ s)))⟩
  · rw [if_neg (by simp [beatsOfKind, hkind, hlen, ← hgood, hok]), if_neg (by simp [hself, hcheck]),
      if_neg (by simp [hkind]), fmpAckIn_released hqueue] at hexec
    exact ⟨_, hexec, rfl, only_set_fmp (List.mem_singleton_self _) (only_refl _ s)⟩

/-! ### Messages without an answer (R421, R427) -/

/-- What FMP_STATUS shows of the message given up last. -/
def lossOf (s : State) : Bool × BitVec 32 := (s.fmp.lost, s.fmp.lostDest)

section
variable {s t : State}

theorem lossOf_of_fmp (h : t.fmp = s.fmp) : lossOf t = lossOf s := by
  rw [lossOf, lossOf, h]

theorem lossOf_fmpDrain (n : Nat) : lossOf (fmpDrain n s) = lossOf s := by
  induction n generalizing s with
  | zero => rfl
  | succ n ih =>
    unfold fmpDrain
    split
    · exact ih
    · rfl

theorem lossOf_holdNotice (cause : BitVec 8) : lossOf (holdNotice cause s) = lossOf s := by
  unfold holdNotice sendToParent
  split
  · split
    · exact lossOf_fmpDrain _
    · rfl
  · rfl

theorem lossOf_holdStep (cause : BitVec 8) (hi : BitVec 32) (src : BitVec 16) :
    lossOf (holdStep cause hi src s) = lossOf s := by
  have hheld (u : State) (v : Verdict) :
      lossOf (holdNotice cause (flashRing .hold { u with verdict := v })) = lossOf u :=
    (lossOf_holdNotice cause).trans (lossOf_of_fmp ((only_flashRing .hold (List.Subset.refl _)
      (only_refl _ { u with verdict := v })).part .fmp (by decide)))
  unfold holdStep
  dsimp only
  split
  · rfl
  · rw [hheld]
    split
    · rfl
    · exact lossOf_of_fmp (pulse_fmp ..)

/-- An epoch that fails at a leaf of the tree sends its notice through the port, which keeps what was lost. -/
theorem lossOf_epochFail : lossOf (epochFail s) = lossOf s := by
  have hfailed (memb : Memb) (hi : BitVec 32) (src : BitVec 16) :
      lossOf (holdStep 4 hi src (croakSet 0x04 (pulse 6 { s with memb := memb }))) = lossOf s :=
    (lossOf_holdStep ..).trans (lossOf_of_fmp (((only_croakSet 0x04 (List.Subset.refl _) (only_refl _ _)).part .fmp
      (by decide)).trans (pulse_fmp ..)))
  unfold epochFail
  split
  · exact hfailed ..
  · exact hfailed ..
  · rfl
  · rfl

end

/-- The state in which a message has been given up. -/
def gaveUp (m : FmpMsg) (dest : BitVec 32) (s : State) : State :=
  report 0x0905 (put 0 dest) (countFmp 2 1 { s with fmp := { s.fmp with
    out := s.fmp.out.filter (· != m), lost := true, lostAt := now s, lostDest := dest } })

section
variable {s : State} {dest : BitVec 32} {seq : BitVec 16} {m : FmpMsg}
  (hm : s.fmp.out.find? (fun m => m.dest == dest && m.seq == seq) = some m)
include hm

theorem fmpTimeout_early (h : now s < m.sentAt + 96000) : fmpTimeout dest seq s = s := by
  rw [fmpTimeout, hm]
  exact if_pos h

theorem fmpTimeout_again (h : m.sentAt + 96000 ≤ now s) (htries : m.tries < 3) :
    fmpTimeout dest seq s = countFmp 1 1 { s with fmp := { s.fmp with
      out := s.fmp.out.map fun x => if x = m then { m with tries := m.tries + 1, sentAt := now s } else x
      lastTx := some (envelope m.dest s.fmp.self s.fmp.session m.seq 1 (m.tries + 1), some m.payload) } } := by
  rw [fmpTimeout, hm]
  exact (if_neg (Nat.not_lt_of_le h)).trans (if_pos htries)

/-- After the third repetition the message is given up, and an epoch that waits for its parent fails. -/
theorem fmpTimeout_last (h : m.sentAt + 96000 ≤ now s) (htries : 3 ≤ m.tries) {u : State}
    (hu : u = fmpDrain (s.fmp.queue.length + 1) (gaveUp m dest s)) : fmpTimeout dest seq s =
      if isManager u && !isRoot u && ((planOf u).map (·.parent)) = some dest then epochFail u else u := by
  rw [fmpTimeout, hm, hu]
  exact (if_neg (Nat.not_lt_of_le h)).trans (if_neg (by simpa using htries))

end

theorem messageResends : Rules.MessageResends := by
  intro s dest seq m hready hm
  have hexec : exec (.fmpResendTimeout dest seq) s = .next (fmpTimeout dest seq s) := congrArg _ (if_pos hready)
  refine ⟨fun h => ?_, fun h htries => ?_, fun h htries => ?_⟩
  · rw [hexec, fmpTimeout_early hm h]
  · rw [hexec, fmpTimeout_again hm h htries]
  · have hgone := fmpTimeout_last hm h htries rfl
    have hloss : lossOf (fmpTimeout dest seq s) = (true, dest) := by
      rw [hgone]
      split
      · rw [lossOf_epochFail, lossOf_fmpDrain]
        rfl
      · rw [lossOf_fmpDrain]
        rfl
    obtain ⟨hlost, hdest⟩ := Prod.mk.inj hloss
    refine ⟨_, hexec, hlost, hdest, fun hmanager hqueue => ?_⟩
    have hempty : fmpDrain (s.fmp.queue.length + 1) (gaveUp m dest s) = gaveUp m dest s := fmpDrain_empty _ hqueue
    have hleaf : isManager (gaveUp m dest s) = false := (isManager_of_image (report_image ..)).trans hmanager
    rw [hgone, hempty, hleaf]
    rfl

/-- Settles O59: a message that comes in is judged by its beats, its envelope and its source; one that waits goes out
again or is given up, and what follows keeps what was lost. -/
theorem fabricMessagePort : Obligations.FabricMessagePort := ⟨fabricMessages, messageResends⟩

end Sys2Proof.Machine

/-! PROOF. A write completion is driven, and a good final gradient reaches the tongue with it (O8). -/
namespace Sys2Proof.Machine

/-! ### The norm store as a line is taken (R201, R204, R205) -/

section
variable {s : State} {t l : Nat}

theorem normOf_setNorm_same (f : NormRec → NormRec) : normOf (setNorm t f s) t = f (normOf s t) := by
  rw [normOf, setNorm]
  simp

theorem obs_element (n : NormRec) (x : F32) : (n.element x).obs = n.obs := by
  unfold NormRec.element
  split
  · rfl
  · rfl

theorem recs_element (g : Tongue) (x : F32) : (g.element x).recs = g.recs := by
  unfold Tongue.element
  split
  · rfl
  · rfl

/-- The elements of a line change neither how many lines are counted nor which records there are. -/
theorem obs_foldl_element (xs : List F32) (n : NormRec) : (xs.foldl NormRec.element n).obs = n.obs := by
  induction xs generalizing n with
  | nil => rfl
  | cons x xs ih => exact (ih _).trans (obs_element n x)

theorem recs_foldl_element (xs : List F32) (g : Tongue) : (xs.foldl Tongue.element g).recs = g.recs := by
  induction xs generalizing g with
  | nil => rfl
  | cons x xs ih => exact (ih _).trans (recs_element g x)

theorem normOf_of_recs {u : State} (h : u.tongue.recs = s.tongue.recs) : normOf u t = normOf s t := by
  rw [normOf, normOf, h]

/-- A line accumulated raises its record's line count by one, up to 28 bits. -/
theorem obs_accumulate (data : Line) :
    (normOf (accumulate t l data s) t).obs = min ((normOf s t).obs + 1) (2 ^ 28 - 1) := by
  rw [accumulate, normOf_setNorm_same]
  dsimp only [NormRec.judged]
  rw [obs_foldl_element, normOf_of_recs (recs_foldl_element _ _)]

theorem obs_observeWrite {line : BitVec 34} {mask : BitVec 64} (data : Line) (howner : lineOwner s line = some (t, l))
    (hmask : mask = BitVec.allOnes 64) :
    (normOf (observeWrite line mask data s) t).obs = min ((normOf s t).obs + 1) (2 ^ 28 - 1) := by
  rw [observeWrite, howner]
  exact (congrArg (fun u => (normOf u t).obs) (if_neg (not_not.mpr hmask))).trans (obs_accumulate data)

end

/-! ### What the tongue leaves of the memory path (R35, R199, R207) -/

section
variable {s : State}

theorem onlyQueues_of_mem {t : State} (h : t.mem = s.mem) : OnlyQueues s.mem t.mem := by
  rw [h]
  exact .refl _

theorem onlyQueues_enqueueAll (rs : List MemReq) : OnlyQueues s.mem (enqueueAll rs s).mem := by
  unfold enqueueAll
  induction rs generalizing s with
  | nil => exact .refl _
  | cons r rs ih => exact (enqueue_onlyQueues r s).trans ih

theorem onlyQueues_normNext (fuel : Nat) : OnlyQueues s.mem (normNext fuel s).mem := by
  induction fuel generalizing s with
  | zero => exact .refl _
  | succ fuel ih =>
    unfold normNext
    split
    case h_1 => exact .refl _
    case h_2 =>
      split
      case h_1 =>
        dsimp only
        split
        · exact ih
        · exact onlyQueues_enqueueAll _
      case h_2 => exact onlyQueues_enqueueAll _
      case h_3 => exact .refl _

theorem mem_observeWrite (line : BitVec 34) (mask : BitVec 64) (data : Line) :
    (observeWrite line mask data s).mem = s.mem :=
  (only_observeWrite line mask data (List.Subset.refl _) (only_refl _ s)).part .mem (by decide)

theorem onlyQueues_lateWrite (line : BitVec 34) : OnlyQueues s.mem (lateWrite line s).mem := by
  unfold lateWrite
  split
  · exact .refl _
  · dsimp only
    split
    · exact .refl _
    · split
      · exact onlyQueues_normNext _
      · exact .refl _

theorem mem_earlyWrite (line : BitVec 34) : (earlyWrite line s).mem = s.mem := by
  unfold earlyWrite
  split
  · rfl
  · split
    · rfl
    · rfl

/-- A write that the tongue takes, late as it may be, at most queues reads of the norm pass. -/
theorem onlyQueues_tongueTake (line : BitVec 34) (mask : BitVec 64) (data : Line) :
    OnlyQueues s.mem (tongueTake line mask data s).mem := by
  unfold tongueTake
  split
  · exact .refl _
  · split
    · exact onlyQueues_of_mem (mem_observeWrite ..)
    · exact onlyQueues_lateWrite _
    · exact onlyQueues_lateWrite _
    · exact onlyQueues_lateWrite _
    · exact onlyQueues_of_mem (mem_earlyWrite _)
    · exact onlyQueues_of_mem (mem_earlyWrite _)
    · exact .refl _
    · exact .refl _
    · exact .refl _

theorem tongueTake_observe (hwork : working s = true) (hphase : s.step.phase = .observe) {line : BitVec 34}
    {mask : BitVec 64} {data : Line} : tongueTake line mask data s = observeWrite line mask data s := by
  rw [tongueTake, if_neg (by simp [hwork]), hphase]

theorem OnlyQueues.hostOut {m n : MemPath} (h : OnlyQueues m n) : n.hostOut = m.hostOut := by rw [h]

theorem OnlyQueues.hostDone {m n : MemPath} (h : OnlyQueues m n) : n.hostDone = m.hostDone := by rw [h]

end

/-! ### The completion (R436, R438) -/

section
variable {d : HostDone} {s : State}

/-- The state in which the completion has been driven. -/
def completed (d : HostDone) (s : State) : State :=
  hostSend { port := d.port, tag := d.tag, write := true, err := d.err, line := d.line, cls := d.cls, acc := 0 }
    (setMem (fun m => { m with hostDone := m.hostDone.filter fun x => x.port != d.port || x.tag != d.tag }) s)

/-- A line noted as taken is only noted. -/
theorem noteTaken_eq (x : TakenLine) (s : State) :
    ∃ taken, noteTaken x s = { s with tongue := { s.tongue with taken := taken } } := by
  unfold noteTaken
  split
  · exact ⟨s.tongue.taken, rfl⟩
  · exact ⟨_, rfl⟩

/-- One that the tongue does not look at leaves it. -/
theorem hostComplete_untaken (h : d.err = true ∨ d.cls ≠ .finalGrad ∨ working s = false) :
    hostComplete d s = completed d s := by
  refine if_pos ?_
  change (d.err || d.cls != .finalGrad || !working s) = true
  rcases h with h | h | h
  · simp [h]
  · simp [h]
  · simp [h]

theorem hostComplete_taken (herr : d.err = false) (hcls : d.cls = .finalGrad) (hwork : working s = true) :
    ∃ taken, hostComplete d s = tongueTake d.line d.mask d.data
      { completed d s with tongue := { s.tongue with taken := taken } } := by
  obtain ⟨taken, hnoted⟩ := noteTaken_eq { line := d.line, mask := d.mask, data := d.data, port := d.port, tag := d.tag
                                           acc := _ } (completed d s)
  refine ⟨taken, (if_neg ?_).trans (congrArg (tongueTake d.line d.mask d.data) hnoted)⟩
  change ¬ (d.err || d.cls != .finalGrad || !working s) = true
  simp [herr, hcls, hwork]

theorem onlyQueues_hostComplete : OnlyQueues (completed d s).mem (hostComplete d s).mem := by
  by_cases h : d.err = true ∨ d.cls ≠ .finalGrad ∨ working s = false
  · rw [hostComplete_untaken h]
    exact .refl _
  · push Not at h
    obtain ⟨herr, hcls, hwork⟩ := h
    obtain ⟨taken, hin⟩ := hostComplete_taken (Bool.eq_false_iff.mpr herr) hcls (Bool.ne_false_iff.mp hwork)
    rw [hin]
    exact onlyQueues_tongueTake d.line d.mask d.data

end

/-- Settles O8: the completion is driven and taken off the list first; what the tongue then takes queues at most reads,
and in OBSERVE it is its owner's line, accumulated. -/
theorem writeCompletionReachesTongue : Obligations.WriteCompletionReachesTongue := by
  intro s port tag d hopen hfind
  have hexec : exec (.hostWriteCompletion port tag) s = .next (hostComplete d s) := by
    change execHostWriteCompletion port tag s = _
    rw [execHostWriteCompletion, hfind]
    exact congrArg _ (if_pos hopen)
  have hqueues : OnlyQueues (completed d s).mem (hostComplete d s).mem := onlyQueues_hostComplete
  refine ⟨_, hexec, hqueues.hostOut, hqueues.hostDone, fun hnot => ?_,
    fun herr hcls hwork hphase hmask x l howner => ?_⟩
  · rw [hostComplete_untaken (by tauto)]
    rfl
  · obtain ⟨taken, hin⟩ := hostComplete_taken herr hcls hwork
    have hobserve : tongueTake d.line d.mask d.data { completed d s with tongue := { s.tongue with taken := taken } } =
        observeWrite d.line d.mask d.data { completed d s with tongue := { s.tongue with taken := taken } } := by
      refine tongueTake_observe ?_ ?_
      · exact hwork
      · exact hphase
    rw [hin, hobserve]
    exact obs_observeWrite d.data howner hmask

end Sys2Proof.Machine

/-! PROOF. A cold reset clears all but the stack, and start-up passes through its stages to READY (O13). -/
namespace Sys2Proof.Machine

/-! ### Cold resets (R461, R469, R475, R552) -/

section
variable {s : State} {ns : Nat}

theorem pulseActs_long (h : 100 ≤ ns) : pulseActs ns s = (true, s) :=
  (if_neg (by omega)).trans (if_neg (by omega))

theorem pulseActs_short (h : ns < 20) : pulseActs ns s = (false, s) := if_pos h

theorem coldPin_long (pin : Boot → Boot) (cause : BitVec 8) (h : 100 ≤ ns) :
    coldPin pin cause ns s = coldClear cause false (setBoot pin s) := by
  rw [coldPin, pulseActs_long h]
  rfl

theorem coldPin_short (pin : Boot → Boot) (cause : BitVec 8) (h : ns < 20) : coldPin pin cause ns s = s := by
  rw [coldPin, pulseActs_short h]
  rfl

theorem warmPin_short (h : ns < 20) : warmPin ns s = s := by
  rw [warmPin, pulseActs_short h]
  rfl

end

theorem coldResets : Rules.ColdResets := by
  intro s ns
  refine ⟨fun hlong => ⟨?_, ?_⟩, fun hlocked => ?_, fun hshort => ⟨?_, ?_, ?_⟩⟩
  · exact congrArg Host.Outcome.next (coldPin_long _ _ hlong)
  · exact congrArg Host.Outcome.next (coldPin_long _ _ hlong)
  · exact congrArg Host.Outcome.next (if_pos hlocked)
  · exact congrArg Host.Outcome.next (coldPin_short _ _ hshort)
  · exact congrArg Host.Outcome.next (coldPin_short _ _ hshort)
  · exact congrArg Host.Outcome.next (warmPin_short hshort)

/-! ### Start-up step 4 (R476, R484, R491) -/

/-- c is b but for GCTL's link reset bits. -/
def SameBoot (b c : Boot) : Prop := c = { b with linkResetE := c.linkResetE, linkResetW := c.linkResetW }

theorem SameBoot.trans {b c e : Boot} (h : SameBoot b c) (h' : SameBoot c e) : SameBoot b e := by
  rw [SameBoot, h', h]

section
variable (d : Side) (s : State)

theorem sameBoot_goDown (cause : BitVec 8) : SameBoot s.boot (goDown d cause s).boot := by
  have hreported (u : State) (arg : Word) : (if expected (report 0x0904 arg u) d then
      croakSet 0x02 (report 0x0904 arg u) else report 0x0904 arg u).boot = u.boot :=
    OnlyChanges.part (L := [.health, .evt]) (only_ite (only_croakSet _ (by decide) (only_report _ _ (by decide)
      (only_refl _ u))) (only_report _ _ (by decide) (only_refl _ u))) .boot (by decide)
  rw [SameBoot, goDown, hreported]
  cases d
  · rfl
  · rfl

theorem sameBoot_linkRestart : SameBoot s.boot (linkRestart d s).boot := by
  unfold linkRestart
  split
  · split
    · exact sameBoot_goDown d s 5
    · have hboot : (startTraining d false (setLink d (fun l => { l with failed := 0 }) s)).boot = s.boot :=
        OnlyChanges.part (only_startTraining d false (List.Subset.refl _)
          (only_setLink d _ (by decide) (only_refl _ s))) .boot (by decide)
      rw [hboot]
      exact Eq.refl _
  · cases d
    · exact Eq.refl _
    · exact Eq.refl _

end

section
variable {s : State}

/-- Step 4 of the start-up has begun: what the links add in a warm reset leaves the boot's stage and the key store. -/
theorem startBoot_open (h : portOpen s = true) :
    SameBoot { s.boot with stage := .vault, code := 0x2, since := now s } (startBoot s).boot ∧
      (startBoot s).kst =
        (vaultInitBegin (setBoot (fun b => { b with stage := .vault, code := 0x2, since := now s }) s)).kst := by
  have hvault (u : State) : (vaultInitBegin u).boot = u.boot :=
    (only_vaultInitBegin (List.Subset.refl _) (only_refl _ u)).part .boot (by decide)
  have hsettle (u : State) : OnlyChanges [.health, .evt, .memb, .verdict, .hier, .east, .west, .ring, .fmp] u
      (segSettle u) := only_segSettle (List.Subset.refl _) (only_refl _ u)
  have hrestart (d : Side) (u : State) : OnlyChanges [.boot, .health, .evt, .hier, .east, .west] u (linkRestart d u) :=
    only_linkRestart d (List.Subset.refl _) (only_refl _ u)
  unfold startBoot
  rw [if_neg (by simp [h])]
  dsimp only
  split
  · constructor
    · rw [(hsettle _).part .boot (by decide)]
      have heast := sameBoot_linkRestart .east
        (vaultInitBegin (setBoot (fun b => { b with stage := .vault, code := 0x2, since := now s }) s))
      rw [hvault] at heast
      exact heast.trans (sameBoot_linkRestart .west _)
    · rw [(hsettle _).part .kst (by decide), (hrestart .west _).part .kst (by decide),
        (hrestart .east _).part .kst (by decide)]
  · rw [hvault]
    exact ⟨Eq.refl _, rfl⟩

/-- A port that is free and has rested raises the operation that waits first. -/
theorem kstNext_raises {o : KstOp} {rest : List KstOp} (hcur : s.kst.cur = none) (htodo : s.kst.todo = o :: rest)
    (hrest : s.kst.restAt ≤ portNow s) : (kstNext s).kst.cur = some (o, now s) := by
  unfold kstNext
  rw [hcur, htodo]
  exact congrArg (fun u : State => u.kst.cur) (if_pos hrest)

/-- With nothing at the key store, the first read of the initialisation goes out at once. -/
theorem vaultInitBegin_first (hkst : s.kst = {}) (hclk : s.clk = { pllLocked := true }) :
    (vaultInitBegin s).kst.cur = some ({ we := false, addr := 0, wdata := 0, use := .init }, 0) := by
  have hnow : now s = 0 := by
    rw [now, hclk]
    rfl
  have hbegun : s.kst.begun = {} := by
    rw [hkst]
    rfl
  unfold vaultInitBegin
  rw [hbegun]
  exact (kstNext_raises rfl rfl (Nat.zero_le _)).trans (congrArg (fun t => some (_, t)) hnow)

theorem exec_pllLock_starts (hpwr : s.boot.pwrOk = true) (hcold : s.boot.rstColdN = true)
    (hpll : s.clk.pllLocked = false) : exec .pllLock s = .next (startBoot { s with clk := { pllLocked := true } }) :=
  congrArg Host.Outcome.next (if_pos (by simp [hpwr, hcold, hpll]))

theorem pllLock_stage (hpwr : s.boot.pwrOk = true) (hcold : s.boot.rstColdN = true) (hwarm : s.boot.rstWarmN = true)
    (hpll : s.clk.pllLocked = false) : ∃ t, exec .pllLock s = .next t ∧ t.clk = { pllLocked := true } ∧
      t.boot.stage = .vault ∧ t.boot.code = 0x2 ∧
      (s.kst = {} → t.kst.cur = some ({ we := false, addr := 0, wdata := 0, use := .init }, 0)) ∧
      t.stack = s.stack := by
  have hopen : portOpen { s with clk := { pllLocked := true } } = true := by
    simp [portOpen, running, hpwr, hcold, hwarm]
  have honly := only_startBoot (List.Subset.refl _) (only_refl _ { s with clk := { pllLocked := true } })
  obtain ⟨hboot, hkst⟩ := startBoot_open hopen
  refine ⟨_, exec_pllLock_starts hpwr hcold hpll, honly.part .clk (by decide), ?_, ?_, fun hidle => ?_,
    honly.part .stack (by decide)⟩
  · rw [hboot]
  · rw [hboot]
  · rw [hkst]
    exact vaultInitBegin_first hidle rfl

end

/-! ### READY (R484, R486, R491, R512) -/

section
variable {s : State}

theorem vaultEnter_state (st : VaultState) : (vaultEnter st s).vault.state = st := by
  unfold vaultEnter
  dsimp only
  split
  · exact congrArg Vault.state ((only_croakSet 0x20 (List.Subset.refl _) (only_refl _ _)).part .vault (by decide))
  · rfl

/-- The vault's judgement leaves initialisation. -/
theorem vaultJudge_state : (vaultJudge s).vault.state ≠ .init := by
  unfold vaultJudge
  dsimp only
  rw [vaultEnter_state]
  repeat' split
  all_goals nofun

theorem bootTo_boot (code : BitVec 4) : ∃ c, (bootTo code s).boot = { s.boot with code := c } := by
  unfold bootTo
  split
  · exact ⟨code, rfl⟩
  · exact ⟨s.boot.code, rfl⟩

theorem bootLinks_boot : ∃ c, (bootLinks s).boot = { s.boot with code := c } := by
  unfold bootLinks
  dsimp only
  split
  · exact bootTo_boot 7
  · exact ⟨s.boot.code, rfl⟩

/-- READY, before BOOT goes on to the links. -/
def readied (s : State) : State :=
  report 0x0B04 (put 0 s.boot.cause) { s with
    boot := { s.boot with stage := .ready, code := 0x4, warm := false, seenReady := true }
    step := { s.step with phase := .idle } }

theorem reachReady_eq : reachReady s =
    bootLinks (if (planOf (readied s)).isSome then bootTo 6 (readied s) else readied s) := rfl

/-- Moving BOOT on to the links and past them changes its code only. -/
theorem reachReady_boot : ∃ c, (reachReady s).boot =
    { s.boot with stage := .ready, code := c, warm := false, seenReady := true } := by
  have hmoved : ∃ c, (if (planOf (readied s)).isSome then bootTo 6 (readied s) else readied s).boot =
      { (readied s).boot with code := c } := by
    split
    · exact bootTo_boot 6
    · exact ⟨_, rfl⟩
  obtain ⟨c, hmoved⟩ := hmoved
  obtain ⟨c', hlinks⟩ := bootLinks_boot (s := if (planOf (readied s)).isSome then bootTo 6 (readied s) else readied s)
  rw [hmoved] at hlinks
  rw [reachReady_eq]
  exact ⟨c', hlinks⟩

theorem reachReady_phase : (reachReady s).step.phase = .idle := by
  have hmoved : OnlyChanges [.boot] (readied s)
      (if (planOf (readied s)).isSome then bootTo 6 (readied s) else readied s) :=
    only_ite (only_bootTo 6 (List.Subset.refl _) (only_refl _ _)) (only_refl _ _)
  rw [reachReady_eq]
  exact congrArg (·.phase) ((only_bootLinks (List.Subset.refl _) hmoved).part .step (by decide))

/-- The initialisation's work is done: the vault is judged, and the self-test follows, or READY in a warm reset. -/
theorem exec_vaultInitDone_done (hopen : portOpen s = true) (hstage : s.boot.stage = .vault)
    (hcur : ∀ o, s.kst.cur = some o → o.1.use ≠ .init) (htodo : s.kst.todo = []) (hblocks : s.vault.blocksDue = 0)
    {u : State} (hu : u = vaultJudge { s with kst := s.kst.begun, vault := { s.vault with blocksDue := 0 } }) :
    exec .vaultInitDone s = .next (if u.boot.warm then reachReady u
      else setBoot (fun b => { b with stage := .sram, code := 0x3, since := now u }) u) := by
  subst hu
  refine congrArg Host.Outcome.next (if_pos ?_)
  cases hop : s.kst.cur with
  | none => simp [hopen, hstage, htodo, hblocks]
  | some o => simp [hopen, hstage, htodo, hblocks, hcur o hop]

end

theorem startUpStages : Rules.StartUpStages := by
  intro s
  refine ⟨fun hpwr hcold hwarm hpll => pllLock_stage hpwr hcold hwarm hpll,
    fun hopen hstage hcur htodo hblocks => ?_, fun hopen hstage => ⟨?_, ?_⟩⟩
  · have hexec := exec_vaultInitDone_done hopen hstage hcur htodo hblocks rfl
    have honly : OnlyChanges [.health, .evt, .kst, .vault] s
        (vaultJudge { s with kst := s.kst.begun, vault := { s.vault with blocksDue := 0 } }) :=
      only_vaultJudge (by decide) (only_set_kst_vault (by decide) (by decide) (only_refl _ s))
    have hboot := honly.part .boot (by decide)
    refine ⟨_, hexec, ?_, fun hwarm => ?_, fun hwarm => ?_⟩
    · have hready := (only_reachReady (List.Subset.refl _) (only_refl _ (vaultJudge { s with
        kst := s.kst.begun, vault := { s.vault with blocksDue := 0 } }))).part .vault (by decide)
      split
      · rw [hready]
        exact vaultJudge_state
      · exact vaultJudge_state
    · rw [if_neg (by rw [hboot, hwarm]; nofun)]
      exact ⟨rfl, rfl⟩
    · rw [if_pos (by rw [hboot, hwarm])]
      obtain ⟨c, hready⟩ := reachReady_boot (s := vaultJudge { s with
        kst := s.kst.begun, vault := { s.vault with blocksDue := 0 } })
      rw [hready]
      exact ⟨rfl, reachReady_phase, rfl⟩
  · obtain ⟨c, hboot⟩ := reachReady_boot (s := s)
    refine ⟨_, congrArg Host.Outcome.next ((if_pos (by simp [hopen, hstage])).trans (if_pos rfl)), ?_, ?_,
      reachReady_phase⟩
    · rw [hboot]
    · rw [hboot]
  · refine ⟨_, congrArg Host.Outcome.next ((if_pos (by simp [hopen, hstage])).trans (if_neg nofun)), ?_⟩
    have hboot (u : State) : (croakSet 0x80 u).boot = u.boot :=
      (only_croakSet 0x80 (List.Subset.refl _) (only_refl _ u)).part .boot (by decide)
    rw [hboot, croakSet_cause, BitVec.getLsbD_or]
    exact ⟨rfl, rfl, rfl, Bool.or_true _⟩

/-- Settles O13: a long low or a lost lock is the clear of everything but the pins and the stack; each stage's end
begins the next. -/
theorem coldResetAndStartUp : Obligations.ColdResetAndStartUp := ⟨coldResets, startUpStages⟩

end Sys2Proof.Machine

/-! PROOF. A warm reset drains, clears what it must, keeps the rest; a released pin lets start-up go on (O14). -/
namespace Sys2Proof.Machine

/-! ### The drain begins (R476, R479) -/

/-- The drain is shown, the ports fall silent, and what no memory channel has accepted is given up. -/
def drained (cause : BitVec 8) (s : State) : State :=
  dropUnissued (kstQuiet (silence (setBoot (fun b => { b with
    stage := .drain, code := 0x2, warm := true, cause := cause, since := now s }) s)))

theorem drained_boot (cause : BitVec 8) (s : State) : (drained cause s).boot = { s.boot with
    stage := .drain, code := 0x2, warm := true, cause := cause, since := now s } := rfl

section
variable {s : State} (cause : BitVec 8) (hready : s.boot.seenReady = true)
include hready

theorem warmBegin_seen :
    warmBegin cause s = (drained cause s).mem.wcb.foldl (fun s e => wcbFlush e s) (drained cause s) :=
  if_neg (by simp [hready])

theorem warmBegin_boot : (warmBegin cause s).boot = { s.boot with
    stage := .drain, code := 0x2, warm := true, cause := cause, since := now s } := by
  have hflushed : OnlyChanges [.mem] (drained cause s) (warmBegin cause s) := by
    rw [warmBegin_seen cause hready]
    exact only_foldl (only_refl _ _) fun _ e hu => only_wcbFlush e (List.Subset.refl _) hu
  exact (hflushed.part .boot (by decide)).trans (drained_boot cause s)

/-- What the memory channels have accepted goes on. -/
theorem warmBegin_flights : (warmBegin cause s).mem.flights = s.mem.flights := by
  have hflushed (entries : List WcbEntry) (u : State) :
      (entries.foldl (fun s e => wcbFlush e s) u).mem.flights = u.mem.flights := by
    induction entries generalizing u with
    | nil => rfl
    | cons e entries ih => exact (ih _).trans (wcbFlush_onlyQueues e u).flights
  rw [warmBegin_seen cause hready, hflushed]
  rfl

end

theorem warmBegin_stack (cause : BitVec 8) (s : State) : (warmBegin cause s).stack = s.stack :=
  (only_warmBegin cause (List.Subset.refl _) (only_refl _ s)).part .stack (by decide)

theorem warmPin_long {s : State} {ns : Nat} (hns : 100 ≤ ns) (hrun : running s = true) :
    warmPin ns s = warmBegin 0x04 (setBoot (fun b => { b with rstWarmN := false }) s) := by
  rw [warmPin, pulseActs_long hns]
  exact (if_neg nofun).trans (if_pos hrun)

/-! ### FATAL stays cleared as the start-up follows (R475, R476) -/

section
variable {s : State}

theorem fatal_of_health {t : State} (h : t.health = s.health) : t.health.fatal = s.health.fatal := by
  rw [h]

theorem fatal_pulse (line : BitVec 6) : (pulse line s).health.fatal = s.health.fatal :=
  fatal_of_health ((only_pulse line (List.Subset.refl _) (only_refl _ s)).part .health (by decide))

theorem fatal_croakSet (causes : BitVec 8) : (croakSet causes s).health.fatal = s.health.fatal := by
  unfold croakSet
  dsimp only
  split
  · rfl
  · split
    · exact fatal_pulse 14
    · rfl

theorem fatal_holdStep (cause : BitVec 8) (hi : BitVec 32) (src : BitVec 16) :
    (holdStep cause hi src s).health.fatal = s.health.fatal := by
  have hheld (u : State) (v : Verdict) :
      (holdNotice cause (flashRing .hold { u with verdict := v })).health.fatal = u.health.fatal :=
    fatal_of_health (OnlyChanges.part (L := [.east, .west, .fmp]) (s := { u with verdict := v })
      (only_holdNotice cause (by decide) (only_flashRing .hold (by decide) (only_refl _ _))) .health (by decide))
  unfold holdStep
  dsimp only
  split
  · rfl
  · rw [hheld]
    split
    · rfl
    · exact fatal_pulse 7

theorem fatal_epochFail : (epochFail s).health.fatal = s.health.fatal := by
  have hfailed (memb : Memb) (hi : BitVec 32) (src : BitVec 16) :
      (holdStep 4 hi src (croakSet 0x04 (pulse 6 { s with memb := memb }))).health.fatal = s.health.fatal :=
    (fatal_holdStep ..).trans ((fatal_croakSet _).trans (fatal_pulse 6))
  unfold epochFail
  split
  · exact hfailed ..
  · exact hfailed ..
  · rfl
  · rfl

theorem fatal_ringChanged (old : Option (Side × Nat)) (back : Bool) :
    (ringChanged old back s).health.fatal = s.health.fatal := by
  have hring : (resendRing s).health.fatal = s.health.fatal :=
    fatal_of_health ((only_resendRing (List.Subset.refl _) (only_refl _ s)).part .health (by decide))
  unfold ringChanged
  split
  · split
    · exact hring
    · exact fatal_epochFail.trans hring
  · split
    · exact fatal_epochFail
    · split
      · exact fatal_of_health ((only_resendUnresolved (List.Subset.refl _) (only_refl _ s)).part .health (by decide))
      · rfl

theorem fatal_segSettle : (segSettle s).health.fatal = s.health.fatal := by
  have htold (r : Ring) (m : Line) : (broadcast 0 m { s with ring := r }).health.fatal = s.health.fatal :=
    fatal_of_health ((only_broadcast 0 m (List.Subset.refl _) (only_refl _ { s with ring := r })).part .health
      (by decide))
  unfold segSettle
  split
  · rfl
  · dsimp only
    split
    · rfl
    · exact (fatal_ringChanged _ _).trans (htold _ _)

theorem fatal_goDown (d : Side) (cause : BitVec 8) : (goDown d cause s).health.fatal = s.health.fatal := by
  have hover (f : LinkEnd → LinkEnd) : (trainingOver d (setLink d f s)).health = s.health :=
    OnlyChanges.part (only_trainingOver d (List.Subset.refl _) (only_setLink d f (by decide) (only_refl _ s)))
      .health (by decide)
  have hreported (f : LinkEnd → LinkEnd) (arg : Word) :
      (report 0x0904 arg (trainingOver d (setLink d f s))).health.fatal = s.health.fatal := by
    have hkept := fatal_of_health (hover f)
    exact hkept
  unfold goDown
  dsimp only
  split
  · exact (fatal_croakSet _).trans (hreported ..)
  · exact hreported ..

theorem fatal_linkRestart (d : Side) : (linkRestart d s).health.fatal = s.health.fatal := by
  have hover (u : State) : (trainingOver d u).health = u.health :=
    (only_trainingOver d (List.Subset.refl _) (only_refl _ u)).part .health (by decide)
  have hset (f : LinkEnd → LinkEnd) : (setLink d f s).health = s.health :=
    (only_setLink d f (List.Subset.refl _) (only_refl _ s)).part .health (by decide)
  unfold linkRestart
  split
  · split
    · exact fatal_goDown d 5
    · exact fatal_of_health (((only_startTraining d false (List.Subset.refl _) (only_refl _ _)).part .health
        (by decide)).trans (hset _))
  · exact fatal_of_health ((hover _).trans (hset _))

theorem fatal_startBoot : (startBoot s).health.fatal = s.health.fatal := by
  have hvault (u : State) : (vaultInitBegin u).health = u.health :=
    (only_vaultInitBegin (List.Subset.refl _) (only_refl _ u)).part .health (by decide)
  unfold startBoot
  split
  · rfl
  · dsimp only
    split
    · rw [fatal_segSettle, fatal_linkRestart, fatal_linkRestart, hvault]
      rfl
    · rw [hvault]
      rfl

end

/-! ### The clear (R475, R476) -/

section
variable {s : State}

theorem fatal_rescale : (rescale s).health.fatal = s.health.fatal := by
  unfold rescale
  dsimp only
  split
  · rfl
  · rfl

theorem active_recheckSwp : (recheckSwp s).image.active = s.image.active := by
  unfold recheckSwp
  split
  · rfl
  · rfl

theorem active_recheckTable : (recheckTable s).image.active = s.image.active := by
  unfold recheckTable
  split
  · dsimp only
    split
    · rfl
    · rfl
  · rfl

/-- The fields cleared, with the regulator and the variant taken again. -/
def rescaled (s : State) : State := rescale (chooseVariant 0 (warmFields s))

/-- After the re-checks of a molt that was under way. -/
def rechecked (s : State) : State := if s.image.molting then recheckTable (recheckSwp (rescaled s)) else rescaled s

theorem warmClear_eq : warmClear s = setBoot (fun b => { b with
    stage := .waitLock, code := 0x2, bootErr := 0, gctlErr := 0, warm := true, fabricReset := false, fabricUntil := none
    linkResetE := false, linkResetW := false }) (rechecked s) := rfl

theorem only_rescaled : OnlyChanges [.health, .mem, .fab] (warmFields s) (rescaled s) :=
  only_rescale (by decide) (only_chooseVariant 0 (by decide) (only_refl _ _))

theorem only_rechecked :
    OnlyChanges [.health, .mem, .fab, .image, .ttab, .swp, .tongue] (warmFields s) (rechecked s) := by
  have hscaled : OnlyChanges [.health, .mem, .fab, .image, .ttab, .swp, .tongue] (warmFields s) (rescaled s) :=
    only_rescale (by decide) (only_chooseVariant 0 (by decide) (only_refl _ _))
  exact only_ite (only_recheckTable (by decide) (only_recheckSwp (by decide) hscaled)) hscaled

theorem active_rechecked : (rechecked s).image.active = s.image.active := by
  have himage : (rescaled s).image = (warmFields s).image := only_rescaled.part .image (by decide)
  have hscaled : (rescaled s).image.active = s.image.active := by
    rw [himage]
    rfl
  unfold rechecked
  split
  · rw [active_recheckTable, active_recheckSwp, hscaled]
  · exact hscaled

theorem fatal_rechecked : (rechecked s).health.fatal = false := by
  have hscaled : (rescaled s).health.fatal = false := by
    rw [rescaled, fatal_rescale]
    exact fatal_of_health ((only_chooseVariant 0 (List.Subset.refl _) (only_refl _ (warmFields s))).part .health
      (by decide))
  have hkept : OnlyChanges [.image, .ttab, .swp, .tongue] (rescaled s) (rechecked s) :=
    only_ite (only_recheckTable (by decide) (only_recheckSwp (by decide) (only_refl _ _))) (only_refl _ _)
  exact (fatal_of_health (hkept.part .health (by decide))).trans hscaled

/-- What the clear and the start-up after it leave: everything that the re-checks, the boot and the links do not touch
is as the clear has it. -/
theorem only_cleared : OnlyChanges [.boot, .health, .evt, .kst, .vault, .mem, .image, .ttab, .swp, .fab, .tongue, .memb,
    .verdict, .hier, .east, .west, .ring, .fmp] (warmFields s) (startBoot (warmClear s)) := by
  refine only_startBoot (by decide) (only_setBoot _ (by decide) ?_)
  have hscaled : OnlyChanges [.boot, .health, .evt, .kst, .vault, .mem, .image, .ttab, .swp, .fab, .tongue, .memb,
      .verdict, .hier, .east, .west, .ring, .fmp] (warmFields s) (rescaled s) :=
    only_rescale (by decide) (only_chooseVariant 0 (by decide) (only_refl _ _))
  exact only_ite (only_recheckTable (by decide) (only_recheckSwp (by decide) hscaled)) hscaled

theorem warmClear_boot : (warmClear s).boot = { s.boot with
    stage := .waitLock, code := 0x2, bootErr := 0, gctlErr := 0, warm := true, fabricReset := false, fabricUntil := none
    linkResetE := false, linkResetW := false } := by
  have hboot : (rechecked s).boot = s.boot := only_rechecked.part .boot (by decide)
  rw [warmClear_eq, setBoot, hboot]

/-- The start-up follows when rst_warm_n is high. -/
theorem startBoot_warmClear (hrun : running s = true) : (startBoot (warmClear s)).boot.warm = true ∧
    (startBoot (warmClear s)).boot.stage = if s.boot.rstWarmN then .vault else .waitLock := by
  have hclk : (warmClear s).clk = s.clk := (only_warmClear (List.Subset.refl _) (only_refl _ s)).part .clk (by decide)
  have hopen : portOpen (warmClear s) = s.boot.rstWarmN := by
    simp only [portOpen, running, warmClear_boot, hclk] at hrun ⊢
    rw [hrun, Bool.true_and]
  cases hwarm : s.boot.rstWarmN
  · have hwaits : startBoot (warmClear s) = warmClear s := if_pos (by rw [hopen, hwarm]; rfl)
    rw [hwaits, warmClear_boot]
    exact ⟨rfl, rfl⟩
  · obtain ⟨hboot, -⟩ := startBoot_open (hopen.trans hwarm)
    rw [hboot, warmClear_boot]
    exact ⟨rfl, rfl⟩

end

theorem warmReset : Rules.WarmReset := by
  intro s ns w
  refine ⟨fun hns hrun hseen => ?_, fun hready hseen haction hkey hdiv => ?_, fun hrun hstage hdrained => ?_⟩
  · have hexec : exec (.warmReset ns) s = .next (warmBegin 0x04 (setBoot (fun b => { b with rstWarmN := false }) s)) :=
      congrArg Host.Outcome.next (warmPin_long hns hrun)
    have hboot := warmBegin_boot (s := setBoot (fun b => { b with rstWarmN := false }) s) 0x04 hseen
    refine ⟨_, hexec, ?_, ?_, ?_, ?_, warmBegin_flights 0x04 hseen, warmBegin_stack 0x04 _⟩
    all_goals rw [hboot]
    all_goals rfl
  · have hexec : exec (.gctlWarmReset w) s = .next (respond 0x04 (warmBegin 0x05 (gctlTaken w s))) :=
      congrArg Host.Outcome.next ((gctl_answers hready hdiv haction).2.1 rfl hkey)
    have hseen' : (gctlTaken w s).boot.seenReady = true := by
      rw [gctlTaken_boot]
      exact hseen
    have hmem : (gctlTaken w s).mem = s.mem := only_gctlTaken.part .mem (by decide)
    have hboot := warmBegin_boot 0x05 hseen'
    have hflights := warmBegin_flights 0x05 hseen'
    rw [gctlTaken_boot] at hboot
    rw [hmem] at hflights
    refine ⟨_, hexec, ?_, ?_, ?_, ?_, hflights,
      (warmBegin_stack 0x05 _).trans (only_gctlTaken.part .stack (by decide)), rfl⟩
    all_goals rw [respond_boot, hboot]
  · have hexec : exec .warmResetDrainDone s = .next (startBoot (warmClear s)) :=
      congrArg Host.Outcome.next (if_pos (by simp [hrun, hstage, hdrained]))
    have hcleared := only_cleared (s := s)
    have himage : (startBoot (warmClear s)).image = (warmClear s).image :=
      (only_startBoot (List.Subset.refl _) (only_refl _ _)).part .image (by decide)
    have hstepk : (startBoot (warmClear s)).stepk = (warmFields s).stepk := hcleared.part .stepk (by decide)
    have hrng : (startBoot (warmClear s)).rng = (warmFields s).rng := hcleared.part .rng (by decide)
    have hlease : (startBoot (warmClear s)).lease = (warmFields s).lease := hcleared.part .lease (by decide)
    obtain ⟨hwarm, hnext⟩ := startBoot_warmClear hrun
    refine ⟨_, hexec, hcleared.part .step (by decide), hcleared.part .sweep (by decide),
      hcleared.part .snap (by decide), hcleared.part .lscale (by decide), fatal_startBoot.trans fatal_rechecked,
      (congrArg ImageUnit.active himage).trans active_rechecked, ?_, ?_, ?_, hcleared.part .stack (by decide), hwarm,
      hnext⟩
    · rw [hstepk]
      rfl
    · rw [hrng]
      rfl
    · rw [hlease]
      rfl

/-- The boot that waited at its start begins as the warm reset pin rises. -/
theorem release_warm_starts {s : State} (hrun : running s = true) (hstage : s.boot.stage = .waitLock) :
    (release .warm s).boot.stage = .vault ∧ (release .warm s).boot.rstWarmN = true := by
  have hrelease : release .warm s = startBoot { s with boot := { s.boot with rstWarmN := true } } :=
    if_pos (by simp [setBoot, hstage])
  have hopen : portOpen { s with boot := { s.boot with rstWarmN := true } } = true := by
    simpa [portOpen, running] using hrun
  obtain ⟨hboot, -⟩ := startBoot_open hopen
  rw [hrelease, hboot]
  exact ⟨rfl, rfl⟩

theorem resetRelease : Rules.ResetRelease := by
  intro s hstage
  have hbusy : ¬ (s.boot.stage == .waitLock) = true := by simpa using hstage
  exact ⟨congrArg Host.Outcome.next (if_neg hbusy), congrArg Host.Outcome.next (if_neg hbusy),
    congrArg Host.Outcome.next (if_neg hbusy), fun hrun => ⟨_, rfl, release_warm_starts hrun rfl⟩⟩

/-- Settles O14: the drain begins with the boot's fields and keeps what the channels have accepted; the clear and the
start-up after it each touch parts that the other named fields are not in; a released pin starts a boot that waited. -/
theorem warmResetAndRelease : Obligations.WarmResetAndRelease := ⟨warmReset, resetRelease⟩

end Sys2Proof.Machine
